-- ==== Sys2Proof/Word.lean ====
section
/-!
DEFINITION. Words: bits are bit vectors, sizes and addresses of cells are natural numbers (R14).
-/

namespace Sys2Proof

/-- A 32-bit register value. -/
abbrev W32 := BitVec 32

/-- A 64-bit value: a pair of registers, a virtual address, a program counter. -/
abbrev W64 := BitVec 64

/-- A byte of memory. -/
abbrev Byte := BitVec 8

end Sys2Proof
end

