-- ==== Sys2Proof/Machine/Map.lean ====
section
/-!
DEFINITION. Sparse maps in one canonical form: keys strictly rising, no entry equal to what an unlisted key reads as. Memory, register
files and the tables of the part are such maps, so that equal contents are equal data.
-/

namespace Sys2Proof.Machine

/-- A sparse map from numbers. -/
abbrev SMap (α : Type) := List (Nat × α)

/-- What key `k` reads as; an unlisted key reads as `d`. -/
def mget {α : Type} (d : α) : SMap α → Nat → α
  | [], _ => d
  | (k', v) :: m, k => if k = k' then v else mget d m k

/-- The map with key `k` reading as `v`. -/
def mput {α : Type} [DecidableEq α] (d : α) : SMap α → Nat → α → SMap α
  | [], k, v => if v = d then [] else [(k, v)]
  | (k', v') :: m, k, v =>
    if k = k' then (if v = d then mput d m k v else (k, v) :: m)
    else if k < k' then (if v = d then (k', v') :: mput d m k v else (k, v) :: (k', v') :: m)
    else (k', v') :: mput d m k v

/-- The canonical form, from a lower bound of the keys. -/
def mwfFrom {α : Type} [DecidableEq α] (d : α) : Nat → SMap α → Bool
  | _, [] => true
  | lo, (k, v) :: m => decide (lo ≤ k) && decide (v ≠ d) && mwfFrom d (k + 1) m

/-- The canonical form of a sparse map. -/
def mwf {α : Type} [DecidableEq α] (d : α) (m : SMap α) : Bool := mwfFrom d 0 m

/-- Element `i` of a list, or `d`. -/
def nth {α : Type} (d : α) : List α → Nat → α
  | [], _ => d
  | x :: _, 0 => x
  | _ :: xs, n + 1 => nth d xs n

/-- The list with element `i` replaced; unchanged past its end. -/
def setNth {α : Type} : List α → Nat → α → List α
  | [], _, _ => []
  | _ :: xs, 0, y => y :: xs
  | x :: xs, n + 1, y => x :: setNth xs n y

/-- The numbers a to a + n - 1. -/
def span : Nat → Nat → List Nat
  | _, 0 => []
  | a, n + 1 => a :: span (a + 1) n

/-- The numbers 0 to n - 1. -/
def upto (n : Nat) : List Nat := span 0 n

/-- The lane slots of a group (R16). -/
def lanes32 : List Nat := [0, 1, 2, 3, 4, 5, 6, 7, 8, 9, 10, 11, 12, 13, 14, 15, 16, 17, 18, 19, 20, 21, 22, 23, 24, 25, 26, 27, 28, 29, 30, 31]

/-- Bit `l` of a lane set. -/
def hasLane (m : BitVec 32) (l : Nat) : Bool := m.getLsbD l

/-- The lanes of a set, in ascending order. -/
def lanesOf (m : BitVec 32) : List Nat := lanes32.filter (hasLane m)

/-- The set of one lane. -/
def laneBit (l : Nat) : BitVec 32 := BitVec.ofNat 32 (2 ^ l)

/-- The lanes that satisfy a test, as a set. -/
def laneSet (p : Nat → Bool) : BitVec 32 := BitVec.ofNat 32 (lanes32.foldl (fun a l => if p l then a + 2 ^ l else a) 0)

/-- The lowest lane of a set, 32 for none. -/
def lowestLane (m : BitVec 32) : Nat := (lanesOf m).headD 32

/-- Sign extension of a number of `n` bits to an integer. -/
def sextInt (n v : Nat) : Int := if v % 2 ^ n < 2 ^ (n - 1) then (v % 2 ^ n : Nat) else (v % 2 ^ n : Nat) - (2 ^ n : Nat)

/-- A number from little-endian bytes (R14). -/
def ofBytes : List Byte → Nat
  | [] => 0
  | b :: bs => b.toNat + 256 * ofBytes bs

/-- `n` little-endian bytes of a number (R14). -/
def toBytes : Nat → Nat → List Byte
  | 0, _ => []
  | n + 1, v => BitVec.ofNat 8 v :: toBytes n (v / 256)

/-- `x` rounded up to a multiple of `m`. -/
def roundUp (x m : Nat) : Nat := (x + m - 1) / m * m

/-- Field of `len` bits at bit `lo` of a number. -/
def bits (v lo len : Nat) : Nat := v / 2 ^ lo % 2 ^ len

/-- The first element that satisfies a test. -/
def firstWhere {α : Type} (p : α → Bool) : List α → Option α
  | [] => none
  | x :: xs => if p x then some x else firstWhere p xs

/-- The list with `f` applied to every element that satisfies a test. -/
def mapWhere {α : Type} (p : α → Bool) (f : α → α) (l : List α) : List α := l.map fun x => if p x then f x else x

/-- The position of the first element that satisfies a test. -/
def posOf {α : Type} (p : α → Bool) : List α → Option Nat
  | [] => none
  | x :: xs => if p x then some 0 else (posOf p xs).map (· + 1)

/-- The list without element `i`. -/
def dropNth {α : Type} : List α → Nat → List α
  | [], _ => []
  | _ :: xs, 0 => xs
  | x :: xs, n + 1 => x :: dropNth xs n

/-- Distinct elements of a list, in order of first appearance. -/
def distinct {α : Type} [DecidableEq α] (l : List α) : List α := l.foldl (fun a x => if a.contains x then a else a ++ [x]) []

/-- Sum of a list of numbers. -/
def sumNat (l : List Nat) : Nat := l.foldl (· + ·) 0

/-- Least number of a list, `d` when it is empty. -/
def minNat (d : Nat) (l : List Nat) : Nat := match l with | [] => d | x :: xs => xs.foldl Nat.min x

/-- Greatest number of a list, 0 when it is empty. -/
def maxNat (l : List Nat) : Nat := l.foldl Nat.max 0

end Sys2Proof.Machine
end

