-- ==== Sys2Proof/Machine/Flags.lean ====
section
/-!
DEFINITION. Floating-point formats, rounding and flags (R105 to R115): exact values as sign, integer and exponent of two; one rounding into a
format; the flags it raises (R49, R111, R112).
-/

namespace Sys2Proof.Machine

/-- Bits of %fpflags (R49). -/
abbrev flNV : W32 := 16
abbrev flDZ : W32 := 8
abbrev flOF : W32 := 4
abbrev flUF : W32 := 2
abbrev flNX : W32 := 1

/-- What the top exponent of a format holds (R105): infinity and NaN; NaN in one code only (E4M3); finite values only. -/
inductive TopKind where
  | ieee | e4m3 | finite
deriving DecidableEq, Repr

/-- A format of R105. -/
structure Fmt where
  ebits : Nat
  mbits : Nat
  bias : Nat
  top : TopKind := .ieee
  /-- the canonical NaN (R107) -/
  nan : Nat := 0
deriving DecidableEq, Repr

def fmtF64 : Fmt := { ebits := 11, mbits := 52, bias := 1023, nan := 0x7FF8000000000000 }
def fmtF32 : Fmt := { ebits := 8, mbits := 23, bias := 127, nan := 0x7FC00000 }
def fmtF16 : Fmt := { ebits := 5, mbits := 10, bias := 15, nan := 0x7E00 }
def fmtBF16 : Fmt := { ebits := 8, mbits := 7, bias := 127, nan := 0x7FC0 }
def fmtE4M3 : Fmt := { ebits := 4, mbits := 3, bias := 7, top := .e4m3, nan := 0x7F }
def fmtE5M2 : Fmt := { ebits := 5, mbits := 2, bias := 15, nan := 0x7E }
def fmtE2M3 : Fmt := { ebits := 2, mbits := 3, bias := 1, top := .finite }
def fmtE3M2 : Fmt := { ebits := 3, mbits := 2, bias := 3, top := .finite }
def fmtE2M1 : Fmt := { ebits := 2, mbits := 1, bias := 1, top := .finite }

/-- A value: NaN (signalling or not), infinity, or (−1)^neg × m × 2^e (R106). -/
inductive FV where
  | nan (signalling : Bool)
  | inf (neg : Bool)
  | fin (neg : Bool) (m : Nat) (e : Int)
deriving DecidableEq, Repr

/-- The value of a code (R105 to R107). -/
def Fmt.decode (f : Fmt) (code : Nat) : FV :=
  let neg := bits code (f.ebits + f.mbits) 1 == 1
  let e := bits code f.mbits f.ebits
  let m := bits code 0 f.mbits
  let special := match f.top with
    | .ieee => e == 2 ^ f.ebits - 1
    | .e4m3 => e == 15 && m == 7
    | .finite => false
  if special then
    if f.top = .ieee && m = 0 then .inf neg
    else .nan (f.top = .ieee && bits m (f.mbits - 1) 1 == 0)
  else if e = 0 then .fin neg m (1 - (f.bias : Int) - (f.mbits : Int))
  else .fin neg (m + 2 ^ f.mbits) ((e : Int) - (f.bias : Int) - (f.mbits : Int))

/-- Largest exponent field of a finite value, and its mantissa. -/
def Fmt.maxE (f : Fmt) : Nat := match f.top with | .ieee => 2 ^ f.ebits - 2 | _ => 2 ^ f.ebits - 1
def Fmt.maxM (f : Fmt) : Nat := match f.top with | .e4m3 => 6 | _ => 2 ^ f.mbits - 1

/-- Codes by sign. -/
def Fmt.signed (f : Fmt) (neg : Bool) (c : Nat) : Nat := if neg then c + 2 ^ (f.ebits + f.mbits) else c
def Fmt.zero (f : Fmt) (neg : Bool) : Nat := f.signed neg 0
def Fmt.inf (f : Fmt) (neg : Bool) : Nat := f.signed neg ((2 ^ f.ebits - 1) * 2 ^ f.mbits)
def Fmt.largest (f : Fmt) (neg : Bool) : Nat := f.signed neg (f.maxE * 2 ^ f.mbits + f.maxM)

/-- Rounding modes (R111, R115); a stochastic one carries the generator after its step. -/
inductive RMode where
  | rne | rz | ru | rd | rna
  | stoch (g : Nat)
deriving DecidableEq, Repr

/-- The mode in RM of %fpcr (R110); reserved values are never held. -/
def rmOf (fpcr : W32) : RMode :=
  match fpcr.toNat % 8 with
  | 1 => .rz
  | 2 => .ru
  | 3 => .rd
  | 4 => .rna
  | _ => .rne

/-- SAT and FTZ of %fpcr (R110). -/
def satOf (fpcr : W32) : Bool := fpcr.getLsbD 4
def ftzOf (fpcr : W32) : Bool := fpcr.getLsbD 3

/-- The number of bits of a number. -/
def bitLen (n : Nat) : Nat := if n = 0 then 0 else Nat.log2 n + 1

/-- m × 2^e, with a nonzero rest below it when `sticky`, cut at 2^q: the multiple below, whether the rest is 0, and its order against one
half of 2^q; `sticky` needs q > e. -/
structure Cut where
  lo : Nat
  exact : Bool
  half : Ordering
  /-- the rest in units of 2^(q - 32), truncated (R115) -/
  frac : Nat
deriving Repr

/-- The cut of a magnitude at 2^q. -/
def cutAt (m : Nat) (e q : Int) (sticky : Bool) : Cut :=
  if q ≤ e then { lo := m * 2 ^ (e - q).toNat, exact := !sticky, half := .lt, frac := 0 }
  else
    let s := (q - e).toNat
    let r := m % 2 ^ s
    { lo := m / 2 ^ s
      exact := r == 0 && !sticky
      half := if r < 2 ^ (s - 1) then .lt else if r = 2 ^ (s - 1) && !sticky then .eq else .gt
      frac := r * 2 ^ 32 / 2 ^ s }

/-- The rounded multiple (R111, R115). -/
def roundCut (mode : RMode) (neg : Bool) (c : Cut) : Nat :=
  if c.exact then c.lo
  else
    let up : Bool := match mode with
      | .rne => c.half == .gt || (c.half == .eq && c.lo % 2 == 1)
      | .rz => false
      | .ru => !neg
      | .rd => neg
      | .rna => c.half != .lt
      | .stoch g => 2 ^ 32 ≤ c.frac + g
    if up then c.lo + 1 else c.lo

/-- Order of two magnitudes a × 2^i and b × 2^j. -/
def magLt (a : Nat) (i : Int) (b : Nat) (j : Int) : Bool :=
  let k := min i j
  a * 2 ^ (i - k).toNat < b * 2 ^ (j - k).toNat

/-- What an overflow writes (R112). -/
def Fmt.overflow (f : Fmt) (mode : RMode) (sat neg : Bool) : Nat × W32 :=
  let ieee := match mode with
    | .rz => f.largest neg
    | .ru => if neg then f.largest neg else f.inf neg
    | .rd => if neg then f.inf neg else f.largest neg
    | _ => f.inf neg
  match f.top with
  | .finite => (f.largest neg, flOF ||| flNX)
  | .e4m3 => if sat then (f.largest neg, flOF ||| flNX) else (f.nan, flOF ||| flNX ||| flNV)
  | .ieee => if f = fmtE5M2 && sat then (f.largest neg, flOF ||| flNX) else (ieee, flOF ||| flNX)

/-- The exact value (−1)^neg × (m × 2^e, plus a rest below when `sticky`) rounded once into a format: the code and the flags of R111 to R113.
m is not 0. Below the smallest normal value R115's lo and hi, with an unbounded exponent range, are no codes of the target: the value written is taken from the
target's subnormal grid, tininess and overflow from the unbounded range (log 87). -/
def Fmt.round (f : Fmt) (mode : RMode) (sat ftz : Bool) (neg : Bool) (m : Nat) (e : Int) (sticky : Bool) : Nat × W32 :=
  let p : Int := (f.mbits : Int) + 1
  let qmin : Int := 1 - (f.bias : Int) - (f.mbits : Int)
  let qu : Int := e + (bitLen m : Int) - p
  let u := roundCut mode neg (cutAt m e qu sticky)
  let maxN := f.maxM + 2 ^ f.mbits
  let maxQ : Int := (f.maxE : Int) - (f.bias : Int) - (f.mbits : Int)
  if magLt maxN maxQ u qu then f.overflow mode sat neg
  else
    let q := max qu qmin
    let c := cutAt m e q sticky
    let n := roundCut mode neg c
    let (n, q) := if n = 2 ^ (f.mbits + 1) then (2 ^ f.mbits, q + 1) else (n, q)
    let tiny := magLt u qu (2 ^ f.mbits) qmin
    let fl : W32 := if c.exact then 0 else if tiny then flUF ||| flNX else flNX
    if n < 2 ^ f.mbits then
      if ftz && n != 0 && (f = fmtF16 || f = fmtBF16) then (f.zero neg, flUF ||| flNX)
      else (f.signed neg n, fl)
    else (f.signed neg ((q + (f.mbits : Int) + (f.bias : Int)).toNat * 2 ^ f.mbits + (n - 2 ^ f.mbits)), fl)

/-- A value converted into a format (R112, R120): NaN, infinity, zero, or rounded. -/
def Fmt.ofFV (f : Fmt) (mode : RMode) (sat ftz : Bool) : FV → Nat × W32
  | .nan s =>
    match f.top with
    | .ieee => (f.nan, if s then flNV else 0)
    | .e4m3 => (f.nan, flNV)
    | .finite => (0, flNV)
  | .inf neg =>
    match f.top with
    | .ieee => (f.inf neg, 0)
    | .e4m3 => (if sat then f.largest neg else f.nan, flNV)
    | .finite => (f.largest neg, flNV)
  | .fin neg m e => if m = 0 then (f.zero neg, 0) else f.round mode sat ftz neg m e false

/-- An input is read: a subnormal of f16 or bf16 is zero of the same sign when FTZ is 1 (R113). -/
def Fmt.read (f : Fmt) (ftz : Bool) (code : Nat) : FV :=
  match f.decode code with
  | .fin neg m e => if ftz && (f = fmtF16 || f = fmtBF16) && m < 2 ^ f.mbits then .fin neg 0 e else .fin neg m e
  | v => v

/-- A signalling NaN raises NV (R107). -/
def nvOf : FV → W32
  | .nan true => flNV
  | _ => 0

/-- The value is a NaN. -/
def FV.isNan : FV → Bool
  | .nan _ => true
  | _ => false

/-- The value with its sign inverted. -/
def FV.negate : FV → FV
  | .fin n m e => .fin (!n) m e
  | .inf n => .inf (!n)
  | v => v

/-- The exact sum of finite values as an integer times 2^e. -/
def exactSum (n1 : Bool) (m1 : Nat) (e1 : Int) (n2 : Bool) (m2 : Nat) (e2 : Int) : Int × Int :=
  let e := min e1 e2
  let a : Int := (m1 * 2 ^ (e1 - e).toNat : Nat)
  let b : Int := (m2 * 2 ^ (e2 - e).toNat : Nat)
  ((if n1 then -a else a) + (if n2 then -b else b), e)

/-- a + b rounded once (R111, R198). -/
def Fmt.addV (f : Fmt) (mode : RMode) (ftz : Bool) (a b : FV) : Nat × W32 :=
  match a, b with
  | .nan s, y => (f.nan, (if s then flNV else 0) ||| nvOf y)
  | x, .nan s => (f.nan, (if s then flNV else 0) ||| nvOf x)
  | .inf n, .inf k => if n = k then (f.inf n, 0) else (f.nan, flNV)
  | .inf n, .fin _ _ _ => (f.inf n, 0)
  | .fin _ _ _, .inf n => (f.inf n, 0)
  | .fin n1 m1 e1, .fin n2 m2 e2 =>
    let (s, e) := exactSum n1 m1 e1 n2 m2 e2
    if s = 0 then (f.zero (if n1 = n2 then n1 else mode == .rd), 0)
    else f.round mode false ftz (s < 0) s.natAbs e false

/-- The exact product of two values, and whether it is 0 × ∞. -/
def mulV (a b : FV) : FV × Bool :=
  match a, b with
  | .nan s, .nan t => (.nan (s || t), false)
  | .nan s, _ => (.nan s, false)
  | _, .nan s => (.nan s, false)
  | .inf n, .inf k => (.inf (n != k), false)
  | .inf n, .fin k m _ => if m = 0 then (.nan false, true) else (.inf (n != k), false)
  | .fin k m _, .inf n => if m = 0 then (.nan false, true) else (.inf (n != k), false)
  | .fin n1 m1 e1, .fin n2 m2 e2 => (.fin (n1 != n2) (m1 * m2) (e1 + e2), false)

/-- a × b rounded once (R198). -/
def Fmt.mul (f : Fmt) (mode : RMode) (ftz : Bool) (a b : FV) : Nat × W32 :=
  let (p, bad) := mulV a b
  if bad then (f.nan, flNV)
  else
    match p with
    | .fin n m e => if m = 0 then (f.zero n, 0) else f.round mode false ftz n m e false
    | v => f.ofFV mode false ftz v

/-- a × b + c with one rounding; 0 × ∞ raises NV even beside a quiet NaN (R198). -/
def Fmt.fma (f : Fmt) (mode : RMode) (ftz : Bool) (a b c : FV) : Nat × W32 :=
  let (p, bad) := mulV a b
  if bad then (f.nan, flNV) else f.addV mode ftz p c

/-- Order of two values that are no NaN; −0 equals +0. -/
def ltV (a b : FV) : Bool :=
  match a, b with
  | .inf n, .inf k => n && !k
  | .inf n, _ => n
  | _, .inf k => !k
  | .fin n1 m1 e1, .fin n2 m2 e2 => (exactSum n1 m1 e1 (!n2) m2 e2).1 < 0
  | _, _ => false

/-- Equal values that are no NaN. -/
def eqV (a b : FV) : Bool := !ltV a b && !ltV b a

/-- The sign of a value. -/
def FV.neg : FV → Bool
  | .fin n _ _ => n
  | .inf n => n
  | .nan _ => false

/-- minimumNumber (`big` false) and maximumNumber of two codes (R195). -/
def Fmt.minmax (f : Fmt) (big : Bool) (a b : Nat) : Nat × W32 :=
  let x := f.decode a
  let y := f.decode b
  let fl := nvOf x ||| nvOf y
  if x.isNan && y.isNan then (f.nan, fl)
  else if x.isNan then (b, fl)
  else if y.isNan then (a, fl)
  else
    let less := ltV x y || (eqV x y && x.neg && !y.neg)
    (if less != big then a else b, fl)

/-- The conditions of fcmp and dcmp, and their flags (R199). -/
def fcmpV (cond : Nat) (x y : FV) : Bool × W32 :=
  let un := x.isNan || y.isNan
  let sig := nvOf x ||| nvOf y
  let ord := if un then flNV else (0 : W32)
  match cond with
  | 0 => (!un && eqV x y, sig)
  | 1 => (un || !eqV x y, sig)
  | 2 => (!un && ltV x y, ord)
  | 3 => (!un && (ltV x y || eqV x y), ord)
  | 4 => (!un && ltV y x, ord)
  | 5 => (!un && (ltV y x || eqV x y), ord)
  | 6 => (un, sig)
  | _ => (!un, sig)

/-- A finite value rounded to an integer: the magnitude and whether it was exact. -/
def roundInt (mode : RMode) (neg : Bool) (m : Nat) (e : Int) : Nat × Bool :=
  let c := cutAt m e 0 false
  (roundCut mode neg c, c.exact)

/-- A float converted to an integer between lo and hi, saturating (R120); answers the integer and the flags. -/
def toIntSat (mode : RMode) (lo hi : Int) : FV → Int × W32
  | .nan _ => (0, flNV)
  | .inf n => (if n then lo else hi, flNV)
  | .fin n m e =>
    let (k, ex) := roundInt mode n m e
    let v : Int := if n then -(k : Int) else k
    if v < lo then (lo, flNV) else if hi < v then (hi, flNV) else (v, if ex then 0 else flNX)

/-- One step of a rounding generator (R115). -/
def stepGen (g : W32) : W32 := if g.getLsbD 0 then (g >>> 1) ^^^ 0x80200003 else g >>> 1

/-- The seed of a rounding generator (R114). -/
def seedGen (seed tid : W32) : W32 :=
  let g := seed ^^^ ((tid + 1) * 0x9E3779B9)
  if g = 0 then 1 else g

end Sys2Proof.Machine
end

