-- ==== Sys2Proof/Syntax.lean ====
section
/-!
DEFINITION. The instruction type: one constructor for each row of spec/opcode_table.json, in the table's order.
A row with a word carries the word's fields at the widths the table gives them; a row without a word is an event
of the part (95_what_each_step_holds.md) and carries what tells one occurrence of it from another.
-/

namespace Sys2Proof

/-- Who issues: group `g` of a team, or the team's keystone context (R240). Teams are named by their key in `State`. -/
inductive Who where
  | group (team g : Nat)
  | key (team : Nat)
deriving DecidableEq, Repr

/-- A packet that reaches this package's endpoint (R380): a put packet or a pennant of one sender stream. -/
structure Packet where
  src : BitVec 20
  stream : Nat
  /-- position in the stream, counted over puts and pennants alike -/
  seq : Nat
  pa : Nat
  /-- the bytes of a put packet; empty for a pennant -/
  data : List (BitVec 8)
  /-- 8-byte words of the put that left their source poisoned (R237), by index -/
  bad : List Nat
  /-- the value of a pennant -/
  pennant : Option (BitVec 64)
  /-- put packets of the stream that come before it -/
  puts : Nat := 0
deriving DecidableEq, Repr

/-- One failing unit that an in-field test finds (R398): its UNIT value, the step, the pattern or March element, the failing bits and
the spare that repairs it, if one does. -/
structure TestFail where
  unit : BitVec 64
  step : BitVec 32
  pattern : BitVec 32
  bits : BitVec 64
  spare : Option (BitVec 64)
deriving DecidableEq, Repr

/-- Where an uncorrectable error strikes (R60, R409): an 8-byte word of a memory tier, a word of a team's scratchpad, or a datum of a
group that an instruction at some lanes consumes. -/
inductive ErrSite where
  | memory (pa : Nat) (unit : BitVec 64)
  | scratch (team off : Nat)
  | group (team g : Nat) (lanes : BitVec 32) (unit : BitVec 64)
deriving DecidableEq, Repr

/-- The instructions and events of the part. -/
inductive Instr where
  /-- NOP (R151). -/
  | nop
  /-- REGION_ENTRY (R151). -/
  | regionEntry
  /-- REGION_EXIT (R151). -/
  | regionExit
  /-- REGION_CLOSE_REOPEN (R151). -/
  | regionCloseReopen
  /-- IFENCE (R152). -/
  | ifence
  /-- BRK (R161). -/
  | brk (c : BitVec 14)
  /-- EXIT (R153). -/
  | exit
  /-- YIELD (R154). -/
  | yield
  /-- RECONV (R156). -/
  | reconv
  /-- RECONV_S (R156). -/
  | reconvS
  /-- REFORM (R157). -/
  | reform (d : BitVec 7)
  /-- HALT (R166). -/
  | halt
  /-- BRA (R158). -/
  | bra (h : BitVec 2) (m : BitVec 4) (o : BitVec 19)
  /-- CALL (R159). -/
  | call (h : BitVec 2) (m : BitVec 4) (o : BitVec 19)
  /-- CHKP (R155). -/
  | chkp (h : BitVec 2) (o : BitVec 19)
  /-- JMP (R160). -/
  | jmp (a : BitVec 7)
  /-- CALLI (R160). -/
  | calli (d : BitVec 7) (a : BitVec 7)
  /-- RET (R160). -/
  | ret (a : BitVec 7)
  /-- TRAP (R161). -/
  | trap (c : BitVec 14)
  /-- TRET (R165). -/
  | tret (d : BitVec 7)
  /-- WINB (R167). -/
  | winb (i : BitVec 14)
  /-- RDSR (R168). -/
  | rdsr (d : BitVec 7) (n : BitVec 14)
  /-- WRSR (R169). -/
  | wrsr (d : BitVec 7) (n : BitVec 14)
  /-- MAND (R170). -/
  | mand (d : BitVec 7) (a : BitVec 7) (b : BitVec 7)
  /-- MOR (R170). -/
  | mor (d : BitVec 7) (a : BitVec 7) (b : BitVec 7)
  /-- MXOR (R170). -/
  | mxor (d : BitVec 7) (a : BitVec 7) (b : BitVec 7)
  /-- MANDN (R170). -/
  | mandn (d : BitVec 7) (a : BitVec 7) (b : BitVec 7)
  /-- MNOT (R170). -/
  | mnot (d : BitVec 7) (a : BitVec 7)
  /-- MMOV (R170). -/
  | mmov (d : BitVec 7) (a : BitVec 7)
  /-- MPOP (R171). -/
  | mpop (d : BitVec 7) (a : BitVec 7)
  /-- MFIRST (R171). -/
  | mfirst (d : BitVec 7) (a : BitVec 7)
  /-- MTOV (R171). -/
  | mtov (d : BitVec 7) (a : BitVec 7)
  /-- VTOM (R171). -/
  | vtom (d : BitVec 7) (a : BitVec 7)
  /-- MALL (R171). -/
  | mall (d : BitVec 7)
  /-- SHAPE (R172). -/
  | shape (d : BitVec 7) (a : BitVec 7)
  /-- SETG (R173). -/
  | setg (d : BitVec 7)
  /-- SQUEEZE (R174). -/
  | squeeze (d : BitVec 7)
  /-- LAUNCH (R175). -/
  | launch (d : BitVec 7) (b : BitVec 7) (o : BitVec 7) (l : BitVec 4)
  /-- BQH (R176). -/
  | bqh (a : BitVec 7) (b : BitVec 7)
  /-- BQR (R177). -/
  | bqr (a : BitVec 7)
  /-- ADD (R182). -/
  | add (d : BitVec 7) (a : BitVec 7) (b : BitVec 7)
  /-- SUB (R182). -/
  | sub (d : BitVec 7) (a : BitVec 7) (b : BitVec 7)
  /-- ADD_64 (R182). -/
  | add64 (d : BitVec 7) (a : BitVec 7) (b : BitVec 7)
  /-- SUB_64 (R182). -/
  | sub64 (d : BitVec 7) (a : BitVec 7) (b : BitVec 7)
  /-- NEG (R182). -/
  | neg (d : BitVec 7) (a : BitVec 7)
  /-- ABS (R182). -/
  | abs (d : BitVec 7) (a : BitVec 7)
  /-- ADDI (R183). -/
  | addi (d : BitVec 7) (a : BitVec 7) (i : BitVec 11)
  /-- MUL_LO (R182). -/
  | mulLo (d : BitVec 7) (a : BitVec 7) (b : BitVec 7)
  /-- MUL_HI_I (R182). -/
  | mulHiI (d : BitVec 7) (a : BitVec 7) (b : BitVec 7)
  /-- MUL_HI_N (R182). -/
  | mulHiN (d : BitVec 7) (a : BitVec 7) (b : BitVec 7)
  /-- MAD_LO (R182). -/
  | madLo (d : BitVec 7) (a : BitVec 7) (b : BitVec 7)
  /-- MUL_WIDE_I (R182). -/
  | mulWideI (d : BitVec 7) (a : BitVec 7) (b : BitVec 7)
  /-- MUL_WIDE_N (R182). -/
  | mulWideN (d : BitVec 7) (a : BitVec 7) (b : BitVec 7)
  /-- MIN_I (R182). -/
  | minI (d : BitVec 7) (a : BitVec 7) (b : BitVec 7)
  /-- MAX_I (R182). -/
  | maxI (d : BitVec 7) (a : BitVec 7) (b : BitVec 7)
  /-- MIN_N (R182). -/
  | minN (d : BitVec 7) (a : BitVec 7) (b : BitVec 7)
  /-- MAX_N (R182). -/
  | maxN (d : BitVec 7) (a : BitVec 7) (b : BitVec 7)
  /-- AND (R184). -/
  | and (d : BitVec 7) (a : BitVec 7) (b : BitVec 7)
  /-- OR (R184). -/
  | or (d : BitVec 7) (a : BitVec 7) (b : BitVec 7)
  /-- XOR (R184). -/
  | xor (d : BitVec 7) (a : BitVec 7) (b : BitVec 7)
  /-- ANDN (R184). -/
  | andn (d : BitVec 7) (a : BitVec 7) (b : BitVec 7)
  /-- NOT (R184). -/
  | not (d : BitVec 7) (a : BitVec 7)
  /-- ANDI (R183). -/
  | andi (d : BitVec 7) (a : BitVec 7) (i : BitVec 11)
  /-- ORI (R183). -/
  | ori (d : BitVec 7) (a : BitVec 7) (i : BitVec 11)
  /-- XORI (R183). -/
  | xori (d : BitVec 7) (a : BitVec 7) (i : BitVec 11)
  /-- SHL (R185). -/
  | shl (d : BitVec 7) (a : BitVec 7) (b : BitVec 7)
  /-- SHR (R185). -/
  | shr (d : BitVec 7) (a : BitVec 7) (b : BitVec 7)
  /-- SAR (R185). -/
  | sar (d : BitVec 7) (a : BitVec 7) (b : BitVec 7)
  /-- ROTL (R185). -/
  | rotl (d : BitVec 7) (a : BitVec 7) (b : BitVec 7)
  /-- SHL_64 (R185). -/
  | shl64 (d : BitVec 7) (a : BitVec 7) (b : BitVec 7)
  /-- SHR_64 (R185). -/
  | shr64 (d : BitVec 7) (a : BitVec 7) (b : BitVec 7)
  /-- SAR_64 (R185). -/
  | sar64 (d : BitVec 7) (a : BitVec 7) (b : BitVec 7)
  /-- SHLI (R185). -/
  | shli (d : BitVec 7) (a : BitVec 7) (n : BitVec 5)
  /-- SHRI (R185). -/
  | shri (d : BitVec 7) (a : BitVec 7) (n : BitVec 5)
  /-- SARI (R185). -/
  | sari (d : BitVec 7) (a : BitVec 7) (n : BitVec 5)
  /-- ROTLI (R185). -/
  | rotli (d : BitVec 7) (a : BitVec 7) (n : BitVec 5)
  /-- POPC (R186). -/
  | popc (d : BitVec 7) (a : BitVec 7)
  /-- CLZ (R186). -/
  | clz (d : BitVec 7) (a : BitVec 7)
  /-- BREV (R186). -/
  | brev (d : BitVec 7) (a : BitVec 7)
  /-- BFE_I (R186). -/
  | bfeI (d : BitVec 7) (a : BitVec 7) (b : BitVec 7)
  /-- BFE_N (R186). -/
  | bfeN (d : BitVec 7) (a : BitVec 7) (b : BitVec 7)
  /-- BFI (R186). -/
  | bfi (d : BitVec 7) (a : BitVec 7) (b : BitVec 7)
  /-- CMP (R187). -/
  | cmp (d : BitVec 7) (a : BitVec 7) (b : BitVec 7) (c : BitVec 4)
  /-- SEL (R188). -/
  | sel (d : BitVec 7) (a : BitVec 7) (b : BitVec 7) (m : BitVec 4)
  /-- MOVL (R189). -/
  | movl (d : BitVec 7) (h : BitVec 2) (i : BitVec 16)
  /-- MOVH (R189). -/
  | movh (d : BitVec 7) (h : BitVec 2) (i : BitVec 16)
  /-- MOV (R190). -/
  | mov (d : BitVec 7) (a : BitVec 7)
  /-- LANE (R190). -/
  | lane (d : BitVec 7)
  /-- SHFL (R191). -/
  | shfl (d : BitVec 7) (a : BitVec 7) (b : BitVec 7)
  /-- SHFL_UP (R191). -/
  | shflUp (d : BitVec 7) (a : BitVec 7) (b : BitVec 7)
  /-- SHFL_DN (R191). -/
  | shflDn (d : BitVec 7) (a : BitVec 7) (b : BitVec 7)
  /-- SHFL_X (R191). -/
  | shflX (d : BitVec 7) (a : BitVec 7) (b : BitVec 7)
  /-- BCAST (R192). -/
  | bcast (d : BitVec 7) (a : BitVec 7) (b : BitVec 7)
  /-- RED (R194). -/
  | red (d : BitVec 7) (a : BitVec 7) (o : BitVec 4)
  /-- SCAN_ADD_I (R196). -/
  | scanAddI (d : BitVec 7) (a : BitVec 7)
  /-- SCAN_ADD_F32 (R196). -/
  | scanAddF32 (d : BitVec 7) (a : BitVec 7)
  /-- DP4_I8 (R197). -/
  | dp4I8 (d : BitVec 7) (a : BitVec 7) (b : BitVec 7)
  /-- DP4_N8 (R197). -/
  | dp4N8 (d : BitVec 7) (a : BitVec 7) (b : BitVec 7)
  /-- DP2_I16 (R197). -/
  | dp2I16 (d : BitVec 7) (a : BitVec 7) (b : BitVec 7)
  /-- CMP_64 (R187). -/
  | cmp64 (d : BitVec 7) (a : BitVec 7) (b : BitVec 7) (c : BitVec 4)
  /-- FADD (R198). -/
  | fadd (d : BitVec 7) (a : BitVec 7) (b : BitVec 7)
  /-- FSUB (R198). -/
  | fsub (d : BitVec 7) (a : BitVec 7) (b : BitVec 7)
  /-- FMUL (R198). -/
  | fmul (d : BitVec 7) (a : BitVec 7) (b : BitVec 7)
  /-- FMIN (R195). -/
  | fmin (d : BitVec 7) (a : BitVec 7) (b : BitVec 7)
  /-- FMAX (R195). -/
  | fmax (d : BitVec 7) (a : BitVec 7) (b : BitVec 7)
  /-- FNEG (R198). -/
  | fneg (d : BitVec 7) (a : BitVec 7)
  /-- FABS (R198). -/
  | fabs (d : BitVec 7) (a : BitVec 7)
  /-- FFMA (R198). -/
  | ffma (d : BitVec 7) (a : BitVec 7) (b : BitVec 7)
  /-- FFMS (R198). -/
  | ffms (d : BitVec 7) (a : BitVec 7) (b : BitVec 7)
  /-- FCMP (R199). -/
  | fcmp (d : BitVec 7) (a : BitVec 7) (b : BitVec 7) (c : BitVec 4)
  /-- FRCP (R203). -/
  | frcp (d : BitVec 7) (a : BitVec 7) (l : BitVec 4)
  /-- FRSQ (R203). -/
  | frsq (d : BitVec 7) (a : BitVec 7) (l : BitVec 4)
  /-- FSQRT (R203). -/
  | fsqrt (d : BitVec 7) (a : BitVec 7) (l : BitVec 4)
  /-- FEXP2 (R203). -/
  | fexp2 (d : BitVec 7) (a : BitVec 7) (l : BitVec 4)
  /-- FLOG2 (R203). -/
  | flog2 (d : BitVec 7) (a : BitVec 7) (l : BitVec 4)
  /-- FSIN (R203). -/
  | fsin (d : BitVec 7) (a : BitVec 7) (l : BitVec 4)
  /-- FCOS (R203). -/
  | fcos (d : BitVec 7) (a : BitVec 7) (l : BitVec 4)
  /-- FTANH (R203). -/
  | ftanh (d : BitVec 7) (a : BitVec 7) (l : BitVec 4)
  /-- DADD (R201). -/
  | dadd (d : BitVec 7) (a : BitVec 7) (b : BitVec 7)
  /-- DSUB (R201). -/
  | dsub (d : BitVec 7) (a : BitVec 7) (b : BitVec 7)
  /-- DMUL (R201). -/
  | dmul (d : BitVec 7) (a : BitVec 7) (b : BitVec 7)
  /-- DFMA (R201). -/
  | dfma (d : BitVec 7) (a : BitVec 7) (b : BitVec 7)
  /-- DMIN (R195). -/
  | dmin (d : BitVec 7) (a : BitVec 7) (b : BitVec 7)
  /-- DMAX (R195). -/
  | dmax (d : BitVec 7) (a : BitVec 7) (b : BitVec 7)
  /-- DCMP (R199). -/
  | dcmp (d : BitVec 7) (a : BitVec 7) (b : BitVec 7) (c : BitVec 4)
  /-- HADD2_F16 (R202). -/
  | hadd2F16 (d : BitVec 7) (a : BitVec 7) (b : BitVec 7)
  /-- HMUL2_F16 (R202). -/
  | hmul2F16 (d : BitVec 7) (a : BitVec 7) (b : BitVec 7)
  /-- HFMA2_F16 (R202). -/
  | hfma2F16 (d : BitVec 7) (a : BitVec 7) (b : BitVec 7)
  /-- HADD2_BF16 (R202). -/
  | hadd2Bf16 (d : BitVec 7) (a : BitVec 7) (b : BitVec 7)
  /-- HMUL2_BF16 (R202). -/
  | hmul2Bf16 (d : BitVec 7) (a : BitVec 7) (b : BitVec 7)
  /-- HFMA2_BF16 (R202). -/
  | hfma2Bf16 (d : BitVec 7) (a : BitVec 7) (b : BitVec 7)
  /-- FCLASS (R200). -/
  | fclass (d : BitVec 7) (a : BitVec 7)
  /-- FCOPYSIGN (R200). -/
  | fcopysign (d : BitVec 7) (a : BitVec 7) (b : BitVec 7)
  /-- FFRAC (R200). -/
  | ffrac (d : BitVec 7) (a : BitVec 7)
  /-- FROUND (R200). -/
  | fround (d : BitVec 7) (a : BitVec 7)
  /-- CVT (R205). -/
  | cvt (d : BitVec 7) (a : BitVec 7) (s : BitVec 1) (i : BitVec 6) (l : BitVec 4)
  /-- MXPACK (R207). -/
  | mxpack (d : BitVec 7) (a : BitVec 7) (l : BitVec 4)
  /-- MXUNPACK (R207). -/
  | mxunpack (d : BitVec 7) (a : BitVec 7) (l : BitVec 4)
  /-- QPACK4 (R207). -/
  | qpack4 (d : BitVec 7) (a : BitVec 7) (l : BitVec 4)
  /-- QUNPACK4 (R207). -/
  | qunpack4 (d : BitVec 7) (a : BitVec 7) (l : BitVec 4)
  /-- LD_B8N (R211). -/
  | ldB8n (d : BitVec 7) (b : BitVec 7) (o : BitVec 7) (l : BitVec 4)
  /-- LD_B8I (R211). -/
  | ldB8i (d : BitVec 7) (b : BitVec 7) (o : BitVec 7) (l : BitVec 4)
  /-- LD_B16N (R211). -/
  | ldB16n (d : BitVec 7) (b : BitVec 7) (o : BitVec 7) (l : BitVec 4)
  /-- LD_B16I (R211). -/
  | ldB16i (d : BitVec 7) (b : BitVec 7) (o : BitVec 7) (l : BitVec 4)
  /-- LD_B32 (R211). -/
  | ldB32 (d : BitVec 7) (b : BitVec 7) (o : BitVec 7) (l : BitVec 4)
  /-- LD_B64 (R211). -/
  | ldB64 (d : BitVec 7) (b : BitVec 7) (o : BitVec 7) (l : BitVec 4)
  /-- LD_B128 (R211). -/
  | ldB128 (d : BitVec 7) (b : BitVec 7) (o : BitVec 7) (l : BitVec 4)
  /-- LD_ACQ_B32 (R212). -/
  | ldAcqB32 (d : BitVec 7) (b : BitVec 7) (o : BitVec 7) (l : BitVec 4)
  /-- LD_ACQ_B64 (R212). -/
  | ldAcqB64 (d : BitVec 7) (b : BitVec 7) (o : BitVec 7) (l : BitVec 4)
  /-- LDP_B32 (R213). -/
  | ldpB32 (d : BitVec 7) (b : BitVec 7) (o : BitVec 7) (l : BitVec 4)
  /-- LDP_B64 (R213). -/
  | ldpB64 (d : BitVec 7) (b : BitVec 7) (o : BitVec 7) (l : BitVec 4)
  /-- ST_B8 (R214). -/
  | stB8 (d : BitVec 7) (b : BitVec 7) (o : BitVec 7) (l : BitVec 4)
  /-- ST_B16 (R214). -/
  | stB16 (d : BitVec 7) (b : BitVec 7) (o : BitVec 7) (l : BitVec 4)
  /-- ST_B32 (R214). -/
  | stB32 (d : BitVec 7) (b : BitVec 7) (o : BitVec 7) (l : BitVec 4)
  /-- ST_B64 (R214). -/
  | stB64 (d : BitVec 7) (b : BitVec 7) (o : BitVec 7) (l : BitVec 4)
  /-- ST_B128 (R214). -/
  | stB128 (d : BitVec 7) (b : BitVec 7) (o : BitVec 7) (l : BitVec 4)
  /-- ST_REL_B32 (R215). -/
  | stRelB32 (d : BitVec 7) (b : BitVec 7) (o : BitVec 7) (l : BitVec 4)
  /-- ST_REL_B64 (R215). -/
  | stRelB64 (d : BitVec 7) (b : BitVec 7) (o : BitVec 7) (l : BitVec 4)
  /-- PREFETCH (R216). -/
  | prefetch (b : BitVec 7) (o : BitVec 7) (l : BitVec 4)
  /-- CINV_LINE (R216). -/
  | cinvLine (b : BitVec 7) (o : BitVec 7) (l : BitVec 4)
  /-- CFLUSH_LINE (R216). -/
  | cflushLine (b : BitVec 7) (o : BitVec 7) (l : BitVec 4)
  /-- CINV_PAGE (R216). -/
  | cinvPage (b : BitVec 7) (o : BitVec 7) (l : BitVec 4)
  /-- ATOM_ADD_32 (R217). -/
  | atomAdd32 (d : BitVec 7) (b : BitVec 7) (o : BitVec 7) (l : BitVec 4)
  /-- ATOM_ADD_64 (R217). -/
  | atomAdd64 (d : BitVec 7) (b : BitVec 7) (o : BitVec 7) (l : BitVec 4)
  /-- ATOM_MIN_I32 (R217). -/
  | atomMinI32 (d : BitVec 7) (b : BitVec 7) (o : BitVec 7) (l : BitVec 4)
  /-- ATOM_MAX_I32 (R217). -/
  | atomMaxI32 (d : BitVec 7) (b : BitVec 7) (o : BitVec 7) (l : BitVec 4)
  /-- ATOM_MIN_N32 (R217). -/
  | atomMinN32 (d : BitVec 7) (b : BitVec 7) (o : BitVec 7) (l : BitVec 4)
  /-- ATOM_MAX_N32 (R217). -/
  | atomMaxN32 (d : BitVec 7) (b : BitVec 7) (o : BitVec 7) (l : BitVec 4)
  /-- ATOM_AND (R217). -/
  | atomAnd (d : BitVec 7) (b : BitVec 7) (o : BitVec 7) (l : BitVec 4)
  /-- ATOM_OR (R217). -/
  | atomOr (d : BitVec 7) (b : BitVec 7) (o : BitVec 7) (l : BitVec 4)
  /-- ATOM_XOR (R217). -/
  | atomXor (d : BitVec 7) (b : BitVec 7) (o : BitVec 7) (l : BitVec 4)
  /-- ATOM_XCHG_32 (R217). -/
  | atomXchg32 (d : BitVec 7) (b : BitVec 7) (o : BitVec 7) (l : BitVec 4)
  /-- ATOM_XCHG_64 (R217). -/
  | atomXchg64 (d : BitVec 7) (b : BitVec 7) (o : BitVec 7) (l : BitVec 4)
  /-- ATOM_CAS_32 (R217). -/
  | atomCas32 (d : BitVec 7) (b : BitVec 7) (o : BitVec 7) (l : BitVec 4)
  /-- ATOM_CAS_64 (R217). -/
  | atomCas64 (d : BitVec 7) (b : BitVec 7) (o : BitVec 7) (l : BitVec 4)
  /-- ATOM_FADD_F32 (R217). -/
  | atomFaddF32 (d : BitVec 7) (b : BitVec 7) (o : BitVec 7) (l : BitVec 4)
  /-- FENCE (R219). -/
  | fence (i : BitVec 14)
  /-- MWAIT (R220). -/
  | mwait (d : BitVec 7) (b : BitVec 7) (o : BitVec 7) (c : BitVec 4)
  /-- BAR_TEAM (R221). -/
  | barTeam
  /-- BAR_ROLE (R221). -/
  | barRole
  /-- MUS_ARM (R222). -/
  | musArm (d : BitVec 7) (b : BitVec 7) (o : BitVec 7) (l : BitVec 4)
  /-- MUS_JOIN (R222). -/
  | musJoin (d : BitVec 7) (b : BitVec 7) (o : BitVec 7) (l : BitVec 4)
  /-- MUS_OWE (R222). -/
  | musOwe (d : BitVec 7) (b : BitVec 7) (o : BitVec 7) (l : BitVec 4)
  /-- MUS_HOLD (R222). -/
  | musHold (d : BitVec 7) (b : BitVec 7) (o : BitVec 7) (l : BitVec 4)
  /-- TDEF (R223). -/
  | tdef (d : BitVec 7) (t : BitVec 6) (l : BitVec 4)
  /-- TOWN (R224). -/
  | town (d : BitVec 7) (a : BitVec 7) (l : BitVec 4)
  /-- TWAIT (R224). -/
  | twait (a : BitVec 7) (l : BitVec 4)
  /-- TGIVE (R81). -/
  | tgive (a : BitVec 7) (l : BitVec 4)
  /-- CPY (R225). -/
  | cpy (d : BitVec 7) (c : BitVec 3) (l : BitVec 4)
  /-- CPYG (R231). -/
  | cpyg (d : BitVec 7) (i : BitVec 7) (c : BitVec 3) (l : BitVec 4)
  /-- CPYC (R232). -/
  | cpyc (d : BitVec 7) (c : BitVec 3) (l : BitVec 4)
  /-- RDWP (R233). -/
  | rdwp (d : BitVec 7) (a : BitVec 7) (l : BitVec 4)
  /-- RDCSUM (R233). -/
  | rdcsum (d : BitVec 7) (a : BitVec 7) (l : BitVec 4)
  /-- SELK (R234). -/
  | selk (d : BitVec 7) (c : BitVec 3) (l : BitVec 4)
  /-- QPUT (R236). -/
  | qput (q : BitVec 7) (a : BitVec 7) (l : BitVec 4)
  /-- QGET (R236). -/
  | qget (d : BitVec 7) (q : BitVec 7) (l : BitVec 4)
  /-- QTRY (R236). -/
  | qtry (d : BitVec 7) (q : BitVec 7) (m : BitVec 7)
  /-- QLEN (R236). -/
  | qlen (d : BitVec 7) (q : BitVec 7) (l : BitVec 4)
  /-- FPUT (R237). -/
  | fput (d : BitVec 7) (b : BitVec 7) (o : BitVec 7) (l : BitVec 4)
  /-- FSIG (R238). -/
  | fsig (d : BitVec 7) (b : BitVec 7) (o : BitVec 7) (l : BitVec 4)
  /-- MZERO (R257). -/
  | mzero (a : BitVec 7)
  /-- MLDA (R258). -/
  | mlda (d : BitVec 7) (b : BitVec 7) (o : BitVec 7) (l : BitVec 4)
  /-- MBQ (R259). -/
  | mbq (d : BitVec 7)
  /-- MMA (R261). -/
  | mma (d : BitVec 7) (a : BitVec 7) (b : BitVec 7) (f : BitVec 4)
  /-- MDRAIN (R263). -/
  | mdrain (d : BitVec 7) (a : BitVec 7) (b : BitVec 7) (f : BitVec 4)
  /-- MSCALE (R264). -/
  | mscale (d : BitVec 7) (a : BitVec 7)
  /-- MDONE (R265). -/
  | mdone (d : BitVec 7)
  /-- NON_INSTRUCTION_WORD (R139). -/
  | nonInstructionWord (w : BitVec 32)
  /-- TRAP_DELIVERY (R162). -/
  | trapDelivery (team : Nat) (g : Nat)
  /-- SPILL_TO_BUDGET (R35). -/
  | spillToBudget (team : Nat) (g : Nat)
  /-- PARK_AREA_RETURN (R37). -/
  | parkAreaReturn (team : Nat) (g : Nat)
  /-- RECONV_RELEASE (R26). -/
  | reconvRelease (team : Nat) (g : Nat) (lane : Nat)
  /-- REFORM_DRAW (R51). -/
  | reformDraw (tile : Nat) (bin : Nat)
  /-- BIN_AGE_EXPIRY (R51). -/
  | binAgeExpiry (tile : Nat) (bin : Nat)
  /-- MWAIT_SATISFY (R220). -/
  | mwaitSatisfy (who : Who) (lane : Nat)
  /-- COPY_EXECUTE (R228). -/
  | copyExecute (cluster : Nat) (ch : Nat)
  /-- COPY_BYTES_LAND (R86). -/
  | copyBytesLand (cluster : Nat) (ch : Nat) (n : Nat)
  /-- COPY_COMPLETE (R85). -/
  | copyComplete (cluster : Nat) (ch : Nat)
  /-- CPYC_RECORD_FETCH (R232). -/
  | cpycRecordFetch (cluster : Nat) (ch : Nat)
  /-- SELK_EXECUTE (R234). -/
  | selkExecute (cluster : Nat) (ch : Nat)
  /-- HAND_BACK (R82). -/
  | handBack (team : Nat) (tile : Nat)
  /-- STATUS_ENTRY_POST (R229). -/
  | statusEntryPost (cluster : Nat) (ch : Nat)
  /-- MZERO_EXECUTE (R257). -/
  | mzeroExecute (team : Nat)
  /-- MLDA_EXECUTE (R258). -/
  | mldaExecute (team : Nat)
  /-- MMA_EXECUTE (R262). -/
  | mmaExecute (team : Nat)
  /-- MDRAIN_EXECUTE (R263). -/
  | mdrainExecute (team : Nat)
  /-- MSCALE_EXECUTE (R264). -/
  | mscaleExecute (team : Nat)
  /-- MASON_APPEND (R352). -/
  | masonAppend (team : Nat)
  /-- MASON_SEAL (R354). -/
  | masonSeal (team : Nat) (log : Nat)
  /-- QUARRY_WAKE_TOKEN_POST (R355). -/
  | quarryWakeTokenPost (tok : BitVec 32)
  /-- STORAGE_PROCESSOR_RESTART (R355). -/
  | storageProcessorRestart
  /-- FABRIC_PACKET_SEND (R379). -/
  | fabricPacketSend (op : Nat) (port : Nat) (entropy : Nat)
  /-- FABRIC_PACKET_RECEIVE (R380). -/
  | fabricPacketReceive (p : Packet)
  /-- PENNANT_APPLY (R102). -/
  | pennantApply (i : Nat)
  /-- FABRIC_ACK_RECEIVE (R380). -/
  | fabricAckReceive (seq : Nat)
  /-- FABRIC_NACK_RECEIVE (R380). -/
  | fabricNackReceive (seq : Nat)
  /-- FABRIC_RTO_EXPIRY (R380). -/
  | fabricRtoExpiry (seq : Nat) (port : Nat) (entropy : Nat)
  /-- PORT_LINK_DOWN (R379). -/
  | portLinkDown (port : Nat) (newPort : Nat) (entropy : Nat)
  /-- PATH_PROBE_TIMER (R379). -/
  | pathProbeTimer (dest : BitVec 20) (port : Nat) (entropy : Nat) (acked : Bool)
  /-- STATUS_NOTICE_RECEIVE (R373). -/
  | statusNoticeReceive (e : BitVec 20) (seq : BitVec 8) (st : BitVec 2)
  /-- STATUS_NOTICE_RESEND (R373). -/
  | statusNoticeResend (acked : List (BitVec 20))
  /-- SELFST_WRITE (R373). -/
  | selfstWrite (v : BitVec 32)
  /-- CREATE (R305). -/
  | create (c : Nat) (arg : BitVec 32)
  /-- DESTROY (R305). -/
  | destroy (c : Nat) (arg : BitVec 32)
  /-- KILL (R302). -/
  | kill (c : Nat) (arg : BitVec 32)
  /-- KILLCTX (R305). -/
  | killctx (c : Nat) (arg : BitVec 32)
  /-- IMPORT (R329). -/
  | importImage (c : Nat) (arg : BitVec 32)
  /-- EXPORT (R329). -/
  | exportImage (c : Nat) (arg : BitVec 32)
  /-- FREE (R329). -/
  | free (c : Nat) (arg : BitVec 32)
  /-- LAUNCH_DOORBELL (R307). -/
  | launchDoorbell (c : Nat) (q : Nat) (v : BitVec 32)
  /-- EVENT_DOORBELL (R311). -/
  | eventDoorbell (c : Nat)
  /-- LAUNCH_RECORD_TAKE (R308). -/
  | launchRecordTake (c : Nat) (q : Nat)
  /-- TEAM_PLACE (R313). -/
  | teamPlace (choice : Nat)
  /-- PREEMPT_DEADLINE_EXPIRY (R321). -/
  | preemptDeadlineExpiry (team : Nat)
  /-- SCAN_IMAGE_COMPLETE (R325). -/
  | scanImageComplete (slot : Nat)
  /-- TEAM_SAVE (R321). -/
  | teamSave (team : Nat)
  /-- IMAGE_RESTORE (R328). -/
  | imageRestore (slot : Nat) (tile : Nat)
  /-- COMPLETION_RECORD_WRITE (R317). -/
  | completionRecordWrite
  /-- EVENT_COALESCE_TIMER (R318). -/
  | eventCoalesceTimer
  /-- IRQV_WRITE (R319). -/
  | irqvWrite (k : Nat) (v : BitVec 128)
  /-- SBANKCTL_WRITE (R70). -/
  | sbankctlWrite (c : Nat) (b : Nat) (v : BitVec 32)
  /-- SBANK_DRAIN_COMPLETE (R70). -/
  | sbankDrainComplete (c : Nat) (b : Nat)
  /-- INVAL (R340). -/
  | inval
  /-- REPLAY (R343). -/
  | replay
  /-- SWAP (R348). -/
  | swap
  /-- SWAP_LINE_EXCHANGE (R350). -/
  | swapLineExchange (i : Nat) (j : Nat)
  /-- SWAPFREE (R349). -/
  | swapfree
  /-- MAPOUT (R360). -/
  | mapout
  /-- MAPEND (R360). -/
  | mapend
  /-- EXTREL (R357). -/
  | extrel
  /-- QTRIM (R351). -/
  | qtrim
  /-- ZERO_ENGINE_DONE (R344). -/
  | zeroEngineDone (i : Nat)
  /-- FAULT_RECORD_WRITE (R342). -/
  | faultRecordWrite
  /-- NOTIFICATION_POST (R347). -/
  | notificationPost
  /-- EXTENT_ADD (R356). -/
  | extentAdd (i : Nat) (port : Nat) (base : BitVec 64) (len : BitVec 64)
  /-- EXTENT_RELEASE_REQUEST (R356). -/
  | extentReleaseRequest (i : Nat)
  /-- EXTENT_SURPRISE_REMOVAL (R357). -/
  | extentSurpriseRemoval (i : Nat) (dirty : List Nat)
  /-- PEER_MEMORY_REQUEST (R382). -/
  | peerMemoryRequest (rid : BitVec 16) (pasid : Option (BitVec 20)) (va : BitVec 64) (n : Nat) (data : Option (List (BitVec 8)))
  /-- ATS_TRANSLATION_REQUEST (R382). -/
  | atsTranslationRequest (rid : BitVec 16) (pasid : Option (BitVec 20)) (va : BitVec 64)
  /-- LINK_TRAINING (R381). -/
  | linkTraining (p : Nat)
  /-- HALT_OP (R364). -/
  | haltOp (op : BitVec 32)
  /-- RESUME (R369). -/
  | resume (op : BitVec 32)
  /-- FREEZE (R363). -/
  | freeze (op : BitVec 32)
  /-- THAW (R363). -/
  | thaw (op : BitVec 32)
  /-- HALYARD_DOORBELL (R366). -/
  | halyardDoorbell (v : BitVec 64)
  /-- SAMPLE_TIMER (R371). -/
  | sampleTimer (tile : Nat)
  /-- WATCHDOG_HANG_DECLARE (R375). -/
  | watchdogHangDeclare (who : Who)
  /-- PACKAGE_RESET (R385). -/
  | packageReset
  /-- POWER_LOSS (R89). -/
  | powerLoss (kept : List Nat)
  /-- SVN_WRITE (R385). -/
  | svnWrite (v : BitVec 32)
  /-- MEASUREMENT_EXTEND (R386). -/
  | measurementExtend (i : Nat)
  /-- ATTESTATION_REPORT (R387). -/
  | attestationReport (v : BitVec 32)
  /-- GET_CERTIFICATE (R388). -/
  | getCertificate
  /-- CHALLENGE (R388). -/
  | challenge (nonce : BitVec 256)
  /-- GET_MEASUREMENTS (R388). -/
  | getMeasurements
  /-- PLDM_DISCOVERY (R405). -/
  | pldmDiscovery
  /-- PLDM_SENSOR_READ (R405). -/
  | pldmSensorRead (k : Nat)
  /-- PLDM_FIRMWARE_UPDATE (R405). -/
  | pldmFirmwareUpdate (ty : Nat) (image : List (BitVec 8))
  /-- OFFLINE (R397). -/
  | offline (c : Nat)
  /-- TEST (R398). -/
  | test (c : Nat)
  /-- ONLINE (R397). -/
  | online (c : Nat)
  /-- RETIRE (R397). -/
  | retire (c : Nat)
  /-- CLUSTER_DRAIN_COMPLETE (R397). -/
  | clusterDrainComplete (c : Nat)
  /-- CLUSTER_TEST_COMPLETE (R398). -/
  | clusterTestComplete (c : Nat) (fails : List TestFail)
  /-- SAVE (R402). -/
  | save
  /-- CHECKPOINT_SAVE_COMPLETE (R402). -/
  | checkpointSaveComplete
  /-- LOAD (R404). -/
  | load
  /-- ABORT (R402). -/
  | abort
  /-- CLOCK_THROTTLE_STEP (R407). -/
  | clockThrottleStep (power : BitVec 16) (temp : BitVec 16)
  /-- THERMAL_TRIP (R407). -/
  | thermalTrip (temp : BitVec 16)
  /-- REGISTER_WRITE (R15). -/
  | registerWrite (off : Nat) (v : BitVec 64)
  /-- LONG_LATENCY_COMPLETE (R41). -/
  | longLatencyComplete (who : Who) (i : Nat)
  /-- QUADRANT_CYCLE (R400). -/
  | quadrantCycle
  /-- HOST_CORE_ACCESS (R335). -/
  | hostCoreAccess (c : Nat) (va : BitVec 64) (n : Nat) (data : Option (List (BitVec 8)))
  /-- ATS_INVALIDATION_COMPLETION (R340). -/
  | atsInvalidationCompletion
  /-- PORT_LINK_UP (R379). -/
  | portLinkUp (port : Nat)
  /-- ORDERLY_SHUTDOWN (R394). -/
  | orderlyShutdown
  /-- UNCORRECTED_ERROR (R409). -/
  | uncorrectedError (e : ErrSite)
deriving DecidableEq, Repr

end Sys2Proof
end

