-- ==== Sys2Proof/WellFormed.lean ====
section
/-!
DEFINITION. Well-formed instructions: those whose fields pass the checks of R126, R132 to R138 and R205 that look at the word alone
(a mask or queue number below 16, a selector that selects, no reserved value). What such a check refuses traps 0x01 or 0x02 when it
issues (R140). Parity of a pair (0x03) and the declared register count (0x06) are not part of well-formedness: they are causes of
an instruction that decodes.
-/

namespace Sys2Proof

/-- A 7-bit field that names a mask or a queue: bits [6:4] are zero (R126). -/
abbrev numOk (f : BitVec 7) : Bool := f.toNat < 16

/-- The stochastic bit is valid only with these conversion indices (R206). -/
def cvtStochOk (i : Nat) : Bool := [6, 8, 10, 12, 14, 22, 23, 44, 45].contains i

/-- A conversion index and stochastic bit that select a conversion (R205, R206). -/
def cvtOk (st : BitVec 1) (i : BitVec 6) : Bool := i.toNat < 46 && (st == 0 || cvtStochOk i.toNat)

/-- The fence field of R136: a scope below 6, at least one of the acquire and release bits, bits [13:5] zero. -/
def fenceOk (i : BitVec 14) : Bool := i.toNat % 8 < 6 && i.toNat / 8 % 4 != 0 && i.toNat / 32 == 0

/-- A selector field of the table that selects an instruction; otherwise the word traps 0x01 (R132, R137, R138, R205, R206). -/
def selectorOk : Instr → Bool
  | .cmp _ _ _ c => c.toNat < 10
  | .cmp64 _ _ _ c => c.toNat < 6
  | .fcmp _ _ _ c => c.toNat < 8
  | .dcmp _ _ _ c => c.toNat < 8
  | .red _ _ o => o.toNat < 11
  | .cvt _ _ s i _ => cvtOk s i
  | .mma _ _ _ f => f.toNat < 15
  | .mdrain _ _ _ f => 1 ≤ f.toNat && f.toNat ≤ 5
  | _ => true

/-- Fields whose reserved values trap 0x02 (R126, R132, R133, R136). -/
def reservedOk : Instr → Bool
  | .winb i => i.toNat < 13
  | .fence i => fenceOk i
  | .mwait _ _ _ c => c.toNat < 4
  | .mand d a b => numOk d && numOk a && numOk b
  | .mor d a b => numOk d && numOk a && numOk b
  | .mxor d a b => numOk d && numOk a && numOk b
  | .mandn d a b => numOk d && numOk a && numOk b
  | .mnot d a => numOk d && numOk a
  | .mmov d a => numOk d && numOk a
  | .mpop _ a => numOk a
  | .mfirst _ a => numOk a
  | .mtov _ a => numOk a
  | .vtom d _ => numOk d
  | .mall d => numOk d
  | .cmp d _ _ _ => numOk d
  | .cmp64 d _ _ _ => numOk d
  | .fcmp d _ _ _ => numOk d
  | .dcmp d _ _ _ => numOk d
  | .qput q _ _ => numOk q
  | .qget _ q _ => numOk q
  | .qtry _ q m => numOk q && numOk m
  | .qlen _ q _ => numOk q
  | _ => true

/-- The checks of the word alone pass. -/
def Instr.wellFormed (i : Instr) : Bool := selectorOk i && reservedOk i

/-- Well-formed instructions. -/
abbrev WellFormed (i : Instr) : Prop := i.wellFormed = true

end Sys2Proof
end

