-- ==== Sys2Proof/Decode.lean ====
section
/-!
DEFINITION. The decoder and the encoder (R124 to R139). A word's bits are read as numbers: field [hi:lo] of w is w / 2^lo mod 2^(hi-lo+1).
Decoding is total: a word that selects no instruction is rejected as `notInstruction` (it traps 0x01, R139), a word with a nonzero
reserved field is rejected as `reserved` with the instruction it would otherwise be (it traps 0x02, R132).
-/

namespace Sys2Proof

/-- What a word decodes to. -/
inductive Decoded where
  | ok (i : Instr)
  /-- R139: the word is not an instruction; it traps 0x01. -/
  | notInstruction
  /-- R132: a field that the instruction does not use is nonzero; it traps 0x02. -/
  | reserved (i : Instr)
deriving DecidableEq, Repr

/-- Field of `len` bits at bit `lo` of a word, as a bit vector. -/
def bf (w : BitVec 32) (lo len : Nat) : BitVec len := BitVec.ofNat len (w.toNat / 2 ^ lo)

/-- Field of `len` bits at bit `lo` of a word, as a number. -/
def fld (w : BitVec 32) (lo len : Nat) : Nat := w.toNat / 2 ^ lo % 2 ^ len

/-- The instruction when its reserved field is zero (R132). -/
def needZero (r : Nat) (i : Instr) : Decoded :=
  if r = 0 then .ok i else .reserved i

/-- Major 0x01 (R151, R152, R153, R154, R156, R157, R161, R166). -/
def dec01 (w : BitVec 32) : Decoded :=
  match fld w 0 4, fld w 4 2 with
  | 0, 0 => needZero (fld w 6 12 + fld w 18 7) .nop
  | 0, 1 => needZero (fld w 6 12 + fld w 18 7) .regionEntry
  | 0, 2 => needZero (fld w 6 12 + fld w 18 7) .regionExit
  | 0, 3 => needZero (fld w 6 12 + fld w 18 7) .regionCloseReopen
  | 1, _ => needZero (fld w 4 21) (.ifence)
  | 2, _ => needZero (fld w 18 7) (.brk (bf w 4 14))
  | 3, _ => needZero (fld w 4 21) (.exit)
  | 4, _ => needZero (fld w 4 21) (.yield)
  | 5, _ => needZero (fld w 4 21) (.reconv)
  | 6, _ => needZero (fld w 4 21) (.reconvS)
  | 7, _ => needZero (fld w 4 14) (.reform (bf w 18 7))
  | 8, _ => needZero (fld w 4 21) (.halt)
  | _, _ => .notInstruction

/-- Major 0x02 (R158). -/
def dec02 (w : BitVec 32) : Decoded :=
  .ok (.bra (bf w 23 2) (bf w 19 4) (bf w 0 19))

/-- Major 0x03 (R159). -/
def dec03 (w : BitVec 32) : Decoded :=
  .ok (.call (bf w 23 2) (bf w 19 4) (bf w 0 19))

/-- Major 0x04 (R155). -/
def dec04 (w : BitVec 32) : Decoded :=
  needZero (fld w 19 4) (.chkp (bf w 23 2) (bf w 0 19))

/-- Major 0x05 (R160). -/
def dec05 (w : BitVec 32) : Decoded :=
  match fld w 0 4 with
  | 0 => needZero (fld w 4 7 + fld w 18 7) (.jmp (bf w 11 7))
  | 1 => needZero (fld w 4 7) (.calli (bf w 18 7) (bf w 11 7))
  | 2 => needZero (fld w 4 7 + fld w 18 7) (.ret (bf w 11 7))
  | _ => .notInstruction

/-- Major 0x06 (R161, R165, R167). -/
def dec06 (w : BitVec 32) : Decoded :=
  match fld w 0 4 with
  | 0 => needZero (fld w 18 7) (.trap (bf w 4 14))
  | 1 => needZero (fld w 4 14) (.tret (bf w 18 7))
  | 2 => needZero (fld w 18 7) (.winb (bf w 4 14))
  | _ => .notInstruction

/-- Major 0x07 (R168, R169). -/
def dec07 (w : BitVec 32) : Decoded :=
  match fld w 0 4 with
  | 0 => .ok (.rdsr (bf w 18 7) (bf w 4 14))
  | 1 => .ok (.wrsr (bf w 18 7) (bf w 4 14))
  | _ => .notInstruction

/-- Major 0x08 (R170). -/
def dec08 (w : BitVec 32) : Decoded :=
  match fld w 0 4 with
  | 0 => .ok (.mand (bf w 18 7) (bf w 11 7) (bf w 4 7))
  | 1 => .ok (.mor (bf w 18 7) (bf w 11 7) (bf w 4 7))
  | 2 => .ok (.mxor (bf w 18 7) (bf w 11 7) (bf w 4 7))
  | 3 => .ok (.mandn (bf w 18 7) (bf w 11 7) (bf w 4 7))
  | 4 => needZero (fld w 4 7) (.mnot (bf w 18 7) (bf w 11 7))
  | 5 => needZero (fld w 4 7) (.mmov (bf w 18 7) (bf w 11 7))
  | _ => .notInstruction

/-- Major 0x09 (R171). -/
def dec09 (w : BitVec 32) : Decoded :=
  match fld w 0 4 with
  | 0 => needZero (fld w 4 7) (.mpop (bf w 18 7) (bf w 11 7))
  | 1 => needZero (fld w 4 7) (.mfirst (bf w 18 7) (bf w 11 7))
  | 2 => needZero (fld w 4 7) (.mtov (bf w 18 7) (bf w 11 7))
  | 3 => needZero (fld w 4 7) (.vtom (bf w 18 7) (bf w 11 7))
  | 4 => needZero (fld w 4 14) (.mall (bf w 18 7))
  | _ => .notInstruction

/-- Major 0x0A (R172, R173, R174). -/
def dec0A (w : BitVec 32) : Decoded :=
  match fld w 0 4 with
  | 0 => needZero (fld w 4 7) (.shape (bf w 18 7) (bf w 11 7))
  | 1 => needZero (fld w 4 14) (.setg (bf w 18 7))
  | 2 => needZero (fld w 4 14) (.squeeze (bf w 18 7))
  | _ => .notInstruction

/-- Major 0x0B (R175). -/
def dec0B (w : BitVec 32) : Decoded :=
  .ok (.launch (bf w 18 7) (bf w 11 7) (bf w 4 7) (bf w 0 4))

/-- Major 0x0C (R176). -/
def dec0C (w : BitVec 32) : Decoded :=
  match fld w 0 4 with
  | 0 => needZero (fld w 18 7) (.bqh (bf w 11 7) (bf w 4 7))
  | _ => .notInstruction

/-- Major 0x0D (R177). -/
def dec0D (w : BitVec 32) : Decoded :=
  match fld w 0 4 with
  | 0 => needZero (fld w 4 7 + fld w 18 7) (.bqr (bf w 11 7))
  | _ => .notInstruction

/-- Major 0x10 (R182). -/
def dec10 (w : BitVec 32) : Decoded :=
  match fld w 0 4 with
  | 0 => .ok (.add (bf w 18 7) (bf w 11 7) (bf w 4 7))
  | 1 => .ok (.sub (bf w 18 7) (bf w 11 7) (bf w 4 7))
  | 2 => .ok (.add64 (bf w 18 7) (bf w 11 7) (bf w 4 7))
  | 3 => .ok (.sub64 (bf w 18 7) (bf w 11 7) (bf w 4 7))
  | 4 => needZero (fld w 4 7) (.neg (bf w 18 7) (bf w 11 7))
  | 5 => needZero (fld w 4 7) (.abs (bf w 18 7) (bf w 11 7))
  | _ => .notInstruction

/-- Major 0x11 (R183). -/
def dec11 (w : BitVec 32) : Decoded :=
  .ok (.addi (bf w 18 7) (bf w 11 7) (bf w 0 11))

/-- Major 0x12 (R182). -/
def dec12 (w : BitVec 32) : Decoded :=
  match fld w 0 4 with
  | 0 => .ok (.mulLo (bf w 18 7) (bf w 11 7) (bf w 4 7))
  | 1 => .ok (.mulHiI (bf w 18 7) (bf w 11 7) (bf w 4 7))
  | 2 => .ok (.mulHiN (bf w 18 7) (bf w 11 7) (bf w 4 7))
  | 3 => .ok (.madLo (bf w 18 7) (bf w 11 7) (bf w 4 7))
  | 4 => .ok (.mulWideI (bf w 18 7) (bf w 11 7) (bf w 4 7))
  | 5 => .ok (.mulWideN (bf w 18 7) (bf w 11 7) (bf w 4 7))
  | _ => .notInstruction

/-- Major 0x13 (R182). -/
def dec13 (w : BitVec 32) : Decoded :=
  match fld w 0 4 with
  | 0 => .ok (.minI (bf w 18 7) (bf w 11 7) (bf w 4 7))
  | 1 => .ok (.maxI (bf w 18 7) (bf w 11 7) (bf w 4 7))
  | 2 => .ok (.minN (bf w 18 7) (bf w 11 7) (bf w 4 7))
  | 3 => .ok (.maxN (bf w 18 7) (bf w 11 7) (bf w 4 7))
  | _ => .notInstruction

/-- Major 0x14 (R184). -/
def dec14 (w : BitVec 32) : Decoded :=
  match fld w 0 4 with
  | 0 => .ok (.and (bf w 18 7) (bf w 11 7) (bf w 4 7))
  | 1 => .ok (.or (bf w 18 7) (bf w 11 7) (bf w 4 7))
  | 2 => .ok (.xor (bf w 18 7) (bf w 11 7) (bf w 4 7))
  | 3 => .ok (.andn (bf w 18 7) (bf w 11 7) (bf w 4 7))
  | 4 => needZero (fld w 4 7) (.not (bf w 18 7) (bf w 11 7))
  | _ => .notInstruction

/-- Major 0x15 (R183). -/
def dec15 (w : BitVec 32) : Decoded :=
  .ok (.andi (bf w 18 7) (bf w 11 7) (bf w 0 11))

/-- Major 0x16 (R183). -/
def dec16 (w : BitVec 32) : Decoded :=
  .ok (.ori (bf w 18 7) (bf w 11 7) (bf w 0 11))

/-- Major 0x17 (R183). -/
def dec17 (w : BitVec 32) : Decoded :=
  .ok (.xori (bf w 18 7) (bf w 11 7) (bf w 0 11))

/-- Major 0x18 (R185). -/
def dec18 (w : BitVec 32) : Decoded :=
  match fld w 0 4 with
  | 0 => .ok (.shl (bf w 18 7) (bf w 11 7) (bf w 4 7))
  | 1 => .ok (.shr (bf w 18 7) (bf w 11 7) (bf w 4 7))
  | 2 => .ok (.sar (bf w 18 7) (bf w 11 7) (bf w 4 7))
  | 3 => .ok (.rotl (bf w 18 7) (bf w 11 7) (bf w 4 7))
  | 4 => .ok (.shl64 (bf w 18 7) (bf w 11 7) (bf w 4 7))
  | 5 => .ok (.shr64 (bf w 18 7) (bf w 11 7) (bf w 4 7))
  | 6 => .ok (.sar64 (bf w 18 7) (bf w 11 7) (bf w 4 7))
  | _ => .notInstruction

/-- Major 0x19 (R185). -/
def dec19 (w : BitVec 32) : Decoded :=
  match fld w 5 2 with
  | 0 => needZero (fld w 7 4) (.shli (bf w 18 7) (bf w 11 7) (bf w 0 5))
  | 1 => needZero (fld w 7 4) (.shri (bf w 18 7) (bf w 11 7) (bf w 0 5))
  | 2 => needZero (fld w 7 4) (.sari (bf w 18 7) (bf w 11 7) (bf w 0 5))
  | 3 => needZero (fld w 7 4) (.rotli (bf w 18 7) (bf w 11 7) (bf w 0 5))
  | _ => .notInstruction

/-- Major 0x1A (R186). -/
def dec1A (w : BitVec 32) : Decoded :=
  match fld w 0 4 with
  | 0 => needZero (fld w 4 7) (.popc (bf w 18 7) (bf w 11 7))
  | 1 => needZero (fld w 4 7) (.clz (bf w 18 7) (bf w 11 7))
  | 2 => needZero (fld w 4 7) (.brev (bf w 18 7) (bf w 11 7))
  | 3 => .ok (.bfeI (bf w 18 7) (bf w 11 7) (bf w 4 7))
  | 4 => .ok (.bfeN (bf w 18 7) (bf w 11 7) (bf w 4 7))
  | 5 => .ok (.bfi (bf w 18 7) (bf w 11 7) (bf w 4 7))
  | _ => .notInstruction

/-- Major 0x1B (R187). -/
def dec1B (w : BitVec 32) : Decoded :=
  .ok (.cmp (bf w 18 7) (bf w 11 7) (bf w 4 7) (bf w 0 4))

/-- Major 0x1C (R188). -/
def dec1C (w : BitVec 32) : Decoded :=
  .ok (.sel (bf w 18 7) (bf w 11 7) (bf w 4 7) (bf w 0 4))

/-- Major 0x1D (R189). -/
def dec1D (w : BitVec 32) : Decoded :=
  .ok (.movl (bf w 18 7) (bf w 16 2) (bf w 0 16))

/-- Major 0x1E (R189). -/
def dec1E (w : BitVec 32) : Decoded :=
  .ok (.movh (bf w 18 7) (bf w 16 2) (bf w 0 16))

/-- Major 0x1F (R190). -/
def dec1F (w : BitVec 32) : Decoded :=
  match fld w 0 4 with
  | 0 => needZero (fld w 4 7) (.mov (bf w 18 7) (bf w 11 7))
  | 1 => needZero (fld w 4 14) (.lane (bf w 18 7))
  | _ => .notInstruction

/-- Major 0x20 (R191). -/
def dec20 (w : BitVec 32) : Decoded :=
  match fld w 0 4 with
  | 0 => .ok (.shfl (bf w 18 7) (bf w 11 7) (bf w 4 7))
  | 1 => .ok (.shflUp (bf w 18 7) (bf w 11 7) (bf w 4 7))
  | 2 => .ok (.shflDn (bf w 18 7) (bf w 11 7) (bf w 4 7))
  | 3 => .ok (.shflX (bf w 18 7) (bf w 11 7) (bf w 4 7))
  | _ => .notInstruction

/-- Major 0x21 (R192). -/
def dec21 (w : BitVec 32) : Decoded :=
  match fld w 0 4 with
  | 0 => .ok (.bcast (bf w 18 7) (bf w 11 7) (bf w 4 7))
  | _ => .notInstruction

/-- Major 0x22 (R194). -/
def dec22 (w : BitVec 32) : Decoded :=
  needZero (fld w 4 7) (.red (bf w 18 7) (bf w 11 7) (bf w 0 4))

/-- Major 0x23 (R196). -/
def dec23 (w : BitVec 32) : Decoded :=
  match fld w 0 4 with
  | 0 => needZero (fld w 4 7) (.scanAddI (bf w 18 7) (bf w 11 7))
  | 1 => needZero (fld w 4 7) (.scanAddF32 (bf w 18 7) (bf w 11 7))
  | _ => .notInstruction

/-- Major 0x24 (R197). -/
def dec24 (w : BitVec 32) : Decoded :=
  match fld w 0 4 with
  | 0 => .ok (.dp4I8 (bf w 18 7) (bf w 11 7) (bf w 4 7))
  | 1 => .ok (.dp4N8 (bf w 18 7) (bf w 11 7) (bf w 4 7))
  | 2 => .ok (.dp2I16 (bf w 18 7) (bf w 11 7) (bf w 4 7))
  | _ => .notInstruction

/-- Major 0x25 (R187). -/
def dec25 (w : BitVec 32) : Decoded :=
  .ok (.cmp64 (bf w 18 7) (bf w 11 7) (bf w 4 7) (bf w 0 4))

/-- Major 0x30 (R195, R198). -/
def dec30 (w : BitVec 32) : Decoded :=
  match fld w 0 4 with
  | 0 => .ok (.fadd (bf w 18 7) (bf w 11 7) (bf w 4 7))
  | 1 => .ok (.fsub (bf w 18 7) (bf w 11 7) (bf w 4 7))
  | 2 => .ok (.fmul (bf w 18 7) (bf w 11 7) (bf w 4 7))
  | 3 => .ok (.fmin (bf w 18 7) (bf w 11 7) (bf w 4 7))
  | 4 => .ok (.fmax (bf w 18 7) (bf w 11 7) (bf w 4 7))
  | 5 => needZero (fld w 4 7) (.fneg (bf w 18 7) (bf w 11 7))
  | 6 => needZero (fld w 4 7) (.fabs (bf w 18 7) (bf w 11 7))
  | _ => .notInstruction

/-- Major 0x31 (R198). -/
def dec31 (w : BitVec 32) : Decoded :=
  match fld w 0 4 with
  | 0 => .ok (.ffma (bf w 18 7) (bf w 11 7) (bf w 4 7))
  | 1 => .ok (.ffms (bf w 18 7) (bf w 11 7) (bf w 4 7))
  | _ => .notInstruction

/-- Major 0x32 (R199). -/
def dec32 (w : BitVec 32) : Decoded :=
  .ok (.fcmp (bf w 18 7) (bf w 11 7) (bf w 4 7) (bf w 0 4))

/-- Major 0x33 (R203). -/
def dec33 (w : BitVec 32) : Decoded :=
  match fld w 4 7 with
  | 0 => .ok (.frcp (bf w 18 7) (bf w 11 7) (bf w 0 4))
  | 1 => .ok (.frsq (bf w 18 7) (bf w 11 7) (bf w 0 4))
  | 2 => .ok (.fsqrt (bf w 18 7) (bf w 11 7) (bf w 0 4))
  | 3 => .ok (.fexp2 (bf w 18 7) (bf w 11 7) (bf w 0 4))
  | 4 => .ok (.flog2 (bf w 18 7) (bf w 11 7) (bf w 0 4))
  | 5 => .ok (.fsin (bf w 18 7) (bf w 11 7) (bf w 0 4))
  | 6 => .ok (.fcos (bf w 18 7) (bf w 11 7) (bf w 0 4))
  | 7 => .ok (.ftanh (bf w 18 7) (bf w 11 7) (bf w 0 4))
  | _ => .notInstruction

/-- Major 0x34 (R195, R201). -/
def dec34 (w : BitVec 32) : Decoded :=
  match fld w 0 4 with
  | 0 => .ok (.dadd (bf w 18 7) (bf w 11 7) (bf w 4 7))
  | 1 => .ok (.dsub (bf w 18 7) (bf w 11 7) (bf w 4 7))
  | 2 => .ok (.dmul (bf w 18 7) (bf w 11 7) (bf w 4 7))
  | 3 => .ok (.dfma (bf w 18 7) (bf w 11 7) (bf w 4 7))
  | 4 => .ok (.dmin (bf w 18 7) (bf w 11 7) (bf w 4 7))
  | 5 => .ok (.dmax (bf w 18 7) (bf w 11 7) (bf w 4 7))
  | _ => .notInstruction

/-- Major 0x35 (R199). -/
def dec35 (w : BitVec 32) : Decoded :=
  .ok (.dcmp (bf w 18 7) (bf w 11 7) (bf w 4 7) (bf w 0 4))

/-- Major 0x36 (R202). -/
def dec36 (w : BitVec 32) : Decoded :=
  match fld w 0 4 with
  | 0 => .ok (.hadd2F16 (bf w 18 7) (bf w 11 7) (bf w 4 7))
  | 1 => .ok (.hmul2F16 (bf w 18 7) (bf w 11 7) (bf w 4 7))
  | 2 => .ok (.hfma2F16 (bf w 18 7) (bf w 11 7) (bf w 4 7))
  | 3 => .ok (.hadd2Bf16 (bf w 18 7) (bf w 11 7) (bf w 4 7))
  | 4 => .ok (.hmul2Bf16 (bf w 18 7) (bf w 11 7) (bf w 4 7))
  | 5 => .ok (.hfma2Bf16 (bf w 18 7) (bf w 11 7) (bf w 4 7))
  | _ => .notInstruction

/-- Major 0x37 (R200). -/
def dec37 (w : BitVec 32) : Decoded :=
  match fld w 0 4 with
  | 0 => needZero (fld w 4 7) (.fclass (bf w 18 7) (bf w 11 7))
  | 1 => .ok (.fcopysign (bf w 18 7) (bf w 11 7) (bf w 4 7))
  | 2 => needZero (fld w 4 7) (.ffrac (bf w 18 7) (bf w 11 7))
  | 3 => needZero (fld w 4 7) (.fround (bf w 18 7) (bf w 11 7))
  | _ => .notInstruction

/-- Major 0x38 (R205). -/
def dec38 (w : BitVec 32) : Decoded :=
  .ok (.cvt (bf w 18 7) (bf w 11 7) (bf w 10 1) (bf w 4 6) (bf w 0 4))

/-- Major 0x39 (R207). -/
def dec39 (w : BitVec 32) : Decoded :=
  match fld w 0 4 with
  | 0 => needZero (fld w 8 3) (.mxpack (bf w 18 7) (bf w 11 7) (bf w 4 4))
  | 1 => needZero (fld w 8 3) (.mxunpack (bf w 18 7) (bf w 11 7) (bf w 4 4))
  | 2 => needZero (fld w 8 3) (.qpack4 (bf w 18 7) (bf w 11 7) (bf w 4 4))
  | 3 => needZero (fld w 8 3) (.qunpack4 (bf w 18 7) (bf w 11 7) (bf w 4 4))
  | _ => .notInstruction

/-- Major 0x40 (R211). -/
def dec40 (w : BitVec 32) : Decoded :=
  .ok (.ldB8n (bf w 18 7) (bf w 11 7) (bf w 4 7) (bf w 0 4))

/-- Major 0x41 (R211). -/
def dec41 (w : BitVec 32) : Decoded :=
  .ok (.ldB8i (bf w 18 7) (bf w 11 7) (bf w 4 7) (bf w 0 4))

/-- Major 0x42 (R211). -/
def dec42 (w : BitVec 32) : Decoded :=
  .ok (.ldB16n (bf w 18 7) (bf w 11 7) (bf w 4 7) (bf w 0 4))

/-- Major 0x43 (R211). -/
def dec43 (w : BitVec 32) : Decoded :=
  .ok (.ldB16i (bf w 18 7) (bf w 11 7) (bf w 4 7) (bf w 0 4))

/-- Major 0x44 (R211). -/
def dec44 (w : BitVec 32) : Decoded :=
  .ok (.ldB32 (bf w 18 7) (bf w 11 7) (bf w 4 7) (bf w 0 4))

/-- Major 0x45 (R211). -/
def dec45 (w : BitVec 32) : Decoded :=
  .ok (.ldB64 (bf w 18 7) (bf w 11 7) (bf w 4 7) (bf w 0 4))

/-- Major 0x46 (R211). -/
def dec46 (w : BitVec 32) : Decoded :=
  .ok (.ldB128 (bf w 18 7) (bf w 11 7) (bf w 4 7) (bf w 0 4))

/-- Major 0x47 (R212). -/
def dec47 (w : BitVec 32) : Decoded :=
  .ok (.ldAcqB32 (bf w 18 7) (bf w 11 7) (bf w 4 7) (bf w 0 4))

/-- Major 0x48 (R212). -/
def dec48 (w : BitVec 32) : Decoded :=
  .ok (.ldAcqB64 (bf w 18 7) (bf w 11 7) (bf w 4 7) (bf w 0 4))

/-- Major 0x49 (R213). -/
def dec49 (w : BitVec 32) : Decoded :=
  .ok (.ldpB32 (bf w 18 7) (bf w 11 7) (bf w 4 7) (bf w 0 4))

/-- Major 0x4A (R213). -/
def dec4A (w : BitVec 32) : Decoded :=
  .ok (.ldpB64 (bf w 18 7) (bf w 11 7) (bf w 4 7) (bf w 0 4))

/-- Major 0x4B (R214). -/
def dec4B (w : BitVec 32) : Decoded :=
  .ok (.stB8 (bf w 18 7) (bf w 11 7) (bf w 4 7) (bf w 0 4))

/-- Major 0x4C (R214). -/
def dec4C (w : BitVec 32) : Decoded :=
  .ok (.stB16 (bf w 18 7) (bf w 11 7) (bf w 4 7) (bf w 0 4))

/-- Major 0x4D (R214). -/
def dec4D (w : BitVec 32) : Decoded :=
  .ok (.stB32 (bf w 18 7) (bf w 11 7) (bf w 4 7) (bf w 0 4))

/-- Major 0x4E (R214). -/
def dec4E (w : BitVec 32) : Decoded :=
  .ok (.stB64 (bf w 18 7) (bf w 11 7) (bf w 4 7) (bf w 0 4))

/-- Major 0x4F (R214). -/
def dec4F (w : BitVec 32) : Decoded :=
  .ok (.stB128 (bf w 18 7) (bf w 11 7) (bf w 4 7) (bf w 0 4))

/-- Major 0x50 (R215). -/
def dec50 (w : BitVec 32) : Decoded :=
  .ok (.stRelB32 (bf w 18 7) (bf w 11 7) (bf w 4 7) (bf w 0 4))

/-- Major 0x51 (R215). -/
def dec51 (w : BitVec 32) : Decoded :=
  .ok (.stRelB64 (bf w 18 7) (bf w 11 7) (bf w 4 7) (bf w 0 4))

/-- Major 0x52 (R216). -/
def dec52 (w : BitVec 32) : Decoded :=
  match fld w 18 7 with
  | 0 => .ok (.prefetch (bf w 11 7) (bf w 4 7) (bf w 0 4))
  | 1 => .ok (.cinvLine (bf w 11 7) (bf w 4 7) (bf w 0 4))
  | 2 => .ok (.cflushLine (bf w 11 7) (bf w 4 7) (bf w 0 4))
  | 3 => .ok (.cinvPage (bf w 11 7) (bf w 4 7) (bf w 0 4))
  | _ => .notInstruction

/-- Major 0x53 (R217). -/
def dec53 (w : BitVec 32) : Decoded :=
  .ok (.atomAdd32 (bf w 18 7) (bf w 11 7) (bf w 4 7) (bf w 0 4))

/-- Major 0x54 (R217). -/
def dec54 (w : BitVec 32) : Decoded :=
  .ok (.atomAdd64 (bf w 18 7) (bf w 11 7) (bf w 4 7) (bf w 0 4))

/-- Major 0x55 (R217). -/
def dec55 (w : BitVec 32) : Decoded :=
  .ok (.atomMinI32 (bf w 18 7) (bf w 11 7) (bf w 4 7) (bf w 0 4))

/-- Major 0x56 (R217). -/
def dec56 (w : BitVec 32) : Decoded :=
  .ok (.atomMaxI32 (bf w 18 7) (bf w 11 7) (bf w 4 7) (bf w 0 4))

/-- Major 0x57 (R217). -/
def dec57 (w : BitVec 32) : Decoded :=
  .ok (.atomMinN32 (bf w 18 7) (bf w 11 7) (bf w 4 7) (bf w 0 4))

/-- Major 0x58 (R217). -/
def dec58 (w : BitVec 32) : Decoded :=
  .ok (.atomMaxN32 (bf w 18 7) (bf w 11 7) (bf w 4 7) (bf w 0 4))

/-- Major 0x59 (R217). -/
def dec59 (w : BitVec 32) : Decoded :=
  .ok (.atomAnd (bf w 18 7) (bf w 11 7) (bf w 4 7) (bf w 0 4))

/-- Major 0x5A (R217). -/
def dec5A (w : BitVec 32) : Decoded :=
  .ok (.atomOr (bf w 18 7) (bf w 11 7) (bf w 4 7) (bf w 0 4))

/-- Major 0x5B (R217). -/
def dec5B (w : BitVec 32) : Decoded :=
  .ok (.atomXor (bf w 18 7) (bf w 11 7) (bf w 4 7) (bf w 0 4))

/-- Major 0x5C (R217). -/
def dec5C (w : BitVec 32) : Decoded :=
  .ok (.atomXchg32 (bf w 18 7) (bf w 11 7) (bf w 4 7) (bf w 0 4))

/-- Major 0x5D (R217). -/
def dec5D (w : BitVec 32) : Decoded :=
  .ok (.atomXchg64 (bf w 18 7) (bf w 11 7) (bf w 4 7) (bf w 0 4))

/-- Major 0x5E (R217). -/
def dec5E (w : BitVec 32) : Decoded :=
  .ok (.atomCas32 (bf w 18 7) (bf w 11 7) (bf w 4 7) (bf w 0 4))

/-- Major 0x5F (R217). -/
def dec5F (w : BitVec 32) : Decoded :=
  .ok (.atomCas64 (bf w 18 7) (bf w 11 7) (bf w 4 7) (bf w 0 4))

/-- Major 0x60 (R217). -/
def dec60 (w : BitVec 32) : Decoded :=
  .ok (.atomFaddF32 (bf w 18 7) (bf w 11 7) (bf w 4 7) (bf w 0 4))

/-- Major 0x61 (R219). -/
def dec61 (w : BitVec 32) : Decoded :=
  match fld w 0 4 with
  | 0 => needZero (fld w 18 7) (.fence (bf w 4 14))
  | _ => .notInstruction

/-- Major 0x62 (R220). -/
def dec62 (w : BitVec 32) : Decoded :=
  .ok (.mwait (bf w 18 7) (bf w 11 7) (bf w 4 7) (bf w 0 4))

/-- Major 0x63 (R221). -/
def dec63 (w : BitVec 32) : Decoded :=
  match fld w 0 4 with
  | 0 => needZero (fld w 4 21) (.barTeam)
  | 1 => needZero (fld w 4 21) (.barRole)
  | _ => .notInstruction

/-- Major 0x64 (R222). -/
def dec64 (w : BitVec 32) : Decoded :=
  .ok (.musArm (bf w 18 7) (bf w 11 7) (bf w 4 7) (bf w 0 4))

/-- Major 0x65 (R222). -/
def dec65 (w : BitVec 32) : Decoded :=
  .ok (.musJoin (bf w 18 7) (bf w 11 7) (bf w 4 7) (bf w 0 4))

/-- Major 0x66 (R222). -/
def dec66 (w : BitVec 32) : Decoded :=
  .ok (.musOwe (bf w 18 7) (bf w 11 7) (bf w 4 7) (bf w 0 4))

/-- Major 0x67 (R222). -/
def dec67 (w : BitVec 32) : Decoded :=
  .ok (.musHold (bf w 18 7) (bf w 11 7) (bf w 4 7) (bf w 0 4))

/-- Major 0x68 (R223). -/
def dec68 (w : BitVec 32) : Decoded :=
  needZero (fld w 10 8) (.tdef (bf w 18 7) (bf w 4 6) (bf w 0 4))

/-- Major 0x69 (R81, R224). -/
def dec69 (w : BitVec 32) : Decoded :=
  match fld w 0 4 with
  | 0 => needZero (fld w 8 3) (.town (bf w 18 7) (bf w 11 7) (bf w 4 4))
  | 1 => needZero (fld w 8 3 + fld w 18 7) (.twait (bf w 11 7) (bf w 4 4))
  | 2 => needZero (fld w 8 3 + fld w 18 7) (.tgive (bf w 11 7) (bf w 4 4))
  | _ => .notInstruction

/-- Major 0x6A (R225). -/
def dec6A (w : BitVec 32) : Decoded :=
  needZero (fld w 7 11) (.cpy (bf w 18 7) (bf w 4 3) (bf w 0 4))

/-- Major 0x6B (R231). -/
def dec6B (w : BitVec 32) : Decoded :=
  needZero (fld w 7 4) (.cpyg (bf w 18 7) (bf w 11 7) (bf w 4 3) (bf w 0 4))

/-- Major 0x6C (R232). -/
def dec6C (w : BitVec 32) : Decoded :=
  needZero (fld w 7 11) (.cpyc (bf w 18 7) (bf w 4 3) (bf w 0 4))

/-- Major 0x6D (R233). -/
def dec6D (w : BitVec 32) : Decoded :=
  match fld w 0 4 with
  | 0 => needZero (fld w 8 3) (.rdwp (bf w 18 7) (bf w 11 7) (bf w 4 4))
  | 1 => needZero (fld w 8 3) (.rdcsum (bf w 18 7) (bf w 11 7) (bf w 4 4))
  | _ => .notInstruction

/-- Major 0x6E (R234). -/
def dec6E (w : BitVec 32) : Decoded :=
  needZero (fld w 7 11) (.selk (bf w 18 7) (bf w 4 3) (bf w 0 4))

/-- Major 0x6F (R236). -/
def dec6F (w : BitVec 32) : Decoded :=
  match fld w 0 4 with
  | 0 => needZero (fld w 8 3) (.qput (bf w 18 7) (bf w 11 7) (bf w 4 4))
  | 1 => needZero (fld w 8 3) (.qget (bf w 18 7) (bf w 11 7) (bf w 4 4))
  | 2 => .ok (.qtry (bf w 18 7) (bf w 11 7) (bf w 4 7))
  | 3 => needZero (fld w 8 3) (.qlen (bf w 18 7) (bf w 11 7) (bf w 4 4))
  | _ => .notInstruction

/-- Major 0x70 (R237). -/
def dec70 (w : BitVec 32) : Decoded :=
  .ok (.fput (bf w 18 7) (bf w 11 7) (bf w 4 7) (bf w 0 4))

/-- Major 0x71 (R238). -/
def dec71 (w : BitVec 32) : Decoded :=
  .ok (.fsig (bf w 18 7) (bf w 11 7) (bf w 4 7) (bf w 0 4))

/-- Major 0x78 (R257). -/
def dec78 (w : BitVec 32) : Decoded :=
  match fld w 0 4 with
  | 0 => needZero (fld w 4 7 + fld w 18 7) (.mzero (bf w 11 7))
  | _ => .notInstruction

/-- Major 0x79 (R258). -/
def dec79 (w : BitVec 32) : Decoded :=
  .ok (.mlda (bf w 18 7) (bf w 11 7) (bf w 4 7) (bf w 0 4))

/-- Major 0x7A (R259). -/
def dec7A (w : BitVec 32) : Decoded :=
  match fld w 0 4 with
  | 0 => needZero (fld w 4 14) (.mbq (bf w 18 7))
  | _ => .notInstruction

/-- Major 0x7B (R261). -/
def dec7B (w : BitVec 32) : Decoded :=
  .ok (.mma (bf w 18 7) (bf w 11 7) (bf w 4 7) (bf w 0 4))

/-- Major 0x7C (R263). -/
def dec7C (w : BitVec 32) : Decoded :=
  .ok (.mdrain (bf w 18 7) (bf w 11 7) (bf w 4 7) (bf w 0 4))

/-- Major 0x7D (R264). -/
def dec7D (w : BitVec 32) : Decoded :=
  match fld w 0 4 with
  | 0 => needZero (fld w 4 7) (.mscale (bf w 18 7) (bf w 11 7))
  | _ => .notInstruction

/-- Major 0x7E (R265). -/
def dec7E (w : BitVec 32) : Decoded :=
  match fld w 0 4 with
  | 0 => needZero (fld w 4 14) (.mdone (bf w 18 7))
  | _ => .notInstruction

/-- The major opcode of a word, bits [31:25] (R124). -/
def majorOf (w : BitVec 32) : Nat := fld w 25 7

/-- The decoder, total on every word (R132 to R139). -/
def decode (w : BitVec 32) : Decoded :=
  match majorOf w with
  | 0x01 => dec01 w
  | 0x02 => dec02 w
  | 0x03 => dec03 w
  | 0x04 => dec04 w
  | 0x05 => dec05 w
  | 0x06 => dec06 w
  | 0x07 => dec07 w
  | 0x08 => dec08 w
  | 0x09 => dec09 w
  | 0x0A => dec0A w
  | 0x0B => dec0B w
  | 0x0C => dec0C w
  | 0x0D => dec0D w
  | 0x10 => dec10 w
  | 0x11 => dec11 w
  | 0x12 => dec12 w
  | 0x13 => dec13 w
  | 0x14 => dec14 w
  | 0x15 => dec15 w
  | 0x16 => dec16 w
  | 0x17 => dec17 w
  | 0x18 => dec18 w
  | 0x19 => dec19 w
  | 0x1A => dec1A w
  | 0x1B => dec1B w
  | 0x1C => dec1C w
  | 0x1D => dec1D w
  | 0x1E => dec1E w
  | 0x1F => dec1F w
  | 0x20 => dec20 w
  | 0x21 => dec21 w
  | 0x22 => dec22 w
  | 0x23 => dec23 w
  | 0x24 => dec24 w
  | 0x25 => dec25 w
  | 0x30 => dec30 w
  | 0x31 => dec31 w
  | 0x32 => dec32 w
  | 0x33 => dec33 w
  | 0x34 => dec34 w
  | 0x35 => dec35 w
  | 0x36 => dec36 w
  | 0x37 => dec37 w
  | 0x38 => dec38 w
  | 0x39 => dec39 w
  | 0x40 => dec40 w
  | 0x41 => dec41 w
  | 0x42 => dec42 w
  | 0x43 => dec43 w
  | 0x44 => dec44 w
  | 0x45 => dec45 w
  | 0x46 => dec46 w
  | 0x47 => dec47 w
  | 0x48 => dec48 w
  | 0x49 => dec49 w
  | 0x4A => dec4A w
  | 0x4B => dec4B w
  | 0x4C => dec4C w
  | 0x4D => dec4D w
  | 0x4E => dec4E w
  | 0x4F => dec4F w
  | 0x50 => dec50 w
  | 0x51 => dec51 w
  | 0x52 => dec52 w
  | 0x53 => dec53 w
  | 0x54 => dec54 w
  | 0x55 => dec55 w
  | 0x56 => dec56 w
  | 0x57 => dec57 w
  | 0x58 => dec58 w
  | 0x59 => dec59 w
  | 0x5A => dec5A w
  | 0x5B => dec5B w
  | 0x5C => dec5C w
  | 0x5D => dec5D w
  | 0x5E => dec5E w
  | 0x5F => dec5F w
  | 0x60 => dec60 w
  | 0x61 => dec61 w
  | 0x62 => dec62 w
  | 0x63 => dec63 w
  | 0x64 => dec64 w
  | 0x65 => dec65 w
  | 0x66 => dec66 w
  | 0x67 => dec67 w
  | 0x68 => dec68 w
  | 0x69 => dec69 w
  | 0x6A => dec6A w
  | 0x6B => dec6B w
  | 0x6C => dec6C w
  | 0x6D => dec6D w
  | 0x6E => dec6E w
  | 0x6F => dec6F w
  | 0x70 => dec70 w
  | 0x71 => dec71 w
  | 0x78 => dec78 w
  | 0x79 => dec79 w
  | 0x7A => dec7A w
  | 0x7B => dec7B w
  | 0x7C => dec7C w
  | 0x7D => dec7D w
  | 0x7E => dec7E w
  | _ => .notInstruction

/-- The word of an instruction, from the encoding tables of R124 and R133 to R137; an event has no word. -/
def encodeNat : Instr → Option Nat
  | .nop => some (0x02000000)
  | .regionEntry => some (0x02000010)
  | .regionExit => some (0x02000020)
  | .regionCloseReopen => some (0x02000030)
  | .ifence => some (0x02000001)
  | .brk c => some (0x02000002 + c.toNat * 16)
  | .exit => some (0x02000003)
  | .yield => some (0x02000004)
  | .reconv => some (0x02000005)
  | .reconvS => some (0x02000006)
  | .reform d => some (0x02000007 + d.toNat * 262144)
  | .halt => some (0x02000008)
  | .bra h m o => some (0x04000000 + h.toNat * 8388608 + m.toNat * 524288 + o.toNat * 1)
  | .call h m o => some (0x06000000 + h.toNat * 8388608 + m.toNat * 524288 + o.toNat * 1)
  | .chkp h o => some (0x08000000 + h.toNat * 8388608 + o.toNat * 1)
  | .jmp a => some (0x0A000000 + a.toNat * 2048)
  | .calli d a => some (0x0A000001 + d.toNat * 262144 + a.toNat * 2048)
  | .ret a => some (0x0A000002 + a.toNat * 2048)
  | .trap c => some (0x0C000000 + c.toNat * 16)
  | .tret d => some (0x0C000001 + d.toNat * 262144)
  | .winb i => some (0x0C000002 + i.toNat * 16)
  | .rdsr d n => some (0x0E000000 + d.toNat * 262144 + n.toNat * 16)
  | .wrsr d n => some (0x0E000001 + d.toNat * 262144 + n.toNat * 16)
  | .mand d a b => some (0x10000000 + d.toNat * 262144 + a.toNat * 2048 + b.toNat * 16)
  | .mor d a b => some (0x10000001 + d.toNat * 262144 + a.toNat * 2048 + b.toNat * 16)
  | .mxor d a b => some (0x10000002 + d.toNat * 262144 + a.toNat * 2048 + b.toNat * 16)
  | .mandn d a b => some (0x10000003 + d.toNat * 262144 + a.toNat * 2048 + b.toNat * 16)
  | .mnot d a => some (0x10000004 + d.toNat * 262144 + a.toNat * 2048)
  | .mmov d a => some (0x10000005 + d.toNat * 262144 + a.toNat * 2048)
  | .mpop d a => some (0x12000000 + d.toNat * 262144 + a.toNat * 2048)
  | .mfirst d a => some (0x12000001 + d.toNat * 262144 + a.toNat * 2048)
  | .mtov d a => some (0x12000002 + d.toNat * 262144 + a.toNat * 2048)
  | .vtom d a => some (0x12000003 + d.toNat * 262144 + a.toNat * 2048)
  | .mall d => some (0x12000004 + d.toNat * 262144)
  | .shape d a => some (0x14000000 + d.toNat * 262144 + a.toNat * 2048)
  | .setg d => some (0x14000001 + d.toNat * 262144)
  | .squeeze d => some (0x14000002 + d.toNat * 262144)
  | .launch d b o l => some (0x16000000 + d.toNat * 262144 + b.toNat * 2048 + o.toNat * 16 + l.toNat * 1)
  | .bqh a b => some (0x18000000 + a.toNat * 2048 + b.toNat * 16)
  | .bqr a => some (0x1A000000 + a.toNat * 2048)
  | .add d a b => some (0x20000000 + d.toNat * 262144 + a.toNat * 2048 + b.toNat * 16)
  | .sub d a b => some (0x20000001 + d.toNat * 262144 + a.toNat * 2048 + b.toNat * 16)
  | .add64 d a b => some (0x20000002 + d.toNat * 262144 + a.toNat * 2048 + b.toNat * 16)
  | .sub64 d a b => some (0x20000003 + d.toNat * 262144 + a.toNat * 2048 + b.toNat * 16)
  | .neg d a => some (0x20000004 + d.toNat * 262144 + a.toNat * 2048)
  | .abs d a => some (0x20000005 + d.toNat * 262144 + a.toNat * 2048)
  | .addi d a i => some (0x22000000 + d.toNat * 262144 + a.toNat * 2048 + i.toNat * 1)
  | .mulLo d a b => some (0x24000000 + d.toNat * 262144 + a.toNat * 2048 + b.toNat * 16)
  | .mulHiI d a b => some (0x24000001 + d.toNat * 262144 + a.toNat * 2048 + b.toNat * 16)
  | .mulHiN d a b => some (0x24000002 + d.toNat * 262144 + a.toNat * 2048 + b.toNat * 16)
  | .madLo d a b => some (0x24000003 + d.toNat * 262144 + a.toNat * 2048 + b.toNat * 16)
  | .mulWideI d a b => some (0x24000004 + d.toNat * 262144 + a.toNat * 2048 + b.toNat * 16)
  | .mulWideN d a b => some (0x24000005 + d.toNat * 262144 + a.toNat * 2048 + b.toNat * 16)
  | .minI d a b => some (0x26000000 + d.toNat * 262144 + a.toNat * 2048 + b.toNat * 16)
  | .maxI d a b => some (0x26000001 + d.toNat * 262144 + a.toNat * 2048 + b.toNat * 16)
  | .minN d a b => some (0x26000002 + d.toNat * 262144 + a.toNat * 2048 + b.toNat * 16)
  | .maxN d a b => some (0x26000003 + d.toNat * 262144 + a.toNat * 2048 + b.toNat * 16)
  | .and d a b => some (0x28000000 + d.toNat * 262144 + a.toNat * 2048 + b.toNat * 16)
  | .or d a b => some (0x28000001 + d.toNat * 262144 + a.toNat * 2048 + b.toNat * 16)
  | .xor d a b => some (0x28000002 + d.toNat * 262144 + a.toNat * 2048 + b.toNat * 16)
  | .andn d a b => some (0x28000003 + d.toNat * 262144 + a.toNat * 2048 + b.toNat * 16)
  | .not d a => some (0x28000004 + d.toNat * 262144 + a.toNat * 2048)
  | .andi d a i => some (0x2A000000 + d.toNat * 262144 + a.toNat * 2048 + i.toNat * 1)
  | .ori d a i => some (0x2C000000 + d.toNat * 262144 + a.toNat * 2048 + i.toNat * 1)
  | .xori d a i => some (0x2E000000 + d.toNat * 262144 + a.toNat * 2048 + i.toNat * 1)
  | .shl d a b => some (0x30000000 + d.toNat * 262144 + a.toNat * 2048 + b.toNat * 16)
  | .shr d a b => some (0x30000001 + d.toNat * 262144 + a.toNat * 2048 + b.toNat * 16)
  | .sar d a b => some (0x30000002 + d.toNat * 262144 + a.toNat * 2048 + b.toNat * 16)
  | .rotl d a b => some (0x30000003 + d.toNat * 262144 + a.toNat * 2048 + b.toNat * 16)
  | .shl64 d a b => some (0x30000004 + d.toNat * 262144 + a.toNat * 2048 + b.toNat * 16)
  | .shr64 d a b => some (0x30000005 + d.toNat * 262144 + a.toNat * 2048 + b.toNat * 16)
  | .sar64 d a b => some (0x30000006 + d.toNat * 262144 + a.toNat * 2048 + b.toNat * 16)
  | .shli d a n => some (0x32000000 + d.toNat * 262144 + a.toNat * 2048 + n.toNat * 1)
  | .shri d a n => some (0x32000020 + d.toNat * 262144 + a.toNat * 2048 + n.toNat * 1)
  | .sari d a n => some (0x32000040 + d.toNat * 262144 + a.toNat * 2048 + n.toNat * 1)
  | .rotli d a n => some (0x32000060 + d.toNat * 262144 + a.toNat * 2048 + n.toNat * 1)
  | .popc d a => some (0x34000000 + d.toNat * 262144 + a.toNat * 2048)
  | .clz d a => some (0x34000001 + d.toNat * 262144 + a.toNat * 2048)
  | .brev d a => some (0x34000002 + d.toNat * 262144 + a.toNat * 2048)
  | .bfeI d a b => some (0x34000003 + d.toNat * 262144 + a.toNat * 2048 + b.toNat * 16)
  | .bfeN d a b => some (0x34000004 + d.toNat * 262144 + a.toNat * 2048 + b.toNat * 16)
  | .bfi d a b => some (0x34000005 + d.toNat * 262144 + a.toNat * 2048 + b.toNat * 16)
  | .cmp d a b c => some (0x36000000 + d.toNat * 262144 + a.toNat * 2048 + b.toNat * 16 + c.toNat * 1)
  | .sel d a b m => some (0x38000000 + d.toNat * 262144 + a.toNat * 2048 + b.toNat * 16 + m.toNat * 1)
  | .movl d h i => some (0x3A000000 + d.toNat * 262144 + h.toNat * 65536 + i.toNat * 1)
  | .movh d h i => some (0x3C000000 + d.toNat * 262144 + h.toNat * 65536 + i.toNat * 1)
  | .mov d a => some (0x3E000000 + d.toNat * 262144 + a.toNat * 2048)
  | .lane d => some (0x3E000001 + d.toNat * 262144)
  | .shfl d a b => some (0x40000000 + d.toNat * 262144 + a.toNat * 2048 + b.toNat * 16)
  | .shflUp d a b => some (0x40000001 + d.toNat * 262144 + a.toNat * 2048 + b.toNat * 16)
  | .shflDn d a b => some (0x40000002 + d.toNat * 262144 + a.toNat * 2048 + b.toNat * 16)
  | .shflX d a b => some (0x40000003 + d.toNat * 262144 + a.toNat * 2048 + b.toNat * 16)
  | .bcast d a b => some (0x42000000 + d.toNat * 262144 + a.toNat * 2048 + b.toNat * 16)
  | .red d a o => some (0x44000000 + d.toNat * 262144 + a.toNat * 2048 + o.toNat * 1)
  | .scanAddI d a => some (0x46000000 + d.toNat * 262144 + a.toNat * 2048)
  | .scanAddF32 d a => some (0x46000001 + d.toNat * 262144 + a.toNat * 2048)
  | .dp4I8 d a b => some (0x48000000 + d.toNat * 262144 + a.toNat * 2048 + b.toNat * 16)
  | .dp4N8 d a b => some (0x48000001 + d.toNat * 262144 + a.toNat * 2048 + b.toNat * 16)
  | .dp2I16 d a b => some (0x48000002 + d.toNat * 262144 + a.toNat * 2048 + b.toNat * 16)
  | .cmp64 d a b c => some (0x4A000000 + d.toNat * 262144 + a.toNat * 2048 + b.toNat * 16 + c.toNat * 1)
  | .fadd d a b => some (0x60000000 + d.toNat * 262144 + a.toNat * 2048 + b.toNat * 16)
  | .fsub d a b => some (0x60000001 + d.toNat * 262144 + a.toNat * 2048 + b.toNat * 16)
  | .fmul d a b => some (0x60000002 + d.toNat * 262144 + a.toNat * 2048 + b.toNat * 16)
  | .fmin d a b => some (0x60000003 + d.toNat * 262144 + a.toNat * 2048 + b.toNat * 16)
  | .fmax d a b => some (0x60000004 + d.toNat * 262144 + a.toNat * 2048 + b.toNat * 16)
  | .fneg d a => some (0x60000005 + d.toNat * 262144 + a.toNat * 2048)
  | .fabs d a => some (0x60000006 + d.toNat * 262144 + a.toNat * 2048)
  | .ffma d a b => some (0x62000000 + d.toNat * 262144 + a.toNat * 2048 + b.toNat * 16)
  | .ffms d a b => some (0x62000001 + d.toNat * 262144 + a.toNat * 2048 + b.toNat * 16)
  | .fcmp d a b c => some (0x64000000 + d.toNat * 262144 + a.toNat * 2048 + b.toNat * 16 + c.toNat * 1)
  | .frcp d a l => some (0x66000000 + d.toNat * 262144 + a.toNat * 2048 + l.toNat * 1)
  | .frsq d a l => some (0x66000010 + d.toNat * 262144 + a.toNat * 2048 + l.toNat * 1)
  | .fsqrt d a l => some (0x66000020 + d.toNat * 262144 + a.toNat * 2048 + l.toNat * 1)
  | .fexp2 d a l => some (0x66000030 + d.toNat * 262144 + a.toNat * 2048 + l.toNat * 1)
  | .flog2 d a l => some (0x66000040 + d.toNat * 262144 + a.toNat * 2048 + l.toNat * 1)
  | .fsin d a l => some (0x66000050 + d.toNat * 262144 + a.toNat * 2048 + l.toNat * 1)
  | .fcos d a l => some (0x66000060 + d.toNat * 262144 + a.toNat * 2048 + l.toNat * 1)
  | .ftanh d a l => some (0x66000070 + d.toNat * 262144 + a.toNat * 2048 + l.toNat * 1)
  | .dadd d a b => some (0x68000000 + d.toNat * 262144 + a.toNat * 2048 + b.toNat * 16)
  | .dsub d a b => some (0x68000001 + d.toNat * 262144 + a.toNat * 2048 + b.toNat * 16)
  | .dmul d a b => some (0x68000002 + d.toNat * 262144 + a.toNat * 2048 + b.toNat * 16)
  | .dfma d a b => some (0x68000003 + d.toNat * 262144 + a.toNat * 2048 + b.toNat * 16)
  | .dmin d a b => some (0x68000004 + d.toNat * 262144 + a.toNat * 2048 + b.toNat * 16)
  | .dmax d a b => some (0x68000005 + d.toNat * 262144 + a.toNat * 2048 + b.toNat * 16)
  | .dcmp d a b c => some (0x6A000000 + d.toNat * 262144 + a.toNat * 2048 + b.toNat * 16 + c.toNat * 1)
  | .hadd2F16 d a b => some (0x6C000000 + d.toNat * 262144 + a.toNat * 2048 + b.toNat * 16)
  | .hmul2F16 d a b => some (0x6C000001 + d.toNat * 262144 + a.toNat * 2048 + b.toNat * 16)
  | .hfma2F16 d a b => some (0x6C000002 + d.toNat * 262144 + a.toNat * 2048 + b.toNat * 16)
  | .hadd2Bf16 d a b => some (0x6C000003 + d.toNat * 262144 + a.toNat * 2048 + b.toNat * 16)
  | .hmul2Bf16 d a b => some (0x6C000004 + d.toNat * 262144 + a.toNat * 2048 + b.toNat * 16)
  | .hfma2Bf16 d a b => some (0x6C000005 + d.toNat * 262144 + a.toNat * 2048 + b.toNat * 16)
  | .fclass d a => some (0x6E000000 + d.toNat * 262144 + a.toNat * 2048)
  | .fcopysign d a b => some (0x6E000001 + d.toNat * 262144 + a.toNat * 2048 + b.toNat * 16)
  | .ffrac d a => some (0x6E000002 + d.toNat * 262144 + a.toNat * 2048)
  | .fround d a => some (0x6E000003 + d.toNat * 262144 + a.toNat * 2048)
  | .cvt d a s i l => some (0x70000000 + d.toNat * 262144 + a.toNat * 2048 + s.toNat * 1024 + i.toNat * 16 + l.toNat * 1)
  | .mxpack d a l => some (0x72000000 + d.toNat * 262144 + a.toNat * 2048 + l.toNat * 16)
  | .mxunpack d a l => some (0x72000001 + d.toNat * 262144 + a.toNat * 2048 + l.toNat * 16)
  | .qpack4 d a l => some (0x72000002 + d.toNat * 262144 + a.toNat * 2048 + l.toNat * 16)
  | .qunpack4 d a l => some (0x72000003 + d.toNat * 262144 + a.toNat * 2048 + l.toNat * 16)
  | .ldB8n d b o l => some (0x80000000 + d.toNat * 262144 + b.toNat * 2048 + o.toNat * 16 + l.toNat * 1)
  | .ldB8i d b o l => some (0x82000000 + d.toNat * 262144 + b.toNat * 2048 + o.toNat * 16 + l.toNat * 1)
  | .ldB16n d b o l => some (0x84000000 + d.toNat * 262144 + b.toNat * 2048 + o.toNat * 16 + l.toNat * 1)
  | .ldB16i d b o l => some (0x86000000 + d.toNat * 262144 + b.toNat * 2048 + o.toNat * 16 + l.toNat * 1)
  | .ldB32 d b o l => some (0x88000000 + d.toNat * 262144 + b.toNat * 2048 + o.toNat * 16 + l.toNat * 1)
  | .ldB64 d b o l => some (0x8A000000 + d.toNat * 262144 + b.toNat * 2048 + o.toNat * 16 + l.toNat * 1)
  | .ldB128 d b o l => some (0x8C000000 + d.toNat * 262144 + b.toNat * 2048 + o.toNat * 16 + l.toNat * 1)
  | .ldAcqB32 d b o l => some (0x8E000000 + d.toNat * 262144 + b.toNat * 2048 + o.toNat * 16 + l.toNat * 1)
  | .ldAcqB64 d b o l => some (0x90000000 + d.toNat * 262144 + b.toNat * 2048 + o.toNat * 16 + l.toNat * 1)
  | .ldpB32 d b o l => some (0x92000000 + d.toNat * 262144 + b.toNat * 2048 + o.toNat * 16 + l.toNat * 1)
  | .ldpB64 d b o l => some (0x94000000 + d.toNat * 262144 + b.toNat * 2048 + o.toNat * 16 + l.toNat * 1)
  | .stB8 d b o l => some (0x96000000 + d.toNat * 262144 + b.toNat * 2048 + o.toNat * 16 + l.toNat * 1)
  | .stB16 d b o l => some (0x98000000 + d.toNat * 262144 + b.toNat * 2048 + o.toNat * 16 + l.toNat * 1)
  | .stB32 d b o l => some (0x9A000000 + d.toNat * 262144 + b.toNat * 2048 + o.toNat * 16 + l.toNat * 1)
  | .stB64 d b o l => some (0x9C000000 + d.toNat * 262144 + b.toNat * 2048 + o.toNat * 16 + l.toNat * 1)
  | .stB128 d b o l => some (0x9E000000 + d.toNat * 262144 + b.toNat * 2048 + o.toNat * 16 + l.toNat * 1)
  | .stRelB32 d b o l => some (0xA0000000 + d.toNat * 262144 + b.toNat * 2048 + o.toNat * 16 + l.toNat * 1)
  | .stRelB64 d b o l => some (0xA2000000 + d.toNat * 262144 + b.toNat * 2048 + o.toNat * 16 + l.toNat * 1)
  | .prefetch b o l => some (0xA4000000 + b.toNat * 2048 + o.toNat * 16 + l.toNat * 1)
  | .cinvLine b o l => some (0xA4040000 + b.toNat * 2048 + o.toNat * 16 + l.toNat * 1)
  | .cflushLine b o l => some (0xA4080000 + b.toNat * 2048 + o.toNat * 16 + l.toNat * 1)
  | .cinvPage b o l => some (0xA40C0000 + b.toNat * 2048 + o.toNat * 16 + l.toNat * 1)
  | .atomAdd32 d b o l => some (0xA6000000 + d.toNat * 262144 + b.toNat * 2048 + o.toNat * 16 + l.toNat * 1)
  | .atomAdd64 d b o l => some (0xA8000000 + d.toNat * 262144 + b.toNat * 2048 + o.toNat * 16 + l.toNat * 1)
  | .atomMinI32 d b o l => some (0xAA000000 + d.toNat * 262144 + b.toNat * 2048 + o.toNat * 16 + l.toNat * 1)
  | .atomMaxI32 d b o l => some (0xAC000000 + d.toNat * 262144 + b.toNat * 2048 + o.toNat * 16 + l.toNat * 1)
  | .atomMinN32 d b o l => some (0xAE000000 + d.toNat * 262144 + b.toNat * 2048 + o.toNat * 16 + l.toNat * 1)
  | .atomMaxN32 d b o l => some (0xB0000000 + d.toNat * 262144 + b.toNat * 2048 + o.toNat * 16 + l.toNat * 1)
  | .atomAnd d b o l => some (0xB2000000 + d.toNat * 262144 + b.toNat * 2048 + o.toNat * 16 + l.toNat * 1)
  | .atomOr d b o l => some (0xB4000000 + d.toNat * 262144 + b.toNat * 2048 + o.toNat * 16 + l.toNat * 1)
  | .atomXor d b o l => some (0xB6000000 + d.toNat * 262144 + b.toNat * 2048 + o.toNat * 16 + l.toNat * 1)
  | .atomXchg32 d b o l => some (0xB8000000 + d.toNat * 262144 + b.toNat * 2048 + o.toNat * 16 + l.toNat * 1)
  | .atomXchg64 d b o l => some (0xBA000000 + d.toNat * 262144 + b.toNat * 2048 + o.toNat * 16 + l.toNat * 1)
  | .atomCas32 d b o l => some (0xBC000000 + d.toNat * 262144 + b.toNat * 2048 + o.toNat * 16 + l.toNat * 1)
  | .atomCas64 d b o l => some (0xBE000000 + d.toNat * 262144 + b.toNat * 2048 + o.toNat * 16 + l.toNat * 1)
  | .atomFaddF32 d b o l => some (0xC0000000 + d.toNat * 262144 + b.toNat * 2048 + o.toNat * 16 + l.toNat * 1)
  | .fence i => some (0xC2000000 + i.toNat * 16)
  | .mwait d b o c => some (0xC4000000 + d.toNat * 262144 + b.toNat * 2048 + o.toNat * 16 + c.toNat * 1)
  | .barTeam => some (0xC6000000)
  | .barRole => some (0xC6000001)
  | .musArm d b o l => some (0xC8000000 + d.toNat * 262144 + b.toNat * 2048 + o.toNat * 16 + l.toNat * 1)
  | .musJoin d b o l => some (0xCA000000 + d.toNat * 262144 + b.toNat * 2048 + o.toNat * 16 + l.toNat * 1)
  | .musOwe d b o l => some (0xCC000000 + d.toNat * 262144 + b.toNat * 2048 + o.toNat * 16 + l.toNat * 1)
  | .musHold d b o l => some (0xCE000000 + d.toNat * 262144 + b.toNat * 2048 + o.toNat * 16 + l.toNat * 1)
  | .tdef d t l => some (0xD0000000 + d.toNat * 262144 + t.toNat * 16 + l.toNat * 1)
  | .town d a l => some (0xD2000000 + d.toNat * 262144 + a.toNat * 2048 + l.toNat * 16)
  | .twait a l => some (0xD2000001 + a.toNat * 2048 + l.toNat * 16)
  | .tgive a l => some (0xD2000002 + a.toNat * 2048 + l.toNat * 16)
  | .cpy d c l => some (0xD4000000 + d.toNat * 262144 + c.toNat * 16 + l.toNat * 1)
  | .cpyg d i c l => some (0xD6000000 + d.toNat * 262144 + i.toNat * 2048 + c.toNat * 16 + l.toNat * 1)
  | .cpyc d c l => some (0xD8000000 + d.toNat * 262144 + c.toNat * 16 + l.toNat * 1)
  | .rdwp d a l => some (0xDA000000 + d.toNat * 262144 + a.toNat * 2048 + l.toNat * 16)
  | .rdcsum d a l => some (0xDA000001 + d.toNat * 262144 + a.toNat * 2048 + l.toNat * 16)
  | .selk d c l => some (0xDC000000 + d.toNat * 262144 + c.toNat * 16 + l.toNat * 1)
  | .qput q a l => some (0xDE000000 + q.toNat * 262144 + a.toNat * 2048 + l.toNat * 16)
  | .qget d q l => some (0xDE000001 + d.toNat * 262144 + q.toNat * 2048 + l.toNat * 16)
  | .qtry d q m => some (0xDE000002 + d.toNat * 262144 + q.toNat * 2048 + m.toNat * 16)
  | .qlen d q l => some (0xDE000003 + d.toNat * 262144 + q.toNat * 2048 + l.toNat * 16)
  | .fput d b o l => some (0xE0000000 + d.toNat * 262144 + b.toNat * 2048 + o.toNat * 16 + l.toNat * 1)
  | .fsig d b o l => some (0xE2000000 + d.toNat * 262144 + b.toNat * 2048 + o.toNat * 16 + l.toNat * 1)
  | .mzero a => some (0xF0000000 + a.toNat * 2048)
  | .mlda d b o l => some (0xF2000000 + d.toNat * 262144 + b.toNat * 2048 + o.toNat * 16 + l.toNat * 1)
  | .mbq d => some (0xF4000000 + d.toNat * 262144)
  | .mma d a b f => some (0xF6000000 + d.toNat * 262144 + a.toNat * 2048 + b.toNat * 16 + f.toNat * 1)
  | .mdrain d a b f => some (0xF8000000 + d.toNat * 262144 + a.toNat * 2048 + b.toNat * 16 + f.toNat * 1)
  | .mscale d a => some (0xFA000000 + d.toNat * 262144 + a.toNat * 2048)
  | .mdone d => some (0xFC000000 + d.toNat * 262144)
  | .nonInstructionWord _ => none
  | .trapDelivery _ _ => none
  | .spillToBudget _ _ => none
  | .parkAreaReturn _ _ => none
  | .reconvRelease _ _ _ => none
  | .reformDraw _ _ => none
  | .binAgeExpiry _ _ => none
  | .mwaitSatisfy _ _ => none
  | .copyExecute _ _ => none
  | .copyBytesLand _ _ _ => none
  | .copyComplete _ _ => none
  | .cpycRecordFetch _ _ => none
  | .selkExecute _ _ => none
  | .handBack _ _ => none
  | .statusEntryPost _ _ => none
  | .mzeroExecute _ => none
  | .mldaExecute _ => none
  | .mmaExecute _ => none
  | .mdrainExecute _ => none
  | .mscaleExecute _ => none
  | .masonAppend _ => none
  | .masonSeal _ _ => none
  | .quarryWakeTokenPost _ => none
  | .storageProcessorRestart => none
  | .fabricPacketSend _ _ _ => none
  | .fabricPacketReceive _ => none
  | .pennantApply _ => none
  | .fabricAckReceive _ => none
  | .fabricNackReceive _ => none
  | .fabricRtoExpiry _ _ _ => none
  | .portLinkDown _ _ _ => none
  | .pathProbeTimer _ _ _ _ => none
  | .statusNoticeReceive _ _ _ => none
  | .statusNoticeResend _ => none
  | .selfstWrite _ => none
  | .create _ _ => none
  | .destroy _ _ => none
  | .kill _ _ => none
  | .killctx _ _ => none
  | .importImage _ _ => none
  | .exportImage _ _ => none
  | .free _ _ => none
  | .launchDoorbell _ _ _ => none
  | .eventDoorbell _ => none
  | .launchRecordTake _ _ => none
  | .teamPlace _ => none
  | .preemptDeadlineExpiry _ => none
  | .scanImageComplete _ => none
  | .teamSave _ => none
  | .imageRestore _ _ => none
  | .completionRecordWrite => none
  | .eventCoalesceTimer => none
  | .irqvWrite _ _ => none
  | .sbankctlWrite _ _ _ => none
  | .sbankDrainComplete _ _ => none
  | .inval => none
  | .replay => none
  | .swap => none
  | .swapLineExchange _ _ => none
  | .swapfree => none
  | .mapout => none
  | .mapend => none
  | .extrel => none
  | .qtrim => none
  | .zeroEngineDone _ => none
  | .faultRecordWrite => none
  | .notificationPost => none
  | .extentAdd _ _ _ _ => none
  | .extentReleaseRequest _ => none
  | .extentSurpriseRemoval _ _ => none
  | .peerMemoryRequest _ _ _ _ _ => none
  | .atsTranslationRequest _ _ _ => none
  | .linkTraining _ => none
  | .haltOp _ => none
  | .resume _ => none
  | .freeze _ => none
  | .thaw _ => none
  | .halyardDoorbell _ => none
  | .sampleTimer _ => none
  | .watchdogHangDeclare _ => none
  | .packageReset => none
  | .powerLoss _ => none
  | .svnWrite _ => none
  | .measurementExtend _ => none
  | .attestationReport _ => none
  | .getCertificate => none
  | .challenge _ => none
  | .getMeasurements => none
  | .pldmDiscovery => none
  | .pldmSensorRead _ => none
  | .pldmFirmwareUpdate _ _ => none
  | .offline _ => none
  | .test _ => none
  | .online _ => none
  | .retire _ => none
  | .clusterDrainComplete _ => none
  | .clusterTestComplete _ _ => none
  | .save => none
  | .checkpointSaveComplete => none
  | .load => none
  | .abort => none
  | .clockThrottleStep _ _ => none
  | .thermalTrip _ => none
  | .registerWrite _ _ => none
  | .longLatencyComplete _ _ => none
  | .quadrantCycle => none
  | .hostCoreAccess _ _ _ _ => none
  | .atsInvalidationCompletion => none
  | .portLinkUp _ => none
  | .orderlyShutdown => none
  | .uncorrectedError _ => none

/-- The word of an instruction. -/
def encode (i : Instr) : Option (BitVec 32) := (encodeNat i).map (BitVec.ofNat 32)

/-- A word of memory from its four bytes, the first at the lowest address (R14). -/
def wordOfBytes (b0 b1 b2 b3 : BitVec 8) : BitVec 32 :=
  BitVec.ofNat 32 (b0.toNat + b1.toNat * 256 + b2.toNat * 65536 + b3.toNat * 16777216)

/-- The four bytes of a word, the first at the lowest address (R14). -/
def bytesOfWord (w : BitVec 32) : List (BitVec 8) :=
  [BitVec.ofNat 8 w.toNat, BitVec.ofNat 8 (w.toNat / 256), BitVec.ofNat 8 (w.toNat / 65536), BitVec.ofNat 8 (w.toNat / 16777216)]

/-- The instruction that a little-endian run of bytes starts with (R124). -/
def decodeBytes : List (BitVec 8) → Decoded
  | b0 :: b1 :: b2 :: b3 :: _ => decode (wordOfBytes b0 b1 b2 b3)
  | _ => .notInstruction

/-- The instruction whose bits are `w`, numbered as spec/opcode_table.json numbers them: laid out as bytes and decoded. -/
def decodeTableWord (nbits w : Nat) : Option Instr :=
  match decodeBytes (bytesOfWord (BitVec.ofNat 32 (w % 2 ^ nbits))) with
  | .ok i => some i
  | _ => none

end Sys2Proof
end

