-- ==== Sys2Proof/Config.lean ====
section
/-!
DEFINITION. What an implementation fixes, and the free values: values the spec leaves open are opaque constants without a body,
applied to the counter `State.free` or to the operands, so no proof can lean on a particular value.
-/

namespace Sys2Proof

/-- Free choice (log 1): a number the device chooses, applied to the counter of free values. -/
opaque Config.freeNat : Nat → Nat

/-- Free value (log 1): 64 bits the device chooses, applied to the counter of free values. -/
opaque Config.freeWord : Nat → BitVec 64

/-- Free value (log 1): the scan map hash of a tile kind (R327; 0 vector core, 1 keystone core). -/
opaque Config.mapHash : Nat → BitVec 64

/-- Free value (log 10): the signature that the device identity key gives a message (R383, R387); its salt is fresh each time, so it is
applied to the number of signatures given before. -/
opaque Config.deviceSign : Nat → List (BitVec 8) → BitVec 3072

/-- Free value (log 10): the certificate chain of the device identity key (R387). -/
opaque Config.certChain : List (BitVec 8)

/-- Free value (log 10): the fused serial number (R387). -/
opaque Config.devId : BitVec 128

/-- Free value (log 10): the SHA-256 digest of the boot ROM (R386). -/
opaque Config.romDigest : BitVec 256

/-- Free value (log 1): the values of the energy counters ENRG(k) (R406), applied to the cycle and k. -/
opaque Config.energy : Nat → Nat → BitVec 64

/-- Free value (log 14): the bank (bits [39:32]) and row (bits [31:0]) of the DRAM that hold a physical address; for far DRAM also the
channel and rank (bits [55:40]) (R390). -/
opaque Config.dramPlace : Nat → BitVec 56

/-- Free value (log 14): the UNIT of the MSC slice, array entry or other unit that a report names and the spec does not fix (R390). -/
opaque Config.unitOf : Nat → BitVec 64

/-- Free value (log 94): the place of a path, given as 64 times its port plus its entropy value, in the order in which a message goes round the live
paths (R379). -/
opaque Config.pathRank : Nat → Nat

/-- Free value (log 31): byte i of a checkpoint's index, whose course checks and poisoned lines are given (R402). -/
opaque Config.indexByte : List (BitVec 32) → List Nat → Nat → BitVec 8

/-- Free value (log 31): the course checks and poisoned lines that the bytes of an index name which this package has not written (R402). -/
opaque Config.indexRead : List (BitVec 8) → List (BitVec 32) × List Nat

/-- The stepping byte of revision A0 (R1). -/
abbrev Config.stepping : BitVec 8 := 0xA0

/-- Base of the control space, KXCS (R301). -/
abbrev Config.kxcs : Nat := 0xFFF0000000000

/-- Base of the vault, set at boot (R301, R326; log 8). -/
abbrev Config.vaultBase : Nat := 0xBF00000000

/-- Base of the predictive table (R394; log 8). -/
abbrev Config.predBase : Nat := 0xBE00000000

/-- Clusters of the package (R2). -/
abbrev Config.nClusters : Nat := 36

/-- Banks of cluster SRAM, and the bytes of one (R3, R69). -/
abbrev Config.nBanks : Nat := 64
abbrev Config.bankBytes : Nat := 131072

/-- Slots of a core's register file, and of its admission pool (R37). -/
abbrev Config.fileSlots : Nat := 524288
abbrev Config.poolSlots : Nat := 1048576

/-- First address of the local aperture, and the bytes of its range (R65). -/
abbrev Config.aperture : Nat := 0x7F0000000000
abbrev Config.apertureBytes : Nat := 0x800000

/-- Bytes of a vault slot (R326). -/
abbrev Config.vaultSlot : Nat := 2621440

end Sys2Proof
end

