-- ==== Sys2Proof/Machine/State.lean ====
section
/-!
DEFINITION. The state of the package as plain data, the reasons a step can stop, and the state after reset. Fields that are the model's
own, and values that the spec leaves open, are named in the assumption log. A field's default is its value when the object comes into
being (group start, team start, package reset).
-/

namespace Sys2Proof.Machine

/-- Why the machine stops with a fault. -/
inductive Fault where
  /-- Raised by the meaning of an instruction with a word when `State.cur` names no resident path that could issue it. Safe: `step`
  fetches for a path before it executes, so no run reaches it. -/
  | noIssuingPath
deriving DecidableEq, Repr

/-- Why an instruction has no meaning in the model. -/
inductive Refusal where
  /-- Raised by an arm of `exec` whose instruction has no meaning yet. Safe: nothing follows from a refused step. -/
  | notModelled (mnemonic : String)
deriving DecidableEq, Repr

/-- Memory: bytes by address (Host.Cell), in the canonical form of `mwf 0`; an unlisted address reads 0 (log 4). -/
abbrev Mem := SMap Byte

/-! ## The consistency model -/

/-- The agents whose writes the consistency model tells apart (R91, R94, R97, R99). -/
inductive Agent where
  /-- a lane, by its team and its %tid, which it keeps for life (R17) -/
  | lane (team tid : Nat)
  | key (team : Nat)
  /-- a copy-engine command: its team, cluster and channel, and its number among the team's commands there -/
  | copy (team c ch n : Nat)
  /-- the matrix instructions of a team -/
  | cmu (team : Nat)
  /-- the Mason, for a team's courses -/
  | mason (team : Nat)
  /-- dispatcher, walkers, zero and swap engines, debugger -/
  | device
  | host
  | peer
  /-- a sender stream of another package -/
  | remote (src : BitVec 20) (stream : Nat)
deriving DecidableEq, Repr

/-- Writes that happen before an event (R94): all those numbered below `base`, and below a number those of a team's agents and of one agent. -/
structure View where
  base : Nat := 0
  teams : List (Nat × Nat) := []
  by_ : List (Agent × Nat) := []
deriving DecidableEq, Repr

/-- A release that a write carries (R94, R99): its scope, who released, what it releases; `wait`: an mwait alone takes it up (R99, R280). -/
structure Rel where
  scope : Nat
  agent : Agent
  view : View
  wait : Bool := false
deriving DecidableEq, Repr

/-- What orders the accesses of a lane or keystone context (R93 to R98). -/
structure Order where
  /-- writes that happen before its next access -/
  view : View := {}
  /-- writes that happen before an acquire fence of its own whose scope includes their writer (R97) -/
  un : View := {}
  /-- its release fences, which its later stores carry (R94) -/
  rel : List Rel := []
  /-- releases carried by writes that its loads returned, for a later acquire fence (R94) -/
  read : List Rel := []
  /-- bytes whose later value its loads returned, and the number of the next write then (R93) -/
  saw : List (Nat × Nat) := []
  /-- lines that its cinv refreshed, with what a fence would have refreshed of UN data and what would happen before it (R216) -/
  lines : List (Nat × View × View) := []
deriving DecidableEq, Repr

/-- Lane states (R22). -/
inductive LaneState where
  | exited | waiting | parked | binned | running
deriving DecidableEq, Repr

/-- Where a WAITING lane is held (R26, R27, R154, R221). -/
inductive WaitAt where
  | none | hard | soft | barTeam | barRole | yield
deriving DecidableEq, Repr

/-- One lane slot of a group. -/
structure Lane where
  st : LaneState := .running
  pc : W64 := 0
  tid : W32 := 0
  /-- rounding generator (R114) -/
  gen : W32 := 1
  /-- call depth (R25) -/
  depth : Nat := 0
  /-- path tag: a resumed sub-group runs as its own path (R27) -/
  tag : Nat := 0
  /-- handler mode (R162) -/
  handler : Bool := false
  at_ : WaitAt := .none
deriving DecidableEq, Repr

/-- The shape and value of a vector register (R30). -/
inductive Shape where
  | u (v : W32)
  | a (base stride : W32)
  | g (vals : List W32)
deriving DecidableEq, Repr

/-- A register that holds a written value; one that was never written has no entry (R31). -/
structure Reg where
  shape : Shape := .u 0
  /-- its slots stand in the spill area (R35) -/
  spilled : Bool := false
  /-- order of the last write (R35) -/
  stamp : Nat := 0
deriving DecidableEq, Repr

/-- A parked or handler-mode sub-group (R44 to R48, R162). -/
structure Sub where
  lanes : W32
  pcmask : W32
  cause : BitVec 8
  token : W64 := 0
  pc : W64 := 0
  depth : Nat := 0
  /-- m0 at the trap (R164) -/
  m0 : W32 := 0
  /-- imm14 of brk or trap -/
  code : BitVec 14 := 0
  tval : W64 := 0
  /-- its lanes were in handler mode when they parked (R163) -/
  inHandler : Bool := false
  /-- it has been delivered and its lanes run the handler (R162) -/
  delivered : Bool := false
  /-- %winb kept at delivery (R164) -/
  winb : Nat := 0
  /-- filed in a wait-table entry (R46) -/
  filed : Bool := false
  /-- bytes and kind of the access that parked it (R342) -/
  bytes : Nat := 0
  kind : Nat := 0
deriving DecidableEq, Repr

/-- One line of a store gate (R58): line address, byte mask, bytes by offset. -/
structure GateLine where
  line : W64
  cells : SMap (Option Byte)
  /-- by offset, the %tids of the lanes whose store the byte is (R214) and the size in which the store is single-copy atomic (R92) -/
  by_ : SMap (List Nat × Nat) := []
  /-- it lies in the local aperture; otherwise its translation: physical address of the line, leaf, and where the leaf stands -/
  pad : Bool := false
  pa : Nat := 0
  leaf : W64 := 0
  leafAt : Nat := 0
  /-- its translation was marked stale by INVAL (R340) -/
  stale : Bool := false
deriving DecidableEq, Repr

/-- An open idempotent region (R57 to R61). -/
structure Region where
  entry : W64
  m0 : W32
  /-- lanes not exited at entry (R60) -/
  live : W32
  /-- call depth at entry -/
  depth : Nat := 0
  /-- uncorrectable errors consumed in this instance (R60) -/
  errs : Nat := 0
  /-- signature mismatches in this instance (R63) -/
  mism : Nat := 0
  gate : List GateLine := []
  sig : W64 := 0
  /-- in a paired run: what the twin took from the primary in this instance, and how often the primary forwarded (R62) -/
  used : List (W64 × List W64) := []
  sent : Nat := 0
deriving DecidableEq, Repr

/-- A translation: physical address, leaf, where the leaf stands, its level (R335). -/
structure Tr where
  pa : Nat
  leaf : Nat
  leafAt : Nat
  level : Nat
deriving DecidableEq, Repr

/-- Where part of an access lies: memory, or a cluster's SRAM. -/
inductive Spot where
  | mem (va n : Nat) (t : Tr) (pa : Nat)
  | pad (cluster off n : Nat)
deriving DecidableEq, Repr

/-- One read of a load that is issued and not complete (R101): its lanes, the address, the places, the bytes that the store gate held (R58). -/
structure LateRead where
  lanes : List Nat
  addr : W64
  spots : List Spot
  above : List (Option Byte)
  /-- its translation was marked stale by INVAL (R340) -/
  stale : Bool := false
deriving DecidableEq, Repr

/-- A load that is issued and not complete (R101): its reads, which values it writes, and the number of the next write at its issue. -/
structure LateLoad where
  reads : List LateRead
  /-- first register, count of registers, U result, bytes read, sign-extended -/
  d : Nat
  words : Nat
  uni : Bool
  bytes : Nat
  signed : Bool
  /-- an acquire load (R212) -/
  acq : Bool
  at_ : Nat
deriving DecidableEq, Repr

/-- A store of a lane that is issued and still in its core (R101): address and bytes, each with the lanes whose store it is, the highest first, none where
a higher lane stores (R214), the size in which it is single-copy atomic (R92), its places with their translations, which an INVAL may have marked stale
(R340). -/
structure HeldStore where
  who : Who
  lane : Nat
  va : W64
  cells : List (List Nat × Byte)
  grain : Nat
  spots : List Spot
  stale : Bool := false
deriving DecidableEq, Repr

/-- A pending long-latency instruction (R41, R42): its destination set, the instructions left in its window for each lane, and whether
it has completed. -/
structure Pending where
  regs : List Nat
  masks : List Nat
  left : List Nat
  complete : Bool := false
  /-- a load, an atomic or a cache operation (R400) -/
  mem : Bool := false
  /-- the flags it raises when it completes (R181) -/
  flags : W32 := 0
  /-- a load, to be performed again when a freeze finds it pending (R101) -/
  load : Option LateLoad := none
deriving DecidableEq, Repr

/-- Watched waits (R374), and the stall counter each one counts under (R400). -/
inductive WaitKind where
  | mwait | barTeam | barRole | musHold | twait | qget | qput | bqh | mbq | copyq | tlbmiss | matrixq | memwait | pipebusy | rdcsum | binwait | tdef | expand | lookahead | other
deriving DecidableEq, Repr

/-- An instruction that waits: where, its major opcode, since when in fs, and whether the watchdog has declared it (R374 to R376). -/
structure Wait where
  kind : WaitKind
  pc : W64
  major : Nat := 0
  addr : W64 := 0
  since : Nat := 0
  declared : Bool := false
  /-- cycle at which the instruction was last tried (R21) -/
  tried : Nat := 0
deriving DecidableEq, Repr

/-- What an unfinished mwait has found (R220): the instruction, the lane, the value read. -/
structure Got where
  pc : W64
  lane : Nat
  val : W64
deriving DecidableEq, Repr

/-- A held quarter (R176): the holding group, the first absolute register and the count. -/
structure Hold where
  g : Nat
  first : Nat
  len : Nat
deriving DecidableEq, Repr

/-- One quarter of a B binding (R256): the hold as mbq found it, and its registers' values while its group lives. -/
structure Quarter where
  hold : Hold
  vals : List (List W32)
  /-- the group has ended or reformed: later mma read zeros (R256) -/
  gone : Bool := false
  /-- of an issued mma: the group has ended or reformed since, and its slots are kept on the core of this tile (R256) -/
  kept : Option Nat := none
deriving DecidableEq, Repr

/-- The operation of an entry of a matrix queue (R257 to R264). -/
inductive MOp where
  | zero (mask : Nat)
  | load (acc : Nat) (addr : W64)
  | mma (acc tile k0 k fn : Nat) (quarters : List Quarter)
  | drain (acc : Nat) (zero : Bool) (tile off fn : Nat) (rm : Nat) (sat : Bool)
  | scale (acc tile off : Nat)
deriving DecidableEq, Repr

/-- An entry of a matrix queue (R250): the operation and the engine operation that its tile use is. -/
structure MEntry where
  op : MOp
  opId : Nat
  /-- the page it was found waiting for at execution (R258) -/
  parked : Option W64 := none
  /-- CMU turns it has had (R251) -/
  turns : Nat := 0
  /-- number of the next write, and what happens before its reads, at its issue (R258) -/
  at_ : Nat := 0
  view : View := {}
  /-- of UN pages: what the context had refreshed at its issue (R97) -/
  un : View := {}
deriving DecidableEq, Repr

/-- The part of a keystone context that a group does not have (R240). -/
structure KeyCtx where
  /-- hardware context 0 to 3 -/
  hw : Nat := 0
  mstat : BitVec 5 := 0
  mq : List MEntry := []
  binding : Option (List Quarter) := none
  /-- accumulator element 32768 t + 256 i + j (R249) -/
  acc : SMap W32 := []
deriving DecidableEq, Repr

/-- A resident (or frozen, or saved) vector group, or a keystone context, which executes as a group whose only lane is lane 0 (R242). -/
structure Group where
  /-- key of its team -/
  team : Nat
  /-- group index g (R316); 0 for a keystone context -/
  idx : Nat
  key : Option KeyCtx := none
  /-- core 0 to 3 of its cluster; 4 for the keystone core -/
  core : Nat := 0
  /-- quadrant of its core (R4) -/
  quad : Nat := 0
  role : Nat := 0
  nregs : Nat := 32
  budget : Nat := 256
  lanes : List Lane := []
  regs : SMap Reg := []
  masks : List W32 := []
  winb : Nat := 0
  fpcr : W32 := 0
  fpflags : W32 := 0
  preempt : Bool := false
  subs : List Sub := []
  region : Option Region := none
  pend : List Pending := []
  got : List Got := []
  waits : List Wait := []
  spills : Nat := 0
  expands : Nat := 0
  issued : Nat := 0
  /-- stall counter k (R400) -/
  stalls : SMap Nat := []
  yielded : Bool := false
  /-- executing halt (R166) -/
  halted : Bool := false
  /-- doorbell pending (R366) -/
  bell : Bool := false
  /-- halted by the debugger (R364), and since when in fs -/
  dbgHalt : Bool := false
  haltAt : Nat := 0
  /-- a HALT named it while it was saved or frozen (R363) -/
  haltDue : Bool := false
  /-- a halted keystone context whose state is still to be written to its halyard: cause and brk code (R344, R367) -/
  keyHalt : Option (Nat × Nat) := none
  /-- its slots are in the park area (R37) -/
  away : Bool := false
  /-- formed by a reform draw (R52) -/
  drawn : Bool := false
  /-- its last instruction expanded, spilled, filled or squeezed a register, and the wait for it is not over (R34, R35, R174, R400) -/
  shaping : Bool := false
  /-- number of the cycle after its last issue -/
  lastIssue : Nat := 0
  /-- the active lanes of its last issue, all lanes of the path when none was active, and its program counter (R371) -/
  lastPath : W32 := 0
  lastPc : W64 := 0
  /-- the reason counted for its last cycle without an issue (R371, R400) -/
  lastStall : Nat := 15
  /-- cycles for which it has been ready without an issue (R21, R316) -/
  readyFor : Nat := 0
  residentAt : Nat := 0
  nextStamp : Nat := 1
  nextTag : Nat := 1
  /-- issue slots that one path has taken in a row, and a lane of that path (R25) -/
  streak : Nat := 0
  streakLane : Nat := 0
  /-- PAIR rendezvous of a twin's group (R62): program counter, lanes and signature that wait for the primary -/
  ask : Option (W64 × W32 × W64) := none
  /-- what the primary has forwarded (R62): program counter, then the lanes and the values -/
  fwd : List (W64 × List W64) := []
  /-- signature mismatches of the instruction that is a region of its own (R62, R63) -/
  mism : Nat := 0
  /-- the primary's instructions that the twin has yet to execute: lanes and program counter (R62) -/
  script : List (W32 × W64) := []
deriving DecidableEq, Repr

/-- A tile table entry (R73) with its hand-back pending flag (R229). -/
structure Tile where
  start : Nat := 0
  sizem1 : Nat := 0
  fmt : Nat := 0
  cmp : Bool := false
  /-- true: ENGINE -/
  own : Bool := false
  valid : Bool := false
  status : BitVec 8 := 0
  offt : Nat := 0
  expm1 : Nat := 0
  pend : Bool := false
  /-- the writes of the engine operations on it that are complete, which a hand-back releases (R82, R99) -/
  view : View := {}
  /-- what the last tgive released, which engine operations on it acquire (R81) -/
  given : View := {}
deriving DecidableEq, Repr

/-- An engine operation that names tiles, in issue order (R82). -/
structure EngOp where
  id : Nat
  tiles : List Nat
  /-- it carries the hand-back -/
  hb : Bool
  /-- it is a matrix instruction (R265) -/
  cmu : Bool := false
  complete : Bool := false
  status : BitVec 8 := 0
deriving DecidableEq, Repr

/-- Per-channel counts of a team (R85, R229, R233). -/
structure ChanCount where
  stamped : Nat := 0
  cmds : Nat := 0
  wptr : W64 := 0
  /-- commands with CSUM issued, and the CRC of each that has completed, by its number, newest first -/
  sums : Nat := 0
  crcs : List (Nat × W32) := []
  /-- the writes of the latest command that its write pointer covers (R99) -/
  view : View := {}
deriving DecidableEq, Repr

/-- Where a team stands. -/
inductive TeamStatus where
  | resident | saved | ended
deriving DecidableEq, Repr

/-- A head team (R313): its queue and launch, and the saved team it is, or none for the launch's next unplaced team. -/
structure HeadId where
  ctx : Nat
  queue : Nat
  id : W32
  saved : Option Nat := none
deriving DecidableEq, Repr

/-- A placed team. -/
structure Team where
  key : Nat
  ctx : Nat
  launch : W32
  queue : Nat := 0
  /-- linear index L (R294) and grid coordinates -/
  l : Nat := 0
  tx : Nat := 0
  ty : Nat := 0
  tz : Nat := 0
  cluster : Nat := 0
  status : TeamStatus := .resident
  prio : Nat := 0
  /-- PAD banks in allocation order (R65) -/
  pad : List Nat := []
  /-- queue frames (R72): queue, bank, frame -/
  frames : List (Nat × Nat × Nat) := []
  hw : Option Nat := none
  tiles : SMap Tile := []
  ops : List EngOp := []
  nextOp : Nat := 0
  queues : SMap (List W64) := []
  /-- what the entries of each queue release to those who pop them (R89, R229, and the queues' rules) -/
  queueViews : SMap (List View) := []
  /-- what happens before the first access of its lanes (R295, R308) -/
  view : View := {}
  /-- what the joins and landings of a muster slot's current round release, and what its last advance released (R87) -/
  musters : SMap (View × View) := []
  /-- updates of muster slots in this cycle: joins, owed bytes, landed bytes (R87) -/
  musDue : SMap (Option (Nat × W32 × W32)) := []
  chans : SMap ChanCount := []
  /-- quarter slots 0 to 3 (R176) -/
  quarters : SMap (Option Hold) := []
  /-- broken sender streams, by destination endpoint (R239) -/
  broken : List (BitVec 20) := []
  preReq : Option Nat := none
  /-- the blocked heads that made the request; none for OFFLINE's and a checkpoint's (R315) -/
  preFor : Option (List HeadId) := none
  cause : BitVec 8 := 0
  /-- PAIR: the other twin's key, and whether this is the primary (R62) -/
  twin : Option Nat := none
  primary : Bool := true
  /-- block record sums of groups that have ended (R320) -/
  spills : Nat := 0
  expands : Nat := 0
  issued : Nat := 0
  stallSum : SMap Nat := []
  stallMax : SMap Nat := []
deriving DecidableEq, Repr

/-- A role of a kernel record (R299). -/
structure RoleRec where
  groups : Nat
  place : Nat
  slots : Nat
  entry : W64
deriving DecidableEq, Repr

/-- A kernel record (R299). -/
structure KRec where
  regs : Nat := 32
  x : Nat := 32
  y : Nat := 1
  z : Nat := 1
  keystone : Bool := false
  pad : Nat := 0
  key : W64 := 0
  keep : List Nat := []
  roles : List RoleRec := []
deriving DecidableEq, Repr

/-- A launch record (R309). -/
structure LRec where
  krec : W64 := 0
  args : W64 := 0
  gx : Nat := 1
  gy : Nat := 1
  gz : Nat := 1
  padb : Nat := 0
  prio : Nat := 0
  slots : List Nat := []
  qbind : W32 := 0
  lflags : W32 := 0
  deadline : W32 := 0
  seed : W32 := 0
  trec : W64 := 0
  recbuf : W64 := 0
  deps : List (Nat × Nat) := []
  peers : List (BitVec 24) := []
deriving DecidableEq, Repr

/-- A launch whose record was taken (R308, R317). -/
structure Launch where
  ctx : Nat
  queue : Nat
  id : W32
  lrec : LRec := {}
  krec : KRec := {}
  /-- argument block header: stack area S and slab size Z (R294) -/
  stackS : W64 := 0
  stackZ : W32 := 0
  /-- next unplaced team, teams in all, teams ended -/
  next : Nat := 0
  total : Nat := 1
  ended : Nat := 0
  /-- the first team that ended with a cause: cause, L, FWHO, block record -/
  first : Option (BitVec 8 × Nat × W32 × W64) := none
  multi : Bool := false
  /-- killed, with the cause, FTEAM and FWHO the kill names (R317) -/
  killed : Option (BitVec 8 × W32 × W32) := none
  /-- what happens before the first access of its teams (R175, R308, R311) -/
  view : View := {}
  /-- cycle at which its next unplaced team became a head team (R312) -/
  headSince : Nat := 0
deriving DecidableEq, Repr

/-- A context table entry as CREATE read it (R304; log 11). -/
structure Context where
  /-- 0 free, 1 live, 2 killed -/
  state : Nat := 0
  root : W64 := 0
  trap : W64 := 0
  qtab : W64 := 0
  evt : W64 := 0
  saveb : W64 := 0
  savesz : Nat := 0
  saven : Nat := 0
  asid : BitVec 16 := 0
  priomax : Nat := 0
  nextId : W32 := 1
  /-- records submitted to queue 63 and not yet taken: their ids (R308), and what their launches released (R175) -/
  ids63 : List W32 := []
  views63 : List View := []
  /-- what the increments of each event counter released (R311, R317) -/
  evViews : SMap View := []
  /-- number of the next write at the last doorbell write of each queue (R308) -/
  bells : SMap Nat := []
deriving DecidableEq, Repr

/-- The kinds of copy-engine command (R225). -/
inductive CmdKind where
  | copy | gather | chain | select
deriving DecidableEq, Repr

/-- An accepted copy-engine command (R226, R231, R232, R234): registers d to d + 7, the gather's indices, and what was fixed at issue. -/
structure Cmd where
  team : Nat
  g : Nat
  kind : CmdKind
  regs : List W32
  idx : List W32 := []
  opId : Nat := 0
  cnum : Nat := 0
  /-- number among the channel's stamped commands of the team; 0 for a tile destination -/
  seq : Nat := 0
  /-- number among the channel's commands of the team with CSUM; 0 without (R233) -/
  sum : Nat := 0
  /-- tiles named, source then destination, with the snapshot of R76 -/
  srcTile : Option (Nat × Tile) := none
  dstTile : Option (Nat × Tile) := none
  /-- number of the next write at its issue, and what happens before its reads (R99) -/
  at_ : Nat := 0
  view : View := {}
deriving DecidableEq, Repr

/-- The command a channel is executing (R228). -/
structure Run where
  cmd : Cmd
  /-- destination bytes landed -/
  landed : Nat := 0
  crc : W32 := 0xFFFFFFFF
  /-- selk's results; under XF 2 the blocks of the image that have been read -/
  img : Option (List Byte) := none
  /-- the cause met, or to be met where the image ends, and the address of the access that met it (R342) -/
  err : BitVec 8 := 0
  errAt : Nat := 0
  ended : Bool := false
  /-- source words read so far of which another part is still to be taken: each is old or new as a whole (R99) -/
  words : List (Nat × List Byte) := []
deriving DecidableEq, Repr

/-- A cpyc chain in progress (R232): the address of the next or running record, and the running record's NEXT. -/
structure Chain where
  cmd : Cmd
  p : W64
  next : W64 := 0
  /-- the writes of its records so far (R229) -/
  wrote : View := {}
deriving DecidableEq, Repr

/-- A status entry that waits for its place in a queue (R229): the team, the operation whose hand-back comes first, queue, entry. -/
structure Post where
  team : Nat
  op : Nat
  queue : Nat
  entry : W64
  view : View := {}
deriving DecidableEq, Repr

/-- A channel of a cluster copy engine (R225). -/
structure Chan where
  cmds : List Cmd := []
  run : Option Run := none
  chain : Option Chain := none
  /-- status entries to be posted, in order (R229) -/
  post : List Post := []
deriving DecidableEq, Repr

/-- A bank of cluster SRAM (R69 to R72). -/
structure Bank where
  mode : Nat := 0
  /-- the mode it is draining to -/
  target : Option Nat := none
  err : Bool := false
  lastCtx : Option Nat := none
deriving DecidableEq, Repr

/-- A lane filed in a bin (R50), with its kept registers: number, value, and whether the register was U in its group. -/
structure BinLane where
  lane : Lane
  kept : List (Nat × W32 × Bool)
  fpcr : W32
  fpflags : W32
  winb : Nat
  nregs : Nat
  budget : Nat
  at_ : Nat
deriving DecidableEq, Repr

/-- A bin of a core (R51). -/
structure Bin where
  team : Nat
  role : Nat
  pc : W64
  lanes : List BinLane
deriving DecidableEq, Repr

/-- A wait-table entry (R46): address space, Quarry token or page, token; on the keystone core, the hardware context whose entry it is (R246). -/
structure WaitEntry where
  asid : BitVec 16
  quarry : Bool
  token : W64
  hw : Option Nat := none
deriving DecidableEq, Repr

/-- The walkers of R335; a tile is a vector core or a keystone core. -/
inductive Walker where
  | core (tile : Nat)
  | copy (c : Nat)
  | cmu (c : Nat)
  | mason
  | dispatcher
  | fabric
  | host
  | peer
deriving DecidableEq, Repr

/-- The TLBs: the L1 TLB of a vector core, the L2 TLB of a cluster (R4), and that of any other walker. -/
inductive Tlb where
  | l1 (tile : Nat)
  | l2 (c : Nat)
  | own (w : Walker)
deriving DecidableEq, Repr

/-- A translation held in a TLB (R336): which TLB, address space, global, virtual page (4 KiB), the leaf and its level. -/
structure TlbEntry where
  tlb : Tlb
  asid : BitVec 16
  global : Bool
  page : Nat
  leaf : W64
  leafAt : Nat
  level : Nat
deriving DecidableEq, Repr

/-- A pointer entry that a walker holds (R336, R340): the level of the table it names, the address bits that led to it, the table. -/
structure PtrEntry where
  walker : Walker
  asid : BitVec 16
  level : Nat
  prefix_ : Nat
  table : Nat
deriving DecidableEq, Repr

/-- A write to physical memory or SRAM, kept because loads and fetches may still return what it replaced (R95, R97, R98; log 13). -/
structure Past where
  no : Nat
  pa : Nat
  old : List Byte
  agent : Agent := .device
  /-- agents whose store it is as well: lanes of one instruction that make one store of it, the twin in a paired run (R62, R214) -/
  also : List Agent := []
  /-- bytes of the aligned parts that every observer sees whole or not at all (R83, R92) -/
  grain : Nat := 8
  /-- the releases it carries (R94) -/
  rel : List Rel := []
deriving DecidableEq, Repr

/-- A core tile: vector cores k = 0 to 3, the keystone core k = 4. -/
structure Core where
  waitTab : List WaitEntry := []
  bins : List Bin := []
  /-- %binage of role r of team t, as entries (t, r, cycles) (R51, R169) -/
  binage : List (Nat × Nat × Nat) := []
  /-- the writes whose code the core's ifences made it fetch (R98) -/
  iview : View := {}
  /-- the current groups of the issue positions of its quadrants: team, index, and the cycle at which the group became resident (R316) -/
  current : List (Nat × Nat × Nat) := []
  /-- hardware context of the keystone core that issued last (R241) -/
  keyLast : Nat := 3
  /-- frozen, its image forming or formed in this vault slot -/
  frozen : Option Nat := none
  /-- held by a debug FREEZE (R363) -/
  dbgFrozen : Bool := false
  /-- the group sampled last (R371) -/
  sampled : Nat := 0
  /-- cycle of the last sample (R371) -/
  sampleAt : Nat := 0
  /-- stores that are issued and have not left the core, oldest first (R101) -/
  stores : List HeldStore := []
deriving DecidableEq, Repr

/-- A cluster (R3) with its in-field test state (R396, R397). -/
structure Cluster where
  banks : SMap Bank := []
  /-- bank b's byte o at 131072 b + o -/
  sram : Mem := []
  /-- poisoned 8-byte words of the SRAM (R409) -/
  sramBad : List Nat := []
  chans : SMap Chan := []
  /-- keystone hardware context that the CMU served last (R251) -/
  cmuLast : Nat := 0
  ftState : Nat := 0
  repaired : Bool := false
  ftResult : Nat := 0
  ftFails : Nat := 0
  /-- bank modes as they stood at OFFLINE (R397) -/
  keptModes : SMap Nat := []
deriving DecidableEq, Repr

/-- A scan image (R326 to R328): its tile, cause, contents; the body's bytes name it by `id` (log 27), and `len` is its length in bytes. -/
structure Image where
  tile : Nat
  /-- 0x50 or 0x42 -/
  cause : BitVec 8
  groups : List Group
  core : Core
  id : W64 := 0
  len : Nat := 80
  complete : Bool := false
  exported : Bool := false
  /-- offset of the first poisoned word (R331) -/
  poisoned : Option Nat := none
  fallback : Bool := false
  /-- cycle and time in fs of the freeze: waits do not age from then on (R374) -/
  at_ : Nat := 0
  time : Nat := 0
  /-- the contexts of its teams at the freeze, by team (R305) -/
  ctxs : List (Nat × Nat) := []
deriving DecidableEq, Repr

/-- A virtual channel of one of a tile's four network ports, with the neighbour's end of it (R325, R327, R328): credits that the tile holds, its
occupied input slots, the same of the neighbour, and the flits on the link each way. -/
structure Link where
  tx : Nat := 16
  occ : Nat := 0
  farTx : Nat := 16
  farOcc : Nat := 0
  out : Nat := 0
  inn : Nat := 0
  /-- the port is closed (R325) -/
  closed : Bool := false
deriving DecidableEq, Repr

/-- A saved team (R321 to R324): its save slot, its groups, banks and bins. -/
structure Saved where
  key : Nat
  slot : Nat
  groups : List Group
  /-- its scratchpad, by aperture offset, and the poisoned words in it -/
  sram : Mem
  sramBad : List Nat
  /-- its bins, with the core each was on -/
  bins : List (Nat × Bin)
  /-- offset of the first poisoned word of the block (R331) -/
  poisoned : Option Nat := none
  /-- Mason results that wait until the team is restored (R354) -/
  results : List (W64 × View) := []
  /-- cycle at which the save completed: the team's wait restarts (R315); and the time in fs, from which its waits do not age (R374) -/
  since : Nat := 0
  time : Nat := 0
deriving DecidableEq, Repr

/-- A completion record to be written (R317). -/
structure Completion where
  ctx : Nat
  queue : Nat
  id : W32
  status : BitVec 8
  cause : BitVec 8
  fteam : W32 := 0xFFFFFFFF
  fwho : W32 := 0
  blk : W64 := 0
  compev : Nat := 0
  irq : Bool := false
  /-- %time at completion -/
  time : Nat := 0
  /-- the writes of the launch, which the increment of COMPEV releases -/
  view : View := {}
deriving DecidableEq, Repr

/-- A block record to be written, of a launch of a context (R320). -/
structure Block where
  ctx : Nat
  launch : W32
  va : Nat
  bytes : List Byte
deriving DecidableEq, Repr

/-- A fault record to be written (R342). -/
structure FaultRec where
  cause : BitVec 8
  access : W32 := 0
  who : W32 := 0
  group : BitVec 16 := 0xFFFF
  asid : BitVec 16 := 0
  launch : W32 := 0
  team : W32 := 0
  lanes : W32 := 0
  pcmask : W32 := 0
  token : W64 := 0
  va : W64 := 0
deriving DecidableEq, Repr

/-- A notification entry to be posted (R347). -/
structure Notice where
  kind : Nat
  err : Bool := false
  asid : BitVec 16 := 0
  arg : W32 := 0
  va : W64 := 0
  pa : W64 := 0
deriving DecidableEq, Repr

/-- A zeroing job (R344): the leaf's physical address, the frame and its bytes. -/
structure ZeroJob where
  leaf : Nat
  frame : Nat
  bytes : Nat
deriving DecidableEq, Repr

/-- A swap entry (R348). -/
structure Swap where
  x : Nat := 0
  y : Nat := 0
  state : Nat := 0
  big : Bool := false
  err : Bool := false
  prog : List Nat := []
deriving DecidableEq, Repr

/-- An extent entry (R356). -/
structure Extent where
  base : Nat := 0
  len : Nat := 0
  state : Nat := 0
  port : Nat := 0
deriving DecidableEq, Repr

/-- A near stack's map-out state (R359). -/
structure Stack where
  slots : Nat := 16
  alias_ : Option Nat := none
  lmap : W64 := 0xFEDCBA9876543210
deriving DecidableEq, Repr

/-- A fabric operation of a sender stream that has packets to send or to be acknowledged (R237, R238). -/
structure FabOp where
  team : Nat
  dest : BitVec 20
  /-- the destination virtual address and its physical address here, in the fabric tier -/
  va : W64
  rpa : Nat
  /-- source address and length of a put; none for a pennant -/
  src : W64 := 0
  len : Nat := 0
  pennant : Option W64 := none
  /-- the lanes that issued it, by %tid; the keystone context has none (R219) -/
  tids : List W32 := []
  /-- number of the next write, and what happens before its reads, at its issue (R237) -/
  at_ : Nat := 0
  view : View := {}
  /-- bytes handed to packets so far; for a pennant, 1 once sent -/
  sent : Nat := 0
  /-- bytes read of the source word that the last packet's end cuts, for the next packet, with their poison (R237) -/
  ahead : List (Byte × Bool) := []
  /-- the path of its last packet: the message's packets go round the live paths (R379) -/
  last : Option (Nat × Nat) := none
  acked : Nat := 0
deriving DecidableEq, Repr

/-- A sender stream (R377): its team and destination, its number, its next sequence number, its put packets so far. -/
structure OutStream where
  team : Nat
  dest : BitVec 20
  id : Nat
  next : Nat := 0
  puts : Nat := 0
deriving DecidableEq, Repr

/-- A packet sent and not acknowledged (R379, R380): the endpoint's own number for it, its stream and its place in the stream's sequence space. -/
structure OutPkt where
  no : Nat
  stream : Nat := 0
  seq : Nat
  op : Nat
  team : Nat
  dest : BitVec 20
  rpa : Nat
  data : List Byte
  bad : List Nat
  pennant : Option W64
  /-- put packets of the stream before it (R102) -/
  puts : Nat := 0
  port : Nat
  entropy : Nat
  resends : Nat := 0
  /-- when it was last sent, in fs (R380) -/
  sentAt : Nat := 0
deriving DecidableEq, Repr

/-- A dead path (R379): destination, port, entropy value, by missed acknowledgements; `missed` counts while it is live. -/
structure PathRec where
  dest : BitVec 20
  port : Nat
  entropy : Nat
  missed : Nat := 0
  dead : Bool := false
  /-- when it died or was last probed, in fs (R379) -/
  diedAt : Nat := 0
deriving DecidableEq, Repr

/-- A stream received from a peer (R102, R380): positions taken, those of the puts among them, and pennants that wait for earlier puts. -/
structure InStream where
  src : BitVec 20
  stream : Nat
  seen : List Nat := []
  written : List Nat := []
  held : List Packet := []
deriving DecidableEq, Repr

/-- A course of the Mason (R354): its appends, as Quarry addresses with their bytes, stand in the power-protected buffers until its seal. -/
structure Course where
  team : Nat
  ctx : Nat
  log : Nat
  parts : List (Nat × List Byte) := []
  /-- bytes appended -/
  len : Nat := 0
  /-- sequence number of its last append -/
  seq : Nat := 0
  /-- its seal is under way: no further append joins it -/
  sealed : Bool := false
deriving DecidableEq, Repr

/-- A message that leaves the package: an interrupt message (R319), a status notice (R373), an acknowledgement or refusal (R380), an
answer of Smiot (R388, R405). -/
inductive Message where
  | irq (addr : W64) (data : W32)
  | notice (dest : BitVec 20) (seq : BitVec 8) (st : BitVec 2)
  | noticeAck (dest : BitVec 20) (seq : BitVec 8)
  | packet (stream seq : Nat) (dest : BitVec 20) (rpa : Nat) (data : List Byte) (bad : List Nat) (pennant : Option W64) (puts : Nat)
  | probe (dest : BitVec 20) (port entropy : Nat)
  | ack (src : BitVec 20) (stream seq : Nat)
  | nack (src : BitVec 20) (stream seq : Nat)
  | smiot (kind : Nat) (data : List Byte)
  | peer (ok : Bool) (data : List Byte)
  | extentRelease (i : Nat)
deriving DecidableEq, Repr

/-- Checkpoint state (R401, R402). -/
structure Checkpoint where
  busy : Bool := false
  result : Nat := 0
  streamed : Nat := 0
  /-- number of the next write, and %time, at the start of step 2, once it has come (R402, R403) -/
  at_ : Nat := 0
  start : Option Nat := none
  /-- the model's own: what the indexes that the device has written hold, course checks and poisoned lines (R402; log 31) -/
  known : List (List W32 × List Nat) := []
deriving DecidableEq, Repr

/-- An outstanding INVAL (R340). -/
structure Inval where
  asid : BitVec 16
  anyAsid : Bool
  whole : Bool
  page : Nat
  npg : Nat
  /-- completions of peers are awaited -/
  peers : Bool := false
deriving DecidableEq, Repr

/-- The control registers of R301 and of the chapters that follow it, with their reset values. -/
structure Ctl where
  ctxtb : W64 := 0
  cmdResult : Nat := 0
  evrb : W64 := 0
  evrc : W32 := 0
  evrh : W32 := 0
  evrt : W32 := 0
  evcoal : W32 := 0
  /-- ADDR, DATA, EN, MASK, PEND of IRQV(k) as one 128-bit value (R319) -/
  irqv : SMap (BitVec 128) := []
  marg0 : W64 := 0
  marg1 : W64 := 0
  mcmdResult : Nat := 0
  mcmdBusy : Bool := false
  fltb : W64 := 0
  fltc : W32 := 0
  flth : W32 := 0
  fltt : W32 := 0
  nqb : W64 := 0
  nqc : W32 := 0
  cntb : W64 := 0
  cntthr : W32 := 0
  logtb : SMap W64 := []
  win : SMap (BitVec 128) := []
  inb : SMap (BitVec 128) := []
  dbgl : W64 := 0
  dbgt : W64 := 0
  dbgResult : Nat := 0
  dbghb : SMap W64 := []
  smpb : W64 := 0
  smpc : W32 := 0
  smph : W32 := 0
  smpt : W32 := 0
  selfst : W32 := 0
  pstb : W64 := 0
  wdctl : W64 := 0x1F40000
  hangst : W32 := 0
  hang : SMap (BitVec 256) := []
  fepid : W32 := 0
  fcfg : W32 := 0xBF080014
  fport : SMap W64 := []
  pxcfg : SMap W32 := []
  /-- what each port trained to (R381) -/
  pxTrained : SMap W32 := []
  pxbb : W64 := 0
  booterr : W32 := 0
  rooth : BitVec 256 := 0
  svn : SMap W32 := []
  meas : SMap (BitVec 256) := []
  mextd : BitVec 256 := 0
  attn : BitVec 256 := 0
  attb : W64 := 0
  errb : W64 := 0
  errc : W32 := 0
  errh : W32 := 0
  errt : W32 := 0
  errdrop : W32 := 0
  errSeq : Nat := 1
  lnc : SMap (BitVec 256) := []
  pthr : W64 := 0
  /-- counters whose threshold notice was given and which were not cleared since (R395): kind and index -/
  noticed : List (Nat × Nat) := []
  ftpat : W64 := 0
  ckb : W64 := 0
  cklen : W64 := 0
  pwrcap : W32 := 3000
  pwrnow : W32 := 0
  fclk : W32 := 3600
  tempmax : W32 := 0
  /-- time of the last clock step, in fs (R407) -/
  clkAt : Nat := 0
deriving DecidableEq, Repr

/-- How a host core accesses memory (R335): a supervisor access, with SUM; a fetch; an atomic operation, by its number among those of RISC-V (log 71);
a store that is a release at host scope (R91, R94). -/
structure HostMode where
  super : Bool := false
  sum : Bool := false
  fetch : Bool := false
  amo : Option Nat := none
  release : Bool := false
deriving DecidableEq, Repr

/-- Who moves next: a path (named by one of its lanes) issues, a path issues a store that stays in the core for now, the oldest of a core's stores
leaves it (R101), an event of the part happens, or an outside choice is taken that the spec
leaves to a part it does not describe (a Quarry line that stalls, a write by another package, a corrected error of a DRAM unit, the counts of a
flash block, the mode of a host core, log 12). -/
inductive Turn where
  | issue (who : Who) (lane : Nat)
  | hold (who : Who) (lane : Nat)
  | leave (tile : Nat)
  | event (i : Instr)
  | stall (line : Nat) (tok : BitVec 32)
  | remote (pa : Nat) (bytes : List Byte)
  | peerDown (e : BitVec 20) (down : Bool)
  | corrected (unit addr syndrome : Nat)
  | flash (block retries wear : Nat) (retired : Bool)
  | hostMode (m : HostMode)
deriving DecidableEq, Repr

/-- The path that issues the instruction now executed (R22, R23). -/
structure Issue where
  who : Who
  lanes : W32
  pc : W64
deriving DecidableEq, Repr

/-- The package. -/
structure State where
  /-- the model's own: turns to come (log 2) -/
  agenda : List Turn := []
  /-- the model's own: counter of free values (log 1) -/
  free : Nat := 0
  /-- the model's own: the issuing path (log 2) -/
  cur : Option Issue := none
  /-- the model's own: messages that have left the package, newest first (log 3) -/
  out : List Message := []
  /-- the model's own: what the last host or peer read returned (log 3) -/
  hostRd : List Byte := []
  /-- the model's own: the cause the last host access met (log 3) -/
  hostCause : BitVec 8 := 0
  /-- how the host core of the next host access accesses memory (R335) -/
  hostMode : HostMode := {}
  /-- writes of peers that were dropped because their walk faulted (R382) -/
  peerDrops : Nat := 0
  cycle : Nat := 0
  timeFs : Nat := 0
  mem : Mem := []
  /-- poisoned aligned 8-byte words, by number (R409) -/
  poison : List Nat := []
  /-- the model's own: writes so far, and their record, newest first (log 13) -/
  writes : Nat := 0
  past : List Past := []
  /-- the order of each lane's and keystone context's accesses (R93 to R98); one that is not listed has its team's view -/
  orders : List (Agent × Order) := []
  /-- the last full fence of each scope instance (R96) -/
  fences : List Rel := []
  /-- leaves that some TLB of the package may hold (R336) -/
  tlb : List TlbEntry := []
  /-- pointer entries that some walker of the package may hold (R336) -/
  ptrs : List PtrEntry := []
  /-- sectors of 32 bytes that the L1 data cache of a core holds a copy of, by tile, newest first (R4) -/
  l1d : SMap (List Nat) := []
  /-- lines of 128 bytes that the instruction cache of a core holds a copy of, by tile, newest first (R4) -/
  l1i : SMap (List Nat) := []
  /-- lines of 128 bytes that the CACHE banks of a cluster hold a copy of, by cluster, newest first (R3, R346) -/
  l2c : SMap (List Nat) := []
  /-- lines of attached memory that some cache holds dirty (R357) -/
  dirty : List Nat := []
  ctl : Ctl := {}
  /-- the command of CMD that is executing: OP, CTX and ARG (R302) -/
  cmd : Option (Nat × Nat × W32) := none
  clusters : SMap Cluster := []
  cores : SMap Core := []
  contexts : SMap Context := []
  launches : List Launch := []
  teams : List Team := []
  nextTeam : Nat := 1
  groups : List Group := []
  saved : List Saved := []
  vault : SMap (Option Image) := []
  /-- the model's own: images freed after their export, which IMPORT may bring back (log 27) -/
  imagesOut : List Image := []
  completions : List Completion := []
  /-- block records that wait for the zero engine (R320, R344) -/
  blocks : List Block := []
  /-- increments of event counters that wait for the zero engine: context, counter, what they release (R317, R344) -/
  bumps : List (Nat × Nat × View) := []
  /-- completion records written since the last interrupt, and the time of the oldest in fs (R318) -/
  evSince : Nat := 0
  evOldest : Nat := 0
  faultQ : List FaultRec := []
  noticeQ : List Notice := []
  zeroing : List ZeroJob := []
  inval : Option Inval := none
  swaps : SMap Swap := []
  extents : SMap Extent := []
  nearStacks : SMap Stack := []
  /-- the MAPOUT that is executing: stack and slot (R360) -/
  mapout : Option (Nat × Nat) := none
  /-- Quarry lines that are stalled, with their tokens (R88, R355) -/
  stalls : List (Nat × BitVec 32) := []
  /-- q12 command blocks that the Mason has not taken: team and address (R352) -/
  masonQ : List (Nat × W64) := []
  courses : List Course := []
  spRestarts : Nat := 0
  fabOps : SMap (Option FabOp) := []
  nextFab : Nat := 0
  pkts : List OutPkt := []
  nextPkt : Nat := 0
  streams : List OutStream := []
  nextStream : Nat := 0
  paths : List PathRec := []
  inStreams : List InStream := []
  /-- peers that cannot be reached (R67, R239) -/
  down : List (BitVec 20) := []
  noticeSeq : BitVec 8 := 0
  /-- status notices that are not acknowledged: receiver, sequence, state, and when each was last sent, in fs (R373) -/
  noticesOut : List (BitVec 20 × BitVec 8 × BitVec 2 × Nat) := []
  /-- the queue served last at each priority (R313): priority to 64 c + q + 1 -/
  served : SMap Nat := []
  /-- the blocked heads (R313) -/
  blocked : List HeadId := []
  /-- virtual channel v of port p of tile T, at 16 T + 4 p + v (R325 to R328) -/
  links : SMap Link := []
  /-- records whose dependences the last test did not find to hold: context, queue and HEAD (R311) -/
  depWait : List (Nat × Nat × Nat) := []
  /-- the dispatcher is stopped by a checkpoint (R402); it has served since reset (R404) -/
  paused : Bool := false
  hasServed : Bool := false
  ck : Checkpoint := {}
  /-- firmware images in boot flash, by type (R384, R405) -/
  flash : SMap (List Byte) := []
  /-- images that PLDM has staged for the next reset (R405) -/
  staged : SMap (List Byte) := []
  /-- firmware types refused at the last reset: their dies, or the matrix units, are held in reset (R385) -/
  refused : List Nat := []
  /-- DRAM parts of the predictive table kept in boot flash (R394) -/
  predKept : Mem := []
  /-- held in reset after a thermal trip, or because the host image was refused (R385, R407) -/
  held : Bool := false
  /-- signatures that the device identity key has given (R387, R388) -/
  attDone : Nat := 0
deriving DecidableEq, Repr

/-- The package right after reset: nothing is placed, every register at its reset value, memory with nothing listed. -/
def State.reset : State := {}

end Sys2Proof.Machine
end

