-- ==== Sys2Proof/Machine/Find.lean ====
section
/-!
DEFINITION. Finding and replacing the parts of the state: groups, teams, launches, clusters, cores, banks, vault slots.
-/

namespace Sys2Proof.Machine

/-- How a group or keystone context is named. -/
def Group.who (g : Group) : Who := if g.key.isSome then .key g.team else .group g.team g.idx

/-- The team key of a name. -/
def whoTeam : Who → Nat
  | .group t _ => t
  | .key t => t

/-- The resident group of a name. -/
def findGroup (s : State) (w : Who) : Option Group := firstWhere (fun g => decide (g.who = w)) s.groups

/-- Replaces the resident group of a name. -/
def modGroup (s : State) (w : Who) (f : Group → Group) : State := { s with groups := mapWhere (fun g => decide (g.who = w)) f s.groups }

/-- Groups in vault images. -/
def imagedGroups (s : State) : List Group := s.vault.flatMap fun (_, v) => match v with | some i => i.groups | none => []

/-- Groups in save blocks. -/
def savedGroups (s : State) : List Group := s.saved.flatMap (·.groups)

/-- Replaces the groups that are saved or in a vault image and satisfy a test. -/
def modAway (s : State) (p : Group → Bool) (f : Group → Group) : State :=
  { s with
    saved := s.saved.map fun x => { x with groups := mapWhere p f x.groups }
    vault := s.vault.map fun (k, v) => (k, v.map fun i => { i with groups := mapWhere p f i.groups }) }

/-- The matrix state of a team's keystone context, wherever the context is. -/
def keyOf (s : State) (team : Nat) : Option KeyCtx :=
  (firstWhere (fun g => g.key.isSome && g.team == team) (s.groups ++ (imagedGroups s ++ savedGroups s))).bind (·.key)

/-- Puts a group in the place of the resident group of its name. -/
def setGroup (s : State) (g : Group) : State := modGroup s g.who fun _ => g

/-- Removes the resident group of a name. -/
def dropGroup (s : State) (w : Who) : State := { s with groups := s.groups.filter fun g => !decide (g.who = w) }

/-- No path issues any more. -/
def uncur (s : State) : State := { s with cur := none }

/-- The team of a key. -/
def findTeam (s : State) (k : Nat) : Option Team := firstWhere (fun t => t.key == k) s.teams

/-- The team of a key; an empty one when there is none. -/
def teamOf (s : State) (k : Nat) : Team := (findTeam s k).getD { key := k, ctx := 0, launch := 0 }

/-- Replaces the team of a key. -/
def modTeam (s : State) (k : Nat) (f : Team → Team) : State := { s with teams := mapWhere (fun t => t.key == k) f s.teams }

/-- The launch of a context and id. -/
def launchOf (s : State) (c : Nat) (id : W32) : Launch :=
  (firstWhere (fun l => l.ctx == c && l.id == id) s.launches).getD { ctx := c, queue := 0, id := id }

/-- Replaces a launch. -/
def modLaunch (s : State) (c : Nat) (id : W32) (f : Launch → Launch) : State :=
  { s with launches := mapWhere (fun l => l.ctx == c && l.id == id) f s.launches }

/-- The launch of a team. -/
def teamLaunch (s : State) (t : Team) : Launch := launchOf s t.ctx t.launch

/-- Context c. -/
def contextOf (s : State) (c : Nat) : Context := mget {} s.contexts c

/-- Replaces context c. -/
def modContext (s : State) (c : Nat) (f : Context → Context) : State :=
  { s with contexts := mput {} s.contexts c (f (contextOf s c)) }

/-- Cluster c. -/
def clusterOf (s : State) (c : Nat) : Cluster := mget {} s.clusters c

/-- Replaces cluster c. -/
def modCluster (s : State) (c : Nat) (f : Cluster → Cluster) : State :=
  { s with clusters := mput {} s.clusters c (f (clusterOf s c)) }

/-- The core of tile T = 5c + k (R301). -/
def coreOf (s : State) (tile : Nat) : Core := mget {} s.cores tile

/-- Replaces the core of a tile. -/
def modCore (s : State) (tile : Nat) (f : Core → Core) : State :=
  { s with cores := mput {} s.cores tile (f (coreOf s tile)) }

/-- Bank b of cluster c. -/
def bankOf (s : State) (c b : Nat) : Bank := mget {} (clusterOf s c).banks b

/-- Replaces a bank. -/
def modBank (s : State) (c b : Nat) (f : Bank → Bank) : State :=
  modCluster s c fun k => { k with banks := mput {} k.banks b (f (mget {} k.banks b)) }

/-- A copy channel. -/
def chanOf (s : State) (c ch : Nat) : Chan := mget {} (clusterOf s c).chans ch

/-- Replaces a copy channel. -/
def modChan (s : State) (c ch : Nat) (f : Chan → Chan) : State :=
  modCluster s c fun k => { k with chans := mput {} k.chans ch (f (mget {} k.chans ch)) }

/-- A tile of a team. -/
def tileOf (t : Team) (i : Nat) : Tile := mget {} t.tiles i

/-- Replaces a tile of a team. -/
def modTile (s : State) (team i : Nat) (f : Tile → Tile) : State :=
  modTeam s team fun t => { t with tiles := mput {} t.tiles i (f (tileOf t i)) }

/-- A team's counts of a channel. -/
def countOf (t : Team) (ch : Nat) : ChanCount := mget {} t.chans ch

/-- Replaces a team's counts of a channel. -/
def modCount (s : State) (team ch : Nat) (f : ChanCount → ChanCount) : State :=
  modTeam s team fun t => { t with chans := mput {} t.chans ch (f (countOf t ch)) }

/-- The entries of queue q of a team, oldest first. -/
def queueOf (t : Team) (q : Nat) : List W64 := mget [] t.queues q

/-- Replaces the entries of a queue. -/
def setQueue (s : State) (team q : Nat) (l : List W64) : State :=
  modTeam s team fun t => { t with queues := mput [] t.queues q l }

/-- The tile number of a group's core (R301). -/
def groupTile (s : State) (g : Group) : Nat := 5 * (teamOf s g.team).cluster + g.core

/-- n free bytes (log 1). -/
def freeBytes (s : State) (n : Nat) : State × List Byte :=
  ({ s with free := s.free + n }, (upto n).map fun i => (Config.freeWord (s.free + i)).setWidth 8)

/-- A free choice among the elements of a list (log 1): the only element without a choice, otherwise one that the device chooses. -/
def chooseFrom {α : Type} (s : State) (l : List α) : State × Option α :=
  match l with
  | [] => (s, none)
  | [x] => (s, some x)
  | x :: y :: r => ({ s with free := s.free + 1 }, some (nth x (x :: y :: r) (Config.freeNat s.free % (r.length + 2))))

/-- A free choice between two outcomes (log 1). -/
def chooseBool (s : State) : State × Bool := ({ s with free := s.free + 1 }, Config.freeNat s.free % 2 == 1)

/-- Nanoseconds since package reset (R145). -/
def timeNs (s : State) : Nat := s.timeFs / 1000000 % 2 ^ 64

end Sys2Proof.Machine
end

