-- ==== Sys2Proof/Machine/Order.lean ====
section
/-!
DEFINITION. The consistency model (R91 to R99): views, which are sets of writes that happen before an event; releases and acquires at their
scopes; and what a read may still return. Every write of memory and SRAM is recorded (State.past), newest first; a read goes through the record
and, as the device chooses, misses writes that no rule makes it see.
-/

namespace Sys2Proof.Machine

/-- The team of an agent that belongs to one. -/
def Agent.team : Agent → Option Nat
  | .lane t _ | .key t | .copy t _ _ _ | .cmu t | .mason t => some t
  | .device | .host | .peer | .remote _ _ => none

/-! ## Views -/

/-- A list of marks with one mark raised. -/
def putMark {α : Type} [DecidableEq α] (l : List (α × Nat)) (x : α × Nat) : List (α × Nat) :=
  if l.any fun y => y.1 == x.1 then mapWhere (fun y => y.1 == x.1) (fun y => (y.1, Nat.max y.2 x.2)) l else l ++ [x]

/-- Write number `no` of agent `a` is in the view. -/
def View.has (v : View) (a : Agent) (no : Nat) : Bool :=
  no < v.base || v.by_.any (fun x => x.1 == a && no < x.2)
    || match a.team with
      | some t => v.teams.any fun x => x.1 == t && no < x.2
      | none => false

/-- A write of the record is an agent's own store (R62, R214). -/
def Past.isBy (p : Past) (a : Agent) : Bool := p.agent == a || p.also.contains a

/-- A write of the record is in the view. -/
def View.sees (v : View) (p : Past) : Bool := v.has p.agent p.no || p.also.any fun a => v.has a p.no

/-- The writes of either view. -/
def View.join (v w : View) : View :=
  { base := Nat.max v.base w.base, teams := w.teams.foldl putMark v.teams, by_ := w.by_.foldl putMark v.by_ }

/-- The view with all writes of an agent below a number. -/
def View.plus (v : View) (a : Agent) (n : Nat) : View := { v with by_ := putMark v.by_ (a, n) }

/-- The view with all writes of a team's agents below a number. -/
def View.plusTeam (v : View) (t n : Nat) : View := { v with teams := putMark v.teams (t, n) }

/-- What orders the accesses of an agent (R94); a lane or keystone context begins with its team's view (R308). -/
def orderOf (s : State) (a : Agent) : Order :=
  match firstWhere (fun x => x.1 == a) s.orders with
  | some x => x.2
  | none => { view := match a.team with | some t => (teamOf s t).view | none => {} }

/-- The state with an agent's order replaced. -/
def setOrder (s : State) (a : Agent) (o : Order) : State := { s with orders := (a, o) :: s.orders.filter fun x => x.1 != a }

/-! ## Scopes -/

/-- The scope instance of `me` takes in another agent (R91): lane, group (its lanes are given), team, device, host, fabric. The host scope takes
in the CXL peers; the model takes every peer for one (log 79). -/
def inScope (mates : List Agent) (me : Agent) (k : Nat) (a : Agent) : Bool :=
  a == me || match k with
    | 0 => false
    | 1 => mates.contains a
    | 2 => a.team.isSome && a.team == me.team
    | 3 => (match a with | .host | .peer | .remote _ _ => false | _ => true)
    | 4 => (match a with | .remote _ _ => false | _ => true)
    | _ => true

/-- A release and an acquire include both agents (R94). -/
def Rel.reaches (r : Rel) (mates : List Agent) (me : Agent) (scope : Nat) : Bool :=
  inScope mates me r.scope r.agent && inScope mates me scope r.agent

/-- What an agent releases now: its own writes and what happens before them (R94). -/
def released (s : State) (a : Agent) : View := (orderOf s a).view.plus a s.writes

/-- What several agents release now. -/
def releasedBy (s : State) (l : List Agent) : View := l.foldl (fun v a => v.join (released s a)) {}

/-- An agent acquires a view (R94); its own earlier writes happen before the acquire (R98). -/
def acquireView (v : View) (s : State) (a : Agent) : State :=
  let o := orderOf s a
  setOrder s a { o with view := (o.view.join v).plus a s.writes }

/-- Several agents acquire a view. -/
def acquireAll (s : State) (l : List Agent) (v : View) : State := l.foldl (acquireView v) s

/-- A view restricted to the writers within a scope (R97). -/
def View.within (v : View) (mates : List Agent) (me : Agent) (k : Nat) : View :=
  { base := if 3 ≤ k then v.base else 0
    teams := if 3 ≤ k then v.teams else if k = 2 then v.teams.filter fun x => some x.1 == me.team else []
    by_ := v.by_.filter fun x => inScope mates me k x.1 }

/-- An agent's order after an acquire fence of a scope (R94, R97): releases that its earlier loads returned are acquired; UN data that writers
within the scope wrote before is refreshed. -/
def Order.acquireFence (o : Order) (mates : List Agent) (me : Agent) (k : Nat) : Order :=
  let v := (o.read.filter fun r => !r.wait && r.reaches mates me k).foldl (fun v r => v.join r.view) o.view
  { o with view := v, un := o.un.join (v.within mates me k) }

/-- An agent's order after a release fence of a scope at write number `n` (R94). -/
def Order.releaseFence (o : Order) (me : Agent) (k n : Nat) : Order :=
  { o with rel := { scope := k, agent := me, view := o.view.plus me n } :: o.rel.filter fun r => r.scope != k }

/-- Two full fences have one scope instance (R96). -/
def sameInstance (mates : List Agent) (me : Agent) (k : Nat) (r : Rel) : Bool := r.scope == k && inScope mates me k r.agent

/-- A fence of one agent (R94, R96, R219); full fences of one scope instance fall in one order. -/
def fenceAgent (mates : List Agent) (k : Nat) (acq rel : Bool) (s : State) (me : Agent) : State :=
  let o := orderOf s me
  let before : View := if acq && rel then (s.fences.filter (sameInstance mates me k)).foldl (fun v r => v.join r.view) {} else {}
  let o1 := if acq then { o with view := (o.view.join before).plus me s.writes }.acquireFence mates me k else o
  let o2 := if rel then o1.releaseFence me k s.writes else o1
  let s1 := setOrder s me o2
  if acq && rel then
    { s1 with fences := { scope := k, agent := me, view := o2.view.plus me s.writes } :: s1.fences.filter fun r => !sameInstance mates me k r }
  else s1

/-- An agent's order after a cinv of lines (R216): for them it is as though an acquire fence at device scope had been executed. -/
def Order.refresh (o : Order) (mates : List Agent) (me : Agent) (lines : List Nat) : Order :=
  let f := o.acquireFence mates me 3
  { o with lines := lines.map (·, f.un, f.view) ++ o.lines.filter fun x => !lines.contains x.1 }

/-- An agent's order with its own stores so far, which its loads must see (R93, R97). -/
def ownOrder (s : State) (a : Agent) : Order :=
  let o := orderOf s a
  { o with view := o.view.plus a s.writes, un := o.un.plus a s.writes }

/-- What either order demands of a read. -/
def Order.join (o r : Order) : Order :=
  { o with view := o.view.join r.view, un := o.un.join r.un, saw := o.saw ++ r.saw, lines := o.lines ++ r.lines }

/-- What orders a read that several agents share (R208): what any of them must see, it sees. -/
def sharedOrder (s : State) : List Agent → Order
  | [] => {}
  | [a] => orderOf s a
  | a :: l => l.foldl (fun o b => o.join (ownOrder s b)) (ownOrder s a)

/-! ## Reads -/

/-- A read in progress: free values used, the bytes from the newest write backwards (value, settled, number after the write that was seen by
choice), the releases of the writes seen. -/
structure Found where
  free : Nat
  bytes : List (Byte × Bool × Nat)
  rels : List Rel := []
deriving DecidableEq, Repr

/-- A write of the record that touches a range. -/
def touches (pa n : Nat) (p : Past) : Bool := p.pa < pa + n && pa < p.pa + p.old.length

/-- Address `a` is one of the bytes that a write of the record wrote. -/
def Past.covers (p : Past) (a : Nat) : Bool := p.pa ≤ a && a < p.pa + p.old.length

/-- A read of the bytes from `pa` comes to a write of the record: each part of it that every observer sees whole is seen, or missed where `may`
allows it, as the device chooses; what `skip` names is missed (R92, R95). -/
def seeWrite (may : Past → Nat → Bool) (skip : Past → Bool) (pa : Nat) (f : Found) (p : Past) : Found :=
  let n := f.bytes.length
  if !touches pa n p then f
  else
    let part (a : Nat) : Nat := a / p.grain
    let mayPart (k : Nat) : Bool := (span pa n).all fun a => part a != k || !p.covers a || may p a
    let missed (a : Nat) : Bool := skip p || (mayPart (part a) && Config.freeNat (f.free + (part a - part pa)) % 2 == 1)
    let see (a : Nat) (b : Byte × Bool × Nat) : Byte × Bool × Nat :=
      if b.2.1 || !p.covers a then b
      else if missed a then (nth b.1 p.old (a - p.pa), false, 0)
      else (b.1, true, if may p a then p.no + 1 else 0)
    let bytes := (span pa n).zipWith see f.bytes
    { free := if (span pa n).any (fun a => p.covers a && mayPart (part a) && !skip p) then f.free + n else f.free
      bytes := bytes
      rels := if (f.bytes.zip bytes).any (fun x => !x.1.2.1 && x.2.2.1) then f.rels ++ p.rel else f.rels }

/-- A read of the bytes from `pa`, whose present values are `cur`. -/
def lookBack (past : List Past) (may : Past → Nat → Bool) (skip : Past → Bool) (pa : Nat) (cur : List Byte) (free : Nat) : Found :=
  past.foldl (seeWrite may skip pa) { free := free, bytes := cur.map fun b => (b, false, 0) }

/-- A write that a load of memory of kind RC or of the scratchpad may miss (R93, R95): it does not happen before the load, no lane's own later
load or store excludes it. What the device itself writes for a lane is never missed (log 13). -/
def mayMiss (me : Agent) (o : Order) (p : Past) (a : Nat) : Bool :=
  !p.isBy me && p.agent != .device && !o.view.sees p
    && !(o.saw.any fun x => x.1 == a && p.no < x.2) && !o.lines.any fun x => x.1 == a / 128 && x.2.2.sees p

/-- A write that a load of a UN page may miss (R97, R216). -/
def mayMissUn (me : Agent) (o : Order) (p : Past) (a : Nat) : Bool :=
  !p.isBy me && !o.un.sees p && !o.lines.any fun x => x.1 == a / 128 && x.2.1.sees p

/-- The order of an agent after a load: the bytes it saw by choice, where the kind of memory is coherent, and the releases it returned. -/
def Order.afterLoad (o : Order) (pa : Nat) (coherent : Bool) (f : Found) : Order :=
  let new := if coherent then (span pa f.bytes.length).zip (f.bytes.map (·.2.2)) |>.filter (·.2 != 0) else []
  { o with
    saw := new ++ o.saw.filter fun x => !new.any fun y => y.1 == x.1
    read := o.read ++ f.rels.filter fun r => !o.read.contains r }

/-- How a load acquires: not at all, as an acquire load, as the satisfying read of an mwait (R94, R99). -/
inductive Acquire where
  | no | load | wait
deriving DecidableEq, Repr

/-- The scope at which an acquire of a page's scope takes up a release: an mwait that observes a pennant acquires at fabric scope (R99). -/
def Rel.acquiredAt (r : Rel) (k : Nat) : Nat :=
  match r.agent with
  | .remote _ _ => if r.wait then 5 else k
  | _ => k

/-- The order after an acquire at a scope of the releases that a load returned (R94, R99). -/
def Order.acquireLoad (o : Order) (mates : List Agent) (me : Agent) (how : Acquire) (k : Nat) (rels : List Rel) : Order :=
  match how with
  | .no => o
  | .load => { o with view := (rels.filter fun r => !r.wait && r.reaches mates me k).foldl (fun v r => v.join r.view) o.view }
  | .wait => { o with view := (rels.filter fun r => r.reaches mates me (r.acquiredAt k)).foldl (fun v r => v.join r.view) o.view }

/-! ## Writes -/

/-- Who writes, alone or as one store with others, in parts of which size every observer sees whole, with the releases that the write carries; an
atomic stands for the writes before its own in the coherence order (R94). -/
structure Writer where
  agent : Agent := .device
  also : List Agent := []
  grain : Nat := 8
  rel : List Rel := []
  atomic : Bool := false
deriving DecidableEq, Repr

/-- In a paired run, the agent of the twin that executes what an agent does: a store of ordinary memory is both twins' (R62; log 22). -/
def twinAgent (s : State) (a : Agent) : List Agent :=
  let twin (t : Nat) (f : Nat → Agent) : List Agent := match (teamOf s t).twin with | some k => [f k] | none => []
  match a with
  | .lane t n => twin t fun k => .lane k n
  | .key t => twin t .key
  | .copy t _ ch n => twin t fun k => .copy k (teamOf s k).cluster ch n
  | .cmu t => twin t .cmu
  | .mason t => twin t .mason
  | _ => []

/-- Everyone whose store a write is, but for the agent that makes it. -/
def Writer.others (s : State) (w : Writer) : List Agent := w.also ++ (w.agent :: w.also).flatMap (twinAgent s)

/-- The record with a write of `n` bytes at `pa` over `old`. -/
def record (s : State) (w : Writer) (pa : Nat) (old : List Byte) : State :=
  { s with
    past := { no := s.writes, pa := pa, old := old, agent := w.agent, also := w.others s, grain := w.grain
              rel := w.rel ++ if w.atomic then (s.past.filter (touches pa old.length)).flatMap (·.rel) else [] } :: s.past
    writes := s.writes + 1 }

/-- Where a byte of a cluster's SRAM stands in the record of writes: above every physical address. -/
def padKey (c off : Nat) : Nat := 2 ^ 60 + c * 2 ^ 23 + off

end Sys2Proof.Machine
end

