-- ==== Sys2Proof/Machine/Physical.lean ====
section
/-!
DEFINITION. Physical memory: reads and writes of bytes at physical addresses, poison (R409), the slot alias of a layer map-out (R360), and
the record of past writes that UN loads and fetches read (R97, R98). Little-endian order is decided here (R14).
-/

namespace Sys2Proof.Machine

/-- The ranges of R332: first addresses and ends. -/
abbrev nearEnd : Nat := 0xC000000000
abbrev farBase : Nat := 0x100000000000
abbrev farEnd : Nat := 0x118000000000
abbrev quarryBase : Nat := 0x1000000000000
abbrev quarryEnd : Nat := 0x1180000000000
abbrev attachedBase : Nat := 0x2000000000000
abbrev fabricBase : Nat := 0x4000000000000
abbrev fabricEnd : Nat := 0x8000000000000

/-- The memory with bytes written at an address. -/
def memPut (m : Mem) (pa : Nat) : List Byte → Mem
  | [] => m
  | b :: bs => memPut (mput 0 m pa b) (pa + 1) bs

/-- Near slot h of a stack whose alias is active reaches slot f (R360). -/
def routeAlias (s : State) (pa : Nat) : Nat :=
  if pa < nearEnd then
    let st := mget ({} : Stack) s.nearStacks (pa / 2 ^ 36)
    match st.alias_ with
    | some f => if pa / 2 ^ 32 % 16 = st.slots then pa / 2 ^ 36 * 2 ^ 36 + f * 2 ^ 32 + pa % 2 ^ 32 else pa
    | none => pa
  else pa

/-- The bytes at a physical address. -/
def physRead (s : State) (pa n : Nat) : List Byte := (span (routeAlias s pa) n).map (mget 0 s.mem)

/-- A little-endian number at a physical address (R14). -/
def physNum (s : State) (pa n : Nat) : Nat := ofBytes (physRead s pa n)

/-- Some aligned 8-byte word that the range touches is poisoned (R409). -/
def poisonedAt (s : State) (pa n : Nat) : Bool :=
  let p := routeAlias s pa
  n != 0 && s.poison.any fun w => p / 8 ≤ w && w ≤ (p + n - 1) / 8

/-- Word w lies wholly inside the range (R409). -/
def coversWord (pa n w : Nat) : Bool := pa ≤ 8 * w && 8 * w + 8 ≤ pa + n

/-- Lines of 128 bytes that n bytes at an address touch. -/
def linesAt (p n : Nat) : List Nat := if n = 0 then [] else span (p / 128) ((p + n - 1) / 128 - p / 128 + 1)

/-- The dirty lines after a write: those of attached memory are kept, because a surprise removal loses them (R357). -/
def dirtied (s : State) (p n : Nat) : List Nat :=
  if attachedBase ≤ p && p < fabricBase then (linesAt p n).filter (fun k => !s.dirty.contains k) ++ s.dirty else s.dirty

/-- A write of physical memory: it clears the poison of every word it covers (R409) and is recorded (R95, R97, R98). -/
def physWriteBy (s : State) (w : Writer) (pa : Nat) (bs : List Byte) : State :=
  let p := routeAlias s pa
  let s1 := record s w p ((span p bs.length).map (mget 0 s.mem))
  { s1 with mem := memPut s.mem p bs, poison := s.poison.filter (fun w => !coversWord p bs.length w), dirty := dirtied s p bs.length }

/-- A write by the device. -/
def physWrite (s : State) (pa : Nat) (bs : List Byte) : State := physWriteBy s {} pa bs

/-- A write of a little-endian number of n bytes (R14). -/
def physPut (s : State) (pa n v : Nat) : State := physWrite s pa (toBytes n v)

/-- Poisons the aligned 8-byte word of a physical address (R409). -/
def poisonWord (s : State) (pa : Nat) : State :=
  let w := routeAlias s pa / 8
  if s.poison.contains w then s else { s with poison := w :: s.poison }

/-- Bytes with the part of an older write undone: `old` stood at `q`, `bs` stand at `pa`. -/
def undoPast (pa : Nat) (bs : List Byte) (p : Past) : List Byte :=
  (span pa bs.length).zipWith (fun a b => if p.pa ≤ a && a < p.pa + p.old.length then nth b p.old (a - p.pa) else b) bs

/-- The values the bytes had before each write that `keep` allows to be missed, newest first; the walk ends at a write that it forbids. -/
def pastValues (pa : Nat) (touch : Past → Bool) (missable : Past → Bool) : List Past → List Byte → List (List Byte)
  | [], _ => []
  | p :: ps, bs =>
    if touch p then (if missable p then undoPast pa bs p :: pastValues pa touch missable ps (undoPast pa bs p) else [])
    else pastValues pa touch missable ps bs

end Sys2Proof.Machine
end

