-- ==== Sys2Proof/Machine/Report.lean ====
section
/-!
DEFINITION. What the device reports: interrupt messages (R319), error records (R391, R392), predictive counters (R394, R395),
notification entries (R347) and fault records held until the fault ring has room (R341).
-/

namespace Sys2Proof.Machine

/-- Source k raises its interrupt: the message leaves when EN is 1 and MASK is 0, else PEND is set (R319). -/
def raiseIrq (s : State) (k : Nat) : State :=
  let v := mget 0 s.ctl.irqv k
  if bits v.toNat 96 2 = 1 then
    physPut { s with out := .irq (BitVec.ofNat 64 v.toNat) (BitVec.ofNat 32 (v.toNat / 2 ^ 64)) :: s.out }
      (v.toNat % 2 ^ 64) 4 (bits v.toNat 64 32)
  else { s with ctl := { s.ctl with irqv := mput 0 s.ctl.irqv k (v ||| BitVec.ofNat 128 (2 ^ 98)) } }

/-- The class, severity and contents of an error record (R392). -/
structure ErrRec where
  cls : Nat
  sev : Nat := 0
  cause : Nat := 0
  asid : Nat := 0xFFFF
  launch : Nat := 0
  unit : Nat := 0
  unit2 : Nat := 0
  detail : Nat := 0
deriving DecidableEq, Repr

/-- The 64 bytes of an error record (R392). -/
def errBytes (s : State) (e : ErrRec) (count : Nat) : List Byte :=
  toBytes 8 s.ctl.errSeq ++ toBytes 2 0 ++ toBytes 2 e.cls ++ toBytes 1 e.sev ++ toBytes 1 e.cause ++ toBytes 2 e.asid ++ toBytes 4 count
    ++ toBytes 4 e.launch ++ toBytes 8 (timeNs s) ++ toBytes 8 e.unit ++ toBytes 8 e.unit2 ++ toBytes 16 e.detail

/-- OWNER reads 1 while the host die is held in reset (R391). -/
def errOwner (s : State) : Nat := if s.held then 1 else bits s.ctl.errc.toNat 8 1

/-- The error ring is configured (R303, R391). -/
def errRingOk (s : State) : Bool := s.ctl.errb != 0 && 6 ≤ s.ctl.errc.toNat % 32 && s.ctl.errc.toNat % 32 ≤ 16

/-- Entries of a ring not consumed: tail minus head modulo 2^32. -/
def ringUsed (head tail : W32) : Nat := (tail - head).toNat

/-- An error record is written, merged into the newest unconsumed record, or dropped (R391); the owner is told (R391, R405). -/
def logError (s : State) (e : ErrRec) : State :=
  let n := s.ctl.errc.toNat % 32
  let used := ringUsed s.ctl.errh s.ctl.errt
  let last := s.ctl.errb.toNat + 64 * ((s.ctl.errt - 1).toNat % 2 ^ n)
  if !errRingOk s then { s with ctl := { s.ctl with errdrop := if s.ctl.errdrop = BitVec.allOnes 32 then s.ctl.errdrop else s.ctl.errdrop + 1 } }
  else if used != 0 && e.sev == 0 && physNum s (last + 0x0A) 2 == e.cls && physNum s (last + 0x20) 8 == e.unit then
    physPut s (last + 0x10) 4 (Nat.min 0xFFFFFFFF (physNum s (last + 0x10) 4 + 1))
  else if 2 ^ n ≤ used then { s with ctl := { s.ctl with errdrop := if s.ctl.errdrop = BitVec.allOnes 32 then s.ctl.errdrop else s.ctl.errdrop + 1 } }
  else
    let b := errBytes s e 1
    let s1 := physWrite s (s.ctl.errb.toNat + 64 * (s.ctl.errt.toNat % 2 ^ n)) b
    let s2 := { s1 with ctl := { s1.ctl with errt := s1.ctl.errt + 1, errSeq := s1.ctl.errSeq + 1 } }
    if errOwner s = 0 then raiseIrq s2 4 else { s2 with out := .smiot 2 b :: s2.out }

/-- A UNIT value (R390). -/
def unitOf (kind a b c d : Nat) : Nat := kind * 2 ^ 56 + a % 2 ^ 8 * 2 ^ 48 + b % 2 ^ 8 * 2 ^ 40 + c % 2 ^ 8 * 2 ^ 32 + d % 2 ^ 32

/-- Rows of a DRAM bank: the predictive table has 16 groups of 4,096 rows (R394). -/
abbrev maxRows : Nat := 65536

/-- UNIT of the place that holds a physical address (R390): the DRAM bank and row, the Quarry's stack and block, the extent; for any other address
the MSC slice that stands before it. What the spec leaves to the part is the configuration's (log 14). -/
def unitAt (s : State) (pa : Nat) : Nat :=
  let place := (Config.dramPlace pa).toNat
  if pa < nearEnd then
    unitOf 3 (pa / 2 ^ 36) (bits (mget ({} : Stack) s.nearStacks (pa / 2 ^ 36)).lmap.toNat (4 * (pa / 2 ^ 32 % 16)) 4) (bits place 32 8 % 64)
      (place % maxRows)
  else if farBase ≤ pa && pa < farEnd then unitOf 4 (bits place 48 8 % 48) (bits place 40 8 % 2) (bits place 32 8 % 16) (place % maxRows)
  else if quarryBase ≤ pa && pa < quarryEnd then unitOf 5 (bits place 48 8 % 8) 0 0 (place % 2 ^ 32 % 49152)
  else
    match firstWhere (fun (x : Nat × Extent) => x.2.base ≤ pa && pa < x.2.base + x.2.len) s.extents with
    | some (i, _) => unitOf 8 i 0 0 0
    | none => unitOf 7 (bits place 48 8 % 144) 0 0 place

/-- UNIT of a word of a cluster's SRAM: its bank, and the word's number in it (R390). -/
def sramUnit (c off : Nat) : Nat := unitOf 2 c 4 (off / Config.bankBytes) (off % Config.bankBytes / 8)

/-- A UNIT value of a unit that exists (R389, R390). -/
def unitOk (u : Nat) : Bool :=
  let a := bits u 48 8
  let b := bits u 40 8
  let c := bits u 32 8
  let d := bits u 0 32
  match u / 2 ^ 56 with
  | 1 => a < Config.nClusters && b < 4 && match c % 32 with
      | 0 => c / 32 < 4 && d < 4
      | 1 | 2 | 3 => c / 32 < 4 && d == 0
      | 4 => c / 32 == 7 && d < 16
      | n => c / 32 == 7 && n < 9
  | 2 => a < Config.nClusters && (b < 6 || b == 0xFF)
      && match b with | 1 => c < 4 | 2 => c < 16 | 3 => c < 8 | 4 => c < 64 | _ => c == 0
  | 3 => a < 12 && b < 16 && c < 64 && d < maxRows
  | 4 => a < 48 && b < 2 && c < 16 && d < maxRows
  | 5 => a < 8 && b == 0 && c == 0 && d < 49152
  | 6 => a < 18 && c < (if a < 16 then 8 else 16) && b == 0 && d == 0
  | 7 => a < 144 && b == 0 && c == 0
  | 8 => b == 0 && c == 0 && d == 0
  | 9 => a < 5 && b == 0 && c == 0 && d == 0
  | _ => false

/-- The array is a register slot, an L1 line, a word of the cluster's SRAM or a store gate's entry (R60): an error there restarts an open region. R390's table
has no element for the store gate; the model lets such an error name the L1 data cache (log 99). -/
def restartUnit (u : Nat) : Bool :=
  match u / 2 ^ 56 with
  | 1 => bits u 32 5 == 4 || bits u 32 5 == 5
  | 2 => bits u 40 8 == 4
  | _ => false

/-- An 8-bit part of a UNIT value (R390). -/
def unitPart (u lo n : Nat) : Nat := bits u lo n

/-- The predictive counter of a DRAM unit that exists, as an address in the predictive table (R394). -/
def predAddr (u : Nat) : Option Nat :=
  let a := bits u 48 8
  let b := bits u 40 8
  let c := bits u 32 8
  let d := bits u 0 32
  if !unitOk u then none
  else if bits u 56 8 = 3 then some (Config.predBase + 4 * (((a * 16 + b) * 64 + c) * 16 + d / 2 ^ 12))
  else if bits u 56 8 = 4 then some (Config.predBase + 0xC0000 + 4 * (((a * 2 + b) * 16 + c) * 16 + d / 2 ^ 12))
  else none

/-- A counter that reaches its threshold from below gives one record of CLASS 0x08 until it is cleared (R395); the record's value has four bytes (R392), and
a greater count is given as their greatest value (log 100). -/
def predNotice (s : State) (kind idx unit old new thr : Nat) : State :=
  if thr != 0 && old < thr && thr ≤ new && !s.ctl.noticed.contains (kind, idx) then
    logError { s with ctl := { s.ctl with noticed := (kind, idx) :: s.ctl.noticed } } { cls := 8, unit := unit, detail := kind + Nat.min new 0xFFFFFFFF * 2 ^ 64 }
  else s

/-- The base dies and memory controllers count an uncorrected event of a DRAM unit (R394). -/
def countUncorrected (s : State) (u : Nat) : State :=
  match predAddr u with
  | some at_ =>
    let v := physNum s at_ 4
    physPut s at_ 4 (v % 2 ^ 24 + Nat.min 0xFF (v / 2 ^ 24 + 1) * 2 ^ 24)
  | none => s

/-- The notification queue is configured (R303, R345). -/
def nqOk (s : State) : Bool := s.ctl.nqb != 0 && 6 ≤ s.ctl.nqc.toNat % 16 && s.ctl.nqc.toNat % 16 ≤ 15

/-- TAIL and HEAD of the notification queue's header (R347). -/
def nqTail (s : State) : W32 := BitVec.ofNat 32 (physNum s s.ctl.nqb.toNat 4)
def nqHead (s : State) : W32 := BitVec.ofNat 32 (physNum s (s.ctl.nqb.toNat + 4) 4)

/-- The queue has a free slot (R347). -/
def nqFree (s : State) : Bool := nqOk s && ringUsed (nqHead s) (nqTail s) < 2 ^ (s.ctl.nqc.toNat % 16)

/-- Posts an entry in a queue that has a free slot; an interrupt is raised when TAIL advances from a value equal to HEAD (R347). -/
def nqPost (s : State) (n : Notice) : State :=
  let t := nqTail s
  let at_ := s.ctl.nqb.toNat + 64 + 32 * (t.toNat % 2 ^ (s.ctl.nqc.toNat % 16))
  let s1 := physWrite s at_ (toBytes 4 (n.kind + if n.err then 2 ^ 9 else 0) ++ toBytes 6 0 ++ toBytes 2 n.asid.toNat ++ toBytes 4 n.arg.toNat
    ++ toBytes 8 n.va.toNat ++ toBytes 8 n.pa.toNat)
  let s2 := physPut s1 s.ctl.nqb.toNat 4 ((t + 1).toNat)
  if t = nqHead s then raiseIrq s2 2 else s2

/-- Counter index of a physical address, and the threshold of its tier (R345); none outside near and far memory. -/
def countIndex (s : State) (pa : Nat) : Option (Nat × Nat) :=
  if pa < nearEnd then some (pa / 65536, s.ctl.cntthr.toNat % 65536)
  else if farBase ≤ pa && pa < farEnd then some (12582912 + (pa - farBase) / 65536, s.ctl.cntthr.toNat / 65536)
  else none

/-- An access is counted: its region's COUNT rises and a HOT notification is posted, merged or dropped at the threshold (R346). -/
def countAccess (s : State) (pa : Nat) (va : Nat) (asid : BitVec 16) : State :=
  match countIndex s pa with
  | none => s
  | some (i, thr) =>
    if s.ctl.cntb = 0 then s else
    let at_ := s.ctl.cntb.toNat + 4 * i
    let v := physNum s at_ 4
    let c := Nat.min 0xFFFF (v % 65536 + 1)
    let s1 := physPut s at_ 4 (v / 65536 * 65536 + c)
    let n := s.ctl.nqc.toNat % 16
    if thr = 0 || c != thr || v % 65536 = c then s1
    else
      let slot := bits v 16 15
      let h := (nqHead s1).toNat
      let ent := s.ctl.nqb.toNat + 64 + 32 * (slot % 2 ^ n)
      let region := pa / 65536 * 65536
      if nqOk s && v / 2 ^ 31 = 1 && (slot + 2 ^ 32 - h) % 2 ^ n < ((nqTail s1).toNat + 2 ^ 32 - h) % 2 ^ n
          && physNum s1 ent 1 == 1 && physNum s1 (ent + 0x18) 8 == region then
        physPut s1 ent 4 (physNum s1 ent 4 ||| 2 ^ 8)
      else if nqFree s1 then
        let t := (nqTail s1).toNat
        let s2 := nqPost s1 { kind := 1, asid := asid, arg := BitVec.ofNat 32 c, va := BitVec.ofNat 64 va, pa := BitVec.ofNat 64 region }
        physPut s2 at_ 4 (c + t % 2 ^ n % 2 ^ 15 * 2 ^ 16 + 2 ^ 31)
      else if nqOk s then raiseIrq (physPut s1 (s.ctl.nqb.toNat + 8) 1 1) 2
      else s1

/-- A fault record to be written (R341, R342). -/
def fileFault (s : State) (f : FaultRec) : State := { s with faultQ := s.faultQ ++ [f] }

end Sys2Proof.Machine
end

