-- ==== Sys2Proof/Machine/Access.lean ====
section
/-!
DEFINITION. Virtual memory: canonical addresses and the local aperture (R64, R65), the page walk (R335, R336), permissions and tiers (R67),
the owner bit (R80), and the reading and writing of bytes at virtual addresses.
-/

namespace Sys2Proof.Machine

/-- The kinds of access of R335. -/
inductive Acc where
  | read | write | atomic | release | fetch
  /-- destination of fput and fsig -/
  | fab
deriving DecidableEq, Repr

/-- It needs W (R335). -/
def Acc.writes : Acc → Bool
  | .read | .fetch => false
  | _ => true

/-- Fields of a leaf (R334). -/
def leafTier (e : Nat) : Nat := bits e 10 3
def leafKind (e : Nat) : Nat := bits e 8 2
def leafBit (e i : Nat) : Bool := bits e i 1 == 1

/-- Bytes that a leaf of a level maps (R334). -/
def pageBytes (level : Nat) : Nat := 4096 * 512 ^ level

/-- An attached range lies in an extent that is online, or whose release is requested, or, when `lost`, that was removed by surprise and whose
poisoned lines are still met (R356, R357; log 15). -/
def extentCovers (s : State) (lost : Bool) (pa n : Nat) : Bool :=
  s.extents.any fun (_, x) => (x.state == 1 || x.state == 2 || (lost && x.state == 0 && x.len != 0)) && x.base ≤ pa && pa + n ≤ x.base + x.len

/-- The frame lies in its tier's range (R332, R335, R356, R358, R360). -/
def frameOk (s : State) (tier pa n : Nat) : Bool :=
  match tier with
  | 0 => pa + n ≤ nearEnd &&
      (let st := mget ({} : Stack) s.nearStacks (pa / 2 ^ 36)
       let j := pa / 2 ^ 32 % 16
       j < st.slots || (j == st.slots && st.alias_.isSome))
  | 1 => farBase ≤ pa && pa + n ≤ farEnd
  | 2 => quarryBase ≤ pa && pa + n ≤ quarryEnd
  | 3 => attachedBase ≤ pa && pa + n ≤ fabricBase
  | 4 => fabricBase ≤ pa && pa + n ≤ fabricEnd && bits (mget (0 : BitVec 128) s.ctl.win ((pa - fabricBase) / 2 ^ 38)).toNat 20 1 == 1
  | _ => false

/-- CheckLeaf of R335, but for the ordering kind: the code of a malformed leaf, or the translation. -/
def checkLeaf (s : State) (va e leafAt level : Nat) : Except Nat Tr :=
  let frame := bits e 16 40 * 4096
  let n := pageBytes level
  if level = 3 || (leafBit e 2 && !leafBit e 1) || bits e 57 7 != 0 || 5 ≤ leafTier e || frame % n != 0
      || !frameOk s (leafTier e) frame n || (leafBit e 56 && level != 0) then .error 0x11
  else .ok { pa := frame + va % n, leaf := e, leafAt := leafAt, level := level }

/-- The walk of R335 from table t over the levels left. -/
def walkFrom (s : State) (va : Nat) : Nat → List Nat → Except Nat Tr
  | _, [] => .error 0x10
  | t, l :: ls =>
    let at_ := t + 8 * bits va (9 * l + 12) 9
    if poisonedAt s at_ 8 then .error 0x15
    else
      let e := physNum s at_ 8
      if e % 2 = 0 then .error 0x10
      else if bits e 1 3 = 0 then
        if l = 0 || bits e 4 12 != 0 || bits e 56 8 != 0 then .error 0x11 else walkFrom s va (bits e 16 40 * 4096) ls
      else checkLeaf s va e at_ l

/-- The tables of the lower levels that a walk comes to: level and table (R335). -/
def walkPtrs (s : State) (va : Nat) : Nat → List Nat → List (Nat × Nat)
  | t, l :: l' :: ls =>
    let e := physNum s (t + 8 * bits va (9 * l + 12) 9) 8
    if e % 2 = 1 && bits e 1 3 = 0 then (l', bits e 16 40 * 4096) :: walkPtrs s va (bits e 16 40 * 4096) (l' :: ls) else []
  | _, _ => []

/-- The address bits above a table of a level. -/
def ptrPrefix (va level : Nat) : Nat := bits va 0 48 / 2 ^ (9 * level + 21)

/-- The walk of a context's table (R333, R335), but for the ordering kind. -/
def walkRaw (s : State) (root : W64) (va : Nat) : Except Nat Tr := walkFrom s va (bits root.toNat 12 40 * 4096) [3, 2, 1, 0]

/-- The walk of a context's table (R333, R335): the reserved ordering kind gives 0x12. -/
def walk (s : State) (root : W64) (va : Nat) : Except Nat Tr :=
  match walkRaw s root va with
  | .ok t => if leafKind t.leaf = 3 then .error 0x12 else .ok t
  | .error c => .error c

/-- The leaf without A and D. -/
def leafCore (e : Nat) : Nat := e - bits e 6 2 * 64

/-- The TLBs that a walker looks into: an L1 TLB and its cluster's L2 TLB, the L2 TLB, or its own (R4, R336). -/
def Walker.tlbs : Walker → List Tlb
  | .core t => if t % 5 = 4 then [.l2 (t / 5)] else [.l1 t, .l2 (t / 5)]
  | .copy c | .cmu c => [.l2 c]
  | w => [.own w]

/-- Entries of a TLB (R4, and beside R340); of the other walkers' the spec gives no number. -/
def Tlb.entries : Tlb → Option Nat
  | .l1 _ => some 256
  | .l2 _ => some 4096
  | .own _ => none

/-- Who accesses (R335): address space and root; the team whose aperture it reaches (R65); lanes outside handler mode, keystone contexts
and engines need U; the walker; the agent whose order decides what a read may miss, with the lanes of its group, none for an access that reads what
stands there; lanes and keystone contexts reach cached copies, so a count may be missed (R346). -/
structure Env where
  asid : BitVec 16
  root : W64
  team : Option Nat
  needU : Bool
  /-- pages with U are shut: a supervisor access without SUM, a supervisor fetch (R335) -/
  noU : Bool := false
  walker : Walker := .dispatcher
  agent : Option Agent := none
  order : Order := {}
  mates : List Agent := []
  /-- other agents that share the read (R208) -/
  also : List Agent := []
  /-- how the read acquires -/
  acq : Acquire := .no
  /-- the read misses nothing: an atomic (R93) -/
  now : Bool := false
  /-- the size at whose boundaries an unaligned read is split (R92) -/
  size : Nat := 8
  /-- the number of the next write at the issue of a load that is performed later (R101) -/
  issued : Option Nat := none
  /-- the group's gated lines (R58) -/
  gate : List GateLine := []
  cached : Bool := false
deriving Repr

/-- The frame of a page by another leaf of its aligned 64 KiB group (R337). -/
def groupTr (va : Nat) (t : Tr) : Tr :=
  let j := t.leafAt / 8 % 16
  let k := va / 4096 % 16
  let frame := bits t.leaf 16 40 / 16 * 16 + k
  { pa := frame * 4096 + va % 4096, leaf := t.leaf - bits t.leaf 16 40 * 2 ^ 16 + frame * 2 ^ 16, leafAt := t.leafAt - 8 * j + 8 * k, level := 0 }

/-- A leaf of a group of 16 (R337). -/
def grouped (leaf level : Nat) : Bool := leafBit leaf 56 && level == 0

/-- A leaf that one of the walker's TLBs holds for a page, or for its group of 16 pages, and that differs from what the walk finds; a write through
one whose D is 0 walks again (R336, R337). -/
def staleEntry (env : Env) (va : Nat) (acc : Acc) (now : Except Nat Tr) (e : TlbEntry) : Option (Except Nat Tr) :=
  let leaf := e.leaf.toNat
  let t : Tr := { pa := bits leaf 16 40 * 4096 + va % pageBytes e.level, leaf := leaf, leafAt := e.leafAt, level := e.level }
  let own := e.page == va / pageBytes e.level
  let r : Except Nat Tr := .ok (if own then t else groupTr va t)
  if env.walker.tlbs.contains e.tlb && (e.asid == env.asid || e.global) && (own || (grouped leaf e.level && e.page / 16 == va / 65536))
      && !(acc.writes && !leafBit leaf 7) && (match r, now with | .ok x, .ok w => decide (x ≠ w) | _, _ => true) then some r
  else none

/-- The translations of a page that the other leaves of its group of 16 give, where they differ (R337). -/
def groupAlts (s : State) (va : Nat) : Except Nat Tr → List (Except Nat Tr)
  | .ok t =>
    if grouped t.leaf t.level then
      (upto 16).filterMap fun j =>
        let at_ := t.leafAt / 128 * 128 + 8 * j
        let e := physNum s at_ 8
        match checkLeaf s va e at_ 0 with
        | .ok x => if e % 2 = 1 && bits e 1 3 != 0 && leafBit e 56 && groupTr va x ≠ t then some (.ok (groupTr va x)) else none
        | .error _ => none
    else []
  | .error _ => []

/-- Two walks come to the same. -/
def sameWalk : Except Nat Tr → Except Nat Tr → Bool
  | .ok a, .ok b => decide (a = b)
  | .error a, .error b => a == b
  | _, _ => false

/-- A walk from a pointer entry that the walker still holds, when it differs from the walk from the root (R336, R340). -/
def stalePtr (s : State) (env : Env) (va : Nat) (now : Except Nat Tr) (p : PtrEntry) : Option (Except Nat Tr) :=
  if p.walker == env.walker && p.asid == env.asid && p.prefix_ == ptrPrefix va p.level then
    let r := walkFrom s va p.table (upto (p.level + 1)).reverse
    if sameWalk r now then none else some r
  else none

/-- The translation of an address: the walk, or, as the device chooses, a leaf that one of the walker's TLBs holds, another leaf of the page's group,
or a walk from a pointer entry that the walker holds (R336, R337, R340). -/
def translate (s : State) (env : Env) (va : Nat) (acc : Acc) : State × Except Nat Tr :=
  let now := walkRaw s env.root va
  let (s1, c) := chooseFrom s (now :: (s.tlb.filterMap (staleEntry env va acc now) ++ groupAlts s va now ++ s.ptrs.filterMap (stalePtr s env va now)))
  (s1, c.getD now)

/-- The least code of the permissions that the access breaches and of a reserved ordering kind (R10, R67, R97, R335, R358); 0 for none. -/
def permCause (s : State) (env : Env) (acc : Acc) (t : Tr) : Nat :=
  let e := t.leaf
  let tier := leafTier e
  let win := (mget (0 : BitVec 128) s.ctl.win ((t.pa - fabricBase) / 2 ^ 38)).toNat
  let need (b : Bool) := if b then 0 else 0x11
  let base := need ((!env.needU || leafBit e 4) && !(env.noU && leafBit e 4))
  let un := need (leafKind e != 2)
  let w := if tier = 2 then 0x14 else if tier = 4 then 0x11 else need (leafBit e 2)
  let own := match acc with
    | .read => [need (leafBit e 1), if tier = 4 && s.down.contains (BitVec.ofNat 20 win) then 0x16 else 0]
    | .fetch => [need (leafBit e 3)]
    | .write => [w]
    | .atomic => [w, un]
    | .release => [w, un]
    | .fab => [need (tier == 4 && leafBit e 2 && bits win 21 1 == 1)]
  minNat 0 ((base :: (if leafKind e = 3 then 0x12 else 0) :: own).filter (· != 0))

/-- Swap redirection of R350: line j of a frame in a swap lies at the other frame once exchanged. -/
def swapRoute (s : State) (t : Tr) : Nat :=
  if leafBit t.leaf 13 then
    (s.swaps.foldl (fun (acc : Option Nat) (_, w) =>
      match acc with
      | some p => some p
      | none =>
        let n := if w.big then 65536 else 4096
        if w.state = 0 then none
        else if w.x ≤ t.pa && t.pa < w.x + n then
          some (if w.prog.contains ((t.pa - w.x) / 128) then w.y + (t.pa - w.x) else t.pa)
        else if w.y ≤ t.pa && t.pa < w.y + n then
          some (if w.prog.contains ((t.pa - w.y) / 128) then w.x + (t.pa - w.y) else t.pa)
        else none) none).getD t.pa
  else t.pa

/-- A range cut at 128-byte lines: first addresses and lengths. -/
def cutLines : Nat → Nat → Nat → List (Nat × Nat)
  | 0, _, _ => []
  | f + 1, va, n => if n = 0 then [] else (va % 2 ^ 64, Nat.min n (128 - va % 128)) :: cutLines f (va + Nat.min n (128 - va % 128)) (n - Nat.min n (128 - va % 128))

/-- The lines of a range of n bytes. -/
def linesOf (va n : Nat) : List (Nat × Nat) := cutLines (n / 128 + 2) va n

/-- Canonical virtual addresses (R64). -/
def canonical (va : Nat) : Bool := bits va 47 17 == 0 || bits va 47 17 == 2 ^ 17 - 1

/-- What the checks of an access find: its places, a cause with its token, or a wait for the zero engine (R344): leaf, frame, bytes. -/
inductive Look where
  | hit (l : List Spot)
  | stop (cause : Nat) (token : W64)
  | zeroing (leafAt frame bytes : Nat)
deriving Repr

/-- Bytes of a team's scratchpad (R65). -/
def padSize (t : Team) : Nat := t.pad.length * Config.bankBytes

/-- The scratchpad byte at an aperture offset, as an SRAM place (R65). -/
def padSpot (t : Team) (off n : Nat) : Spot := .pad t.cluster (nth 0 t.pad (off / Config.bankBytes) * Config.bankBytes + off % Config.bankBytes) n

/-- Aperture pieces: cut where a bank ends. -/
def padSpots (t : Team) (off n : Nat) : List Spot :=
  if off % Config.bankBytes + n ≤ Config.bankBytes then [padSpot t off n]
  else
    let k := Config.bankBytes - off % Config.bankBytes
    [padSpot t off k, padSpot t (off + k) (n - k)]

/-- Two ranges overlap. -/
def overlap (a n b m : Nat) : Bool := n != 0 && m != 0 && a < b + m && b < a + n

/-- Bytes of a tile's offset table (R75). -/
def tabBytes (t : Tile) : Nat := if t.cmp then 4 * (t.expm1 + 1) else 0

/-- A store or atomic to these aperture offsets meets an engine-owned tile or a muster slot (R80, R86). -/
def padStoreBarred (t : Team) (off n : Nat) : Bool :=
  overlap off n 16 1008 || t.tiles.any fun (_, x) => x.valid && x.own &&
    (overlap off n (x.start * 128) ((x.sizem1 + 1) * 128) || overlap off n (x.offt * 128) (tabBytes x))

/-- A byte at a virtual address stands in the group's store gate (R58). -/
def gated (gate : List GateLine) (a : Nat) : Bool :=
  ((firstWhere (fun l => l.line.toNat == a / 128 * 128) gate).bind fun l => mget none l.cells (a % 128)).isSome

/-- A poisoned word of a range, unless a gated store of the group covers the whole word (R58, R409). -/
def meetsPoison (s : State) (env : Env) (va pa n : Nat) : Bool :=
  poisonedAt s pa n && (env.gate.isEmpty ||
    let p := routeAlias s pa
    n != 0 && s.poison.any fun w => p / 8 ≤ w && w ≤ (p + n - 1) / 8 && !(span (8 * w) 8).all fun a => gated env.gate (va + a - p))

/-- One line of a range, translated and checked: its place, or its cause with the token. -/
def lookLine (s : State) (env : Env) (acc : Acc) (va n : Nat) : State × Except (Nat × W64) Spot :=
  let (s1, r) := translate s env va acc
  let page := BitVec.ofNat 64 (va / 4096 * 4096)
  (s1, match r with
    | .error c => .error (c, if c = 0x10 then page else 0)
    | .ok t =>
      let pa := swapRoute s t
      let stall := if leafTier t.leaf = 2 && (acc == .read || acc == .fetch) then (firstWhere (fun x => x.1 == pa / 128) s.stalls).map (·.2) else none
      let c0 := permCause s env acc t
      let cs := [c0, if stall.isSome then 0x13 else 0,
        if leafTier t.leaf = 3 && !extentCovers s false pa n then (if acc != .write && poisonedAt s pa n then 0x15 else 0x11) else 0,
        if (acc == .read || acc == .fetch || acc == .atomic) && !(leafBit t.leaf 15) && meetsPoison s env va pa n then 0x15 else 0].filter (· != 0)
      if cs.isEmpty then .ok (.mem va n t pa)
      else
        let c := minNat 0 cs
        .error (c, if c = 0x13 then ((stall.getD 0).setWidth 64) else 0))

/-- Poison in a range of the SRAM (R409), unless a gated store of the group covers the whole word (R58). -/
def padPoison (s : State) (c off n : Nat) : Bool :=
  n != 0 && (clusterOf s c).sramBad.any fun w => off / 8 ≤ w && w ≤ (off + n - 1) / 8

/-- Poison that a read of the aperture meets (R58, R409). -/
def padMeets (s : State) (env : Env) (va : Nat) : List Spot → Bool
  | [] => false
  | .pad c o m :: l =>
    (padPoison s c o m && (env.gate.isEmpty || (clusterOf s c).sramBad.any fun w => o / 8 ≤ w && w ≤ (o + m - 1) / 8
        && !(span (8 * w) 8).all fun a => gated env.gate (va + a - o)))
      || padMeets s env (va + m) l
  | .mem _ m _ _ :: l => padMeets s env (va + m) l

/-- The range lies wholly in the local aperture. -/
def inAperture (va n : Nat) : Bool := Config.aperture ≤ va && va + n ≤ Config.aperture + Config.apertureBytes

/-- One line of an access that is not wholly in the aperture: no canonical address (R64), a part of the aperture that the access straddles into
(R65), or memory. -/
def lookPart (s : State) (env : Env) (acc : Acc) (va n : Nat) : State × Except (Nat × W64) Spot :=
  if !canonical va || (env.team.isSome && acc != .fab && overlap va n Config.aperture Config.apertureBytes) then (s, .error (0x11, 0))
  else lookLine s env acc va n

/-- The lines of a range, each translated and checked, in ascending order. -/
def lookLines (s : State) (env : Env) (acc : Acc) : List (Nat × Nat) → State × List (Except (Nat × W64) Spot)
  | [] => (s, [])
  | (va, n) :: ls =>
    let (s1, r) := lookPart s env acc va n
    let (s2, rs) := lookLines s1 env acc ls
    (s2, r :: rs)

/-- The checks of an access to the aperture (R65, R80, R86, R409): the least cause. -/
def lookPad (s : State) (env : Env) (acc : Acc) (k va n : Nat) : Look :=
  let t := teamOf s k
  let off := va - Config.aperture
  if acc == .fetch || padSize t < off + n then .stop 0x11 0
  else
    let l := padSpots t off n
    if (acc == .read || acc == .atomic) && padMeets s env va l then .stop 0x15 0
    else if acc.writes && padStoreBarred t off n then .stop 0x21 0
    else .hit l

/-- The checks of an access of n bytes, all made before any part is performed (R64, R65, R80, R92, R209): the lowest cause, with the token
of the lower-addressed page that raised it (R44). -/
def lookAt (s : State) (env : Env) (acc : Acc) (va n : Nat) : State × Look :=
  match env.team with
  | some k => if inAperture va n && acc != .fab then (s, lookPad s env acc k va n) else general
  | none => general
where
  general : State × Look :=
    let (s1, rs) := lookLines s env acc (linesOf va n)
    let bad := rs.filterMap fun r => match r with | .error c => some c | .ok _ => none
    if bad.isEmpty then
      let spots := rs.filterMap fun r => match r with | .ok x => some x | .error _ => none
      let z : Option Spot := if acc.writes && acc != .fab then firstWhere (fun x => match x with | Spot.mem _ _ t _ => leafBit t.leaf 15 | Spot.pad _ _ _ => false) spots else none
      match z with
      | some (.mem _ _ t _) => (s1, .zeroing t.leafAt (bits t.leaf 16 40 * 4096) (pageBytes t.level))
      | _ => (s1, .hit spots)
    else
      let c := minNat 0 (bad.map (·.1))
      (s1, .stop c (((firstWhere (fun x => x.1 == c) bad).map (·.2)).getD 0))

/-- Pointer entries of the walk of an address may be held from now on (R336). -/
def holdPtrs (s : State) (env : Env) (va : Nat) : State :=
  let ps := (walkPtrs s va (bits env.root.toNat 12 40 * 4096) [3, 2, 1, 0]).map fun (l, t) =>
    ({ walker := env.walker, asid := env.asid, level := l, prefix_ := ptrPrefix va l, table := t } : PtrEntry)
  { s with ptrs := (ps.filter fun p => !s.ptrs.contains p) ++ s.ptrs }

/-- A TLB may hold a translation from now on; a full one gives up an entry, as the device chooses (R4). -/
def holdEntry (s : State) (e : TlbEntry) : State :=
  if s.tlb.contains e then s
  else
    let mine := s.tlb.filter fun x => x.tlb == e.tlb
    let full := match e.tlb.entries with | some n => decide (n ≤ mine.length) | none => false
    if full then
      let (s1, v) := chooseFrom s mine
      { s1 with tlb := e :: s1.tlb.filter fun x => some x != v }
    else { s with tlb := e :: s.tlb }

/-- A leaf with the marks of an access (R336). -/
def marked (leaf : Nat) (writes : Bool) : Nat := (leaf ||| 64) ||| (if writes then 128 else 0)

/-- The walker sets A, and D on a write, in a leaf that it found without them (R336), and its TLBs may hold the leaf from then on; entries with V = 0
or Z = 1 are never held. -/
def touchLeaf (s : State) (env : Env) (acc : Acc) (va : Nat) (t : Tr) : State :=
  let e := physNum s t.leafAt 8
  let s0 := if marked t.leaf acc.writes = t.leaf || leafCore e != leafCore t.leaf || marked e acc.writes = e then s
    else physPut s t.leafAt 1 (marked e acc.writes % 256)
  let s1 := holdPtrs s0 env va
  if leafBit t.leaf 15 then s1
  else env.walker.tlbs.foldl (fun s b => holdEntry s
    { tlb := b, asid := env.asid, global := leafBit t.leaf 5, page := va / pageBytes t.level
      leaf := BitVec.ofNat 64 (marked t.leaf acc.writes), leafAt := t.leafAt, level := t.level }) s1

/-- A cache of `cap` lines of `per` parts may hold a part from now on; a full one gives up a line, as the device chooses (R4). -/
def cacheFill (s : State) (per cap : Nat) (l : List Nat) (x : Nat) : State × List Nat :=
  let ls := distinct (l.map (· / per))
  if l.contains x || cap = 0 then (s, l)
  else if ls.contains (x / per) || ls.length < cap then (s, x :: l)
  else
    let (s1, v) := chooseFrom s ls
    (s1, x :: l.filter fun y => some (y / per) != v)

/-- Sectors of 32 bytes that n bytes at an address touch (R4). -/
def sectorsAt (p n : Nat) : List Nat := if n = 0 then [] else span (p / 32) ((p + n - 1) / 32 - p / 32 + 1)

/-- Lines of the CACHE banks of a cluster (R3). -/
def l2Lines (s : State) (c : Nat) : Nat :=
  1024 * ((upto 64).filter fun b => (bankOf s c b).mode == 0 && (bankOf s c b).target.isNone).length

/-- The caches of a vector core: 2,048 lines of data, 1,024 lines of instructions (R4). -/
abbrev l1dLines : Nat := 2048
abbrev l1iLines : Nat := 1024

/-- A core's first cache holds what an access reads (R4, R346); a keystone core has none that the spec gives. -/
def inFirst (s : State) (tile : Nat) (fetch : Bool) (p n : Nat) : Bool :=
  tile % 5 != 4 && if fetch then (linesAt p n).all (mget [] s.l1i tile).contains else (sectorsAt p n).all (mget [] s.l1d tile).contains

/-- Some cache between a core and the MSC holds what an access reads (R346). -/
def inCaches (s : State) (tile : Nat) (fetch : Bool) (p n : Nat) : Bool :=
  inFirst s tile fetch p n || (linesAt p n).all (mget [] s.l2c (tile / 5)).contains

/-- Parts come into a cache. -/
def fillAll (per cap : Nat) : List Nat → State × List Nat → State × List Nat
  | [], x => x
  | k :: ks, (s, l) => fillAll per cap ks (cacheFill s per cap l k)

/-- The caches of a core and its cluster may hold what an access touches from now on. -/
def fillCaches (s : State) (tile : Nat) (fetch : Bool) (p n : Nat) : State :=
  let (s1, l) := fillAll 1 (l2Lines s (tile / 5)) (linesAt p n) (s, mget [] s.l2c (tile / 5))
  let s2 := { s1 with l2c := mput [] s1.l2c (tile / 5) l }
  if tile % 5 = 4 then s2
  else if fetch then
    let (s3, l) := fillAll 1 l1iLines (linesAt p n) (s2, mget [] s2.l1i tile)
    { s3 with l1i := mput [] s3.l1i tile l }
  else
    let (s3, l) := fillAll 4 l1dLines (sectorsAt p n) (s2, mget [] s2.l1d tile)
    { s3 with l1d := mput [] s3.l1d tile l }

/-- Lines leave the data caches of some tiles and the caches of some clusters (R216, R344, R357). -/
def dropLines (s : State) (tile c : Nat → Bool) (line : Nat → Bool) : State :=
  { s with
    l1d := s.l1d.map fun (i, l) => (i, if tile i then l.filter fun k => !line (k / 4) else l)
    l2c := s.l2c.map fun (i, l) => (i, if c i then l.filter fun k => !line k else l) }

/-- The access counter of a leaf with C = 1 (R346): an access of a core counts when its caches do not hold what it touches; what they may hold can be
gone by then, as the device chooses. -/
def countSpot (s : State) (env : Env) (acc : Acc) (va n : Nat) (t : Tr) (pa : Nat) : State :=
  let counts := leafBit t.leaf 14 && s.ctl.cntb != 0
  match env.walker with
  | .core tile =>
    if !env.cached then if counts then countAccess s pa va env.asid else s
    else
      let fetch := acc == .fetch
      let p := routeAlias s pa
      let s1 := fillCaches s tile fetch p n
      if !counts then s1
      else if inCaches s tile fetch p n then
        let (s2, miss) := chooseBool s1
        if miss then countAccess s2 pa va env.asid else s2
      else countAccess s1 pa va env.asid
  | _ => if counts then countAccess s pa va env.asid else s

/-- The marks an access leaves in its leaves and counters (R336, R346), page by page. -/
def touchSpots (s : State) (env : Env) (acc : Acc) : List Spot → State
  | [] => s
  | .mem va n t pa :: l => touchSpots (countSpot (touchLeaf s env acc va t) env acc va n t pa) env acc l
  | .pad _ _ _ :: l => touchSpots s env acc l

/-- The bytes of SRAM of a cluster from an offset of its bank space. -/
def sramRead (s : State) (c off n : Nat) : List Byte := (span off n).map (mget 0 (clusterOf s c).sram)

/-- A write of SRAM; it clears the poison of the words it covers (R409) and is recorded (R95). -/
def sramWriteBy (s : State) (w : Writer) (c off : Nat) (bs : List Byte) : State :=
  modCluster (record s w (padKey c off) (sramRead s c off bs.length)) c fun k =>
    { k with sram := memPut k.sram off bs, sramBad := k.sramBad.filter fun w => !coversWord off bs.length w }

/-- A write of SRAM by the device. -/
def sramWrite (s : State) (c off : Nat) (bs : List Byte) : State := sramWriteBy s {} c off bs

/-- A range cut at multiples of a size (R92). -/
def cutAtSize (size : Nat) : Nat → Nat → Nat → List (Nat × Nat)
  | 0, _, _ => []
  | f + 1, a, n => if n = 0 then [] else (a, Nat.min n (size - a % size)) :: cutAtSize size f (a + Nat.min n (size - a % size)) (n - Nat.min n (size - a % size))

/-- A store of the same lanes after the issue of a load that is performed later (R101). -/
def laterOwn (env : Env) (me : Agent) (p : Past) : Bool := match env.issued with | some n => (me :: env.also).any p.isBy && n ≤ p.no | none => false

/-- The scope of an acquire or release of a page, by its tier; of the scratchpad the team (R67). -/
def tierScope (leaf : Nat) : Nat := match leafTier leaf with | 3 => 4 | 4 => 5 | _ => 3
abbrev padScope : Nat := 2

/-- What an agent's read of memory of a kind returns, of the bytes `cur` that stand there now (R92, R93, R95, R96, R97): on an SO page what stands
there; elsewhere, as the device chooses, what stood there before writes that it may miss. -/
def readOrdered (s : State) (env : Env) (kind scope : Nat) (p : Nat) (cur : List Byte) : State × List Byte :=
  match env.agent with
  | none => (s, cur)
  | some me =>
    if !s.past.any (touches p cur.length) then (s, cur)
    else
      let may (q : Past) (a : Nat) : Bool :=
        !env.now && kind != 1 && if kind = 2 then mayMissUn me env.order q a else mayMiss me env.order q a
      (cutAtSize env.size cur.length p cur.length).foldl (fun (s, bs) (a, n) =>
        let f := lookBack s.past may (laterOwn env me) a ((cur.drop (a - p)).take n) s.free
        let s1 := (me :: env.also).foldl (fun s x =>
          let o := orderOf s x
          let o1 := (o.afterLoad a (kind != 2) f).acquireLoad env.mates x env.acq scope f.rels
          if o1 = o then s else setOrder s x o1) s
        ({ s1 with free := f.free }, bs ++ f.bytes.map (·.1))) (s, [])

/-- The bytes of one place: zero through a leaf with Z = 1 (R68), else what the agent's order lets it read. -/
def readSpot (s : State) (env : Env) : Spot → State × List Byte
  | .pad c off n => readOrdered s env 0 padScope (padKey c off) (sramRead s c off n)
  | .mem _ n t pa =>
    if leafBit t.leaf 15 then (s, List.replicate n 0)
    else readOrdered s env (leafKind t.leaf) (tierScope t.leaf) (routeAlias s pa) (physRead s pa n)

/-- The bytes of places, in ascending order. -/
def readSpots (s : State) (env : Env) : List Spot → State × List Byte
  | [] => (s, [])
  | x :: xs =>
    let (s1, a) := readSpot s env x
    let (s2, b) := readSpots s1 env xs
    (s2, a ++ b)

/-- Writes bytes at places, in ascending order. -/
def writeSpots (s : State) (w : Writer) : List Spot → List Byte → State
  | [], _ => s
  | .pad c off n :: xs, bs => writeSpots (sramWriteBy s w c off (bs.take n)) w xs (bs.drop n)
  | .mem _ n _ pa :: xs, bs => writeSpots (physWriteBy s w pa (bs.take n)) w xs (bs.drop n)

/-- Starts the zeroing of a frame that is not being zeroed (R344). -/
def startZero (s : State) (leafAt frame bytes : Nat) : State :=
  if s.zeroing.any fun z => z.leaf == leafAt then s
  else { s with zeroing := s.zeroing ++ [{ leaf := leafAt, frame := frame, bytes := bytes }] }

/-- A whole read: checks, marks, bytes. -/
def readAt (s : State) (env : Env) (acc : Acc) (va n : Nat) : State × Except (Nat × W64) (List Byte) :=
  match lookAt s env acc va n with
  | (s1, .hit l) => let (s2, bs) := readSpots (touchSpots s1 env acc l) env l; (s2, .ok bs)
  | (s1, .stop c t) => (s1, .error (c, t))
  | (s1, .zeroing _ _ _) => (s1, .error (0x10, 0))

/-- The outcome of a whole write by an engine or the dispatcher. -/
inductive Wrote where
  | done
  | stop (cause : Nat) (token : W64)
  | wait
deriving DecidableEq, Repr

/-- A whole write: checks, marks, bytes; a write through Z = 1 starts the zero engine and waits (R344). -/
def writeAt (s : State) (env : Env) (va : Nat) (bs : List Byte) (w : Writer := {}) : State × Wrote :=
  match lookAt s env .write va bs.length with
  | (s1, .hit l) => (writeSpots (touchSpots s1 env .write l) w l bs, .done)
  | (s1, .stop c t) => (s1, .stop c t)
  | (s1, .zeroing a f n) => (startZero s1 a f n, .wait)

/-- The device's own accesses in a context's address space (R335): the dispatcher's, and with another walker an engine's. -/
def devEnv (s : State) (c : Nat) (needU : Bool) (w : Walker := .dispatcher) : Env :=
  { asid := (contextOf s c).asid, root := (contextOf s c).root, team := none, needU := needU, walker := w }

end Sys2Proof.Machine
end

