-- ==== Sys2Proof/Machine/Regs.lean ====
section
/-!
DEFINITION. Registers and shapes (R30 to R36): values by lane, the write rule of R33, slots, spills and fills (R35), pins (R176, R256), and
the register file of a core (R37).
-/

namespace Sys2Proof.Machine

/-- Lane l's value (R30, R147). -/
def Shape.at (sh : Shape) (l : Nat) : W32 :=
  match sh with
  | .u v => v
  | .a b s => b + BitVec.ofNat 32 l * s
  | .g vs => nth 0 vs l

/-- A result with stride 0 is stored as U (R30). -/
def Shape.norm : Shape → Shape
  | .a b s => if s = 0 then .u b else .a b s
  | x => x

/-- Slots of a written value (R31). -/
def Shape.slots : Shape → Nat
  | .u _ => 1
  | .a _ _ => 2
  | .g _ => 32

/-- The tag code of R164 and R172. -/
def Shape.code : Shape → Nat
  | .u _ => 0
  | .a _ _ => 1
  | .g _ => 2

/-- The register is U. -/
def Shape.isU : Shape → Bool
  | .u _ => true
  | _ => false

/-- The register is G. -/
def Shape.isG : Shape → Bool
  | .g _ => true
  | _ => false

/-- All 32 values (R33). -/
def Shape.expand (sh : Shape) : List W32 := lanes32.map sh.at

/-- A shape from per-lane values. -/
def Shape.ofFn (f : Nat → W32) : Shape := .g (lanes32.map f)

/-- A register of a group; one never written reads as U 0 (R31). -/
def Group.reg (g : Group) (r : Nat) : Reg := mget {} g.regs r

/-- Lane l's value of a register. -/
def Group.val (g : Group) (r l : Nat) : W32 := (g.reg r).shape.at l

/-- Lane l's value of a pair (R147). -/
def Group.pair (g : Group) (r l : Nat) : W64 := (g.val (r + 1) l) ++ (g.val r l)

/-- The register's value when it is U (R147). -/
def Group.uval (g : Group) (r : Nat) : W32 := g.val r 0

/-- The state of lane l. -/
def Group.lane (g : Group) (l : Nat) : Lane := nth { st := .exited } g.lanes l

/-- Lanes that satisfy a test, as a set. -/
def Group.lanesWhere (g : Group) (p : Lane → Bool) : W32 := laneSet fun l => p (g.lane l)

/-- Lanes that are not EXITED: a write is full when all of them are active (R29). -/
def Group.live (g : Group) : W32 := g.lanesWhere fun x => x.st != .exited

/-- Replaces the lanes of a set. -/
def Group.modLanes (g : Group) (m : W32) (f : Nat → Lane → Lane) : Group :=
  { g with lanes := lanes32.map fun l => if hasLane m l then f l (g.lane l) else g.lane l }

/-- A mask register (R40). -/
def Group.mask (g : Group) (m : Nat) : W32 := nth 0 g.masks m

/-- The masks with mask m replaced (R40). -/
def Group.putMask (g : Group) (m : Nat) (v : W32) : Group := { g with masks := (upto 16).map fun j => if j = m then v else g.mask j }

/-- Writes a mask; a keystone mask holds bit 0 alone, and its m0 always reads 1 (R244). -/
def Group.setMask (g : Group) (m : Nat) (v : W32) : Group :=
  if g.key.isSome then (if m = 0 then g else g.putMask m (v &&& 1)) else g.putMask m v

/-- The write of R33: full when every non-exited lane is active; an equal partial uniform changes nothing; every other partial write merges
into G. -/
def writeShape (live act : W32) (old new : Shape) : Shape :=
  if live &&& ~~~act = 0 then new.norm
  else
    match old, new.norm with
    | .u x, .u y => if x = y then .u x else .g (lanes32.map fun l => if hasLane act l then y else x)
    | o, n => .g (lanes32.map fun l => if hasLane act l then n.at l else o.at l)

/-- Slots the group holds: those of written registers that are not spilled (R31). -/
def groupSlots (g : Group) : Nat := sumNat (g.regs.map fun (_, r) => if r.spilled then 0 else r.shape.slots)

/-- The register is held by a quarter slot, or by a binding or issued mma of the team's keystone context (R176, R256). -/
def pinned (s : State) (g : Group) (r : Nat) : Bool :=
  let inHold (h : Hold) := h.g == g.idx && h.first ≤ r && r < h.first + h.len
  g.key.isNone &&
    ((teamOf s g.team).quarters.any (fun (_, h) => match h with | some x => inHold x | none => false) ||
      (match keyOf s g.team with
        | some k => (match k.binding with | some b => b.any (fun q => !q.gone && inHold q.hold) | none => false) ||
            k.mq.any fun e => match e.op with
              | .mma _ _ _ _ _ qs => qs.any fun q => !q.gone && q.kept.isNone && inHold q.hold
              | _ => false
        | none => false))

/-- The least recently written G register that may be spilled: not an operand, not pinned (R35). -/
def spillVictim (g : Group) (keep : List Nat) (pins : Nat → Bool) : Option Nat :=
  ((g.regs.filter fun (r, x) => x.shape.isG && !x.spilled && !keep.contains r && !pins r).foldl
    (fun (b : Option (Nat × Nat)) (r, x) => match b with
      | some (_, t) => if x.stamp < t then some (r, x.stamp) else b
      | none => some (r, x.stamp)) none).map (·.1)

/-- Spills until the group is within its budget or nothing can be spilled (R35). -/
def spillTo (keep : List Nat) (pins : Nat → Bool) : Nat → Group → Group
  | 0, g => g
  | f + 1, g =>
    if groupSlots g ≤ g.budget then g
    else match spillVictim g keep pins with
      | none => g
      | some r => spillTo keep pins f { g with regs := mput {} g.regs r { g.reg r with spilled := true }, spills := g.spills + 1, shaping := true }

/-- Brings the group within its budget (R35); a group has at most 512 registers (R38). -/
def fitBudget (s : State) (keep : List Nat) (g : Group) : Group := spillTo keep (pinned s g) g.regs.length g

/-- Reads fill back a spilled register, spilling others under the same rule (R35). -/
def fillReg (s : State) (keep : List Nat) (g : Group) (r : Nat) : Group :=
  if (g.reg r).spilled then fitBudget s keep { g with regs := mput {} g.regs r { g.reg r with spilled := false }, shaping := true } else g

/-- Fills back a list of registers. -/
def fillRegs (s : State) (keep rs : List Nat) (g : Group) : Group := rs.foldl (fillReg s keep) g

/-- A write expands U or A to G (R34). -/
def expandsTo (old new : Shape) (full : Bool) : Bool := !full && !old.isG && new.isG

/-- A value as a group or keystone context keeps it: every register of a keystone context, whose one lane is lane 0, is U (R242). -/
def Group.keeps (g : Group) (act : W32) (sh : Shape) : Shape := if g.key.isSome && act == 1 then .u (sh.at 0) else sh

/-- Writes one register for the lanes of `act` under R33, before the budget is restored. -/
def putReg (g : Group) (act : W32) (r : Nat) (sh : Shape) : Group :=
  let full := g.live &&& ~~~act = 0
  let new := writeShape g.live act (g.reg r).shape (g.keeps act sh)
  if !full && decide (new = (g.reg r).shape) && new.isU then g
  else { g with
    regs := mput {} g.regs r { shape := new, spilled := false, stamp := g.nextStamp }
    nextStamp := g.nextStamp + 1
    expands := if expandsTo (g.reg r).shape new full then g.expands + 1 else g.expands
    shaping := g.shaping || expandsTo (g.reg r).shape new full }

/-- A register becomes G, its values kept (R33, R34). -/
def toGeneral (g : Group) (r : Nat) : Group :=
  if (g.reg r).shape.isG then g
  else { g with
    regs := mput {} g.regs r { g.reg r with shape := .g (g.reg r).shape.expand, stamp := g.nextStamp }
    nextStamp := g.nextStamp + 1
    expands := g.expands + 1
    shaping := true }

/-- A pair that has been written holds both halves U or both halves G (R32). -/
def joinPair (g : Group) (r : Nat) : Group :=
  if (g.reg r).shape.isU && (g.reg (r + 1)).shape.isU then g else toGeneral (toGeneral g r) (r + 1)

/-- A 64-bit result: both halves U, or both G (R32). -/
def pairShapes (uni : Bool) (f : Nat → W64) : Shape × Shape :=
  if uni then (.u ((f 0).setWidth 32), .u ((f 0 >>> 32).setWidth 32))
  else (.g (lanes32.map fun l => (f l).setWidth 32), .g (lanes32.map fun l => (f l >>> 32).setWidth 32))

/-- Blocks of groups that have ended or reformed, whose slots are kept for the mma that were issued before (R256). -/
def keptBlocks (s : State) (tile : Nat) : List (Nat × Hold) :=
  (s.groups ++ imagedGroups s).foldl (fun l g => match g.key with
    | some k => k.mq.foldl (fun l e => match e.op with
        | .mma _ _ _ _ _ qs => qs.foldl (fun l q => if q.kept == some tile && !l.contains (g.team, q.hold) then (g.team, q.hold) :: l else l) l
        | _ => l) l
    | none => l) []

/-- Slots drawn from a core's register file: those of its groups that are not in the park area; held registers are never moved, and outlive their
group (R37, R176, R256). -/
def fileUse (s : State) (tile : Nat) : Nat :=
  sumNat ((s.groups.filter fun g => g.key.isNone && groupTile s g == tile).map fun g =>
    if g.away then sumNat (g.regs.map fun (r, x) => if !x.spilled && pinned s g r then x.shape.slots else 0) else groupSlots g)
    + sumNat ((keptBlocks s tile).map fun x => 32 * x.2.len)

/-- Slots of a core in its park area (R37). -/
def parkUse (s : State) (tile : Nat) : Nat :=
  sumNat ((s.groups.filter fun g => g.key.isNone && g.away && groupTile s g == tile).map fun g =>
    sumNat (g.regs.map fun (r, x) => if !x.spilled && !pinned s g r then x.shape.slots else 0))

/-- All lanes are PARKED or WAITING on a long-latency fault (R37): PARKED with 0x10 or 0x13, or WAITING at a reconvergence point for such lanes. -/
def allStopped (g : Group) : Bool :=
  let late (l : Nat) : Bool := g.subs.any fun u => !u.delivered && (u.cause = 0x10 || u.cause = 0x13) && hasLane u.lanes l
  lanes32.any late && lanes32.all fun l =>
    let x := g.lane l
    x.st == .exited || late l || (x.st == .waiting && (x.at_ == .hard || x.at_ == .soft))

/-- The group whose slots move to the park area: one whose lanes all wait for a long-latency fault, else the one that issued least recently (R37). -/
def parkVictim (s : State) (tile : Nat) (me : Who) : Option Who :=
  let c := s.groups.filter fun g => g.key.isNone && !g.away && groupTile s g == tile && !decide (g.who = me) && groupSlots g != 0
  let pick (l : List Group) : Option Who := (l.foldl (fun (b : Option Group) g => match b with
    | some x => if g.lastIssue < x.lastIssue then some g else b
    | none => some g) none).map (·.who)
  match pick (c.filter allStopped) with
  | some w => some w
  | none => pick c

/-- Moves slots of other groups to the park area until the register file holds what is drawn (R37). -/
def makeRoom (tile : Nat) (me : Who) : Nat → State → State
  | 0, s => s
  | f + 1, s =>
    if fileUse s tile ≤ Config.fileSlots then s
    else match parkVictim s tile me with
      | none => s
      | some w => makeRoom tile me f (modGroup s w fun g => { g with away := true })

/-- The file and the park area of a core hold what its groups hold (R35, R37). -/
def roomOk (s : State) (tile : Nat) : Bool :=
  fileUse s tile ≤ Config.fileSlots && parkUse s tile ≤ Config.poolSlots - Config.fileSlots

end Sys2Proof.Machine
end

