-- ==== Sys2Proof/Machine/Images.lean ====
section
/-!
DEFINITION. The bytes of what the device writes about groups: the group image's header, lane table and sub-group table (R323), trap records
(R164), block records (R320), the halyard's keystone state (R367).
-/

namespace Sys2Proof.Machine

/-- n zero bytes. -/
def zeros (n : Nat) : List Byte := List.replicate n 0

/-- The bytes padded with zeros, or cut, to n. -/
def padTo (n : Nat) (bs : List Byte) : List Byte := (bs ++ zeros (n - bs.length)).take n

/-- Lane state codes of R323. -/
def LaneState.code : LaneState → Nat
  | .exited => 0
  | .waiting => 1
  | .parked => 2
  | .binned => 3
  | .running => 4

/-- The quarter slot that a group holds (R176). -/
def holdOf (s : State) (g : Group) : Option (Nat × Hold) :=
  ((teamOf s g.team).quarters.filterMap fun (q, h) => match h with
    | some x => if x.g == g.idx && g.key.isNone then some (q, x) else none
    | none => none).head?

/-- Flag bits of an image header: region open, hold, halted by the debugger (R364) or at halt (R166; log 80), handler mode (R323). -/
def headerFlags (s : State) (g : Group) : Nat :=
  (if g.region.isSome then 1 else 0) + (if (holdOf s g).isSome then 2 else 0) + (if g.dbgHalt || g.halted then 4 else 0)
    + (if g.subs.any (·.delivered) then 8 else 0)

/-- The 256-byte image header (R323); `idx` is the group index or 0xFFFF for a bin, `key` the bin key. -/
def imageHeader (s : State) (g : Group) (len idx : Nat) (key : W64) : List Byte :=
  let hold := match holdOf s g with
    | some (q, h) => q + (h.len - 1) * 2 ^ 8 + h.first * 2 ^ 16
    | none => 0
  let (ent, m0) := match g.region with
    | some r => (r.entry.toNat, r.m0.toNat)
    | none => (0, 0)
  padTo 0x40 (toBytes 4 len ++ toBytes 2 idx ++ toBytes 1 g.role ++ toBytes 1 (headerFlags s g) ++ toBytes 4 g.fpcr.toNat
    ++ toBytes 4 g.fpflags.toNat ++ toBytes 4 g.winb ++ toBytes 4 g.nregs ++ toBytes 8 ent ++ toBytes 4 m0 ++ toBytes 4 hold
    ++ toBytes 8 key.toNat)
    ++ padTo 0xC0 ((upto 16).flatMap fun m => toBytes 4 (g.mask m).toNat)

/-- The lane table: 32 entries of 32 bytes (R323). -/
def laneTable (g : Group) : List Byte :=
  lanes32.flatMap fun l =>
    let x := g.lane l
    let sub := (posOf (fun u => hasLane u.lanes l) g.subs).getD 0xFF
    padTo 32 (toBytes 8 x.pc.toNat ++ toBytes 4 x.tid.toNat ++ toBytes 4 x.gen.toNat ++ toBytes 2 x.depth ++ toBytes 1 x.st.code ++ toBytes 1 sub)

/-- The sub-group table: 32 entries of 32 bytes (R323). -/
def subTable (g : Group) : List Byte :=
  padTo 1024 (g.subs.flatMap fun u =>
    padTo 32 (toBytes 4 u.lanes.toNat ++ toBytes 4 u.pcmask.toNat ++ toBytes 1 u.cause.toNat ++ toBytes 1 (if u.delivered || u.inHandler then 1 else 0)
      ++ zeros 6 ++ toBytes 8 u.token.toNat))

/-- Directory code of a register (R323). -/
def dirCode (g : Group) (r : Nat) : Nat :=
  if g.regs.any (fun x => x.1 == r) then
    (match (g.reg r).shape with
      | .u _ => 1
      | .a _ _ => 2
      | .g _ => if (g.reg r).spilled then 4 else 3)
  else 0

/-- Data of a register (R323). -/
def regBytes (g : Group) (r : Nat) : List Byte :=
  if g.regs.any (fun x => x.1 == r) && !(g.reg r).spilled then
    (match (g.reg r).shape with
      | .u v => toBytes 4 v.toNat
      | .a b s => toBytes 4 b.toNat ++ toBytes 4 s.toNat
      | .g vs => vs.flatMap fun v => toBytes 4 v.toNat)
  else []

/-- One gated line of an image (R323). -/
def gateBytes (l : GateLine) : List Byte :=
  let mask := sumNat ((upto 128).map fun i => if (mget none l.cells i).isSome then 2 ^ i else 0)
  toBytes 8 l.line.toNat ++ toBytes 16 mask ++ (upto 128).map (fun i => (mget none l.cells i).getD 0) ++ zeros 8

/-- The image of a group, or of a run of binned lanes (R323). -/
def groupImage (s : State) (g : Group) (idx : Nat) (key : W64) : List Byte :=
  let n := g.nregs
  let dir := padTo (roundUp (n / 2) 64) ((upto (n / 2)).map fun i => BitVec.ofNat 8 (dirCode g (2 * i) + 16 * dirCode g (2 * i + 1)))
  let data := (upto n).flatMap (regBytes g)
  let data := padTo (roundUp data.length 64) data
  let gate := match g.region with
    | none => []
    | some r => padTo 64 (toBytes 4 r.gate.length ++ zeros 4 ++ toBytes 8 r.sig.toNat) ++ r.gate.flatMap gateBytes
  let body := laneTable g ++ subTable g ++ dir ++ data ++ gate
  imageHeader s g (256 + body.length) idx key ++ body

/-- Register v_j of the window, for the trap record and the handler (R162). -/
def winReg (g : Group) (winb j : Nat) : Nat := if g.key.isSome then j else winb + j

/-- The team's count of groups, G (R294, R316). -/
def groupCount (k : KRec) : Nat := sumNat (k.roles.map (·.groups))

/-- Address of a group's trap record (R320). -/
def trapRecAddr (s : State) (g : Group) : Nat :=
  let t := teamOf s g.team
  let l := teamLaunch s t
  (l.lrec.trec.toNat + 576 * (t.l * groupCount l.krec + g.idx)) % 2 ^ 64

/-- A DEBUG launch (R362). -/
def isDebug (s : State) (l : Launch) : Bool :=
  bits l.lrec.lflags.toNat 1 1 == 1 && bits l.lrec.lflags.toNat 0 1 == 0 && mget 0 s.ctl.dbghb l.ctx != 0

/-- The team runs as a pair (R62). -/
def isPaired (t : Team) : Bool := t.twin.isSome

/-- The 576 bytes of a trap record (R164). -/
def trapRecord (s : State) (g : Group) (u : Sub) (inHandler : Bool) : List Byte :=
  let t := teamOf s g.team
  let l := teamLaunch s t
  let next := u.cause = 0x40 || u.cause = 0x41
  let flags := (if g.region.isSome then 1 else 0) + (if isPaired t then 2 else 0) + (if isDebug s l then 4 else 0) + (if inHandler then 8 else 0)
  let tags := sumNat ((upto 4).map fun j => (g.reg (winReg g g.winb j)).shape.code * 4 ^ j)
  toBytes 4 (u.cause.toNat + u.code.toNat * 2 ^ 8) ++ toBytes 4 u.pcmask.toNat ++ toBytes 4 u.lanes.toNat ++ toBytes 4 flags
    ++ toBytes 8 u.pc.toNat ++ toBytes 8 (u.pc.toNat + if next then 4 else 0) ++ toBytes 4 g.winb ++ toBytes 4 u.m0.toNat
    ++ toBytes 4 u.depth ++ toBytes 4 tags ++ toBytes 4 l.id.toNat ++ toBytes 4 t.l ++ toBytes 8 u.tval.toNat
    ++ (upto 4).flatMap fun j => lanes32.flatMap fun x =>
        toBytes 4 (if hasLane u.lanes x then (g.val (winReg g g.winb j) x).toNat else 0)

/-- The 192 bytes of a block record (R320). -/
def blockRecord (s : State) (t : Team) : List Byte :=
  let l := teamLaunch s t
  toBytes 4 t.l ++ toBytes 2 (groupCount l.krec) ++ zeros 1 ++ toBytes 1 t.cause.toNat ++ toBytes 8 t.issued ++ toBytes 8 t.expands
    ++ toBytes 8 t.spills ++ ((upto 16).flatMap fun k => toBytes 6 (mget 0 t.stallSum k))
    ++ (upto 16).flatMap fun k => toBytes 4 (Nat.min 0xFFFFFFFF (mget 0 t.stallMax k))

/-- Address of a group's or keystone context's halyard (R361); none when the context has no halyard base. -/
def halyardAddr (s : State) (t : Team) (g : Group) : Option Nat :=
  let l := teamLaunch s t
  let base := mget 0 s.ctl.dbghb t.ctx
  let n := l.lrec.gx * l.lrec.gy * l.lrec.gz
  let i := if g.key.isSome then n * groupCount l.krec + t.l else t.l * groupCount l.krec + g.idx
  if base = 0 then none else some ((base.toNat + 4096 * i) % 2 ^ 64)

/-- The snapshot of R365. -/
def snapshotBytes (s : State) (g : Group) : List Byte := imageHeader s g 0 g.idx 0 ++ laneTable g ++ subTable g

/-- The 4,096 bytes of the keystone state of R367. -/
def keyStateBytes (g : Group) (cause code : Nat) : List Byte :=
  let k := g.key.getD {}
  let masks := sumNat ((upto 16).map fun m => (if m = 0 then 1 else (g.mask m).toNat % 2) * 2 ^ m)
  padTo 4096 <| ((upto 128).flatMap fun r => toBytes 4 (g.uval r).toNat) ++ zeros 12 ++ toBytes 4 (g.lane 0).depth ++ toBytes 4 masks
    ++ toBytes 4 g.fpcr.toNat ++ toBytes 4 g.fpflags.toNat ++ toBytes 4 (g.lane 0).gen.toNat ++ toBytes 4 k.mstat.toNat
    ++ toBytes 4 (cause + code * 2 ^ 8) ++ toBytes 8 (g.lane 0).pc.toNat

end Sys2Proof.Machine
end

