-- ==== Sys2Proof/Machine/Ops.lean ====
section
/-!
DEFINITION. The shared operations: the end of groups, teams and launches (R29, R247, R317, R320); taking an exception, which parks lanes
(R44 to R46), files them (R46, R342) and delivers sub-groups to the trap handler (R162 to R164); the return from one (R165); resumption
(R47); halts of DEBUG launches (R364, R365, R367).
-/

namespace Sys2Proof.Machine

/-- FWHO of a group or keystone context (R317). -/
def fwhoOf (t : Team) (g : Group) : W32 :=
  BitVec.ofNat 32 (g.idx + (if g.key.isSome then 2 ^ 8 else 0) + (if t.primary then 0 else 2 ^ 10))

/-- Bytes of a course become readable at its mapped addresses (R89). -/
def landCourse (s : State) (c : Course) : State := c.parts.foldl (fun s (pa, bs) => physWriteBy s { agent := .mason c.team } pa bs) s

/-- Some engine still works for the team: copy channels, the Mason's commands (R317). -/
def teamBusy (s : State) (k : Nat) : Bool :=
  (s.clusters.any fun (_, c) => c.chans.any fun (_, h) =>
    h.cmds.any (fun x => x.team == k) || (match h.run with | some r => r.cmd.team == k | none => false)
      || (match h.chain with | some r => r.cmd.team == k | none => false))
    || s.masonQ.any (fun x => x.1 == k)

/-- Some write of the team is still to be made: an engine works for it, or a put or pennant is not acknowledged (R317). -/
def teamOpen (s : State) (k : Nat) : Bool :=
  teamBusy s k || s.fabOps.any fun (_, x) => match x with | some op => op.team == k | none => false

/-- A group, keystone context or binned lane of the team is left (R247, R317). -/
def teamAlive (s : State) (k : Nat) : Bool :=
  s.groups.any (fun g => g.team == k)
    || s.cores.any (fun (_, c) => c.bins.any fun b => b.team == k)
    || s.saved.any (fun x => x.key == k && (x.groups.any (fun _ => true) || x.bins.any fun _ => true))
    || s.vault.any fun (_, v) => match v with
        | some i => i.groups.any (fun g => g.team == k) || i.core.bins.any fun b => b.team == k
        | none => false

/-- Every team of a launch has ended, its engines are idle, and its block records are written (R317). -/
def launchOver (s : State) (l : Launch) : Bool :=
  (l.next == l.total || l.killed.isSome) && !(s.teams.any fun t => t.ctx == l.ctx && t.launch == l.id)
    && !s.blocks.any fun b => b.ctx == l.ctx && b.launch == l.id

/-- The completion record of a launch that is over (R317). -/
def completionOf (s : State) (l : Launch) : Completion :=
  let compev := bits l.lrec.lflags.toNat 16 12
  let irq := bits l.lrec.lflags.toNat 2 1 == 1
  let buf := l.lrec.recbuf
  let c : Completion := { ctx := l.ctx, queue := l.queue, id := l.id, status := 0, cause := 0, blk := buf, compev := compev, irq := irq
                          time := timeNs s, view := l.view }
  match l.first with
  | some (cause, t, who, blk) =>
    { c with status := if cause = 0x32 then 4 else 2, cause := cause, fteam := BitVec.ofNat 32 t,
             fwho := if l.multi then who ||| BitVec.ofNat 32 (2 ^ 9) else who, blk := blk }
  | none =>
    match l.killed with
    | some (cause, ft, fw) => { c with status := 3, cause := cause, fteam := ft, fwho := fw }
    | none => c

/-- Launches that are over leave; their completion records wait to be written (R317). -/
def closeLaunches (s : State) : State :=
  let done := s.launches.filter (launchOver s)
  { s with launches := s.launches.filter (fun l => !launchOver s l), completions := s.completions ++ done.map (completionOf s) }

/-- A team that has ended and whose engines are idle leaves: open courses are sealed without results (R354), its banks, frames, quarter
slots and keystone context are free, a status entry that waits for its queue is dropped. -/
def retireTeam (s : State) (k : Nat) : State :=
  let s1 := (s.courses.filter fun c => c.team == k).foldl landCourse s
  let t := teamOf s k
  let s2 := { modLaunch s1 t.ctx t.launch fun l => { l with view := (l.view.join t.view).plusTeam k s1.writes } with
    courses := s1.courses.filter (fun c => c.team != k)
    teams := s1.teams.filter (fun t => t.key != k)
    saved := s1.saved.filter (fun x => x.key != k)
    clusters := s1.clusters.map fun (i, c) => (i, { c with chans := c.chans.map fun (j, h) =>
      (j, { h with post := h.post.filter fun p => p.team != k }) }) }
  closeLaunches s2

/-- A block record is written; a write that waits for the zero engine is made later (R344), one that faults is not performed (log 16). -/
def putBlock (s : State) (b : Block) : State :=
  match writeAt s (devEnv s b.ctx false) b.va b.bytes with
  | (s1, .wait) => { s1 with blocks := s1.blocks ++ [b] }
  | (s1, _) => s1

/-- The block records that waited are written (R320, R344). -/
def retryBlocks (s : State) : State := closeLaunches (s.blocks.foldl putBlock { s with blocks := [] })

/-- The device writes the team's block record when RECBUF is nonzero (R320). -/
def writeBlock (s : State) (t : Team) : State :=
  let l := teamLaunch s t
  if l.lrec.recbuf = 0 then s
  else putBlock s { ctx := t.ctx, launch := t.launch, va := (l.lrec.recbuf.toNat + 192 * t.l) % 2 ^ 64, bytes := blockRecord s t }

/-- The team ends when nothing of it is left; it leaves once its engines are idle (R247, R317, R320). -/
def settleTeam (s : State) (k : Nat) : State :=
  match findTeam s k with
  | none => s
  | some t =>
    if teamAlive s k && t.status != .ended then s
    else
      let s1 := if t.status = .ended then s else modTeam (writeBlock s t) k fun t => { t with status := .ended }
      if teamOpen s1 k then s1 else retireTeam s1 k

/-- Adds a group's counts to its team's block record (R320). -/
def addStats (t : Team) (g : Group) : Team :=
  if g.key.isSome then t
  else { t with
    spills := t.spills + g.spills
    expands := t.expands + g.expands
    issued := t.issued + g.issued
    stallSum := g.stalls.foldl (fun m (i, v) => mput 0 m i (mget 0 m i + v)) t.stallSum
    stallMax := g.stalls.foldl (fun m (i, v) => mput 0 m i (Nat.max (mget 0 m i) v)) t.stallMax }

/-- A group's holds end with it (R178, R256): a binding then reads its quarters as zeros; of an mma issued before, the slots are kept. -/
def releaseHolds (s : State) (g : Group) : State :=
  if g.key.isSome then s
  else
    let tile := groupTile s g
    let keep (e : MEntry) : MEntry := match e.op with
      | .mma a t k0 k fn qs => { e with op := .mma a t k0 k fn (qs.map fun q => if q.hold.g = g.idx && q.kept.isNone then { q with kept := some tile } else q) }
      | _ => e
    let s1 := modTeam s g.team fun t => { t with quarters := t.quarters.filter fun (_, h) => match h with | some x => x.g != g.idx | none => false }
    let end_ (k : Group) : Group := { k with key := k.key.map fun c => { c with
      mq := c.mq.map keep
      binding := c.binding.map fun qs => qs.map fun q => if q.hold.g = g.idx then { q with gone := true } else q } }
    modAway (modGroup s1 (.key g.team) end_) (fun k => k.key.isSome && k.team == g.team) end_

/-- A parked sub-group runs again as its own path at its program counter (R27, R47); in a halted group it becomes a 0x42 sub-group that
keeps its mask, and is due for delivery (R364). -/
def Group.wakeSub (g : Group) (i : Nat) : Group :=
  let u := nth { lanes := 0, pcmask := 0, cause := 0 } g.subs i
  if g.dbgHalt && g.key.isNone && !u.inHandler then { g with subs := setNth g.subs i { u with cause := 0x42, filed := false, token := 0 } }
  else
    { g.modLanes u.lanes (fun _ x => { x with st := .running, tag := g.nextTag }) with
      nextTag := g.nextTag + 1, subs := dropNth g.subs i }

/-- Wakes every parked sub-group that satisfies a test (R47). -/
def Group.wakeSubs (p : Sub → Bool) : Nat → Group → Group
  | 0, g => g
  | f + 1, g => match posOf (fun u => !u.delivered && p u) g.subs with
    | none => g
    | some i => Group.wakeSubs p f (g.wakeSub i)

/-- It waits for a page or a Quarry line (R46). -/
def Sub.late (u : Sub) : Bool := u.cause == 0x10 || u.cause == 0x13

/-- The wait-table entry of a token for a group or keystone context (R46, R246). -/
def entryOf (g : Group) (asid : BitVec 16) (quarry : Bool) (token : W64) : WaitEntry :=
  { asid := asid, quarry := quarry, token := token, hw := g.key.map (·.hw) }

/-- Entries of one core's wait table are released (R46, R47, R343): the sub-groups that wait for one re-execute, those parked without an entry
that `p` names, and, when an entry was released, every other one parked without an entry; so do matrix instructions parked so (R258). -/
def releaseWaits (s : State) (tile : Nat) (p : WaitEntry → Bool) : State :=
  let tab := (coreOf s tile).waitTab
  let freed := tab.any p
  let wake (g : Group) : Group :=
    let asid := (contextOf s (teamOf s g.team).ctx).asid
    let g1 := g.wakeSubs (fun u => u.late && (p (entryOf g asid (u.cause == 0x13) u.token) || (freed && !u.filed))) g.subs.length
    { g1 with key := g1.key.map fun k => { k with mq := k.mq.map fun m => match m.parked with
      | some t => if p (entryOf g asid false t) || (freed && !tab.contains (entryOf g asid false t)) then { m with parked := none } else m
      | none => m } }
  let s1 := modCore s tile fun c => { c with waitTab := tab.filter fun e => !p e }
  { s1 with groups := s1.groups.map fun g => if groupTile s g == tile then wake g else g }

/-- A wait-table entry is named by a parked sub-group or matrix instruction of the core (R46, R246). -/
def entryUsed (s : State) (tile : Nat) (e : WaitEntry) : Bool :=
  s.groups.any fun g => groupTile s g == tile && (contextOf s (teamOf s g.team).ctx).asid == e.asid && g.key.map (·.hw) == e.hw &&
    (g.subs.any (fun u => u.filed && u.token == e.token && (u.cause == 0x13) == e.quarry)
      || (match g.key with | some k => !e.quarry && k.mq.any (fun m => m.parked == some e.token) | none => false))

/-- Entries of a wait table that no parked sub-group of the core names any more are released (R46). -/
def sweepWaits (s : State) (tile : Nat) : State :=
  if (coreOf s tile).waitTab.all (entryUsed s tile) then s else releaseWaits s tile fun e => !entryUsed s tile e

/-- The lanes of a team that are not exited: those of its resident groups of a role, by a test. -/
def lanesAll (s : State) (k : Nat) (role : Option Nat) (p : Lane → Bool) : Bool :=
  (s.groups.filter fun g => g.team == k && g.key.isNone && (role.isNone || role == some g.role)).all fun g =>
    g.lanes.all fun x => x.st == .exited || p x

/-- Lanes of the team lie in a bin, in a vault slot or in a save block: they hold a barrier (R221). -/
def lanesElsewhere (s : State) (k : Nat) (role : Option Nat) : Bool :=
  s.cores.any (fun (_, c) => c.bins.any fun b => b.team == k && (role.isNone || role == some b.role) && !b.lanes.isEmpty)
    || (s.vault.any fun (_, v) => match v with | some i => i.groups.any fun g => g.team == k && g.key.isNone | none => false)
    || s.saved.any fun x => x.key == k

/-- Agents of the lanes of a group in a set. -/
def agentsOf (g : Group) (m : W32) : List Agent :=
  if g.key.isSome then [.key g.team] else (lanesOf m).map fun l => .lane g.team (g.lane l).tid.toNat

/-- The lanes waiting at a barrier are released, each group's lanes as one path per address; what each of them did before happens before what any
of them does after (R221). -/
def openBarrier (s : State) (k : Nat) (role : Option Nat) (at_ : WaitAt) : State :=
  let here (g : Group) : Bool := g.team == k && g.key.isNone && (role.isNone || role == some g.role)
  let held (g : Group) : W32 := g.lanesWhere fun x => x.st == .waiting && x.at_ == at_
  let kind : WaitKind := if at_ = .barTeam then .barTeam else .barRole
  let free (g : Group) : Group := { g.modLanes (held g) (fun _ x => { x with st := .running, at_ := .none, pc := x.pc + 4, tag := 0 }) with
    waits := g.waits.filter fun x => x.kind != kind }
  let who := (s.groups.filter here).flatMap fun g => agentsOf g (held g)
  acquireAll { s with groups := mapWhere here free s.groups } who (releasedBy s who)

/-- Releases the barriers of a team that every lane has reached (R221). -/
def settleBarriers (s : State) (k : Nat) (roles : List Nat) : State :=
  let ready (s : State) (role : Option Nat) (at_ : WaitAt) : Bool :=
    !lanesElsewhere s k role && lanesAll s k role fun x => x.st == .waiting && x.at_ == at_
  let s1 := if ready s none .barTeam then openBarrier s k none .barTeam else s
  roles.foldl (fun s r => if ready s (some r) .barRole then openBarrier s k (some r) .barRole else s) s1

/-- A group ends, or its slot is released: its slots and holds are free and its counts join its team's (R29, R50, R178). -/
def endGroup (s : State) (w : Who) : State :=
  match findGroup s w with
  | none => s
  | some g =>
    let s1 := releaseHolds (modTeam s g.team fun t => addStats t g) g
    let s2 := modCore (dropGroup s1 w) (groupTile s g) fun c => { c with current := c.current.filter (· != (g.team, g.idx, g.residentAt)) }
    settleTeam (sweepWaits s2 (groupTile s g)) g.team

/-- Names the first team of a launch that ended with a cause (R317). -/
def noteFault (s : State) (t : Team) (cause : BitVec 8) (who : W32) : State :=
  modLaunch s t.ctx t.launch fun l => match l.first with
    | none => { l with first := some (cause, t.l, who, if l.lrec.recbuf = 0 then 0 else l.lrec.recbuf + BitVec.ofNat 64 (192 * t.l)) }
    | some f => if f.2.1 = t.l then l else { l with multi := true }

/-! ## The end of a blocked head's request -/

/-- A group or keystone context has yielded: no lane is RUNNING or in handler mode, and a lane waits at a yield (R55, R154). -/
def hasYielded (g : Group) : Bool :=
  g.lanes.any (fun x => x.st == .waiting && x.at_ == .yield) && g.lanes.all fun x => x.st != .running && !x.handler

/-- A group or keystone context of the team lies in a vault image. -/
def teamInImage (s : State) (k : Nat) : Bool := s.vault.any fun (_, v) => match v with | some i => i.groups.any fun g => g.team == k | none => false

/-- Some part of the team has yielded or is frozen. -/
def partYielded (s : State) (k : Nat) : Bool := (s.groups.any fun g => g.team == k && hasYielded g) || teamInImage s k

/-- %preempt of every group and keystone context of a team. -/
def setPreempt (s : State) (k : Nat) (v : Bool) : State :=
  { s with groups := mapWhere (fun g => g.team == k) (fun g => { g with preempt := v }) s.groups }

/-- Lanes that wait at a yield go on after it. -/
def pastYield (g : Group) : Group :=
  g.modLanes (g.lanesWhere fun x => x.st == .waiting && x.at_ == .yield) fun _ x => { x with st := .running, at_ := .none, pc := x.pc + 4, tag := 0 }

/-- A request is withdrawn from a team, which runs on (R315): the spec does not say what becomes of lanes that wait at a yield already in a group
that has not yielded; the model lets them go on after it (log 89). -/
def withdraw (s : State) (k : Nat) : State :=
  let s1 := setPreempt (modTeam s k fun t => { t with preReq := none, preFor := none }) k false
  { s1 with groups := mapWhere (fun g => g.team == k) pastYield s1.groups }

/-- A team's request was made for a head team. -/
def Team.askedFor (t : Team) (h : HeadId) : Bool := t.preReq.isSome && t.preFor.any fun l => l.contains h

/-- A blocked head is placed or gone: %preempt is withdrawn from those of its victims of which no part has yielded, unless another blocked head asked for
them too; the others are pre-empted to the end (R315). -/
def cancelRequests (s : State) (h : HeadId) : State :=
  let mine := s.teams.filter fun t => t.askedFor h
  mine.foldl (fun s t =>
    if partYielded s t.key then modTeam s t.key fun t => { t with preFor := none }
    else
      let l := (t.preFor.getD []).filter (· != h)
      if l.isEmpty then withdraw s t.key else modTeam s t.key fun t => { t with preFor := some l })
    { s with blocked := s.blocked.filter (· != h) }

/-- A head team is still to be placed: it is a saved team, or its launch has an unplaced one (R313, R315). -/
def headLives (s : State) (h : HeadId) : Bool :=
  match h.saved with
  | none => s.launches.any fun l => l.ctx == h.ctx && l.id == h.id && l.killed.isNone && l.next < l.total
  | some k => s.teams.any fun t => t.key == k && t.status == .saved

/-- Blocked heads that were killed (R315). -/
def settleBlocked (s : State) : State := (s.blocked.filter fun h => !headLives s h).foldl cancelRequests s

/-- The wait of the head team of a queue starts again: the saved team ahead of it is gone (R312). -/
def restartHead (s : State) (c q : Nat) : State :=
  if s.teams.any fun t => t.ctx == c && t.queue == q && t.status == .saved then s
  else { s with launches := mapWhere (fun l => l.ctx == c && l.queue == q) (fun l => { l with headSince := s.cycle }) s.launches }

/-! ## The end of teams and launches -/

/-- Removes every part of a team that is not in a vault image; the counts of all its groups join the team's (R320). -/
def clearTeam (s : State) (k : Nat) : State :=
  let t := teamOf s k
  let frozen := s.vault.flatMap fun (_, v) => match v with | some i => i.groups | none => []
  let s1 := ((s.groups ++ s.saved.flatMap (·.groups) ++ frozen).filter fun g => g.team == k).foldl (fun s g => modTeam s k fun t => addStats t g) s
  let s2 := { s1 with
    groups := s1.groups.filter (fun g => g.team != k)
    saved := s1.saved.filter (fun x => x.key != k)
    cores := s1.cores.map fun (i, c) => (i, { c with bins := c.bins.filter fun b => b.team != k }) }
  let s3 := (upto 5).foldl (fun s i => sweepWaits s (5 * t.cluster + i)) s2
  modTeam s3 k fun t => { t with quarters := [] }

/-- Ends one team at once, with a cause or 0. -/
def stopTeam (s : State) (k : Nat) (cause : BitVec 8) : State :=
  match findTeam s k with
  | none => s
  | some t =>
    if t.status = .ended then s
    else
      let s1 := modTeam (clearTeam s k) k fun t => { t with cause := cause }
      let s2 := modTeam (writeBlock s1 (teamOf s1 k)) k fun t => { t with status := .ended }
      let s3 := if t.status = .saved then restartHead s2 t.ctx t.queue else s2
      if teamOpen s3 k then s3 else retireTeam s3 k

/-- A team ends with a cause (R162, R246); its twin ends with it (R62; log 17), and it may have been a blocked head (R315). -/
def endTeam (s : State) (k : Nat) (cause : BitVec 8) (who : W32) : State :=
  match findTeam s k with
  | none => s
  | some t =>
    let s1 := stopTeam (noteFault s t cause who) k cause
    match t.twin with
    | some k2 => settleBlocked (stopTeam s1 k2 cause)
    | none => s1

/-- Every team of a launch ends: KILL, KILLCTX, the watchdog, a failed restore (R302, R305, R317, R331, R376). -/
def killLaunch (s : State) (c : Nat) (id : W32) (cause : BitVec 8) (ft fw : W32) : State :=
  let s1 := modLaunch s c id fun l => if l.killed.isSome then l else { l with killed := some (cause, ft, fw) }
  settleBlocked (closeLaunches ((s1.teams.filter fun t => t.ctx == c && t.launch == id).foldl (fun s t => stopTeam s t.key 0) s1))

/-- A launch ends with STATUS FAULT and a cause, naming a team (R340, R362). -/
def failLaunch (s : State) (t : Team) (cause : BitVec 8) (who : W32) : State :=
  killLaunch (noteFault s t cause who) t.ctx t.launch cause 0xFFFFFFFF 0

/-- A cause that one lane meets: token, address, size and kind of its access (R44, R342). -/
structure Hit where
  lane : Nat
  cause : Nat
  token : W64 := 0
  addr : W64 := 0
  bytes : Nat := 0
  /-- 0 read, 1 write, 2 atomic, 3 fetch -/
  kind : Nat := 0
  code : BitVec 14 := 0
  /-- the array that held an on-chip error (R60) -/
  unit : Option Nat := none
deriving DecidableEq, Repr

/-- Files a sub-group that met 0x10 or 0x13 in its core's wait table, of 64 entries, on the keystone core of one for each context,
and posts a record for a new token (R46, R246, R342). -/
def fileWait (s : State) (g : Group) (u : Sub) (h : Hit) : State × Bool :=
  let t := teamOf s g.team
  let tile := groupTile s g
  let asid := (contextOf s t.ctx).asid
  let tab := (coreOf s tile).waitTab
  let ent := entryOf g asid (u.cause == 0x13) u.token
  if tab.contains ent then (s, true)
  else
    let room := if g.key.isSome then !tab.any (fun e => e.hw == ent.hw) else tab.length < 64
    let s1 := if room then modCore s tile fun c => { c with waitTab := tab ++ [ent] } else s
    let hw := match g.key with | some k => k.hw | none => 0
    (fileFault s1 {
      cause := u.cause, asid := asid, launch := t.launch, team := BitVec.ofNat 32 t.l, lanes := u.lanes, pcmask := u.pcmask, token := u.token, va := h.addr
      group := if g.key.isSome then 0xFFFF else BitVec.ofNat 16 g.idx
      access := BitVec.ofNat 32 (h.bytes + h.kind * 2 ^ 8 + (if u.inHandler then 2 ^ 10 else 0) + (if room then 2 ^ 11 else 2 ^ 12))
      who := BitVec.ofNat 32 (tile + (if g.key.isSome then 2 ^ 8 + hw * 2 ^ 11 else 0)) }, room)

/-- Every pending long-latency instruction completes, with its flags (R181), and the windows of the lanes end (R43). -/
def completePending (g : Group) (m : W32) : Group :=
  let l := g.pend.map fun p => { p with left := lanes32.map (fun l => if hasLane m l then 0 else nth 0 p.left l), complete := true, flags := 0 }
  { g with
    fpflags := g.pend.foldl (fun f p => f ||| p.flags) g.fpflags
    pend := l.filter fun p => p.left.any (· != 0) }

/-- The halyard snapshot of R365, of the group as it stands after step 1 of R364; none is written without a halyard base. -/
def writeSnapshot (s : State) (g : Group) : State × Wrote :=
  let t := teamOf s g.team
  match halyardAddr s t g with
  | none => (s, .done)
  | some a => writeAt s (devEnv s t.ctx false) a (snapshotBytes s g)

/-- Lanes that a halt stops: RUNNING outside handler mode, or WAITING at a reconvergence point (R364). -/
def haltable (x : Lane) : Bool := !x.handler && (x.st == .running || (x.st == .waiting && (x.at_ == .hard || x.at_ == .soft)))

/-- Step 1 of R364: every path, with the lanes waiting at its point, becomes a parked sub-group with cause 0x42. -/
def haltGroup (now : Nat) (g : Group) : Group :=
  let m := g.lanesWhere haltable
  let keys := distinct ((lanesOf m).map fun l => ((g.lane l).pc, (g.lane l).depth))
  let subs := keys.map fun (pc, d) =>
    ({ lanes := m &&& g.lanesWhere (fun x => x.pc = pc ∧ x.depth = d), pcmask := 0, cause := 0x42, pc := pc, depth := d, m0 := g.mask 0 } : Sub)
  { g.modLanes m (fun _ x => { x with st := .parked, at_ := .none }) with
    dbgHalt := true, haltAt := if g.dbgHalt then g.haltAt else now, subs := g.subs ++ subs }

/-- The state of a halted keystone context goes to its halyard (R367); a write that waits for the zero engine is made later (R344), one that faults
ends the launch (R362). -/
def postKey (s : State) (w : Who) (cause code : Nat) : State :=
  match findGroup s w with
  | none => s
  | some g =>
    let t := teamOf s g.team
    match halyardAddr s t g with
    | none => modGroup s w fun g => { g with keyHalt := none }
    | some a => match writeAt s (devEnv s t.ctx false) a (keyStateBytes g cause code) with
      | (s2, .stop c _) => failLaunch s2 t (BitVec.ofNat 8 c) (fwhoOf t g)
      | (s2, .wait) => modGroup s2 w fun g => { g with keyHalt := some (cause, code) }
      | (s2, .done) => modGroup s2 w fun g => { g with keyHalt := none }

/-- A keystone context stops before its next instruction and its state goes to its halyard (R246, R367). -/
def haltKey (s : State) (w : Who) (cause code : Nat) : State :=
  postKey (modGroup s w fun g => { g with dbgHalt := true, haltAt := s.timeFs }) w cause code

/-- The sub-group due for delivery: lowest cause, then lowest lane; none while a handler path runs (R162). -/
def dueSub (g : Group) : Option Nat :=
  if g.key.isSome || g.subs.any (·.delivered) then none
  else (g.subs.foldl (fun (b : Nat × Option (Nat × Nat × Nat)) (u : Sub) =>
    let i := b.1
    let r := (u.cause.toNat, lowestLane u.lanes)
    (i + 1, if u.cause = 0x10 || u.cause = 0x13 then b.2
      else match b.2 with
        | some (c, l, j) => if r.1 < c ∨ (r.1 = c ∧ r.2 < l) then some (r.1, r.2, i) else some (c, l, j)
        | none => some (r.1, r.2, i))) (0, none)).2.map (·.2.2)

/-- The lanes of sub-group i start the trap handler: the record's address goes into the pair v0, which a partial delivery leaves G, and they run as
one path at the context's trap entry in handler mode (R162). A window that reaches past the declared registers is written as it stands, and tret reads it so
(log 90). -/
def enterHandler (s : State) (g : Group) (i : Nat) (u : Sub) (entry : W64) (rec : Nat) : Group :=
  let r := winReg g g.winb 0
  let g0 := completePending g u.lanes
  let g1 := putReg (putReg g0 u.lanes r (.u (BitVec.ofNat 32 rec))) u.lanes (r + 1) (.u (BitVec.ofNat 32 (rec / 2 ^ 32)))
  let g2 := if g.live &&& ~~~u.lanes != 0 then toGeneral (toGeneral g1 r) (r + 1) else joinPair g1 r
  let g3 := fitBudget s [r, r + 1] g2
  { g3.modLanes u.lanes (fun _ x => { x with st := .running, pc := entry, handler := true, depth := u.depth, tag := g.nextTag, at_ := .none }) with
    nextTag := g.nextTag + 1
    subs := setNth g.subs i { u with delivered := true, winb := g.winb } }

/-- The delivery of sub-group i: the trap record is written, then in a DEBUG launch the snapshot of the group as it is halted, then the handler
starts; each write may wait for the zero engine (R162 to R164, R344, R364, R365). -/
def deliverSub (s : State) (g : Group) (i : Nat) (u : Sub) : State :=
  let t := teamOf s g.team
  let c := contextOf s t.ctx
  let dbg := isDebug s (teamLaunch s t)
  let g1 := if dbg && u.cause = 0x41 then haltGroup s.timeFs g else g
  let rec_ := trapRecAddr s g
  match writeAt s (devEnv s t.ctx false) rec_ (trapRecord s g u false) with
  | (s1, .stop e _) => endTeam s1 g.team (BitVec.ofNat 8 e) (fwhoOf t g)
  | (s1, .wait) => s1
  | (s1, .done) =>
    match (if dbg && (u.cause = 0x41 || u.cause = 0x42) then writeSnapshot s1 g1 else (s1, .done)) with
    | (s2, .stop e _) => failLaunch s2 t (BitVec.ofNat 8 e) (fwhoOf t g)
    | (s2, .wait) => s2
    | (s2, .done) => setGroup s2 (enterHandler s2 g1 i u c.trap rec_)

/-- Taking an exception, second half: the sub-group that is due is delivered to the context's trap handler (R162 to R164); it waits while the pair
that is written is held (R176, R256). Without a trap entry, or when the record cannot be written, the team ends. -/
def deliver (s : State) (w : Who) : State :=
  match findGroup s w with
  | none => s
  | some g =>
    match dueSub g with
    | none => s
    | some i =>
      let u := nth { lanes := 0, pcmask := 0, cause := 0 } g.subs i
      let t := teamOf s g.team
      if (contextOf s t.ctx).trap = 0 then endTeam s g.team u.cause (fwhoOf t g)
      else if pinned s g (winReg g g.winb 0) || pinned s g (winReg g g.winb 1) then s
      else deliverSub s g i u

/-- The error record of poison or an uncorrectable datum that an instruction consumed (R60, R392): the array, or the place of memory with its physical
address, and a syndrome that the device gives (log 1). -/
def logConsumed (s : State) (t : Team) (addr : W64) (array : Option Nat := none) : State :=
  let c := contextOf s t.ctx
  let (unit, pa) := match array, walk s c.root addr.toNat with
    | some u, _ => (u, 0)
    | none, .ok x => (unitAt s (swapRoute s x), swapRoute s x)
    | none, .error _ => (unitAt s fabricEnd, 0)
  logError { s with free := s.free + 1 }
    { cls := 2, sev := 1, cause := 0x15, asid := c.asid.toNat, launch := t.launch.toNat, unit := unit
      detail := pa + (Config.freeWord s.free).toNat * 2 ^ 64 }

/-- The distinct pairs of cause and token among causes met, lowest cause first, then lowest lane (R44, R162). -/
def hitKeys (hs : List Hit) : List (Nat × W64) :=
  let ks := distinct (hs.map fun h => (h.cause, h.token))
  let causes := (List.range 256).filter fun c => ks.any fun k => k.1 == c
  causes.flatMap fun c => ks.filter fun k => k.1 == c

/-- The lanes of a pair of cause and token. -/
def hitLanes (hs : List Hit) (k : Nat × W64) : W32 := laneSet fun l => hs.any fun h => h.lane == l && h.cause == k.1 && h.token == k.2

/-- Parks one sub-group (R44 to R46); in handler mode any cause but 0x10 and 0x13 ends the team (R163). -/
def parkOne (s : State) (w : Who) (pcmask : W32) (hs : List Hit) (k : Nat × W64) : State :=
  match findGroup s w with
  | none => s
  | some g =>
    let m := hitLanes hs k
    let l0 := lowestLane m
    let x := g.lane l0
    let h := (firstWhere (fun h => h.lane == l0 && h.cause == k.1 && h.token == k.2) hs).getD { lane := l0, cause := k.1 }
    let u : Sub := { lanes := m, pcmask := pcmask, cause := BitVec.ofNat 8 k.1, token := k.2, pc := x.pc, depth := x.depth, m0 := g.mask 0, code := h.code,
                     tval := h.addr, inHandler := x.handler, bytes := h.bytes, kind := h.kind }
    let t := teamOf s g.team
    let s := if k.1 = 0x15 then logConsumed s t h.addr h.unit else s
    if k.1 = 0x10 || k.1 = 0x13 then
      let (s1, filed) := fileWait s g u h
      setGroup s1 { g.modLanes m (fun _ x => { x with st := .parked }) with subs := g.subs ++ [{ u with filed := filed }] }
    else if g.key.isSome then
      if k.1 = 0x41 && isDebug s (teamLaunch s t) then haltKey s w 0x41 h.code.toNat
      else endTeam s g.team u.cause (fwhoOf t g)
    else if x.handler then
      match writeAt s (devEnv s t.ctx false) (trapRecAddr s g) (trapRecord s g u true) with
      | (s1, .stop e _) => endTeam s1 g.team (BitVec.ofNat 8 e) (fwhoOf t g)
      | (s1, _) => endTeam s1 g.team u.cause (fwhoOf t g)
    else
      setGroup s { g.modLanes m (fun _ x => { x with st := .parked }) with subs := g.subs ++ [u] }

/-- The twin's group or keystone context, when it is resident (R62). -/
def twinOf (s : State) (g : Group) : Option Group :=
  (teamOf s g.team).twin.bind fun k => findGroup s (if g.key.isSome then .key k else .group k g.idx)

/-- The group restarts its region: the gate and the parked sub-groups go, handler mode ends, m0 returns, and every lane that was not exited at
entry runs on one path after the entry word (R60). The long-latency instructions that are pending complete, with their flags, those of before the entry too
(log 101). -/
def restartRegion (g : Group) (r : Region) : Group :=
  { g.modLanes r.live (fun _ x => { x with st := .running, pc := r.entry + 4, depth := r.depth, handler := false, tag := g.nextTag, at_ := .none }) with
    fpflags := (completePending g g.live).fpflags
    masks := (g.putMask 0 r.m0).masks, subs := [], pend := [], got := [], waits := [], fwd := [], ask := none, nextTag := g.nextTag + 1, script := []
    region := some { r with gate := [], sig := 0, used := [], sent := 0 } }

/-- The region of one twin restarts after an error (R60): the twin is given again what it took, and what the primary sent and the twin has not taken is
void (log 40). -/
def restartOne (s : State) (g : Group) (r : Region) : State :=
  let t := teamOf s g.team
  let h := restartRegion g { r with used := [], sent := 0 }
  if !isPaired t then setGroup s h
  else if !t.primary then setGroup s { h with fwd := r.used ++ g.fwd }
  else
    match twinOf s g with
    | some x => modGroup (setGroup s h) x.who fun x => { x with fwd := x.fwd.take (x.fwd.length - r.sent), script := [] }
    | none => setGroup s h

/-- The first uncorrectable error of an instance of a region restarts it, with an error record (R60, R392). -/
def regionError (s : State) (g : Group) (r : Region) (unit : Nat) : State :=
  let t := teamOf s g.team
  let s1 := restartOne s g { r with errs := 1 }
  logError (sweepWaits s1 (groupTile s g)) { cls := 3, asid := (contextOf s t.ctx).asid.toNat, launch := t.launch.toNat, unit := unit
                                             detail := r.entry.toNat }

/-- Taking an exception: the lanes that met causes split into one parked sub-group per cause and token, and what is due is delivered
(R44 to R48, R162, R246). `pcmask` holds the lanes that completed (R45). -/
def parkAll (s : State) (w : Who) (pcmask : W32) (hs : List Hit) : State :=
  deliver ((hitKeys hs).foldl (fun s k => parkOne s w pcmask hs k) s) w

/-- Taking an exception; the first error in one of the arrays of R60 inside an open region restarts the region instead. -/
def raise (s : State) (w : Who) (pcmask : W32) (hs : List Hit) : State :=
  match firstWhere (fun (h : Hit) => h.cause == 0x15 && h.unit.any restartUnit) hs, (findGroup s w).bind fun g => g.region.map fun r => (g, r) with
  | some h, some (g, r) =>
    if r.errs = 0 then regionError s g r (h.unit.getD 0)
    else parkAll (modGroup s w fun g => { g with region := some { r with errs := r.errs + 1 } }) w pcmask hs
  | _, _ => parkAll s w pcmask hs

/-- Return from an exception: lanes of a delivered sub-group leave handler mode and run as one path at RPC, with the depth and window base
kept at delivery; the sub-group is gone when none of its lanes is left in handler mode (R165). In a halted group they become a sub-group with cause
0x42 there, with the mask kept (R47, R364). -/
def leaveHandler (g : Group) (i : Nat) (m : W32) (rpc : W64) : Group :=
  let u := nth { lanes := 0, pcmask := 0, cause := 0 } g.subs i
  let rest := u.lanes &&& ~~~m
  let subs := if rest = 0 then dropNth g.subs i else setNth g.subs i { u with lanes := rest }
  { g.modLanes m (fun _ x => { x with handler := false, pc := rpc, depth := u.depth, tag := g.nextTag, st := if g.dbgHalt then .parked else .running }) with
    nextTag := g.nextTag + 1
    subs := if g.dbgHalt then subs ++ [{ lanes := m, pcmask := u.pcmask, cause := 0x42, pc := rpc, depth := u.depth, m0 := g.mask 0 }] else subs }

/-- The team's index and number of its context's halted or resident part are unchanged: the group after its lanes left (exited). -/
def dropFromSubs (g : Group) (m : W32) : Group :=
  { g with subs := (g.subs.map fun u => { u with lanes := u.lanes &&& ~~~m }).filter (fun u => u.lanes != 0) }

end Sys2Proof.Machine
end

