-- ==== Sys2Proof/Machine/Operands.lean ====
section
/-!
DEFINITION. Operand forms (R124 to R131, R38, R39, R208, R209), the checks made before any effect (R10, R42, R59, R140, R243), the waits of
scoreboard and pins (R41, R176, R181), and the issue of an instruction with a word: what all of them share before and after their own effect.
-/

namespace Sys2Proof

/-- A register operand: its field, its number of registers, whether the field must be even (R127), whether it is read or written, whether
its tag must be U (R209), whether a spilled register is filled back (R35, R172, R173). -/
structure Opnd where
  f : Nat
  n : Nat := 1
  even : Bool := false
  rd : Bool := true
  wr : Bool := false
  uni : Bool := false
  fill : Bool := true
deriving DecidableEq, Repr

/-- The base pair of the M format and the index register of its offset (R127, R128). -/
def memOpnds (b o : BitVec 7) : List Opnd :=
  { f := b.toNat, n := 2, even := true } :: (if o.toNat < 64 then [{ f := o.toNat }] else [])

/-- Conversion indices with a 64-bit target, and with a 64-bit source or a pair of f32 values (R205). -/
def cvtWide (i : Nat) : Bool := [1, 24, 25, 26, 27, 29, 38, 39].contains i
def cvtFromWide (i : Nat) : Bool := [0, 24, 25, 26, 27, 28, 36, 37, 42, 43, 44, 45].contains i

/-- 64-bit special registers (R145). -/
def srWide (n : Nat) : Bool := n == 0x28 || n == 0x29

/-- The register operands that the fields of an instruction name, except the block of bqh (R176). -/
def Instr.opnds : Instr → List Opnd
  | .cvt d a _ i _ =>
    [{ f := d.toNat, n := if cvtWide i.toNat then 2 else 1, even := cvtWide i.toNat, rd := false, wr := true },
     { f := a.toNat, n := if cvtFromWide i.toNat then 2 else 1, even := cvtFromWide i.toNat }]
  | .movl d h _ => [{ f := d.toNat, n := if h.toNat < 2 then 1 else 2, even := !(h.toNat < 2), rd := false, wr := true }]
  | .movh d h _ => [{ f := d.toNat, n := if h.toNat < 2 then 1 else 2, even := !(h.toNat < 2), wr := true }]
  | .rdsr d n => [{ f := d.toNat, n := if srWide n.toNat then 2 else 1, even := srWide n.toNat, rd := false, wr := true }]
  | .bqh _ b => [{ f := b.toNat, uni := true }]
  | .reform d => [{ f := d.toNat, n := 2, even := true }]
  | .call _ _ _ => [{ f := 62, n := 2, rd := false, wr := true }]
  | .jmp a => [{ f := a.toNat, n := 2, even := true }]
  | .calli d a => [{ f := d.toNat, n := 2, even := true, rd := false, wr := true }, { f := a.toNat, n := 2, even := true }]
  | .ret a => [{ f := a.toNat, n := 2, even := true }]
  | .tret d => [{ f := d.toNat, n := 2, even := true }]
  | .wrsr d _ => [{ f := d.toNat, uni := true }]
  | .mpop d _ => [{ f := d.toNat, rd := false, wr := true }]
  | .mfirst d _ => [{ f := d.toNat, rd := false, wr := true }]
  | .mtov d _ => [{ f := d.toNat, rd := false, wr := true }]
  | .vtom _ a => [{ f := a.toNat, uni := true }]
  | .shape d a => [{ f := d.toNat, rd := false, wr := true, fill := false }, { f := a.toNat, fill := false }]
  | .setg d => [{ f := d.toNat, fill := false, wr := true }]
  | .squeeze d => [{ f := d.toNat, wr := true }]
  | .launch d b o _ => [{ f := d.toNat, rd := false, wr := true }] ++ memOpnds b o
  | .bqr a => [{ f := a.toNat, uni := true }]
  | .add d a b => [{ f := d.toNat, rd := false, wr := true }, { f := a.toNat }, { f := b.toNat }]
  | .sub d a b => [{ f := d.toNat, rd := false, wr := true }, { f := a.toNat }, { f := b.toNat }]
  | .add64 d a b => [{ f := d.toNat, n := 2, even := true, rd := false, wr := true }, { f := a.toNat, n := 2, even := true }, { f := b.toNat, n := 2, even := true }]
  | .sub64 d a b => [{ f := d.toNat, n := 2, even := true, rd := false, wr := true }, { f := a.toNat, n := 2, even := true }, { f := b.toNat, n := 2, even := true }]
  | .neg d a => [{ f := d.toNat, rd := false, wr := true }, { f := a.toNat }]
  | .abs d a => [{ f := d.toNat, rd := false, wr := true }, { f := a.toNat }]
  | .addi d a _ => [{ f := d.toNat, rd := false, wr := true }, { f := a.toNat }]
  | .mulLo d a b => [{ f := d.toNat, rd := false, wr := true }, { f := a.toNat }, { f := b.toNat }]
  | .mulHiI d a b => [{ f := d.toNat, rd := false, wr := true }, { f := a.toNat }, { f := b.toNat }]
  | .mulHiN d a b => [{ f := d.toNat, rd := false, wr := true }, { f := a.toNat }, { f := b.toNat }]
  | .madLo d a b => [{ f := d.toNat, wr := true }, { f := a.toNat }, { f := b.toNat }]
  | .mulWideI d a b => [{ f := d.toNat, n := 2, even := true, rd := false, wr := true }, { f := a.toNat }, { f := b.toNat }]
  | .mulWideN d a b => [{ f := d.toNat, n := 2, even := true, rd := false, wr := true }, { f := a.toNat }, { f := b.toNat }]
  | .minI d a b => [{ f := d.toNat, rd := false, wr := true }, { f := a.toNat }, { f := b.toNat }]
  | .maxI d a b => [{ f := d.toNat, rd := false, wr := true }, { f := a.toNat }, { f := b.toNat }]
  | .minN d a b => [{ f := d.toNat, rd := false, wr := true }, { f := a.toNat }, { f := b.toNat }]
  | .maxN d a b => [{ f := d.toNat, rd := false, wr := true }, { f := a.toNat }, { f := b.toNat }]
  | .and d a b => [{ f := d.toNat, rd := false, wr := true }, { f := a.toNat }, { f := b.toNat }]
  | .or d a b => [{ f := d.toNat, rd := false, wr := true }, { f := a.toNat }, { f := b.toNat }]
  | .xor d a b => [{ f := d.toNat, rd := false, wr := true }, { f := a.toNat }, { f := b.toNat }]
  | .andn d a b => [{ f := d.toNat, rd := false, wr := true }, { f := a.toNat }, { f := b.toNat }]
  | .not d a => [{ f := d.toNat, rd := false, wr := true }, { f := a.toNat }]
  | .andi d a _ => [{ f := d.toNat, rd := false, wr := true }, { f := a.toNat }]
  | .ori d a _ => [{ f := d.toNat, rd := false, wr := true }, { f := a.toNat }]
  | .xori d a _ => [{ f := d.toNat, rd := false, wr := true }, { f := a.toNat }]
  | .shl d a b => [{ f := d.toNat, rd := false, wr := true }, { f := a.toNat }, { f := b.toNat }]
  | .shr d a b => [{ f := d.toNat, rd := false, wr := true }, { f := a.toNat }, { f := b.toNat }]
  | .sar d a b => [{ f := d.toNat, rd := false, wr := true }, { f := a.toNat }, { f := b.toNat }]
  | .rotl d a b => [{ f := d.toNat, rd := false, wr := true }, { f := a.toNat }, { f := b.toNat }]
  | .shl64 d a b => [{ f := d.toNat, n := 2, even := true, rd := false, wr := true }, { f := a.toNat, n := 2, even := true }, { f := b.toNat }]
  | .shr64 d a b => [{ f := d.toNat, n := 2, even := true, rd := false, wr := true }, { f := a.toNat, n := 2, even := true }, { f := b.toNat }]
  | .sar64 d a b => [{ f := d.toNat, n := 2, even := true, rd := false, wr := true }, { f := a.toNat, n := 2, even := true }, { f := b.toNat }]
  | .shli d a _ => [{ f := d.toNat, rd := false, wr := true }, { f := a.toNat }]
  | .shri d a _ => [{ f := d.toNat, rd := false, wr := true }, { f := a.toNat }]
  | .sari d a _ => [{ f := d.toNat, rd := false, wr := true }, { f := a.toNat }]
  | .rotli d a _ => [{ f := d.toNat, rd := false, wr := true }, { f := a.toNat }]
  | .popc d a => [{ f := d.toNat, rd := false, wr := true }, { f := a.toNat }]
  | .clz d a => [{ f := d.toNat, rd := false, wr := true }, { f := a.toNat }]
  | .brev d a => [{ f := d.toNat, rd := false, wr := true }, { f := a.toNat }]
  | .bfeI d a b => [{ f := d.toNat, rd := false, wr := true }, { f := a.toNat }, { f := b.toNat }]
  | .bfeN d a b => [{ f := d.toNat, rd := false, wr := true }, { f := a.toNat }, { f := b.toNat }]
  | .bfi d a b => [{ f := d.toNat, wr := true }, { f := a.toNat }, { f := b.toNat }]
  | .cmp _ a b _ => [{ f := a.toNat }, { f := b.toNat }]
  | .sel d a b _ => [{ f := d.toNat, rd := false, wr := true }, { f := a.toNat }, { f := b.toNat }]
  | .mov d a => [{ f := d.toNat, rd := false, wr := true }, { f := a.toNat }]
  | .lane d => [{ f := d.toNat, rd := false, wr := true }]
  | .shfl d a b => [{ f := d.toNat, rd := false, wr := true }, { f := a.toNat }, { f := b.toNat }]
  | .shflUp d a b => [{ f := d.toNat, rd := false, wr := true }, { f := a.toNat }, { f := b.toNat }]
  | .shflDn d a b => [{ f := d.toNat, rd := false, wr := true }, { f := a.toNat }, { f := b.toNat }]
  | .shflX d a b => [{ f := d.toNat, rd := false, wr := true }, { f := a.toNat }, { f := b.toNat }]
  | .bcast d a b => [{ f := d.toNat, rd := false, wr := true }, { f := a.toNat }, { f := b.toNat, uni := true }]
  | .red d a _ => [{ f := d.toNat, rd := false, wr := true }, { f := a.toNat }]
  | .scanAddI d a => [{ f := d.toNat, rd := false, wr := true }, { f := a.toNat }]
  | .scanAddF32 d a => [{ f := d.toNat, rd := false, wr := true }, { f := a.toNat }]
  | .dp4I8 d a b => [{ f := d.toNat, wr := true }, { f := a.toNat }, { f := b.toNat }]
  | .dp4N8 d a b => [{ f := d.toNat, wr := true }, { f := a.toNat }, { f := b.toNat }]
  | .dp2I16 d a b => [{ f := d.toNat, wr := true }, { f := a.toNat }, { f := b.toNat }]
  | .cmp64 _ a b _ => [{ f := a.toNat, n := 2, even := true }, { f := b.toNat, n := 2, even := true }]
  | .fadd d a b => [{ f := d.toNat, rd := false, wr := true }, { f := a.toNat }, { f := b.toNat }]
  | .fsub d a b => [{ f := d.toNat, rd := false, wr := true }, { f := a.toNat }, { f := b.toNat }]
  | .fmul d a b => [{ f := d.toNat, rd := false, wr := true }, { f := a.toNat }, { f := b.toNat }]
  | .fmin d a b => [{ f := d.toNat, rd := false, wr := true }, { f := a.toNat }, { f := b.toNat }]
  | .fmax d a b => [{ f := d.toNat, rd := false, wr := true }, { f := a.toNat }, { f := b.toNat }]
  | .fneg d a => [{ f := d.toNat, rd := false, wr := true }, { f := a.toNat }]
  | .fabs d a => [{ f := d.toNat, rd := false, wr := true }, { f := a.toNat }]
  | .ffma d a b => [{ f := d.toNat, wr := true }, { f := a.toNat }, { f := b.toNat }]
  | .ffms d a b => [{ f := d.toNat, wr := true }, { f := a.toNat }, { f := b.toNat }]
  | .fcmp _ a b _ => [{ f := a.toNat }, { f := b.toNat }]
  | .frcp d a _ => [{ f := d.toNat, rd := false, wr := true }, { f := a.toNat }]
  | .frsq d a _ => [{ f := d.toNat, rd := false, wr := true }, { f := a.toNat }]
  | .fsqrt d a _ => [{ f := d.toNat, rd := false, wr := true }, { f := a.toNat }]
  | .fexp2 d a _ => [{ f := d.toNat, rd := false, wr := true }, { f := a.toNat }]
  | .flog2 d a _ => [{ f := d.toNat, rd := false, wr := true }, { f := a.toNat }]
  | .fsin d a _ => [{ f := d.toNat, rd := false, wr := true }, { f := a.toNat }]
  | .fcos d a _ => [{ f := d.toNat, rd := false, wr := true }, { f := a.toNat }]
  | .ftanh d a _ => [{ f := d.toNat, rd := false, wr := true }, { f := a.toNat }]
  | .dadd d a b => [{ f := d.toNat, n := 2, even := true, rd := false, wr := true }, { f := a.toNat, n := 2, even := true }, { f := b.toNat, n := 2, even := true }]
  | .dsub d a b => [{ f := d.toNat, n := 2, even := true, rd := false, wr := true }, { f := a.toNat, n := 2, even := true }, { f := b.toNat, n := 2, even := true }]
  | .dmul d a b => [{ f := d.toNat, n := 2, even := true, rd := false, wr := true }, { f := a.toNat, n := 2, even := true }, { f := b.toNat, n := 2, even := true }]
  | .dfma d a b => [{ f := d.toNat, n := 2, even := true, wr := true }, { f := a.toNat, n := 2, even := true }, { f := b.toNat, n := 2, even := true }]
  | .dmin d a b => [{ f := d.toNat, n := 2, even := true, rd := false, wr := true }, { f := a.toNat, n := 2, even := true }, { f := b.toNat, n := 2, even := true }]
  | .dmax d a b => [{ f := d.toNat, n := 2, even := true, rd := false, wr := true }, { f := a.toNat, n := 2, even := true }, { f := b.toNat, n := 2, even := true }]
  | .dcmp _ a b _ => [{ f := a.toNat, n := 2, even := true }, { f := b.toNat, n := 2, even := true }]
  | .hadd2F16 d a b => [{ f := d.toNat, rd := false, wr := true }, { f := a.toNat }, { f := b.toNat }]
  | .hmul2F16 d a b => [{ f := d.toNat, rd := false, wr := true }, { f := a.toNat }, { f := b.toNat }]
  | .hfma2F16 d a b => [{ f := d.toNat, wr := true }, { f := a.toNat }, { f := b.toNat }]
  | .hadd2Bf16 d a b => [{ f := d.toNat, rd := false, wr := true }, { f := a.toNat }, { f := b.toNat }]
  | .hmul2Bf16 d a b => [{ f := d.toNat, rd := false, wr := true }, { f := a.toNat }, { f := b.toNat }]
  | .hfma2Bf16 d a b => [{ f := d.toNat, wr := true }, { f := a.toNat }, { f := b.toNat }]
  | .fclass d a => [{ f := d.toNat, rd := false, wr := true }, { f := a.toNat }]
  | .fcopysign d a b => [{ f := d.toNat, rd := false, wr := true }, { f := a.toNat }, { f := b.toNat }]
  | .ffrac d a => [{ f := d.toNat, rd := false, wr := true }, { f := a.toNat }]
  | .fround d a => [{ f := d.toNat, rd := false, wr := true }, { f := a.toNat }]
  | .mxpack d a _ => [{ f := d.toNat, n := 2, even := true, rd := false, wr := true }, { f := a.toNat, even := true }, { f := a.toNat + 1, uni := true }]
  | .mxunpack d a _ => [{ f := d.toNat, even := true, rd := false, wr := true }, { f := a.toNat, even := true }, { f := a.toNat + 1, uni := true }]
  | .qpack4 d a _ => [{ f := d.toNat, n := 2, even := true, rd := false, wr := true }, { f := a.toNat, even := true }, { f := a.toNat + 1, uni := true }]
  | .qunpack4 d a _ => [{ f := d.toNat, even := true, rd := false, wr := true }, { f := a.toNat, even := true }, { f := a.toNat + 1, uni := true }]
  | .ldB8n d b o _ => [{ f := d.toNat, rd := false, wr := true }] ++ memOpnds b o
  | .ldB8i d b o _ => [{ f := d.toNat, rd := false, wr := true }] ++ memOpnds b o
  | .ldB16n d b o _ => [{ f := d.toNat, rd := false, wr := true }] ++ memOpnds b o
  | .ldB16i d b o _ => [{ f := d.toNat, rd := false, wr := true }] ++ memOpnds b o
  | .ldB32 d b o _ => [{ f := d.toNat, rd := false, wr := true }] ++ memOpnds b o
  | .ldB64 d b o _ => [{ f := d.toNat, n := 2, even := true, rd := false, wr := true }] ++ memOpnds b o
  | .ldB128 d b o _ => [{ f := d.toNat, n := 4, even := true, rd := false, wr := true }] ++ memOpnds b o
  | .ldAcqB32 d b o _ => [{ f := d.toNat, rd := false, wr := true }] ++ memOpnds b o
  | .ldAcqB64 d b o _ => [{ f := d.toNat, n := 2, even := true, rd := false, wr := true }] ++ memOpnds b o
  | .ldpB32 d b o _ => [{ f := d.toNat, rd := false, wr := true }] ++ memOpnds b o
  | .ldpB64 d b o _ => [{ f := d.toNat, n := 2, even := true, rd := false, wr := true }] ++ memOpnds b o
  | .stB8 d b o _ => [{ f := d.toNat }] ++ memOpnds b o
  | .stB16 d b o _ => [{ f := d.toNat }] ++ memOpnds b o
  | .stB32 d b o _ => [{ f := d.toNat }] ++ memOpnds b o
  | .stB64 d b o _ => [{ f := d.toNat, n := 2, even := true }] ++ memOpnds b o
  | .stB128 d b o _ => [{ f := d.toNat, n := 4, even := true }] ++ memOpnds b o
  | .stRelB32 d b o _ => [{ f := d.toNat }] ++ memOpnds b o
  | .stRelB64 d b o _ => [{ f := d.toNat, n := 2, even := true }] ++ memOpnds b o
  | .prefetch b o _ => memOpnds b o
  | .cinvLine b o _ => memOpnds b o
  | .cflushLine b o _ => memOpnds b o
  | .cinvPage b o _ => memOpnds b o
  | .atomAdd32 d b o _ => [{ f := d.toNat, wr := true }] ++ memOpnds b o
  | .atomAdd64 d b o _ => [{ f := d.toNat, n := 2, even := true, wr := true }] ++ memOpnds b o
  | .atomMinI32 d b o _ => [{ f := d.toNat, wr := true }] ++ memOpnds b o
  | .atomMaxI32 d b o _ => [{ f := d.toNat, wr := true }] ++ memOpnds b o
  | .atomMinN32 d b o _ => [{ f := d.toNat, wr := true }] ++ memOpnds b o
  | .atomMaxN32 d b o _ => [{ f := d.toNat, wr := true }] ++ memOpnds b o
  | .atomAnd d b o _ => [{ f := d.toNat, wr := true }] ++ memOpnds b o
  | .atomOr d b o _ => [{ f := d.toNat, wr := true }] ++ memOpnds b o
  | .atomXor d b o _ => [{ f := d.toNat, wr := true }] ++ memOpnds b o
  | .atomXchg32 d b o _ => [{ f := d.toNat, wr := true }] ++ memOpnds b o
  | .atomXchg64 d b o _ => [{ f := d.toNat, n := 2, even := true, wr := true }] ++ memOpnds b o
  | .atomCas32 d b o _ => [{ f := d.toNat, wr := true }, { f := d.toNat + 1 }] ++ memOpnds b o
  | .atomCas64 d b o _ => [{ f := d.toNat, n := 2, even := true, wr := true }, { f := d.toNat + 2, n := 2 }] ++ memOpnds b o
  | .atomFaddF32 d b o _ => [{ f := d.toNat, wr := true }] ++ memOpnds b o
  | .mwait d b o _ => [{ f := d.toNat, n := 2, even := true, wr := true }] ++ memOpnds b o
  | .musArm d b o _ => [{ f := d.toNat, n := 2, even := true, uni := true }] ++ memOpnds b o
  | .musJoin d b o _ => [{ f := d.toNat, rd := false, wr := true }] ++ memOpnds b o
  | .musOwe d b o _ => [{ f := d.toNat, uni := true }] ++ memOpnds b o
  | .musHold d b o _ => [{ f := d.toNat, uni := true }] ++ memOpnds b o
  | .tdef d _ _ => [{ f := d.toNat, n := 3, uni := true }]
  | .town d a _ => [{ f := d.toNat, rd := false, wr := true }, { f := a.toNat, uni := true }]
  | .twait a _ => [{ f := a.toNat, uni := true }]
  | .tgive a _ => [{ f := a.toNat, uni := true }]
  | .cpy d _ _ => [{ f := d.toNat, n := 8, uni := true }]
  | .cpyg d i _ _ => [{ f := d.toNat, n := 8, uni := true }, { f := i.toNat, even := true }]
  | .cpyc d _ _ => [{ f := d.toNat, n := 8, uni := true }]
  | .rdwp d a _ => [{ f := d.toNat, n := 2, even := true, rd := false, wr := true }, { f := a.toNat, uni := true }]
  | .rdcsum d a _ => [{ f := d.toNat, rd := false, wr := true }, { f := a.toNat, uni := true }]
  | .selk d _ _ => [{ f := d.toNat, n := 8, uni := true }]
  | .qput _ a _ => [{ f := a.toNat, n := 2, even := true, uni := true }]
  | .qget d _ _ => [{ f := d.toNat, n := 2, even := true, rd := false, wr := true }]
  | .qtry d _ _ => [{ f := d.toNat, n := 2, even := true, rd := false, wr := true }]
  | .qlen d _ _ => [{ f := d.toNat, rd := false, wr := true }]
  | .fput d b o _ => [{ f := d.toNat, n := 3, even := true, uni := true }] ++ memOpnds b o
  | .fsig d b o _ => [{ f := d.toNat, n := 2, even := true, uni := true }] ++ memOpnds b o
  | .mzero a => [{ f := a.toNat }]
  | .mlda d b o _ => [{ f := d.toNat }] ++ memOpnds b o
  | .mbq d => [{ f := d.toNat, rd := false, wr := true }]
  | .mma d a b _ => [{ f := d.toNat }, { f := a.toNat }, { f := b.toNat }]
  | .mdrain d a b _ => [{ f := d.toNat }, { f := a.toNat }, { f := b.toNat }]
  | .mscale d a => [{ f := d.toNat }, { f := a.toNat }]
  | .mdone d => [{ f := d.toNat, rd := false, wr := true }]
  | _ => []

/-- The lookahead of a long-latency instruction (R41, R131). -/
def Instr.lookahead : Instr → Option Nat
  | .launch _ _ _ l => some l.toNat
  | .frcp _ _ l => some l.toNat
  | .frsq _ _ l => some l.toNat
  | .fsqrt _ _ l => some l.toNat
  | .fexp2 _ _ l => some l.toNat
  | .flog2 _ _ l => some l.toNat
  | .fsin _ _ l => some l.toNat
  | .fcos _ _ l => some l.toNat
  | .ftanh _ _ l => some l.toNat
  | .cvt _ _ _ _ l => some l.toNat
  | .mxpack _ _ l => some l.toNat
  | .mxunpack _ _ l => some l.toNat
  | .qpack4 _ _ l => some l.toNat
  | .qunpack4 _ _ l => some l.toNat
  | .ldB8n _ _ _ l => some l.toNat
  | .ldB8i _ _ _ l => some l.toNat
  | .ldB16n _ _ _ l => some l.toNat
  | .ldB16i _ _ _ l => some l.toNat
  | .ldB32 _ _ _ l => some l.toNat
  | .ldB64 _ _ _ l => some l.toNat
  | .ldB128 _ _ _ l => some l.toNat
  | .ldAcqB32 _ _ _ l => some l.toNat
  | .ldAcqB64 _ _ _ l => some l.toNat
  | .ldpB32 _ _ _ l => some l.toNat
  | .ldpB64 _ _ _ l => some l.toNat
  | .stB8 _ _ _ l => some l.toNat
  | .stB16 _ _ _ l => some l.toNat
  | .stB32 _ _ _ l => some l.toNat
  | .stB64 _ _ _ l => some l.toNat
  | .stB128 _ _ _ l => some l.toNat
  | .stRelB32 _ _ _ l => some l.toNat
  | .stRelB64 _ _ _ l => some l.toNat
  | .prefetch _ _ l => some l.toNat
  | .cinvLine _ _ l => some l.toNat
  | .cflushLine _ _ l => some l.toNat
  | .cinvPage _ _ l => some l.toNat
  | .atomAdd32 _ _ _ l => some l.toNat
  | .atomAdd64 _ _ _ l => some l.toNat
  | .atomMinI32 _ _ _ l => some l.toNat
  | .atomMaxI32 _ _ _ l => some l.toNat
  | .atomMinN32 _ _ _ l => some l.toNat
  | .atomMaxN32 _ _ _ l => some l.toNat
  | .atomAnd _ _ _ l => some l.toNat
  | .atomOr _ _ _ l => some l.toNat
  | .atomXor _ _ _ l => some l.toNat
  | .atomXchg32 _ _ _ l => some l.toNat
  | .atomXchg64 _ _ _ l => some l.toNat
  | .atomCas32 _ _ _ l => some l.toNat
  | .atomCas64 _ _ _ l => some l.toNat
  | .atomFaddF32 _ _ _ l => some l.toNat
  | .musArm _ _ _ l => some l.toNat
  | .musJoin _ _ _ l => some l.toNat
  | .musOwe _ _ _ l => some l.toNat
  | .musHold _ _ _ l => some l.toNat
  | .tdef _ _ l => some l.toNat
  | .town _ _ l => some l.toNat
  | .twait _ l => some l.toNat
  | .tgive _ l => some l.toNat
  | .cpy _ _ l => some l.toNat
  | .cpyg _ _ _ l => some l.toNat
  | .cpyc _ _ l => some l.toNat
  | .rdwp _ _ l => some l.toNat
  | .rdcsum _ _ l => some l.toNat
  | .selk _ _ l => some l.toNat
  | .qput _ _ l => some l.toNat
  | .qget _ _ l => some l.toNat
  | .qlen _ _ l => some l.toNat
  | .fput _ _ _ l => some l.toNat
  | .fsig _ _ _ l => some l.toNat
  | .mlda _ _ _ l => some l.toNat
  | .qtry _ _ _ => some 0
  | _ => none

/-- Masks that an instruction names as operands, besides m0 (R42). -/
def Instr.masksRead : Instr → List Nat
  | .bra _ m _ => [m.toNat]
  | .call _ m _ => [m.toNat]
  | .sel _ _ _ m => [m.toNat]
  | .mand _ a b => [a.toNat, b.toNat]
  | .mor _ a b => [a.toNat, b.toNat]
  | .mxor _ a b => [a.toNat, b.toNat]
  | .mandn _ a b => [a.toNat, b.toNat]
  | .mnot _ a => [a.toNat]
  | .mmov _ a => [a.toNat]
  | .mpop _ a => [a.toNat]
  | .mfirst _ a => [a.toNat]
  | .mtov _ a => [a.toNat]
  | _ => []

/-- Masks that an instruction writes (R41). -/
def Instr.masksWritten : Instr → List Nat
  | .mand d _ _ => [d.toNat]
  | .mor d _ _ => [d.toNat]
  | .mxor d _ _ => [d.toNat]
  | .mandn d _ _ => [d.toNat]
  | .mnot d _ => [d.toNat]
  | .mmov d _ => [d.toNat]
  | .vtom d _ => [d.toNat]
  | .mall d => [d.toNat]
  | .cmp d _ _ _ => [d.toNat]
  | .cmp64 d _ _ _ => [d.toNat]
  | .fcmp d _ _ _ => [d.toNat]
  | .dcmp d _ _ _ => [d.toNat]
  | .ldpB32 _ _ _ _ => [15]
  | .ldpB64 _ _ _ _ => [15]
  | .qtry _ _ m => [m.toNat]
  | _ => []

/-- Path instructions: they take effect whenever their path issues them (R149, R221). -/
def Instr.isPath : Instr → Bool
  | .nop | .regionEntry | .regionExit | .regionCloseReopen | .reconv | .reconvS | .bra _ _ _ | .call _ _ _ | .chkp _ _ | .yield | .winb _
  | .halt | .mand _ _ _ | .mor _ _ _ | .mxor _ _ _ | .mandn _ _ _ | .mnot _ _ | .mmov _ _ | .vtom _ _ | .mall _ | .setg _ | .squeeze _
  | .bqh _ _ | .bqr _ | .barTeam | .barRole => true
  | _ => false

/-- Instructions that trap 0x31 while a region is open (R59). -/
def Instr.barredInRegion : Instr → Bool
  | .atomAdd32 _ _ _ _ | .atomAdd64 _ _ _ _ | .atomMinI32 _ _ _ _ | .atomMaxI32 _ _ _ _ | .atomMinN32 _ _ _ _ | .atomMaxN32 _ _ _ _
  | .atomAnd _ _ _ _ | .atomOr _ _ _ _ | .atomXor _ _ _ _ | .atomXchg32 _ _ _ _ | .atomXchg64 _ _ _ _ | .atomCas32 _ _ _ _
  | .atomCas64 _ _ _ _ | .atomFaddF32 _ _ _ _ | .stRelB32 _ _ _ _ | .stRelB64 _ _ _ _ | .qput _ _ _ | .cpy _ _ _ | .cpyg _ _ _ _
  | .cpyc _ _ _ | .selk _ _ _ | .fput _ _ _ _ | .fsig _ _ _ _ | .tgive _ _ | .musJoin _ _ _ _ | .launch _ _ _ _ | .reform _ => true
  | .fence i => i.toNat / 16 % 2 == 1
  | _ => false

/-- The address or record operand that must have one value over the active lanes (R165, R175, R209, R222, R237): base and offset fields with
the scale of the map (R133, R136). -/
def Instr.oneAddr : Instr → Option (BitVec 7 × BitVec 7 × Nat)
  | .launch _ b o _ => some (b, o, 128)
  | .musArm _ b o _ | .musJoin _ b o _ | .musOwe _ b o _ | .musHold _ b o _ => some (b, o, 16)
  | .fput _ b o _ | .fsig _ b o _ => some (b, o, 8)
  | .tret d => some (d, 64, 0)
  | _ => none

/-- Special registers that rdsr reads on a vector core, and on the keystone (R145, R245). -/
def srListed (key : Bool) (n : Nat) : Bool :=
  if key then [8, 9, 10, 12, 13, 14, 0x10, 0x11, 0x12, 0x18, 0x20, 0x21, 0x22, 0x28, 0x29].contains n
  else [0, 1, 2, 3, 4, 5, 8, 9, 10, 12, 13, 14, 0x10, 0x11, 0x12, 0x18, 0x20, 0x21, 0x22, 0x23, 0x24, 0x25, 0x28, 0x29].contains n

/-- Special registers that wrsr writes (R145, R245). -/
def srWritable (key : Bool) (n : Nat) : Bool := if key then [0x20, 0x21].contains n else [0x20, 0x21, 0x23].contains n

/-- The fate of R243: the cause with which a keystone context rejects an instruction. -/
def keyFate : Instr → Option Nat
  | .halt | .tret _ => some 0x08
  | .regionEntry | .regionExit | .regionCloseReopen => some 0x02
  | .reconv | .reconvS | .reform _ | .winb _ | .lane _ | .shape _ _ | .setg _ | .squeeze _ | .launch _ _ _ _ | .bqh _ _ | .bqr _
  | .shfl _ _ _ | .shflUp _ _ _ | .shflDn _ _ _ | .shflX _ _ _ | .bcast _ _ _ | .red _ _ _ | .scanAddI _ _ | .scanAddF32 _ _
  | .barTeam | .barRole | .tdef _ _ _ | .cpy _ _ _ | .cpyg _ _ _ _ | .cpyc _ _ _ | .selk _ _ _ | .fput _ _ _ _ | .fsig _ _ _ _ => some 0x01
  | _ => none

/-- Matrix instructions, which trap 0x07 on a vector core (R137). -/
def Instr.isMatrix : Instr → Bool
  | .mzero _ | .mlda _ _ _ _ | .mbq _ | .mma _ _ _ _ | .mdrain _ _ _ _ | .mscale _ _ | .mdone _ => true
  | _ => false

end Sys2Proof

namespace Sys2Proof.Machine

/-- What the effect of an instruction sees: the state with its operands filled back, its group and team, its active lanes, its path. -/
structure Ctx where
  s : State
  g : Group
  t : Team
  act : W32
  path : W32
  pc : W64

/-- The register that a field names (R125, R242); a keystone context has 128 registers (log 18). -/
def regOf (g : Group) (f : Nat) : Nat := if g.key.isSome then f % 128 else g.winb + f

/-- A keystone context issues. -/
def Ctx.key (c : Ctx) : Bool := c.g.key.isSome

/-- The register that a field names. -/
def Ctx.r (c : Ctx) (f : Nat) : Nat := regOf c.g f

/-- The shape of an operand; a keystone register is U (R242). -/
def Ctx.sh (c : Ctx) (f : BitVec 7) : Shape := (c.g.reg (c.r f.toNat)).shape

/-- Lane(f, l). -/
def Ctx.lv (c : Ctx) (f : BitVec 7) (l : Nat) : W32 := (c.sh f).at l

/-- Lane(f + k, l). -/
def Ctx.lvk (c : Ctx) (f : BitVec 7) (k l : Nat) : W32 := (c.g.reg (c.r (f.toNat + k))).shape.at l

/-- Pair(f, l). -/
def Ctx.pv (c : Ctx) (f : BitVec 7) (l : Nat) : W64 := c.lvk f 1 l ++ c.lvk f 0 l

/-- The value of a U operand (R147). -/
def Ctx.uv (c : Ctx) (f : BitVec 7) : W32 := c.lv f 0

/-- The value of a U operand k registers on. -/
def Ctx.uvk (c : Ctx) (f : BitVec 7) (k : Nat) : W32 := c.lvk f k 0

/-- The operand pair is U (R32). -/
def Ctx.pairU (c : Ctx) (f : BitVec 7) : Bool := (c.sh f).isU && (c.g.reg (c.r (f.toNat + 1))).shape.isU

/-- The active lanes in ascending order. -/
def Ctx.lanes (c : Ctx) : List Nat := lanesOf c.act

/-- The lowest active lane. -/
def Ctx.first (c : Ctx) : Nat := lowestLane c.act

/-- Offset of R128 for lane l. -/
def Ctx.off (c : Ctx) (o : BitVec 7) (scale l : Nat) : W64 :=
  if o.toNat < 64 then (c.lv o l).signExtend 64 else BitVec.ofNat 64 (o.toNat % 64 * scale)

/-- Addr(l) (R128, R147). -/
def Ctx.addr (c : Ctx) (b o : BitVec 7) (scale l : Nat) : W64 := c.pv b l + c.off o scale l

/-- The address is uniform by tags (R208). -/
def Ctx.addrU (c : Ctx) (b o : BitVec 7) : Bool := c.pairU b && (!(o.toNat < 64) || (c.sh o).isU)

/-- The length of the block of bqh (R176); where b is not U, as lane 0 has it (log 88). -/
def bqhLen (g : Group) (b : BitVec 7) : Nat := bits (g.val (regOf g b.toNat) 0).toNat 8 7 + 1

/-- The register operands, the block of bqh among them. -/
def opndsOf (g : Group) (i : Instr) : List Opnd :=
  match i with
  | .bqh a b => i.opnds ++ [{ f := a.toNat, n := bqhLen g b }]
  | _ => i.opnds

/-- The registers of an operand. -/
def opndRegs (g : Group) (o : Opnd) : List Nat := (upto o.n).map fun k => regOf g (o.f + k)

/-- The region check of R59 applies. -/
def regionBars (g : Group) (i : Instr) : Bool := g.region.isSome && i.barredInRegion

/-- The checks of R140 that hold for the instruction as a whole: 0x01, 0x02, 0x03, 0x06, 0x07, 0x08, 0x09 and the 0x31 of R59. A
word of a matrix major on a vector core raises 0x07 alone. -/
def wordCauses (c : Ctx) (i : Instr) : List Nat :=
  let g := c.g
  let key := g.key.isSome
  let os := opndsOf g i
  if !key && i.isMatrix then [0x07] else
  let fate := if key then (match keyFate i with | some x => [x] | none => []) else []
  let sr := match i with
    | .rdsr _ n => if srListed key n.toNat then [] else [0x01]
    | .wrsr _ n => if srWritable key n.toNat then [] else [0x01]
    | _ => []
  let kind := match i with
    | .mxpack _ a _ | .mxunpack _ a _ => if bits (c.lvk a 1 0).toNat 0 3 < 5 || !(c.g.reg (c.r (a.toNat + 1))).shape.isU then [] else [0x02]
    | _ => []
  let blk := match i with
    | .bqh a b => if a.toNat + bqhLen g b ≤ 128 then [] else [0x06]
    | _ => []
  let priv := match i with
    | .tret _ | .halt => if key || (g.lane (lowestLane c.path)).handler then [] else [0x08]
    | _ => []
  let one := match i.oneAddr with
    | some (b, o, k) => if key then [] else if c.lanes.all fun l => c.addr b o k l == c.addr b o k c.first then [] else [0x09]
    | none => []
  (if selectorOk i then [] else [0x01]) ++ sr ++ fate ++ (if reservedOk i then [] else [0x02]) ++ kind
    ++ (if os.any fun o => o.even && o.f % 2 == 1 then [0x03] else [])
    ++ (if !key && os.any fun o => g.nregs < g.winb + o.f + o.n then [0x06] else []) ++ blk ++ priv
    ++ (if !key && os.any fun o => o.uni && !(opndRegs g o).all fun r => (g.reg r).shape.isU then [0x09] else []) ++ one
    ++ (if regionBars g i then [0x31] else [])

/-- Lanes whose call depth does not allow the instruction: 0x01 (R53, R159, R160). -/
def depthCause (c : Ctx) (i : Instr) (l : Nat) : Bool :=
  let d := (c.g.lane l).depth
  match i with
  | .call _ m _ => hasLane (c.g.mask m.toNat) l && 65535 ≤ d
  | .calli _ _ => 65535 ≤ d
  | .ret _ => d == 0
  | .reform _ => d != 0
  | _ => false

/-- The window registers v0 to v3 that tret writes, under the window base that it restores (R165). -/
def tretRegs (g : Group) : Instr → List Nat
  | .tret _ => match firstWhere (·.delivered) g.subs with
    | some u => (upto 4).map (winReg g u.winb)
    | none => []
  | _ => []

/-- Registers and masks that an instruction reads or writes. -/
def namedRegs (g : Group) (i : Instr) : List Nat := (opndsOf g i).flatMap (opndRegs g) ++ tretRegs g i
def namedMasks (i : Instr) : List Nat := 0 :: (i.masksRead ++ i.masksWritten)

/-- A pending instruction's destination set meets what the instruction names (R42). -/
def pendMeets (g : Group) (i : Instr) (p : Pending) : Bool :=
  (namedRegs g i).any (fun r => p.regs.contains r) || (namedMasks i).any fun m => p.masks.contains m

/-- The instruction lies inside the window of an active lane and names a member of the destination set (R42). -/
def lookaheadCause (c : Ctx) (i : Instr) : Bool :=
  c.g.pend.any fun p => pendMeets c.g i p && c.lanes.any fun l => nth 0 p.left l != 0

/-- It waits for a pending instruction (R41), or reads or writes %fpflags while one is pending (R181). -/
def scoreWait (g : Group) (i : Instr) : Option WaitKind :=
  let fl := match i with
    | .rdsr _ n | .wrsr _ n => n.toNat == 0x21
    | _ => false
  if fl && g.pend.any (fun p => !p.complete) then some .pipebusy
  else if g.pend.any (fun p => !p.complete && p.mem && pendMeets g i p) then some .memwait
  else if g.pend.any (fun p => !p.complete && pendMeets g i p) then some .lookahead
  else none

/-- A write of a held register waits (R176, R256); setg and squeeze write no value (R173, R174). -/
def pinWait (s : State) (g : Group) (i : Instr) : Bool :=
  g.key.isNone && (match i with | .setg _ | .squeeze _ => false | _ => true)
    && (((opndsOf g i).any fun o => o.wr && (opndRegs g o).any (pinned s g)) || (tretRegs g i).any (pinned s g))

/-- What the effect of an instruction answers: the state with its effects outside registers; register results (register, result); masks
written whole; flags raised; causes met by lanes; next program counters where they are not the next word; lanes whose state the effect set
itself; a wait, and whether the state changes while it waits. -/
structure Res where
  s : State
  regs : List (Nat × Shape) := []
  masks : List (Nat × W32) := []
  flags : W32 := 0
  hits : List Hit := []
  goto : List (Nat × W64) := []
  gone : W32 := 0
  /-- lanes that the register results are written for, of those that complete -/
  only : W32 := BitVec.allOnes 32
  wait : Option (WaitKind × W64) := none
  keep : Bool := false
  /-- what a load is to read again when a freeze finds it pending (R101) -/
  load : Option LateLoad := none

/-- The path that issues (R22, R23): the lanes of `State.cur` on a resident group. -/
def issuer (s : State) : Option Ctx :=
  match s.cur with
  | none => none
  | some i => (findGroup s i.who).map fun g =>
      { s := s, g := g, t := teamOf s g.team, act := i.lanes &&& g.mask 0, path := i.lanes, pc := i.pc }

/-- The watched part of a group is still held at a wait: a lane is at its instruction, RUNNING, WAITING at a barrier or halted (R364, R374), also while
its 0x42 sub-group runs the handler. -/
def heldAt (g : Group) (w : Wait) : Bool :=
  g.subs.any (fun u => u.cause == 0x42 && u.pc == w.pc) || lanes32.any fun l =>
    let x := g.lane l
    x.pc == w.pc && (x.st == .running || (x.st == .waiting && (x.at_ == .barTeam || x.at_ == .barRole)))

/-- Waits that no lane is held at any more are over. -/
def pruneWaits (g : Group) : Group := { g with waits := g.waits.filter (heldAt g) }

/-- The major opcode of an instruction (R124). -/
def majorOf (i : Instr) : Nat := match encode i with | some w => w.toNat / 2 ^ 25 | none => 0

/-- A path waits at an instruction: nothing else changes (R374, R400), but that it has had its turn (R25). -/
def waitState (s : State) (w : Who) (i : Instr) (kind : WaitKind) (m : W32) (pc addr : W64) : State :=
  modGroup (uncur s) w fun g =>
    let g1 := pruneWaits g
    let here (x : Wait) : Bool := x.kind == kind && x.pc == pc
    let mine := hasLane m g1.streakLane
    { g1 with
      waits := if g1.waits.any here then mapWhere here (fun x => { x with tried := s.cycle }) g1.waits
        else { kind := kind, pc := pc, major := majorOf i, addr := addr, since := s.timeFs, tried := s.cycle } :: g1.waits.filter fun x => x.pc != pc
      streak := if mine then g1.streak else 0
      streakLane := if mine then g1.streakLane else lowestLane m }

/-- Windows count down for the lanes of a path that has executed an instruction, those that are not active included (R41, R283). -/
def countWindows (ran : W32) (ps : List Pending) : List Pending :=
  (ps.map fun p => { p with left := lanes32.map fun l => if hasLane ran l then nth 0 p.left l - 1 else nth 0 p.left l }).filter
    fun p => !p.complete || p.left.any (· != 0)

/-- A long-latency instruction that completes for some lanes and has a destination set stays pending (R41). -/
def opensWindow (i : Instr) (done : W32) : Bool :=
  i.lookahead.isSome && done != 0 && (i.opnds.any (·.wr) || !i.masksWritten.isEmpty)

/-- The pending record of a long-latency instruction with a destination set (R41, R101, R181). -/
def openWindow (g : Group) (i : Instr) (done flags : W32) (load : Option LateLoad) : List Pending :=
  let regs := ((opndsOf g i).filter (·.wr)).flatMap (opndRegs g)
  match i.lookahead with
  | some n => if !opensWindow i done then []
    else [{ regs := regs, masks := i.masksWritten, left := lanes32.map (fun l => if hasLane done l then n else 0)
            mem := 0x40 ≤ majorOf i && majorOf i ≤ 0x62, flags := flags, load := load }]
  | none => []

/-- The next program counter of a lane of the path. -/
def nextPc (r : Res) (pc : W64) (l : Nat) : W64 := ((firstWhere (fun x => x.1 == l) r.goto).map (·.2)).getD (pc + 4)

/-- The pairs that hold a 64-bit result of the instruction (R32). -/
def pairsWritten (g : Group) (i : Instr) : List Nat :=
  match i with
  | .mxpack _ _ _ => []
  | .qpack4 _ _ _ => []
  | _ => ((opndsOf g i).filter fun o => o.wr && o.even && o.n == 2).map fun o => regOf g o.f

/-- The group after register results are written for some lanes, within its budget (R32, R33, R35). -/
def writeBack (s : State) (c : Ctx) (i : Instr) (rs : List (Nat × Shape)) (wr : W32) (g : Group) : Group :=
  let g0 := if wr = 0 then g else rs.foldl (fun g (x : Nat × Shape) => putReg g wr x.1 x.2) g
  fitBudget s (namedRegs g i) (if wr = 0 || rs.isEmpty then g0 else (pairsWritten c.g i).foldl joinPair g0)

/-- The instruction expands, spills, fills or squeezes a register (R34, R35, R174). -/
def reshapes (c : Ctx) (i : Instr) (g : Group) : Bool :=
  g.expands != c.g.expands || g.spills != c.g.spills || ((namedRegs c.g i).any fun r => (c.g.reg r).spilled)
    || match i with | .squeeze _ => true | _ => false

/-- The group after the instruction's results are written (R33, R35, R41, R44, R45, R49, R181). -/
def retire (s : State) (c : Ctx) (i : Instr) (r : Res) (g : Group) (done stopped : W32) : Group :=
  let g1 := r.masks.foldl (fun g (x : Nat × W32) => g.setMask x.1 x.2) (writeBack s c i r.regs (done &&& r.only) g)
  let g2 := g1.modLanes (c.path &&& ~~~stopped &&& ~~~r.gone) fun l x => { x with pc := nextPc r c.pc l }
  { g2 with
    fpflags := if opensWindow i done then g2.fpflags else g2.fpflags ||| r.flags
    pend := countWindows (c.path &&& ~~~stopped) g2.pend ++ openWindow c.g i done r.flags r.load
    issued := g2.issued + 1
    shaping := reshapes c i g2
    lastIssue := s.cycle + 1
    lastPath := if c.act = 0 then c.path else c.act
    lastPc := c.pc
    readyFor := 0
    waits := (pruneWaits g2).waits.filter fun x => x.pc != c.pc || x.kind == .barTeam || x.kind == .barRole
    got := g2.got.filter fun x => !(x.pc == c.pc && hasLane c.path x.lane)
    mism := 0
    streak := if hasLane c.path g2.streakLane then g2.streak + 1 else 1
    streakLane := if hasLane c.path g2.streakLane then g2.streakLane else lowestLane c.path }

/-- In a paired run the twin's paths issue as the primary's did (R62; log 81): the primary leaves the path and its address, the twin takes them. -/
def noteScript (c : Ctx) (s : State) : State :=
  if !isPaired c.t then s
  else if c.t.primary then
    match twinOf s c.g with
    | some h => modGroup s h.who fun h => { h with script := h.script ++ [(c.path, c.pc)] }
    | none => s
  else modGroup s c.g.who fun g => { g with script := if g.script.head? == some (c.path, c.pc) then g.script.drop 1 else [] }

/-- After the effect: results are written, the core's register file makes room (R37), and lanes that met causes take them (R44). -/
def finish (c : Ctx) (i : Instr) (r : Res) : State :=
  let w := c.g.who
  match r.wait with
  | some (k, a) => waitState (if r.keep then r.s else c.s) w i k c.path c.pc a
  | none =>
    match findGroup r.s w with
    | none => noteScript c (uncur r.s)
    | some g =>
      let stopped := laneSet fun l => r.hits.any fun h => h.lane == l
      let done := c.act &&& ~~~stopped
      let s1 := setGroup (uncur r.s) (retire r.s c i r g done stopped)
      let tile := groupTile s1 g
      let s2 := if g.key.isSome then s1 else makeRoom tile w s1.groups.length s1
      if g.key.isNone && !roomOk s2 tile && roomOk c.s tile then waitState c.s w i .expand c.path c.pc 0
      else raise (noteScript c s2) w done r.hits

/-- Causes of the checks before any effect: the same cause for every lane that the check covers, the lowest where several hold (R10, R140). -/
def checkHits (c : Ctx) (i : Instr) : List Hit :=
  let word := wordCauses c i
  let lanes := if i.isPath then c.path else c.act
  (lanesOf lanes).filterMap fun l =>
    let cs := word ++ (if hasLane c.act l && lookaheadCause c i then [0x04] else []) ++ (if hasLane c.act l && depthCause c i l then [0x01] else [])
    if cs.isEmpty then none else some { lane := l, cause := minNat 0 cs }

/-- The operands are filled back (R35). -/
def fillOps (c : Ctx) (i : Instr) : Ctx :=
  let os := opndsOf c.g i
  let part := c.g.live &&& ~~~c.act != 0
  let rs := (os.filter fun o => o.fill && (o.rd || part)).flatMap (opndRegs c.g)
  if rs.any fun r => (c.g.reg r).spilled then
    let g := fillRegs c.s (namedRegs c.g i) rs c.g
    { c with s := setGroup c.s g, g := g }
  else c

/-- An instruction with a word issues: without an active lane it has no effect unless it is a path instruction (R140, R149); the checks come
before any effect; then the waits for held registers and pending instructions; then its own effect. -/
def issueOn (c : Ctx) (i : Instr) (body : Ctx → Res) : State :=
  let w := c.g.who
  if c.act = 0 && !i.isPath then finish c i { s := c.s }
  else
    match checkHits c i with
    | [] =>
      match (if pinWait c.s c.g i then some WaitKind.matrixq else scoreWait c.g i) with
      | some k => waitState c.s w i k c.path c.pc 0
      | none => finish c i (body (fillOps c i))
    | h :: hs =>
      if wordCauses c i ≠ [] || lookaheadCause c i then raise (noteScript c (uncur c.s)) w 0 (h :: hs)
      else
        let bad := laneSet fun l => (h :: hs).any fun x => x.lane == l
        match (if pinWait c.s c.g i then some WaitKind.matrixq else scoreWait c.g i) with
        | some k => waitState c.s w i k c.path c.pc 0
        | none =>
          let r := body (fillOps { c with act := c.act &&& ~~~bad, path := c.path &&& ~~~bad } i)
          finish c i { r with hits := (h :: hs) ++ r.hits }

/-- The meaning of an instruction with a word: it issues on the path that `State.cur` names. -/
def issue (i : Instr) (s : State) (body : Ctx → Res) : Host.Outcome State Fault Refusal :=
  match issuer s with
  | none => .fault .noIssuingPath
  | some c => .next (issueOn c i body)

/-- The default shape (R141): U when every operand is U, else G. -/
def defaultShape (uni : Bool) (f : Nat → W32) : Shape := if uni then .u (f 0) else .ofFn f

/-- A 64-bit result into a pair (R32). -/
def pairRes (c : Ctx) (d : BitVec 7) (uni : Bool) (f : Nat → W64) : List (Nat × Shape) :=
  [(c.r d.toNat, (pairShapes uni f).1), (c.r (d.toNat + 1), (pairShapes uni f).2)]

/-- A U result. -/
def uRes (c : Ctx) (d : BitVec 7) (v : W32) : List (Nat × Shape) := [(c.r d.toNat, .u v)]

/-- A cause on every active lane, with the access it names. -/
def allHit (c : Ctx) (cause : Nat) (token addr : W64) (bytes kind : Nat) : List Hit :=
  c.lanes.map fun l => { lane := l, cause := cause, token := token, addr := addr, bytes := bytes, kind := kind }

end Sys2Proof.Machine
end

