-- ==== Sys2Proof/Machine/Fetch.lean ====
section
/-!
DEFINITION. Paths and instruction fetch (R21 to R25, R98, R124, R137, R139, R150, R241, R316): which lanes issue together, whether a path may issue,
and the word it fetches.
-/

namespace Sys2Proof.Machine

/-- Two lanes are on one path (R22); a resumed sub-group is a path of its own (R27), and lanes in handler mode are never joined with others. -/
def samePath (x y : Lane) : Bool :=
  x.st == .running && y.st == .running && x.pc == y.pc && x.depth == y.depth && x.tag == y.tag && x.handler == y.handler

/-- The path that holds lane l; empty when l is not RUNNING. -/
def pathOf (g : Group) (l : Nat) : W32 := laneSet fun k => samePath (g.lane l) (g.lane k)

/-- The lowest lanes of the paths of a group. -/
def pathHeads (g : Group) : List Nat := lanes32.filter fun l => lowestLane (pathOf g l) == l

/-- The group may issue: its team is resident, its core is not stopped (R56, R363), its slots are not in the park area
(R37), a group that executes halt waits for its doorbell (R166),
and a halted keystone context waits for RESUME (R367). -/
def mayIssue (s : State) (g : Group) : Bool :=
  let t := teamOf s g.team
  let c := coreOf s (groupTile s g)
  t.status == .resident && c.frozen.isNone && !c.dbgFrozen && !g.away && !g.halted && !(g.key.isSome && g.dbgHalt)

/-- A path has had its 1,024 issue slots while another path of the group is RUNNING (R25). -/
def pathSpent (g : Group) (m : W32) : Bool :=
  1024 ≤ g.streak && hasLane m g.streakLane && (pathHeads g).any fun l => !hasLane m l

/-- The wait that a path is held at: its instruction was tried and waits (R374, R400). -/
def pathWait (g : Group) (l : Nat) : Option Wait :=
  firstWhere (fun w => w.pc == (g.lane l).pc && w.kind != .barTeam && w.kind != .barRole) g.waits

/-- A path, by its lowest lane, is ready: it may issue and is held at no wait (R21, R25). -/
def pathReady (g : Group) (l : Nat) : Bool := !pathSpent g (pathOf g l) && (pathWait g l).isNone

/-- A group or keystone context is ready: one of its paths could issue now (R21, R241, R316). -/
def readyGroup (s : State) (g : Group) : Bool := mayIssue s g && (pathHeads g).any (pathReady g)

/-- It is ready, or waits at an instruction that this cycle has not tried. -/
def untried (s : State) (g : Group) : Bool :=
  mayIssue s g && (pathHeads g).any fun l => !pathSpent g (pathOf g l) && match pathWait g l with
    | some w => w.tried != s.cycle
    | none => true

/-- The vector groups of the quadrant of a group (R4). -/
def quadrantOf (s : State) (g : Group) : List Group :=
  s.groups.filter fun x => x.key.isNone && groupTile s x == groupTile s g && x.quad == g.quad

/-- The group holds an issue position of its quadrant (R316). -/
def isCurrent (s : State) (g : Group) : Bool := (coreOf s (groupTile s g)).current.contains (g.team, g.idx, g.residentAt)

/-- The group comes before another for a free position: it has not issued for 8,192 cycles and the other has, or else it is older (R316). -/
def before (s : State) (x g : Group) : Bool :=
  let late (y : Group) : Bool := 8192 + y.lastIssue ≤ s.cycle
  (late x && !late g) || (late x == late g && x.residentAt < g.residentAt)

/-- The cycles for which a ready group may be left without an issue (R21). -/
abbrev patience : Nat := 16384

/-- A group that holds one of the four issue positions of its quadrant, or that takes one: positions stay with the groups that can issue, and the
others go to the oldest (R316); the promise of R21 comes first. -/
def hasPosition (s : State) (g : Group) : Bool :=
  isCurrent s g || patience ≤ g.readyFor + 1 ||
    let q := (quadrantOf s g).filter fun x => x.idx != g.idx || x.team != g.team
    (q.filter fun x => isCurrent s x && readyGroup s x).length + (q.filter fun x => !isCurrent s x && untried s x && before s x g).length < 4

/-- The group takes its position (R316). -/
def takePosition (s : State) (g : Group) : State :=
  if g.key.isSome || isCurrent s g then s
  else
    let q := (quadrantOf s g).filter (isCurrent s)
    let stay := ((q.filter (readyGroup s) ++ q.filter fun x => !readyGroup s x).take 3).map fun x => (x.team, x.idx, x.residentAt)
    modCore s (groupTile s g) fun c => { c with
      current := (g.team, g.idx, g.residentAt) :: stay ++ c.current.filter fun y => !q.any fun x => (x.team, x.idx, x.residentAt) == y }

/-- The keystone contexts of a core. -/
def contextsOn (s : State) (tile : Nat) : List Group := s.groups.filter fun g => g.key.isSome && groupTile s g == tile

/-- The place of a context in the rotation of its core (R241). -/
def rotation (s : State) (g : Group) : Nat :=
  match g.key with
  | some k => (k.hw + 3 - (coreOf s (groupTile s g)).keyLast) % 4
  | none => 0

/-- The keystone core has issued in this cycle (R241). -/
def keyIssued (s : State) (tile : Nat) : Bool := (contextsOn s tile).any fun g => g.lastIssue == s.cycle + 1

/-- The turn of a keystone context: its core has not issued in this cycle, and no ready context comes before it (R241). -/
def hasContextTurn (s : State) (g : Group) : Bool :=
  let tile := groupTile s g
  !keyIssued s tile && !(contextsOn s tile).any fun x => rotation s x < rotation s g && untried s x

/-- The keystone context issues: the rotation goes on from it (R241). -/
def takeTurnOf (s : State) (g : Group) : State :=
  match g.key with
  | some k => modCore s (groupTile s g) fun c => { c with keyLast := k.hw }
  | none => s

/-- In a paired run the twin's paths issue as the primary's did (R62; log 81): while it has several, it takes the one that the primary took or is held
at. -/
def scriptAllows (s : State) (g : Group) (m : W32) (pc : W64) : Bool :=
  let t := teamOf s g.team
  if !isPaired t || t.primary || (pathHeads g).length ≤ 1 then true
  else
    match twinOf s g with
    | none => true
    | some h =>
      let heads := (pathHeads g).map fun l => (pathOf g l, (g.lane l).pc)
      match g.script with
      | x :: _ => if heads.contains x then x == (m, pc) else true
      | [] => (pathHeads h).any fun l => pathOf h l == m && (h.lane l).pc == pc && (pathWait h l).isSome

/-- A path may issue now (R21 to R25, R62, R241, R316): stores that are still in the core leave it first (R101; log 51). -/
def pathMayIssue (s : State) (g : Group) (l : Nat) : Bool :=
  mayIssue s g && (coreOf s (groupTile s g)).stores.isEmpty && !pathSpent g (pathOf g l) && scriptAllows s g (pathOf g l) (g.lane l).pc
    && if g.key.isSome then hasContextTurn s g else hasPosition s g

/-- The paths of the package that may issue: who, and the lowest lane. -/
def readyPaths (s : State) : List (Who × Nat) :=
  s.groups.flatMap fun g => ((pathHeads g).filter (pathMayIssue s g)).map fun l => (g.who, l)

/-- A ready group has waited as long as R21 lets it, an instruction that waits has not been tried for as long, or a keystone core has a context to
issue in this cycle (R21, R241): the cycle does not end before it has issued. -/
def owesIssue (s : State) (g : Group) (l : Nat) : Bool :=
  pathMayIssue s g l && if g.key.isSome then (match pathWait g l with | some w => w.tried != s.cycle | none => true)
    else match pathWait g l with
      | some w => w.tried + patience ≤ s.cycle + 1
      | none => patience ≤ g.readyFor + 1

/-- The paths that the cycle owes an issue. -/
def owedPaths (s : State) : List (Who × Nat) :=
  s.groups.flatMap fun g => ((pathHeads g).filter (owesIssue s g)).map fun l => (g.who, l)

/-- The agent that a lane or a keystone context is (R91). -/
def agentOf (g : Group) (l : Nat) : Agent := if g.key.isSome then .key g.team else .lane g.team (g.lane l).tid.toNat

/-- The lanes of a group, as agents. -/
def matesOf (g : Group) : List Agent := if g.key.isSome then [] else lanes32.map fun l => .lane g.team (g.lane l).tid.toNat

/-- The accesses of a lane (R335): outside handler mode, and for a keystone context, the leaf needs U. -/
def laneEnv (s : State) (g : Group) (l : Nat) : Env :=
  let c := contextOf s (teamOf s g.team).ctx
  { asid := c.asid, root := c.root, team := some g.team, needU := !(g.lane l).handler, walker := .core (groupTile s g)
    agent := some (agentOf g l), order := orderOf s (agentOf g l), mates := matesOf g
    gate := match g.region with | some r => r.gate | none => []
    cached := true }

/-- What a fetch finds. -/
inductive Fetched where
  | word (w : BitVec 32)
  | stop (cause : Nat) (token : W64)
deriving Repr

/-- The word at a place: the word there now, or one that was replaced by a write that no ifence of the core makes it fetch, as the device chooses
(R98). -/
def fetchSpot (s : State) (tile : Nat) : Spot → State × BitVec 32
  | .mem _ n t pa =>
    if leafBit t.leaf 15 then (s, 0)
    else
      let cur := physRead s pa n
      let p := routeAlias s pa
      let (s1, v) := chooseFrom s (cur :: pastValues p (touches p n) (fun q => !(coreOf s tile).iview.sees q) s.past cur)
      (s1, BitVec.ofNat 32 (ofBytes (v.getD cur)))
  | .pad _ _ _ => (s, 0)

/-- One fetch of a path (R150): a misaligned program counter is never reached (R129, R150), so a word lies in one line. -/
def fetchWord (s : State) (g : Group) (l : Nat) : State × Fetched :=
  let env := laneEnv s g l
  match lookAt s env .fetch (g.lane l).pc.toNat 4 with
  | (s1, .hit (x :: _)) =>
    let (s2, w) := fetchSpot (touchSpots s1 env .fetch [x]) (groupTile s g) x
    (s2, .word w)
  | (s1, .hit []) => (s1, .word 0)
  | (s1, .stop c t) => (s1, .stop c t)
  | (s1, .zeroing _ _ _) => (s1, .word 0)

/-- What a turn comes to: an instruction to execute, or a state in which the turn is over. -/
abbrev Turned := State × Option Instr

/-- A cause that the word itself meets before it has an instruction: every active lane takes it (R137, R140); without an active lane the word
has no effect. -/
def wordTrap (c : Ctx) (cause : Nat) : State :=
  if c.act = 0 then finish c .nop { s := c.s }
  else raise (uncur c.s) c.g.who 0 (allHit c cause 0 0 0 0)

/-- An instruction with a reserved field that is not zero (R132): 0x02, or the lower cause 0x01 where the instruction meets it too (R10). -/
def reservedTrap (c : Ctx) (i : Instr) : State :=
  let low := checkHits c i
  let lanes := if i.isPath then c.path else c.act
  if lanes = 0 then finish c .nop { s := c.s }
  else raise (uncur c.s) c.g.who 0 ((lanesOf lanes).map fun l =>
    { lane := l, cause := if low.any (fun h => h.lane == l && h.cause == 1) then 1 else 2 })

/-- Major opcodes of the matrix instructions (R133, R137). -/
def matrixMajor (w : BitVec 32) : Bool := 0x78 ≤ w.toNat / 2 ^ 25 && w.toNat / 2 ^ 25 ≤ 0x7E

/-- A path issues: it fetches one word for all of its lanes; a fetch that meets a cause stops every lane of the path with a
partial-completion mask of 0 (R150). -/
def turnIssue (s : State) (who : Who) (lane : Nat) : Turned :=
  match findGroup s who with
  | none => (s, none)
  | some g =>
    let m := pathOf g lane
    if m = 0 || !pathMayIssue s g lane then (s, none)
    else
      let pc := (g.lane lane).pc
      match fetchWord (takeTurnOf (takePosition s g) g) g (lowestLane m) with
      | (s1, .stop c t) =>
        (raise s1 who 0 ((lanesOf m).map fun l => { lane := l, cause := c, token := t, addr := pc, bytes := 4, kind := 3 }), none)
      | (s1, .word w) =>
        let s2 := { s1 with cur := some { who := who, lanes := m, pc := pc } }
        match issuer s2 with
        | none => (s2, none)
        | some c =>
          if matrixMajor w && g.key.isNone then (wordTrap c 7, none)
          else match decode w with
            | .ok i => (s2, some i)
            | .notInstruction => (s2, some (.nonInstructionWord w))
            | .reserved i => (reservedTrap c i, none)

end Sys2Proof.Machine
end

