-- ==== Sys2Proof/Machine/Gate.lean ====
section
/-!
DEFINITION. Idempotent regions: the store gate (R57 to R61, R340), the signatures of paired runs and the meeting of the twins (R62, R63, R399),
and the restart of a region (R60).
-/

namespace Sys2Proof.Machine

/-- One bit of the ECMA-182 polynomial's division, from the top (R62). -/
def crcBits : Nat → W64 → W64
  | 0, c => c
  | k + 1, c => crcBits k (if c.msb then (c <<< 1) ^^^ 0x42F0E1EBA9EA3693 else c <<< 1)

/-- CRC-64 over bytes, initial value 0 (R62, R327). -/
def crc64 (c : W64) (bs : List Byte) : W64 := bs.foldl (fun c b => crcBits 8 (c ^^^ BitVec.shiftLeft (b.setWidth 64) 56)) c

/-- The gated byte at an address, as the group's own loads see it (R58). -/
def gateByte (gate : List GateLine) (a : Nat) : Option Byte :=
  (firstWhere (fun l => l.line.toNat == a / 128 * 128) gate).bind fun l => mget none l.cells (a % 128)

/-- Bytes read at an address, with the group's gated bytes over them (R58). -/
def gateOver (g : Group) (va : Nat) (bs : List Byte) : List Byte :=
  match g.region with
  | none => bs
  | some r => if r.gate.isEmpty then bs else (span va bs.length).zipWith (fun a b => (gateByte r.gate a).getD b) bs

/-- A piece of a store that lies in one line: its address, its bytes, its translation when it lies in memory. -/
structure Piece where
  va : Nat
  bytes : List Byte
  tr : Option (Tr × Nat)
deriving DecidableEq, Repr

/-- The pieces of a store by lines. -/
def piecesOf (va : Nat) (bs : List Byte) (spots : List Spot) : List Piece :=
  (linesOf va bs.length).map fun (a, n) =>
    { va := a, bytes := (bs.drop (a - va)).take n
      tr := spots.findSome? fun x => match x with
        | .mem v _ t pa => if v = a then some (t, pa) else none
        | .pad _ _ _ => none }

/-- Bytes put into a line of the gate. -/
def cellsPut (cells : SMap (Option Byte)) (off : Nat) : List Byte → SMap (Option Byte)
  | [] => cells
  | b :: bs => cellsPut (mput none cells off (some b)) (off + 1) bs

/-- A piece of a store put into its line, with the %tids of the lanes whose store each byte is (R214) and the size in which it is single-copy atomic (R92). -/
def GateLine.put (l : GateLine) (p : Piece) (by_ : Nat → List Nat × Nat) : GateLine :=
  { l with
    cells := cellsPut l.cells (p.va % 128) p.bytes
    by_ := (span p.va p.bytes.length).foldl (fun m a => mput ([], 0) m (a % 128) (by_ a)) l.by_ }

/-- The gate with one piece of a store; stores to one line merge (R58). -/
def gatePiece (by_ : Nat → List Nat × Nat) (gate : List GateLine) (p : Piece) : List GateLine :=
  let line := BitVec.ofNat 64 (p.va / 128 * 128)
  if gate.any fun l => l.line == line then mapWhere (fun l => l.line == line) (fun l => l.put p by_) gate
  else
    gate ++ [(match p.tr with
      | some (t, _) => ({ line := line, cells := [], pa := t.pa / 128 * 128, leaf := BitVec.ofNat 64 t.leaf, leafAt := t.leafAt } : GateLine)
      | none => { line := line, cells := [], pad := true }).put p by_]

/-- A store's part of the signature (R62): the spec does not say how address, byte mask and data enter Crc64; the model takes line address, mask of
the line's bytes and the stored bytes of each piece, in ascending order (log 82). -/
def foldSig (sig : W64) (p : Piece) : W64 :=
  crc64 sig (toBytes 8 (p.va / 128 * 128) ++ toBytes 16 ((2 ^ p.bytes.length - 1) * 2 ^ (p.va % 128)) ++ p.bytes)

/-- The runs of consecutive bytes whose writers are the same. -/
def runsOf {α : Type} [DecidableEq α] (by_ : Nat → α) : SMap (Option Byte) → List (Nat × α × List Byte)
  | [] => []
  | (_, none) :: cs => runsOf by_ cs
  | (k, some b) :: cs =>
    let w := by_ k
    match runsOf by_ cs with
    | (k', w', bs) :: rs => if k' = k + 1 && w' == w then (k, w, b :: bs) :: rs else (k, w, [b]) :: (k', w', bs) :: rs
    | [] => [(k, w, [b])]

/-- Where a gated line lies now: a swap may have moved it since it was translated (R350). -/
def gateAt (s : State) (l : GateLine) : Nat := swapRoute s { pa := l.pa, leaf := l.leaf.toNat, leafAt := l.leafAt, level := 0 }

/-- Some agents with their twins in a paired run (R62). -/
def withTwins (s : State) (as : List Agent) : List Agent := as.flatMap fun a => a :: twinAgent s a

/-- One store of some lanes, the first of which makes it: the size in which it is single-copy atomic, and the release fences that it carries, its twins'
too (R62, R92, R94, R214). -/
def laneWriter (s : State) (as : List Agent) (grain : Nat) : Writer :=
  { agent := as.headD .device, also := as.drop 1, grain := grain, rel := (withTwins s as).flatMap fun a => (orderOf s a).rel }

/-- The words of the poison record that a range of bytes covers, put down as clear: a store of several parts covers a word as a whole (R409). -/
def healRange (s : State) (pa n : Nat) : State :=
  let p := routeAlias s pa
  { s with poison := s.poison.filter fun w => !coversWord p n w }

/-- The same of a cluster's SRAM. -/
def healSram (s : State) (c off n : Nat) : State :=
  modCluster s c fun k => { k with sramBad := k.sramBad.filter fun w => !coversWord off n w }

/-- The runs of consecutive bytes of a line, whoever stored them. -/
def wholeRuns (cells : SMap (Option Byte)) : List (Nat × List Byte) := (runsOf (fun _ => ()) cells).map fun (k, _, bs) => (k, bs)

/-- A line leaves the gate as ordinary stores of the lanes that made them (R58). In a paired run ordinary memory is written by the primary only
(log 22). -/
def releaseLine (s : State) (g : Group) (l : GateLine) : State :=
  let t := teamOf s g.team
  let base := l.line.toNat - Config.aperture
  let s1 := (runsOf (mget ([], 0) l.by_) l.cells).foldl (fun s (k, w, bs) =>
    let by_ := laneWriter s (w.1.map (Agent.lane g.team)) (Nat.max 1 w.2)
    if l.pad then writeSpots s by_ (padSpots t (base + k) bs.length) bs
    else if t.primary then physWriteBy s by_ (gateAt s l + k) bs
    else s) s
  (wholeRuns l.cells).foldl (fun s (k, bs) =>
    if l.pad then (padSpots t (base + k) bs.length).foldl (fun s x => match x with
      | .pad c off n => healSram s c off n
      | .mem _ _ _ _ => s) s
    else if t.primary then healRange s (gateAt s l + k) bs.length
    else s) s1

/-- The places of a gated line's bytes, as the record of writes names them. -/
def gateKeys (s : State) (t : Team) (l : GateLine) : List Nat :=
  let offs := l.cells.filterMap fun (k, b) => if b.isSome then some k else none
  if l.pad then
    (offs.flatMap fun k => padSpots t (l.line.toNat - Config.aperture + k) 1).filterMap fun x => match x with
      | .pad c off _ => some (padKey c off)
      | .mem _ _ _ _ => none
  else offs.map (routeAlias s (gateAt s l) + ·)

/-- The lanes of a group have seen its gated stores: none reads older bytes there after the close (R58, R93). -/
def seenGate (s : State) (g : Group) (gate : List GateLine) : State :=
  let keys := gate.flatMap (gateKeys s (teamOf s g.team))
  if keys.isEmpty then s
  else (agentsOf g g.live).foldl (fun s a =>
    let o := orderOf s a
    setOrder s a { o with saw := keys.map (·, s.writes) ++ o.saw.filter fun x => !keys.contains x.1 }) s

/-- What a region's close comes to. -/
inductive Closed where
  | done (s : State)
  /-- a stale line's translation faults: the lines stay gated (R340) -/
  | stop (s : State) (cause : Nat) (token addr : W64)
  /-- it waits, for its twin or, with `zero`, for the zero engine (R344) -/
  | wait (s : State) (zero : Bool)
  /-- the twins restart or end (R63) -/
  | over (s : State)

/-- Stale lines are translated again, in order (R340). -/
def refreshGate (s : State) (env : Env) : List GateLine → State × Except (Nat × W64 × W64) (List GateLine) × Bool
  | [] => (s, .ok [], false)
  | l :: ls =>
    if l.stale && !l.pad then
      match lookAt s env .write l.line.toNat 128 with
      | (s1, .hit (.mem va n t pa :: _)) =>
        let (s2, r, w) := refreshGate (touchSpots s1 env .write [.mem va n t pa]) env ls
        (s2, r.map ({ l with pa := t.pa, leaf := BitVec.ofNat 64 t.leaf, leafAt := t.leafAt, stale := false } :: ·), w)
      | (s1, .hit _) => (s1, .error (0x11, 0, l.line), false)
      | (s1, .stop c tok) => (s1, .error (c, tok, l.line), false)
      | (s1, .zeroing a f n) => (startZero s1 a f n, .ok [], true)
    else
      let (s2, r, w) := refreshGate s env ls
      (s2, r.map (l :: ·), w)

/-- The gate releases its lines in program order, and the region is no longer open (R57, R58, R340). -/
def releaseGate (s : State) (g : Group) (lane : Nat) (r : Region) : Closed :=
  match refreshGate s (laneEnv s g lane) r.gate with
  | (s1, _, true) => .wait s1 true
  | (s1, .error (c, t, a), false) => .stop s1 c t a
  | (s1, .ok gate, false) =>
    .done (modGroup (seenGate (gate.foldl (fun s l => releaseLine s g l) s1) g gate) g.who fun g => { g with region := none })

/-- How an instruction of a paired run meets its twin (R62). -/
inductive Meet where
  /-- the team is not paired -/
  | alone
  /-- the primary goes on: the signatures are equal -/
  | lead
  /-- the twin goes on with what the primary forwarded -/
  | follow (s : State) (vals : List W64)
  | wait (s : State)
  /-- the signatures differ (R63) -/
  | differ (twin : Who) (xor : W64)

/-- Every path of a group is held at an instruction that waits, or stands at `pc`, and no sub-group is to come back: it does not go on by itself. -/
def stuckAt (g : Group) (pc : W64) : Bool :=
  g.subs.isEmpty && (pathHeads g).all fun l => (g.lane l).pc == pc || (pathWait g l).isSome

/-- A path of a group stands at `pc`. -/
def standsAt (g : Group) (pc : W64) : Bool := (pathHeads g).any fun l => (g.lane l).pc == pc

/-- The twin waits for the primary on every path, and there is nothing for it to take. -/
def starved (h : Group) : Bool :=
  h.subs.isEmpty && h.fwd.isEmpty && !(pathHeads h).isEmpty
    && (pathHeads h).all fun l => match pathWait h l with | some w => w.kind == .mwait || w.kind == .other | none => false

/-- The other twin's group has come to its end: its team is resident or gone, and nothing of the group is left (R29, R63). -/
def twinGone (s : State) (g : Group) : Bool :=
  match (teamOf s g.team).twin with
  | none => false
  | some k =>
    (match findTeam s k with | some t => t.status != .saved | none => true)
      && !(s.vault.any fun (_, v) => match v with | some i => i.groups.any fun x => x.team == k && x.idx == g.idx && x.key.isSome == g.key.isSome | none => false)
      && !(s.cores.any fun (_, c) => c.bins.any fun b => b.team == k)

/-- The other twin's group or keystone context. -/
def twinWho (t : Team) (g : Group) : Who := if g.key.isSome then .key (t.twin.getD 0) else .group (t.twin.getD 0) g.idx

/-- The meeting of the twins at an instruction, with a signature of what it would do (R62). Twins whose control flow has parted meet where each of
them is held: the signatures alone are compared, and a twin that brings none differs (R63; log 82). -/
def pairMeet (s : State) (g : Group) (pc : W64) (lanes : W32) (sig : W64) : Meet :=
  let t := teamOf s g.team
  if !isPaired t then .alone
  else
    match twinOf s g with
    | none => if twinGone s g then .differ (twinWho t g) sig else .wait s
    | some h =>
      if t.primary then
        match h.ask with
        | none => if stuckAt g pc && starved h && !(pathHeads g).any (fun l => standsAt h (g.lane l).pc) then .differ h.who sig else .wait s
        | some (p, _, x) =>
          if p != pc && !(stuckAt g pc && !standsAt g p) then .wait s else if x = sig then .lead else .differ h.who (x ^^^ sig)
      else
        match posOf (fun (p, vs) => p == pc && vs.headD 0 == lanes.setWidth 64) g.fwd with
        | some i => .follow (modGroup s g.who fun g => { g with fwd := dropNth g.fwd i }) ((nth (0, []) g.fwd i).2.drop 1)
        | none => .wait (modGroup s g.who fun g => { g with ask := some (g.ask.getD (pc, lanes, sig)) })

/-- The primary forwards its results to the twin, whose question is answered (R62). -/
def forward (s : State) (g : Group) (pc : W64) (lanes : W32) (vals : List W64) : State :=
  match twinOf s g with
  | none => s
  | some h => modGroup s h.who fun h =>
      let (p, m) := match h.ask with | some (p, m, _) => (p, m) | none => (pc, lanes)
      { h with ask := none, fwd := h.fwd ++ [(p, m.setWidth 64 :: vals)] }

/-- The primary forwards values that the twin's instruction takes without a question (%cycle and %time, R62). -/
def forwardOnly (s : State) (g : Group) (pc : W64) (lanes : W32) (vals : List W64) : State :=
  match twinOf s g with
  | none => s
  | some h =>
    let s1 := modGroup s g.who fun g => { g with region := g.region.map fun r => { r with sent := r.sent + 1 } }
    modGroup s1 h.who fun h => { h with fwd := h.fwd ++ [(pc, lanes.setWidth 64 :: vals)] }

/-- The twin takes a forwarded entry. -/
def takeFwd (s : State) (g : Group) (i : Nat) : State :=
  modGroup s g.who fun h => { h with
    fwd := dropNth h.fwd i
    region := h.region.map fun r => { r with used := r.used ++ [nth (0, []) h.fwd i] } }

/-- UNIT of a whole cluster (R390, R399). -/
def clusterUnit (c : Nat) : Nat := unitOf 2 c 0xFF 0 0

/-- A signature mismatch (R63): both twins restart the region, or the instruction that is a region of its own; the third ends both teams. The records name
the primary's cluster first (R399). -/
def pairDiffer (s : State) (g : Group) (twin : Who) (xor entry : W64) : State :=
  let t := teamOf s g.team
  let k := 1 + match g.region with
    | some r => r.mism
    | none => g.mism
  let rec_ (cls sev cause : Nat) : ErrRec :=
    { cls := cls, sev := sev, cause := cause, asid := (contextOf s t.ctx).asid.toNat, launch := t.launch.toNat
      unit := clusterUnit (if t.primary then t else teamOf s (whoTeam twin)).cluster
      unit2 := clusterUnit (if t.primary then teamOf s (whoTeam twin) else t).cluster, detail := entry.toNat + xor.toNat * 2 ^ 64 }
  if 3 ≤ k then endTeam (logError s (rec_ 5 1 0x32)) g.team 0x32 (fwhoOf t g)
  else
    let again (h : Group) : Group := match h.region with
      | some r => restartRegion h { r with mism := k }
      | none => { h with ask := none, mism := k, script := [] }
    modGroup (modGroup (logError s (rec_ 4 0 0)) g.who again) twin again

/-- An instruction that takes a value from the other twin, whose group has come to its end: a mismatch (R63; log 82). -/
def lostTwin (c : Ctx) : Res :=
  { s := pairDiffer c.s c.g (twinWho c.t c.g) 0 (match c.g.region with | some r => r.entry | none => c.pc), wait := some (.other, 0), keep := true }

/-- Closes the open region of a group at a word (R57, R58, R62). -/
def closeRegion (s : State) (g : Group) (lane : Nat) (pc : W64) (lanes : W32) : Closed :=
  match g.region with
  | none => .done s
  | some r =>
    match pairMeet s g pc lanes r.sig with
    | .alone => releaseGate s g lane r
    | .lead => (match releaseGate s g lane r with
      | .done s1 => .done (forward s1 g pc lanes [])
      | c => c)
    | .follow s1 _ => (match releaseGate s1 g lane r with
      | .done s2 => .done s2
      | .stop s2 c t a => .stop (modGroup s2 g.who fun h => { h with fwd := g.fwd }) c t a
      | .wait s2 z => .wait (modGroup s2 g.who fun h => { h with fwd := g.fwd }) z
      | .over s2 => .over s2)
    | .wait s1 => .wait s1 false
    | .differ w x => .over (pairDiffer s g w x r.entry)

end Sys2Proof.Machine
end

