-- ==== Sys2Proof/Machine/Control.lean ====
section
/-!
DEFINITION. Meanings of the control instructions (R149 to R169): no-operation and region words, ifence, exit, yield, chkp, reconvergence,
branches, calls and jumps, traps and the return from one, halt, the window base, the special registers; words that are no instruction (R139).
-/

namespace Sys2Proof.Machine

/-- An instruction that has no effect of its own. -/
def noRes (c : Ctx) : Res := { s := c.s }

/-- What closing the region at this word gives, and what follows when it is closed. -/
def closeRes (c : Ctx) (after : State → State) : Res :=
  match closeRegion c.s c.g (lowestLane c.path) c.pc c.path with
  | .done s => { s := after s }
  | .stop s cause tok a => { s := s, hits := (lanesOf c.path).map fun l => { lane := l, cause := cause, token := tok, addr := a, bytes := 128, kind := 1 } }
  | .wait s z => { s := s, wait := some (if z then .tlbmiss else .other, 0), keep := true }
  | .over s => { s := s, wait := some (.other, 0), keep := true }

/-- A region opens at this word: it keeps the address, m0 and the lanes that are not exited (R57, R60, R151), and the call depth of the issuing path,
which a restart gives every lane (log 92). -/
def openRegion (c : Ctx) (s : State) : State :=
  modGroup s c.g.who fun g => { g with
    region := some { entry := c.pc, m0 := g.mask 0, live := g.live, depth := (g.lane (lowestLane c.path)).depth } }

/-- NOP (R151). -/
def execNop (s : State) : Host.Outcome State Fault Refusal := issue .nop s noRes

/-- REGION_ENTRY (R57, R151): an open region is closed first. -/
def execRegionEntry (s : State) : Host.Outcome State Fault Refusal := issue .regionEntry s fun c => closeRes c (openRegion c)

/-- REGION_EXIT (R151): no effect when no region is open. -/
def execRegionExit (s : State) : Host.Outcome State Fault Refusal := issue .regionExit s fun c => closeRes c id

/-- REGION_CLOSE_REOPEN (R57, R151). -/
def execRegionCloseReopen (s : State) : Host.Outcome State Fault Refusal := issue .regionCloseReopen s fun c => closeRes c (openRegion c)

/-- IFENCE (R98, R152): words whose writes happen before an acquire of an active lane are fetched from then on; the core's instruction cache is empty. -/
def execIfence (s : State) : Host.Outcome State Fault Refusal :=
  issue .ifence s fun c =>
    let tile := groupTile c.s c.g
    { s := modCore { c.s with l1i := mput [] c.s.l1i tile [] } tile fun k =>
        { k with iview := c.lanes.foldl (fun v l => v.join (orderOf c.s (agentOf c.g l)).view) k.iview } }

/-- A trap of every active lane with a code (R161). -/
def trapRes (c : Ctx) (cause : Nat) (code : BitVec 14) : Res :=
  { s := c.s, hits := c.lanes.map fun l => { lane := l, cause := cause, code := code } }

/-- BRK (R161). -/
def execBrk (k : BitVec 14) (s : State) : Host.Outcome State Fault Refusal := issue (.brk k) s fun c => trapRes c 0x41 k

/-- TRAP (R161). -/
def execTrap (k : BitVec 14) (s : State) : Host.Outcome State Fault Refusal := issue (.trap k) s fun c => trapRes c 0x40 k

/-- Lanes leave the group for good (R29, R50); sub-groups in handler mode lose them (R153). -/
def exitLanes (g : Group) (m : W32) : Group :=
  dropFromSubs (g.modLanes m fun _ x => { x with st := .exited, handler := false, at_ := .none }) m

/-- The group ends with this instruction when no lane is left (R29, R50). -/
def endIfEmpty (c : Ctx) (s : State) : State :=
  match findGroup s c.g.who with
  | none => s
  | some g => if g.live = 0 then endGroup (setGroup s { g with issued := g.issued + 1 }) g.who else s

/-- The matrix queue of a keystone context. -/
def keyQueue (g : Group) : List MEntry := (g.key.getD {}).mq

/-- EXIT (R153, R221, R247): an open region closes with the last lane; a keystone context waits for its matrix queue; an exited lane holds no
barrier. -/
def execExit (s : State) : Host.Outcome State Fault Refusal :=
  issue .exit s fun c =>
    let leave (s : State) : State := settleBarriers (endIfEmpty c (modGroup s c.g.who fun g => exitLanes g c.act)) c.g.team [c.g.role]
    if c.key then
      if (keyQueue c.g).isEmpty then { s := leave c.s, gone := c.act }
      else { s := modGroup c.s c.g.who fun g => { g with key := g.key.map fun k => { k with binding := none } }, wait := some (.matrixq, 0), keep := true }
    else if c.g.region.isSome && c.g.live &&& ~~~c.act = 0 then
      let r := closeRes c leave
      if r.hits.isEmpty then { r with gone := c.path } else { r with hits := r.hits.filter fun h => hasLane c.act h.lane }
    else { s := leave c.s, gone := c.act }

/-- YIELD (R154, R247). -/
def execYield (s : State) : Host.Outcome State Fault Refusal :=
  issue .yield s fun c =>
    if !c.g.preempt then noRes c
    else if c.key && (!(keyQueue c.g).isEmpty || c.t.ops.any fun o => o.cmu && o.hb) then { s := c.s, wait := some (.matrixq, 0) }
    else { s := modGroup c.s c.g.who fun g => completePending (g.modLanes c.path fun _ x => { x with st := .waiting, at_ := .yield }) c.path, gone := c.path }

/-- Every lane of the path reaches a reconvergence point (R156). -/
def reconvRes (c : Ctx) (at_ : WaitAt) : Res :=
  { s := modGroup c.s c.g.who fun g => g.modLanes c.path fun _ x => { x with st := .waiting, at_ := at_ }, gone := c.path }

/-- RECONV (R26, R156). -/
def execReconv (s : State) : Host.Outcome State Fault Refusal := issue .reconv s fun c => reconvRes c .hard

/-- RECONV_S (R27, R156). -/
def execReconvS (s : State) : Host.Outcome State Fault Refusal := issue .reconvS s fun c => reconvRes c .soft

/-- Target of the B format (R129). -/
def branchTarget (pc : W64) (o : BitVec 19) : W64 := pc + 4 * o.signExtend 64

/-- Lanes of a mask go to one target. -/
def gotoAll (m : W32) (t : W64) : List (Nat × W64) := (lanesOf m).map fun l => (l, t)

/-- BRA (R24, R158). -/
def execBra (h : BitVec 2) (m : BitVec 4) (o : BitVec 19) (s : State) : Host.Outcome State Fault Refusal :=
  issue (.bra h m o) s fun c => { s := c.s, goto := gotoAll (c.act &&& c.g.mask m.toNat) (branchTarget c.pc o) }

/-- The link is written for some lanes and their call depth rises (R159, R160); the link pair of call is G unless all lanes take it. -/
def linkLanes (c : Ctx) (m : W32) (r : Nat) (call : Bool) : State :=
  if m = 0 then c.s
  else
    let ret := c.pc + 4
    modGroup c.s c.g.who fun g =>
      let g1 := putReg (putReg g m r (.u (ret.setWidth 32))) m (r + 1) (.u ((ret >>> 32).setWidth 32))
      let g2 := if call && !g.key.isSome && g.live &&& ~~~m != 0 then toGeneral (toGeneral g1 r) (r + 1) else joinPair g1 r
      g2.modLanes m fun _ x => { x with depth := x.depth + 1 }

/-- CALL (R159). -/
def execCall (h : BitVec 2) (m : BitVec 4) (o : BitVec 19) (s : State) : Host.Outcome State Fault Refusal :=
  issue (.call h m o) s fun c =>
    let taken := c.act &&& c.g.mask m.toNat
    { s := linkLanes c taken (c.r 62) true, goto := gotoAll taken (branchTarget c.pc o) }

/-- CHKP (R155). -/
def execChkp (h : BitVec 2) (o : BitVec 19) (s : State) : Host.Outcome State Fault Refusal :=
  issue (.chkp h o) s fun c => { s := c.s, goto := if c.g.preempt then gotoAll c.act (branchTarget c.pc o) else [] }

/-- A program counter that an instruction may give a lane (R150). -/
def pcOk (v : W64) : Bool := v.toNat % 4 == 0 && canonical v.toNat

/-- Lanes with a bad target trap 0x11 before any effect; the others go (R150). -/
def jumpRes (c : Ctx) (a : BitVec 7) (effect : W32 → State) : Res :=
  let bad := laneSet fun l => hasLane c.act l && !pcOk (c.pv a l)
  let go := c.act &&& ~~~bad
  { s := effect go, goto := (lanesOf go).map fun l => (l, c.pv a l), hits := (lanesOf bad).map fun l => { lane := l, cause := 0x11 } }

/-- JMP (R160). -/
def execJmp (a : BitVec 7) (s : State) : Host.Outcome State Fault Refusal :=
  issue (.jmp a) s fun c => jumpRes c a fun _ => c.s

/-- CALLI (R160). -/
def execCalli (d a : BitVec 7) (s : State) : Host.Outcome State Fault Refusal :=
  issue (.calli d a) s fun c => jumpRes c a fun go => linkLanes c go (c.r d.toNat) false

/-- RET (R160). -/
def execRet (a : BitVec 7) (s : State) : Host.Outcome State Fault Refusal :=
  issue (.ret a) s fun c => jumpRes c a fun go =>
    if go = 0 then c.s else modGroup c.s c.g.who fun g => g.modLanes go fun _ x => { x with depth := x.depth - 1 }

/-- The tag with which tret writes values (R165, R174). -/
def tretShape (act : W32) (vs : List W32) : Shape :=
  let v0 := nth 0 vs (lowestLane act)
  let st := nth 0 vs 1 - nth 0 vs 0
  if (lanesOf act).all fun l => nth 0 vs l == v0 then .u v0
  else if act = BitVec.allOnes 32 && lanes32.all fun l => nth 0 vs l == nth 0 vs 0 + BitVec.ofNat 32 l * st then .a (nth 0 vs 0) st
  else .g vs

/-- 32-bit values from bytes. -/
def wordsOf (bs : List Byte) (n : Nat) : List W32 := (upto n).map fun i => BitVec.ofNat 32 (ofBytes ((bs.drop (4 * i)).take 4))

/-- TRET (R162, R165): the fields marked RW are read, without what an open region still gates (log 85); a fault of that access ends the team. -/
def execTret (d : BitVec 7) (s : State) : Host.Outcome State Fault Refusal :=
  issue (.tret d) s fun c =>
    let rec_ := (c.pv d c.first).toNat
    let env := devEnv c.s c.t.ctx false
    match readAt c.s env .read ((rec_ + 0x18) % 2 ^ 64) 8 with
    | (s1, .error (e, _)) => { s := endTeam s1 c.g.team (BitVec.ofNat 8 e) (fwhoOf c.t c.g), gone := c.path }
    | (s1, .ok rp) =>
      match readAt s1 env .read ((rec_ + 0x40) % 2 ^ 64) 512 with
      | (s2, .error (e, _)) => { s := endTeam s2 c.g.team (BitVec.ofNat 8 e) (fwhoOf c.t c.g), gone := c.path }
      | (s2, .ok vs) =>
        let rpc := BitVec.ofNat 64 (ofBytes rp)
        if !pcOk rpc then { s := s2, hits := allHit c 0x11 0 0 0 0 }
        else
          match posOf (fun u => u.delivered && u.lanes &&& c.act != 0) c.g.subs with
          | none => { s := s2 }
          | some i =>
            let w := (nth { lanes := 0, pcmask := 0, cause := 0 } c.g.subs i).winb
            { s := modGroup s2 c.g.who fun g => { leaveHandler g i c.act rpc with winb := w }
              regs := (upto 4).map fun j => (winReg c.g w j, tretShape c.act (wordsOf (vs.drop (128 * j)) 32))
              gone := c.act }

/-- HALT (R166): the group stops until its halyard's doorbell, unless a doorbell is pending (R366). -/
def execHalt (s : State) : Host.Outcome State Fault Refusal :=
  issue .halt s fun c => { s := modGroup c.s c.g.who fun g => if g.bell then { g with bell := false } else { g with halted := true } }

/-- WINB (R167). -/
def execWinb (i : BitVec 14) (s : State) : Host.Outcome State Fault Refusal :=
  issue (.winb i) s fun c => { s := modGroup c.s c.g.who fun g => { g with winb := 32 * i.toNat } }

/-- Values re-tagged as squeeze would (R174). -/
def squeezed (vs : List W32) : Shape :=
  let st := nth 0 vs 1 - nth 0 vs 0
  if lanes32.all fun l => nth 0 vs l == nth 0 vs 0 then .u (nth 0 vs 0)
  else if lanes32.all fun l => nth 0 vs l == nth 0 vs 0 + BitVec.ofNat 32 l * st then .a (nth 0 vs 0) st
  else .g vs

/-- Lane coordinate on an axis (R17): %tid = tc0 + ts0 × (tc1 + ts1 × tc2). -/
def coord (k : KRec) (axis : Nat) (tid : W32) : W32 :=
  BitVec.ofNat 32 (match axis with
    | 0 => tid.toNat % k.x
    | 1 => tid.toNat / k.x % k.y
    | _ => tid.toNat / (k.x * k.y))

/-- Draw age of a role of a team on a core (R51, R169); a restored team begins again with 512 (log 84). -/
def binAge (c : Core) (team role : Nat) : Nat :=
  ((firstWhere (fun (t, r, _) => t == team && r == role) c.binage).map (·.2.2)).getD 512

/-- What rdsr reads: the result's shape, or two words for a 64-bit register (R145). -/
def srRead (c : Ctx) (n : Nat) : Shape :=
  let g := c.g
  let t := c.t
  let l := teamLaunch c.s t
  let perLane (f : W32 → W32) : List W32 := lanes32.map fun x => f (g.lane x).tid
  let u (v : Nat) : Shape := .u (BitVec.ofNat 32 v)
  match n with
  | 0 => if g.drawn then .g (perLane id) else .a ((g.lane 0).tid) 1
  | 1 => if g.drawn then .g (perLane (coord l.krec 0)) else squeezed (perLane (coord l.krec 0))
  | 2 => if g.drawn then .g (perLane (coord l.krec 1)) else squeezed (perLane (coord l.krec 1))
  | 3 => if g.drawn then .g (perLane (coord l.krec 2)) else squeezed (perLane (coord l.krec 2))
  | 4 => .a 0 1
  | 5 => u g.role
  | 0x08 => u t.tx
  | 0x09 => u t.ty
  | 0x0A => u t.tz
  | 0x0C => u l.lrec.gx
  | 0x0D => u l.lrec.gy
  | 0x0E => u l.lrec.gz
  | 0x10 => u l.krec.x
  | 0x11 => u l.krec.y
  | 0x12 => u l.krec.z
  | 0x18 => .u l.id
  | 0x20 => .u g.fpcr
  | 0x21 => .u g.fpflags
  | 0x22 => u (if g.preempt then 1 else 0)
  | 0x23 => u (binAge (coreOf c.s (groupTile c.s g)) g.team g.role)
  | 0x24 => u g.winb
  | 0x25 => u (groupSlots g)
  | _ => .u 0

/-- %cycle and %time (R145). -/
def clockOf (s : State) (n : Nat) : W64 := if n = 0x28 then BitVec.ofNat 64 s.cycle else BitVec.ofNat 64 (timeNs s)

/-- RDSR (R62, R145, R168): in a paired run the twin takes the primary's %cycle and %time. -/
def execRdsr (d : BitVec 7) (n : BitVec 14) (s : State) : Host.Outcome State Fault Refusal :=
  issue (.rdsr d n) s fun c =>
    if !srWide n.toNat then { s := c.s, regs := [(c.r d.toNat, srRead c n.toNat)] }
    else
      let v := clockOf c.s n.toNat
      let put (s : State) (v : W64) : Res := { s := s, regs := pairRes c d true fun _ => v }
      if !isPaired c.t then put c.s v
      else if c.t.primary then
        (if (twinOf c.s c.g).isNone && !twinGone c.s c.g then { s := c.s, wait := some (.other, 0) } else put (forwardOnly c.s c.g c.pc c.act [v]) v)
      else
        match posOf (fun (p, vs) => p == c.pc && vs.headD 0 == c.act.setWidth 64) c.g.fwd with
        | some i => put (takeFwd c.s c.g i) (nth 0 (nth (0, []) c.g.fwd i).2 1)
        | none => if (twinOf c.s c.g).isNone && twinGone c.s c.g then lostTwin c else { s := c.s, wait := some (.other, 0) }

/-- What %fpcr holds after a write: reserved rounding modes leave RM as it was (R110, R169). -/
def fpcrWrite (old x : W32) : W32 :=
  let rm := if x.toNat % 8 < 5 then x.toNat % 8 else old.toNat % 8
  BitVec.ofNat 32 (x.toNat / 8 % 4 * 8 + rm)

/-- WRSR (R169). -/
def execWrsr (d : BitVec 7) (n : BitVec 14) (s : State) : Host.Outcome State Fault Refusal :=
  issue (.wrsr d n) s fun c =>
    let x := c.uv d
    match n.toNat with
    | 0x20 => { s := modGroup c.s c.g.who fun g => { g with fpcr := fpcrWrite g.fpcr x } }
    | 0x21 => { s := modGroup c.s c.g.who fun g => { g with fpflags := x &&& 31 } }
    | _ =>
      let age := x.toNat % 65536
      if age = 0 then { s := c.s }
      else { s := modCore c.s (groupTile c.s c.g) fun k => { k with
        binage := (c.g.team, c.g.role, age) :: k.binage.filter fun (t, r, _) => !(t == c.g.team && r == c.g.role) } }

/-- NON_INSTRUCTION_WORD (R139): every active lane traps 0x01. -/
def execNonInstructionWord (w : BitVec 32) (s : State) : Host.Outcome State Fault Refusal :=
  issue (.nonInstructionWord w) s fun c => { s := c.s, hits := allHit c 1 0 0 0 0 }

end Sys2Proof.Machine
end

