-- ==== Sys2Proof/Machine/Memory.lean ====
section
/-!
DEFINITION. Meanings of the loads, probe loads, stores, cache operations and atomics (R208 to R218), of fence and mwait (R219, R220) and of the
team and role barriers (R221).
-/

namespace Sys2Proof.Machine

/-- What the reads of the active lanes found, by lane, and the reads that were made (R101). -/
structure Reads where
  s : State
  vals : List (Nat × List Byte) := []
  hits : List Hit := []
  late : List LateRead := []

/-- A lane's read of an access size, with the lanes that share it (R208, R212). -/
def readEnv (s : State) (g : Group) (n : Nat) (acq : Acquire) (ls : List Nat) : Env :=
  { laneEnv s g (ls.headD 0) with
    order := sharedOrder s (ls.map (agentOf g)), also := (ls.drop 1).map (agentOf g), size := Nat.max 1 (Nat.min n 8), acq := acq }

/-- The gated bytes of a range (R58). -/
def gatedBytes (g : Group) (va n : Nat) : List (Option Byte) :=
  match g.region with
  | none => []
  | some r => if r.gate.isEmpty then [] else (span va n).map (gateByte r.gate)

/-- Bytes with others put over them. -/
def putOver (bs : List Byte) (above : List (Option Byte)) : List Byte :=
  if above.isEmpty then bs else bs.zipWith (fun b o => o.getD b) above

/-- The bank of the scratchpad that held an error (R60). -/
def padUnit (c : Ctx) (s : State) (a : W64) (n : Nat) : Option Nat :=
  if inAperture a.toNat n then
    (padSpots (teamOf s c.g.team) (a.toNat - Config.aperture) n).findSome? fun x => match x with
      | .pad k off m => if padPoison s k off m then some (sramUnit k off) else none
      | .mem _ _ _ _ => none
  else none

/-- One read of n bytes of the lanes of one address (R208, R209, R211): alignment first where it is demanded (R212), then the checks, then the bytes
with the group's gate over them (R58). -/
def readOne (c : Ctx) (n : Nat) (aligned : Bool) (acq : Acquire) (a : W64) (ls : List Nat) (r : Reads) : Reads :=
  let hit (s : State) (cause : Nat) (tok : W64) : Reads :=
    { r with s := s, hits := r.hits ++ ls.map fun l => { lane := l, cause := cause, token := tok, addr := a, bytes := n, kind := 0, unit := if cause = 0x15 then padUnit c s a n else none } }
  if aligned && a.toNat % n != 0 then hit r.s 5 0
  else
    let env := readEnv r.s c.g n acq ls
    match lookAt r.s env .read a.toNat n with
    | (s1, .stop cause tok) => hit s1 cause tok
    | (s1, .zeroing _ _ _) => hit s1 0x10 0
    | (s1, .hit x) =>
      let (s2, bs) := readSpots (touchSpots s1 env .read x) env x
      let above := gatedBytes c.g a.toNat n
      let out := putOver bs above
      { r with s := s2, vals := r.vals ++ ls.map (·, out), late := r.late ++ [{ lanes := ls, addr := a, spots := x, above := above }] }

/-- The reads of the active lanes, one for each address, in the order of their lowest lanes. -/
def readLanes (c : Ctx) (addr : Nat → W64) (n : Nat) (aligned : Bool) (acq : Acquire := .no) : Reads :=
  (distinct (c.lanes.map addr)).foldl (fun r a => readOne c n aligned acq a (c.lanes.filter fun l => addr l == a) r) { s := c.s }

/-- Lane l's value of a list of values; the first one for a lane that has none. -/
def valOf (vals : List (Nat × List Byte)) (l : Nat) : Nat :=
  ofBytes (((firstWhere (fun x => x.1 == l) vals).map (·.2)).getD ((vals.map (·.2)).headD []))

/-- The 32-bit parts of values, as register results (R211): U when the address is uniform. -/
def loadRegs (c : Ctx) (d : BitVec 7) (uni : Bool) (words : Nat) (v : Nat → Nat) : List (Nat × Shape) :=
  (upto words).map fun j => (c.r (d.toNat + j), defaultShape uni fun l => BitVec.ofNat 32 (v l / 2 ^ (32 * j)))

/-- The value that a load writes from the bytes read (R211). -/
def extendLoad (signed : Bool) (n v : Nat) : Nat := if signed then (BitVec.ofInt 32 (sextInt (8 * n) v)).toNat else v

/-- A load of n bytes (R211, R212). -/
def loadRes (c : Ctx) (d b o : BitVec 7) (n : Nat) (signed aligned : Bool) (acq : Acquire := .no) : Res :=
  let r := readLanes c (c.addr b o n) n aligned acq
  let words := (n + 3) / 4
  { s := r.s, hits := r.hits
    regs := if r.vals.isEmpty then [] else loadRegs c d (c.addrU b o) words fun l => extendLoad signed n (valOf r.vals l)
    load := if r.late.isEmpty then none else some
      { reads := r.late, d := c.r d.toNat, words := words, uni := c.addrU b o, bytes := n, signed := signed, acq := acq != .no, at_ := c.s.writes } }

/-- A place of memory as a swap has it now (R350). -/
def rerouted (s : State) : Spot → Spot
  | .mem va n t _ => .mem va n t (swapRoute s t)
  | x => x

/-- The places of n bytes of a team at an address as they are now: banks move with a team that is saved (R324). -/
def spotsNow (s : State) (team va n : Nat) (l : List Spot) : List Spot :=
  if inAperture va n then padSpots (teamOf s team) (va - Config.aperture) n else l.map (rerouted s)

/-- The places of a load that is performed after a restore: where INVAL has marked its translation stale, it is translated again, and may meet a cause
(R101, R340; log 110). -/
def latePlaces (s : State) (env : Env) (team n : Nat) (x : LateRead) : State × Except Nat (List Spot) :=
  if x.stale && !inAperture x.addr.toNat n then
    match lookAt s env .read x.addr.toNat n with
    | (s1, .hit l) => (touchSpots s1 env .read l, .ok l)
    | (s1, .stop c _) => (s1, .error c)
    | (s1, .zeroing _ _ _) => (s1, .error 0x10)
  else (s, .ok (spotsNow s team x.addr.toNat n x.spots))

/-- A load that a freeze found pending is performed again, after the restore (R101): its lanes' own stores since its issue stay unseen. A cause that it
meets then ends the launch, as a held store's does (log 110). -/
def redoLoad (s : State) (w : Who) (ld : LateLoad) : State :=
  match findGroup s w with
  | none => s
  | some g =>
    let (s1, vals, bad) := ld.reads.foldl (fun (s, vals, bad) x =>
      let env := { readEnv s g ld.bytes (if ld.acq then .load else .no) x.lanes with issued := some ld.at_ }
      match latePlaces s env g.team ld.bytes x with
      | (s1, .ok l) =>
        let (s2, bs) := readSpots s1 env l
        (s2, vals ++ x.lanes.map (·, putOver bs x.above), bad)
      | (s1, .error c) => (s1, vals, bad ++ [c])) (s, ([] : List (Nat × List Byte)), ([] : List Nat))
    let m := laneSet fun l => hasLane g.live l && vals.any fun x => x.1 == l
    if !bad.isEmpty then failLaunch s1 (teamOf s g.team) (BitVec.ofNat 8 (minNat 0 bad)) (fwhoOf (teamOf s g.team) g)
    else modGroup s1 w fun g => (upto ld.words).foldl (fun g j =>
      putReg g m (ld.d + j) (defaultShape ld.uni fun l => BitVec.ofNat 32 (extendLoad ld.signed ld.bytes (valOf vals l) / 2 ^ (32 * j)))) g

/-- The loads that are pending in a group are performed again (R101), once its team is resident. -/
def redoLoads (s : State) (w : Who) : State :=
  match findGroup s w with
  | none => s
  | some g =>
    if (teamOf s g.team).status != .resident then s
    else g.pend.foldl (fun s p => match p.load with | some ld => if p.complete then s else redoLoad s w ld | none => s) s

/-- LD_B8N (R211). -/
def execLdB8n (d b o : BitVec 7) (la : BitVec 4) (s : State) : Host.Outcome State Fault Refusal :=
  issue (.ldB8n d b o la) s fun c => loadRes c d b o 1 false false

/-- LD_B8I (R211). -/
def execLdB8i (d b o : BitVec 7) (la : BitVec 4) (s : State) : Host.Outcome State Fault Refusal :=
  issue (.ldB8i d b o la) s fun c => loadRes c d b o 1 true false

/-- LD_B16N (R211). -/
def execLdB16n (d b o : BitVec 7) (la : BitVec 4) (s : State) : Host.Outcome State Fault Refusal :=
  issue (.ldB16n d b o la) s fun c => loadRes c d b o 2 false false

/-- LD_B16I (R211). -/
def execLdB16i (d b o : BitVec 7) (la : BitVec 4) (s : State) : Host.Outcome State Fault Refusal :=
  issue (.ldB16i d b o la) s fun c => loadRes c d b o 2 true false

/-- LD_B32 (R211). -/
def execLdB32 (d b o : BitVec 7) (la : BitVec 4) (s : State) : Host.Outcome State Fault Refusal :=
  issue (.ldB32 d b o la) s fun c => loadRes c d b o 4 false false

/-- LD_B64 (R211). -/
def execLdB64 (d b o : BitVec 7) (la : BitVec 4) (s : State) : Host.Outcome State Fault Refusal :=
  issue (.ldB64 d b o la) s fun c => loadRes c d b o 8 false false

/-- LD_B128 (R211). -/
def execLdB128 (d b o : BitVec 7) (la : BitVec 4) (s : State) : Host.Outcome State Fault Refusal :=
  issue (.ldB128 d b o la) s fun c => loadRes c d b o 16 false false

/-- Lanes acquire: their own earlier writes happen before what an ifence of theirs makes fetches see (R98). -/
def acquire (s : State) (g : Group) (m : W32) : State := acquireAll s (agentsOf g m) {}

/-- An acquire load (R212): each completed lane acquires at the scope of its page. -/
def loadAcq (c : Ctx) (d b o : BitVec 7) (n : Nat) : Res :=
  let r := loadRes c d b o n false true .load
  { r with s := acquire r.s c.g (c.act &&& ~~~(laneSet fun l => r.hits.any fun h => h.lane == l)) }

/-- LD_ACQ_B32 (R212). -/
def execLdAcqB32 (d b o : BitVec 7) (la : BitVec 4) (s : State) : Host.Outcome State Fault Refusal :=
  issue (.ldAcqB32 d b o la) s fun c => loadAcq c d b o 4

/-- LD_ACQ_B64 (R212). -/
def execLdAcqB64 (d b o : BitVec 7) (la : BitVec 4) (s : State) : Host.Outcome State Fault Refusal :=
  issue (.ldAcqB64 d b o la) s fun c => loadAcq c d b o 8

/-- Causes that a probe load reports in m15 (R213). -/
def probeMiss (h : Hit) : Bool := h.cause == 0x10 || h.cause == 0x13 || h.cause == 0x16

/-- A probe load (R213). -/
def probeRes (c : Ctx) (d b o : BitVec 7) (n : Nat) : Res :=
  let r := loadRes c d b o n false false
  let miss := laneSet fun l => r.hits.any fun h => h.lane == l && probeMiss h
  let stop := laneSet fun l => r.hits.any fun h => h.lane == l && !probeMiss h
  { r with
    hits := r.hits.filter fun h => !probeMiss h
    only := ~~~miss
    masks := [(15, (c.g.mask 15 &&& ~~~(c.act &&& ~~~stop)) ||| (c.act &&& ~~~stop &&& ~~~miss))] }

/-- LDP_B32 (R213). -/
def execLdpB32 (d b o : BitVec 7) (la : BitVec 4) (s : State) : Host.Outcome State Fault Refusal :=
  issue (.ldpB32 d b o la) s fun c => probeRes c d b o 4

/-- LDP_B64 (R213). -/
def execLdpB64 (d b o : BitVec 7) (la : BitVec 4) (s : State) : Host.Outcome State Fault Refusal :=
  issue (.ldpB64 d b o la) s fun c => probeRes c d b o 8

/-- What the checks of the active lanes' writes found: places by lane, causes, or a frame whose zeroing they wait for (R344). -/
structure Looks where
  s : State
  spots : List (Nat × List Spot) := []
  hits : List Hit := []
  zero : Option (Nat × Nat × Nat) := none

/-- One lane's check of a store or atomic (R209, R214, R218). -/
def lookLane (c : Ctx) (acc : Acc) (addr : Nat → W64) (n : Nat) (aligned : Bool) (r : Looks) (l : Nat) : Looks :=
  let a := addr l
  let hit (s : State) (cause : Nat) (tok : W64) : Looks :=
    { r with s := s, hits := r.hits ++ [{ lane := l, cause := cause, token := tok, addr := a, bytes := n, kind := if acc == .atomic then 2 else 1
                                          unit := if cause = 0x15 then padUnit c s a n else none }] }
  if aligned && a.toNat % n != 0 then hit r.s 5 0
  else
    match lookAt r.s (laneEnv r.s c.g l) acc a.toNat n with
    | (s1, .hit x) => { r with s := s1, spots := r.spots ++ [(l, x)] }
    | (s1, .stop cause tok) => hit s1 cause tok
    | (s1, .zeroing x y z) => { r with s := s1, zero := some (x, y, z) }

/-- The checks of the active lanes. -/
def lookLanes (c : Ctx) (acc : Acc) (addr : Nat → W64) (n : Nat) (aligned : Bool) : Looks :=
  c.lanes.foldl (lookLane c acc addr n aligned) { s := c.s }

/-- The data of a store: n bytes of lane l's registers from d (R214). -/
def storeData (c : Ctx) (d : BitVec 7) (n l : Nat) : List Byte :=
  ((upto ((n + 3) / 4)).flatMap fun j => toBytes 4 (c.lvk d j l).toNat).take n

/-- A write of the bytes that are someone's store by `who`, each place by its own writer; a store that covers a poisoned word clears it, also where a higher
lane writes some of its bytes (R214, R409). In a paired run ordinary memory is written by the primary only (log 22). -/
def writeKept (s : State) (by_ : Spot → List Agent → Writer) (prim : Bool) (va : Nat) (who : Nat → List Agent) : List Spot → List Byte → State
  | [], _ => s
  | x :: xs, bs =>
    let n := match x with | .mem _ n _ _ => n | .pad _ _ n => n
    let runs := runsOf (fun i => who (va + i)) ((upto n).map fun i => (i, if (who (va + i)).isEmpty then none else some (nth 0 bs i)))
    let s1 := runs.foldl (fun s (i, as, r) => match x with
      | .pad k off _ => sramWriteBy s (by_ x as) k (off + i) r
      | .mem _ _ _ pa => if prim then physWriteBy s (by_ x as) (pa + i) r else s) s
    let s2 := match x with
      | .pad k off _ => healSram s1 k off n
      | .mem _ _ _ pa => if prim then healRange s1 pa n else s1
    writeKept s2 by_ prim (va + n) who xs (bs.drop n)

/-- The size in which a store of n bytes is single-copy atomic, 16 bytes in halves (R92). -/
def grainOf (a : W64) (n : Nat) : Nat := if a.toNat % Nat.min n 8 = 0 then Nat.min n 8 else 1

/-- The scope of a release at a place, by its tier (R67). -/
def spotScope : Spot → Nat
  | .mem _ _ t _ => tierScope t.leaf
  | .pad _ _ _ => padScope

/-- A release store is a release of the prior accesses of every lane whose store it is, and of their twins (R62, R94, R214, R215, R275). -/
def relWriter (s : State) (grain : Nat) (rel : Bool) (x : Spot) (as : List Agent) : Writer :=
  let w := laneWriter s as grain
  if rel then { w with rel := (withTwins s as).map (fun a => { scope := spotScope x, agent := a, view := released s a }) ++ w.rel } else w

/-- The lanes that store a byte (R214). -/
def storers (n : Nat) (st : List (Nat × W64 × List Byte × List Spot)) (x : Nat) : List Nat :=
  (st.filter fun (_, a, _, _) => a.toNat ≤ x && x < a.toNat + n).map (·.1)

/-- Lane l with the lower lanes that store the same byte (R214). -/
def lowerStores (n : Nat) (st : List (Nat × W64 × List Byte × List Spot)) (l x : Nat) : List Nat := l :: (storers n st x).filter (· < l)

/-- The lanes whose one store a byte of lane l's is, the highest first: none where a higher lane than l stores the byte (R214). -/
def coStores (n : Nat) (st : List (Nat × W64 × List Byte × List Spot)) (l x : Nat) : List Nat :=
  if (storers n st x).any (l < ·) then [] else lowerStores n st l x

/-- The lanes' stores outside a region, in ascending lane order; a byte that several lanes write is written once, by the highest (R214). -/
def storeOut (c : Ctx) (s : State) (prim rel : Bool) (n : Nat) (st : List (Nat × W64 × List Byte × List Spot)) : State :=
  st.foldl (fun s (l, a, bs, spots) =>
    let s1 := touchSpots s (laneEnv s c.g l) .write spots
    writeKept s1 (relWriter s1 (grainOf a n) rel) prim a.toNat (fun x => (coStores n st l x).map (agentOf c.g)) spots bs) s

/-- The lanes' stores stay in the core, in ascending lane order (R101). -/
def storeHold (c : Ctx) (s : State) (n : Nat) (st : List (Nat × W64 × List Byte × List Spot)) : State :=
  let s1 := st.foldl (fun s (l, _, _, spots) => touchSpots s (laneEnv s c.g l) .write spots) s
  modCore s1 (groupTile s1 c.g) fun k => { k with stores := k.stores ++ st.map fun (l, a, bs, spots) =>
    { who := c.g.who, lane := l, va := a, grain := grainOf a n, spots := spots
      cells := (span a.toNat n).zipWith (fun x b => (coStores n st l x, b)) bs } }

/-- A store that was held in a core is performed at its places (R101). -/
def writeHeld (s : State) (g : Group) (h : HeldStore) (spots : List Spot) : State :=
  writeKept s (fun _ as => laneWriter s as h.grain) true h.va.toNat (fun x => ((nth ([], 0) h.cells (x - h.va.toNat)).1).map (agentOf g)) spots (h.cells.map (·.2))

/-- A held store is performed: one whose translation is stale is translated again, and a fault then ends the launch (R101, R340); it waits for a frame
that is being zeroed (R344). That of a group that has ended is dropped (R305). -/
def performHeld (s : State) (tile : Nat) (h : HeldStore) (hs : List HeldStore) : State :=
  let put (s : State) (l : List HeldStore) : State := modCore s tile fun k => { k with stores := l }
  match findGroup s h.who with
  | none => put s hs
  | some g =>
    let t := teamOf s g.team
    let n := h.cells.length
    if t.status != .resident then s
    else if h.stale && !inAperture h.va.toNat n then
      match lookAt s (laneEnv s g h.lane) .write h.va.toNat n with
      | (s1, .hit x) => put (writeHeld (touchSpots s1 (laneEnv s1 g h.lane) .write x) g h x) hs
      | (s1, .stop c _) => failLaunch (put s1 hs) t (BitVec.ofNat 8 c) (fwhoOf t g)
      | (s1, .zeroing a f m) => startZero s1 a f m
    else put (writeHeld s g h (spotsNow s g.team h.va.toNat n h.spots)) hs

/-- The oldest store of a core leaves it, unless the core is frozen (R101). -/
def leaveStore (s : State) (tile : Nat) : State :=
  let k := coreOf s tile
  match k.stores with
  | h :: hs => if k.frozen.isSome || k.dbgFrozen then s else performHeld s tile h hs
  | [] => s

/-- The lanes' stores into the store gate: lanes that would add a 65th line trap 0x30 (R58, R59, R214). -/
def storeGate (c : Ctx) (s : State) (r : Region) (st : List (Nat × W64 × List Byte × List Spot)) : State × List Hit :=
  let (gate, sig, hits, s1) := st.foldl (fun (gate, sig, hits, s) (l, a, bs, spots) =>
    let ps := piecesOf a.toNat bs spots
    let new := ps.foldl (gatePiece fun x => ((lowerStores bs.length st l x).map fun k => (c.g.lane k).tid.toNat, grainOf a bs.length)) gate
    if 64 < new.length then (gate, sig, hits ++ [({ lane := l, cause := 0x30, addr := a, bytes := bs.length, kind := 1 } : Hit)], s)
    else (new, ps.foldl foldSig sig, hits, touchSpots s (laneEnv s c.g l) .write spots)) (r.gate, r.sig, ([] : List Hit), s)
  (modGroup s1 c.g.who fun g => { g with region := some { r with gate := gate, sig := sig } }, hits)

/-- An effect that a paired run performs after its signatures compare (R62): `lead` answers the primary's result and what it forwards. -/
def pairRun (c : Ctx) (s : State) (sig : W64) (lead : State → Res × List W64) (follow : State → List W64 → Res) : Res :=
  match pairMeet s c.g c.pc c.act sig with
  | .alone => (lead s).1
  | .lead => let (r, vs) := lead s; if r.wait.isSome then r else { r with s := forward r.s c.g c.pc c.act vs }
  | .follow s1 vs => follow s1 vs
  | .wait s1 => { s := s1, wait := some (.other, 0), keep := true }
  | .differ w x => { s := pairDiffer s c.g w x c.pc, wait := some (.other, 0), keep := true }

/-- A store of n bytes per lane (R214, R215); with `hold` one outside a region and a paired run stays in the core (R101). -/
def storeRes (c : Ctx) (d b o : BitVec 7) (n : Nat) (rel : Bool) (hold : Bool := false) : Res :=
  let r := lookLanes c (if rel then .release else .write) (c.addr b o n) n rel
  match r.zero with
  | some (a, f, m) => { s := startZero r.s a f m, wait := some (.tlbmiss, c.addr b o n c.first), keep := true }
  | none =>
    let st := r.spots.map fun (l, x) => (l, c.addr b o n l, storeData c d n l, x)
    match c.g.region with
    | some q => let (s1, h) := storeGate c r.s q st; { s := s1, hits := r.hits ++ h }
    | none =>
      if st.isEmpty then { s := r.s, hits := r.hits }
      else if hold && !isPaired (teamOf c.s c.g.team) then { s := storeHold c r.s n st, hits := r.hits }
      else
        let sig := (st.flatMap fun (_, a, bs, x) => piecesOf a.toNat bs x).foldl foldSig 0
        pairRun c r.s sig (fun s => ({ s := storeOut c s true rel n st, hits := r.hits }, []))
          fun s _ => { s := storeOut c s false rel n st, hits := r.hits }

/-- ST_B8 (R214). -/
def execStB8 (d b o : BitVec 7) (la : BitVec 4) (s : State) : Host.Outcome State Fault Refusal :=
  issue (.stB8 d b o la) s fun c => storeRes c d b o 1 false

/-- ST_B16 (R214). -/
def execStB16 (d b o : BitVec 7) (la : BitVec 4) (s : State) : Host.Outcome State Fault Refusal :=
  issue (.stB16 d b o la) s fun c => storeRes c d b o 2 false

/-- ST_B32 (R214). -/
def execStB32 (d b o : BitVec 7) (la : BitVec 4) (s : State) : Host.Outcome State Fault Refusal :=
  issue (.stB32 d b o la) s fun c => storeRes c d b o 4 false

/-- ST_B64 (R214). -/
def execStB64 (d b o : BitVec 7) (la : BitVec 4) (s : State) : Host.Outcome State Fault Refusal :=
  issue (.stB64 d b o la) s fun c => storeRes c d b o 8 false

/-- ST_B128 (R214). -/
def execStB128 (d b o : BitVec 7) (la : BitVec 4) (s : State) : Host.Outcome State Fault Refusal :=
  issue (.stB128 d b o la) s fun c => storeRes c d b o 16 false

/-- ST_REL_B32 (R215). -/
def execStRelB32 (d b o : BitVec 7) (la : BitVec 4) (s : State) : Host.Outcome State Fault Refusal :=
  issue (.stRelB32 d b o la) s fun c => storeRes c d b o 4 true

/-- ST_REL_B64 (R215). -/
def execStRelB64 (d b o : BitVec 7) (la : BitVec 4) (s : State) : Host.Outcome State Fault Refusal :=
  issue (.stRelB64 d b o la) s fun c => storeRes c d b o 8 true

/-- A plain store issues and stays in the core (R101; log 51); of another instruction, none. -/
def heldIssue (i : Instr) (s : State) : Option (Host.Outcome State Fault Refusal) :=
  let run (d b o : BitVec 7) (n : Nat) := some (issue i s fun c => storeRes c d b o n false true)
  match i with
  | .stB8 d b o _ => run d b o 1
  | .stB16 d b o _ => run d b o 2
  | .stB32 d b o _ => run d b o 4
  | .stB64 d b o _ => run d b o 8
  | .stB128 d b o _ => run d b o 16
  | _ => none

/-- PREFETCH (R216): a lane whose access would fault does nothing; no value changes. -/
def execPrefetch (b o : BitVec 7) (la : BitVec 4) (s : State) : Host.Outcome State Fault Refusal :=
  issue (.prefetch b o la) s fun c =>
    { s := c.lanes.foldl (fun s l =>
        let env := laneEnv s c.g l
        match lookAt s env .read (c.addr b o 128 l).toNat 1 with
        | (s1, .hit x) => touchSpots s1 env .read x
        | (s1, _) => s1) c.s }

/-- The lines of physical memory that a cache operation names: one line, or the 32 lines of the 4 KiB page, each where a running swap has it (R216,
R350). -/
def physLines (s : State) (page : Bool) (va : Nat) (t : Tr) (pa : Nat) : List Nat :=
  if page then (upto 32).map fun j => routeAlias s (swapRoute s { t with pa := t.pa - va % 4096 + 128 * j }) / 128 else [routeAlias s pa / 128]

/-- A cache operation of one lane (R216): it traps as a load does, except that a page that is not present completes with no effect. After an
invalidation the lane's later loads of the lines are refreshed, and the core's and its cluster's copies are gone; a flush leaves no dirty byte of them. -/
def cacheLane (c : Ctx) (b o : BitVec 7) (inv page : Bool) (r : Reads) (l : Nat) : Reads :=
  let a := c.addr b o 128 l
  let env := laneEnv r.s c.g l
  match lookAt r.s env .read a.toNat 1 with
  | (s1, .stop cause tok) =>
    if cause = 0x10 then { r with s := s1 }
    else { r with s := s1, hits := r.hits ++ [{ lane := l, cause := cause, token := tok, addr := a, bytes := 128, kind := 0 }] }
  | (s1, .hit (.mem va n t pa :: x)) =>
    let s2 := touchSpots s1 env .read (.mem va n t pa :: x)
    let gated (k : Nat) : Bool := match c.g.region with
      | some q => q.gate.any fun g => !g.pad && routeAlias s2 (gateAt s2 g) / 128 == k
      | none => false
    let lines := (physLines s2 page va t pa).filter fun k => !gated k
    let me := agentOf c.g l
    let tile := groupTile s2 c.g
    { r with s := if inv then setOrder (dropLines s2 (· == tile) (· == tile / 5) lines.contains) me ((orderOf s2 me).refresh (matesOf c.g) me lines)
                  else { s2 with dirty := s2.dirty.filter fun k => !lines.contains k } }
  | (s1, _) => { r with s := s1 }

/-- A cache operation (R216). -/
def cacheRes (c : Ctx) (b o : BitVec 7) (inv page : Bool) : Res :=
  let r := c.lanes.foldl (cacheLane c b o inv page) { s := c.s }
  { s := r.s, hits := r.hits }

/-- CINV_LINE (R216). -/
def execCinvLine (b o : BitVec 7) (la : BitVec 4) (s : State) : Host.Outcome State Fault Refusal :=
  issue (.cinvLine b o la) s fun c => cacheRes c b o true false

/-- CFLUSH_LINE (R216): no value that a load returns changes. -/
def execCflushLine (b o : BitVec 7) (la : BitVec 4) (s : State) : Host.Outcome State Fault Refusal :=
  issue (.cflushLine b o la) s fun c => cacheRes c b o false false

/-- CINV_PAGE (R216). -/
def execCinvPage (b o : BitVec 7) (la : BitVec 4) (s : State) : Host.Outcome State Fault Refusal :=
  issue (.cinvPage b o la) s fun c => cacheRes c b o true true

/-- The read-modify-writes of the lanes that may go on, in ascending lane order (R218): the old values by lane. Each reads the store immediately before
its own (R93); in a paired run it is the twin's read too (R62). -/
def rmwLanes (c : Ctx) (s : State) (n : Nat) (addr : Nat → W64) (op : Nat → Nat → Nat) (st : List (Nat × List Spot)) : State × List (Nat × Nat) :=
  st.foldl (fun (s, olds) (l, x) =>
    let s1 := touchSpots s (laneEnv s c.g l) .atomic x
    let (s2, bs) := readSpots s1 { laneEnv s1 c.g l with now := true, size := n, also := twinAgent s1 (agentOf c.g l) } x
    let old := ofBytes bs
    (writeKept s2 (fun _ as => { laneWriter s2 as n with atomic := true }) true (addr l).toNat (fun _ => [agentOf c.g l]) x (toBytes n (op l old)),
      olds ++ [(l, old)])) (s, [])

/-- The signature of the lanes' operands of an atomic: address and `m` registers from d (R62). -/
def atomicSig (c : Ctx) (d : BitVec 7) (m : Nat) (addr : Nat → W64) (lanes : List Nat) : W64 :=
  lanes.foldl (fun sig l => crc64 sig (toBytes 8 (addr l).toNat ++ (upto m).flatMap fun j => toBytes 4 (c.lvk d j l).toNat)) 1

/-- An atomic of n bytes with m operand registers (R217, R218): the result is U when exactly one lane is active. In a paired run the primary alone
performs it, on the scratchpad too (R62; log 82). -/
def atomicRes (c : Ctx) (d b o : BitVec 7) (n m : Nat) (op : Nat → Nat → Nat) : Res :=
  let r := lookLanes c .atomic (c.addr b o n) n true
  match r.zero with
  | some (a, f, k) => { s := startZero r.s a f k, wait := some (.tlbmiss, c.addr b o n c.first), keep := true }
  | none =>
    let put (s : State) (olds : List (Nat × Nat)) : Res :=
      { s := s, hits := r.hits
        regs := if olds.isEmpty then [] else loadRegs c d (c.lanes.length == 1) (n / 4) fun l => ((firstWhere (fun x => x.1 == l) olds).map (·.2)).getD (nth (0, 0) olds 0).2 }
    if r.spots.isEmpty then { s := r.s, hits := r.hits }
    else
      pairRun c r.s (atomicSig c d m (c.addr b o n) (r.spots.map (·.1)))
        (fun s => let (s1, olds) := rmwLanes c s n (c.addr b o n) op r.spots; (put s1 olds, olds.map fun x => BitVec.ofNat 64 x.2))
        fun s vs => put s ((r.spots.map (·.1)).zip (vs.map (·.toNat)))

/-- ATOM_ADD_32 (R217). -/
def execAtomAdd32 (d b o : BitVec 7) (la : BitVec 4) (s : State) : Host.Outcome State Fault Refusal :=
  issue (.atomAdd32 d b o la) s fun c => atomicRes c d b o 4 1 fun l x => (x + (c.lv d l).toNat) % 2 ^ 32

/-- ATOM_ADD_64 (R217). -/
def execAtomAdd64 (d b o : BitVec 7) (la : BitVec 4) (s : State) : Host.Outcome State Fault Refusal :=
  issue (.atomAdd64 d b o la) s fun c => atomicRes c d b o 8 2 fun l x => (x + (c.pv d l).toNat) % 2 ^ 64

/-- ATOM_MIN_I32 (R217). -/
def execAtomMinI32 (d b o : BitVec 7) (la : BitVec 4) (s : State) : Host.Outcome State Fault Refusal :=
  issue (.atomMinI32 d b o la) s fun c => atomicRes c d b o 4 1 fun l x => if sextInt 32 x ≤ (c.lv d l).toInt then x else (c.lv d l).toNat

/-- ATOM_MAX_I32 (R217). -/
def execAtomMaxI32 (d b o : BitVec 7) (la : BitVec 4) (s : State) : Host.Outcome State Fault Refusal :=
  issue (.atomMaxI32 d b o la) s fun c => atomicRes c d b o 4 1 fun l x => if (c.lv d l).toInt ≤ sextInt 32 x then x else (c.lv d l).toNat

/-- ATOM_MIN_N32 (R217). -/
def execAtomMinN32 (d b o : BitVec 7) (la : BitVec 4) (s : State) : Host.Outcome State Fault Refusal :=
  issue (.atomMinN32 d b o la) s fun c => atomicRes c d b o 4 1 fun l x => Nat.min x (c.lv d l).toNat

/-- ATOM_MAX_N32 (R217). -/
def execAtomMaxN32 (d b o : BitVec 7) (la : BitVec 4) (s : State) : Host.Outcome State Fault Refusal :=
  issue (.atomMaxN32 d b o la) s fun c => atomicRes c d b o 4 1 fun l x => Nat.max x (c.lv d l).toNat

/-- ATOM_AND (R217). -/
def execAtomAnd (d b o : BitVec 7) (la : BitVec 4) (s : State) : Host.Outcome State Fault Refusal :=
  issue (.atomAnd d b o la) s fun c => atomicRes c d b o 4 1 fun l x => x &&& (c.lv d l).toNat

/-- ATOM_OR (R217). -/
def execAtomOr (d b o : BitVec 7) (la : BitVec 4) (s : State) : Host.Outcome State Fault Refusal :=
  issue (.atomOr d b o la) s fun c => atomicRes c d b o 4 1 fun l x => x ||| (c.lv d l).toNat

/-- ATOM_XOR (R217). -/
def execAtomXor (d b o : BitVec 7) (la : BitVec 4) (s : State) : Host.Outcome State Fault Refusal :=
  issue (.atomXor d b o la) s fun c => atomicRes c d b o 4 1 fun l x => x ^^^ (c.lv d l).toNat

/-- ATOM_XCHG_32 (R217). -/
def execAtomXchg32 (d b o : BitVec 7) (la : BitVec 4) (s : State) : Host.Outcome State Fault Refusal :=
  issue (.atomXchg32 d b o la) s fun c => atomicRes c d b o 4 1 fun l _ => (c.lv d l).toNat

/-- ATOM_XCHG_64 (R217). -/
def execAtomXchg64 (d b o : BitVec 7) (la : BitVec 4) (s : State) : Host.Outcome State Fault Refusal :=
  issue (.atomXchg64 d b o la) s fun c => atomicRes c d b o 8 2 fun l _ => (c.pv d l).toNat

/-- ATOM_CAS_32 (R217). -/
def execAtomCas32 (d b o : BitVec 7) (la : BitVec 4) (s : State) : Host.Outcome State Fault Refusal :=
  issue (.atomCas32 d b o la) s fun c => atomicRes c d b o 4 2 fun l x => if x = (c.lv d l).toNat then (c.lvk d 1 l).toNat else x

/-- ATOM_CAS_64 (R217). -/
def execAtomCas64 (d b o : BitVec 7) (la : BitVec 4) (s : State) : Host.Outcome State Fault Refusal :=
  issue (.atomCas64 d b o la) s fun c => atomicRes c d b o 8 4 fun l x =>
    if x = (c.pv d l).toNat then (c.lvk d 3 l ++ c.lvk d 2 l).toNat else x

/-- ATOM_FADD_F32 (R217): RNE, whatever %fpcr holds; no flag. -/
def execAtomFaddF32 (d b o : BitVec 7) (la : BitVec 4) (s : State) : Host.Outcome State Fault Refusal :=
  issue (.atomFaddF32 d b o la) s fun c => atomicRes c d b o 4 1 fun l x =>
    (fmtF32.addV .rne false (fmtF32.decode x) (fmtF32.decode (c.lv d l).toNat)).1

/-- A fabric operation of the lanes is neither written at its destination nor failed (R219). -/
def fabricOwed (c : Ctx) : Bool :=
  let mine := c.lanes.map fun l => (c.g.lane l).tid
  c.s.fabOps.any fun (_, x) => match x with
    | some op => op.team == c.g.team && op.tids.any mine.contains
    | none => false

/-- FENCE (R91, R94, R96, R97, R219): each active lane fences at the scope. -/
def execFence (i : BitVec 14) (s : State) : Host.Outcome State Fault Refusal :=
  issue (.fence i) s fun c =>
    let scope := i.toNat % 8
    let acq := i.toNat / 8 % 2 == 1
    let rel := i.toNat / 16 % 2 == 1
    if rel && scope = 5 && fabricOwed c then { s := c.s, wait := some (.memwait, 0) }
    else { s := (agentsOf c.g c.act).foldl (fenceAgent (matesOf c.g) scope acq rel) c.s }

/-- The condition of mwait (R220). -/
def mwaitHolds (k : BitVec 4) (v w : W64) : Bool :=
  match k.toNat with
  | 0 => v != w
  | 1 => v == w
  | 2 => w.toNat ≤ v.toNat
  | _ => w.toNat < v.toNat

/-- What the lanes of an mwait have found so far, and the causes that a poll met. -/
structure Polls where
  s : State
  got : List Got
  hits : List Hit := []

/-- What a poll reads (R99, R220): a satisfying read acquires, what an mwait alone observes too; on a UN page it reads as after an acquire fence at device
scope; `now` reads what stands there. -/
def pollEnv (s : State) (g : Group) (l : Nat) (now : Bool) : Env :=
  let env := laneEnv s g l
  { env with acq := .wait, now := now, order := { env.order with un := (env.order.acquireFence (matesOf g) (agentOf g l) 3).un } }

/-- One poll of a lane that still waits (R220): a value that is visible and satisfies the condition is not missed for good. -/
def pollLane (c : Ctx) (d b o : BitVec 7) (k : BitVec 4) (r : Polls) (l : Nat) : Polls :=
  let a := c.addr b o 8 l
  let hit (s : State) (cause : Nat) (tok : W64) : Polls :=
    { r with s := s, hits := r.hits ++ [{ lane := l, cause := cause, token := tok, addr := a, bytes := 8, kind := 0, unit := if cause = 0x15 then padUnit c s a 8 else none }] }
  if r.got.any fun x => x.pc == c.pc && x.lane == l then r
  else if a.toNat % 8 != 0 then hit r.s 5 0
  else
    let env := laneEnv r.s c.g l
    match lookAt r.s env .read a.toNat 8 with
    | (s1, .stop cause tok) => hit s1 cause tok
    | (s1, .zeroing _ _ _) => hit s1 0x10 0
    | (s1, .hit x) =>
      let s2 := touchSpots s1 env .read x
      let above := gatedBytes c.g a.toNat 8
      let see (now : Bool) : State × W64 :=
        let (s3, bs) := readSpots s2 (pollEnv s2 c.g l now) x
        (s3, BitVec.ofNat 64 (ofBytes (putOver bs above)))
      let met (v : State × W64) : Polls := { r with s := v.1, got := r.got ++ [{ pc := c.pc, lane := l, val := v.2 }] }
      if mwaitHolds k (see false).2 (c.pv d l) then met (see false)
      else if mwaitHolds k (see true).2 (c.pv d l) then met (see true)
      else { r with s := { s2 with free := (see false).1.free } }

/-- Agents of the twin see what the primary's had seen: a value that was forwarded stands for the primary's read (R62, R94). -/
def followTwin (s : State) (as : List Agent) : State :=
  as.foldl (fun s a => (twinAgent s a).foldl (fun s b =>
    let o := orderOf s a
    let p := orderOf s b
    setOrder s a { o with view := o.view.join p.view, un := o.un.join p.un, read := o.read ++ p.read.filter fun r => !o.read.contains r }) s) s

/-- What the twin of a paired run has been given for an mwait (R220); the alignment of its own address is checked as everywhere (R104). -/
def takeGiven (c : Ctx) (b o : BitVec 7) : Polls :=
  let mine (x : W64 × List W64) : Bool := x.1 == c.pc && ((x.2.headD 0).setWidth 32 &&& ~~~c.act == 0)
  let m := (c.g.fwd.filter mine).foldl (fun m x => m ||| (x.2.headD 0).setWidth 32) 0
  { s := modGroup (followTwin c.s (agentsOf c.g m)) c.g.who fun g => { g with
      fwd := g.fwd.filter fun x => !mine x
      region := g.region.map fun r => { r with used := r.used ++ g.fwd.filter mine } }
    got := c.g.got ++ (c.g.fwd.filter mine).flatMap fun x =>
      ((lanesOf ((x.2.headD 0).setWidth 32)).zip (x.2.drop 1)).map fun (l, v) => { pc := c.pc, lane := l, val := v }
    hits := (c.lanes.filter fun l => (c.addr b o 8 l).toNat % 8 != 0).map fun l => { lane := l, cause := 5, addr := c.addr b o 8 l, bytes := 8 } }

/-- MWAIT (R220): lanes that have found their value keep it; a lane that meets a cause splits off at once; the instruction completes for the
lanes that are left once each has found its value, which acquires. Lanes at one address that found different values get G (log 44). -/
def execMwait (d b o : BitVec 7) (k : BitVec 4) (s : State) : Host.Outcome State Fault Refusal :=
  issue (.mwait d b o k) s fun c =>
    let paired := isPaired c.t
    let r := if paired && !c.t.primary then takeGiven c b o else c.lanes.foldl (pollLane c d b o k) { s := c.s, got := c.g.got }
    let has (l : Nat) : Bool := r.got.any fun x => x.pc == c.pc && x.lane == l
    let stop := laneSet fun l => r.hits.any fun h => h.lane == l
    let rest := c.act &&& ~~~stop
    let val (l : Nat) : W64 := ((firstWhere (fun x => x.pc == c.pc && x.lane == l) r.got).map (·.val)).getD 0
    let s1 := modGroup r.s c.g.who fun g => { g with got := r.got }
    if paired && (twinOf c.s c.g).isNone && twinGone c.s c.g && !c.t.primary && !(lanesOf rest).all has then lostTwin c
    else if (lanesOf rest).all has then
      let s2 := acquire s1 c.g rest
      let v0 := val (lowestLane rest)
      { s := if paired && c.t.primary && rest != 0 then forwardOnly s2 c.g c.pc rest ((lanesOf rest).map val) else s2
        hits := r.hits
        regs := if rest = 0 then [] else pairRes c d (c.addrU b o && (lanesOf rest).all fun l => val l == v0) fun l => if hasLane rest l then val l else v0 }
    else
      let met := laneSet fun l => hasLane rest l && has l
      { s := if r.hits.isEmpty then s1 else raise s1 c.g.who met r.hits, wait := some (.mwait, c.addr b o 8 (lowestLane (rest &&& ~~~met))), keep := true }

/-- MWAIT_SATISFY (R220): the device polls a waiting mwait. -/
def execMwaitSatisfy (w : Who) (l : Nat) (s : State) : Host.Outcome State Fault Refusal :=
  match turnIssue s w l with
  | (s1, some (.mwait d b o k)) => execMwait d b o k s1
  | _ => .next s

/-- Every lane of the path reaches a barrier (R221). -/
def barrierRes (c : Ctx) (at_ : WaitAt) : Res :=
  let w : Wait := { kind := if at_ = .barTeam then .barTeam else .barRole, pc := c.pc, major := 0x63, since := c.s.timeFs }
  let s1 := modGroup c.s c.g.who fun g =>
    { g.modLanes c.path (fun _ x => { x with st := .waiting, at_ := at_ }) with
      waits := if g.waits.any (fun x => x.kind == w.kind && x.pc == w.pc) then g.waits else w :: g.waits }
  { s := settleBarriers s1 c.g.team [c.g.role], gone := c.path }

/-- BAR_TEAM (R221). -/
def execBarTeam (s : State) : Host.Outcome State Fault Refusal := issue .barTeam s fun c => barrierRes c .barTeam

/-- BAR_ROLE (R221). -/
def execBarRole (s : State) : Host.Outcome State Fault Refusal := issue .barRole s fun c => barrierRes c .barRole

end Sys2Proof.Machine
end

