-- ==== Sys2Proof/Machine/Tiles.lean ====
section
/-!
DEFINITION. Meanings of the muster instructions (R86, R87, R222), of the tile instructions (R73 to R82, R223, R224), and of the issue of
copy-engine commands with their checks (R225 to R234).
-/

namespace Sys2Proof.Machine

/-- A group-once instruction meets one cause on all of its active lanes (R209). -/
def onceTrap (c : Ctx) (cause : Nat) : Res := { s := c.s, hits := allHit c cause 0 0 0 0 }

/-- The lanes of an instruction acquire a view (R94, R98, R99). -/
def acquireAct (c : Ctx) (s : State) (v : View) : State := acquireAll s (agentsOf c.g c.act) v

/-- What the lanes of an instruction release (R94, R99). -/
def releaseAct (c : Ctx) (s : State) : View := releasedBy s (agentsOf c.g c.act)

/-! ## Musters -/

/-- A muster slot (R86). -/
structure Muster where
  owed : Nat
  quorum : Nat
  load : W32
  round : W32
  standing : W32
deriving DecidableEq, Repr

/-- The place of muster slot i in a team's SRAM (R86). -/
def musterOff (t : Team) (i : Nat) : Nat := nth 0 t.pad 0 * Config.bankBytes + 16 * i

/-- A slot as it stands. -/
def readMuster (s : State) (t : Team) (i : Nat) : Muster :=
  let v := ofBytes (sramRead s t.cluster (musterOff t i) 16)
  { owed := bits v 0 16, quorum := bits v 16 16, load := BitVec.ofNat 32 (bits v 32 32), round := BitVec.ofNat 32 (bits v 64 32)
    standing := BitVec.ofNat 32 (bits v 96 32) }

/-- Writes a slot. -/
def writeMuster (s : State) (t : Team) (i : Nat) (m : Muster) : State :=
  sramWrite s t.cluster (musterOff t i)
    (toBytes 2 m.owed ++ toBytes 2 m.quorum ++ toBytes 4 m.load.toNat ++ toBytes 4 m.round.toNat ++ toBytes 4 m.standing.toNat)

/-- The updates of one cycle: joins, owed bytes, landed bytes; then the one test (R87). -/
def musterUpdate (m : Muster) (joins : Nat) (owed landed : W32) : Muster :=
  let m1 := { m with owed := (m.owed + 65536 - joins) % 65536, load := m.load - landed + owed }
  if m1.owed = 0 && m1.load = 0 then { m1 with round := m1.round + 1, owed := m1.quorum, load := m1.standing } else m1

/-- An update of a slot, with what it releases: it is applied, with the others of its cycle, when the cycle ends (R87). A team without scratchpad
has no slot (log 93). -/
def updateMuster (s : State) (k i joins : Nat) (owed landed : W32) (v : View) : State :=
  if padSize (teamOf s k) = 0 then s
  else modTeam s k fun t =>
    let (j, o, l) := (mget none t.musDue i).getD (0, 0, 0)
    let (cur, last) := mget ({}, {}) t.musters i
    { t with musDue := mput none t.musDue i (some (j + joins, o + owed, l + landed)), musters := mput ({}, {}) t.musters i (cur.join v, last) }

/-- A slot's updates of one cycle are applied together, and the slot is tested once; an advance releases what the round gathered (R87). -/
def settleMuster (k : Nat) (s : State) (x : Nat × Option (Nat × W32 × W32)) : State :=
  match x with
  | (_, none) => s
  | (i, some (joins, owed, landed)) =>
    let t := teamOf s k
    let m := readMuster s t i
    let n := musterUpdate m joins owed landed
    let s1 := writeMuster s t i n
    if n.round = m.round then s1
    else modTeam s1 k fun t =>
      let (cur, last) := mget ({}, {}) t.musters i
      { t with musters := mput ({}, {}) t.musters i ({}, last.join cur) }

/-- The cycle ends for the muster slots of a team (R87). -/
def settleMusters (s : State) (k : Nat) : State :=
  let due := (teamOf s k).musDue
  if due.isEmpty then s else due.foldl (settleMuster k) (modTeam s k fun t => { t with musDue := [] })

/-- The slot that an address names (R64, R65, R222): 0x11 where it is not canonical or beyond the scratchpad, 0x22 elsewhere. -/
def musterIndex (t : Team) (a : W64) : Except Nat Nat :=
  let off := a.toNat - Config.aperture
  if !canonical a.toNat then .error 0x11
  else if a.toNat < Config.aperture || Config.aperture + Config.apertureBytes ≤ a.toNat then .error 0x22
  else if padSize t ≤ off then .error 0x11
  else if off % 16 != 0 || off < 16 || 1024 ≤ off then .error 0x22
  else .ok (off / 16)

/-- A muster instruction on the slot that its address names. -/
def musterRes (c : Ctx) (b o : BitVec 7) (f : Nat → Muster → Res) : Res :=
  match musterIndex c.t (c.addr b o 16 c.first) with
  | .error x => onceTrap c x
  | .ok i => f i (readMuster c.s c.t i)

/-- MUS_ARM (R222): ROUND is unchanged, and no test follows (R87). -/
def execMusArm (d b o : BitVec 7) (la : BitVec 4) (s : State) : Host.Outcome State Fault Refusal :=
  issue (.musArm d b o la) s fun c => musterRes c b o fun i m =>
    let n := (c.uv d).toNat % 65536
    { s := writeMuster c.s c.t i { m with owed := n, quorum := n, load := c.uvk d 1, standing := c.uvk d 1 } }

/-- MUS_JOIN (R222). -/
def execMusJoin (d b o : BitVec 7) (la : BitVec 4) (s : State) : Host.Outcome State Fault Refusal :=
  issue (.musJoin d b o la) s fun c => musterRes c b o fun i m =>
    { s := updateMuster c.s c.g.team i 1 0 0 (releaseAct c c.s), regs := uRes c d m.round }

/-- MUS_OWE (R222). -/
def execMusOwe (d b o : BitVec 7) (la : BitVec 4) (s : State) : Host.Outcome State Fault Refusal :=
  issue (.musOwe d b o la) s fun c => musterRes c b o fun i _ => { s := updateMuster c.s c.g.team i 0 (c.uv d) 0 {} }

/-- MUS_HOLD (R87, R222): waits while ROUND is d; then an acquire of what the advances released. -/
def execMusHold (d b o : BitVec 7) (la : BitVec 4) (s : State) : Host.Outcome State Fault Refusal :=
  issue (.musHold d b o la) s fun c => musterRes c b o fun i m =>
    if m.round = c.uv d then { s := c.s, wait := some (.musHold, c.addr b o 16 c.first) } else { s := acquireAct c c.s (mget ({}, {}) c.t.musters i).2 }

/-! ## Tiles -/

/-- Bytes of a tile's stored range (R73). -/
def tileBytes (x : Tile) : Nat := (x.sizem1 + 1) * 128

/-- Aperture offset of a tile's first byte (R73). -/
def tileStart (x : Tile) : Nat := x.start * 128

/-- Expanded size of a tile (R73, R223). -/
def tileExpanded (x : Tile) : Nat := if x.cmp then (x.expm1 + 1) * 1024 else tileBytes x

/-- Block format codes (R74). -/
def blockFmt (f : Nat) : Bool := f == 6 || f == 7 || f == 8 || f == 10 || f == 11

/-- Element bytes and scale bytes of one unit, and what the unit count is a multiple of (R119). -/
def unitShape (f : Nat) : Nat × Nat × Nat :=
  match f with
  | 6 => (32, 1, 4)
  | 7 => (24, 1, 16)
  | 8 => (16, 1, 8)
  | 10 => (64, 2, 2)
  | _ => (16, 2, 8)

/-- Size of n units of a block format (R119). -/
def unitsSize (f n : Nat) : Nat := (unitShape f).1 * n + roundUp ((unitShape f).2.1 * n) 128

/-- The unit count of a size in a block format (R119); none when no count has that size. -/
def unitCount (f size : Nat) : Option Nat :=
  let (e, sc, m) := unitShape f
  firstWhere (fun n => n % m == 0 && n != 0 && unitsSize f n == size) (span (size / (e + sc) - 130) 132)

/-- The ranges of a tile: stored range and offset table. -/
def tileRanges (x : Tile) : List (Nat × Nat) := (tileStart x, tileBytes x) :: (if x.cmp then [(x.offt * 128, tabBytes x)] else [])

/-- An entry that tdef may write (R75). -/
def tileOk (t : Team) (i : Nat) (x : Tile) : Bool :=
  let inPad (r : Nat × Nat) : Bool := 1024 ≤ r.1 && r.1 + r.2 ≤ padSize t
  let clear (r : Nat × Nat) : Bool := !t.tiles.any fun (j, y) => j != i && y.valid && (tileRanges y).any fun q => overlap r.1 r.2 q.1 q.2
  (tileRanges x).all (fun r => inPad r && clear r) && x.fmt < 13
    && (!blockFmt x.fmt || (unitCount x.fmt (tileExpanded x)).isSome) && tileExpanded x ≤ 8388608

/-- Some earlier-issued engine operation that names the tile is incomplete, or its hand-back has not taken effect (R76, R82). -/
def tileInUse (t : Team) (i : Nat) : Bool := t.ops.any fun o => o.tiles.contains i

/-- An earlier-issued twait of the team still waits on tile i (R76). -/
def twaitHolds (s : State) (team i : Nat) : Bool :=
  s.groups.any fun g => g.team == team && g.waits.any fun w => w.kind == .twait && g.got.any fun x => x.pc == w.pc && x.val == BitVec.ofNat 64 i

/-- The entry that tdef's registers give (R223). -/
def tdefTile (w0 w1 w2 : Nat) : Tile :=
  { start := bits w0 0 16, sizem1 := bits w0 16 16, fmt := bits w1 0 4, cmp := bits w1 4 1 == 1, own := false, valid := true
    offt := bits w2 0 16, expm1 := bits w2 16 16 }

/-- TDEF (R75, R76, R223): with CLR set the entry stops being VALID and the other fields are ignored. -/
def execTdef (d : BitVec 7) (i : BitVec 6) (la : BitVec 4) (s : State) : Host.Outcome State Fault Refusal :=
  issue (.tdef d i la) s fun c =>
    let w1 := (c.uvk d 1).toNat
    let w2 := (c.uvk d 2).toNat
    let clr := bits w1 5 1 == 1
    let x := tdefTile (c.uv d).toNat w1 w2
    if w1 / 64 != 0 || (!clr && ((!x.cmp && w2 != 0) || !tileOk c.t i.toNat x)) then onceTrap c 0x20
    else if tileInUse c.t i.toNat || twaitHolds c.s c.g.team i.toNat then { s := c.s, wait := some (.tdef, 0) }
    else { s := modTile c.s c.g.team i.toNat fun old => if clr then { old with valid := false, own := false, status := 0, pend := false } else x }

/-- The tile index that a register gives (R224). -/
def tileArg (c : Ctx) (a : BitVec 7) : Nat := (c.uv a).toNat % 64

/-- TOWN (R224). -/
def execTown (d a : BitVec 7) (la : BitVec 4) (s : State) : Host.Outcome State Fault Refusal :=
  issue (.town d a la) s fun c =>
    let x := tileOf c.t (tileArg c a)
    let b (v : Bool) (i : Nat) : Nat := if v then 2 ^ i else 0
    { s := c.s, regs := uRes c d (BitVec.ofNat 32 (b x.own 0 + b x.pend 1 + b x.valid 2 + b x.cmp 3 + x.fmt * 16 + x.status.toNat * 256)) }

/-- TWAIT (R82, R224); one that waits notes its tile, which holds a later tdef (R76). -/
def execTwait (a : BitVec 7) (la : BitVec 4) (s : State) : Host.Outcome State Fault Refusal :=
  issue (.twait a la) s fun c =>
    let x := tileOf c.t (tileArg c a)
    if !x.valid then onceTrap c 0x20
    else if x.own then
      let mine (x : Got) : Bool := x.pc == c.pc && x.lane == lowestLane c.path
      { s := modGroup c.s c.g.who fun g => { g with
          got := { pc := c.pc, lane := lowestLane c.path, val := BitVec.ofNat 64 (tileArg c a) } :: g.got.filter fun x => !mine x }
        wait := some (.twait, 0), keep := true }
    else { s := acquireAct c c.s x.view }

/-- TGIVE (R81, R224): a release that engine operations on the tile take up; no effect on a tile that an engine owns. -/
def execTgive (a : BitVec 7) (la : BitVec 4) (s : State) : Host.Outcome State Fault Refusal :=
  issue (.tgive a la) s fun c =>
    let v := releaseAct c c.s
    if (tileOf c.t (tileArg c a)).valid then
      { s := modTile c.s c.g.team (tileArg c a) fun x => if x.own then x else { x with own := true, given := v } }
    else onceTrap c 0x20

/-! ## Copy-engine commands -/

/-- A copy command's fields (R226). -/
structure CopyForm where
  src : Nat
  dst : Nat
  comp : Nat
  csum : Bool
  mus : Nat
  rows : Nat
  srow : Nat
  sstr : Nat
  xf : Nat
  dstr : Nat
  reserved : Nat
deriving DecidableEq, Repr

/-- Word i of a command. -/
def cmdWord (regs : List W32) (i : Nat) : Nat := (nth 0 regs i).toNat

/-- The fields in registers d to d + 7 (R226). -/
def copyForm (r : List W32) : CopyForm :=
  let w4 := cmdWord r 4
  { src := cmdWord r 0 + cmdWord r 1 * 2 ^ 32, dst := cmdWord r 2 + cmdWord r 3 * 2 ^ 32, comp := bits w4 23 2, csum := bits w4 22 1 == 1
    mus := bits w4 16 6, rows := bits w4 0 16, srow := cmdWord r 5, sstr := cmdWord r 6, xf := bits (cmdWord r 7) 24 8
    dstr := bits (cmdWord r 7) 0 24, reserved := bits w4 25 7 }

/-- COMP's two bits (R226). -/
def CopyForm.handBack (f : CopyForm) : Bool := f.comp % 2 == 1
def CopyForm.status (f : CopyForm) : Bool := 2 ≤ f.comp

/-- The VALID tile whose stored range holds an aperture address (R226). -/
def tileAt (t : Team) (va : Nat) : Option (Nat × Tile) :=
  let off := va - Config.aperture
  firstWhere (fun (_, x) => x.valid && tileStart x ≤ off && off < tileStart x + tileBytes x) t.tiles

/-- The tile of a side; none for a memory side or an address in no tile. -/
def sideTile (t : Team) (va : Nat) : Option (Nat × Tile) := if inAperture va 1 then tileAt t va else none

/-- Element size of a tile format (R74). -/
def fmtBytes (f : Nat) : Nat := if f = 1 then 4 else if f = 2 || f = 3 then 2 else 1

/-- Element size of a command (R226, R227). -/
def elemSize (f : CopyForm) (src dst : Option Tile) : Nat :=
  let one (x : Tile) : Nat := if x.cmp && f.xf = 0 then 1 else fmtBytes x.fmt
  match src, dst with
  | some x, some y => Nat.min (one x) (one y)
  | some x, none => one x
  | none, some y => one y
  | none, none => 1

/-- The transform transposes (R226). -/
def CopyForm.turns (f : CopyForm) : Bool := f.xf == 3 || f.xf == 4

/-- Destination rows and the bytes of one (R226). -/
def destShape (f : CopyForm) (e : Nat) : Nat × Nat := if f.turns then (f.srow / e, f.rows * e) else (f.rows, f.srow)

/-- Address of source row r (R228, R231). -/
def srcRowAt (f : CopyForm) (idx : Option (List W32)) (r : Nat) : Nat :=
  match idx with
  | none => (f.src + r * f.sstr) % 2 ^ 64
  | some l => (BitVec.ofInt 64 ((f.src : Int) + (nth 0 l r).toInt * (f.sstr : Int))).toNat

/-- Rows of n bytes at addresses lie inside a tile's stored range. -/
def rowsInTile (x : Tile) (rows : List Nat) (n : Nat) : Bool :=
  n == 0 || rows.all fun a => Config.aperture + tileStart x ≤ a && a + n ≤ Config.aperture + tileStart x + tileBytes x

/-- Rows of n bytes at addresses cover exactly a size from a tile's start, without gaps. -/
def movesWhole (x : Tile) (rows : List Nat) (n : Nat) : Bool :=
  rows.length * n == tileExpanded x && ((upto rows.length).zip rows).all fun (i, a) => a == Config.aperture + tileStart x + i * n

/-- The cause that a command of cpy or cpyg, or a chain's record, meets at issue (R227, R229, R231); 0 for none. `bound`: the status queue of its
channel is bound. -/
def copyCause (t : Team) (bound : Bool) (idx : Option (List W32)) (f : CopyForm) : Nat :=
  let st := (sideTile t f.src).map (·.2)
  let dt := (sideTile t f.dst).map (·.2)
  let e := elemSize f st dt
  let (dn, dl) := destShape f e
  let srcRows := (upto f.rows).map (srcRowAt f idx)
  let dstRows := (upto dn).map fun k => (f.dst + k * f.dstr) % 2 ^ 64
  let sides := [st, dt].filterMap id
  let lost (va : Nat) (x : Option Tile) : Bool := inAperture va 1 && x.isNone
  let own := lost f.src st || lost f.dst dt || sides.any fun x => !x.own || x.pend
  let grows := f.xf == 1 || f.xf == 4
  let srcRange := match st with
    | some x => if grows && x.cmp then true else rowsInTile x srcRows f.srow
    | none => true
  let dstRange := match dt with
    | some x => if f.xf == 2 && x.cmp then true else rowsInTile x dstRows dl
    | none => true
  let fmts := match st, dt with | some x, some y => x.fmt == y.fmt | _, _ => true
  let multiples := [f.src, f.dst, f.srow, f.sstr, f.dstr].all fun v => v % e == 0
  let stride := dn ≤ 1 || dl ≤ f.dstr
  let total := f.rows * f.srow
  let growOk := !grows || (match st with
    | some x => x.cmp && f.src == Config.aperture + tileStart x && f.sstr == f.srow && total == tileExpanded x
    | none => false)
  let packOk := f.xf != 2 || ((match dt with
    | some x => x.cmp && f.dst == Config.aperture + tileStart x && f.dstr == f.srow && total == tileExpanded x
    | none => false) && !(st.any (·.cmp)))
  let turnOk := !f.turns || (!sides.isEmpty && !(f.xf == 3 && sides.any (·.cmp)) && !sides.any fun x => blockFmt x.fmt || x.fmt == 12)
  let wholeS := match st with | some x => !blockFmt x.fmt || (grows && x.cmp) || movesWhole x srcRows f.srow | none => true
  let wholeD := match dt with | some x => !blockFmt x.fmt || (f.xf == 2 && x.cmp) || movesWhole x dstRows dl | none => true
  let gatherOk := idx.isNone || (f.rows ≤ 32 && f.xf == 0)
  let form := f.reserved == 0 && f.xf ≤ 4 && srcRange && dstRange && fmts && multiples && stride && growOk && packOk && turnOk && wholeS && wholeD
    && gatherOk
  if own then 0x20 else if !form then 0x22 else if f.status && !bound then 0x23 else 0
/-- The launch binds queue q (R235, R309). -/
def queueBound (s : State) (t : Team) (q : Nat) : Bool := hasLane (teamLaunch s t).lrec.qbind q

/-- Commands that a channel has accepted and not completed (R225). -/
def chanLoad (h : Chan) : Nat := h.cmds.length + (if h.chain.isSome then 1 else if h.run.isSome then 1 else 0)

/-- Adds an engine operation that names tiles; a hand-back makes it pending (R82, R229, R266). -/
def addOp (t : Team) (tiles : List Nat) (hb cmu : Bool) : Team :=
  let t1 := { t with ops := t.ops ++ [{ id := t.nextOp, tiles := tiles, hb := hb, cmu := cmu }], nextOp := t.nextOp + 1 }
  if hb then tiles.foldl (fun t i => { t with tiles := mput {} t.tiles i { tileOf t i with pend := true } }) t1 else t1

/-- A tile with its number, as a list of its number. -/
def tileNo (x : Option (Nat × Tile)) : List Nat := match x with | some (i, _) => [i] | none => []

/-- A command with what its issue fixes: the engine operation of its tiles, the team's counts on the channel (R76, R84, R85, R229, R233). -/
def prepareCmd (t : Team) (ch : Nat) (cmd : Cmd) (first : W64) (hb csum : Bool) : Team × Cmd :=
  let k := countOf t ch
  let stamped := cmd.dstTile.isNone && (cmd.kind == .copy || cmd.kind == .gather)
  let cmd1 := { cmd with opId := t.nextOp, cnum := k.cmds + 1, seq := if stamped then k.stamped + 1 else 0, sum := if csum then k.sums + 1 else 0 }
  let t1 := addOp t (tileNo cmd.srcTile ++ (tileNo cmd.dstTile).filter fun i => !(tileNo cmd.srcTile).contains i) hb false
  (({ t1 with chans := mput {} t1.chans ch { k with
      cmds := k.cmds + 1, stamped := if stamped then k.stamped + 1 else k.stamped, wptr := first, view := {}
      sums := if csum then k.sums + 1 else k.sums } } : Team), cmd1)

/-- What the last tgive of a tile released (R81). -/
def givenView (x : Option (Nat × Tile)) : View := match x with | some (_, t) => t.given | none => {}

/-- A command is placed on its channel; a full channel waits (R225). -/
def placeCmd (c : Ctx) (ch : Nat) (cmd : Cmd) (first : W64) (hb csum : Bool) : Res :=
  if 16 ≤ chanLoad (chanOf c.s c.t.cluster ch) then { s := c.s, wait := some (.copyq, 0) }
  else
    let (t1, cmd1) := prepareCmd c.t ch { cmd with at_ := c.s.writes, view := (releaseAct c c.s).join ((givenView cmd.srcTile).join (givenView cmd.dstTile)) } first hb csum
    { s := modChan (modTeam c.s c.g.team fun _ => t1) c.t.cluster ch fun h => { h with cmds := h.cmds ++ [cmd1] } }

/-- The eight registers of a command. -/
def cmdRegs (c : Ctx) (d : BitVec 7) : List W32 := (upto 8).map fun k => c.uvk d k

/-- A copy or gather issues (R225, R227). -/
def copyIssue (c : Ctx) (d : BitVec 7) (ch : BitVec 3) (idx : Option (List W32)) : Res :=
  let r := cmdRegs c d
  let f := copyForm r
  let x := copyCause c.t (queueBound c.s c.t (ch.toNat / 2)) idx f
  if x != 0 then onceTrap c x
  else placeCmd c ch.toNat { team := c.g.team, g := c.g.idx, kind := if idx.isSome then .gather else .copy, regs := r, idx := idx.getD []
                             srcTile := sideTile c.t f.src, dstTile := sideTile c.t f.dst } (BitVec.ofNat 64 f.dst) f.handBack f.csum

/-- CPY (R225 to R227). -/
def execCpy (d : BitVec 7) (ch : BitVec 3) (la : BitVec 4) (s : State) : Host.Outcome State Fault Refusal :=
  issue (.cpy d ch la) s fun c => copyIssue c d ch none

/-- CPYG (R225, R231): row r's index is taken from lane slot r, whatever that lane's state. -/
def execCpyg (d i : BitVec 7) (ch : BitVec 3) (la : BitVec 4) (s : State) : Host.Outcome State Fault Refusal :=
  issue (.cpyg d i ch la) s fun c => copyIssue c d ch (some (lanes32.map (c.lv i)))

/-- The cause that cpyc meets at issue (R232). -/
def chainCause (bound : Bool) (r : List W32) : Nat :=
  let w4 := cmdWord r 4
  let zeroRest := [2, 3, 5, 6, 7].all fun k => cmdWord r k == 0
  if cmdWord r 0 % 64 != 0 || !zeroRest || w4 - bits w4 24 1 * 2 ^ 24 != 0 then 0x22
  else if bits w4 24 1 == 1 && !bound then 0x23 else 0

/-- CPYC (R225, R232): until its first record runs, its write pointer is a free value (log 1). -/
def execCpyc (d : BitVec 7) (ch : BitVec 3) (la : BitVec 4) (s : State) : Host.Outcome State Fault Refusal :=
  issue (.cpyc d ch la) s fun c =>
    let r := cmdRegs c d
    let x := chainCause (queueBound c.s c.t (ch.toNat / 2)) r
    if x != 0 then onceTrap c x
    else
      let p := placeCmd c ch.toNat { team := c.g.team, g := c.g.idx, kind := .chain, regs := r } (Config.freeWord c.s.free) false false
      if p.wait.isSome then p else { p with s := { p.s with free := p.s.free + 1 } }

/-- selk's fields (R234). -/
structure SelForm where
  keys : Nat
  out : Nat
  comp : Nat
  mus : Nat
  n : Nat
  low : Bool
  kt : Nat
  k : Nat
  ibase : Nat
  pairs : Bool
  reserved : Nat
deriving DecidableEq, Repr

/-- The fields in registers d to d + 7 (R234). -/
def selForm (r : List W32) : SelForm :=
  let w4 := cmdWord r 4
  let w5 := cmdWord r 5
  { keys := cmdWord r 0 + cmdWord r 1 * 2 ^ 32, out := cmdWord r 2 + cmdWord r 3 * 2 ^ 32, comp := bits w4 23 2, mus := bits w4 16 6
    n := bits w4 0 16, low := bits w5 20 1 == 1, kt := bits w5 16 4, k := bits w5 0 16, ibase := cmdWord r 6
    pairs := bits (cmdWord r 7) 0 1 == 1, reserved := bits w4 25 7 + bits w4 22 1 + bits w5 21 11 + cmdWord r 7 / 2 }

/-- Bytes of one result entry (R234). -/
def SelForm.entry (f : SelForm) : Nat := if f.pairs then 8 else 4

/-- The cause that selk meets at issue (R227, R229, R234); 0 for none. -/
def selCause (t : Team) (bound : Bool) (f : SelForm) : Nat :=
  let kt := (sideTile t f.keys).map (·.2)
  let ot := (sideTile t f.out).map (·.2)
  let lost (va : Nat) (x : Option Tile) : Bool := inAperture va 1 && x.isNone
  let own := lost f.keys kt || lost f.out ot || ([kt, ot].filterMap id).any fun x => !x.own || x.pend
  let keysOk := match kt with
    | some x => !x.cmp && x.fmt == (if f.kt = 0 then 1 else 0) && rowsInTile x [f.keys] (4 * f.n)
    | none => false
  let outOk := match ot with
    | some x => !x.cmp && x.fmt == 0 && rowsInTile x [f.out] (f.entry * f.k)
    | none => false
  let form := f.reserved == 0 && f.kt < 3 && f.n != 0 && 1 ≤ f.k && f.k ≤ f.n && f.keys % 4 == 0 && f.out % f.entry == 0 && keysOk && outOk
  if own then 0x20 else if !form then 0x22 else if 2 ≤ f.comp && !bound then 0x23 else 0

/-- SELK (R225, R234). -/
def execSelk (d : BitVec 7) (ch : BitVec 3) (la : BitVec 4) (s : State) : Host.Outcome State Fault Refusal :=
  issue (.selk d ch la) s fun c =>
    let r := cmdRegs c d
    let f := selForm r
    let x := selCause c.t (queueBound c.s c.t (ch.toNat / 2)) f
    if x != 0 then onceTrap c x
    else placeCmd c ch.toNat { team := c.g.team, g := c.g.idx, kind := .select, regs := r, srcTile := sideTile c.t f.keys, dstTile := sideTile c.t f.out }
      (BitVec.ofNat 64 f.out) (f.comp % 2 == 1) false

/-- RDWP (R84, R99, R233). -/
def execRdwp (d a : BitVec 7) (la : BitVec 4) (s : State) : Host.Outcome State Fault Refusal :=
  issue (.rdwp d a la) s fun c =>
    let k := countOf c.t ((c.uv a).toNat % 8)
    { s := acquireAct c c.s k.view, regs := pairRes c d true fun _ => k.wptr }

/-- The command that an rdcsum names: the latest one with CSUM when it issued, which a waiting rdcsum keeps (R233). -/
def sumAsked (c : Ctx) (k : ChanCount) : Nat :=
  ((firstWhere (fun x => x.pc == c.pc && x.lane == lowestLane c.path) c.g.got).map (·.val.toNat)).getD k.sums

/-- RDCSUM (R230, R233): waits until the command with CSUM that was the latest when it issued completes. -/
def execRdcsum (d a : BitVec 7) (la : BitVec 4) (s : State) : Host.Outcome State Fault Refusal :=
  issue (.rdcsum d a la) s fun c =>
    let k := countOf c.t ((c.uv a).toNat % 8)
    let n := sumAsked c k
    match firstWhere (fun x => x.1 == n) k.crcs with
    | some x => { s := c.s, regs := uRes c d x.2 }
    | none =>
      if n = 0 then { s := c.s, regs := uRes c d 0 }
      else
        let mine (x : Got) : Bool := x.pc == c.pc && x.lane == lowestLane c.path
        { s := modGroup c.s c.g.who fun g => { g with got := { pc := c.pc, lane := lowestLane c.path, val := BitVec.ofNat 64 n } :: g.got.filter fun x => !mine x }
          wait := some (.rdcsum, 0), keep := true }

end Sys2Proof.Machine
end

