-- ==== Sys2Proof/Machine/Launching.lean ====
section
/-!
DEFINITION. Contexts, launch queues and launch records (R299, R302 to R311), the launch instruction (R175), completion records and the event
ring (R317, R318).
-/

namespace Sys2Proof.Machine

/-! ## Queue descriptors -/

/-- A queue descriptor (R306). -/
structure QDesc where
  base : Nat := 0
  logn : Nat := 0
  ceil : Nat := 0
  age : Nat := 0
  deadline : Nat := 0
  head : Nat := 0
  tail : Nat := 0
  /-- enabled, with LOGN in 4 to 16 and zero reserved fields (R303) -/
  ok : Bool := false
deriving DecidableEq, Repr

/-- Address of the descriptor of queue q (R306). -/
def descAt (s : State) (c q : Nat) : Nat := (contextOf s c).qtab.toNat + 64 * q

/-- A field of bytes: n bytes at an offset. -/
def fieldOf (bs : List Byte) (off n : Nat) : Nat := ofBytes ((bs.drop off).take n)

/-- A descriptor from its 64 bytes. -/
def descOf (b : List Byte) : QDesc :=
  let fl := fieldOf b 0x0A 1
  let logn := fieldOf b 0x08 1
  { base := fieldOf b 0 8, logn := logn, ceil := fieldOf b 9 1, age := fieldOf b 0x0C 4, deadline := fieldOf b 0x10 4
    head := fieldOf b 0x18 4, tail := fieldOf b 0x1C 4
    ok := fl == 1 && 4 ≤ logn && logn ≤ 16 && fieldOf b 0x0B 1 == 0 && fieldOf b 0x14 4 == 0 && fieldOf b 0x20 32 == 0 }

/-- The dispatcher reads a descriptor; one that cannot be read counts as disabled (log 26). -/
def readDesc (s : State) (c q : Nat) : State × QDesc :=
  match readAt s (devEnv s c false) .read (descAt s c q) 64 with
  | (s1, .ok b) => (s1, descOf b)
  | (s1, .error _) => (s1, {})

/-- Records submitted and not taken. -/
def QDesc.used (d : QDesc) : Nat := (d.tail + 2 ^ 32 - d.head) % 2 ^ 32

/-- The dispatcher writes bytes of a context; a write that faults is not performed (log 26). -/
def devWrite (s : State) (c va : Nat) (bs : List Byte) : State := (writeAt s (devEnv s c false) va bs).1

/-- The next launch id is taken from a context's counter (R308). -/
def takeId (s : State) (c : Nat) : State × W32 :=
  let id := (contextOf s c).nextId
  (modContext s c fun k => { k with nextId := if id = BitVec.allOnes 32 then 1 else id + 1 }, id)

/-! ## LAUNCH -/

/-- A record is submitted to queue 63 with what its submitters release (R175, R307, R308): its id, or 0 when the queue has no free entry; none while
the zero engine clears a page of the ring or of the queue table (R344). A ring that cannot be written counts as having no free entry (log 26). -/
def submit (s : State) (c : Nat) (rec_ : List Byte) (view : View) : State × Option W32 :=
  let (s1, d) := readDesc s c 63
  if !d.ok || (contextOf s c).state != 1 || 2 ^ d.logn ≤ d.used then (s1, some 0)
  else
    match writeAt s1 (devEnv s c false) (d.base + 128 * (d.tail % 2 ^ d.logn)) rec_ with
    | (s2, .wait) => (s2, none)
    | (s2, .stop _ _) => (s2, some 0)
    | (s2, .done) =>
      match writeAt s2 (devEnv s c false) (descAt s c 63 + 0x1C) (toBytes 4 (d.tail + 1)) with
      | (s3, .wait) => (s3, none)
      | (s3, _) =>
        let (s4, id) := takeId s3 c
        (modContext s4 c fun k => { k with ids63 := k.ids63 ++ [id], views63 := k.views63 ++ [view] }, some id)

/-- LAUNCH (R175): one record, whatever the number of active lanes; in a paired run it is submitted once (R62). -/
def execLaunch (d b o : BitVec 7) (la : BitVec 4) (s : State) : Host.Outcome State Fault Refusal :=
  issue (.launch d b o la) s fun c =>
    let a := c.addr b o 128 c.first
    if a.toNat % 128 != 0 then { s := c.s, hits := allHit c 5 0 a 128 0 }
    else
      match readAt c.s (laneEnv c.s c.g c.first) .read a.toNat 128 with
      | (s1, .error (x, tok)) => { s := s1, hits := allHit c x tok a 128 0 }
      | (s1, .ok bs) =>
        pairRun c s1 (crc64 0 bs)
          (fun s => match submit s c.t.ctx bs (releaseAct c s) with
            | (s2, some id) => ({ s := s2, regs := uRes c d id }, [id.setWidth 64])
            | (s2, none) => ({ s := s2, wait := some (.tlbmiss, 0), keep := true }, []))
          fun s vs => { s := s, regs := uRes c d ((vs.headD 0).setWidth 32) }

/-! ## Contexts -/

/-- A command completes with a RESULT, and BUSY is 0 (R302). -/
def cmdDone (s : State) (r : Nat) : State := { s with ctl := { s.ctl with cmdResult := r }, cmd := none }

/-- A command executes, unless another is executing (R302). -/
def runCmd (s : State) (op c : Nat) (arg : W32) (f : State → State) : Host.Outcome State Fault Refusal :=
  .next (if s.cmd.isSome && s.cmd != some (op, c, arg) then s else f s)

/-- Physical address of a context table entry (R304). -/
def ctxEntry (s : State) (c : Nat) : Nat := s.ctl.ctxtb.toNat + 128 * c

/-- Every page of a range is present, writable and of the near or far tier (R305). -/
def pagesHeld (s : State) (root : W64) : Nat → Nat → Nat → Bool
  | 0, _, n => n == 0
  | f + 1, va, n =>
    if n = 0 then true
    else match walk s root va with
      | .ok t =>
        let step := Nat.min n (pageBytes t.level - va % pageBytes t.level)
        leafBit t.leaf 2 && leafTier t.leaf ≤ 1 && pagesHeld s root f (va + step) (n - step)
      | .error _ => false

/-- The pages of a range, by the number of 4 KiB pages. -/
def rangeHeld (s : State) (root : W64) (va n : Nat) : Bool := pagesHeld s root (n / 4096 + 2) va n

/-- The dependences of the context's waiting records are tested again (R311). -/
def retest (s : State) (c : Nat) : State := { s with depWait := s.depWait.filter fun x => x.1 != c }

/-- A context from its table entry (R304). -/
def contextAt (s : State) (c : Nat) : Context :=
  let p := ctxEntry s c
  let w (off n : Nat) : Nat := physNum s (p + off) n
  { state := 1, root := BitVec.ofNat 64 (w 0 8), trap := BitVec.ofNat 64 (w 8 8), qtab := BitVec.ofNat 64 (w 0x10 8)
    evt := BitVec.ofNat 64 (w 0x18 8), saveb := BitVec.ofNat 64 (w 0x20 8), savesz := w 0x28 4, saven := w 0x2C 4
    asid := BitVec.ofNat 16 (w 0x30 2), priomax := w 0x32 1 }

/-- The ring of an enabled queue is held (R305). -/
def ringHeld (s : State) (k : Context) (q : Nat) : Bool :=
  match walk s k.root (k.qtab.toNat + 64 * q) with
  | .ok t =>
    let d := descOf (physRead s t.pa 64)
    !d.ok || rangeHeld s k.root d.base (128 * 2 ^ d.logn)
  | .error _ => false

/-- The ring of an enabled queue is not 4 KiB aligned (R305, R306). -/
def ringSkew (s : State) (k : Context) (q : Nat) : Bool :=
  match walk s k.root (k.qtab.toNat + 64 * q) with
  | .ok t => let d := descOf (physRead s t.pa 64); d.ok && d.base % 4096 != 0
  | .error _ => false

/-- CREATE (R304, R305): a context that lives on keeps its launch ids and what was submitted; its records' dependences are tested anew (R311). Where the
conditions of RESULT 1 and of RESULT 2 both hold, the spec does not say which is given; the model gives 1 (log 102). -/
def createContext (s : State) (c : Nat) : State :=
  let p := ctxEntry s c
  let k := contextAt s c
  let bad := physNum s (p + 0x33) 1 != 0 || physNum s (p + 0x38) 72 != 0 || k.qtab.toNat % 4096 != 0 || k.evt.toNat % 4096 != 0
    || k.saveb.toNat % 4096 != 0 || bits k.root.toNat 0 12 != 0 || bits k.root.toNat 52 12 != 0
  if bad || (upto 64).any (ringSkew s k) then cmdDone s 1
  else if !(rangeHeld s k.root k.saveb.toNat (k.saven * k.savesz * 4096) && rangeHeld s k.root k.qtab.toNat 4096
      && (upto 64).all (ringHeld s k) && (k.evt = 0 || rangeHeld s k.root k.evt.toNat 32768)) then cmdDone s 2
  else
    let old := contextOf s c
    let k1 := if old.state = 1 then { k with nextId := old.nextId, ids63 := old.ids63, views63 := old.views63, evViews := old.evViews, bells := old.bells } else k
    cmdDone (retest (modContext (physPut s (p + 0x34) 4 1) c fun _ => k1) c) 0

/-- CREATE (R305). -/
def execCreate (c : Nat) (arg : BitVec 32) (s : State) : Host.Outcome State Fault Refusal := runCmd s 1 (c % 64) arg fun s => createContext s (c % 64)

/-- Queues of a context whose rings hold records. -/
def queuedRecords (s : State) (c : Nat) : State × Bool :=
  (upto 64).foldl (fun (s, b) q => let (s1, d) := readDesc s c q; (s1, b || (d.ok && d.used != 0))) (s, false)

/-- DESTROY (R305). -/
def destroyContext (s : State) (c : Nat) : State :=
  let (s1, queued) := if (contextOf s c).state = 1 then queuedRecords s c else (s, false)
  if queued || s1.launches.any (fun l => l.ctx == c) then cmdDone s1 8
  else cmdDone (modContext (physPut s1 (ctxEntry s c + 0x34) 4 0) c fun _ => {}) 0

/-- DESTROY (R305). -/
def execDestroy (c : Nat) (arg : BitVec 32) (s : State) : Host.Outcome State Fault Refusal := runCmd s 2 (c % 64) arg fun s => destroyContext s (c % 64)

/-- A completion record for a record that runs no team (R305, R307, R310). -/
def plainCompletion (s : State) (c q : Nat) (id : W32) (status cause : Nat) (rec_ : List Byte) : Completion :=
  let fl := fieldOf rec_ 0x24 4
  { ctx := c, queue := q, id := id, status := BitVec.ofNat 8 status, cause := BitVec.ofNat 8 cause, blk := BitVec.ofNat 64 (fieldOf rec_ 0x38 8)
    compev := bits fl 16 12, irq := bits fl 2 1 == 1, time := timeNs s }

/-- The id that the record at HEAD gets, and what its submitter released (R175, R308): a doorbell's writer is a host core or a peer. -/
def recordId (s : State) (c q : Nat) : State × W32 × View :=
  let k := contextOf s c
  if q = 63 then (modContext s c fun k => { k with ids63 := k.ids63.drop 1, views63 := k.views63.drop 1 }, k.ids63.headD 0, k.views63.headD {})
  else
    let n := mget 0 k.bells q
    let (s1, id) := takeId s c
    (s1, id, { by_ := [(.host, n), (.peer, n)] })

/-- The bytes of the record `i` entries after HEAD. -/
def ringRecord (s : State) (c : Nat) (d : QDesc) (i : Nat) : State × List Byte :=
  match readAt s (devEnv s c false) .read (d.base + 128 * ((d.head + i) % 2 ^ d.logn)) 128 with
  | (s1, .ok b) => (s1, b)
  | (s1, .error _) => (s1, zeros 128)

/-- KILL of a record of queue 63 that was submitted and not taken: its launch has an id (R175, R308), so it is killed (R317; log 43). Its id is
struck out (0, which no launch has): the record is passed over when its turn comes. -/
def killSubmitted (s : State) (c : Nat) (id : W32) : State :=
  match posOf (· == id) (contextOf s c).ids63 with
  | none => cmdDone s 1
  | some i =>
    let (s1, d) := readDesc s c 63
    let (s2, bs) := ringRecord s1 c d i
    cmdDone (retest { (modContext s2 c fun k => { k with ids63 := setNth k.ids63 i 0 }) with
      completions := s2.completions ++ [plainCompletion s2 c 63 id 3 0 bs] } c) 0

/-- KILL (R302, R317): RESULT 1 when the context has no such launch. -/
def killCmd (s : State) (c : Nat) (id : W32) : State :=
  if s.launches.any fun l => l.ctx == c && l.id == id then cmdDone (killLaunch s c id 0 0xFFFFFFFF 0) 0
  else if id = 0 then cmdDone s 1
  else killSubmitted s c id

/-- KILL (R302). -/
def execKill (c : Nat) (arg : BitVec 32) (s : State) : Host.Outcome State Fault Refusal := runCmd s 3 (c % 64) arg fun s => killCmd s (c % 64) arg

/-- The records of a queue's ring are taken as killed (R305); one that was killed before is passed over. -/
def killRing (c q : Nat) : Nat → State → QDesc → State
  | 0, s, _ => s
  | f + 1, s, d =>
    if !d.ok || d.used = 0 then s
    else
      let (s1, bs) := ringRecord s c d 0
      let (s2, id, _) := recordId s1 c q
      let s3 := if id = 0 then s2 else { s2 with completions := s2.completions ++ [plainCompletion s2 c q id 3 0 bs] }
      killRing c q f (devWrite s3 c (descAt s c q + 0x18) (toBytes 4 (d.head + 1))) { d with head := (d.head + 1) % 2 ^ 32 }

/-- The image holds groups and keystone contexts of context c, and of no other (R305): the contexts are those of its teams at the freeze. -/
def imageOnly (c : Nat) (i : Image) : Bool := !i.ctxs.isEmpty && i.ctxs.all fun x => x.2 == c

/-- The vault slots whose images go are free; a tile whose image was still being written goes on without it. -/
def dropImages (s : State) (p : Image → Bool) : State :=
  let gone := s.vault.filterMap fun (k, v) => match v with | some i => if p i then some k else none | none => none
  { s with
    vault := s.vault.filter fun (k, _) => !gone.contains k
    cores := s.cores.map fun (t, x) => (t, if x.frozen.any gone.contains then { x with frozen := none } else x) }

/-- KILLCTX (R305). -/
def killContext (s : State) (c : Nat) : State :=
  let s0 := (s.launches.filter fun l => l.ctx == c).foldl (fun s l => killLaunch s c l.id 0 0xFFFFFFFF 0) s
  let s1 := dropImages s0 (imageOnly c)
  let s2 := if (contextOf s1 c).state = 1 then (upto 64).foldl (fun s q => let (s1, d) := readDesc s c q; killRing c q d.used s1 d) s1 else s1
  cmdDone (retest (modContext (physPut s2 (ctxEntry s c + 0x34) 4 2) c fun k => { k with state := 2 }) c) 0

/-- KILLCTX (R305). -/
def execKillctx (c : Nat) (arg : BitVec 32) (s : State) : Host.Outcome State Fault Refusal := runCmd s 4 (c % 64) arg fun s => killContext s (c % 64)

/-! ## Doorbells -/

/-- A write to LQDB(c, q) (R307). -/
def doorbell (s : State) (c q : Nat) (v : W32) : State :=
  let (s1, d) := if (contextOf s c).state = 1 then readDesc s c q else (s, {})
  if !d.ok || q = 63 || 2 ^ d.logn < (v.toNat + 2 ^ 32 - d.head) % 2 ^ 32 then
    { s1 with completions := s1.completions ++ [plainCompletion s1 c q 0 1 0x0A []] }
  else modContext (devWrite s1 c (descAt s c q + 0x1C) (toBytes 4 v.toNat)) c fun k => { k with bells := mput 0 k.bells q s.writes }

/-- LAUNCH_DOORBELL (R307). -/
def execLaunchDoorbell (c q : Nat) (v : BitVec 32) (s : State) : Host.Outcome State Fault Refusal := .next (doorbell s (c % 64) (q % 64) v)

/-- EVENT_DOORBELL (R311). -/
def execEventDoorbell (c : Nat) (s : State) : Host.Outcome State Fault Refusal := .next (retest s (c % 64))

/-! ## Taking a record -/

/-- A number of a context's memory as the dispatcher reads it. -/
def ctxNum (s : State) (c va n : Nat) : State × Option Nat :=
  match readAt s (devEnv s c false) .read va n with
  | (s1, .ok b) => (s1, some (ofBytes b))
  | (s1, .error _) => (s1, none)

/-- The fields of a launch record (R309). -/
def launchRecOf (b : List Byte) : LRec :=
  { krec := BitVec.ofNat 64 (fieldOf b 0 8), args := BitVec.ofNat 64 (fieldOf b 8 8), gx := fieldOf b 0x10 2, gy := fieldOf b 0x12 2
    gz := fieldOf b 0x14 2, padb := fieldOf b 0x16 1, prio := fieldOf b 0x17 1, slots := (upto 4).map fun i => fieldOf b (0x18 + 2 * i) 2
    qbind := BitVec.ofNat 32 (fieldOf b 0x20 4), lflags := BitVec.ofNat 32 (fieldOf b 0x24 4), deadline := BitVec.ofNat 32 (fieldOf b 0x28 4)
    seed := BitVec.ofNat 32 (fieldOf b 0x2C 4), trec := BitVec.ofNat 64 (fieldOf b 0x30 8), recbuf := BitVec.ofNat 64 (fieldOf b 0x38 8)
    deps := (upto 4).map fun i => let v := fieldOf b (0x40 + 8 * i) 8; (v / 2 ^ 52, v % 2 ^ 52)
    peers := (upto 8).map fun i => BitVec.ofNat 24 (fieldOf b (0x60 + 3 * i) 3) }

/-- A launch record has a nonzero reserved field (R309). -/
def launchReserved (b : List Byte) : Bool :=
  let fl := fieldOf b 0x24 4
  fieldOf b 0x78 8 != 0 || ((upto 8).any fun i => bits (fieldOf b (0x60 + 3 * i) 3) 20 3 != 0) || bits fl 3 13 != 0 || bits fl 28 4 != 0
    || bits (fieldOf b 0x20 4) 28 4 != 0

/-- A kernel record and its role records from their bytes (R299). -/
def kernelOf (b : List Byte) (roles : List (List Byte)) : KRec :=
  { regs := fieldOf b 4 2, x := fieldOf b 8 2, y := fieldOf b 0x0A 2, z := fieldOf b 0x0C 2, keystone := bits (fieldOf b 0x0E 2) 0 1 == 1
    pad := fieldOf b 0x10 4, key := BitVec.ofNat 64 (fieldOf b 0x18 8), keep := (upto 128).filter fun i => bits (fieldOf b 0x20 16) i 1 == 1
    roles := roles.map fun r => { groups := fieldOf r 4 2, place := fieldOf r 6 2, slots := fieldOf r 8 4, entry := BitVec.ofNat 64 (fieldOf r 0x10 8) } }

/-- A kernel or role record has a nonzero reserved field (R299). -/
def kernelReserved (b : List Byte) (roles : List (List Byte)) : Bool :=
  bits (fieldOf b 0x0E 2) 1 15 != 0 || fieldOf b 0x14 4 != 0 || fieldOf b 0x30 16 != 0
    || roles.any fun r => fieldOf r 0x0C 4 != 0 || fieldOf r 0x18 8 != 0

/-- The per-group budget of role i: the launch record's, or the role's (R309). -/
def roleBudget (l : LRec) (k : KRec) (i : Nat) : Nat :=
  if l.slots.getD i 0 != 0 then l.slots.getD i 0 else (k.roles.map (·.slots)).getD i 0

/-- PAD banks of a team (R309). -/
def padBanks (l : LRec) (k : KRec) : Nat := if l.padb = 0 then k.pad / Config.bankBytes else l.padb

/-- Soft queues that a launch binds. -/
def softBound (l : LRec) : List Nat := [13, 14, 15].filter fun q => hasLane l.qbind q

/-- The groups of a kernel: role, its budget, and its core when the placement fixes one (R17, R19). -/
def groupPlans (l : LRec) (k : KRec) : List (Nat × Nat × Option Nat) :=
  ((upto k.roles.length).zip k.roles).flatMap fun (i, r) => (upto r.groups).map fun j =>
    (i, roleBudget l k i, if r.place = 0 then none else if r.place ≤ 2 then some (j % 4) else some (r.place - 3))

/-- Room of a core: free group slots and free pool slots (R20, R37). -/
abbrev Room := Nat × Nat

/-- A group of a budget takes its room on a core. -/
def takeRoom (rooms : List Room) (core budget : Nat) : Option (List Room) :=
  match rooms[core]? with
  | some (n, p) => if 1 ≤ n && budget ≤ p then some (setNth rooms core (n - 1, p - budget)) else none
  | none => none

/-- Room left by the groups whose core is fixed. -/
def roomFixed (rooms : List Room) (plans : List (Nat × Nat × Option Nat)) : Option (List Room) :=
  plans.foldl (fun r p => match r, p.2.2 with | some x, some core => takeRoom x core p.2.1 | x, _ => x) (some rooms)

/-- Groups of one budget that fit a core. -/
def roomFor (b : Nat) (r : Room) : Nat := if b = 0 then r.1 else Nat.min r.1 (r.2 / b)

/-- n groups of budget b taken from a core's room. -/
def lessRoom (b n : Nat) (r : Room) : Room := (r.1 - n, r.2 - n * b)

/-- Groups of several budgets (count, budget) fit some cores: every split of the first kind is tried over the cores, and the last kind needs only
the sum of what fits. -/
def freeFits : List (Nat × Nat) → List Room → Bool
  | [], _ => true
  | [(n, b)], rooms => n ≤ sumNat (rooms.map (roomFor b))
  | (n, b) :: x :: ks, rooms => splits n b [] rooms fun r => freeFits (x :: ks) r
where
  /-- Every split of n groups over the cores left. -/
  splits (n b : Nat) (done : List Room) : List Room → (List Room → Bool) → Bool
    | [], k => n == 0 && k done
    | r :: rs, k => (upto (Nat.min n (roomFor b r) + 1)).any fun i => splits (n - i) b (done ++ [lessRoom b i r]) rs k

/-- The groups of a kernel whose core is open, as counts of one budget. -/
def openKinds (plans : List (Nat × Nat × Option Nat)) : List (Nat × Nat) :=
  let l := (plans.filter fun p => p.2.2.isNone).map fun p => p.2.1
  (distinct l).map fun b => ((l.filter (· == b)).length, b)

/-- The groups of a kernel fit the cores of a cluster (R20). -/
def groupsFit (l : LRec) (k : KRec) (rooms : List Room) : Bool :=
  match roomFixed rooms (groupPlans l k) with
  | some r => freeFits (openKinds (groupPlans l k)) r
  | none => false

/-- Banks of a cluster that hold a mode (R69, R70): none that is draining. -/
def banksIn (s : State) (c m : Nat) : List Nat := (upto Config.nBanks).filter fun b => (bankOf s c b).mode == m && (bankOf s c b).target.isNone

/-- A team fits cluster c when it is empty, with the bank modes it has now (R310). -/
def fitsEmpty (s : State) (l : LRec) (k : KRec) (c : Nat) : Bool :=
  let mode (m : Nat) : Nat := ((upto Config.nBanks).filter fun b => (bankOf s c b).mode == m).length
  groupsFit l k (List.replicate 4 (256, Config.poolSlots)) && padBanks l k ≤ mode 1 && (softBound l).length ≤ 1024 * mode 2

/-- Compute die of a cluster (R2, R301). -/
def dieOf (c : Nat) : Nat := c / 9

/-- Reason 0x08 does not hold (R310). -/
def fitsSomewhere (s : State) (l : LRec) (k : KRec) : Bool :=
  let ok := (upto Config.nClusters).filter (fitsEmpty s l k)
  if bits l.lflags.toNat 0 1 = 1 then ok.any fun a => ok.any fun b => dieOf a != dieOf b else !ok.isEmpty

/-- The kernel record and the argument block as the dispatcher reads them: the record's bytes and its roles', the stack area and slab size. -/
structure Loaded where
  s : State
  kernel : Option (List Byte) := none
  roles : Option (List (List Byte)) := none
  stackS : Nat := 0
  stackZ : Nat := 0

/-- The dispatcher reads the kernel record, its role records and the argument block's header (R294, R299). An argument block that cannot be read
gives no stack (log 26). -/
def loadKernel (s : State) (c : Nat) (l : LRec) : Loaded :=
  let env := devEnv s c false
  let (s1, k, rs) := match readAt s env .read l.krec.toNat 64 with
    | (s1, .ok b) =>
      let n := Nat.min 4 (fieldOf b 6 2)
      if n = 0 then (s1, some b, some [])
      else match readAt s1 env .read (l.krec.toNat + 64) (32 * n) with
        | (s2, .ok r) => (s2, some b, some ((upto n).map fun i => (r.drop (32 * i)).take 32))
        | (s2, .error _) => (s2, some b, none)
    | (s1, .error _) => (s1, none, none)
  if l.args = 0 then { s := s1, kernel := k, roles := rs }
  else match readAt s1 env .read l.args.toNat 16 with
    | (s2, .ok b) => { s := s2, kernel := k, roles := rs, stackS := fieldOf b 0 8, stackZ := fieldOf b 8 4 }
    | (s2, .error _) => { s := s2, kernel := k, roles := rs }

/-- The reasons of R310 that a record breaks, lowest first. A keep list of more than 32 registers is refused too (R50, R146, R299), for reason 0x02, which
the spec does not number (log 83). -/
def refusals (s : State) (c : Nat) (b : List Byte) (l : LRec) (x : Loaded) : List Nat :=
  let ctx := contextOf s c
  let kb := x.kernel.getD []
  let rb := x.roles.getD []
  let has := x.roles.isSome
  let k := kernelOf kb rb
  let nrole := fieldOf kb 6 2
  let key := k.key.toNat
  let count := sumNat (k.roles.map (·.groups))
  let shape := 1 ≤ k.x && 1 ≤ k.y && 1 ≤ k.z && k.x * k.y * k.z == 32 * count
  let grid := 1 ≤ l.gx && 1 ≤ l.gy && 1 ≤ l.gz && l.gx * l.gy * l.gz ≤ 16777216
  let pinned (core : Nat) : Nat := sumNat ((k.roles.filter fun r => r.place == core + 3).map (·.groups))
  let q := l.qbind.toNat
  let r01 := launchReserved b || kernelReserved kb rb
  let r02 := !has || nrole == 0 || 4 < nrole || k.regs % 32 != 0 || k.regs < 32 || 512 < k.regs
    || (if k.keystone then key == 0 || key % 4 != 0 || !canonical key else key != 0) || (x.stackS != 0 && k.regs < 64)
    || 32 < k.keep.length
  let r03 := has && (!shape || !grid || k.roles.any (·.groups == 0) || 128 < count) || !grid
  let r04 := has && ((k.roles.any fun r => 6 < r.place || (r.place == 2 && r.groups % 4 != 0)) || (upto 4).any fun i => 256 < pinned i)
  let r05 := has && (upto k.roles.length).any fun i => roleBudget l k i < 256 || 16384 < roleBudget l k i
  let r06 := 64 < l.padb || (has && l.padb == 0 && (k.pad % Config.bankBytes != 0 || 64 < k.pad / Config.bankBytes))
  let r07 := has && ((!k.keystone && bits q 4 8 != 0)
    || (softBound l).any fun i => nrole ≤ bits q (4 * (i - 13) + 16) 2 || nrole ≤ bits q (4 * (i - 13) + 18) 2)
  let r08 := has && !(r03 || r04 || r05) && !fitsSomewhere s l k
  let r09 := l.trec == 0 && ctx.trap != 0
  let r0b := ctx.evt == 0 && (l.deps.any (fun d => d.1 != 0) || bits l.lflags.toNat 16 12 != 0)
  ([(r01, 1), (r02, 2), (r03, 3), (r04, 4), (r05, 5), (r06, 6), (r07, 7), (r08, 8), (r09, 9), (r0b, 0xB)].filter (·.1)).map (·.2)

/-- A record's dependences hold (R311): a counter read that faults does not. -/
def depsHold (s : State) (c : Nat) : List (Nat × Nat) → State × Bool
  | [] => (s, true)
  | (i, target) :: ds =>
    if i = 0 || (contextOf s c).evt = 0 then depsHold s c ds
    else match ctxNum s c ((contextOf s c).evt.toNat + 8 * i) 8 with
      | (s1, some v) => if target ≤ v then depsHold s1 c ds else (s1, false)
      | (s1, none) => (s1, false)

/-- The queue's current record still has a team that was never placed (R308). -/
def queueBusy (s : State) (c q : Nat) : Bool := s.launches.any fun l => l.ctx == c && l.queue == q && l.killed.isNone && l.next < l.total

/-- A queue's next record may be taken (R308). -/
def mayTake (s : State) (c q : Nat) (d : QDesc) : Bool :=
  !s.paused && (contextOf s c).state == 1 && d.ok && d.used != 0 && !queueBusy s c q && !s.depWait.contains (c, q, d.head)

/-- The launch of a record that was not refused; AGE and DEADLINE come from the queue (R306, R309, R321). -/
def launchOfRec (s : State) (c q : Nat) (id : W32) (d : QDesc) (l : LRec) (x : Loaded) (k : KRec) (view : View) : Launch :=
  { ctx := c, queue := q, id := id
    lrec := { l with prio := Nat.min l.prio (contextOf s c).priomax, padb := padBanks l k
                     deadline := if l.deadline = 0 then BitVec.ofNat 32 d.deadline else l.deadline }
    krec := { k with roles := ((upto k.roles.length).zip k.roles).map fun (i, r) => { r with slots := roleBudget l k i } }
    stackS := BitVec.ofNat 64 x.stackS, stackZ := BitVec.ofNat 32 x.stackZ, total := l.gx * l.gy * l.gz, headSince := s.cycle, view := view }

/-- What a record's dependences acquire (R311): what the increments of their counters released. -/
def depViews (k : Context) (deps : List (Nat × Nat)) : View :=
  (deps.filter fun d => d.1 != 0).foldl (fun v d => v.join (mget {} k.evViews d.1)) {}

/-- LAUNCH_RECORD_TAKE (R308, R310, R311): one DEBUG launch of a context at a time (R362); a record killed before it is taken is passed over (log 43). -/
def takeRecord (s : State) (c q : Nat) : State :=
  let (s1, d) := if (contextOf s c).state = 1 then readDesc s c q else (s, {})
  if !mayTake s1 c q d then s1
  else if q = 63 && (contextOf s1 c).ids63.head? == some 0 then
    devWrite (recordId s1 c q).1 c (descAt s c q + 0x18) (toBytes 4 (d.head + 1))
  else
    match readAt s1 (devEnv s c false) .read (d.base + 128 * (d.head % 2 ^ d.logn)) 128 with
    | (s2, .error _) => s2
    | (s2, .ok b) =>
      let l := launchRecOf b
      let (s3, ready) := depsHold s2 c l.deps
      if isDebug s3 { ctx := c, queue := q, id := 0, lrec := l } && s3.launches.any (fun x => x.ctx == c && isDebug s3 x) then s3
      else if !ready then { s3 with depWait := (c, q, d.head) :: s3.depWait }
      else
        let (s4, id, v) := recordId s3 c q
        let s5 := devWrite s4 c (descAt s c q + 0x18) (toBytes 4 (d.head + 1))
        let x := loadKernel s5 c l
        match refusals x.s c b l x with
        | r :: _ => { x.s with completions := x.s.completions ++ [plainCompletion x.s c q id 1 r b], hasServed := true }
        | [] =>
          let k := kernelOf (x.kernel.getD []) (x.roles.getD [])
          let view := v.join (depViews (contextOf x.s c) l.deps)
          { x.s with launches := x.s.launches ++ [launchOfRec x.s c q id d l x k view], hasServed := true }

/-- LAUNCH_RECORD_TAKE (R308). -/
def execLaunchRecordTake (c q : Nat) (s : State) : Host.Outcome State Fault Refusal := .next (takeRecord s (c % 64) (q % 64))

/-! ## Completion records -/

/-- The event ring is configured (R303). -/
def evRingOk (s : State) : Bool := s.ctl.evrb != 0 && 7 ≤ s.ctl.evrc.toNat % 32 && s.ctl.evrc.toNat % 32 ≤ 20

/-- The event ring has room (R303, R317). -/
def evRingRoom (s : State) : Bool := evRingOk s && ringUsed s.ctl.evrh s.ctl.evrt < 2 ^ (s.ctl.evrc.toNat % 32)

/-- The 32 bytes of a completion record (R317). -/
def completionBytes (x : Completion) : List Byte :=
  toBytes 8 x.time ++ toBytes 4 x.id.toNat ++ toBytes 2 (x.queue + x.ctx * 64) ++ toBytes 1 x.status.toNat ++ toBytes 1 x.cause.toNat
    ++ toBytes 4 x.fteam.toNat ++ toBytes 4 (if x.fteam = 0xFFFFFFFF then 0 else x.fwho.toNat) ++ toBytes 8 x.blk.toNat

/-- An event counter of a context rises (R317): an increment whose access faults is not performed, one that waits for the zero engine is made later
(R344); the context's dependences are tested again (R311). -/
def bumpEvent (s : State) (x : Nat × Nat × View) : State :=
  let evt := (contextOf s x.1).evt.toNat
  if x.2.1 = 0 || evt = 0 then s
  else match ctxNum s x.1 (evt + 8 * x.2.1) 8 with
    | (s1, some v) =>
      match writeAt s1 (devEnv s1 x.1 false) (evt + 8 * x.2.1) (toBytes 8 (v + 1)) with
      | (s2, .done) => retest (modContext s2 x.1 fun k => { k with evViews := mput {} k.evViews x.2.1 ((mget {} k.evViews x.2.1).join x.2.2) }) x.1
      | (s2, .wait) => { s2 with bumps := s2.bumps ++ [x] }
      | (s2, .stop _ _) => s2
    | (s1, none) => s1

/-- The device's writes that waited for the zero engine are made: block records and increments of event counters (R344). -/
def retryWrites (s : State) : State := let s1 := retryBlocks s; s1.bumps.foldl bumpEvent { s1 with bumps := [] }

/-- The event-ring interrupt is raised and its counts start again (R318). -/
def raiseEvent (s : State) : State := raiseIrq { s with evSince := 0 } 0

/-- Microseconds since package reset, in femtoseconds per microsecond. -/
abbrev fsPerUs : Nat := 1000000000

/-- COMPLETION_RECORD_WRITE (R317, R318). -/
def writeCompletion (s : State) : State :=
  match s.completions with
  | [] => s
  | x :: rest =>
    if !evRingRoom s then s
    else
      let s1 := physWrite { s with completions := rest } (s.ctl.evrb.toNat + 32 * (s.ctl.evrt.toNat % 2 ^ (s.ctl.evrc.toNat % 32))) (completionBytes x)
      let s2 := { s1 with ctl := { s1.ctl with evrt := s1.ctl.evrt + 1 }, evSince := s1.evSince + 1
                          evOldest := if s1.evSince = 0 then s1.timeFs else s1.evOldest }
      let s3 := bumpEvent s2 (x.ctx, x.compev, x.view)
      let n := s3.ctl.evcoal.toNat % 256
      if x.irq || (n != 0 && n ≤ s3.evSince) then raiseEvent s3 else s3

/-- COMPLETION_RECORD_WRITE (R317). -/
def execCompletionRecordWrite (s : State) : Host.Outcome State Fault Refusal := .next (writeCompletion s)

/-- A trigger of R318 is due: enough records, also after a write of EVCOAL that lowers COUNT, or the time. -/
def coalesceDue (s : State) : Bool :=
  let t := s.ctl.evcoal.toNat / 65536
  let n := s.ctl.evcoal.toNat % 256
  (n != 0 && n ≤ s.evSince) || (t != 0 && s.evSince != 0 && s.evOldest + t * fsPerUs ≤ s.timeFs)

/-- EVENT_COALESCE_TIMER (R318). -/
def execEventCoalesceTimer (s : State) : Host.Outcome State Fault Refusal := .next (if coalesceDue s then raiseEvent s else s)

end Sys2Proof.Machine
end

