-- ==== Sys2Proof/Machine/Boot.lean ====
section
/-!
DEFINITION. Reset and what surrounds it: the boot ROM's checks and measurements (R383 to R386), attestation (R387, R388), the management
microcontroller's answers and firmware staging (R405), the end of power (R89, R394), and orderly shutdown (R394).
-/

namespace Sys2Proof.Machine

/-! ## SHA-256 -/

/-- The primes below 312, of which there are 64. -/
def smallPrimes : List Nat := (span 2 310).filter fun n => [2, 3, 5, 7, 11, 13, 17].all fun p => n == p || n % p != 0

/-- The first 32 bits of the fractional part of the k-th root of p, found bit by bit. -/
def rootFraction (k p : Nat) : W32 :=
  BitVec.ofNat 32 ((upto 36).reverse.foldl (fun r i => if (r + 2 ^ i) ^ k ≤ p * 2 ^ (32 * k) then r + 2 ^ i else r) 0)

/-- The hash function's round constants come from the cube roots of the primes. -/
def hashRounds : List W32 := smallPrimes.map (rootFraction 3)

/-- A hash in the making: its words A to D, and E to H. -/
structure Hash where
  low : List W32
  high : List W32
deriving DecidableEq, Repr

/-- The words that a hash begins with come from the square roots of the first primes. -/
def hashStart : Hash := { low := (smallPrimes.take 4).map (rootFraction 2), high := ((smallPrimes.drop 4).take 4).map (rootFraction 2) }

/-- n big-endian bytes of a number. -/
def bigBytes (n v : Nat) : List Byte := (toBytes n v).reverse

/-- A number from big-endian bytes. -/
def ofBig (bs : List Byte) : Nat := ofBytes bs.reverse

/-- A message with its end mark and its length in bits, in whole blocks. -/
def blocked64 (m : List Byte) : List Byte := padTo (roundUp (m.length + 9) 64 - 8) (m ++ [0x80]) ++ bigBytes 8 (8 * m.length)

/-- The exclusive or of some rotations of a word with another word. -/
def turned (w : W32) (by_ : List Nat) (other : W32 := 0) : W32 := by_.foldl (fun a n => a ^^^ w.rotateRight n) other

/-- One round: its constant and its word of the message. -/
def hashRound (h : Hash) (constant word : W32) : Hash :=
  match h.low, h.high with
  | [a, b, c, d], [e, f, g, z] =>
    let pick := z + turned e [6, 11, 25] + (g ^^^ (e &&& (f ^^^ g))) + constant + word
    { low := [pick + turned a [2, 13, 22] + ((a &&& (b ||| c)) ||| (b &&& c)), a, b, c], high := [d + pick, e, f, g] }
  | _, _ => h

/-- Rounds over a window of sixteen words of the message, of which each round takes the first and appends the next. -/
def hashWindow (h : Hash) (window : List W32) : List W32 → Hash
  | [] => h
  | k :: ks =>
    let w (i : Nat) : W32 := nth 0 window i
    let next := w 0 + turned (w 1) [7, 18] (w 1 >>> 3) + w 9 + turned (w 14) [17, 19] (w 14 >>> 10)
    hashWindow (hashRound h k (w 0)) (window.drop 1 ++ [next]) ks

/-- The hash with one block of 64 bytes taken in. -/
def hashBlock (h : Hash) (b : List Byte) : Hash :=
  let r := hashWindow h ((upto 16).map fun i => BitVec.ofNat 32 (ofBig ((b.drop (4 * i)).take 4))) hashRounds
  { low := h.low.zipWith (· + ·) r.low, high := h.high.zipWith (· + ·) r.high }

/-- SHA-256 of a message, as 32 bytes (R383). -/
def sha256 (m : List Byte) : List Byte :=
  let p := blocked64 m
  let r := (upto (p.length / 64)).foldl (fun h i => hashBlock h ((p.drop (64 * i)).take 64)) hashStart
  (r.low ++ r.high).flatMap fun w => bigBytes 4 w.toNat

/-- A register of 32 bytes from its bytes (R14). -/
def regOf256 (bs : List Byte) : BitVec 256 := BitVec.ofNat 256 (ofBytes bs)

/-- The bytes of a register of 32 bytes (R14). -/
def bytesOf256 (v : BitVec 256) : List Byte := toBytes 32 v.toNat

/-! ## RSASSA-PSS -/

/-- MGF1 with SHA-256 (R383). -/
def mgf1 (seed : List Byte) (n : Nat) : List Byte := ((upto ((n + 31) / 32)).flatMap fun i => sha256 (seed ++ bigBytes 4 i)).take n

/-- m to the power 65537 modulo n: sixteen squarings and a product. -/
def pow65537 (m n : Nat) : Nat := ((upto 16).foldl (fun x _ => x * x % n) (m % n)) * m % n

/-- The encoding check of RSASSA-PSS for a 3072-bit key: SHA-256, MGF1, a salt of 32 bytes (R383). -/
def pssCheck (msg em : List Byte) : Bool :=
  let db := em.take 351
  let h := (em.drop 351).take 32
  let mask := mgf1 h 351
  let x := (db.zip mask).map fun (a, b) => a ^^^ b
  let y := match x with | b :: bs => (b &&& 0x7F) :: bs | [] => []
  let salt := y.drop 319
  (em.drop 383) == [0xBC] && (db.headD 0).toNat < 128 && y.take 318 == zeros 318 && (y.drop 318).take 1 == [0x01]
    && sha256 (zeros 8 ++ sha256 msg ++ salt) == h

/-- The signature verifies under an RSA-3072 key with public exponent 65,537 (R383). -/
def rsaVerify (mod exp sig : Nat) (msg : List Byte) : Bool :=
  exp == 65537 && 2 ^ 3071 ≤ mod && sig < mod && pssCheck msg (bigBytes 384 (pow65537 sig mod))

/-! ## Firmware images -/

/-- The first test of R385 that an image of a type fails, counted from 1; 0 when it is accepted. -/
def imageTest (s : State) (ty : Nat) (img : List Byte) : Nat :=
  let f (off n : Nat) : Nat := fieldOf img off n
  let modulus := (img.drop 0x80).take 0x180
  let expo := (img.drop 0x200).take 4
  let reserved := f 6 2 == 0 && f 0x30 0x50 == 0 && f 0x204 0x7C == 0
  if img.length < 0x400 || f 0 4 != 0x5746584B || f 4 1 != ty || !reserved then 1
  else if 0xA0 < f 5 1 then 2
  else if regOf256 (sha256 (modulus ++ expo)) != s.ctl.rooth then 3
  else if !rsaVerify (ofBig modulus) (ofBig expo) (ofBig ((img.drop 0x280).take 0x180)) (img.take 0x280) then 4
  else if f 8 4 < (mget 0 s.ctl.svn ty).toNat then 5
  else
    let pay := (img.drop 0x400).take (f 0xC 4)
    if pay.length != f 0xC 4 || sha256 pay != (img.drop 0x10).take 0x20 then 6 else 0

/-- The bytes that are measured of an accepted image: header and payload (R386). -/
def measured (img : List Byte) : List Byte := img.take (0x400 + fieldOf img 0xC 4)

/-- A measurement register is extended by a digest (R386). -/
def extendMeas (s : State) (i : Nat) (d : List Byte) : State :=
  { s with ctl := { s.ctl with meas := mput 0 s.ctl.meas i (regOf256 (sha256 (bytesOf256 (mget 0 s.ctl.meas i) ++ d))) } }

/-- One image is verified: accepted and measured, or refused and reported (R385, R386). -/
def bootImage (s : State) (ty : Nat) : State :=
  let img := mget [] s.flash ty
  let r := imageTest s ty img
  if r = 0 then extendMeas s ty (sha256 (measured img))
  else { s with refused := ty :: s.refused, ctl := { s.ctl with booterr := BitVec.ofNat 32 (ty + 16 * r) } }

/-- The boot ROM: its own digest, then host, Smiot, storage processor and keystone microcode; a refused host image stops the boot (R385,
R386). -/
def bootRom (s : State) : State :=
  let s1 := bootImage (extendMeas s 0 (bytesOf256 Config.romDigest)) 1
  if s1.refused.contains 1 then { s1 with held := true } else [4, 2, 3].foldl bootImage s1

/-! ## Reset, power, shutdown -/

/-- Offsets of the predictive table: its DRAM parts, and its end (R394). -/
abbrev predDram : Nat := 0x100000
abbrev predBytes : Nat := 0x400000

/-- What a reset leaves: registers take their reset values; memory, fuses, boot flash, the Quarry's checkpoint and the model's own fields stay
(log 34). -/
def resetState (s : State) : State :=
  { agenda := s.agenda, free := s.free, out := s.out, hostRd := s.hostRd, hostCause := s.hostCause
    mem := s.mem, poison := s.poison, writes := s.writes
    ctl := { rooth := s.ctl.rooth, svn := s.ctl.svn }
    ck := { known := s.ck.known }
    down := s.down, flash := s.flash, staged := s.staged, predKept := s.predKept, attDone := s.attDone }

/-- The DRAM parts of the predictive table are reloaded from boot flash (R394). -/
def reloadPred (s : State) : State :=
  let keep := s.mem.filter fun (a, _) => !(Config.predBase ≤ a && a < Config.predBase + predDram)
  { s with mem := s.predKept.foldl (fun m (o, b) => mput 0 m (Config.predBase + o) b) keep }

/-- A course whose seal was not reported is present whole, or absent, as the device has it (R89). -/
def loseCourses (kept : List Nat) (s : State) : State :=
  ((upto s.courses.length).zip s.courses).foldl (fun s (i, c) => if kept.contains i then landCourse s c else s) s

/-- Courses that the device keeps, as it chooses (log 1). -/
def freeCourses (s : State) : State × List Nat :=
  ({ s with free := s.free + s.courses.length }, (upto s.courses.length).filter fun i => Config.freeNat (s.free + i) % 2 == 1)

/-- PACKAGE_RESET (R383 to R386, R394, R405): images staged by PLDM take the place of those in boot flash, and the ROM boots. -/
def packageReset (s : State) : State :=
  let (s1, kept) := freeCourses s
  let s2 := resetState (loseCourses kept s1)
  bootRom (reloadPred { s2 with flash := s2.staged.foldl (fun m (k, v) => mput [] m k v) s2.flash, staged := [] })

/-- PACKAGE_RESET (R385). -/
def execPackageReset (s : State) : Host.Outcome State Fault Refusal := .next (packageReset s)

/-- A byte of physical memory that survives the end of power: the Quarry, the attached tier, and the flash part of the predictive table (R89, R394;
log 34). -/
def survives (a : Nat) : Bool :=
  (quarryBase ≤ a && a < fabricBase) || (Config.predBase + predDram ≤ a && a < Config.predBase + predBytes)

/-- POWER_LOSS (R89, R394, R402): the package is without power until its next reset. -/
def powerLoss (kept : List Nat) (s : State) : State :=
  let s1 := loseCourses kept s
  { resetState s1 with
    mem := s1.mem.filter fun (a, _) => survives a
    poison := s1.poison.filter fun w => survives (8 * w)
    held := true }

/-- POWER_LOSS (R89). -/
def execPowerLoss (kept : List Nat) (s : State) : Host.Outcome State Fault Refusal := .next (powerLoss kept s)

/-- ORDERLY_SHUTDOWN (R394). -/
def execOrderlyShutdown (s : State) : Host.Outcome State Fault Refusal :=
  let part := s.mem.filter fun (a, _) => Config.predBase ≤ a && a < Config.predBase + predDram
  .next { s with predKept := part.foldl (fun m (a, b) => mput 0 m (a - Config.predBase) b) [] }

/-! ## Fuses and measurement -/

/-- SVN_WRITE (R385): the fused version of a type is only raised; of a version above the 32 that the thermometer holds, the device fuses all of it
or nothing (log 35). -/
def svnWrite (v : W32) (s : State) : State :=
  let ty := v.toNat % 16
  let n := v.toNat / 16
  let old := (mget 0 s.ctl.svn ty).toNat
  let put (s : State) (x : Nat) : State := { s with ctl := { s.ctl with svn := mput 0 s.ctl.svn ty (BitVec.ofNat 32 (Nat.max old x)) } }
  if ty = 0 || 4 < ty then s
  else if n ≤ 32 then put s n
  else let (s1, b) := chooseBool s; if b then put s1 32 else s1

/-- SVN_WRITE (R385). -/
def execSvnWrite (v : W32) (s : State) : Host.Outcome State Fault Refusal := .next (svnWrite v s)

/-- MEASUREMENT_EXTEND (R386): a value outside 5 to 7 is ignored. -/
def measurementExtend (i : Nat) (s : State) : State := if 5 ≤ i && i ≤ 7 then extendMeas s i (bytesOf256 s.ctl.mextd) else s

/-- MEASUREMENT_EXTEND (R386). -/
def execMeasurementExtend (i : Nat) (s : State) : Host.Outcome State Fault Refusal := .next (measurementExtend i s)

/-! ## Attestation -/

/-- MEAS(0) to MEAS(7). -/
def measBytes (s : State) : List Byte := (upto 8).flatMap fun i => bytesOf256 (mget 0 s.ctl.meas i)

/-- The signed part of a report (R387). -/
def reportBody (s : State) : List Byte :=
  padTo 0x280 (toBytes 4 0x5441584B ++ toBytes 1 1 ++ toBytes 1 0xA0 ++ zeros 2 ++ ((upto 4).flatMap fun i => toBytes 4 (mget 0 s.ctl.svn (i + 1)).toNat)
    ++ zeros 8 ++ toBytes 16 Config.devId.toNat ++ bytesOf256 s.ctl.attn ++ zeros 0x30 ++ measBytes s ++ toBytes 8 (timeNs s))

/-- The device identity key signs a message (R383, R387): 384 big-endian bytes. -/
def signMsg (s : State) (m : List Byte) : State × List Byte :=
  ({ s with attDone := s.attDone + 1 }, bigBytes 384 (Config.deviceSign s.attDone m).toNat)

/-- ATTESTATION_REPORT (R387): only the value 1 asks for a report. -/
def attestationReport (v : W32) (s : State) : State :=
  if v = 1 then let (s1, sig) := signMsg s (reportBody s); physWrite s1 s.ctl.attb.toNat (reportBody s ++ sig) else s

/-- ATTESTATION_REPORT (R387). -/
def execAttestationReport (v : W32) (s : State) : Host.Outcome State Fault Refusal := .next (attestationReport v s)

/-! ## Smiot -/

/-- Smiot answers, unless its firmware was refused (R385, R388, R405); the kinds of message are the model's (log 3). -/
def smiotSays (s : State) (kind : Nat) (bs : List Byte) : State := if s.refused.contains 4 then s else { s with out := .smiot kind bs :: s.out }

/-- GET_CERTIFICATE (R388). -/
def execGetCertificate (s : State) : Host.Outcome State Fault Refusal := .next (smiotSays s 10 Config.certChain)

/-- CHALLENGE (R388): the answer names the certificate chain by its digest, repeats the nonce and is signed (log 36). -/
def execChallenge (nonce : BitVec 256) (s : State) : Host.Outcome State Fault Refusal :=
  let m := sha256 Config.certChain ++ bytesOf256 nonce ++ sha256 (measBytes s)
  let (s1, sig) := signMsg s m
  .next (smiotSays s1 11 (m ++ sig))

/-- GET_MEASUREMENTS (R388): MEAS(0) to MEAS(7) as blocks 1 to 8. -/
def execGetMeasurements (s : State) : Host.Outcome State Fault Refusal :=
  .next (smiotSays s 12 ((upto 8).flatMap fun i => BitVec.ofNat 8 (i + 1) :: bytesOf256 (mget 0 s.ctl.meas i)))

/-- PLDM_DISCOVERY (R405): the PLDM types offered, and the security versions of the images in boot flash. -/
def execPldmDiscovery (s : State) : Host.Outcome State Fault Refusal :=
  .next (smiotSays s 0 ([0, 2, 5] ++ (upto 4).flatMap fun i => toBytes 4 (fieldOf (mget [] s.flash (i + 1)) 8 4)))

/-- ENRG(k): energy since reset, 0 at reset, and otherwise free (R406; log 1). -/
def energyRead (s : State) (k : Nat) : Nat := if s.cycle = 0 then 0 else (Config.energy s.cycle k).toNat

/-- The value of sensor k: PWRNOW, TEMPMAX, FCLK, then ENRG(0) to ENRG(8) (R405, R406). -/
def sensorValue (s : State) (k : Nat) : Nat :=
  match k with
  | 0 => s.ctl.pwrnow.toNat
  | 1 => s.ctl.tempmax.toNat
  | 2 => s.ctl.fclk.toNat
  | k + 3 => energyRead s k

/-- PLDM_SENSOR_READ (R405). -/
def execPldmSensorRead (k : Nat) (s : State) : Host.Outcome State Fault Refusal :=
  .next (if k < 12 then smiotSays s 3 (toBytes 8 (sensorValue s k)) else s)

/-- PLDM_FIRMWARE_UPDATE (R405): an image of one of the four types is staged for the next reset. -/
def execPldmFirmwareUpdate (ty : Nat) (image : List Byte) (s : State) : Host.Outcome State Fault Refusal :=
  .next (if 1 ≤ ty && ty ≤ 4 && !s.refused.contains 4 then { s with staged := mput [] s.staged ty image } else s)

end Sys2Proof.Machine
end

