-- ==== Sys2Proof/Machine/Masks.lean ====
section
/-!
DEFINITION. Meanings of the mask and shape instructions (R170 to R174) and of the quarter holds (R176 to R178).
-/

namespace Sys2Proof.Machine

/-- A mask is written whole, whatever m0 and the path hold (R170). -/
def maskRes (c : Ctx) (d : BitVec 7) (v : W32) : Res := { s := c.s, masks := [(d.toNat, v)] }

/-- Mask a of an instruction. -/
def Ctx.msk (c : Ctx) (a : BitVec 7) : W32 := c.g.mask a.toNat

/-- MAND (R170). -/
def execMand (d a b : BitVec 7) (s : State) : Host.Outcome State Fault Refusal :=
  issue (.mand d a b) s fun c => maskRes c d (c.msk a &&& c.msk b)

/-- MOR (R170). -/
def execMor (d a b : BitVec 7) (s : State) : Host.Outcome State Fault Refusal :=
  issue (.mor d a b) s fun c => maskRes c d (c.msk a ||| c.msk b)

/-- MXOR (R170). -/
def execMxor (d a b : BitVec 7) (s : State) : Host.Outcome State Fault Refusal :=
  issue (.mxor d a b) s fun c => maskRes c d (c.msk a ^^^ c.msk b)

/-- MANDN (R170). -/
def execMandn (d a b : BitVec 7) (s : State) : Host.Outcome State Fault Refusal :=
  issue (.mandn d a b) s fun c => maskRes c d (c.msk a &&& ~~~(c.msk b))

/-- MNOT (R170). -/
def execMnot (d a : BitVec 7) (s : State) : Host.Outcome State Fault Refusal :=
  issue (.mnot d a) s fun c => maskRes c d (~~~(c.msk a))

/-- MMOV (R170). -/
def execMmov (d a : BitVec 7) (s : State) : Host.Outcome State Fault Refusal :=
  issue (.mmov d a) s fun c => maskRes c d (c.msk a)

/-- MPOP (R171). -/
def execMpop (d a : BitVec 7) (s : State) : Host.Outcome State Fault Refusal :=
  issue (.mpop d a) s fun c => { s := c.s, regs := uRes c d (BitVec.ofNat 32 (lanesOf (c.msk a)).length) }

/-- MFIRST (R171): 32 when the mask is zero. -/
def execMfirst (d a : BitVec 7) (s : State) : Host.Outcome State Fault Refusal :=
  issue (.mfirst d a) s fun c => { s := c.s, regs := uRes c d (BitVec.ofNat 32 (lowestLane (c.msk a))) }

/-- MTOV (R171). -/
def execMtov (d a : BitVec 7) (s : State) : Host.Outcome State Fault Refusal :=
  issue (.mtov d a) s fun c => { s := c.s, regs := uRes c d (c.msk a) }

/-- VTOM (R171). -/
def execVtom (d a : BitVec 7) (s : State) : Host.Outcome State Fault Refusal :=
  issue (.vtom d a) s fun c => maskRes c d (c.uv a)

/-- MALL (R171): one bit for each lane slot that is not EXITED. -/
def execMall (d : BitVec 7) (s : State) : Host.Outcome State Fault Refusal :=
  issue (.mall d) s fun c => maskRes c d c.g.live

/-- SHAPE (R172): reads only the tag. -/
def execShape (d a : BitVec 7) (s : State) : Host.Outcome State Fault Refusal :=
  issue (.shape d a) s fun c =>
    let r := c.g.reg (c.r a.toNat)
    { s := c.s, regs := uRes c d (BitVec.ofNat 32 (r.shape.code + if r.spilled then 4 else 0)) }

/-- The tag of a register becomes G; no lane's value changes (R34, R173). -/
def Group.generalize (g : Group) (r : Nat) : Group :=
  if (g.reg r).shape.isG then g
  else { g with regs := mput {} g.regs r { g.reg r with shape := .g (g.reg r).shape.expand }, expands := g.expands + 1 }

/-- SETG (R173). -/
def execSetg (d : BitVec 7) (s : State) : Host.Outcome State Fault Refusal :=
  issue (.setg d) s fun c => { s := modGroup c.s c.g.who fun g => g.generalize (c.r d.toNat) }

/-- SQUEEZE (R174): a register that was never written stays so. -/
def execSqueeze (d : BitVec 7) (s : State) : Host.Outcome State Fault Refusal :=
  issue (.squeeze d) s fun c =>
    let r := c.r d.toNat
    { s := modGroup c.s c.g.who fun g =>
        if g.regs.any fun x => x.1 == r then { g with regs := mput {} g.regs r { g.reg r with shape := squeezed (g.reg r).shape.expand } } else g }

/-- BQH (R176). -/
def execBqh (a b : BitVec 7) (s : State) : Host.Outcome State Fault Refusal :=
  issue (.bqh a b) s fun c =>
    let q := (c.uv b).toNat % 4
    let n := bqhLen c.g b
    if (mget none c.t.quarters q).isSome then { s := c.s, wait := some (.matrixq, 0) }
    else
      { s := modTeam (modGroup c.s c.g.who fun g => (span (c.r a.toNat) n).foldl Group.generalize g) c.g.team fun t =>
          { t with quarters := mput none t.quarters q (some { g := c.g.idx, first := c.r a.toNat, len := n }) } }

/-- BQR (R177): no effect on a slot that is free or held by another group. -/
def execBqr (a : BitVec 7) (s : State) : Host.Outcome State Fault Refusal :=
  issue (.bqr a) s fun c =>
    let q := (c.uv a).toNat % 4
    match mget none c.t.quarters q with
    | some h => if h.g = c.g.idx then { s := modTeam c.s c.g.team fun t => { t with quarters := mput none t.quarters q none } } else { s := c.s }
    | none => { s := c.s }

end Sys2Proof.Machine
end

