-- ==== Sys2Proof/Machine/Queues.lean ====
section
/-!
DEFINITION. Meanings of the queue instructions (R235, R236, R267) and of the remote puts and pennants as they issue (R237 to R239).
-/

namespace Sys2Proof.Machine

/-! ## Queues -/

/-- Producer and consumer role of soft queue q (R309). -/
def softRoles (qbind q : Nat) : Nat × Nat := (bits qbind (4 * (q - 13) + 16) 2, bits qbind (4 * (q - 13) + 18) 2)

/-- A group or keystone context may put into a bound queue (R235, R267). -/
def mayPut (key : Bool) (role qbind q : Nat) : Bool :=
  if key then 8 ≤ q && q ≤ 11
  else (4 ≤ q && q ≤ 7) || q == 12 || (13 ≤ q && (softRoles qbind q).1 == role)

/-- A group or keystone context may take from a bound queue (R235, R267). -/
def mayGet (key : Bool) (role qbind q : Nat) : Bool :=
  if key then q ≤ 7
  else q ≤ 3 || (8 ≤ q && q ≤ 12) || (13 ≤ q && (softRoles qbind q).2 == role)

/-- QBIND of the issuing team's launch. -/
def qbindOf (c : Ctx) : Nat := (teamLaunch c.s c.t).lrec.qbind.toNat

/-- A queue instruction on queue q, which must be bound and permitted (R235). -/
def queueRes (c : Ctx) (q : Nat) (ok : Bool → Nat → Nat → Nat → Bool) (f : List W64 → Res) : Res :=
  if queueBound c.s c.t q && ok c.key c.g.role (qbindOf c) q then f (queueOf c.t q) else onceTrap c 0x23

/-- An entry joins a queue, with what its push releases (R236). -/
def pushQueue (s : State) (k q : Nat) (v : W64) (view : View) : State :=
  modTeam (setQueue s k q (queueOf (teamOf s k) q ++ [v])) k fun t =>
    { t with queueViews := mput [] t.queueViews q (mget [] t.queueViews q ++ [view]) }

/-- Append commands of a team that the Mason has not taken (R352; q12 holds 16 of them, log 25). -/
def masonWaiting (s : State) (k : Nat) : Nat := (s.masonQ.filter fun x => x.1 == k).length

/-- QPUT (R236, R352): a release of the putting lanes' prior writes; in a paired run the primary alone performs the q12 commands. -/
def execQput (q a : BitVec 7) (la : BitVec 4) (s : State) : Host.Outcome State Fault Refusal :=
  issue (.qput q a la) s fun c => queueRes c q.toNat mayPut fun l =>
    let v := c.pv a 0
    let full : Res := { s := c.s, wait := some (.qput, 0) }
    if q.toNat = 12 then
      if c.t.primary && 16 ≤ masonWaiting c.s c.g.team then full
      else pairRun c c.s (crc64 2 (toBytes 8 v.toNat)) (fun s => ({ s := { s with masonQ := s.masonQ ++ [(c.g.team, v)] } }, [])) fun s _ => { s := s }
    else if 16 ≤ l.length then full
    else { s := pushQueue c.s c.g.team q.toNat v (releaseAct c c.s) }

/-- The oldest entry is taken: an acquire of what its push released (R236), for a seal of the course's bytes, UN data too (R89). -/
def popRes (c : Ctx) (d : BitVec 7) (q : Nat) (v : W64) (rest : List W64) : Res :=
  let views := mget [] c.t.queueViews q
  let view := views.headD {}
  let s1 := acquireAct c (setQueue c.s c.g.team q rest) view
  let s2 := modTeam s1 c.g.team fun t => { t with queueViews := mput [] t.queueViews q (views.drop 1) }
  { s := if q = 12 then (agentsOf c.g c.act).foldl (fun s a => let o := orderOf s a; setOrder s a { o with un := o.un.join view }) s2 else s2
    regs := pairRes c d true fun _ => v }

/-- QGET (R236). -/
def execQget (d q : BitVec 7) (la : BitVec 4) (s : State) : Host.Outcome State Fault Refusal :=
  issue (.qget d q la) s fun c => queueRes c q.toNat mayGet fun l =>
    match l with
    | [] => { s := c.s, wait := some (.qget, 0) }
    | v :: rest => popRes c d q.toNat v rest

/-- QTRY (R236). -/
def execQtry (d q m : BitVec 7) (s : State) : Host.Outcome State Fault Refusal :=
  issue (.qtry d q m) s fun c => queueRes c q.toNat mayGet fun l =>
    match l with
    | [] => { s := c.s, masks := [(m.toNat, c.msk m &&& ~~~c.act)] }
    | v :: rest => { popRes c d q.toNat v rest with masks := [(m.toNat, c.msk m ||| c.act)] }

/-- QLEN (R236). -/
def execQlen (d q : BitVec 7) (la : BitVec 4) (s : State) : Host.Outcome State Fault Refusal :=
  issue (.qlen d q la) s fun c => queueRes c q.toNat (fun _ _ _ _ => true) fun l => { s := c.s, regs := uRes c d (BitVec.ofNat 32 l.length) }

/-! ## Remote puts and pennants -/

/-- Bytes of an access that a translation cannot reach: they have no canonical address, or lie in the aperture (R64, R65). -/
def barred (va n : Nat) : Bool := !canonical va || overlap va n Config.aperture Config.apertureBytes

/-- The causes that the lines of a range meet, with their tokens, lowest address first: translation and permission alone (R10, R237). -/
def rangeCauses (s : State) (env : Env) (acc : Acc) : List (Nat × Nat) → State × List (Nat × W64)
  | [] => (s, [])
  | (va, n) :: ls =>
    if barred va n then
      let (s1, rest) := rangeCauses s env acc ls
      (s1, (0x11, 0) :: rest)
    else
      let (s1, r) := translate s env va acc
      let (s2, rest) := rangeCauses s1 env acc ls
      match r with
      | .error c => (s2, (c, if c = 0x10 then BitVec.ofNat 64 (va / 4096 * 4096) else 0) :: rest)
      | .ok t => if permCause s1 env acc t = 0 then (s2, rest) else (s2, (permCause s1 env acc t, 0) :: rest)

/-- Both ends of a range are canonical (R64). -/
def canonicalRange (va n : Nat) : Bool := canonical va && canonical ((va + n - 1) % 2 ^ 64)

/-- The destination of a put or pennant, which lies in one page of the fabric tier: its translation, or the causes it meets (R237, R238). -/
def fabDest (s : State) (env : Env) (va n : Nat) : State × Except (List (Nat × W64)) Tr :=
  if overlap va n Config.aperture Config.apertureBytes || !canonicalRange va n then
    let (s1, cs) := rangeCauses s env .fab (linesOf va n)
    (s1, .error ((0x11, 0) :: cs))
  else
    let (s1, r) := translate s env va .fab
    match r with
    | .error x =>
      let (s2, cs) := rangeCauses s1 env .fab ((linesOf va n).filter fun l => l.1 / 4096 != va / 4096)
      (s2, .error ((x, if x = 0x10 then BitVec.ofNat 64 (va / 4096 * 4096) else 0) :: cs))
    | .ok t =>
      let size := pageBytes t.level
      let c := permCause s1 env .fab t
      if va % size + n ≤ size then (if c = 0 then (touchLeaf s1 env .fab va t, .ok t) else (s1, .error [(c, 0)]))
      else
        let (s2, cs) := rangeCauses s1 env .fab ((linesOf va n).filter fun l => l.1 / size != va / size)
        (s2, .error ((if c = 0 then 0x11 else Nat.min c 0x11, 0) :: cs))

/-- The endpoint that a fabric-tier address reaches through its window (R358). -/
def fabPeer (s : State) (pa : Nat) : BitVec 20 := BitVec.ofNat 20 (mget (0 : BitVec 128) s.ctl.win ((pa - fabricBase) / 2 ^ 38)).toNat

/-- A group-once instruction meets the lowest of several causes (R10, R209). -/
def leastTrap (c : Ctx) (s : State) (cs : List (Nat × W64)) (addr : W64) (n kind : Nat) : Res :=
  let x := minNat 0 (cs.map (·.1))
  { s := s, hits := allHit c x (((firstWhere (fun y => y.1 == x) cs).map (·.2)).getD 0) addr n kind }

/-- A new operation of the team's sender streams (R237, R238). -/
def addFab (s : State) (op : FabOp) : State := { s with fabOps := mput none s.fabOps s.nextFab (some op), nextFab := s.nextFab + 1 }

/-- The %tid of the active lanes. -/
def actTids (c : Ctx) : List W32 := c.lanes.map fun l => (c.g.lane l).tid

/-- FPUT (R237, R239): a length or source that is not permitted, and each check of its table; the lowest code counts. -/
def execFput (d b o : BitVec 7) (la : BitVec 4) (s : State) : Host.Outcome State Fault Refusal :=
  issue (.fput d b o la) s fun c =>
    let src := (c.pv d 0).toNat
    let len := (c.uvk d 2).toNat
    let dst := c.addr b o 8 c.first
    let lenOk := 1 ≤ len && len ≤ 65536
    let bad := !lenOk || overlap src len Config.aperture Config.apertureBytes
    let env := laneEnv c.s c.g c.first
    let (s1, dr) := fabDest c.s env dst.toNat (Nat.max len 1)
    let (s2, sc) := rangeCauses s1 env .read ((linesOf src len).filter fun l => !overlap l.1 l.2 Config.aperture Config.apertureBytes)
    let (dc, peer, pa) := match dr with
      | .error cs => (cs, (0 : BitVec 20), 0)
      | .ok t => ([], fabPeer s2 t.pa, t.pa)
    let off := dc.isEmpty && (s2.down.contains peer || c.t.broken.contains peer)
    let cs := dc ++ sc ++ (if off then [(0x16, 0)] else []) ++ (if bad then [(0x22, 0)] else [])
    if !cs.isEmpty then leastTrap c s2 cs dst 0 1
    else pairRun c s2 (crc64 3 (toBytes 8 dst.toNat ++ toBytes 8 src ++ toBytes 4 len))
      (fun s =>
        let op : FabOp := { team := c.g.team, dest := peer, va := dst, rpa := pa, src := BitVec.ofNat 64 src, len := len, tids := actTids c }
        ({ s := addFab s { op with at_ := s.writes, view := releaseAct c s } }, []))
      fun s _ => { s := s }

/-- FSIG (R238, R239). -/
def execFsig (d b o : BitVec 7) (la : BitVec 4) (s : State) : Host.Outcome State Fault Refusal :=
  issue (.fsig d b o la) s fun c =>
    let dst := c.addr b o 8 c.first
    let v := c.pv d 0
    let (s1, dr) := fabDest c.s (laneEnv c.s c.g c.first) dst.toNat 8
    let (dc, peer, pa) := match dr with
      | .error cs => (cs, (0 : BitVec 20), 0)
      | .ok t => ([], fabPeer s1 t.pa, t.pa)
    let cs := (if dst.toNat % 8 != 0 then [(5, 0)] else []) ++ dc ++ (if dc.isEmpty && c.t.broken.contains peer then [(0x16, 0)] else [])
    if !cs.isEmpty then leastTrap c s1 cs dst 8 1
    else pairRun c s1 (crc64 4 (toBytes 8 dst.toNat ++ toBytes 8 v.toNat))
      (fun s => ({ s := addFab s { team := c.g.team, dest := peer, va := dst, rpa := pa, pennant := some v, tids := actTids c, at_ := s.writes, view := releaseAct c s } }, []))
      fun s _ => { s := s }

end Sys2Proof.Machine
end

