-- ==== Sys2Proof/Machine/Reform.lean ====
section
/-!
DEFINITION. Reform (R50 to R54, R157): lanes are filed in the bins of their core, and groups are drawn from them.
-/

namespace Sys2Proof.Machine

/-- The kept registers of a lane: those of the keep list, in the window of the reform, that hold a written value (R50, R146). -/
def keptOf (c : Ctx) (l : Nat) : List (Nat × W32 × Bool) :=
  (teamLaunch c.s c.t).krec.keep.filterMap fun f =>
    let r := c.r f
    if c.g.regs.any fun x => x.1 == r then some (r, c.g.val r l, (c.g.reg r).shape.isU) else none

/-- A lane as a bin holds it. -/
def binLane (c : Ctx) (l : Nat) (key : W64) : BinLane :=
  { lane := { (c.g.lane l) with st := .binned, pc := key, depth := 0, tag := 0, handler := false, at_ := .none }
    kept := keptOf c l, fpcr := c.g.fpcr, fpflags := c.g.fpflags, winb := c.g.winb, nregs := c.g.nregs, budget := c.g.budget, at_ := c.s.cycle }

/-- The bins with a lane filed under its key; none when no bin has the key and none is free (R50, R51). -/
def fileIn (bins : List Bin) (team role : Nat) (b : BinLane) : Option (List Bin) :=
  let same (x : Bin) : Bool := x.team == team && x.role == role && x.pc == b.lane.pc
  if bins.any same then some (mapWhere same (fun x => { x with lanes := x.lanes ++ [b] }) bins)
  else if bins.length < 64 then some (bins ++ [{ team := team, role := role, pc := b.lane.pc, lanes := [b] }])
  else none

/-- The bins of the core after the lanes are filed, in ascending order, and the lanes that were. -/
def fileLanes (c : Ctx) (d : BitVec 7) (m : W32) : List Bin × W32 :=
  (lanesOf m).foldl (fun (bins, filed) l =>
    match fileIn bins c.g.team c.g.role (binLane c l (c.pv d l)) with
    | some b => (b, filed ||| laneBit l)
    | none => (bins, filed)) ((coreOf c.s (groupTile c.s c.g)).bins, 0)

/-- REFORM (R43, R50, R53, R157): pending instructions complete, the lanes leave the group, which ends with its last lane; lanes that find no bin wait. -/
def execReform (d : BitVec 7) (s : State) : Host.Outcome State Fault Refusal :=
  issue (.reform d) s fun c =>
    let bad := laneSet fun l => hasLane c.act l && !pcOk (c.pv d l)
    let go := c.act &&& ~~~bad
    let (bins, filed) := fileLanes { c with g := completePending c.g go } d go
    let s1 := modCore c.s (groupTile c.s c.g) fun k => { k with bins := bins }
    let s2 := endIfEmpty c (modGroup s1 c.g.who fun g => exitLanes (completePending g filed) filed)
    if filed = go then { s := s2, gone := filed, hits := (lanesOf bad).map fun l => { lane := l, cause := 0x11 } }
    else { s := s2, wait := some (.binwait, 0), keep := true }

/-- First group index of a role (R316). -/
def roleBase (k : KRec) (role : Nat) : Nat := sumNat ((k.roles.take role).map (·.groups))

/-- Group indices that groups of a team hold: resident, in a vault image or in its save block. -/
def heldIdx (s : State) (k : Nat) : List Nat :=
  let of (l : List Group) : List Nat := (l.filter fun g => g.team == k && g.key.isNone).map (·.idx)
  of s.groups ++ (s.vault.flatMap fun (_, v) => match v with | some i => of i.groups | none => []) ++ s.saved.flatMap fun x => of x.groups

/-- The index that a group drawn for a role takes: the lowest of the role's range that no group holds (R316). -/
def freeIdx (s : State) (k role : Nat) : Option Nat :=
  let r := (teamLaunch s (teamOf s k)).krec
  let held := heldIdx s k
  firstWhere (fun i => !held.contains i) (span (roleBase r role) ((r.roles.map (·.groups)).getD role 0))

/-- Resident vector groups of a core. -/
def coreGroups (s : State) (tile : Nat) : List Group := s.groups.filter fun g => g.key.isNone && groupTile s g == tile

/-- A draw from a bin has what it needs: a group slot on the core (R51), a group index of its role (R316), a core that runs. -/
def drawFits (s : State) (tile : Nat) (b : Bin) : Bool :=
  let c := coreOf s tile
  (teamOf s b.team).status == .resident && c.frozen.isNone && !c.dbgFrozen && (coreGroups s tile).length < 256 && (freeIdx s b.team b.role).isSome

/-- The bin is full, or no lane of its role on its core is RUNNING, WAITING or PARKED (R51). -/
def drawDue (s : State) (tile : Nat) (b : Bin) : Bool :=
  32 ≤ b.lanes.length || !(coreGroups s tile).any fun g => g.team == b.team && g.role == b.role && g.live != 0

/-- The bin's oldest lane has reached the draw age; paired teams do not draw by age (R51, R54). -/
def drawAged (s : State) (tile : Nat) (b : Bin) : Bool :=
  !isPaired (teamOf s b.team) && (b.lanes.head?.any fun x => x.at_ + binAge (coreOf s tile) b.team b.role ≤ s.cycle)

/-- Kept registers of a drawn group, by number. -/
def keptNumbers (l : List BinLane) : List Nat := distinct (l.flatMap fun b => b.kept.map (·.1))

/-- A kept register of a drawn group (R52): U when it was U with one value everywhere, else G with each lane's value; the values in slots
that are not filled are free (log 1). -/
def drawnShape (free : Nat) (l : List BinLane) (r : Nat) : Shape :=
  let at_ (b : BinLane) : W32 × Bool := ((firstWhere (fun x => x.1 == r) b.kept).map (·.2)).getD (0, true)
  let vs := l.map at_
  let v0 := (vs.headD (0, true)).1
  if vs.all fun x => x.2 && x.1 == v0 then .u v0
  else .g (lanes32.map fun i => if i < l.length then (nth (0, true) vs i).1 else (Config.freeWord (free + 32 * r + i)).setWidth 32)

/-- The drawn group (R52, R114). -/
def drawnGroup (s : State) (tile : Nat) (b : Bin) (idx : Nat) (l : List BinLane) : Group :=
  let b0 := l.headD { lane := {}, kept := [], fpcr := 0, fpflags := 0, winb := 0, nregs := 32, budget := 256, at_ := 0 }
  let m := laneSet fun i => i < l.length
  let regs := (keptNumbers l).foldl (fun (m : SMap Reg × Nat) r =>
    (mput {} m.1 r { shape := drawnShape s.free l r, stamp := m.2 }, m.2 + 1)) (([] : SMap Reg), 1)
  { team := b.team, idx := idx, core := tile % 5, role := b.role, nregs := b0.nregs, budget := b0.budget
    lanes := lanes32.map fun i => match l[i]? with | some x => { x.lane with st := .running } | none => { st := .exited }
    regs := regs.1, masks := m :: List.replicate 15 0, winb := b0.winb, fpcr := b0.fpcr
    fpflags := l.foldl (fun f x => f ||| x.fpflags) 0
    preempt := (teamOf s b.team).preReq.isSome, drawn := true, residentAt := s.cycle, nextStamp := regs.2 }

/-- The quadrant of a core that a group comes to: the one with the fewest groups (R4; log 95). -/
def freeQuad (s : State) (tile : Nat) : Nat :=
  let n (q : Nat) : Nat := ((coreGroups s tile).filter (·.quad == q)).length
  [1, 2, 3].foldl (fun b q => if n q < n b then q else b) 0

/-- A group comes to a core. -/
def addGroup (s : State) (g : Group) : State :=
  { s with groups := s.groups ++ [if g.key.isSome then g else { g with quad := freeQuad s (groupTile s g) }] }

/-- A group is drawn from bin i: up to 32 lanes, oldest first (R51, R52). -/
def drawBin (s : State) (tile i : Nat) (b : Bin) : State :=
  match freeIdx s b.team b.role with
  | none => s
  | some idx =>
    let g := drawnGroup s tile b idx (b.lanes.take 32)
    let rest := b.lanes.drop 32
    let s1 := modCore s tile fun c => { c with bins := if rest.isEmpty then dropNth c.bins i else setNth c.bins i { b with lanes := rest } }
    let s2 := { addGroup s1 (fitBudget s1 [] g) with free := s1.free + 32 * 512 }
    makeRoom tile g.who s2.groups.length s2

/-- A bin of a core. -/
def binAt (s : State) (tile i : Nat) : Option Bin := (coreOf s tile).bins[i]?

/-- REFORM_DRAW (R51): a full bin, or one whose role has no other lane on the core, is drawn. -/
def execReformDraw (tile bin : Nat) (s : State) : Host.Outcome State Fault Refusal :=
  match binAt s tile bin with
  | some b => .next (if drawFits s tile b && drawDue s tile b then drawBin s tile bin b else s)
  | none => .next s

/-- BIN_AGE_EXPIRY (R51, R54). -/
def execBinAgeExpiry (tile bin : Nat) (s : State) : Host.Outcome State Fault Refusal :=
  match binAt s tile bin with
  | some b => .next (if drawFits s tile b && drawAged s tile b then drawBin s tile bin b else s)
  | none => .next s

end Sys2Proof.Machine
end

