-- ==== Sys2Proof/Machine/Placing.lean ====
section
/-!
DEFINITION. The dispatcher: placement of teams (R17 to R20, R71, R72, R240, R292 to R295, R312, R313) and requests for pre-emption (R314, R315).
The number that a TEAM_PLACE carries makes the choices that the spec leaves to the device.
-/

namespace Sys2Proof.Machine

/-! ## Room on a cluster -/

/-- The cluster is in SERVICE (R397). -/
def inService (s : State) (c : Nat) : Bool := c < Config.nClusters && (clusterOf s c).ftState == 0

/-- Free PAD banks of a cluster, lowest first (R20). -/
def freePads (s : State) (c : Nat) : List Nat :=
  (banksIn s c 1).filter fun b => !s.teams.any fun t => t.cluster == c && t.pad.contains b

/-- n free queue frames: the lowest of the lowest-numbered FIFO banks (R72); none when there are fewer. -/
def freeFrames (s : State) (c n : Nat) : Option (List (Nat × Nat)) :=
  let held (b f : Nat) : Bool := s.teams.any fun t => t.cluster == c && t.frames.any fun x => x.2.1 == b && x.2.2 == f
  let l := ((banksIn s c 2).flatMap fun b => ((upto 1024).filter fun f => !held b f).map fun f => (b, f)).take n
  if l.length = n then some l else none

/-- Free keystone contexts of a cluster (R240). -/
def freeHw (s : State) (c : Nat) : List Nat := (upto 4).filter fun h => !s.teams.any fun t => t.cluster == c && t.hw == some h

/-- The core of a tile takes groups: it is not frozen or held (R56, R363). -/
def coreOpen (s : State) (tile : Nat) : Bool := (coreOf s tile).frozen.isNone && !(coreOf s tile).dbgFrozen

/-- The rooms of a cluster's four vector cores (R20, R37). -/
def roomsOf (s : State) (c : Nat) : List Room :=
  (upto 4).map fun k =>
    let l := coreGroups s (5 * c + k)
    if coreOpen s (5 * c + k) then (256 - l.length, Config.poolSlots - sumNat (l.map (·.budget))) else (0, 0)

/-- The groups still to be assigned fit. -/
def restFits (rooms : List Room) (ps : List (Nat × Nat × Option Nat)) : Bool :=
  match roomFixed rooms ps with
  | some r => freeFits (openKinds ps) r
  | none => false

/-- A core for each group, in order: the fixed one, or one that the digits prefer and that leaves room for the rest (R19, R20). -/
def assignCores : List (Nat × Nat × Option Nat) → List Room → Nat → Option (List Nat)
  | [], _, _ => some []
  | p :: ps, rooms, dig =>
    let cands := match p.2.2 with
      | some k => [k]
      | none => (upto 4).map fun i => (i + dig) % 4
    let ok (k : Nat) : Bool := match takeRoom rooms k p.2.1 with | some r => restFits r ps | none => false
    match firstWhere ok cands with
    | none => none
    | some k => (assignCores ps ((takeRoom rooms k p.2.1).getD rooms) (dig / 4)).map (k :: ·)

/-- What a placement takes on a cluster: cores by group, banks, frames, keystone context. -/
structure Plan where
  cluster : Nat
  cores : List Nat
  pads : List Nat
  frames : List (Nat × Nat)
  hw : Option Nat
deriving DecidableEq, Repr

/-- What a team needs: its groups, PAD banks, soft queues, keystone context, bins by core. -/
structure Need where
  groups : List (Nat × Nat × Option Nat)
  pads : Nat
  frames : Nat
  key : Bool
  bins : List Nat := []
deriving DecidableEq, Repr

/-- A cluster admits a team whole (R20). -/
def planOn (s : State) (n : Need) (c dig : Nat) : Option Plan :=
  if !inService s c then none
  else
    let pads := freePads s c
    let hws := freeHw s c
    let binsOk := (upto 4).all fun k => (coreOf s (5 * c + k)).bins.length + (n.bins.filter (· == k)).length ≤ 64
    match assignCores n.groups (roomsOf s c) dig, freeFrames s c n.frames with
    | some cores, some fr =>
      if n.pads ≤ pads.length && binsOk && (!n.key || (!hws.isEmpty && coreOpen s (5 * c + 4))) then
        some { cluster := c, cores := cores, pads := pads.take n.pads, frames := fr, hw := if n.key then hws.head? else none }
      else none
    | _, _ => none

/-- What a launch's teams need. -/
def launchNeed (l : Launch) : Need :=
  { groups := groupPlans l.lrec l.krec, pads := l.lrec.padb, frames := (softBound l.lrec).length, key := l.krec.keystone }

/-- The placement rule of a group of a team, by its index (R17, R19). -/
def placeRule (l : Launch) (g : Group) : Nat × Nat × Option Nat :=
  let r := l.krec.roles.getD g.role { groups := 0, place := 0, slots := 256, entry := 0 }
  (g.role, g.budget, if r.place = 0 then none else if r.place ≤ 2 then some ((g.idx - roleBase l.krec g.role) % 4) else some (r.place - 3))

/-- What a saved team needs. -/
def savedNeed (l : Launch) (x : Saved) : Need :=
  { groups := (x.groups.filter (·.key.isNone)).map (placeRule l), pads := l.lrec.padb, frames := (softBound l.lrec).length
    key := x.groups.any (·.key.isSome), bins := x.bins.map (·.1) }

/-! ## Head teams -/

/-- A head team: its queue, effective priority, and the saved team it is, or the launch whose next team it is (R313). -/
structure Head where
  ctx : Nat
  queue : Nat
  eff : Nat
  saved : Option Nat
  id : W32
deriving DecidableEq, Repr

/-- Which head team it is, whatever its effective priority. -/
def Head.name (h : Head) : HeadId := { ctx := h.ctx, queue := h.queue, id := h.id, saved := h.saved }

/-- The descriptor of a queue as it stands in memory. -/
def descNow (s : State) (c q : Nat) : QDesc :=
  match walk s (contextOf s c).root (descAt s c q) with
  | .ok t => descOf (physRead s t.pa 64)
  | .error _ => {}

/-- Effective priority (R312). -/
def effPrio (d : QDesc) (p wait : Nat) : Nat := if d.age = 0 then p else Nat.max p (Nat.min d.ceil (p + wait / d.age))

/-- The saved team that heads a queue (R315). -/
def savedHead (s : State) (c q : Nat) : Option Saved :=
  firstWhere (fun x => let t := teamOf s x.key; t.ctx == c && t.queue == q && t.status == .saved) s.saved

/-- The head team of a queue (R313, R315). -/
def headOf (s : State) (c q : Nat) : Option Head :=
  let d := descNow s c q
  match savedHead s c q with
  | some x =>
    let t := teamOf s x.key
    some { ctx := c, queue := q, eff := effPrio d t.prio (s.cycle - x.since), saved := some x.key, id := t.launch }
  | none =>
    (firstWhere (fun l => l.ctx == c && l.queue == q && l.killed.isNone && l.next < l.total) s.launches).map fun l =>
      { ctx := c, queue := q, eff := effPrio d l.lrec.prio (s.cycle - l.headSince), saved := none, id := l.id }

/-- The queues that have head teams. -/
def headQueues (s : State) : List (Nat × Nat) :=
  distinct ((s.launches.map fun l => (l.ctx, l.queue)) ++ s.saved.map fun x => ((teamOf s x.key).ctx, (teamOf s x.key).queue))

/-- The head teams. -/
def heads (s : State) : List Head := (headQueues s).filterMap fun (c, q) => headOf s c q

/-- Distance of a queue from the one served last at a priority (R313). -/
def turnOf (s : State) (h : Head) : Nat := (64 * h.ctx + h.queue + 4096 - mget 0 s.served h.eff) % 4096

/-- The head team considered first (R312, R313). -/
def firstHead (s : State) : Option Head :=
  (heads s).foldl (fun b h => match b with
    | some x => if x.eff < h.eff || (x.eff == h.eff && turnOf s h < turnOf s x) then some h else some x
    | none => some h) none

/-- Clusters on which a saved team may return: where parts of it stand, or any (R324, R328). -/
def savedClusters (s : State) (k : Nat) : List Nat :=
  if (s.groups.any fun g => g.team == k) || teamInImage s k then [(teamOf s k).cluster] else upto Config.nClusters

/-- The saved team of a key. -/
def savedOf (s : State) (k : Nat) : Option Saved := firstWhere (fun x => x.key == k) s.saved

/-- The parts of a head team, which are placed at once: what each needs, and the clusters that may take it. A launch with PAIR has two, and so has a saved
twin whose other twin is saved; a saved twin whose other twin stands on a cluster keeps to another die (R62, R313). -/
def headParts (s : State) (h : Head) : List (Need × List Nat) :=
  let l := launchOf s h.ctx h.id
  match h.saved with
  | none =>
    let n := (launchNeed l, upto Config.nClusters)
    if bits l.lrec.lflags.toNat 0 1 = 1 then [n, n] else [n]
  | some k =>
    match savedOf s k with
    | none => []
    | some x =>
      match (teamOf s k).twin.bind (findTeam s) with
      | none => [(savedNeed l x, savedClusters s k)]
      | some t => match savedOf s t.key with
        | some y => [(savedNeed l x, savedClusters s k), (savedNeed l y, savedClusters s t.key)]
        | none => [(savedNeed l x, (savedClusters s k).filter fun c => t.status == .ended || dieOf c != dieOf t.cluster)]

/-- The placements open to a head team: one plan, or two on two dies (R20, R313). -/
def plansFor (s : State) (h : Head) (dig : Nat) : List (List Plan) :=
  match headParts s h with
  | [] => []
  | [(n, cs)] => cs.filterMap fun c => (planOn s n c dig).map fun p => [p]
  | (n, cs) :: (m, ds) :: _ =>
    let ps := cs.filterMap fun c => planOn s n c dig
    let qs := ds.filterMap fun c => planOn s m c (dig / 4 ^ 128)
    ps.flatMap fun a => (qs.filter fun b => dieOf a.cluster != dieOf b.cluster).map fun b => [a, b]

/-! ## Team start -/

/-- A team's group at launch (R17, R40, R114, R292, R294). -/
def launchGroup (s : State) (l : Launch) (team lin : Nat) (i : Nat) (role core : Nat) : Group :=
  let r := l.krec.roles.getD role { groups := 0, place := 0, slots := 256, entry := 0 }
  let g : Group :=
    { team := team, idx := i, core := core, role := role, nregs := l.krec.regs, budget := r.slots
      lanes := lanes32.map fun x =>
        let tid := BitVec.ofNat 32 (32 * i + x)
        { st := .running, pc := r.entry, tid := tid, gen := seedGen l.lrec.seed tid }
      masks := BitVec.allOnes 32 :: List.replicate 15 0, residentAt := s.cycle, lastIssue := s.cycle }
  let all := BitVec.allOnes 32
  let a := l.lrec.args
  let g1 := if a = 0 then g else putReg (putReg g all 0 (.u (a.setWidth 32))) all 1 (.u ((a >>> 32).setWidth 32))
  if a = 0 || l.stackS = 0 then g1
  else
    let top := l.stackS.toNat + (lin * groupCount l.krec + i + 1) * l.stackZ.toNat
    putReg (putReg g1 all 60 (.a (BitVec.ofNat 32 top) 4)) all 61 (.u ((l.stackS >>> 32).setWidth 32))

/-- A team's keystone context at entry (R240). -/
def launchKey (s : State) (l : Launch) (team hw : Nat) : Group :=
  let a := l.lrec.args
  let g : Group :=
    { team := team, idx := 0, core := 4, key := some { hw := hw }, nregs := 128, budget := 4096
      lanes := ({ st := .running, pc := l.krec.key, gen := if l.lrec.seed = 0 then 1 else l.lrec.seed, tid := BitVec.allOnes 32 } : Lane)
        :: List.replicate 31 { st := .exited }
      masks := 1 :: List.replicate 15 0, residentAt := s.cycle, lastIssue := s.cycle }
  if a = 0 then g else putReg (putReg g 1 0 (.u (a.setWidth 32))) 1 1 (.u ((a >>> 32).setWidth 32))

/-- A PAD bank goes to a team: zeroed when it last served another context (R71). -/
def takeBank (s : State) (c ctx : Nat) (b : Nat) : State :=
  let s1 := if (bankOf s c b).lastCtx = some ctx then s else sramWrite s c (b * Config.bankBytes) (zeros Config.bankBytes)
  modBank s1 c b fun x => { x with lastCtx := some ctx }

/-- The cores that receive groups or bins of a team discard their instruction caches (R295). -/
def freshCores (s : State) (c : Nat) (ks : List Nat) : State :=
  ks.foldl (fun s k => modCore { s with l1i := mput [] s.l1i (5 * c + k) [] } (5 * c + k) fun x => { x with iview := x.iview.join { base := s.writes } }) s

/-- Names the frames of the bound soft queues (R72). -/
def nameFrames (l : LRec) (fr : List (Nat × Nat)) : List (Nat × Nat × Nat) := (softBound l).zip fr |>.map fun (q, b, f) => (q, b, f)

/-- A new team is admitted on a plan; its muster slots start at zero, and what its launch acquired happens before its accesses (R20, R86, R308). -/
def startTeam (s : State) (l : Launch) (eff : Nat) (p : Plan) (key : Nat) (twin : Option Nat) (primary : Bool) : State :=
  let lin := l.next
  let t : Team :=
    { key := key, ctx := l.ctx, launch := l.id, queue := l.queue, l := lin, tx := lin % l.lrec.gx, ty := lin / l.lrec.gx % l.lrec.gy
      tz := lin / (l.lrec.gx * l.lrec.gy), cluster := p.cluster, prio := eff, pad := p.pads, frames := nameFrames l.lrec p.frames, hw := p.hw
      twin := twin, primary := primary, view := l.view }
  let s1 := p.pads.foldl (fun s b => takeBank s p.cluster l.ctx b) { s with teams := s.teams ++ [t] }
  let s2 := match p.pads with
    | b :: _ => sramWrite s1 p.cluster (b * Config.bankBytes + 16) (zeros 1008)
    | [] => s1
  let roles := (groupPlans l.lrec l.krec).map (·.1)
  let gs := ((upto roles.length).zip (roles.zip p.cores)).map fun (i, r, k) => launchGroup s l key lin i r k
  let ks := match p.hw with | some h => [launchKey s l key h] | none => []
  freshCores ((gs ++ ks).foldl addGroup s2) p.cluster (distinct (p.cores ++ if p.hw.isSome then [4] else []))

/-- The next team of a launch is placed, as a pair of twins when two plans are given (R20, R62). -/
def placeNew (s : State) (h : Head) (ps : List Plan) : State :=
  let l := launchOf s h.ctx h.id
  let k := s.nextTeam
  let s1 := match ps with
    | [p] => startTeam { s with nextTeam := k + 1 } l h.eff p k none true
    | p :: q :: _ => startTeam (startTeam { s with nextTeam := k + 2 } l h.eff p k (some (k + 1)) true) l h.eff q (k + 1) (some k) false
    | [] => s
  modLaunch s1 h.ctx h.id fun l => { l with next := l.next + 1, headSince := s.cycle }

/-! ## Restoring a saved team -/

/-- The waits of a group that was away do not age meanwhile (R374). -/
def shiftWaits (d : Nat) (g : Group) : Group :=
  { g with waits := g.waits.map (fun w => { w with since := w.since + d }), haltAt := g.haltAt + d }

/-- A group is back: lanes that wait at a yield go on after it, with %preempt clear (R55). -/
def afterYield (g : Group) (now : Nat) : Group := { pastYield g with preempt := false, residentAt := now, readyFor := 0, lastIssue := now, lastPath := 0 }

/-- A group that took a halt while it was away stops now (R363, R364, R367). -/
def takeHalt (s : State) (w : Who) : State :=
  match findGroup s w with
  | some g =>
    if g.haltDue then
      let s1 := modGroup s w fun g => { g with haltDue := false }
      if g.key.isSome then haltKey s1 w 0x42 0 else deliver (modGroup s1 w (haltGroup s.timeFs)) w
    else s
  | none => s

/-- Sub-groups whose wake token was posted while they were away re-execute (R47, R355). -/
def wakeDead (s : State) (g : Group) : Group :=
  g.wakeSubs (fun u => u.cause == 0x13 && !s.stalls.any fun x => x.2.setWidth 64 == u.token) g.subs.length

/-- Parked sub-groups of a group that came back are filed in its core's wait table (R46; log 28), but for those whose wake token has been posted. -/
def refile (s : State) (w : Who) : State :=
  match (findGroup s w).map (wakeDead s) with
  | none => s
  | some g =>
    (upto g.subs.length).foldl (fun s i =>
      let u := nth { lanes := 0, pcmask := 0, cause := 0 } g.subs i
      if u.cause = 0x10 || u.cause = 0x13 then
        let (s1, filed) := fileWait s g u { lane := lowestLane u.lanes, cause := u.cause.toNat, token := u.token, addr := u.tval, bytes := u.bytes, kind := u.kind }
        modGroup s1 w fun g => { g with subs := setNth g.subs i { u with filed := filed } }
      else s) (setGroup s g)

/-- A region whose save block or image was struck restarts (R60, R331). -/
def restartOpen (g : Group) : Group := match g.region with | some r => restartRegion g r | none => g

/-- A poisoned block or image at its restore (R331): groups with an open region restart; where the word that was struck is not of such a group, every
launch of the context that owns it ends with cause 0x15. -/
def restorePoisoned (s : State) (gs : List Group) (spared : Bool) (owner : Option Nat) : State :=
  let s1 := gs.foldl (fun s g => modGroup s g.who restartOpen) s
  match owner with
  | some c => if spared then s1 else (s1.launches.filter fun l => l.ctx == c).foldl (fun s l => killLaunch s c l.id 0x15 0xFFFFFFFF 0) s1
  | none => s1

/-- The group whose image in a save block holds an offset (R322). -/
def struckGroup (s : State) (l : Launch) (x : Saved) (off : Nat) : Option Group :=
  let from_ := 0x1000 + l.lrec.padb * Config.bankBytes + if x.groups.any (·.key.isSome) then 528384 else 0
  let vs := (upto 128).flatMap fun i => x.groups.filter fun g => g.key.isNone && g.idx == i
  let ends := vs.foldl (fun (a : List (Nat × Nat × Group) × Nat) g =>
    let n := roundUp (groupImage s g g.idx 0).length 64
    (a.1 ++ [(a.2, a.2 + n, g)], a.2 + n)) ([], from_)
  (firstWhere (fun (a, b, _) => a ≤ off && off < b) ends.1).map fun (_, _, g) => g

/-- Scratchpad bytes written back to the banks of a plan. -/
def padBack (s : State) (c : Nat) (pads : List Nat) (x : Saved) : State :=
  let spot (off : Nat) : Nat := nth 0 pads (off / Config.bankBytes) * Config.bankBytes + off % Config.bankBytes
  let s1 := pads.foldl (fun s b => sramWrite s c (b * Config.bankBytes) (zeros Config.bankBytes)) s
  modCluster s1 c fun k => { k with
    sram := x.sram.foldl (fun m (off, v) => mput 0 m (spot off) v) k.sram
    sramBad := k.sramBad ++ x.sramBad.map fun w => spot (8 * w) / 8 }

/-- A saved team returns (R315, R324, R354); loads that a freeze found pending in it are performed (R101). Its binned lanes keep the cycle at which they were
filed: the cycles for which the team was saved count towards their age (log 103). -/
def placeSaved (s : State) (eff : Nat) (x : Saved) (p : Plan) : State :=
  let t := teamOf s x.key
  let l := teamLaunch s t
  let vs := x.groups.filter (·.key.isNone)
  let gs := (vs.zip p.cores).map fun (g, k) => { afterYield (shiftWaits (s.timeFs - x.time) g) s.cycle with core := k }
  let ks := (x.groups.filter (·.key.isSome)).map fun g =>
    { afterYield (shiftWaits (s.timeFs - x.time) g) s.cycle with key := g.key.map fun y => { y with hw := p.hw.getD 0 } }
  let s1 := p.pads.foldl (fun s b => modBank s p.cluster b fun y => { y with lastCtx := some t.ctx }) s
  let s2 := padBack s1 p.cluster p.pads x
  let s3 := modTeam { s2 with saved := s2.saved.filter fun y => y.key != x.key } x.key fun t => { t with
    status := .resident, cluster := p.cluster, pad := p.pads, frames := nameFrames l.lrec p.frames, hw := if p.hw.isSome then p.hw else t.hw, prio := eff
    queues := mput [] t.queues 12 (queueOf t 12 ++ x.results.map (·.1))
    queueViews := mput [] t.queueViews 12 (mget [] t.queueViews 12 ++ x.results.map (·.2)) }
  let s4 := freshCores ((gs ++ ks).foldl addGroup s3) p.cluster (distinct (p.cores ++ (x.bins.map (·.1)) ++ if p.hw.isSome then [4] else []))
  let s5 := x.bins.foldl (fun s (k, b) => modCore s (5 * p.cluster + k) fun c => { c with bins := c.bins ++ [b] }) s4
  let s6 := (gs ++ ks).foldl (fun s g => takeHalt (refile s g.who) g.who) s5
  let s7 : State := match x.poisoned with
    | some off => restorePoisoned s6 (gs ++ ks) ((struckGroup s l x off).any fun g => g.region.isSome) (some t.ctx)
    | none => s6
  let s8 := (s7.groups.filter fun g => g.team == x.key).foldl (fun s g => redoLoads s g.who) s7
  restartHead (settleBarriers s8 x.key (distinct (vs.map (·.role)))) t.ctx t.queue

/-- The head team is placed on one of its placements (R313). -/
def placeHead (s : State) (h : Head) (ps : List Plan) : State :=
  let s1 := match h.saved with
    | some k => (((some k :: [(teamOf s k).twin]).filterMap id).filterMap (savedOf s) |>.zip ps).foldl (fun s (x, p) => placeSaved s h.eff x p) s
    | none => placeNew s h ps
  let s2 := { s1 with served := mput 0 s1.served h.eff (64 * h.ctx + h.queue + 1), hasServed := true }
  if s2.blocked.contains h.name then cancelRequests s2 h.name else s2

/-! ## Requests for pre-emption -/

/-- Worst-case save size of a launch's teams (R322). -/
def worstSave (l : Launch) : Nat :=
  let g := groupCount l.krec
  0x1000 + l.lrec.padb * 131072 + (if l.krec.keystone then 528384 else 0) + g * 78400 + (g + 256) * 6656

/-- Free save slots of a context (R314). -/
def freeSaves (s : State) (c : Nat) : List Nat :=
  (upto (contextOf s c).saven).filter fun i => !s.saved.any fun x => x.slot == i && (teamOf s x.key).ctx == c

/-- A vault slot holds no image. -/
def slotFree (s : State) (i : Nat) : Bool := (mget none s.vault i).isNone

/-- A free vault slot of a tile (R326). -/
def freeSlot (s : State) (tile : Nat) : Option Nat := firstWhere (slotFree s) [2 * tile, 2 * tile + 1]

/-- The cores and keystone cores that a team occupies with groups, a keystone context or bins (R314). -/
def teamTiles (s : State) (k : Nat) : List Nat :=
  distinct ((s.groups.filter fun g => g.team == k).map (groupTile s) ++ (s.cores.filter fun x => x.2.bins.any fun b => b.team == k).map (·.1))

/-- A resident team may be a victim of a head of an effective priority (R314), save slots apart. -/
def mayEvict (s : State) (eff : Nat) (t : Team) : Bool :=
  let tiles := teamTiles s t.key
  t.status == .resident && t.prio < eff && !(freeSaves s t.ctx).isEmpty
    && worstSave (teamLaunch s t) ≤ (contextOf s t.ctx).savesz * 4096 && tiles.all fun x => (freeSlot s x).isSome

/-- The state as if some teams were gone. -/
def without (s : State) (ks : List Nat) : State :=
  { s with teams := s.teams.filter fun t => !ks.contains t.key, groups := s.groups.filter fun g => !ks.contains g.team
           cores := s.cores.map fun (i, c) => (i, { c with bins := c.bins.filter fun b => !ks.contains b.team }) }

/-- Where the parts of a head team may go: one cluster, or two on two dies (R313). -/
def sitesOf (s : State) (h : Head) : List (List Nat) :=
  match (headParts s h).map fun p => p.2.filter (inService s) with
  | [] => []
  | [cs] => cs.map fun c => [c]
  | cs :: ds :: _ => cs.flatMap fun c => (ds.filter fun d => dieOf c != dieOf d).map fun d => [c, d]

/-- The head fits a site once some teams are gone. -/
def fitsWithout (s : State) (h : Head) (site ks : List Nat) : Bool :=
  let s1 := without s ks
  ((headParts s h).zip site).all fun (p, c) => (planOn s1 p.1 c 0).isSome

/-- Members are left out one by one while room remains: a set of which none can be left out (R314). -/
def minimalSet (s : State) (h : Head) (site order all : List Nat) : List Nat :=
  order.foldl (fun set k => if fitsWithout s h site (set.filter (· != k)) then set.filter (· != k) else set) all

/-- The parts of a list with n elements; the whole list when it has no more. -/
def partsOf {α : Type} : List α → Nat → List (List α)
  | _, 0 => [[]]
  | [], _ => [[]]
  | x :: xs, n + 1 => if xs.length ≤ n then [x :: xs] else (partsOf xs n).map (x :: ·) ++ partsOf xs (n + 1)

/-- The greatest sets of candidates for which their contexts have save slots, one for each (R314). -/
def slotSets (s : State) (ks : List Nat) : List (List Nat) :=
  let ctx (k : Nat) : Nat := (teamOf s k).ctx
  (distinct (ks.map ctx)).foldl (fun sets c =>
    sets.flatMap fun a => (partsOf (ks.filter fun k => ctx k == c) (freeSaves s c).length).map (a ++ ·)) [[]]

/-- The victim set of a site: the lowest sufficient priority, and a set that the mask steers among those R314 allows. For a head of two parts the clusters
of both count as one (log 96). -/
def victimSet (s : State) (h : Head) (mask : Nat) (site : List Nat) : Option (Nat × List Nat) :=
  let cand := s.teams.filter fun t => site.contains t.cluster && mayEvict s h.eff t
  let sets (p : Nat) : List (List Nat) := (slotSets s ((cand.filter fun t => t.prio ≤ p).map (·.key))).filter (fitsWithout s h site)
  match firstWhere (fun p => !(sets p).isEmpty) (upto 256) with
  | none => none
  | some p =>
    let all := nth [] (sets p) (mask / 2 ^ 256 % Nat.max 1 (sets p).length)
    let named := (upto all.length).zip all
    let order := (named.filter fun x => bits mask x.1 1 == 0).map (·.2) ++ (named.filter fun x => bits mask x.1 1 == 1).map (·.2)
    let set := minimalSet s h site order all
    if set.isEmpty then none else some (p, set)

/-- The set that ranks first: lowest priority, fewest victims, lowest cluster (R314). -/
def chooseVictims (s : State) (h : Head) (mask : Nat) : List Nat :=
  ((sitesOf s h).foldl (fun (b : Option (Nat × List Nat)) c => match victimSet s h mask c, b with
    | some (p, l), some (q, m) => if p < q || (p == q && l.length < m.length) then some (p, l) else some (q, m)
    | some x, none => some x
    | none, b => b) none |>.map (·.2)).getD []

/-- %preempt is requested of a team (R314, R321), for a blocked head or, with none, for good; a team may be asked for several heads. -/
def requestTeam (s : State) (for_ : Option HeadId) (k : Nat) : State :=
  if (teamOf s k).preReq.isSome then modTeam s k fun t => { t with preFor := for_.bind fun h => t.preFor.map fun l => if l.contains h then l else l ++ [h] }
  else setPreempt (modTeam s k fun t => { t with preReq := some s.cycle, preFor := for_.map ([·]) }) k true

/-! ## TEAM_PLACE -/

/-- The tile takes an image: it is idle (R328). -/
def tileIdle (s : State) (tile : Nat) : Bool :=
  coreOpen s tile && (coreOf s tile).bins.isEmpty && !s.groups.any (fun g => groupTile s g == tile) && inService s (tile / 5)

/-- No part of a team stands on its cluster: no resident group, keystone context or bin, and no bank (R328). -/
def teamGone (s : State) (k : Nat) : Bool :=
  let t := teamOf s k
  !s.groups.any (fun g => g.team == k) && !(s.cores.any fun (_, c) => c.bins.any fun b => b.team == k) && t.pad.isEmpty && t.frames.isEmpty

/-- The teams of an image that still live. -/
def imageTeams (s : State) (i : Image) : List Nat :=
  distinct ((i.groups.map (·.team) ++ i.core.bins.map (·.team)).filter fun k => (findTeam s k).any fun t => t.status != .ended)

/-- An image's pending priority: the highest resident priority of its teams (R328). -/
def imagePrio (s : State) (i : Image) : Nat := maxNat ((imageTeams s i).map fun k => (teamOf s k).prio)

/-- The image may go to another cluster (R328, R329). -/
def mayMove (s : State) (i : Image) : Bool := (imageTeams s i).all (teamGone s)

/-- The image may go to a cluster: each team is there, or nothing of it is left where it was (R328). -/
def clusterSuits (s : State) (i : Image) (c : Nat) : Bool := (imageTeams s i).all fun k => (teamOf s k).cluster == c || teamGone s k

/-- The keystone contexts of an image that need a hardware context on a cluster. -/
def keysWanted (s : State) (i : Image) (c : Nat) : List Nat :=
  ((i.groups.filter fun g => g.key.isSome && (imageTeams s i).contains g.team).map (·.team)).filter fun k =>
    (teamOf s k).cluster != c || (teamOf s k).hw.isNone

/-- The PAD banks and queue frames of the teams that an image would bring to another cluster are free there (R20, R328, R397). -/
def bankRoom (s : State) (i : Image) (c : Nat) : Bool :=
  let ls := ((imageTeams s i).filter fun k => (teamOf s k).cluster != c).map fun k => teamLaunch s (teamOf s k)
  sumNat (ls.map (·.lrec.padb)) ≤ (freePads s c).length && (freeFrames s c (sumNat (ls.map fun l => (softBound l.lrec).length))).isSome

/-- The tile suits an image: same kind, and a cluster that R328 allows. -/
def tileSuits (s : State) (i : Image) (tile : Nat) : Bool :=
  tile < 5 * Config.nClusters && (tile % 5 == 4) == (i.tile % 5 == 4) && tileIdle s tile && clusterSuits s i (tile / 5)
    && (keysWanted s i (tile / 5)).length ≤ (freeHw s (tile / 5)).length && bankRoom s i (tile / 5)

/-- First byte of a vault slot (R326). -/
def slotAt (i : Nat) : Nat := Config.vaultBase + Config.vaultSlot * i

/-- Kind of a tile (R327): 0 vector core, 1 keystone core and CMU. -/
def tileKind (tile : Nat) : Nat := if tile % 5 = 4 then 1 else 0

/-- The check of an image before its restore (R327, R328): RESULT 3 for another stepping or scan map, 4 for its CRC, else 0. -/
def slotCheck (s : State) (slot tile : Nat) : Nat :=
  let a := slotAt slot
  let n := physNum s (a + 0x10) 8
  if physNum s (a + 5) 1 != Config.stepping.toNat || physNum s (a + 8) 8 != (Config.mapHash (tileKind tile)).toNat then 3
  else if n < 72 || Config.vaultSlot < n || physNum s (a + n - 8) 8 != (crc64 0 (physRead s a (n - 8))).toNat then 4
  else 0

/-- The image waits for the dispatcher (R328). -/
def imageWaits (i : Image) : Bool := i.complete && !i.exported && i.cause == 0x50

/-- An image of higher pending priority than a head can be restored now (R313). -/
def imageFirst (s : State) (eff : Nat) : Bool :=
  s.vault.any fun (slot, v) => match v with
    | some i => imageWaits i && eff < imagePrio s i && slotCheck s slot i.tile == 0 && (upto (5 * Config.nClusters)).any (tileSuits s i)
    | none => false

/-- The blocked head of the highest effective priority (R313). -/
def blockedHead (s : State) : Option Head :=
  (s.blocked.filterMap fun b => (headOf s b.ctx b.queue).filter fun h => h.name == b).foldl (fun b h => match b with
    | some x => if x.eff < h.eff then some h else some x
    | none => some h) none

/-- The head team considered now: no other of equal or lower effective priority goes before a blocked head (R313). -/
def consideredHead (s : State) : Option Head :=
  match firstHead s, blockedHead s with
  | some h, some b => if h.eff ≤ b.eff then some b else some h
  | h, _ => h

/-- TEAM_PLACE (R313, R314): the first head team is placed, or becomes a blocked head and victims are asked to yield. -/
def teamPlaceStep (s : State) (choice : Nat) : State :=
  if s.paused then s
  else match consideredHead s with
    | none => s
    | some h =>
      if imageFirst s h.eff then s
      else
        let ps := plansFor s h (choice / 4096)
        match ps[choice % 4096 % Nat.max 1 ps.length]? with
        | some p => placeHead s h p
        | none =>
          let q := h.name
          let s1 := if s.blocked.contains q then s else { s with blocked := s.blocked ++ [q] }
          if s.teams.any fun t => t.askedFor q then s1
          else (chooseVictims s h (choice / 4096)).foldl (fun s k => requestTeam s (some q) k) s1

/-- TEAM_PLACE (R313). -/
def execTeamPlace (choice : Nat) (s : State) : Host.Outcome State Fault Refusal := .next (teamPlaceStep s choice)

end Sys2Proof.Machine
end

