-- ==== Sys2Proof/Machine/Saving.lean ====
section
/-!
DEFINITION. Pre-emption to its end: freezes and scan images (R56, R321, R325 to R328), the team save block (R321 to R323, R330), the restore of an
image (R328, R331) and the commands on vault slots (R329).
-/

namespace Sys2Proof.Machine

/-! ## Network ports -/

/-- Input slots of a virtual channel of a port (R327). -/
abbrev portSlots : Nat := 16

/-- Virtual channel v of port p of a tile (R327). -/
def linkKey (tile p v : Nat) : Nat := 16 * tile + 4 * p + v
def linkOf (s : State) (tile p v : Nat) : Link := mget {} s.links (linkKey tile p v)

/-- Every virtual channel of a tile changes. -/
def modLinks (s : State) (tile : Nat) (f : Nat → Nat → Link → Link) : State :=
  { s with links := (upto 16).foldl (fun m i => mput {} m (16 * tile + i) (f (i / 4) (i % 4) (mget {} m (16 * tile + i)))) s.links }

/-- Every flit on a link has come to its receiving input buffer (R325). -/
def Link.drained (l : Link) : Link := { l with occ := l.occ + l.inn, farOcc := l.farOcc + l.out, inn := 0, out := 0 }

/-- The freeze of a tile: the flits on its links arrive, then its ports close (R325). -/
def closePorts (s : State) (tile : Nat) : State := modLinks s tile fun _ _ l => { l.drained with closed := true }

/-- The tile's image is complete: its input buffers are empty and its ports open again, with the credits that the free slots give (log 97). -/
def emptyPorts (s : State) (tile : Nat) : State :=
  modLinks s tile fun _ _ l => { tx := portSlots - l.farOcc, farOcc := l.farOcc }

/-- Flow control is reconciled with the image's counts, and the ports open (R328): the neighbour's free input slots decide the tile's credits, the
image's occupied slots the neighbour's. -/
def reconcile (s : State) (tile : Nat) (fc : Nat → Nat → Nat × Nat) : State :=
  modLinks s tile fun p v l =>
    let m := l.drained
    let (tx, occ) := fc p v
    let want := portSlots - m.farOcc
    let back := portSlots - occ
    { m with
      tx := if tx < want then tx + (want - tx) else tx - (tx - want)
      occ := occ
      farTx := if m.farTx < back then m.farTx + (back - m.farTx) else m.farTx - (m.farTx - back)
      closed := false }

/-- A flit moves on a link, as the traffic of the package's network has it: it leaves either end, arrives at either end, or is consumed there and gives a
credit back. Nothing moves while the port is closed but what the neighbour consumes, whose credit reconciliation returns (R325, R328; log 97). -/
def moveFlit (s : State) (n : Nat) : State :=
  let l := mget {} s.links (n / 6)
  let put (l : Link) : State := { s with links := mput {} s.links (n / 6) l }
  if 16 * (5 * Config.nClusters) ≤ n / 6 then s
  else if l.closed then (if n % 6 = 2 && 0 < l.farOcc then put { l with farOcc := l.farOcc - 1 } else s)
  else match n % 6 with
    | 0 => if 0 < l.tx then put { l with tx := l.tx - 1, out := l.out + 1 } else s
    | 1 => if 0 < l.out then put { l with out := l.out - 1, farOcc := l.farOcc + 1 } else s
    | 2 => if 0 < l.farOcc then put { l with farOcc := l.farOcc - 1, tx := l.tx + 1 } else s
    | 3 => if 0 < l.farTx then put { l with farTx := l.farTx - 1, inn := l.inn + 1 } else s
    | 4 => if 0 < l.inn then put { l with inn := l.inn - 1, occ := l.occ + 1 } else s
    | _ => if 0 < l.occ then put { l with occ := l.occ - 1, farTx := l.farTx + 1 } else s

/-- The flow-control bytes of an image of a tile (R327). -/
def portBytes (s : State) (tile : Nat) : List Byte :=
  (upto 4).flatMap fun p => (upto 4).map (fun v => BitVec.ofNat 8 (linkOf s tile p v).tx) ++ (upto 4).map fun v => BitVec.ofNat 8 (linkOf s tile p v).occ

/-- The flow-control counts of the image in a vault slot: credits held and occupied slots (R327). -/
def imageFc (s : State) (slot p v : Nat) : Nat × Nat :=
  (physNum s (slotAt slot + 0x20 + 8 * p + v) 1, physNum s (slotAt slot + 0x24 + 8 * p + v) 1)

/-! ## Freezing -/

/-- A tile freezes into a vault slot: every group on it, of whatever team, and its core go into the image, and its ports close (R56, R325). The image's length is a free
value between a header and a slot (log 27). -/
def freezeInto (s : State) (tile slot : Nat) (cause : BitVec 8) (fallback : Bool) : State :=
  let gs := s.groups.filter fun g => groupTile s g == tile
  let i : Image :=
    { tile := tile, cause := cause, groups := gs, core := coreOf s tile, len := 80 + 8 * (Config.freeNat s.free % 327670)
      fallback := fallback, at_ := s.cycle, time := s.timeFs
      ctxs := (distinct (gs.map (·.team) ++ (coreOf s tile).bins.map (·.team))).map fun k => (k, (teamOf s k).ctx) }
  closePorts { s with
    free := s.free + 1
    groups := s.groups.filter fun g => groupTile s g != tile
    vault := mput none s.vault slot (some i)
    cores := mput {} s.cores tile { frozen := some slot, dbgFrozen := cause == 0x42 } } tile

/-- A tile freezes into its free vault slot; without one nothing happens (R321, R326, R330). -/
def freezeTile (s : State) (tile : Nat) (cause : BitVec 8) (fallback : Bool) : State :=
  match freeSlot s tile with
  | some slot => freezeInto s tile slot cause fallback
  | none => s

/-- The tiles that hold a part of a team that has not yielded (R56, R321). -/
def unyieldedTiles (s : State) (k : Nat) : List Nat :=
  distinct ((s.groups.filter fun g => g.team == k && !hasYielded g).map (groupTile s))

/-- The deadline of a team's request has come (R321). -/
def deadlineDue (s : State) (t : Team) : Bool :=
  match t.preReq with
  | some r =>
    let d := (teamLaunch s t).lrec.deadline
    t.status != .ended && d != 0xFFFFFFFF && r + d.toNat ≤ s.cycle && !(unyieldedTiles s t.key).isEmpty
  | none => false

/-- The tiles of a team that has not yielded freeze, each into its free vault slot. A saved team of which an image came back has then no part left on a
tile, and the request is over (log 78). -/
def forceTeam (s : State) (t : Team) : State :=
  let s1 := (unyieldedTiles s t.key).foldl (fun s x => freezeTile s x 0x50 false) s
  if t.status == .saved && !s1.groups.any (fun g => g.team == t.key) then modTeam s1 t.key fun t => { t with preReq := none, preFor := none } else s1

/-- PREEMPT_DEADLINE_EXPIRY (R56, R321): a tile without a free vault slot is frozen once one is free. -/
def execPreemptDeadlineExpiry (team : Nat) (s : State) : Host.Outcome State Fault Refusal :=
  match findTeam s team with
  | some t => .next (if deadlineDue s t then forceTeam s t else s)
  | none => .next s

/-! ## Scan images -/

/-- The bytes of an image before its CRC (R327): what the scan map lays out is free (log 1, log 27). -/
def imageBytes (s : State) (i : Image) : State × List Byte :=
  let (s1, body) := freeBytes s (i.len - 72)
  (s1, toBytes 4 0x4958584B ++ toBytes 1 (tileKind i.tile) ++ [Config.stepping, i.cause]
    ++ toBytes 1 ((if i.poisoned.isSome then 1 else 0) + (if i.fallback then 2 else 0)) ++ toBytes 8 (Config.mapHash (tileKind i.tile)).toNat
    ++ toBytes 8 i.len ++ toBytes 8 (i.poisoned.getD 0) ++ portBytes s i.tile ++ body)

/-- The image of a vault slot is complete (R325, R327); a debug freeze goes on holding its tile (R363). -/
def completeImage (s : State) (slot : Nat) (i : Image) : State :=
  let (s1, b) := imageBytes s i
  let s2 := physWrite s1 (slotAt slot) (b ++ toBytes 8 (crc64 0 b).toNat)
  let s3 := { s2 with vault := mput none s2.vault slot (some { i with complete := true, id := BitVec.ofNat 64 (fieldOf b 64 8) }) }
  let s4 := if i.cause = 0x42 then s3 else emptyPorts s3 i.tile
  if (coreOf s4 i.tile).frozen = some slot then modCore s4 i.tile fun c => { c with frozen := none } else s4

/-- SCAN_IMAGE_COMPLETE (R325). -/
def execScanImageComplete (slot : Nat) (s : State) : Host.Outcome State Fault Refusal :=
  match mget none s.vault slot with
  | some i => .next (if i.complete then s else completeImage s slot i)
  | none => .next s

/-! ## The team save block -/

/-- A tile table entry as 16 bytes (R73). -/
def tileEntry (x : Tile) : List Byte :=
  let b (v : Bool) (i : Nat) : Nat := if v then 2 ^ i else 0
  toBytes 16 (x.start + x.sizem1 * 2 ^ 16 + x.fmt * 2 ^ 32 + b x.cmp 36 + b x.own 37 + b x.valid 38 + x.status.toNat * 2 ^ 72
    + x.offt * 2 ^ 80 + x.expm1 * 2 ^ 96)

/-- An accumulator image (R249). -/
def accImage (k : KeyCtx) (t : Nat) : List Byte := (upto 32768).flatMap fun i => toBytes 4 (mget 0 k.acc (32768 * t + i)).toNat

/-- The scratchpad of a team, by aperture offset, from its first bytes. -/
def padBytes (s : State) (t : Team) : List Byte := t.pad.flatMap fun b => sramRead s t.cluster (b * Config.bankBytes) Config.bankBytes

/-- A run of binned lanes as the image of a group, its lanes BINNED (R323). -/
def binRun (s : State) (tile : Nat) (b : Bin) (l : List BinLane) : Group :=
  let g := drawnGroup s tile b 0xFFFF l
  { g with lanes := g.lanes.map fun x => if x.st = .running then { x with st := .binned } else x }

/-- The runs of up to 32 lanes of a bin, oldest first (R322). -/
def binRuns : Nat → List BinLane → List (List BinLane)
  | 0, _ => []
  | f + 1, l => if l.isEmpty then [] else l.take 32 :: binRuns f (l.drop 32)

/-- The bins of a team: tile and bin. -/
def teamBins (s : State) (k : Nat) : List (Nat × Bin) :=
  s.cores.flatMap fun (i, c) => (c.bins.filter fun b => b.team == k).map fun b => (i, b)

/-- A part of a save block: its bytes, and the group it belongs to. -/
abbrev Part := List Byte × Option Group

/-- The groups' images and then the bins' (R322), each padded to 64 bytes. -/
def imageParts (s : State) (gs : List Group) (k : Nat) : State × List Part :=
  let runs := (teamBins s k).flatMap fun (i, b) => (binRuns b.lanes.length b.lanes).map fun l => (i, b, l)
  let g1 : List Part := gs.map fun g => let b := groupImage s g g.idx 0; (padTo (roundUp b.length 64) b, some g)
  runs.foldl (fun (s, ps) (i, b, l) =>
    let im := groupImage s (binRun s i b l) 0xFFFF b.pc
    ({ s with free := s.free + 32 * 512 }, ps ++ [(padTo (roundUp im.length 64) im, none)])) (s, g1)

/-- Offsets of consecutive parts. -/
def partOffsets : Nat → List Part → List (Nat × Part)
  | _, [] => []
  | o, p :: ps => (o, p) :: partOffsets (o + p.1.length) ps

/-- The header and the tables of a save block (R322). -/
def saveHead (t : Team) (l : Launch) (len : Nat) (key frozen : Bool) (dir : Nat → Nat) : List Byte :=
  padTo 0x40 (toBytes 4 0x5354584B ++ toBytes 4 len ++ toBytes 4 t.launch.toNat ++ toBytes 4 t.l ++ toBytes 2 (groupCount l.krec)
      ++ toBytes 1 (if key then 1 else 0) ++ toBytes 1 t.pad.length ++ toBytes 1 (if frozen then 0x50 else 0))
    ++ padTo 0xC0 ((upto 16).map fun q => BitVec.ofNat 8 (queueOf t q).length)
    ++ (upto 64).flatMap (fun i => tileEntry (tileOf t i))
    ++ (upto 16).flatMap (fun q => padTo 128 ((queueOf t q).flatMap fun v => toBytes 8 v.toNat))
    ++ (upto 8).flatMap (fun ch => let c := countOf t ch
        toBytes 8 c.stamped ++ toBytes 8 c.cmds ++ toBytes 8 c.wptr.toNat ++ toBytes 8 (c.crcs.headD (0, 0)).2.toNat)
    ++ (upto 128).flatMap (fun g => toBytes 4 (dir g))

/-- Every part of a save block with its offset, and the block's length (R322). The keystone state's 4,096 bytes are free (log 28). -/
def saveParts (s : State) (t : Team) (gs : List Group) : State × List (Nat × Part) × Nat :=
  let l := teamLaunch s t
  let vs := (upto 128).flatMap fun i => gs.filter fun g => g.key.isNone && g.idx == i
  let keys := gs.filterMap (·.key)
  let (s1, kb) := freeBytes s (if keys.isEmpty then 0 else 4096)
  let kp : List Part := keys.map fun k => (kb ++ (upto 4).flatMap (accImage k), gs.find? (·.key.isSome))
  let (s2, ip) := imageParts s1 vs t.key
  let body := partOffsets 0x1000 (((padBytes s t, none) : Part) :: (kp ++ ip))
  let len := 0x1000 + sumNat (body.map fun p => p.2.1.length)
  let dir (i : Nat) : Nat := ((body.filter fun p => match p.2.2 with | some g => g.key.isNone && g.idx == i | none => false).map (·.1)).headD 0
  (s2, (0, (saveHead t l len (!keys.isEmpty) (teamInImage s t.key) dir, none)) :: body, len)

/-- What writing the parts comes to. -/
inductive SaveRun where
  | done (s : State)
  | wait (s : State)
  | stop (s : State) (g : Option Group)

/-- The parts are written in order; the first that faults ends the run (R330). -/
def writeParts (ctx at_ : Nat) : List (Nat × Part) → State → SaveRun
  | [], s => .done s
  | (o, b, g) :: ps, s =>
    if b.isEmpty then writeParts ctx at_ ps s
    else match writeAt s (devEnv s ctx false) (at_ + o) b with
      | (s1, .done) => writeParts ctx at_ ps s1
      | (s1, .wait) => .wait s1
      | (s1, .stop _ _) => .stop s1 g

/-- The groups' fields by aperture offset, without zeros. -/
def padMem (bs : List Byte) : Mem := memPut [] 0 bs

/-- Poisoned words of a team's scratchpad, by aperture word. -/
def padBad (s : State) (t : Team) : List Nat :=
  let bad := (clusterOf s t.cluster).sramBad
  ((upto t.pad.length).zip t.pad).flatMap fun (i, b) =>
    (bad.filter fun w => b * Config.bankBytes ≤ 8 * w && 8 * w < (b + 1) * Config.bankBytes).map fun w =>
      (i * Config.bankBytes + (8 * w - b * Config.bankBytes)) / 8

/-- The saved team: its groups and bins leave, and its banks, frames and keystone context are free (R321). Its quarter slots travel with its
groups (R323). -/
def storeTeam (s : State) (t : Team) (slot : Nat) (gs : List Group) : State :=
  let x : Saved :=
    { key := t.key, slot := slot, groups := gs, sram := padMem (padBytes s t), sramBad := padBad s t
      bins := (teamBins s t.key).map fun (i, b) => (i % 5, b), since := s.cycle, time := s.timeFs }
  let s1 := { s with
    saved := s.saved ++ [x]
    groups := s.groups.filter fun g => g.team != t.key
    cores := s.cores.map fun (i, c) => (i, { c with bins := c.bins.filter fun b => b.team != t.key }) }
  let s2 := modTeam s1 t.key fun t => { t with status := .saved, pad := [], frames := [], hw := none, preReq := none, preFor := none }
  (upto 5).foldl (fun s i => sweepWaits s (5 * t.cluster + i)) s2

/-- Every part of a team has yielded or ended, or lies in a complete image, and its engines are idle (R55, R321, R330). -/
def saveDue (s : State) (t : Team) : Bool :=
  t.status == .resident && t.preReq.isSome && !teamBusy s t.key && (s.groups.filter fun g => g.team == t.key).all hasYielded
    && !s.vault.any fun (_, v) => match v with | some i => !i.complete && i.groups.any fun g => g.team == t.key | none => false

/-- TEAM_SAVE (R321, R330): the block goes into the context's first free save slot that holds it; a part of a group that cannot be written freezes
the group's core, and the save goes on once that image is complete. A part of no group that cannot be written leaves the request (log 29). -/
def saveTeam (s : State) (t : Team) : State :=
  let gs := s.groups.filter fun g => g.team == t.key
  let c := contextOf s t.ctx
  match freeSaves s t.ctx with
  | [] => s
  | slot :: _ =>
    let (s1, parts, len) := saveParts s t gs
    if c.savesz * 4096 < len then s
    else
      match writeParts t.ctx (c.saveb.toNat + slot * c.savesz * 4096) parts s1 with
      | .done s2 => storeTeam s2 t slot gs
      | .wait s2 => s2
      | .stop s2 (some g) => freezeTile s2 (groupTile s g) 0x50 true
      | .stop s2 none => s2

/-- TEAM_SAVE (R321): the updates of its muster slots in this cycle take effect first (R87). -/
def execTeamSave (team : Nat) (s : State) : Host.Outcome State Fault Refusal :=
  match findTeam s team with
  | some t =>
    let s1 := settleMusters s team
    .next (if saveDue s t then saveTeam s1 (teamOf s1 team) else s)
  | none => .next s

/-! ## Restoring an image -/

/-- Hardware contexts for the keystone contexts of an image on a cluster: kept when the team stands there, else the lowest free ones (R240). -/
def giveKeys (s : State) (i : Image) (c : Nat) : State :=
  ((keysWanted s i c).zip (freeHw s c)).foldl (fun s (k, h) => modTeam s k fun t => { t with hw := some h }) s

/-- A group of an image as it comes back on a tile: the waits of a frozen tile do not age (R374); lanes that had yielded go on after the yield, unless their
team's request still stands (R55, R154). -/
def thawed (s : State) (i : Image) (tile : Nat) (g : Group) : Group :=
  let g1 := shiftWaits (s.timeFs - i.time) g
  { (if (teamOf s g.team).preReq.isSome then g1 else pastYield g1) with
    core := tile % 5
    preempt := (teamOf s g.team).preReq.isSome
    residentAt := s.cycle
    lastIssue := s.cycle
    lastPath := 0
    readyFor := 0
    key := g.key.map fun k => { k with hw := (teamOf s g.team).hw.getD k.hw, mq := k.mq.map fun m => { m with parked := none } } }

/-- A poisoned image at its restore (R331): whether the struck word is of a group, of binned lanes or of no context is the device's, as the scan map lays it
out. -/
def imagePoisoned (s : State) (gs : List Group) (bins : List Bin) : State :=
  let owners : List (Option (Bool × Nat)) :=
    gs.map (fun g => some (g.region.isSome, (teamOf s g.team).ctx)) ++ bins.map (fun b => some (false, (teamOf s b.team).ctx)) ++ [none]
  let (s1, hit) := chooseFrom s owners
  let own := hit.join
  restorePoisoned s1 gs (own.any (·.1)) (own.map (·.2))

/-- An image is loaded onto a tile, whose core discards its instruction cache (R101, R295, R328, R331): loads that were pending are performed again; groups of teams that have ended end at once (R302); parked sub-groups are filed again (log 28). -/
def loadImage (s : State) (i : Image) (tile : Nat) : State :=
  let live := imageTeams s i
  let c := tile / 5
  let s1 := giveKeys s i c
  let s2 := live.foldl (fun s k => modTeam s k fun t => { t with cluster := c }) s1
  let gs := (i.groups.filter fun g => live.contains g.team).map (thawed s2 i tile)
  let bins := (i.core.bins.filter fun b => live.contains b.team).map fun b =>
    { b with lanes := b.lanes.map fun x => { x with at_ := x.at_ + (s.cycle - i.at_) } }
  let s3 := { s2 with
    groups := s2.groups ++ gs,
    cores := mput {} s2.cores tile { i.core with bins := bins, waitTab := [], frozen := none, dbgFrozen := false } }
  let s4 := gs.foldl (fun s g => takeHalt (refile s g.who) g.who) (freshCores s3 c [tile % 5])
  let s5 := if i.poisoned.isSome then imagePoisoned s4 gs bins else s4
  let s6 := gs.foldl (fun s g => redoLoads s g.who) s5
  live.foldl (fun s k => settleBarriers s k (distinct ((gs.filter fun g => g.team == k).map (·.role)))) s6

/-- The image of a vault slot is restored, flow control is reconciled, and its slot is free (R328). -/
def restoreSlot (s : State) (slot tile : Nat) (i : Image) : State :=
  let bad := bits (physNum s (slotAt slot + 7) 1) 0 1 == 1
  loadImage (reconcile { s with vault := mput none s.vault slot none } tile (imageFc s slot)) (if bad && i.poisoned.isNone then { i with poisoned := some 0 } else i) tile

/-- The dispatcher may restore an image now (R313, R328): no head team of higher effective priority, and no blocked head of equal or higher, but for the head
that waits for this very image (R324, R397). -/
def mayRestore (s : State) (slot tile : Nat) (i : Image) : Bool :=
  let p := imagePrio s i
  !s.paused && imageWaits i && tileSuits s i tile && slotCheck s slot tile == 0
    && !(heads s).any (fun h => p < h.eff && others h)
    && !((blockedHead s).any fun h => p ≤ h.eff && others h)
where
  others (h : Head) : Bool := match h.saved with | some k => !(imageTeams s i).contains k | none => true

/-- IMAGE_RESTORE (R328). -/
def execImageRestore (slot tile : Nat) (s : State) : Host.Outcome State Fault Refusal :=
  match mget none s.vault slot with
  | some i => .next (if mayRestore s slot tile i then restoreSlot s slot tile i else s)
  | none => .next s

/-! ## Commands on vault slots -/

/-- Vault slots of the package (R326). -/
abbrev vaultSlots : Nat := 10 * Config.nClusters

/-- EXPORT (R329); a slot that is empty or whose image is not complete gives RESULT 1 (log 111). -/
def exportSlot (s : State) (slot : Nat) : State :=
  match mget none s.vault slot with
  | some i =>
    if !i.complete then cmdDone s 1
    else if !mayMove s i then cmdDone s 7
    else cmdDone { s with vault := mput none s.vault slot (some { i with exported := true }) } 0
  | none => cmdDone s 1

/-- EXPORT (R329). -/
def execExportImage (c : Nat) (arg : BitVec 32) (s : State) : Host.Outcome State Fault Refusal := runCmd s 6 (c % 64) arg fun s => exportSlot s (arg.toNat % 512)

/-- FREE (R329): the image may be brought back by IMPORT. -/
def freeImage (s : State) (slot : Nat) : State :=
  match mget none s.vault slot with
  | some i =>
    if i.exported then cmdDone { s with vault := mput none s.vault slot none, imagesOut := s.imagesOut ++ [i] } 0 else cmdDone s 1
  | none => cmdDone s 1

/-- FREE (R329). -/
def execFree (c : Nat) (arg : BitVec 32) (s : State) : Host.Outcome State Fault Refusal := runCmd s 7 (c % 64) arg fun s => freeImage s (arg.toNat % 512)

/-- The image that the bytes of a slot name: one that was exported, or one of which this package holds no record (log 27). -/
def namedImage (s : State) (slot : Nat) : Image :=
  let id := BitVec.ofNat 64 (physNum s (slotAt slot + 64) 8)
  let out := s.imagesOut ++ s.vault.filterMap fun (_, v) => match v with | some i => if i.exported then some i else none | none => none
  (firstWhere (fun i => i.id == id) out).getD { tile := 0, cause := 0x50, groups := [], core := {} }

/-- IMPORT (R328, R329). The order of the RESULTs, 7 where a team of the image still stands on another cluster, 6 where no hardware context is free, and 1
for a slot that is not free or a wrong MAGIC or KIND are the model's (log 112). -/
def importSlot (s : State) (slot tile : Nat) : State :=
  if vaultSlots ≤ slot || 5 * Config.nClusters ≤ tile || !slotFree s slot then cmdDone s 1
  else
    let i := namedImage s slot
    let a := slotAt slot
    if physNum s a 4 != 0x4958584B || physNum s (a + 4) 1 != tileKind tile then cmdDone s 1
    else if !tileIdle s tile || (freeHw s (tile / 5)).length < (keysWanted s i (tile / 5)).length then cmdDone s 6
    else if slotCheck s slot tile != 0 then cmdDone s (slotCheck s slot tile)
    else if bits (physNum s (a + 7) 1) 0 1 == 1 then cmdDone s 5
    else if !clusterSuits s i (tile / 5) then cmdDone s 7
    else
      let s1 := reconcile { s with imagesOut := s.imagesOut.filter fun x => x.id != i.id } tile (imageFc s slot)
      cmdDone (loadImage s1 { i with tile := tile } tile) 0

/-- IMPORT (R329). -/
def execImportImage (c : Nat) (arg : BitVec 32) (s : State) : Host.Outcome State Fault Refusal :=
  runCmd s 5 (c % 64) arg fun s => importSlot s (arg.toNat % 512) (bits arg.toNat 16 8)

end Sys2Proof.Machine
end

