-- ==== Sys2Proof/Machine/Copying.lean ====
section
/-!
DEFINITION. The cluster copy engine at work: copies (R228 to R231), compressed tiles (R77 to R79), chains (R232), selk (R234), stamps (R85), status
entries (R229) and hand-backs (R82).
-/

namespace Sys2Proof.Machine

/-! ## Engines -/

/-- The accesses of the engine of a team's cluster (R335, R346). -/
def engEnv (s : State) (t : Team) : Env := devEnv s t.ctx true (.copy t.cluster)

/-- TOKEN of a fault that an engine meets (R342): for 0x16 the peer of its fabric page. -/
def faultToken (s : State) (root : W64) (va cause : Nat) (tok : W64) : W64 :=
  if cause = 0x16 then (match walk s root va with | .ok t => (fabPeer s t.pa).setWidth 64 | .error _ => 0) else tok

/-- The fault record of an engine operation that a fault ended (R104, R342); consumed poison is in the error log too (R60). -/
def engineFault (s : State) (t : Team) (who va cause : Nat) (tok : W64) (kind : Nat) : State :=
  let c := contextOf s t.ctx
  let s1 := if cause = 0x15 then logConsumed s t (BitVec.ofNat 64 va) else s
  fileFault s1
    { cause := BitVec.ofNat 8 cause, access := BitVec.ofNat 32 (kind * 2 ^ 8), who := BitVec.ofNat 32 who, asid := c.asid, launch := t.launch
      team := BitVec.ofNat 32 t.l, token := faultToken s c.root va cause tok, va := BitVec.ofNat 64 va }

/-- WHO of a copy channel (R342). -/
def chanWho (c ch : Nat) : Nat := 5 * c + 2 * 2 ^ 8 + ch * 2 ^ 11

/-- What an engine's read or write comes to. -/
inductive Eng where
  | ok (s : State) (bs : List Byte)
  /-- a Quarry stall or the zero engine holds it (R344, R355) -/
  | wait (s : State)
  | stop (s : State) (cause va : Nat) (tok : W64)

/-- A range cut at aligned words of 4 bytes. -/
def cutWords : Nat → Nat → Nat → List (Nat × Nat)
  | 0, _, _ => []
  | f + 1, va, n => if n = 0 then [] else (va, Nat.min n (4 - va % 4)) :: cutWords f (va + Nat.min n (4 - va % 4)) (n - Nat.min n (4 - va % 4))

/-- An operation of an engine that is complete before one of another: those of a channel run in issue order (R83), as do a team's matrix
instructions (R250). -/
def Agent.earlier : Agent → Agent → Bool
  | .copy t c ch n, .copy t' c' ch' n' => c == c' && ch == ch' && !(t == t' && n == n')
  | .cmu t, .cmu t' => t == t'
  | _, _ => false

/-- An engine's reads of a source (R99): who reads, the number of the next write at the issue, and what happens before the reads. -/
structure Source where
  agent : Agent
  at_ : Nat
  view : View
deriving DecidableEq, Repr

/-- A write that an engine's read may miss: one after the issue, or one that nothing orders before it (R99). -/
def Source.mayMiss (x : Source) (kind : Nat) (q : Past) : Bool :=
  q.agent != .device && !(q.agent :: q.also).any x.agent.earlier && (x.at_ ≤ q.no || (kind != 1 && !x.view.sees q))

/-- Bytes as an engine reads them, of those that stand there: each write is seen or missed as a whole per aligned 4-byte word (R99). -/
def lateAt (s : State) (x : Source) (kind p : Nat) (cur : List Byte) : State × List Byte :=
  let ps := (s.past.filter (touches p cur.length)).map fun q => { q with grain := 4 }
  let f := lookBack ps (fun q _ => x.mayMiss kind q) (fun _ => false) p cur s.free
  ({ s with free := f.free }, f.bytes.map (·.1))

/-- The bytes at a place for an engine; zero through a leaf with Z = 1 (R68). -/
def lateBytes (s : State) (x : Source) : Spot → State × List Byte
  | .pad c off n => lateAt s x 0 (padKey c off) (sramRead s c off n)
  | .mem _ n t pa => if leafBit t.leaf 15 then (s, zeros n) else lateAt s x (leafKind t.leaf) (routeAlias s pa) (physRead s pa n)

/-- The bytes of several places. -/
def lateSpots (s : State) (x : Source) : List Spot → State × List Byte
  | [] => (s, [])
  | y :: ys =>
    let (s1, a) := lateBytes s x y
    let (s2, b) := lateSpots s1 x ys
    (s2, a ++ b)

/-- An engine's read of memory. -/
def engRead (s : State) (env : Env) (x : Source) (va n : Nat) : Eng :=
  match lookAt s env .read va n with
  | (s1, .hit l) => let (s2, bs) := lateSpots (touchSpots s1 env .read l) x l; .ok s2 bs
  | (s1, .stop c tok) => if c = 0x13 then .wait s else .stop s1 c va tok
  | (_, .zeroing _ _ _) => .wait s

/-- An engine's read of its team's scratchpad at an aperture address (R409). -/
def padReadLate (s : State) (t : Team) (x : Source) (va n : Nat) : Eng :=
  let l := padSpots t (va - Config.aperture) n
  if l.any fun y => match y with | .pad c o m => padPoison s c o m | .mem _ _ _ _ => false then .stop s 0x15 va 0
  else let (s1, bs) := lateSpots s x l; .ok s1 bs

/-- A write of an engine to memory: in a paired run the primary's engine alone performs it (R225). -/
def engWrite (s : State) (t : Team) (w : Writer) (va : Nat) (bs : List Byte) : Eng :=
  if !t.primary then .ok s []
  else match writeAt s (engEnv s t) va bs w with
    | (s1, .done) => .ok s1 []
    | (s1, .wait) => .wait s1
    | (s1, .stop c tok) => .stop s1 c va tok

/-- Writes bytes of the scratchpad at an aperture address. -/
def padPut (s : State) (t : Team) (w : Writer) (va : Nat) (bs : List Byte) : State :=
  writeSpots s w (padSpots t (va - Config.aperture) bs.length) bs

/-! ## CRC-32C -/

/-- Eight steps of the reflected polynomial's division (R230). -/
def crc32cBits : Nat → W32 → W32
  | 0, c => c
  | k + 1, c => crc32cBits k (if c.getLsbD 0 then (c >>> 1) ^^^ 0x82F63B78 else c >>> 1)

/-- CRC-32C over bytes, before its final XOR (R230). -/
def crc32c (c : W32) (bs : List Byte) : W32 := bs.foldl (fun c b => crc32cBits 8 (c ^^^ b.setWidth 32)) c

/-! ## Compressed tiles -/

/-- The 32-bit words of bytes. -/
def numsOf : Nat → List Byte → List Nat
  | 0, _ => []
  | f + 1, bs => ofBytes (bs.take 4) :: numsOf f (bs.drop 4)

/-- What a read port needs of a stored block (R77): the address of its bytes, whether it is RAW, its zero map. -/
structure BlockHead where
  at_ : Nat
  raw : Bool
  map : Nat

/-- The word of a stored block that holds word w of the block; none when it is zero (R77). -/
def BlockHead.word (h : BlockHead) (w : Nat) : Option Nat :=
  if h.raw then some (h.at_ + 4 * w)
  else if bits h.map w 1 = 1 then some (h.at_ + 32 + 4 * sumNat ((upto w).map fun k => bits h.map k 1))
  else none

/-- A block's table entry and the first 32 bytes of its stored form as a read port finds them: its head, or the address of what R79 refuses. -/
def blockHead (x : Tile) (e map : Nat) : Except Nat BlockHead :=
  let len := bits e 20 11
  let off := bits e 0 20 * 16
  let at_ := Config.aperture + tileStart x + off
  let raw := bits e 31 1 == 1
  let ones := sumNat ((upto 256).map fun k => bits map k 1)
  if tileBytes x < off + len || len != (if raw then 1024 else 32 + 4 * ones) then .error at_ else .ok { at_ := at_, raw := raw, map := map }

/-- One block as a write port stores it (R78): RAW and the stored bytes. -/
def packBlock (b : List Byte) : Bool × List Byte :=
  let ws := numsOf 256 b
  let n := (ws.filter (· != 0)).length
  if 1024 < 32 + 4 * n then (true, b)
  else
    let map := sumNat (((upto 256).zip ws).map fun (i, w) => if w = 0 then 0 else 2 ^ i)
    (false, toBytes 32 map ++ (ws.filter (· != 0)).flatMap (toBytes 4))

/-- A stored block (R77, R78): its offset, its table entry, its bytes. -/
structure Packed where
  off : Nat
  entry : Nat
  bytes : List Byte
deriving DecidableEq, Repr

/-- The whole blocks of an image in stored form, each at the first 16-byte boundary after the one before (R78). -/
def packBlocks : Nat → Nat → List Byte → List Packed
  | 0, _, _ => []
  | f + 1, off, img =>
    if img.length < 1024 then []
    else
      let (raw, b) := packBlock (img.take 1024)
      { off := off, entry := off / 16 + b.length * 2 ^ 20 + (if raw then 2 ^ 31 else 0), bytes := b }
        :: packBlocks f (roundUp (off + b.length) 16) (img.drop 1024)

/-- The stored blocks that fit a tile's stored range (R78). -/
def fitBlocks (size : Nat) : List Packed → List Packed
  | [] => []
  | p :: ps => if p.off + p.bytes.length ≤ size then p :: fitBlocks size ps else []

/-- The stored form as one run of bytes, padding written as zero (R78). -/
def packedBytes : List Packed → List Byte
  | [] => []
  | [p] => p.bytes
  | p :: q :: ps => padTo (q.off - p.off) p.bytes ++ packedBytes (q :: ps)

/-! ## A command under way -/

/-- Destination rows and the bytes of one, of a copy command (R226). -/
def cmdShape (k : Cmd) : Nat × Nat :=
  let f := copyForm k.regs
  destShape f (elemSize f (k.srcTile.map (·.2)) (k.dstTile.map (·.2)))

/-- Element size of a copy command. -/
def cmdElem (k : Cmd) : Nat := let f := copyForm k.regs; elemSize f (k.srcTile.map (·.2)) (k.dstTile.map (·.2))

/-- The gather's indices. -/
def cmdIdx (k : Cmd) : Option (List W32) := if k.kind = .gather then some k.idx else none

/-- The stored blocks of a compressing copy. -/
def runBlocks (r : Run) : List Packed :=
  let img := r.img.getD []
  fitBlocks (match r.cmd.dstTile with | some (_, x) => tileBytes x | none => 0) (packBlocks (img.length / 1024) 0 img)

/-- Index in the source image of byte j in destination order (R228). -/
def sourceIndex (f : CopyForm) (e dl j : Nat) : Nat :=
  if f.turns then j % dl / e * f.srow + j / dl * e + j % dl % e else j

/-- Bytes that a run writes at its destination. -/
def runTotal (r : Run) : Nat :=
  match r.cmd.kind with
  | .select => let f := selForm r.cmd.regs; f.entry * f.k
  | _ => if (copyForm r.cmd.regs).xf = 2 then (packedBytes (runBlocks r)).length else let (n, l) := cmdShape r.cmd; n * l

/-- Address of byte j of a run's destination. -/
def destAt (r : Run) (j : Nat) : Nat :=
  match r.cmd.kind with
  | .select => ((selForm r.cmd.regs).out + j) % 2 ^ 64
  | _ =>
    let f := copyForm r.cmd.regs
    if f.xf = 2 then (f.dst + j) % 2 ^ 64 else let l := (cmdShape r.cmd).2; (f.dst + j / l * f.dstr + j % l) % 2 ^ 64

/-- The bytes of a run's destination from byte j that lie in one aligned word: they land together (R83, R100). -/
def wordBytes (r : Run) (total j : Nat) : Nat :=
  ((upto 4).takeWhile fun i => j + i < total && destAt r (j + i) / 4 == destAt r j / 4).length

/-- The last eight of n destination bytes are the aligned word that ends with them: it has been written whole (R409). -/
def endsWhole (r : Run) (n : Nat) : Bool :=
  let a := destAt r (n - 8)
  8 ≤ n && a % 8 == 0 && (upto 8).all fun i => destAt r (n - 8 + i) == a + i

/-- The source pieces of m bytes from byte j of the destination, which lie in one row of it: source row, address, length. -/
def sourcePieces (k : Cmd) (j m : Nat) : List (Nat × Nat × Nat) :=
  let f := copyForm k.regs
  let e := cmdElem k
  let l := (cmdShape k).2
  if f.turns then (upto (m / e)).map fun i =>
    let r := (j + i * e) % l / e
    (r, (srcRowAt f none r + j / l * e) % 2 ^ 64, e)
  else (cutWords m (srcRowAt f (cmdIdx k) (j / l) + j % l) m).map fun (a, n) => (j / l, a % 2 ^ 64, n)

/-- The agent of a command. -/
def cmdAgent (c ch : Nat) (k : Cmd) : Agent := .copy k.team c ch k.cnum

/-- A command's reads. -/
def cmdSource (c ch : Nat) (k : Cmd) : Source := { agent := cmdAgent c ch k, at_ := k.at_, view := k.view }

/-- A command's writes. -/
def cmdWriter (c ch : Nat) (k : Cmd) : Writer := { agent := cmdAgent c ch k, grain := 4 }

/-- The writes that a command has made so far. -/
def cmdWrites (s : State) (c ch : Nat) (k : Cmd) : View := ({} : View).plus (cmdAgent c ch k) s.writes

/-- The source words of which a part has been read, by row and address; a part read later is of the same word, old or new (R99). -/
abbrev WordsRead := List (Nat × List Byte)

/-- Source pieces of a command, read in order; each aligned word is read as a whole. -/
def takePieces (s : State) (t : Team) (x : Source) (tile : Bool) (words : WordsRead) : List (Nat × Nat × Nat) → Eng × WordsRead
  | [] => (.ok s [], words)
  | (r, va, n) :: ps =>
    let at_ := va - va % 4
    let key := r * 2 ^ 64 + at_
    let got : Eng := match firstWhere (fun y => y.1 == key) words with
      | some y => .ok s y.2
      | none => if tile then padReadLate s t x at_ 4 else engRead s (engEnv s t) x at_ 4
    match got with
    | .wait s1 => (.wait s1, words)
    | .stop s1 c _ tok => (.stop s1 c va tok, words)
    | .ok s1 w =>
      let words1 := if n = 4 || words.any (fun y => y.1 == key) then words else (key, w) :: words
      match takePieces s1 t x tile words1 ps with
      | (.ok s2 b, ws) => (.ok s2 (((w.drop (va % 4)).take n) ++ b), ws)
      | e => e

/-- Source pieces of m bytes from byte j of the destination, across its rows. -/
def piecesFrom (k : Cmd) : Nat → Nat → Nat → List (Nat × Nat × Nat)
  | 0, _, _ => []
  | f + 1, j, m =>
    let l := (cmdShape k).2
    let n := Nat.min m (l - j % l)
    if m = 0 || n = 0 then [] else sourcePieces k j n ++ piecesFrom k f (j + n) (m - n)

/-- The head of block i of a compressed source, read once and kept (R77, R79); a RAW block has no zero map. -/
def headOfBlock (s : State) (t : Team) (x : Source) (y : Tile) (words : WordsRead) (i : Nat) : Eng × WordsRead :=
  let key := 2 ^ 100 + i
  match firstWhere (fun w => w.1 == key) words with
  | some w => (.ok s w.2, words)
  | none =>
    match padReadLate s t x (Config.aperture + y.offt * 128 + 4 * i) 4 with
    | .ok s1 e =>
      let v := ofBytes e
      let at_ := Config.aperture + tileStart y + bits v 0 20 * 16
      if tileBytes y < bits v 0 20 * 16 + 32 then (.stop s1 0x20 at_ 0, words)
      else if bits v 31 1 = 1 then (.ok s1 (e ++ zeros 32), (key, e ++ zeros 32) :: words)
      else match padReadLate s1 t x at_ 32 with
        | .ok s2 m => (.ok s2 (e ++ m), (key, e ++ m) :: words)
        | r => (r, words)
    | r => (r, words)

/-- Bytes of an expanded source image, each run of them in one word of it: the stored words that hold them are read as they are needed, each old or new as
a whole (R77, R79, R273). -/
def takeImage (s : State) (t : Team) (x : Source) (y : Tile) (words : WordsRead) : List (Nat × Nat) → Eng × WordsRead
  | [] => (.ok s [], words)
  | (i, n) :: rs =>
    match headOfBlock s t x y words (i / 1024) with
    | (.ok s1 h, w1) =>
      (match blockHead y (ofBytes (h.take 4)) (ofBytes (h.drop 4)) with
      | .error va => (.stop s1 0x20 va 0, w1)
      | .ok b =>
        let here : Eng × WordsRead := match b.word (i % 1024 / 4) with
          | none => (.ok s1 (zeros n), w1)
          | some va => takePieces s1 t x true w1 [(0, va + i % 4, n)]
        match here with
        | (.ok s2 a, w2) => (match takeImage s2 t x y w2 rs with
          | (.ok s3 c, w3) => (.ok s3 (a ++ c), w3)
          | e => e)
        | e => e)
    | e => e

/-- The runs of an expanded image that m bytes from byte j of the destination are: each lies in one word of the image (R228). -/
def imageRuns (k : Cmd) (j m : Nat) : List (Nat × Nat) :=
  let f := copyForm k.regs
  let e := cmdElem k
  if f.turns then (upto (m / e)).map fun i => (sourceIndex f e (cmdShape k).2 (j + i * e), e) else cutWords m j m

/-- Bytes of a destination tile with its padding as zero (R119): those from byte o of its expanded contents. -/
def zeroPads (x : Tile) (o : Nat) (bs : List Byte) : List Byte :=
  if blockFmt x.fmt then
    let used := match unitCount x.fmt (tileExpanded x) with
      | some n => ((unitShape x.fmt).1 + (unitShape x.fmt).2.1) * n
      | none => tileExpanded x
    bs.take (used - o) ++ zeros (bs.length - (used - o))
  else bs

/-- The bytes that a command moves to byte o of its destination, with the padding of a destination tile of a block format as zero (R119); a compressed tile
receives its stored bytes as they stand (R227), and so does memory a tile's padding: R119 has engines ignore it, R228 moves it (log 104). -/
def padded (k : Cmd) (o : Nat) (bs : List Byte) : List Byte :=
  match k.dstTile with
  | some (_, x) => if x.cmp then bs else zeroPads x o bs
  | none => bs

/-- Bytes of the image that a compressing copy reads (R226). -/
def imageSize (k : Cmd) : Nat := let f := copyForm k.regs; f.rows * f.srow

/-- A copy starts (R228): a compressing one has read nothing of its image. -/
def startCopy (k : Cmd) : Run := { cmd := k, img := if (copyForm k.regs).xf = 2 then some [] else none }

/-- A channel has no command under way and no status entry to post (R83, R229). -/
def chanIdle (h : Chan) : Bool := h.run.isNone && h.chain.isNone && h.post.isEmpty

/-- COPY_EXECUTE (R83, R228). -/
def execCopyExecute (c ch : Nat) (s : State) : Host.Outcome State Fault Refusal :=
  let h := chanOf s c ch
  match h.cmds with
  | k :: ks =>
    if chanIdle h && (k.kind = .copy || k.kind = .gather) then
      .next (modChan s c ch fun h => { h with cmds := ks, run := some (startCopy k) })
    else .next s
  | [] => .next s

/-! ## Landing -/

/-- The m source bytes that land at byte j: fixed ones, or ones read now. -/
def landBytes (s : State) (t : Team) (c ch : Nat) (r : Run) (j m : Nat) : Eng × WordsRead :=
  let f := copyForm r.cmd.regs
  if r.cmd.kind = .select then (.ok s (((r.img.getD []).drop j).take m), r.words)
  else if f.xf = 2 then (.ok s (((packedBytes (runBlocks r)).drop j).take m), r.words)
  else
    match (if f.xf = 1 || f.xf = 4 then r.cmd.srcTile else none) with
    | some (_, y) => takeImage s t (cmdSource c ch r.cmd) y r.words (imageRuns r.cmd j m)
    | none => takePieces s t (cmdSource c ch r.cmd) r.cmd.srcTile.isSome r.words (piecesFrom r.cmd m j m)

/-- A compressing copy whose stored blocks have landed reads the next block of its image (R78, R273): the run with it, or with the cause that its source
met. -/
def nextBlock (s : State) (t : Team) (c ch : Nat) (r : Run) : State × Option Run :=
  let img := r.img.getD []
  let pack := r.cmd.kind != .select && (copyForm r.cmd.regs).xf == 2
  if !pack || r.err != 0 || r.landed < runTotal r || imageSize r.cmd ≤ img.length || (runBlocks r).length * 1024 < img.length then (s, some r)
  else
    match takePieces s t (cmdSource c ch r.cmd) r.cmd.srcTile.isSome r.words (piecesFrom r.cmd 1024 img.length 1024) with
    | (.wait s1, _) => (s1, none)
    | (.ok s1 b, ws) =>
      let b1 := match r.cmd.dstTile with | some (_, x) => zeroPads x img.length b | none => b
      (s1, some { r with img := some (img ++ b1), words := ws })
    | (.stop s1 e va tok, _) => (engineFault s1 t (chanWho c ch) va e tok 0, some { r with err := BitVec.ofNat 8 e, errAt := va })

/-- The blocks of a compressing copy whose last byte lies in a range of the stored form, with their numbers. -/
def blocksEnding (r : Run) (j m : Nat) : List (Nat × Packed) :=
  let bs := runBlocks r
  ((upto bs.length).zip bs).filter fun (_, p) => j < p.off + p.bytes.length && p.off + p.bytes.length ≤ j + m

/-- The write pointer of the team rises with its latest command, and covers what the command has written (R84, R99, R233). -/
def raisePointer (s : State) (c ch : Nat) (k : Cmd) (p : Nat) : State :=
  if (chanOf s c ch).cmds.any fun x => x.team == k.team then s
  else modCount s k.team ch fun n => { n with wptr := BitVec.ofNat 64 p, view := cmdWrites s c ch k }

/-- Bytes written over those that stand at some places; a place without a byte keeps its own. -/
def overCells (s : State) (l : List Spot) (cells : List (Option Byte)) : List Byte :=
  (l.flatMap fun x => match x with | .pad c o n => sramRead s c o n | .mem _ n _ pa => physRead s pa n).zipWith (fun b c => c.getD b) cells

/-- One write of an engine, of bytes in one aligned word (R83): to its team's scratchpad, or to memory, where in a paired run the primary's engine alone
performs it (R225). -/
def engPut (s : State) (t : Team) (w : Writer) (tile : Bool) (va : Nat) (cells : List (Option Byte)) : Eng :=
  if tile then
    let l := padSpots t (va - Config.aperture) cells.length
    .ok (writeSpots s w l (overCells s l cells)) []
  else if !t.primary then .ok s []
  else match lookAt s (engEnv s t) .write va cells.length with
    | (s1, .hit l) => .ok (writeSpots (touchSpots s1 (engEnv s t) .write l) w l (overCells s1 l cells)) []
    | (s1, .zeroing a f n) => .wait (startZero s1 a f n)
    | (s1, .stop c tok) => .stop s1 c va tok

/-- The bytes of a run's destination from byte j, by address: the first one's, and those up to the last one's. -/
def destCells (r : Run) (j : Nat) (bs : List Byte) : List (Option Byte) :=
  let a := destAt r j
  (upto (destAt r (j + bs.length - 1) - a + 1)).map fun i => (posOf (fun k => destAt r (j + k) == a + i) (upto bs.length)).bind fun k => bs[k]?

/-- A command meets a cause as it executes: it ends, and every byte below its write pointer stays (R104). -/
def endRun (s : State) (c ch : Nat) (cause : Nat) : State :=
  modChan s c ch fun h => { h with run := h.run.map fun r => { r with ended := true, err := BitVec.ofNat 8 cause } }

/-- The aligned 8-byte word at a destination address has been written whole, in two parts: its poison is cleared (R409). -/
def healWord (s : State) (t : Team) (va : Nat) : State :=
  if overlap va 8 Config.aperture Config.apertureBytes then
    (padSpots t (va - Config.aperture) 8).foldl (fun s x => match x with
      | .pad c o _ => modCluster s c fun k => { k with sramBad := k.sramBad.filter fun w => w != o / 8 }
      | .mem _ _ _ _ => s) s
  else if !t.primary then s
  else match walk s (engEnv s t).root va with
    | .ok x => let w := routeAlias s (swapRoute s x) / 8; { s with poison := s.poison.filter fun y => y != w }
    | .error _ => s

/-- What landing a part comes to: the state, and the bytes that a muster is to lose. -/
inductive Land where
  | ok (s : State) (mus : Nat)
  | over (s : State)

/-- A command's engine meets a cause: a fault or poison has its record (R104), a stored form that R79 refuses none. -/
def stopRun (s : State) (t : Team) (c ch cause va : Nat) (tok : W64) (kind : Nat) : State :=
  endRun (if cause = 0x20 then s else engineFault s t (chanWho c ch) va cause tok kind) c ch cause

/-- The next aligned destination word of a run lands (R83, R100, R228); a table entry follows the last byte of its block (R77). -/
def landNext (s : State) (c ch : Nat) (r : Run) : Land :=
  let t := teamOf s r.cmd.team
  let w := cmdWriter c ch r.cmd
  let j := r.landed
  let total := runTotal r
  let pack := r.cmd.kind != .select && (copyForm r.cmd.regs).xf == 2
  if r.ended then .over s
  else if r.cmd.kind = .select && r.err != 0 then .over (stopRun s t c ch r.err.toNat r.errAt 0 0)
  else if total ≤ j then
    .over (if pack && r.err != 0 then endRun s c ch r.err.toNat
      else if pack && (runBlocks r).length * 1024 < (r.img.getD []).length then endRun s c ch 0x20 else s)
  else
    let m := wordBytes r total j
    match landBytes s t c ch r j m with
    | (.wait s1, _) => .over s1
    | (.stop s1 cause va tok, _) => .over (stopRun s1 t c ch cause va tok 0)
    | (.ok s1 bs0, words) =>
      let bs := if pack || r.cmd.kind = .select then bs0 else padded r.cmd j bs0
      match engPut s1 t w r.cmd.dstTile.isSome (destAt r j) (destCells r j bs) with
      | .wait s2 => .over s2
      | .stop s2 cause va tok => .over (stopRun s2 t c ch cause va tok 1)
      | .ok s2 _ =>
        let ends := if pack then blocksEnding r j m else []
        let s3 := ends.foldl (fun s (i, p) => match r.cmd.dstTile with
          | some (_, x) =>
            let at_ := Config.aperture + x.offt * 128 + 4 * i
            let s1 := padPut s t w at_ (toBytes 4 p.entry)
            if i % 2 = 1 then healWord s1 t (at_ - 4) else s1
          | none => s) s2
        let summed := if pack then ends.flatMap fun (i, _) => ((r.img.getD []).drop (1024 * i)).take 1024 else bs
        let last := destAt r (j + m - 1) + 1
        let s4 := raisePointer (if endsWhole r (j + m) then healWord s3 t (last - 8) else s3) c ch r.cmd last
        .ok (modChan s4 c ch fun h => { h with run := h.run.map fun x => { x with landed := j + m, crc := crc32c x.crc summed, words := words } })
          summed.length

/-- The next aligned destination word lands; a compressing copy reads its next block first. -/
def landWord (s : State) (c ch : Nat) (r : Run) : Land :=
  match nextBlock s (teamOf s r.cmd.team) c ch r with
  | (s1, none) => .over s1
  | (s1, some r1) => landNext (if r1 = r then s1 else modChan s1 c ch fun h => { h with run := some r1 }) c ch r1

/-- Words land until n bytes have, or the command can go no further now; the bytes that landed for the muster. -/
def landWords (c ch : Nat) : Nat → Nat → State → State × Nat
  | 0, _, s => (s, 0)
  | f + 1, n, s =>
    if n = 0 then (s, 0)
    else match (chanOf s c ch).run with
      | none => (s, 0)
      | some r =>
        match landWord s c ch r with
        | .over s1 => (s1, 0)
        | .ok s1 k =>
          let m := ((chanOf s1 c ch).run.map (·.landed)).getD 0 - r.landed
          let (s2, k2) := landWords c ch f (n - m) s1
          (s2, k + k2)

/-- MUS of a command: copies and selk (R226, R234). -/
def musOf (k : Cmd) : Nat := if k.kind = .select then (selForm k.regs).mus else (copyForm k.regs).mus

/-- COPY_BYTES_LAND (R83, R84, R86, R228): n bytes or more, in whole words. -/
def landBy (s : State) (c ch n : Nat) : State :=
  match (chanOf s c ch).run with
  | none => s
  | some r =>
    let (s1, k) := landWords c ch n n s
    if k = 0 || musOf r.cmd = 0 then s1
    else updateMuster s1 r.cmd.team (musOf r.cmd) 0 0 (BitVec.ofNat 32 k) (cmdWrites s1 c ch r.cmd)

/-- COPY_BYTES_LAND (R86). -/
def execCopyBytesLand (c ch n : Nat) (s : State) : Host.Outcome State Fault Refusal := .next (landBy s c ch n)

/-! ## Completion -/

/-- The end E of a command's destination, and the place of its stamp (R85). -/
def stampAt (k : Cmd) : Nat :=
  let f := copyForm k.regs
  let (n, l) := cmdShape k
  roundUp (if n = 0 then f.dst else f.dst + (n - 1) * f.dstr + l) 8 % 2 ^ 64

/-- An engine operation is complete: its hand-back may take effect (R82); one without a hand-back, or without a tile, is gone. A hand-back of the tile written
releases the writes (R82, R99). -/
def completeOp (s : State) (team op : Nat) (status : BitVec 8) (wrote : List Nat) (v : View) : State :=
  modTeam s team fun t => { t with
    ops := (t.ops.map fun o => if o.id = op then { o with complete := true, status := status } else o).filter fun o =>
      !(o.id == op && (!o.hb || o.tiles.isEmpty))
    tiles := wrote.foldl (fun l i => mput {} l i { mget {} l i with view := (mget {} l i).view.join v }) t.tiles }

/-- A status entry (R229). -/
def statusEntry (ch cnum : Nat) (err : BitVec 8) : W64 := BitVec.ofNat 64 (cnum % 2 ^ 48 + ch % 8 * 2 ^ 48 + err.toNat * 2 ^ 56)

/-- COMP's status bit of a command. -/
def wantsStatus (k : Cmd) : Bool :=
  match k.kind with
  | .select => 2 ≤ (selForm k.regs).comp
  | .chain => bits (cmdWord k.regs 4) 24 1 == 1
  | _ => (copyForm k.regs).status

/-- A status entry joins those that the channel is to post, with the writes that taking it acquires (R229). -/
def addPost (s : State) (c ch : Nat) (k : Cmd) (err : BitVec 8) (wrote : View) : State :=
  if wantsStatus k then
    modChan s c ch fun h => { h with post := h.post ++
      [{ team := k.team, op := k.opId, queue := ch / 2, entry := statusEntry ch k.cnum err, view := wrote }] }
  else s

/-- A chain ends (R232): its status entry stands for the writes of all its records. -/
def endChain (s : State) (c ch : Nat) (err : BitVec 8) : State :=
  match (chanOf s c ch).chain with
  | none => s
  | some x =>
    let s1 := addPost (completeOp s x.cmd.team x.cmd.opId err [] {}) c ch x.cmd err x.wrote
    settleTeam (modChan s1 c ch fun h => { h with chain := none }) x.cmd.team

/-- A record's CTL is written back: OWN 0 and ERR (R232), a release of the record's destination bytes at device scope; a fault of the write ends
the chain with its cause. -/
def writeCtl (s : State) (t : Team) (c ch : Nat) (k : Cmd) (p : W64) (err : BitVec 8) : State × Option (BitVec 8) :=
  let w : Writer := { cmdWriter c ch k with rel := [{ scope := 3, agent := cmdAgent c ch k, view := cmdWrites s c ch k }] }
  match engWrite s t w (p.toNat + 0x28) (toBytes 4 (err.toNat * 2 ^ 8)) with
  | .ok s1 _ => (s1, some err)
  | .wait s1 => (s1, none)
  | .stop s1 x va tok => (engineFault s1 t (chanWho c ch) va x tok 1, some (if err = 0 then BitVec.ofNat 8 x else err))

/-- A command is over: its CRC, its operation, its status entry; a chain goes on to its next record or ends (R229, R230, R232). -/
def closeRun (s : State) (c ch : Nat) (r : Run) (err : BitVec 8) : State :=
  let k := r.cmd
  let sum := k.kind != .select && (copyForm k.regs).csum
  let s1 := if sum then modCount s k.team ch fun n => { n with crcs := (k.sum, ~~~r.crc) :: n.crcs } else s
  let v := cmdWrites s1 c ch k
  let s2 := addPost (completeOp s1 k.team k.opId err (tileNo k.dstTile) v) c ch k err v
  let s3 := modChan s2 c ch fun h => { h with run := none, chain := h.chain.map fun x => { x with wrote := x.wrote.join v } }
  match (chanOf s3 c ch).chain with
  | none => settleTeam s3 k.team
  | some x =>
    if err != 0 || x.next = 0 then endChain s3 c ch err
    else if x.next.toNat % 64 != 0 then endChain s3 c ch 0x22
    else modChan s3 c ch fun h => { h with chain := some { x with p := x.next } }

/-- What a stamp carries: an mwait that observes it acquires the payload, at the scope of the stamp's page (R67, R99). -/
def stampRel (s : State) (t : Team) (c ch : Nat) (k : Cmd) : Rel :=
  { scope := match walk s (engEnv s t).root (stampAt k) with | .ok x => tierScope x.leaf | .error _ => 3
    agent := cmdAgent c ch k, view := cmdWrites s c ch k, wait := true }

/-- COPY_COMPLETE (R85, R92, R104, R274): the stamp is written after every payload byte, its eight bytes whole, and a record's CTL after the stamp. -/
def completeRun (s : State) (c ch : Nat) (r : Run) : State :=
  let k := r.cmd
  let t := teamOf s k.team
  let w : Writer := { cmdWriter c ch k with grain := 8, rel := [stampRel s t c ch k] }
  let stamp : Eng := if k.seq = 0 then .ok s [] else engWrite s t w (stampAt k) (toBytes 8 (k.seq % 2 ^ 56 + r.err.toNat * 2 ^ 56))
  match stamp with
  | .wait s1 => s1
  | .stop s1 x va tok => finishCtl (engineFault s1 t (chanWho c ch) va x tok 1) t (BitVec.ofNat 8 x)
  | .ok s1 _ => finishCtl s1 t r.err
where
  finishCtl (s : State) (t : Team) (err : BitVec 8) : State :=
    match (chanOf s c ch).chain with
    | none => closeRun s c ch r err
    | some x => match writeCtl s t c ch r.cmd x.p err with
      | (s1, some e) => closeRun s1 c ch r e
      | (s1, none) => s1

/-- COPY_COMPLETE (R85). -/
def execCopyComplete (c ch : Nat) (s : State) : Host.Outcome State Fault Refusal :=
  match (chanOf s c ch).run with
  | some r =>
    let pack := r.cmd.kind != .select && (copyForm r.cmd.regs).xf = 2
    let whole := runTotal r ≤ r.landed && (r.err = 0 || r.ended)
      && (!pack || r.ended || (imageSize r.cmd ≤ (r.img.getD []).length && (r.img.getD []).length ≤ (runBlocks r).length * 1024))
    .next (if r.ended || whole then completeRun s c ch r else s)
  | none => .next s

/-! ## Chains -/

/-- The command of a transfer record (R232). -/
def recordRegs (b : List Byte) : List W32 :=
  [0, 4, 8, 12, 16, 20, 24, 28].map fun o => BitVec.ofNat 32 (fieldOf b o 4)

/-- A record's nonzero reserved field (R232). -/
def recordReserved (b : List Byte) : Bool :=
  let ctl := fieldOf b 0x28 4
  bits ctl 1 7 != 0 || bits ctl 16 16 != 0 || fieldOf b 0x2C 20 != 0

/-- The read of a transfer record, an acquire at device scope (R232): its bytes, and what it acquired. -/
def readRecord (s : State) (me : Agent) (v : View) : List Spot → State × List Byte × View
  | [] => (s, [], v)
  | x :: xs =>
    let (kind, p, cur) : Nat × Nat × List Byte := match x with
      | .pad c off n => (0, padKey c off, sramRead s c off n)
      | .mem _ n t pa => (leafKind t.leaf, routeAlias s pa, if leafBit t.leaf 15 then zeros n else physRead s pa n)
    let f := lookBack s.past (fun q a => kind != 1 && mayMiss me { view := v } q a) (fun _ => false) p cur s.free
    let v1 := (f.rels.filter fun r => !r.wait && r.reaches [] me 3).foldl (fun v r => v.join r.view) v
    let (s1, bs, v2) := readRecord { s with free := f.free } me v1 xs
    (s1, f.bytes.map (·.1) ++ bs, v2)

/-- The next record of a chain is read and runs as one copy (R232); what the read acquired holds for the records after it too. A record counts among the
channel's commands, stamped commands and checksums when it is fetched, behind commands that were issued after the cpyc (log 105). -/
def fetchRecord (s : State) (c ch : Nat) (x : Chain) : State :=
  let t := teamOf s x.cmd.team
  let env := engEnv s t
  match lookAt s env .read x.p.toNat 64 with
  | (s1, .stop e tok) =>
    if e = 0x13 then s
    else endChain (engineFault s1 t (chanWho c ch) x.p.toNat e tok 0) c ch (BitVec.ofNat 8 e)
  | (_, .zeroing _ _ _) => s
  | (s0, .hit l) =>
    let (s1, b, v) := readRecord (touchSpots s0 env .read l) (cmdAgent c ch x.cmd) x.cmd.view l
    if fieldOf b 0x28 4 % 2 = 0 then endChain s1 c ch 0
    else
      let regs := recordRegs b
      let f := copyForm regs
      let cs := [if recordReserved b then 0x22 else 0, copyCause t (queueBound s1 t (ch / 2)) none f].filter (· != 0)
      if !cs.isEmpty then
        let e := BitVec.ofNat 8 (minNat 0 cs)
        match writeCtl s1 t c ch x.cmd x.p e with
        | (s2, some e2) => endChain s2 c ch e2
        | (s2, none) => s2
      else
        let k0 : Cmd := { team := x.cmd.team, g := x.cmd.g, kind := .copy, regs := regs, srcTile := sideTile t f.src, dstTile := sideTile t f.dst
                          at_ := s1.writes, view := v }
        let old := countOf t ch
        let later := (chanOf s1 c ch).cmds.any (fun k => k.team == x.cmd.team)
        let first := if later then old.wptr else BitVec.ofNat 64 f.dst
        let (t1, k) := prepareCmd t ch k0 first f.handBack f.csum
        let s2 := modTeam s1 x.cmd.team fun _ => t1
        let s3 := if later then modCount s2 x.cmd.team ch fun n => { n with view := old.view } else s2
        modChan s3 c ch fun h => { h with
          run := some (startCopy k), chain := some { x with next := BitVec.ofNat 64 (fieldOf b 0x20 8), cmd := { x.cmd with view := v } } }

/-- CPYC_RECORD_FETCH (R232): the chain begins, or goes on. -/
def execCpycRecordFetch (c ch : Nat) (s : State) : Host.Outcome State Fault Refusal :=
  let h := chanOf s c ch
  if h.run.isSome || !h.post.isEmpty then .next s
  else match h.chain, h.cmds with
    | some x, _ => .next (fetchRecord s c ch x)
    | none, k :: ks =>
      if k.kind = .chain then
        let x : Chain := { cmd := k, p := BitVec.ofNat 64 (cmdWord k.regs 0 + cmdWord k.regs 1 * 2 ^ 32) }
        .next (fetchRecord (modChan s c ch fun h => { h with cmds := ks, chain := some x }) c ch x)
      else .next s
    | none, [] => .next s

/-! ## selk -/

/-- Key x ranks strictly above key y (R234): a NaN ranks below every other key in both orders. -/
def ranksAbove (low : Bool) (kt x y : Nat) : Bool :=
  let gt (a b : Nat) : Bool :=
    if kt = 1 then decide (sextInt 32 b < sextInt 32 a) else if kt = 2 then b < a else ltV (fmtF32.decode b) (fmtF32.decode a)
  if kt = 0 && (fmtF32.decode x).isNan then false
  else if kt = 0 && (fmtF32.decode y).isNan then true
  else if low then gt y x else gt x y

/-- A key is put behind every key that it does not rank above: equal keys stay in index order. -/
def rankIn (low : Bool) (kt : Nat) (x : Nat × Nat) : List (Nat × Nat) → List (Nat × Nat)
  | [] => [x]
  | y :: ys => if ranksAbove low kt x.2 y.2 then x :: y :: ys else y :: rankIn low kt x ys

/-- The keys by rank, with their indices. -/
def rankKeys (low : Bool) (kt : Nat) (keys : List Nat) : List (Nat × Nat) :=
  ((upto keys.length).zip keys).foldl (fun l x => rankIn low kt x l) []

/-- selk's results in ascending address order (R234). -/
def selResults (f : SelForm) (keys : List Nat) : List Byte :=
  ((rankKeys f.low f.kt keys).take f.k).flatMap fun (i, v) =>
    toBytes 4 ((i + f.ibase) % 2 ^ 32) ++ if f.pairs then toBytes 4 v else []

/-- selk's keys, read word by word (R99, R273), or the address of the first poisoned one. -/
def readKeys (s : State) (t : Team) (x : Source) : List Nat → State × Except Nat (List Nat)
  | [] => (s, .ok [])
  | va :: vs =>
    match padReadLate s t x va 4 with
    | .ok s1 b => let (s2, r) := readKeys s1 t x vs; (s2, r.map (ofBytes b :: ·))
    | .stop s1 _ a _ => (s1, .error a)
    | .wait s1 => (s1, .error va)

/-- SELK_EXECUTE (R234): the keys are read and ranked; poison among them ends the command. -/
def execSelkExecute (c ch : Nat) (s : State) : Host.Outcome State Fault Refusal :=
  let h := chanOf s c ch
  match h.cmds with
  | k :: ks =>
    if chanIdle h && k.kind = .select then
      let f := selForm k.regs
      let (s1, keys) := readKeys s (teamOf s k.team) (cmdSource c ch k) ((upto f.n).map fun i => f.keys + 4 * i)
      let r : Run := match keys with
        | .ok l => { cmd := k, img := some (selResults f l) }
        | .error a => { cmd := k, img := some [], err := 0x15, errAt := a }
      .next (modChan s1 c ch fun h => { h with cmds := ks, run := some r })
    else .next s
  | [] => .next s

/-! ## Hand-backs and status entries -/

/-- The complete operation whose hand-back of a tile takes effect now: no earlier one that names the tile is incomplete (R82). -/
def dueHandBack (tile : Nat) : List EngOp → Option EngOp
  | [] => none
  | o :: os =>
    if o.tiles.contains tile then
      if !o.complete then none else if o.hb then some o else dueHandBack tile os
    else dueHandBack tile os

/-- HAND_BACK (R82, R229): OWN, STATUS and the pending flag. -/
def handBack (s : State) (team tile : Nat) : State :=
  match dueHandBack tile (teamOf s team).ops with
  | none => s
  | some o =>
    let s1 := modTeam s team fun t => { t with ops :=
      (t.ops.map fun x => if x.id = o.id then { x with tiles := x.tiles.filter (· != tile) } else x).filter fun x => !(x.id == o.id && x.tiles.isEmpty) }
    modTile s1 team tile fun x => { x with own := false, status := o.status, pend := false }

/-- HAND_BACK (R82). -/
def execHandBack (team tile : Nat) (s : State) : Host.Outcome State Fault Refusal := .next (handBack s team tile)

/-- STATUS_ENTRY_POST (R229): after the command's hand-back, when its queue has room. -/
def execStatusEntryPost (c ch : Nat) (s : State) : Host.Outcome State Fault Refusal :=
  match (chanOf s c ch).post with
  | [] => .next s
  | p :: ps =>
    let t := teamOf s p.team
    if t.ops.any (fun o => o.id == p.op) || 16 ≤ (queueOf t p.queue).length then .next s
    else .next (modChan (pushQueue s p.team p.queue p.entry p.view) c ch fun h => { h with post := ps })

end Sys2Proof.Machine
end

