-- ==== Sys2Proof/Machine/Cmu.lean ====
section
/-!
DEFINITION. Meanings of the matrix instructions as they issue (R250, R257 to R266), and the cluster matrix unit at work (R123, R251 to R256, R262 to
R264).
-/

namespace Sys2Proof.Machine

/-! ## Issue -/

/-- The context's matrix state; an empty one on a vector core, where these words trap. -/
def Ctx.mat (c : Ctx) : KeyCtx := c.g.key.getD {}

/-- Replaces the matrix state of a keystone context. -/
def modKey (s : State) (team : Nat) (f : KeyCtx → KeyCtx) : State := modGroup s (.key team) fun g => { g with key := g.key.map f }

/-- An instruction enters the matrix queue of eight entries; a full queue waits (R250). -/
def enqueue (c : Ctx) (s : State) (op : MOp) (tiles : List Nat) (hb : Bool) : Res :=
  if 8 ≤ c.mat.mq.length then { s := c.s, wait := some (.matrixq, 0) }
  else
    let given := tiles.foldl (fun v i => v.join (tileOf c.t i).given) ({} : View)
    let e : MEntry := { op := op, opId := c.t.nextOp, at_ := s.writes, view := (releaseAct c s).join given, un := (orderOf s (.key c.g.team)).un.plus (.key c.g.team) s.writes }
    { s := modKey (modTeam s c.g.team fun t => addOp t tiles hb true) c.g.team fun k => { k with mq := k.mq ++ [e] } }

/-- MZERO (R257). -/
def execMzero (a : BitVec 7) (s : State) : Host.Outcome State Fault Refusal :=
  issue (.mzero a) s fun c => enqueue c c.s (.zero ((c.uv a).toNat % 16)) [] false

/-- Bytes of an accumulator tile's image (R249). -/
abbrev accBytes : Nat := 131072

/-- A tile that an engine operation may name: VALID, ENGINE, no hand-back pending (R80, R266). -/
def engineTile (x : Tile) : Bool := x.valid && x.own && !x.pend

/-- An aperture image of mlda: within one plain f32 tile (R258). -/
def imageTile (t : Team) (va : Nat) : Option Nat :=
  match sideTile t va with
  | some (i, x) =>
    if engineTile x && !x.cmp && x.fmt == 1 && va - Config.aperture + accBytes ≤ tileStart x + tileBytes x then some i else none
  | none => none

/-- MLDA (R258): the check of a memory image reads no line. -/
def execMlda (d b o : BitVec 7) (la : BitVec 4) (s : State) : Host.Outcome State Fault Refusal :=
  issue (.mlda d b o la) s fun c =>
    let a := c.addr b o 128 0
    let op : MOp := .load ((c.uv d).toNat % 4) a
    if a.toNat % 128 != 0 then { onceTrap c 0x05 with hits := allHit c 0x05 0 a 0 0 }
    else if inAperture a.toNat 1 then
      match imageTile c.t a.toNat with
      | some i => enqueue c c.s op [i] false
      | none => onceTrap c 0x20
    else match rangeCauses c.s (laneEnv c.s c.g 0) .read (linesOf a.toNat accBytes) with
      | (s1, []) => enqueue c s1 op [] false
      | (s1, cs) => leastTrap c s1 cs a 0 0

/-- The group of a hold, resident or in a vault image. -/
def holder (s : State) (team idx : Nat) : Option Group :=
  match findGroup s (.group team idx) with
  | some g => some g
  | none => (s.vault.filterMap fun (_, v) => v.bind fun i => firstWhere (fun g => decide (g.who = .group team idx)) i.groups).head?

/-- A quarter as mbq finds it: the hold and the values of its registers (R254, R256). -/
def quarterOf (s : State) (team : Nat) (h : Hold) : Option Quarter :=
  (holder s team h.g).map fun g => { hold := h, vals := (span h.first h.len).map fun r => (g.reg r).shape.expand }

/-- The four held quarters of a team (R176, R259). -/
def heldQuarters (s : State) (t : Team) : List Quarter :=
  (upto 4).filterMap fun q => (mget none t.quarters q).bind (quarterOf s t.key)

/-- MBQ (R256, R259): the old binding ends at once. -/
def execMbq (d : BitVec 7) (s : State) : Host.Outcome State Fault Refusal :=
  issue (.mbq d) s fun c =>
    let qs := heldQuarters c.s c.t
    if qs.length < 4 then { s := modKey c.s c.g.team fun k => { k with binding := none }, wait := some (.mbq, 0), keep := true }
    else
      { s := modKey c.s c.g.team fun k => { k with binding := some qs }
        regs := uRes c d (BitVec.ofNat 32 (sumNat ((upto 4).map fun q => ((nth 0 (qs.map (·.hold.len)) q) - 1) * 2 ^ (8 * q)))) }

/-- A format pair of mma (R138, R260): tile format code of A, bits of a B element, B has block scales, K divided by the array cycles. -/
def mmaForm (fn : Nat) : Nat × Nat × Bool × Nat :=
  match fn with
  | 0 | 1 => (4, 8, false, 2)
  | 2 | 3 => (5, 8, false, 2)
  | 4 => (6, 8, true, 2)
  | 5 => (7, 6, true, 2)
  | 6 => (8, 4, true, 4)
  | 7 => (2, 16, false, 1)
  | 8 => (3, 16, false, 1)
  | 9 => (9, 8, false, 2)
  | 10 => (10, 16, false, 1)
  | 11 => (11, 16, false, 1)
  | 12 => (8, 16, false, 1)
  | 13 => (6, 16, false, 1)
  | _ => (12, 4, false, 4)

/-- Columns KT of an A tile (R253); none when they are not whole. -/
def tileColumns (x : Tile) : Option Nat :=
  let n := tileExpanded x
  match x.fmt with
  | 4 | 5 | 9 => if n % 128 = 0 then some (n / 128) else none
  | 12 => if n % 64 = 0 then some (n / 64) else none
  | 2 | 3 => if n % 256 = 0 then some (n / 256) else none
  | 6 | 7 | 8 | 11 => (unitCount x.fmt n).bind fun u => if u % 4 = 0 then some (u / 4) else none
  | 10 => unitCount x.fmt n
  | _ => none

/-- Registers of a quarter of K rows (R255). -/
def quarterRegs (fn k : Nat) : Nat :=
  let (_, b, scaled, _) := mmaForm fn
  (64 * k * b / 8 + (if scaled then 2 * k else 0) + 127) / 128

/-- The cause that mma meets at issue (R261); 0 for none. -/
def mmaCause (x : Tile) (binding : Option (List Quarter)) (fn k0 k : Nat) : Nat :=
  if !engineTile x || binding.isNone then 0x20
  else
    let kt := tileColumns x
    let colsOk := match kt with | some n => n % 32 == 0 && k0 + k ≤ n | none => false
    if x.fmt != (mmaForm fn).1 || !colsOk || (binding.getD []).any fun q => q.hold.len < quarterRegs fn k then 0x22 else 0

/-- MMA (R260, R261, R266). -/
def execMma (d a b : BitVec 7) (f : BitVec 4) (s : State) : Host.Outcome State Fault Refusal :=
  issue (.mma d a b f) s fun c =>
    let va := (c.uv a).toNat
    let i := va % 64
    let k0 := 32 * bits va 16 16
    let k := 32 * ((c.uv b).toNat % 256 + 1)
    let x := mmaCause (tileOf c.t i) c.mat.binding f.toNat k0 k
    if x != 0 then onceTrap c x
    else enqueue c c.s (.mma ((c.uv d).toNat % 4) i k0 k f.toNat (c.mat.binding.getD [])) [i] (bits va 6 1 == 1)

/-- Target of mdrain (R263): format, element bytes. -/
def drainForm (fn : Nat) : Fmt × Nat :=
  match fn with
  | 1 => (fmtF32, 4)
  | 2 => (fmtBF16, 2)
  | 3 => (fmtF16, 2)
  | 4 => (fmtE4M3, 1)
  | _ => (fmtE5M2, 1)

/-- The cause that mdrain meets at issue (R263); 0 for none. -/
def drainCause (x : Tile) (fn off : Nat) : Nat :=
  if !engineTile x then 0x20
  else if x.cmp || x.fmt != fn || off % 128 != 0 || tileBytes x < off + 32768 * (drainForm fn).2 then 0x22 else 0

/-- MDRAIN (R263, R266). -/
def execMdrain (d a b : BitVec 7) (f : BitVec 4) (s : State) : Host.Outcome State Fault Refusal :=
  issue (.mdrain d a b f) s fun c =>
    let va := (c.uv a).toNat
    let vd := (c.uv d).toNat
    let off := (c.uv b).toNat
    let x := drainCause (tileOf c.t (va % 64)) f.toNat off
    if x != 0 then onceTrap c x
    else enqueue c c.s (.drain (vd % 4) (bits vd 2 1 == 1) (va % 64) off f.toNat (c.g.fpcr.toNat % 8) (satOf c.g.fpcr)) [va % 64] (bits va 6 1 == 1)

/-- The cause that mscale meets at issue (R264); 0 for none. -/
def scaleCause (x : Tile) (off : Nat) : Nat :=
  if !engineTile x then 0x20 else if x.cmp || x.fmt != 1 || tileBytes x < off + 512 then 0x22 else 0

/-- MSCALE (R264, R266). -/
def execMscale (d a : BitVec 7) (s : State) : Host.Outcome State Fault Refusal :=
  issue (.mscale d a) s fun c =>
    let va := (c.uv a).toNat
    let off := 128 * bits va 16 16
    let x := scaleCause (tileOf c.t (va % 64)) off
    if x != 0 then onceTrap c x
    else enqueue c c.s (.scale ((c.uv d).toNat % 4) (va % 64) off) [va % 64] (bits va 6 1 == 1)

/-- MDONE (R265). -/
def execMdone (d : BitVec 7) (s : State) : Host.Outcome State Fault Refusal :=
  issue (.mdone d) s fun c =>
    if !c.mat.mq.isEmpty || c.t.ops.any (fun o => o.cmu && o.hb) then { s := c.s, wait := some (.matrixq, 0) }
    else
      { s := acquireAct c (modKey c.s c.g.team fun k => { k with mstat := 0 }) (({} : View).plus (.cmu c.g.team) c.s.writes)
        regs := uRes c d (c.mat.mstat.setWidth 32) }

/-! ## Turns -/

/-- A group whose quarter the entry reads is not resident: the instruction waits until it is restored (R178). -/
def quarterAway (s : State) (team : Nat) (q : Quarter) : Bool :=
  !q.gone && q.kept.isNone && (findGroup s (.group team q.hold.g)).isNone

/-- The head of a context's queue that may have a turn. -/
def readyHead (s : State) (g : Group) : Option MEntry :=
  match g.key with
  | none => none
  | some k => match k.mq with
    | [] => none
    | e :: _ =>
      let held := match e.op with
        | .mma _ _ _ _ _ qs => qs.any (quarterAway s g.team)
        | _ => false
      if e.parked.isSome || held then none else some e

/-- The head is an mlda, whose data may not have arrived (R251). -/
def isLoad (e : MEntry) : Bool := match e.op with | .load _ _ => true | _ => false

/-- A drain under way keeps its turn. -/
def midDrain (e : MEntry) : Bool := match e.op with | .drain _ _ _ _ _ _ _ => e.turns != 0 | _ => false

/-- The keystone contexts of a cluster, with their hardware numbers. -/
def clusterKeys (s : State) (cl : Nat) : List (Nat × Group) :=
  s.groups.filterMap fun g => match g.key with
    | some k => if (teamOf s g.team).cluster = cl then some (k.hw, g) else none
    | none => none

/-- It is this context's turn: round-robin from the context after the one served last; an mlda may be passed over (R251). -/
def hasTurn (s : State) (cl hw : Nat) : Bool :=
  let heads := (clusterKeys s cl).filterMap fun (n, g) => (readyHead s g).map fun e => (n, e)
  let before (n : Nat) : Nat := (n + 7 - (clusterOf s cl).cmuLast % 4) % 4
  heads.all fun (n, e) => n == hw || (!midDrain e && (isLoad e || before hw ≤ before n))

/-- The CMU has served this context (R251). -/
def served (s : State) (cl hw : Nat) : State := modCluster s cl fun c => { c with cmuLast := hw }

/-- The head entry has had a turn. -/
def countTurn (s : State) (team n : Nat) : State :=
  modKey s team fun k => { k with mq := match k.mq with | e :: es => { e with turns := e.turns + n } :: es | [] => [] }

/-- The head entry is complete: its tile use ends, with the writes of a drain, and MSTAT gains bits (R252, R266). -/
def doneHead (s : State) (team : Nat) (e : MEntry) (status : BitVec 8) (mstat : BitVec 5) : State :=
  completeOp (modKey s team fun k => { k with mq := k.mq.drop 1, mstat := k.mstat ||| mstat }) team e.opId status
    (match e.op with | .drain _ _ tile _ _ _ _ => [tile] | _ => []) (({} : View).plus (.cmu team) s.writes)

/-- A cause that the CMU meets ends the team (R246, R258); consumed poison is in the error log (R60). -/
def cmuEnds (s : State) (t : Team) (g : Group) (cause : Nat) (addr : W64) : State :=
  endTeam (if cause = 0x15 then logConsumed s t addr else s) t.key (BitVec.ofNat 8 cause) (fwhoOf t g)

/-- Bits of MSTAT (R252). -/
abbrev msAERR : BitVec 5 := 16
abbrev msZQ : BitVec 5 := 8
abbrev msNV : BitVec 5 := 4
abbrev msOF : BitVec 5 := 2
abbrev msNX : BitVec 5 := 1

/-- NV and OF of an operation's flags, as MSTAT bits; NX too for a conversion. -/
def mstatOf (fl : W32) (nx : Bool) : BitVec 5 :=
  (if fl &&& flNV != 0 then msNV else 0) ||| (if fl &&& flOF != 0 then msOF else 0) ||| (if nx && fl &&& flNX != 0 then msNX else 0)

/-- A turn of team k's context, when the head of its queue is of the kind and its turn has come; matrix units whose microcode was refused are held
in reset (R385). -/
def cmuTurn (s : State) (k : Nat) (is : MOp → Bool) (f : State → Group → KeyCtx → MEntry → State) : State :=
  match findGroup s (.key k) with
  | none => s
  | some g =>
    let cl := (teamOf s k).cluster
    match g.key, readyHead s g with
    | some key, some e => if is e.op && hasTurn s cl key.hw && !s.refused.contains 3 then f (served s cl key.hw) g key e else s
    | _, _ => s

/-- MZERO_EXECUTE (R257). -/
def execMzeroExecute (k : Nat) (s : State) : Host.Outcome State Fault Refusal :=
  .next (cmuTurn s k (fun o => match o with | .zero _ => true | _ => false) fun s _ _ e => match e.op with
    | .zero m => doneHead (modKey s k fun x => { x with acc := x.acc.filter fun (i, _) => bits m (i / 32768) 1 == 0 }) k e 0 0
    | _ => s)

/-! ## mlda -/

/-- The reads of an mlda: loads of its context that happen after its issue (R258); of a UN page what the context had refreshed then (R97). -/
def loadSource (team : Nat) (e : MEntry) (un : Bool) : Source :=
  { agent := .cmu team, at_ := e.at_, view := if un then e.un else e.view }

/-- The bytes of an mlda's image in memory. -/
def loadSpots (s : State) (team : Nat) (e : MEntry) : List Spot → State × List Byte
  | [] => (s, [])
  | x :: xs =>
    let (s1, a) := lateBytes s (loadSource team e (match x with | .mem _ _ t _ => leafKind t.leaf == 2 | .pad _ _ _ => false)) x
    let (s2, b) := loadSpots s1 team e xs
    (s2, a ++ b)

/-- Accumulator tile t holds an image (R249). -/
def loadAcc (k : KeyCtx) (t : Nat) (bs : List Byte) : KeyCtx :=
  { k with acc := ((upto 32768).zip (numsOf 32768 bs)).foldl (fun m (i, v) => mput 0 m (32768 * t + i) (BitVec.ofNat 32 v)) k.acc }

/-- A page that is no longer there holds the instruction under its context's wait-table entry, and a record is posted; the VA is that of the image's
first byte in the page (R246, R258, R342). -/
def parkLoad (s : State) (g : Group) (tok a : W64) : State :=
  let t := teamOf s g.team
  let tile := groupTile s g
  let tab := (coreOf s tile).waitTab
  let asid := (contextOf s t.ctx).asid
  let ent := entryOf g asid false tok
  let room := tab.contains ent || !tab.any fun e => e.hw == ent.hw
  let s1 := if room && !tab.contains ent then modCore s tile fun c => { c with waitTab := tab ++ [ent] } else s
  let s2 := fileFault s1 {
    cause := 0x10, asid := asid, launch := t.launch, team := BitVec.ofNat 32 t.l, token := tok, va := BitVec.ofNat 64 (Nat.max a.toNat tok.toNat)
    access := BitVec.ofNat 32 (if room then 2 ^ 11 else 2 ^ 12)
    who := BitVec.ofNat 32 (tile + 5 * 2 ^ 8 + (match g.key with | some k => k.hw | none => 0) * 2 ^ 11) }
  modKey s2 g.team fun k => { k with mq := match k.mq with | e :: es => { e with parked := some tok } :: es | [] => [] }

/-- The bytes of the scratchpad at an aperture address, or poison (R409). -/
def padGet (s : State) (t : Team) (va n : Nat) : Option (List Byte) :=
  let l := padSpots t (va - Config.aperture) n
  if l.any fun x => match x with | .pad c o m => padPoison s c o m | .mem _ _ _ _ => false then none
  else some (l.flatMap fun x => match x with | .pad c o m => sramRead s c o m | .mem _ _ _ _ => [])

/-- mlda's one turn (R258). -/
def loadTurn (s : State) (g : Group) (e : MEntry) (acc : Nat) (a : W64) : State :=
  let t := teamOf s g.team
  let ok (s : State) (bs : List Byte) : State := doneHead (modKey s g.team fun k => loadAcc k acc bs) g.team e 0 0
  if inAperture a.toNat 1 then
    match padReadLate s t (loadSource g.team e false) a.toNat accBytes with
    | .ok s1 bs => ok s1 bs
    | .stop s1 _ _ _ =>
      let bad := firstWhere (fun i => (padGet s t (a.toNat + 8 * i) 8).isNone) (upto (accBytes / 8))
      cmuEnds s1 t g 0x15 (BitVec.ofNat 64 (a.toNat + 8 * bad.getD 0))
    | .wait s1 => s1
  else
    let env := { laneEnv s g 0 with walker := .cmu t.cluster, cached := false, agent := none, gate := [] }
    match lookAt s env .read a.toNat accBytes with
    | (s1, .hit l) => let (s2, bs) := loadSpots (touchSpots s1 env .read l) g.team e l; ok s2 bs
    | (s1, .stop c tok) => if c = 0x13 then s else if c = 0x10 then parkLoad s1 g tok a else cmuEnds s1 t g c a
    | (_, .zeroing _ _ _) => s

/-- MLDA_EXECUTE (R251, R258). -/
def execMldaExecute (k : Nat) (s : State) : Host.Outcome State Fault Refusal :=
  .next (cmuTurn s k isLoadOp fun s g _ e => match e.op with
    | .load t a => loadTurn s g e t a
    | _ => s)
where isLoadOp (o : MOp) : Bool := match o with | .load _ _ => true | _ => false

/-! ## mma -/

/-- Element i of bytes packed in elements of b bits (R108). -/
def packedElem (b : Nat) (byte : Nat → Nat) (i : Nat) : Nat :=
  match b with
  | 4 => bits (byte (i / 2)) (i % 2 * 4) 4
  | 6 => bits (byte (i / 4 * 3) + byte (i / 4 * 3 + 1) * 2 ^ 8 + byte (i / 4 * 3 + 2) * 2 ^ 16) (i % 4 * 6) 6
  | 16 => byte (2 * i) + byte (2 * i + 1) * 2 ^ 8
  | _ => byte i

/-- The value of an integer code of n bits. -/
def intV (n v : Nat) : FV := let i := sextInt n v; .fin (i < 0) i.natAbs 0

/-- A value times 2 to the E8M0 scale; a scale of 0xFF makes it a NaN (R116). -/
def mxV (v : FV) (scale : Nat) : FV :=
  if scale = 255 then .nan false
  else match v with
    | .fin n m e => .fin n m (e + (scale : Int) - 127)
    | x => x

/-- The value of an element of a tile format code with its unit's scale (R106, R108, R116, R118). An i4 element of code 0 under an infinite scale is a NaN
operand, so the product raises no NV of its own (log 106). -/
def elemV (fmt code scale : Nat) : FV :=
  match fmt with
  | 2 => fmtBF16.decode code
  | 3 => fmtF16.decode code
  | 4 => fmtE4M3.decode code
  | 5 => fmtE5M2.decode code
  | 6 => mxV (fmtE4M3.decode code) scale
  | 7 => mxV (fmtE2M3.decode code) scale
  | 8 => mxV (fmtE2M1.decode code) scale
  | 9 => intV 8 code
  | 10 | 11 => (mulV (intV 4 code) (fmtBF16.decode scale)).1
  | _ => fmtE2M1.decode code

/-- Bits of an element of a tile format code. -/
def elemBits (fmt : Nat) : Nat :=
  match fmt with
  | 2 | 3 => 16
  | 7 => 6
  | 8 | 10 | 11 | 12 => 4
  | _ => 8

/-- A[i][k] in an A tile of KT columns and n bytes (R119, R253). -/
def aElem (fmt kt n : Nat) (byte : Nat → Nat) (i k : Nat) : FV :=
  let u := if fmt = 10 then k else i * kt / 32 + k / 32
  let units := if fmt = 10 then kt else 4 * kt
  let (eb, sb, _) := unitShape fmt
  if n = 0 then .fin false 0 0
  else if blockFmt fmt then
    let at_ := units * eb + sb * u
    elemV fmt (packedElem (elemBits fmt) (fun j => byte (u * eb + j)) (if fmt = 10 then i else k % 32))
      (if sb = 2 then byte at_ + byte (at_ + 1) * 2 ^ 8 else byte at_)
  else elemV fmt (packedElem (elemBits fmt) byte (kt * i + k)) 0

/-- The words of a stored block, zero where its map has none (R77). -/
def blockWords (s : State) (t : Team) (h : BlockHead) : List Nat → Except (Nat × Nat) (List Byte)
  | [] => .ok []
  | w :: ws =>
    match h.word w with
    | none => (blockWords s t h ws).map (zeros 4 ++ ·)
    | some va => match padGet s t va 4 with
      | none => .error (0x15, va)
      | some b => (blockWords s t h ws).map (b ++ ·)

/-- Block i of a compressed tile as a read port expands it: cause 0x20 under R79, 0x15 for poison, with the address that was read. -/
def expandBlock (s : State) (t : Team) (x : Tile) (i : Nat) : Except (Nat × Nat) (List Byte) :=
  let ent := Config.aperture + x.offt * 128 + 4 * i
  match padGet s t ent 4 with
  | none => .error (0x15, ent)
  | some b =>
    let e := ofBytes b
    let at_ := Config.aperture + tileStart x + bits e 0 20 * 16
    let map := if tileBytes x < bits e 0 20 * 16 + 32 then some [] else if bits e 31 1 = 1 then some (zeros 32) else padGet s t at_ 32
    match map with
    | none => .error (0x15, at_)
    | some m => match blockHead x e (ofBytes m) with
      | .error va => .error (0x20, va)
      | .ok h => blockWords s t h (upto 256)

/-- The byte ranges of the expanded image that mma reads (R253). -/
def aRanges (fmt kt k0 k : Nat) : List (Nat × Nat) :=
  let (eb, sb, _) := unitShape fmt
  if fmt = 10 then [(k0 * eb, k * eb), (kt * eb + sb * k0, sb * k)]
  else (upto 128).flatMap fun i =>
    if blockFmt fmt then
      let u := i * kt / 32 + k0 / 32
      [(u * eb, k / 32 * eb), (4 * kt * eb + sb * u, sb * (k / 32))]
    else [((kt * i + k0) * elemBits fmt / 8, k * elemBits fmt / 8)]

/-- The A tile's bytes that mma reads, as a function of their place, or the cause that ends it with the address: 0x20 for a failed block (R79), 0x15. -/
def readA (s : State) (t : Team) (x : Tile) (kt k0 k : Nat) : Except (Nat × Nat) (Nat → Nat) :=
  let rs := aRanges x.fmt kt k0 k
  if x.cmp then
    let ns := (upto (x.expm1 + 1)).filter fun b => rs.any fun (o, n) => overlap o n (1024 * b) 1024
    match ns.mapM fun b => (expandBlock s t x b).map fun bs => (b, bs) with
    | .error c => .error c
    | .ok blocks => .ok fun j => (nth 0 (mget [] blocks (j / 1024)) (j % 1024)).toNat
  else
    match firstWhere (fun (o, n) => (padGet s t (Config.aperture + tileStart x + o) n).isNone) rs with
    | some (o, _) => .error (0x15, Config.aperture + tileStart x + o)
    | none => .ok fun j => ofBytes ((padSpots t (tileStart x + j) 1).flatMap fun p => match p with
        | .pad c o m => sramRead s c o m
        | .mem _ _ _ _ => [])

/-- A byte of a quarter's block (R254); a quarter whose group has gone reads as zeros (R256). -/
def quarterByte (q : Quarter) (i : Nat) : Nat :=
  if q.gone then 0 else bits (nth 0 (nth [] q.vals (i / 128)) (i % 128 / 4)).toNat (i % 4 * 8) 8

/-- The tile format code whose values B's elements have (R138). -/
def bFmt (fn : Nat) : Nat :=
  match fn with
  | 0 | 2 => 4
  | 1 | 3 => 5
  | 4 => 6
  | 5 => 7
  | 6 => 8
  | 8 => 3
  | 9 => 9
  | 14 => 12
  | _ => 2

/-- B[k][64 q + c] (R254). -/
def bElem (fn kk : Nat) (q : Quarter) (k c : Nat) : FV :=
  let b := (mmaForm fn).2.1
  elemV (bFmt fn) (packedElem b (quarterByte q) (64 * k + c)) (quarterByte q (64 * kk * b / 8 + 64 * (k / 32) + c))

/-- The sum of a chunk's exact products (R123): the f32 code and MSTAT bits. A zero product of integers takes its sign from both operands, so that −5 times
0 is a −0 product (log 107). -/
def chunkSum (ops : List (FV × FV)) : FV × BitVec 5 :=
  let ps := ops.map fun (a, b) => (mulV a b).1
  let nanIn := ops.any fun (a, b) => a.isNan || b.isNan
  let infs := ps.filterMap fun p => match p with | .inf n => some n | _ => none
  if ps.any (·.isNan) || (infs.contains true && infs.contains false) then (.nan false, if nanIn then 0 else msNV)
  else match infs with
    | n :: _ => (.inf n, 0)
    | [] =>
      let r := ps.foldl (fun (a : Int × Int) p => match p with
        | .fin n m e => if m = 0 then a else if a.1 = 0 then ((if n then -(m : Int) else m), e)
          else exactSum (a.1 < 0) a.1.natAbs a.2 n m e
        | _ => a) ((0 : Int), (0 : Int))
      if r.1 = 0 then (.fin (ps.all (·.neg)) 0 0, 0)
      else
        let (v, fl) := fmtF32.round .rne false false (r.1 < 0) r.1.natAbs r.2 false
        (fmtF32.decode v, mstatOf (fl &&& flOF) false)

/-- The accumulator element after one chunk (R123, R262). -/
def addChunk (acc : Nat × BitVec 5) (ops : List (FV × FV)) : Nat × BitVec 5 :=
  let (p, m) := chunkSum ops
  let c := fmtF32.decode acc.1
  let (v, fl) := fmtF32.addV .rne false c p
  (v, acc.2 ||| m ||| mstatOf (if c.isNan || p.isNan then 0 else fl) false)

/-- Element C[i][j] after an mma (R123, R262). -/
def mmaElem (a b : Nat → FV) (k0 k c0 : Nat) : Nat × BitVec 5 :=
  (upto (k / 32)).foldl (fun acc c => addChunk acc ((span (32 * c) 32).map fun n => (a (k0 + n), b n))) (c0, 0)

/-- The mma's effect (R262): its accumulator tile is unchanged when a block of A fails. -/
def mmaEffect (s : State) (g : Group) (key : KeyCtx) (e : MEntry) (acc tile k0 k fn : Nat) (qs : List Quarter) : State :=
  let t := teamOf s g.team
  let x := tileOf t tile
  let kt := (tileColumns x).getD 0
  match readA s t x kt k0 k with
  | .error (c, va) => if c = 0x20 then doneHead s g.team e 0x20 msAERR else cmuEnds s t g c (BitVec.ofNat 64 va)
  | .ok byte =>
    let gone := qs.any (·.gone)
    let cell (i j : Nat) : Nat × BitVec 5 :=
      let q := nth { hold := { g := 0, first := 0, len := 0 }, vals := [] } qs (j / 64)
      mmaElem (aElem x.fmt kt (tileExpanded x) byte i) (fun n => bElem fn k q n (j % 64)) k0 k (mget 0 key.acc (32768 * acc + 256 * i + j)).toNat
    let r := (upto 32768).foldl (fun (r : SMap W32 × BitVec 5) n =>
      let (v, m) := cell (n / 256) (n % 256)
      (mput 0 r.1 (32768 * acc + n) (BitVec.ofNat 32 v), r.2 ||| m)) (key.acc, if gone then msZQ else 0)
    doneHead (modKey s g.team fun x => { x with acc := r.1 }) g.team e 0 r.2

/-- Tile times of an mma whose blocks lie on four different cores (R251, R260). -/
def mmaTurns (fn k : Nat) : Nat := (k / (mmaForm fn).2.2.2 + 127) / 128

/-- The blocks lie on four different cores (R260). -/
def fourCores (s : State) (team : Nat) (qs : List Quarter) : Bool :=
  let cs := qs.filterMap fun q => (holder s team q.hold.g).map (·.core)
  (distinct cs).length == 4

/-- MMA_EXECUTE (R251, R262): the effect comes with its last turn; blocks that share a core may take more turns (R260). -/
def execMmaExecute (k : Nat) (s : State) : Host.Outcome State Fault Refusal :=
  .next (cmuTurn s k (fun o => match o with | .mma _ _ _ _ _ _ => true | _ => false) fun s g key e => match e.op with
    | .mma acc tile k0 n fn qs =>
      if e.turns + 1 < mmaTurns fn n then countTurn s k 1
      else if fourCores s k qs then mmaEffect s g key e acc tile k0 n fn qs
      else
        let (s1, more) := chooseBool s
        if more then countTurn s1 k 1 else mmaEffect s1 g key e acc tile k0 n fn qs
    | _ => s)

/-! ## mdrain and mscale -/

/-- An accumulator element converted to a drain's target (R263): f32 is copied exactly. -/
def drainElem (fn rm : Nat) (sat : Bool) (v : W32) : Nat × BitVec 5 :=
  let x := fmtF32.decode v.toNat
  let nv := if x.isNan then msNV else 0
  if fn = 1 then (v.toNat, nv)
  else
    let (c, fl) := (drainForm fn).1.ofFV (rmOf (BitVec.ofNat 32 rm)) sat false x
    (c, nv ||| mstatOf fl true)

/-- Words m from word w of a drain are written (R100, R263); a word of eight bytes whose first half came before is written whole (R409). -/
def drainWords (s : State) (t : Team) (acc : SMap W32) (a base fn rm : Nat) (sat : Bool) (w m : Nat) : State × BitVec 5 :=
  let e := (drainForm fn).2
  let n := 4 / e
  let r := (span (w * n) (m * n)).foldl (fun (r : List Byte × BitVec 5) i =>
    let (v, b) := drainElem fn rm sat (mget 0 acc (32768 * a + i))
    (r.1 ++ toBytes e v, r.2 ||| b)) ([], 0)
  let s1 := padPut s t { agent := .cmu t.key, grain := 4 } (base + 4 * w) r.1
  (if w % 2 = 1 then healWord s1 t (base + 4 * w - 4) else s1, r.2)

/-- MDRAIN_EXECUTE (R251, R263): within its turn words land in ascending order, as many at a time as the device chooses (R100). -/
def execMdrainExecute (k : Nat) (s : State) : Host.Outcome State Fault Refusal :=
  .next (cmuTurn s k (fun o => match o with | .drain _ _ _ _ _ _ _ => true | _ => false) fun s g key e => match e.op with
    | .drain a zero tile off fn rm sat =>
      let t := teamOf s k
      let total := 8192 * (drainForm fn).2
      let m := Config.freeNat s.free % (total - e.turns) + 1
      let base := Config.aperture + tileStart (tileOf t tile) + off
      let (s1, b) := drainWords { s with free := s.free + 1 } t key.acc a base fn rm sat e.turns m
      if e.turns + m < total then modKey (countTurn s1 g.team m) g.team fun x => { x with mstat := x.mstat ||| b }
      else
        let s2 := if zero then modKey s1 g.team fun x => { x with acc := x.acc.filter fun (i, _) => i / 32768 != a } else s1
        doneHead s2 g.team e 0 b
    | _ => s)

/-- An accumulator element scaled (R264). -/
def scaleElem (v f : Nat) : Nat × BitVec 5 :=
  let x := fmtF32.decode v
  let y := fmtF32.decode f
  let (c, fl) := fmtF32.mul .rne false x y
  (c, (if x.isNan || y.isNan then msNV else 0) ||| mstatOf fl false)

/-- MSCALE_EXECUTE (R264). -/
def execMscaleExecute (k : Nat) (s : State) : Host.Outcome State Fault Refusal :=
  .next (cmuTurn s k (fun o => match o with | .scale _ _ _ => true | _ => false) fun s g key e => match e.op with
    | .scale a tile off =>
      let t := teamOf s k
      let at_ := Config.aperture + tileStart (tileOf t tile) + off
      (match padGet s t at_ 512 with
        | none => cmuEnds s t g 0x15 (BitVec.ofNat 64 at_)
        | some bs =>
          let fs := numsOf 128 bs
          let r := (upto 32768).foldl (fun (r : SMap W32 × BitVec 5) n =>
            let (v, m) := scaleElem (mget 0 key.acc (32768 * a + n)).toNat (nth 0 fs (n / 256))
            (mput 0 r.1 (32768 * a + n) (BitVec.ofNat 32 v), r.2 ||| m)) (key.acc, 0)
          doneHead (modKey s k fun x => { x with acc := r.1 }) k e 0 r.2)
    | _ => s)

end Sys2Proof.Machine
end

