-- ==== Sys2Proof/Machine/Fabric.lean ====
section
/-!
DEFINITION. The fabric endpoint: the packets of puts and pennants (R237 to R239, R378 to R380), what it receives (R102, R358, R380), paths (R379),
status notices (R372, R373).
-/

namespace Sys2Proof.Machine

/-! ## Paths -/

/-- Fields of FCFG (R378). -/
def rtoFs (s : State) : Nat := bits s.ctl.fcfg.toNat 0 16 * 1000000000
def retryLimit (s : State) : Nat := bits s.ctl.fcfg.toNat 16 8
def pathCount (s : State) : Nat := bits s.ctl.fcfg.toNat 24 6 + 1
def pathFail (s : State) : Nat := bits s.ctl.fcfg.toNat 30 2

/-- Port k is enabled and its link is up (R378). -/
def portUp (s : State) (k : Nat) : Bool := k < 16 && bits (mget 0 s.ctl.fport k).toNat 0 2 == 3

/-- The record of a path, while it has missed acknowledgements. -/
def pathRec (s : State) (d : BitVec 20) (port en : Nat) : Option PathRec :=
  firstWhere (fun p => p.dest == d && p.port == port && p.entropy == en) s.paths

/-- Replaces the record of a path; none forgets it. -/
def setPath (s : State) (d : BitVec 20) (port en : Nat) (r : Option PathRec) : State :=
  { s with paths := r.toList ++ s.paths.filter fun p => !(p.dest == d && p.port == port && p.entropy == en) }

/-- A path is live (R379). -/
def pathLive (s : State) (d : BitVec 20) (port en : Nat) : Bool :=
  portUp s port && en < pathCount s && !(match pathRec s d port en with | some r => r.dead | none => false)

/-- The live paths to a destination (R379). -/
def livePaths (s : State) (d : BitVec 20) : List (Nat × Nat) :=
  (upto 16).flatMap fun k => ((upto (pathCount s)).map fun e => (k, e)).filter fun p => pathLive s d p.1 p.2

/-- The place of a path in the order in which a message goes round (log 94). -/
def pathPlace (p : Nat × Nat) : Nat := Config.pathRank (64 * p.1 + p.2) * 1024 + 64 * p.1 + p.2

/-- The first of some paths in that order. -/
def firstPath (l : List (Nat × Nat)) : Option (Nat × Nat) :=
  l.foldl (fun b p => match b with
    | some q => if pathPlace p < pathPlace q then some p else some q
    | none => some p) none

/-- The live path that a message takes after another (R379). -/
def pathAfter (s : State) (d : BitVec 20) (last : Nat × Nat) : Option (Nat × Nat) :=
  let l := livePaths s d
  match firstPath (l.filter fun p => decide (pathPlace last < pathPlace p)) with
  | some p => some p
  | none => firstPath l

/-- The paths that a message's next packet may take: any live one for the first, whose choice is the message's offset, then the next in rotation
(R379). -/
def sendPaths (s : State) (op : FabOp) : List (Nat × Nat) :=
  match op.last with
  | none => livePaths s op.dest
  | some p => (pathAfter s op.dest p).toList

/-- The paths on which a packet is sent again: live ones other than its last, where one exists (R379, R380). -/
def resendPaths (s : State) (p : OutPkt) : List (Nat × Nat) :=
  let l := livePaths s p.dest
  let other := l.filter (· != (p.port, p.entropy))
  if other.isEmpty then l else other

/-- A path misses an acknowledgement; after PFAIL in a row it is dead (R379). -/
def missPath (s : State) (d : BitVec 20) (port en : Nat) : State :=
  let old := pathRec s d port en
  let n := (old.map (·.missed)).getD 0 + 1
  let since := match old with | some r => if r.dead then r.diedAt else s.timeFs | none => s.timeFs
  setPath s d port en (some { dest := d, port := port, entropy := en, missed := n, dead := pathFail s ≤ n, diedAt := since })

/-! ## Sending -/

/-- Operation n of the sender streams. -/
def fabOp (s : State) (n : Nat) : Option FabOp := mget none s.fabOps n

/-- Replaces operation n. -/
def setFabOp (s : State) (n : Nat) (op : Option FabOp) : State := { s with fabOps := mput none s.fabOps n op }

/-- The oldest operation of a stream that has packets to send. -/
def oldestToSend (s : State) (team : Nat) (d : BitVec 20) : Option Nat :=
  (s.fabOps.filterMap fun (n, x) => match x with
    | some op => if op.team = team && op.dest = d && (if op.pennant.isSome then op.sent = 0 else op.sent < op.len) then some n else none
    | none => none).head?

/-- An operation is abandoned, for the cause, address and token that its record names: its stream is broken, and the stream's undelivered pennants are
never applied (R239). -/
def abandonOp (s : State) (n : Nat) (cause : Nat) (va : W64) (tok : W64) (kind : Nat) : State :=
  match fabOp s n with
  | none => s
  | some op =>
    let t := teamOf s op.team
    let s1 := fileFault s
      { cause := BitVec.ofNat 8 cause, access := BitVec.ofNat 32 (kind * 2 ^ 8), who := BitVec.ofNat 32 (0xFF + 4 * 2 ^ 8)
        asid := (contextOf s t.ctx).asid, launch := t.launch, team := BitVec.ofNat 32 t.l, token := tok, va := va }
    let gone (k : Nat) (x : FabOp) : Bool := k == n || (x.team == op.team && x.dest == op.dest && x.pennant.isSome)
    let dropped := s1.fabOps.filterMap fun (k, x) => match x with
      | some y => if gone k y then some k else none
      | none => none
    let s2 := { s1 with
      fabOps := s1.fabOps.filter fun (k, _) => !dropped.contains k
      pkts := s1.pkts.filter fun p => !dropped.contains p.op }
    settleTeam (modTeam s2 op.team fun t => { t with broken := if t.broken.contains op.dest then t.broken else op.dest :: t.broken }) op.team

/-- An operation that no path delivers, or whose packet the receiver refuses (R239, R342, R380). -/
def failOp (s : State) (n : Nat) : State :=
  match fabOp s n with
  | none => s
  | some op => abandonOp s n 0x16 op.va (op.dest.setWidth 64) 1

/-- What reading the source of a packet comes to: bytes with the marks of poison; a stall; a cause at an address. -/
inductive PutRead where
  | ok (s : State) (bs : List (Byte × Bool))
  | wait
  | stop (s : State) (cause va : Nat) (tok : W64)

/-- The source bytes of a put, each aligned 4-byte word as it stands or as it stood after the issue; poison is carried along (R237). -/
def readSource (s : State) (env : Env) (x : Source) : List (Nat × Nat) → PutRead
  | [] => .ok s []
  | (va, n) :: ps =>
    match engRead s env x va n with
    | .wait _ => .wait
    | .ok s1 bs => (match readSource s1 env x ps with
      | .ok s2 r => .ok s2 (bs.map (fun b => (b, false)) ++ r)
      | x => x)
    | .stop s1 c a tok =>
      if c = 0x15 then (match readSource s1 env x ps with
        | .ok s2 r => .ok s2 (List.replicate n ((0 : Byte), true) ++ r)
        | x => x)
      else .stop s1 c a tok

/-- The 8-byte words of a packet at a destination address that hold poisoned bytes, by index from the word of its first byte (R237). -/
def badWords (pa : Nat) (bs : List (Byte × Bool)) : List Nat :=
  distinct (((upto bs.length).zip bs).filterMap fun (j, _, b) => if b then some ((pa + j) / 8 - pa / 8) else none)

/-- Physical address at the remote package of an address of the fabric tier (R358). -/
def remotePa (s : State) (pa : Nat) : Nat :=
  (mget (0 : BitVec 128) s.ctl.win ((pa - fabricBase) / 2 ^ 38)).toNat / 2 ^ 64 + (pa - fabricBase) % 2 ^ 38

/-- A packet leaves. -/
def emitPacket (s : State) (p : OutPkt) : State :=
  { s with out := .packet p.stream p.seq p.dest p.rpa p.data p.bad p.pennant p.puts :: s.out }

/-- A team's sender stream to a destination (R377). -/
def streamTo (s : State) (team : Nat) (d : BitVec 20) : Option OutStream := firstWhere (fun x => x.team == team && x.dest == d) s.streams

/-- Streams with unacknowledged packets, which the endpoint tracks (R380). -/
def activeStreams (s : State) : Nat := (distinct (s.pkts.map (·.stream))).length

/-- The stream of a team to a destination, which begins with its first packet. -/
def openStream (s : State) (team : Nat) (d : BitVec 20) : State × OutStream :=
  match streamTo s team d with
  | some x => (s, x)
  | none =>
    let x : OutStream := { team := team, dest := d, id := s.nextStream }
    let old := s.streams.filter fun y => s.teams.any fun t => t.key == y.team
    ({ s with streams := old ++ [x], nextStream := s.nextStream + 1 }, x)

/-- A packet of operation n leaves on a path: it takes the next place in the stream's sequence space (R377), and names the number of puts before it, for
R102. -/
def sendPacket (s : State) (n : Nat) (op : FabOp) (path : Nat × Nat) (data : List Byte) (bad : List Nat) (k : Nat) : State :=
  let (s1, x) := openStream s op.team op.dest
  let p : OutPkt := { no := s1.nextPkt, stream := x.id, seq := x.next, op := n, team := op.team, dest := op.dest, rpa := remotePa s (op.rpa + op.sent)
                      data := data, bad := bad, pennant := op.pennant, puts := x.puts, port := path.1, entropy := path.2, sentAt := s.timeFs }
  let one := if op.pennant.isSome then 0 else 1
  let s2 := { s1 with
    pkts := s1.pkts ++ [p]
    nextPkt := s1.nextPkt + 1
    streams := mapWhere (fun y => y.team == op.team && y.dest == op.dest) (fun y => { y with next := y.next + 1, puts := y.puts + one }) s1.streams }
  setFabOp (emitPacket s2 p) n (some { op with sent := op.sent + k, last := some path })

/-- The stream of an operation may have another packet on its way (R380). -/
def streamRoom (s : State) (op : FabOp) : Bool :=
  match streamTo s op.team op.dest with
  | some x =>
    let own := (s.pkts.filter fun p => p.stream == x.id).length
    own < 8192 && (own != 0 || activeStreams s < 65536)
  | none => activeStreams s < 65536

/-- Bytes of an operation's next packet: at most 4,096 (R380); an aligned 8-byte destination word is in one packet, since it is written as a whole
(R237; log 108). -/
def packetLen (op : FabOp) : Nat :=
  let left := op.len - op.sent
  if left ≤ 4096 then left else 4096 - (op.va.toNat + op.sent) % 8

/-- The source range that a packet of k bytes still reads: from behind the bytes read before, to the end of the aligned source word that the packet's end
cuts, so that each aligned word is read once (R237). -/
def packetReads (op : FabOp) (k : Nat) : Nat × Nat :=
  let a := op.src.toNat + op.sent + op.ahead.length
  let e := Nat.min (op.src.toNat + op.len) (roundUp (op.src.toNat + op.sent + k) 4)
  (a, e - a)

/-- FABRIC_PACKET_SEND (R237, R377, R379, R380): the next packet of an operation leaves on the live path whose turn it is. A source that is no longer
readable abandons the put with the cause that the read met (log 109). -/
def execFabricPacketSend (n port en : Nat) (s : State) : Host.Outcome State Fault Refusal :=
  match fabOp s n with
  | none => .next s
  | some op =>
    let t := teamOf s op.team
    if !(sendPaths s op).contains (port, en) || oldestToSend s op.team op.dest != some n || !streamRoom s op then .next s
    else if op.pennant.isSome then .next (sendPacket s n op (port, en) [] [] 1)
    else
      let k := packetLen op
      let (a, m) := packetReads op k
      let x : Source := { agent := .device, at_ := op.at_, view := op.view }
      .next (match readSource s (devEnv s t.ctx true .fabric) x (cutWords m a m) with
        | .wait => s
        | .stop s1 c va tok => abandonOp s1 n c (BitVec.ofNat 64 va) (faultToken s1 (contextOf s1 t.ctx).root va c tok) 0
        | .ok s1 b =>
          let bs := op.ahead ++ b
          let now := bs.take k
          sendPacket s1 n { op with ahead := bs.drop k } (port, en) (now.map (·.1)) (badWords (remotePa s (op.rpa + op.sent)) now) k)

/-- The unacknowledged packet of a number. -/
def outPkt (s : State) (n : Nat) : Option OutPkt := firstWhere (fun p => p.no == n) s.pkts

/-- FABRIC_ACK_RECEIVE (R379, R380): the path of the packet has missed none, and an operation whose packets are all acknowledged is over. -/
def execFabricAckReceive (n : Nat) (s : State) : Host.Outcome State Fault Refusal :=
  match outPkt s n with
  | none => .next s
  | some p =>
    let live := match pathRec s p.dest p.port p.entropy with | some r => !r.dead | none => false
    let s1 := if live then setPath s p.dest p.port p.entropy none else s
    let s2 := { s1 with pkts := s1.pkts.filter fun x => x.no != n }
    match fabOp s2 p.op with
    | none => .next s2
    | some op =>
      let k := op.acked + if p.pennant.isSome then 1 else p.data.length
      let whole := if op.pennant.isSome then 1 else op.len
      .next (if whole ≤ k then settleTeam (setFabOp s2 p.op none) op.team else setFabOp s2 p.op (some { op with acked := k }))

/-- FABRIC_NACK_RECEIVE (R239, R380). -/
def execFabricNackReceive (n : Nat) (s : State) : Host.Outcome State Fault Refusal :=
  match outPkt s n with
  | none => .next s
  | some p => .next (failOp s p.op)

/-- A packet is sent again on a path. -/
def resend (s : State) (p : OutPkt) (path : Nat × Nat) : State :=
  let q := { p with port := path.1, entropy := path.2, resends := p.resends + 1, sentAt := s.timeFs }
  emitPacket { s with pkts := mapWhere (fun x => x.no == p.no) (fun _ => q) s.pkts } q

/-- A packet is sent again: on the path that the event names where it is one of those allowed, else on one that the device chooses (log 1); with no
live path its timer starts again. -/
def resendOn (s : State) (p : OutPkt) (path : Nat × Nat) : State :=
  let l := resendPaths s p
  if l.contains path then resend s p path
  else
    let (s1, c) := chooseFrom s l
    match c with
    | some x => resend s1 p x
    | none => { s1 with pkts := mapWhere (fun x => x.no == p.no) (fun x => { x with sentAt := s.timeFs }) s1.pkts }

/-- FABRIC_RTO_EXPIRY (R103, R239, R379, R380): the packet's path misses an acknowledgement; the packet is sent again on another live path where one
exists, or its operation is abandoned after RLIM re-sends. -/
def execFabricRtoExpiry (n port en : Nat) (s : State) : Host.Outcome State Fault Refusal :=
  match outPkt s n with
  | none => .next s
  | some p =>
    if s.timeFs < p.sentAt + rtoFs s then .next s
    else
      let s1 := if portUp s p.port then missPath s p.dest p.port p.entropy else s
      .next (if retryLimit s ≤ p.resends then failOp s1 p.op else resendOn s1 p (port, en))

/-- UNIT of a port that a report names: one of its eight lanes, which the device gives (R390; log 14). -/
def portUnit (k : Nat) : Nat := unitOf 6 k 0 ((Config.unitOf k).toNat % 8) 0

/-- PORT_LINK_DOWN (R378, R379, R392): every path of the port goes, and each of its packets is sent again at once on a live path, where one exists. -/
def execPortLinkDown (k newPort en : Nat) (s : State) : Host.Outcome State Fault Refusal :=
  let v := (mget 0 s.ctl.fport k).toNat
  if 16 ≤ k || bits v 1 1 = 0 then .next s
  else
    let dead := Nat.min 0xFFFFFFFF (v / 2 ^ 32 + 1)
    let s1 := { s with
      ctl := { s.ctl with fport := mput 0 s.ctl.fport k (BitVec.ofNat 64 (dead * 2 ^ 32 + v % 2 ^ 32 - 2)) }
      paths := s.paths.filter fun p => p.port != k }
    let s2 := logError s1 { cls := 9, unit := portUnit k, detail := dead }
    .next ((s2.pkts.filter fun p => p.port == k).foldl (fun s p => if (resendPaths s p).isEmpty then s else resendOn s p (newPort, en)) s2)

/-- PORT_LINK_UP (R378, R379): the link of an enabled port comes up, and its paths are live. -/
def execPortLinkUp (k : Nat) (s : State) : Host.Outcome State Fault Refusal :=
  let v := mget 0 s.ctl.fport k
  if 16 ≤ k || bits v.toNat 0 1 = 0 then .next s
  else .next { s with ctl := { s.ctl with fport := mput 0 s.ctl.fport k (v ||| 2) } }

/-- PATH_PROBE_TIMER (R379): 1 ms after its death a path is probed, and it is live again when the probe is acknowledged. -/
def execPathProbeTimer (d : BitVec 20) (port en : Nat) (acked : Bool) (s : State) : Host.Outcome State Fault Refusal :=
  match pathRec s d port en with
  | none => .next s
  | some r =>
    if !r.dead || !portUp s port || s.timeFs < r.diedAt + 1000000000000 then .next s
    else
      let s1 := { s with out := .probe d port en :: s.out }
      .next (setPath s1 d port en (if acked then none else some { r with diedAt := s.timeFs }))

/-! ## Receiving -/

/-- An inbound range that takes a sender's write (R358). -/
def inboundOk (s : State) (src : BitVec 20) (pa n : Nat) : Bool :=
  s.ctl.inb.any fun (i, v) =>
    let x := v.toNat
    let base := bits x 94 22 * 2 ^ 30
    i < 256 && bits x 20 1 == 1 && bits x 0 20 == src.toNat && base ≤ pa && pa + n ≤ base + bits x 64 7 * 2 ^ 30

/-- The stream that a packet belongs to. -/
def inStream (s : State) (src : BitVec 20) (n : Nat) : InStream :=
  (firstWhere (fun x => x.src == src && x.stream == n) s.inStreams).getD { src := src, stream := n }

/-- Replaces a received stream. -/
def setStream (s : State) (x : InStream) : State :=
  { s with inStreams := x :: s.inStreams.filter fun y => !(y.src == x.src && y.stream == x.stream) }

/-- A saturating addition to a 64-bit counter. -/
def satAdd (v d : Nat) : Nat := Nat.min (2 ^ 64 - 1) (v + d)

/-- One SerDes lane counts its traffic (R393): by how much is a free value (log 1); UNCW may give a notice (R395). -/
def laneCount (s : State) (port ln : Nat) : State :=
  let i := if port < 16 then 8 * port + ln else 128 + 16 * (port - 16) + ln
  let v := (mget (0 : BitVec 256) s.ctl.lnc i).toNat
  let d (k : Nat) : Nat := (Config.freeWord (s.free + k)).toNat
  let fields := (upto 4).map fun k => satAdd (bits v (64 * k) 64) (d k)
  let w := sumNat (((upto 4).zip fields).map fun (k, x) => x * 2 ^ (64 * k))
  let s1 := { s with free := s.free + 4, ctl := { s.ctl with lnc := mput 0 s.ctl.lnc i (BitVec.ofNat 256 w) } }
  predNotice s1 4 i (unitOf 6 port 0 ln 0) (bits v 128 64) (bits w 128 64) (bits s.ctl.pthr.toNat 48 16)

/-- The lanes of the port that a packet came in on, which the device names. -/
def portTraffic (s : State) : State :=
  let p := Config.freeNat s.free % 16
  (upto 8).foldl (fun s ln => laneCount s p ln) { s with free := s.free + 1 }

/-- The lanes of the PCI Express or CXL port that a request came in on, which the device names. -/
def pxTraffic (s : State) : State :=
  let p := 16 + Config.freeNat s.free % 2
  (upto 16).foldl (fun s ln => laneCount s p ln) { s with free := s.free + 1 }

/-- A put packet is written, with the poison it carries (R237, R409). -/
def writePut (s : State) (p : Packet) : State :=
  p.bad.foldl (fun s w => poisonWord s (8 * (p.pa / 8 + w))) (physWriteBy s { agent := .remote p.src p.stream } p.pa p.data)

/-- A pennant's value is written; an mwait that observes it acquires the stream's earlier puts at fabric scope (R99, R102). -/
def writePennant (s : State) (p : Packet) (v : W64) : State :=
  let me : Agent := .remote p.src p.stream
  physWriteBy s { agent := me, rel := [{ scope := 5, agent := me, view := ({} : View).plus me s.writes, wait := true }] } p.pa
    (toBytes 8 (Nat.max (physNum s p.pa 8) v.toNat))

/-- FABRIC_PACKET_RECEIVE (R102, R358, R380, R393): a packet outside the inbound ranges is refused, a duplicate is acknowledged again, a put is
written, a pennant waits to be applied. -/
def execFabricPacketReceive (p : Packet) (s : State) : Host.Outcome State Fault Refusal :=
  let s1 := portTraffic s
  let n := if p.pennant.isSome then 8 else p.data.length
  let st := inStream s1 p.src p.stream
  let say (s : State) (m : Message) : State := { s with out := m :: s.out }
  if !inboundOk s1 p.src p.pa n then .next (say s1 (.nack p.src p.stream p.seq))
  else if st.held.any fun q => q.seq == p.seq then .next s1
  else if st.seen.contains p.seq then .next (say s1 (.ack p.src p.stream p.seq))
  else
    let st1 := { st with seen := p.seq :: st.seen }
    match p.pennant with
    | some _ => .next (setStream s1 { st1 with held := st.held ++ [p] })
    | none => .next (say (setStream (writePut s1 p) { st1 with written := p.seq :: st.written }) (.ack p.src p.stream p.seq))

/-- Every held pennant, with its stream. -/
def heldPennants (s : State) : List (InStream × Packet) := s.inStreams.flatMap fun x => x.held.map fun p => (x, p)

/-- PENNANT_APPLY (R102, R238, R380): once every earlier put of the stream has been written, the location takes the greater value; an earlier pennant may
come later. -/
def execPennantApply (i : Nat) (s : State) : Host.Outcome State Fault Refusal :=
  match (heldPennants s)[i]? with
  | none => .next s
  | some (x, p) =>
    match p.pennant with
    | none => .next s
    | some v =>
      if p.puts ≤ (x.written.filter fun q => decide (q < p.seq)).length then
        let s2 := setStream (writePennant s p v) { x with held := x.held.filter fun q => q.seq != p.seq }
        .next { s2 with out := .ack p.src p.stream p.seq :: s2.out }
      else .next s

/-! ## Status notices -/

/-- The distinct endpoints that VALID windows and inbound ranges name (R373). -/
def namedPeers (s : State) : List (BitVec 20) :=
  let pick (m : SMap (BitVec 128)) : List (BitVec 20) := m.filterMap fun (_, v) => if bits v.toNat 20 1 = 1 then some (v.setWidth 20) else none
  distinct (pick s.ctl.win ++ pick s.ctl.inb)

/-- SELFST takes a value; a change of state is announced (R373). -/
def putSelfst (s : State) (v : W32) : State :=
  let s1 := { s with ctl := { s.ctl with selfst := v &&& 3 } }
  if v &&& 3 = s.ctl.selfst &&& 3 then s1
  else
    let es := namedPeers s1
    { s1 with
      noticeSeq := s.noticeSeq + 1
      noticesOut := s1.noticesOut ++ es.map fun e => (e, s.noticeSeq + 1, v.setWidth 2, s.timeFs)
      out := (es.map fun e => Message.notice e (s.noticeSeq + 1) (v.setWidth 2)) ++ s.out }

/-- SELFST_WRITE (R372, R373). -/
def execSelfstWrite (v : W32) (s : State) : Host.Outcome State Fault Refusal := .next (putSelfst s v)

/-- A receiver has acknowledged a notice: one of those sent to it, as it chose (log 1). -/
def noticeAcked (s : State) (e : BitVec 20) : State :=
  let (s1, n) := chooseFrom s (s.noticesOut.filter fun n => n.1 == e)
  { s1 with noticesOut := s1.noticesOut.filter fun x => some x != n }

/-- STATUS_NOTICE_RESEND (R373): acknowledged notices are sent no more; each other is sent again every RTO. -/
def execStatusNoticeResend (acked : List (BitVec 20)) (s : State) : Host.Outcome State Fault Refusal :=
  let s1 := acked.foldl noticeAcked s
  let due (n : BitVec 20 × BitVec 8 × BitVec 2 × Nat) : Bool := n.2.2.2 + rtoFs s1 ≤ s1.timeFs
  .next { s1 with
    noticesOut := s1.noticesOut.map fun n => if due n then (n.1, n.2.1, n.2.2.1, s1.timeFs) else n
    out := ((s1.noticesOut.filter due).map fun n => Message.notice n.1 n.2.1 n.2.2.1) ++ s1.out }

/-- STATUS_NOTICE_RECEIVE (R373): a notice is applied in sequence; the model acknowledges each one that comes, also one that is not applied (log 98). -/
def execStatusNoticeReceive (e : BitVec 20) (seq : BitVec 8) (st : BitVec 2) (s : State) : Host.Outcome State Fault Refusal :=
  let at_ := s.ctl.pstb.toNat + 8 * e.toNat
  let old := physNum s at_ 8
  let d := (seq - BitVec.ofNat 8 (old / 2 ^ 8)).toNat
  let s := { s with out := .noticeAck e seq :: s.out }
  if s.ctl.pstb = 0 || d < 1 || 127 < d then .next s
  else
    let leaves := (old % 4 = 1 || old % 4 = 2) && old % 4 != st.toNat
    let low := old % 2 ^ 8 / 4 * 4 + st.toNat + seq.toNat * 2 ^ 8
    let left := if leaves then timeNs s / 1000 % 2 ^ 48 else old / 2 ^ 16
    .next (physPut s at_ 8 (low + left * 2 ^ 16))

end Sys2Proof.Machine
end

