-- ==== Sys2Proof/Machine/Debug.lean ====
section
/-!
DEFINITION. The debugger's operations (R361 to R369), samples (R371), stall reasons (R400) and the wait watchdog (R374 to R376).
-/

namespace Sys2Proof.Machine

/-! ## Targets -/

/-- SCOPE and the names of a debug operation (R361). -/
structure Target where
  scope : Nat
  ctx : Nat
  launch : W32
  l : Nat
  g : Nat
deriving DecidableEq, Repr

/-- The target that DBGL, DBGT and a DBGOP value name. -/
def targetOf (s : State) (op : W32) : Target :=
  { scope := bits op.toNat 8 2, ctx := bits s.ctl.dbgl.toNat 32 6, launch := s.ctl.dbgl.setWidth 32, l := bits s.ctl.dbgt.toNat 0 32
    g := bits s.ctl.dbgt.toNat 32 8 }

/-- A group or keystone context lies within the scope; a scope of one group names no keystone context (R361, R363). -/
def Target.covers (x : Target) (s : State) (g : Group) : Bool :=
  let t := teamOf s g.team
  x.scope == 3 || (t.ctx == x.ctx && t.launch == x.launch && (x.scope == 2 || (t.l == x.l && (x.scope == 1 || (g.key.isNone && g.idx == x.g)))))

/-- It belongs to a DEBUG launch (R362). -/
def inDebug (s : State) (g : Group) : Bool := isDebug s (teamLaunch s (teamOf s g.team))

/-- A debug operation is over with a RESULT (R361). -/
def dbgDone (s : State) (r : Nat) : State := { s with ctl := { s.ctl with dbgResult := r } }

/-- DBGST.BUSY: the image of a FREEZE is not complete, or the halyard of a keystone context that a HALT stopped is not written (R361, R363, R367). -/
def dbgBusy (s : State) : Bool :=
  (s.vault.any fun (_, v) => match v with | some i => i.cause == 0x42 && !i.complete | none => false)
    || s.groups.any fun g => match g.keyHalt with | some (c, _) => c == 0x42 | none => false

/-- A write of DBGOP: ignored while BUSY, RESULT 1 for reserved bits (R361). -/
def dbgOp (s : State) (op : W32) (f : Target → State) : State :=
  if dbgBusy s then s
  else if op.toNat / 2 ^ 10 != 0 || s.ctl.dbgl.toNat / 2 ^ 38 != 0 || s.ctl.dbgt.toNat / 2 ^ 40 != 0 then dbgDone s 1
  else f (targetOf s op)

/-! ## HALT and RESUME -/

/-- One resident target halts (R364, R367); of a group that is halted, the paths that run do. -/
def haltOne (s : State) (w : Who) : State :=
  match findGroup s w with
  | some g =>
    if g.key.isSome then (if g.dbgHalt then s else haltKey s w 0x42 0)
    else deliver (modGroup s w (haltGroup s.timeFs)) w
  | none => s

/-- HALT (R363, R364): targets that are away take the halt when they are back. -/
def runHalt (s : State) (x : Target) : State :=
  let p (g : Group) : Bool := x.covers s g && inDebug s g
  let here := s.groups.filter p
  let away := (imagedGroups s ++ savedGroups s).any p
  let other := (s.groups ++ imagedGroups s ++ savedGroups s).any (x.covers s)
  if here.isEmpty && !away then dbgDone s (if other || x.scope = 3 then 1 else 2)
  else dbgDone (here.foldl (fun s g => haltOne s g.who) (modAway s p fun g => if g.dbgHalt then g else { g with haltDue := true })) 0

/-- HALT_OP (R364). -/
def execHaltOp (op : W32) (s : State) : Host.Outcome State Fault Refusal := .next (dbgOp s op (runHalt s))

/-- The waits of a halted group have not aged since it halted, or since they began, if that was later (R374). -/
def resumeWaits (now : Nat) (g : Group) : Group :=
  { g with waits := g.waits.map fun w => { w with since := w.since + (now - Nat.max w.since g.haltAt) } }

/-- The halt of a group ends: 0x42 sub-groups that were not delivered run, each as its own path (R369); its waits have not aged since the halt, up to
`now`, which of a group that is away is the time at which it left (R374). -/
def resumeGroup (now : Nat) (g : Group) : Group :=
  let wake := g.subs.filter fun u => u.cause == 0x42 && !u.delivered
  let g1 := { (if g.dbgHalt then resumeWaits now g else g) with dbgHalt := false, haltDue := false, subs := g.subs.filter fun u => !(u.cause == 0x42 && !u.delivered) }
  wake.foldl (fun g u => { g.modLanes u.lanes (fun _ x => { x with st := .running, tag := g.nextTag }) with nextTag := g.nextTag + 1 }) g1

/-- A keystone context as its halyard's RW fields give it (R367). -/
def reloadKey (g : Group) (b : List Byte) : Group :=
  let regs := (upto 128).foldl (fun m r => mput {} m r { shape := .u (BitVec.ofNat 32 (fieldOf b (4 * r) 4)) }) g.regs
  let masks := fieldOf b 0x210 4
  let g1 := { g with
    regs := regs
    masks := (upto 16).map fun i => BitVec.ofNat 32 (if i = 0 then 1 else bits masks i 1)
    fpcr := fpcrWrite g.fpcr (BitVec.ofNat 32 (fieldOf b 0x214 4))
    fpflags := BitVec.ofNat 32 (fieldOf b 0x218 4 % 32) }
  g1.modLanes 1 fun _ x => { x with
    depth := fieldOf b 0x20C 4, gen := BitVec.ofNat 32 (fieldOf b 0x21C 4), pc := BitVec.ofNat 64 (fieldOf b 0x228 8 / 4 * 4) }

/-- A keystone context's halt ends, and its fields are read from its halyard, where its state was written (R367); what failed the read ends its launch
(R362). -/
def reloaded (s : State) (now : Nat) (g : Group) : State × Except Nat Group :=
  let t := teamOf s g.team
  let go (g : Group) : Group := { (if g.dbgHalt then resumeWaits now g else g) with dbgHalt := false, haltDue := false, keyHalt := none }
  match (if g.dbgHalt && g.keyHalt.isNone then halyardAddr s t g else none) with
  | none => (s, .ok (go g))
  | some a => match readAt s (devEnv s t.ctx false) .read a 0x230 with
    | (s1, .ok b) => (s1, .ok (go (reloadKey g b)))
    | (s1, .error (c, _)) => (s1, .error c)

/-- A halted keystone context goes on at PC (R367); a halyard that cannot be read ends the launch (R362). -/
def resumeKey (s : State) (w : Who) : State :=
  match findGroup s w with
  | none => s
  | some g => match reloaded s s.timeFs g with
    | (s1, .ok x) => setGroup s1 x
    | (s1, .error c) => failLaunch s1 (teamOf s g.team) (BitVec.ofNat 8 c) (fwhoOf (teamOf s g.team) g)

/-- The groups that are away, each with the time at which it left. -/
def awayAt (s : State) : List (Nat × Group) :=
  (s.vault.flatMap fun (_, v) => match v with | some i => i.groups.map fun g => (i.time, g) | none => [])
    ++ s.saved.flatMap fun x => x.groups.map fun g => (x.time, g)

/-- The halt of a group or keystone context that is away ends (R367, R369). -/
def resumeAway (s : State) (x : Nat × Group) : State :=
  let g := x.2
  let put (s : State) (h : Group) : State := modAway s (fun y => decide (y.who = g.who)) fun _ => h
  if g.key.isNone then put s (resumeGroup x.1 g)
  else match reloaded s x.1 g with
    | (s1, .ok h) => put s1 h
    | (s1, .error c) => failLaunch s1 (teamOf s g.team) (BitVec.ofNat 8 c) (fwhoOf (teamOf s g.team) g)

/-- RESUME (R369): RESULT 4 when no target is halted. -/
def runResume (s : State) (x : Target) : State :=
  let p (g : Group) : Bool := x.covers s g && inDebug s g
  let all := s.groups ++ imagedGroups s ++ savedGroups s
  let halted (g : Group) : Bool := p g && (g.dbgHalt || g.haltDue)
  if !all.any p then dbgDone s (if all.any (x.covers s) || x.scope = 3 then 1 else 2)
  else if !all.any halted then dbgDone s 4
  else
    let s1 := ((awayAt s).filter fun y => halted y.2).foldl resumeAway s
    dbgDone ((s.groups.filter halted).foldl (fun s g => if g.key.isSome then resumeKey s g.who else modGroup s g.who (resumeGroup s.timeFs)) s1) 0

/-- RESUME (R369). -/
def execResume (op : W32) (s : State) : Host.Outcome State Fault Refusal := .next (dbgOp s op (runResume s))

/-! ## FREEZE and THAW -/

/-- Every tile of the package. -/
abbrev nTiles : Nat := 5 * Config.nClusters

/-- The tiles that a FREEZE acts on (R363). -/
def freezeTiles (s : State) (x : Target) : List Nat :=
  if x.scope = 3 then upto nTiles else distinct ((s.groups.filter (x.covers s)).map (groupTile s))

/-- FREEZE (R363): every tile has a free slot, or nothing is frozen; a tile whose clock a forced freeze has stopped is held without an image of its
own. -/
def runFreeze (s : State) (x : Target) : State :=
  let tiles := (freezeTiles s x).filter fun i => !(coreOf s i).dbgFrozen
  let clear := tiles.filter fun i => (coreOf s i).frozen.isNone
  if tiles.isEmpty && x.scope != 3 then dbgDone s (if (savedGroups s).any (x.covers s) || !(imagedGroups s).any (x.covers s) then 2 else 0)
  else if clear.any fun i => (freeSlot s i).isNone then dbgDone s 3
  else
    let s1 := clear.foldl (fun s i => freezeTile s i 0x42 false) s
    let s2 := tiles.foldl (fun s i => modCore s i fun c => { c with dbgFrozen := true }) s1
    dbgDone (if x.scope = 3 then putSelfst s2 1 else s2) 0

/-- FREEZE (R363). -/
def execFreeze (op : W32) (s : State) : Host.Outcome State Fault Refusal := .next (dbgOp s op (runFreeze s))

/-- The slot of the image that a FREEZE made of a tile. -/
def frozenSlot (s : State) (tile : Nat) : Option (Nat × Image) :=
  (s.vault.filterMap fun (k, v) => match v with
    | some i => if i.tile = tile && i.cause = 0x42 && !i.exported then some (k, i) else none
    | none => none).head?

/-- The tiles that a THAW acts on (R363). -/
def thawTiles (s : State) (x : Target) : List Nat :=
  (upto nTiles).filter fun i => (coreOf s i).dbgFrozen && (x.scope == 3 || match frozenSlot s i with
    | some (_, m) => m.groups.any (x.covers s)
    | none => false)

/-- One tile thaws: its image is restored under the checks of R328; without an image the tile is only let go. Answers the RESULT. -/
def thawTile (s : State) (tile : Nat) : State × Nat :=
  match frozenSlot s tile with
  | none => (modCore s tile fun c => { c with dbgFrozen := false }, 0)
  | some (k, i) => if slotCheck s k tile = 0 then (restoreSlot s k tile i, 0) else (s, 1)

/-- THAW (R363): an image that R328's checks refuse stays, with RESULT 1. -/
def runThaw (s : State) (x : Target) : State :=
  let tiles := thawTiles s x
  if tiles.isEmpty && x.scope != 3 then dbgDone s 2
  else
    let r := tiles.foldl (fun (a : State × Nat) i => let (s1, n) := thawTile a.1 i; (s1, Nat.max a.2 n)) (s, 0)
    dbgDone (if x.scope = 3 then putSelfst r.1 2 else r.1) r.2

/-- THAW (R363). -/
def execThaw (op : W32) (s : State) : Host.Outcome State Fault Refusal := .next (dbgOp s op (runThaw s))

/-! ## The doorbell -/

/-- The group of a DEBUG launch that a halyard index names (R361, R362); a group that executes halt in any other launch has no halyard, and the spec does
not say what would resume it: in the model nothing does (log 91). -/
def halyardGroup (s : State) (c i : Nat) : Option Group :=
  s.groups.find? fun g =>
    let t := teamOf s g.team
    let l := teamLaunch s t
    g.key.isNone && t.ctx == c && isDebug s l && t.l * groupCount l.krec + g.idx == i

/-- The index names a keystone context of a DEBUG launch (R361). -/
def halyardKey (s : State) (c i : Nat) : Bool :=
  s.launches.any fun l => l.ctx == c && isDebug s l && l.lrec.gx * l.lrec.gy * l.lrec.gz * groupCount l.krec ≤ i

/-- HALYARD_DOORBELL (R366). -/
def execHalyardDoorbell (v : BitVec 64) (s : State) : Host.Outcome State Fault Refusal :=
  let c := bits v.toNat 32 6
  let i := bits v.toNat 0 32
  match halyardGroup s c i with
  | some g => .next (modGroup s g.who fun g => if g.halted then { g with halted := false } else { g with bell := true })
  | none => .next (if halyardKey s c i then s else dbgDone s 2)

/-! ## Samples -/

/-- The sample ring is configured and has room (R303, R371). -/
def sampleRoom (s : State) : Bool :=
  let n := s.ctl.smpc.toNat % 32
  s.ctl.smpb != 0 && 6 ≤ n && n ≤ 20 && ringUsed s.ctl.smph s.ctl.smpt < 2 ^ n

/-- A group issued in the cycle that is sampled: the one that has ended, or the present one (R371). -/
def issuedNow (s : State) (g : Group) : Bool := g.lastIssue != 0 && s.cycle ≤ g.lastIssue

/-- What a sample says of a group: the reason or 15, the lane, its program counter (R371). -/
def sampleOf (s : State) (g : Group) : Nat × Lane × W64 :=
  if issuedNow s g && g.lastPath != 0 then (15, g.lane (lowestLane g.lastPath), g.lastPc)
  else let x := g.lane (lowestLane g.live); (g.lastStall, x, x.pc)

/-- A sample record (R371). -/
def sampleBytes (s : State) (tile : Nat) (g : Group) : List Byte :=
  let t := teamOf s g.team
  let (code, x, pc) := sampleOf s g
  toBytes 4 (code + t.ctx * 2 ^ 4 + tile * 2 ^ 10) ++ toBytes 4 t.launch.toNat ++ toBytes 4 t.l ++ toBytes 4 x.tid.toNat
    ++ toBytes 8 (s.cycle - 1) ++ toBytes 8 pc.toNat

/-- A sample record is written, or dropped when the ring is full (R371). -/
def takeSample (s : State) (tile : Nat) (g : Group) : State :=
  if sampleRoom s then
    let s1 := physWrite s (s.ctl.smpb.toNat + 32 * (s.ctl.smpt.toNat % 2 ^ (s.ctl.smpc.toNat % 32))) (sampleBytes s tile g)
    { s1 with ctl := { s1.ctl with smpt := s1.ctl.smpt + 1 } }
  else s

/-- SAMPLE_TIMER (R371): every INTERVAL × 1,024 cycles, the groups of a vector core in turn. -/
def execSampleTimer (tile : Nat) (s : State) : Host.Outcome State Fault Refusal :=
  let n := bits s.ctl.smpc.toNat 8 16
  let c := coreOf s tile
  if nTiles ≤ tile || tile % 5 = 4 || n = 0 || s.cycle < c.sampleAt + 1024 * n then .next s
  else
    let gs := coreGroups s tile
    let i := (c.sampled + 1) % Nat.max 1 gs.length
    let s1 := modCore s tile fun c => { c with sampleAt := s.cycle, sampled := i }
    .next (match gs[i]? with
      | some g => takeSample s1 tile g
      | none => s1)

/-! ## The watchdog -/

/-- Waits that the watchdog watches (R374). -/
def WaitKind.watched : WaitKind → Bool
  | .mwait | .barTeam | .barRole | .musHold | .twait | .qget | .qput | .bqh | .mbq | .copyq => true
  | _ => false

/-- Age of a wait in ms (R374). -/
def waitAge (s : State) (w : Wait) : Nat := (s.timeFs - w.since) / 1000000000000

/-- What the status of a team's peers says (R375): a peer suspends the watchdog; the end of the grace in µs. -/
def peerGrace (s : State) (t : Team) : Bool × Nat :=
  let grace := bits s.ctl.wdctl.toNat 16 16 * 1000
  (teamLaunch s t).lrec.peers.foldl (fun a e =>
    if !e.getLsbD 23 || e.setWidth 20 == s.ctl.fepid.setWidth 20 then a
    else
      let v := if s.ctl.pstb = 0 then 0 else physNum s (s.ctl.pstb.toNat + 8 * (e.setWidth 20).toNat) 8
      if v % 4 = 1 || v % 4 = 2 then (true, a.2) else (a.1, Nat.max a.2 (v / 2 ^ 16 + grace))) (false, 0)

/-- The wait is to be declared hung (R374, R375). -/
def hangDue (s : State) (g : Group) (w : Wait) : Bool :=
  let limit := s.ctl.wdctl.toNat % 2 ^ 16
  let (suspended, until_) := peerGrace s (teamOf s g.team)
  w.kind.watched && !w.declared && heldAt g w && !g.dbgHalt && limit != 0 && limit ≤ waitAge s w && !suspended && until_ ≤ timeNs s / 1000

/-- A hang record (R376). -/
def hangRecord (s : State) (g : Group) (w : Wait) : BitVec 256 :=
  let t := teamOf s g.team
  let addr := match w.kind with | .mwait | .musHold => w.addr.toNat | _ => 0
  let who := (if g.key.isSome then 2 ^ 8 else g.idx) + t.ctx * 2 ^ 9 + w.major * 2 ^ 16
  BitVec.ofNat 256 (Nat.min 0xFFFFFFFF (waitAge s w) + t.launch.toNat * 2 ^ 32 + t.l * 2 ^ 64 + who * 2 ^ 96 + addr * 2 ^ 128 + w.pc.toNat * 2 ^ 192)

/-- A record goes to the lowest HANG(i) that is not valid, or OVF is set; the watchdog's interrupt is raised (R376). -/
def putHang (s : State) (r : BitVec 256) : State :=
  let st := s.ctl.hangst
  let ctl := match (upto 16).find? fun i => !st.getLsbD i with
    | some i => { s.ctl with hangst := st ||| BitVec.ofNat 32 (2 ^ i), hang := mput 0 s.ctl.hang i r }
    | none => { s.ctl with hangst := st ||| BitVec.ofNat 32 (2 ^ 16) }
  raiseIrq { s with ctl := ctl } 3

/-- WATCHDOG_HANG_DECLARE (R375, R376): with KILL set, the launch ends. -/
def execWatchdogHangDeclare (who : Who) (s : State) : Host.Outcome State Fault Refusal :=
  match findGroup s who with
  | none => .next s
  | some g =>
    match g.waits.find? (hangDue s g) with
    | none => .next s
    | some w =>
      let mark (x : Wait) : Wait := if x = w then { x with declared := true } else x
      let s1 := putHang (modGroup s who fun g => { g with waits := g.waits.map mark }) (hangRecord s g w)
      let t := teamOf s g.team
      .next (if s.ctl.wdctl.getLsbD 32 then killLaunch s1 t.ctx t.launch 0 (BitVec.ofNat 32 t.l) (fwhoOf t g) else s1)

end Sys2Proof.Machine
end

