-- ==== Sys2Proof/Machine/MemoryUnit.lean ====
section
/-!
DEFINITION. Memory commands (R338 to R340, R343, R348 to R351, R357, R359, R360), the zero engine (R344), the fault ring and the notification queue
(R341, R342, R347), attached extents (R356, R357), and the accesses of host cores and of peers (R335, R381, R382).
-/

namespace Sys2Proof.Machine

/-! ## Commands -/

/-- A memory command is over with a RESULT (R338). -/
def mcmdDone (s : State) (r : Nat) : State := { s with ctl := { s.ctl with mcmdResult := r, mcmdBusy := false } }

/-- A memory command goes on. -/
def mcmdWait (s : State) : State := { s with ctl := { s.ctl with mcmdBusy := true } }

/-- MARG0 and MARG1. -/
def margs (s : State) : Nat × Nat := (s.ctl.marg0.toNat, s.ctl.marg1.toNat)

/-- A command runs unless one is under way (R338). -/
def mcmd (s : State) (f : State → State) : Host.Outcome State Fault Refusal := .next (if s.ctl.mcmdBusy then s else f s)

/-- The range that INVAL and REPLAY name (R339). -/
def rangeArgs (s : State) : Inval :=
  let (a, b) := margs s
  { asid := BitVec.ofNat 16 b, anyAsid := bits b 16 1 == 1, whole := bits b 17 1 == 1, page := a / 4096, npg := bits b 20 28 }

/-- The address space is covered. -/
def Inval.hasAsid (r : Inval) (a : BitVec 16) : Bool := r.anyAsid || r.asid == a

/-- Pages n to n + k - 1 meet the range. -/
def Inval.meets (r : Inval) (n k : Nat) : Bool := r.whole || (r.page < n + k && n < r.page + r.npg)

/-- A cached leaf that the range covers (R337, R340): a global one only by the whole address space; a group of the 64 KiB hint goes whole. -/
def Inval.dropsLeaf (r : Inval) (e : TlbEntry) : Bool :=
  let k := if leafBit e.leaf.toNat 56 then 16 else 512 ^ e.level
  let n := e.page * 512 ^ e.level / k * k
  if e.global then r.whole else r.hasAsid e.asid && r.meets n k

/-- A held pointer entry that the range covers (R340): its prefix holds address bits 47 and below. -/
def Inval.dropsPtr (r : Inval) (p : PtrEntry) : Bool :=
  r.hasAsid p.asid && { r with page := r.page % 2 ^ 36 }.meets (p.prefix_ * 512 ^ (p.level + 1)) (512 ^ (p.level + 1))

/-- Bytes at an address were translated through a leaf that the range covers (R340): a global one only by the whole address space. -/
def Inval.coversLeaf (r : Inval) (asid : BitVec 16) (leaf va n : Nat) : Bool :=
  if leafBit leaf 5 then r.whole else r.hasAsid asid && r.meets (va / 4096) ((va % 4096 + n - 1) / 4096 + 1)

/-- Some of the places of an access of a team was translated in the range. -/
def spotsIn (s : State) (r : Inval) (team : Nat) (l : List Spot) : Bool :=
  l.any fun x => match x with
    | .mem va n t _ => r.coversLeaf (contextOf s (teamOf s team).ctx).asid t.leaf va n
    | .pad _ _ _ => false

/-- Gated lines of the range are marked stale (R340). -/
def staleGate (s : State) (r : Inval) (g : Group) : Group :=
  let asid := (contextOf s (teamOf s g.team).ctx).asid
  let mark (l : GateLine) : GateLine := if !l.pad && r.coversLeaf asid l.leaf.toNat l.line.toNat 128 then { l with stale := true } else l
  { g with region := g.region.map fun x => { x with gate := x.gate.map mark } }

/-- Loads of a group that is away, still to be performed, are marked stale where they use the range (R101, R340; log 110). -/
def staleLoads (s : State) (r : Inval) (g : Group) : Group :=
  let mark (x : LateRead) : LateRead := if spotsIn s r g.team x.spots then { x with stale := true } else x
  { g with pend := g.pend.map fun p => { p with load := p.load.map fun ld => { ld with reads := ld.reads.map mark } } }

/-- Held stores of an image are marked stale where they use the range (R340). -/
def staleStores (s : State) (r : Inval) (c : Core) : Core :=
  { c with stores := c.stores.map fun h => if spotsIn s r (whoTeam h.who) h.spots then { h with stale := true } else h }

/-- What an image holds for after its restore is marked stale (R101, R340). -/
def staleImage (s : State) (r : Inval) (i : Image) : Image := { i with groups := i.groups.map (staleLoads s r), core := staleStores s r i.core }

/-- What is away and will be performed later is marked stale: images may come to be while the INVAL waits (R340). -/
def staleAway (s : State) (r : Inval) : State :=
  { s with
    saved := s.saved.map fun x => { x with groups := x.groups.map (staleLoads s r) }
    vault := s.vault.map fun (k, v) => (k, v.map (staleImage s r))
    imagesOut := s.imagesOut.map (staleImage s r) }

/-- INVAL's effect on what the package holds (R340): host cores are not covered. -/
def invalidate (s : State) (r : Inval) : State :=
  let gates (i : Image) : Image := { i with groups := i.groups.map (staleGate s r) }
  staleAway { s with
    tlb := s.tlb.filter fun e => e.tlb == .own .host || !r.dropsLeaf e
    ptrs := s.ptrs.filter fun p => p.walker == .host || !r.dropsPtr p
    groups := s.groups.map (staleGate s r)
    saved := s.saved.map fun x => { x with groups := x.groups.map (staleGate s r) }
    vault := s.vault.map fun (k, v) => (k, v.map gates)
    imagesOut := s.imagesOut.map gates } r

/-- A port trained in PCI Express mode: peers may hold translations (R340, R381, R382). -/
def peersHold (s : State) : Bool := s.ctl.pxTrained.any fun (_, v) => v.toNat % 4 == 1

/-- A put or pennant whose destination was translated in the range, and that is not performed (R340). -/
def usesRange (s : State) (r : Inval) (op : FabOp) : Bool :=
  r.hasAsid (contextOf s (teamOf s op.team).ctx).asid && r.meets (op.va.toNat / 4096) ((op.va.toNat % 4096 + op.len + 8) / 4096 + 1)

/-- A pending load of a group reads places of the range (R340). -/
def loadsIn (s : State) (r : Inval) (g : Group) : Bool :=
  g.pend.any fun p => !p.complete && match p.load with
    | some ld => ld.reads.any fun x => !x.stale && spotsIn s r g.team x.spots
    | none => false

/-- Accesses that used a translation of the range are still to be performed: puts and pennants, stores in the cores, pending loads (R340). -/
def rangeBusy (s : State) (r : Inval) : Bool :=
  (s.fabOps.any fun (_, x) => match x with | some op => usesRange s r op | none => false)
    || (s.cores.any fun (_, c) => c.stores.any fun h => !h.stale && spotsIn s r (whoTeam h.who) h.spots)
    || s.groups.any (loadsIn s r)

/-- The outstanding INVAL completes: the peers have answered, and every access that used a translation of the range is performed (R340). -/
def settleInval (s : State) : State :=
  match s.inval with
  | none => s
  | some r => if r.peers || rangeBusy s r then staleAway s r else mcmdDone { staleAway s r with inval := none } 0

/-- INVAL (R339, R340): it waits for the peers' completions, and for the accesses that use the range. -/
def runInval (s : State) : State :=
  let (a, b) := margs s
  let r := rangeArgs s
  if a % 4096 != 0 || bits b 18 2 != 0 || bits b 48 16 != 0 then mcmdDone s 1
  else
    settleInval (mcmdWait { invalidate s r with inval := some { r with peers := peersHold s } })

/-- INVAL (R340). -/
def execInval (s : State) : Host.Outcome State Fault Refusal := mcmd s runInval

/-- ATS_INVALIDATION_COMPLETION (R340). -/
def execAtsInvalidationCompletion (s : State) : Host.Outcome State Fault Refusal :=
  .next (settleInval { s with inval := s.inval.map fun r => { r with peers := false } })

/-- REPLAY (R339, R343). -/
def runReplay (s : State) : State :=
  let (a, b) := margs s
  let r := rangeArgs s
  let quarry := bits b 18 1 == 1
  if (!quarry && a % 4096 != 0) || bits b 19 1 != 0 || bits b 48 16 != 0 then mcmdDone s 1
  else
    let p (e : WaitEntry) : Bool := r.hasAsid e.asid &&
      (if quarry then e.quarry && e.token == BitVec.ofNat 64 (a % 2 ^ 32) else !e.quarry && r.meets (e.token.toNat / 4096) 1)
    mcmdDone ((upto (5 * Config.nClusters)).foldl (fun s tile => releaseWaits s tile p) s) 0

/-- REPLAY (R343). -/
def execReplay (s : State) : Host.Outcome State Fault Refusal := mcmd s runReplay

/-! ## Swap pairs -/

/-- Bytes of a swap's frames. -/
def swapBytes (w : Swap) : Nat := if w.big then 65536 else 4096

/-- A frame of n bytes belongs to a swap entry that is not FREE. -/
def inSwap (s : State) (pa n : Nat) : Bool :=
  s.swaps.any fun (_, w) => w.state != 0 && (overlap pa n w.x (swapBytes w) || overlap pa n w.y (swapBytes w))

/-- SWAP (R348). -/
def runSwap (s : State) : State :=
  let (x, b) := margs s
  let i := b % 64
  let w : Swap := { x := x, y := b / 128 * 128, state := 1, big := bits b 6 1 == 1 }
  let n := swapBytes w
  if (mget {} s.swaps i).state != 0 then mcmdDone s 2
  else if nearEnd < x + n || w.y < farBase || farEnd < w.y + n || x % n != 0 || w.y % n != 0 then mcmdDone s 3
  else if inSwap s x n || inSwap s w.y n then mcmdDone s 2
  else mcmdDone { s with swaps := mput {} s.swaps i w } 0

/-- SWAP (R348). -/
def execSwap (s : State) : Host.Outcome State Fault Refusal := mcmd s runSwap

/-- An address with lines X and Y exchanged. -/
def crossLine (x y a : Nat) : Nat :=
  if x ≤ a && a < x + 128 then y + (a - x) else if y ≤ a && a < y + 128 then x + (a - y) else a

/-- A record of a past write, cut at lines, with two lines exchanged. -/
def crossPast (x y : Nat) (p : Past) : List Past :=
  if touches x 128 p || touches y 128 p then
    (linesOf p.pa p.old.length).map fun (a, n) => { p with pa := crossLine x y a, old := (p.old.drop (a - p.pa)).take n }
  else [p]

/-- What the orders of the agents name by physical address goes where the addresses go; what has no new address is forgotten. -/
def moveOrders (s : State) (go : Nat → Option Nat) : State :=
  { s with orders := s.orders.map fun (a, o) => (a, { o with
      saw := o.saw.filterMap fun (k, n) => (go k).map (·, n)
      lines := o.lines.filterMap fun (l, x) => (go (128 * l)).map fun k => (k / 128, x) }) }

/-- Lines X and Y are exchanged with their poison (R350); older values, and what the agents have seen and refreshed, go with them. -/
def exchange (s : State) (x0 y0 : Nat) : State :=
  let x := routeAlias s x0
  let y := routeAlias s y0
  let bx := (span x 128).map (mget 0 s.mem)
  let byt := (span y 128).map (mget 0 s.mem)
  { moveOrders s (fun a => some (crossLine x y a)) with
    mem := memPut (memPut s.mem x byt) y bx
    poison := s.poison.map fun w => crossLine x y (8 * w) / 8
    past := s.past.flatMap (crossPast x y) }

/-- SWAP_LINE_EXCHANGE (R350): after the last line SWAPDONE is to be posted. -/
def execSwapLineExchange (i j : Nat) (s : State) : Host.Outcome State Fault Refusal :=
  let w := mget {} s.swaps i
  let lines := swapBytes w / 128
  if w.state != 1 || lines ≤ j || w.prog.contains j then .next s
  else
    let bad := poisonedAt s (w.x + 128 * j) 128 || poisonedAt s (w.y + 128 * j) 128
    let w1 := { w with prog := j :: w.prog, err := w.err || bad }
    let s1 := exchange { s with swaps := mput {} s.swaps i w1 } (w.x + 128 * j) (w.y + 128 * j)
    .next (if w1.prog.length = lines then
      { s1 with noticeQ := s1.noticeQ ++ [{ kind := 2, err := w1.err, arg := BitVec.ofNat 32 i, pa := BitVec.ofNat 64 w.x }] } else s1)

/-- SWAPFREE (R349). -/
def runSwapfree (s : State) : State :=
  let (a, b) := margs s
  if 64 ≤ a || b != 0 then mcmdDone s 1
  else if (mget {} s.swaps a).state = 1 then mcmdDone s 2
  else mcmdDone { s with swaps := mput {} s.swaps a {} } 0

/-- SWAPFREE (R349). -/
def execSwapfree (s : State) : Host.Outcome State Fault Refusal := mcmd s runSwapfree

/-! ## Layer map-out -/

/-- First address of slot j of near stack s (R332). -/
def slotBase (stack j : Nat) : Nat := stack * 2 ^ 36 + j * 2 ^ 32

/-- The physical memory with slot h's contents at slot f's addresses, and nothing at slot h's: what slot f held is gone (R360). -/
def moveSlot (s : State) (f h : Nat) : State :=
  let inF (a : Nat) : Bool := f ≤ a && a < f + 2 ^ 32
  let inH (a : Nat) : Bool := h ≤ a && a < h + 2 ^ 32
  let go (a : Nat) : Nat := if inH a then a - h + f else a
  { moveOrders s (fun a => if inF a then none else some (go a)) with
    mem := (s.mem.filter fun (a, _) => inH a).foldl (fun m (a, b) => mput 0 m (go a) b) (s.mem.filter fun (a, _) => !inF a && !inH a)
    poison := (s.poison.filter fun w => !inF (8 * w)).map fun w => go (8 * w) / 8
    past := (s.past.filter fun p => !inF p.pa).map fun p => { p with pa := go p.pa } }

/-- Slot j of a stack holds the vault (R326, R360). -/
def holdsVault (stack j : Nat) : Bool := overlap Config.vaultBase (180 * 2 * Config.vaultSlot) (slotBase stack j) (2 ^ 32)

/-- The LMAP value with nibble f replaced by nibble h (R360). -/
def mapNibble (v : W64) (f h : Nat) : W64 :=
  BitVec.ofNat 64 (v.toNat - bits v.toNat (4 * f) 4 * 2 ^ (4 * f) + bits v.toNat (4 * h) 4 * 2 ^ (4 * f))

/-- The error record of a layer that is mapped out (R392). -/
def logMapout (s : State) (k f h : Nat) (st : Stack) : State :=
  logError s { cls := 0x0B, unit := unitOf 3 k (bits st.lmap.toNat (4 * f) 4) 0 0, detail := f + h * 2 ^ 32 }

/-- MAPOUT (R360): with f = h the slot's lines are only discarded; otherwise the device's step begins when HOTREMOVE can be posted, at whose posting the
accesses that it held go on; RESULT 2 while a checkpoint is under way (R401). -/
def runMapout (s : State) : State :=
  let (a, b) := margs s
  let k := a % 16
  let f := bits a 8 4
  let st := mget ({} : Stack) s.nearStacks k
  let h := st.slots - 1
  if 12 ≤ k || bits a 4 4 != 0 || bits a 12 52 != 0 || b != 0 then mcmdDone s 1
  else if st.alias_.isSome || s.ck.busy then mcmdDone s 2
  else if st.slots ≤ f then mcmdDone s 1
  else if holdsVault k f || holdsVault k h then mcmdDone s 4
  else if f = h then mcmdDone (logMapout { s with nearStacks := mput {} s.nearStacks k { st with slots := h } } k f h st) 0
  else mcmdWait { s with
    mapout := some (k, f)
    noticeQ := s.noticeQ ++ [{ kind := 3, arg := BitVec.ofNat 32 k, pa := BitVec.ofNat 64 (slotBase k h) }] }

/-- The device's step of a layer map-out, with the posting of HOTREMOVE (R360): slot h's contents lie in slot f, whose layer is h's from now on. -/
def mapOutDone (s : State) : State :=
  match s.mapout with
  | none => s
  | some (k, f) =>
    let st := mget ({} : Stack) s.nearStacks k
    let h := st.slots - 1
    let s1 := moveSlot { s with mapout := none } (slotBase k f) (slotBase k h)
    let s2 := { s1 with nearStacks := mput {} s1.nearStacks k { slots := h, alias_ := some f, lmap := mapNibble st.lmap f h } }
    mcmdDone (logMapout s2 k f h st) 0

/-- MAPOUT (R360). -/
def execMapout (s : State) : Host.Outcome State Fault Refusal := mcmd s runMapout

/-- MAPEND (R360). -/
def runMapend (s : State) : State :=
  let (a, b) := margs s
  if 12 ≤ a || b != 0 then mcmdDone s 1
  else mcmdDone { s with nearStacks := mput {} s.nearStacks a { (mget ({} : Stack) s.nearStacks a) with alias_ := none } } 0

/-- MAPEND (R360). -/
def execMapend (s : State) : Host.Outcome State Fault Refusal := mcmd s runMapend

/-! ## Extents -/

/-- An extent's notice (R347, R356, R357). -/
def extentNotice (s : State) (i kind : Nat) (err : Bool) : State :=
  { s with noticeQ := s.noticeQ ++
      [{ kind := kind, err := err, arg := BitVec.ofNat 32 i, pa := BitVec.ofNat 64 (mget ({} : Extent) s.extents i).base }] }

/-- Lines of an extent. -/
def extentLine (x : Extent) (l : Nat) : Bool := x.base ≤ 128 * l && 128 * l < x.base + x.len

/-- No cache holds a line of an extent. -/
def dropExtent (s : State) (x : Extent) : State :=
  dropLines { s with dirty := s.dirty.filter fun l => !extentLine x l } (fun _ => true) (fun _ => true) (extentLine x)

/-- EXTREL (R357): STATE 3; the lines are written back and invalidated before the next cycle of the device. -/
def runExtrel (s : State) : State :=
  let (a, b) := margs s
  let x := mget ({} : Extent) s.extents a
  if 256 ≤ a || b != 0 then mcmdDone s 1
  else if x.state != 1 && x.state != 2 then mcmdDone s 2
  else mcmdWait { s with extents := mput {} s.extents a { x with state := 3 } }

/-- A closing extent has no dirty line: its release is acknowledged, STATE is 0, and EXTGONE is to be posted (R357). -/
def settleExtents (s : State) : State :=
  (s.extents.filterMap fun (i, x) => if x.state = 3 then some i else none).foldl (fun s i =>
    let s1 := extentNotice (dropExtent s (mget ({} : Extent) s.extents i)) i 6 false
    { s1 with extents := mput {} s1.extents i {}, out := .extentRelease i :: s1.out }) s

/-- EXTREL (R357). -/
def execExtrel (s : State) : Host.Outcome State Fault Refusal := mcmd s runExtrel

/-- EXTENT_ADD (R356, R381): capacity behind a port that trained in CXL mode, in the port's part of the attached range. -/
def execExtentAdd (i port : Nat) (base len : BitVec 64) (s : State) : Host.Outcome State Fault Refusal :=
  let lo := attachedBase + port * 2 ^ 48
  if 256 ≤ i || 2 ≤ port || (mget ({} : Extent) s.extents i).state != 0 || (mget 0 s.ctl.pxTrained port).toNat % 4 != 2
      || base.toNat < lo || lo + 2 ^ 48 < base.toNat + len.toNat then .next s
  else .next (extentNotice { s with extents := mput {} s.extents i { base := base.toNat, len := len.toNat, state := 1, port := port } } i 4 false)

/-- EXTENT_RELEASE_REQUEST (R356). -/
def execExtentReleaseRequest (i : Nat) (s : State) : Host.Outcome State Fault Refusal :=
  let x := mget ({} : Extent) s.extents i
  if x.state != 1 then .next s else .next (extentNotice { s with extents := mput {} s.extents i { x with state := 2 } } i 5 false)

/-- The words of a 128-byte line are poisoned. -/
def poisonLine (s : State) (pa : Nat) : State := (upto 16).foldl (fun s k => poisonWord s (pa + 8 * k)) s

/-- EXTENT_SURPRISE_REMOVAL (R357, R392): the dirty lines are poisoned: of those that some cache may hold dirty, the ones that the event names, by number
within the extent, had not been written back. -/
def execExtentSurpriseRemoval (i : Nat) (dirty : List Nat) (s : State) : Host.Outcome State Fault Refusal :=
  let x := mget ({} : Extent) s.extents i
  if x.state = 0 then .next s
  else
    let lines := distinct (dirty.filter fun j => 128 * j < x.len && s.dirty.contains (x.base / 128 + j))
    let s1 := dropExtent (lines.foldl (fun s j => poisonLine s (x.base + 128 * j)) s) x
    let s2 := extentNotice { s1 with extents := mput {} s1.extents i { x with state := 0 } } i 6 true
    let s3 := logError s2 { cls := 0x0A, sev := 1, unit := unitOf 8 i 0 0 0, detail := lines.length }
    .next (if x.state = 3 then mcmdDone s3 0 else s3)

/-! ## Zeroing and QTRIM -/

/-- A range of physical memory, but for some lines by number, reads as zero from now on, for every agent: no cached copy of it is left (R344, R351). -/
def clearRange (s : State) (pa n : Nat) (but : List Nat := []) : State :=
  let a := routeAlias s pa
  let here (k : Nat) : Bool := a ≤ k && k < a + n && !but.contains (k / 128)
  let rest (p : Past) : List Past :=
    if !touches a n p then [p]
    else ((linesOf p.pa p.old.length).filter fun x => !here x.1).map fun x => { p with pa := x.1, old := (p.old.drop (x.1 - p.pa)).take x.2 }
  dropLines { s with
    mem := s.mem.filter fun (k, _) => !here k
    poison := s.poison.filter fun w => !here (8 * w)
    past := s.past.flatMap rest
    dirty := s.dirty.filter fun l => !here (128 * l) } (fun _ => true) (fun _ => true) fun l => here (128 * l)

/-- The lines of a range that a swap has exchanged, each with the line at which its contents now lie (R350). -/
def movedLines (s : State) (pa n : Nat) : List (Nat × Nat) :=
  (s.swaps.flatMap fun (_, w) => if w.state = 0 then [] else w.prog.flatMap fun j =>
    [(w.x + 128 * j, w.y + 128 * j), (w.y + 128 * j, w.x + 128 * j)]).filter fun x => pa ≤ x.1 && x.1 < pa + n

/-- A page reads as zero from now on: through a leaf with M = 1 a line that a swap has exchanged is cleared where it lies (R344, R350). -/
def clearPage (s : State) (leaf pa n : Nat) : State :=
  let l := if leafBit leaf 13 then movedLines s pa n else []
  l.foldl (fun s x => clearRange s x.2 128) (clearRange s pa n (l.map fun x => routeAlias s x.1 / 128))

/-- QTRIM (R339, R351). -/
def runQtrim (s : State) : State :=
  let (a, n) := margs s
  if a % 4096 != 0 || n % 4096 != 0 || a < quarryBase || quarryEnd < a + n then mcmdDone s 1 else mcmdDone (clearRange s a n) 0

/-- QTRIM (R351). -/
def execQtrim (s : State) : Host.Outcome State Fault Refusal := mcmd s runQtrim

/-- ZERO_ENGINE_DONE (R344, R350, R409): the whole page is zero, and Z is cleared in the leaf; the device's own writes that waited are made. -/
def execZeroEngineDone (i : Nat) (s : State) : Host.Outcome State Fault Refusal :=
  match s.zeroing[i]? with
  | none => .next s
  | some z =>
    let s1 := clearPage { s with zeroing := dropNth s.zeroing i } (physNum s z.leaf 8) z.frame z.bytes
    .next (retryWrites (physPut s1 (z.leaf + 1) 1 (physNum s1 (z.leaf + 1) 1 % 128)))

/-! ## Rings -/

/-- The fault ring is configured and has room (R303, R341). -/
def faultRoom (s : State) : Bool :=
  let n := s.ctl.fltc.toNat % 32
  s.ctl.fltb != 0 && 6 ≤ n && n ≤ 16 && ringUsed s.ctl.flth s.ctl.fltt < 2 ^ n

/-- The 64 bytes of a fault record (R342). -/
def faultBytes (f : FaultRec) : List Byte :=
  toBytes 4 f.cause.toNat ++ toBytes 4 f.access.toNat ++ toBytes 4 f.who.toNat ++ toBytes 2 f.group.toNat ++ toBytes 2 f.asid.toNat
    ++ toBytes 4 f.launch.toNat ++ toBytes 4 f.team.toNat ++ toBytes 4 f.lanes.toNat ++ toBytes 4 f.pcmask.toNat ++ toBytes 8 f.token.toNat
    ++ toBytes 8 f.va.toNat ++ zeros 16

/-- FAULT_RECORD_WRITE (R341, R342). -/
def execFaultRecordWrite (s : State) : Host.Outcome State Fault Refusal :=
  match s.faultQ with
  | [] => .next s
  | f :: fs =>
    if faultRoom s then
      let at_ := s.ctl.fltb.toNat + 64 * (s.ctl.fltt.toNat % 2 ^ (s.ctl.fltc.toNat % 32))
      let s1 := physWrite { s with faultQ := fs } at_ (faultBytes f)
      let s2 := { s1 with ctl := { s1.ctl with fltt := s1.ctl.fltt + 1 } }
      .next (if s.ctl.fltt = s.ctl.flth then raiseIrq s2 1 else s2)
    else .next s

/-- What posting a notice completes (R347, R348, R357, R360). -/
def noticePosted (s : State) (n : Notice) : State :=
  let i := n.arg.toNat
  match n.kind with
  | 2 => { s with swaps := mput {} s.swaps i { (mget {} s.swaps i) with state := 2 } }
  | 3 => mapOutDone s
  | 6 => if n.err then s else mcmdDone s 0
  | _ => s

/-- NOTIFICATION_POST (R347): an entry other than HOT waits for a free slot. -/
def execNotificationPost (s : State) : Host.Outcome State Fault Refusal :=
  match s.noticeQ with
  | [] => .next s
  | n :: ns => if nqFree s then .next (noticePosted (nqPost { s with noticeQ := ns } n) n) else .next s

/-- IRQV(k) takes a value; an interrupt that waits is sent once EN is 1 and MASK is 0 (R319). -/
def putIrqv (s : State) (k : Nat) (v : BitVec 128) : State :=
  if 5 ≤ k then s
  else
    let pend := bits (mget 0 s.ctl.irqv k).toNat 98 1
    let w := BitVec.ofNat 128 (v.toNat % 2 ^ 98)
    let put (x : BitVec 128) : State := { s with ctl := { s.ctl with irqv := mput 0 s.ctl.irqv k x } }
    if pend = 1 then
      if bits w.toNat 96 2 = 1 then raiseIrq (put w) k else put (w ||| BitVec.ofNat 128 (2 ^ 98))
    else put w

/-- IRQV_WRITE (R319). -/
def execIrqvWrite (k : Nat) (v : BitVec 128) (s : State) : Host.Outcome State Fault Refusal := .next (putIrqv s k v)

/-! ## Host cores and peers -/

/-- The accesses of a peer (R65, R335, R346, R382). -/
def peerEnv (s : State) (c : Nat) : Env := devEnv s c false .peer

/-- The accesses of a host core, which applies the rules of RISC-V for U: a user access needs U, a supervisor access is shut out of pages with U but
for data with SUM (R335; log 71). -/
def hostEnv (s : State) (c : Nat) : Env :=
  let m := s.hostMode
  { devEnv s c (!m.super) .host with noU := m.super && (m.fetch || !m.sum) }

/-- What a host core's store carries: as a release at host scope, the host's writes (R91, R94). -/
def hostWriter (s : State) (amo : Bool) : Writer :=
  { agent := .host, atomic := amo
    rel := if s.hostMode.release then [{ scope := 4, agent := .host, view := ({} : View).plus .host s.writes }] else [] }

/-- The new value of a word of n bytes under an atomic operation of RISC-V, by its number: swap, add, xor, and, or, min, max, minu, maxu (log 71). -/
def hostAmo (k n old v : Nat) : Nat :=
  let m := 2 ^ (8 * n)
  match k with
  | 1 => (old + v) % m
  | 2 => Nat.xor old v % m
  | 3 => Nat.land old v
  | 4 => Nat.lor old v
  | 5 => if sextInt (8 * n) v < sextInt (8 * n) old then v else old
  | 6 => if sextInt (8 * n) old < sextInt (8 * n) v then v else old
  | 7 => Nat.min old v
  | 8 => Nat.max old v
  | _ => v

/-- A host core's atomic operation: it leaves the old value. -/
def hostAtomic (s : State) (env : Env) (k : Nat) (va n : Nat) (bs : List Byte) : State :=
  match lookAt s env .atomic va n with
  | (s1, .stop x _) => if x = 0x13 then s else { s1 with hostRd := [], hostCause := BitVec.ofNat 8 x }
  | (s1, .zeroing a f m) => startZero s1 a f m
  | (s1, .hit l) =>
    let s2 := touchSpots s1 env .atomic l
    let (s3, old) := readSpots s2 env l
    { writeSpots s3 (hostWriter s3 true) l (toBytes n (hostAmo k n (ofBytes old) (ofBytes bs))) with hostRd := old, hostCause := 0 }

/-- HOST_CORE_ACCESS (R335), in the mode that State.hostMode gives: a load, fetch or atomic operation leaves its bytes, and each access its cause, in
the model's own fields (log 3). A Quarry stall or the zero engine holds it. -/
def execHostCoreAccess (c : Nat) (va : BitVec 64) (n : Nat) (data : Option (List (BitVec 8))) (s : State) : Host.Outcome State Fault Refusal :=
  let env := hostEnv s c
  match data with
  | none => (match readAt s env (if s.hostMode.fetch then .fetch else .read) va.toNat n with
    | (s1, .ok bs) => .next { s1 with hostRd := bs, hostCause := 0 }
    | (s1, .error (x, _)) => .next (if x = 0x13 then s else { s1 with hostRd := [], hostCause := BitVec.ofNat 8 x }))
  | some bs =>
    match s.hostMode.amo with
    | some k => .next (hostAtomic s env k va.toNat bs.length bs)
    | none => (match writeAt s env va.toNat bs (hostWriter s false) with
      | (s1, .done) => .next { s1 with hostCause := 0 }
      | (s1, .wait) => .next s1
      | (s1, .stop x _) => .next { s1 with hostCause := BitVec.ofNat 8 x })

/-- The context bound to a requester (R382). -/
def boundContext (s : State) (rid : BitVec 16) (pasid : Option (BitVec 20)) : Option Nat :=
  if s.ctl.pxbb = 0 then none
  else ((upto 256).filterMap fun i =>
    let e := physNum s (s.ctl.pxbb.toNat + 16 * i) 16
    let pasidOk := match pasid with
      | some p => bits e 36 1 == 1 && bits e 16 20 == p.toNat
      | none => bits e 36 1 == 0
    if bits e 37 1 = 1 && bits e 0 16 = rid.toNat && pasidOk && e / 2 ^ 44 = 0 then some (bits e 38 6) else none).head?

/-- An answer to a peer. -/
def answerPeer (s : State) (ok : Bool) (bs : List Byte) : State := { s with out := .peer ok bs :: s.out }

/-- PEER_MEMORY_REQUEST (R382): Unsupported Request without a binding, and for a read whose walk faults; a write that faults is dropped and counted. -/
def execPeerMemoryRequest (rid : BitVec 16) (pasid : Option (BitVec 20)) (va : BitVec 64) (n : Nat) (data : Option (List (BitVec 8))) (s0 : State) :
    Host.Outcome State Fault Refusal :=
  let s := pxTraffic s0
  match boundContext s rid pasid with
  | none => .next (answerPeer s false [])
  | some c =>
    match data with
    | none => (match readAt s (peerEnv s c) .read va.toNat n with
      | (s1, .ok bs) => .next (answerPeer s1 true bs)
      | (s1, .error (x, _)) => .next (if x = 0x13 then s else answerPeer s1 false []))
    | some bs => (match writeAt s (peerEnv s c) va.toNat bs { agent := .peer } with
      | (s1, .done) => .next (answerPeer s1 true [])
      | (s1, .wait) => .next s1
      | (s1, .stop _ _) => .next { s1 with peerDrops := s1.peerDrops + 1 })

/-- ATS_TRANSLATION_REQUEST (R382): the context's walk answers. -/
def execAtsTranslationRequest (rid : BitVec 16) (pasid : Option (BitVec 20)) (va : BitVec 64) (s0 : State) : Host.Outcome State Fault Refusal :=
  let s := pxTraffic s0
  match boundContext s rid pasid with
  | none => .next (answerPeer s false [])
  | some c =>
    let env := peerEnv s c
    match translate s env va.toNat .read with
    | (s1, .ok t) => .next (answerPeer (touchLeaf s1 env .read va.toNat t) true (toBytes 8 t.pa))
    | (s1, .error _) => .next (answerPeer s1 false [])

/-- LINK_TRAINING (R381): what PXCFG holds takes effect. -/
def execLinkTraining (p : Nat) (s : State) : Host.Outcome State Fault Refusal :=
  if 2 ≤ p then .next s else .next { s with ctl := { s.ctl with pxTrained := mput 0 s.ctl.pxTrained p (mget 0 s.ctl.pxcfg p) } }

end Sys2Proof.Machine
end

