-- ==== Sys2Proof/Machine/Fleet.lean ====
section
/-!
DEFINITION. Fleet operations: the in-field test of a cluster (R396 to R398), the checkpoint of DRAM to the Quarry (R401 to R404), power and
temperature (R406, R407), and the outside choices that reach the predictive table (R394, R395).
-/

namespace Sys2Proof.Machine

/-! ## The in-field test -/

/-- FTST(c) takes a RESULT (R396). -/
def ftDone (s : State) (c r : Nat) : State := modCluster s c fun k => { k with ftResult := r }

/-- An FTCMD operation on a cluster (R396, R397): RESULT 2 while another command executes on it, RESULT 1 in a state that has no such operation. -/
def ftCmd (s : State) (c : Nat) (ok : Nat → Bool) (f : State → State) : State :=
  if Config.nClusters ≤ c then s
  else
    let st := (clusterOf s c).ftState
    if st = 1 || st = 3 then ftDone s c 2
    else if ok st then f s
    else ftDone s c 1

/-- A team has a part on a cluster: it stands there, or an image of it was restored there (R328, R397). -/
def partOn (s : State) (c : Nat) (t : Team) : Bool :=
  (t.cluster == c && t.status == .resident) || s.groups.any fun g => g.team == t.key && groupTile s g / 5 == c

/-- OFFLINE (R397): the bank modes are kept, and %preempt is set in every team with a part on the cluster; the request of no head withdraws it. -/
def offline (s : State) (c : Nat) : State :=
  ftCmd s c (· == 0) fun s =>
    let keep (k : Cluster) : SMap Nat := k.banks.foldl (fun m (b, x) => mput 0 m b x.mode) []
    let s1 := modCluster s c fun k => { k with ftState := 1, ftResult := 0, keptModes := keep k }
    (s1.teams.filter (partOn s1 c)).foldl (fun s t => requestTeam s none t.key) s1

/-- OFFLINE (R397). -/
def execOffline (c : Nat) (s : State) : Host.Outcome State Fault Refusal := .next (offline s c)

/-- Clusters that are TESTING. -/
def testing (s : State) : List Nat := (upto Config.nClusters).filter fun c => (clusterOf s c).ftState == 3

/-- At most four clusters are TESTING at once, and one per compute die (R397). -/
def testRoom (s : State) (c : Nat) : Bool := (testing s).length < 4 && (testing s).all fun d => d / 9 != c / 9

/-- The pattern set is accepted (R396): the magic is checked; whether its stepping, hashes, length and CRC match is a free choice, because the
spec does not say where they stand (log 1, log 37). -/
def patternOk (s : State) : State × Bool :=
  if physNum s s.ctl.ftpat.toNat 4 != 0x5054584B then (s, false) else chooseBool s

/-- TEST (R397, R398). -/
def startTest (s : State) (c : Nat) : State :=
  ftCmd s c (fun st => st == 2 || st == 5) fun s =>
    if !testRoom s c then ftDone s c 2
    else
      let (s1, ok) := patternOk s
      if ok then modCluster s1 c fun k => { k with ftState := 3, ftResult := 0 } else ftDone s1 c 3

/-- TEST (R398). -/
def execTest (c : Nat) (s : State) : Host.Outcome State Fault Refusal := .next (startTest s c)

/-- Bank modes as they stood at OFFLINE (R397). -/
def backModes (k : Cluster) : Cluster :=
  { k with banks := (upto Config.nBanks).foldl (fun m b => mput {} m b { (mget ({} : Bank) m b) with mode := mget 0 k.keptModes b }) k.banks }

/-- ONLINE (R397): from PASSED the bank modes return. -/
def online (s : State) (c : Nat) : State :=
  ftCmd s c (fun st => st == 2 || st == 4) fun s => modCluster s c fun k =>
    { (if k.ftState = 4 then backModes k else k) with ftState := 0, ftResult := 0, keptModes := [] }

/-- ONLINE (R397). -/
def execOnline (c : Nat) (s : State) : Host.Outcome State Fault Refusal := .next (online s c)

/-- RETIRE (R397). -/
def retireCluster (s : State) (c : Nat) : State :=
  ftCmd s c (· == 5) fun s => modCluster s c fun k => { k with ftState := 6, ftResult := 0 }

/-- RETIRE (R397). -/
def execRetire (c : Nat) (s : State) : Host.Outcome State Fault Refusal := .next (retireCluster s c)

/-- A channel of the copy engine has no command. -/
def engineIdle (h : Chan) : Bool := h.cmds.isEmpty && h.run.isNone && h.chain.isNone

/-- No group, keystone context, binned lane or bank of any team is left on the cluster, no image of it is still streaming, and the copy engine is
idle (R397). -/
def clusterEmpty (s : State) (c : Nat) : Bool :=
  !(s.groups.any fun g => (teamOf s g.team).cluster == c)
    && (upto 5).all (fun k => (coreOf s (5 * c + k)).bins.isEmpty && (coreOf s (5 * c + k)).frozen.isNone)
    && !(s.teams.any fun t => t.cluster == c && (!t.pad.isEmpty || !t.frames.isEmpty))
    && (clusterOf s c).chans.all fun (_, h) => engineIdle h

/-- CLUSTER_DRAIN_COMPLETE (R397): the CACHE banks are written back and invalidated. -/
def execClusterDrainComplete (c : Nat) (s : State) : Host.Outcome State Fault Refusal :=
  .next (if (clusterOf s c).ftState = 1 && clusterEmpty s c then
    modCluster { s with l2c := mput [] s.l2c c [] } c fun k => { k with ftState := 2 } else s)

/-- The unit belongs to the cluster (R390). -/
def unitIn (c : Nat) (u : BitVec 64) : Bool := unitOk u.toNat && (bits u.toNat 56 8 == 1 || bits u.toNat 56 8 == 2) && bits u.toNat 48 8 == c

/-- The records of one failing unit (R392, R398). -/
def logTestFail (s : State) (f : TestFail) : State :=
  let s1 := logError s { cls := 6, sev := if f.spare.isSome then 0 else 1, unit := f.unit.toNat
                         detail := f.step.toNat + f.pattern.toNat * 2 ^ 32 + f.bits.toNat * 2 ^ 64 }
  match f.spare with
  | some x => logError s1 { cls := 7, unit := f.unit.toNat, detail := x.toNat }
  | none => s1

/-- No older value of a range of a cluster's SRAM is left to read. -/
def forgetPad (s : State) (c lo hi : Nat) : State :=
  { s with past := s.past.filter fun p => !(padKey c lo ≤ p.pa && p.pa < padKey c hi) }

/-- Every array of a cluster is zero (R398): its SRAM, the TLBs, the data caches, and the instruction caches, which fetch what memory holds now. -/
def zeroArrays (s : State) (c : Nat) : State :=
  let inTlb (e : TlbEntry) : Bool := match e.tlb with | .l1 t => t / 5 == c | .l2 k => k == c | .own _ => false
  let s0 := dropLines (forgetPad s c 0 (Config.nBanks * Config.bankBytes)) (fun t => t / 5 == c) (· == c) fun _ => true
  let s1 := modCluster { s0 with tlb := s.tlb.filter fun e => !inTlb e, l1i := s.l1i.filter fun x => x.1 / 5 != c } c fun k => { k with sram := [], sramBad := [] }
  (upto 5).foldl (fun s i => modCore s (5 * c + i) fun k => { k with iview := { k.iview with base := s.writes } }) s1

/-- A failing unit that the test may find: one of the cluster, in step 1 or 2 (R392, R398). -/
def failIn (c : Nat) (f : TestFail) : Bool := unitIn c f.unit && (f.step == 1 || f.step == 2)

/-- CLUSTER_TEST_COMPLETE (R397, R398): which units fail, and which spares repair them, the part finds; every array is zero. -/
def execClusterTestComplete (c : Nat) (fails : List TestFail) (s : State) : Host.Outcome State Fault Refusal :=
  if (clusterOf s c).ftState != 3 || !fails.all (failIn c) then .next s
  else
    .next (modCluster (zeroArrays (fails.foldl logTestFail s) c) c fun k => { k with
      ftState := if fails.all fun f => f.spare.isSome then 4 else 5
      repaired := k.repaired || fails.any fun f => f.spare.isSome
      ftFails := Nat.min 0xFFFF fails.length })

/-! ## The checkpoint -/

/-- The ranges of DRAM that a checkpoint holds, in order: the near slots in service, stack by stack, and the far tier (R402). -/
def ckRanges (s : State) : List (Nat × Nat) :=
  ((upto 12).flatMap fun k => (upto (mget ({} : Stack) s.nearStacks k).slots).map fun j => (slotBase k j, 2 ^ 32)) ++ [(farBase, farEnd - farBase)]

/-- Bytes of the ranges. -/
def ckBytes (s : State) : Nat := sumNat ((ckRanges s).map (·.2))

/-- Data offset of an address. -/
def offsetIn : Nat → List (Nat × Nat) → Nat → Option Nat
  | _, [], _ => none
  | o, (a, n) :: rs, pa => if a ≤ pa && pa < a + n then some (o + (pa - a)) else offsetIn (o + n) rs pa

/-- Address of a data offset. -/
def addressAt : List (Nat × Nat) → Nat → Option Nat
  | [], _ => none
  | (a, n) :: rs, o => if o < n then some (a + o) else addressAt rs (o - n)

/-- Courses of the data: 1 MiB each (R402). -/
abbrev courseBytes : Nat := 1048576

/-- Length of the index: a CRC-32C for each course and 8 bytes for each poisoned line (R402; log 31). -/
def indexBytes (n bad : Nat) : Nat := 4 * ((n + courseBytes - 1) / courseBytes) + 8 * bad

/-- Data offsets of the poisoned lines of DRAM, in line numbers. -/
def badLines (s : State) : List Nat :=
  distinct ((s.poison.filterMap fun w => offsetIn 0 (ckRanges s) (8 * w)).map (· / 128))

/-- Number of courses of the data (R402). -/
def courseCount (s : State) : Nat := (ckBytes s + courseBytes - 1) / courseBytes

/-- A checkpoint is over with a RESULT, and the dispatcher resumes; a failure is in the error log (R392, R402). -/
def ckDone (s : State) (r : Nat) : State :=
  let s1 := { s with paused := false, ck := { s.ck with busy := false, result := r } }
  if [2, 4, 5, 7].contains r then logError s1 { cls := 0x0D, sev := 1, unit := unitOf 9 1 0 0 0, detail := r } else s1

/-- The area holds the header, n bytes of data and their index. -/
def areaHolds (s : State) : Bool := 0x1000 + ckBytes s + indexBytes (ckBytes s) (badLines s).length ≤ s.ctl.cklen.toNat

/-- SAVE (R402): a write of CKCMD while BUSY is 1 is ignored (log 38). -/
def ckSave (s : State) : State :=
  let a := s.ctl.ckb.toNat
  let s0 := { s with ck := { s.ck with streamed := 0, start := none } }
  if s.ck.busy then s
  else if a % 4096 != 0 || a < quarryBase || quarryEnd < a + s.ctl.cklen.toNat then ckDone s0 1
  else if !areaHolds s then ckDone s0 2
  else
    (s.teams.filter fun t => t.status == .resident).foldl (fun s t => requestTeam s none t.key)
      { s0 with paused := true, ck := { s0.ck with busy := true } }

/-- SAVE (R402). -/
def execSave (s : State) : Host.Outcome State Fault Refusal := .next (ckSave s)

/-- No team is resident, and every engine is idle: copy engines, Mason, fabric endpoints, zero engine (R402). -/
def deviceIdle (s : State) : Bool :=
  !(s.teams.any fun t => t.status == .resident) && s.masonQ.isEmpty && !(s.courses.any (·.sealed))
    && (s.clusters.all fun (_, c) => c.chans.all fun (_, h) => engineIdle h) && !(s.fabOps.any fun (_, x) => x.isSome) && s.zeroing.isEmpty

/-- Step 2 of SAVE begins once the device is idle (R402). -/
def ckStep2 (s : State) : State :=
  if s.ck.busy && s.ck.start.isNone && deviceIdle s then { s with ck := { s.ck with start := some (timeNs s), at_ := s.writes } } else s

/-- The DRAM as the checkpoint holds it, by data offset: the bytes now, and for a line written since step 2 began one of the values that it held since
then, as the device chooses; a poisoned line is zero (R402). -/
def ckImage (s : State) : State × Mem :=
  let rs := ckRanges s
  let bad := badLines s
  let base := s.mem.foldl (fun (m : Mem) (a, b) => match offsetIn 0 rs a with
    | some o => if bad.contains (o / 128) then m else mput 0 m o b
    | none => m) []
  let lines := distinct ((s.past.filter fun p => s.ck.at_ ≤ p.no).flatMap fun p => (linesOf p.pa p.old.length).map fun (a, _) => a / 128 * 128)
  lines.foldl (fun (s, m) a =>
    match offsetIn 0 rs a with
    | some o =>
      if bad.contains (o / 128) then (s, m)
      else
        let cur := physRead s a 128
        let (s1, v) := chooseFrom s (cur :: pastValues a (touches a 128) (fun p => decide (s.ck.at_ ≤ p.no)) s.past cur)
        (s1, memPut m o (v.getD cur))
    | none => (s, m)) (s, base)

/-- The first n bytes of the data stand in the area, and so many have been streamed (R401, R402). -/
def putData (s : State) (img : Mem) (n : Nat) : State :=
  let a := s.ctl.ckb.toNat + 0x1000
  { s with
    mem := (img.filter fun (o, _) => o < n).foldl (fun m (o, b) => mput 0 m (a + o) b) (s.mem.filter fun (k, _) => !(a ≤ k && k < a + n))
    poison := s.poison.filter fun w => !(a ≤ 8 * w && 8 * w < a + n)
    ck := { s.ck with streamed := n / 2 ^ 30 } }

/-- The header course (R403). -/
def ckHeader (s : State) : List Byte :=
  let b := toBytes 4 0x434B584B ++ zeros 1 ++ toBytes 1 0xA0 ++ toBytes 2 1 ++ toBytes 8 (s.ck.start.getD 0) ++ zeros 12
    ++ (upto 12).map (fun k => BitVec.ofNat 8 (mget ({} : Stack) s.nearStacks k).slots) ++ toBytes 8 (farEnd - farBase) ++ toBytes 8 (ckBytes s)
    ++ toBytes 8 (0x1000 + ckBytes s)
  padTo 0x1000 (b ++ toBytes 8 (crc64 0 b).toNat)

/-- A checkpoint ends early: how many courses are written is free (log 1). -/
def putSome (s : State) : State :=
  if s.ck.start.isNone then s
  else
    let (s1, img) := ckImage s
    let n := Config.freeNat s1.free % (courseCount s1 + 1)
    putData { s1 with free := s1.free + 1 } img (Nat.min (n * courseBytes) (ckBytes s1))

/-- The CRC-32C of each course of the data (R230, R402). -/
def courseSums (s : State) (img : Mem) : List W32 :=
  (upto (courseCount s)).map fun i =>
    crc32c 0xFFFFFFFF ((span (i * courseBytes) (Nat.min courseBytes (ckBytes s - i * courseBytes))).map (mget 0 img))

/-- The bytes of an index, of course sums and poisoned lines, as the device lays them out (R402; log 31). -/
def indexOf (sums : List W32) (bad : List Nat) : List Byte := (upto (4 * sums.length + 8 * bad.length)).map (Config.indexByte sums bad)

/-- The whole checkpoint is written: data, index, header (R402, R403). -/
def ckWrite (s : State) : State :=
  let (s1, img) := ckImage s
  let bad := badLines s1
  let sums := courseSums s1 img
  let s2 := putData s1 img (ckBytes s1)
  let s3 := physWrite s2 (s2.ctl.ckb.toNat + 0x1000 + ckBytes s2) (indexOf sums bad)
  let s4 := physWrite s3 s3.ctl.ckb.toNat (ckHeader s3)
  ckDone { s4 with ck := { s4.ck with known := (sums, bad) :: s4.ck.known.filter (· != (sums, bad)) } } 0

/-- CHECKPOINT_SAVE_COMPLETE (R402): the Quarry may fail a write, as the device has it; the header is then absent. -/
def ckComplete (s0 : State) : State :=
  let s := ckStep2 s0
  if s.ck.start.isNone || !s.ck.busy || s.refused.contains 2 then s
  else if !areaHolds s then ckDone s 2
  else
    let (s1, fails) := chooseBool s
    if fails then ckDone (putSome s1) 7 else ckWrite s1

/-- CHECKPOINT_SAVE_COMPLETE (R402). -/
def execCheckpointSaveComplete (s : State) : Host.Outcome State Fault Refusal := .next (ckComplete s)

/-- ABORT (R402): RESULT 1 when no checkpoint is under way (log 38). -/
def ckAbort (s : State) : State := if s.ck.busy then ckDone (putSome s) 6 else ckDone s 1

/-- ABORT (R402). -/
def execAbort (s : State) : Host.Outcome State Fault Refusal := .next (ckAbort s)

/-- The header at CKB is whole (R403). -/
def headerOk (b : List Byte) : Bool :=
  fieldOf b 0 4 == 0x434B584B && fieldOf b 6 2 == 1 && fieldOf b 0x40 8 == (crc64 0 (b.take 0x40)).toNat

/-- STEP, SLOTS and FAR equal this package's (R404). -/
def headerFits (s : State) (b : List Byte) : Bool :=
  fieldOf b 5 1 == 0xA0 && fieldOf b 0x28 8 == farEnd - farBase
    && (upto 12).all fun k => fieldOf b (0x1C + k) 1 == (mget ({} : Stack) s.nearStacks k).slots

/-- What an index says, which stands `off` bytes into the area (R402): one that the device has written, or one that it reads as its layout has it
(log 31). -/
def readIndex (s : State) (off : Nat) : List W32 × List Nat :=
  let at_ := s.ctl.ckb.toNat + off
  match firstWhere (fun (x : List W32 × List Nat) => x.1.length == courseCount s && let b := indexOf x.1 x.2; physRead s at_ b.length == b) s.ck.known with
  | some x => x
  | none => Config.indexRead (physRead s at_ (s.ctl.cklen.toNat - off))

/-- A course of the area is not what its index says: its CRC-32C differs, or it cannot be read (R402, R404). -/
def courseBad (s : State) (sums : List W32) (i : Nat) : Bool :=
  let n := Nat.min courseBytes (ckBytes s - i * courseBytes)
  let a := s.ctl.ckb.toNat + 0x1000 + i * courseBytes
  poisonedAt s a n || sums[i]? != some (crc32c 0xFFFFFFFF (physRead s a n))

/-- The DRAM takes the data of the area; its lines are no longer poisoned, and no older value is left (R404). -/
def takeData (s : State) : State :=
  let rs := ckRanges s
  let a := s.ctl.ckb.toNat + 0x1000
  let inDram (k : Nat) : Bool := (offsetIn 0 rs k).isSome
  { s with
    mem := (s.mem.filter fun (k, _) => a ≤ k && k < a + ckBytes s).foldl (fun m (k, b) => match addressAt rs (k - a) with
      | some d => mput 0 m d b
      | none => m) (s.mem.filter fun (k, _) => !inDram k)
    poison := s.poison.filter fun w => !inDram (8 * w)
    past := s.past.filter fun p => !inDram p.pa
    ck := { s.ck with streamed := ckBytes s / 2 ^ 30 } }

/-- Lines of DRAM by data offset are poisoned. -/
def poisonOffsets (s : State) (ls : List Nat) : State :=
  ls.foldl (fun s l => match addressAt (ckRanges s) (128 * l) with
    | some d => poisonLine s d
    | none => s) s

/-- LOAD (R404): RESULT 1 once the dispatcher has served, 5 for another package's sizes, and 1 for a header that is not whole (R402). -/
def ckLoad (s : State) : State :=
  let b := physRead s s.ctl.ckb.toNat 0x1000
  let s0 := { s with ck := { s.ck with streamed := 0 } }
  if s.ck.busy then s
  else if s.ctl.ctxtb != 0 || s.hasServed then ckDone s0 1
  else if !headerFits s b then ckDone s0 5
  else if !headerOk b then ckDone s0 1
  else
    let (sums, bad) := readIndex s0 (fieldOf b 0x38 8)
    let wrong := (upto (courseCount s0)).filter (courseBad s0 sums)
    let s1 := poisonOffsets (takeData s0) bad
    ckDone (wrong.foldl (fun s i => poisonOffsets s (span (8192 * i) 8192)) s1) (if wrong.isEmpty then 0 else 4)

/-- LOAD (R404). -/
def execLoad (s : State) : Host.Outcome State Fault Refusal := .next (ckLoad s)

/-! ## Power and temperature -/

/-- 100 µs in femtoseconds. -/
abbrev throttleFs : Nat := 100000000000

/-- A thermal or power event (R392): of which cluster or other die is the device's, which reads its sensors (R390; log 14). -/
def logThermal (s : State) (sev : Nat) : State :=
  let n := (Config.unitOf s.free).toNat % 41
  logError { s with free := s.free + 1 }
    { cls := 0x0C, sev := sev, unit := if n < 36 then unitOf 2 n 0xFF 0 0 else unitOf 9 (n - 36) 0 0 0, detail := s.ctl.tempmax.toNat }

/-- FCLK after a step (R407): 100 MHz down while the power exceeds the cap or 105 °C is reached, up once the power is 5 % below the cap and the
temperature below 100 °C. -/
def nextClock (cap power temp f : Nat) : Nat :=
  if cap < power || 840 ≤ temp then (if f ≤ 1200 then f else Nat.max 1200 (f - 100))
  else if 100 * power ≤ 95 * cap && temp < 800 then Nat.min 3600 (f + 100)
  else f

/-- CLOCK_THROTTLE_STEP (R407): the power and the temperature are what the sensors read; a lowered clock is in the error log. -/
def execClockThrottleStep (power temp : BitVec 16) (s : State) : Host.Outcome State Fault Refusal :=
  if s.timeFs < s.ctl.clkAt + throttleFs then .next s
  else
    let f := nextClock (s.ctl.pwrcap.toNat % 65536) power.toNat temp.toNat s.ctl.fclk.toNat
    let s1 := { s with ctl := { s.ctl with pwrnow := power.setWidth 32, tempmax := temp.setWidth 32, fclk := BitVec.ofNat 32 f, clkAt := s.timeFs } }
    .next (if f < s.ctl.fclk.toNat then logThermal s1 0 else s1)

/-- THERMAL_TRIP (R407): at 115 °C the record is written and the package is held in reset. -/
def execThermalTrip (temp : BitVec 16) (s : State) : Host.Outcome State Fault Refusal :=
  if temp.toNat < 920 then .next s
  else
    let s1 := logThermal { s with ctl := { s.ctl with tempmax := temp.setWidth 32 } } 2
    .next { resetState s1 with held := true }

/-! ## Outside choices -/

/-- A corrected error of a unit that exists (R390, R392, R394, R395): the memory controllers count it, and a record is written. -/
def correctedError (s : State) (unit addr syndrome : Nat) : State :=
  if !unitOk unit then s else
  let s1 := match predAddr unit with
    | some at_ =>
      let v := physNum s at_ 4
      let old := v % 2 ^ 24
      let new := Nat.min (2 ^ 24 - 1) (old + 1)
      let kind := if bits unit 56 8 = 3 then 1 else 2
      let thr := bits s.ctl.pthr.toNat (16 * (kind - 1)) 16
      let s0 := if old = 0 then { s with ctl := { s.ctl with noticed := s.ctl.noticed.filter fun x => x != (kind, at_) } } else s
      predNotice (physPut s0 at_ 4 (v / 2 ^ 24 * 2 ^ 24 + new)) kind at_ unit old new thr
    | none => s
  logError s1 { cls := 1, unit := unit, detail := addr % 2 ^ 64 + syndrome % 2 ^ 64 * 2 ^ 64 }

/-- The storage processor's counts of a flash block change (R394, R395). -/
def flashCounts (s : State) (block retries wear : Nat) (retired : Bool) : State :=
  if 393216 ≤ block then s
  else
    let at_ := Config.predBase + predDram + 8 * block
    let v := physNum s at_ 8
    let old := bits v 32 16
    let new := Nat.min 0xFFFF (old + retries)
    let w := Nat.min 0xFFFFFFFF (bits v 0 32 + wear)
    let s0 := if old = 0 then { s with ctl := { s.ctl with noticed := s.ctl.noticed.filter fun x => x != (3, block) } } else s
    predNotice (physPut s0 at_ 8 (w + new * 2 ^ 32 + (if retired || bits v 63 1 == 1 then 2 ^ 63 else 0))) 3 block
      (unitOf 5 (block / 49152) 0 0 (block % 49152)) old new (bits s.ctl.pthr.toNat 32 16)

end Sys2Proof.Machine
end

