-- ==== Sys2Proof/Machine/Paths.lean ====
section
/-!
DEFINITION. What happens to groups between instructions: delivery of traps (R162), spills to the budget (R35), the return from the park area
(R37), reconvergence points (R26 to R28, R156), the completion of pending instructions (R41), quadrant cycles (R316, R400), uncorrectable errors
(R60, R331, R409).
-/

namespace Sys2Proof.Machine

/-- TRAP_DELIVERY (R162). -/
def execTrapDelivery (team g : Nat) (s : State) : Host.Outcome State Fault Refusal := .next (deliver s (.group team g))

/-- SPILL_TO_BUDGET (R35). -/
def execSpillToBudget (team g : Nat) (s : State) : Host.Outcome State Fault Refusal :=
  .next (modGroup s (.group team g) (fitBudget s []))

/-- The state after the slots of a group came back from the park area: slots of other groups make room (R37). -/
def broughtBack (s : State) (x : Group) : State :=
  makeRoom (groupTile s x) x.who s.groups.length (modGroup s x.who fun x => { x with away := false })

/-- The slots of a group may come back: it has a lane that does not wait on a long-latency fault, and there is room (R37). -/
def mayReturn (s : State) (x : Group) : Bool := x.away && !allStopped x && roomOk (broughtBack s x) (groupTile s x)

/-- PARK_AREA_RETURN (R37). -/
def execParkAreaReturn (team g : Nat) (s : State) : Host.Outcome State Fault Refusal :=
  match findGroup s (.group team g) with
  | none => .next s
  | some x => .next (if mayReturn s x then broughtBack s x else s)

/-! ## Reconvergence -/

/-- A lane waits at a reconvergence point. -/
def atPoint (x : Lane) : Bool := x.st == .waiting && (x.at_ == .hard || x.at_ == .soft)

/-- Where a lane stands for the behind test of lanes outside handler mode (R156): a lane in handler mode stands PARKED where its sub-group was
delivered. -/
def stoodAt (g : Group) (l : Nat) : LaneState × W64 × Nat :=
  let x := g.lane l
  if x.handler then
    match g.subs.find? fun u => u.delivered && hasLane u.lanes l with
    | some u => (.parked, u.pc, u.depth)
    | none => (.parked, x.pc, x.depth)
  else (x.st, x.pc, x.depth)

/-- Lane b is behind a lane of call depth d at point p (R25); a soft point does not count PARKED lanes (R27). A RUNNING lane that stands at the
point and has yet to execute it holds the point as well, since both paths of R26's example leave as one (log 42). -/
def behind (g : Group) (handler soft : Bool) (p : W64) (d b : Nat) : Bool :=
  let x := g.lane b
  if handler && !x.handler then false
  else
    let (st, pc, depth) := if handler then (x.st, x.pc, x.depth) else stoodAt g b
    (st == .running || (st == .parked && !soft)) && (d < depth || (d == depth && (pc.toNat < p.toNat || (st == .running && pc == p))))

/-- The lanes that wait at a point: those of handler mode wait only for one another (R156). -/
def waitingAt (g : Group) (handler : Bool) (p : W64) : W32 :=
  g.lanesWhere fun x => atPoint x && x.handler == handler && x.pc == p

/-- Every non-exited lane of the class waits at a point, and not all of them at one (R28). -/
def allAtPoints (g : Group) (handler : Bool) : Bool :=
  let cls := (lanesOf g.live).filter fun l => !handler || (g.lane l).handler
  cls.all (fun l => atPoint (g.lane l) && (g.lane l).handler == handler) && 1 < (distinct (cls.map fun l => (g.lane l).pc)).length

/-- The point that R28 releases: the lowest address among the lanes of greatest call depth. -/
def forcedPoint (g : Group) (handler : Bool) : W64 :=
  let ls := (lanesOf g.live).filter fun l => (g.lane l).handler == handler && atPoint (g.lane l)
  let d := maxNat (ls.map fun l => (g.lane l).depth)
  BitVec.ofNat 64 (minNat 0 ((ls.filter fun l => (g.lane l).depth == d).map fun l => (g.lane l).pc.toNat))

/-- The point at which a lane waits may release (R26 to R28). -/
def pointOpen (g : Group) (l : Nat) : Bool :=
  let x := g.lane l
  let m := waitingAt g x.handler x.pc
  if !atPoint x then false
  else if allAtPoints g x.handler then forcedPoint g x.handler == x.pc
  else !(lanesOf m).any fun w => lanes32.any fun b => behind g x.handler (x.at_ == .soft) x.pc (g.lane w).depth b

/-- RECONV_RELEASE (R26 to R28): the lanes at the point of a waiting lane leave as one path. -/
def execReconvRelease (team g lane : Nat) (s : State) : Host.Outcome State Fault Refusal :=
  match findGroup s (.group team g) with
  | none => .next s
  | some x =>
    if pointOpen x lane then
      let y := x.lane lane
      .next (setGroup s (x.modLanes (waitingAt x y.handler y.pc) fun _ z => { z with st := .running, at_ := .none, pc := z.pc + 4, tag := 0 }))
    else .next s

/-! ## Pending instructions -/

/-- A pending instruction of a group completes: its flags are ORed into %fpflags (R181), and its window ends with its last count (R41). -/
def completeOne (g : Group) (i : Nat) : Group :=
  match g.pend[i]? with
  | some p =>
    { g with
      fpflags := g.fpflags ||| p.flags
      pend := (setNth g.pend i { p with complete := true, flags := 0, load := none }).filter fun p => !p.complete || p.left.any (· != 0) }
  | none => g

/-- LONG_LATENCY_COMPLETE (R41, R101, R181): the i-th pending instruction of a group completes, once its team is resident. -/
def execLongLatencyComplete (who : Who) (i : Nat) (s : State) : Host.Outcome State Fault Refusal := 
  .next (modGroup s who fun g => if (teamOf s g.team).status == .resident then completeOne g i else g)

/-! ## Stall reasons -/

/-- Priority number and code of the stall reason of a wait (R400). -/
def waitReason : WaitKind → Nat × Nat
  | .binwait => (2, 10)
  | .tlbmiss => (3, 12)
  | .expand => (4, 11)
  | .barTeam | .barRole | .musHold => (5, 6)
  | .mwait => (6, 8)
  | .twait => (7, 7)
  | .qget | .qput => (8, 14)
  | .bqh | .matrixq | .mbq => (9, 4)
  | .copyq | .rdcsum => (10, 5)
  | .memwait => (11, 2)
  | .lookahead => (12, 1)
  | .pipebusy => (15, 3)
  | .tdef | .other => (16, 15)

/-- A wait of loads or polls, whose translations may be walked meanwhile (R400). -/
def WaitKind.walks : WaitKind → Bool
  | .memwait | .mwait => true
  | _ => false

/-- The codes of the reasons that a path may have (R400): that of the wait at its instruction, or of an expansion, spill, fill or squeeze that is not over
(R34, R35, R174), or of a translation walk, whichever comes first; of a path that could issue, a translation walk, NOFETCH, DIVERGED or PIPEBUSY, as the
device has it (log 73); of one that is halted or whose slots are in the park area, that it is. -/
def pathReasons (g : Group) (l : Nat) : List Nat :=
  let shapes := g.shaping && g.lastPath &&& pathOf g l != 0
  match pathWait g l with
  | some w => (if shapes && 4 < (waitReason w.kind).1 then 11 else (waitReason w.kind).2) :: if w.kind.walks then [12] else []
  | none => if shapes then [11] else if g.away || g.halted then [15] else [12, 0, 9, 3]

/-- The codes of the reasons of lanes that wait where no path holds them: a barrier, or any other (R400). -/
def idleReasons (g : Group) : List Nat :=
  let codes := (lanesOf (g.lanesWhere fun x => x.st == .waiting)).map fun l => match (g.lane l).at_ with
    | .barTeam | .barRole => 6
    | _ => 15
  if codes.isEmpty then [15] else distinct codes

/-- The code of the stall reason of a group that issued nothing in a cycle (R400): without a RUNNING lane PARKED, or what its lanes wait for; otherwise the
reason of the path that is to issue next, which the device chooses (R25). -/
def stallCode (s : State) (g : Group) : State × Nat :=
  let heads := pathHeads g
  if heads.isEmpty && g.lanes.any (fun x => x.st == .parked) then (s, 13)
  else
    let (s1, l) := chooseFrom s heads
    let (s2, c) := chooseFrom s1 (match l with | some l => pathReasons g l | none => idleReasons g)
    (s2, c.getD 15)

/-! ## Quadrant cycles -/

/-- The group issued in the cycle that now ends. -/
def hasIssued (s : State) (g : Group) : Bool := g.lastIssue == s.cycle + 1

/-- The group is ready, were its slots in the register file (R21, R37). -/
def wantsIssue (s : State) (g : Group) : Bool := readyGroup s { g with away := false }

/-- A cycle of a group: a vector group that issued nothing counts one stall (R400), and its wait for an expansion or spill is over or goes on, as the device
has it (R34; log 1); a ready group that issued nothing waits one cycle longer (R21, R316). -/
def groupCycle (s : State) (g : Group) : State :=
  let c := coreOf s (groupTile s g)
  let ready (x : Group) : Group := { x with readyFor := if wantsIssue s g && !hasIssued s g then x.readyFor + 1 else 0 }
  if g.key.isSome || hasIssued s g || c.frozen.isSome || c.dbgFrozen || (teamOf s g.team).status != .resident then modGroup s g.who ready
  else
    let (s1, k) := stallCode s g
    let (s2, more) := if g.shaping then chooseBool s1 else (s1, false)
    modGroup s2 g.who fun x => { ready x with stalls := mput 0 x.stalls k (mget 0 x.stalls k + 1), lastStall := k, shaping := more }

/-- What the device has finished by the end of a cycle: updates of muster slots (R87), INVAL and EXTREL (R340, R357), halted keystone contexts whose
halyard could not be written before (R344, R367), the start of a checkpoint's step 2 (R402). -/
def endOfCycle (s : State) : State :=
  let s1 := s.teams.foldl (fun s t => settleMusters s t.key) s
  let s2 := settleExtents (settleInval s1)
  let s3 := s2.groups.foldl (fun s g => match g.keyHalt with | some (c, k) => postKey s g.who c k | none => s) s2
  ckStep2 s3

/-- Femtoseconds of a cycle of the compute clock: the period cut or raised to a whole number, as the device has it (R15, R406). -/
def cycleFs (s : State) : State × Nat :=
  let (s1, b) := chooseBool s
  (s1, 1000000000 / Nat.max 1 s.ctl.fclk.toNat + if b then 1 else 0)

/-- QUADRANT_CYCLE (R15, R87, R145, R400). -/
def execQuadrantCycle (s : State) : Host.Outcome State Fault Refusal :=
  let (s1, d) := cycleFs (endOfCycle (s.groups.foldl groupCycle s))
  .next { s1 with cycle := s1.cycle + 1, timeFs := s1.timeFs + d }

/-! ## Uncorrectable errors -/

/-- SEV of a CLASS 0x02 record: 1 or 2, as the device has it (R392; log 1). -/
def logPoison (s : State) (unit addr : Nat) : State :=
  let (s1, fatal) := chooseBool s
  logError { s1 with free := s1.free + 1 }
    { cls := 2, sev := if fatal then 2 else 1, unit := unit, detail := addr + (Config.freeWord s1.free).toNat * 2 ^ 64 }

/-- The mark of a complete image in its slot: IFLAGS[0], POFF, and the CRC of what then stands there (R327, R331; log 39). -/
def markImage (s : State) (slot n off : Nat) : State :=
  let a := slotAt slot
  let s1 := physPut (physPut s (a + 7) 1 (physNum s (a + 7) 1 ||| 1)) (a + 0x18) 8 off
  physPut s1 (a + n - 8) 8 (crc64 0 (physRead s1 a (n - 8))).toNat

/-- An image in the vault that a physical address strikes is marked poisoned at its offset (R331). -/
def strikeVault (s : State) (pa : Nat) : State :=
  let slot := (pa - Config.vaultBase) / Config.vaultSlot
  match mget none s.vault slot with
  | some i =>
    let off := (pa - Config.vaultBase) % Config.vaultSlot
    if Config.vaultBase ≤ pa && off < i.len && i.poisoned.isNone then
      let s1 := { s with vault := mput none s.vault slot (some { i with poisoned := some (off / 8 * 8) }) }
      if i.complete then markImage s1 slot i.len (off / 8 * 8) else s1
    else s
  | none => s

/-- The offset at which a physical address lies in the block of a saved team. -/
def blockOffset (s : State) (x : Saved) (pa : Nat) : Option Nat :=
  let c := contextOf s (teamOf s x.key).ctx
  let base := c.saveb.toNat + x.slot * c.savesz * 4096
  ((upto c.savesz).filterMap fun i => match walk s c.root (base + 4096 * i) with
    | .ok t => if t.pa / 4096 = pa / 4096 then some (4096 * i + pa % 4096) else none
    | .error _ => none).head?

/-- A save block that a physical address strikes is marked poisoned: in the model and at its bytes 21 and 24 to 31 (R322, R331; log 39). -/
def strikeSaved (s : State) (pa : Nat) : State :=
  s.saved.foldl (fun s x =>
    match blockOffset s x pa with
    | some o =>
      let c := contextOf s (teamOf s x.key).ctx
      let s1 := { s with saved := mapWhere (fun y => y.key == x.key) (fun y => { y with poisoned := some (y.poisoned.getD o) }) s.saved }
      let env := devEnv s1 (teamOf s x.key).ctx false
      let at_ := c.saveb.toNat + x.slot * c.savesz * 4096
      if x.poisoned.isSome then s1
      else (writeAt (writeAt s1 env (at_ + 21) [1]).1 env (at_ + 24) (toBytes 8 (o / 8 * 8))).1
    | none => s) s

/-- An error strikes a word of a memory tier (R331, R392, R394, R409): the unit is the place that holds it, or the MSC slice before it (R390). -/
def strikeMemory (s : State) (pa : Nat) (unit : W64) : State :=
  let u := if unit.toNat / 2 ^ 56 = 7 && unitOk unit.toNat then unit.toNat else unitAt s pa
  if !(pa < nearEnd || (farBase ≤ pa && pa < farEnd) || (quarryBase ≤ pa && pa < quarryEnd) || (attachedBase ≤ pa && pa < fabricBase)) then s
  else
    let s1 := strikeSaved (strikeVault s pa) pa
    logPoison (countUncorrected (poisonWord s1 pa) u) u pa

/-- An error strikes a word of a team's scratchpad (R409). -/
def strikeScratch (s : State) (team off : Nat) : State :=
  let t := teamOf s team
  match if off < padSize t then some (padSpot t off 1) else none with
  | some (.pad c o _) =>
    let s1 := modCluster s c fun k => if k.sramBad.contains (o / 8) then k else { k with sramBad := o / 8 :: k.sramBad }
    logPoison s1 (sramUnit c o) 0
  | _ => s

/-- A group, or with number 256 the keystone context, consumes an error in an on-chip copy at the instruction of one of its paths (R60, R246): the
first in an open region restarts the region; another is a cause 0x15 on the active lanes. The array is one that exists (R390). -/
def strikeGroup (s : State) (team n : Nat) (lanes : W32) (unit : W64) : State :=
  match findGroup s (if n = 256 then .key team else .group team n) with
  | none => s
  | some g =>
    let m := pathOf g (lowestLane lanes) &&& g.mask 0
    if m = 0 || !mayIssue s g || !unitOk unit.toNat then s
    else raise s g.who 0 ((lanesOf m).map fun l => { lane := l, cause := 0x15, unit := some unit.toNat })

/-- UNCORRECTED_ERROR (R60, R331, R409). -/
def execUncorrectedError (e : ErrSite) (s : State) : Host.Outcome State Fault Refusal :=
  match e with
  | .memory pa unit => .next (strikeMemory s pa unit)
  | .scratch team off => .next (strikeScratch s team off)
  | .group team g lanes unit => .next (strikeGroup s team g lanes unit)

end Sys2Proof.Machine
end

