-- ==== Sys2Proof/Machine/ControlSpace.lean ====
section
/-!
DEFINITION. The control space (R15, R301): bank modes (R69, R70), what a write of a control register does, and what a read of one returns.
-/

namespace Sys2Proof.Machine

/-! ## Bank modes -/

/-- A team of the cluster holds the bank, as scratchpad or through a queue frame (R70). -/
def bankHeld (s : State) (c b : Nat) : Bool :=
  s.teams.any fun t => t.cluster == c && (t.pad.contains b || t.frames.any fun (_, x, _) => x == b)

/-- A write of MODE (R70): ignored with ERR set while BUSY or for 0b11; no effect for the current mode; refused with ERR set while the bank is
held. -/
def bankMode (s : State) (c b m : Nat) : State :=
  let k := bankOf s c b
  let err (s : State) : State := modBank s c b fun k => { k with err := true }
  if k.target.isSome || m = 3 then err s
  else if m = k.mode then s
  else if k.mode != 0 && bankHeld s c b then err s
  else modBank s c b fun k => { k with target := some m }

/-- A write of SBANKCTL(c, b) (R69, R70). -/
def bankWrite (s : State) (c b : Nat) (v : W32) : State :=
  if Config.nClusters ≤ c || Config.nBanks ≤ b then s
  else bankMode (if v.getLsbD 7 then modBank s c b fun k => { k with err := false } else s) c b (v.toNat % 4)

/-- SBANKCTL_WRITE (R70). -/
def execSbankctlWrite (c b : Nat) (v : W32) (s : State) : Host.Outcome State Fault Refusal := .next (bankWrite s c b v)

/-- The bytes of a bank are zero. -/
def zeroBank (k : Cluster) (b : Nat) : Cluster :=
  let inB (a : Nat) : Bool := b * Config.bankBytes ≤ a && a < (b + 1) * Config.bankBytes
  { k with sram := k.sram.filter fun (a, _) => !inB a, sramBad := k.sramBad.filter fun w => !inB (8 * w) }

/-- n lines leave a cache, as the device chooses. -/
def giveUp : Nat → State → List Nat → State × List Nat
  | 0, s, l => (s, l)
  | n + 1, s, l =>
    let (s1, v) := chooseFrom s l
    giveUp n s1 (l.filter fun y => some y != v)

/-- A cluster's cache holds no more lines than its CACHE banks have (R3, R70). -/
def trimCache (s : State) (c : Nat) : State :=
  let l := mget [] s.l2c c
  let (s1, r) := giveUp (l.length - l2Lines s c) s l
  { s1 with l2c := mput [] s1.l2c c r }

/-- SBANK_DRAIN_COMPLETE (R70): the bank is zeroed, MODE changes and BUSY clears; the cluster's cache keeps the lines that its CACHE banks have room for. -/
def execSbankDrainComplete (c b : Nat) (s : State) : Host.Outcome State Fault Refusal :=
  match (bankOf s c b).target with
  | none => .next s
  | some m =>
    let s1 := modCluster (forgetPad s c (b * Config.bankBytes) ((b + 1) * Config.bankBytes)) c fun k => zeroBank k b
    .next (trimCache (modBank s1 c b fun k => { k with mode := m, target := none }) c)

/-- SBANKCTL(c, b) as it reads (R69). -/
def bankRead (s : State) (c b : Nat) : Nat :=
  let k := bankOf s c b
  k.mode + (if k.target.isSome then 2 ^ 6 else 0) + (if k.err then 2 ^ 7 else 0)

/-! ## Writes -/

/-- A register with a size field keeps its old value when the field would leave its range (R303). -/
def sized (lo hi n : Nat) (old new : W32) : W32 := if lo ≤ new.toNat % 2 ^ n && new.toNat % 2 ^ n ≤ hi then new else old

/-- FCFG after a write (R378): whether a write of an RTO of 0, or of the reserved PFAIL, is taken is a free choice (log 1). -/
def fcfgWrite (s : State) (v : W32) : State :=
  let put (s : State) : State := { s with ctl := { s.ctl with fcfg := v } }
  if v.toNat % 65536 = 0 || v.toNat / 2 ^ 30 = 0 then let (s1, b) := chooseBool s; if b then put s1 else s1 else put s

/-- The control registers after a write of a register that is stored as written, but for its reserved fields (R15, R301, R303); none where the offset
names no such register. -/
def plainWrite (c : Ctl) (off : Nat) (v : W64) : Option Ctl :=
  let w : W32 := v.setWidth 32
  match off with
  | 0x0000 => some { c with ctxtb := v }
  | 0x0020 => some { c with evrb := v }
  | 0x0028 => some { c with evrc := sized 7 20 5 c.evrc (w &&& 0x1F) }
  | 0x0030 => some { c with evrh := w }
  | 0x0038 => some { c with evcoal := w &&& 0xFFFF00FF }
  | 0x0100 => some { c with marg0 := v }
  | 0x0108 => some { c with marg1 := v }
  | 0x0120 => some { c with fltb := v }
  | 0x0128 => some { c with fltc := sized 6 16 5 c.fltc (w &&& 0x1F) }
  | 0x012C => some { c with flth := w }
  | 0x0140 => some { c with nqb := v }
  | 0x0148 => some { c with nqc := sized 6 15 4 c.nqc (w &&& 0xF) }
  | 0x0150 => some { c with cntb := v }
  | 0x0158 => some { c with cntthr := w }
  | 0x0300 => some { c with dbgl := v }
  | 0x0308 => some { c with dbgt := v }
  | 0x0600 => some { c with fepid := w &&& 0xFFFFF }
  | 0x0610 => some { c with pstb := v }
  | 0x0618 => some { c with wdctl := v &&& 0x1FFFFFFFF }
  | 0x0620 => some { c with hangst := c.hangst &&& ~~~w }
  | 0x0A20 => some { c with attb := v }
  | 0x0C00 => some { c with pxcfg := mput 0 c.pxcfg 0 (w &&& 0xFF) }
  | 0x0C08 => some { c with pxcfg := mput 0 c.pxcfg 1 (w &&& 0xFF) }
  | 0x0C40 => some { c with pxbb := v }
  | 0x0C80 => some { c with smpb := v }
  | 0x0C88 => some { c with smpc := sized 6 20 5 c.smpc (w &&& 0xFFFF1F) }
  | 0x0C8C => some { c with smph := w }
  | 0x0D00 => some { c with errb := v }
  | 0x0D08 => some { c with errc := sized 6 16 5 c.errc (w &&& 0x11F) }
  | 0x0D0C => some { c with errh := w }
  | 0x0D14 => some { c with errdrop := c.errdrop &&& ~~~w }
  | 0x0D28 => some { c with pthr := v }
  | 0x0D40 => some { c with ftpat := v }
  | 0x0D80 => some { c with ckb := v }
  | 0x0D88 => some { c with cklen := v }
  | 0x0DC0 => some (if 1200 ≤ w.toNat % 65536 && w.toNat % 65536 ≤ 3000 then { c with pwrcap := w &&& 0xFFFF } else c)
  | _ => none

/-- The element of an array of registers that an offset names: base, stride, count. -/
def element (off base stride count : Nat) : Option Nat :=
  if base ≤ off && (off - base) % stride = 0 && (off - base) / stride < count then some ((off - base) / stride) else none

/-- A 128-bit register with one of its 64-bit halves replaced. -/
def putHalf (old : BitVec 128) (i : Nat) (v : W64) : BitVec 128 :=
  if i % 2 = 0 then old &&& ~~~(BitVec.ofNat 128 (2 ^ 64 - 1)) ||| v.setWidth 128 else (old.setWidth 64).setWidth 128 ||| BitVec.ofNat 128 (v.toNat * 2 ^ 64)

/-- A 256-bit register with one of its 64-bit parts replaced. -/
def putQuarter (old : BitVec 256) (i : Nat) (v : W64) : BitVec 256 :=
  BitVec.ofNat 256 (sumNat ((upto 4).map fun k => (if k = i % 4 then v.toNat else bits old.toNat (64 * k) 64) * 2 ^ (64 * k)))

/-- A field of a lane counter is cleared by all ones (R393); the notice of UNCW may then be given again (R395). -/
def laneWrite (c : Ctl) (k : Nat) (v : W64) : Ctl :=
  if v = BitVec.allOnes 64 then
    { c with
      lnc := mput 0 c.lnc (k / 4) (putQuarter (mget 0 c.lnc (k / 4)) k 0)
      noticed := if k % 4 = 2 then c.noticed.filter fun x => x != (4, k / 4) else c.noticed }
  else c

/-- The control registers after a write of an element of an array of registers that is stored as written, but for its reserved fields; none where the
offset names no such element. -/
def arrayWrite (c : Ctl) (off : Nat) (v : W64) : Option Ctl :=
  match element off 0x0400 8 64, element off 0x0700 8 16, element off 0x0A00 8 4, element off 0x0A40 8 4, element off 0x50000 8 64 with
  | some i, _, _, _, _ => some { c with dbghb := mput 0 c.dbghb i v }
  | _, some i, _, _, _ => some { c with fport := mput 0 c.fport i ((mget 0 c.fport i &&& ~~~0xD) ||| (v &&& 0xD)) }
  | _, _, some i, _, _ => some { c with attn := putQuarter c.attn i v }
  | _, _, _, some i, _ => some { c with mextd := putQuarter c.mextd i v }
  | _, _, _, _, some i => some { c with logtb := mput 0 c.logtb i v }
  | none, none, none, none, none =>
    match element off 0x80000 8 8192, element off 0xA0000 8 512, element off 0x400000 8 640 with
    | some k, _, _ => some { c with win := mput 0 c.win (k / 2) (putHalf (mget 0 c.win (k / 2)) k (if k % 2 = 0 then v &&& 0x3FFFFF else v)) }
    | _, some k, _ =>
      let w := if k % 2 = 0 then v &&& 0x1FFFFF else v &&& 0xFFFFFC000007F
      some { c with inb := mput 0 c.inb (k / 2) (putHalf (mget 0 c.inb (k / 2)) k w) }
    | _, _, some k => some (laneWrite c k v)
    | none, none, none => none

/-- A write of CMD (R302): ignored while a command executes; nonzero reserved bits or a reserved OP give RESULT 1; any other command executes from now
on, as the event of its name. -/
def cmdWrite (s : State) (v : W64) : State :=
  let op := bits v.toNat 56 8
  if s.cmd.isSome then s
  else if bits v.toNat 38 18 != 0 || op = 0 || 7 < op then cmdDone s 1
  else { s with cmd := some (op, bits v.toNat 32 6, v.setWidth 32) }

/-- A write of MCMD (R338, R339). -/
def mcmdWrite (s : State) (w : W32) : State :=
  if s.ctl.mcmdBusy then s
  else match w.toNat with
    | 1 => runInval s
    | 2 => runReplay s
    | 3 => runSwap s
    | 4 => runSwapfree s
    | 5 => runMapout s
    | 6 => runMapend s
    | 7 => runExtrel s
    | 8 => runQtrim s
    | _ => mcmdDone s 1

/-- A write of DBGOP (R361, R363). -/
def dbgWrite (s : State) (w : W32) : State :=
  dbgOp s w fun x => match w.toNat % 256 with
    | 1 => runHalt s x
    | 2 => runResume s x
    | 3 => runFreeze s x
    | 4 => runThaw s x
    | _ => dbgDone s 1

/-- A write of DBGDB (R361, R366). -/
def doorbellWrite (s : State) (v : W64) : State :=
  match execHalyardDoorbell v s with
  | .next t => t
  | _ => s

/-- A write of FTCMD (R396, R397). -/
def ftWrite (s : State) (w : W32) : State :=
  let c := bits w.toNat 8 8
  match w.toNat % 256 with
  | 1 => offline s c
  | 2 => startTest s c
  | 3 => online s c
  | 4 => retireCluster s c
  | _ => ftCmd s c (fun _ => false) id

/-- A write of CKCMD (R401). -/
def ckWriteCmd (s : State) (w : W32) : State :=
  match w.toNat % 256 with
  | 1 => ckSave s
  | 2 => ckLoad s
  | 3 => ckAbort s
  | _ => if s.ck.busy then s else ckDone s 1

/-- A write of a register that starts something, or that reaches other state (R70, R302, R307, R311, R319, R338, R361, R366, R373, R378, R385 to R387,
R397, R401). -/
def actWrite (s : State) (off : Nat) (v : W64) : State :=
  let w : W32 := v.setWidth 32
  match off with
  | 0x0008 => cmdWrite s v
  | 0x0110 => mcmdWrite s w
  | 0x0310 => dbgWrite s w
  | 0x0318 => doorbellWrite s v
  | 0x0604 => fcfgWrite s w
  | 0x0608 => putSelfst s w
  | 0x0A28 => attestationReport w s
  | 0x0A34 => svnWrite w s
  | 0x0A60 => measurementExtend w.toNat s
  | 0x0D48 => ftWrite s w
  | 0x0D90 => ckWriteCmd s w
  | _ =>
    match element off 0x0A80 8 16, element off 0x10000 8 4096, element off 0x20000 8 64, element off 0x100000 4 (16384 * Config.nClusters) with
    | some k, _, _, _ => putIrqv s (k / 2) (putHalf (mget 0 s.ctl.irqv (k / 2)) k v)
    | _, some k, _, _ => doorbell s (k / 64) (k % 64) w
    | _, _, some c, _ => retest s c
    | _, _, _, some k => if k % 16384 < 64 then bankWrite s (k / 16384) (k % 16384) w else s
    | none, none, none, none => s

/-- A write of the register at an offset of the control space, at the register's width; one of an offset that no register has, or of a read-only register,
has no effect (R15, R301; log 41). -/
def regWrite (s : State) (off : Nat) (v : W64) : State :=
  match plainWrite s.ctl off v with
  | some c => { s with ctl := c }
  | none => match arrayWrite s.ctl off v with
    | some c => { s with ctl := c }
    | none => actWrite s off v

/-- REGISTER_WRITE (R15). -/
def execRegisterWrite (off : Nat) (v : W64) (s : State) : Host.Outcome State Fault Refusal := .next (regWrite s off v)

/-! ## Reads -/

/-- RESULT and BUSY of a command status register. -/
def statusWord (result : Nat) (busy : Bool) : Nat := result * 2 ^ 8 + if busy then 1 else 0

/-- VSLOT(T) (R326). -/
def vslotRead (s : State) (tile : Nat) : Nat :=
  let full (i : Nat) : Nat := match mget none s.vault i with | some _ => 1 | none => 0
  let exp (i : Nat) : Nat := match mget none s.vault i with | some x => if x.exported then 1 else 0 | none => 0
  full (2 * tile) + 2 * full (2 * tile + 1) + 4 * exp (2 * tile) + 8 * exp (2 * tile + 1)

/-- NCAP(s) (R359). -/
def ncapRead (s : State) (k : Nat) : Nat :=
  let st := mget ({} : Stack) s.nearStacks k
  st.slots + match st.alias_ with | some f => 2 ^ 8 + f * 2 ^ 12 | none => 0

/-- FTST(c) (R396). -/
def ftstRead (s : State) (c : Nat) : Nat :=
  let k := clusterOf s c
  k.ftState + (if k.repaired then 8 else 0) + k.ftResult * 2 ^ 8 + k.ftFails * 2 ^ 16

/-- 64-bit part i of SWP(k) (R348). -/
def swapRead (s : State) (k i : Nat) : Nat :=
  let w := mget ({} : Swap) s.swaps k
  match i with
  | 0 => w.state + (if w.big then 4 else 0) + if w.err then 8 else 0
  | 2 => w.x
  | 3 => w.y
  | _ => if 8 ≤ i then sumNat ((w.prog.filter fun j => j / 64 == i - 8).map fun j => 2 ^ (j % 64)) else 0

/-- 64-bit part i of EXT(k) (R356). -/
def extentRead (s : State) (k i : Nat) : Nat :=
  let x := mget ({} : Extent) s.extents k
  match i with
  | 0 => x.state + 4 * x.port
  | 1 => x.base
  | 2 => x.len
  | _ => 0

/-- A register that stands alone, as it reads; write-only registers read as zero (R15, R301). -/
def soloRead (s : State) (off : Nat) : Option Nat :=
  let c := s.ctl
  match off with
  | 0x0000 => some c.ctxtb.toNat
  | 0x0010 => some (statusWord c.cmdResult s.cmd.isSome)
  | 0x0020 => some c.evrb.toNat
  | 0x0028 => some c.evrc.toNat
  | 0x0030 => some c.evrh.toNat
  | 0x0034 => some c.evrt.toNat
  | 0x0038 => some c.evcoal.toNat
  | 0x0040 => some Config.vaultBase
  | 0x0118 => some (statusWord c.mcmdResult c.mcmdBusy)
  | 0x0120 => some c.fltb.toNat
  | 0x0128 => some c.fltc.toNat
  | 0x012C => some c.flth.toNat
  | 0x0130 => some c.fltt.toNat
  | 0x0140 => some c.nqb.toNat
  | 0x0148 => some c.nqc.toNat
  | 0x0150 => some c.cntb.toNat
  | 0x0158 => some c.cntthr.toNat
  | 0x0314 => some (statusWord c.dbgResult (dbgBusy s))
  | 0x0600 => some c.fepid.toNat
  | 0x0604 => some c.fcfg.toNat
  | 0x0608 => some c.selfst.toNat
  | 0x0610 => some c.pstb.toNat
  | 0x0618 => some c.wdctl.toNat
  | 0x0620 => some c.hangst.toNat
  | 0x0A20 => some c.attb.toNat
  | 0x0A30 => some c.booterr.toNat
  | 0x0C40 => some c.pxbb.toNat
  | 0x0C80 => some c.smpb.toNat
  | 0x0C88 => some c.smpc.toNat
  | 0x0C8C => some c.smph.toNat
  | 0x0C90 => some c.smpt.toNat
  | 0x0D00 => some c.errb.toNat
  | 0x0D08 => some (c.errc.toNat % 32 + 256 * errOwner s)
  | 0x0D0C => some c.errh.toNat
  | 0x0D10 => some c.errt.toNat
  | 0x0D14 => some c.errdrop.toNat
  | 0x0D20 => some Config.predBase
  | 0x0D28 => some c.pthr.toNat
  | 0x0D40 => some c.ftpat.toNat
  | 0x0D80 => some c.ckb.toNat
  | 0x0D88 => some c.cklen.toNat
  | 0x0D94 => some (statusWord s.ck.result s.ck.busy + s.ck.streamed * 2 ^ 16)
  | 0x0DC0 => some c.pwrcap.toNat
  | 0x0DC4 => some c.pwrnow.toNat
  | 0x0DC8 => some c.fclk.toNat
  | 0x0DCC => some c.tempmax.toNat
  | _ => none

/-- The arrays of registers: base, stride, count, and what an element reads as. -/
def readArrays (s : State) : List (Nat × Nat × Nat × (Nat → Nat)) :=
  let c := s.ctl
  [(0x0180, 4, 12, ncapRead s), (0x0200, 8, 12, fun k => (mget ({} : Stack) s.nearStacks k).lmap.toNat), (0x0400, 8, 64, fun i => (mget 0 c.dbghb i).toNat),
   (0x0700, 8, 16, fun i => (mget 0 c.fport i).toNat), (0x0800, 8, 64, fun k => bits (mget 0 c.hang (k / 4)).toNat (64 * (k % 4)) 64),
   (0x0A00, 8, 4, fun k => bits c.attn.toNat (64 * k) 64), (0x0A40, 8, 4, fun k => bits c.mextd.toNat (64 * k) 64),
   (0x0A80, 8, 10, fun k => bits (mget 0 c.irqv (k / 2)).toNat (64 * (k % 2)) 64),
   (0x0B00, 8, 32, fun k => bits (mget 0 c.meas (k / 4)).toNat (64 * (k % 4)) 64), (0x0C00, 8, 2, fun i => (mget 0 c.pxcfg i).toNat),
   (0x0E00, 4, Config.nClusters, ftstRead s), (0x0F00, 8, 9, energyRead s)] ++
  [(0x30000, 4, 5 * Config.nClusters, vslotRead s), (0x40000, 8, 1024, fun k => swapRead s (k / 16) (k % 16)), (0x50000, 8, 64, fun i => (mget 0 c.logtb i).toNat),
   (0x60000, 8, 1024, fun k => extentRead s (k / 4) (k % 4)), (0x80000, 8, 8192, fun k => bits (mget 0 c.win (k / 2)).toNat (64 * (k % 2)) 64),
   (0xA0000, 8, 512, fun k => bits (mget 0 c.inb (k / 2)).toNat (64 * (k % 2)) 64),
   (0x100000, 4, 16384 * Config.nClusters, fun k => if k % 16384 < 64 then bankRead s (k / 16384) (k % 16384) else 0),
   (0x400000, 8, 640, fun k => bits (mget 0 c.lnc (k / 4)).toNat (64 * (k % 4)) 64)]

/-- The register, or the 64-bit part of one, at an offset of the control space, as it reads (R15, R301); zero where nothing reads (log 41). -/
def regRead (s : State) (off : Nat) : W64 :=
  BitVec.ofNat 64 (match soloRead s off with
    | some v => v
    | none => ((readArrays s).findSome? fun (base, stride, count, f) => (element off base stride count).map f).getD 0)

end Sys2Proof.Machine
end

