-- ==== Sys2Proof/Machine/Integer.lean ====
section
/-!
DEFINITION. Meanings of the integer instructions: arithmetic, logic, shifts, bit fields, comparisons, select and moves (R109, R141, R182 to R190).
-/

namespace Sys2Proof.Machine

/-- The affine rules of R141: addition. -/
def shAdd : Shape → Shape → Shape
  | .u x, .u y => .u (x + y)
  | .a b s, .u y => .a (b + y) s
  | .u y, .a b s => .a (y + b) s
  | .a b s, .a b' s' => .a (b + b') (s + s')
  | x, y => .ofFn fun l => x.at l + y.at l

/-- Subtraction (R141, R182). -/
def shSub : Shape → Shape → Shape
  | .u x, .u y => .u (x - y)
  | .a b s, .u y => .a (b - y) s
  | .u y, .a b s => .a (y - b) (0 - s)
  | .a b s, .a b' s' => .a (b - b') (s - s')
  | x, y => .ofFn fun l => x.at l - y.at l

/-- The low product (R141, R182). -/
def shMul : Shape → Shape → Shape
  | .u x, .u y => .u (x * y)
  | .a b s, .u k => .a (b * k) (s * k)
  | .u k, .a b s => .a (k * b) (k * s)
  | x, y => .ofFn fun l => x.at l * y.at l

/-- The left shift by bits [4:0] of the amount (R141, R185). -/
def shShl : Shape → Shape → Shape
  | .u x, .u n => .u (x <<< (n.toNat % 32))
  | .a b s, .u n => .a (b <<< (n.toNat % 32)) (s <<< (n.toNat % 32))
  | x, y => .ofFn fun l => x.at l <<< ((y.at l).toNat % 32)

/-- A lane-wise result of one operand with the default shape (R141). -/
def Ctx.map1 (c : Ctx) (d a : BitVec 7) (f : W32 → W32) : Res :=
  { s := c.s, regs := [(c.r d.toNat, defaultShape (c.sh a).isU fun l => f (c.lv a l))] }

/-- A lane-wise result of two operands with the default shape (R141). -/
def Ctx.map2 (c : Ctx) (d a b : BitVec 7) (f : W32 → W32 → W32) : Res :=
  { s := c.s, regs := [(c.r d.toNat, defaultShape ((c.sh a).isU && (c.sh b).isU) fun l => f (c.lv a l) (c.lv b l))] }

/-- A lane-wise result of the destination's old value and two operands, with the default shape (R141, R179). -/
def Ctx.map3 (c : Ctx) (d a b : BitVec 7) (f : W32 → W32 → W32 → W32) : Res :=
  { s := c.s, regs := [(c.r d.toNat, defaultShape ((c.sh d).isU && (c.sh a).isU && (c.sh b).isU) fun l => f (c.lv d l) (c.lv a l) (c.lv b l))] }

/-- A rotation to the left by n below 32 (R185). -/
def rotl32 (x : W32) (n : Nat) : W32 := if n = 0 then x else (x <<< n) ||| (x >>> (32 - n))

/-- Position and length of a bit field (R186). -/
def fieldPos (b : W32) : Nat := b.toNat % 32
def fieldLen (b : W32) : Nat := Nat.min (bits b.toNat 8 6) (32 - fieldPos b)

/-- bfe.n (R186). -/
def bfeUnsigned (a b : W32) : W32 := BitVec.ofNat 32 (a.toNat / 2 ^ fieldPos b % 2 ^ fieldLen b)

/-- bfe.i (R186). -/
def bfeSigned (a b : W32) : W32 :=
  if fieldLen b = 0 then 0 else BitVec.ofInt 32 (sextInt (fieldLen b) (a.toNat / 2 ^ fieldPos b % 2 ^ fieldLen b))

/-- bfi (R186). -/
def bfInsert (d a b : W32) : W32 :=
  let m := BitVec.ofNat 32 (2 ^ fieldLen b - 1)
  (d &&& ~~~(m <<< fieldPos b)) ||| ((a &&& m) <<< fieldPos b)

/-- The conditions of cmp (R134, R187): eq, ne, and the signed and unsigned orders. -/
def condHolds (k n x y : Nat) : Bool :=
  match k with
  | 0 => x == y
  | 1 => x != y
  | 2 => sextInt n x < sextInt n y
  | 3 => sextInt n x ≤ sextInt n y
  | 4 => sextInt n y < sextInt n x
  | 5 => sextInt n y ≤ sextInt n x
  | 6 => x < y
  | 7 => x ≤ y
  | 8 => y < x
  | _ => y ≤ x

/-- The conditions of cmp.64 (R138, R187). -/
def condHolds64 (k x y : Nat) : Bool :=
  match k with
  | 0 => x == y
  | 1 => x != y
  | 2 => sextInt 64 x < sextInt 64 y
  | 3 => sextInt 64 x ≤ sextInt 64 y
  | 4 => x < y
  | _ => x ≤ y

/-- The mask bits of the active lanes are written; the others stay (R179, R187). -/
def compareRes (c : Ctx) (d : BitVec 7) (p : Nat → Bool) : Res :=
  { s := c.s, masks := [(d.toNat, (c.g.mask d.toNat &&& ~~~c.act) ||| laneSet fun l => hasLane c.act l && p l)] }

/-- The result of sel (R188). -/
def selShape (act m : W32) (a b : Shape) : Shape :=
  if act &&& ~~~m = 0 then a
  else if act &&& m = 0 then b
  else if a.isU && b.isU && a.at 0 == b.at 0 then a
  else .ofFn fun l => if hasLane m l then a.at l else b.at l

/-- A value with one 16-bit part replaced (R189). -/
def setHalf (x : Nat) (i : BitVec 16) (h n : Nat) : BitVec n :=
  BitVec.ofNat n (x - bits x (16 * h) 16 * 2 ^ (16 * h) + i.toNat * 2 ^ (16 * h))

/-- ADD (R141, R182). -/
def execAdd (d : BitVec 7) (a : BitVec 7) (b : BitVec 7) (s : State) : Host.Outcome State Fault Refusal :=
  issue (.add d a b) s fun c => { s := c.s, regs := [(c.r d.toNat, shAdd (c.sh a) (c.sh b))] }

/-- SUB (R141, R182). -/
def execSub (d : BitVec 7) (a : BitVec 7) (b : BitVec 7) (s : State) : Host.Outcome State Fault Refusal :=
  issue (.sub d a b) s fun c => { s := c.s, regs := [(c.r d.toNat, shSub (c.sh a) (c.sh b))] }

/-- ADD_64 (R32, R182). -/
def execAdd64 (d : BitVec 7) (a : BitVec 7) (b : BitVec 7) (s : State) : Host.Outcome State Fault Refusal :=
  issue (.add64 d a b) s fun c => { s := c.s, regs := pairRes c d (c.pairU a && c.pairU b) fun l => c.pv a l + c.pv b l }

/-- SUB_64 (R32, R182). -/
def execSub64 (d : BitVec 7) (a : BitVec 7) (b : BitVec 7) (s : State) : Host.Outcome State Fault Refusal :=
  issue (.sub64 d a b) s fun c => { s := c.s, regs := pairRes c d (c.pairU a && c.pairU b) fun l => c.pv a l - c.pv b l }

/-- NEG (R182). -/
def execNeg (d : BitVec 7) (a : BitVec 7) (s : State) : Host.Outcome State Fault Refusal :=
  issue (.neg d a) s fun c => { s := c.s, regs := [(c.r d.toNat, shSub (.u 0) (c.sh a))] }

/-- ABS (R182). -/
def execAbs (d : BitVec 7) (a : BitVec 7) (s : State) : Host.Outcome State Fault Refusal :=
  issue (.abs d a) s fun c => c.map1 d a fun x => if x.msb then 0 - x else x

/-- ADDI (R141, R183). -/
def execAddi (d : BitVec 7) (a : BitVec 7) (i : BitVec 11) (s : State) : Host.Outcome State Fault Refusal :=
  issue (.addi d a i) s fun c => { s := c.s, regs := [(c.r d.toNat, shAdd (c.sh a) (.u (i.signExtend 32)))] }

/-- MUL_LO (R141, R182). -/
def execMulLo (d : BitVec 7) (a : BitVec 7) (b : BitVec 7) (s : State) : Host.Outcome State Fault Refusal :=
  issue (.mulLo d a b) s fun c => { s := c.s, regs := [(c.r d.toNat, shMul (c.sh a) (c.sh b))] }

/-- MUL_HI_I (R182). -/
def execMulHiI (d : BitVec 7) (a : BitVec 7) (b : BitVec 7) (s : State) : Host.Outcome State Fault Refusal :=
  issue (.mulHiI d a b) s fun c => c.map2 d a b fun x y => BitVec.ofInt 32 (x.toInt * y.toInt / 2 ^ 32)

/-- MUL_HI_N (R182). -/
def execMulHiN (d : BitVec 7) (a : BitVec 7) (b : BitVec 7) (s : State) : Host.Outcome State Fault Refusal :=
  issue (.mulHiN d a b) s fun c => c.map2 d a b fun x y => BitVec.ofNat 32 (x.toNat * y.toNat / 2 ^ 32)

/-- MAD_LO (R141, R182). -/
def execMadLo (d : BitVec 7) (a : BitVec 7) (b : BitVec 7) (s : State) : Host.Outcome State Fault Refusal :=
  issue (.madLo d a b) s fun c => { s := c.s, regs := [(c.r d.toNat, shAdd (shMul (c.sh a) (c.sh b)) (c.sh d))] }

/-- MUL_WIDE_I (R32, R182). -/
def execMulWideI (d : BitVec 7) (a : BitVec 7) (b : BitVec 7) (s : State) : Host.Outcome State Fault Refusal :=
  issue (.mulWideI d a b) s fun c => { s := c.s, regs := pairRes c d ((c.sh a).isU && (c.sh b).isU) fun l => BitVec.ofInt 64 ((c.lv a l).toInt * (c.lv b l).toInt) }

/-- MUL_WIDE_N (R32, R182). -/
def execMulWideN (d : BitVec 7) (a : BitVec 7) (b : BitVec 7) (s : State) : Host.Outcome State Fault Refusal :=
  issue (.mulWideN d a b) s fun c => { s := c.s, regs := pairRes c d ((c.sh a).isU && (c.sh b).isU) fun l => BitVec.ofNat 64 ((c.lv a l).toNat * (c.lv b l).toNat) }

/-- MIN_I (R182). -/
def execMinI (d : BitVec 7) (a : BitVec 7) (b : BitVec 7) (s : State) : Host.Outcome State Fault Refusal :=
  issue (.minI d a b) s fun c => c.map2 d a b fun x y => if x.toInt ≤ y.toInt then x else y

/-- MAX_I (R182). -/
def execMaxI (d : BitVec 7) (a : BitVec 7) (b : BitVec 7) (s : State) : Host.Outcome State Fault Refusal :=
  issue (.maxI d a b) s fun c => c.map2 d a b fun x y => if x.toInt ≤ y.toInt then y else x

/-- MIN_N (R182). -/
def execMinN (d : BitVec 7) (a : BitVec 7) (b : BitVec 7) (s : State) : Host.Outcome State Fault Refusal :=
  issue (.minN d a b) s fun c => c.map2 d a b fun x y => if x.toNat ≤ y.toNat then x else y

/-- MAX_N (R182). -/
def execMaxN (d : BitVec 7) (a : BitVec 7) (b : BitVec 7) (s : State) : Host.Outcome State Fault Refusal :=
  issue (.maxN d a b) s fun c => c.map2 d a b fun x y => if x.toNat ≤ y.toNat then y else x

/-- AND (R184). -/
def execAnd (d : BitVec 7) (a : BitVec 7) (b : BitVec 7) (s : State) : Host.Outcome State Fault Refusal :=
  issue (.and d a b) s fun c => c.map2 d a b fun x y => x &&& y

/-- OR (R184). -/
def execOr (d : BitVec 7) (a : BitVec 7) (b : BitVec 7) (s : State) : Host.Outcome State Fault Refusal :=
  issue (.or d a b) s fun c => c.map2 d a b fun x y => x ||| y

/-- XOR (R184). -/
def execXor (d : BitVec 7) (a : BitVec 7) (b : BitVec 7) (s : State) : Host.Outcome State Fault Refusal :=
  issue (.xor d a b) s fun c => c.map2 d a b fun x y => x ^^^ y

/-- ANDN (R184). -/
def execAndn (d : BitVec 7) (a : BitVec 7) (b : BitVec 7) (s : State) : Host.Outcome State Fault Refusal :=
  issue (.andn d a b) s fun c => c.map2 d a b fun x y => x &&& ~~~y

/-- NOT (R184). -/
def execNot (d : BitVec 7) (a : BitVec 7) (s : State) : Host.Outcome State Fault Refusal :=
  issue (.not d a) s fun c => c.map1 d a fun x => ~~~x

/-- ANDI (R183). -/
def execAndi (d : BitVec 7) (a : BitVec 7) (i : BitVec 11) (s : State) : Host.Outcome State Fault Refusal :=
  issue (.andi d a i) s fun c => c.map1 d a fun x => x &&& i.signExtend 32

/-- ORI (R183). -/
def execOri (d : BitVec 7) (a : BitVec 7) (i : BitVec 11) (s : State) : Host.Outcome State Fault Refusal :=
  issue (.ori d a i) s fun c => c.map1 d a fun x => x ||| i.signExtend 32

/-- XORI (R183). -/
def execXori (d : BitVec 7) (a : BitVec 7) (i : BitVec 11) (s : State) : Host.Outcome State Fault Refusal :=
  issue (.xori d a i) s fun c => c.map1 d a fun x => x ^^^ i.signExtend 32

/-- SHL (R141, R185). -/
def execShl (d : BitVec 7) (a : BitVec 7) (b : BitVec 7) (s : State) : Host.Outcome State Fault Refusal :=
  issue (.shl d a b) s fun c => { s := c.s, regs := [(c.r d.toNat, shShl (c.sh a) (c.sh b))] }

/-- SHR (R185). -/
def execShr (d : BitVec 7) (a : BitVec 7) (b : BitVec 7) (s : State) : Host.Outcome State Fault Refusal :=
  issue (.shr d a b) s fun c => c.map2 d a b fun x y => x >>> (y.toNat % 32)

/-- SAR (R185). -/
def execSar (d : BitVec 7) (a : BitVec 7) (b : BitVec 7) (s : State) : Host.Outcome State Fault Refusal :=
  issue (.sar d a b) s fun c => c.map2 d a b fun x y => x.sshiftRight (y.toNat % 32)

/-- ROTL (R185). -/
def execRotl (d : BitVec 7) (a : BitVec 7) (b : BitVec 7) (s : State) : Host.Outcome State Fault Refusal :=
  issue (.rotl d a b) s fun c => c.map2 d a b fun x y => rotl32 x (y.toNat % 32)

/-- SHL_64 (R32, R185). -/
def execShl64 (d : BitVec 7) (a : BitVec 7) (b : BitVec 7) (s : State) : Host.Outcome State Fault Refusal :=
  issue (.shl64 d a b) s fun c => { s := c.s, regs := pairRes c d (c.pairU a && (c.sh b).isU) fun l => c.pv a l <<< ((c.lv b l).toNat % 64) }

/-- SHR_64 (R32, R185). -/
def execShr64 (d : BitVec 7) (a : BitVec 7) (b : BitVec 7) (s : State) : Host.Outcome State Fault Refusal :=
  issue (.shr64 d a b) s fun c => { s := c.s, regs := pairRes c d (c.pairU a && (c.sh b).isU) fun l => c.pv a l >>> ((c.lv b l).toNat % 64) }

/-- SAR_64 (R32, R185). -/
def execSar64 (d : BitVec 7) (a : BitVec 7) (b : BitVec 7) (s : State) : Host.Outcome State Fault Refusal :=
  issue (.sar64 d a b) s fun c => { s := c.s, regs := pairRes c d (c.pairU a && (c.sh b).isU) fun l => (c.pv a l).sshiftRight ((c.lv b l).toNat % 64) }

/-- SHLI (R141, R185). -/
def execShli (d : BitVec 7) (a : BitVec 7) (n : BitVec 5) (s : State) : Host.Outcome State Fault Refusal :=
  issue (.shli d a n) s fun c => { s := c.s, regs := [(c.r d.toNat, shShl (c.sh a) (.u (n.setWidth 32)))] }

/-- SHRI (R185). -/
def execShri (d : BitVec 7) (a : BitVec 7) (n : BitVec 5) (s : State) : Host.Outcome State Fault Refusal :=
  issue (.shri d a n) s fun c => c.map1 d a fun x => x >>> n.toNat

/-- SARI (R185). -/
def execSari (d : BitVec 7) (a : BitVec 7) (n : BitVec 5) (s : State) : Host.Outcome State Fault Refusal :=
  issue (.sari d a n) s fun c => c.map1 d a fun x => x.sshiftRight n.toNat

/-- ROTLI (R185). -/
def execRotli (d : BitVec 7) (a : BitVec 7) (n : BitVec 5) (s : State) : Host.Outcome State Fault Refusal :=
  issue (.rotli d a n) s fun c => c.map1 d a fun x => rotl32 x n.toNat

/-- POPC (R186). -/
def execPopc (d : BitVec 7) (a : BitVec 7) (s : State) : Host.Outcome State Fault Refusal :=
  issue (.popc d a) s fun c => c.map1 d a fun x => BitVec.ofNat 32 (lanesOf x).length

/-- CLZ (R186). -/
def execClz (d : BitVec 7) (a : BitVec 7) (s : State) : Host.Outcome State Fault Refusal :=
  issue (.clz d a) s fun c => c.map1 d a fun x => BitVec.ofNat 32 (32 - bitLen x.toNat)

/-- BREV (R186). -/
def execBrev (d : BitVec 7) (a : BitVec 7) (s : State) : Host.Outcome State Fault Refusal :=
  issue (.brev d a) s fun c => c.map1 d a fun x => laneSet fun i => hasLane x (31 - i)

/-- BFE_I (R186). -/
def execBfeI (d : BitVec 7) (a : BitVec 7) (b : BitVec 7) (s : State) : Host.Outcome State Fault Refusal :=
  issue (.bfeI d a b) s fun c => c.map2 d a b bfeSigned

/-- BFE_N (R186). -/
def execBfeN (d : BitVec 7) (a : BitVec 7) (b : BitVec 7) (s : State) : Host.Outcome State Fault Refusal :=
  issue (.bfeN d a b) s fun c => c.map2 d a b bfeUnsigned

/-- BFI (R186). -/
def execBfi (d : BitVec 7) (a : BitVec 7) (b : BitVec 7) (s : State) : Host.Outcome State Fault Refusal :=
  issue (.bfi d a b) s fun c => c.map3 d a b bfInsert

/-- CMP (R187). -/
def execCmp (d : BitVec 7) (a : BitVec 7) (b : BitVec 7) (k : BitVec 4) (s : State) : Host.Outcome State Fault Refusal :=
  issue (.cmp d a b k) s fun c => compareRes c d fun l => condHolds k.toNat 32 (c.lv a l).toNat (c.lv b l).toNat

/-- CMP_64 (R138, R187). -/
def execCmp64 (d : BitVec 7) (a : BitVec 7) (b : BitVec 7) (k : BitVec 4) (s : State) : Host.Outcome State Fault Refusal :=
  issue (.cmp64 d a b k) s fun c => compareRes c d fun l => condHolds64 k.toNat (c.pv a l).toNat (c.pv b l).toNat

/-- SEL (R188). -/
def execSel (d : BitVec 7) (a : BitVec 7) (b : BitVec 7) (m : BitVec 4) (s : State) : Host.Outcome State Fault Refusal :=
  issue (.sel d a b m) s fun c => { s := c.s, regs := [(c.r d.toNat, selShape c.act (c.g.mask m.toNat) (c.sh a) (c.sh b))] }

/-- MOVL (R130, R189). -/
def execMovl (d : BitVec 7) (h : BitVec 2) (i : BitVec 16) (s : State) : Host.Outcome State Fault Refusal :=
  issue (.movl d h i) s fun c => 
    if h.toNat < 2 then { s := c.s, regs := uRes c d (i.setWidth 32 <<< (16 * h.toNat)) }
    else { s := c.s, regs := pairRes c d true fun _ => i.setWidth 64 <<< (16 * h.toNat) }

/-- MOVH (R130, R189). -/
def execMovh (d : BitVec 7) (h : BitVec 2) (i : BitVec 16) (s : State) : Host.Outcome State Fault Refusal :=
  issue (.movh d h i) s fun c => 
    if h.toNat < 2 then c.map1 d d fun x => setHalf x.toNat i h.toNat 32
    else { s := c.s, regs := pairRes c d (c.pairU d) fun l => setHalf (c.pv d l).toNat i h.toNat 64 }

/-- MOV (R190). -/
def execMov (d : BitVec 7) (a : BitVec 7) (s : State) : Host.Outcome State Fault Refusal :=
  issue (.mov d a) s fun c => { s := c.s, regs := [(c.r d.toNat, c.sh a)] }

/-- LANE (R190). -/
def execLane (d : BitVec 7) (s : State) : Host.Outcome State Fault Refusal :=
  issue (.lane d) s fun c => { s := c.s, regs := [(c.r d.toNat, .a 0 1)] }

end Sys2Proof.Machine
end

