-- ==== Sys2Proof/Machine/Transcend.lean ====
section
/-!
DEFINITION. The special functions of R203 and R204 on binary32. Quotients and square roots are exact integers with a sticky rest. The other
functions are computed in fixed point, in units of 2^-256, with an error far below any distance that a rounding could turn on (log 20).
-/

namespace Sys2Proof.Machine

/-- The integer square root, bit by bit from bit b - 1 down. -/
def isqrtFrom (n : Nat) : Nat → Nat → Nat
  | 0, r => r
  | b + 1, r => if (r + 2 ^ b) * (r + 2 ^ b) ≤ n then isqrtFrom n b (r + 2 ^ b) else isqrtFrom n b r

/-- The integer square root. -/
def isqrt (n : Nat) : Nat := isqrtFrom n (bitLen n / 2 + 1) 0

/-- 1 / a, a positive magnitude m × 2^e, rounded once. -/
def rcpRound (f : Fmt) (mode : RMode) (neg : Bool) (m : Nat) (e : Int) : Nat × W32 :=
  let k := bitLen m + 40
  f.round mode false false neg (2 ^ k / m) (-(k : Int) - e) (2 ^ k % m != 0)

/-- √(m × 2^e), rounded once. -/
def sqrtRound (f : Fmt) (mode : RMode) (m : Nat) (e : Int) : Nat × W32 :=
  let k : Nat := if e % 2 = 0 then 80 else 81
  let n := m * 2 ^ k
  f.round mode false false false (isqrt n) ((e - (k : Int)) / 2) (isqrt n * isqrt n != n)

/-- 1 / √(m × 2^e), rounded once. -/
def rsqRound (f : Fmt) (mode : RMode) (m : Nat) (e : Int) : Nat × W32 :=
  let k := bitLen m + 80
  let k := if ((k : Int) + e) % 2 = 0 then k else k + 1
  let r := isqrt (2 ^ k / m)
  f.round mode false false false r (-(((k : Int) + e) / 2)) (r * r * m != 2 ^ k)

/-- Fraction bits of the fixed point, and of the argument reduction. -/
abbrev fixW : Nat := 256
abbrev fixP : Nat := 416

/-- Terms of atanh or atan at 1/n: the odd powers over their odd numbers, in units of 2^-p. -/
def oddSeries (alt : Bool) (num den : Nat) : Nat → Nat → Nat → Bool → Int → Int
  | 0, _, _, _, acc => acc
  | f + 1, t, k, neg, acc =>
    oddSeries alt num den f (t * num / den) (k + 2) (alt && !neg) (if neg then acc - (t / k : Nat) else acc + (t / k : Nat))

/-- π in units of 2^-416 (Machin's formula). -/
def piFix : Nat :=
  (16 * oddSeries true 1 25 95 (2 ^ fixP / 5) 1 false 0 - 4 * oddSeries true 1 57121 30 (2 ^ fixP / 239) 1 false 0).toNat

/-- ln 2 in units of 2^-256: 2 atanh(1/3). -/
def ln2Fix : Nat := (2 * oddSeries false 1 9 85 (2 ^ fixW / 3) 1 false 0).toNat

/-- The series of e^t, t in units of 2^-256: the terms t^k / k!. -/
def expSeries (t : Nat) : Nat → Nat → Nat → Nat → Nat
  | 0, _, _, acc => acc
  | f + 1, term, k, acc => expSeries t f (term * t / 2 ^ fixW / k) (k + 1) (acc + term)

/-- e^t for t from 0 to 1. -/
def expFix (t : Nat) : Nat := expSeries t 70 (2 ^ fixW) 1 0

/-- The alternating series of sine and cosine: each term is the last one times r² over the next two factors. -/
def trigSeries (r2 : Nat) : Nat → Nat → Nat → Bool → Int → Int
  | 0, _, _, _, acc => acc
  | f + 1, term, k, neg, acc =>
    trigSeries r2 f (term * r2 / 2 ^ fixW / (k * (k + 1))) (k + 2) (!neg) (if neg then acc - term else acc + term)

/-- sin r and cos r for r from 0 to π / 2. -/
def sinFix (r : Nat) : Nat := (trigSeries (r * r / 2 ^ fixW) 40 r 2 false 0).toNat
def cosFix (r : Nat) : Nat := (trigSeries (r * r / 2 ^ fixW) 40 (2 ^ fixW) 1 false 0).toNat

/-- A number in units of 2^-256 that is not exact, times 2^n, rounded by RNE; NX is raised. -/
def fixRound (f : Fmt) (neg : Bool) (v : Nat) (n : Int) : Nat × W32 :=
  let (c, fl) := f.round .rne false false neg (2 * v + 1) (n - (fixW : Int) - 1) true
  (c, fl ||| flNX)

/-- Exact argument reduction: the quadrant of m × 2^e and the rest in units of 2^-256. -/
def reduceFix (m : Nat) (e : Int) : Nat × Nat :=
  let x := m * 2 ^ (e + (fixP : Int)).toNat
  (x / (piFix / 2), x % (piFix / 2) / 2 ^ (fixP - fixW))

/-- frcp (R203, R204). -/
def frcpV (mode : RMode) : FV → Nat × W32
  | .nan s => (fmtF32.nan, if s then flNV else 0)
  | .inf n => (fmtF32.zero n, 0)
  | .fin n m e => if m = 0 then (fmtF32.inf n, flDZ) else rcpRound fmtF32 mode n m e

/-- frsq (R203, R204). -/
def frsqV (mode : RMode) : FV → Nat × W32
  | .nan s => (fmtF32.nan, if s then flNV else 0)
  | .inf n => if n then (fmtF32.nan, flNV) else (0, 0)
  | .fin n m e => if m = 0 then (fmtF32.inf n, flDZ) else if n then (fmtF32.nan, flNV) else rsqRound fmtF32 mode m e

/-- fsqrt (R203, R204). -/
def fsqrtV (mode : RMode) : FV → Nat × W32
  | .nan s => (fmtF32.nan, if s then flNV else 0)
  | .inf n => if n then (fmtF32.nan, flNV) else (fmtF32.inf false, 0)
  | .fin n m e => if m = 0 then (fmtF32.zero n, 0) else if n then (fmtF32.nan, flNV) else sqrtRound fmtF32 mode m e

/-- 2^a for a finite a that is not 0: exact for integers (R204). -/
def exp2Fin (neg : Bool) (m : Nat) (e : Int) : Nat × W32 :=
  -- |a| in units of 2^-256; above 2^8 the result overflows or underflows
  if magLt 256 0 m e then
    (if neg then fmtF32.round .rne false false false 1 (-300) false else fmtF32.round .rne false false false 1 300 false)
  else
    let x := m * 2 ^ (e + (fixW : Int)).toNat
    let a : Int := if neg then -(x : Int) else x
    let n : Int := a.fdiv (2 ^ fixW : Nat)
    let fr := (a.fmod (2 ^ fixW : Nat)).toNat
    if fr = 0 then fmtF32.round .rne false false false 1 n false
    else fixRound fmtF32 false (expFix (fr * ln2Fix / 2 ^ fixW)) n

/-- fexp2 (R203, R204). -/
def fexp2V : FV → Nat × W32
  | .nan s => (fmtF32.nan, if s then flNV else 0)
  | .inf n => if n then (0, 0) else (fmtF32.inf false, 0)
  | .fin n m e => if m = 0 then (0x3F800000, 0) else exp2Fin n m e

/-- log2 of m × 2^e, m not 0: exact for powers of two (R204). -/
def log2Fin (m : Nat) (e : Int) : Nat × W32 :=
  let k := bitLen m - 1
  let n : Int := e + (k : Int)
  if m = 2 ^ k then (if n = 0 then (0, 0) else fmtF32.round .rne false false (n < 0) n.natAbs 0 false)
  else
    let z := (m - 2 ^ k) * 2 ^ fixW / (m + 2 ^ k)
    let ln := 2 * oddSeries false (z * z / 2 ^ fixW) (2 ^ fixW) 90 z 1 false 0
    let v : Int := n * (2 ^ fixW : Nat) + ln * (2 ^ fixW : Nat) / (ln2Fix : Int)
    fixRound fmtF32 (v < 0) v.natAbs 0

/-- flog2 (R203, R204). -/
def flog2V : FV → Nat × W32
  | .nan s => (fmtF32.nan, if s then flNV else 0)
  | .inf n => if n then (fmtF32.nan, flNV) else (fmtF32.inf false, 0)
  | .fin n m e => if m = 0 then (fmtF32.inf true, flDZ) else if n then (fmtF32.nan, flNV) else log2Fin m e

/-- A magnitude below 2^-40, where the function differs from its argument by less than 2^-80 of it: rounded just below the argument. OF and
UF are not raised (R203; log 19). -/
def belowArg (neg : Bool) (m : Nat) (e : Int) : Nat × W32 :=
  ((fmtF32.round .rne false false neg (m * 2 ^ 80 - 1) (e - 80) true).1, flNX)

/-- fsin (R203, R204). -/
def fsinV : FV → Nat × W32
  | .nan s => (fmtF32.nan, if s then flNV else 0)
  | .inf _ => (fmtF32.nan, flNV)
  | .fin n m e =>
    if m = 0 then (fmtF32.zero n, 0)
    else if magLt m e 1 (-40) then belowArg n m e
    else
      let (q, r) := reduceFix m e
      fixRound fmtF32 (n != (2 ≤ q % 4)) (if q % 2 = 0 then sinFix r else cosFix r) 0

/-- fcos (R203, R204). -/
def fcosV : FV → Nat × W32
  | .nan s => (fmtF32.nan, if s then flNV else 0)
  | .inf _ => (fmtF32.nan, flNV)
  | .fin _ m e =>
    if m = 0 then (0x3F800000, 0)
    else
      let (q, r) := reduceFix m e
      fixRound fmtF32 (q % 4 = 1 || q % 4 = 2) (if q % 2 = 0 then cosFix r else sinFix r) 0

/-- ftanh (R203, R204): (E - 1) / (E + 1) with E = e^2|a|. -/
def ftanhV : FV → Nat × W32
  | .nan s => (fmtF32.nan, if s then flNV else 0)
  | .inf n => (fmtF32.signed n 0x3F800000, 0)
  | .fin n m e =>
    if m = 0 then (fmtF32.zero n, 0)
    else if magLt m e 1 (-40) then belowArg n m e
    else if magLt 16 0 m e then fixRound fmtF32 n (2 ^ fixW - 2 ^ (fixW - 60)) 0
    else
      let x := 2 * m * 2 ^ (e + (fixW : Int)).toNat
      let k := x / ln2Fix
      let ex := expFix (x % ln2Fix) * 2 ^ k
      fixRound fmtF32 n ((ex - 2 ^ fixW) * 2 ^ fixW / (ex + 2 ^ fixW)) 0

end Sys2Proof.Machine
end

