-- ==== Sys2Proof/Machine/Float.lean ====
section
/-!
DEFINITION. Meanings of the floating-point instructions: binary32 (R195, R198 to R200), binary64 (R201), packed halves (R202) and the special
functions (R203, R204).
-/

namespace Sys2Proof.Machine

/-- The flags that the active lanes raise (R49). -/
def laneFlags (c : Ctx) (f : Nat → W32) : W32 := c.lanes.foldl (fun a l => a ||| f l) 0

/-- A 32-bit floating-point result with the default shape (R141), and its flags. -/
def floatRes (c : Ctx) (d : BitVec 7) (uni : Bool) (f : Nat → Nat × W32) : Res :=
  { s := c.s, regs := [(c.r d.toNat, defaultShape uni fun l => BitVec.ofNat 32 (f l).1)], flags := laneFlags c fun l => (f l).2 }

/-- A 64-bit floating-point result (R32), and its flags. -/
def doubleRes (c : Ctx) (d : BitVec 7) (uni : Bool) (f : Nat → Nat × W32) : Res :=
  { s := c.s, regs := pairRes c d uni fun l => BitVec.ofNat 64 (f l).1, flags := laneFlags c fun l => (f l).2 }

/-- The binary32 value of lane l. -/
def Ctx.f32 (c : Ctx) (f : BitVec 7) (l : Nat) : FV := fmtF32.decode (c.lv f l).toNat

/-- The binary64 value of lane l. -/
def Ctx.f64 (c : Ctx) (f : BitVec 7) (l : Nat) : FV := fmtF64.decode (c.pv f l).toNat

/-- The rounding mode of the group (R110). -/
def Ctx.rm (c : Ctx) : RMode := rmOf c.g.fpcr

/-- A binary32 operation of two operands. -/
def float2 (c : Ctx) (d a b : BitVec 7) (f : FV → FV → Nat × W32) : Res :=
  floatRes c d ((c.sh a).isU && (c.sh b).isU) fun l => f (c.f32 a l) (c.f32 b l)

/-- A binary32 operation of the destination's old value and two operands. -/
def float3 (c : Ctx) (d a b : BitVec 7) (f : FV → FV → FV → Nat × W32) : Res :=
  floatRes c d ((c.sh d).isU && (c.sh a).isU && (c.sh b).isU) fun l => f (c.f32 a l) (c.f32 b l) (c.f32 d l)

/-- A binary64 operation of two operands. -/
def double2 (c : Ctx) (d a b : BitVec 7) (f : FV → FV → Nat × W32) : Res :=
  doubleRes c d (c.pairU a && c.pairU b) fun l => f (c.f64 a l) (c.f64 b l)

/-- FADD (R198). -/
def execFadd (d a b : BitVec 7) (s : State) : Host.Outcome State Fault Refusal :=
  issue (.fadd d a b) s fun c => float2 c d a b fun x y => fmtF32.addV c.rm false x y

/-- FSUB (R198). -/
def execFsub (d a b : BitVec 7) (s : State) : Host.Outcome State Fault Refusal :=
  issue (.fsub d a b) s fun c => float2 c d a b fun x y => fmtF32.addV c.rm false x y.negate

/-- FMUL (R198). -/
def execFmul (d a b : BitVec 7) (s : State) : Host.Outcome State Fault Refusal :=
  issue (.fmul d a b) s fun c => float2 c d a b fun x y => fmtF32.mul c.rm false x y

/-- FMIN (R195). -/
def execFmin (d a b : BitVec 7) (s : State) : Host.Outcome State Fault Refusal :=
  issue (.fmin d a b) s fun c => floatRes c d ((c.sh a).isU && (c.sh b).isU) fun l => fmtF32.minmax false (c.lv a l).toNat (c.lv b l).toNat

/-- FMAX (R195). -/
def execFmax (d a b : BitVec 7) (s : State) : Host.Outcome State Fault Refusal :=
  issue (.fmax d a b) s fun c => floatRes c d ((c.sh a).isU && (c.sh b).isU) fun l => fmtF32.minmax true (c.lv a l).toNat (c.lv b l).toNat

/-- A sign operation: a NaN gives the canonical NaN, with NV when it is signalling (R107, R198, R200). -/
def signOp (x y : Nat) : Nat × W32 := if (fmtF32.decode x).isNan then (fmtF32.nan, nvOf (fmtF32.decode x)) else (y, 0)

/-- FNEG (R198). -/
def execFneg (d a : BitVec 7) (s : State) : Host.Outcome State Fault Refusal :=
  issue (.fneg d a) s fun c => floatRes c d (c.sh a).isU fun l => signOp (c.lv a l).toNat ((c.lv a l) ^^^ 0x80000000).toNat

/-- FABS (R198). -/
def execFabs (d a : BitVec 7) (s : State) : Host.Outcome State Fault Refusal :=
  issue (.fabs d a) s fun c => floatRes c d (c.sh a).isU fun l => signOp (c.lv a l).toNat ((c.lv a l) &&& 0x7FFFFFFF).toNat

/-- FFMA (R198): one rounding. -/
def execFfma (d a b : BitVec 7) (s : State) : Host.Outcome State Fault Refusal :=
  issue (.ffma d a b) s fun c => float3 c d a b fun x y z => fmtF32.fma c.rm false x y z

/-- FFMS (R198): one rounding. -/
def execFfms (d a b : BitVec 7) (s : State) : Host.Outcome State Fault Refusal :=
  issue (.ffms d a b) s fun c => float3 c d a b fun x y z => fmtF32.fma c.rm false x.negate y z

/-- FCMP (R199). -/
def execFcmp (d a b : BitVec 7) (k : BitVec 4) (s : State) : Host.Outcome State Fault Refusal :=
  issue (.fcmp d a b k) s fun c =>
    { compareRes c d (fun l => (fcmpV k.toNat (c.f32 a l) (c.f32 b l)).1) with
      flags := laneFlags c fun l => (fcmpV k.toNat (c.f32 a l) (c.f32 b l)).2 }

/-- A special function on binary32 (R203). -/
def special (c : Ctx) (d a : BitVec 7) (f : FV → Nat × W32) : Res := floatRes c d (c.sh a).isU fun l => f (c.f32 a l)

/-- FRCP (R203, R204). -/
def execFrcp (d a : BitVec 7) (la : BitVec 4) (s : State) : Host.Outcome State Fault Refusal :=
  issue (.frcp d a la) s fun c => special c d a (frcpV c.rm)

/-- FRSQ (R203, R204). -/
def execFrsq (d a : BitVec 7) (la : BitVec 4) (s : State) : Host.Outcome State Fault Refusal :=
  issue (.frsq d a la) s fun c => special c d a (frsqV c.rm)

/-- FSQRT (R203, R204). -/
def execFsqrt (d a : BitVec 7) (la : BitVec 4) (s : State) : Host.Outcome State Fault Refusal :=
  issue (.fsqrt d a la) s fun c => special c d a (fsqrtV c.rm)

/-- FEXP2 (R203, R204). -/
def execFexp2 (d a : BitVec 7) (la : BitVec 4) (s : State) : Host.Outcome State Fault Refusal :=
  issue (.fexp2 d a la) s fun c => special c d a fexp2V

/-- FLOG2 (R203, R204). -/
def execFlog2 (d a : BitVec 7) (la : BitVec 4) (s : State) : Host.Outcome State Fault Refusal :=
  issue (.flog2 d a la) s fun c => special c d a flog2V

/-- FSIN (R203, R204). -/
def execFsin (d a : BitVec 7) (la : BitVec 4) (s : State) : Host.Outcome State Fault Refusal :=
  issue (.fsin d a la) s fun c => special c d a fsinV

/-- FCOS (R203, R204). -/
def execFcos (d a : BitVec 7) (la : BitVec 4) (s : State) : Host.Outcome State Fault Refusal :=
  issue (.fcos d a la) s fun c => special c d a fcosV

/-- FTANH (R203, R204). -/
def execFtanh (d a : BitVec 7) (la : BitVec 4) (s : State) : Host.Outcome State Fault Refusal :=
  issue (.ftanh d a la) s fun c => special c d a ftanhV

/-- DADD (R201). -/
def execDadd (d a b : BitVec 7) (s : State) : Host.Outcome State Fault Refusal :=
  issue (.dadd d a b) s fun c => double2 c d a b fun x y => fmtF64.addV c.rm false x y

/-- DSUB (R201). -/
def execDsub (d a b : BitVec 7) (s : State) : Host.Outcome State Fault Refusal :=
  issue (.dsub d a b) s fun c => double2 c d a b fun x y => fmtF64.addV c.rm false x y.negate

/-- DMUL (R201). -/
def execDmul (d a b : BitVec 7) (s : State) : Host.Outcome State Fault Refusal :=
  issue (.dmul d a b) s fun c => double2 c d a b fun x y => fmtF64.mul c.rm false x y

/-- DFMA (R201): one rounding. -/
def execDfma (d a b : BitVec 7) (s : State) : Host.Outcome State Fault Refusal :=
  issue (.dfma d a b) s fun c =>
    doubleRes c d (c.pairU d && c.pairU a && c.pairU b) fun l => fmtF64.fma c.rm false (c.f64 a l) (c.f64 b l) (c.f64 d l)

/-- DMIN (R195, R201). -/
def execDmin (d a b : BitVec 7) (s : State) : Host.Outcome State Fault Refusal :=
  issue (.dmin d a b) s fun c => doubleRes c d (c.pairU a && c.pairU b) fun l => fmtF64.minmax false (c.pv a l).toNat (c.pv b l).toNat

/-- DMAX (R195, R201). -/
def execDmax (d a b : BitVec 7) (s : State) : Host.Outcome State Fault Refusal :=
  issue (.dmax d a b) s fun c => doubleRes c d (c.pairU a && c.pairU b) fun l => fmtF64.minmax true (c.pv a l).toNat (c.pv b l).toNat

/-- DCMP (R199). -/
def execDcmp (d a b : BitVec 7) (k : BitVec 4) (s : State) : Host.Outcome State Fault Refusal :=
  issue (.dcmp d a b k) s fun c =>
    { compareRes c d (fun l => (fcmpV k.toNat (c.f64 a l) (c.f64 b l)).1) with
      flags := laneFlags c fun l => (fcmpV k.toNat (c.f64 a l) (c.f64 b l)).2 }

/-- A packed-half operation: each element is computed on its own, with the flags of both (R202). -/
def half2 (f : Fmt) (ftz : Bool) (op : FV → FV → FV → Nat × W32) (x y z : W32) : Nat × W32 :=
  let (v0, f0) := op (f.read ftz (bits x.toNat 0 16)) (f.read ftz (bits y.toNat 0 16)) (f.read ftz (bits z.toNat 0 16))
  let (v1, f1) := op (f.read ftz (bits x.toNat 16 16)) (f.read ftz (bits y.toNat 16 16)) (f.read ftz (bits z.toNat 16 16))
  (v0 + v1 * 65536, f0 ||| f1)

/-- A packed-half sum or product. -/
def halfRes (c : Ctx) (d a b : BitVec 7) (f : Fmt) (op : FV → FV → Nat × W32) : Res :=
  floatRes c d ((c.sh a).isU && (c.sh b).isU) fun l => half2 f (ftzOf c.g.fpcr) (fun x y _ => op x y) (c.lv a l) (c.lv b l) 0

/-- A packed-half fused multiply-add. -/
def halfFma (c : Ctx) (d a b : BitVec 7) (f : Fmt) : Res :=
  let ftz := ftzOf c.g.fpcr
  floatRes c d ((c.sh d).isU && (c.sh a).isU && (c.sh b).isU) fun l => half2 f ftz (f.fma c.rm ftz) (c.lv a l) (c.lv b l) (c.lv d l)

/-- HADD2_F16 (R202). -/
def execHadd2F16 (d a b : BitVec 7) (s : State) : Host.Outcome State Fault Refusal :=
  issue (.hadd2F16 d a b) s fun c => halfRes c d a b fmtF16 (fmtF16.addV c.rm (ftzOf c.g.fpcr))

/-- HMUL2_F16 (R202). -/
def execHmul2F16 (d a b : BitVec 7) (s : State) : Host.Outcome State Fault Refusal :=
  issue (.hmul2F16 d a b) s fun c => halfRes c d a b fmtF16 (fmtF16.mul c.rm (ftzOf c.g.fpcr))

/-- HFMA2_F16 (R202). -/
def execHfma2F16 (d a b : BitVec 7) (s : State) : Host.Outcome State Fault Refusal :=
  issue (.hfma2F16 d a b) s fun c => halfFma c d a b fmtF16

/-- HADD2_BF16 (R202). -/
def execHadd2Bf16 (d a b : BitVec 7) (s : State) : Host.Outcome State Fault Refusal :=
  issue (.hadd2Bf16 d a b) s fun c => halfRes c d a b fmtBF16 (fmtBF16.addV c.rm (ftzOf c.g.fpcr))

/-- HMUL2_BF16 (R202). -/
def execHmul2Bf16 (d a b : BitVec 7) (s : State) : Host.Outcome State Fault Refusal :=
  issue (.hmul2Bf16 d a b) s fun c => halfRes c d a b fmtBF16 (fmtBF16.mul c.rm (ftzOf c.g.fpcr))

/-- HFMA2_BF16 (R202). -/
def execHfma2Bf16 (d a b : BitVec 7) (s : State) : Host.Outcome State Fault Refusal :=
  issue (.hfma2Bf16 d a b) s fun c => halfFma c d a b fmtBF16

/-- The class of a binary32 code, as one bit (R200). -/
def classBit (x : Nat) : Nat :=
  match fmtF32.decode x with
  | .nan s => if s then 8 else 9
  | .inf n => if n then 0 else 7
  | .fin n m _ =>
    if m = 0 then (if n then 3 else 4)
    else if m < 2 ^ 23 then (if n then 2 else 5)
    else (if n then 1 else 6)

/-- FCLASS (R200): no flag. -/
def execFclass (d a : BitVec 7) (s : State) : Host.Outcome State Fault Refusal :=
  issue (.fclass d a) s fun c => c.map1 d a fun x => BitVec.ofNat 32 (2 ^ classBit x.toNat)

/-- FCOPYSIGN (R200). -/
def execFcopysign (d a b : BitVec 7) (s : State) : Host.Outcome State Fault Refusal :=
  issue (.fcopysign d a b) s fun c => floatRes c d ((c.sh a).isU && (c.sh b).isU) fun l =>
    signOp (c.lv a l).toNat (((c.lv a l) &&& 0x7FFFFFFF) ||| ((c.lv b l) &&& 0x80000000)).toNat

/-- a − Trunc(a), exact, with a's sign (R200). -/
def fracV : FV → Nat × W32
  | .nan s => (fmtF32.nan, if s then flNV else 0)
  | .inf _ => (fmtF32.nan, flNV)
  | .fin n m e => (((fmtF32.ofFV .rne false false (.fin n (if 0 ≤ e then 0 else m % 2 ^ e.natAbs) e))).1, 0)

/-- FFRAC (R200). -/
def execFfrac (d a : BitVec 7) (s : State) : Host.Outcome State Fault Refusal :=
  issue (.ffrac d a) s fun c => special c d a fracV

/-- a rounded to an integral value, with a's sign; NX is never raised (R200). -/
def integralV (mode : RMode) : FV → Nat × W32
  | .nan s => (fmtF32.nan, if s then flNV else 0)
  | .inf n => (fmtF32.inf n, 0)
  | .fin n m e => ((fmtF32.ofFV .rne false false (.fin n (roundInt mode n m e).1 0)).1, 0)

/-- FROUND (R200). -/
def execFround (d a : BitVec 7) (s : State) : Host.Outcome State Fault Refusal :=
  issue (.fround d a) s fun c => special c d a (integralV c.rm)

end Sys2Proof.Machine
end

