-- ==== Sys2Proof/Machine/Convert.lean ====
section
/-!
DEFINITION. Meanings of the conversions (R120, R205, R206) and of the block-packing instructions (R116 to R118, R207), with the stochastic
rounding that steps the lanes' generators (R114, R115).
-/

namespace Sys2Proof.Machine

/-- What one conversion may use: the target's mode, SAT and FTZ. -/
structure Conv where
  mode : RMode
  sat : Bool
  ftz : Bool

/-- Float to float (R120). -/
def Conv.ff (k : Conv) (src dst : Fmt) (x : Nat) : Nat × W32 := dst.ofFV k.mode k.sat k.ftz (src.read k.ftz x)

/-- Integer to float (R120). -/
def Conv.intF (k : Conv) (dst : Fmt) (v : Int) : Nat × W32 := dst.ofFV k.mode k.sat k.ftz (.fin (v < 0) v.natAbs 0)

/-- Float to integer of n bits, saturating, as two's complement of `w` bits (R120, R205). -/
def Conv.fInt (k : Conv) (src : Fmt) (lo hi : Int) (w x : Nat) : Nat × W32 :=
  let (v, f) := toIntSat k.mode lo hi (src.read k.ftz x)
  ((v % (2 ^ w : Nat)).toNat, f)

/-- Integer to integer, saturating (R120). -/
def satInt (lo hi : Int) (w : Nat) (v : Int) : Nat × W32 := (((if v < lo then lo else if hi < v then hi else v) % (2 ^ w : Nat)).toNat, 0)

/-- Largest value of a signed and of an unsigned integer of n bits. -/
abbrev maxI (n : Nat) : Int := (2 ^ (n - 1) : Nat) - 1
abbrev minI (n : Nat) : Int := -(2 ^ (n - 1) : Nat)
abbrev maxN (n : Nat) : Int := (2 ^ n : Nat) - 1

/-- binary32 to E8M0 (R120). -/
def toE8M0 : FV → Nat × W32
  | .nan _ => (0xFF, flNV)
  | .inf _ => (0xFF, flNV)
  | .fin _ m e =>
    if m = 0 then (0, flNX)
    else
      let k : Int := e + (bitLen m : Int) - 1 + 127
      if k < 0 then (0, flNX) else if 254 < k then (254, flNX) else (k.toNat, if m = 2 ^ (bitLen m - 1) then 0 else flNX)

/-- The value of an E8M0 code (R106). -/
def e8m0V (x : Nat) : FV := if x % 256 = 0xFF then .nan false else .fin false 1 ((x % 256 : Nat) - 127)

/-- One value converted by a conversion index: the source as up to 64 bits, the result as up to 64 bits, and the flags (R205). The pack forms with an 8-bit
target, 44 and 45, saturate as SAT has it (R112; log 113). -/
def convert (i : Nat) (k : Conv) (x : Nat) : Nat × W32 :=
  let lo32 := x % 2 ^ 32
  match i with
  | 0 => k.ff fmtF64 fmtF32 x
  | 1 => k.ff fmtF32 fmtF64 lo32
  | 2 => k.ff fmtF32 fmtF16 lo32
  | 3 => k.ff fmtF16 fmtF32 (x % 2 ^ 16)
  | 4 => k.ff fmtF32 fmtBF16 lo32
  | 5 => k.ff fmtBF16 fmtF32 (x % 2 ^ 16)
  | 6 => k.ff fmtF32 fmtE4M3 lo32
  | 7 => k.ff fmtE4M3 fmtF32 (x % 2 ^ 8)
  | 8 => k.ff fmtF32 fmtE5M2 lo32
  | 9 => k.ff fmtE5M2 fmtF32 (x % 2 ^ 8)
  | 10 => k.ff fmtF32 fmtE2M3 lo32
  | 11 => k.ff fmtE2M3 fmtF32 (x % 2 ^ 6)
  | 12 => k.ff fmtF32 fmtE3M2 lo32
  | 13 => k.ff fmtE3M2 fmtF32 (x % 2 ^ 6)
  | 14 => k.ff fmtF32 fmtE2M1 lo32
  | 15 => k.ff fmtE2M1 fmtF32 (x % 2 ^ 4)
  | 16 => toE8M0 (fmtF32.decode lo32)
  | 17 => fmtF32.ofFV k.mode k.sat k.ftz (e8m0V x)
  | 18 => k.fInt fmtF32 (minI 32) (maxI 32) 32 lo32
  | 19 => k.fInt fmtF32 0 (maxN 32) 32 lo32
  | 20 => k.intF fmtF32 (sextInt 32 lo32)
  | 21 => k.intF fmtF32 lo32
  | 22 => k.fInt fmtF32 (minI 8) (maxI 8) 32 lo32
  | 23 => k.fInt fmtF32 (minI 4) (maxI 4) 32 lo32
  | 24 => k.fInt fmtF64 (minI 64) (maxI 64) 64 x
  | 25 => k.fInt fmtF64 0 (maxN 64) 64 x
  | 26 => k.intF fmtF64 (sextInt 64 x)
  | 27 => k.intF fmtF64 x
  | 28 => k.fInt fmtF64 (minI 32) (maxI 32) 32 x
  | 29 => k.intF fmtF64 (sextInt 32 lo32)
  | 30 => k.ff fmtF16 fmtBF16 (x % 2 ^ 16)
  | 31 => k.ff fmtBF16 fmtF16 (x % 2 ^ 16)
  | 32 => satInt (minI 8) (maxI 8) 32 (sextInt 32 lo32)
  | 33 => satInt 0 (maxN 8) 32 lo32
  | 34 => satInt (minI 16) (maxI 16) 32 (sextInt 32 lo32)
  | 35 => satInt 0 (maxN 16) 32 lo32
  | 36 => satInt (minI 32) (maxI 32) 32 (sextInt 64 x)
  | 37 => satInt 0 (maxN 32) 32 x
  | 38 => (((sextInt 32 lo32) % (2 ^ 64 : Nat)).toNat, 0)
  | 39 => (lo32, 0)
  | 40 => satInt 0 (maxN 32) 32 (sextInt 32 lo32)
  | 41 => satInt (minI 32) (maxI 32) 32 lo32
  | 42 => k.ff fmtF32 fmtBF16 lo32
  | 43 => k.ff fmtF32 fmtF16 lo32
  | 44 => k.ff fmtF32 fmtE4M3 lo32
  | _ => k.ff fmtF32 fmtE5M2 lo32

/-- Width of one element of a pack form (R205). -/
def packWidth (i : Nat) : Nat := if i < 44 then 16 else 8

/-- The generators of the active lanes after n steps (R115). -/
def stepGens (c : Ctx) (n : Nat) : State :=
  modGroup c.s c.g.who fun g => g.modLanes c.act fun _ x => { x with gen := (upto n).foldl (fun v _ => stepGen v) x.gen }

/-- The mode of lane l's element k: the group's, or stochastic with the generator stepped k + 1 times (R115). -/
def elemMode (c : Ctx) (st : Bool) (l k : Nat) : RMode :=
  if st then .stoch ((upto (k + 1)).foldl (fun v _ => stepGen v) (c.g.lane l).gen).toNat else c.rm

/-- Lane l's conversion (R205). -/
def cvtLane (c : Ctx) (a : BitVec 7) (st : Bool) (i l : Nat) : Nat × W32 :=
  let conv (k : Nat) : Conv := { mode := elemMode c st l k, sat := satOf c.g.fpcr, ftz := ftzOf c.g.fpcr }
  if 42 ≤ i then
    let (v0, f0) := convert i (conv 0) (c.lvk a 0 l).toNat
    let (v1, f1) := convert i (conv 1) (c.lvk a 1 l).toNat
    (v0 + v1 * 2 ^ packWidth i, f0 ||| f1)
  else if cvtFromWide i then convert i (conv 0) (c.pv a l).toNat
  else convert i (conv 0) (c.lv a l).toNat

/-- CVT (R120, R205, R206): a stochastic conversion steps the generators and gives G. -/
def execCvt (d a : BitVec 7) (st : BitVec 1) (i : BitVec 6) (la : BitVec 4) (s : State) : Host.Outcome State Fault Refusal :=
  issue (.cvt d a st i la) s fun c =>
    let sto := st = 1
    let n := i.toNat
    let uni := (if cvtFromWide n then c.pairU a else (c.sh a).isU) && !sto
    let f := cvtLane c a sto n
    let r := if cvtWide n then doubleRes c d uni f else floatRes c d uni f
    if sto then { r with s := stepGens c (if 42 ≤ n then 2 else 1) } else r

/-- The block a pack reads: the active lanes' values (R207). -/
def blockVals (c : Ctx) (a : BitVec 7) : List FV := c.lanes.map (c.f32 a)

/-- A NaN or an infinity stands among the values. -/
def badBlock (vs : List FV) : Bool := vs.any fun v => match v with | .fin _ _ _ => false | _ => true

/-- The largest magnitude of finite values: integer and exponent; (0, 0) when all are zero. -/
def amaxOf (vs : List FV) : Nat × Int :=
  vs.foldl (fun (b : Nat × Int) v => match v with
    | .fin _ m e => if magLt b.1 b.2 m e then (m, e) else b
    | _ => b) (0, 0)

/-- Element formats of mxpack and mxunpack, with Emax and the bits of a code (R117, R207). -/
def mxFmt (k : Nat) : Fmt × Int × Nat :=
  match k with
  | 0 => (fmtE4M3, 8, 8)
  | 1 => (fmtE5M2, 15, 8)
  | 2 => (fmtE2M3, 2, 6)
  | 3 => (fmtE3M2, 4, 6)
  | _ => (fmtE2M1, 2, 4)

/-- The scale exponent of an MX block (R117). -/
def mxScale (vs : List FV) (emax : Int) : Int :=
  let (m, e) := amaxOf vs
  if m = 0 then -127 else max (-127) (min 127 (e + (bitLen m : Int) - 1 - emax))

/-- One element of an MX block: the exact quotient, rounded once, always saturating (R117). -/
def mxElem (f : Fmt) (mode : RMode) (xs : Int) : FV → Nat × W32
  | .fin n m e => f.ofFV mode true false (.fin n m (e - xs))
  | _ => (0, 0)

/-- MXPACK (R117, R207). -/
def execMxpack (d a : BitVec 7) (la : BitVec 4) (s : State) : Host.Outcome State Fault Refusal :=
  issue (.mxpack d a la) s fun c =>
    let ctl := (c.lvk a 1 0).toNat
    let st := bits ctl 8 1 == 1
    let (f, emax, _) := mxFmt (bits ctl 0 3)
    let vs := blockVals c a
    let xs := mxScale vs emax
    let elem (l : Nat) : Nat × W32 := if badBlock vs then (0, flNV) else mxElem f (elemMode c st l 0) xs (c.f32 a l)
    let r := floatRes c d ((c.sh a).isU && !st) elem
    { r with
      s := if st then stepGens c 1 else c.s
      regs := r.regs ++ [(c.r (d.toNat + 1), .u (BitVec.ofNat 32 (if badBlock vs then 0xFF else (xs + 127).toNat)))] }

/-- MXUNPACK (R116, R207). -/
def execMxunpack (d a : BitVec 7) (la : BitVec 4) (s : State) : Host.Outcome State Fault Refusal :=
  issue (.mxunpack d a la) s fun c =>
    let ctl := (c.lvk a 1 0).toNat
    let (f, _, w) := mxFmt (bits ctl 0 3)
    floatRes c d (c.sh a).isU fun l =>
      match e8m0V (bits ctl 8 8), f.decode ((c.lv a l).toNat % 2 ^ w) with
      | .nan _, _ => (fmtF32.nan, 0)
      | .fin _ _ k, .fin n m e => fmtF32.ofFV c.rm false false (.fin n m (e + k))
      | _, v => fmtF32.ofFV c.rm false false v

/-- The scale that amax gives a unit: amax / 7 rounded by RNE to bf16 (R118). -/
def qScale (ftz : Bool) (vs : List FV) : Nat × W32 :=
  let (m, e) := amaxOf vs
  if m = 0 then (0, 0) else fmtBF16.round .rne false ftz false (m * 2 ^ 64 / 7) (e - 64) (m * 2 ^ 64 % 7 != 0)

/-- One quantized element: the quotient rounded to an integer and clamped (R118). -/
def qElem (mode : RMode) (scale v : FV) : Int × W32 :=
  match scale, v with
  | .fin sn sm se, .fin n m e =>
    if sm = 0 || m = 0 then (0, 0)
    else
      let q := m * 2 ^ 700 / sm
      let cut := cutAt q (e - se - 700) 0 (m * 2 ^ 700 % sm != 0)
      let k : Int := roundCut mode (n != sn) cut
      let k := if n != sn then -k else k
      if k < -7 then (-7, flNX) else if 7 < k then (7, flNX) else (k, if cut.exact then 0 else flNX)
  | _, _ => (0, 0)

/-- QPACK4 (R118, R207). -/
def execQpack4 (d a : BitVec 7) (la : BitVec 4) (s : State) : Host.Outcome State Fault Refusal :=
  issue (.qpack4 d a la) s fun c =>
    let ctl := (c.lvk a 1 0).toNat
    let st := bits ctl 8 1 == 1
    let ftz := ftzOf c.g.fpcr
    let vs := blockVals c a
    let bad := badBlock vs
    let (sc, sf) := if bits ctl 9 1 = 1 then (bits ctl 16 16, 0) else if bad then (0, 0) else qScale ftz vs
    let scale := fmtBF16.read ftz sc
    let elem (l : Nat) : Nat × W32 :=
      if bad || scale.isNan then (0, flNV)
      else let (q, f) := qElem (elemMode c st l 0) scale (c.f32 a l); ((q % (2 ^ 32 : Nat)).toNat, f)
    let r := floatRes c d ((c.sh a).isU && !st) elem
    { r with
      s := if st then stepGens c 1 else c.s
      flags := r.flags ||| sf
      regs := r.regs ++ [(c.r (d.toNat + 1), .u (BitVec.ofNat 32 (if bad then fmtBF16.nan else sc)))] }

/-- QUNPACK4 (R118, R207). -/
def execQunpack4 (d a : BitVec 7) (la : BitVec 4) (s : State) : Host.Outcome State Fault Refusal :=
  issue (.qunpack4 d a la) s fun c =>
    let scale := fmtBF16.read (ftzOf c.g.fpcr) (bits (c.lvk a 1 0).toNat 0 16)
    floatRes c d (c.sh a).isU fun l =>
      let q := sextInt 4 (bits (c.lv a l).toNat 0 4)
      fmtF32.mul c.rm false (.fin (q < 0) q.natAbs 0) scale

end Sys2Proof.Machine
end

