-- ==== Sys2Proof/Machine/Lanes.lean ====
section
/-!
DEFINITION. Meanings of the lane instructions: shuffles, broadcast, reductions, scans (R121, R122, R191 to R196) and dot products (R197).
-/

namespace Sys2Proof.Machine

/-- A shuffle: lane l takes a's value of its source lane; U when a is U (R191). -/
def shuffleRes (c : Ctx) (d a b : BitVec 7) (src : Nat → Nat → Nat) : Res :=
  { s := c.s, regs := [(c.r d.toNat, if (c.sh a).isU then c.sh a else .ofFn fun l => c.lv a (src l (c.lv b l).toNat))] }

/-- SHFL (R191): with a U b the result is U. -/
def execShfl (d a b : BitVec 7) (s : State) : Host.Outcome State Fault Refusal :=
  issue (.shfl d a b) s fun c =>
    if (c.sh b).isU then { s := c.s, regs := uRes c d (c.lv a ((c.uv b).toNat % 32)) } else shuffleRes c d a b fun _ k => k % 32

/-- SHFL_UP (R191). -/
def execShflUp (d a b : BitVec 7) (s : State) : Host.Outcome State Fault Refusal :=
  issue (.shflUp d a b) s fun c => shuffleRes c d a b fun l k => if k ≤ l then l - k else l

/-- SHFL_DN (R191). -/
def execShflDn (d a b : BitVec 7) (s : State) : Host.Outcome State Fault Refusal :=
  issue (.shflDn d a b) s fun c => shuffleRes c d a b fun l k => if k ≤ 31 - l then l + k else l

/-- SHFL_X (R191). -/
def execShflX (d a b : BitVec 7) (s : State) : Host.Outcome State Fault Refusal :=
  issue (.shflX d a b) s fun c => shuffleRes c d a b fun l k => l ^^^ (k % 32)

/-- BCAST (R192). -/
def execBcast (d a b : BitVec 7) (s : State) : Host.Outcome State Fault Refusal :=
  issue (.bcast d a b) s fun c =>
    let k := (c.uv b).toNat
    { s := c.s, regs := uRes c d (c.lv a (if k < 32 then k else c.first)) }

/-- Combine of R121: an empty node gives the other; otherwise the operation, with its flags. -/
def combine (op : W32 → W32 → W32 × W32) : Option (W32 × W32) → Option (W32 × W32) → Option (W32 × W32)
  | none, y => y
  | x, none => x
  | some (x, f), some (y, g) => let (z, h) := op x y; some (z, f ||| g ||| h)

/-- One level of the tree of R121. -/
def treeLevel (op : W32 → W32 → W32 × W32) : List (Option (W32 × W32)) → List (Option (W32 × W32))
  | x :: y :: r => combine op x y :: treeLevel op r
  | r => r

/-- The fixed tree over the active lanes (R121): the result and the flags of every combination. -/
def redTree (op : W32 → W32 → W32 × W32) (act : W32) (x : Nat → W32) : Option (W32 × W32) :=
  let l0 := lanes32.map fun l => if hasLane act l then some (x l, 0) else none
  nth none (treeLevel op (treeLevel op (treeLevel op (treeLevel op (treeLevel op l0))))) 0

/-- A binary32 operation on register values. -/
def f32Op (f : FV → FV → Nat × W32) (x y : W32) : W32 × W32 :=
  let (v, fl) := f (fmtF32.decode x.toNat) (fmtF32.decode y.toNat)
  (BitVec.ofNat 32 v, fl)

/-- The operations of red (R134, R194, R195). -/
def redOp (k : Nat) (fpcr x y : W32) : W32 × W32 :=
  match k with
  | 0 => (x + y, 0)
  | 1 => (if x.toInt ≤ y.toInt then x else y, 0)
  | 2 => (if x.toInt ≤ y.toInt then y else x, 0)
  | 3 => (if x.toNat ≤ y.toNat then x else y, 0)
  | 4 => (if x.toNat ≤ y.toNat then y else x, 0)
  | 5 => (x &&& y, 0)
  | 6 => (x ||| y, 0)
  | 7 => (x ^^^ y, 0)
  | 8 => f32Op (fmtF32.addV (rmOf fpcr) false) x y
  | 9 => let (v, f) := fmtF32.minmax false x.toNat y.toNat; (BitVec.ofNat 32 v, f)
  | _ => let (v, f) := fmtF32.minmax true x.toNat y.toNat; (BitVec.ofNat 32 v, f)

/-- A tree of minimum or maximum whose active values are all NaN gives the canonical NaN (R195). Of add.f32, and of a scan, a NaN that no addition made
keeps its bits and raises nothing (log 86); nor does a signalling NaN raise NV in a minimum or maximum of one active lane, where nothing is combined (log
114). -/
def redFix (k : Nat) (v : W32) : W32 := if 9 ≤ k && (fmtF32.decode v.toNat).isNan then BitVec.ofNat 32 fmtF32.nan else v

/-- RED (R121, R194). -/
def execRed (d a : BitVec 7) (o : BitVec 4) (s : State) : Host.Outcome State Fault Refusal :=
  issue (.red d a o) s fun c =>
    match redTree (redOp o.toNat c.g.fpcr) c.act (c.lv a) with
    | some (v, f) => { s := c.s, regs := uRes c d (redFix o.toNat v), flags := f }
    | none => { s := c.s }

/-- One step of the scan (R122). -/
def scanStep (op : W32 → W32 → W32 × W32) (st : List (Option (W32 × W32))) (k : Nat) : List (Option (W32 × W32)) :=
  lanes32.map fun l => if k ≤ l then combine op (nth none st (l - k)) (nth none st l) else nth none st l

/-- The scan over the active lanes (R122). -/
def scanOf (op : W32 → W32 → W32 × W32) (act : W32) (x : Nat → W32) : List (Option (W32 × W32)) :=
  [1, 2, 4, 8, 16].foldl (scanStep op) (lanes32.map fun l => if hasLane act l then some (x l, 0) else none)

/-- The values of a scan; a lane that is not active keeps what it had in d, an exited one too (R122). -/
def scanVals (c : Ctx) (d : BitVec 7) (r : List (Option (W32 × W32))) : Shape :=
  .ofFn fun l => if hasLane c.act l then ((nth none r l).map (·.1)).getD 0 else c.lv d l

/-- SCAN_ADD_I (R196). -/
def execScanAddI (d a : BitVec 7) (s : State) : Host.Outcome State Fault Refusal :=
  issue (.scanAddI d a) s fun c =>
    { s := c.s, regs := [(c.r d.toNat, if (c.sh a).isU && c.act = BitVec.allOnes 32 then .a (c.uv a) (c.uv a)
        else scanVals c d (scanOf (redOp 0 c.g.fpcr) c.act (c.lv a)))] }

/-- SCAN_ADD_F32 (R122, R196). -/
def execScanAddF32 (d a : BitVec 7) (s : State) : Host.Outcome State Fault Refusal :=
  issue (.scanAddF32 d a) s fun c =>
    let r := scanOf (redOp 8 c.g.fpcr) c.act (c.lv a)
    { s := c.s, regs := [(c.r d.toNat, scanVals c d r)], flags := r.foldl (fun f x => match x with | some (_, g) => f ||| g | none => f) 0 }

/-- Part k of n bits of a value, as an integer. -/
def partI (x : W32) (k n : Nat) : Int := sextInt n (bits x.toNat (n * k) n)
def partN (x : W32) (k n : Nat) : Int := (bits x.toNat (n * k) n : Nat)

/-- A dot product accumulates into d with the default shape, d counted as an operand (R197). -/
def dotRes (c : Ctx) (d a b : BitVec 7) (part : W32 → Nat → Nat → Int) (parts width : Nat) : Res :=
  let f (l : Nat) : W32 := c.lv d l + BitVec.ofInt 32 ((upto parts).foldl (fun t k => t + part (c.lv a l) k width * part (c.lv b l) k width) 0)
  { s := c.s, regs := [(c.r d.toNat, defaultShape ((c.sh d).isU && (c.sh a).isU && (c.sh b).isU) f)] }

/-- DP4_I8 (R197). -/
def execDp4I8 (d a b : BitVec 7) (s : State) : Host.Outcome State Fault Refusal :=
  issue (.dp4I8 d a b) s fun c => dotRes c d a b partI 4 8

/-- DP4_N8 (R197). -/
def execDp4N8 (d a b : BitVec 7) (s : State) : Host.Outcome State Fault Refusal :=
  issue (.dp4N8 d a b) s fun c => dotRes c d a b partN 4 8

/-- DP2_I16 (R197). -/
def execDp2I16 (d a b : BitVec 7) (s : State) : Host.Outcome State Fault Refusal :=
  issue (.dp2I16 d a b) s fun c => dotRes c d a b partI 2 16

end Sys2Proof.Machine
end

