-- ==== Sys2Proof/Machine/Mason.lean ====
section
/-!
DEFINITION. The Mason, which appends to logs in the Quarry (R351 to R354), and the storage processor's wake tokens (R355).
-/

namespace Sys2Proof.Machine

/-! ## Appends -/

/-- An append command block (R352). -/
structure Append where
  src : Nat
  len : Nat
  log : Nat
  sealAfter : Bool
  align : Bool
  reserved : Bool
deriving DecidableEq, Repr

/-- The fields of a command block (R352). -/
def appendOf (b : List Byte) : Append :=
  let fl := fieldOf b 0x0D 1
  { src := fieldOf b 0 8, len := fieldOf b 8 4, log := fieldOf b 0x0C 1, sealAfter := bits fl 0 1 == 1, align := bits fl 1 1 == 1
    reserved := bits fl 2 6 != 0 || fieldOf b 0x0E 2 != 0 || fieldOf b 0x18 8 != 0 }

/-- A log table entry (R351). -/
structure Log where
  base : Nat
  size : Nat
  cur : Nat
  seq : Nat
deriving DecidableEq, Repr

/-- Entry n of context c's log table; none when it is not VALID or is malformed (R351; log 32). -/
def logOf (s : State) (c n : Nat) : Option Log :=
  let tab := (mget 0 s.ctl.logtb c).toNat
  let at_ := tab + 32 * n
  let b := physNum s at_ 8
  let size := physNum s (at_ + 8) 8
  let base := b / 4096 * 4096
  if tab = 0 || b % 2 = 0 || bits b 2 10 != 0 || size % 4096 != 0 || base < quarryBase || quarryEnd < base + size then none
  else some { base := base, size := size, cur := physNum s (at_ + 0x10) 8, seq := physNum s (at_ + 0x18) 8 % 2 ^ 48 }

/-- A result entry (R353). -/
def masonResult (d : Bool) (stat log seq : Nat) : W64 :=
  BitVec.ofNat 64 ((if d then 2 ^ 63 else 0) + stat * 2 ^ 60 + log * 2 ^ 48 + seq % 2 ^ 48)

/-- The twins of a team that are still there (R62). -/
def twins (s : State) (k : Nat) : List Nat :=
  let t := teamOf s k
  (k :: t.twin.toList).filter fun x => s.teams.any fun t => t.key == x && t.status != .ended

/-- Queue 12 of a team has room for a result, with those that wait for its restore (R235, R354). -/
def resultRoom (s : State) (k : Nat) : Bool :=
  let waiting := ((firstWhere (fun (x : Saved) => x.key == k) s.saved).map (·.results.length)).getD 0
  (queueOf (teamOf s k) 12).length + waiting < 16

/-- A result goes to queue 12 of the team and of its twin, or waits until a saved team is restored (R62, R353, R354); it releases what the Mason
wrote for the team (R89, R352). -/
def postResult (s : State) (k : Nat) (v : W64) : State :=
  let view := ({} : View).plus (.mason k) s.writes
  (twins s k).foldl (fun s k =>
    if s.saved.any fun x => x.key == k then
      { s with saved := mapWhere (fun x => x.key == k) (fun x => { x with results := x.results ++ [(v, view)] }) s.saved }
    else pushQueue s k 12 v view) s

/-- WHO of the Mason (R342). -/
abbrev masonWho : Nat := 0xFF + 3 * 2 ^ 8

/-- The open course of a team on a log. -/
def openCourse (s : State) (k n : Nat) : Option Course := firstWhere (fun c => c.team == k && c.log == n && !c.sealed) s.courses

/-- Replaces the open course of a team on a log. -/
def modCourse (s : State) (k n : Nat) (f : Course → Course) : State :=
  { s with courses := mapWhere (fun c => c.team == k && c.log == n && !c.sealed) f s.courses }

/-- The accepted append joins its course; one that would make it exceed 1 MiB seals it first and starts a new one (R354). -/
def joinCourse (s : State) (t : Team) (a : Append) (pa seq : Nat) (bs : List Byte) : State :=
  let tooLong : Bool := match openCourse s t.key a.log with
    | some c => decide (1048576 < c.len + a.len)
    | none => false
  let s1 := if tooLong then modCourse s t.key a.log fun c => { c with sealed := true } else s
  let s2 := if (openCourse s1 t.key a.log).isSome then s1
    else { s1 with courses := s1.courses ++ [{ team := t.key, ctx := t.ctx, log := a.log }] }
  modCourse s2 t.key a.log fun c =>
    { c with parts := c.parts ++ [(pa, bs)], len := c.len + a.len, seq := seq, sealed := a.sealAfter }

/-- The command is answered, and leaves the Mason. -/
def answer (s : State) (k : Nat) (rest : List (Nat × W64)) (v : W64) : State := settleTeam (postResult { s with masonQ := rest } k v) k

/-- A command that failed: its sequence number is a free value (R353; log 1). -/
def refuseAppend (s : State) (k : Nat) (rest : List (Nat × W64)) (stat log : Nat) : State :=
  answer { s with free := s.free + 1 } k rest (masonResult false stat log (Config.freeWord s.free).toNat)

/-- The accepted append (R351 to R354): NSEQ and CUR move on, POS is written before the result. -/
def acceptAppend (s : State) (t : Team) (rest : List (Nat × W64)) (a : Append) (l : Log) (off : Nat) (bs : List Byte) : State :=
  let tab := (mget 0 s.ctl.logtb t.ctx).toNat + 32 * a.log
  let s1 := physPut (physPut s (tab + 0x10) 8 (off + a.len)) (tab + 0x18) 8 ((l.seq + 1) % 2 ^ 48)
  let pad := zeros (off - l.cur)
  answer (joinCourse s1 t a (l.base + l.cur) l.seq (pad ++ bs)) t.key rest (masonResult false 0 a.log l.seq)

/-- The Mason's accesses (R335). -/
def masonEnv (s : State) (t : Team) : Env := devEnv s t.ctx true .mason

/-- A source is read line by line; the first line that cannot be read gives the cause, its token and the address (R342). -/
def readLines (s : State) (env : Env) : List (Nat × Nat) → State × Except (Nat × W64 × Nat) (List Byte)
  | [] => (s, .ok [])
  | (va, n) :: ls =>
    match readAt s env .read va n with
    | (s1, .error (c, tok)) => (s1, .error (c, tok, va))
    | (s1, .ok a) =>
      match readLines s1 env ls with
      | (s2, .ok b) => (s2, .ok (a ++ b))
      | e => e

/-- POS is written (R352). -/
def writePos (s : State) (t : Team) (va off : Nat) : State × Wrote :=
  writeAt s (masonEnv s t) ((va + 0x10) % 2 ^ 64) (toBytes 8 off) { agent := .mason t.key }

/-- The block is read and its append is made (R352, R353). -/
def appendBlock (s : State) (t : Team) (rest : List (Nat × W64)) (va : W64) : State :=
  let bad (s : State) (a va cause : Nat) (tok : W64) (kind : Nat) : State :=
    refuseAppend (engineFault s t masonWho va cause tok kind) t.key rest 3 a
  if va.toNat % 32 != 0 then refuseAppend s t.key rest 4 0
  else match readAt s (masonEnv s t) .read va.toNat 32 with
    | (s1, .error (c, tok)) => if c = 0x13 then s else bad s1 0 va.toNat c tok 0
    | (s1, .ok b) =>
      let a := appendOf b
      if a.reserved || a.len = 0 || 1048576 < a.len then refuseAppend s1 t.key rest 4 a.log
      else match logOf s1 t.ctx a.log with
        | none => refuseAppend s1 t.key rest 2 a.log
        | some l =>
          let off := if a.align then roundUp l.cur 4096 else l.cur
          if l.size < off + a.len then refuseAppend s1 t.key rest 1 a.log
          else match readLines s1 (masonEnv s1 t) (linesOf a.src a.len) with
            | (s2, .error (c, tok, x)) => if c = 0x13 then s else bad s2 a.log x c tok 0
            | (s2, .ok bs) =>
              match writePos s2 t va.toNat off with
              | (s3, .wait) => s3
              | (s3, .stop c tok) => bad s3 a.log (va.toNat + 0x10) c tok 1
              | (s3, .done) => acceptAppend s3 t rest a l off bs

/-- The storage processor runs: its firmware was not refused (R385). -/
def masonRuns (s : State) : Bool := !s.refused.contains 2

/-- MASON_APPEND (R352, R353): the oldest command of a team, when its result has room. -/
def execMasonAppend (k : Nat) (s : State) : Host.Outcome State Fault Refusal :=
  match posOf (fun (x : Nat × W64) => x.1 == k) s.masonQ with
  | none => .next s
  | some i =>
    if masonRuns s && (twins s k).all (resultRoom s) then
      .next (appendBlock s (teamOf s k) (dropNth s.masonQ i) (nth (0, 0) s.masonQ i).2)
    else .next s

/-- MASON_SEAL (R89, R354): the oldest course of a team on a log whose seal is under way becomes readable, and its seal result is posted. -/
def execMasonSeal (k n : Nat) (s : State) : Host.Outcome State Fault Refusal :=
  match posOf (fun (c : Course) => c.team == k && c.log == n && c.sealed) s.courses with
  | none => .next s
  | some i =>
    if masonRuns s && (twins s k).all (resultRoom s) then
      let c := nth { team := k, ctx := 0, log := n } s.courses i
      .next (postResult (landCourse { s with courses := dropNth s.courses i } c) k (masonResult true 0 n c.seq))
    else .next s

/-! ## Wake tokens -/

/-- Releases Quarry entries on every core (R47, R355). -/
def wakeQuarry (s : State) (p : W64 → Bool) : State :=
  (upto (5 * Config.nClusters)).foldl (fun s tile => releaseWaits s tile fun e => e.quarry && p e.token) s

/-- QUARRY_WAKE_TOKEN_POST (R47, R355). -/
def execQuarryWakeTokenPost (tok : BitVec 32) (s : State) : Host.Outcome State Fault Refusal :=
  .next (wakeQuarry { s with stalls := s.stalls.filter fun x => x.2 != tok } fun t => t == tok.setWidth 64)

/-- STORAGE_PROCESSOR_RESTART (R355, R392). -/
def execStorageProcessorRestart (s : State) : Host.Outcome State Fault Refusal :=
  let s1 := logError { s with stalls := [], spRestarts := s.spRestarts + 1 }
    { cls := 0x0E, sev := 1, unit := unitOf 9 1 0 0 0, detail := (s.spRestarts + 1) % 2 ^ 64 }
  .next (wakeQuarry s1 fun _ => true)

end Sys2Proof.Machine
end

