-- ==== Sys2Proof/Machine/Dispatch.lean ====
section
/-!
DEFINITION. The dispatch of an instruction or event to its meaning: one arm per row of spec/opcode_table.json.
-/

namespace Sys2Proof.Machine

/-- What an instruction does to the state. -/
def exec (i : Instr) (s : State) : Host.Outcome State Fault Refusal :=
  match i with
  | .nop => Sys2Proof.Machine.execNop s
  | .regionEntry => Sys2Proof.Machine.execRegionEntry s
  | .regionExit => Sys2Proof.Machine.execRegionExit s
  | .regionCloseReopen => Sys2Proof.Machine.execRegionCloseReopen s
  | .ifence => Sys2Proof.Machine.execIfence s
  | .brk c => Sys2Proof.Machine.execBrk c s
  | .exit => Sys2Proof.Machine.execExit s
  | .yield => Sys2Proof.Machine.execYield s
  | .reconv => Sys2Proof.Machine.execReconv s
  | .reconvS => Sys2Proof.Machine.execReconvS s
  | .reform d => Sys2Proof.Machine.execReform d s
  | .halt => Sys2Proof.Machine.execHalt s
  | .bra h m o => Sys2Proof.Machine.execBra h m o s
  | .call h m o => Sys2Proof.Machine.execCall h m o s
  | .chkp h o => Sys2Proof.Machine.execChkp h o s
  | .jmp a => Sys2Proof.Machine.execJmp a s
  | .calli d a => Sys2Proof.Machine.execCalli d a s
  | .ret a => Sys2Proof.Machine.execRet a s
  | .trap c => Sys2Proof.Machine.execTrap c s
  | .tret d => Sys2Proof.Machine.execTret d s
  | .winb ix => Sys2Proof.Machine.execWinb ix s
  | .rdsr d n => Sys2Proof.Machine.execRdsr d n s
  | .wrsr d n => Sys2Proof.Machine.execWrsr d n s
  | .mand d a b => Sys2Proof.Machine.execMand d a b s
  | .mor d a b => Sys2Proof.Machine.execMor d a b s
  | .mxor d a b => Sys2Proof.Machine.execMxor d a b s
  | .mandn d a b => Sys2Proof.Machine.execMandn d a b s
  | .mnot d a => Sys2Proof.Machine.execMnot d a s
  | .mmov d a => Sys2Proof.Machine.execMmov d a s
  | .mpop d a => Sys2Proof.Machine.execMpop d a s
  | .mfirst d a => Sys2Proof.Machine.execMfirst d a s
  | .mtov d a => Sys2Proof.Machine.execMtov d a s
  | .vtom d a => Sys2Proof.Machine.execVtom d a s
  | .mall d => Sys2Proof.Machine.execMall d s
  | .shape d a => Sys2Proof.Machine.execShape d a s
  | .setg d => Sys2Proof.Machine.execSetg d s
  | .squeeze d => Sys2Proof.Machine.execSqueeze d s
  | .launch d b o l => Sys2Proof.Machine.execLaunch d b o l s
  | .bqh a b => Sys2Proof.Machine.execBqh a b s
  | .bqr a => Sys2Proof.Machine.execBqr a s
  | .add d a b => Sys2Proof.Machine.execAdd d a b s
  | .sub d a b => Sys2Proof.Machine.execSub d a b s
  | .add64 d a b => Sys2Proof.Machine.execAdd64 d a b s
  | .sub64 d a b => Sys2Proof.Machine.execSub64 d a b s
  | .neg d a => Sys2Proof.Machine.execNeg d a s
  | .abs d a => Sys2Proof.Machine.execAbs d a s
  | .addi d a ix => Sys2Proof.Machine.execAddi d a ix s
  | .mulLo d a b => Sys2Proof.Machine.execMulLo d a b s
  | .mulHiI d a b => Sys2Proof.Machine.execMulHiI d a b s
  | .mulHiN d a b => Sys2Proof.Machine.execMulHiN d a b s
  | .madLo d a b => Sys2Proof.Machine.execMadLo d a b s
  | .mulWideI d a b => Sys2Proof.Machine.execMulWideI d a b s
  | .mulWideN d a b => Sys2Proof.Machine.execMulWideN d a b s
  | .minI d a b => Sys2Proof.Machine.execMinI d a b s
  | .maxI d a b => Sys2Proof.Machine.execMaxI d a b s
  | .minN d a b => Sys2Proof.Machine.execMinN d a b s
  | .maxN d a b => Sys2Proof.Machine.execMaxN d a b s
  | .and d a b => Sys2Proof.Machine.execAnd d a b s
  | .or d a b => Sys2Proof.Machine.execOr d a b s
  | .xor d a b => Sys2Proof.Machine.execXor d a b s
  | .andn d a b => Sys2Proof.Machine.execAndn d a b s
  | .not d a => Sys2Proof.Machine.execNot d a s
  | .andi d a ix => Sys2Proof.Machine.execAndi d a ix s
  | .ori d a ix => Sys2Proof.Machine.execOri d a ix s
  | .xori d a ix => Sys2Proof.Machine.execXori d a ix s
  | .shl d a b => Sys2Proof.Machine.execShl d a b s
  | .shr d a b => Sys2Proof.Machine.execShr d a b s
  | .sar d a b => Sys2Proof.Machine.execSar d a b s
  | .rotl d a b => Sys2Proof.Machine.execRotl d a b s
  | .shl64 d a b => Sys2Proof.Machine.execShl64 d a b s
  | .shr64 d a b => Sys2Proof.Machine.execShr64 d a b s
  | .sar64 d a b => Sys2Proof.Machine.execSar64 d a b s
  | .shli d a n => Sys2Proof.Machine.execShli d a n s
  | .shri d a n => Sys2Proof.Machine.execShri d a n s
  | .sari d a n => Sys2Proof.Machine.execSari d a n s
  | .rotli d a n => Sys2Proof.Machine.execRotli d a n s
  | .popc d a => Sys2Proof.Machine.execPopc d a s
  | .clz d a => Sys2Proof.Machine.execClz d a s
  | .brev d a => Sys2Proof.Machine.execBrev d a s
  | .bfeI d a b => Sys2Proof.Machine.execBfeI d a b s
  | .bfeN d a b => Sys2Proof.Machine.execBfeN d a b s
  | .bfi d a b => Sys2Proof.Machine.execBfi d a b s
  | .cmp d a b c => Sys2Proof.Machine.execCmp d a b c s
  | .sel d a b m => Sys2Proof.Machine.execSel d a b m s
  | .movl d h ix => Sys2Proof.Machine.execMovl d h ix s
  | .movh d h ix => Sys2Proof.Machine.execMovh d h ix s
  | .mov d a => Sys2Proof.Machine.execMov d a s
  | .lane d => Sys2Proof.Machine.execLane d s
  | .shfl d a b => Sys2Proof.Machine.execShfl d a b s
  | .shflUp d a b => Sys2Proof.Machine.execShflUp d a b s
  | .shflDn d a b => Sys2Proof.Machine.execShflDn d a b s
  | .shflX d a b => Sys2Proof.Machine.execShflX d a b s
  | .bcast d a b => Sys2Proof.Machine.execBcast d a b s
  | .red d a o => Sys2Proof.Machine.execRed d a o s
  | .scanAddI d a => Sys2Proof.Machine.execScanAddI d a s
  | .scanAddF32 d a => Sys2Proof.Machine.execScanAddF32 d a s
  | .dp4I8 d a b => Sys2Proof.Machine.execDp4I8 d a b s
  | .dp4N8 d a b => Sys2Proof.Machine.execDp4N8 d a b s
  | .dp2I16 d a b => Sys2Proof.Machine.execDp2I16 d a b s
  | .cmp64 d a b c => Sys2Proof.Machine.execCmp64 d a b c s
  | .fadd d a b => Sys2Proof.Machine.execFadd d a b s
  | .fsub d a b => Sys2Proof.Machine.execFsub d a b s
  | .fmul d a b => Sys2Proof.Machine.execFmul d a b s
  | .fmin d a b => Sys2Proof.Machine.execFmin d a b s
  | .fmax d a b => Sys2Proof.Machine.execFmax d a b s
  | .fneg d a => Sys2Proof.Machine.execFneg d a s
  | .fabs d a => Sys2Proof.Machine.execFabs d a s
  | .ffma d a b => Sys2Proof.Machine.execFfma d a b s
  | .ffms d a b => Sys2Proof.Machine.execFfms d a b s
  | .fcmp d a b c => Sys2Proof.Machine.execFcmp d a b c s
  | .frcp d a l => Sys2Proof.Machine.execFrcp d a l s
  | .frsq d a l => Sys2Proof.Machine.execFrsq d a l s
  | .fsqrt d a l => Sys2Proof.Machine.execFsqrt d a l s
  | .fexp2 d a l => Sys2Proof.Machine.execFexp2 d a l s
  | .flog2 d a l => Sys2Proof.Machine.execFlog2 d a l s
  | .fsin d a l => Sys2Proof.Machine.execFsin d a l s
  | .fcos d a l => Sys2Proof.Machine.execFcos d a l s
  | .ftanh d a l => Sys2Proof.Machine.execFtanh d a l s
  | .dadd d a b => Sys2Proof.Machine.execDadd d a b s
  | .dsub d a b => Sys2Proof.Machine.execDsub d a b s
  | .dmul d a b => Sys2Proof.Machine.execDmul d a b s
  | .dfma d a b => Sys2Proof.Machine.execDfma d a b s
  | .dmin d a b => Sys2Proof.Machine.execDmin d a b s
  | .dmax d a b => Sys2Proof.Machine.execDmax d a b s
  | .dcmp d a b c => Sys2Proof.Machine.execDcmp d a b c s
  | .hadd2F16 d a b => Sys2Proof.Machine.execHadd2F16 d a b s
  | .hmul2F16 d a b => Sys2Proof.Machine.execHmul2F16 d a b s
  | .hfma2F16 d a b => Sys2Proof.Machine.execHfma2F16 d a b s
  | .hadd2Bf16 d a b => Sys2Proof.Machine.execHadd2Bf16 d a b s
  | .hmul2Bf16 d a b => Sys2Proof.Machine.execHmul2Bf16 d a b s
  | .hfma2Bf16 d a b => Sys2Proof.Machine.execHfma2Bf16 d a b s
  | .fclass d a => Sys2Proof.Machine.execFclass d a s
  | .fcopysign d a b => Sys2Proof.Machine.execFcopysign d a b s
  | .ffrac d a => Sys2Proof.Machine.execFfrac d a s
  | .fround d a => Sys2Proof.Machine.execFround d a s
  | .cvt d a src ix l => Sys2Proof.Machine.execCvt d a src ix l s
  | .mxpack d a l => Sys2Proof.Machine.execMxpack d a l s
  | .mxunpack d a l => Sys2Proof.Machine.execMxunpack d a l s
  | .qpack4 d a l => Sys2Proof.Machine.execQpack4 d a l s
  | .qunpack4 d a l => Sys2Proof.Machine.execQunpack4 d a l s
  | .ldB8n d b o l => Sys2Proof.Machine.execLdB8n d b o l s
  | .ldB8i d b o l => Sys2Proof.Machine.execLdB8i d b o l s
  | .ldB16n d b o l => Sys2Proof.Machine.execLdB16n d b o l s
  | .ldB16i d b o l => Sys2Proof.Machine.execLdB16i d b o l s
  | .ldB32 d b o l => Sys2Proof.Machine.execLdB32 d b o l s
  | .ldB64 d b o l => Sys2Proof.Machine.execLdB64 d b o l s
  | .ldB128 d b o l => Sys2Proof.Machine.execLdB128 d b o l s
  | .ldAcqB32 d b o l => Sys2Proof.Machine.execLdAcqB32 d b o l s
  | .ldAcqB64 d b o l => Sys2Proof.Machine.execLdAcqB64 d b o l s
  | .ldpB32 d b o l => Sys2Proof.Machine.execLdpB32 d b o l s
  | .ldpB64 d b o l => Sys2Proof.Machine.execLdpB64 d b o l s
  | .stB8 d b o l => Sys2Proof.Machine.execStB8 d b o l s
  | .stB16 d b o l => Sys2Proof.Machine.execStB16 d b o l s
  | .stB32 d b o l => Sys2Proof.Machine.execStB32 d b o l s
  | .stB64 d b o l => Sys2Proof.Machine.execStB64 d b o l s
  | .stB128 d b o l => Sys2Proof.Machine.execStB128 d b o l s
  | .stRelB32 d b o l => Sys2Proof.Machine.execStRelB32 d b o l s
  | .stRelB64 d b o l => Sys2Proof.Machine.execStRelB64 d b o l s
  | .prefetch b o l => Sys2Proof.Machine.execPrefetch b o l s
  | .cinvLine b o l => Sys2Proof.Machine.execCinvLine b o l s
  | .cflushLine b o l => Sys2Proof.Machine.execCflushLine b o l s
  | .cinvPage b o l => Sys2Proof.Machine.execCinvPage b o l s
  | .atomAdd32 d b o l => Sys2Proof.Machine.execAtomAdd32 d b o l s
  | .atomAdd64 d b o l => Sys2Proof.Machine.execAtomAdd64 d b o l s
  | .atomMinI32 d b o l => Sys2Proof.Machine.execAtomMinI32 d b o l s
  | .atomMaxI32 d b o l => Sys2Proof.Machine.execAtomMaxI32 d b o l s
  | .atomMinN32 d b o l => Sys2Proof.Machine.execAtomMinN32 d b o l s
  | .atomMaxN32 d b o l => Sys2Proof.Machine.execAtomMaxN32 d b o l s
  | .atomAnd d b o l => Sys2Proof.Machine.execAtomAnd d b o l s
  | .atomOr d b o l => Sys2Proof.Machine.execAtomOr d b o l s
  | .atomXor d b o l => Sys2Proof.Machine.execAtomXor d b o l s
  | .atomXchg32 d b o l => Sys2Proof.Machine.execAtomXchg32 d b o l s
  | .atomXchg64 d b o l => Sys2Proof.Machine.execAtomXchg64 d b o l s
  | .atomCas32 d b o l => Sys2Proof.Machine.execAtomCas32 d b o l s
  | .atomCas64 d b o l => Sys2Proof.Machine.execAtomCas64 d b o l s
  | .atomFaddF32 d b o l => Sys2Proof.Machine.execAtomFaddF32 d b o l s
  | .fence ix => Sys2Proof.Machine.execFence ix s
  | .mwait d b o c => Sys2Proof.Machine.execMwait d b o c s
  | .barTeam => Sys2Proof.Machine.execBarTeam s
  | .barRole => Sys2Proof.Machine.execBarRole s
  | .musArm d b o l => Sys2Proof.Machine.execMusArm d b o l s
  | .musJoin d b o l => Sys2Proof.Machine.execMusJoin d b o l s
  | .musOwe d b o l => Sys2Proof.Machine.execMusOwe d b o l s
  | .musHold d b o l => Sys2Proof.Machine.execMusHold d b o l s
  | .tdef d t l => Sys2Proof.Machine.execTdef d t l s
  | .town d a l => Sys2Proof.Machine.execTown d a l s
  | .twait a l => Sys2Proof.Machine.execTwait a l s
  | .tgive a l => Sys2Proof.Machine.execTgive a l s
  | .cpy d c l => Sys2Proof.Machine.execCpy d c l s
  | .cpyg d ix c l => Sys2Proof.Machine.execCpyg d ix c l s
  | .cpyc d c l => Sys2Proof.Machine.execCpyc d c l s
  | .rdwp d a l => Sys2Proof.Machine.execRdwp d a l s
  | .rdcsum d a l => Sys2Proof.Machine.execRdcsum d a l s
  | .selk d c l => Sys2Proof.Machine.execSelk d c l s
  | .qput q a l => Sys2Proof.Machine.execQput q a l s
  | .qget d q l => Sys2Proof.Machine.execQget d q l s
  | .qtry d q m => Sys2Proof.Machine.execQtry d q m s
  | .qlen d q l => Sys2Proof.Machine.execQlen d q l s
  | .fput d b o l => Sys2Proof.Machine.execFput d b o l s
  | .fsig d b o l => Sys2Proof.Machine.execFsig d b o l s
  | .mzero a => Sys2Proof.Machine.execMzero a s
  | .mlda d b o l => Sys2Proof.Machine.execMlda d b o l s
  | .mbq d => Sys2Proof.Machine.execMbq d s
  | .mma d a b f => Sys2Proof.Machine.execMma d a b f s
  | .mdrain d a b f => Sys2Proof.Machine.execMdrain d a b f s
  | .mscale d a => Sys2Proof.Machine.execMscale d a s
  | .mdone d => Sys2Proof.Machine.execMdone d s
  | .nonInstructionWord w => Sys2Proof.Machine.execNonInstructionWord w s
  | .trapDelivery team g => Sys2Proof.Machine.execTrapDelivery team g s
  | .spillToBudget team g => Sys2Proof.Machine.execSpillToBudget team g s
  | .parkAreaReturn team g => Sys2Proof.Machine.execParkAreaReturn team g s
  | .reconvRelease team g lane => Sys2Proof.Machine.execReconvRelease team g lane s
  | .reformDraw tile bin => Sys2Proof.Machine.execReformDraw tile bin s
  | .binAgeExpiry tile bin => Sys2Proof.Machine.execBinAgeExpiry tile bin s
  | .mwaitSatisfy who lane => Sys2Proof.Machine.execMwaitSatisfy who lane s
  | .copyExecute cluster ch => Sys2Proof.Machine.execCopyExecute cluster ch s
  | .copyBytesLand cluster ch n => Sys2Proof.Machine.execCopyBytesLand cluster ch n s
  | .copyComplete cluster ch => Sys2Proof.Machine.execCopyComplete cluster ch s
  | .cpycRecordFetch cluster ch => Sys2Proof.Machine.execCpycRecordFetch cluster ch s
  | .selkExecute cluster ch => Sys2Proof.Machine.execSelkExecute cluster ch s
  | .handBack team tile => Sys2Proof.Machine.execHandBack team tile s
  | .statusEntryPost cluster ch => Sys2Proof.Machine.execStatusEntryPost cluster ch s
  | .mzeroExecute team => Sys2Proof.Machine.execMzeroExecute team s
  | .mldaExecute team => Sys2Proof.Machine.execMldaExecute team s
  | .mmaExecute team => Sys2Proof.Machine.execMmaExecute team s
  | .mdrainExecute team => Sys2Proof.Machine.execMdrainExecute team s
  | .mscaleExecute team => Sys2Proof.Machine.execMscaleExecute team s
  | .masonAppend team => Sys2Proof.Machine.execMasonAppend team s
  | .masonSeal team log => Sys2Proof.Machine.execMasonSeal team log s
  | .quarryWakeTokenPost tok => Sys2Proof.Machine.execQuarryWakeTokenPost tok s
  | .storageProcessorRestart => Sys2Proof.Machine.execStorageProcessorRestart s
  | .fabricPacketSend op port entropy => Sys2Proof.Machine.execFabricPacketSend op port entropy s
  | .fabricPacketReceive p => Sys2Proof.Machine.execFabricPacketReceive p s
  | .pennantApply ix => Sys2Proof.Machine.execPennantApply ix s
  | .fabricAckReceive seq => Sys2Proof.Machine.execFabricAckReceive seq s
  | .fabricNackReceive seq => Sys2Proof.Machine.execFabricNackReceive seq s
  | .fabricRtoExpiry seq port entropy => Sys2Proof.Machine.execFabricRtoExpiry seq port entropy s
  | .portLinkDown port newPort entropy => Sys2Proof.Machine.execPortLinkDown port newPort entropy s
  | .pathProbeTimer dest port entropy acked => Sys2Proof.Machine.execPathProbeTimer dest port entropy acked s
  | .statusNoticeReceive e seq st => Sys2Proof.Machine.execStatusNoticeReceive e seq st s
  | .statusNoticeResend acked => Sys2Proof.Machine.execStatusNoticeResend acked s
  | .selfstWrite v => Sys2Proof.Machine.execSelfstWrite v s
  | .create c arg => Sys2Proof.Machine.execCreate c arg s
  | .destroy c arg => Sys2Proof.Machine.execDestroy c arg s
  | .kill c arg => Sys2Proof.Machine.execKill c arg s
  | .killctx c arg => Sys2Proof.Machine.execKillctx c arg s
  | .importImage c arg => Sys2Proof.Machine.execImportImage c arg s
  | .exportImage c arg => Sys2Proof.Machine.execExportImage c arg s
  | .free c arg => Sys2Proof.Machine.execFree c arg s
  | .launchDoorbell c q v => Sys2Proof.Machine.execLaunchDoorbell c q v s
  | .eventDoorbell c => Sys2Proof.Machine.execEventDoorbell c s
  | .launchRecordTake c q => Sys2Proof.Machine.execLaunchRecordTake c q s
  | .teamPlace choice => Sys2Proof.Machine.execTeamPlace choice s
  | .preemptDeadlineExpiry team => Sys2Proof.Machine.execPreemptDeadlineExpiry team s
  | .scanImageComplete slot => Sys2Proof.Machine.execScanImageComplete slot s
  | .teamSave team => Sys2Proof.Machine.execTeamSave team s
  | .imageRestore slot tile => Sys2Proof.Machine.execImageRestore slot tile s
  | .completionRecordWrite => Sys2Proof.Machine.execCompletionRecordWrite s
  | .eventCoalesceTimer => Sys2Proof.Machine.execEventCoalesceTimer s
  | .irqvWrite k v => Sys2Proof.Machine.execIrqvWrite k v s
  | .sbankctlWrite c b v => Sys2Proof.Machine.execSbankctlWrite c b v s
  | .sbankDrainComplete c b => Sys2Proof.Machine.execSbankDrainComplete c b s
  | .inval => Sys2Proof.Machine.execInval s
  | .replay => Sys2Proof.Machine.execReplay s
  | .swap => Sys2Proof.Machine.execSwap s
  | .swapLineExchange ix j => Sys2Proof.Machine.execSwapLineExchange ix j s
  | .swapfree => Sys2Proof.Machine.execSwapfree s
  | .mapout => Sys2Proof.Machine.execMapout s
  | .mapend => Sys2Proof.Machine.execMapend s
  | .extrel => Sys2Proof.Machine.execExtrel s
  | .qtrim => Sys2Proof.Machine.execQtrim s
  | .zeroEngineDone ix => Sys2Proof.Machine.execZeroEngineDone ix s
  | .faultRecordWrite => Sys2Proof.Machine.execFaultRecordWrite s
  | .notificationPost => Sys2Proof.Machine.execNotificationPost s
  | .extentAdd ix port base len => Sys2Proof.Machine.execExtentAdd ix port base len s
  | .extentReleaseRequest ix => Sys2Proof.Machine.execExtentReleaseRequest ix s
  | .extentSurpriseRemoval ix dirty => Sys2Proof.Machine.execExtentSurpriseRemoval ix dirty s
  | .peerMemoryRequest rid pasid va n data => Sys2Proof.Machine.execPeerMemoryRequest rid pasid va n data s
  | .atsTranslationRequest rid pasid va => Sys2Proof.Machine.execAtsTranslationRequest rid pasid va s
  | .linkTraining p => Sys2Proof.Machine.execLinkTraining p s
  | .haltOp op => Sys2Proof.Machine.execHaltOp op s
  | .resume op => Sys2Proof.Machine.execResume op s
  | .freeze op => Sys2Proof.Machine.execFreeze op s
  | .thaw op => Sys2Proof.Machine.execThaw op s
  | .halyardDoorbell v => Sys2Proof.Machine.execHalyardDoorbell v s
  | .sampleTimer tile => Sys2Proof.Machine.execSampleTimer tile s
  | .watchdogHangDeclare who => Sys2Proof.Machine.execWatchdogHangDeclare who s
  | .packageReset => Sys2Proof.Machine.execPackageReset s
  | .powerLoss kept => Sys2Proof.Machine.execPowerLoss kept s
  | .svnWrite v => Sys2Proof.Machine.execSvnWrite v s
  | .measurementExtend ix => Sys2Proof.Machine.execMeasurementExtend ix s
  | .attestationReport v => Sys2Proof.Machine.execAttestationReport v s
  | .getCertificate => Sys2Proof.Machine.execGetCertificate s
  | .challenge nonce => Sys2Proof.Machine.execChallenge nonce s
  | .getMeasurements => Sys2Proof.Machine.execGetMeasurements s
  | .pldmDiscovery => Sys2Proof.Machine.execPldmDiscovery s
  | .pldmSensorRead k => Sys2Proof.Machine.execPldmSensorRead k s
  | .pldmFirmwareUpdate ty image => Sys2Proof.Machine.execPldmFirmwareUpdate ty image s
  | .offline c => Sys2Proof.Machine.execOffline c s
  | .test c => Sys2Proof.Machine.execTest c s
  | .online c => Sys2Proof.Machine.execOnline c s
  | .retire c => Sys2Proof.Machine.execRetire c s
  | .clusterDrainComplete c => Sys2Proof.Machine.execClusterDrainComplete c s
  | .clusterTestComplete c fails => Sys2Proof.Machine.execClusterTestComplete c fails s
  | .save => Sys2Proof.Machine.execSave s
  | .checkpointSaveComplete => Sys2Proof.Machine.execCheckpointSaveComplete s
  | .load => Sys2Proof.Machine.execLoad s
  | .abort => Sys2Proof.Machine.execAbort s
  | .clockThrottleStep power temp => Sys2Proof.Machine.execClockThrottleStep power temp s
  | .thermalTrip temp => Sys2Proof.Machine.execThermalTrip temp s
  | .registerWrite off v => Sys2Proof.Machine.execRegisterWrite off v s
  | .longLatencyComplete who ix => Sys2Proof.Machine.execLongLatencyComplete who ix s
  | .quadrantCycle => Sys2Proof.Machine.execQuadrantCycle s
  | .hostCoreAccess c va n data => Sys2Proof.Machine.execHostCoreAccess c va n data s
  | .atsInvalidationCompletion => Sys2Proof.Machine.execAtsInvalidationCompletion s
  | .portLinkUp port => Sys2Proof.Machine.execPortLinkUp port s
  | .orderlyShutdown => Sys2Proof.Machine.execOrderlyShutdown s
  | .uncorrectedError e => Sys2Proof.Machine.execUncorrectedError e s

end Sys2Proof.Machine
end

