-- ==== Sys2Proof/Machine/Schedule.lean ====
section
/-!
DEFINITION. Which turn comes next (log 2): the first of `State.agenda`, or, when it is empty, one of the turns that the device may take, as the
device chooses (R12, R25). What software, the host, a peer or the fabric does comes through the agenda alone. An event that the state does not make
possible changes nothing, so the lists below need only name the candidates.
-/

namespace Sys2Proof.Machine

/-- What the device does of itself, each the event of Instr of the same name. -/
inductive DevEvent where
  | trapDelivery (team g : Nat)
  | spillToBudget (team g : Nat)
  | parkAreaReturn (team g : Nat)
  | reconvRelease (team g lane : Nat)
  | longLatencyComplete (who : Who) (i : Nat)
  | mwaitSatisfy (who : Who) (lane : Nat)
  | mzeroExecute (team : Nat)
  | mldaExecute (team : Nat)
  | mmaExecute (team : Nat)
  | mdrainExecute (team : Nat)
  | mscaleExecute (team : Nat)
  | copyExecute (c ch : Nat)
  | copyBytesLand (c ch n : Nat)
  | copyComplete (c ch : Nat)
  | cpycRecordFetch (c ch : Nat)
  | selkExecute (c ch : Nat)
  | statusEntryPost (c ch : Nat)
  | sbankDrainComplete (c b : Nat)
  | clusterDrainComplete (c : Nat)
  | reformDraw (tile i : Nat)
  | binAgeExpiry (tile i : Nat)
  | handBack (team tile : Nat)
  | teamSave (team : Nat)
  | masonAppend (team : Nat)
  | masonSeal (team log : Nat)
  | fabricPacketSend (op port en : Nat)
  | fabricRtoExpiry (no port en : Nat)
  | pennantApply (i : Nat)
  | launchRecordTake (c q : Nat)
  | teamPlace (choice : Nat)
  | imageRestore (slot tile : Nat)
  | scanImageComplete (slot : Nat)
  | completionRecordWrite
  | swapLineExchange (i j : Nat)
  | zeroEngineDone (i : Nat)
  | faultRecordWrite
  | notificationPost
  | checkpointSaveComplete
  | preemptDeadlineExpiry (team : Nat)
  | eventCoalesceTimer
  | sampleTimer (tile : Nat)
  | watchdogHangDeclare (who : Who)
  | statusNoticeResend
  | create (c : Nat) (arg : W32)
  | destroy (c : Nat) (arg : W32)
  | kill (c : Nat) (arg : W32)
  | killctx (c : Nat) (arg : W32)
  | importImage (c : Nat) (arg : W32)
  | exportImage (c : Nat) (arg : W32)
  | free (c : Nat) (arg : W32)
  | quadrantCycle
deriving DecidableEq, Repr

/-- The device's own events have the meanings that exec gives them. -/
def runDev (e : DevEvent) (s : State) : Host.Outcome State Fault Refusal :=
  match e with
  | .trapDelivery team g => execTrapDelivery team g s
  | .spillToBudget team g => execSpillToBudget team g s
  | .parkAreaReturn team g => execParkAreaReturn team g s
  | .reconvRelease team g lane => execReconvRelease team g lane s
  | .longLatencyComplete who i => execLongLatencyComplete who i s
  | .mwaitSatisfy who lane => execMwaitSatisfy who lane s
  | .mzeroExecute team => execMzeroExecute team s
  | .mldaExecute team => execMldaExecute team s
  | .mmaExecute team => execMmaExecute team s
  | .mdrainExecute team => execMdrainExecute team s
  | .mscaleExecute team => execMscaleExecute team s
  | .copyExecute c ch => execCopyExecute c ch s
  | .copyBytesLand c ch n => execCopyBytesLand c ch n s
  | .copyComplete c ch => execCopyComplete c ch s
  | .cpycRecordFetch c ch => execCpycRecordFetch c ch s
  | .selkExecute c ch => execSelkExecute c ch s
  | .statusEntryPost c ch => execStatusEntryPost c ch s
  | .sbankDrainComplete c b => execSbankDrainComplete c b s
  | .clusterDrainComplete c => execClusterDrainComplete c s
  | .reformDraw tile i => execReformDraw tile i s
  | .binAgeExpiry tile i => execBinAgeExpiry tile i s
  | .handBack team tile => execHandBack team tile s
  | .teamSave team => execTeamSave team s
  | .masonAppend team => execMasonAppend team s
  | .masonSeal team log => execMasonSeal team log s
  | .fabricPacketSend op port en => execFabricPacketSend op port en s
  | .fabricRtoExpiry no port en => execFabricRtoExpiry no port en s
  | .pennantApply i => execPennantApply i s
  | .launchRecordTake c q => execLaunchRecordTake c q s
  | .teamPlace choice => execTeamPlace choice s
  | .imageRestore slot tile => execImageRestore slot tile s
  | .scanImageComplete slot => execScanImageComplete slot s
  | .completionRecordWrite => execCompletionRecordWrite s
  | .swapLineExchange i j => execSwapLineExchange i j s
  | .zeroEngineDone i => execZeroEngineDone i s
  | .faultRecordWrite => execFaultRecordWrite s
  | .notificationPost => execNotificationPost s
  | .checkpointSaveComplete => execCheckpointSaveComplete s
  | .preemptDeadlineExpiry team => execPreemptDeadlineExpiry team s
  | .eventCoalesceTimer => execEventCoalesceTimer s
  | .sampleTimer tile => execSampleTimer tile s
  | .watchdogHangDeclare who => execWatchdogHangDeclare who s
  | .statusNoticeResend => execStatusNoticeResend [] s
  | .create c arg => execCreate c arg s
  | .destroy c arg => execDestroy c arg s
  | .kill c arg => execKill c arg s
  | .killctx c arg => execKillctx c arg s
  | .importImage c arg => execImportImage c arg s
  | .exportImage c arg => execExportImage c arg s
  | .free c arg => execFree c arg s
  | .quadrantCycle => execQuadrantCycle s

/-- Events of one group. -/
def groupEvents (g : Group) : List DevEvent :=
  let n := g.idx
  (if g.key.isSome then
    [.mzeroExecute g.team, .mldaExecute g.team, .mmaExecute g.team, .mdrainExecute g.team, .mscaleExecute g.team]
  else
    (if (dueSub g).isSome then [.trapDelivery g.team n] else [])
      ++ (if g.budget < groupSlots g then [.spillToBudget g.team n] else [])
      ++ (if g.away then [.parkAreaReturn g.team n] else [])
      ++ (lanesOf (g.lanesWhere atPoint)).map (DevEvent.reconvRelease g.team n))
    ++ (upto g.pend.length).map (DevEvent.longLatencyComplete g.who)
    ++ (if g.waits.any (fun w => w.kind == .mwait) then (lanesOf g.live).map (DevEvent.mwaitSatisfy g.who) else [])

/-- Events of a cluster's copy channels; how many bytes land is free (log 1). -/
def channelEvents (s : State) (c : Nat) (k : Cluster) : List DevEvent :=
  k.chans.flatMap fun (ch, _) =>
    [.copyExecute c ch, .copyBytesLand c ch (Config.freeNat s.free % 65536 + 1), .copyComplete c ch, .cpycRecordFetch c ch, .selkExecute c ch,
     .statusEntryPost c ch]

/-- Events of a cluster: its channels, its draining banks, its own drain. -/
def clusterEvents (s : State) (c : Nat) (k : Cluster) : List DevEvent :=
  channelEvents s c k ++ (k.banks.filterMap fun (b, x) => if x.target.isSome then some (.sbankDrainComplete c b) else none)
    ++ if k.ftState = 1 then [.clusterDrainComplete c] else []

/-- Events of a core: draws from its bins. -/
def coreEvents (tile : Nat) (c : Core) : List DevEvent := (upto c.bins.length).flatMap fun i => [.reformDraw tile i, .binAgeExpiry tile i]

/-- Events of a team: hand-backs, its save. -/
def teamEvents (t : Team) : List DevEvent :=
  (t.tiles.map fun (i, _) => .handBack t.key i) ++ if t.preReq.isSome then [.teamSave t.key] else []

/-- Events of the Mason. -/
def masonEvents (s : State) : List DevEvent :=
  (distinct (s.masonQ.map (·.1))).map DevEvent.masonAppend ++ (s.courses.filter (·.sealed)).map fun c => .masonSeal c.team c.log

/-- One of some paths, as the device chooses (log 1). -/
def somePath (s : State) (l : List (Nat × Nat)) : Nat × Nat := nth (0, 0) l (Config.freeNat s.free % Nat.max 1 l.length)

/-- Events of the fabric's senders: packets on the paths that R379 allows, re-sends whose time has come. -/
def fabricEvents (s : State) : List DevEvent :=
  (s.fabOps.flatMap fun (n, x) => match x with
      | some op => if (sendPaths s op).isEmpty then [] else let p := somePath s (sendPaths s op); [.fabricPacketSend n p.1 p.2]
      | none => [])
    ++ ((s.pkts.filter fun p => p.sentAt + rtoFs s ≤ s.timeFs).map fun p => let x := somePath s (resendPaths s p); .fabricRtoExpiry p.no x.1 x.2)
    ++ (upto (heldPennants s).length).map DevEvent.pennantApply
    ++ if s.noticesOut.any (fun n => n.2.2.2 + rtoFs s ≤ s.timeFs) then [.statusNoticeResend] else []

/-- The command that executes (R302). -/
def commandEvents (s : State) : List DevEvent :=
  match s.cmd with
  | some (1, c, a) => [.create c a]
  | some (2, c, a) => [.destroy c a]
  | some (3, c, a) => [.kill c a]
  | some (4, c, a) => [.killctx c a]
  | some (5, c, a) => [.importImage c a]
  | some (6, c, a) => [.exportImage c a]
  | some (7, c, a) => [.free c a]
  | _ => []

/-- Events of the dispatcher. -/
def dispatchEvents (s : State) : List DevEvent :=
  ((s.contexts.filter fun (_, k) => k.state == 1).flatMap fun (c, _) => (upto 64).map (DevEvent.launchRecordTake c))
    ++ (if s.launches.isEmpty then [] else [.teamPlace (Config.freeNat s.free)])
    ++ (s.vault.flatMap fun (k, v) => match v with
      | some i => if i.complete then (upto nTiles).map (DevEvent.imageRestore k) else [.scanImageComplete k]
      | none => [])
    ++ if s.completions.isEmpty then [] else [.completionRecordWrite]

/-- Events of the memory unit and the checkpoint. -/
def memoryEvents (s : State) : List DevEvent :=
  (s.swaps.flatMap fun (i, w) => if w.state = 1 then (upto (swapBytes w / 128)).map (DevEvent.swapLineExchange i) else [])
    ++ (upto s.zeroing.length).map DevEvent.zeroEngineDone ++ (if s.faultQ.isEmpty then [] else [.faultRecordWrite])
    ++ (if s.noticeQ.isEmpty then [] else [.notificationPost]) ++ if s.ck.busy then [.checkpointSaveComplete] else []

/-- The events that the device may take of itself. -/
def enabledEvents (s : State) : List DevEvent :=
  s.groups.flatMap groupEvents ++ (s.clusters.flatMap fun (c, k) => clusterEvents s c k) ++ (s.cores.flatMap fun (i, c) => coreEvents i c)
    ++ s.teams.flatMap teamEvents ++ masonEvents s ++ fabricEvents s ++ commandEvents s ++ dispatchEvents s
    ++ memoryEvents s

/-- Events whose time has come: deadlines (R321), draws by age (R51), the event ring's timer (R318), samples (R371), hangs (R374, R375), and the return
from the park area of a group that has been ready for as long as R21 allows (R37). Nothing else happens before them. -/
def urgentEvents (s : State) : List DevEvent :=
  (s.teams.filterMap fun t =>
      if deadlineDue s t && (unyieldedTiles s t.key).any (fun i => (freeSlot s i).isSome) then some (.preemptDeadlineExpiry t.key) else none)
    ++ (s.cores.flatMap fun (i, c) => (upto c.bins.length).filterMap fun k => match c.bins[k]? with
      | some b => if drawFits s i b && drawAged s i b then some (DevEvent.binAgeExpiry i k) else none
      | none => none)
    ++ (if coalesceDue s then [.eventCoalesceTimer] else [])
    ++ (if bits s.ctl.smpc.toNat 8 16 = 0 then [] else (upto nTiles).filterMap fun i =>
      if i % 5 != 4 && (coreOf s i).sampleAt + 1024 * bits s.ctl.smpc.toNat 8 16 ≤ s.cycle then some (DevEvent.sampleTimer i) else none)
    ++ (s.groups.filterMap fun g => if g.waits.any (hangDue s g) then some (.watchdogHangDeclare g.who) else none)
    ++ s.groups.filterMap fun g => if patience ≤ g.readyFor + 1 && mayReturn s g then some (.parkAreaReturn g.team g.idx) else none

/-- What may come next: a path issues, a path issues a store that stays in its core, a core's oldest store leaves it (R101), the device does something of
itself, a flit moves between the tiles (R325). -/
inductive Move where
  | issue (who : Who) (lane : Nat)
  | hold (who : Who) (lane : Nat)
  | leave (tile : Nat)
  | dev (e : DevEvent)
  | flit (n : Nat)
deriving DecidableEq, Repr

/-- The flit that may move: which one is the traffic's choice (R325; log 97). -/
def flitMoves (s : State) : List Move := if s.groups.isEmpty then [] else [.flit (Config.freeNat s.free % (96 * nTiles))]

/-- Tiles whose cores have stores to perform (R101). -/
def storeTiles (s : State) : List Nat :=
  s.cores.filterMap fun (i, c) => if c.stores.isEmpty || c.frozen.isSome || c.dbgFrozen then none else some i

/-- A path may issue a store that stays in the core (R101): stores that are there already do not bar it. -/
def clearStores (s : State) (tile : Nat) : State := modCore s tile fun c => { c with stores := [] }

/-- The paths that may issue such a store, and the stores that may leave. -/
def storeMoves (s : State) : List Move :=
  (s.groups.flatMap fun g => ((pathHeads g).filter (pathMayIssue (clearStores s (groupTile s g)) g)).map fun l => Move.hold g.who l)
    ++ (storeTiles s).map Move.leave

/-- A tile is about to freeze. -/
def aboutToFreeze : DevEvent → Bool
  | .preemptDeadlineExpiry _ => true
  | _ => false

/-- What the device may do next: issue on its ready paths, take its events, let a quadrant cycle pass, which waits for the issues that the cycle owes
(R21, R241, R316) and for the stores that are still in their cores. A freeze may find stores in the core (R101). -/
def openMoves (s : State) : List Move :=
  if s.held then [.dev .quadrantCycle]
  else
    match urgentEvents s with
    | [] => (readyPaths s).map (fun (w, l) => Move.issue w l) ++ (enabledEvents s).map Move.dev ++ flitMoves s
        ++ storeMoves s ++ if (owedPaths s).isEmpty && (storeTiles s).isEmpty then [.dev .quadrantCycle] else []
    | es => es.map Move.dev ++ if es.any aboutToFreeze then storeMoves s else []

/-- What a turn comes to: it is over, an instruction is to be executed, or an event of the device's own. -/
inductive Todo where
  | over
  | run (i : Instr)
  | dev (e : DevEvent)
deriving DecidableEq, Repr

/-- A path issues: what it fetches is to be executed. -/
def issueTurn (s : State) (w : Who) (l : Nat) : State × Todo :=
  match turnIssue s w l with
  | (s1, some i) => (s1, .run i)
  | (s1, none) => (s1, .over)

/-- A path issues a store that stays in the core (R101; log 51). -/
def holdTurn (s : State) (w : Who) (l : Nat) : State :=
  match findGroup s w with
  | none => s
  | some g =>
    let tile := groupTile s g
    match turnIssue (clearStores s tile) w l with
    | (s1, some i) => (match heldIssue i s1 with
      | some (.next s2) => modCore s2 tile fun c => { c with stores := (coreOf s tile).stores ++ c.stores }
      | _ => s)
    | (_, none) => s

/-- One turn of the agenda: an issue fetches its instruction; an event is itself the instruction; an outside choice changes the state alone (log 12). A
line that stalls has one token, which no other line has (R355). -/
def takeTurn (s : State) : Turn → State × Todo
  | .issue w l => issueTurn s w l
  | .hold w l => (holdTurn s w l, .over)
  | .leave tile => (leaveStore s tile, .over)
  | .event i => if (encode i).isSome then (s, .over) else match i with
    | .nonInstructionWord _ => (s, .over)
    | _ => (s, .run i)
  | .stall line tok => (if s.stalls.any fun x => x.1 == line || x.2 == tok then s else { s with stalls := (line, tok) :: s.stalls }, .over)
  | .remote pa bytes => (physWriteBy s { agent := .remote 0 0 } pa bytes, .over)
  | .peerDown e d => ({ s with down := if d then (if s.down.contains e then s.down else e :: s.down) else s.down.filter (· != e) }, .over)
  | .corrected unit addr syndrome => (correctedError s unit addr syndrome, .over)
  | .flash block retries wear retired => (flashCounts s block retries wear retired, .over)
  | .hostMode m => ({ s with hostMode := m }, .over)

/-- One move of the device's own choosing. -/
def takeMove (s : State) : Move → State × Todo
  | .issue w l => issueTurn s w l
  | .hold w l => (holdTurn s w l, .over)
  | .leave tile => (leaveStore s tile, .over)
  | .dev e => (s, .dev e)
  | .flit n => (moveFlit s n, .over)

/-- The next turn of the package. -/
def nextTurn (s : State) : State × Todo :=
  match s.agenda with
  | t :: ts => takeTurn { s with agenda := ts } t
  | [] =>
    let (s1, m) := chooseFrom s (openMoves s)
    takeMove s1 (m.getD (.dev .quadrantCycle))

end Sys2Proof.Machine
end

