-- ==== Sys2Proof/Machine/Place.lean ====
section
/-!
DEFINITION. A program placed from outside (log 2): the least context, launch, team, group and keystone context on which a word can be fetched.
A program comes to run from reset by host and dispatcher events; this stands for that sequence in one stroke.
-/

namespace Sys2Proof.Machine

/-- Where the placed word lies, as a virtual and as a physical address. -/
abbrev placedAt : Nat := 0x10000

/-- A lane that is about to run the placed word. -/
def placedLane (l : Nat) : Lane := { st := .running, pc := BitVec.ofNat 64 placedAt, tid := BitVec.ofNat 32 l, gen := seedGen 0 (BitVec.ofNat 32 l) }

/-- A group of 32 running lanes with 128 declared registers. -/
def placedGroup : Group :=
  { team := 1, idx := 0, core := 0, nregs := 128, budget := 4096, lanes := lanes32.map placedLane
    masks := 0xFFFFFFFF :: List.replicate 15 0 }

/-- A keystone context of the same team. -/
def placedKey : Group :=
  { team := 1, idx := 0, core := 4, key := some {}, nregs := 128, budget := 4096
    lanes := placedLane 0 :: List.replicate 31 { st := .exited }, masks := 1 :: List.replicate 15 0 }

/-- The launch of the placed team: one role of one group, a keystone program, a bank of scratchpad. -/
def placedLaunch : Launch :=
  { ctx := 0, queue := 0, id := 1, next := 1, total := 1
    lrec := { trec := 0x30000 }
    krec := { regs := 128, keystone := true, pad := 131072, key := BitVec.ofNat 64 placedAt
              roles := [{ groups := 1, place := 0, slots := 4096, entry := BitVec.ofNat 64 placedAt }] } }

/-- The placed team. -/
def placedTeam : Team := { key := 1, ctx := 0, launch := 1, pad := [0], hw := some 0 }

/-- A page table that maps the first GiB to itself for every access of lanes: a pointer at 0x1000, a 1 GiB leaf at 0x2000. -/
def placedTable (m : Mem) : Mem := memPut (memPut m 0x1000 (toBytes 8 0x20001)) 0x2000 (toBytes 8 0xDF)

/-- The state with a word placed where the next turn fetches: the keystone context's turn for a matrix major, the group's otherwise. -/
def placeWord (s : State) (w : BitVec 32) : State :=
  { s with
    agenda := [.issue (if matrixMajor w then .key 1 else .group 1 0) 0]
    cur := none
    mem := memPut (placedTable s.mem) placedAt (toBytes 4 w.toNat)
    poison := []
    past := []
    orders := []
    fences := []
    tlb := []
    ptrs := []
    contexts := mput {} s.contexts 0 { state := 1, root := 0x1000, trap := 0x20000, nextId := 2 }
    launches := [placedLaunch]
    teams := [placedTeam]
    nextTeam := 2
    groups := [placedGroup, placedKey]
    clusters := mput {} s.clusters 0 { (clusterOf s 0) with banks := mput {} (clusterOf s 0).banks 0 { mode := 1, lastCtx := some 0 } }
    cores := (s.cores.filter fun c => c.1 != 0 && c.1 != 4) }

end Sys2Proof.Machine
end

