-- ==== Sys2Proof/Safety.lean ====
section
/-!
DEFINITION. The terms that claims use: a memory in its canonical form; a path that runs an instruction with nothing to stop or hold it; what a
group looks like after its path went on to the next word; the words of a result.
-/

namespace Sys2Proof.Machine

/-- The memory keeps its canonical form: addresses rising, no byte equal to what an unlisted address reads as. -/
abbrev Memory.wf (m : Mem) : Bool := mwf 0 m

/-- Every memory of the package keeps its canonical form: physical memory and the SRAM of every cluster. -/
def State.memOk (s : State) : Bool := Memory.wf s.mem && s.clusters.all fun c => Memory.wf c.2.sram

/-- Slots that a group draws from the register file of a core, if every group of one name held n slots (R37). -/
def drawWith (s : State) (tile : Nat) (w : Who) (n : Nat) (g : Group) : Nat :=
  if g.who = w then n
  else if g.key.isSome || groupTile s g != tile then 0
  else if g.away then sumNat (g.regs.map fun (r, x) => if !x.spilled && pinned s g r then x.shape.slots else 0) else groupSlots g

/-- The register file of a group's core has slots left for what the instruction's operands and results may come to hold (R37). -/
def fileRoom (s : State) (g : Group) (i : Instr) : Bool :=
  g.key.isSome || (!g.away && sumNat (s.groups.map
    (drawWith s (groupTile s g) g.who (groupSlots g + 64 * (namedRegs g i).length + 256)))
    + sumNat ((keptBlocks s (groupTile s g)).map fun x => 32 * x.2.len) ≤ Config.fileSlots)

/-- A path runs an instruction: it issues with an active lane or is a path instruction
(R149), no check of R140 stops a lane, no register that it writes is held (R176), it waits
for no pending instruction (R41), no sub-group is due for the trap handler (R162), and the register file has room (R37). -/
structure Runs (s : State) (i : Instr) (c : Ctx) : Prop where
  path : issuer s = some c
  active : c.act ≠ 0 ∨ i.isPath = true
  clear : checkHits c i = []
  free : pinWait s c.g i = false
  ready : scoreWait c.g i = none
  calm : dueSub c.g = none
  room : fileRoom s c.g i = true

/-- A group after its path issued an instruction and went on: registers, masks, flags and program counters are as given, and everything else of the group
is as it was, but for what is kept of the last issue, the counts of spills and expansions, the windows of pending instructions and the waits that are
over. -/
def WentOn (s : State) (c : Ctx) (g' : Group) (masks : List W32) (flags : W32) (next : Nat → W64) : Prop :=
  g' = { c.g with
    regs := g'.regs
    masks := masks
    fpflags := flags
    lanes := lanes32.map fun l => if hasLane c.path l then { c.g.lane l with pc := next l } else c.g.lane l
    nextStamp := g'.nextStamp, expands := g'.expands, spills := g'.spills, shaping := g'.shaping
    issued := c.g.issued + 1, lastIssue := s.cycle + 1, lastPath := g'.lastPath, lastPc := c.pc, readyFor := 0
    pend := g'.pend, waits := g'.waits, got := g'.got, mism := 0, streak := g'.streak, streakLane := g'.streakLane }

/-- Registers written by the active lanes (R33): each listed register holds its value in every active lane; a lane that is neither active nor exited keeps
its value; every other register keeps every lane's value. -/
structure WroteRegs (c : Ctx) (g' : Group) (ds : List (Nat × (Nat → W32))) : Prop where
  active : ∀ d ∈ ds, ∀ l, hasLane c.act l = true → g'.val d.1 l = d.2 l
  idle : ∀ d ∈ ds, ∀ l, hasLane c.g.live l = true → hasLane c.act l = false → g'.val d.1 l = c.g.val d.1 l
  others : ∀ r, r ∉ ds.map (·.1) → ∀ l, l < 32 → g'.val r l = c.g.val r l

/-- The machine after a path ran an instruction that writes nothing but its group: the group is replaced, nothing else changes. -/
def onlyGroup (s : State) (g' : Group) : State := setGroup (uncur s) g'

/-- The instruction that issues is a long-latency one that stays pending: its flags wait in its pending record (R41, R181). -/
def windowed (s : State) (i : Instr) : Bool := (issuer s).any fun c => opensWindow i c.act

/-- %fpflags after an instruction that raises flags: a long-latency instruction adds them when it completes, another at once (R106, R181). -/
def flagsAfter (s : State) (i : Instr) (c : Ctx) (raised : W32) : W32 := if windowed s i then c.g.fpflags else c.g.fpflags ||| raised

/-- What is pending afterwards: the windows of the lanes of the path have counted down, and a long-latency instruction is pending with the flags it
raises (R41, R181). -/
def Pended (s : State) (i : Instr) (c : Ctx) (raised : W32) (g' : Group) : Prop :=
  ∀ c0, issuer s = some c0 → ∃ ld, g'.pend = countWindows c0.path c.g.pend ++ openWindow c0.g i c0.act raised ld

/-- In a paired run the twin's group learns which path issued, or has followed it (R62). -/
def scripted (s x : State) : State := match issuer s with | some c => noteScript c x | none => x

/-- A path that runs an instruction completes it: the machine goes on, its group as `WentOn` and `WroteRegs` say; outside the group the machine is as
`s'` is (s itself where the instruction touches nothing but its group), but for what `scripted` says of a paired run. -/
def Completes (s s' : State) (i : Instr) (c : Ctx) (masks : List W32) (raised : W32) (next : Nat → W64) (ds : List (Nat × (Nat → W32))) : Prop :=
  ∃ g', exec i s = .next (scripted s (onlyGroup s' g')) ∧ WentOn s c g' masks (flagsAfter s i c raised) next ∧ Pended s i c raised g' ∧
    WroteRegs c g' ds

/-- The register and value of a 32-bit result. -/
def dest (c : Ctx) (d : BitVec 7) (f : Nat → W32) : List (Nat × (Nat → W32)) := [(c.r d.toNat, f)]

/-- The registers and values of a 64-bit result: the low half in the named register, the high half in the next (R32). -/
def destPair (c : Ctx) (d : BitVec 7) (f : Nat → W64) : List (Nat × (Nat → W32)) :=
  [(c.r d.toNat, fun l => (f l).setWidth 32), (c.r (d.toNat + 1), fun l => (f l >>> 32).setWidth 32)]

end Sys2Proof.Machine
end

