-- ==== Sys2Proof/Certificates/Slice0/Obligations.lean ====
section
/-!
DEFINITION. The statements for the provers. Each names the rules of spec/ that it formalises; `Runs`, `WentOn` and `WroteRegs` (Safety.lean) say that
a path runs an instruction with nothing to stop or hold it, and what its group then looks like.
-/

namespace Sys2Proof.Machine

/-! ## Tables of results, lane by lane -/

/-- Position and length of the bit field that b gives (R186). -/
def fieldAt (b : W32) : Nat × Nat := (b.toNat % 32, Nat.min (b.toNat / 256 % 64) (32 - b.toNat % 32))

/-- A number with its 16 bits from bit k on replaced (R189). -/
def withHalf (x v k : Nat) : Nat := x % 2 ^ k + v * 2 ^ k + x / 2 ^ (k + 16) * 2 ^ (k + 16)

/-- The results of the integer and move instructions by lane (R182 to R190, R197). -/
def integerResult (c : Ctx) : Instr → Option (List (Nat × (Nat → W32)))
  | .add d a b => some (dest c d fun l => c.lv a l + c.lv b l)
  | .sub d a b => some (dest c d fun l => c.lv a l - c.lv b l)
  | .neg d a => some (dest c d fun l => 0 - c.lv a l)
  | .abs d a => some (dest c d fun l => if (c.lv a l).toInt < 0 then 0 - c.lv a l else c.lv a l)
  | .addi d a i => some (dest c d fun l => c.lv a l + i.signExtend 32)
  | .mulLo d a b => some (dest c d fun l => c.lv a l * c.lv b l)
  | .mulHiI d a b => some (dest c d fun l => BitVec.ofInt 32 ((c.lv a l).toInt * (c.lv b l).toInt / 2 ^ 32))
  | .mulHiN d a b => some (dest c d fun l => BitVec.ofNat 32 ((c.lv a l).toNat * (c.lv b l).toNat / 2 ^ 32))
  | .madLo d a b => some (dest c d fun l => c.lv a l * c.lv b l + c.lv d l)
  | .minI d a b => some (dest c d fun l => if (c.lv a l).toInt ≤ (c.lv b l).toInt then c.lv a l else c.lv b l)
  | .maxI d a b => some (dest c d fun l => if (c.lv a l).toInt ≤ (c.lv b l).toInt then c.lv b l else c.lv a l)
  | .minN d a b => some (dest c d fun l => if (c.lv a l).toNat ≤ (c.lv b l).toNat then c.lv a l else c.lv b l)
  | .maxN d a b => some (dest c d fun l => if (c.lv a l).toNat ≤ (c.lv b l).toNat then c.lv b l else c.lv a l)
  | .and d a b => some (dest c d fun l => c.lv a l &&& c.lv b l)
  | .or d a b => some (dest c d fun l => c.lv a l ||| c.lv b l)
  | .xor d a b => some (dest c d fun l => c.lv a l ^^^ c.lv b l)
  | .andn d a b => some (dest c d fun l => c.lv a l &&& ~~~(c.lv b l))
  | .not d a => some (dest c d fun l => ~~~(c.lv a l))
  | .andi d a i => some (dest c d fun l => c.lv a l &&& i.signExtend 32)
  | .ori d a i => some (dest c d fun l => c.lv a l ||| i.signExtend 32)
  | .xori d a i => some (dest c d fun l => c.lv a l ^^^ i.signExtend 32)
  | .shl d a b => some (dest c d fun l => c.lv a l <<< ((c.lv b l).toNat % 32))
  | .shr d a b => some (dest c d fun l => c.lv a l >>> ((c.lv b l).toNat % 32))
  | .sar d a b => some (dest c d fun l => (c.lv a l).sshiftRight ((c.lv b l).toNat % 32))
  | .rotl d a b => some (dest c d fun l => (c.lv a l).rotateLeft ((c.lv b l).toNat % 32))
  | .shli d a n => some (dest c d fun l => c.lv a l <<< n.toNat)
  | .shri d a n => some (dest c d fun l => c.lv a l >>> n.toNat)
  | .sari d a n => some (dest c d fun l => (c.lv a l).sshiftRight n.toNat)
  | .rotli d a n => some (dest c d fun l => (c.lv a l).rotateLeft n.toNat)
  | .popc d a => some (dest c d fun l => BitVec.ofNat 32 (lanes32.countP fun k => (c.lv a l).getLsbD k))
  | .clz d a => some (dest c d fun l => if c.lv a l = 0 then 32 else BitVec.ofNat 32 (31 - Nat.log2 (c.lv a l).toNat))
  | .brev d a => some (dest c d fun l => (c.lv a l).reverse)
  | .bfeN d a b => some (dest c d fun l =>
      let (p, n) := fieldAt (c.lv b l)
      BitVec.ofNat 32 ((c.lv a l).toNat / 2 ^ p % 2 ^ n))
  | .bfeI d a b => some (dest c d fun l =>
      let (p, n) := fieldAt (c.lv b l)
      let v := (c.lv a l).toNat / 2 ^ p % 2 ^ n
      if n = 0 then 0 else BitVec.ofInt 32 (if v < 2 ^ (n - 1) then (v : Int) else (v : Int) - 2 ^ n))
  | .bfi d a b => some (dest c d fun l =>
      let (p, n) := fieldAt (c.lv b l)
      let m := BitVec.ofNat 32 (2 ^ n - 1)
      (c.lv d l &&& ~~~(m <<< p)) ||| ((c.lv a l &&& m) <<< p))
  | .sel d a b m => some (dest c d fun l => if hasLane (c.g.mask m.toNat) l then c.lv a l else c.lv b l)
  | .mov d a => some (dest c d fun l => c.lv a l)
  | .lane d => some (dest c d fun l => BitVec.ofNat 32 l)
  | .dp4I8 d a b => some (dest c d fun l => c.lv d l + BitVec.ofInt 32 (partI (c.lv a l) 0 8 * partI (c.lv b l) 0 8 + partI (c.lv a l) 1 8 * partI (c.lv b l) 1 8
      + partI (c.lv a l) 2 8 * partI (c.lv b l) 2 8 + partI (c.lv a l) 3 8 * partI (c.lv b l) 3 8))
  | .dp4N8 d a b => some (dest c d fun l => c.lv d l + BitVec.ofInt 32 (partN (c.lv a l) 0 8 * partN (c.lv b l) 0 8 + partN (c.lv a l) 1 8 * partN (c.lv b l) 1 8
      + partN (c.lv a l) 2 8 * partN (c.lv b l) 2 8 + partN (c.lv a l) 3 8 * partN (c.lv b l) 3 8))
  | .dp2I16 d a b => some (dest c d fun l => c.lv d l + BitVec.ofInt 32 (partI (c.lv a l) 0 16 * partI (c.lv b l) 0 16 + partI (c.lv a l) 1 16 * partI (c.lv b l) 1 16))
  | .add64 d a b => some (destPair c d fun l => c.pv a l + c.pv b l)
  | .sub64 d a b => some (destPair c d fun l => c.pv a l - c.pv b l)
  | .mulWideI d a b => some (destPair c d fun l => BitVec.ofInt 64 ((c.lv a l).toInt * (c.lv b l).toInt))
  | .mulWideN d a b => some (destPair c d fun l => BitVec.ofNat 64 ((c.lv a l).toNat * (c.lv b l).toNat))
  | .shl64 d a b => some (destPair c d fun l => c.pv a l <<< ((c.lv b l).toNat % 64))
  | .shr64 d a b => some (destPair c d fun l => c.pv a l >>> ((c.lv b l).toNat % 64))
  | .sar64 d a b => some (destPair c d fun l => (c.pv a l).sshiftRight ((c.lv b l).toNat % 64))
  | .movl d h i => some (if h.toNat < 2 then dest c d fun _ => i.setWidth 32 <<< (16 * h.toNat) else destPair c d fun _ => i.setWidth 64 <<< (16 * h.toNat))
  | .movh d h i => some (if h.toNat < 2 then dest c d fun l => BitVec.ofNat 32 (withHalf (c.lv d l).toNat i.toNat (16 * h.toNat))
      else destPair c d fun l => BitVec.ofNat 64 (withHalf (c.pv d l).toNat i.toNat (16 * h.toNat)))
  | _ => none

/-- The mask and its value by lane that the compares write (R187, R199), and the flags. -/
def compareResult (c : Ctx) : Instr → Option (Nat × (Nat → Bool) × W32)
  | .cmp m a b k => some (m.toNat, fun l => condHolds k.toNat 32 (c.lv a l).toNat (c.lv b l).toNat, 0)
  | .cmp64 m a b k => some (m.toNat, fun l => condHolds64 k.toNat (c.pv a l).toNat (c.pv b l).toNat, 0)
  | .fcmp m a b k => some (m.toNat, fun l => (fcmpV k.toNat (c.f32 a l) (c.f32 b l)).1, laneFlags c fun l => (fcmpV k.toNat (c.f32 a l) (c.f32 b l)).2)
  | .dcmp m a b k => some (m.toNat, fun l => (fcmpV k.toNat (c.f64 a l) (c.f64 b l)).1, laneFlags c fun l => (fcmpV k.toNat (c.f64 a l) (c.f64 b l)).2)
  | _ => none

/-- Values and flags of the binary32 instructions by lane (R195, R198, R200, R203), of those of packed halves (R202) and of the unpacks (R207). -/
def floatResult (c : Ctx) : Instr → Option (BitVec 7 × (Nat → Nat × W32))
  | .fadd d a b => some (d, fun l => fmtF32.addV c.rm false (c.f32 a l) (c.f32 b l))
  | .fsub d a b => some (d, fun l => fmtF32.addV c.rm false (c.f32 a l) (c.f32 b l).negate)
  | .fmul d a b => some (d, fun l => fmtF32.mul c.rm false (c.f32 a l) (c.f32 b l))
  | .fmin d a b => some (d, fun l => fmtF32.minmax false (c.lv a l).toNat (c.lv b l).toNat)
  | .fmax d a b => some (d, fun l => fmtF32.minmax true (c.lv a l).toNat (c.lv b l).toNat)
  | .fneg d a => some (d, fun l => if (c.f32 a l).isNan then (0x7FC00000, nvOf (c.f32 a l)) else (((c.lv a l) ^^^ 0x80000000).toNat, 0))
  | .fabs d a => some (d, fun l => if (c.f32 a l).isNan then (0x7FC00000, nvOf (c.f32 a l)) else (((c.lv a l) &&& 0x7FFFFFFF).toNat, 0))
  | .ffma d a b => some (d, fun l => fmtF32.fma c.rm false (c.f32 a l) (c.f32 b l) (c.f32 d l))
  | .ffms d a b => some (d, fun l => fmtF32.fma c.rm false (c.f32 a l).negate (c.f32 b l) (c.f32 d l))
  | .fclass d a => some (d, fun l => (2 ^ classBit (c.lv a l).toNat, 0))
  | .fcopysign d a b => some (d, fun l => if (c.f32 a l).isNan then (0x7FC00000, nvOf (c.f32 a l))
      else ((((c.lv a l) &&& 0x7FFFFFFF) ||| ((c.lv b l) &&& 0x80000000)).toNat, 0))
  | .ffrac d a => some (d, fun l => fracV (c.f32 a l))
  | .fround d a => some (d, fun l => integralV c.rm (c.f32 a l))
  | .frcp d a _ => some (d, fun l => frcpV c.rm (c.f32 a l))
  | .frsq d a _ => some (d, fun l => frsqV c.rm (c.f32 a l))
  | .fsqrt d a _ => some (d, fun l => fsqrtV c.rm (c.f32 a l))
  | .fexp2 d a _ => some (d, fun l => fexp2V (c.f32 a l))
  | .flog2 d a _ => some (d, fun l => flog2V (c.f32 a l))
  | .fsin d a _ => some (d, fun l => fsinV (c.f32 a l))
  | .fcos d a _ => some (d, fun l => fcosV (c.f32 a l))
  | .ftanh d a _ => some (d, fun l => ftanhV (c.f32 a l))
  | _ => none

/-- Values and flags of the packed-half instructions (R113, R202): both halves of a lane with their own rounding. -/
def halfResult (c : Ctx) : Instr → Option (BitVec 7 × (Nat → Nat × W32))
  | .hadd2F16 d a b => some (d, fun l => halves fmtF16 (fun x y _ => fmtF16.addV c.rm (ftzOf c.g.fpcr) x y) (c.lv a l) (c.lv b l) 0)
  | .hmul2F16 d a b => some (d, fun l => halves fmtF16 (fun x y _ => fmtF16.mul c.rm (ftzOf c.g.fpcr) x y) (c.lv a l) (c.lv b l) 0)
  | .hfma2F16 d a b => some (d, fun l => halves fmtF16 (fmtF16.fma c.rm (ftzOf c.g.fpcr)) (c.lv a l) (c.lv b l) (c.lv d l))
  | .hadd2Bf16 d a b => some (d, fun l => halves fmtBF16 (fun x y _ => fmtBF16.addV c.rm (ftzOf c.g.fpcr) x y) (c.lv a l) (c.lv b l) 0)
  | .hmul2Bf16 d a b => some (d, fun l => halves fmtBF16 (fun x y _ => fmtBF16.mul c.rm (ftzOf c.g.fpcr) x y) (c.lv a l) (c.lv b l) 0)
  | .hfma2Bf16 d a b => some (d, fun l => halves fmtBF16 (fmtBF16.fma c.rm (ftzOf c.g.fpcr)) (c.lv a l) (c.lv b l) (c.lv d l))
  | _ => none
where
  /-- One operation on the low and on the high halves. -/
  halves (f : Fmt) (op : FV → FV → FV → Nat × W32) (x y z : W32) : Nat × W32 :=
    let rd (v : W32) (k : Nat) : FV := f.read (ftzOf c.g.fpcr) (v.toNat / 2 ^ (16 * k) % 2 ^ 16)
    let lo := op (rd x 0) (rd y 0) (rd z 0)
    let hi := op (rd x 1) (rd y 1) (rd z 1)
    (lo.1 + hi.1 * 2 ^ 16, lo.2 ||| hi.2)

/-- Values and flags of the binary64 instructions (R195, R201). -/
def doubleResult (c : Ctx) : Instr → Option (BitVec 7 × (Nat → Nat × W32))
  | .dadd d a b => some (d, fun l => fmtF64.addV c.rm false (c.f64 a l) (c.f64 b l))
  | .dsub d a b => some (d, fun l => fmtF64.addV c.rm false (c.f64 a l) (c.f64 b l).negate)
  | .dmul d a b => some (d, fun l => fmtF64.mul c.rm false (c.f64 a l) (c.f64 b l))
  | .dfma d a b => some (d, fun l => fmtF64.fma c.rm false (c.f64 a l) (c.f64 b l) (c.f64 d l))
  | .dmin d a b => some (d, fun l => fmtF64.minmax false (c.pv a l).toNat (c.pv b l).toNat)
  | .dmax d a b => some (d, fun l => fmtF64.minmax true (c.pv a l).toNat (c.pv b l).toNat)
  | _ => none

/-- Lane values of the shuffles and of the broadcast (R191, R192). -/
def shuffleResult (c : Ctx) : Instr → Option (List (Nat × (Nat → W32)))
  | .shfl d a b => some (dest c d fun l => c.lv a ((c.lv b l).toNat % 32))
  | .shflUp d a b => some (dest c d fun l => c.lv a (if (c.lv b l).toNat ≤ l then l - (c.lv b l).toNat else l))
  | .shflDn d a b => some (dest c d fun l => c.lv a (if l + (c.lv b l).toNat ≤ 31 then l + (c.lv b l).toNat else l))
  | .shflX d a b => some (dest c d fun l => c.lv a (l ^^^ ((c.lv b l).toNat % 32)))
  | .bcast d a b => some (dest c d fun _ => c.lv a (if (c.uv b).toNat < 32 then (c.uv b).toNat else c.first))
  | _ => none

/-- The mask that the mask instructions write (R170, R171). -/
def maskResult (c : Ctx) : Instr → Option (Nat × W32)
  | .mand d a b => some (d.toNat, c.g.mask a.toNat &&& c.g.mask b.toNat)
  | .mor d a b => some (d.toNat, c.g.mask a.toNat ||| c.g.mask b.toNat)
  | .mxor d a b => some (d.toNat, c.g.mask a.toNat ^^^ c.g.mask b.toNat)
  | .mandn d a b => some (d.toNat, c.g.mask a.toNat &&& ~~~(c.g.mask b.toNat))
  | .mnot d a => some (d.toNat, ~~~(c.g.mask a.toNat))
  | .mmov d a => some (d.toNat, c.g.mask a.toNat)
  | .vtom d a => some (d.toNat, c.lv a 0)
  | .mall d => some (d.toNat, laneSet fun l => (c.g.lane l).st != .exited)
  | _ => none

/-- The register values read from masks, tags and special registers (R171, R172). -/
def maskReadResult (c : Ctx) : Instr → Option (List (Nat × (Nat → W32)))
  | .mpop d a => some (dest c d fun _ => BitVec.ofNat 32 (lanes32.countP fun l => hasLane (c.g.mask a.toNat) l))
  | .mfirst d a => some (dest c d fun _ => BitVec.ofNat 32 (lowestLane (c.g.mask a.toNat)))
  | .mtov d a => some (dest c d fun _ => c.g.mask a.toNat)
  | .shape d a =>
    let g := (fillOps c (.shape d a)).g
    some (dest c d fun _ => BitVec.ofNat 32 ((g.reg (c.r a.toNat)).shape.code + (if (g.reg (c.r a.toNat)).spilled then 4 else 0)))
  | _ => none

/-- What mask k reads after mask m was written with v; a keystone mask holds bit 0 alone, and its m0 stays as it is (R40, R244). -/
def maskAfter (g : Group) (m : Nat) (v : W32) (k : Nat) : W32 :=
  if k ≠ m then g.mask k else if g.key.isSome then (if m = 0 then g.mask 0 else v &&& 1) else v

/-- The group with a function applied to lanes of a set. -/
def onLanes (c : Ctx) (m : W32) (f : Lane → Lane) : Ctx := { c with g := c.g.modLanes m fun _ => f }

/-- The path goes nowhere: its lanes are as the group's lanes are. -/
def Ctx.still (c : Ctx) : Ctx := { c with path := 0 }

/-- The group's pending instructions have completed and the windows of lanes are over (R43). -/
def ended (c : Ctx) (m : W32) : Ctx := { c with g := completePending c.g m }

/-- Next program counters of the branches (R24, R129, R155, R158) and of jmp (R160) by lane. -/
def branchNext (c : Ctx) : Instr → Option (Nat → W64)
  | .bra _ m o => some fun l => if hasLane c.act l && hasLane (c.g.mask m.toNat) l then c.pc + 4 * o.signExtend 64 else c.pc + 4
  | .chkp _ o => some fun l => if c.g.preempt && hasLane c.act l then c.pc + 4 * o.signExtend 64 else c.pc + 4
  | .jmp a => some fun l => if hasLane c.act l then c.pv a l else c.pc + 4
  | .nop => some fun _ => c.pc + 4
  | _ => none

/-- Every target that active lanes read from a register pair is aligned and canonical (R150). -/
def targetsOk (c : Ctx) : Instr → Bool
  | .jmp a | .calli _ a | .ret a => c.lanes.all fun l => pcOk (c.pv a l)
  | _ => true

/-- Lanes that a call takes, its link register, its target by lane (R159, R160). -/
def callOf (c : Ctx) : Instr → Option (W32 × Nat × (Nat → W64))
  | .call _ m o => some (c.act &&& c.g.mask m.toNat, c.r 62, fun _ => c.pc + 4 * o.signExtend 64)
  | .calli d a => some (c.act, c.r d.toNat, fun l => c.pv a l)
  | _ => none

/-- The value of a 32-bit special register in lane l (R17, R145). -/
def specialValue (s : State) (c : Ctx) (i : Instr) (n l : Nat) : Option W32 :=
  let q := teamLaunch s c.t
  match n with
  | 0 => some (if c.g.drawn then (c.g.lane l).tid else (c.g.lane 0).tid + BitVec.ofNat 32 l)
  | 4 => some (BitVec.ofNat 32 l)
  | 5 => some (BitVec.ofNat 32 c.g.role)
  | 0x08 => some (BitVec.ofNat 32 c.t.tx)
  | 0x09 => some (BitVec.ofNat 32 c.t.ty)
  | 0x0A => some (BitVec.ofNat 32 c.t.tz)
  | 0x0C => some (BitVec.ofNat 32 q.lrec.gx)
  | 0x0D => some (BitVec.ofNat 32 q.lrec.gy)
  | 0x0E => some (BitVec.ofNat 32 q.lrec.gz)
  | 0x10 => some (BitVec.ofNat 32 q.krec.x)
  | 0x11 => some (BitVec.ofNat 32 q.krec.y)
  | 0x12 => some (BitVec.ofNat 32 q.krec.z)
  | 0x18 => some q.id
  | 0x20 => some c.g.fpcr
  | 0x21 => some c.g.fpflags
  | 0x22 => some (if c.g.preempt then 1 else 0)
  | 0x24 => some (BitVec.ofNat 32 c.g.winb)
  | 0x25 => some (BitVec.ofNat 32 (groupSlots (fillOps c i).g))
  | 1 => some (BitVec.ofNat 32 ((c.g.lane l).tid.toNat % q.krec.x))
  | 2 => some (BitVec.ofNat 32 ((c.g.lane l).tid.toNat / q.krec.x % q.krec.y))
  | 3 => some (BitVec.ofNat 32 ((c.g.lane l).tid.toNat / (q.krec.x * q.krec.y)))
  | _ => none

/-- The region that opens at this word (R57, R60). -/
def opened (c : Ctx) : Region := { entry := c.pc, m0 := c.g.mask 0, live := c.g.live, depth := (c.g.lane (lowestLane c.path)).depth }

/-- %fpcr after a write of x (R110, R169). -/
def fpcrAfter (old x : W32) : W32 := BitVec.ofNat 32 ((if x.toNat % 8 < 5 then x.toNat % 8 else old.toNat % 8) + 8 * (x.toNat / 8 % 4))

/-- A node of the fixed tree of a reduction (R121). -/
def treeNode (op : W32 → W32 → W32 × W32) (act : W32) (x : Nat → W32) : Nat → Nat → Option (W32 × W32)
  | 0, l => if hasLane act l then some (x l, 0) else none
  | k + 1, i => combine op (treeNode op act x k (2 * i)) (treeNode op act x k (2 * i + 1))

/-- Lane l after k steps of a scan (R122). -/
def scanNode (op : W32 → W32 → W32 × W32) (act : W32) (x : Nat → W32) : Nat → Nat → Option (W32 × W32)
  | 0, l => if hasLane act l then some (x l, 0) else none
  | k + 1, l => if 2 ^ k ≤ l then combine op (scanNode op act x k (l - 2 ^ k)) (scanNode op act x k l) else scanNode op act x k l

/-- Where a byte stands: at an address of physical memory, or at an offset of a cluster's SRAM. -/
abbrev Cell := Option Nat × Nat

/-- The byte at a place. -/
def cellAt (s : State) : Cell → Byte
  | (none, p) => mget 0 s.mem p
  | (some c, o) => mget 0 (clusterOf s c).sram o

/-- The places of the bytes of an access, in ascending order of their virtual addresses (R14, R360). -/
def cellsOf (s : State) (l : List Spot) : List Cell := l.flatMap fun x => match x with
  | .mem _ n _ pa => (upto n).map fun i => (none, routeAlias s pa + i)
  | .pad c off n => (upto n).map fun i => (some c, off + i)

/-- What a list of writes leaves at a place, if one of them is to it: the last. -/
def newest (p : Cell) (l : List (Cell × Byte)) : Option Byte := (firstWhere (fun x => x.1 == p) l.reverse).map (·.2)

/-- The place lies in one slot of its stack (R360), and its leaf is not zeroing. -/
def wholeSpot (s : State) : Spot → Prop
  | .mem _ n t pa => leafBit t.leaf 15 = false ∧ ∀ i, i < n → routeAlias s (pa + i) = routeAlias s pa + i
  | .pad _ _ _ => True

/-- A write there leaves no mark: its leaf has A and D, and nothing counts the access (R336, R346). -/
def unmarked (s : State) : Spot → Prop
  | .mem _ _ t _ => marked t.leaf true = t.leaf ∧ (s.ctl.cntb = 0 ∨ leafBit t.leaf 14 = false)
  | .pad _ _ _ => True

/-- The bytes that the lanes of a store write, lane after lane: of a byte of several lanes the highest lane's (R214). -/
def storeCells (s : State) (n : Nat) (st : List (Nat × W64 × List Byte × List Spot)) : List (Cell × Byte) := st.flatMap fun (l, a, bs, x) =>
  ((upto (cellsOf s x).length).filter fun k => !st.any fun y => decide (l < y.1) && decide (y.2.1.toNat ≤ a.toNat + k) && decide (a.toNat + k < y.2.1.toNat + n)).map
    fun k => (nth (none, 0) (cellsOf s x) k, nth 0 bs k)

/-- The read-modify-writes of the lanes of an atomic, one after the other: what stands at every place, and the old values by lane (R218). -/
def rmwCells (n : Nat) (op : Nat → Nat → Nat) : List (Nat × List Cell) → (Cell → Byte) → (Cell → Byte) × List (Nat × Nat)
  | [], m => (m, [])
  | (l, cs) :: x, m =>
    let old := ofBytes (cs.map m)
    let r := rmwCells n op x fun p => (newest p (cs.zip (toBytes n (op l old)))).getD (m p)
    (r.1, (l, old) :: r.2)

/-- The bytes of a gated line and the places that they go to; memory is written by the primary of a pair alone (R58, R62). -/
def gateCells (s : State) (t : Team) (l : GateLine) : List (Cell × Byte) := l.cells.flatMap fun (k, b) => match b with
  | none => []
  | some v =>
    if l.pad then (cellsOf s (padSpots t (l.line.toNat - Config.aperture + k) 1)).map (·, v)
    else if t.primary then [((none, routeAlias s (gateAt s l) + k), v)] else []

/-- The lines may leave the gate as they are: no translation is stale (R340), and each lies in one slot of its stack. -/
def gateReady (s : State) (gate : List GateLine) : Prop := ∀ l ∈ gate, l.stale = false ∧ (∀ x ∈ l.cells, x.1 < 128) ∧
  (l.pad = false → ∀ k, k < 128 → routeAlias s (gateAt s l + k) = routeAlias s (gateAt s l) + k)

/-- The gate's bytes have gone to their places, and nothing but memory has changed (R58). -/
def GateOut (s s1 s' : State) (t : Team) (gate : List GateLine) : Prop :=
  s' = { s1 with mem := s'.mem, clusters := s'.clusters, poison := s'.poison, past := s'.past, writes := s'.writes, orders := s'.orders, dirty := s'.dirty } ∧
  (∀ k, clusterOf s' k = { clusterOf s1 k with sram := (clusterOf s' k).sram, sramBad := (clusterOf s' k).sramBad }) ∧
  ∀ p, cellAt s' p = (newest p (gate.flatMap (gateCells s t))).getD (cellAt s p)

/-- A group has restarted its region (R60): its gate is empty and its parked sub-groups are gone, m0 and the lanes are those of the entry, on one path at the
word after it, and the long-latency instructions have completed. Rests on log 92 (the depth of the lanes) and log 101 (pending instructions). -/
structure Restarted (g g' : Group) (r : Region) : Prop where
  region : g'.region = some r
  subs : g'.subs = []
  pend : g'.pend = []
  flags : g'.fpflags = g.pend.foldl (fun f p => f ||| p.flags) g.fpflags
  regs : g'.regs = g.regs
  masks : ∀ k, k < 16 → g'.mask k = if k = 0 then r.m0 else g.mask k
  lanes : ∀ l, l < 32 → g'.lane l = if hasLane r.live l
    then { g.lane l with st := .running, pc := r.entry + 4, depth := r.depth, handler := false, tag := g.nextTag, at_ := .none } else g.lane l

/-- What an instruction of a paired team comes to where it meets its twin (R62, R63): the primary leads, the twin follows with what was forwarded, one of them
waits for the other, or their signatures differ. -/
def Paired (s s0 : State) (i : Instr) (c : Ctx) (sig : W64) (lead : Prop) (follow : State → Ctx → List W64 → Prop) : Prop :=
  isPaired c.t = true → c.t.twin ≠ some c.g.team → match pairMeet s0 c.g c.pc c.act sig with
    | .alone => False
    | .lead => lead
    | .follow s1 vs => follow s1 { c with g := (findGroup s1 c.g.who).getD c.g } vs
    | .wait s1 => exec i s = .next (waitState s1 c.g.who i .other c.path c.pc 0)
    | .differ w x => exec i s = .next (waitState (pairDiffer s0 c.g w x c.pc) c.g.who i .other c.path c.pc 0)

/-- Every operand of the instruction is in the register slots: none has to be filled back (R35). -/
def Filled (c : Ctx) (i : Instr) : Prop := fillOps c i = c

/-- A load: destination, base, offset, bytes, whether it is an acquire load, of which alignment is demanded, and the value written from the number read (R211 to R213). -/
structure LoadForm where
  d : BitVec 7
  b : BitVec 7
  o : BitVec 7
  n : Nat
  aligned : Bool := false
  f : Nat → Nat := id

/-- The loads. -/
def loadForm : Instr → Option LoadForm
  | .ldB8n d b o _ => some { d := d, b := b, o := o, n := 1 }
  | .ldB8i d b o _ => some { d := d, b := b, o := o, n := 1, f := fun v => (BitVec.ofInt 32 (sextInt 8 v)).toNat }
  | .ldB16n d b o _ => some { d := d, b := b, o := o, n := 2 }
  | .ldB16i d b o _ => some { d := d, b := b, o := o, n := 2, f := fun v => (BitVec.ofInt 32 (sextInt 16 v)).toNat }
  | .ldB32 d b o _ => some { d := d, b := b, o := o, n := 4 }
  | .ldB64 d b o _ => some { d := d, b := b, o := o, n := 8 }
  | .ldB128 d b o _ => some { d := d, b := b, o := o, n := 16 }
  | .ldAcqB32 d b o _ => some { d := d, b := b, o := o, n := 4, aligned := true }
  | .ldAcqB64 d b o _ => some { d := d, b := b, o := o, n := 8, aligned := true }
  | .ldpB32 d b o _ => some { d := d, b := b, o := o, n := 4 }
  | .ldpB64 d b o _ => some { d := d, b := b, o := o, n := 8 }
  | _ => none

/-- A probe load, and an acquire load. -/
def isProbe : Instr → Bool
  | .ldpB32 _ _ _ _ | .ldpB64 _ _ _ _ => true
  | _ => false
def isAcquire : Instr → Bool
  | .ldAcqB32 _ _ _ _ | .ldAcqB64 _ _ _ _ => true
  | _ => false

/-- The reads that a load makes for its active lanes. -/
def LoadForm.reads (x : LoadForm) (c : Ctx) : Reads := readLanes c (c.addr x.b x.o x.n) x.n x.aligned (if x.aligned then .load else .no)

/-- The register values of a load: register j holds bits 32 j on of the value. -/
def LoadForm.dests (x : LoadForm) (c : Ctx) : List (Nat × (Nat → W32)) :=
  (upto ((x.n + 3) / 4)).map fun j => (c.r (x.d.toNat + j), fun l => BitVec.ofNat 32 (x.f (valOf (x.reads c).vals l) / 2 ^ (32 * j)))

/-- A store: data, base, offset, bytes, whether it is a release store (R214, R215). -/
def storeForm : Instr → Option (BitVec 7 × BitVec 7 × BitVec 7 × Nat × Bool)
  | .stB8 d b o _ => some (d, b, o, 1, false)
  | .stB16 d b o _ => some (d, b, o, 2, false)
  | .stB32 d b o _ => some (d, b, o, 4, false)
  | .stB64 d b o _ => some (d, b, o, 8, false)
  | .stB128 d b o _ => some (d, b, o, 16, false)
  | .stRelB32 d b o _ => some (d, b, o, 4, true)
  | .stRelB64 d b o _ => some (d, b, o, 8, true)
  | _ => none

/-- What the lanes of a store write, in ascending lane order: lane, address, bytes, places. -/
def storesOf (c : Ctx) (d b o : BitVec 7) (n : Nat) (spots : List (Nat × List Spot)) : List (Nat × W64 × List Byte × List Spot) :=
  spots.map fun (l, x) => (l, c.addr b o n l, storeData c d n l, x)

/-- An atomic: destination, base, offset, bytes, and the new value from the lane and the old value (R217). -/
def atomicForm (c : Ctx) : Instr → Option (BitVec 7 × BitVec 7 × BitVec 7 × Nat × (Nat → Nat → Nat))
  | .atomAdd32 d b o _ => some (d, b, o, 4, fun l x => (x + (c.lv d l).toNat) % 2 ^ 32)
  | .atomAdd64 d b o _ => some (d, b, o, 8, fun l x => (x + (c.pv d l).toNat) % 2 ^ 64)
  | .atomMinI32 d b o _ => some (d, b, o, 4, fun l x => if sextInt 32 x ≤ (c.lv d l).toInt then x else (c.lv d l).toNat)
  | .atomMaxI32 d b o _ => some (d, b, o, 4, fun l x => if (c.lv d l).toInt ≤ sextInt 32 x then x else (c.lv d l).toNat)
  | .atomMinN32 d b o _ => some (d, b, o, 4, fun l x => Nat.min x (c.lv d l).toNat)
  | .atomMaxN32 d b o _ => some (d, b, o, 4, fun l x => Nat.max x (c.lv d l).toNat)
  | .atomAnd d b o _ => some (d, b, o, 4, fun l x => x &&& (c.lv d l).toNat)
  | .atomOr d b o _ => some (d, b, o, 4, fun l x => x ||| (c.lv d l).toNat)
  | .atomXor d b o _ => some (d, b, o, 4, fun l x => x ^^^ (c.lv d l).toNat)
  | .atomXchg32 d b o _ => some (d, b, o, 4, fun l _ => (c.lv d l).toNat)
  | .atomXchg64 d b o _ => some (d, b, o, 8, fun l _ => (c.pv d l).toNat)
  | .atomCas32 d b o _ => some (d, b, o, 4, fun l x => if x = (c.lv d l).toNat then (c.lvk d 1 l).toNat else x)
  | .atomCas64 d b o _ => some (d, b, o, 8, fun l x => if x = (c.pv d l).toNat then (c.lvk d 3 l ++ c.lvk d 2 l).toNat else x)
  | .atomFaddF32 d b o _ => some (d, b, o, 4, fun l x => (fmtF32.addV .rne false (fmtF32.decode x) (fmtF32.decode (c.lv d l).toNat)).1)
  | _ => none

/-- The old value of lane l among those that the lanes of an atomic read. -/
def oldOf (olds : List (Nat × Nat)) (l : Nat) : Nat := ((firstWhere (fun x => x.1 == l) olds).map (·.2)).getD (nth (0, 0) olds 0).2

/-- Flags that some lanes raise, together (R49). -/
def raised (c : Ctx) (f : Nat → Nat × W32) : W32 := laneFlags c fun l => (f l).2

/-- What a pack or unpack gives (R117, R118, R207): its destination, value and flags by lane, the second register's value, the flags of the scale, and
whether it rounds stochastically. -/
structure PackForm where
  d : BitVec 7
  f : Nat → Nat × W32
  second : Option W32 := none
  flags : W32 := 0
  sto : Bool := false

/-- The control word of a pack: lane 0 of the register after a. -/
def packCtl (c : Ctx) (a : BitVec 7) : Nat := (c.lvk a 1 0).toNat

/-- The packs and unpacks. -/
def packForm (c : Ctx) : Instr → Option PackForm
  | .mxpack d a _ =>
    let st := bits (packCtl c a) 8 1 == 1
    let x := mxFmt (bits (packCtl c a) 0 3)
    let vs := blockVals c a
    some { d := d, sto := st
           f := fun l => if badBlock vs then (0, flNV) else mxElem x.1 (elemMode c st l 0) (mxScale vs x.2.1) (c.f32 a l)
           second := some (BitVec.ofNat 32 (if badBlock vs then 0xFF else (mxScale vs x.2.1 + 127).toNat)) }
  | .mxunpack d a _ =>
    let x := mxFmt (bits (packCtl c a) 0 3)
    some { d := d, f := fun l => match e8m0V (bits (packCtl c a) 8 8), x.1.decode ((c.lv a l).toNat % 2 ^ x.2.2) with
      | .nan _, _ => (fmtF32.nan, 0)
      | .fin _ _ k, .fin n m e => fmtF32.ofFV c.rm false false (.fin n m (e + k))
      | _, v => fmtF32.ofFV c.rm false false v }
  | .qpack4 d a _ =>
    let st := bits (packCtl c a) 8 1 == 1
    let ftz := ftzOf c.g.fpcr
    let vs := blockVals c a
    let sc := if bits (packCtl c a) 9 1 = 1 then (bits (packCtl c a) 16 16, 0) else if badBlock vs then (0, 0) else qScale ftz vs
    let scale := fmtBF16.read ftz sc.1
    some { d := d, sto := st, flags := sc.2
           f := fun l => if badBlock vs || scale.isNan then (0, flNV)
             else (((qElem (elemMode c st l 0) scale (c.f32 a l)).1 % (2 ^ 32 : Nat)).toNat, (qElem (elemMode c st l 0) scale (c.f32 a l)).2)
           second := some (BitVec.ofNat 32 (if badBlock vs then fmtBF16.nan else sc.1)) }
  | .qunpack4 d a _ =>
    some { d := d, f := fun l =>
      let q := sextInt 4 (bits (c.lv a l).toNat 0 4)
      fmtF32.mul c.rm false (.fin (q < 0) q.natAbs 0) (fmtBF16.read (ftzOf c.g.fpcr) (bits (packCtl c a) 0 16)) }
  | _ => none

/-- A generator after n steps (R115). -/
def genAfter : Nat → W32 → W32
  | 0, g => g
  | n + 1, g => stepGen (genAfter n g)

/-- The active lanes' generators after n steps. -/
def genSteps (c : Ctx) (n : Nat) : Ctx := onLanes c c.act fun x => { x with gen := genAfter n x.gen }

/-- The active lanes have left the group (R29, R153); the others of the path go on. -/
def leftLanes (c : Ctx) : Ctx :=
  { onLanes c c.act fun x => { x with st := .exited, handler := false, at_ := .none } with path := c.path &&& ~~~c.act }

/-- A group whose sub-groups have lost some lanes; those that have none left are gone (R153). -/
def withoutLanes (g : Group) (m : W32) : Group :=
  { g with subs := (g.subs.map fun u => { u with lanes := u.lanes &&& ~~~m }).filter fun u => u.lanes != 0 }

/-- A lane of the team, or of a role of it, that is neither EXITED nor WAITING at the barrier; the path itself is at it. -/
def barrierOpen (s : State) (c : Ctx) (role : Option Nat) (at_ : WaitAt) : Bool :=
  lanesElsewhere s c.g.team role
    || (s.groups.any fun h => h.team == c.g.team && h.key.isNone && h.who != c.g.who && (role.isNone || role == some h.role)
        && h.lanes.any fun x => x.st != .exited && !(x.st == .waiting && x.at_ == at_))
    || lanes32.any fun l => !hasLane c.path l && (c.g.lane l).st != .exited && !((c.g.lane l).st == .waiting && (c.g.lane l).at_ == at_)

/-- An agent whose lane is at the barrier: on the path that reaches it, or waiting at it in a group that it covers (R221). -/
def atBarrier (s : State) (c : Ctx) (role : Option Nat) (at_ : WaitAt) (a : Agent) : Prop :=
  (∃ l, hasLane c.path l = true ∧ a = agentOf c.g l) ∨
    ∃ h ∈ s.groups, h.team = c.g.team ∧ h.key = none ∧ (role = none ∨ role = some h.role) ∧
      ∃ l, l < 32 ∧ (h.lane l).st = .waiting ∧ (h.lane l).at_ = at_ ∧ a = agentOf h l

/-- A lane released from a barrier goes on at the next word (R221). -/
def freed (x : Lane) : Lane := { x with st := .running, at_ := .none, pc := x.pc + 4, tag := 0 }

/-- A team with an update of a muster slot added to those of the cycle, with what it releases (R87); a team without scratchpad has no slot (log 93). -/
def musterAdded (t : Team) (n joins : Nat) (owed : W32) (v : View) : Team :=
  if padSize t = 0 then t
  else
    let x := (mget none t.musDue n).getD (0, 0, 0)
    let y := mget ({}, {}) t.musters n
    { t with musDue := mput none t.musDue n (some (x.1 + joins, x.2.1 + owed, x.2.2)), musters := mput ({}, {}) t.musters n (y.1.join v, y.2) }

/-- The copy-engine commands as they issue (R225 to R234): channel, cause, command, first write pointer, hand-back, checksum. -/
def copyCommand (s : State) (c : Ctx) : Instr → Option (Nat × Nat × Cmd × W64 × Bool × Bool)
  | .cpy d ch _ => some (ofForm (cmdRegs c d) none ch.toNat)
  | .cpyg d i ch _ => some (ofForm (cmdRegs c d) (some (lanes32.map (c.lv i))) ch.toNat)
  | .cpyc d ch _ =>
    some (ch.toNat, chainCause (queueBound s c.t (ch.toNat / 2)) (cmdRegs c d), { team := c.g.team, g := c.g.idx, kind := .chain, regs := cmdRegs c d },
      Config.freeWord s.free, false, false)
  | .selk d ch _ =>
    let f := selForm (cmdRegs c d)
    some (ch.toNat, selCause c.t (queueBound s c.t (ch.toNat / 2)) f,
      { team := c.g.team, g := c.g.idx, kind := .select, regs := cmdRegs c d, srcTile := sideTile c.t f.keys, dstTile := sideTile c.t f.out },
      BitVec.ofNat 64 f.out, f.comp % 2 == 1, false)
  | _ => none
where
  /-- A copy or a gather. -/
  ofForm (r : List W32) (idx : Option (List W32)) (ch : Nat) : Nat × Nat × Cmd × W64 × Bool × Bool :=
    let f := copyForm r
    (ch, copyCause c.t (queueBound s c.t (ch / 2)) idx f,
      { team := c.g.team, g := c.g.idx, kind := if idx.isSome then .gather else .copy, regs := r, idx := idx.getD []
        srcTile := sideTile c.t f.src, dstTile := sideTile c.t f.dst }, BitVec.ofNat 64 f.dst, f.handBack, f.csum)

/-- The state with a prepared command on its channel, which acquires what its lanes and the last tgive of its tiles have released (R81, R99); cpyc has used up a free value for its write pointer (log 1). -/
def placedCmd (s : State) (c : Ctx) (ch : Nat) (cmd : Cmd) (first : W64) (hb csum : Bool) : State :=
  let p := prepareCmd c.t ch { cmd with at_ := s.writes, view := (releaseAct c s).join ((givenView cmd.srcTile).join (givenView cmd.dstTile)) } first hb csum
  let s1 := modChan (modTeam s c.g.team fun _ => p.1) c.t.cluster ch fun h => { h with cmds := h.cmds ++ [p.2] }
  if cmd.kind = .chain then { s1 with free := s.free + 1 } else s1

/-- The oldest entry leaves queue q; the active lanes acquire what its push released, for queue 12 UN data too (R89, R236). -/
def popped (s : State) (c : Ctx) (q : Nat) (rest : List W64) : State :=
  let views := mget [] c.t.queueViews q
  let s1 := modTeam (acquireAct c (setQueue s c.g.team q rest) (views.headD {})) c.g.team fun t =>
    { t with queueViews := mput [] t.queueViews q (views.drop 1) }
  if q = 12 then (agentsOf c.g c.act).foldl (fun s a => setOrder s a { orderOf s a with un := (orderOf s a).un.join (views.headD {}) }) s1 else s1

/-- The matrix instructions that enter the queue without reading memory (R257, R260 to R264): their cause at issue, operation, tiles, hand-back. -/
def matrixEntry (c : Ctx) : Instr → Option (Nat × MOp × List Nat × Bool)
  | .mzero a => some (0, .zero ((c.uv a).toNat % 16), [], false)
  | .mma d a b f =>
    let i := (c.uv a).toNat % 64
    let k0 := 32 * bits (c.uv a).toNat 16 16
    let k := 32 * ((c.uv b).toNat % 256 + 1)
    some (mmaCause (tileOf c.t i) c.mat.binding f.toNat k0 k, .mma ((c.uv d).toNat % 4) i k0 k f.toNat (c.mat.binding.getD []), [i], bits (c.uv a).toNat 6 1 == 1)
  | .mdrain d a b f =>
    let i := (c.uv a).toNat % 64
    some (drainCause (tileOf c.t i) f.toNat (c.uv b).toNat,
      .drain ((c.uv d).toNat % 4) (bits (c.uv d).toNat 2 1 == 1) i (c.uv b).toNat f.toNat (c.g.fpcr.toNat % 8) (satOf c.g.fpcr), [i], bits (c.uv a).toNat 6 1 == 1)
  | .mscale d a =>
    let i := (c.uv a).toNat % 64
    let off := 128 * bits (c.uv a).toNat 16 16
    some (scaleCause (tileOf c.t i) off, .scale ((c.uv d).toNat % 4) i off, [i], bits (c.uv a).toNat 6 1 == 1)
  | _ => none

/-- The context with an operation at the end of its matrix queue, with what its issue orders before it (R250, R81, R99). -/
def queued (s : State) (c : Ctx) (op : MOp) (tiles : List Nat) : Ctx :=
  let e : MEntry := { op := op, opId := c.t.nextOp, at_ := s.writes
                      view := (releaseAct c s).join (tiles.foldl (fun v i => v.join (tileOf c.t i).given) {})
                      un := (orderOf s (.key c.g.team)).un.plus (.key c.g.team) s.writes }
  { c with g := { c.g with key := c.g.key.map fun k => { k with mq := k.mq ++ [e] } } }

/-- An event happens: the machine goes on, to a state of which p holds. -/
def Goes (i : Instr) (s : State) (p : State → Prop) : Prop := ∃ t, exec i s = .next t ∧ p t

/-- The table entry that CREATE reads has zero reserved fields and aligned addresses (R304, R305). -/
def entryOk (s : State) (c : Nat) : Prop :=
  physNum s (ctxEntry s c + 0x33) 1 = 0 ∧ physNum s (ctxEntry s c + 0x38) 72 = 0 ∧ (contextAt s c).qtab.toNat % 4096 = 0 ∧
    (contextAt s c).evt.toNat % 4096 = 0 ∧ (contextAt s c).saveb.toNat % 4096 = 0 ∧ (contextAt s c).root.toNat % 4096 = 0 ∧
    (contextAt s c).root.toNat / 2 ^ 52 = 0 ∧ ∀ q, q < 64 → ringSkew s (contextAt s c) q = false

/-- The structures that a table entry names are held in memory (R305). -/
def entryHeld (s : State) (c : Nat) : Bool :=
  let k := contextAt s c
  rangeHeld s k.root k.saveb.toNat (k.saven * k.savesz * 4096) && rangeHeld s k.root k.qtab.toNat 4096 && (upto 64).all (ringHeld s k)
    && (k.evt = 0 || rangeHeld s k.root k.evt.toNat 32768)

/-- The 32 bytes of a completion record: TIME, LAUNCHID, QUEUE, STATUS, CAUSE, FTEAM, FWHO, BLK (R317). -/
def recordBytes (x : Completion) : List Byte :=
  toBytes 8 x.time ++ toBytes 4 x.id.toNat ++ toBytes 2 (x.queue + 64 * x.ctx) ++ [x.status, x.cause] ++ toBytes 4 x.fteam.toNat
    ++ toBytes 4 (if x.fteam = 0xFFFFFFFF then 0 else x.fwho.toNat) ++ toBytes 8 x.blk.toNat

/-- Event counter n of a context rises by 1, where it can be read and written; it stands for what the increment releases, and the context's dependences are
tested again (R311, R317). An increment whose page is being zeroed is kept for later (R344). -/
def eventCounted (s : State) (x : Completion) : State :=
  let a := (contextOf s x.ctx).evt.toNat + 8 * x.compev
  if x.compev = 0 ∨ (contextOf s x.ctx).evt = 0 then s
  else match readAt s (devEnv s x.ctx false) .read a 8 with
    | (s1, .error _) => s1
    | (s1, .ok b) =>
      match writeAt s1 (devEnv s1 x.ctx false) a (toBytes 8 (ofBytes b + 1)) with
      | (s2, .done) =>
        let s3 := modContext s2 x.ctx fun k => { k with evViews := mput {} k.evViews x.compev ((mget {} k.evViews x.compev).join x.view) }
        { s3 with depWait := s3.depWait.filter fun y => y.1 != x.ctx }
      | (s2, .wait) => { s2 with bumps := s2.bumps ++ [(x.ctx, x.compev, x.view)] }
      | (s2, .stop _ _) => s2

/-- The sub-group into which lanes that met one cause split (R44, R45). -/
def parkedSub (g : Group) (m pm : W32) (cause : Nat) (code : BitVec 14) : Sub :=
  { lanes := m, pcmask := pm, cause := BitVec.ofNat 8 cause, pc := (g.lane (lowestLane m)).pc, depth := (g.lane (lowestLane m)).depth
    m0 := g.mask 0, code := code }

/-- The stream of a team to a destination, or the one that its first packet begins (R377). -/
def streamOf (s : State) (team : Nat) (d : BitVec 20) : OutStream :=
  (s.streams.find? fun x => x.team == team && x.dest == d).getD { team := team, dest := d, id := s.nextStream }

/-- The next packet of operation n as it leaves: the next of its stream's sequence space (R377, R380). -/
def packetOf (s : State) (op : FabOp) (n : Nat) (path : Nat × Nat) (data : List Byte) (bad : List Nat) : OutPkt :=
  { no := s.nextPkt, stream := (streamOf s op.team op.dest).id, seq := (streamOf s op.team op.dest).next, op := n, team := op.team, dest := op.dest
    puts := (streamOf s op.team op.dest).puts, rpa := remotePa s (op.rpa + op.sent), data := data, bad := bad, pennant := op.pennant, port := path.1, entropy := path.2, sentAt := s.timeFs }

/-- The replay that MARG0 and MARG1 describe names a token of an address space: pages of the range, or the one wake token (R339, R343). -/
def replayNames (s : State) (asid : BitVec 16) (quarry : Bool) (token : W64) : Bool :=
  (rangeArgs s).hasAsid asid && if bits s.ctl.marg1.toNat 18 1 = 1 then quarry && token == BitVec.ofNat 64 (s.ctl.marg0.toNat % 2 ^ 32)
    else !quarry && (rangeArgs s).meets (token.toNat / 4096) 1

/-- R139: the major opcodes that no table of R133 to R138 lists. -/
def reservedMajor (n : Nat) : Bool :=
  n == 0 || n == 0x0E || n == 0x0F || (0x26 ≤ n && n ≤ 0x2F) || (0x3A ≤ n && n ≤ 0x3F) || (0x72 ≤ n && n ≤ 0x77) || n == 0x7F

/-- The control registers that are stored as written, each with the bits that it keeps (R303, R319, R338, R372, R374, R391, R397, R401). -/
def storedRegs : List (Nat × Nat) :=
  ([0x0000, 0x0020, 0x0120, 0x0140, 0x0150, 0x0610, 0x0A20, 0x0C40, 0x0C80, 0x0D00, 0x0D28, 0x0D40, 0x0D80, 0x0D88].map fun x => (x, 0xFFFFFFFFFFFFFFFF))
    ++ ([0x0030, 0x012C, 0x0158, 0x0C8C, 0x0D0C].map fun x => (x, 0xFFFFFFFF))
    ++ [(0x0038, 0xFFFF00FF), (0x0600, 0xFFFFF), (0x0618, 0x1FFFFFFFF), (0x0C00, 0xFF), (0x0C08, 0xFF)]

/-- The arrays of registers that are stored as written, in 64-bit parts: first offset, parts, the bits that even and odd parts keep. -/
def storedArrays : List (Nat × Nat × Nat × Nat) :=
  [(0x0400, 64, 0xFFFFFFFFFFFFFFFF, 0xFFFFFFFFFFFFFFFF), (0x0A00, 4, 0xFFFFFFFFFFFFFFFF, 0xFFFFFFFFFFFFFFFF), (0x0A40, 4, 0xFFFFFFFFFFFFFFFF, 0xFFFFFFFFFFFFFFFF),
   (0x50000, 64, 0xFFFFFFFFFFFFFFFF, 0xFFFFFFFFFFFFFFFF), (0x80000, 8192, 0x3FFFFF, 0xFFFFFFFFFFFFFFFF), (0xA0000, 512, 0x1FFFFF, 0xFFFFFC000007F)]

/-- The registers with a size field: offset, bits kept, least and greatest size, the field's bound (R303). -/
def sizedRegs : List (Nat × Nat × Nat × Nat × Nat) :=
  [(0x0028, 0x1F, 7, 20, 32), (0x0128, 0x1F, 6, 16, 32), (0x0148, 0xF, 6, 15, 16), (0x0C88, 0xFFFF1F, 6, 20, 32)]

/-- An element of an array of registers stands at the offset. -/
def inArray (off base stride count : Nat) : Bool := base ≤ off && (off - base) % stride == 0 && (off - base) / stride < count

/-- A register that software writes stands at the offset (R301). -/
def writable (off : Nat) : Bool :=
  (storedRegs.map Prod.fst ++ sizedRegs.map Prod.fst ++ [0x0008, 0x0100, 0x0108, 0x0110, 0x0300, 0x0308, 0x0310, 0x0318, 0x0604, 0x0608, 0x0620, 0x0A28, 0x0A34, 0x0A60,
    0x0D08, 0x0D14, 0x0D48, 0x0D90, 0x0DC0]).contains off
    || storedArrays.any (fun x => inArray off x.1 8 x.2.1) || inArray off 0x0700 8 16 || inArray off 0x0A80 8 10 || inArray off 0x10000 8 4096
    || inArray off 0x20000 8 64 || inArray off 0x400000 8 640 || (inArray off 0x100000 4 (16384 * Config.nClusters) && (off - 0x100000) / 4 % 16384 < 64)

/-- A write of a register changes the control registers alone: it reads as r from then on, and every other register, those that cannot be read included, is as
before. -/
def WroteReg (s : State) (off : Nat) (v r : W64) : Prop :=
  ∃ k, exec (.registerWrite off v) s = .next { s with ctl := k } ∧ regRead { s with ctl := k } off = r ∧
    (∀ o, o ≠ off → regRead { s with ctl := k } o = regRead s o) ∧
    k.marg0 = s.ctl.marg0 ∧ k.marg1 = s.ctl.marg1 ∧ k.dbgl = s.ctl.dbgl ∧ k.dbgt = s.ctl.dbgt

/-- The control registers with a reset value other than 0 in the tables of R301 to R406, by offset. -/
def resetValues : List (Nat × Nat) :=
  [(0x0604, 0xBF080014), (0x0618, 0x01F40000), (0x0DC0, 3000), (0x0DC8, 3600)] ++ (upto 12).map (fun k => (0x0180 + 4 * k, 16))
    ++ (upto 12).map (fun k => (0x0200 + 8 * k, 0xFEDCBA9876543210))

/-- The control registers with a reset value of 0 there, by offset. -/
def resetZeros : List Nat :=
  [0x0000, 0x0010, 0x0020, 0x0028, 0x0030, 0x0034, 0x0038, 0x0118, 0x0120, 0x0128, 0x012C, 0x0130, 0x0140, 0x0148, 0x0150, 0x0158, 0x0314, 0x0600, 0x0608,
   0x0610, 0x0620, 0x0C40, 0x0C80, 0x0C88, 0x0C8C, 0x0C90, 0x0D00, 0x0D08, 0x0D0C, 0x0D10, 0x0D14, 0x0D28, 0x0D40, 0x0D80, 0x0D88, 0x0D94, 0x0DC4, 0x0DCC]

end Sys2Proof.Machine

open Sys2Proof Sys2Proof.Machine

/-- R182 to R190, R197 with R33: every integer, logic, shift, bit-field, select, move and dot-product instruction that runs writes its result in every
active lane, whatever the shapes of its operands (R141), goes on to the next word, and changes nothing else. -/
def Obligations.IntegerInstructionsWriteTheirResultByLane : Prop :=
  ∀ (s : State) (i : Instr) (c : Ctx) (ds : List (Nat × (Nat → W32))), Runs s i c → integerResult c i = some ds →
    Completes s s i c c.g.masks 0 (fun _ => c.pc + 4) ds

/-- R187, R199: a compare writes the active lanes' bits of its mask, and leaves the bits of every other lane, every other mask and every register;
a floating-point compare adds the flags of the active lanes. -/
def Obligations.ComparesWriteActiveLanesMaskBits : Prop :=
  ∀ (s : State) (i : Instr) (c : Ctx) (m : Nat) (p : Nat → Bool) (fl : W32), Runs s i c → compareResult c i = some (m, p, fl) →
    ∃ ms : List W32, Completes s s i c ms fl (fun _ => c.pc + 4) [] ∧
      ∀ k, k < 16 → nth 0 ms k = maskAfter c.g m ((c.g.mask m &&& ~~~c.act) ||| laneSet fun l => hasLane c.act l && p l) k

/-- R195, R198, R200 to R203: a floating-point instruction that runs writes in every active lane the value of its function of the lane's operands, rounded
once, and adds the flags of the active lanes to %fpflags; a packed-half instruction does so for each half of a lane, a binary64 instruction in pairs.
Rests on log 19, 20, the model's reading. -/
def Obligations.FloatInstructionsRoundByLane : Prop :=
  ∀ (s : State) (i : Instr) (c : Ctx) (d : BitVec 7) (f : Nat → Nat × W32), Runs s i c →
    (floatResult c i = some (d, f) ∨ halfResult c i = some (d, f) →
      Completes s s i c c.g.masks (raised c f) (fun _ => c.pc + 4) (dest c d fun l => BitVec.ofNat 32 (f l).1)) ∧
    (doubleResult c i = some (d, f) →
      Completes s s i c c.g.masks (raised c f) (fun _ => c.pc + 4) (destPair c d fun l => BitVec.ofNat 64 (f l).1))

/-- R191, R192: a shuffle and bcast give each active lane a's value of its source lane. -/
def Obligations.ShufflesTakeTheSourceLane : Prop :=
  ∀ (s : State) (i : Instr) (c : Ctx) (ds : List (Nat × (Nat → W32))), Runs s i c → shuffleResult c i = some ds →
    Completes s s i c c.g.masks 0 (fun _ => c.pc + 4) ds

/-- R170 to R172: an instruction that writes a mask writes it whole, whatever the lanes of the path, and nothing else but the program counters; mpop, mfirst,
mtov and shape write one value for all active lanes. -/
def Obligations.MaskInstructionsWriteTheWholeMask : Prop :=
  ∀ (s : State) (i : Instr) (c : Ctx), Runs s i c →
    (∀ m v, maskResult c i = some (m, v) →
      ∃ ms : List W32, Completes s s i c ms 0 (fun _ => c.pc + 4) [] ∧ ∀ k, k < 16 → nth 0 ms k = maskAfter c.g m v k) ∧
    (∀ ds, maskReadResult c i = some ds → Completes s s i c c.g.masks 0 (fun _ => c.pc + 4) ds)

/-- R121, R122, R194, R196: red gives every active lane the value of the root of the fixed tree over the active lanes, and the flags of its combinations; a
scan gives lane l what five fixed steps leave there, and scan.add.f32 adds the flags of every lane's combinations.
Rests on logs 86, 114, the model's reading. -/
def Obligations.ReductionsAndScansCombineInFixedOrder : Prop :=
  ∀ (s : State) (c : Ctx) (d a : BitVec 7),
    (∀ (o : BitVec 4) (v fl : W32), Runs s (.red d a o) c → treeNode (redOp o.toNat c.g.fpcr) c.act (fun l => c.lv a l) 5 0 = some (v, fl) →
      Completes s s (.red d a o) c c.g.masks fl (fun _ => c.pc + 4) (dest c d fun _ => redFix o.toNat v)) ∧
    (Runs s (.scanAddI d a) c → Completes s s (.scanAddI d a) c c.g.masks 0 (fun _ => c.pc + 4)
      (dest c d fun l => ((scanNode (redOp 0 c.g.fpcr) c.act (fun k => c.lv a k) 5 l).map (·.1)).getD 0)) ∧
    (Runs s (.scanAddF32 d a) c → Completes s s (.scanAddF32 d a) c c.g.masks
      (lanes32.foldl (fun f l => f ||| ((scanNode (redOp 8 c.g.fpcr) c.act (fun k => c.lv a k) 5 l).map (·.2)).getD 0) 0) (fun _ => c.pc + 4)
      (dest c d fun l => ((scanNode (redOp 8 c.g.fpcr) c.act (fun k => c.lv a k) 5 l).map (·.1)).getD 0))

/-- R173, R174: setg makes a register G and squeeze gives it the cheapest tag of its 32 values; no lane's value of any register changes, whatever
the path. -/
def Obligations.RetaggingChangesNoValue : Prop :=
  ∀ (s : State) (c : Ctx) (d : BitVec 7),
    (Runs s (.setg d) c → ∃ g', exec (.setg d) s = .next (scripted s (onlyGroup s g')) ∧ WentOn s c g' c.g.masks c.g.fpflags (fun _ => c.pc + 4) ∧
      WroteRegs c g' [] ∧ (g'.reg (c.r d.toNat)).shape.isG = true) ∧
    (Runs s (.squeeze d) c → ∃ g', exec (.squeeze d) s = .next (scripted s (onlyGroup s g')) ∧ WentOn s c g' c.g.masks c.g.fpflags (fun _ => c.pc + 4) ∧
      WroteRegs c g' [] ∧ (g'.reg (c.r d.toNat)).shape = squeezed (lanes32.map fun l => c.g.val (c.r d.toNat) l))

/-- R24, R129, R151, R155, R158, R160: bra, chkp and jmp send the lanes that take them to their targets and every other lane of the path to the next
word; nop sends all to the next word; nothing else changes. -/
def Obligations.BranchesSendLanesToTheirTargets : Prop :=
  ∀ (s : State) (i : Instr) (c : Ctx) (next : Nat → W64), Runs s i c → branchNext c i = some next → targetsOk c i = true →
    Completes s s i c c.g.masks 0 next []

/-- R159, R160: a call writes the address of the next word to its link pair and raises the call depth, for the lanes that take it; ret sends each active lane
to its target and lowers its call depth. -/
def Obligations.CallsLinkAndDeepen : Prop :=
  ∀ (s : State) (i : Instr) (c : Ctx), Runs s i c → targetsOk c i = true →
    (∀ (taken : W32) (r : Nat) (target : Nat → W64), callOf c i = some (taken, r, target) →
      ∃ g', exec i s = .next (scripted s (onlyGroup s g')) ∧
        WentOn s (onLanes c taken fun x => { x with depth := x.depth + 1 }) g' c.g.masks c.g.fpflags (fun l => if hasLane taken l then target l else c.pc + 4) ∧
        WroteRegs { c with act := taken } g' [(r, fun _ => (c.pc + 4).setWidth 32), (r + 1, fun _ => ((c.pc + 4) >>> 32).setWidth 32)]) ∧
    (∀ a, i = .ret a →
      Completes s s i (onLanes c c.act fun x => { x with depth := x.depth - 1 }) c.g.masks 0
        (fun l => if hasLane c.act l then c.pv a l else c.pc + 4) [])

/-- R26, R27, R154, R156, R247: at reconv, reconv.s, and at yield while %preempt is 1, every lane of the path waits where it is, a keystone context once its matrix
queue is empty and no hand-back of its matrix instructions is open; yield with %preempt 0 only goes on. -/
def Obligations.LanesWaitAtReconvergenceAndYield : Prop :=
  ∀ (s : State) (c : Ctx),
    (Runs s .reconv c → Completes s s .reconv (onLanes c c.path fun x => { x with st := .waiting, at_ := .hard }).still c.g.masks 0 (fun _ => 0) []) ∧
    (Runs s .reconvS c → Completes s s .reconvS (onLanes c c.path fun x => { x with st := .waiting, at_ := .soft }).still c.g.masks 0 (fun _ => 0) []) ∧
    (Runs s .yield c → c.g.preempt = true → c.g.key = none ∨ keyQueue c.g = [] ∧ (c.t.ops.any fun o => o.cmu && o.hb) = false →
      Completes s s .yield (ended (onLanes c c.path fun x => { x with st := .waiting, at_ := .yield }) c.path).still c.g.masks 0 (fun _ => 0) []) ∧
    (Runs s .yield c → c.g.preempt = true → c.g.key ≠ none → keyQueue c.g ≠ [] ∨ (c.t.ops.any fun o => o.cmu && o.hb) = true →
      exec .yield s = .next (waitState s c.g.who .yield .matrixq c.path c.pc 0)) ∧
    (Runs s .yield c → c.g.preempt = false → Completes s s .yield c c.g.masks 0 (fun _ => c.pc + 4) [])

/-- R110, R166, R167, R169: winb and wrsr write their register of the group, halt stops the group or takes a pending doorbell; nothing else
changes. -/
def Obligations.GroupRegistersTakeTheirWrites : Prop :=
  ∀ (s : State) (c : Ctx) (d : BitVec 7) (n : BitVec 14),
    (Runs s (.winb n) c → Completes s s (.winb n) { c with g := { c.g with winb := 32 * n.toNat } } c.g.masks 0 (fun _ => c.pc + 4) []) ∧
    (Runs s .halt c → Completes s s .halt { c with g := { c.g with bell := false, halted := c.g.halted || !c.g.bell } } c.g.masks 0
      (fun _ => c.pc + 4) []) ∧
    (Runs s (.wrsr d 0x20) c → Completes s s (.wrsr d 0x20) { c with g := { c.g with fpcr := fpcrAfter c.g.fpcr (c.lv d 0) } } c.g.masks 0
      (fun _ => c.pc + 4) []) ∧
    (Runs s (.wrsr d 0x21) c → Completes s s (.wrsr d 0x21) { c with g := { c.g with fpflags := c.lv d 0 &&& 31 } } c.g.masks 0 (fun _ => c.pc + 4) []) ∧
    (Runs s (.wrsr d 0x23) c → ∃ s', Completes s s' (.wrsr d 0x23) c c.g.masks 0 (fun _ => c.pc + 4) [] ∧
      s' = { s with cores := s'.cores } ∧ (∀ k, k ≠ groupTile s c.g → coreOf s' k = coreOf s k) ∧
      coreOf s' (groupTile s c.g) = { coreOf s (groupTile s c.g) with binage := (coreOf s' (groupTile s c.g)).binage } ∧
      (∀ team role, binAge (coreOf s' (groupTile s c.g)) team role = if (c.lv d 0).toNat % 65536 ≠ 0 ∧ team = c.g.team ∧ role = c.g.role
        then (c.lv d 0).toNat % 65536 else binAge (coreOf s (groupTile s c.g)) team role))

/-- R17, R62, R145, R168: rdsr gives every active lane the value of the special register; %cycle and %time fill a pair; in a paired team the primary forwards
the value to its twin, which waits for it and takes it (log 82). -/
def Obligations.SpecialRegistersReadTheirValue : Prop :=
  ∀ (s : State) (c : Ctx) (d : BitVec 7) (n : BitVec 14),
    (∀ f : Nat → W32, Runs s (.rdsr d n) c → (∀ l, l < 32 → specialValue s c (.rdsr d n) n.toNat l = some (f l)) →
      Completes s s (.rdsr d n) c c.g.masks 0 (fun _ => c.pc + 4) (dest c d f)) ∧
    (Runs s (.rdsr d 0x23) c → Completes s s (.rdsr d 0x23) c c.g.masks 0 (fun _ => c.pc + 4)
      (dest c d fun _ => BitVec.ofNat 32 (binAge (coreOf s (groupTile s c.g)) c.g.team c.g.role))) ∧
    (Runs s (.rdsr d 0x28) c → isPaired c.t = false → Completes s s (.rdsr d 0x28) c c.g.masks 0 (fun _ => c.pc + 4)
      (destPair c d fun _ => BitVec.ofNat 64 s.cycle)) ∧
    (Runs s (.rdsr d 0x29) c → isPaired c.t = false → Completes s s (.rdsr d 0x29) c c.g.masks 0 (fun _ => c.pc + 4)
      (destPair c d fun _ => BitVec.ofNat 64 (s.timeFs / 1000000))) ∧
    (∀ v, (n, v) ∈ [((0x28 : BitVec 14), BitVec.ofNat 64 s.cycle), (0x29, BitVec.ofNat 64 (s.timeFs / 1000000))] → Runs s (.rdsr d n) c → isPaired c.t = true →
      c.t.twin ≠ some c.g.team →
      (c.t.primary = true → (twinOf s c.g).isSome ∨ twinGone s c.g = true → ∀ s1, s1 = forwardOnly s c.g c.pc c.act [v] →
        Completes s s1 (.rdsr d n) { c with g := (findGroup s1 c.g.who).getD c.g } c.g.masks 0 (fun _ => c.pc + 4) (destPair c d fun _ => v)) ∧
      (c.t.primary = false → (∀ e ∈ c.g.fwd, ¬ (e.1 = c.pc ∧ e.2.headD 0 = c.act.setWidth 64)) → (twinOf s c.g).isSome ∨ twinGone s c.g = false →
        exec (.rdsr d n) s = .next (waitState s c.g.who (.rdsr d n) .other c.path c.pc 0)) ∧
      (∀ x rest s1, c.t.primary = false → c.g.fwd = (c.pc, [c.act.setWidth 64, x]) :: rest → s1 = takeFwd s c.g 0 →
        Completes s s1 (.rdsr d n) { c with g := (findGroup s1 c.g.who).getD c.g } c.g.masks 0 (fun _ => c.pc + 4) (destPair c d fun _ => x)))

/-- R57, R58, R60, R62, R63, R151: region words open and close the group's region, and keep the address and m0 of the entry, and the depth of the issuing path; a
close sends the gated bytes to their places; in a paired team the signatures are compared first: equal ones let the primary go on, and then the twin, which
waits until it is told so; different ones restart both regions, and the third time end both teams. Rests on log 92 (the depth), logs 40 and 82 (the meeting of
the twins) and log 22 (memory is the primary's). -/
def Obligations.RegionWordsOpenAndClose : Prop :=
  ∀ (s : State) (c : Ctx) (t : Team), t = teamOf s c.g.team →
    (∀ i q, (i, q) ∈ [(Instr.regionEntry, some (opened c)), (.regionCloseReopen, some (opened c)), (.regionExit, none)] → Runs s i c →
      (isPaired t = false → (∀ r, c.g.region = some r → r.gate = []) →
        Completes s s i { c with g := { c.g with region := q } } c.g.masks 0 (fun _ => c.pc + 4) []) ∧
      (c.g.region = none → Completes s s i { c with g := { c.g with region := q } } c.g.masks 0 (fun _ => c.pc + 4) []) ∧
      ∀ r, c.g.region = some r → gateReady s r.gate → t.twin ≠ some c.g.team → match pairMeet s c.g c.pc c.path r.sig with
        | .alone => ∃ s', GateOut s s s' t r.gate ∧ Completes s s' i { c with g := { c.g with region := q } } c.g.masks 0 (fun _ => c.pc + 4) []
        | .lead => ∃ s', GateOut s (forward s c.g c.pc c.path []) s' t r.gate ∧
            Completes s s' i { c with g := { c.g with region := q } } c.g.masks 0 (fun _ => c.pc + 4) []
        | .follow s1 _ => ∃ s', GateOut s s1 s' t r.gate ∧
            Completes s s' i { c with g := { (findGroup s1 c.g.who).getD c.g with region := q } } c.g.masks 0 (fun _ => c.pc + 4) []
        | .wait s1 => exec i s = .next (waitState s1 c.g.who i .other c.path c.pc 0)
        | .differ w x => exec i s = .next (waitState (pairDiffer s c.g w x r.entry) c.g.who i .other c.path c.pc 0)) ∧
    (∀ g pc lanes sig, (teamOf s g.team).twin = none → pairMeet s g pc lanes sig = .alone) ∧
    (∀ g h pc lanes sig, twinOf s g = some h →
      ((teamOf s g.team).primary = true → ∀ m x, h.ask = some (pc, m, x) → pairMeet s g pc lanes sig = if x = sig then .lead else .differ h.who (x ^^^ sig)) ∧
      ((teamOf s g.team).primary = false → (∀ e ∈ g.fwd, ¬ (e.1 = pc ∧ e.2.headD 0 = lanes.setWidth 64)) →
        pairMeet s g pc lanes sig = .wait (modGroup s g.who fun x => { x with ask := some (x.ask.getD (pc, lanes, sig)) })) ∧
      (∀ vs rest, (teamOf s g.team).primary = false → g.fwd = (pc, lanes.setWidth 64 :: vs) :: rest →
        pairMeet s g pc lanes sig = .follow (modGroup s g.who fun x => { x with fwd := x.fwd.drop 1 }) vs)) ∧
    (∀ g h x e r q, findGroup s g.who = some g → findGroup s h.who = some h → h.who ≠ g.who → g.region = some r → h.region = some q →
      (r.mism < 2 → ∃ g' h', findGroup (pairDiffer s g h.who x e) g.who = some g' ∧ findGroup (pairDiffer s g h.who x e) h.who = some h' ∧
        Restarted g g' { r with gate := [], mism := r.mism + 1, sig := 0, used := [], sent := 0 } ∧
        Restarted h h' { q with gate := [], mism := r.mism + 1, sig := 0, used := [], sent := 0 }) ∧
      (2 ≤ r.mism → (∃ rec : ErrRec, rec.cls = 5 ∧ rec.sev = 1 ∧ rec.cause = 0x32 ∧
          pairDiffer s g h.who x e = endTeam (logError s rec) g.team 0x32 (fwhoOf (teamOf s g.team) g)) ∧
        ((teamOf s g.team).twin = some h.team → (findTeam s g.team).any (·.status != .ended) = true → (findTeam s h.team).any (·.status != .ended) = true →
          ∀ y ∈ (pairDiffer s g h.who x e).groups, y.team ≠ g.team ∧ y.team ≠ h.team)))

/-- R98, R152: ifence lets the core fetch the words whose writes happen before what its active lanes have acquired, and touches nothing else.
Rests on log 55, the model's reading. -/
def Obligations.IfenceRefreshesTheCore : Prop :=
  ∀ (s : State) (c : Ctx), Runs s .ifence c → ∃ v : View,
    (∀ a no, v.has a no = true ↔ (coreOf s (groupTile s c.g)).iview.has a no = true ∨
      ∃ l, hasLane c.act l = true ∧ (orderOf s (agentOf c.g l)).view.has a no = true) ∧
    Completes s (modCore { s with l1i := mput [] s.l1i (groupTile s c.g) [] } (groupTile s c.g) fun k => { k with iview := v }) .ifence c c.g.masks 0
      (fun _ => c.pc + 4) []

/-- R10, R139, R161: brk, trap and a word that is no instruction raise 0x41, 0x40 and 0x01 on every active lane, with the code of the word; the lanes take
the exception where they are, and the other lanes of the path go on. -/
def Obligations.TrapWordsTakeTheException : Prop :=
  ∀ (s : State) (c : Ctx) (k : BitVec 14) (w : BitVec 32) (i : Instr) (cause : Nat) (code : BitVec 14), Runs s i c →
    (i, cause, code) ∈ [(.brk k, 0x41, k), (.trap k, 0x40, k), (.nonInstructionWord w, 0x01, (0 : BitVec 14))] →
    ∃ g', exec i s = .next (raise (scripted s (onlyGroup s g')) c.g.who 0 (c.lanes.map fun l => { lane := l, cause := cause, code := code })) ∧
      WentOn s { c with path := c.path &&& ~~~c.act } g' c.g.masks c.g.fpflags (fun _ => c.pc + 4) ∧ WroteRegs c g' []

/-- R208, R211, R212: a load whose active lanes meet no cause gives each of them the bytes that its read found, zero- or sign-extended; outside its group
the machine is as the reads left it, and after an acquire load as the lanes' acquire leaves it; a load changes no mask. For one lane outside a region these
are the bytes that one read at its address gives. Rests on log 51, the model's reading. -/
def Obligations.LoadsGiveTheBytesRead : Prop :=
  ∀ (s : State) (i : Instr) (c : Ctx) (x : LoadForm), Runs s i c → Filled c i → loadForm i = some x → isProbe i = false →
    ((x.reads c).hits = [] →
      Completes s (if isAcquire i then acquire (x.reads c).s c.g c.act else (x.reads c).s) i c c.g.masks 0 (fun _ => c.pc + 4) (x.dests c)) ∧
    ∀ l a s1 bs, c.lanes = [l] → c.g.region = none → a = (c.addr x.b x.o x.n l).toNat → (x.aligned = true → a % x.n = 0) →
      readAt s (readEnv s c.g x.n (if x.aligned then .load else .no) [l]) .read a x.n = (s1, .ok bs) →
      Completes s (if isAcquire i then acquire s1 c.g c.act else s1) i c c.g.masks 0 (fun _ => c.pc + 4)
        ((upto ((x.n + 3) / 4)).map fun j => (c.r (x.d.toNat + j), fun _ => BitVec.ofNat 32 (x.f (ofBytes bs) / 2 ^ (32 * j))))

/-- R213: a probe load gives its value to the lanes whose read met no cause and sets their bits of m15; lanes whose page or line is not there keep their
destination and clear their bit, and meet no cause. -/
def Obligations.ProbeLoadsReportInMaskFifteen : Prop :=
  ∀ (s : State) (i : Instr) (c : Ctx) (x : LoadForm) (ok : W32), Runs s i c → Filled c i → loadForm i = some x → isProbe i = true →
    ((x.reads c).hits.all fun h => h.cause == 0x10 || h.cause == 0x13 || h.cause == 0x16) = true →
    ok = c.act &&& ~~~(laneSet fun l => (x.reads c).hits.any fun h => h.lane == l) →
    ∃ g' ms, exec i s = .next (scripted s (onlyGroup (x.reads c).s g')) ∧ WentOn s c g' ms c.g.fpflags (fun _ => c.pc + 4) ∧
      WroteRegs { c with act := ok } g' (x.dests c) ∧ ∀ k, k < 16 → nth 0 ms k = maskAfter c.g 15 ((c.g.mask 15 &&& ~~~c.act) ||| ok) k

/-- R14, R92, R93, R95 to R97, R208, R335, R409: what the device reads at an address whose checks pass, through leaves that are not being zeroed, is the
bytes that stand at the places of its translation; so it is for an atomic and on SO pages. Another read of an agent returns for each byte what stands
there or what stood there before a write that no rule makes it see. A read of the bytes just written gives them back, no byte outside them changes, and
memory keeps its canonical form.
Rests on log 13, the model's reading. -/
def Obligations.ReadsReturnTheBytesOfTheirPlaces : Prop :=
  (∀ (s s1 : State) (env : Env) (a n : Nat) (l : List Spot), lookAt s env .read a n = (s1, .hit l) →
    (l.all fun x => match x with | .mem _ _ t _ => !(leafBit t.leaf 15) | .pad _ _ _ => true) = true →
    let s2 := touchSpots s1 env .read l
    let now := l.flatMap fun x => match x with
      | .mem _ k _ pa => physRead s2 pa k
      | .pad c off k => sramRead s2 c off k
    (env.agent = none → readAt s env .read a n = (s2, .ok now)) ∧
    (env.issued = none → 0 < env.size →
      (env.now || l.all fun x => match x with | .mem _ _ t _ => leafKind t.leaf == 1 | .pad _ _ _ => false) = true →
      ∃ o f, readAt s env .read a n = ({ s2 with orders := o, free := f }, .ok now))) ∧
  (∀ (s : State) (env : Env) (me : Agent) (kind scope p : Nat) (cur : List Byte), env.agent = some me → env.issued = none → 0 < env.size →
    ∃ o f bs, readOrdered s env kind scope p cur = ({ s with orders := o, free := f }, bs) ∧ bs.length = cur.length ∧
      ∀ k, k < cur.length → nth 0 bs k = nth 0 cur k ∨ env.now = false ∧ kind ≠ 1 ∧ ∃ w ∈ s.past, w.covers (p + k) = true ∧
        nth 0 bs k = nth 0 w.old (p + k - w.pa) ∧ (if kind = 2 then mayMissUn me env.order w (p + k) else mayMiss me env.order w (p + k)) = true) ∧
  (∀ (s : State) (w : Writer) (pa : Nat) (bs : List Byte),
    physRead (physWriteBy s w pa bs) pa bs.length = bs ∧
    (∀ a, routeAlias s a < routeAlias s pa ∨ routeAlias s pa + bs.length ≤ routeAlias s a → physRead (physWriteBy s w pa bs) a 1 = physRead s a 1) ∧
    (Memory.wf s.mem = true → Memory.wf (physWriteBy s w pa bs).mem = true))

/-- R62, R214, R215: a store outside a region whose active lanes meet no cause writes the lanes' bytes at the places of its translation, of several lanes' bytes at
one address the highest lane's, changes no other byte but for the marks in its leaves and counters, and changes nothing of its group but the program counters;
in a paired team it meets its twin first. Rests on log 51, and on logs 22 and 82 for a paired team, the model's readings. -/
def Obligations.StoresWriteTheLanesBytes : Prop :=
  ∀ (s : State) (i : Instr) (c : Ctx) (d b o : BitVec 7) (n : Nat) (rel : Bool) (r : Looks) (st : List (Nat × W64 × List Byte × List Spot)),
    Runs s i c → Filled c i → storeForm i = some (d, b, o, n, rel) →
    r = lookLanes c (if rel then .release else .write) (c.addr b o n) n rel → st = storesOf c d b o n r.spots → r.hits = [] → r.zero = none → c.g.region = none →
    (isPaired c.t = false → Completes s (storeOut c r.s true rel n st) i c c.g.masks 0 (fun _ => c.pc + 4) []) ∧
    ((∀ y ∈ st, ∀ x ∈ y.2.2.2, wholeSpot s x ∧ unmarked s x) → ∀ p,
      cellAt (storeOut c r.s true rel n st) p = (newest p (storeCells s n st)).getD (cellAt s p)) ∧
    (∀ l spots, r.spots = [(l, spots)] → (∀ x ∈ spots, wholeSpot s x) → ∀ p,
      cellAt (storeOut c r.s true rel n st) p = (newest p ((cellsOf s spots).zip (storeData c d n l))).getD (cellAt (touchSpots r.s (laneEnv r.s c.g l) .write spots) p)) ∧
    Paired s r.s i c ((st.flatMap fun (_, a, bs, x) => piecesOf a.toNat bs x).foldl foldSig 0)
      (Completes s (forward (storeOut c r.s true rel n st) c.g c.pc c.act []) i c c.g.masks 0 (fun _ => c.pc + 4) [])
      (fun s1 c1 _ => Completes s (storeOut c s1 false rel n st) i c1 c.g.masks 0 (fun _ => c.pc + 4) [])

/-- R58, R214: inside an open region the lanes' bytes go into the group's store gate, and neither memory nor any SRAM changes but for the marks that the
walks leave in the leaves. -/
def Obligations.StoresInARegionAreGated : Prop :=
  ∀ (s : State) (i : Instr) (c : Ctx) (d b o : BitVec 7) (n : Nat) (r : Looks) (q : Region), Runs s i c → Filled c i →
    storeForm i = some (d, b, o, n, false) → r = lookLanes c .write (c.addr b o n) n false → r.hits = [] → r.zero = none →
    c.g.region = some q → (storeGate c r.s q (storesOf c d b o n r.spots)).2 = [] →
    ∃ gate sig, Completes s ((storesOf c d b o n r.spots).foldl (fun s x => touchSpots s (laneEnv s c.g x.1) .write x.2.2.2) r.s) i
      { c with g := { c.g with region := some { q with gate := gate, sig := sig } } } c.g.masks 0 (fun _ => c.pc + 4) [] ∧
      gate = (storesOf c d b o n r.spots).foldl (fun g x =>
        (piecesOf x.2.1.toNat x.2.2.1 x.2.2.2).foldl (gatePiece fun a => ((lowerStores x.2.2.1.length (storesOf c d b o n r.spots) x.1 a).map fun l =>
          (c.g.lane l).tid.toNat, grainOf x.2.1 x.2.2.1.length)) g) q.gate

/-- R62, R217, R218: an atomic outside a region whose active lanes meet no cause performs the lanes' read-modify-writes in ascending lane order, each on the bytes
that stand at its places, changes no other byte but for the marks in its leaves and counters, and gives each active lane the old value that it read; in a paired
team it meets its twin first, and the twin takes the primary's old values. Rests on log 51, and on log 82 for a paired team, the model's readings. -/
def Obligations.AtomicsGiveTheOldValue : Prop :=
  ∀ (s : State) (i : Instr) (c : Ctx) (d b o : BitVec 7) (n : Nat) (op : Nat → Nat → Nat) (r : Looks) (s' : State) (olds : List (Nat × Nat))
    (ds : List (Nat × Nat) → List (Nat × (Nat → W32))),
    Runs s i c → Filled c i → atomicForm c i = some (d, b, o, n, op) → r = lookLanes c .atomic (c.addr b o n) n true → r.hits = [] → r.zero = none →
    rmwLanes c r.s n (c.addr b o n) op r.spots = (s', olds) →
    ds = (fun olds => (upto (n / 4)).map fun j => (c.r (d.toNat + j), fun l => BitVec.ofNat 32 (oldOf olds l / 2 ^ (32 * j)))) →
    (isPaired c.t = false → Completes s s' i c c.g.masks 0 (fun _ => c.pc + 4) (ds olds)) ∧
    (c.g.region = none → (∀ y ∈ r.spots, ∀ x ∈ y.2, wholeSpot s x ∧ unmarked s x) →
      ∀ m, m = rmwCells n op (r.spots.map fun y => (y.1, cellsOf s y.2)) (cellAt s) → (∀ p, cellAt s' p = m.1 p) ∧ olds = m.2) ∧
    Paired s r.s i c (atomicSig c d (n / 4 * (match i with | .atomCas32 _ _ _ _ | .atomCas64 _ _ _ _ => 2 | _ => 1)) (c.addr b o n) (r.spots.map (·.1)))
      (Completes s (forward s' c.g c.pc c.act (olds.map fun x => BitVec.ofNat 64 x.2)) i c c.g.masks 0 (fun _ => c.pc + 4) (ds olds))
      (fun s1 c1 vs => vs.length = r.spots.length →
        Completes s s1 i c1 c.g.masks 0 (fun _ => c.pc + 4) (ds ((r.spots.map (·.1)).zip (vs.map (·.toNat)))))

/-- R113 to R115, R117, R118, R120, R205 to R207: cvt converts each active lane's element or elements by the table of R205; a pack writes the quantized element
of each active lane and the block's scale in the next register, an unpack the scaled value; a stochastic conversion or pack steps the active lanes' generators
once for each element. Rests on logs 58, 87, the model's reading. -/
def Obligations.ConversionsAndPacksGiveTheTablesValues : Prop :=
  ∀ (s : State) (c : Ctx) (j : Instr), Runs s j c →
    (∀ d a st i la, j = .cvt d a st i la →
      Completes s s j (if st = 1 then genSteps c (if 42 ≤ i.toNat then 2 else 1) else c) c.g.masks
        (raised c (cvtLane c a (st = 1) i.toNat)) (fun _ => c.pc + 4)
        (if cvtWide i.toNat then destPair c d fun l => BitVec.ofNat 64 (cvtLane c a (st = 1) i.toNat l).1
          else dest c d fun l => BitVec.ofNat 32 (cvtLane c a (st = 1) i.toNat l).1)) ∧
    (∀ x, packForm c j = some x →
      Completes s s j (if x.sto then genSteps c 1 else c) c.g.masks (raised c x.f ||| x.flags) (fun _ => c.pc + 4)
        (dest c x.d (fun l => BitVec.ofNat 32 (x.f l).1) ++ (x.second.map fun v => (c.r (x.d.toNat + 1), fun _ => v)).toList))

/-- R29, R50, R57, R58, R153: exit takes the active lanes out of their group, and out of its sub-groups, while another lane of it is left running; with its last
lane a group, and a keystone context whose matrix queue is empty, is gone; an open region closes first, and the gated bytes go to their places. -/
def Obligations.ExitTakesLanesOut : Prop :=
  ∀ (s : State) (c : Ctx), Runs s .exit c → (c.g.key.isSome → keyQueue c.g = []) →
    (c.g.key = none → dueSub (withoutLanes c.g c.act) = none → (∃ l, l < 32 ∧ hasLane c.act l = false ∧ (c.g.lane l).st = .running) →
      Completes s s .exit { leftLanes c with g := withoutLanes (leftLanes c).g c.act } c.g.masks 0 (fun _ => c.pc + 4) []) ∧
    (c.g.region = none → c.g.live &&& ~~~c.act = 0 → ∃ t, exec .exit s = .next t ∧ findGroup t c.g.who = none) ∧
    (∀ r, c.g.region = some r → c.g.key = none → c.g.live &&& ~~~c.act = 0 → isPaired c.t = false → gateReady s r.gate →
      ∃ t, exec .exit s = .next t ∧ findGroup t c.g.who = none ∧ (c.t.status ≠ .ended → (∃ h ∈ s.groups, h.team = c.g.team ∧ h.who ≠ c.g.who) →
        ∀ p, cellAt t p = (newest p (r.gate.flatMap (gateCells s c.t))).getD (cellAt s p)))

/-- R162, R165, R364: tret gives the lanes of its path the values and the program counter that the trap record holds, the depth and the window base kept at
delivery, and takes them out of handler mode as one path; in a halted group they become a sub-group with cause 0x42 there.
Rests on logs 85, 90, the model's reading. -/
def Obligations.ReturnRestoresFromTheRecord : Prop :=
  ∀ (s s1 s2 : State) (c : Ctx) (d : BitVec 7) (u : Sub) (rp vs : List Byte), Runs s (.tret d) c → Filled c (.tret d) → c.g.subs = [u] → u.delivered = true →
    u.lanes &&& c.act ≠ 0 →
    readAt s (devEnv s c.t.ctx false) .read (((c.pv d c.first).toNat + 0x18) % 2 ^ 64) 8 = (s1, .ok rp) →
    readAt s1 (devEnv s c.t.ctx false) .read (((c.pv d c.first).toNat + 0x40) % 2 ^ 64) 512 = (s2, .ok vs) → pcOk (BitVec.ofNat 64 (ofBytes rp)) = true →
    let rest := u.lanes &&& ~~~c.act
    Completes s s2 (.tret d)
      { c with
        path := c.path &&& ~~~c.act
        g := { c.g.modLanes c.act (fun _ x => { x with
            handler := false, pc := BitVec.ofNat 64 (ofBytes rp), depth := u.depth, tag := c.g.nextTag, st := if c.g.dbgHalt then .parked else .running }) with
          winb := u.winb, nextTag := c.g.nextTag + 1
          subs := (if rest = 0 then [] else [{ u with lanes := rest }]) ++
            if c.g.dbgHalt then [{ lanes := c.act, pcmask := u.pcmask, cause := 0x42, pc := BitVec.ofNat 64 (ofBytes rp), depth := u.depth, m0 := c.g.mask 0 }] else [] } }
      c.g.masks 0 (fun _ => c.pc + 4)
      ((upto 4).map fun j => (winReg c.g u.winb j, fun l => BitVec.ofNat 32 (ofBytes ((vs.drop (128 * j + 4 * l)).take 4))))

/-- R216, R350: prefetch, cinv and cflush change no register, mask or flag and no byte but the marks of their walks; cinv refreshes the lines that it
names for its active lanes, and what orders any other agent's accesses stays as it is.
Rests on log 57, the model's reading. -/
def Obligations.CacheOperationsChangeNoValue : Prop :=
  ∀ (s : State) (c : Ctx) (b o : BitVec 7) (la : BitVec 4),
    (Runs s (.prefetch b o la) c → Filled c (.prefetch b o la) →
      Completes s (c.lanes.foldl (fun s l => match lookAt s (laneEnv s c.g l) .read (c.addr b o 128 l).toNat 1 with
        | (s1, .hit x) => touchSpots s1 (laneEnv s c.g l) .read x
        | (s1, _) => s1) s) (.prefetch b o la) c c.g.masks 0 (fun _ => c.pc + 4) []) ∧
    (∀ i inv page, (i, inv, page) ∈ [(Instr.cinvLine b o la, true, false), (.cflushLine b o la, false, false), (.cinvPage b o la, true, true)] →
      Runs s i c → Filled c i → ∀ r, c.lanes.foldl (cacheLane c b o inv page) { s := s } = r → r.hits = [] →
      Completes s r.s i c c.g.masks 0 (fun _ => c.pc + 4) [] ∧
        (∀ a, (inv = false ∨ a ∉ agentsOf c.g c.act) → orderOf r.s a = orderOf s a)) ∧
    ∀ (t : State) (l : Nat) (r : Reads) va n x pa, cacheLane c b o true false { s := t } l = r → c.g.region = none →
      (lookAt t (laneEnv t c.g l) .read (c.addr b o 128 l).toNat 1).2 = .hit [.mem va n x pa] →
      let f := (orderOf t (agentOf c.g l)).acquireFence (matesOf c.g) (agentOf c.g l) 3
      (routeAlias r.s pa / 128, f.un, f.view) ∈ (orderOf r.s (agentOf c.g l)).lines

/-- R91, R94, R96, R97, R219: a fence changes nothing but what orders the accesses of its active lanes: after an acquire at device scope or wider a lane's UN
loads see every write that happened before it by a writer within the scope; a release stands for the lane's own writes and all it has seen; a fabric release
waits while an operation of the lanes is owed. Rests on log 79, the model's reading. -/
def Obligations.FencesRefreshTheirScope : Prop :=
  ∀ (s : State) (c : Ctx) (i : BitVec 14), Runs s (.fence i) c →
    (if i.toNat / 16 % 2 = 1 ∧ i.toNat % 8 = 5 ∧ fabricOwed c = true then exec (.fence i) s = .next (waitState s c.g.who (.fence i) .memwait c.path c.pc 0)
    else Completes s ((agentsOf c.g c.act).foldl (fenceAgent (matesOf c.g) (i.toNat % 8) (i.toNat / 8 % 2 == 1) (i.toNat / 16 % 2 == 1)) s) (.fence i) c c.g.masks 0
      (fun _ => c.pc + 4) []) ∧
    ∀ (k : Nat) (acq rel : Bool) (me a : Agent) (no : Nat),
      let t := fenceAgent (matesOf c.g) k acq rel s me
      ((acq = true → 3 ≤ k → inScope (matesOf c.g) me k a = true → (orderOf s me).view.has a no = true → (orderOf t me).un.has a no = true) ∧
      ((orderOf s me).view.has a no = true → (orderOf t me).view.has a no = true) ∧
      (rel = true → ∃ r ∈ (orderOf t me).rel, r.scope = k ∧ r.agent = me ∧ ((orderOf s me).view.has a no = true ∨ a = me ∧ no < s.writes → r.view.has a no = true)) ∧
      (a ≠ me → orderOf t a = orderOf s a))

/-- R62, R98, R220: once every active lane has found a value that satisfies its condition, mwait gives each lane its value and the lanes have acquired; in a paired
team the primary polls and forwards its values, and the twin takes what it was given (log 82); the device's poll of a waiting mwait is that same instruction issued again on its path, and of anything else it is nothing. -/
def Obligations.MwaitCompletesWhenEveryLaneHasItsValue : Prop :=
  ∀ (s : State) (d b o : BitVec 7) (k : BitVec 4),
    (∀ (c : Ctx) (r : Polls) (val : Nat → W64), Runs s (.mwait d b o k) c → Filled c (.mwait d b o k) →
      r = (if isPaired c.t = true ∧ c.t.primary = false then takeGiven c b o else c.lanes.foldl (pollLane c d b o k) { s := s, got := c.g.got }) → r.hits = [] →
      (∀ l, hasLane c.act l = true → (r.got.any fun x => x.pc == c.pc && x.lane == l) = true) →
      val = (fun l => ((firstWhere (fun x => x.pc == c.pc && x.lane == l) r.got).map (·.val)).getD 0) →
      (isPaired c.t = false → Completes s (acquire r.s c.g c.act) (.mwait d b o k) c c.g.masks 0 (fun _ => c.pc + 4) (destPair c d val)) ∧
      (∀ s1, isPaired c.t = true → c.t.twin ≠ some c.g.team →
        s1 = (if c.t.primary = true then forwardOnly (acquire r.s c.g c.act) c.g c.pc c.act (c.lanes.map val) else acquire r.s c.g c.act) →
        Completes s s1 (.mwait d b o k) { c with g := (findGroup s1 c.g.who).getD c.g } c.g.masks 0 (fun _ => c.pc + 4) (destPair c d val))) ∧
    (∀ s0 w l, turnIssue s0 w l = (s, some (.mwait d b o k)) → ∃ t, exec (.mwaitSatisfy w l) s0 = .next t ∧ exec (.mwait d b o k) s = .next t) ∧
    (∀ s0 w l, (∀ d' b' o' k', (turnIssue s0 w l).2 ≠ some (.mwait d' b' o' k')) → exec (.mwaitSatisfy w l) s0 = .next s0)

/-- R221: lanes wait at a team or role barrier while a lane that it covers is elsewhere; when the last one arrives, every lane waiting at it goes on after its
barrier word, in every group of the team, or of the role, and what each of them wrote before happens before what any of them does after.
Rests on log 60, the model's reading. -/
def Obligations.BarriersHoldAndReleaseTheirLanes : Prop :=
  ∀ (s : State) (c : Ctx) (i : Instr) (role : Option Nat) (at_ : WaitAt), Runs s i c → c.path ≠ 0 →
    (i, role, at_) ∈ [(Instr.barTeam, none, WaitAt.barTeam), (.barRole, some c.g.role, .barRole)] →
    (barrierOpen s c role at_ = true →
      Completes s s i (onLanes c c.path fun x => { x with st := .waiting, at_ := at_ }).still c.g.masks 0 (fun _ => 0) []) ∧
    (barrierOpen s c role at_ = false → ∃ t, exec i s = .next t ∧
      (∃ g', findGroup t c.g.who = some g' ∧ ∀ l, l < 32 → g'.lane l =
        if hasLane c.path l || ((c.g.lane l).st == .waiting && (c.g.lane l).at_ == at_) then freed (c.g.lane l) else c.g.lane l) ∧
      (∀ a b no, atBarrier s c role at_ a → atBarrier s c role at_ b → no < s.writes → (orderOf t a).view.has b no = true) ∧
      ∀ h, findGroup s h.who = some h → h.team = c.g.team → h.key = none → h.who ≠ c.g.who → (role = none ∨ role = some h.role) →
        ∃ h', findGroup t h.who = some h' ∧ ∀ l, l < 32 → h'.lane l =
          if (h.lane l).st == .waiting && (h.lane l).at_ == at_ then freed (h.lane l) else h.lane l)

/-- R86, R87, R222: the muster instructions on the slot that their address names, in a team with a scratchpad: arm sets it; join and owe add their update to
those of the cycle, join with what the active lanes release, and join gives the round; hold goes on only once its round has moved from d, and acquires what
the advances released. Rests on log 93, the model's reading. -/
def Obligations.MusterInstructionsWorkOnTheirSlot : Prop :=
  ∀ (s : State) (c : Ctx) (d b o : BitVec 7) (la : BitVec 4) (n : Nat) (m : Muster), musterIndex c.t (c.addr b o 16 c.first) = .ok n → m = readMuster s c.t n →
    (Runs s (.musArm d b o la) c → Filled c (.musArm d b o la) →
      Completes s (writeMuster s c.t n { m with owed := (c.uv d).toNat % 65536, quorum := (c.uv d).toNat % 65536, load := c.uvk d 1, standing := c.uvk d 1 })
        (.musArm d b o la) c c.g.masks 0 (fun _ => c.pc + 4) []) ∧
    (Runs s (.musJoin d b o la) c → Filled c (.musJoin d b o la) →
      Completes s (modTeam s c.g.team fun t => musterAdded t n 1 0 (releaseAct c s)) (.musJoin d b o la) c c.g.masks 0 (fun _ => c.pc + 4) (dest c d fun _ => m.round)) ∧
    (Runs s (.musOwe d b o la) c → Filled c (.musOwe d b o la) →
      Completes s (modTeam s c.g.team fun t => musterAdded t n 0 (c.uv d) {}) (.musOwe d b o la) c c.g.masks 0 (fun _ => c.pc + 4) []) ∧
    (Runs s (.musHold d b o la) c → Filled c (.musHold d b o la) →
      if m.round = c.uv d then exec (.musHold d b o la) s = .next (waitState s c.g.who (.musHold d b o la) .musHold c.path c.pc (c.addr b o 16 c.first))
      else Completes s (acquireAct c s (mget ({}, {}) c.t.musters n).2) (.musHold d b o la) c c.g.masks 0 (fun _ => c.pc + 4) [])

/-- R86, R87: the updates of a cycle to a slot add up, and are applied together when it ends: joins leave OWED modulo 2^16, LOAD moves by what is owed and what
landed modulo 2^32, and only when both are then 0 the round ends: ROUND rises by 1, OWED and LOAD take QUORUM and STANDING, and what the round gathered
is released. Rests on log 23, the model's reading. -/
def Obligations.MusterUpdatesEndTheRoundAtZero : Prop :=
  ∀ (s : State) (k n : Nat) (t : Team), findTeam s k = some t → t.key = k → n < 64 →
    (∀ joins owed landed v, padSize t ≠ 0 → ∃ u, findTeam (updateMuster s k n joins owed landed v) k = some u ∧
      let x := (mget none t.musDue n).getD (0, 0, 0)
      mget none u.musDue n = some (x.1 + joins, x.2.1 + owed, x.2.2 + landed) ∧ (∀ i, i ≠ n → mget none u.musDue i = mget none t.musDue i) ∧
      (mget ({}, {}) u.musters n).1 = (mget ({}, {}) t.musters n).1.join v) ∧
    (∀ joins owed landed, joins ≤ 65536 →
      let m := readMuster s t n
      let s' := settleMuster k s (n, some (joins, owed, landed))
      let m' := readMuster s' t n
      let o := (m.owed + 65536 - joins) % 65536
      let l := m.load - landed + owed
      let y := mget ({}, {}) t.musters n
      m'.quorum = m.quorum ∧ m'.standing = m.standing ∧
        (if o = 0 ∧ l = 0 then m'.round = m.round + 1 ∧ m'.owed = m.quorum ∧ m'.load = m.standing ∧ mget ({}, {}) (teamOf s' k).musters n = ({}, y.2.join y.1)
          else m'.round = m.round ∧ m'.owed = o ∧ m'.load = l ∧ mget ({}, {}) (teamOf s' k).musters n = y)) ∧
    (teamOf (settleMusters s k) k).musDue = []

/-- R75, R76, R81, R82, R223, R224: tdef writes or clears a tile entry that no engine operation uses, town reads one, tgive gives a VALID one to the
engines, twait acquires once a VALID one is software's. -/
def Obligations.TileInstructionsWorkOnTheirEntry : Prop :=
  ∀ (s : State) (c : Ctx) (d a : BitVec 7) (n : BitVec 6) (la : BitVec 4),
    (∀ x, x = tdefTile (c.uv d).toNat (c.uvk d 1).toNat (c.uvk d 2).toNat → Runs s (.tdef d n la) c → Filled c (.tdef d n la) → (c.uvk d 1).toNat / 64 = 0 →
      tileInUse c.t n.toNat = false → twaitHolds s c.g.team n.toNat = false →
      if bits (c.uvk d 1).toNat 5 1 = 1 then
        Completes s (modTile s c.g.team n.toNat fun old => { old with valid := false, own := false, status := 0, pend := false }) (.tdef d n la) c c.g.masks
          0 (fun _ => c.pc + 4) []
      else (x.cmp = true ∨ c.uvk d 2 = 0) → tileOk c.t n.toNat x = true →
        Completes s (modTile s c.g.team n.toNat fun _ => x) (.tdef d n la) c c.g.masks 0 (fun _ => c.pc + 4) []) ∧
    (∀ x, x = tileOf c.t ((c.uv a).toNat % 64) →
      (Runs s (.town d a la) c → Completes s s (.town d a la) c c.g.masks 0 (fun _ => c.pc + 4)
        (dest c d fun _ => BitVec.ofNat 32 (x.own.toNat + 2 * x.pend.toNat + 4 * x.valid.toNat + 8 * x.cmp.toNat + 16 * x.fmt + 256 * x.status.toNat))) ∧
      (Runs s (.twait a la) c → x.valid = true → x.own = false →
        Completes s (acquireAct c s x.view) (.twait a la) c c.g.masks 0 (fun _ => c.pc + 4) []) ∧
      (Runs s (.tgive a la) c → Filled c (.tgive a la) → x.valid = true →
        Completes s (modTile s c.g.team ((c.uv a).toNat % 64) fun x => if x.own then x else { x with own := true, given := releaseAct c s }) (.tgive a la) c c.g.masks
          0 (fun _ => c.pc + 4) []))

/-- R76, R80, R82 to R85, R225 to R234: a copy-engine command that meets a cause at issue traps it on every active lane and has no effect; one that meets none
joins its channel, with its engine operation and counts, when the channel holds fewer than 16; a full channel makes it wait.
Rests on log 24, the model's reading. -/
def Obligations.CopyCommandsJoinTheirChannel : Prop :=
  ∀ (s : State) (c : Ctx) (i : Instr) (ch x : Nat) (cmd : Cmd) (first : W64) (hb csum : Bool), Runs s i c → Filled c i →
    copyCommand s c i = some (ch, x, cmd, first, hb, csum) →
    if x ≠ 0 then x ∈ [0x20, 0x22, 0x23] ∧
      ∃ g', exec i s = .next (raise (scripted s (onlyGroup s g')) c.g.who 0 (c.lanes.map fun l => { lane := l, cause := x })) ∧
        WentOn s { c with path := c.path &&& ~~~c.act } g' c.g.masks c.g.fpflags (fun _ => c.pc + 4) ∧ WroteRegs c g' []
    else if 16 ≤ chanLoad (chanOf s c.t.cluster ch) then exec i s = .next (waitState s c.g.who i .copyq c.path c.pc 0)
    else Completes s (placedCmd s c ch cmd first hb csum) i c c.g.masks 0 (fun _ => c.pc + 4) []

/-- R84, R99, R230, R233: rdwp gives the channel's write pointer and acquires the writes that it covers; rdcsum gives the checksum of the command with CSUM that
was the latest when it issued, once that one is complete, and 0 where there was none; it keeps waiting for that one. -/
def Obligations.ChannelReadsGiveTheirCounts : Prop :=
  ∀ (s : State) (c : Ctx) (d a : BitVec 7) (la : BitVec 4) (k : ChanCount) (n : Nat), k = countOf c.t ((c.uv a).toNat % 8) →
    (n = match c.g.got.find? fun x => x.pc == c.pc && x.lane == lowestLane c.path with | some x => x.val.toNat | none => k.sums) →
    (Runs s (.rdwp d a la) c → Completes s (acquireAct c s k.view) (.rdwp d a la) c c.g.masks 0 (fun _ => c.pc + 4) (destPair c d fun _ => k.wptr)) ∧
    (Runs s (.rdcsum d a la) c → Filled c (.rdcsum d a la) → match k.crcs.find? fun x => x.1 == n with
      | some x => Completes s s (.rdcsum d a la) c c.g.masks 0 (fun _ => c.pc + 4) (dest c d fun _ => x.2)
      | none =>
        if n = 0 then Completes s s (.rdcsum d a la) c c.g.masks 0 (fun _ => c.pc + 4) (dest c d fun _ => 0)
        else exec (.rdcsum d a la) s = .next (waitState (modGroup s c.g.who fun g => { g with got := { pc := c.pc, lane := lowestLane c.path, val := BitVec.ofNat 64 n } ::
          (g.got.filter fun x => !(x.pc == c.pc && x.lane == lowestLane c.path)) }) c.g.who (.rdcsum d a la) .rdcsum c.path c.pc 0))

/-- R235, R236: on a bound and permitted queue qput adds an entry while there is room, qget and qtry take the oldest, qtry reports in its mask, qlen counts; a
full or empty queue makes qput and qget wait. An entry carries what its push releases, and the lanes that take it acquire that. -/
def Obligations.QueueInstructionsKeepTheirOrder : Prop :=
  ∀ (s : State) (c : Ctx) (d q m : BitVec 7) (la : BitVec 4) (l : List W64), l = queueOf c.t q.toNat → queueBound s c.t q.toNat = true →
    (Runs s (.qput q d la) c → Filled c (.qput q d la) → mayPut c.key c.g.role (qbindOf c) q.toNat = true → q.toNat ≠ 12 →
      if 16 ≤ l.length then exec (.qput q d la) s = .next (waitState s c.g.who (.qput q d la) .qput c.path c.pc 0)
      else Completes s (pushQueue s c.g.team q.toNat (c.pv d 0) (releaseAct c s)) (.qput q d la) c c.g.masks 0 (fun _ => c.pc + 4) []) ∧
    (Runs s (.qget d q la) c → Filled c (.qget d q la) → mayGet c.key c.g.role (qbindOf c) q.toNat = true → match l with
      | [] => exec (.qget d q la) s = .next (waitState s c.g.who (.qget d q la) .qget c.path c.pc 0)
      | v :: rest => Completes s (popped s c q.toNat rest) (.qget d q la) c c.g.masks 0 (fun _ => c.pc + 4)
          (destPair c d fun _ => v)) ∧
    (Runs s (.qtry d q m) c → Filled c (.qtry d q m) → mayGet c.key c.g.role (qbindOf c) q.toNat = true → ∃ ms, match l with
      | [] => Completes s s (.qtry d q m) c ms 0 (fun _ => c.pc + 4) [] ∧ ∀ k, k < 16 → nth 0 ms k = maskAfter c.g m.toNat (c.g.mask m.toNat &&& ~~~c.act) k
      | v :: rest => Completes s (popped s c q.toNat rest) (.qtry d q m) c ms 0 (fun _ => c.pc + 4) (destPair c d fun _ => v)
          ∧ ∀ k, k < 16 → nth 0 ms k = maskAfter c.g m.toNat (c.g.mask m.toNat ||| c.act) k) ∧
    (Runs s (.qlen d q la) c → Completes s s (.qlen d q la) c c.g.masks 0 (fun _ => c.pc + 4) (dest c d fun _ => BitVec.ofNat 32 l.length))

/-- R62, R235, R352: a put into queue 12 hands the Mason a command block while 16 are not waiting (that many is log 25's choice); in a paired team it meets its twin
first, and the primary alone puts (log 82). -/
def Obligations.AppendCommandsReachTheMason : Prop :=
  ∀ (s s' : State) (c : Ctx) (a : BitVec 7) (la : BitVec 4) (i : Instr), i = .qput 12 a la → Runs s i c → Filled c i → queueBound s c.t 12 = true →
    c.key = false → masonWaiting s c.g.team < 16 → s' = { s with masonQ := s.masonQ ++ [(c.g.team, c.pv a 0)] } →
    (isPaired c.t = false → Completes s s' i c c.g.masks 0 (fun _ => c.pc + 4) []) ∧
    Paired s s i c (crc64 2 (toBytes 8 (c.pv a 0).toNat)) (Completes s (forward s' c.g c.pc c.act []) i c c.g.masks 0 (fun _ => c.pc + 4) [])
      (fun s1 c1 _ => Completes s s1 i c1 c.g.masks 0 (fun _ => c.pc + 4) [])

/-- R62, R237 to R239: fput and fsig whose destination is one page of an open window and whose source may be read join the team's sender streams; nothing else
changes; in a paired team they meet their twin first, and the primary alone sends (log 82). -/
def Obligations.FabricOperationsJoinTheirStream : Prop :=
  ∀ (s s1 s2 : State) (c : Ctx) (d b o : BitVec 7) (la : BitVec 4) (t : Tr) (n : Nat) (op : FabOp),
    (Runs s (.fput d b o la) c → Filled c (.fput d b o la) → n = (c.uvk d 2).toNat → 1 ≤ n → n ≤ 65536 →
      overlap (c.pv d 0).toNat n Config.aperture Config.apertureBytes = false → canonicalRange (c.pv d 0).toNat n = true →
      fabDest s (laneEnv s c.g c.first) (c.addr b o 8 c.first).toNat n = (s1, .ok t) →
      rangeCauses s1 (laneEnv s c.g c.first) .read (linesOf (c.pv d 0).toNat n) = (s2, []) →
      (s2.down.contains (fabPeer s2 t.pa) || c.t.broken.contains (fabPeer s2 t.pa)) = false →
      op = { team := c.g.team, dest := fabPeer s2 t.pa, va := c.addr b o 8 c.first, rpa := t.pa, src := c.pv d 0, len := n, tids := actTids c
             at_ := s2.writes, view := releaseAct c s2 } →
      (isPaired c.t = false → Completes s (addFab s2 op) (.fput d b o la) c c.g.masks 0 (fun _ => c.pc + 4) []) ∧
      Paired s s2 (.fput d b o la) c (crc64 3 (toBytes 8 (c.addr b o 8 c.first).toNat ++ toBytes 8 (c.pv d 0).toNat ++ toBytes 4 n))
        (Completes s (forward (addFab s2 op) c.g c.pc c.act []) (.fput d b o la) c c.g.masks 0 (fun _ => c.pc + 4) [])
        (fun s1 c1 _ => Completes s s1 (.fput d b o la) c1 c.g.masks 0 (fun _ => c.pc + 4) [])) ∧
    (Runs s (.fsig d b o la) c → Filled c (.fsig d b o la) → (c.addr b o 8 c.first).toNat % 8 = 0 →
      fabDest s (laneEnv s c.g c.first) (c.addr b o 8 c.first).toNat 8 = (s1, .ok t) → c.t.broken.contains (fabPeer s1 t.pa) = false →
      op = { team := c.g.team, dest := fabPeer s1 t.pa, va := c.addr b o 8 c.first, rpa := t.pa, pennant := some (c.pv d 0)
             tids := actTids c, at_ := s1.writes, view := releaseAct c s1 } →
      (isPaired c.t = false → Completes s (addFab s1 op) (.fsig d b o la) c c.g.masks 0 (fun _ => c.pc + 4) []) ∧
      Paired s s1 (.fsig d b o la) c (crc64 4 (toBytes 8 (c.addr b o 8 c.first).toNat ++ toBytes 8 (c.pv d 0).toNat))
        (Completes s (forward (addFab s1 op) c.g c.pc c.act []) (.fsig d b o la) c c.g.masks 0 (fun _ => c.pc + 4) [])
        (fun s1 c1 _ => Completes s s1 (.fsig d b o la) c1 c.g.masks 0 (fun _ => c.pc + 4) []))

/-- R62, R175, R307, R308: launch submits the record it read to queue 63 of its context and gives the launch id, or 0; in a paired team it meets its twin first, the
primary alone submits, and the twin takes its id. Rests on log 51, and on log 82 for a paired team, the model's readings. -/
def Obligations.LaunchSubmitsToItsContext : Prop :=
  ∀ (s s1 s2 : State) (c : Ctx) (d b o : BitVec 7) (la : BitVec 4) (bs : List Byte) (id : W32) (i : Instr), i = .launch d b o la → Runs s i c → Filled c i →
    (c.addr b o 128 c.first).toNat % 128 = 0 →
    readAt s (laneEnv s c.g c.first) .read (c.addr b o 128 c.first).toNat 128 = (s1, .ok bs) → submit s1 c.t.ctx bs (releaseAct c s1) = (s2, some id) →
    (isPaired c.t = false → Completes s s2 i c c.g.masks 0 (fun _ => c.pc + 4) (dest c d fun _ => id)) ∧
    Paired s s1 i c (crc64 0 bs) (Completes s (forward s2 c.g c.pc c.act [id.setWidth 64]) i c c.g.masks 0 (fun _ => c.pc + 4) (dest c d fun _ => id))
      (fun s3 c1 vs => Completes s s3 i c1 c.g.masks 0 (fun _ => c.pc + 4) (dest c d fun _ => (vs.headD 0).setWidth 32))

/-- R176, R177: bqh holds its block in a free quarter slot, with every register of it G and unchanged in value, and waits for a slot that is taken; bqr frees
a slot that its group holds, and no other. -/
def Obligations.QuarterHoldsAreTakenAndFreed : Prop :=
  ∀ (s : State) (c : Ctx) (a b : BitVec 7),
    (Runs s (.bqh a b) c → Filled c (.bqh a b) →
      if (mget none c.t.quarters ((c.uv b).toNat % 4)).isSome then exec (.bqh a b) s = .next (waitState s c.g.who (.bqh a b) .matrixq c.path c.pc 0)
      else ∃ g', exec (.bqh a b) s = .next (onlyGroup (modTeam s c.g.team fun t => { t with
            quarters := mput none t.quarters ((c.uv b).toNat % 4) (some { g := c.g.idx, first := c.r a.toNat, len := bqhLen c.g b }) }) g') ∧
        WentOn s c g' c.g.masks c.g.fpflags (fun _ => c.pc + 4) ∧ WroteRegs c g' [] ∧ ∀ k, k < bqhLen c.g b → (g'.reg (c.r a.toNat + k)).shape.isG = true) ∧
    (Runs s (.bqr a) c → Filled c (.bqr a) →
      Completes s (match mget none c.t.quarters ((c.uv a).toNat % 4) with
        | some h => if h.g = c.g.idx then modTeam s c.g.team fun t => { t with quarters := mput none t.quarters ((c.uv a).toNat % 4) none } else s
        | none => s) (.bqr a) c c.g.masks 0 (fun _ => c.pc + 4) [])

/-- R250, R257, R260 to R264, R266: a matrix instruction that meets no cause enters the queue of its keystone context with its engine operation; a full queue
of eight makes it wait; one that meets a cause ends its team. -/
def Obligations.MatrixInstructionsEnterTheQueue : Prop :=
  ∀ (s : State) (c : Ctx) (i : Instr) (x : Nat) (op : MOp) (tiles : List Nat) (hb : Bool), Runs s i c → Filled c i →
    matrixEntry c i = some (x, op, tiles, hb) →
    if x ≠ 0 then ∃ g', exec i s = .next (raise (scripted s (onlyGroup s g')) c.g.who 0 (c.lanes.map fun l => { lane := l, cause := x })) ∧
      WentOn s { c with path := c.path &&& ~~~c.act } g' c.g.masks c.g.fpflags (fun _ => c.pc + 4) ∧ WroteRegs c g' []
    else if 8 ≤ c.mat.mq.length then exec i s = .next (waitState s c.g.who i .matrixq c.path c.pc 0)
    else Completes s (modTeam s c.g.team fun t => addOp t tiles hb true) i (queued s c op tiles) c.g.masks 0 (fun _ => c.pc + 4) []

/-- R256, R258, R259, R265: mlda enters the queue once its image, in a tile or in memory, may be read; mbq binds the four held quarters and gives their
lengths; mdone reads and clears MSTAT once the queue is empty and no hand-back is open. Rests on log 67, the model's reading. -/
def Obligations.KeystoneInstructionsLoadBindAndFinish : Prop :=
  ∀ (s : State) (c : Ctx),
    (∀ d b o la a, Runs s (.mlda d b o la) c → Filled c (.mlda d b o la) → a = c.addr b o 128 0 → a.toNat % 128 = 0 → c.mat.mq.length < 8 →
      (∀ n, inAperture a.toNat 1 = true → imageTile c.t a.toNat = some n →
        Completes s (modTeam s c.g.team fun t => addOp t [n] false true) (.mlda d b o la) (queued s c (.load ((c.uv d).toNat % 4) a) [n]) c.g.masks 0
          (fun _ => c.pc + 4) []) ∧
      (∀ s1, inAperture a.toNat 1 = false → rangeCauses s (laneEnv s c.g 0) .read (linesOf a.toNat accBytes) = (s1, []) →
        Completes s (modTeam s1 c.g.team fun t => addOp t [] false true) (.mlda d b o la) (queued s1 c (.load ((c.uv d).toNat % 4) a) []) c.g.masks
          0 (fun _ => c.pc + 4) [])) ∧
    (∀ d, Runs s (.mbq d) c → Filled c (.mbq d) → (heldQuarters s c.t).length = 4 →
      Completes s s (.mbq d) { c with g := { c.g with key := c.g.key.map fun k => { k with binding := some (heldQuarters s c.t) } } } c.g.masks 0
        (fun _ => c.pc + 4) (dest c d fun _ => BitVec.ofNat 32 (sumNat ((upto 4).map fun q => (nth 0 ((heldQuarters s c.t).map (·.hold.len)) q - 1) * 2 ^ (8 * q))))) ∧
    (∀ d, Runs s (.mdone d) c → Filled c (.mdone d) → c.mat.mq = [] → (c.t.ops.any fun o => o.cmu && o.hb) = false →
      Completes s (acquireAct c s (({} : View).plus (.cmu c.g.team) s.writes)) (.mdone d)
        { c with g := { c.g with key := c.g.key.map fun k => { k with mstat := 0 } } } c.g.masks 0
        (fun _ => c.pc + 4) (dest c d fun _ => c.mat.mstat.setWidth 32))

/-- R43, R50, R157: reform files the active lanes, whose targets are legal, in the bins of their core and takes them out of the group, and out of its sub-groups, while
another lane of it is left. Rests on log 59, the model's reading. -/
def Obligations.ReformFilesLanesInBins : Prop :=
  ∀ (s : State) (c : Ctx) (d : BitVec 7) (bins : List Bin), Runs s (.reform d) c → Filled c (.reform d) → dueSub (withoutLanes c.g c.act) = none →
    (∀ l, hasLane c.act l = true → pcOk (c.pv d l) = true) → fileLanes { c with g := completePending c.g c.act } d c.act = (bins, c.act) → c.g.live &&& ~~~c.act ≠ 0 →
    Completes s (modCore s (groupTile s c.g) fun k => { k with bins := bins }) (.reform d)
      { leftLanes (ended c c.act) with g := withoutLanes (leftLanes (ended c c.act)).g c.act } c.g.masks 0 (fun _ => c.pc + 4) []

/-- R302, R304, R305, R317: CREATE takes a well-formed table entry whose structures are held, DESTROY frees a context of which nothing is queued or running, KILL
and KILLCTX end launches; each posts its RESULT and clears BUSY; while another command executes a command does nothing (that DESTROY also counts
launches under way is R305's). Rests on logs 43, 77, 102, the model's reading. -/
def Obligations.CommandsRegisterAndEndContexts : Prop :=
  ∀ (s : State) (c : Nat) (a : BitVec 32), c < 64 →
    (∀ i n, (i, n) ∈ [(Instr.create c a, 1), (.destroy c a, 2), (.kill c a, 3), (.killctx c a, 4)] → s.cmd ≠ none → s.cmd ≠ some (n, c, a) → exec i s = .next s) ∧
    (s.cmd = none ∨ s.cmd = some (1, c, a) →
      (¬ entryOk s c → exec (.create c a) s = .next (cmdDone s 1)) ∧
      (entryOk s c → entryHeld s c = false → exec (.create c a) s = .next (cmdDone s 2)) ∧
      (entryOk s c → entryHeld s c = true → Goes (.create c a) s fun t => t.ctl.cmdResult = 0 ∧ t.cmd = none ∧ (∀ d, d ≠ c → contextOf t d = contextOf s d) ∧
        let old := contextOf s c
        contextOf t c = if old.state = 1 then { contextAt s c with
          nextId := old.nextId, ids63 := old.ids63, views63 := old.views63, evViews := old.evViews, bells := old.bells } else contextAt s c)) ∧
    (s.cmd = none ∨ s.cmd = some (2, c, a) →
      ∀ s1 b, (if (contextOf s c).state = 1 then queuedRecords s c else (s, false)) = (s1, b) → Goes (.destroy c a) s fun t => t.cmd = none ∧
        if b || s1.launches.any (fun l => l.ctx == c) then t.ctl.cmdResult = 8 ∧ t.contexts = s1.contexts else t.ctl.cmdResult = 0 ∧ contextOf t c = {}) ∧
    (s.cmd = none ∨ s.cmd = some (3, c, a) →
      ((s.launches.any fun l => l.ctx == c && l.id == a) = true →
        Goes (.kill c a) s fun t => t.ctl.cmdResult = 0 ∧ t.cmd = none ∧ ∀ l ∈ t.launches, l.ctx = c → l.id = a → l.killed.isSome) ∧
      ((s.launches.any fun l => l.ctx == c && l.id == a) = false → a = 0 ∨ a ∉ (contextOf s c).ids63 → exec (.kill c a) s = .next (cmdDone s 1)) ∧
      ((s.launches.any fun l => l.ctx == c && l.id == a) = false → a ≠ 0 → a ∈ (contextOf s c).ids63 →
        Goes (.kill c a) s fun t => t.ctl.cmdResult = 0 ∧ t.cmd = none ∧ ∃ x, t.completions = s.completions ++ [x] ∧ x.ctx = c ∧ x.queue = 63 ∧ x.id = a ∧ x.status = 3)) ∧
    (s.cmd = none ∨ s.cmd = some (4, c, a) →
      Goes (.killctx c a) s fun t => t.ctl.cmdResult = 0 ∧ t.cmd = none ∧ (contextOf t c).state = 2 ∧ ∀ l ∈ t.launches, l.ctx = c → l.killed.isSome)

/-- R306 to R311, R313, R317, R318, R362: a doorbell sets TAIL or gives a completion record with cause 0x0A; the record at HEAD is taken when its queue may take
one, its dependences hold and, for a DEBUG launch, its context runs no other; it then runs or is refused with its lowest reason; a completion record goes to
the event ring while it has room, raises its event counter, and the interrupt when it is due; a head team is placed whole, on clusters in service.
Rests on logs 26, 43, 83, the model's reading. -/
def Obligations.DispatcherTakesRecordsAndPlacesTeams : Prop :=
  ∀ (s : State) (c q : Nat) (v : BitVec 32), c < 64 → q < 64 →
    ((contextOf s c).state ≠ 1 → exec (.launchDoorbell c q v) s = .next { s with completions := s.completions ++ [plainCompletion s c q 0 1 0x0A []] }) ∧
    (∀ s1 d, (contextOf s c).state = 1 → readDesc s c q = (s1, d) →
      (exec (.launchDoorbell c q v) s = .next (if d.ok = true ∧ q ≠ 63 ∧ (v.toNat + 2 ^ 32 - d.head) % 2 ^ 32 ≤ 2 ^ d.logn
        then modContext (devWrite s1 c (descAt s c q + 0x1C) (toBytes 4 v.toNat)) c fun k => { k with bells := mput 0 k.bells q s.writes }
        else { s1 with completions := s1.completions ++ [plainCompletion s1 c q 0 1 0x0A []] })) ∧
      (mayTake s1 c q d = false → exec (.launchRecordTake c q) s = .next s1) ∧
      (∀ s2 b s3 ready l x s4 id w, mayTake s1 c q d = true → (q = 63 → (contextOf s1 c).ids63.head? ≠ some 0) →
        readAt s1 (devEnv s c false) .read (d.base + 128 * (d.head % 2 ^ d.logn)) 128 = (s2, .ok b) → l = launchRecOf b →
        depsHold s2 c l.deps = (s3, ready) → recordId s3 c q = (s4, id, w) →
        x = loadKernel (devWrite s4 c (descAt s c q + 0x18) (toBytes 4 (d.head + 1))) c l →
        (if q = 63 then id = (contextOf s3 c).ids63.headD 0 ∧ w = (contextOf s3 c).views63.headD {}
          else id = (contextOf s3 c).nextId ∧ w = { by_ := [(.host, mget 0 (contextOf s3 c).bells q), (.peer, mget 0 (contextOf s3 c).bells q)] }) ∧
        if isDebug s3 { ctx := c, queue := q, id := 0, lrec := l } && s3.launches.any (fun y => y.ctx == c && isDebug s3 y) then
          exec (.launchRecordTake c q) s = .next s3
        else if ready = false then exec (.launchRecordTake c q) s = .next { s3 with depWait := (c, q, d.head) :: s3.depWait }
        else match refusals x.s c b l x with
          | r :: _ => Goes (.launchRecordTake c q) s fun t => t.launches = x.s.launches ∧
              t.completions = x.s.completions ++ [plainCompletion x.s c q id 1 r b]
          | [] => Goes (.launchRecordTake c q) s fun t => t.completions = x.s.completions ∧
              t.launches = x.s.launches ++ [launchOfRec x.s c q id d l x (kernelOf (x.kernel.getD []) (x.roles.getD []))
                (w.join (depViews (contextOf x.s c) l.deps))])) ∧
    exec (.eventDoorbell c) s = .next { s with depWait := s.depWait.filter fun x => x.1 != c } ∧
    (evRingRoom s = false → exec .completionRecordWrite s = .next s) ∧
    (∀ x rest s1 s2, s.completions = x :: rest → evRingRoom s = true →
      s1 = physWrite { s with completions := rest } (s.ctl.evrb.toNat + 32 * (s.ctl.evrt.toNat % 2 ^ (s.ctl.evrc.toNat % 32))) (recordBytes x) →
      s2 = eventCounted { s1 with ctl := { s1.ctl with evrt := s1.ctl.evrt + 1 }, evSince := s1.evSince + 1
                                  evOldest := if s1.evSince = 0 then s1.timeFs else s1.evOldest } x →
      exec .completionRecordWrite s = .next (if x.irq = true ∨ s2.ctl.evcoal.toNat % 256 ≠ 0 ∧ s2.ctl.evcoal.toNat % 256 ≤ s2.evSince
        then raiseIrq { s2 with evSince := 0 } 0 else s2)) ∧
    (exec .eventCoalesceTimer s = .next (if (s.ctl.evcoal.toNat % 256 ≠ 0 ∧ s.ctl.evcoal.toNat % 256 ≤ s.evSince) ∨
        (s.ctl.evcoal.toNat / 65536 ≠ 0 ∧ s.evSince ≠ 0 ∧ s.evOldest + s.ctl.evcoal.toNat / 65536 * 1000000000 ≤ s.timeFs)
      then raiseIrq { s with evSince := 0 } 0 else s)) ∧
    (s.paused = true → exec (.teamPlace q) s = .next s) ∧
    (∀ n h p ps, s.paused = false → s.blocked = [] → consideredHead s = some h → imageFirst s h.eff = false → h.saved = none →
      ps = plansFor s h (n / 4096) → ps[n % 4096 % Nat.max 1 ps.length]? = some [p] → inService s p.cluster = true ∧
      Goes (.teamPlace n) s fun t => ∃ tm gs, t.teams = s.teams ++ [tm] ∧ t.groups = s.groups ++ gs ∧ tm.key = s.nextTeam ∧ tm.ctx = h.ctx ∧
        tm.launch = h.id ∧ tm.cluster = p.cluster ∧ tm.pad = p.pads ∧ tm.status = .resident ∧ ∀ g ∈ gs, g.team = tm.key)

/-- R56, R101, R302, R321, R325, R328, R329, R340: at its deadline a tile that has not yielded is frozen into a vault slot and its ports close; the image holds the
stores that have not left the core, which are performed in their order once the core runs again, the launch ending where a stale translation faults; an image is
complete some time after the freeze; a team that yielded is saved into a save slot; an image is restored, exported, freed or imported under the checks that each
names, while no other command executes.
Rests on logs 27, 51, 62, 97, 110, 111, 112, the model's reading. -/
def Obligations.FreezesSavesAndImagesKeepGroups : Prop :=
  ∀ (s : State) (c : Nat) (a : BitVec 32),
    (∀ team t0, findTeam s team = some t0 →
      (deadlineDue s t0 = false → exec (.preemptDeadlineExpiry team) s = .next s) ∧
      (∀ x k, deadlineDue s t0 = true → unyieldedTiles s team = [x] → freeSlot s x = some k → Goes (.preemptDeadlineExpiry team) s fun t =>
        (∃ im, mget none t.vault k = some im ∧ im.tile = x ∧ im.cause = 0x50 ∧ im.complete = false ∧ (im.groups = s.groups.filter fun g => groupTile s g == x) ∧
          im.core.stores = (coreOf s x).stores) ∧
        t.groups = (s.groups.filter fun g => groupTile s g != x) ∧ (coreOf t x).frozen = some k ∧ (coreOf t x).stores = [] ∧
        ∀ p v, p < 4 → v < 4 → (linkOf t x p v).closed = true ∧ (linkOf t x p v).out = 0 ∧ (linkOf t x p v).inn = 0) ∧
      (∀ s0 t1 c1 slot rest s1 parts len s2, s0 = settleMusters s team → t1 = teamOf s0 team → saveDue s0 t1 = true → c1 = contextOf s0 t1.ctx →
        freeSaves s0 t1.ctx = slot :: rest → saveParts s0 t1 (s0.groups.filter fun g => g.team == team) = (s1, parts, len) → len ≤ c1.savesz * 4096 →
        writeParts t1.ctx (c1.saveb.toNat + slot * c1.savesz * 4096) parts s1 = .done s2 →
        Goes (.teamSave team) s fun t => (∃ x ∈ t.saved, x.key = team ∧ x.slot = slot ∧ x.groups = s0.groups.filter fun g => g.team == team) ∧
          (∀ g ∈ t.groups, g.team ≠ team) ∧ (teamOf t team).status = .saved) ∧
      (saveDue (settleMusters s team) (teamOf (settleMusters s team) team) = false → exec (.teamSave team) s = .next s)) ∧
    (∀ tile ts h hs g s0, s.agenda = .leave tile :: ts → s0 = { s with agenda := ts } → (coreOf s tile).stores = h :: hs → findGroup s h.who = some g →
      (teamOf s g.team).status = .resident →
      ((coreOf s tile).frozen.isSome = true ∨ (coreOf s tile).dbgFrozen = true → step s = .next s0) ∧
      ((coreOf s tile).frozen = none → (coreOf s tile).dbgFrozen = false →
        (h.stale = false → ∃ t, step s = .next t ∧ (coreOf t tile).stores = hs ∧
          t.mem = (writeHeld s0 g h (spotsNow s0 g.team h.va.toNat h.cells.length h.spots)).mem) ∧
        (∀ s1 x tok, h.stale = true → inAperture h.va.toNat h.cells.length = false →
          lookAt s0 (laneEnv s0 g h.lane) .write h.va.toNat h.cells.length = (s1, .stop x tok) →
          ∃ t, step s = .next t ∧ ∀ l ∈ t.launches, l.ctx = (teamOf s g.team).ctx → l.id = (teamOf s g.team).launch → l.killed.isSome))) ∧
    (∀ k im, mget none s.vault k = some im → im.complete = false → Goes (.scanImageComplete k) s fun t =>
      (∃ id, mget none t.vault k = some { im with complete := true, id := id }) ∧ t.groups = s.groups ∧ (coreOf t im.tile).frozen ≠ some k ∧
      (im.cause ≠ 0x42 → ∀ p v, p < 4 → v < 4 → (linkOf t im.tile p v).closed = false ∧ (linkOf t im.tile p v).occ = 0)) ∧
    (∀ k tile im, mget none s.vault k = some im → mayRestore s k tile im = true → physNum s (slotAt k + 7) 1 % 2 = 0 → im.poisoned = none →
      ((im.groups ++ s.groups).all fun g => !g.haltDue) = true → Goes (.imageRestore k tile) s fun t => mget none t.vault k = none ∧
        t.groups.map Group.who = s.groups.map Group.who ++ (im.groups.filter fun g => (imageTeams s im).contains g.team).map Group.who) ∧
    (∀ i n, (i, n) ∈ [(Instr.importImage c a, 5), (.exportImage c a, 6), (.free c a, 7)] → s.cmd ≠ none → s.cmd ≠ some (n, c % 64, a) → exec i s = .next s) ∧
    (∀ k, k = a.toNat % 512 →
      (∀ i n, (i, n) ∈ [(Instr.exportImage c a, 6), (.free c a, 7)] → mget none s.vault k = none → s.cmd = none ∨ s.cmd = some (n, c % 64, a) →
        exec i s = .next (cmdDone s 1)) ∧
      (∀ im, mget none s.vault k = some im → s.cmd = none ∨ s.cmd = some (6, c % 64, a) →
        (im.complete = false → exec (.exportImage c a) s = .next (cmdDone s 1)) ∧
        (im.complete = true → mayMove s im = false → exec (.exportImage c a) s = .next (cmdDone s 7)) ∧
        (im.complete = true → mayMove s im = true →
          exec (.exportImage c a) s = .next (cmdDone { s with vault := mput none s.vault k (some { im with exported := true }) } 0))) ∧
      (∀ im, mget none s.vault k = some im → s.cmd = none ∨ s.cmd = some (7, c % 64, a) →
        (im.exported = false → exec (.free c a) s = .next (cmdDone s 1)) ∧
        (im.exported = true → exec (.free c a) s = .next (cmdDone { s with vault := mput none s.vault k none, imagesOut := s.imagesOut ++ [im] } 0))) ∧
      (∀ tile im, s.cmd = none ∨ s.cmd = some (5, c % 64, a) → tile = bits a.toNat 16 8 → im = namedImage s k → k < vaultSlots → tile < 5 * Config.nClusters → slotFree s k = true →
        physNum s (slotAt k) 4 = 0x4958584B → physNum s (slotAt k + 4) 1 = tileKind tile →
        (tileIdle s tile = false → exec (.importImage c a) s = .next (cmdDone s 6)) ∧
        (tileIdle s tile = true → (keysWanted s im (tile / 5)).length ≤ (freeHw s (tile / 5)).length →
          (slotCheck s k tile ≠ 0 → exec (.importImage c a) s = .next (cmdDone s (slotCheck s k tile))) ∧
          (slotCheck s k tile = 0 → physNum s (slotAt k + 7) 1 % 2 = 0 → clusterSuits s im (tile / 5) = false →
            exec (.importImage c a) s = .next (cmdDone s 7)) ∧
          (slotCheck s k tile = 0 → physNum s (slotAt k + 7) 1 % 2 = 0 → clusterSuits s im (tile / 5) = true →
            Goes (.importImage c a) s fun t => t.ctl.cmdResult = 0 ∧ t.imagesOut = s.imagesOut.filter fun x => x.id != im.id))))

/-- R26 to R28, R35, R37, R41, R51, R54, R60, R145, R316, R331, R409: what happens to groups between their instructions: spills, returns from the park area,
releases at reconvergence points, completed instructions, groups drawn from bins, cycles, errors that strike. Rests on logs 42, 59, 60, 73, 92, 99, 101, the model's reading. -/
def Obligations.GroupsChangeBetweenInstructions : Prop :=
  ∀ (s : State) (team n l : Nat),
    (∀ x, findGroup s (.group team n) = some x →
      (Goes (.spillToBudget team n) s fun t => ∃ x', findGroup t (.group team n) = some x' ∧ ∀ r k, k < 32 → x'.val r k = x.val r k) ∧
      (x.away = false ∨ allStopped x = true → exec (.parkAreaReturn team n) s = .next s) ∧
      (∀ s1, x.away = true → allStopped x = false →
        s1 = makeRoom (groupTile s x) x.who s.groups.length (modGroup s x.who fun x => { x with away := false }) →
        exec (.parkAreaReturn team n) s = .next (if roomOk s1 (groupTile s x) = true then s1 else s) ∧
        ∃ x', findGroup s1 (.group team n) = some x' ∧ x'.away = false) ∧
      (pointOpen x l = false → exec (.reconvRelease team n l) s = .next s) ∧
      (pointOpen x l = true → Goes (.reconvRelease team n l) s fun t => ∃ x', findGroup t (.group team n) = some x' ∧ ∀ k, k < 32 → x'.lane k =
        if (x.lane k).st = .waiting ∧ ((x.lane k).at_ = .hard ∨ (x.lane k).at_ = .soft) ∧ (x.lane k).handler = (x.lane l).handler ∧ (x.lane k).pc = (x.lane l).pc
        then { x.lane k with st := .running, at_ := .none, pc := (x.lane k).pc + 4, tag := 0 } else x.lane k)) ∧
    (∀ w x, findGroup s w = some x → x.pend[l]? = none → Goes (.longLatencyComplete w l) s fun t => findGroup t w = some x) ∧
    (∀ w x, findGroup s w = some x → (teamOf s x.team).status ≠ .resident → Goes (.longLatencyComplete w l) s fun t => findGroup t w = some x) ∧
    (∀ w x p, findGroup s w = some x → x.pend[l]? = some p → (teamOf s x.team).status = .resident → Goes (.longLatencyComplete w l) s fun t => ∃ x', findGroup t w = some x' ∧
      x' = { x with fpflags := x.fpflags ||| p.flags, pend := x'.pend } ∧ (∀ q ∈ x'.pend, q.complete = true → ∃ k ∈ q.left, k ≠ 0) ∧
      ((∃ k ∈ p.left, k ≠ 0) → { p with complete := true, flags := 0, load := none } ∈ x'.pend) ∧
      ∀ j q, j ≠ l → x.pend[j]? = some q → q.complete = false → q ∈ x'.pend) ∧
    (∀ b, binAt s team n = some b → ∀ i, i ∈ [(Instr.reformDraw team n, drawDue s team b), (.binAgeExpiry team n, drawAged s team b)] →
      if drawFits s team b && i.2 then Goes i.1 s fun t => t.groups.length = s.groups.length + 1 ∧ (coreOf t team).bins =
        if (b.lanes.drop 32).isEmpty then dropNth (coreOf s team).bins n else setNth (coreOf s team).bins n { b with lanes := b.lanes.drop 32 }
      else exec i.1 s = .next s) ∧
    (Goes .quadrantCycle s fun t => t.cycle = s.cycle + 1 ∧
      ∃ d, d ≤ 1 ∧ t.timeFs = s.timeFs + 1000000000 / Nat.max 1 s.ctl.fclk.toNat + d) ∧
    (∀ pa u, quarryBase ≤ pa → pa < quarryEnd → errRingOk s = false →
      Goes (.uncorrectedError (.memory pa u)) s fun t => pa / 8 ∈ t.poison) ∧
    (∀ c o m, l < padSize (teamOf s team) → padSpot (teamOf s team) l 1 = .pad c o m →
      Goes (.uncorrectedError (.scratch team l)) s fun t => o / 8 ∈ (clusterOf t c).sramBad) ∧
    (∀ m u g hs, findGroup s (if n = 256 then .key team else .group team n) = some g → mayIssue s g = true → pathOf g (lowestLane m) &&& g.mask 0 ≠ 0 →
      hs = ((lanesOf (pathOf g (lowestLane m) &&& g.mask 0)).map fun l => { lane := l, cause := 0x15, unit := some u.toNat }) →
      (unitOk u.toNat = false → exec (.uncorrectedError (.group team n m u)) s = .next s) ∧
      (unitOk u.toNat = true → restartUnit u.toNat = false ∨ g.region = none →
        exec (.uncorrectedError (.group team n m u)) s = .next (parkAll s g.who 0 hs)) ∧
      ∀ r, unitOk u.toNat = true → restartUnit u.toNat = true → g.region = some r →
        if r.errs ≠ 0 then exec (.uncorrectedError (.group team n m u)) s = .next (parkAll (modGroup s g.who fun g =>
          { g with region := some { r with errs := r.errs + 1 } }) g.who 0 hs)
        else Goes (.uncorrectedError (.group team n m u)) s fun t => ∃ g', findGroup t g.who = some g' ∧
          Restarted g g' { r with gate := [], errs := 1, sig := 0, used := [], sent := 0 })

/-- R44 to R48, R162, R164, R342: taking an exception parks the lanes that met a cause, with their program counter, depth and code; a page cause files them
in the wait table of their core, which posts one record for a token, and other causes are delivered: the lanes enter the context's trap handler as one path in
handler mode with the record's address in the pair v0, and nothing else of the group changes (one cause, met outside handler mode; a record that is written;
no DEBUG launch). Rests on log 53, 90, the model's reading. -/
def Obligations.TakingAnExceptionEntersTheHandler : Prop :=
  ∀ (s s1 : State) (g : Group) (t0 : Team) (c : Context), t0 = teamOf s g.team → c = contextOf s t0.ctx → findGroup s g.who = some g → g.key = none →
    (∀ (pm m : W32) (cause : Nat) (code : BitVec 14), m ≠ 0 → cause < 256 → cause ∉ [0x10, 0x13, 0x15] →
      (∀ l, hasLane m l = true → (g.lane l).handler = false) →
      raise s g.who pm ((lanesOf m).map fun l => { lane := l, cause := cause, code := code }) = deliver (setGroup s
        { g.modLanes m (fun _ x => { x with st := .parked }) with subs := g.subs ++ [parkedSub g m pm cause code] }) g.who) ∧
    (∀ (pm m : W32) (cause n kind : Nat) (tok a : W64) (quarry room known : Bool) (tile : Nat) (e : WaitEntry) (s2 : State), m ≠ 0 →
      cause = (if quarry then 0x13 else 0x10) → (∀ l, hasLane m l = true → (g.lane l).handler = false) → tile = groupTile s g →
      e = { asid := c.asid, quarry := quarry, token := tok } → known = (coreOf s tile).waitTab.contains e → room = decide ((coreOf s tile).waitTab.length < 64) →
      s2 = (if known then s else { (if room then modCore s tile fun k => { k with waitTab := k.waitTab ++ [e] } else s) with
        faultQ := s.faultQ ++ [{ cause := BitVec.ofNat 8 cause, asid := c.asid, launch := t0.launch, team := BitVec.ofNat 32 t0.l, lanes := m, pcmask := pm
                                 token := tok, va := a, group := BitVec.ofNat 16 g.idx, who := BitVec.ofNat 32 tile
                                 access := BitVec.ofNat 32 (n + kind * 2 ^ 8 + if room then 2 ^ 11 else 2 ^ 12) }] }) →
      raise s g.who pm ((lanesOf m).map fun l => { lane := l, cause := cause, token := tok, addr := a, bytes := n, kind := kind }) = deliver (setGroup s2
        { g.modLanes m (fun _ x => { x with st := .parked }) with
          subs := g.subs ++ [{ parkedSub g m pm cause 0 with token := tok, tval := a, filed := known || room }] }) g.who) ∧
    (∀ u fl bs, bs = trapRecord s g u fl → bs.length = 576 ∧ fieldOf bs 0 4 = u.cause.toNat + u.code.toNat * 2 ^ 8 ∧ fieldOf bs 4 4 = u.pcmask.toNat ∧
      fieldOf bs 8 4 = u.lanes.toNat ∧
      fieldOf bs 0x0C 4 = (if g.region.isSome then 1 else 0) + (if t0.twin.isSome then 2 else 0) + (if isDebug s (teamLaunch s t0) then 4 else 0)
        + (if fl then 8 else 0) ∧
      fieldOf bs 0x10 8 = u.pc.toNat ∧ fieldOf bs 0x18 8 = (if u.cause = 0x40 ∨ u.cause = 0x41 then u.pc + 4 else u.pc).toNat ∧
      fieldOf bs 0x20 4 = g.winb % 2 ^ 32 ∧ fieldOf bs 0x24 4 = u.m0.toNat ∧ fieldOf bs 0x28 4 = u.depth % 2 ^ 32 ∧
      (∀ j, j < 4 → bits (fieldOf bs 0x2C 4) (2 * j) 2 = match (g.reg (winReg g g.winb j)).shape with | .u _ => 0 | .a _ _ => 1 | .g _ => 2) ∧
      bits (fieldOf bs 0x2C 4) 8 24 = 0 ∧ fieldOf bs 0x30 4 = (teamLaunch s t0).id.toNat ∧ fieldOf bs 0x34 4 = t0.l % 2 ^ 32 ∧
      fieldOf bs 0x38 8 = u.tval.toNat ∧
      ∀ j l, j < 4 → l < 32 → fieldOf bs (0x40 + 128 * j + 4 * l) 4 = if hasLane u.lanes l then (g.val (winReg g g.winb j) l).toNat else 0) ∧
    (∀ i u rec, dueSub g = some i → u = nth { lanes := 0, pcmask := 0, cause := 0 } g.subs i → c.trap ≠ 0 → rec = trapRecAddr s g →
      pinned s g (winReg g g.winb 0) = false → pinned s g (winReg g g.winb 1) = false →
      writeAt s (devEnv s t0.ctx false) rec (trapRecord s g u false) = (s1, .done) → isDebug s (teamLaunch s t0) = false →
      Goes (.trapDelivery g.team g.idx) s fun t => ∃ g', findGroup t g.who = some g' ∧
        g' = { g with
          lanes := g'.lanes, regs := g'.regs, nextStamp := g'.nextStamp, expands := g'.expands, spills := g'.spills, shaping := g'.shaping
          nextTag := g.nextTag + 1, subs := setNth g.subs i { u with delivered := true, winb := g.winb }
          pend := (completePending g u.lanes).pend, fpflags := g.pend.foldl (fun f p => f ||| p.flags) g.fpflags } ∧
        (∀ l, l < 32 → g'.lane l = if hasLane u.lanes l
          then { g.lane l with st := .running, pc := c.trap, handler := true, depth := u.depth, tag := g.nextTag, at_ := .none } else g.lane l) ∧
        (∀ l, hasLane u.lanes l = true → g'.val (g.winb + 0) l = BitVec.ofNat 32 rec ∧ g'.val (g.winb + 1) l = BitVec.ofNat 32 (rec / 2 ^ 32)) ∧
        (∀ r l, l < 32 → r ≠ g.winb + 0 → r ≠ g.winb + 1 → g'.val r l = g.val r l) ∧
        (∀ r l, hasLane g.live l = true → hasLane u.lanes l = false → g'.val r l = g.val r l))

/-- R10, R140, R149: an instruction with a check that fails for the whole word traps its lanes with the least cause each met and has no other effect; one
without an active lane that is no path instruction only goes on to the next word. -/
def Obligations.ChecksTrapBeforeAnyEffect : Prop :=
  ∀ (s : State) (i : Instr) (c : Ctx) (w : BitVec 32), issuer s = some c → encode i = some w →
    (c.act ≠ 0 ∨ (i.isPath = true ∧ c.path ≠ 0) → wordCauses c i ≠ [] → checkHits c i ≠ [] ∧ exec i s = .next (raise (noteScript c (uncur s)) c.g.who 0 (checkHits c i)) ∧
      ∀ h ∈ checkHits c i, ∀ x ∈ wordCauses c i, h.cause ≤ x) ∧
    (c.act = 0 → i.isPath = false → dueSub c.g = none → fileRoom s c.g i = true → Completes s s i c c.g.masks 0 (fun _ => c.pc + 4) []) ∧
    (c.g.key = none → i.isMatrix = true → wordCauses c i = [0x07]) ∧
    (c.g.key = none → (c.g.lane (lowestLane c.path)).handler = false → (∃ d, i = .tret d) ∨ i = .halt → 0x08 ∈ wordCauses c i)

/-- R77, R82 to R86, R228 to R234: a channel runs its oldest command when it is idle; words land in ascending order in memory or in the scratchpad, with a
compressed tile's table entries, the checksum, the write pointer and the muster's bytes; a whole or failed command completes with its stamp; a chain runs its
records; selk ranks its keys; hand-backs and status entries follow. Rests on logs 65, 104, 105, the model's reading. -/
def Obligations.CopyEngineRunsItsChannels : Prop :=
  ∀ (s : State) (c ch : Nat) (h : Chan), h = chanOf s c ch →
    (∀ k ks, h.cmds = k :: ks → chanIdle h = true →
      (k.kind = .copy ∨ k.kind = .gather → Goes (.copyExecute c ch) s fun t => (chanOf t c ch).cmds = ks ∧
        (chanOf t c ch).run = some { cmd := k, img := if (copyForm k.regs).xf = 2 then some [] else none }) ∧
      (k.kind = .select → ∀ f t0 at_ s1 x, f = selForm k.regs → t0 = teamOf s k.team → at_ = (fun i => f.keys + 4 * i) →
        readKeys s t0 (cmdSource c ch k) ((upto f.n).map at_) = (s1, x) → Goes (.selkExecute c ch) s fun t => (chanOf t c ch).cmds = ks ∧
        match x with
        | .ok l => (chanOf t c ch).run = some { cmd := k, img := some (selResults f l) } ∧ l.length = f.n ∧
            (s.past = [] → ∀ i b, i < f.n → padGet s t0 (at_ i) 4 = some b → nth 0 l i = ofBytes b)
        | .error a => (chanOf t c ch).run = some { cmd := k, img := some [], err := 0x15, errAt := a } ∧
            ∃ i, i < f.n ∧ a = at_ i ∧ padGet s t0 a 4 = none ∧ ∀ j, j < i → (padGet s t0 (at_ j) 4).isSome)) ∧
    (h.run = none → exec (.copyBytesLand c ch 4) s = .next s ∧ exec (.copyComplete c ch) s = .next s) ∧
    (∀ r m last t0 w pack s1 raw words bs s2 s3 s4 ends summed, h.run = some r → t0 = teamOf s r.cmd.team → w = cmdWriter c ch r.cmd →
      pack = (r.cmd.kind != .select && (copyForm r.cmd.regs).xf == 2) → r.ended = false → r.err = 0 → r.landed < runTotal r →
      m = wordBytes r (runTotal r) r.landed → landBytes s t0 c ch r r.landed m = (.ok s1 raw, words) → raw.length = m →
      bs = (if pack = true ∨ r.cmd.kind = .select then raw else padded r.cmd r.landed raw) →
      engPut s1 t0 w r.cmd.dstTile.isSome (destAt r r.landed) (destCells r r.landed bs) = .ok s2 [] →
      ends = (if pack = true then blocksEnding r r.landed m else []) →
      s3 = ends.foldl (fun s x => match r.cmd.dstTile with
        | some (_, y) =>
          let at_ := Config.aperture + y.offt * 128 + 4 * x.1
          let s1 := padPut s t0 w at_ (toBytes 4 x.2.entry)
          if x.1 % 2 = 1 then healWord s1 t0 (at_ - 4) else s1
        | none => s) s2 →
      last = destAt r (r.landed + m - 1) + 1 → s4 = (if endsWhole r (r.landed + m) = true then healWord s3 t0 (last - 8) else s3) →
      summed = (if pack = true then ends.flatMap fun x => ((r.img.getD []).drop (1024 * x.1)).take 1024 else bs) →
      ∃ u, exec (.copyBytesLand c ch m) s = .next (if summed = [] ∨ musOf r.cmd = 0 then u
          else updateMuster u r.cmd.team (musOf r.cmd) 0 0 (BitVec.ofNat 32 summed.length) (cmdWrites u c ch r.cmd)) ∧
        u.mem = s2.mem ∧ u.poison = s4.poison ∧
        (∀ k, (clusterOf u k).sram = (clusterOf s3 k).sram ∧ (clusterOf u k).sramBad = (clusterOf s4 k).sramBad) ∧
        (chanOf u c ch).run = some { r with landed := r.landed + m, crc := crc32c r.crc summed, words := words } ∧
        ((findTeam s r.cmd.team).isSome → (h.cmds.any fun k => k.team == r.cmd.team) = false →
          (countOf (teamOf u r.cmd.team) ch).wptr = BitVec.ofNat 64 last) ∧
        1 ≤ m ∧ m ≤ 4 ∧ (∀ i, i < m → destAt r (r.landed + i) / 4 = destAt r r.landed / 4) ∧
        (m = 4 ∨ r.landed + m = runTotal r ∨ destAt r (r.landed + m) / 4 ≠ destAt r r.landed / 4)) ∧
    (∀ r k t0 s1, h.run = some r → h.chain = none → k = r.cmd → findTeam s k.team = some t0 → t0.status ≠ .ended → teamAlive s k.team = true →
      r.ended = true ∨ (runTotal r ≤ r.landed ∧ r.err = 0 ∧ (k.kind = .select ∨ (copyForm k.regs).xf ≠ 2 ∨
        imageSize k ≤ (r.img.getD []).length ∧ (r.img.getD []).length ≤ (runBlocks r).length * 1024)) →
      (if k.seq = 0 then Eng.ok s []
        else engWrite s t0 { cmdWriter c ch k with grain := 8, rel := [stampRel s t0 c ch k] } (stampAt k) (toBytes 8 (k.seq % 2 ^ 56 + r.err.toNat * 2 ^ 56))) = .ok s1 [] →
      Goes (.copyComplete c ch) s fun t => (chanOf t c ch).run = none ∧ (chanOf t c ch).cmds = h.cmds ∧ t.mem = s1.mem ∧
        (chanOf t c ch).post = h.post ++ (if wantsStatus k then
          [{ team := k.team, op := k.opId, queue := ch / 2, entry := statusEntry ch k.cnum r.err, view := cmdWrites s1 c ch k }] else []) ∧
        ((∀ o ∈ t0.ops, o.id = k.opId → o.tiles = []) → ((teamOf t k.team).ops.any fun o => o.id == k.opId) = false) ∧
        (k.kind ≠ .select → (copyForm k.regs).csum = true → (countOf (teamOf t k.team) ch).crcs.head? = some (k.sum, ~~~r.crc))) ∧
    (∀ x s0 l s1 b v t0, h.run = none → h.post = [] → h.chain = some x → t0 = teamOf s x.cmd.team → lookAt s (engEnv s t0) .read x.p.toNat 64 = (s0, .hit l) →
      readRecord (touchSpots s0 (engEnv s t0) .read l) (cmdAgent c ch x.cmd) x.cmd.view l = (s1, b, v) →
      (fieldOf b 0x28 4 % 2 = 0 → Goes (.cpycRecordFetch c ch) s fun t => (chanOf t c ch).chain = none ∧ (chanOf t c ch).run = none) ∧
      (∀ f, f = copyForm (recordRegs b) → fieldOf b 0x28 4 % 2 = 1 → recordReserved b = false →
        copyCause t0 (queueBound s1 t0 (ch / 2)) none f = 0 →
        Goes (.cpycRecordFetch c ch) s fun t => (∃ r, (chanOf t c ch).run = some r ∧ r.cmd.regs = recordRegs b ∧ r.landed = 0 ∧
            r.cmd.srcTile = sideTile t0 f.src ∧ r.cmd.dstTile = sideTile t0 f.dst ∧ r.cmd.view = v) ∧
          (chanOf t c ch).chain = some { x with next := BitVec.ofNat 64 (fieldOf b 0x20 8), cmd := { x.cmd with view := v } })) ∧
    (∀ team i, match dueHandBack i (teamOf s team).ops with
      | none => exec (.handBack team i) s = .next s
      | some o => Goes (.handBack team i) s fun t =>
          tileOf (teamOf t team) i = { tileOf (teamOf s team) i with own := false, status := o.status, pend := false }) ∧
    (∀ p ps, h.post = p :: ps → (findTeam s p.team).isSome →
      if (teamOf s p.team).ops.any (fun o => o.id == p.op) || 16 ≤ (queueOf (teamOf s p.team) p.queue).length then exec (.statusEntryPost c ch) s = .next s
      else Goes (.statusEntryPost c ch) s fun t => (chanOf t c ch).post = ps ∧
        queueOf (teamOf t p.team) p.queue = queueOf (teamOf s p.team) p.queue ++ [p.entry])

/-- R123, R249, R251, R253 to R258, R260, R262 to R264: in its turn the head of a keystone context's queue clears, loads, multiplies into, drains or scales its
accumulator tile, and leaves the queue with its last turn. Rests on logs 48, 65, 66, 106, 107, the model's reading. -/
def Obligations.MatrixUnitServesItsQueues : Prop :=
  ∀ (s : State) (k : Nat) (g : Group) (key : KeyCtx) (e : MEntry), findGroup s (.key k) = some g → g.key = some key → readyHead s g = some e →
    hasTurn s (teamOf s k).cluster key.hw = true → 3 ∉ s.refused →
    (∀ m, e.op = .zero m → Goes (.mzeroExecute k) s fun t => ∃ y, keyOf t k = some y ∧ y.mq = key.mq.drop 1 ∧ y.mstat = key.mstat ∧
      ∀ i, mget 0 y.acc i = if bits m (i / 32768) 1 = 1 then 0 else mget 0 key.acc i) ∧
    (∀ n a s1 bs, e.op = .load n a → inAperture a.toNat 1 = true →
      padReadLate (served s (teamOf s k).cluster key.hw) (teamOf s k) (loadSource k e false) a.toNat accBytes = .ok s1 bs → Goes (.mldaExecute k) s fun t =>
      ∃ y, keyOf t k = some y ∧ y.mq = key.mq.drop 1 ∧ y.acc = (loadAcc key n bs).acc) ∧
    (∀ n a s0 env, e.op = .load n a → inAperture a.toNat 1 = false → s0 = served s (teamOf s k).cluster key.hw →
      env = { laneEnv s0 g 0 with walker := .cmu (teamOf s k).cluster, cached := false, agent := none, gate := [] } →
      (∀ s1 l s2 bs, lookAt s0 env .read a.toNat accBytes = (s1, .hit l) → loadSpots (touchSpots s1 env .read l) k e l = (s2, bs) →
        Goes (.mldaExecute k) s fun t => ∃ y, keyOf t k = some y ∧ y.mq = key.mq.drop 1 ∧ y.acc = (loadAcc key n bs).acc) ∧
      (∀ s1 tok, lookAt s0 env .read a.toNat accBytes = (s1, .stop 0x10 tok) → Goes (.mldaExecute k) s fun t =>
        (∃ y, keyOf t k = some y ∧ y.mq = { e with parked := some tok } :: key.mq.drop 1 ∧ y.acc = key.acc) ∧
        ∃ f, t.faultQ = s1.faultQ ++ [f] ∧ f.cause = 0x10 ∧ f.token = tok ∧ f.va = BitVec.ofNat 64 (Nat.max a.toNat tok.toNat) ∧ f.group = 0xFFFF)) ∧
    (∀ n tile k0 kk fn qs, e.op = .mma n tile k0 kk fn qs →
      (e.turns + 1 < mmaTurns fn kk → Goes (.mmaExecute k) s fun t =>
        ∃ y, keyOf t k = some y ∧ y.mq = { e with turns := e.turns + 1 } :: key.mq.drop 1 ∧ y.acc = key.acc) ∧
      (∀ byte x kt, mmaTurns fn kk ≤ e.turns + 1 → fourCores s k qs = true → x = tileOf (teamOf s k) tile → kt = (tileColumns x).getD 0 →
        readA s (teamOf s k) x kt k0 kk = .ok byte → Goes (.mmaExecute k) s fun t => ∃ y, keyOf t k = some y ∧ y.mq = key.mq.drop 1 ∧
          ∀ i j, i < 128 → j < 256 → mget 0 y.acc (32768 * n + 256 * i + j) = BitVec.ofNat 32 (mmaElem (aElem x.fmt kt (tileExpanded x) byte i)
            (fun r => bElem fn kk (nth { hold := { g := 0, first := 0, len := 0 }, vals := [] } qs (j / 64)) r (j % 64)) k0 kk
            (mget 0 key.acc (32768 * n + 256 * i + j)).toNat).1)) ∧
    (∀ a zero tile off fn rm sat, e.op = .drain a zero tile off fn rm sat → Goes (.mdrainExecute k) s fun t => ∃ m y, 0 < m ∧ keyOf t k = some y ∧
      (∀ cl, (clusterOf t cl).sram = (clusterOf (drainWords s (teamOf s k) key.acc a (Config.aperture + tileStart (tileOf (teamOf s k) tile) + off) fn rm sat
        e.turns m).1 cl).sram) ∧
      if e.turns + m < 8192 * (drainForm fn).2 then y.mq = { e with turns := e.turns + m } :: key.mq.drop 1 ∧ y.acc = key.acc
      else y.mq = key.mq.drop 1 ∧ ∀ i, mget 0 y.acc i = if zero = true ∧ i / 32768 = a then 0 else mget 0 key.acc i) ∧
    (∀ a tile off bs, e.op = .scale a tile off → padGet s (teamOf s k) (Config.aperture + tileStart (tileOf (teamOf s k) tile) + off) 512 = some bs →
      Goes (.mscaleExecute k) s fun t => ∃ y, keyOf t k = some y ∧ y.mq = key.mq.drop 1 ∧ ∀ i, i < 32768 →
        mget 0 y.acc (32768 * a + i) = BitVec.ofNat 32 (scaleElem (mget 0 key.acc (32768 * a + i)).toNat (nth 0 (numsOf 128 bs) (i / 256))).1)

/-- R47, R89, R351 to R355: an append of a resident team without a twin is read, written behind the log's end, which its course holds and the log's CUR and NSEQ
follow, and answered in queue 12 with its sequence number; a sealed course becomes readable and is answered; a wake token and a restart of the storage processor
end stalls. Rests on log 25, 68, the model's reading. -/
def Obligations.MasonAnswersInQueueTwelve : Prop :=
  ∀ (s : State), (∀ (k i : Nat) (t0 : Team), findTeam s k = some t0 → t0.status = .resident → t0.twin = none → teamAlive s k = true →
    (s.saved.any fun x => x.key == k) = false → (queueOf t0 12).length < 16 → 2 ∉ s.refused →
    (∀ va, posOf (fun (x : Nat × W64) => x.1 == k) s.masonQ = some i → va = (nth (0, 0) s.masonQ i).2 →
      (va.toNat % 32 ≠ 0 → Goes (.masonAppend k) s fun t => t.masonQ = dropNth s.masonQ i ∧
        ∃ seq, queueOf (teamOf t k) 12 = queueOf t0 12 ++ [masonResult false 4 0 seq]) ∧
      (∀ s1 b a l off s2 bs s3 tab, va.toNat % 32 = 0 → readAt s (masonEnv s t0) .read va.toNat 32 = (s1, .ok b) → a = appendOf b → a.reserved = false → 1 ≤ a.len →
        a.len ≤ 1048576 → logOf s1 t0.ctx a.log = some l → off = (if a.align then roundUp l.cur 4096 else l.cur) → off + a.len ≤ l.size →
        readLines s1 (masonEnv s1 t0) (linesOf a.src a.len) = (s2, .ok bs) → writePos s2 t0 va.toNat off = (s3, .done) →
        tab = (mget 0 s3.ctl.logtb t0.ctx).toNat + 32 * a.log →
        Goes (.masonAppend k) s fun t => t.masonQ = dropNth s.masonQ i ∧ queueOf (teamOf t k) 12 = queueOf t0 12 ++ [masonResult false 0 a.log l.seq] ∧
          (∃ x ∈ t.courses, x.team = k ∧ x.log = a.log ∧ x.seq = l.seq ∧ x.sealed = a.sealAfter ∧
            x.parts.getLast? = some (l.base + l.cur, zeros (off - l.cur) ++ bs)) ∧
          t.mem = (physPut (physPut s3 (tab + 0x10) 8 (off + a.len)) (tab + 0x18) 8 ((l.seq + 1) % 2 ^ 48)).mem)) ∧
    (∀ n c, posOf (fun (c : Course) => c.team == k && c.log == n && c.sealed) s.courses = some i → s.courses[i]? = some c → Goes (.masonSeal k n) s fun t =>
      t.courses = dropNth s.courses i ∧ t.mem = (landCourse s c).mem ∧ queueOf (teamOf t k) 12 = queueOf t0 12 ++ [masonResult true 0 n c.seq])) ∧
    (∀ tok, Goes (.quarryWakeTokenPost tok) s fun t => t.stalls = s.stalls.filter fun x => x.2 != tok) ∧
    (Goes .storageProcessorRestart s fun t => t.stalls = [] ∧ t.spRestarts = s.spRestarts + 1)

/-- R102, R237 to R239, R358, R372, R373, R378 to R380: packets leave on live paths, are acknowledged, sent again or abandoned with a fault record; ports and
paths go and come back; an inbound packet is refused outside the inbound ranges, a put is written, a pennant applied once what came before it has come;
status notices leave, are acknowledged and sent again, and are kept. Rests on logs 1, 12, 94, 98, 108, 109, the model's reading. -/
def Obligations.FabricDeliversAndReports : Prop :=
  ∀ (s : State) (n port en : Nat),
    (∀ op, fabOp s n = some op → ((port, en) ∈ sendPaths s op → pathLive s op.dest port en = true) ∧
      ((port, en) ∉ sendPaths s op ∨ oldestToSend s op.team op.dest ≠ some n ∨ streamRoom s op = false → exec (.fabricPacketSend n port en) s = .next s) ∧
      ((port, en) ∈ sendPaths s op → oldestToSend s op.team op.dest = some n → streamRoom s op = true →
        ∀ s1 k data bad rest, (∃ v, op.pennant = some v ∧ s1 = s ∧ k = 1 ∧ data = [] ∧ bad = [] ∧ rest = op.ahead) ∨
            (∃ a e b bs, op.pennant = none ∧ k = (if op.len - op.sent ≤ 4096 then op.len - op.sent else 4096 - (op.va.toNat + op.sent) % 8) ∧
              a = op.src.toNat + op.sent + op.ahead.length ∧ e = Nat.min (op.src.toNat + op.len) (roundUp (op.src.toNat + op.sent + k) 4) ∧
              readSource s (devEnv s (teamOf s op.team).ctx true .fabric) { agent := .device, at_ := op.at_, view := op.view }
                (cutWords (e - a) a (e - a)) = .ok s1 b ∧ bs = op.ahead ++ b ∧ data = (bs.take k).map (·.1) ∧ rest = bs.drop k ∧
              bad = badWords (remotePa s (op.rpa + op.sent)) (bs.take k)) →
          ∀ p, p = packetOf s1 op n (port, en) data bad → Goes (.fabricPacketSend n port en) s fun t =>
            fabOp t n = some { op with ahead := rest, sent := op.sent + k, last := some (port, en) } ∧
            (streamOf t op.team op.dest).puts = p.puts + (if op.pennant.isSome then 0 else 1) ∧ t.pkts = s1.pkts ++ [p] ∧
            (streamOf t op.team op.dest).id = p.stream ∧ (streamOf t op.team op.dest).next = p.seq + 1 ∧
            t.out = .packet p.stream p.seq p.dest p.rpa p.data p.bad p.pennant p.puts :: s1.out)) ∧
    (∀ p op, outPkt s n = some p → fabOp s p.op = some op →
      (Goes (.fabricAckReceive n) s fun t => t.pkts = (s.pkts.filter fun x => x.no != n) ∧
        fabOp t p.op = if (if op.pennant.isSome then 1 else op.len) ≤ op.acked + (if p.pennant.isSome then 1 else p.data.length) then none
          else some { op with acked := op.acked + (if p.pennant.isSome then 1 else p.data.length) }) ∧
      (∀ i, i = Instr.fabricNackReceive n ∨ (i = .fabricRtoExpiry n port en ∧ p.sentAt + rtoFs s ≤ s.timeFs ∧ retryLimit s ≤ p.resends) → Goes i s fun t =>
        fabOp t p.op = none ∧ ∃ f, t.faultQ = s.faultQ ++ [f] ∧ f.cause = 0x16 ∧ f.va = op.va ∧ f.token = op.dest.setWidth 64) ∧
      (∀ s1, s1 = (if portUp s p.port then missPath s p.dest p.port p.entropy else s) → p.sentAt + rtoFs s ≤ s.timeFs → p.resends < retryLimit s →
        ((port, en) ∈ resendPaths s1 p → ∀ q, q = { p with port := port, entropy := en, resends := p.resends + 1, sentAt := s.timeFs } →
          Goes (.fabricRtoExpiry n port en) s fun t => t.paths = s1.paths ∧ t.pkts = mapWhere (fun x => x.no == p.no) (fun _ => q) s.pkts ∧
            t.out = .packet p.stream p.seq p.dest p.rpa p.data p.bad p.pennant p.puts :: s.out) ∧
        (livePaths s1 p.dest ≠ [] → Goes (.fabricRtoExpiry n port en) s fun t => ∃ q ∈ t.pkts, q.no = p.no ∧ q.resends = p.resends + 1 ∧
          pathLive s1 p.dest q.port q.entropy = true) ∧
        (livePaths s1 p.dest = [] → Goes (.fabricRtoExpiry n port en) s fun t => t.out = s.out ∧
          t.pkts = mapWhere (fun x => x.no == p.no) (fun x => { x with sentAt := s.timeFs }) s.pkts)) ∧
      (s.timeFs < p.sentAt + rtoFs s → exec (.fabricRtoExpiry n port en) s = .next s)) ∧
    (∀ m v, n < 16 → v = (mget 0 s.ctl.fport n).toNat →
      (bits v 1 1 = 0 → exec (.portLinkDown n m en) s = .next s) ∧
      (bits v 1 1 = 1 → Goes (.portLinkDown n m en) s fun t => t.paths = (s.paths.filter fun p => p.port != n) ∧
        (∀ p, (s.pkts.filter fun p => p.port == n) = [p] → livePaths t p.dest ≠ [] → ∃ q ∈ t.pkts, pathLive t p.dest q.port q.entropy = true ∧
          q = { p with port := q.port, entropy := q.entropy, resends := p.resends + 1, sentAt := s.timeFs }) ∧
        mget 0 t.ctl.fport n = BitVec.ofNat 64 (Nat.min 0xFFFFFFFF (v / 2 ^ 32 + 1) * 2 ^ 32 + v % 2 ^ 32 - 2)) ∧
      (bits v 0 1 = 1 → Goes (.portLinkUp n) s fun t => mget 0 t.ctl.fport n = mget 0 s.ctl.fport n ||| 2) ∧
      (bits v 0 1 = 0 → exec (.portLinkUp n) s = .next s)) ∧
    (∀ d r acked, pathRec s d port en = some r → r.dead = true → portUp s port = true → r.diedAt + 1000000000000 ≤ s.timeFs →
      Goes (.pathProbeTimer d port en acked) s fun t => t.out = .probe d port en :: s.out ∧
        pathRec t d port en = if acked then none else some { r with diedAt := s.timeFs }) ∧
    (∀ p st, st = inStream (portTraffic s) p.src p.stream →
      (∀ m, m = (if p.pennant.isSome then 8 else p.data.length) → inboundOk s p.src p.pa m = false →
        exec (.fabricPacketReceive p) s = .next { portTraffic s with out := .nack p.src p.stream p.seq :: (portTraffic s).out }) ∧
      ((st.held.any fun q => q.seq == p.seq) = false → p.seq ∈ st.seen → inboundOk s p.src p.pa (if p.pennant.isSome then 8 else p.data.length) = true →
        exec (.fabricPacketReceive p) s = .next { portTraffic s with out := .ack p.src p.stream p.seq :: (portTraffic s).out }) ∧
      ((st.held.any fun q => q.seq == p.seq) = false → p.seq ∉ st.seen → p.pennant = none → inboundOk s p.src p.pa p.data.length = true →
        Goes (.fabricPacketReceive p) s fun t => physRead t p.pa p.data.length = p.data ∧ p.seq ∈ (inStream t p.src p.stream).seen ∧
          p.seq ∈ (inStream t p.src p.stream).written)) ∧
    (∀ x p v, (heldPennants s)[n]? = some (x, p) → p.pennant = some v →
      if p.puts ≤ (x.written.filter fun q => decide (q < p.seq)).length then Goes (.pennantApply n) s fun t => physNum t p.pa 8 = Nat.max (physNum s p.pa 8) v.toNat
      else exec (.pennantApply n) s = .next s) ∧
    (∀ v, Goes (.selfstWrite v) s fun t => t.ctl.selfst = v &&& 3 ∧ t.mem = s.mem ∧
      (v &&& 3 ≠ s.ctl.selfst &&& 3 → t.noticeSeq = s.noticeSeq + 1 ∧
        t.noticesOut = s.noticesOut ++ (namedPeers s).map (fun e => (e, s.noticeSeq + 1, v.setWidth 2, s.timeFs)) ∧
        t.out = (namedPeers s).map (fun e => .notice e (s.noticeSeq + 1) (v.setWidth 2)) ++ s.out)) ∧
    (∀ due : BitVec 20 × BitVec 8 × BitVec 2 × Nat → Bool, due = (fun x => decide (x.2.2.2 + rtoFs s ≤ s.timeFs)) → Goes (.statusNoticeResend []) s fun t =>
      t.noticesOut = s.noticesOut.map (fun x => if due x then (x.1, x.2.1, x.2.2.1, s.timeFs) else x) ∧
      t.out = (s.noticesOut.filter due).map (fun x => .notice x.1 x.2.1 x.2.2.1) ++ s.out) ∧
    (∀ e x, (s.noticesOut.filter fun y => y.1 == e) = [x] → Goes (.statusNoticeResend [e]) s fun t => (∀ y ∈ t.noticesOut, y.1 ≠ e) ∧
      ∀ y ∈ s.noticesOut, y.1 ≠ e → ∃ z ∈ t.noticesOut, z.1 = y.1 ∧ z.2.1 = y.2.1 ∧ z.2.2.1 = y.2.2.1) ∧
    (∀ e sq st at_ old d, at_ = s.ctl.pstb.toNat + 8 * e.toNat → old = physNum s at_ 8 → d = (sq - BitVec.ofNat 8 (old / 2 ^ 8)).toNat →
      Goes (.statusNoticeReceive e sq st) s fun t => t.out = .noticeAck e sq :: s.out ∧
        if s.ctl.pstb ≠ 0 ∧ 1 ≤ d ∧ d ≤ 127 then physNum t at_ 8 % 4 = st.toNat ∧ physNum t at_ 8 / 2 ^ 8 % 2 ^ 8 = sq.toNat ∧
          physNum t at_ 8 / 2 ^ 16 = if (old % 4 = 1 ∨ old % 4 = 2) ∧ old % 4 ≠ st.toNat then timeNs s / 1000 % 2 ^ 48 else old / 2 ^ 16
        else t.mem = s.mem)

/-- R47, R335, R339 to R351, R356, R357, R360, R381, R382: the memory commands, with the sub-groups that a replay wakes, the zero engine, the bytes of the fault
ring and of the notification queue, the extents, and the accesses of host cores and of peers. Rests on log 70, 71, the model's reading. -/
def Obligations.MemoryEventsKeepTheirTables : Prop :=
  ∀ (s : State) (a b : Nat), a = s.ctl.marg0.toNat → b = s.ctl.marg1.toNat →
    (s.ctl.mcmdBusy = true → ∀ i ∈ [Instr.inval, .replay, .swap, .swapfree, .mapout, .mapend, .extrel, .qtrim], exec i s = .next s) ∧
    (s.ctl.mcmdBusy = false →
      (∀ r, r = rangeArgs s → a % 4096 = 0 → bits b 18 2 = 0 → b < 2 ^ 48 → Goes .inval s fun t =>
        t.tlb = (s.tlb.filter fun e => e.tlb == .own .host || !r.dropsLeaf e) ∧ t.ptrs = (s.ptrs.filter fun p => p.walker == .host || !r.dropsPtr p) ∧
        t.mem = s.mem ∧ if peersHold s = true ∨ rangeBusy s r = true
          then t.inval = some { r with peers := peersHold s } ∧ t.ctl.mcmdBusy = true else t.inval = none ∧ t.ctl.mcmdBusy = false ∧ t.ctl.mcmdResult = 0) ∧
      (bits b 18 1 = 1 ∨ a % 4096 = 0 → bits b 19 1 = 0 → b < 2 ^ 48 → Goes .replay s fun t => t.ctl.mcmdResult = 0 ∧ t.ctl.mcmdBusy = false ∧ t.mem = s.mem ∧
        (∀ k, k < nTiles → ∀ e, e ∈ (coreOf t k).waitTab ↔ e ∈ (coreOf s k).waitTab ∧ replayNames s e.asid e.quarry e.token = false) ∧
        ∀ g asid, findGroup s g.who = some g → groupTile s g < nTiles → asid = (contextOf s (teamOf s g.team).ctx).asid →
          ∃ h, findGroup t g.who = some h ∧
            (∀ u ∈ h.subs, u.late = true → u.delivered = false → replayNames s asid (u.cause == 0x13) u.token = false) ∧
            (g.dbgHalt = false → ∀ u ∈ g.subs, u.late = true → u.delivered = false → replayNames s asid (u.cause == 0x13) u.token = true →
              ∀ l, l < 32 → hasLane u.lanes l = true → (h.lane l).st = .running ∧ (h.lane l).pc = (g.lane l).pc)) ∧
      (∀ n w, w = Swap.mk a (b / 128 * 128) 1 (bits b 6 1 == 1) false [] → n = swapBytes w → (mget {} s.swaps (b % 64)).state = 0 → a + n ≤ nearEnd →
        farBase ≤ w.y → w.y + n ≤ farEnd → a % n = 0 → w.y % n = 0 → inSwap s a n = false → inSwap s w.y n = false →
        exec .swap s = .next (mcmdDone { s with swaps := mput {} s.swaps (b % 64) w } 0)) ∧
      (a < 64 → b = 0 → exec .swapfree s = .next (if (mget {} s.swaps a).state = 1 then mcmdDone s 2
        else mcmdDone { s with swaps := mput {} s.swaps a {} } 0)) ∧
      (∀ k f st h, k = a % 16 → f = bits a 8 4 → st = mget ({} : Stack) s.nearStacks k → h = st.slots - 1 → k < 12 → a < 2 ^ 12 → bits a 4 4 = 0 → b = 0 →
        st.alias_ = none → s.ck.busy = false → holdsVault k f = false → holdsVault k h = false → Goes .mapout s fun t =>
          if f < h then t.mapout = some (k, f) ∧ t.ctl.mcmdBusy = true ∧ t.mem = s.mem ∧ t.nearStacks = s.nearStacks ∧
            t.noticeQ = s.noticeQ ++ [{ kind := 3, arg := BitVec.ofNat 32 k, pa := BitVec.ofNat 64 (slotBase k h) }]
          else if f = h ∧ f < st.slots then mget ({} : Stack) t.nearStacks k = { st with slots := h } ∧ t.ctl.mcmdResult = 0 ∧ t.ctl.mcmdBusy = false
          else t.ctl.mcmdResult = 1) ∧
      (a < 12 → b = 0 → Goes .mapend s fun t => (mget ({} : Stack) t.nearStacks a).alias_ = none ∧ t.ctl.mcmdResult = 0 ∧ t.mem = s.mem) ∧
      (∀ x, x = mget ({} : Extent) s.extents a → a < 256 → b = 0 → (x.state = 1 ∨ x.state = 2) → Goes .extrel s fun t =>
        mget ({} : Extent) t.extents a = { x with state := 3 } ∧ t.ctl.mcmdBusy = true ∧ t.noticeQ = s.noticeQ) ∧
      (a % 4096 = 0 → b % 4096 = 0 → quarryBase ≤ a → a + b ≤ quarryEnd → Goes .qtrim s fun t => t.ctl.mcmdResult = 0 ∧
        ∀ n, mget 0 t.mem n = if a ≤ n ∧ n < a + b then 0 else mget 0 s.mem n)) ∧
    (∀ r, s.inval = some r → Goes .atsInvalidationCompletion s fun t => if rangeBusy s r = true
      then t.inval = some { r with peers := false } else t.inval = none ∧ t.ctl.mcmdResult = 0 ∧ t.ctl.mcmdBusy = false) ∧
    (∀ i x, s.extents = [(i, x)] → x.state = 3 → s.groups = [] → s.teams = [] → Goes .quadrantCycle s fun t => mget ({} : Extent) t.extents i = {} ∧
      t.noticeQ = s.noticeQ ++ [{ kind := 6, arg := BitVec.ofNat 32 i, pa := BitVec.ofNat 64 x.base }] ∧ .extentRelease i ∈ t.out) ∧
    (∀ i j w, w = mget ({} : Swap) s.swaps i → w.state = 1 → j < swapBytes w / 128 → j ∉ w.prog →
      overlap (routeAlias s (w.x + 128 * j)) 128 (routeAlias s (w.y + 128 * j)) 128 = false → Goes (.swapLineExchange i j) s fun t =>
        physRead t (w.x + 128 * j) 128 = physRead s (w.y + 128 * j) 128 ∧ physRead t (w.y + 128 * j) 128 = physRead s (w.x + 128 * j) 128 ∧
        (mget {} t.swaps i).prog = j :: w.prog) ∧
    (∀ i port base len, i < 256 → port < 2 → (mget ({} : Extent) s.extents i).state = 0 → (mget 0 s.ctl.pxTrained port).toNat % 4 = 2 →
      attachedBase + port * 2 ^ 48 ≤ base.toNat → base.toNat + len.toNat ≤ attachedBase + port * 2 ^ 48 + 2 ^ 48 → Goes (.extentAdd i port base len) s fun t =>
        mget ({} : Extent) t.extents i = { base := base.toNat, len := len.toNat, state := 1, port := port } ∧
        t.noticeQ = s.noticeQ ++ [{ kind := 4, arg := BitVec.ofNat 32 i, pa := base }]) ∧
    (∀ i x, x = mget ({} : Extent) s.extents i →
      (x.state = 1 → Goes (.extentReleaseRequest i) s fun t => mget ({} : Extent) t.extents i = { x with state := 2 } ∧
        t.noticeQ = s.noticeQ ++ [{ kind := 5, arg := BitVec.ofNat 32 i, pa := BitVec.ofNat 64 x.base }]) ∧
      (x.state ≠ 0 → ∀ l, Goes (.extentSurpriseRemoval i l) s fun t => mget ({} : Extent) t.extents i = { x with state := 0 } ∧
        (x.state = 3 → t.ctl.mcmdBusy = false ∧ t.ctl.mcmdResult = 0) ∧
        (errRingOk s = false → ∀ j k, j ∈ l → 128 * j < x.len → x.base / 128 + j ∈ s.dirty → k < 16 →
          routeAlias s (x.base + 128 * j + 8 * k) / 8 ∈ t.poison) ∧
        t.noticeQ = s.noticeQ ++ [{ kind := 6, err := true, arg := BitVec.ofNat 32 i, pa := BitVec.ofNat 64 x.base }])) ∧
    (∀ i z, s.zeroing[i]? = some z → Goes (.zeroEngineDone i) s fun t => t.zeroing = dropNth s.zeroing i ∧
      (s.blocks = [] → s.bumps = [] →
        (bits (physNum s z.leaf 8) 13 1 = 0 → ∀ n, routeAlias s z.frame ≤ n → n < routeAlias s z.frame + z.bytes → n ≠ routeAlias s (z.leaf + 1) →
          mget 0 t.mem n = 0) ∧
        (bits (physNum s z.leaf 8) 13 1 = 1 →
          (∀ k w j p q, (k, w) ∈ s.swaps → w.state ≠ 0 → j ∈ w.prog → (p, q) ∈ [(w.x, w.y), (w.y, w.x)] → z.frame ≤ p + 128 * j →
            p + 128 * j < z.frame + z.bytes → ∀ n, n < 128 → routeAlias s (q + 128 * j) + n ≠ routeAlias s (z.leaf + 1) →
            mget 0 t.mem (routeAlias s (q + 128 * j) + n) = 0) ∧
          ∀ n, routeAlias s z.frame ≤ n → n < routeAlias s z.frame + z.bytes → n ≠ routeAlias s (z.leaf + 1) →
            (∀ k w j p, (k, w) ∈ s.swaps → w.state ≠ 0 → j ∈ w.prog → p ∈ [w.x, w.y] → z.frame ≤ p + 128 * j → p + 128 * j < z.frame + z.bytes →
              n / 128 ≠ routeAlias s (p + 128 * j) / 128) → mget 0 t.mem n = 0))) ∧
    (∀ f fs, s.faultQ = f :: fs → faultRoom s = true → Goes .faultRecordWrite s fun t => t.faultQ = fs ∧ t.ctl.fltt = s.ctl.fltt + 1 ∧
      ∃ bs, t.mem = (physWrite s (s.ctl.fltb.toNat + 64 * (s.ctl.fltt.toNat % 2 ^ (s.ctl.fltc.toNat % 32))) bs).mem ∧ bs.length = 64 ∧
        fieldOf bs 0 4 = f.cause.toNat ∧ fieldOf bs 4 4 = f.access.toNat ∧ fieldOf bs 8 4 = f.who.toNat ∧ fieldOf bs 0x0C 2 = f.group.toNat ∧
        fieldOf bs 0x0E 2 = f.asid.toNat ∧ fieldOf bs 0x10 4 = f.launch.toNat ∧ fieldOf bs 0x14 4 = f.team.toNat ∧ fieldOf bs 0x18 4 = f.lanes.toNat ∧
        fieldOf bs 0x1C 4 = f.pcmask.toNat ∧ fieldOf bs 0x20 8 = f.token.toNat ∧ fieldOf bs 0x28 8 = f.va.toNat ∧ fieldOf bs 0x30 16 = 0) ∧
    (∀ n ns, s.noticeQ = n :: ns → nqFree s = true → n.kind < 2 ^ 8 → ∃ bs s1,
      s1 = physPut (physWrite s (s.ctl.nqb.toNat + 64 + 32 * ((nqTail s).toNat % 2 ^ (s.ctl.nqc.toNat % 16))) bs) s.ctl.nqb.toNat 4 (nqTail s + 1).toNat ∧
      bs.length = 32 ∧ fieldOf bs 0 4 = n.kind + (if n.err then 2 ^ 9 else 0) ∧ fieldOf bs 4 6 = 0 ∧ fieldOf bs 0x0A 2 = n.asid.toNat ∧
      fieldOf bs 0x0C 4 = n.arg.toNat ∧ fieldOf bs 0x10 8 = n.va.toNat ∧ fieldOf bs 0x18 8 = n.pa.toNat ∧
      Goes .notificationPost s fun t => t.noticeQ = ns ∧ (n.kind ≠ 3 → t.mem = s1.mem) ∧
        (n.kind = 2 → mget ({} : Swap) t.swaps n.arg.toNat = { (mget ({} : Swap) s.swaps n.arg.toNat) with state := 2 }) ∧
        (n.kind = 3 → ∀ k f st h, s.mapout = some (k, f) → st = mget ({} : Stack) s.nearStacks k → h = st.slots - 1 → t.mapout = none ∧
          mget ({} : Stack) t.nearStacks k = { slots := h, alias_ := some f, lmap := mapNibble st.lmap f h } ∧ t.ctl.mcmdBusy = false ∧ t.ctl.mcmdResult = 0 ∧
          (errRingOk s = false → f < h → Memory.wf s.mem = true → ∀ a, mget 0 t.mem a =
            if slotBase k f ≤ a ∧ a < slotBase k f + 2 ^ 32 then mget 0 s1.mem (a + slotBase k h - slotBase k f)
            else if slotBase k h ≤ a ∧ a < slotBase k h + 2 ^ 32 then 0 else mget 0 s1.mem a)) ∧
        (n.kind = 6 → n.err = false → t.ctl.mcmdBusy = false ∧ t.ctl.mcmdResult = 0)) ∧
    (∀ k v, k < 5 → bits (mget 0 s.ctl.irqv k).toNat 98 1 = 0 → exec (.irqvWrite k v) s = .next
      { s with ctl := { s.ctl with irqv := mput 0 s.ctl.irqv k (BitVec.ofNat 128 (v.toNat % 2 ^ 98)) } }) ∧
    (∀ c va n,
      (∀ s1 bs, readAt s (hostEnv s c) (if s.hostMode.fetch then .fetch else .read) va.toNat n = (s1, .ok bs) →
        exec (.hostCoreAccess c va n none) s = .next { s1 with hostRd := bs, hostCause := 0 }) ∧
      (∀ s1 x tok, x ≠ 0x13 → readAt s (hostEnv s c) (if s.hostMode.fetch then .fetch else .read) va.toNat n = (s1, .error (x, tok)) →
        exec (.hostCoreAccess c va n none) s = .next { s1 with hostRd := [], hostCause := BitVec.ofNat 8 x }) ∧
      (∀ s1 bs, s.hostMode.amo = none → writeAt s (hostEnv s c) va.toNat bs (hostWriter s false) = (s1, .done) →
        exec (.hostCoreAccess c va n (some bs)) s = .next { s1 with hostCause := 0 }) ∧
      (∀ k s1 s2 bs l old, s.hostMode.amo = some k → lookAt s (hostEnv s c) .atomic va.toNat bs.length = (s1, .hit l) →
        readSpots (touchSpots s1 (hostEnv s c) .atomic l) (hostEnv s c) l = (s2, old) →
        exec (.hostCoreAccess c va n (some bs)) s = .next { writeSpots s2 (hostWriter s2 true) l (toBytes bs.length
          (hostAmo k bs.length (ofBytes old) (ofBytes bs))) with hostRd := old, hostCause := 0 })) ∧
    (∀ rid pasid va n s0, s0 = pxTraffic s → match boundContext s0 rid pasid with
      | none => (∀ data, exec (.peerMemoryRequest rid pasid va n data) s = .next { s0 with out := .peer false [] :: s0.out }) ∧
          exec (.atsTranslationRequest rid pasid va) s = .next { s0 with out := .peer false [] :: s0.out }
      | some c =>
        (∀ s1 bs, readAt s0 (peerEnv s0 c) .read va.toNat n = (s1, .ok bs) →
          exec (.peerMemoryRequest rid pasid va n none) s = .next { s1 with out := .peer true bs :: s1.out }) ∧
        (∀ s1 x tok, x ≠ 0x13 → readAt s0 (peerEnv s0 c) .read va.toNat n = (s1, .error (x, tok)) →
          exec (.peerMemoryRequest rid pasid va n none) s = .next { s1 with out := .peer false [] :: s1.out }) ∧
        (∀ s1 bs, writeAt s0 (peerEnv s0 c) va.toNat bs { agent := .peer } = (s1, .done) →
          exec (.peerMemoryRequest rid pasid va n (some bs)) s = .next { s1 with out := .peer true [] :: s1.out }) ∧
        (∀ s1 bs x tok, writeAt s0 (peerEnv s0 c) va.toNat bs { agent := .peer } = (s1, .stop x tok) →
          exec (.peerMemoryRequest rid pasid va n (some bs)) s = .next { s1 with peerDrops := s1.peerDrops + 1 }) ∧
        (∀ s1 x, Machine.translate s0 (peerEnv s0 c) va.toNat .read = (s1, .error x) →
          exec (.atsTranslationRequest rid pasid va) s = .next { s1 with out := .peer false [] :: s1.out }) ∧
        (∀ s1 x, Machine.translate s0 (peerEnv s0 c) va.toNat .read = (s1, .ok x) →
          Goes (.atsTranslationRequest rid pasid va) s fun t => ∃ l, t.out = .peer true (toBytes 8 x.pa) :: l)) ∧
    (∀ p, p < 2 → exec (.linkTraining p) s = .next { s with ctl := { s.ctl with pxTrained := mput 0 s.ctl.pxTrained p (mget 0 s.ctl.pxcfg p) } })

/-- R361 to R371, R374 to R376: a debug operation parks its targets as sub-groups with cause 0x42, resumes, freezes or thaws them and posts its RESULT; a halted
keystone context leaves its state in its halyard; a doorbell wakes a halted group; a sample record is written every interval; the watchdog files a hang record,
and ends the launch when KILL is set. Rests on log 72, the model's reading. -/
def Obligations.DebuggerActsOnItsTargets : Prop :=
  ∀ (s : State) (op : BitVec 32) (x : Target), dbgBusy s = false → op.toNat < 2 ^ 10 → s.ctl.dbgl.toNat < 2 ^ 38 → s.ctl.dbgt.toNat < 2 ^ 40 → x = targetOf s op →
    (∀ g, (imagedGroups s ++ savedGroups s).any (fun h => x.covers s h && inDebug s h) = false →
      (s.groups.filter fun h => x.covers s h && inDebug s h) = [g] → g.key = none → findGroup s g.who = some g →
      (∃ h, exec (.haltOp op) s = .next (dbgDone (deliver (setGroup s h) g.who) 0) ∧ h.dbgHalt = true ∧
        (∀ l, l < 32 → h.lane l = if haltable (g.lane l) then { g.lane l with st := .parked, at_ := .none } else g.lane l) ∧
        (∀ l, l < 32 → haltable (g.lane l) = true → ∃ u ∈ h.subs, u.cause = 0x42 ∧ u.delivered = false ∧ hasLane u.lanes l = true ∧ u.pc = (g.lane l).pc ∧
          u.depth = (g.lane l).depth) ∧
        (∀ u ∈ h.subs, u ∈ g.subs ∨ (u.cause = 0x42 ∧ u.pcmask = 0 ∧ u.m0 = g.mask 0 ∧ ∀ l, l < 32 →
          (hasLane u.lanes l = true ↔ haltable (g.lane l) = true ∧ (g.lane l).pc = u.pc ∧ (g.lane l).depth = u.depth)))) ∧
      (g.dbgHalt = true → Goes (.resume op) s fun t => t.ctl.dbgResult = 0 ∧ ∃ h, findGroup t g.who = some h ∧ h.dbgHalt = false ∧
        (∀ u ∈ h.subs, ¬ (u.cause = 0x42 ∧ u.delivered = false)) ∧
        ∀ l, (∃ u ∈ g.subs, u.cause = 0x42 ∧ u.delivered = false ∧ hasLane u.lanes l = true) → (h.lane l).st = .running) ∧
      (g.dbgHalt = false → g.haltDue = false → exec (.resume op) s = .next (dbgDone s 4))) ∧
    (∀ g k a s1, (imagedGroups s ++ savedGroups s).any (fun h => x.covers s h && inDebug s h) = false →
      (s.groups.filter fun h => x.covers s h && inDebug s h) = [g] → g.key = some k → findGroup s g.who = some g → g.dbgHalt = false →
      halyardAddr s (teamOf s g.team) g = some a →
      writeAt (setGroup s { g with dbgHalt := true, haltAt := s.timeFs }) (devEnv s (teamOf s g.team).ctx false) a (keyStateBytes g 0x42 0) = (s1, .done) →
      Goes (.haltOp op) s fun t => t.ctl.dbgResult = 0 ∧ t.mem = s1.mem ∧
        findGroup t g.who = some { g with dbgHalt := true, haltAt := s.timeFs, keyHalt := none }) ∧
    (∀ g k cause code bs, g.key = some k → cause < 2 ^ 8 → code < 2 ^ 14 → bs = keyStateBytes g cause code → bs.length = 4096 ∧
      (∀ r, r < 128 → fieldOf bs (4 * r) 4 = (g.uval r).toNat) ∧ fieldOf bs 0x20C 4 = (g.lane 0).depth % 2 ^ 32 ∧
      (∀ m, m < 16 → bits (fieldOf bs 0x210 4) m 1 = if m = 0 then 1 else (g.mask m).toNat % 2) ∧ fieldOf bs 0x214 4 = g.fpcr.toNat ∧
      fieldOf bs 0x218 4 = g.fpflags.toNat ∧ fieldOf bs 0x21C 4 = (g.lane 0).gen.toNat ∧ fieldOf bs 0x220 4 = k.mstat.toNat ∧
      fieldOf bs 0x224 4 = cause + code * 2 ^ 8 ∧ fieldOf bs 0x228 8 = (g.lane 0).pc.toNat) ∧
    ((s.groups ++ imagedGroups s ++ savedGroups s).any (x.covers s) = false → x.scope ≠ 3 →
      exec (.haltOp op) s = .next (dbgDone s 2) ∧ exec (.resume op) s = .next (dbgDone s 2) ∧ exec (.freeze op) s = .next (dbgDone s 2)) ∧
    (∀ i, x.scope ≠ 3 → freezeTiles s x = [i] → (coreOf s i).dbgFrozen = false → (coreOf s i).frozen = none →
      (freeSlot s i = none → exec (.freeze op) s = .next (dbgDone s 3)) ∧
      (∀ k, freeSlot s i = some k → Goes (.freeze op) s fun t => t.ctl.dbgResult = 0 ∧ (coreOf t i).dbgFrozen = true ∧
        t.groups = (s.groups.filter fun g => groupTile s g != i) ∧
        ∃ im, mget none t.vault k = some im ∧ im.cause = 0x42 ∧ im.groups = s.groups.filter fun g => groupTile s g == i)) ∧
    (x.scope ≠ 3 → thawTiles s x = [] → exec (.thaw op) s = .next (dbgDone s 2)) ∧
    (∀ i k im, x.scope ≠ 3 → thawTiles s x = [i] → frozenSlot s i = some (k, im) →
      (slotCheck s k i ≠ 0 → exec (.thaw op) s = .next (dbgDone s 1)) ∧
      (slotCheck s k i = 0 → Goes (.thaw op) s fun t => t.ctl.dbgResult = 0 ∧ mget none t.vault k = none)) ∧
    (∀ v g h, halyardGroup s (bits v.toNat 32 6) (bits v.toNat 0 32) = some g → findGroup s g.who = some h → Goes (.halyardDoorbell v) s fun t =>
      findGroup t g.who = some (if h.halted then { h with halted := false } else { h with bell := true })) ∧
    (∀ tile n, n = bits s.ctl.smpc.toNat 8 16 → tile < nTiles → tile % 5 ≠ 4 → n ≠ 0 →
      (s.cycle < (coreOf s tile).sampleAt + 1024 * n → exec (.sampleTimer tile) s = .next s) ∧
      ((coreOf s tile).sampleAt + 1024 * n ≤ s.cycle → Goes (.sampleTimer tile) s fun t => (coreOf t tile).sampleAt = s.cycle ∧ t.groups = s.groups ∧
        (coreGroups s tile = [] ∨ sampleRoom s = false → t.mem = s.mem) ∧
        ∀ g, (coreGroups s tile)[((coreOf s tile).sampled + 1) % Nat.max 1 (coreGroups s tile).length]? = some g → sampleRoom s = true →
          t.ctl.smpt = s.ctl.smpt + 1 ∧ ∃ bs, t.mem = (physWrite s (s.ctl.smpb.toNat + 32 * (s.ctl.smpt.toNat % 2 ^ (s.ctl.smpc.toNat % 32))) bs).mem ∧
          bs.length = 32 ∧ fieldOf bs 0 4 = ((sampleOf s g).1 + (teamOf s g.team).ctx * 2 ^ 4 + tile * 2 ^ 10) % 2 ^ 32 ∧
          fieldOf bs 4 4 = (teamOf s g.team).launch.toNat ∧ fieldOf bs 8 4 = (teamOf s g.team).l % 2 ^ 32 ∧
          fieldOf bs 0x0C 4 = (sampleOf s g).2.1.tid.toNat ∧ fieldOf bs 0x10 8 = (s.cycle - 1) % 2 ^ 64 ∧ fieldOf bs 0x18 8 = (sampleOf s g).2.2.toNat)) ∧
    (∀ w g y, findGroup s w = some g → g.waits.find? (hangDue s g) = some y → s.ctl.wdctl.getLsbD 32 = true → Goes (.watchdogHangDeclare w) s fun t =>
      ∀ l ∈ t.launches, l.ctx = (teamOf s g.team).ctx → l.id = (teamOf s g.team).launch → l.killed.isSome) ∧
    (∀ w g y i, findGroup s w = some g → g.waits.find? (hangDue s g) = some y → s.ctl.wdctl.getLsbD 32 = false →
      (upto 16).find? (fun i => !s.ctl.hangst.getLsbD i) = some i → Goes (.watchdogHangDeclare w) s fun t =>
        mget 0 t.ctl.hang i = hangRecord s g y ∧ t.ctl.hangst = s.ctl.hangst ||| BitVec.ofNat 32 (2 ^ i))

/-- R89, R383 to R388, R392, R394, R396 to R398, R401 to R407: reset, the end of power and shutdown; fuses, measurements, attestation and the answers of
Smiot, whose firmware runs; the in-field test of a cluster, the checkpoint, the clock and the thermal trip. Rests on logs 31, 34, 35, 37, 38, 74, 75, the model's reading. -/
def Obligations.PackageEventsFollowTheirChapters : Prop :=
  ∀ (s : State) (c : Nat), c < Config.nClusters →
    (Goes .packageReset s fun t => t.groups = [] ∧ t.teams = [] ∧ t.launches = [] ∧ t.contexts = [] ∧ t.ctl.svn = s.ctl.svn ∧ t.ctl.rooth = s.ctl.rooth ∧ t.cycle = 0) ∧
    (∀ l, Goes (.powerLoss l) s fun t => t.held = true ∧ t.groups = [] ∧ ∀ a, survives a = false → mget 0 t.mem a = 0) ∧
    (Memory.wf s.mem = true → Goes .orderlyShutdown s fun t => t.mem = s.mem ∧ ∀ o, o < predDram → mget 0 t.predKept o = mget 0 s.mem (Config.predBase + o)) ∧
    (∀ v : BitVec 32, 1 ≤ v.toNat % 16 → v.toNat % 16 ≤ 4 → v.toNat / 16 ≤ 32 → Goes (.svnWrite v) s fun t =>
      (mget 0 t.ctl.svn (v.toNat % 16)).toNat = Nat.max (mget 0 s.ctl.svn (v.toNat % 16)).toNat (v.toNat / 16)) ∧
    (∀ i, 5 ≤ i → i ≤ 7 → Goes (.measurementExtend i) s fun t =>
      (∀ j, mget 0 t.ctl.meas j = if j = i then regOf256 (sha256 (bytesOf256 (mget 0 s.ctl.meas i) ++ bytesOf256 s.ctl.mextd)) else mget 0 s.ctl.meas j)) ∧
    (∀ v, v ≠ 1 → exec (.attestationReport v) s = .next s) ∧
    (Goes (.attestationReport 1) s fun t => t.attDone = s.attDone + 1 ∧
      physRead t s.ctl.attb.toNat 0x280 = (reportBody s).take 0x280) ∧
    (fieldOf (reportBody s) 0 4 = 0x5441584B ∧ fieldOf (reportBody s) 0x20 16 = Config.devId.toNat ∧ fieldOf (reportBody s) 0x30 32 = s.ctl.attn.toNat ∧
      (∀ i, i < 8 → fieldOf (reportBody s) (0x80 + 32 * i) 32 = (mget 0 s.ctl.meas i).toNat) ∧ fieldOf (reportBody s) 0x180 8 = timeNs s % 2 ^ 64) ∧
    (4 ∉ s.refused →
      exec .getCertificate s = .next { s with out := .smiot 10 Config.certChain :: s.out } ∧
      (∀ nonce, Goes (.challenge nonce) s fun t => t.attDone = s.attDone + 1 ∧ ∃ bs, t.out = .smiot 11 bs :: s.out) ∧
      exec .getMeasurements s = .next { s with out := .smiot 12 ((upto 8).flatMap fun i => BitVec.ofNat 8 (i + 1) :: bytesOf256 (mget 0 s.ctl.meas i)) :: s.out } ∧
      (Goes .pldmDiscovery s fun t => ∃ bs, t.out = .smiot 0 ([0, 2, 5] ++ bs) :: s.out) ∧
      (∀ k, k < 12 → exec (.pldmSensorRead k) s = .next { s with out := .smiot 3 (toBytes 8 (sensorValue s k)) :: s.out }) ∧
      (∀ ty im, 1 ≤ ty → ty ≤ 4 → exec (.pldmFirmwareUpdate ty im) s = .next { s with staged := mput [] s.staged ty im })) ∧
    (∀ st, st = (clusterOf s c).ftState →
      (st = 0 → Goes (.offline c) s fun t => (clusterOf t c).ftState = 1 ∧ (clusterOf t c).ftResult = 0) ∧
      (st = 1 ∨ st = 3 → ∀ i ∈ [Instr.offline c, .test c, .online c, .retire c], exec i s = .next (ftDone s c 2)) ∧
      (st = 1 → Goes (.clusterDrainComplete c) s fun t => (clusterOf t c).ftState = if clusterEmpty s c then 2 else 1) ∧
      (∀ s1 b, st = 2 ∨ st = 5 → testRoom s c = true → patternOk s = (s1, b) → Goes (.test c) s fun t =>
        if b = true then (clusterOf t c).ftState = 3 ∧ (clusterOf t c).ftResult = 0 else (clusterOf t c).ftState = st ∧ (clusterOf t c).ftResult = 3) ∧
      (∀ l, st = 3 → (l.all fun f => unitIn c f.unit && (f.step == 1 || f.step == 2)) = true → Goes (.clusterTestComplete c l) s fun t => (clusterOf t c).sram = [] ∧
        (clusterOf t c).ftState = if l.all fun f => f.spare.isSome then 4 else 5) ∧
      (st = 2 ∨ st = 4 → Goes (.online c) s fun t => (clusterOf t c).ftState = 0 ∧ (clusterOf t c).ftResult = 0) ∧
      (st = 5 → Goes (.retire c) s fun t => (clusterOf t c).ftState = 6 ∧ (clusterOf t c).ftResult = 0)) ∧
    (s.ck.busy = true → exec .save s = .next s ∧ exec .load s = .next s ∧ Goes .abort s fun t => t.ck.busy = false ∧ t.ck.result = 6 ∧ t.paused = false) ∧
    (s.ck.busy = false → s.ctl.ckb.toNat % 4096 = 0 → quarryBase ≤ s.ctl.ckb.toNat → s.ctl.ckb.toNat + s.ctl.cklen.toNat ≤ quarryEnd → areaHolds s = true →
      Goes .save s fun t => t.ck.busy = true ∧ t.paused = true ∧ t.ck.start = none ∧ t.ck.streamed = 0) ∧
    (s.ck.busy = true → s.ck.start = none → deviceIdle s = false → exec .checkpointSaveComplete s = .next s) ∧
    (s.ck.busy = true → s.ck.start.isSome ∨ deviceIdle s = true → 2 ∉ s.refused → Goes .checkpointSaveComplete s fun t => t.ck.busy = false ∧ t.paused = false ∧
      t.ck.result ∈ [0, 2, 7] ∧ (areaHolds s = false → t.ck.result = 2) ∧ (t.ck.result = 0 → t.ck.streamed = ckBytes s / 2 ^ 30)) ∧
    (s.ck.busy = false → s.ctl.ctxtb ≠ 0 ∨ s.hasServed = true → Goes .load s fun t => t.ck.result = 1 ∧ t.mem = s.mem) ∧
    (∀ b sums bad, b = physRead s s.ctl.ckb.toNat 0x1000 → s.ck.busy = false → s.ctl.ctxtb = 0 → s.hasServed = false →
      readIndex s (fieldOf b 0x38 8) = (sums, bad) →
      (headerFits s b = false → Goes .load s fun t => t.ck.result = 5) ∧
      (headerFits s b = true → headerOk b = false → Goes .load s fun t => t.ck.result = 1 ∧ t.mem = s.mem) ∧
      (headerFits s b = true → headerOk b = true → Goes .load s fun t => t.ck.busy = false ∧
        t.ck.result = (if (upto (courseCount s)).any (courseBad s sums) then 4 else 0) ∧
        (t.ck.result = 0 → bad = [] → Memory.wf s.mem = true → (∀ k, k < 12 → (mget ({} : Stack) s.nearStacks k).slots ≤ 16) →
          ∀ a o, offsetIn 0 (ckRanges s) a = some o → mget 0 t.mem a = mget 0 s.mem (s.ctl.ckb.toNat + 0x1000 + o)))) ∧
    (∀ (p tm : BitVec 16) (f : Nat), f = nextClock (s.ctl.pwrcap.toNat % 65536) p.toNat tm.toNat s.ctl.fclk.toNat →
      (s.timeFs < s.ctl.clkAt + 100000000000 → exec (.clockThrottleStep p tm) s = .next s) ∧
      (s.ctl.clkAt + 100000000000 ≤ s.timeFs → Goes (.clockThrottleStep p tm) s fun t => t.ctl.fclk = BitVec.ofNat 32 f ∧ t.ctl.pwrnow = p.setWidth 32 ∧
        t.ctl.tempmax = tm.setWidth 32 ∧ t.ctl.clkAt = s.timeFs) ∧
      (tm.toNat < 920 → exec (.thermalTrip tm) s = .next s) ∧
      (920 ≤ tm.toNat → Goes (.thermalTrip tm) s fun t => t.held = true ∧ t.groups = []))

/-- R15, R69, R70, R301 to R303, R307, R311, R338, R361, R373, R378, R385 to R387, R393, R397, R401: a register that is stored reads, after a write, as the value
written but for its reserved and read-only fields, and a size outside its range is not taken; every other register reads as before; a write of a command register
or a doorbell does its command; one of any other offset has no effect. A bank changes its mode once it has drained, and is zero then. Rests on log 41 (offsets
that no register has) and log 1 (whether FCFG takes an RTO of 0 or a reserved PFAIL), the model's readings. -/
def Obligations.RegisterWritesActAsTheirRegister : Prop :=
  ∀ (s : State) (c : Nat) (v : W64), c < Config.nClusters →
    (∀ off, ∃ t, exec (.registerWrite off v) s = .next t) ∧
    (∀ x ∈ storedRegs, WroteReg s x.1 v (v &&& BitVec.ofNat 64 x.2)) ∧
    (∀ x ∈ storedArrays, ∀ k, k < x.2.1 → WroteReg s (x.1 + 8 * k) v (v &&& BitVec.ofNat 64 (if k % 2 = 0 then x.2.2.1 else x.2.2.2))) ∧
    (∀ x ∈ sizedRegs, WroteReg s x.1 v (if x.2.2.1 ≤ v.toNat % x.2.2.2.2 ∧ v.toNat % x.2.2.2.2 ≤ x.2.2.2.1 then v &&& BitVec.ofNat 64 x.2.1 else regRead s x.1)) ∧
    WroteReg s 0x0D08 v (if 6 ≤ v.toNat % 32 ∧ v.toNat % 32 ≤ 16 then BitVec.ofNat 64 (v.toNat % 32 + 256 * (if s.held then 1 else bits v.toNat 8 1)) else regRead s 0x0D08) ∧
    (∀ x ∈ [0x0620, 0x0D14], WroteReg s x v (regRead s x &&& ~~~v)) ∧
    WroteReg s 0x0DC0 v (if 1200 ≤ v.toNat % 65536 ∧ v.toNat % 65536 ≤ 3000 then BitVec.ofNat 64 (v.toNat % 65536) else regRead s 0x0DC0) ∧
    (∀ k, k < 16 → WroteReg s (0x0700 + 8 * k) v (regRead s (0x0700 + 8 * k) &&& ~~~0xD ||| v &&& 0xD)) ∧
    (∀ k, k < 640 → WroteReg s (0x400000 + 8 * k) v (if v = BitVec.allOnes 64 then 0 else regRead s (0x400000 + 8 * k))) ∧
    (v.toNat % 65536 ≠ 0 → bits v.toNat 30 2 ≠ 0 → WroteReg s 0x0604 v (v &&& 0xFFFFFFFF)) ∧
    (v.toNat % 65536 = 0 ∨ bits v.toNat 30 2 = 0 → Goes (.registerWrite 0x0604 v) s fun t => (regRead t 0x0604 = v &&& 0xFFFFFFFF ∨ regRead t 0x0604 = regRead s 0x0604) ∧
      t = { s with free := t.free, ctl := t.ctl } ∧ ∀ o, o ≠ 0x0604 → regRead t o = regRead s o) ∧
    exec (.registerWrite 0x0100 v) s = .next { s with ctl := { s.ctl with marg0 := v } } ∧
    exec (.registerWrite 0x0108 v) s = .next { s with ctl := { s.ctl with marg1 := v } } ∧
    exec (.registerWrite 0x0300 v) s = .next { s with ctl := { s.ctl with dbgl := v } } ∧
    exec (.registerWrite 0x0308 v) s = .next { s with ctl := { s.ctl with dbgt := v } } ∧
    (∀ off, writable off = false → exec (.registerWrite off v) s = .next s) ∧
    (∀ n k (a : BitVec 32), 1 ≤ n → n ≤ 7 → k < 64 → exec (.registerWrite 0x0008 (BitVec.ofNat 64 (n * 2 ^ 56 + k * 2 ^ 32 + a.toNat))) s
      = .next (if s.cmd.isSome then s else { s with cmd := some (n, k, a) })) ∧
    (bits v.toNat 38 18 ≠ 0 ∨ bits v.toNat 56 8 = 0 ∨ 7 < bits v.toNat 56 8 → s.cmd = none → exec (.registerWrite 0x0008 v) s = .next (cmdDone s 1)) ∧
    (∀ x ∈ [(1, Instr.inval), (2, .replay), (3, .swap), (4, .swapfree), (5, .mapout), (6, .mapend), (7, .extrel), (8, .qtrim)],
      exec (.registerWrite 0x0110 (BitVec.ofNat 64 x.1)) s = exec x.2 s) ∧
    (∀ a : BitVec 32, ∀ x ∈ [(1, Instr.haltOp a), (2, .resume a), (3, .freeze a), (4, .thaw a)], a.toNat % 256 = x.1 →
      exec (.registerWrite 0x0310 (a.setWidth 64)) s = exec x.2 s) ∧
    (∀ x ∈ [(1, Instr.offline c), (2, .test c), (3, .online c), (4, .retire c)],
      exec (.registerWrite 0x0D48 (BitVec.ofNat 64 (x.1 + 256 * c))) s = exec x.2 s) ∧
    (∀ x ∈ [(1, Instr.save), (2, .load), (3, .abort)], exec (.registerWrite 0x0D90 (BitVec.ofNat 64 x.1)) s = exec x.2 s) ∧
    (∀ x ∈ [(0x0318, Instr.halyardDoorbell v), (0x0608, .selfstWrite (v.setWidth 32)), (0x0A28, .attestationReport (v.setWidth 32)),
        (0x0A34, .svnWrite (v.setWidth 32)), (0x0A60, .measurementExtend (v.toNat % 2 ^ 32))], exec (.registerWrite x.1 v) s = exec x.2 s) ∧
    (∀ k q, k < 64 → q < 64 → exec (.registerWrite (0x10000 + 8 * (64 * k + q)) v) s = exec (.launchDoorbell k q (v.setWidth 32)) s ∧
      exec (.registerWrite (0x20000 + 8 * k) v) s = exec (.eventDoorbell k) s) ∧
    (∀ k (x : BitVec 128), k < 10 → bits x.toNat (64 * (k % 2)) 64 = v.toNat →
      bits x.toNat (64 * (1 - k % 2)) 64 = bits (mget 0 s.ctl.irqv (k / 2)).toNat (64 * (1 - k % 2)) 64 →
      exec (.registerWrite (0x0A80 + 8 * k) v) s = exec (.irqvWrite (k / 2) x) s) ∧
    (∀ b, b < 64 → exec (.registerWrite (0x100000 + 0x10000 * c + 4 * b) v) s = exec (.sbankctlWrite c b (v.setWidth 32)) s) ∧
    (∀ (x b : Nat) (w : BitVec 32), Config.nClusters ≤ x ∨ 64 ≤ b → exec (.sbankctlWrite x b w) s = .next s) ∧
    (∀ (b m : Nat) (w : BitVec 32) (k : Bank) (e : Bool), b < 64 → k = bankOf s c b → m = w.toNat % 4 → e = (if bits w.toNat 7 1 = 1 then false else k.err) →
      Goes (.sbankctlWrite c b w) s fun t => t = { s with clusters := t.clusters } ∧ (∀ x, clusterOf t x = { clusterOf s x with banks := (clusterOf t x).banks }) ∧
        (∀ x y, (x, y) ≠ (c, b) → bankOf t x y = bankOf s x y) ∧
        bankOf t c b = (if k.target.isSome ∨ m = 3 then { k with err := true } else if m = k.mode then { k with err := e }
          else if k.mode ≠ 0 ∧ bankHeld s c b = true then { k with err := true } else { k with err := e, target := some m })) ∧
    (∀ b, (bankOf s c b).target = none → exec (.sbankDrainComplete c b) s = .next s) ∧
    (∀ b m k, k = bankOf s c b → k.target = some m → Goes (.sbankDrainComplete c b) s fun t => t.mem = s.mem ∧
      bankOf t c b = { k with mode := m, target := none } ∧ (∀ x y, (x, y) ≠ (c, b) → bankOf t x y = bankOf s x y) ∧
      ∀ x o, mget 0 (clusterOf t x).sram o =
        if x = c ∧ b * Config.bankBytes ≤ o ∧ o < (b + 1) * Config.bankBytes then 0 else mget 0 (clusterOf s x).sram o)

/-! ## Words, steps and reset -/

/-- R124, R132 to R139: every word that decodes to an instruction is that instruction's word, and the word of every instruction decodes to it: no bit of
a word is dropped and no two instructions share one. -/
def Obligations.EncodeAndDecodeAgree : Prop :=
  ∀ (i : Instr) (w : BitVec 32), encode i = some w ↔ decode w = .ok i

/-- R14, R124, R132, R139: words of the spec's encodings decode to the instructions they stand for, the least significant byte first; a word of a reserved
major opcode is no instruction, nor is one with a selector that selects nothing; a nonzero reserved field is refused. -/
def Obligations.WordsOfTheSpecDecode : Prop :=
  decodeBytes [0x01, 0x00, 0x08, 0x3E] = .ok (.lane 2) ∧
  decodeBytes [0x01, 0x00, 0x14, 0x3A] = .ok (.movl 5 0 1) ∧
  decode 0x200C0820#32 = .ok (.add 3 1 2) ∧
  decode 0x40181052#32 = .ok (.shflDn 6 2 5) ∧
  decode 0x441C3000#32 = .ok (.red 7 6 0) ∧
  decode 0x603050B0#32 = .ok (.fadd 12 10 11) ∧
  decode 0x703868E0#32 = .ok (.cvt 14 13 0 14 0) ∧
  decode 0xC6000001#32 = .ok .barRole ∧
  (∀ w : BitVec 32, reservedMajor (w.toNat / 2 ^ 25) = true → decode w = .notInstruction) ∧
  (∀ n : Nat, 9 ≤ n → n ≤ 15 → decode (BitVec.ofNat 32 (0x02000000 + n)) = .notInstruction) ∧
  decode 0x02000040#32 = .reserved .nop

/-- R22 to R24, R98, R150: a turn in which a path issues fetches the word at its program counter and executes the instruction that it decodes to; an event's
turn executes the event; what the device does of itself has the meaning of its event. Rests on log 2, the model's reading. -/
def Obligations.StepRunsTheFetchedInstruction : Prop :=
  ∀ (s : State) (ts : List Turn),
    (∀ w l s1 i, s.agenda = .issue w l :: ts → turnIssue { s with agenda := ts } w l = (s1, some i) → step s = exec i s1) ∧
    (∀ w l s1, s.agenda = .issue w l :: ts → turnIssue { s with agenda := ts } w l = (s1, none) → step s = .next s1) ∧
    (∀ w l g s1 x c i, findGroup s w = some g → pathOf g l ≠ 0 → pathMayIssue s g l = true →
      fetchWord (takeTurnOf (takePosition s g) g) g (lowestLane (pathOf g l)) = (s1, .word x) → issuer { s1 with cur := some { who := w, lanes := pathOf g l, pc := (g.lane l).pc } } = some c →
      (matrixMajor x = true → g.key.isSome = true) → decode x = .ok i →
      turnIssue s w l = ({ s1 with cur := some { who := w, lanes := pathOf g l, pc := (g.lane l).pc } }, some i)) ∧
    (∀ g l s1 o t pa, lookAt s (laneEnv s g l) .fetch (g.lane l).pc.toNat 4 = (s1, .hit [.mem o 4 t pa]) → leafBit t.leaf 15 = false →
      (touchSpots s1 (laneEnv s g l) .fetch [.mem o 4 t pa]).past = [] →
      fetchWord s g l = (touchSpots s1 (laneEnv s g l) .fetch [.mem o 4 t pa],
        .word (BitVec.ofNat 32 (ofBytes (physRead (touchSpots s1 (laneEnv s g l) .fetch [.mem o 4 t pa]) pa 4))))) ∧
    (∀ i, s.agenda = .event i :: ts → encode i = none → (∀ w, i ≠ .nonInstructionWord w) → step s = exec i { s with agenda := ts }) ∧
    (∀ s1 e, nextTurn s = (s1, .dev e) → step s = runDev e s1) ∧
    (∀ e, ∃ i, encode i = none ∧ ∀ t, runDev e t = exec i t)

/-- R69, R145, R301, R302, R338, R341, R345, R359, R361, R372, R378, R391, R396, R401, R406: after reset no context, launch, team or group is there, %cycle and
%time are 0, the control registers hold the reset values of their tables, and every memory is in its canonical form. Rests on log 4, the model's reading. -/
def Obligations.ResetHoldsTheSpecsValues : Prop :=
  State.reset.memOk = true ∧ State.reset.groups = [] ∧ State.reset.teams = [] ∧ State.reset.launches = [] ∧ State.reset.cycle = 0 ∧
  timeNs State.reset = 0 ∧
  (∀ c, (contextOf State.reset c).state = 0) ∧
  (∀ x ∈ resetValues, regRead State.reset x.1 = BitVec.ofNat 64 x.2) ∧
  (∀ x ∈ resetZeros, regRead State.reset x = 0) ∧
  (∀ t, t < 180 → regRead State.reset (0x30000 + 4 * t) = 0) ∧ (∀ k, k < 9 → regRead State.reset (0x0F00 + 8 * k) = 0) ∧
  (∀ k, k < 64 → regRead State.reset (0x0400 + 8 * k) = 0 ∧ regRead State.reset (0x50000 + 8 * k) = 0 ∧ regRead State.reset (0x0800 + 8 * k) = 0) ∧
  (∀ k, k < 36 → regRead State.reset (0x0E00 + 4 * k) = 0) ∧
  (∀ c b, c < 36 → b < 64 → bankRead State.reset c b = 0) ∧
  (∀ k, k < 8192 → bits (mget 0 State.reset.ctl.win (k / 2)).toNat (64 * (k % 2)) 64 = 0)

/-- R14: whatever a step does, physical memory and every SRAM keep their canonical form, so that equal contents are equal data. -/
def Obligations.StepKeepsMemoryCanonical : Prop :=
  ∀ s t : State, s.memOk = true → step s = .next t → t.memOk = true
end

