-- ==== Sys2Proof/Laws/Map.lean ====
section
/-!
SUPPORT. Laws of the sparse maps that memory, register files and tables are (Machine/Map.lean): read after write, the canonical form, and
the small list operations.
-/

namespace Sys2Proof.Machine

variable {α : Type} [DecidableEq α]

/-- A key below every key of a canonical map is unlisted. -/
theorem mget_below (d : α) : ∀ (m : SMap α) (lo k : Nat), mwfFrom d lo m = true → k < lo → mget d m k = d
  | [], _, _, _, _ => rfl
  | (k', v) :: m, lo, k, h, hk => by
    simp only [mwfFrom, Bool.and_eq_true, decide_eq_true_eq] at h
    have : k ≠ k' := by omega
    simp only [mget, this, if_false]
    exact mget_below d m (k' + 1) k h.2 (by omega)

/-- A lower bound of the keys may be lowered. -/
theorem mwfFrom_mono (d : α) : ∀ (m : SMap α) (lo lo' : Nat), lo' ≤ lo → mwfFrom d lo m = true → mwfFrom d lo' m = true
  | [], _, _, _, _ => rfl
  | (k, v) :: m, lo, lo', hl, h => by
    simp only [mwfFrom, Bool.and_eq_true, decide_eq_true_eq] at h ⊢
    exact ⟨⟨by omega, h.1.2⟩, h.2⟩

/-- Writing the default below every key changes nothing but keeps the form. -/
theorem mput_below (d : α) : ∀ (m : SMap α) (lo k : Nat), mwfFrom d lo m = true → k < lo → mput d m k d = m
  | [], _, _, _, _ => by simp [mput]
  | (k', v) :: m, lo, k, h, hk => by
    simp only [mwfFrom, Bool.and_eq_true, decide_eq_true_eq] at h
    have e : k ≠ k' := by omega
    have l : k < k' := by omega
    simp only [mput, e, l, if_true, if_false]
    rw [mput_below d m (k' + 1) k h.2 (by omega)]

/-- A write keeps the canonical form. -/
theorem mwfFrom_mput (d : α) : ∀ (m : SMap α) (lo k : Nat) (v : α), lo ≤ k → mwfFrom d lo m = true → mwfFrom d lo (mput d m k v) = true
  | [], lo, k, v, hk, _ => by
    by_cases hv : v = d <;> simp [mput, mwfFrom, hv, hk]
  | (k', v') :: m, lo, k, v, hk, h => by
    simp only [mwfFrom, Bool.and_eq_true, decide_eq_true_eq] at h
    obtain ⟨⟨h1, h2⟩, h3⟩ := h
    by_cases e : k = k'
    · subst e
      by_cases hv : v = d
      · subst hv
        simp only [mput, if_true]
        rw [mput_below v m (k + 1) k h3 (by omega)]
        exact mwfFrom_mono v m (k + 1) lo (by omega) h3
      · simp only [mput, hv, if_true, if_false, mwfFrom, Bool.and_eq_true, decide_eq_true_eq]; exact ⟨⟨hk, hv⟩, h3⟩
    · by_cases l : k < k'
      · by_cases hv : v = d
        · subst hv
          simp only [mput, e, l, if_true, if_false, mwfFrom, Bool.and_eq_true, decide_eq_true_eq]
          rw [mput_below v m (k' + 1) k h3 (by omega)]
          exact ⟨⟨h1, h2⟩, h3⟩
        · simp only [mput, e, l, hv, if_true, if_false, mwfFrom, Bool.and_eq_true, decide_eq_true_eq]
          exact ⟨⟨hk, hv⟩, ⟨⟨by omega, h2⟩, h3⟩⟩
      · simp only [mput, e, l, if_false, mwfFrom, Bool.and_eq_true, decide_eq_true_eq]
        exact ⟨⟨h1, h2⟩, mwfFrom_mput d m (k' + 1) k v (by omega) h3⟩

/-- A write keeps the canonical form of a whole map. -/
theorem mwf_mput (d : α) (m : SMap α) (k : Nat) (v : α) (h : mwf d m = true) : mwf d (mput d m k v) = true :=
  mwfFrom_mput d m 0 k v (Nat.zero_le _) h

/-- A read after a write to the same key gives the value written. -/
@[simp] theorem mget_mput_same (d : α) : ∀ (m : SMap α) (k : Nat) (v : α), mget d (mput d m k v) k = v
  | [], k, v => by by_cases hv : v = d <;> simp [mput, mget, hv]
  | (k', v') :: m, k, v => by
    have ih := mget_mput_same d m k v
    by_cases e : k = k'
    · subst e
      by_cases hv : v = d
      · simp only [mput, hv, if_true] at ih ⊢; exact ih
      · simp [mput, hv, mget]
    · by_cases l : k < k'
      · by_cases hv : v = d
        · simp only [mput, e, l, hv, if_true, if_false, mget] at ih ⊢; exact ih
        · simp [mput, e, l, hv, mget]
      · simp only [mput, e, l, if_false, mget]; exact ih

/-- A write leaves every other key as it was. -/
theorem mget_mput_other (d : α) : ∀ (m : SMap α) (k j : Nat) (v : α), j ≠ k → mget d (mput d m k v) j = mget d m j
  | [], k, j, v, hj => by by_cases hv : v = d <;> simp [mput, mget, hv, hj]
  | (k', v') :: m, k, j, v, hj => by
    have ih := mget_mput_other d m k j v hj
    by_cases e : k = k'
    · subst e
      by_cases hv : v = d
      · simp only [mput, hv, if_true, mget, hj, if_false] at ih ⊢; exact ih
      · simp [mput, hv, mget, hj]
    · by_cases l : k < k'
      · by_cases hv : v = d
        · simp only [mput, e, l, hv, if_true, if_false, mget] at ih ⊢; rw [ih]
        · simp [mput, e, l, hv, mget, hj]
      · simp only [mput, e, l, if_false, mget]; rw [ih]

/-- What every key reads as after a write. -/
theorem mget_mput (d : α) (m : SMap α) (k j : Nat) (v : α) : mget d (mput d m k v) j = if j = k then v else mget d m j := by
  by_cases h : j = k
  · subst h; simp
  · simp [h, mget_mput_other d m k j v h]

/-- Dropping entries keeps the canonical form. -/
theorem mwfFrom_filter (d : α) (p : Nat × α → Bool) : ∀ (m : SMap α) (lo : Nat), mwfFrom d lo m = true → mwfFrom d lo (m.filter p) = true
  | [], _, _ => rfl
  | (k, v) :: m, lo, h => by
    simp only [mwfFrom, Bool.and_eq_true, decide_eq_true_eq] at h
    have ih := mwfFrom_filter d p m (k + 1) h.2
    by_cases hp : p (k, v) = true
    · simp only [List.filter, hp, mwfFrom, Bool.and_eq_true, decide_eq_true_eq]; exact ⟨h.1, ih⟩
    · simp only [List.filter, Bool.not_eq_true] at hp ⊢
      simp only [hp]; exact mwfFrom_mono d _ (k + 1) lo (by omega) ih

theorem mwf_filter (d : α) (p : Nat × α → Bool) (m : SMap α) (h : mwf d m = true) : mwf d (m.filter p) = true :=
  mwfFrom_filter d p m 0 h

/-- A fold of writes keeps the canonical form. -/
theorem mwf_foldl_mput {β : Type} (d : α) (k : β → Nat) (v : β → α) : ∀ (l : List β) (m : SMap α),
    mwf d m = true → mwf d (l.foldl (fun m x => mput d m (k x) (v x)) m) = true
  | [], _, h => h
  | _ :: l, m, h => mwf_foldl_mput d k v l _ (mwf_mput d m _ _ h)

omit [DecidableEq α] in
/-- Element i after element j was replaced. -/
theorem nth_setNth (d : α) : ∀ (l : List α) (i j : Nat) (y : α), j < l.length → nth d (setNth l j y) i = if i = j then y else nth d l i
  | [], _, _, _, h => absurd h (Nat.not_lt_zero _)
  | x :: xs, 0, 0, y, _ => by simp [setNth, nth]
  | x :: xs, i + 1, 0, y, _ => by simp [setNth, nth]
  | x :: xs, 0, j + 1, y, _ => by simp [setNth, nth]
  | x :: xs, i + 1, j + 1, y, h => by
    simp only [setNth, nth, nth_setNth d xs i j y (by simpa using h), Nat.add_right_cancel_iff]

omit [DecidableEq α] in
@[simp] theorem length_setNth : ∀ (l : List α) (i : Nat) (y : α), (setNth l i y).length = l.length
  | [], _, _ => rfl
  | _ :: _, 0, _ => rfl
  | _ :: xs, i + 1, y => by simp [setNth, length_setNth xs i y]

omit [DecidableEq α] in
/-- Element i of a list given by a function on the lane slots. -/
theorem nth_lanes32 (d : α) (f : Nat → α) (l : Nat) : nth d (lanes32.map f) l = if l < 32 then f l else d := by
  rcases Nat.lt_or_ge l 32 with h | h
  · simp only [h, if_true]; interval_cases l <;> rfl
  · simp only [Nat.not_lt.mpr h, if_false]
    obtain ⟨k, rfl⟩ := Nat.exists_eq_add_of_le h
    rw [Nat.add_comm]; rfl

theorem mem_lanes32 (l : Nat) : l ∈ lanes32 ↔ l < 32 := by
  constructor
  · intro h; simp [lanes32] at h; omega
  · intro h; simp [lanes32]; omega

omit [DecidableEq α] in
/-- The first element that satisfies a test, of a list in which the elements that satisfy another were replaced by elements that satisfy it. -/
theorem firstWhere_mapWhere_same (p : α → Bool) (f : α → α) (hf : ∀ x, p x = true → p (f x) = true) :
    ∀ l : List α, firstWhere p (mapWhere p f l) = (firstWhere p l).map f
  | [] => rfl
  | x :: l => by
    have ih := firstWhere_mapWhere_same p f hf l
    simp only [mapWhere] at ih
    by_cases h : p x = true
    · simp [mapWhere, firstWhere, h, hf x h]
    · simp only [Bool.not_eq_true] at h
      simp [mapWhere, firstWhere, h, ih]

omit [DecidableEq α] in
theorem firstWhere_mem (p : α → Bool) : ∀ (l : List α) (x : α), firstWhere p l = some x → x ∈ l ∧ p x = true
  | [], _, h => by simp [firstWhere] at h
  | y :: l, x, h => by
    by_cases hp : p y = true
    · simp [firstWhere, hp] at h; subst h; exact ⟨List.mem_cons_self, hp⟩
    · simp only [firstWhere, hp] at h
      have := firstWhere_mem p l x (by simpa using h)
      exact ⟨List.mem_cons_of_mem _ this.1, this.2⟩

omit [DecidableEq α] in
theorem mapWhere_mapWhere (p : α → Bool) (f h : α → α) (hf : ∀ x, p x = true → p (f x) = true) (l : List α) :
    mapWhere p h (mapWhere p f l) = mapWhere p (fun x => h (f x)) l := by
  simp only [mapWhere, List.map_map]
  apply List.map_congr_left
  intro x _
  by_cases hp : p x = true
  · simp [hp, hf x hp]
  · simp [hp]

/-- Bit l of the set of the lanes that satisfy a test. -/
theorem hasLane_laneSet (p : Nat → Bool) (l : Nat) (h : l < 32) : hasLane (laneSet p) l = p l := by
  have key : ∀ (L : List Nat) (a : Nat), (∀ x ∈ L, x < 32) → L.Pairwise (· < ·) → (∀ x ∈ L, a < 2 ^ x) →
      ∀ l, (L.foldl (fun a l => if p l then a + 2 ^ l else a) a).testBit l = (a.testBit l || (decide (l ∈ L) && p l)) := by
    intro L
    induction L with
    | nil => intro a _ _ _ l; simp
    | cons x L ih =>
      intro a hL hp ha l
      have hax := ha x List.mem_cons_self
      rw [List.pairwise_cons] at hp
      have ht : (if p x then a + 2 ^ x else a).testBit l = (a.testBit l || (decide (l = x) && p x)) := by
        by_cases hpx : p x
        · simp only [hpx, if_true, Bool.and_true]
          have hor := Nat.two_pow_add_eq_or_of_lt hax 1
          rw [Nat.mul_one] at hor
          rw [Nat.add_comm, hor, Nat.testBit_or, Nat.testBit_two_pow]
          by_cases e : l = x
          · simp [e]
          · have e2 : ¬x = l := fun h => e h.symm
            simp [e, e2]
        · simp [hpx]
      simp only [List.foldl_cons]
      rw [ih _ (fun y hy => hL y (List.mem_cons_of_mem _ hy)) hp.2 (fun y hy => by
        have hxy := hp.1 y hy
        have : 2 ^ (x + 1) ≤ 2 ^ y := Nat.pow_le_pow_right (by omega) hxy
        have e : 2 ^ (x + 1) = 2 ^ x + 2 ^ x := by rw [Nat.pow_succ]; omega
        split <;> omega) l, ht]
      by_cases e : l = x
      · subst e; cases a.testBit l <;> cases p l <;> simp
      · simp [e]
  unfold hasLane laneSet
  rw [BitVec.getLsbD_ofNat]
  have := key lanes32 0 (fun x hx => (mem_lanes32 x).mp hx) (by decide) (fun x _ => Nat.two_pow_pos x) l
  rw [this]
  simp [mem_lanes32, h]

@[simp] theorem hasLane_and (a b : BitVec 32) (l : Nat) : hasLane (a &&& b) l = (hasLane a l && hasLane b l) := by
  simp [hasLane]

@[simp] theorem hasLane_or (a b : BitVec 32) (l : Nat) : hasLane (a ||| b) l = (hasLane a l || hasLane b l) := by
  simp [hasLane]

theorem hasLane_not (a : BitVec 32) (l : Nat) (h : l < 32) : hasLane (~~~a) l = !hasLane a l := by
  simp [hasLane, h]

theorem hasLane_lt (a : BitVec 32) (l : Nat) (h : hasLane a l = true) : l < 32 := by
  by_contra hl
  simp [hasLane, BitVec.getLsbD_of_ge a l (by omega)] at h

/-- A lane of a set. -/
theorem mem_lanesOf (m : BitVec 32) (l : Nat) : l ∈ lanesOf m ↔ hasLane m l = true := by
  unfold lanesOf
  rw [List.mem_filter, mem_lanes32]
  exact ⟨fun h => h.2, fun h => ⟨hasLane_lt m l h, h⟩⟩

/-- A set without a lane is empty. -/
theorem lanes_zero (m : BitVec 32) : (∀ l, l < 32 → hasLane m l = false) ↔ m = 0 := by
  constructor
  · intro h
    apply BitVec.eq_of_getLsbD_eq
    intro i hi
    simpa [hasLane] using h i hi
  · rintro rfl l _
    simp [hasLane]

end Sys2Proof.Machine
end

