-- ==== Sys2Proof/Laws/State.lean ====
section
/-!
SUPPORT. What each named update of the state leaves alone: one lemma per field per update, true by definition, so that no proof unfolds a
record update. The updates of parts (a bank, a channel, a tile, a queue) are these updates, as the last lemmas say.
-/

namespace Sys2Proof.Machine

section uncur

variable (s : State) 

@[simp] theorem uncur_agenda : (uncur s ).agenda = s.agenda := rfl
@[simp] theorem uncur_free : (uncur s ).free = s.free := rfl
@[simp] theorem uncur_out : (uncur s ).out = s.out := rfl
@[simp] theorem uncur_hostRd : (uncur s ).hostRd = s.hostRd := rfl
@[simp] theorem uncur_hostCause : (uncur s ).hostCause = s.hostCause := rfl
@[simp] theorem uncur_hostMode : (uncur s ).hostMode = s.hostMode := rfl
@[simp] theorem uncur_peerDrops : (uncur s ).peerDrops = s.peerDrops := rfl
@[simp] theorem uncur_cycle : (uncur s ).cycle = s.cycle := rfl
@[simp] theorem uncur_timeFs : (uncur s ).timeFs = s.timeFs := rfl
@[simp] theorem uncur_mem : (uncur s ).mem = s.mem := rfl
@[simp] theorem uncur_poison : (uncur s ).poison = s.poison := rfl
@[simp] theorem uncur_writes : (uncur s ).writes = s.writes := rfl
@[simp] theorem uncur_past : (uncur s ).past = s.past := rfl
@[simp] theorem uncur_orders : (uncur s ).orders = s.orders := rfl
@[simp] theorem uncur_fences : (uncur s ).fences = s.fences := rfl
@[simp] theorem uncur_tlb : (uncur s ).tlb = s.tlb := rfl
@[simp] theorem uncur_ptrs : (uncur s ).ptrs = s.ptrs := rfl
@[simp] theorem uncur_l1d : (uncur s ).l1d = s.l1d := rfl
@[simp] theorem uncur_l1i : (uncur s ).l1i = s.l1i := rfl
@[simp] theorem uncur_l2c : (uncur s ).l2c = s.l2c := rfl
@[simp] theorem uncur_dirty : (uncur s ).dirty = s.dirty := rfl
@[simp] theorem uncur_ctl : (uncur s ).ctl = s.ctl := rfl
@[simp] theorem uncur_cmd : (uncur s ).cmd = s.cmd := rfl
@[simp] theorem uncur_clusters : (uncur s ).clusters = s.clusters := rfl
@[simp] theorem uncur_cores : (uncur s ).cores = s.cores := rfl
@[simp] theorem uncur_contexts : (uncur s ).contexts = s.contexts := rfl
@[simp] theorem uncur_launches : (uncur s ).launches = s.launches := rfl
@[simp] theorem uncur_teams : (uncur s ).teams = s.teams := rfl
@[simp] theorem uncur_nextTeam : (uncur s ).nextTeam = s.nextTeam := rfl
@[simp] theorem uncur_groups : (uncur s ).groups = s.groups := rfl
@[simp] theorem uncur_saved : (uncur s ).saved = s.saved := rfl
@[simp] theorem uncur_vault : (uncur s ).vault = s.vault := rfl
@[simp] theorem uncur_imagesOut : (uncur s ).imagesOut = s.imagesOut := rfl
@[simp] theorem uncur_completions : (uncur s ).completions = s.completions := rfl
@[simp] theorem uncur_blocks : (uncur s ).blocks = s.blocks := rfl
@[simp] theorem uncur_bumps : (uncur s ).bumps = s.bumps := rfl
@[simp] theorem uncur_evSince : (uncur s ).evSince = s.evSince := rfl
@[simp] theorem uncur_evOldest : (uncur s ).evOldest = s.evOldest := rfl
@[simp] theorem uncur_faultQ : (uncur s ).faultQ = s.faultQ := rfl
@[simp] theorem uncur_noticeQ : (uncur s ).noticeQ = s.noticeQ := rfl
@[simp] theorem uncur_zeroing : (uncur s ).zeroing = s.zeroing := rfl
@[simp] theorem uncur_inval : (uncur s ).inval = s.inval := rfl
@[simp] theorem uncur_swaps : (uncur s ).swaps = s.swaps := rfl
@[simp] theorem uncur_extents : (uncur s ).extents = s.extents := rfl
@[simp] theorem uncur_nearStacks : (uncur s ).nearStacks = s.nearStacks := rfl
@[simp] theorem uncur_mapout : (uncur s ).mapout = s.mapout := rfl
@[simp] theorem uncur_stalls : (uncur s ).stalls = s.stalls := rfl
@[simp] theorem uncur_masonQ : (uncur s ).masonQ = s.masonQ := rfl
@[simp] theorem uncur_courses : (uncur s ).courses = s.courses := rfl
@[simp] theorem uncur_spRestarts : (uncur s ).spRestarts = s.spRestarts := rfl
@[simp] theorem uncur_fabOps : (uncur s ).fabOps = s.fabOps := rfl
@[simp] theorem uncur_nextFab : (uncur s ).nextFab = s.nextFab := rfl
@[simp] theorem uncur_pkts : (uncur s ).pkts = s.pkts := rfl
@[simp] theorem uncur_nextPkt : (uncur s ).nextPkt = s.nextPkt := rfl
@[simp] theorem uncur_streams : (uncur s ).streams = s.streams := rfl
@[simp] theorem uncur_nextStream : (uncur s ).nextStream = s.nextStream := rfl
@[simp] theorem uncur_paths : (uncur s ).paths = s.paths := rfl
@[simp] theorem uncur_inStreams : (uncur s ).inStreams = s.inStreams := rfl
@[simp] theorem uncur_down : (uncur s ).down = s.down := rfl
@[simp] theorem uncur_noticeSeq : (uncur s ).noticeSeq = s.noticeSeq := rfl
@[simp] theorem uncur_noticesOut : (uncur s ).noticesOut = s.noticesOut := rfl
@[simp] theorem uncur_served : (uncur s ).served = s.served := rfl
@[simp] theorem uncur_blocked : (uncur s ).blocked = s.blocked := rfl
@[simp] theorem uncur_links : (uncur s ).links = s.links := rfl
@[simp] theorem uncur_depWait : (uncur s ).depWait = s.depWait := rfl
@[simp] theorem uncur_paused : (uncur s ).paused = s.paused := rfl
@[simp] theorem uncur_hasServed : (uncur s ).hasServed = s.hasServed := rfl
@[simp] theorem uncur_ck : (uncur s ).ck = s.ck := rfl
@[simp] theorem uncur_flash : (uncur s ).flash = s.flash := rfl
@[simp] theorem uncur_staged : (uncur s ).staged = s.staged := rfl
@[simp] theorem uncur_refused : (uncur s ).refused = s.refused := rfl
@[simp] theorem uncur_predKept : (uncur s ).predKept = s.predKept := rfl
@[simp] theorem uncur_held : (uncur s ).held = s.held := rfl
@[simp] theorem uncur_attDone : (uncur s ).attDone = s.attDone := rfl

end uncur

section modGroup

variable (s : State) (w : Who) (f : Group → Group)

@[simp] theorem modGroup_agenda : (modGroup s w f).agenda = s.agenda := rfl
@[simp] theorem modGroup_free : (modGroup s w f).free = s.free := rfl
@[simp] theorem modGroup_cur : (modGroup s w f).cur = s.cur := rfl
@[simp] theorem modGroup_out : (modGroup s w f).out = s.out := rfl
@[simp] theorem modGroup_hostRd : (modGroup s w f).hostRd = s.hostRd := rfl
@[simp] theorem modGroup_hostCause : (modGroup s w f).hostCause = s.hostCause := rfl
@[simp] theorem modGroup_hostMode : (modGroup s w f).hostMode = s.hostMode := rfl
@[simp] theorem modGroup_peerDrops : (modGroup s w f).peerDrops = s.peerDrops := rfl
@[simp] theorem modGroup_cycle : (modGroup s w f).cycle = s.cycle := rfl
@[simp] theorem modGroup_timeFs : (modGroup s w f).timeFs = s.timeFs := rfl
@[simp] theorem modGroup_mem : (modGroup s w f).mem = s.mem := rfl
@[simp] theorem modGroup_poison : (modGroup s w f).poison = s.poison := rfl
@[simp] theorem modGroup_writes : (modGroup s w f).writes = s.writes := rfl
@[simp] theorem modGroup_past : (modGroup s w f).past = s.past := rfl
@[simp] theorem modGroup_orders : (modGroup s w f).orders = s.orders := rfl
@[simp] theorem modGroup_fences : (modGroup s w f).fences = s.fences := rfl
@[simp] theorem modGroup_tlb : (modGroup s w f).tlb = s.tlb := rfl
@[simp] theorem modGroup_ptrs : (modGroup s w f).ptrs = s.ptrs := rfl
@[simp] theorem modGroup_l1d : (modGroup s w f).l1d = s.l1d := rfl
@[simp] theorem modGroup_l1i : (modGroup s w f).l1i = s.l1i := rfl
@[simp] theorem modGroup_l2c : (modGroup s w f).l2c = s.l2c := rfl
@[simp] theorem modGroup_dirty : (modGroup s w f).dirty = s.dirty := rfl
@[simp] theorem modGroup_ctl : (modGroup s w f).ctl = s.ctl := rfl
@[simp] theorem modGroup_cmd : (modGroup s w f).cmd = s.cmd := rfl
@[simp] theorem modGroup_clusters : (modGroup s w f).clusters = s.clusters := rfl
@[simp] theorem modGroup_cores : (modGroup s w f).cores = s.cores := rfl
@[simp] theorem modGroup_contexts : (modGroup s w f).contexts = s.contexts := rfl
@[simp] theorem modGroup_launches : (modGroup s w f).launches = s.launches := rfl
@[simp] theorem modGroup_teams : (modGroup s w f).teams = s.teams := rfl
@[simp] theorem modGroup_nextTeam : (modGroup s w f).nextTeam = s.nextTeam := rfl
@[simp] theorem modGroup_saved : (modGroup s w f).saved = s.saved := rfl
@[simp] theorem modGroup_vault : (modGroup s w f).vault = s.vault := rfl
@[simp] theorem modGroup_imagesOut : (modGroup s w f).imagesOut = s.imagesOut := rfl
@[simp] theorem modGroup_completions : (modGroup s w f).completions = s.completions := rfl
@[simp] theorem modGroup_blocks : (modGroup s w f).blocks = s.blocks := rfl
@[simp] theorem modGroup_bumps : (modGroup s w f).bumps = s.bumps := rfl
@[simp] theorem modGroup_evSince : (modGroup s w f).evSince = s.evSince := rfl
@[simp] theorem modGroup_evOldest : (modGroup s w f).evOldest = s.evOldest := rfl
@[simp] theorem modGroup_faultQ : (modGroup s w f).faultQ = s.faultQ := rfl
@[simp] theorem modGroup_noticeQ : (modGroup s w f).noticeQ = s.noticeQ := rfl
@[simp] theorem modGroup_zeroing : (modGroup s w f).zeroing = s.zeroing := rfl
@[simp] theorem modGroup_inval : (modGroup s w f).inval = s.inval := rfl
@[simp] theorem modGroup_swaps : (modGroup s w f).swaps = s.swaps := rfl
@[simp] theorem modGroup_extents : (modGroup s w f).extents = s.extents := rfl
@[simp] theorem modGroup_nearStacks : (modGroup s w f).nearStacks = s.nearStacks := rfl
@[simp] theorem modGroup_mapout : (modGroup s w f).mapout = s.mapout := rfl
@[simp] theorem modGroup_stalls : (modGroup s w f).stalls = s.stalls := rfl
@[simp] theorem modGroup_masonQ : (modGroup s w f).masonQ = s.masonQ := rfl
@[simp] theorem modGroup_courses : (modGroup s w f).courses = s.courses := rfl
@[simp] theorem modGroup_spRestarts : (modGroup s w f).spRestarts = s.spRestarts := rfl
@[simp] theorem modGroup_fabOps : (modGroup s w f).fabOps = s.fabOps := rfl
@[simp] theorem modGroup_nextFab : (modGroup s w f).nextFab = s.nextFab := rfl
@[simp] theorem modGroup_pkts : (modGroup s w f).pkts = s.pkts := rfl
@[simp] theorem modGroup_nextPkt : (modGroup s w f).nextPkt = s.nextPkt := rfl
@[simp] theorem modGroup_streams : (modGroup s w f).streams = s.streams := rfl
@[simp] theorem modGroup_nextStream : (modGroup s w f).nextStream = s.nextStream := rfl
@[simp] theorem modGroup_paths : (modGroup s w f).paths = s.paths := rfl
@[simp] theorem modGroup_inStreams : (modGroup s w f).inStreams = s.inStreams := rfl
@[simp] theorem modGroup_down : (modGroup s w f).down = s.down := rfl
@[simp] theorem modGroup_noticeSeq : (modGroup s w f).noticeSeq = s.noticeSeq := rfl
@[simp] theorem modGroup_noticesOut : (modGroup s w f).noticesOut = s.noticesOut := rfl
@[simp] theorem modGroup_served : (modGroup s w f).served = s.served := rfl
@[simp] theorem modGroup_blocked : (modGroup s w f).blocked = s.blocked := rfl
@[simp] theorem modGroup_links : (modGroup s w f).links = s.links := rfl
@[simp] theorem modGroup_depWait : (modGroup s w f).depWait = s.depWait := rfl
@[simp] theorem modGroup_paused : (modGroup s w f).paused = s.paused := rfl
@[simp] theorem modGroup_hasServed : (modGroup s w f).hasServed = s.hasServed := rfl
@[simp] theorem modGroup_ck : (modGroup s w f).ck = s.ck := rfl
@[simp] theorem modGroup_flash : (modGroup s w f).flash = s.flash := rfl
@[simp] theorem modGroup_staged : (modGroup s w f).staged = s.staged := rfl
@[simp] theorem modGroup_refused : (modGroup s w f).refused = s.refused := rfl
@[simp] theorem modGroup_predKept : (modGroup s w f).predKept = s.predKept := rfl
@[simp] theorem modGroup_held : (modGroup s w f).held = s.held := rfl
@[simp] theorem modGroup_attDone : (modGroup s w f).attDone = s.attDone := rfl

end modGroup

section setGroup

variable (s : State) (g : Group)

@[simp] theorem setGroup_agenda : (setGroup s g).agenda = s.agenda := rfl
@[simp] theorem setGroup_free : (setGroup s g).free = s.free := rfl
@[simp] theorem setGroup_cur : (setGroup s g).cur = s.cur := rfl
@[simp] theorem setGroup_out : (setGroup s g).out = s.out := rfl
@[simp] theorem setGroup_hostRd : (setGroup s g).hostRd = s.hostRd := rfl
@[simp] theorem setGroup_hostCause : (setGroup s g).hostCause = s.hostCause := rfl
@[simp] theorem setGroup_hostMode : (setGroup s g).hostMode = s.hostMode := rfl
@[simp] theorem setGroup_peerDrops : (setGroup s g).peerDrops = s.peerDrops := rfl
@[simp] theorem setGroup_cycle : (setGroup s g).cycle = s.cycle := rfl
@[simp] theorem setGroup_timeFs : (setGroup s g).timeFs = s.timeFs := rfl
@[simp] theorem setGroup_mem : (setGroup s g).mem = s.mem := rfl
@[simp] theorem setGroup_poison : (setGroup s g).poison = s.poison := rfl
@[simp] theorem setGroup_writes : (setGroup s g).writes = s.writes := rfl
@[simp] theorem setGroup_past : (setGroup s g).past = s.past := rfl
@[simp] theorem setGroup_orders : (setGroup s g).orders = s.orders := rfl
@[simp] theorem setGroup_fences : (setGroup s g).fences = s.fences := rfl
@[simp] theorem setGroup_tlb : (setGroup s g).tlb = s.tlb := rfl
@[simp] theorem setGroup_ptrs : (setGroup s g).ptrs = s.ptrs := rfl
@[simp] theorem setGroup_l1d : (setGroup s g).l1d = s.l1d := rfl
@[simp] theorem setGroup_l1i : (setGroup s g).l1i = s.l1i := rfl
@[simp] theorem setGroup_l2c : (setGroup s g).l2c = s.l2c := rfl
@[simp] theorem setGroup_dirty : (setGroup s g).dirty = s.dirty := rfl
@[simp] theorem setGroup_ctl : (setGroup s g).ctl = s.ctl := rfl
@[simp] theorem setGroup_cmd : (setGroup s g).cmd = s.cmd := rfl
@[simp] theorem setGroup_clusters : (setGroup s g).clusters = s.clusters := rfl
@[simp] theorem setGroup_cores : (setGroup s g).cores = s.cores := rfl
@[simp] theorem setGroup_contexts : (setGroup s g).contexts = s.contexts := rfl
@[simp] theorem setGroup_launches : (setGroup s g).launches = s.launches := rfl
@[simp] theorem setGroup_teams : (setGroup s g).teams = s.teams := rfl
@[simp] theorem setGroup_nextTeam : (setGroup s g).nextTeam = s.nextTeam := rfl
@[simp] theorem setGroup_saved : (setGroup s g).saved = s.saved := rfl
@[simp] theorem setGroup_vault : (setGroup s g).vault = s.vault := rfl
@[simp] theorem setGroup_imagesOut : (setGroup s g).imagesOut = s.imagesOut := rfl
@[simp] theorem setGroup_completions : (setGroup s g).completions = s.completions := rfl
@[simp] theorem setGroup_blocks : (setGroup s g).blocks = s.blocks := rfl
@[simp] theorem setGroup_bumps : (setGroup s g).bumps = s.bumps := rfl
@[simp] theorem setGroup_evSince : (setGroup s g).evSince = s.evSince := rfl
@[simp] theorem setGroup_evOldest : (setGroup s g).evOldest = s.evOldest := rfl
@[simp] theorem setGroup_faultQ : (setGroup s g).faultQ = s.faultQ := rfl
@[simp] theorem setGroup_noticeQ : (setGroup s g).noticeQ = s.noticeQ := rfl
@[simp] theorem setGroup_zeroing : (setGroup s g).zeroing = s.zeroing := rfl
@[simp] theorem setGroup_inval : (setGroup s g).inval = s.inval := rfl
@[simp] theorem setGroup_swaps : (setGroup s g).swaps = s.swaps := rfl
@[simp] theorem setGroup_extents : (setGroup s g).extents = s.extents := rfl
@[simp] theorem setGroup_nearStacks : (setGroup s g).nearStacks = s.nearStacks := rfl
@[simp] theorem setGroup_mapout : (setGroup s g).mapout = s.mapout := rfl
@[simp] theorem setGroup_stalls : (setGroup s g).stalls = s.stalls := rfl
@[simp] theorem setGroup_masonQ : (setGroup s g).masonQ = s.masonQ := rfl
@[simp] theorem setGroup_courses : (setGroup s g).courses = s.courses := rfl
@[simp] theorem setGroup_spRestarts : (setGroup s g).spRestarts = s.spRestarts := rfl
@[simp] theorem setGroup_fabOps : (setGroup s g).fabOps = s.fabOps := rfl
@[simp] theorem setGroup_nextFab : (setGroup s g).nextFab = s.nextFab := rfl
@[simp] theorem setGroup_pkts : (setGroup s g).pkts = s.pkts := rfl
@[simp] theorem setGroup_nextPkt : (setGroup s g).nextPkt = s.nextPkt := rfl
@[simp] theorem setGroup_streams : (setGroup s g).streams = s.streams := rfl
@[simp] theorem setGroup_nextStream : (setGroup s g).nextStream = s.nextStream := rfl
@[simp] theorem setGroup_paths : (setGroup s g).paths = s.paths := rfl
@[simp] theorem setGroup_inStreams : (setGroup s g).inStreams = s.inStreams := rfl
@[simp] theorem setGroup_down : (setGroup s g).down = s.down := rfl
@[simp] theorem setGroup_noticeSeq : (setGroup s g).noticeSeq = s.noticeSeq := rfl
@[simp] theorem setGroup_noticesOut : (setGroup s g).noticesOut = s.noticesOut := rfl
@[simp] theorem setGroup_served : (setGroup s g).served = s.served := rfl
@[simp] theorem setGroup_blocked : (setGroup s g).blocked = s.blocked := rfl
@[simp] theorem setGroup_links : (setGroup s g).links = s.links := rfl
@[simp] theorem setGroup_depWait : (setGroup s g).depWait = s.depWait := rfl
@[simp] theorem setGroup_paused : (setGroup s g).paused = s.paused := rfl
@[simp] theorem setGroup_hasServed : (setGroup s g).hasServed = s.hasServed := rfl
@[simp] theorem setGroup_ck : (setGroup s g).ck = s.ck := rfl
@[simp] theorem setGroup_flash : (setGroup s g).flash = s.flash := rfl
@[simp] theorem setGroup_staged : (setGroup s g).staged = s.staged := rfl
@[simp] theorem setGroup_refused : (setGroup s g).refused = s.refused := rfl
@[simp] theorem setGroup_predKept : (setGroup s g).predKept = s.predKept := rfl
@[simp] theorem setGroup_held : (setGroup s g).held = s.held := rfl
@[simp] theorem setGroup_attDone : (setGroup s g).attDone = s.attDone := rfl

end setGroup

section dropGroup

variable (s : State) (w : Who)

@[simp] theorem dropGroup_agenda : (dropGroup s w).agenda = s.agenda := rfl
@[simp] theorem dropGroup_free : (dropGroup s w).free = s.free := rfl
@[simp] theorem dropGroup_cur : (dropGroup s w).cur = s.cur := rfl
@[simp] theorem dropGroup_out : (dropGroup s w).out = s.out := rfl
@[simp] theorem dropGroup_hostRd : (dropGroup s w).hostRd = s.hostRd := rfl
@[simp] theorem dropGroup_hostCause : (dropGroup s w).hostCause = s.hostCause := rfl
@[simp] theorem dropGroup_hostMode : (dropGroup s w).hostMode = s.hostMode := rfl
@[simp] theorem dropGroup_peerDrops : (dropGroup s w).peerDrops = s.peerDrops := rfl
@[simp] theorem dropGroup_cycle : (dropGroup s w).cycle = s.cycle := rfl
@[simp] theorem dropGroup_timeFs : (dropGroup s w).timeFs = s.timeFs := rfl
@[simp] theorem dropGroup_mem : (dropGroup s w).mem = s.mem := rfl
@[simp] theorem dropGroup_poison : (dropGroup s w).poison = s.poison := rfl
@[simp] theorem dropGroup_writes : (dropGroup s w).writes = s.writes := rfl
@[simp] theorem dropGroup_past : (dropGroup s w).past = s.past := rfl
@[simp] theorem dropGroup_orders : (dropGroup s w).orders = s.orders := rfl
@[simp] theorem dropGroup_fences : (dropGroup s w).fences = s.fences := rfl
@[simp] theorem dropGroup_tlb : (dropGroup s w).tlb = s.tlb := rfl
@[simp] theorem dropGroup_ptrs : (dropGroup s w).ptrs = s.ptrs := rfl
@[simp] theorem dropGroup_l1d : (dropGroup s w).l1d = s.l1d := rfl
@[simp] theorem dropGroup_l1i : (dropGroup s w).l1i = s.l1i := rfl
@[simp] theorem dropGroup_l2c : (dropGroup s w).l2c = s.l2c := rfl
@[simp] theorem dropGroup_dirty : (dropGroup s w).dirty = s.dirty := rfl
@[simp] theorem dropGroup_ctl : (dropGroup s w).ctl = s.ctl := rfl
@[simp] theorem dropGroup_cmd : (dropGroup s w).cmd = s.cmd := rfl
@[simp] theorem dropGroup_clusters : (dropGroup s w).clusters = s.clusters := rfl
@[simp] theorem dropGroup_cores : (dropGroup s w).cores = s.cores := rfl
@[simp] theorem dropGroup_contexts : (dropGroup s w).contexts = s.contexts := rfl
@[simp] theorem dropGroup_launches : (dropGroup s w).launches = s.launches := rfl
@[simp] theorem dropGroup_teams : (dropGroup s w).teams = s.teams := rfl
@[simp] theorem dropGroup_nextTeam : (dropGroup s w).nextTeam = s.nextTeam := rfl
@[simp] theorem dropGroup_saved : (dropGroup s w).saved = s.saved := rfl
@[simp] theorem dropGroup_vault : (dropGroup s w).vault = s.vault := rfl
@[simp] theorem dropGroup_imagesOut : (dropGroup s w).imagesOut = s.imagesOut := rfl
@[simp] theorem dropGroup_completions : (dropGroup s w).completions = s.completions := rfl
@[simp] theorem dropGroup_blocks : (dropGroup s w).blocks = s.blocks := rfl
@[simp] theorem dropGroup_bumps : (dropGroup s w).bumps = s.bumps := rfl
@[simp] theorem dropGroup_evSince : (dropGroup s w).evSince = s.evSince := rfl
@[simp] theorem dropGroup_evOldest : (dropGroup s w).evOldest = s.evOldest := rfl
@[simp] theorem dropGroup_faultQ : (dropGroup s w).faultQ = s.faultQ := rfl
@[simp] theorem dropGroup_noticeQ : (dropGroup s w).noticeQ = s.noticeQ := rfl
@[simp] theorem dropGroup_zeroing : (dropGroup s w).zeroing = s.zeroing := rfl
@[simp] theorem dropGroup_inval : (dropGroup s w).inval = s.inval := rfl
@[simp] theorem dropGroup_swaps : (dropGroup s w).swaps = s.swaps := rfl
@[simp] theorem dropGroup_extents : (dropGroup s w).extents = s.extents := rfl
@[simp] theorem dropGroup_nearStacks : (dropGroup s w).nearStacks = s.nearStacks := rfl
@[simp] theorem dropGroup_mapout : (dropGroup s w).mapout = s.mapout := rfl
@[simp] theorem dropGroup_stalls : (dropGroup s w).stalls = s.stalls := rfl
@[simp] theorem dropGroup_masonQ : (dropGroup s w).masonQ = s.masonQ := rfl
@[simp] theorem dropGroup_courses : (dropGroup s w).courses = s.courses := rfl
@[simp] theorem dropGroup_spRestarts : (dropGroup s w).spRestarts = s.spRestarts := rfl
@[simp] theorem dropGroup_fabOps : (dropGroup s w).fabOps = s.fabOps := rfl
@[simp] theorem dropGroup_nextFab : (dropGroup s w).nextFab = s.nextFab := rfl
@[simp] theorem dropGroup_pkts : (dropGroup s w).pkts = s.pkts := rfl
@[simp] theorem dropGroup_nextPkt : (dropGroup s w).nextPkt = s.nextPkt := rfl
@[simp] theorem dropGroup_streams : (dropGroup s w).streams = s.streams := rfl
@[simp] theorem dropGroup_nextStream : (dropGroup s w).nextStream = s.nextStream := rfl
@[simp] theorem dropGroup_paths : (dropGroup s w).paths = s.paths := rfl
@[simp] theorem dropGroup_inStreams : (dropGroup s w).inStreams = s.inStreams := rfl
@[simp] theorem dropGroup_down : (dropGroup s w).down = s.down := rfl
@[simp] theorem dropGroup_noticeSeq : (dropGroup s w).noticeSeq = s.noticeSeq := rfl
@[simp] theorem dropGroup_noticesOut : (dropGroup s w).noticesOut = s.noticesOut := rfl
@[simp] theorem dropGroup_served : (dropGroup s w).served = s.served := rfl
@[simp] theorem dropGroup_blocked : (dropGroup s w).blocked = s.blocked := rfl
@[simp] theorem dropGroup_links : (dropGroup s w).links = s.links := rfl
@[simp] theorem dropGroup_depWait : (dropGroup s w).depWait = s.depWait := rfl
@[simp] theorem dropGroup_paused : (dropGroup s w).paused = s.paused := rfl
@[simp] theorem dropGroup_hasServed : (dropGroup s w).hasServed = s.hasServed := rfl
@[simp] theorem dropGroup_ck : (dropGroup s w).ck = s.ck := rfl
@[simp] theorem dropGroup_flash : (dropGroup s w).flash = s.flash := rfl
@[simp] theorem dropGroup_staged : (dropGroup s w).staged = s.staged := rfl
@[simp] theorem dropGroup_refused : (dropGroup s w).refused = s.refused := rfl
@[simp] theorem dropGroup_predKept : (dropGroup s w).predKept = s.predKept := rfl
@[simp] theorem dropGroup_held : (dropGroup s w).held = s.held := rfl
@[simp] theorem dropGroup_attDone : (dropGroup s w).attDone = s.attDone := rfl

end dropGroup

section modTeam

variable (s : State) (k : Nat) (f : Team → Team)

@[simp] theorem modTeam_agenda : (modTeam s k f).agenda = s.agenda := rfl
@[simp] theorem modTeam_free : (modTeam s k f).free = s.free := rfl
@[simp] theorem modTeam_cur : (modTeam s k f).cur = s.cur := rfl
@[simp] theorem modTeam_out : (modTeam s k f).out = s.out := rfl
@[simp] theorem modTeam_hostRd : (modTeam s k f).hostRd = s.hostRd := rfl
@[simp] theorem modTeam_hostCause : (modTeam s k f).hostCause = s.hostCause := rfl
@[simp] theorem modTeam_hostMode : (modTeam s k f).hostMode = s.hostMode := rfl
@[simp] theorem modTeam_peerDrops : (modTeam s k f).peerDrops = s.peerDrops := rfl
@[simp] theorem modTeam_cycle : (modTeam s k f).cycle = s.cycle := rfl
@[simp] theorem modTeam_timeFs : (modTeam s k f).timeFs = s.timeFs := rfl
@[simp] theorem modTeam_mem : (modTeam s k f).mem = s.mem := rfl
@[simp] theorem modTeam_poison : (modTeam s k f).poison = s.poison := rfl
@[simp] theorem modTeam_writes : (modTeam s k f).writes = s.writes := rfl
@[simp] theorem modTeam_past : (modTeam s k f).past = s.past := rfl
@[simp] theorem modTeam_orders : (modTeam s k f).orders = s.orders := rfl
@[simp] theorem modTeam_fences : (modTeam s k f).fences = s.fences := rfl
@[simp] theorem modTeam_tlb : (modTeam s k f).tlb = s.tlb := rfl
@[simp] theorem modTeam_ptrs : (modTeam s k f).ptrs = s.ptrs := rfl
@[simp] theorem modTeam_l1d : (modTeam s k f).l1d = s.l1d := rfl
@[simp] theorem modTeam_l1i : (modTeam s k f).l1i = s.l1i := rfl
@[simp] theorem modTeam_l2c : (modTeam s k f).l2c = s.l2c := rfl
@[simp] theorem modTeam_dirty : (modTeam s k f).dirty = s.dirty := rfl
@[simp] theorem modTeam_ctl : (modTeam s k f).ctl = s.ctl := rfl
@[simp] theorem modTeam_cmd : (modTeam s k f).cmd = s.cmd := rfl
@[simp] theorem modTeam_clusters : (modTeam s k f).clusters = s.clusters := rfl
@[simp] theorem modTeam_cores : (modTeam s k f).cores = s.cores := rfl
@[simp] theorem modTeam_contexts : (modTeam s k f).contexts = s.contexts := rfl
@[simp] theorem modTeam_launches : (modTeam s k f).launches = s.launches := rfl
@[simp] theorem modTeam_nextTeam : (modTeam s k f).nextTeam = s.nextTeam := rfl
@[simp] theorem modTeam_groups : (modTeam s k f).groups = s.groups := rfl
@[simp] theorem modTeam_saved : (modTeam s k f).saved = s.saved := rfl
@[simp] theorem modTeam_vault : (modTeam s k f).vault = s.vault := rfl
@[simp] theorem modTeam_imagesOut : (modTeam s k f).imagesOut = s.imagesOut := rfl
@[simp] theorem modTeam_completions : (modTeam s k f).completions = s.completions := rfl
@[simp] theorem modTeam_blocks : (modTeam s k f).blocks = s.blocks := rfl
@[simp] theorem modTeam_bumps : (modTeam s k f).bumps = s.bumps := rfl
@[simp] theorem modTeam_evSince : (modTeam s k f).evSince = s.evSince := rfl
@[simp] theorem modTeam_evOldest : (modTeam s k f).evOldest = s.evOldest := rfl
@[simp] theorem modTeam_faultQ : (modTeam s k f).faultQ = s.faultQ := rfl
@[simp] theorem modTeam_noticeQ : (modTeam s k f).noticeQ = s.noticeQ := rfl
@[simp] theorem modTeam_zeroing : (modTeam s k f).zeroing = s.zeroing := rfl
@[simp] theorem modTeam_inval : (modTeam s k f).inval = s.inval := rfl
@[simp] theorem modTeam_swaps : (modTeam s k f).swaps = s.swaps := rfl
@[simp] theorem modTeam_extents : (modTeam s k f).extents = s.extents := rfl
@[simp] theorem modTeam_nearStacks : (modTeam s k f).nearStacks = s.nearStacks := rfl
@[simp] theorem modTeam_mapout : (modTeam s k f).mapout = s.mapout := rfl
@[simp] theorem modTeam_stalls : (modTeam s k f).stalls = s.stalls := rfl
@[simp] theorem modTeam_masonQ : (modTeam s k f).masonQ = s.masonQ := rfl
@[simp] theorem modTeam_courses : (modTeam s k f).courses = s.courses := rfl
@[simp] theorem modTeam_spRestarts : (modTeam s k f).spRestarts = s.spRestarts := rfl
@[simp] theorem modTeam_fabOps : (modTeam s k f).fabOps = s.fabOps := rfl
@[simp] theorem modTeam_nextFab : (modTeam s k f).nextFab = s.nextFab := rfl
@[simp] theorem modTeam_pkts : (modTeam s k f).pkts = s.pkts := rfl
@[simp] theorem modTeam_nextPkt : (modTeam s k f).nextPkt = s.nextPkt := rfl
@[simp] theorem modTeam_streams : (modTeam s k f).streams = s.streams := rfl
@[simp] theorem modTeam_nextStream : (modTeam s k f).nextStream = s.nextStream := rfl
@[simp] theorem modTeam_paths : (modTeam s k f).paths = s.paths := rfl
@[simp] theorem modTeam_inStreams : (modTeam s k f).inStreams = s.inStreams := rfl
@[simp] theorem modTeam_down : (modTeam s k f).down = s.down := rfl
@[simp] theorem modTeam_noticeSeq : (modTeam s k f).noticeSeq = s.noticeSeq := rfl
@[simp] theorem modTeam_noticesOut : (modTeam s k f).noticesOut = s.noticesOut := rfl
@[simp] theorem modTeam_served : (modTeam s k f).served = s.served := rfl
@[simp] theorem modTeam_blocked : (modTeam s k f).blocked = s.blocked := rfl
@[simp] theorem modTeam_links : (modTeam s k f).links = s.links := rfl
@[simp] theorem modTeam_depWait : (modTeam s k f).depWait = s.depWait := rfl
@[simp] theorem modTeam_paused : (modTeam s k f).paused = s.paused := rfl
@[simp] theorem modTeam_hasServed : (modTeam s k f).hasServed = s.hasServed := rfl
@[simp] theorem modTeam_ck : (modTeam s k f).ck = s.ck := rfl
@[simp] theorem modTeam_flash : (modTeam s k f).flash = s.flash := rfl
@[simp] theorem modTeam_staged : (modTeam s k f).staged = s.staged := rfl
@[simp] theorem modTeam_refused : (modTeam s k f).refused = s.refused := rfl
@[simp] theorem modTeam_predKept : (modTeam s k f).predKept = s.predKept := rfl
@[simp] theorem modTeam_held : (modTeam s k f).held = s.held := rfl
@[simp] theorem modTeam_attDone : (modTeam s k f).attDone = s.attDone := rfl

end modTeam

section modLaunch

variable (s : State) (c : Nat) (n : W32) (f : Launch → Launch)

@[simp] theorem modLaunch_agenda : (modLaunch s c n f).agenda = s.agenda := rfl
@[simp] theorem modLaunch_free : (modLaunch s c n f).free = s.free := rfl
@[simp] theorem modLaunch_cur : (modLaunch s c n f).cur = s.cur := rfl
@[simp] theorem modLaunch_out : (modLaunch s c n f).out = s.out := rfl
@[simp] theorem modLaunch_hostRd : (modLaunch s c n f).hostRd = s.hostRd := rfl
@[simp] theorem modLaunch_hostCause : (modLaunch s c n f).hostCause = s.hostCause := rfl
@[simp] theorem modLaunch_hostMode : (modLaunch s c n f).hostMode = s.hostMode := rfl
@[simp] theorem modLaunch_peerDrops : (modLaunch s c n f).peerDrops = s.peerDrops := rfl
@[simp] theorem modLaunch_cycle : (modLaunch s c n f).cycle = s.cycle := rfl
@[simp] theorem modLaunch_timeFs : (modLaunch s c n f).timeFs = s.timeFs := rfl
@[simp] theorem modLaunch_mem : (modLaunch s c n f).mem = s.mem := rfl
@[simp] theorem modLaunch_poison : (modLaunch s c n f).poison = s.poison := rfl
@[simp] theorem modLaunch_writes : (modLaunch s c n f).writes = s.writes := rfl
@[simp] theorem modLaunch_past : (modLaunch s c n f).past = s.past := rfl
@[simp] theorem modLaunch_orders : (modLaunch s c n f).orders = s.orders := rfl
@[simp] theorem modLaunch_fences : (modLaunch s c n f).fences = s.fences := rfl
@[simp] theorem modLaunch_tlb : (modLaunch s c n f).tlb = s.tlb := rfl
@[simp] theorem modLaunch_ptrs : (modLaunch s c n f).ptrs = s.ptrs := rfl
@[simp] theorem modLaunch_l1d : (modLaunch s c n f).l1d = s.l1d := rfl
@[simp] theorem modLaunch_l1i : (modLaunch s c n f).l1i = s.l1i := rfl
@[simp] theorem modLaunch_l2c : (modLaunch s c n f).l2c = s.l2c := rfl
@[simp] theorem modLaunch_dirty : (modLaunch s c n f).dirty = s.dirty := rfl
@[simp] theorem modLaunch_ctl : (modLaunch s c n f).ctl = s.ctl := rfl
@[simp] theorem modLaunch_cmd : (modLaunch s c n f).cmd = s.cmd := rfl
@[simp] theorem modLaunch_clusters : (modLaunch s c n f).clusters = s.clusters := rfl
@[simp] theorem modLaunch_cores : (modLaunch s c n f).cores = s.cores := rfl
@[simp] theorem modLaunch_contexts : (modLaunch s c n f).contexts = s.contexts := rfl
@[simp] theorem modLaunch_teams : (modLaunch s c n f).teams = s.teams := rfl
@[simp] theorem modLaunch_nextTeam : (modLaunch s c n f).nextTeam = s.nextTeam := rfl
@[simp] theorem modLaunch_groups : (modLaunch s c n f).groups = s.groups := rfl
@[simp] theorem modLaunch_saved : (modLaunch s c n f).saved = s.saved := rfl
@[simp] theorem modLaunch_vault : (modLaunch s c n f).vault = s.vault := rfl
@[simp] theorem modLaunch_imagesOut : (modLaunch s c n f).imagesOut = s.imagesOut := rfl
@[simp] theorem modLaunch_completions : (modLaunch s c n f).completions = s.completions := rfl
@[simp] theorem modLaunch_blocks : (modLaunch s c n f).blocks = s.blocks := rfl
@[simp] theorem modLaunch_bumps : (modLaunch s c n f).bumps = s.bumps := rfl
@[simp] theorem modLaunch_evSince : (modLaunch s c n f).evSince = s.evSince := rfl
@[simp] theorem modLaunch_evOldest : (modLaunch s c n f).evOldest = s.evOldest := rfl
@[simp] theorem modLaunch_faultQ : (modLaunch s c n f).faultQ = s.faultQ := rfl
@[simp] theorem modLaunch_noticeQ : (modLaunch s c n f).noticeQ = s.noticeQ := rfl
@[simp] theorem modLaunch_zeroing : (modLaunch s c n f).zeroing = s.zeroing := rfl
@[simp] theorem modLaunch_inval : (modLaunch s c n f).inval = s.inval := rfl
@[simp] theorem modLaunch_swaps : (modLaunch s c n f).swaps = s.swaps := rfl
@[simp] theorem modLaunch_extents : (modLaunch s c n f).extents = s.extents := rfl
@[simp] theorem modLaunch_nearStacks : (modLaunch s c n f).nearStacks = s.nearStacks := rfl
@[simp] theorem modLaunch_mapout : (modLaunch s c n f).mapout = s.mapout := rfl
@[simp] theorem modLaunch_stalls : (modLaunch s c n f).stalls = s.stalls := rfl
@[simp] theorem modLaunch_masonQ : (modLaunch s c n f).masonQ = s.masonQ := rfl
@[simp] theorem modLaunch_courses : (modLaunch s c n f).courses = s.courses := rfl
@[simp] theorem modLaunch_spRestarts : (modLaunch s c n f).spRestarts = s.spRestarts := rfl
@[simp] theorem modLaunch_fabOps : (modLaunch s c n f).fabOps = s.fabOps := rfl
@[simp] theorem modLaunch_nextFab : (modLaunch s c n f).nextFab = s.nextFab := rfl
@[simp] theorem modLaunch_pkts : (modLaunch s c n f).pkts = s.pkts := rfl
@[simp] theorem modLaunch_nextPkt : (modLaunch s c n f).nextPkt = s.nextPkt := rfl
@[simp] theorem modLaunch_streams : (modLaunch s c n f).streams = s.streams := rfl
@[simp] theorem modLaunch_nextStream : (modLaunch s c n f).nextStream = s.nextStream := rfl
@[simp] theorem modLaunch_paths : (modLaunch s c n f).paths = s.paths := rfl
@[simp] theorem modLaunch_inStreams : (modLaunch s c n f).inStreams = s.inStreams := rfl
@[simp] theorem modLaunch_down : (modLaunch s c n f).down = s.down := rfl
@[simp] theorem modLaunch_noticeSeq : (modLaunch s c n f).noticeSeq = s.noticeSeq := rfl
@[simp] theorem modLaunch_noticesOut : (modLaunch s c n f).noticesOut = s.noticesOut := rfl
@[simp] theorem modLaunch_served : (modLaunch s c n f).served = s.served := rfl
@[simp] theorem modLaunch_blocked : (modLaunch s c n f).blocked = s.blocked := rfl
@[simp] theorem modLaunch_links : (modLaunch s c n f).links = s.links := rfl
@[simp] theorem modLaunch_depWait : (modLaunch s c n f).depWait = s.depWait := rfl
@[simp] theorem modLaunch_paused : (modLaunch s c n f).paused = s.paused := rfl
@[simp] theorem modLaunch_hasServed : (modLaunch s c n f).hasServed = s.hasServed := rfl
@[simp] theorem modLaunch_ck : (modLaunch s c n f).ck = s.ck := rfl
@[simp] theorem modLaunch_flash : (modLaunch s c n f).flash = s.flash := rfl
@[simp] theorem modLaunch_staged : (modLaunch s c n f).staged = s.staged := rfl
@[simp] theorem modLaunch_refused : (modLaunch s c n f).refused = s.refused := rfl
@[simp] theorem modLaunch_predKept : (modLaunch s c n f).predKept = s.predKept := rfl
@[simp] theorem modLaunch_held : (modLaunch s c n f).held = s.held := rfl
@[simp] theorem modLaunch_attDone : (modLaunch s c n f).attDone = s.attDone := rfl

end modLaunch

section modContext

variable (s : State) (c : Nat) (f : Context → Context)

@[simp] theorem modContext_agenda : (modContext s c f).agenda = s.agenda := rfl
@[simp] theorem modContext_free : (modContext s c f).free = s.free := rfl
@[simp] theorem modContext_cur : (modContext s c f).cur = s.cur := rfl
@[simp] theorem modContext_out : (modContext s c f).out = s.out := rfl
@[simp] theorem modContext_hostRd : (modContext s c f).hostRd = s.hostRd := rfl
@[simp] theorem modContext_hostCause : (modContext s c f).hostCause = s.hostCause := rfl
@[simp] theorem modContext_hostMode : (modContext s c f).hostMode = s.hostMode := rfl
@[simp] theorem modContext_peerDrops : (modContext s c f).peerDrops = s.peerDrops := rfl
@[simp] theorem modContext_cycle : (modContext s c f).cycle = s.cycle := rfl
@[simp] theorem modContext_timeFs : (modContext s c f).timeFs = s.timeFs := rfl
@[simp] theorem modContext_mem : (modContext s c f).mem = s.mem := rfl
@[simp] theorem modContext_poison : (modContext s c f).poison = s.poison := rfl
@[simp] theorem modContext_writes : (modContext s c f).writes = s.writes := rfl
@[simp] theorem modContext_past : (modContext s c f).past = s.past := rfl
@[simp] theorem modContext_orders : (modContext s c f).orders = s.orders := rfl
@[simp] theorem modContext_fences : (modContext s c f).fences = s.fences := rfl
@[simp] theorem modContext_tlb : (modContext s c f).tlb = s.tlb := rfl
@[simp] theorem modContext_ptrs : (modContext s c f).ptrs = s.ptrs := rfl
@[simp] theorem modContext_l1d : (modContext s c f).l1d = s.l1d := rfl
@[simp] theorem modContext_l1i : (modContext s c f).l1i = s.l1i := rfl
@[simp] theorem modContext_l2c : (modContext s c f).l2c = s.l2c := rfl
@[simp] theorem modContext_dirty : (modContext s c f).dirty = s.dirty := rfl
@[simp] theorem modContext_ctl : (modContext s c f).ctl = s.ctl := rfl
@[simp] theorem modContext_cmd : (modContext s c f).cmd = s.cmd := rfl
@[simp] theorem modContext_clusters : (modContext s c f).clusters = s.clusters := rfl
@[simp] theorem modContext_cores : (modContext s c f).cores = s.cores := rfl
@[simp] theorem modContext_launches : (modContext s c f).launches = s.launches := rfl
@[simp] theorem modContext_teams : (modContext s c f).teams = s.teams := rfl
@[simp] theorem modContext_nextTeam : (modContext s c f).nextTeam = s.nextTeam := rfl
@[simp] theorem modContext_groups : (modContext s c f).groups = s.groups := rfl
@[simp] theorem modContext_saved : (modContext s c f).saved = s.saved := rfl
@[simp] theorem modContext_vault : (modContext s c f).vault = s.vault := rfl
@[simp] theorem modContext_imagesOut : (modContext s c f).imagesOut = s.imagesOut := rfl
@[simp] theorem modContext_completions : (modContext s c f).completions = s.completions := rfl
@[simp] theorem modContext_blocks : (modContext s c f).blocks = s.blocks := rfl
@[simp] theorem modContext_bumps : (modContext s c f).bumps = s.bumps := rfl
@[simp] theorem modContext_evSince : (modContext s c f).evSince = s.evSince := rfl
@[simp] theorem modContext_evOldest : (modContext s c f).evOldest = s.evOldest := rfl
@[simp] theorem modContext_faultQ : (modContext s c f).faultQ = s.faultQ := rfl
@[simp] theorem modContext_noticeQ : (modContext s c f).noticeQ = s.noticeQ := rfl
@[simp] theorem modContext_zeroing : (modContext s c f).zeroing = s.zeroing := rfl
@[simp] theorem modContext_inval : (modContext s c f).inval = s.inval := rfl
@[simp] theorem modContext_swaps : (modContext s c f).swaps = s.swaps := rfl
@[simp] theorem modContext_extents : (modContext s c f).extents = s.extents := rfl
@[simp] theorem modContext_nearStacks : (modContext s c f).nearStacks = s.nearStacks := rfl
@[simp] theorem modContext_mapout : (modContext s c f).mapout = s.mapout := rfl
@[simp] theorem modContext_stalls : (modContext s c f).stalls = s.stalls := rfl
@[simp] theorem modContext_masonQ : (modContext s c f).masonQ = s.masonQ := rfl
@[simp] theorem modContext_courses : (modContext s c f).courses = s.courses := rfl
@[simp] theorem modContext_spRestarts : (modContext s c f).spRestarts = s.spRestarts := rfl
@[simp] theorem modContext_fabOps : (modContext s c f).fabOps = s.fabOps := rfl
@[simp] theorem modContext_nextFab : (modContext s c f).nextFab = s.nextFab := rfl
@[simp] theorem modContext_pkts : (modContext s c f).pkts = s.pkts := rfl
@[simp] theorem modContext_nextPkt : (modContext s c f).nextPkt = s.nextPkt := rfl
@[simp] theorem modContext_streams : (modContext s c f).streams = s.streams := rfl
@[simp] theorem modContext_nextStream : (modContext s c f).nextStream = s.nextStream := rfl
@[simp] theorem modContext_paths : (modContext s c f).paths = s.paths := rfl
@[simp] theorem modContext_inStreams : (modContext s c f).inStreams = s.inStreams := rfl
@[simp] theorem modContext_down : (modContext s c f).down = s.down := rfl
@[simp] theorem modContext_noticeSeq : (modContext s c f).noticeSeq = s.noticeSeq := rfl
@[simp] theorem modContext_noticesOut : (modContext s c f).noticesOut = s.noticesOut := rfl
@[simp] theorem modContext_served : (modContext s c f).served = s.served := rfl
@[simp] theorem modContext_blocked : (modContext s c f).blocked = s.blocked := rfl
@[simp] theorem modContext_links : (modContext s c f).links = s.links := rfl
@[simp] theorem modContext_depWait : (modContext s c f).depWait = s.depWait := rfl
@[simp] theorem modContext_paused : (modContext s c f).paused = s.paused := rfl
@[simp] theorem modContext_hasServed : (modContext s c f).hasServed = s.hasServed := rfl
@[simp] theorem modContext_ck : (modContext s c f).ck = s.ck := rfl
@[simp] theorem modContext_flash : (modContext s c f).flash = s.flash := rfl
@[simp] theorem modContext_staged : (modContext s c f).staged = s.staged := rfl
@[simp] theorem modContext_refused : (modContext s c f).refused = s.refused := rfl
@[simp] theorem modContext_predKept : (modContext s c f).predKept = s.predKept := rfl
@[simp] theorem modContext_held : (modContext s c f).held = s.held := rfl
@[simp] theorem modContext_attDone : (modContext s c f).attDone = s.attDone := rfl

end modContext

section modCluster

variable (s : State) (c : Nat) (f : Cluster → Cluster)

@[simp] theorem modCluster_agenda : (modCluster s c f).agenda = s.agenda := rfl
@[simp] theorem modCluster_free : (modCluster s c f).free = s.free := rfl
@[simp] theorem modCluster_cur : (modCluster s c f).cur = s.cur := rfl
@[simp] theorem modCluster_out : (modCluster s c f).out = s.out := rfl
@[simp] theorem modCluster_hostRd : (modCluster s c f).hostRd = s.hostRd := rfl
@[simp] theorem modCluster_hostCause : (modCluster s c f).hostCause = s.hostCause := rfl
@[simp] theorem modCluster_hostMode : (modCluster s c f).hostMode = s.hostMode := rfl
@[simp] theorem modCluster_peerDrops : (modCluster s c f).peerDrops = s.peerDrops := rfl
@[simp] theorem modCluster_cycle : (modCluster s c f).cycle = s.cycle := rfl
@[simp] theorem modCluster_timeFs : (modCluster s c f).timeFs = s.timeFs := rfl
@[simp] theorem modCluster_mem : (modCluster s c f).mem = s.mem := rfl
@[simp] theorem modCluster_poison : (modCluster s c f).poison = s.poison := rfl
@[simp] theorem modCluster_writes : (modCluster s c f).writes = s.writes := rfl
@[simp] theorem modCluster_past : (modCluster s c f).past = s.past := rfl
@[simp] theorem modCluster_orders : (modCluster s c f).orders = s.orders := rfl
@[simp] theorem modCluster_fences : (modCluster s c f).fences = s.fences := rfl
@[simp] theorem modCluster_tlb : (modCluster s c f).tlb = s.tlb := rfl
@[simp] theorem modCluster_ptrs : (modCluster s c f).ptrs = s.ptrs := rfl
@[simp] theorem modCluster_l1d : (modCluster s c f).l1d = s.l1d := rfl
@[simp] theorem modCluster_l1i : (modCluster s c f).l1i = s.l1i := rfl
@[simp] theorem modCluster_l2c : (modCluster s c f).l2c = s.l2c := rfl
@[simp] theorem modCluster_dirty : (modCluster s c f).dirty = s.dirty := rfl
@[simp] theorem modCluster_ctl : (modCluster s c f).ctl = s.ctl := rfl
@[simp] theorem modCluster_cmd : (modCluster s c f).cmd = s.cmd := rfl
@[simp] theorem modCluster_cores : (modCluster s c f).cores = s.cores := rfl
@[simp] theorem modCluster_contexts : (modCluster s c f).contexts = s.contexts := rfl
@[simp] theorem modCluster_launches : (modCluster s c f).launches = s.launches := rfl
@[simp] theorem modCluster_teams : (modCluster s c f).teams = s.teams := rfl
@[simp] theorem modCluster_nextTeam : (modCluster s c f).nextTeam = s.nextTeam := rfl
@[simp] theorem modCluster_groups : (modCluster s c f).groups = s.groups := rfl
@[simp] theorem modCluster_saved : (modCluster s c f).saved = s.saved := rfl
@[simp] theorem modCluster_vault : (modCluster s c f).vault = s.vault := rfl
@[simp] theorem modCluster_imagesOut : (modCluster s c f).imagesOut = s.imagesOut := rfl
@[simp] theorem modCluster_completions : (modCluster s c f).completions = s.completions := rfl
@[simp] theorem modCluster_blocks : (modCluster s c f).blocks = s.blocks := rfl
@[simp] theorem modCluster_bumps : (modCluster s c f).bumps = s.bumps := rfl
@[simp] theorem modCluster_evSince : (modCluster s c f).evSince = s.evSince := rfl
@[simp] theorem modCluster_evOldest : (modCluster s c f).evOldest = s.evOldest := rfl
@[simp] theorem modCluster_faultQ : (modCluster s c f).faultQ = s.faultQ := rfl
@[simp] theorem modCluster_noticeQ : (modCluster s c f).noticeQ = s.noticeQ := rfl
@[simp] theorem modCluster_zeroing : (modCluster s c f).zeroing = s.zeroing := rfl
@[simp] theorem modCluster_inval : (modCluster s c f).inval = s.inval := rfl
@[simp] theorem modCluster_swaps : (modCluster s c f).swaps = s.swaps := rfl
@[simp] theorem modCluster_extents : (modCluster s c f).extents = s.extents := rfl
@[simp] theorem modCluster_nearStacks : (modCluster s c f).nearStacks = s.nearStacks := rfl
@[simp] theorem modCluster_mapout : (modCluster s c f).mapout = s.mapout := rfl
@[simp] theorem modCluster_stalls : (modCluster s c f).stalls = s.stalls := rfl
@[simp] theorem modCluster_masonQ : (modCluster s c f).masonQ = s.masonQ := rfl
@[simp] theorem modCluster_courses : (modCluster s c f).courses = s.courses := rfl
@[simp] theorem modCluster_spRestarts : (modCluster s c f).spRestarts = s.spRestarts := rfl
@[simp] theorem modCluster_fabOps : (modCluster s c f).fabOps = s.fabOps := rfl
@[simp] theorem modCluster_nextFab : (modCluster s c f).nextFab = s.nextFab := rfl
@[simp] theorem modCluster_pkts : (modCluster s c f).pkts = s.pkts := rfl
@[simp] theorem modCluster_nextPkt : (modCluster s c f).nextPkt = s.nextPkt := rfl
@[simp] theorem modCluster_streams : (modCluster s c f).streams = s.streams := rfl
@[simp] theorem modCluster_nextStream : (modCluster s c f).nextStream = s.nextStream := rfl
@[simp] theorem modCluster_paths : (modCluster s c f).paths = s.paths := rfl
@[simp] theorem modCluster_inStreams : (modCluster s c f).inStreams = s.inStreams := rfl
@[simp] theorem modCluster_down : (modCluster s c f).down = s.down := rfl
@[simp] theorem modCluster_noticeSeq : (modCluster s c f).noticeSeq = s.noticeSeq := rfl
@[simp] theorem modCluster_noticesOut : (modCluster s c f).noticesOut = s.noticesOut := rfl
@[simp] theorem modCluster_served : (modCluster s c f).served = s.served := rfl
@[simp] theorem modCluster_blocked : (modCluster s c f).blocked = s.blocked := rfl
@[simp] theorem modCluster_links : (modCluster s c f).links = s.links := rfl
@[simp] theorem modCluster_depWait : (modCluster s c f).depWait = s.depWait := rfl
@[simp] theorem modCluster_paused : (modCluster s c f).paused = s.paused := rfl
@[simp] theorem modCluster_hasServed : (modCluster s c f).hasServed = s.hasServed := rfl
@[simp] theorem modCluster_ck : (modCluster s c f).ck = s.ck := rfl
@[simp] theorem modCluster_flash : (modCluster s c f).flash = s.flash := rfl
@[simp] theorem modCluster_staged : (modCluster s c f).staged = s.staged := rfl
@[simp] theorem modCluster_refused : (modCluster s c f).refused = s.refused := rfl
@[simp] theorem modCluster_predKept : (modCluster s c f).predKept = s.predKept := rfl
@[simp] theorem modCluster_held : (modCluster s c f).held = s.held := rfl
@[simp] theorem modCluster_attDone : (modCluster s c f).attDone = s.attDone := rfl

end modCluster

section modCore

variable (s : State) (c : Nat) (f : Core → Core)

@[simp] theorem modCore_agenda : (modCore s c f).agenda = s.agenda := rfl
@[simp] theorem modCore_free : (modCore s c f).free = s.free := rfl
@[simp] theorem modCore_cur : (modCore s c f).cur = s.cur := rfl
@[simp] theorem modCore_out : (modCore s c f).out = s.out := rfl
@[simp] theorem modCore_hostRd : (modCore s c f).hostRd = s.hostRd := rfl
@[simp] theorem modCore_hostCause : (modCore s c f).hostCause = s.hostCause := rfl
@[simp] theorem modCore_hostMode : (modCore s c f).hostMode = s.hostMode := rfl
@[simp] theorem modCore_peerDrops : (modCore s c f).peerDrops = s.peerDrops := rfl
@[simp] theorem modCore_cycle : (modCore s c f).cycle = s.cycle := rfl
@[simp] theorem modCore_timeFs : (modCore s c f).timeFs = s.timeFs := rfl
@[simp] theorem modCore_mem : (modCore s c f).mem = s.mem := rfl
@[simp] theorem modCore_poison : (modCore s c f).poison = s.poison := rfl
@[simp] theorem modCore_writes : (modCore s c f).writes = s.writes := rfl
@[simp] theorem modCore_past : (modCore s c f).past = s.past := rfl
@[simp] theorem modCore_orders : (modCore s c f).orders = s.orders := rfl
@[simp] theorem modCore_fences : (modCore s c f).fences = s.fences := rfl
@[simp] theorem modCore_tlb : (modCore s c f).tlb = s.tlb := rfl
@[simp] theorem modCore_ptrs : (modCore s c f).ptrs = s.ptrs := rfl
@[simp] theorem modCore_l1d : (modCore s c f).l1d = s.l1d := rfl
@[simp] theorem modCore_l1i : (modCore s c f).l1i = s.l1i := rfl
@[simp] theorem modCore_l2c : (modCore s c f).l2c = s.l2c := rfl
@[simp] theorem modCore_dirty : (modCore s c f).dirty = s.dirty := rfl
@[simp] theorem modCore_ctl : (modCore s c f).ctl = s.ctl := rfl
@[simp] theorem modCore_cmd : (modCore s c f).cmd = s.cmd := rfl
@[simp] theorem modCore_clusters : (modCore s c f).clusters = s.clusters := rfl
@[simp] theorem modCore_contexts : (modCore s c f).contexts = s.contexts := rfl
@[simp] theorem modCore_launches : (modCore s c f).launches = s.launches := rfl
@[simp] theorem modCore_teams : (modCore s c f).teams = s.teams := rfl
@[simp] theorem modCore_nextTeam : (modCore s c f).nextTeam = s.nextTeam := rfl
@[simp] theorem modCore_groups : (modCore s c f).groups = s.groups := rfl
@[simp] theorem modCore_saved : (modCore s c f).saved = s.saved := rfl
@[simp] theorem modCore_vault : (modCore s c f).vault = s.vault := rfl
@[simp] theorem modCore_imagesOut : (modCore s c f).imagesOut = s.imagesOut := rfl
@[simp] theorem modCore_completions : (modCore s c f).completions = s.completions := rfl
@[simp] theorem modCore_blocks : (modCore s c f).blocks = s.blocks := rfl
@[simp] theorem modCore_bumps : (modCore s c f).bumps = s.bumps := rfl
@[simp] theorem modCore_evSince : (modCore s c f).evSince = s.evSince := rfl
@[simp] theorem modCore_evOldest : (modCore s c f).evOldest = s.evOldest := rfl
@[simp] theorem modCore_faultQ : (modCore s c f).faultQ = s.faultQ := rfl
@[simp] theorem modCore_noticeQ : (modCore s c f).noticeQ = s.noticeQ := rfl
@[simp] theorem modCore_zeroing : (modCore s c f).zeroing = s.zeroing := rfl
@[simp] theorem modCore_inval : (modCore s c f).inval = s.inval := rfl
@[simp] theorem modCore_swaps : (modCore s c f).swaps = s.swaps := rfl
@[simp] theorem modCore_extents : (modCore s c f).extents = s.extents := rfl
@[simp] theorem modCore_nearStacks : (modCore s c f).nearStacks = s.nearStacks := rfl
@[simp] theorem modCore_mapout : (modCore s c f).mapout = s.mapout := rfl
@[simp] theorem modCore_stalls : (modCore s c f).stalls = s.stalls := rfl
@[simp] theorem modCore_masonQ : (modCore s c f).masonQ = s.masonQ := rfl
@[simp] theorem modCore_courses : (modCore s c f).courses = s.courses := rfl
@[simp] theorem modCore_spRestarts : (modCore s c f).spRestarts = s.spRestarts := rfl
@[simp] theorem modCore_fabOps : (modCore s c f).fabOps = s.fabOps := rfl
@[simp] theorem modCore_nextFab : (modCore s c f).nextFab = s.nextFab := rfl
@[simp] theorem modCore_pkts : (modCore s c f).pkts = s.pkts := rfl
@[simp] theorem modCore_nextPkt : (modCore s c f).nextPkt = s.nextPkt := rfl
@[simp] theorem modCore_streams : (modCore s c f).streams = s.streams := rfl
@[simp] theorem modCore_nextStream : (modCore s c f).nextStream = s.nextStream := rfl
@[simp] theorem modCore_paths : (modCore s c f).paths = s.paths := rfl
@[simp] theorem modCore_inStreams : (modCore s c f).inStreams = s.inStreams := rfl
@[simp] theorem modCore_down : (modCore s c f).down = s.down := rfl
@[simp] theorem modCore_noticeSeq : (modCore s c f).noticeSeq = s.noticeSeq := rfl
@[simp] theorem modCore_noticesOut : (modCore s c f).noticesOut = s.noticesOut := rfl
@[simp] theorem modCore_served : (modCore s c f).served = s.served := rfl
@[simp] theorem modCore_blocked : (modCore s c f).blocked = s.blocked := rfl
@[simp] theorem modCore_links : (modCore s c f).links = s.links := rfl
@[simp] theorem modCore_depWait : (modCore s c f).depWait = s.depWait := rfl
@[simp] theorem modCore_paused : (modCore s c f).paused = s.paused := rfl
@[simp] theorem modCore_hasServed : (modCore s c f).hasServed = s.hasServed := rfl
@[simp] theorem modCore_ck : (modCore s c f).ck = s.ck := rfl
@[simp] theorem modCore_flash : (modCore s c f).flash = s.flash := rfl
@[simp] theorem modCore_staged : (modCore s c f).staged = s.staged := rfl
@[simp] theorem modCore_refused : (modCore s c f).refused = s.refused := rfl
@[simp] theorem modCore_predKept : (modCore s c f).predKept = s.predKept := rfl
@[simp] theorem modCore_held : (modCore s c f).held = s.held := rfl
@[simp] theorem modCore_attDone : (modCore s c f).attDone = s.attDone := rfl

end modCore

/-- Putting a group in its place is an update of the groups. -/
theorem setGroup_eq (s : State) (g : Group) : setGroup s g = modGroup s g.who fun _ => g := rfl

@[simp] theorem modBank_eq (s : State) (c b : Nat) (f : Bank → Bank) :
    modBank s c b f = modCluster s c fun k => { k with banks := mput {} k.banks b (f (mget {} k.banks b)) } := rfl

@[simp] theorem modChan_eq (s : State) (c ch : Nat) (f : Chan → Chan) :
    modChan s c ch f = modCluster s c fun k => { k with chans := mput {} k.chans ch (f (mget {} k.chans ch)) } := rfl

@[simp] theorem modTile_eq (s : State) (k i : Nat) (f : Tile → Tile) :
    modTile s k i f = modTeam s k fun t => { t with tiles := mput {} t.tiles i (f (tileOf t i)) } := rfl

@[simp] theorem modCount_eq (s : State) (k ch : Nat) (f : ChanCount → ChanCount) :
    modCount s k ch f = modTeam s k fun t => { t with chans := mput {} t.chans ch (f (countOf t ch)) } := rfl

@[simp] theorem setQueue_eq (s : State) (k q : Nat) (l : List W64) :
    setQueue s k q l = modTeam s k fun t => { t with queues := mput [] t.queues q l } := rfl

end Sys2Proof.Machine
end

