-- ==== Sys2Proof/Laws/Access.lean ====
section
/-!
SUPPORT. Laws of physical memory and of virtual accesses (Machine/Physical.lean, Machine/Report.lean, Machine/Access.lean, Machine/Memory.lean): what a
write of bytes reads as afterwards, that every memory operation keeps the canonical form, and that an access touches no group, team, launch or context.
-/

namespace Sys2Proof.Machine

/-! ## Bytes -/

/-- A byte after bytes were written. -/
theorem mget_memPut (a : Nat) : ∀ (bs : List Byte) (m : Mem) (pa : Nat),
    mget 0 (memPut m pa bs) a = if pa ≤ a ∧ a < pa + bs.length then nth 0 bs (a - pa) else mget 0 m a
  | [], m, pa => by simp [memPut]
  | b :: bs, m, pa => by
    simp only [memPut, List.length_cons]
    rw [mget_memPut a bs (mput 0 m pa b) (pa + 1)]
    by_cases h1 : pa + 1 ≤ a ∧ a < pa + 1 + bs.length
    · rw [if_pos h1, if_pos (by omega)]
      obtain ⟨k, hk⟩ : ∃ k, a - pa = k + 1 := ⟨a - pa - 1, by omega⟩
      rw [hk, show a - (pa + 1) = k by omega]; rfl
    · rw [if_neg h1, mget_mput]
      by_cases h2 : a = pa
      · subst h2; rw [if_pos rfl, if_pos (by omega), Nat.sub_self]; rfl
      · rw [if_neg h2, if_neg (by omega)]

theorem wf_memPut : ∀ (bs : List Byte) (m : Mem) (pa : Nat), Memory.wf m = true → Memory.wf (memPut m pa bs) = true
  | [], _, _, h => h
  | b :: bs, m, pa, h => wf_memPut bs _ _ (mwf_mput 0 m pa b h)

/-- A member of a sparse map after a write is the written value or was there. -/
theorem mem_mput {α : Type} [DecidableEq α] (d : α) (k : Nat) (v : α) (x : Nat × α) : ∀ m : SMap α, x ∈ mput d m k v → x.2 = v ∨ x ∈ m
  | [], h => by
    unfold mput at h; split at h
    · exact absurd h List.not_mem_nil
    · exact .inl (by rw [List.mem_singleton.mp h])
  | (k', v') :: m, h => by
    unfold mput at h
    split at h
    · split at h
      · rcases mem_mput d k v x m h with h | h
        · exact .inl h
        · exact .inr (List.mem_cons_of_mem _ h)
      · rcases List.mem_cons.mp h with h | h
        · exact .inl (by rw [h])
        · exact .inr (List.mem_cons_of_mem _ h)
    · split at h
      · split at h
        · rcases List.mem_cons.mp h with h | h
          · exact .inr (by rw [h]; exact List.mem_cons_self)
          · rcases mem_mput d k v x m h with h | h
            · exact .inl h
            · exact .inr (List.mem_cons_of_mem _ h)
        · rcases List.mem_cons.mp h with h | h
          · exact .inl (by rw [h])
          · exact .inr h
      · rcases List.mem_cons.mp h with h | h
        · exact .inr (by rw [h]; exact List.mem_cons_self)
        · rcases mem_mput d k v x m h with h | h
          · exact .inl h
          · exact .inr (List.mem_cons_of_mem _ h)

/-- What a sparse map reads is its default or listed. -/
theorem mget_mem {α : Type} (d : α) (k : Nat) : ∀ m : SMap α, mget d m k = d ∨ ∃ x ∈ m, x.2 = mget d m k
  | [] => .inl rfl
  | (k', v) :: m => by
    unfold mget; split
    · exact .inr ⟨_, List.mem_cons_self, rfl⟩
    · rcases mget_mem d k m with h | ⟨x, hx, e⟩
      · exact .inl h
      · exact .inr ⟨x, List.mem_cons_of_mem _ hx, e⟩

/-! ## What an access keeps -/

/-- t is s after accesses to memory: groups, teams, launches, contexts, saved teams, images and time are the same, and memory keeps its
canonical form. -/
structure Kept (s t : State) : Prop where
  groups : t.groups = s.groups
  teams : t.teams = s.teams
  launches : t.launches = s.launches
  contexts : t.contexts = s.contexts
  vault : t.vault = s.vault
  saved : t.saved = s.saved
  cur : t.cur = s.cur
  cycle : t.cycle = s.cycle
  time : t.timeFs = s.timeFs
  mem : s.memOk = true → t.memOk = true

theorem Kept.refl (s : State) : Kept s s := ⟨rfl, rfl, rfl, rfl, rfl, rfl, rfl, rfl, rfl, id⟩

theorem Kept.trans {a b c : State} (h : Kept a b) (k : Kept b c) : Kept a c :=
  ⟨k.groups.trans h.groups, k.teams.trans h.teams, k.launches.trans h.launches, k.contexts.trans h.contexts, k.vault.trans h.vault,
    k.saved.trans h.saved, k.cur.trans h.cur, k.cycle.trans h.cycle,
    k.time.trans h.time, k.mem ∘ h.mem⟩

theorem kept_ite {p : Prop} [Decidable p] {s a b : State} (h : Kept s a) (k : Kept s b) : Kept s (if p then a else b) := by split <;> assumption

/-- A fold of operations that keep. -/
theorem kept_fold {α : Type} (f : State → α → State) (h : ∀ s x, Kept s (f s x)) : ∀ (l : List α) (s : State), Kept s (l.foldl f s)
  | [], s => .refl s
  | x :: l, s => (h s x).trans (kept_fold f h l _)

theorem memOk_mem {s : State} (h : s.memOk = true) : Memory.wf s.mem = true := by
  unfold State.memOk at h; rw [Bool.and_eq_true] at h; exact h.1

theorem kept_record (s : State) (w : Writer) (pa : Nat) (old : List Byte) : Kept s (record s w pa old) := ⟨rfl, rfl, rfl, rfl, rfl, rfl, rfl, rfl, rfl, id⟩

theorem kept_setOrder (s : State) (a : Agent) (o : Order) : Kept s (setOrder s a o) := ⟨rfl, rfl, rfl, rfl, rfl, rfl, rfl, rfl, rfl, id⟩

theorem kept_free (s : State) (n : Nat) : Kept s { s with free := n } := ⟨rfl, rfl, rfl, rfl, rfl, rfl, rfl, rfl, rfl, id⟩

theorem kept_physWriteBy (s : State) (who : Writer) (pa : Nat) (bs : List Byte) : Kept s (physWriteBy s who pa bs) :=
  ⟨rfl, rfl, rfl, rfl, rfl, rfl, rfl, rfl, rfl, fun h => by
    unfold State.memOk at h ⊢
    rw [Bool.and_eq_true] at h ⊢
    exact ⟨wf_memPut _ _ _ h.1, h.2⟩⟩

theorem kept_physWrite (s : State) (pa : Nat) (bs : List Byte) : Kept s (physWrite s pa bs) := kept_physWriteBy s {} pa bs

theorem kept_physPut (s : State) (pa n v : Nat) : Kept s (physPut s pa n v) := kept_physWrite s pa _

/-- A cluster replaced by one whose SRAM keeps the form. -/
theorem kept_modCluster (s : State) (c : Nat) (f : Cluster → Cluster) (h : ∀ k, Memory.wf k.sram = true → Memory.wf (f k).sram = true) :
    Kept s (modCluster s c f) :=
  ⟨rfl, rfl, rfl, rfl, rfl, rfl, rfl, rfl, rfl, fun hm => by
    unfold State.memOk at hm ⊢
    rw [Bool.and_eq_true, List.all_eq_true] at hm ⊢
    refine ⟨hm.1, fun x hx => ?_⟩
    rcases mem_mput _ _ _ _ _ hx with e | e
    · rw [e]; refine h _ ?_
      unfold clusterOf
      rcases mget_mem ({} : Cluster) c s.clusters with h0 | ⟨y, hy, e2⟩
      · rw [h0]; rfl
      · rw [← e2]; exact hm.2 y hy
    · exact hm.2 x e⟩

theorem kept_sramWriteBy (s : State) (w : Writer) (c off : Nat) (bs : List Byte) : Kept s (sramWriteBy s w c off bs) :=
  (kept_record s _ _ _).trans (kept_modCluster _ c _ fun _ h => wf_memPut _ _ _ h)

theorem kept_sramWrite (s : State) (c off : Nat) (bs : List Byte) : Kept s (sramWrite s c off bs) := kept_sramWriteBy s {} c off bs

theorem kept_healRange (s : State) (pa n : Nat) : Kept s (healRange s pa n) := ⟨rfl, rfl, rfl, rfl, rfl, rfl, rfl, rfl, rfl, id⟩

theorem kept_healSram (s : State) (c off n : Nat) : Kept s (healSram s c off n) := kept_modCluster s c _ fun _ h => h

theorem kept_chooseFrom {α : Type} (s : State) (l : List α) : Kept s (chooseFrom s l).1 := by
  unfold chooseFrom; split <;> exact ⟨rfl, rfl, rfl, rfl, rfl, rfl, rfl, rfl, rfl, id⟩

theorem kept_chooseBool (s : State) : Kept s (chooseBool s).1 := ⟨rfl, rfl, rfl, rfl, rfl, rfl, rfl, rfl, rfl, id⟩

theorem kept_ctl (s : State) (c : Ctl) : Kept s { s with ctl := c } := ⟨rfl, rfl, rfl, rfl, rfl, rfl, rfl, rfl, rfl, id⟩

theorem kept_out (s : State) (l : List Message) : Kept s { s with out := l } := ⟨rfl, rfl, rfl, rfl, rfl, rfl, rfl, rfl, rfl, id⟩

theorem kept_l1d (s : State) (m : SMap (List Nat)) : Kept s { s with l1d := m } := ⟨rfl, rfl, rfl, rfl, rfl, rfl, rfl, rfl, rfl, id⟩

theorem kept_l1i (s : State) (m : SMap (List Nat)) : Kept s { s with l1i := m } := ⟨rfl, rfl, rfl, rfl, rfl, rfl, rfl, rfl, rfl, id⟩

theorem kept_l2c (s : State) (m : SMap (List Nat)) : Kept s { s with l2c := m } := ⟨rfl, rfl, rfl, rfl, rfl, rfl, rfl, rfl, rfl, id⟩

theorem kept_tlb (s : State) (l : List TlbEntry) : Kept s { s with tlb := l } := ⟨rfl, rfl, rfl, rfl, rfl, rfl, rfl, rfl, rfl, id⟩

theorem kept_ptrs (s : State) (l : List PtrEntry) : Kept s { s with ptrs := l } := ⟨rfl, rfl, rfl, rfl, rfl, rfl, rfl, rfl, rfl, id⟩

theorem kept_raiseIrq (s : State) (k : Nat) : Kept s (raiseIrq s k) := by
  unfold raiseIrq; dsimp only; split
  · exact (kept_out s _).trans (kept_physPut _ _ _ _)
  · exact kept_ctl s _

theorem kept_logError (s : State) (e : ErrRec) : Kept s (logError s e) := by
  unfold logError
  extract_lets n used last c1 b s1 c2 s2
  have h1 : Kept s s1 := kept_physWrite s _ _
  have h2 : Kept s s2 := h1.trans (kept_ctl s1 _)
  split
  · exact kept_ctl s _
  · split
    · exact kept_physPut _ _ _ _
    · split
      · exact kept_ctl s _
      · split
        · exact h2.trans (kept_raiseIrq _ _)
        · exact h2.trans (kept_out _ _)

theorem kept_nqPost (s : State) (n : Notice) : Kept s (nqPost s n) := by
  unfold nqPost; dsimp only
  split
  · exact ((kept_physWrite _ _ _).trans (kept_physPut _ _ _ _)).trans (kept_raiseIrq _ _)
  · exact (kept_physWrite _ _ _).trans (kept_physPut _ _ _ _)

theorem kept_countAccess (s : State) (pa va : Nat) (asid : BitVec 16) : Kept s (countAccess s pa va asid) := by
  unfold countAccess
  split
  · exact .refl s
  · split
    · exact .refl s
    · dsimp only
      split
      · exact kept_physPut _ _ _ _
      · split
        · exact (kept_physPut _ _ _ _).trans (kept_physPut _ _ _ _)
        · split
          · exact ((kept_physPut _ _ _ _).trans (kept_nqPost _ _)).trans (kept_physPut _ _ _ _)
          · split
            · exact ((kept_physPut _ _ _ _).trans (kept_physPut _ _ _ _)).trans (kept_raiseIrq _ _)
            · exact kept_physPut _ _ _ _

theorem kept_cacheFill (s : State) (per cap : Nat) (l : List Nat) (x : Nat) : Kept s (cacheFill s per cap l x).1 := by
  unfold cacheFill
  split
  · exact .refl s
  · dsimp only
    split
    · exact .refl s
    · exact kept_chooseFrom s _

theorem kept_fillAll (per cap : Nat) : ∀ (ks : List Nat) (x : State × List Nat), Kept x.1 (fillAll per cap ks x).1
  | [], _ => .refl _
  | k :: ks, (s, l) => (kept_cacheFill s per cap l k).trans (kept_fillAll per cap ks _)

theorem kept_fillCaches (s : State) (tile : Nat) (fetch : Bool) (p n : Nat) : Kept s (fillCaches s tile fetch p n) := by
  unfold fillCaches
  have h1 := kept_fillAll 1 (l2Lines s (tile / 5)) (linesAt p n) (s, mget [] s.l2c (tile / 5))
  generalize fillAll 1 (l2Lines s (tile / 5)) (linesAt p n) (s, mget [] s.l2c (tile / 5)) = r at h1 ⊢
  obtain ⟨s1, l⟩ := r
  replace h1 := Kept.trans h1 (kept_l2c s1 (mput [] s1.l2c (tile / 5) l))
  dsimp only
  split
  · exact h1
  · split
    · exact h1.trans (Kept.trans (kept_fillAll 1 l1iLines (linesAt p n) (_, _)) (kept_l1i _ _))
    · exact h1.trans (Kept.trans (kept_fillAll 4 l1dLines (sectorsAt p n) (_, _)) (kept_l1d _ _))

theorem kept_countSpot (s : State) (env : Env) (acc : Acc) (va n : Nat) (t : Tr) (pa : Nat) : Kept s (countSpot s env acc va n t pa) := by
  have hc : ∀ (b : Bool) (s1 : State) a v i, Kept s1 (if b = true then countAccess s1 a v i else s1) := fun b s1 a v i =>
    kept_ite (kept_countAccess _ _ _ _) (.refl _)
  unfold countSpot
  extract_lets counts
  split
  · split
    · exact hc _ _ _ _ _
    · dsimp only
      split
      · exact kept_fillCaches _ _ _ _ _
      · split
        · exact (kept_fillCaches _ _ _ _ _).trans ((kept_chooseBool _).trans (hc _ _ _ _ _))
        · exact (kept_fillCaches _ _ _ _ _).trans (kept_countAccess _ _ _ _)
  · exact hc _ _ _ _ _

theorem kept_holdPtrs (s : State) (env : Env) (va : Nat) : Kept s (holdPtrs s env va) := kept_ptrs s _

theorem kept_holdEntry (s : State) (e : TlbEntry) : Kept s (holdEntry s e) := by
  unfold holdEntry
  split
  · exact .refl s
  · extract_lets mine full
    split
    · exact (kept_chooseFrom s _).trans (kept_tlb _ _)
    · exact kept_tlb _ _

theorem kept_touchLeaf (s : State) (env : Env) (acc : Acc) (va : Nat) (t : Tr) : Kept s (touchLeaf s env acc va t) := by
  unfold touchLeaf
  extract_lets e s0 s1
  have h0 : Kept s s0 := by
    show Kept s (if _ then _ else _)
    split
    · exact .refl s
    · exact kept_physPut _ _ _ _
  have h1 : Kept s s1 := h0.trans (kept_holdPtrs _ env va)
  split
  · exact h1
  · exact h1.trans (kept_fold _ (fun s b => kept_holdEntry s _) _ _)

theorem kept_touchSpots (env : Env) (acc : Acc) : ∀ (l : List Spot) (s : State), Kept s (touchSpots s env acc l)
  | [], s => .refl s
  | .mem _ _ _ _ :: l, _ => ((kept_touchLeaf _ _ _ _ _).trans (kept_countSpot _ _ _ _ _ _ _)).trans (kept_touchSpots env acc l _)
  | .pad _ _ _ :: l, s => kept_touchSpots env acc l s

theorem kept_translate (s : State) (env : Env) (va : Nat) (acc : Acc) : Kept s (translate s env va acc).1 := kept_chooseFrom s _

theorem kept_lookLine (s : State) (env : Env) (acc : Acc) (va n : Nat) : Kept s (lookLine s env acc va n).1 := kept_translate s _ _ _

theorem kept_lookPart (s : State) (env : Env) (acc : Acc) (va n : Nat) : Kept s (lookPart s env acc va n).1 := by
  unfold lookPart
  split
  · exact .refl s
  · exact kept_lookLine s env acc va n

theorem kept_lookLines (env : Env) (acc : Acc) : ∀ (l : List (Nat × Nat)) (s : State), Kept s (lookLines s env acc l).1
  | [], s => .refl s
  | (va, n) :: l, s => (kept_lookPart s env acc va n).trans (kept_lookLines env acc l _)

theorem kept_general (s : State) (env : Env) (acc : Acc) (va n : Nat) : Kept s (lookAt.general s env acc va n).1 := by
  have h := kept_lookLines env acc (linesOf va n) s
  unfold lookAt.general; dsimp only
  generalize lookLines s env acc (linesOf va n) = r at h ⊢
  split
  · split <;> exact h
  · exact h

theorem kept_lookAt (s : State) (env : Env) (acc : Acc) (va n : Nat) : Kept s (lookAt s env acc va n).1 := by
  unfold lookAt
  split
  · split
    · exact .refl s
    · exact kept_general _ _ _ _ _
  · exact kept_general _ _ _ _ _

/-- A fold that carries a state beside something else. -/
theorem kept_fold_pair {α β : Type} (f : State × β → α → State × β) (h : ∀ a x, Kept a.1 (f a x).1) : ∀ (l : List α) (a : State × β), Kept a.1 (l.foldl f a).1
  | [], _ => .refl _
  | x :: l, a => (h a x).trans (kept_fold_pair f h l _)

theorem kept_readOrdered (s : State) (env : Env) (kind scope p : Nat) (cur : List Byte) : Kept s (readOrdered s env kind scope p cur).1 := by
  unfold readOrdered
  split
  · exact .refl s
  · split
    · exact .refl s
    · refine kept_fold_pair _ (fun a x => ?_) _ (s, [])
      refine Kept.trans (kept_fold _ (fun s y => ?_) _ _) (kept_free _ _)
      exact kept_ite (.refl s) (kept_setOrder _ _ _)

theorem kept_readSpot (s : State) (env : Env) (x : Spot) : Kept s (readSpot s env x).1 := by
  unfold readSpot
  split
  · exact kept_readOrdered _ _ _ _ _ _
  · split
    · exact .refl s
    · exact kept_readOrdered _ _ _ _ _ _

theorem kept_readSpots (env : Env) : ∀ (l : List Spot) (s : State), Kept s (readSpots s env l).1
  | [], s => .refl s
  | x :: l, s => (kept_readSpot s env x).trans (kept_readSpots env l _)

theorem kept_readAt (s : State) (env : Env) (acc : Acc) (va n : Nat) : Kept s (readAt s env acc va n).1 := by
  have h := kept_lookAt s env acc va n
  unfold readAt
  split
  · rename_i s1 l e
    rw [e] at h
    exact h.trans ((kept_touchSpots env acc l s1).trans (kept_readSpots env l _))
  · rename_i e; rw [e] at h; exact h
  · rename_i e; rw [e] at h; exact h

theorem kept_writeSpots (who : Writer) : ∀ (l : List Spot) (bs : List Byte) (s : State), Kept s (writeSpots s who l bs)
  | [], _, s => .refl s
  | .pad _ _ _ :: l, _, _ => (kept_sramWriteBy _ _ _ _ _).trans (kept_writeSpots who l _ _)
  | .mem _ _ _ _ :: l, _, _ => (kept_physWriteBy _ _ _ _).trans (kept_writeSpots who l _ _)

theorem kept_startZero (s : State) (a f n : Nat) : Kept s (startZero s a f n) := by
  unfold startZero; split
  · exact .refl s
  · exact ⟨rfl, rfl, rfl, rfl, rfl, rfl, rfl, rfl, rfl, id⟩

theorem kept_writeAt (s : State) (env : Env) (va : Nat) (bs : List Byte) (w : Writer) : Kept s (writeAt s env va bs w).1 := by
  have h := kept_lookAt s env .write va bs.length
  unfold writeAt
  split
  · rename_i s1 l e
    rw [e] at h
    exact h.trans ((kept_touchSpots env .write l s1).trans (kept_writeSpots _ l bs _))
  · rename_i e; rw [e] at h; exact h
  · rename_i e; rw [e] at h; exact h.trans (kept_startZero _ _ _ _)

/-! ## The lanes' stores and atomics -/

theorem kept_writeKept (by_ : Spot → List Agent → Writer) (prim : Bool) (who : Nat → List Agent) :
    ∀ (l : List Spot) (bs : List Byte) (va : Nat) (s : State), Kept s (writeKept s by_ prim va who l bs)
  | [], _, _, s => .refl s
  | x :: l, bs, va, s => by
    unfold writeKept
    refine Kept.trans ?_ (kept_writeKept by_ prim who l _ _ _)
    cases x with
    | pad k off n => exact (kept_fold _ (fun s y => kept_sramWriteBy _ _ _ _ _) _ s).trans (kept_healSram _ _ _ _)
    | mem va n t pa =>
      exact (kept_fold _ (fun s y => kept_ite (kept_physWriteBy _ _ _ _) (.refl s)) _ s).trans (kept_ite (kept_healRange _ _ _) (.refl _))

theorem kept_storeOut (c : Ctx) (s : State) (prim rel : Bool) (n : Nat) (st : List (Nat × W64 × List Byte × List Spot)) :
    Kept s (storeOut c s prim rel n st) := by
  unfold storeOut
  refine kept_fold _ (fun s x => ?_) st s
  obtain ⟨l, a, bs, spots⟩ := x
  exact (kept_touchSpots _ _ spots s).trans (kept_writeKept _ _ _ _ _ _ _)

theorem kept_rmwLanes (c : Ctx) (n : Nat) (addr : Nat → W64) (op : Nat → Nat → Nat) (st : List (Nat × List Spot)) (s : State) :
    Kept s (rmwLanes c s n addr op st).1 := by
  unfold rmwLanes
  refine kept_fold_pair _ (fun a x => ?_) st (s, [])
  obtain ⟨s, olds⟩ := a
  obtain ⟨l, x⟩ := x
  exact (kept_touchSpots _ _ _ _).trans ((kept_readSpots _ _ _).trans (kept_writeKept _ _ _ _ _ _ _))

/-- Lanes' reads. -/
theorem kept_readOne (c : Ctx) (n : Nat) (aligned : Bool) (acq : Acquire) (a : W64) (ls : List Nat) (r : Reads) :
    Kept r.s (readOne c n aligned acq a ls r).s := by
  unfold readOne; dsimp only
  split
  · exact .refl _
  · have h := kept_lookAt r.s (readEnv r.s c.g n acq ls) .read a.toNat n
    split
    · rename_i e; rw [e] at h; exact h
    · rename_i e; rw [e] at h; exact h
    · rename_i s1 x e
      rw [e] at h
      exact h.trans ((kept_touchSpots _ _ x s1).trans (kept_readSpots _ x _))

theorem kept_readLanes (c : Ctx) (addr : Nat → W64) (n : Nat) (aligned : Bool) (acq : Acquire) : Kept c.s (readLanes c addr n aligned acq).s := by
  unfold readLanes
  have key : ∀ (l : List W64) (r : Reads),
      Kept r.s (l.foldl (fun r a => readOne c n aligned acq a (c.lanes.filter fun l => addr l == a) r) r).s := by
    intro l
    induction l with
    | nil => intro r; exact .refl _
    | cons x l ih => intro r; exact (kept_readOne c n aligned acq x _ r).trans (ih _)
  exact key _ { s := c.s }

/-- Lanes' checks of stores and atomics. -/
theorem kept_lookLanes (c : Ctx) (acc : Acc) (addr : Nat → W64) (n : Nat) (aligned : Bool) : Kept c.s (lookLanes c acc addr n aligned).s := by
  unfold lookLanes
  have step : ∀ (r : Looks) (l : Nat), Kept r.s (lookLane c acc addr n aligned r l).s := by
    intro r l
    unfold lookLane; dsimp only
    split
    · exact .refl _
    · have h := kept_lookAt r.s (laneEnv r.s c.g l) acc (addr l).toNat n
      split <;> (rename_i e; rw [e] at h; exact h)
  have key : ∀ (l : List Nat) (r : Looks), Kept r.s (l.foldl (lookLane c acc addr n aligned) r).s := by
    intro l
    induction l with
    | nil => intro r; exact .refl _
    | cons x l ih => intro r; exact (step r x).trans (ih _)
  exact key c.lanes { s := c.s }

end Sys2Proof.Machine
end

