-- ==== Sys2Proof/Laws/Regs.lean ====
section
/-!
SUPPORT. Laws of registers, masks and groups (Machine/Regs.lean, Machine/Find.lean): what a write, a spill, a fill leaves, and what finding a
group after replacing it answers.
-/

namespace Sys2Proof.Machine

/-- Finding a group that was replaced by one of the same name. -/
theorem findGroup_setGroup (s : State) (g h : Group) (hf : findGroup s g.who = some h) : findGroup (setGroup s g) g.who = some g := by
  have key : ∀ (l : List Group), firstWhere (fun x => decide (x.who = g.who)) l = some h →
      firstWhere (fun x => decide (x.who = g.who)) (mapWhere (fun x => decide (x.who = g.who)) (fun _ => g) l) = some g := by
    intro l hl
    rw [firstWhere_mapWhere_same _ _ (fun x _ => by simp)]
    simp [hl]
  exact key s.groups hf

/-- Replacing a group twice. -/
theorem setGroup_setGroup (s : State) (g h : Group) (e : g.who = h.who) : setGroup (setGroup s g) h = setGroup s h := by
  simp only [setGroup, modGroup, e]
  congr 1
  exact mapWhere_mapWhere _ _ _ (fun x _ => by simp [e]) s.groups

/-- Replacing a group by what a function makes of it. -/
theorem modGroup_setGroup (s : State) (g : Group) (f : Group → Group) :
    modGroup (setGroup s g) g.who f = modGroup s g.who fun _ => f g := by
  simp only [setGroup, modGroup]
  congr 1
  exact mapWhere_mapWhere _ _ _ (fun x _ => by simp) s.groups

/-- The found group has the name it was sought by. -/
theorem findGroup_who (s : State) (w : Who) (g : Group) (h : findGroup s w = some g) : g.who = w := by
  have := (firstWhere_mem _ _ _ h).2
  simpa using this

/-- Lane l of a value stored as a list of lane values. -/
theorem at_ofLanes (f : Nat → W32) (l : Nat) (h : l < 32) : (Shape.g (lanes32.map f)).at l = f l := by
  simp [Shape.at, nth_lanes32, h]

@[simp] theorem at_u (v : W32) (l : Nat) : (Shape.u v).at l = v := rfl

theorem at_ofFn (f : Nat → W32) (l : Nat) (h : l < 32) : (Shape.ofFn f).at l = f l := at_ofLanes f l h

/-- Storing stride 0 as U changes no lane. -/
@[simp] theorem at_norm (sh : Shape) (l : Nat) : sh.norm.at l = sh.at l := by
  cases sh with
  | u v => rfl
  | g vs => rfl
  | a b s =>
    by_cases h : s = 0
    · simp [Shape.norm, h, Shape.at]
    · show (if s = 0 then Shape.u b else Shape.a b s).at l = _
      rw [if_neg h]

/-- The write of R33, lane by lane: active lanes take the new value; with an inactive live lane, the other lanes keep theirs. -/
theorem at_writeShape (live act : W32) (old new : Shape) (l : Nat) (h : l < 32) :
    (writeShape live act old new).at l = if hasLane act l || live &&& ~~~act = 0 then new.at l else old.at l := by
  unfold writeShape
  by_cases hf : live &&& ~~~act = 0
  · simp [hf]
  · simp only [hf, if_false]
    split
    · rename_i x y hy
      have hn : new.at l = y := by rw [← at_norm, hy]; rfl
      by_cases e : x = y
      · simp [e, hn]
      · simp only [e, if_false]; rw [at_ofLanes _ l h]; simp [hn]
    · rw [at_ofLanes _ l h]; simp

/-- What a group keeps of a value gives every active lane that value. -/
theorem at_keeps (g : Group) (act : W32) (sh : Shape) (l : Nat) (h : hasLane act l = true) : (g.keeps act sh).at l = sh.at l := by
  unfold Group.keeps
  split
  · rename_i hk
    simp only [Bool.and_eq_true, beq_iff_eq] at hk
    rw [hk.2] at h
    have : l = 0 := by
      by_contra hl
      simp [hasLane, hl] at h
    rw [this]; rfl
  · rfl

/-- A register after it was written. -/
theorem reg_putReg (g : Group) (act : W32) (r x : Nat) (sh : Shape) :
    ((putReg g act r sh).reg x).shape = if x = r then writeShape g.live act (g.reg r).shape (g.keeps act sh) else (g.reg x).shape := by
  unfold putReg
  simp only
  split
  · rename_i h
    by_cases e : x = r
    · subst e; simp only [Bool.and_eq_true, decide_eq_true_eq] at h; simp [h.1.2]
    · simp [e]
  · by_cases e : x = r
    · subst e; simp [Group.reg]
    · simp [Group.reg, e, mget_mput_other]

/-- A register after another was marked spilled or filled. -/
theorem shape_mput (g : Group) (r x : Nat) (y : Reg) (h : y.shape = (g.reg r).shape) :
    (Group.reg { g with regs := mput {} g.regs r y } x).shape = (g.reg x).shape := by
  by_cases e : x = r
  · subst e; simp [Group.reg] at h ⊢; exact h
  · simp [Group.reg, e, mget_mput_other]

/-- Spilling changes no value. -/
theorem shape_spillTo (keep : List Nat) (pins : Nat → Bool) : ∀ (f : Nat) (g : Group) (x : Nat),
    ((spillTo keep pins f g).reg x).shape = (g.reg x).shape
  | 0, _, _ => rfl
  | f + 1, g, x => by
    unfold spillTo
    split
    · rfl
    · split
      · rfl
      · rename_i r _
        rw [shape_spillTo keep pins f]
        exact shape_mput g r x { g.reg r with spilled := true } rfl

theorem shape_fitBudget (s : State) (keep : List Nat) (g : Group) (x : Nat) : ((fitBudget s keep g).reg x).shape = (g.reg x).shape :=
  shape_spillTo keep _ _ g x

theorem shape_fillReg (s : State) (keep : List Nat) (g : Group) (r x : Nat) : ((fillReg s keep g r).reg x).shape = (g.reg x).shape := by
  unfold fillReg
  split
  · rw [shape_fitBudget]; exact shape_mput g r x { g.reg r with spilled := false } rfl
  · rfl

theorem shape_fillRegs (s : State) (keep rs : List Nat) (g : Group) (x : Nat) : ((fillRegs s keep rs g).reg x).shape = (g.reg x).shape := by
  unfold fillRegs
  induction rs generalizing g with
  | nil => rfl
  | cons r rs ih => simp only [List.foldl_cons]; rw [ih]; exact shape_fillReg s keep g r x

/-- Making a register G changes no lane's value. -/
theorem at_toGeneral (g : Group) (r x l : Nat) (h : l < 32) : ((toGeneral g r).reg x).shape.at l = (g.reg x).shape.at l := by
  unfold toGeneral
  split
  · rfl
  · by_cases e : x = r
    · subst e; simp [Group.reg, Shape.expand, at_ofLanes _ l h]
    · simp [Group.reg, e, mget_mput_other]

theorem at_joinPair (g : Group) (r x l : Nat) (h : l < 32) : ((joinPair g r).reg x).shape.at l = (g.reg x).shape.at l := by
  unfold joinPair
  split
  · rfl
  · rw [at_toGeneral _ _ _ _ h, at_toGeneral _ _ _ _ h]

/-- The fields of a group that writing registers leaves alone. -/
structure SameBut (g h : Group) : Prop where
  eq : h = { g with regs := h.regs, nextStamp := h.nextStamp, expands := h.expands, spills := h.spills, shaping := h.shaping }

theorem SameBut.refl (g : Group) : SameBut g g := ⟨rfl⟩

theorem SameBut.trans {a b c : Group} (h1 : SameBut a b) (h2 : SameBut b c) : SameBut a c := by
  constructor
  rw [h2.eq, h1.eq]

theorem same_putReg (g : Group) (act : W32) (r : Nat) (sh : Shape) : SameBut g (putReg g act r sh) := by
  unfold putReg
  simp only
  split <;> exact ⟨rfl⟩

theorem same_toGeneral (g : Group) (r : Nat) : SameBut g (toGeneral g r) := by
  unfold toGeneral
  split <;> exact ⟨rfl⟩

theorem same_joinPair (g : Group) (r : Nat) : SameBut g (joinPair g r) := by
  unfold joinPair
  split
  · exact .refl g
  · exact (same_toGeneral g r).trans (same_toGeneral _ _)

theorem same_spillTo (keep : List Nat) (pins : Nat → Bool) : ∀ (f : Nat) (g : Group), SameBut g (spillTo keep pins f g)
  | 0, g => .refl g
  | f + 1, g => by
    unfold spillTo
    split
    · exact .refl g
    · split
      · exact .refl g
      · exact SameBut.trans ⟨rfl⟩ (same_spillTo keep pins f _)

theorem same_fitBudget (s : State) (keep : List Nat) (g : Group) : SameBut g (fitBudget s keep g) := same_spillTo keep _ _ g

theorem same_fillReg (s : State) (keep : List Nat) (g : Group) (r : Nat) : SameBut g (fillReg s keep g r) := by
  unfold fillReg
  split
  · exact SameBut.trans ⟨rfl⟩ (same_fitBudget s keep _)
  · exact .refl g

theorem same_fillRegs (s : State) (keep rs : List Nat) (g : Group) : SameBut g (fillRegs s keep rs g) := by
  unfold fillRegs
  induction rs generalizing g with
  | nil => exact .refl g
  | cons r rs ih => simp only [List.foldl_cons]; exact (same_fillReg s keep g r).trans (ih _)

theorem same_fold (act : W32) : ∀ (rs : List (Nat × Shape)) (g : Group), SameBut g (rs.foldl (fun g x => putReg g act x.1 x.2) g)
  | [], g => .refl g
  | x :: rs, g => by simp only [List.foldl_cons]; exact (same_putReg g act x.1 x.2).trans (same_fold act rs _)

theorem same_joins : ∀ (rs : List Nat) (g : Group), SameBut g (rs.foldl joinPair g)
  | [], g => .refl g
  | x :: rs, g => by simp only [List.foldl_cons]; exact (same_joinPair g x).trans (same_joins rs _)

end Sys2Proof.Machine
end

