-- ==== Sys2Proof/Laws/Issue.lean ====
section
/-!
SUPPORT. What the issue of an instruction comes to (Machine/Operands.lean): the slots that it can add to the register file, what filling operands
leaves alone, and the state in which a path that nothing stops goes on.
-/

namespace Sys2Proof.Machine

/-! ## Slots -/

/-- Slots of a register as groupSlots counts them. -/
def regCost (x : Reg) : Nat := if x.spilled then 0 else x.shape.slots

theorem slots_le (sh : Shape) : sh.slots ≤ 32 := by cases sh <;> simp [Shape.slots]

theorem regCost_le (x : Reg) : regCost x ≤ 32 := by
  unfold regCost; split
  · exact Nat.zero_le _
  · exact slots_le _

theorem sumNat_eq : ∀ (l : List Nat), sumNat l = l.sum := by
  have h : ∀ (l : List Nat) (a : Nat), l.foldl (· + ·) a = a + l.sum := by
    intro l
    induction l with
    | nil => simp
    | cons x l ih => intro a; simp [ih, Nat.add_assoc]
  intro l; simp [sumNat, h]

theorem groupSlots_eq (g : Group) : groupSlots g = (g.regs.map fun x => regCost x.2).sum := by
  simp [groupSlots, sumNat_eq, regCost]

/-- A write of a register adds at most what the value costs. -/
theorem sum_mput (y : Reg) (k : Nat) : ∀ m : SMap Reg,
    ((mput {} m k y).map fun x => regCost x.2).sum ≤ (m.map fun x => regCost x.2).sum + regCost y
  | [] => by
    by_cases h : y = {}
    · simp only [mput, if_pos h, List.map_nil, List.sum_nil]; omega
    · simp only [mput, if_neg h, List.map_cons, List.map_nil, List.sum_cons, List.sum_nil]; omega
  | (k', v) :: m => by
    have ih := sum_mput y k m
    by_cases e : k = k'
    · by_cases h : y = {}
      · simp only [mput, if_pos e, if_pos h, List.map_cons, List.sum_cons] at ih ⊢; omega
      · simp only [mput, if_pos e, if_neg h, List.map_cons, List.sum_cons]; omega
    · by_cases l : k < k'
      · by_cases h : y = {}
        · simp only [mput, if_neg e, if_pos l, if_pos h, List.map_cons, List.sum_cons] at ih ⊢; omega
        · simp only [mput, if_neg e, if_pos l, if_neg h, List.map_cons, List.sum_cons]; omega
      · simp only [mput, if_neg e, if_neg l, List.map_cons, List.sum_cons]; omega

theorem slots_mput (g : Group) (r : Nat) (y : Reg) (a b c : Nat) (p : Bool) :
    groupSlots { g with regs := mput {} g.regs r y, nextStamp := a, expands := b, spills := c, shaping := p } ≤ groupSlots g + regCost y := by
  simp only [groupSlots_eq]; exact sum_mput y r g.regs

theorem slots_putReg (g : Group) (act : W32) (r : Nat) (sh : Shape) : groupSlots (putReg g act r sh) ≤ groupSlots g + 32 := by
  unfold putReg
  simp only
  split
  · omega
  · refine Nat.le_trans (slots_mput g r _ _ _ g.spills _) ?_
    have := regCost_le { shape := writeShape g.live act (g.reg r).shape (g.keeps act sh), spilled := false, stamp := g.nextStamp }
    omega

theorem slots_toGeneral (g : Group) (r : Nat) : groupSlots (toGeneral g r) ≤ groupSlots g + 32 := by
  unfold toGeneral
  split
  · omega
  · refine Nat.le_trans (slots_mput g r _ _ _ g.spills _) ?_
    have := regCost_le { g.reg r with shape := .g (g.reg r).shape.expand, stamp := g.nextStamp }
    omega

theorem slots_joinPair (g : Group) (r : Nat) : groupSlots (joinPair g r) ≤ groupSlots g + 64 := by
  unfold joinPair
  split
  · omega
  · have := slots_toGeneral (toGeneral g r) (r + 1)
    have := slots_toGeneral g r
    omega

theorem slots_spillTo (keep : List Nat) (pins : Nat → Bool) : ∀ (f : Nat) (g : Group), groupSlots (spillTo keep pins f g) ≤ groupSlots g
  | 0, _ => Nat.le_refl _
  | f + 1, g => by
    unfold spillTo
    split
    · exact Nat.le_refl _
    · split
      · exact Nat.le_refl _
      · rename_i r _
        refine Nat.le_trans (slots_spillTo keep pins f _) ?_
        have h := slots_mput g r { g.reg r with spilled := true } g.nextStamp g.expands (g.spills + 1) true
        have hc : regCost { g.reg r with spilled := true } = 0 := rfl
        omega

theorem slots_fitBudget (s : State) (keep : List Nat) (g : Group) : groupSlots (fitBudget s keep g) ≤ groupSlots g := slots_spillTo keep _ _ g

theorem slots_fillReg (s : State) (keep : List Nat) (g : Group) (r : Nat) : groupSlots (fillReg s keep g r) ≤ groupSlots g + 32 := by
  unfold fillReg
  split
  · refine Nat.le_trans (slots_fitBudget s keep _) ?_
    have h := slots_mput g r { g.reg r with spilled := false } g.nextStamp g.expands g.spills true
    have := regCost_le { g.reg r with spilled := false }
    exact Nat.le_trans h (by omega)
  · omega

theorem slots_fillRegs (s : State) (keep : List Nat) : ∀ (rs : List Nat) (g : Group), groupSlots (fillRegs s keep rs g) ≤ groupSlots g + 32 * rs.length
  | [], _ => by simp [fillRegs]
  | r :: rs, g => by
    have h1 := slots_fillReg s keep g r
    have h2 := slots_fillRegs s keep rs (fillReg s keep g r)
    simp only [fillRegs, List.foldl_cons, List.length_cons] at h2 ⊢
    omega

theorem slots_puts (act : W32) : ∀ (rs : List (Nat × Shape)) (g : Group),
    groupSlots (rs.foldl (fun g x => putReg g act x.1 x.2) g) ≤ groupSlots g + 32 * rs.length
  | [], _ => by simp
  | x :: rs, g => by
    have h1 := slots_putReg g act x.1 x.2
    have h2 := slots_puts act rs (putReg g act x.1 x.2)
    simp only [List.foldl_cons, List.length_cons] at h2 ⊢
    omega

theorem slots_joins : ∀ (rs : List Nat) (g : Group), groupSlots (rs.foldl joinPair g) ≤ groupSlots g + 64 * rs.length
  | [], _ => by simp
  | x :: rs, g => by
    have h1 := slots_joinPair g x
    have h2 := slots_joins rs (joinPair g x)
    simp only [List.foldl_cons, List.length_cons] at h2 ⊢
    omega

/-! ## Masks -/

/-- What setting a mask leaves alone. -/
theorem setMask_eq (g : Group) (m : Nat) (v : W32) : g.setMask m v = { g with masks := (g.setMask m v).masks } := by
  unfold Group.setMask Group.putMask
  split
  · split <;> rfl
  · rfl

theorem setMasks_eq : ∀ (ms : List (Nat × W32)) (g : Group),
    ms.foldl (fun g x => g.setMask x.1 x.2) g = { g with masks := (ms.foldl (fun g x => g.setMask x.1 x.2) g).masks }
  | [], _ => rfl
  | x :: ms, g => by
    simp only [List.foldl_cons]
    rw [setMasks_eq ms (g.setMask x.1 x.2)]
    rw [setMask_eq g x.1 x.2]

theorem upto_get (n m : Nat) : ∀ k, k < n → (span m n)[k]? = some (m + k) := by
  induction n generalizing m with
  | zero => intro k h; omega
  | succ n ih =>
    intro k h
    cases k with
    | zero => rfl
    | succ k => simp only [span, List.getElem?_cons_succ]; rw [ih (m + 1) k (by omega)]; congr 1; omega

theorem nth_getElem? {α : Type} (d : α) : ∀ (l : List α) (i : Nat), nth d l i = l[i]?.getD d
  | [], _ => rfl
  | _ :: _, 0 => rfl
  | _ :: xs, i + 1 => by simp [nth, nth_getElem? d xs i]

theorem length_span : ∀ (m n : Nat), (span m n).length = n
  | _, 0 => rfl
  | m, n + 1 => by simp [span, length_span (m + 1) n]

/-- Mask k after mask m of a group (not a keystone context) was written. -/
theorem mask_putMask (g : Group) (m k : Nat) (v : W32) (hk : k < 16) : (g.putMask m v).mask k = if k = m then v else g.mask k := by
  unfold Group.putMask Group.mask upto
  simp [nth_getElem?, List.getElem?_map, upto_get 16 0 k hk]

/-! ## Operands filled back -/

theorem fillOps_act (c : Ctx) (i : Instr) : (fillOps c i).act = c.act := by unfold fillOps; dsimp only; split <;> rfl
theorem fillOps_path (c : Ctx) (i : Instr) : (fillOps c i).path = c.path := by unfold fillOps; dsimp only; split <;> rfl
theorem fillOps_pc (c : Ctx) (i : Instr) : (fillOps c i).pc = c.pc := by unfold fillOps; dsimp only; split <;> rfl
theorem fillOps_t (c : Ctx) (i : Instr) : (fillOps c i).t = c.t := by unfold fillOps; dsimp only; split <;> rfl

/-- Filling operands moves values between the register slots and the spill area, and nothing else. -/
theorem fillOps_same (c : Ctx) (i : Instr) : SameBut c.g (fillOps c i).g := by
  unfold fillOps; dsimp only; split
  · exact same_fillRegs _ _ _ _
  · exact .refl _

theorem fillOps_shape (c : Ctx) (i : Instr) (r : Nat) : ((fillOps c i).g.reg r).shape = (c.g.reg r).shape := by
  unfold fillOps; dsimp only; split
  · exact shape_fillRegs _ _ _ _ _
  · rfl

theorem SameBut.who {g h : Group} (e : SameBut g h) : h.who = g.who := by rw [e.eq]; rfl
theorem SameBut.key {g h : Group} (e : SameBut g h) : h.key = g.key := by rw [e.eq]
theorem SameBut.lanes {g h : Group} (e : SameBut g h) : h.lanes = g.lanes := by rw [e.eq]
theorem SameBut.masks {g h : Group} (e : SameBut g h) : h.masks = g.masks := by rw [e.eq]
theorem SameBut.subs {g h : Group} (e : SameBut g h) : h.subs = g.subs := by rw [e.eq]
theorem SameBut.away {g h : Group} (e : SameBut g h) : h.away = g.away := by rw [e.eq]
theorem SameBut.team {g h : Group} (e : SameBut g h) : h.team = g.team := by rw [e.eq]
theorem SameBut.core {g h : Group} (e : SameBut g h) : h.core = g.core := by rw [e.eq]
theorem SameBut.winb {g h : Group} (e : SameBut g h) : h.winb = g.winb := by rw [e.eq]

theorem fillOps_set (c : Ctx) (i : Instr) (h : Group) (e : h.who = c.g.who) : setGroup (fillOps c i).s h = setGroup c.s h := by
  have hs : SameBut c.g (fillOps c i).g := fillOps_same c i
  unfold fillOps at hs ⊢; dsimp only at hs ⊢; split
  · rename_i hc
    rw [if_pos hc] at hs
    exact setGroup_setGroup _ _ _ (by rw [e]; exact hs.who)
  · rfl

theorem fillOps_find (c : Ctx) (i : Instr) (e : findGroup c.s c.g.who = some c.g) : findGroup (fillOps c i).s c.g.who = some (fillOps c i).g := by
  have hs : SameBut c.g (fillOps c i).g := fillOps_same c i
  unfold fillOps at hs ⊢; dsimp only at hs ⊢; split
  · rename_i hc
    rw [if_pos hc] at hs
    have hw := hs.who
    have := findGroup_setGroup c.s _ c.g (by rw [hw]; exact e)
    rw [hw] at this
    exact this
  · exact e

/-- Registers of the operands that pass a test are among those that the instruction names. -/
theorem filled_few (c : Ctx) (i : Instr) (p : Opnd → Bool) :
    (((opndsOf c.g i).filter p).flatMap (opndRegs c.g)).length ≤ (namedRegs c.g i).length := by
  unfold namedRegs
  rw [List.length_append]
  refine Nat.le_trans ?_ (Nat.le_add_right _ _)
  induction opndsOf c.g i with
  | nil => simp
  | cons o os ih =>
    by_cases h : p o = true
    · simp only [List.filter_cons, h, if_true, List.flatMap_cons, List.length_append]; omega
    · simp only [List.filter_cons, h, List.flatMap_cons, List.length_append]; simp only [Bool.false_eq_true, if_false]; omega

theorem fillOps_slots (c : Ctx) (i : Instr) : groupSlots (fillOps c i).g ≤ groupSlots c.g + 32 * (namedRegs c.g i).length := by
  unfold fillOps; dsimp only; split
  · refine Nat.le_trans (slots_fillRegs _ _ _ _) ?_
    have := filled_few c i (fun o => o.fill && (o.rd || c.g.live &&& ~~~c.act != 0))
    omega
  · exact Nat.le_add_right _ _

theorem pairs_few (g : Group) (i : Instr) : 2 * (pairsWritten g i).length ≤ (namedRegs g i).length := by
  have key : ∀ os : List Opnd, 2 * (os.filter fun o => o.wr && o.even && o.n == 2).length ≤ (os.flatMap (opndRegs g)).length := by
    intro os
    induction os with
    | nil => simp
    | cons o os ih =>
      have ho : (opndRegs g o).length = o.n := by simp [opndRegs, upto, length_span]
      by_cases h : (o.wr && o.even && o.n == 2) = true
      · have : o.n = 2 := by simp at h; exact h.2
        simp only [List.filter_cons, h, if_true, List.length_cons, List.flatMap_cons, List.length_append]; omega
      · simp only [List.filter_cons, h, List.flatMap_cons, List.length_append]; simp only [Bool.false_eq_true, if_false]; omega
  have := key (opndsOf g i)
  unfold pairsWritten namedRegs
  rw [List.length_append]
  split
  · simp
  · simp
  · simp only [List.length_map]; omega

/-! ## Going on -/

/-- The masks that writes leave depend on the masks alone. -/
theorem setMasks_masks : ∀ (ms : List (Nat × W32)) (a b : Group), a.masks = b.masks → a.key = b.key →
    (ms.foldl (fun g (x : Nat × W32) => g.setMask x.1 x.2) a).masks = (ms.foldl (fun g (x : Nat × W32) => g.setMask x.1 x.2) b).masks
  | [], _, _, h, _ => h
  | x :: ms, a, b, h, hk => by
    simp only [List.foldl_cons]
    refine setMasks_masks ms _ _ ?_ ?_
    · unfold Group.setMask Group.putMask Group.mask
      rw [hk]
      split
      · split
        · exact h
        · simp [h]
      · simp [h]
    · rw [setMask_eq a, setMask_eq b]; exact hk

theorem writeBack_same (s : State) (c : Ctx) (i : Instr) (rs : List (Nat × Shape)) (wr : W32) (g : Group) : SameBut g (writeBack s c i rs wr g) := by
  unfold writeBack
  refine SameBut.trans ?_ (same_fitBudget _ _ _)
  have h0 : SameBut g (if wr = 0 then g else rs.foldl (fun g (x : Nat × Shape) => putReg g wr x.1 x.2) g) := by
    split
    · exact .refl g
    · exact same_fold wr rs g
  split
  · exact h0
  · exact h0.trans (same_joins _ _)

theorem writeBack_slots (s : State) (c : Ctx) (i : Instr) (rs : List (Nat × Shape)) (wr : W32) (g : Group) :
    groupSlots (writeBack s c i rs wr g) ≤ groupSlots g + 32 * rs.length + 32 * (namedRegs c.g i).length := by
  unfold writeBack
  refine Nat.le_trans (slots_fitBudget _ _ _) ?_
  have h0 : groupSlots (if wr = 0 then g else rs.foldl (fun g (x : Nat × Shape) => putReg g wr x.1 x.2) g) ≤ groupSlots g + 32 * rs.length := by
    split
    · omega
    · exact slots_puts wr rs g
  have hp := pairs_few c.g i
  split
  · omega
  · refine Nat.le_trans (slots_joins _ _) ?_; omega

/-- What retiring an instruction leaves alone: its group but for registers, masks, flags, lanes, windows and what is kept of the issue. -/
theorem retire_eq (s : State) (c : Ctx) (i : Instr) (r : Res) (g : Group) (done stopped : W32) :
    retire s c i r g done stopped =
      { g with
        regs := (writeBack s c i r.regs (done &&& r.only) g).regs
        nextStamp := (writeBack s c i r.regs (done &&& r.only) g).nextStamp
        expands := (writeBack s c i r.regs (done &&& r.only) g).expands
        spills := (writeBack s c i r.regs (done &&& r.only) g).spills
        shaping := (retire s c i r g done stopped).shaping
        masks := (r.masks.foldl (fun g (x : Nat × W32) => g.setMask x.1 x.2) g).masks
        lanes := (g.modLanes (c.path &&& ~~~stopped &&& ~~~r.gone) fun l x => { x with pc := nextPc r c.pc l }).lanes
        fpflags := if opensWindow i done then g.fpflags else g.fpflags ||| r.flags
        pend := countWindows (c.path &&& ~~~stopped) g.pend ++ openWindow c.g i done r.flags r.load
        issued := g.issued + 1, lastIssue := s.cycle + 1, lastPath := if c.act = 0 then c.path else c.act, lastPc := c.pc, readyFor := 0
        waits := (retire s c i r g done stopped).waits
        got := g.got.filter fun x => !(x.pc == c.pc && hasLane c.path x.lane)
        mism := 0
        streak := if hasLane c.path g.streakLane then g.streak + 1 else 1
        streakLane := if hasLane c.path g.streakLane then g.streakLane else lowestLane c.path } := by
  have hs := writeBack_same s c i r.regs (done &&& r.only) g
  have hm := setMasks_masks r.masks (writeBack s c i r.regs (done &&& r.only) g) g hs.masks hs.key
  have e := setMasks_eq r.masks (writeBack s c i r.regs (done &&& r.only) g)
  rw [hm] at e
  unfold retire
  simp only [e]
  generalize writeBack s c i r.regs (done &&& r.only) g = h at hs ⊢
  have hl : h.lane = g.lane := by unfold Group.lane; rw [hs.lanes]
  rw [hs.eq]
  rfl

/-! ## The register file -/

theorem findGroup_other (s : State) (g : Group) (w : Who) (h : w ≠ g.who) : findGroup (setGroup s g) w = findGroup s w := by
  have key : ∀ l : List Group, firstWhere (fun x => decide (x.who = w)) (l.map fun x => if decide (x.who = g.who) then g else x)
      = firstWhere (fun x => decide (x.who = w)) l := by
    intro l
    induction l with
    | nil => rfl
    | cons x l ih =>
      simp only [List.map_cons, firstWhere]
      rw [ih]
      by_cases e : x.who = g.who
      · rw [if_pos (decide_eq_true e), if_neg (by simpa using fun e' => h e'.symm), if_neg (by simpa using fun e' => h (e'.symm.trans e))]
      · have e2 : decide (x.who = g.who) = false := by simpa using e
        simp only [e2, Bool.false_eq_true, if_false]
  exact key s.groups

/-- Held blocks depend on the keystone contexts alone. -/
theorem keptBlocks_congr (s t : State) (tile : Nat) (h1 : s.groups = t.groups) (hi : imagedGroups s = imagedGroups t) :
    keptBlocks s tile = keptBlocks t tile := by
  unfold keptBlocks; rw [h1, hi]

/-- A fold that passes over vector groups does not see which of them stands in a place. -/
theorem foldl_keyless {α : Type} (f : α → Group → α) (h : ∀ a x, x.key = none → f a x = a) (g : Group) (hg : g.key = none) :
    ∀ (l : List Group) (a : α), (mapWhere (fun x => decide (x.who = g.who)) (fun _ => g) l).foldl f a = l.foldl f a
  | [], _ => rfl
  | x :: l, a => by
    have ih := foldl_keyless f h g hg l
    unfold mapWhere at ih ⊢
    simp only [List.map_cons, List.foldl_cons]
    rw [ih]
    by_cases e : x.who = g.who
    · rw [if_pos (decide_eq_true e), h a g hg]
      have hx : x.key = none := by
        unfold Group.who at e; rw [hg] at e
        cases hk : x.key
        · rfl
        · rw [hk] at e; simp at e
      rw [h a x hx]
    · rw [if_neg (by simpa using e)]

theorem keptBlocks_set (s : State) (g : Group) (tile : Nat) (h : g.key = none) : keptBlocks (setGroup s g) tile = keptBlocks s tile := by
  unfold keptBlocks
  have e : imagedGroups (setGroup s g) = imagedGroups s := rfl
  rw [e, List.foldl_append, List.foldl_append]
  congr 1
  exact foldl_keyless _ (fun a x hx => by simp only [hx]) g h _ _

theorem fileUse_congr (s t : State) (tile : Nat) (h1 : s.groups = t.groups) (hi : imagedGroups s = imagedGroups t)
    (ht : ∀ g : Group, groupTile s g = groupTile t g)
    (hp : ∀ g ∈ s.groups, g.away = true → ∀ r, pinned s g r = pinned t g r) : fileUse s tile = fileUse t tile := by
  unfold fileUse
  simp only [ht]
  rw [← h1, keptBlocks_congr s t tile h1 hi]
  congr 2
  apply List.map_congr_left
  intro g hg
  by_cases ha : g.away = true
  · simp only [hp g (List.mem_of_mem_filter hg) ha]
  · simp [ha]

theorem parkUse_congr (s t : State) (tile : Nat) (h1 : s.groups = t.groups) (ht : ∀ g : Group, groupTile s g = groupTile t g)
    (hp : ∀ g ∈ s.groups, g.away = true → ∀ r, pinned s g r = pinned t g r) : parkUse s tile = parkUse t tile := by
  unfold parkUse
  simp only [ht]
  rw [← h1]
  congr 1
  apply List.map_congr_left
  intro g hg
  have := (List.mem_filter.mp hg).2
  simp only [Bool.and_eq_true] at this
  simp only [hp g (List.mem_of_mem_filter hg) this.1.2]

/-- Finding a keystone context passes over vector groups that change without becoming one. -/
theorem firstKey_mod (team : Nat) (w : Who) (hw : ∀ k, w ≠ .key k) (f : Group → Group) (hf : ∀ g, (f g).who = g.who) (tl : List Group) :
    ∀ l : List Group, firstWhere (fun x : Group => x.key.isSome && x.team == team) (mapWhere (fun x => decide (x.who = w)) f l ++ tl) =
      firstWhere (fun x : Group => x.key.isSome && x.team == team) (l ++ tl)
  | [] => rfl
  | x :: l => by
    have ih := firstKey_mod team w hw f hf tl l
    unfold mapWhere at ih ⊢
    simp only [List.map_cons, List.cons_append, firstWhere]
    rw [ih]
    have key : ∀ y : Group, y.who = w → y.key.isSome = false := fun y e => by
      cases hk : y.key
      · rfl
      · exact absurd (by unfold Group.who at e; rw [hk] at e; exact e.symm) (hw y.team)
    by_cases e : x.who = w
    · rw [if_pos (decide_eq_true e), key x e, key (f x) ((hf x).trans e)]
      simp
    · rw [if_neg (c := decide (x.who = w) = true) (by simpa using e)]

theorem keyOf_mod (s : State) (team : Nat) (w : Who) (hw : ∀ k, w ≠ .key k) (f : Group → Group) (hf : ∀ g, (f g).who = g.who) :
    keyOf (modGroup s w f) team = keyOf s team := by
  unfold keyOf
  have e1 : imagedGroups (modGroup s w f) = imagedGroups s := rfl
  have e2 : savedGroups (modGroup s w f) = savedGroups s := rfl
  have e3 : (modGroup s w f).groups = mapWhere (fun x => decide (x.who = w)) f s.groups := rfl
  rw [e1, e2, e3, firstKey_mod team w hw f hf]

theorem who_keyless {g : Group} (h : g.key = none) : ∀ k, g.who ≠ .key k := fun k => by unfold Group.who; rw [h]; simp

/-- Pins depend on teams and keystone contexts alone. -/
theorem pinned_set (s : State) (g x : Group) (r : Nat) (h : g.key = none) : pinned (setGroup s g) x r = pinned s x r := by
  have hf : keyOf (setGroup s g) x.team = keyOf s x.team := by
    unfold keyOf
    have e3 : (setGroup s g).groups = mapWhere (fun x => decide (x.who = g.who)) (fun _ => g) s.groups := rfl
    have e1 : imagedGroups (setGroup s g) = imagedGroups s := rfl
    have e2 : savedGroups (setGroup s g) = savedGroups s := rfl
    have e4 : mapWhere (fun x => decide (x.who = g.who)) (fun _ => g) s.groups
        = mapWhere (fun x => decide (x.who = g.who)) (fun y => if y.who = g.who then g else y) s.groups := by
      unfold mapWhere
      apply List.map_congr_left
      intro y _
      by_cases e : y.who = g.who <;> simp [e]
    rw [e1, e2, e3, e4, firstKey_mod x.team g.who (who_keyless h) _ fun y => by split <;> simp_all]
  unfold pinned
  rw [hf]
  rfl

/-- Slots that a group draws from the file of a tile. -/
def drawn (s : State) (tile : Nat) (g : Group) : Nat :=
  if g.key.isNone && groupTile s g == tile then
    (if g.away then sumNat (g.regs.map fun (r, x) => if !x.spilled && pinned s g r then x.shape.slots else 0) else groupSlots g)
  else 0

theorem sum_filter_map (p : Group → Bool) (f : Group → Nat) : ∀ l : List Group,
    ((l.filter p).map f).sum = (l.map fun x => if p x then f x else 0).sum
  | [] => rfl
  | x :: l => by
    have ih := sum_filter_map p f l
    by_cases h : p x = true
    · simp [h, ih]
    · simp only [List.filter_cons, h, List.map_cons, List.sum_cons]; simp [ih]

/-- Slots of the blocks that a core keeps for a binding after their group ended. -/
def keptSlots (s : State) (tile : Nat) : Nat := sumNat ((keptBlocks s tile).map fun x => 32 * x.2.len)

theorem fileUse_eq (s : State) (tile : Nat) : fileUse s tile = (s.groups.map (drawn s tile)).sum + keptSlots s tile := by
  unfold fileUse
  rw [sumNat_eq, sum_filter_map]
  rfl

theorem sum_le (f h : Group → Nat) : ∀ l : List Group, (∀ x ∈ l, f x ≤ h x) → (l.map f).sum ≤ (l.map h).sum
  | [], _ => Nat.le_refl _
  | x :: l, hx => by
    have h1 := hx x List.mem_cons_self
    have h2 := sum_le f h l fun y hy => hx y (List.mem_cons_of_mem _ hy)
    simp only [List.map_cons, List.sum_cons]; omega

/-- What a group in the place of another draws from the file. -/
theorem fileUse_set (s : State) (g : Group) (tile n : Nat) (hk : g.key = none) (ha : g.away = false) (hn : groupSlots g ≤ n) :
    fileUse (setGroup s g) tile ≤ sumNat (s.groups.map (drawWith s tile g.who n)) + keptSlots s tile := by
  rw [fileUse_eq, sumNat_eq]
  have hkept : keptSlots (setGroup s g) tile = keptSlots s tile := by unfold keptSlots; rw [keptBlocks_set s g tile hk]
  rw [hkept]
  refine Nat.add_le_add_right ?_ _
  have e : (setGroup s g).groups = s.groups.map fun x => if decide (x.who = g.who) then g else x := rfl
  rw [e, List.map_map]
  apply sum_le
  intro x _
  have ht : ∀ y, groupTile (setGroup s g) y = groupTile s y := fun _ => rfl
  by_cases hx : x.who = g.who
  · simp only [Function.comp, hx, decide_true, if_true, drawWith, drawn, hk, ha]
    split
    · exact hn
    · exact Nat.zero_le _
  · simp only [Function.comp, hx, decide_false, Bool.false_eq_true, if_false, drawWith, drawn, ht, pinned_set s g _ _ hk]
    cases hk2 : x.key.isSome
    · have : x.key.isNone = true := by rw [Option.isNone_iff_eq_none]; exact Option.not_isSome_iff_eq_none.mp (by simp [hk2])
      by_cases h2 : groupTile s x = tile
      · simp [this, h2]
      · simp [h2]
    · have : x.key.isNone = false := by
        cases hx2 : x.key
        · simp [hx2] at hk2
        · rfl
      simp [this]

theorem parkUse_set (s : State) (g : Group) (tile : Nat) (hk : g.key = none) (ha : g.away = false) :
    parkUse (setGroup s g) tile ≤ parkUse s tile := by
  unfold parkUse
  rw [sumNat_eq, sum_filter_map, sumNat_eq, sum_filter_map]
  have e : (setGroup s g).groups = s.groups.map fun x => if decide (x.who = g.who) then g else x := rfl
  have ht : ∀ y, groupTile (setGroup s g) y = groupTile s y := fun _ => rfl
  rw [e, List.map_map]
  apply sum_le
  intro x _
  by_cases hx : x.who = g.who
  · simp [Function.comp, hx, ha]
  · simp only [Function.comp, hx, decide_false, Bool.false_eq_true, if_false, ht, pinned_set s g _ _ hk]
    exact Nat.le_refl _

/-! ## A path that nothing stops -/

theorem hitKeys_nil : hitKeys [] = [] := by
  have h : ∀ l : List Nat, l.filter (fun _ => false) = [] := fun l => by simp
  simp [hitKeys, distinct]

/-- Without a cause nothing is taken, when no sub-group is due. -/
theorem raise_nil (s : State) (w : Who) (m : W32) (g : Group) (hf : findGroup s w = some g) (hd : dueSub g = none) : raise s w m [] = s := by
  unfold raise
  simp only [firstWhere]
  unfold parkAll deliver
  rw [hitKeys_nil]
  simp only [List.foldl_nil, hf, hd]

/-- A file that is not full asks nothing of other groups. -/
theorem makeRoom_fits (tile : Nat) (w : Who) (s : State) (h : fileUse s tile ≤ Config.fileSlots) : ∀ f, makeRoom tile w f s = s
  | 0 => rfl
  | f + 1 => by unfold makeRoom; rw [if_pos h]

/-- A group is in the place of the one that was found, of the same name. -/
theorem issuer_find (s : State) (c : Ctx) (h : issuer s = some c) : findGroup s c.g.who = some c.g ∧ c.s = s ∧ c.t = teamOf s c.g.team := by
  unfold issuer at h
  cases hc : s.cur with
  | none => simp [hc] at h
  | some i =>
    simp only [hc] at h
    cases hg : findGroup s i.who with
    | none => simp [hg] at h
    | some g =>
      simp only [hg, Option.map_some, Option.some.injEq] at h
      subst h
      exact ⟨by rw [findGroup_who s _ _ hg]; exact hg, rfl, rfl⟩

theorem fillOps_pinned (c : Ctx) (i : Instr) (hk : c.g.key = none) (x : Group) (n : Nat) : pinned (fillOps c i).s x n = pinned c.s x n := by
  have hs : SameBut c.g (fillOps c i).g := fillOps_same c i
  unfold fillOps at hs ⊢; dsimp only at hs ⊢; split
  · rename_i hc
    rw [if_pos hc] at hs
    exact pinned_set _ _ _ _ (by rw [hs.key]; exact hk)
  · rfl

/-- A group that stands where one of its name was put is that one. -/
theorem mem_setGroup {s : State} {g x : Group} (h : x ∈ (setGroup s g).groups) (e : x.who = g.who) : x = g := by
  obtain ⟨y, -, hy⟩ := List.mem_map.mp h
  by_cases hd : y.who = g.who
  · rw [if_pos (decide_eq_true hd)] at hy; exact hy.symm
  · rw [if_neg (by simpa using hd)] at hy; exact absurd (hy ▸ e) hd

theorem fillOps_vault (c : Ctx) (i : Instr) : (fillOps c i).s.vault = c.s.vault := by unfold fillOps; dsimp only; split <;> rfl

theorem fillOps_saved (c : Ctx) (i : Instr) : (fillOps c i).s.saved = c.s.saved := by unfold fillOps; dsimp only; split <;> rfl

theorem fillOps_teams (c : Ctx) (i : Instr) : (fillOps c i).s.teams = c.s.teams := by unfold fillOps; dsimp only; split <;> rfl

/-- What the effect of an instruction must answer for its path to go on: no wait, tiles, pins and other groups as they were, and in the place of
its own group one of the same name, place and parked sub-groups that holds little more slots. -/
structure Plain (c : Ctx) (r : Res) (g : Group) : Prop where
  wait : r.wait = none
  imaged : imagedGroups r.s = imagedGroups c.s
  found : findGroup r.s c.g.who = some g
  groups : ∀ h : Group, h.who = c.g.who → (setGroup r.s h).groups = (setGroup c.s h).groups
  tile : ∀ x : Group, groupTile r.s x = groupTile c.s x
  pins : c.g.key = none → ∀ x : Group, x.who ≠ c.g.who → ∀ n, pinned r.s x n = pinned c.s x n
  key : g.key.isSome = c.g.key.isSome
  core : g.core = c.g.core
  team : g.team = c.g.team
  idx : g.idx = c.g.idx
  away : g.away = c.g.away
  subs : g.subs = c.g.subs
  room : groupSlots g + 32 * r.regs.length ≤ groupSlots c.g + 256

theorem who_eq {g h : Group} (hk : g.key.isSome = h.key.isSome) (ht : g.team = h.team) (hi : g.idx = h.idx) : g.who = h.who := by
  unfold Group.who; rw [hk, ht, hi]

theorem dueSub_eq {g h : Group} (hk : g.key.isSome = h.key.isSome) (hs : g.subs = h.subs) : dueSub g = dueSub h := by
  unfold dueSub; rw [hk, hs]

/-- The lanes that met a cause. -/
def stoppedOf (r : Res) : W32 := laneSet fun l => r.hits.any fun h => h.lane == l

theorem stopped_none {r : Res} (h : r.hits = []) : stoppedOf r = 0 := by unfold stoppedOf; rw [h]; decide

theorem but_none (m : W32) : m &&& ~~~(0 : W32) = m := by
  have : ~~~(0 : W32) = BitVec.allOnes 32 := by decide
  rw [this, BitVec.and_allOnes]

/-- A path runs an instruction whose effect is plain: the group that the effect left retires it, in the state that the effect left, and the lanes that
met causes take them. -/
theorem issue_hits {s : State} {i : Instr} {c : Ctx} (h : Runs s i c) (body : Ctx → Res) (g2 : Group)
    (hp : Plain (fillOps c i) (body (fillOps c i)) g2) :
    issue i s body = .next (raise (noteScript c (setGroup (uncur (body (fillOps c i)).s)
        (retire (body (fillOps c i)).s c i (body (fillOps c i)) g2 (c.act &&& ~~~stoppedOf (body (fillOps c i))) (stoppedOf (body (fillOps c i))))))
      c.g.who (c.act &&& ~~~stoppedOf (body (fillOps c i))) (body (fillOps c i)).hits) := by
  obtain ⟨-, hcs, -⟩ := issuer_find s c h.path
  have hne : (decide (c.act = 0) && !i.isPath) = false := by
    rcases h.active with h1 | h1
    · rw [decide_eq_false h1]; rfl
    · rw [h1]; simp
  unfold issue
  rw [h.path]
  simp only [issueOn]
  rw [if_neg (by rw [hne]; decide), h.clear]
  simp only
  rw [hcs, if_neg (by rw [h.free]; decide), h.ready]
  simp only
  congr 1
  generalize hr : body (fillOps c i) = r at hp ⊢
  have hsame : SameBut c.g (fillOps c i).g := fillOps_same c i
  have hfind' : findGroup r.s c.g.who = some g2 := by rw [← hsame.who]; exact hp.found
  unfold finish
  simp only [hp.wait, hfind']
  change (if _ then _ else _) = _
  have hfold : (laneSet fun l => r.hits.any fun h => h.lane == l) = stoppedOf r := rfl
  rw [hfold]
  generalize stoppedOf r = stopped
  generalize hG : retire r.s c i r g2 (c.act &&& ~~~stopped) stopped = G
  have hE := retire_eq r.s c i r g2 (c.act &&& ~~~stopped) stopped
  rw [hG] at hE
  have hkey2 : g2.key.isSome = c.g.key.isSome := by rw [hp.key, hsame.key]
  have hGk : G.key = g2.key := by rw [hE]
  have hGw : G.who = c.g.who := by
    rw [← hsame.who]
    exact who_eq (by rw [hGk]; exact hp.key) (by rw [hE]; exact hp.team) (by rw [hE]; exact hp.idx)
  have hGa : G.away = c.g.away := by rw [hE, ← hsame.away]; exact hp.away
  have htile : ∀ x : Group, groupTile r.s x = groupTile s x := fun x => by
    rw [hp.tile]; unfold groupTile teamOf findTeam; rw [fillOps_teams, hcs]
  have hGt : groupTile (setGroup (uncur r.s) G) g2 = groupTile s c.g := by
    have e1 : g2.team = c.g.team := by rw [hp.team]; exact hsame.team
    have e2 : g2.core = c.g.core := by rw [hp.core]; exact hsame.core
    refine (htile g2).trans ?_
    unfold groupTile; rw [e1, e2]
  rw [hGt, hcs]
  cases hkey : c.g.key.isSome
  · -- a vector group
    have hk2 : g2.key.isSome = false := by rw [hkey2]; exact hkey
    have hk : G.key = none := by rw [hGk]; exact Option.not_isSome_iff_eq_none.mp (by simp [hk2])
    have hroom := h.room
    simp only [fileRoom, hkey, Bool.false_or, Bool.and_eq_true, Bool.not_eq_true', decide_eq_true_eq] at hroom
    have hGaway : G.away = false := by rw [hGa]; exact hroom.1
    have hslots : groupSlots G ≤ groupSlots c.g + 64 * (namedRegs c.g i).length + 256 := by
      have e : groupSlots G = groupSlots (writeBack r.s c i r.regs (c.act &&& ~~~stopped &&& r.only) g2) := by rw [hE]; rfl
      have h1 := writeBack_slots r.s c i r.regs (c.act &&& ~~~stopped &&& r.only) g2
      have h2 := fillOps_slots c i
      have h3 := hp.room
      omega
    have himg : imagedGroups (setGroup (uncur r.s) G) = imagedGroups (setGroup s G) := by
      show imagedGroups r.s = imagedGroups s
      rw [hp.imaged]; unfold imagedGroups; rw [fillOps_vault, hcs]
    have hmaps : (setGroup (uncur r.s) G).groups = (setGroup s G).groups := by
      have e2 := congrArg State.groups (fillOps_set c i G hGw)
      rw [hcs] at e2
      rw [← e2]
      exact hp.groups G (by rw [hGw]; exact hsame.who.symm)
    have hcg : c.g.key = none := Option.not_isSome_iff_eq_none.mp (by simp [hkey])
    have hpins : ∀ x ∈ (setGroup (uncur r.s) G).groups, x.away = true → ∀ n, pinned (setGroup (uncur r.s) G) x n = pinned (setGroup s G) x n := by
      intro x hx ha n
      have hxw : x.who ≠ c.g.who := fun e => by
        rw [mem_setGroup hx (e.trans hGw.symm), hGaway] at ha; exact absurd ha (by decide)
      rw [pinned_set _ _ _ _ hk, pinned_set _ _ _ _ hk]
      have h1 := hp.pins (by rw [hsame.key]; exact hcg) x (by rw [hsame.who]; exact hxw) n
      rw [fillOps_pinned _ _ hcg, hcs] at h1
      exact h1
    have huse : fileUse (setGroup (uncur r.s) G) (groupTile s c.g) ≤ Config.fileSlots := by
      rw [fileUse_congr _ _ _ hmaps himg htile hpins]
      refine Nat.le_trans (fileUse_set s G _ _ hk hGaway hslots) ?_
      rw [hGw]; exact hroom.2
    have hpark : parkUse (setGroup (uncur r.s) G) (groupTile s c.g) ≤ parkUse s (groupTile s c.g) := by
      rw [parkUse_congr _ _ _ hmaps htile hpins]; exact parkUse_set s G _ hk hGaway
    simp only [hk2, Bool.false_eq_true, if_false]
    rw [makeRoom_fits _ _ _ huse, if_neg]
    intro hx
    simp only [roomOk, Bool.and_eq_true, Bool.not_eq_true', decide_eq_true_eq, Bool.and_eq_false_iff, decide_eq_false_iff_not] at hx
    rcases hx.1.2 with h3 | h3
    · exact h3 huse
    · exact h3 (Nat.le_trans hpark hx.2.2)
  · have hk2 : g2.key.isSome = true := by rw [hkey2]; exact hkey
    have hkn : g2.key.isNone = false := by
      cases hx : g2.key
      · simp [hx] at hk2
      · rfl
    simp only [hk2, if_true]
    rw [if_neg (by rw [hkn]; simp)]

/-- The script of a paired run changes nothing of a group but its script. -/
theorem modGroup_script (s : State) (w v : Who) (g : Group) (f : Group → List (W32 × W64)) (h : findGroup s w = some g) :
    ∃ x, findGroup (modGroup s v fun h => { h with script := f h }) w = some { g with script := x } := by
  have hw : ∀ y : Group, ({ y with script := f y } : Group).who = y.who := fun _ => rfl
  by_cases e : w = v
  · refine ⟨f g, ?_⟩
    subst e
    unfold findGroup at h ⊢
    unfold modGroup
    simp only
    rw [firstWhere_mapWhere_same _ _ (fun y hy => by simpa [hw] using hy), h]
    rfl
  · refine ⟨g.script, ?_⟩
    have key : ∀ l : List Group, firstWhere (fun y => decide (y.who = w)) l = some g →
        firstWhere (fun y => decide (y.who = w)) (mapWhere (fun y => decide (y.who = v)) (fun h => { h with script := f h }) l) = some g := by
      intro l
      induction l with
      | nil => exact id
      | cons y l ih =>
        intro hl
        simp only [mapWhere, List.map_cons] at ih ⊢
        unfold firstWhere at hl ⊢
        by_cases e1 : y.who = w
        · have e2 : ¬y.who = v := fun e3 => e (e1.symm.trans e3)
          simp only [e1, decide_true, if_true] at hl ⊢
          rw [if_neg (c := decide (w = v) = true) (by simpa using e)]
          simp only [e1, decide_true, if_true]; exact hl
        · simp only [e1, decide_false, Bool.false_eq_true, if_false] at hl
          by_cases e3 : y.who = v
          · have e4 : decide (({ y with script := f y } : Group).who = w) = false := by rw [hw]; simpa using e1
            rw [if_pos (decide_eq_true e3), if_neg (by rw [e4]; decide)]; exact ih hl
          · have e4 : decide (y.who = w) = false := by simpa using e1
            rw [if_neg (c := decide (y.who = v) = true) (by simpa using e3), if_neg (by rw [e4]; decide)]; exact ih hl
    exact key s.groups h

theorem noteScript_find (c : Ctx) (s : State) (w : Who) (g : Group) (h : findGroup s w = some g) :
    ∃ x, findGroup (noteScript c s) w = some { g with script := x } := by
  unfold noteScript
  split
  · exact ⟨g.script, h⟩
  · split
    · split
      · exact modGroup_script s w _ g _ h
      · exact ⟨g.script, h⟩
    · exact modGroup_script s w _ g (fun x => if x.script.head? == some (c.path, c.pc) then x.script.drop 1 else []) h

/-- The same when no lane met a cause. -/
theorem issue_plain {s : State} {i : Instr} {c : Ctx} (h : Runs s i c) (body : Ctx → Res) (g2 : Group)
    (hp : Plain (fillOps c i) (body (fillOps c i)) g2) (hh : (body (fillOps c i)).hits = []) :
    issue i s body = .next (noteScript c (setGroup (uncur (body (fillOps c i)).s) (retire (body (fillOps c i)).s c i (body (fillOps c i)) g2 c.act 0))) := by
  rw [issue_hits h body g2 hp, stopped_none hh, but_none, hh]
  congr 1
  generalize body (fillOps c i) = r at hp ⊢
  have hsame : SameBut c.g (fillOps c i).g := fillOps_same c i
  have hE := retire_eq r.s c i r g2 c.act 0
  generalize retire r.s c i r g2 c.act 0 = G at hE ⊢
  have hkey2 : g2.key.isSome = c.g.key.isSome := by rw [hp.key, hsame.key]
  have hGk : G.key = g2.key := by rw [hE]
  have hGw : G.who = c.g.who := by
    rw [← hsame.who]
    exact who_eq (by rw [hGk]; exact hp.key) (by rw [hE]; exact hp.team) (by rw [hE]; exact hp.idx)
  have hGf : findGroup (setGroup (uncur r.s) G) c.g.who = some G := by
    rw [← hGw]; exact findGroup_setGroup _ _ g2 (by rw [hGw, ← hsame.who]; exact hp.found)
  have hGd : dueSub G = none := by
    rw [dueSub_eq (h := c.g) (by rw [hGk]; exact hkey2) (by rw [hE]; exact hp.subs.trans hsame.subs)]; exact h.calm
  obtain ⟨x, hx⟩ := noteScript_find c (setGroup (uncur r.s) G) c.g.who G hGf
  exact raise_nil _ _ _ _ hx hGd

/-- Pins depend on the quarter holds and on keystone contexts. -/
theorem pinned_congr {s t : State} (x : Group) (n : Nat) (hq : (teamOf s x.team).quarters = (teamOf t x.team).quarters)
    (hf : keyOf s x.team = keyOf t x.team) : pinned s x n = pinned t x n := by
  unfold pinned; rw [hq, hf]

/-- An effect that changes of the groups only its own, by a function that keeps its name, place and sub-groups, and of teams neither the
cluster nor the quarter holds, is plain. -/
theorem plain_mod {c : Ctx} {r : Res} (f : Group → Group) (hf : findGroup c.s c.g.who = some c.g) (hw : r.wait = none)
    (hg : r.s.groups = (modGroup c.s c.g.who f).groups) (hv : r.s.vault = c.s.vault) (hs : r.s.saved = c.s.saved)
    (ht : ∀ k, (teamOf r.s k).cluster = (teamOf c.s k).cluster ∧ (teamOf r.s k).quarters = (teamOf c.s k).quarters)
    (hwho : ∀ g : Group, (f g).who = g.who) (hkey : (f c.g).key.isSome = c.g.key.isSome)
    (hcore : (f c.g).core = c.g.core) (hteam : (f c.g).team = c.g.team) (hidx : (f c.g).idx = c.g.idx) (haway : (f c.g).away = c.g.away)
    (hsubs : (f c.g).subs = c.g.subs) (hroom : groupSlots (f c.g) + 32 * r.regs.length ≤ groupSlots c.g + 256) : Plain c r (f c.g) where
  wait := hw
  imaged := by unfold imagedGroups; rw [hv]
  found := by
    unfold findGroup at hf ⊢
    rw [hg]
    unfold modGroup
    simp only
    rw [firstWhere_mapWhere_same _ _ (fun x hx => by simpa [hwho] using hx), hf]
    rfl
  groups := fun h hh => by
    show mapWhere _ _ r.s.groups = mapWhere _ _ c.s.groups
    rw [hg, hh]
    exact mapWhere_mapWhere _ _ _ (fun x hx => by simpa [hwho] using hx) _
  tile := fun x => by unfold groupTile; rw [(ht x.team).1]
  pins := fun hk x _ n => by
    refine pinned_congr x n (ht x.team).2 ?_
    have e : keyOf r.s x.team = keyOf (modGroup c.s c.g.who f) x.team := by
      unfold keyOf imagedGroups savedGroups; rw [hg, hv, hs]; rfl
    rw [e]; exact keyOf_mod _ _ _ (who_keyless hk) f hwho
  key := hkey
  core := hcore
  team := hteam
  idx := hidx
  away := haway
  subs := hsubs
  room := hroom

/-- An effect that leaves the groups as they were, and of teams the cluster and the quarter holds, is plain. -/
theorem plain_same {c : Ctx} {r : Res} (hf : findGroup c.s c.g.who = some c.g) (hw : r.wait = none)
    (hg : r.s.groups = c.s.groups) (hv : r.s.vault = c.s.vault) (hs : r.s.saved = c.s.saved)
    (ht : ∀ k, (teamOf r.s k).cluster = (teamOf c.s k).cluster ∧ (teamOf r.s k).quarters = (teamOf c.s k).quarters)
    (hl : r.regs.length ≤ 8) : Plain c r c.g :=
  plain_mod (fun g => g) hf hw (by
    rw [hg]; show _ = mapWhere _ _ c.s.groups
    unfold mapWhere
    induction c.s.groups with
    | nil => rfl
    | cons x l ih => simp) hv hs ht (fun _ => rfl) rfl rfl rfl rfl rfl rfl (by omega)

/-! ## Register results -/

theorem firstWhere_none {α : Type} (p : α → Bool) : ∀ l : List α, (∀ x ∈ l, p x = false) → firstWhere p l = none
  | [], _ => rfl
  | x :: l, h => by
    unfold firstWhere
    rw [if_neg (by simp [h x List.mem_cons_self])]
    exact firstWhere_none p l fun y hy => h y (List.mem_cons_of_mem _ hy)

theorem live_of_lanes {g h : Group} (e : h.lanes = g.lanes) : h.live = g.live := by
  unfold Group.live Group.lanesWhere Group.lane; rw [e]

/-- A register after several distinct registers were written. -/
theorem shape_puts (act : W32) (x : Nat) : ∀ (rs : List (Nat × Shape)) (g : Group), (rs.map (·.1)).Nodup →
    ((rs.foldl (fun g (y : Nat × Shape) => putReg g act y.1 y.2) g).reg x).shape =
      match firstWhere (fun y => y.1 == x) rs with
      | some y => writeShape g.live act (g.reg x).shape (g.keeps act y.2)
      | none => (g.reg x).shape
  | [], _, _ => rfl
  | y :: rs, g, hn => by
    simp only [List.map_cons, List.nodup_cons] at hn
    simp only [List.foldl_cons]
    rw [shape_puts act x rs _ hn.2, live_of_lanes (same_putReg g act y.1 y.2).lanes, reg_putReg]
    have hk : ∀ sh, (putReg g act y.1 y.2).keeps act sh = g.keeps act sh := fun sh => by
      unfold Group.keeps; rw [(same_putReg g act y.1 y.2).eq]
    simp only [hk]
    by_cases e : y.1 = x
    · have hnone : firstWhere (fun z : Nat × Shape => z.1 == x) rs = none := by
        apply firstWhere_none
        intro z hz
        have : z.1 ∈ rs.map (·.1) := List.mem_map_of_mem hz
        have hne : z.1 ≠ x := fun e2 => hn.1 (by rw [e, ← e2]; exact this)
        simpa using hne
      rw [hnone]
      simp [firstWhere, e]
    · have e' : ¬x = y.1 := fun h => e h.symm
      simp [firstWhere, e, e']

/-- Register results give the values of a claim: the same registers in order, and in every active lane the claimed value. -/
def Gives (c : Ctx) (rs : List (Nat × Shape)) (ds : List (Nat × (Nat → W32))) : Prop :=
  List.Forall₂ (fun x d => x.1 = d.1 ∧ ∀ l, hasLane c.act l = true → x.2.at l = d.2 l) rs ds

theorem gives_fst {c : Ctx} {rs : List (Nat × Shape)} {ds : List (Nat × (Nat → W32))} (h : Gives c rs ds) : rs.map (·.1) = ds.map (·.1) := by
  induction h with
  | nil => rfl
  | cons h _ ih => simp [h.1, ih]

theorem gives_find {c : Ctx} {rs : List (Nat × Shape)} {ds : List (Nat × (Nat → W32))} (h : Gives c rs ds) (hn : (ds.map (·.1)).Nodup)
    (d : Nat × (Nat → W32)) (hd : d ∈ ds) :
    ∃ y, firstWhere (fun y : Nat × Shape => y.1 == d.1) rs = some y ∧ ∀ l, hasLane c.act l = true → y.2.at l = d.2 l := by
  induction h with
  | nil => exact absurd hd List.not_mem_nil
  | @cons x e rs ds hx _ ih =>
    simp only [List.map_cons, List.nodup_cons] at hn
    rcases List.mem_cons.mp hd with rfl | hd'
    · exact ⟨x, by simp [firstWhere, hx.1], hx.2⟩
    · obtain ⟨y, hy, hv⟩ := ih hn.2 hd'
      refine ⟨y, ?_, hv⟩
      have hne : ¬x.1 = d.1 := fun e2 => hn.1 (by rw [← hx.1, e2]; exact List.mem_map_of_mem hd')
      simpa [firstWhere, hne] using hy

/-- Values after the results were written back: spills, fills and the joining of pairs change no value. -/
theorem writeBack_wrote (s : State) (c0 c : Ctx) (i : Instr) (rs : List (Nat × Shape)) (ds : List (Nat × (Nat → W32))) (g : Group)
    (hg : SameBut c.g g) (hs : ∀ x, (g.reg x).shape = (c.g.reg x).shape) (h : Gives c rs ds) (hn : (ds.map (·.1)).Nodup) :
    WroteRegs c (writeBack s c0 i rs c.act g) ds := by
  by_cases ha : c.act = 0
  · have hval : (writeBack s c0 i rs c.act g).val = c.g.val := by
      funext x l
      unfold Group.val writeBack
      rw [shape_fitBudget, ha]
      simp only [if_true]
      rw [if_pos (by simp), hs]
    have hno : ∀ l, hasLane c.act l = false := fun l => by rw [ha]; simp [hasLane]
    exact ⟨fun _ _ l hl => absurd hl (by rw [hno l]; decide), fun _ _ l _ _ => by rw [hval], fun _ _ l _ => by rw [hval]⟩
  have hval : ∀ x l, l < 32 → (writeBack s c0 i rs c.act g).val x l =
      ((rs.foldl (fun g (y : Nat × Shape) => putReg g c.act y.1 y.2) g).reg x).shape.at l := by
    intro x l hl
    unfold Group.val writeBack
    rw [shape_fitBudget, if_neg ha]
    split
    · rfl
    · generalize rs.foldl (fun g (y : Nat × Shape) => putReg g c.act y.1 y.2) g = g0
      generalize pairsWritten c0.g i = ps
      induction ps generalizing g0 with
      | nil => rfl
      | cons p ps ih => simp only [List.foldl_cons]; rw [ih, at_joinPair _ _ _ _ hl]
  have hlive : g.live = c.g.live := live_of_lanes hg.lanes
  have hn' : (rs.map (·.1)).Nodup := by rw [gives_fst h]; exact hn
  constructor
  · intro d hd l hl
    obtain ⟨y, hy, hv⟩ := gives_find h hn d hd
    rw [hval _ _ (hasLane_lt _ _ hl), shape_puts _ _ _ _ hn', hy]
    simp only
    rw [at_writeShape _ _ _ _ _ (hasLane_lt _ _ hl)]
    simp [hl, at_keeps _ _ _ _ hl, hv l hl]
  · intro d hd l hl hna
    have hl32 := hasLane_lt _ _ hl
    obtain ⟨y, hy, -⟩ := gives_find h hn d hd
    rw [hval _ _ hl32, shape_puts _ _ _ _ hn', hy]
    simp only
    rw [at_writeShape _ _ _ _ _ hl32, hs, hlive]
    have hne : ¬c.g.live &&& ~~~c.act = 0 := by
      intro h0
      have := (lanes_zero _).mpr h0 l hl32
      rw [hasLane_and, hasLane_not _ _ hl32, hl, hna] at this
      exact absurd this (by decide)
    have hne2 : ¬(c.g.live &&& ~~~c.act = 0#32) := hne
    rw [if_neg (by simp [hna, hne2])]
    rfl
  · intro x hx l hl
    rw [hval _ _ hl, shape_puts _ _ _ _ hn']
    have hnone : firstWhere (fun y : Nat × Shape => y.1 == x) rs = none := by
      apply firstWhere_none
      intro z hz
      have : z.1 ∈ ds.map (·.1) := by rw [← gives_fst h]; exact List.mem_map_of_mem hz
      have hne : z.1 ≠ x := fun e => hx (e ▸ this)
      simpa using hne
    rw [hnone]
    simp only
    rw [hs]
    rfl

/-- What the claims about an instruction name when its effect changed its group by `f`, wrote registers only for some lanes, set lanes
itself, or stopped lanes. -/
def after (c : Ctx) (f : Group → Group) (r : Res) : Ctx :=
  { c with g := f c.g, act := c.act &&& ~~~stoppedOf r &&& r.only, path := c.path &&& ~~~stoppedOf r &&& ~~~r.gone }

/-- What retiring leaves. -/
theorem retire_went {s : State} {i : Instr} {c : Ctx} (r : Res) (f : Group → Group) (g2 : Group) (ds : List (Nat × (Nat → W32)))
    (hcy : r.s.cycle = s.cycle)
    (hsame : SameBut (f c.g) g2) (hsh : ∀ x, (g2.reg x).shape = ((f c.g).reg x).shape)
    (hg : Gives (after c f r) r.regs ds) (hn : (ds.map (·.1)).Nodup) :
    WentOn s (after c f r) (retire r.s c i r g2 (c.act &&& ~~~stoppedOf r) (stoppedOf r)) (r.masks.foldl (fun g (x : Nat × W32) => g.setMask x.1 x.2) (f c.g)).masks
        (if opensWindow i (c.act &&& ~~~stoppedOf r) then (f c.g).fpflags else (f c.g).fpflags ||| r.flags) (nextPc r c.pc)
      ∧ (retire r.s c i r g2 (c.act &&& ~~~stoppedOf r) (stoppedOf r)).pend =
        countWindows (c.path &&& ~~~stoppedOf r) (f c.g).pend ++ openWindow c.g i (c.act &&& ~~~stoppedOf r) r.flags r.load
      ∧ WroteRegs (after c f r) (retire r.s c i r g2 (c.act &&& ~~~stoppedOf r) (stoppedOf r)) ds := by
  have hE := retire_eq r.s c i r g2 (c.act &&& ~~~stoppedOf r) (stoppedOf r)
  constructor
  · have hm : (r.masks.foldl (fun g (x : Nat × W32) => g.setMask x.1 x.2) g2).masks
        = (r.masks.foldl (fun g (x : Nat × W32) => g.setMask x.1 x.2) (f c.g)).masks := setMasks_masks _ _ _ hsame.masks hsame.key
    have hlane : g2.lane = (f c.g).lane := by unfold Group.lane; rw [hsame.lanes]
    unfold WentOn after
    rw [hm, hcy] at hE
    have hlanes : (g2.modLanes (c.path &&& ~~~stoppedOf r &&& ~~~r.gone) fun l x => { x with pc := nextPc r c.pc l }).lanes
        = lanes32.map fun l => if hasLane (c.path &&& ~~~stoppedOf r &&& ~~~r.gone) l then { (f c.g).lane l with pc := nextPc r c.pc l } else (f c.g).lane l := by
      unfold Group.modLanes; rw [hlane]
    have hiss : g2.issued = (f c.g).issued := by rw [hsame.eq]
    rw [hlanes] at hE
    generalize retire r.s c i r g2 (c.act &&& ~~~stoppedOf r) (stoppedOf r) = G at hE ⊢
    generalize (r.masks.foldl (fun g (x : Nat × W32) => g.setMask x.1 x.2) (f c.g)).masks = ms at hE ⊢
    generalize (lanes32.map fun l => if hasLane (c.path &&& ~~~stoppedOf r &&& ~~~r.gone) l then { (f c.g).lane l with pc := nextPc r c.pc l } else (f c.g).lane l) = ls at hE ⊢
    rw [hE, hsame.eq]
  constructor
  · rw [hE, hsame.eq]
  · have hw := writeBack_wrote r.s c (after c f r) i r.regs ds g2 hsame hsh hg hn
    have hreg : (retire r.s c i r g2 (c.act &&& ~~~stoppedOf r) (stoppedOf r)).reg = (writeBack r.s c i r.regs (after c f r).act g2).reg := by
      rw [hE]; rfl
    have hval : (retire r.s c i r g2 (c.act &&& ~~~stoppedOf r) (stoppedOf r)).val = (writeBack r.s c i r.regs (after c f r).act g2).val := by
      unfold Group.val; rw [hreg]
    exact ⟨by rw [hval]; exact hw.active, by rw [hval]; exact hw.idle, by rw [hval]; exact hw.others⟩

/-- A function of a group that changes nothing that `finish` looks at, but for up to n slots of its registers. -/
structure Keeps (f : Group → Group) (n : Nat) : Prop where
  who : ∀ g, (f g).who = g.who
  key : ∀ g, (f g).key.isSome = g.key.isSome
  core : ∀ g, (f g).core = g.core
  team : ∀ g, (f g).team = g.team
  idx : ∀ g, (f g).idx = g.idx
  away : ∀ g, (f g).away = g.away
  subs : ∀ g, (f g).subs = g.subs
  slots : ∀ g, groupSlots (f g) ≤ groupSlots g + n
  same : ∀ g h, SameBut g h → (∀ x, (h.reg x).shape = (g.reg x).shape) → SameBut (f g) (f h) ∧ ∀ x, ((f h).reg x).shape = ((f g).reg x).shape

theorem keeps_id : Keeps (fun g => g) 0 :=
  ⟨fun _ => rfl, fun _ => rfl, fun _ => rfl, fun _ => rfl, fun _ => rfl, fun _ => rfl, fun _ => rfl, fun _ => Nat.le_refl _,
    fun _ _ h hx => ⟨h, hx⟩⟩

/-- What an effect must be for `completes`: it changes its own group by `f` and leaves the state `s'` outside the group, with the teams on their clusters
and the quarter holds as they were. -/
structure Touches (s s' : State) (i : Instr) (c : Ctx) (f : Group → Group) (r : Res) : Prop where
  wait : r.wait = none
  vault : r.s.vault = s.vault
  saved : r.s.saved = s.saved
  groups : r.s.groups = (modGroup (fillOps c i).s c.g.who f).groups
  teams : ∀ k, (teamOf r.s k).cluster = (teamOf s k).cluster ∧ (teamOf r.s k).quarters = (teamOf s k).quarters
  cycle : r.s.cycle = s.cycle
  outside : ∀ G : Group, G.who = c.g.who → setGroup (uncur r.s) G = setGroup (uncur s') G

/-- A path runs an instruction whose effect changes its own group by `f`, answers results, and leaves the state `s'` outside the group; lanes that met
causes take them. -/
theorem completes_hits {s : State} {i : Instr} {c : Ctx} (h : Runs s i c) (body : Ctx → Res) (r : Res) (s' : State) (f : Group → Group) (n : Nat)
    (hk : Keeps f n) (ds : List (Nat × (Nat → W32))) (he : exec i s = issue i s body) (hb : body (fillOps c i) = r) (ht : Touches s s' i c f r)
    (hgv : Gives (after c f r) r.regs ds) (hn : (ds.map (·.1)).Nodup) (hl : 32 * ds.length + n ≤ 256) :
    ∃ g', exec i s = .next (raise (scripted s (onlyGroup s' g')) c.g.who (c.act &&& ~~~stoppedOf r) r.hits) ∧
      WentOn s (after c f r) g' (r.masks.foldl (fun g (x : Nat × W32) => g.setMask x.1 x.2) (f c.g)).masks
        (if opensWindow i (c.act &&& ~~~stoppedOf r) then (f c.g).fpflags else (f c.g).fpflags ||| r.flags) (nextPc r c.pc) ∧
      g'.pend = countWindows (c.path &&& ~~~stoppedOf r) (f c.g).pend ++ openWindow c.g i (c.act &&& ~~~stoppedOf r) r.flags r.load ∧
      WroteRegs (after c f r) g' ds := by
  obtain ⟨hf, hcs, -⟩ := issuer_find s c h.path
  have hsame := fillOps_same c i
  have hlen : 32 * r.regs.length + n ≤ 256 := by
    have := congrArg List.length (gives_fst hgv)
    simp only [List.length_map] at this
    omega
  have hteam : ∀ k, teamOf (fillOps c i).s k = teamOf s k := fun k => by unfold teamOf findTeam; rw [fillOps_teams, hcs]
  have hp : Plain (fillOps c i) (body (fillOps c i)) (f (fillOps c i).g) := by
    rw [hb]
    exact plain_mod f (by rw [hsame.who]; exact fillOps_find c i (by rw [hcs]; exact hf)) ht.wait (by rw [hsame.who]; exact ht.groups)
      (by rw [fillOps_vault, hcs]; exact ht.vault) (by rw [fillOps_saved, hcs]; exact ht.saved)
      (fun k => by rw [hteam]; exact ht.teams k) hk.who (hk.key _) (hk.core _) (hk.team _) (hk.idx _) (hk.away _) (hk.subs _)
      (by have := hk.slots (fillOps c i).g; omega)
  have hs2 := hk.same c.g (fillOps c i).g hsame (fillOps_shape c i)
  refine ⟨retire r.s c i r (f (fillOps c i).g) (c.act &&& ~~~stoppedOf r) (stoppedOf r), ?_, retire_went r f _ ds ht.cycle hs2.1 hs2.2 hgv hn⟩
  rw [he, issue_hits h body _ hp, hb]
  have hsc : ∀ x, scripted s x = noteScript c x := fun x => by unfold scripted; rw [h.path]
  rw [hsc]
  congr 3
  have hwho : (retire r.s c i r (f (fillOps c i).g) (c.act &&& ~~~stoppedOf r) (stoppedOf r)).who = c.g.who := by
    rw [retire_eq]; exact (hk.who _).trans hsame.who
  exact ht.outside _ hwho

/-- The same when no lane met a cause. -/
theorem completes {s : State} {i : Instr} {c : Ctx} (h : Runs s i c) (body : Ctx → Res) (r : Res) (s' : State) (f : Group → Group) (n : Nat)
    (hk : Keeps f n) (ds : List (Nat × (Nat → W32))) (he : exec i s = issue i s body) (hb : body (fillOps c i) = r) (hh : r.hits = [])
    (ht : Touches s s' i c f r) (hgv : Gives (after c f r) r.regs ds) (hn : (ds.map (·.1)).Nodup) (hl : 32 * ds.length + n ≤ 256) :
    Completes s s' i (after c f r) (r.masks.foldl (fun g (x : Nat × W32) => g.setMask x.1 x.2) (f c.g)).masks r.flags (nextPc r c.pc) ds := by
  obtain ⟨hf, hcs, -⟩ := issuer_find s c h.path
  have hsame := fillOps_same c i
  have hlen : 32 * r.regs.length + n ≤ 256 := by
    have := congrArg List.length (gives_fst hgv)
    simp only [List.length_map] at this
    omega
  have hteam : ∀ k, teamOf (fillOps c i).s k = teamOf s k := fun k => by unfold teamOf findTeam; rw [fillOps_teams, hcs]
  have hp : Plain (fillOps c i) (body (fillOps c i)) (f (fillOps c i).g) := by
    rw [hb]
    exact plain_mod f (by rw [hsame.who]; exact fillOps_find c i (by rw [hcs]; exact hf)) ht.wait (by rw [hsame.who]; exact ht.groups)
      (by rw [fillOps_vault, hcs]; exact ht.vault) (by rw [fillOps_saved, hcs]; exact ht.saved)
      (fun k => by rw [hteam]; exact ht.teams k) hk.who (hk.key _) (hk.core _) (hk.team _) (hk.idx _) (hk.away _) (hk.subs _)
      (by have := hk.slots (fillOps c i).g; omega)
  have hs2 := hk.same c.g (fillOps c i).g hsame (fillOps_shape c i)
  have hw := retire_went (i := i) r f _ ds ht.cycle hs2.1 hs2.2 hgv hn
  rw [stopped_none hh, but_none, but_none] at hw
  have hwin : windowed s i = opensWindow i c.act := by unfold windowed; rw [h.path]; rfl
  refine ⟨retire r.s c i r (f (fillOps c i).g) c.act 0, ?_, by unfold flagsAfter; rw [hwin]; exact hw.1, fun c0 h0 => ?_, hw.2.2⟩
  case refine_2 =>
    rw [h.path] at h0
    cases h0
    exact ⟨r.load, hw.2.1⟩
  rw [he, issue_plain h body _ hp (by rw [hb]; exact hh), hb]
  have hsc : ∀ x, scripted s x = noteScript c x := fun x => by unfold scripted; rw [h.path]
  rw [hsc]
  congr 2
  have hwho : (retire r.s c i r (f (fillOps c i).g) c.act 0).who = c.g.who := by
    rw [retire_eq]; exact (hk.who _).trans hsame.who
  exact ht.outside _ hwho

/-- The same when the effect of the instruction is register results, masks, flags and next program counters alone. -/
theorem runs_regs {s : State} {i : Instr} {c : Ctx} (h : Runs s i c) (body : Ctx → Res) (r : Res) (ds : List (Nat × (Nat → W32)))
    (he : exec i s = issue i s body) (hb : body (fillOps c i) = r) (hs : r.s = (fillOps c i).s) (hw : r.wait = none) (hh : r.hits = [])
    (hgone : r.gone = 0) (honly : r.only = BitVec.allOnes 32) (hg : Gives c r.regs ds) (hn : (ds.map (·.1)).Nodup) (hl : ds.length ≤ 8) :
    Completes s s i c (r.masks.foldl (fun g (x : Nat × W32) => g.setMask x.1 x.2) c.g).masks r.flags (nextPc r c.pc) ds := by
  obtain ⟨-, hcs, -⟩ := issuer_find s c h.path
  have hc : after c (fun g => g) r = c := by
    unfold after
    rw [stopped_none hh, hgone, honly, BitVec.and_allOnes, but_none, but_none, but_none]
  have := completes h body r s (fun g => g) 0 keeps_id ds he hb hh
    ⟨hw, by rw [hs, fillOps_vault, hcs], by rw [hs, fillOps_saved, hcs], by
      rw [hs]; show _ = mapWhere _ _ (fillOps c i).s.groups
      unfold mapWhere
      induction (fillOps c i).s.groups with
      | nil => rfl
      | cons x l ih => simp,
    fun k => by
      have : teamOf r.s k = teamOf s k := by unfold teamOf findTeam; rw [hs, fillOps_teams, hcs]
      rw [this]; exact ⟨rfl, rfl⟩,
    by rw [hs, ← hcs]; unfold fillOps; dsimp only; split <;> rfl,
    fun G hG => by
      have := fillOps_set c i G hG
      rw [hcs] at this
      have e : ∀ (x : State) (y : Group), setGroup (uncur x) y = uncur (setGroup x y) := fun _ _ => rfl
      rw [e, e, hs, this]⟩ (by rw [hc]; exact hg) hn (by omega)
  rwa [hc] at this

end Sys2Proof.Machine
end

