-- ==== Sys2Proof/Laws/PerInstr.lean ====
section
/-!
SUPPORT. Each instruction, one lemma a constructor: its word, written from the encoding tables of R124 and R133 to R137, decodes to it with every operand
at every value (an event has no word).
-/

namespace Sys2Proof.Laws.Encoding

open Sys2Proof

/-- The instruction's word decodes to it. -/
def Statement (i : Instr) : Prop := ∀ w : BitVec 32, encode i = some w → decode w = .ok i

theorem fld_ofNat (n lo len : Nat) : fld (BitVec.ofNat 32 n) lo len = n % 4294967296 / 2 ^ lo % 2 ^ len := by
  simp [fld]

theorem fld_is {n lo len k : Nat} (h : n % 4294967296 / 2 ^ lo % 2 ^ len = k) : fld (BitVec.ofNat 32 n) lo len = k := by
  rw [fld_ofNat, h]

theorem needZero_ok {r : Nat} {i : Instr} (h : r = 0) : needZero r i = .ok i := by
  rw [needZero, if_pos h]

theorem bf_ofNat {len : Nat} (n lo : Nat) (x : BitVec len) (h : n % 4294967296 / 2 ^ lo % 2 ^ len = x.toNat) : bf (BitVec.ofNat 32 n) lo len = x := by
  apply BitVec.eq_of_toNat_eq
  simpa [bf] using h

theorem word_ok {i : Instr} {k : Nat} (he : encodeNat i = some k) (h : ∀ n, n = k → decode (BitVec.ofNat 32 n) = .ok i) : Statement i := by
  intro w hw
  rw [encode, he] at hw
  cases hw
  exact h k rfl

theorem no_word {i : Instr} (he : encodeNat i = none) : Statement i := by
  intro w hw
  rw [encode, he] at hw
  cases hw

theorem lay1 (B M : Nat) (c : Nat) (hM : M < 128) (hc : c < 64) (hB : B = M * 33554432 + c * 1) (n : Nat) (hn : n = B) :
    majorOf (BitVec.ofNat 32 n) = M ∧ fld (BitVec.ofNat 32 n) 0 4 = c % 16 ∧ fld (BitVec.ofNat 32 n) 4 2 = c / 16 ∧ fld (BitVec.ofNat 32 n) 6 12 + fld (BitVec.ofNat 32 n) 18 7 = 0 := by
  exact ⟨fld_is (by omega), fld_is (by omega), fld_is (by omega), by rw [fld_is (k := 0) (by omega), fld_is (k := 0) (by omega)]⟩

theorem lay2 (B M : Nat) (c : Nat) (hM : M < 128) (hc : c < 16) (hB : B = M * 33554432 + c * 1) (n : Nat) (hn : n = B) :
    majorOf (BitVec.ofNat 32 n) = M ∧ fld (BitVec.ofNat 32 n) 0 4 = c ∧ fld (BitVec.ofNat 32 n) 4 21 = 0 := by
  exact ⟨fld_is (by omega), fld_is (by omega), by rw [fld_is (k := 0) (by omega)]⟩

theorem lay3 (B M : Nat) (c : Nat) (x0 : BitVec 14) (hM : M < 128) (hc : c < 16) (hB : B = M * 33554432 + c * 1) (n : Nat) (hn : n = B + x0.toNat * 16) :
    majorOf (BitVec.ofNat 32 n) = M ∧ fld (BitVec.ofNat 32 n) 0 4 = c ∧ bf (BitVec.ofNat 32 n) 4 14 = x0 ∧ fld (BitVec.ofNat 32 n) 18 7 = 0 := by
  have := x0.isLt
  exact ⟨fld_is (by omega), fld_is (by omega), bf_ofNat _ _ _ (by omega), by rw [fld_is (k := 0) (by omega)]⟩

theorem lay4 (B M : Nat) (c : Nat) (x0 : BitVec 7) (hM : M < 128) (hc : c < 16) (hB : B = M * 33554432 + c * 1) (n : Nat) (hn : n = B + x0.toNat * 262144) :
    majorOf (BitVec.ofNat 32 n) = M ∧ fld (BitVec.ofNat 32 n) 0 4 = c ∧ bf (BitVec.ofNat 32 n) 18 7 = x0 ∧ fld (BitVec.ofNat 32 n) 4 14 = 0 := by
  have := x0.isLt
  exact ⟨fld_is (by omega), fld_is (by omega), bf_ofNat _ _ _ (by omega), by rw [fld_is (k := 0) (by omega)]⟩

theorem lay5 (B M : Nat) (x0 : BitVec 2) (x1 : BitVec 4) (x2 : BitVec 19) (hM : M < 128) (hB : B = M * 33554432) (n : Nat) (hn : n = B + x0.toNat * 8388608 + x1.toNat * 524288 + x2.toNat * 1) :
    majorOf (BitVec.ofNat 32 n) = M ∧ bf (BitVec.ofNat 32 n) 23 2 = x0 ∧ bf (BitVec.ofNat 32 n) 19 4 = x1 ∧ bf (BitVec.ofNat 32 n) 0 19 = x2 := by
  have := x0.isLt
  have := x1.isLt
  have := x2.isLt
  exact ⟨fld_is (by omega), bf_ofNat _ _ _ (by omega), bf_ofNat _ _ _ (by omega), bf_ofNat _ _ _ (by omega)⟩

theorem lay6 (B M : Nat) (x0 : BitVec 2) (x1 : BitVec 19) (hM : M < 128) (hB : B = M * 33554432) (n : Nat) (hn : n = B + x0.toNat * 8388608 + x1.toNat * 1) :
    majorOf (BitVec.ofNat 32 n) = M ∧ bf (BitVec.ofNat 32 n) 23 2 = x0 ∧ bf (BitVec.ofNat 32 n) 0 19 = x1 ∧ fld (BitVec.ofNat 32 n) 19 4 = 0 := by
  have := x0.isLt
  have := x1.isLt
  exact ⟨fld_is (by omega), bf_ofNat _ _ _ (by omega), bf_ofNat _ _ _ (by omega), by rw [fld_is (k := 0) (by omega)]⟩

theorem lay7 (B M : Nat) (c : Nat) (x0 : BitVec 7) (hM : M < 128) (hc : c < 16) (hB : B = M * 33554432 + c * 1) (n : Nat) (hn : n = B + x0.toNat * 2048) :
    majorOf (BitVec.ofNat 32 n) = M ∧ fld (BitVec.ofNat 32 n) 0 4 = c ∧ bf (BitVec.ofNat 32 n) 11 7 = x0 ∧ fld (BitVec.ofNat 32 n) 4 7 + fld (BitVec.ofNat 32 n) 18 7 = 0 := by
  have := x0.isLt
  exact ⟨fld_is (by omega), fld_is (by omega), bf_ofNat _ _ _ (by omega), by rw [fld_is (k := 0) (by omega), fld_is (k := 0) (by omega)]⟩

theorem lay8 (B M : Nat) (c : Nat) (x0 : BitVec 7) (x1 : BitVec 7) (hM : M < 128) (hc : c < 16) (hB : B = M * 33554432 + c * 1) (n : Nat) (hn : n = B + x0.toNat * 262144 + x1.toNat * 2048) :
    majorOf (BitVec.ofNat 32 n) = M ∧ fld (BitVec.ofNat 32 n) 0 4 = c ∧ bf (BitVec.ofNat 32 n) 18 7 = x0 ∧ bf (BitVec.ofNat 32 n) 11 7 = x1 ∧ fld (BitVec.ofNat 32 n) 4 7 = 0 := by
  have := x0.isLt
  have := x1.isLt
  exact ⟨fld_is (by omega), fld_is (by omega), bf_ofNat _ _ _ (by omega), bf_ofNat _ _ _ (by omega), by rw [fld_is (k := 0) (by omega)]⟩

theorem lay9 (B M : Nat) (c : Nat) (x0 : BitVec 7) (x1 : BitVec 14) (hM : M < 128) (hc : c < 16) (hB : B = M * 33554432 + c * 1) (n : Nat) (hn : n = B + x0.toNat * 262144 + x1.toNat * 16) :
    majorOf (BitVec.ofNat 32 n) = M ∧ fld (BitVec.ofNat 32 n) 0 4 = c ∧ bf (BitVec.ofNat 32 n) 18 7 = x0 ∧ bf (BitVec.ofNat 32 n) 4 14 = x1 := by
  have := x0.isLt
  have := x1.isLt
  exact ⟨fld_is (by omega), fld_is (by omega), bf_ofNat _ _ _ (by omega), bf_ofNat _ _ _ (by omega)⟩

theorem lay10 (B M : Nat) (c : Nat) (x0 : BitVec 7) (x1 : BitVec 7) (x2 : BitVec 7) (hM : M < 128) (hc : c < 16) (hB : B = M * 33554432 + c * 1) (n : Nat) (hn : n = B + x0.toNat * 262144 + x1.toNat * 2048 + x2.toNat * 16) :
    majorOf (BitVec.ofNat 32 n) = M ∧ fld (BitVec.ofNat 32 n) 0 4 = c ∧ bf (BitVec.ofNat 32 n) 18 7 = x0 ∧ bf (BitVec.ofNat 32 n) 11 7 = x1 ∧ bf (BitVec.ofNat 32 n) 4 7 = x2 := by
  have := x0.isLt
  have := x1.isLt
  have := x2.isLt
  exact ⟨fld_is (by omega), fld_is (by omega), bf_ofNat _ _ _ (by omega), bf_ofNat _ _ _ (by omega), bf_ofNat _ _ _ (by omega)⟩

theorem lay11 (B M : Nat) (x0 : BitVec 7) (x1 : BitVec 7) (x2 : BitVec 7) (x3 : BitVec 4) (hM : M < 128) (hB : B = M * 33554432) (n : Nat) (hn : n = B + x0.toNat * 262144 + x1.toNat * 2048 + x2.toNat * 16 + x3.toNat * 1) :
    majorOf (BitVec.ofNat 32 n) = M ∧ bf (BitVec.ofNat 32 n) 18 7 = x0 ∧ bf (BitVec.ofNat 32 n) 11 7 = x1 ∧ bf (BitVec.ofNat 32 n) 4 7 = x2 ∧ bf (BitVec.ofNat 32 n) 0 4 = x3 := by
  have := x0.isLt
  have := x1.isLt
  have := x2.isLt
  have := x3.isLt
  exact ⟨fld_is (by omega), bf_ofNat _ _ _ (by omega), bf_ofNat _ _ _ (by omega), bf_ofNat _ _ _ (by omega), bf_ofNat _ _ _ (by omega)⟩

theorem lay12 (B M : Nat) (c : Nat) (x0 : BitVec 7) (x1 : BitVec 7) (hM : M < 128) (hc : c < 16) (hB : B = M * 33554432 + c * 1) (n : Nat) (hn : n = B + x0.toNat * 2048 + x1.toNat * 16) :
    majorOf (BitVec.ofNat 32 n) = M ∧ fld (BitVec.ofNat 32 n) 0 4 = c ∧ bf (BitVec.ofNat 32 n) 11 7 = x0 ∧ bf (BitVec.ofNat 32 n) 4 7 = x1 ∧ fld (BitVec.ofNat 32 n) 18 7 = 0 := by
  have := x0.isLt
  have := x1.isLt
  exact ⟨fld_is (by omega), fld_is (by omega), bf_ofNat _ _ _ (by omega), bf_ofNat _ _ _ (by omega), by rw [fld_is (k := 0) (by omega)]⟩

theorem lay13 (B M : Nat) (x0 : BitVec 7) (x1 : BitVec 7) (x2 : BitVec 11) (hM : M < 128) (hB : B = M * 33554432) (n : Nat) (hn : n = B + x0.toNat * 262144 + x1.toNat * 2048 + x2.toNat * 1) :
    majorOf (BitVec.ofNat 32 n) = M ∧ bf (BitVec.ofNat 32 n) 18 7 = x0 ∧ bf (BitVec.ofNat 32 n) 11 7 = x1 ∧ bf (BitVec.ofNat 32 n) 0 11 = x2 := by
  have := x0.isLt
  have := x1.isLt
  have := x2.isLt
  exact ⟨fld_is (by omega), bf_ofNat _ _ _ (by omega), bf_ofNat _ _ _ (by omega), bf_ofNat _ _ _ (by omega)⟩

theorem lay14 (B M : Nat) (c : Nat) (x0 : BitVec 7) (x1 : BitVec 7) (x2 : BitVec 5) (hM : M < 128) (hc : c < 4) (hB : B = M * 33554432 + c * 32) (n : Nat) (hn : n = B + x0.toNat * 262144 + x1.toNat * 2048 + x2.toNat * 1) :
    majorOf (BitVec.ofNat 32 n) = M ∧ fld (BitVec.ofNat 32 n) 5 2 = c ∧ bf (BitVec.ofNat 32 n) 18 7 = x0 ∧ bf (BitVec.ofNat 32 n) 11 7 = x1 ∧ bf (BitVec.ofNat 32 n) 0 5 = x2 ∧ fld (BitVec.ofNat 32 n) 7 4 = 0 := by
  have := x0.isLt
  have := x1.isLt
  have := x2.isLt
  exact ⟨fld_is (by omega), fld_is (by omega), bf_ofNat _ _ _ (by omega), bf_ofNat _ _ _ (by omega), bf_ofNat _ _ _ (by omega), by rw [fld_is (k := 0) (by omega)]⟩

theorem lay15 (B M : Nat) (x0 : BitVec 7) (x1 : BitVec 2) (x2 : BitVec 16) (hM : M < 128) (hB : B = M * 33554432) (n : Nat) (hn : n = B + x0.toNat * 262144 + x1.toNat * 65536 + x2.toNat * 1) :
    majorOf (BitVec.ofNat 32 n) = M ∧ bf (BitVec.ofNat 32 n) 18 7 = x0 ∧ bf (BitVec.ofNat 32 n) 16 2 = x1 ∧ bf (BitVec.ofNat 32 n) 0 16 = x2 := by
  have := x0.isLt
  have := x1.isLt
  have := x2.isLt
  exact ⟨fld_is (by omega), bf_ofNat _ _ _ (by omega), bf_ofNat _ _ _ (by omega), bf_ofNat _ _ _ (by omega)⟩

theorem lay16 (B M : Nat) (x0 : BitVec 7) (x1 : BitVec 7) (x2 : BitVec 4) (hM : M < 128) (hB : B = M * 33554432) (n : Nat) (hn : n = B + x0.toNat * 262144 + x1.toNat * 2048 + x2.toNat * 1) :
    majorOf (BitVec.ofNat 32 n) = M ∧ bf (BitVec.ofNat 32 n) 18 7 = x0 ∧ bf (BitVec.ofNat 32 n) 11 7 = x1 ∧ bf (BitVec.ofNat 32 n) 0 4 = x2 ∧ fld (BitVec.ofNat 32 n) 4 7 = 0 := by
  have := x0.isLt
  have := x1.isLt
  have := x2.isLt
  exact ⟨fld_is (by omega), bf_ofNat _ _ _ (by omega), bf_ofNat _ _ _ (by omega), bf_ofNat _ _ _ (by omega), by rw [fld_is (k := 0) (by omega)]⟩

theorem lay17 (B M : Nat) (c : Nat) (x0 : BitVec 7) (x1 : BitVec 7) (x2 : BitVec 4) (hM : M < 128) (hc : c < 128) (hB : B = M * 33554432 + c * 16) (n : Nat) (hn : n = B + x0.toNat * 262144 + x1.toNat * 2048 + x2.toNat * 1) :
    majorOf (BitVec.ofNat 32 n) = M ∧ fld (BitVec.ofNat 32 n) 4 7 = c ∧ bf (BitVec.ofNat 32 n) 18 7 = x0 ∧ bf (BitVec.ofNat 32 n) 11 7 = x1 ∧ bf (BitVec.ofNat 32 n) 0 4 = x2 := by
  have := x0.isLt
  have := x1.isLt
  have := x2.isLt
  exact ⟨fld_is (by omega), fld_is (by omega), bf_ofNat _ _ _ (by omega), bf_ofNat _ _ _ (by omega), bf_ofNat _ _ _ (by omega)⟩

theorem lay18 (B M : Nat) (x0 : BitVec 7) (x1 : BitVec 7) (x2 : BitVec 1) (x3 : BitVec 6) (x4 : BitVec 4) (hM : M < 128) (hB : B = M * 33554432) (n : Nat) (hn : n = B + x0.toNat * 262144 + x1.toNat * 2048 + x2.toNat * 1024 + x3.toNat * 16 + x4.toNat * 1) :
    majorOf (BitVec.ofNat 32 n) = M ∧ bf (BitVec.ofNat 32 n) 18 7 = x0 ∧ bf (BitVec.ofNat 32 n) 11 7 = x1 ∧ bf (BitVec.ofNat 32 n) 10 1 = x2 ∧ bf (BitVec.ofNat 32 n) 4 6 = x3 ∧ bf (BitVec.ofNat 32 n) 0 4 = x4 := by
  have := x0.isLt
  have := x1.isLt
  have := x2.isLt
  have := x3.isLt
  have := x4.isLt
  exact ⟨fld_is (by omega), bf_ofNat _ _ _ (by omega), bf_ofNat _ _ _ (by omega), bf_ofNat _ _ _ (by omega), bf_ofNat _ _ _ (by omega), bf_ofNat _ _ _ (by omega)⟩

theorem lay19 (B M : Nat) (c : Nat) (x0 : BitVec 7) (x1 : BitVec 7) (x2 : BitVec 4) (hM : M < 128) (hc : c < 16) (hB : B = M * 33554432 + c * 1) (n : Nat) (hn : n = B + x0.toNat * 262144 + x1.toNat * 2048 + x2.toNat * 16) :
    majorOf (BitVec.ofNat 32 n) = M ∧ fld (BitVec.ofNat 32 n) 0 4 = c ∧ bf (BitVec.ofNat 32 n) 18 7 = x0 ∧ bf (BitVec.ofNat 32 n) 11 7 = x1 ∧ bf (BitVec.ofNat 32 n) 4 4 = x2 ∧ fld (BitVec.ofNat 32 n) 8 3 = 0 := by
  have := x0.isLt
  have := x1.isLt
  have := x2.isLt
  exact ⟨fld_is (by omega), fld_is (by omega), bf_ofNat _ _ _ (by omega), bf_ofNat _ _ _ (by omega), bf_ofNat _ _ _ (by omega), by rw [fld_is (k := 0) (by omega)]⟩

theorem lay20 (B M : Nat) (c : Nat) (x0 : BitVec 7) (x1 : BitVec 7) (x2 : BitVec 4) (hM : M < 128) (hc : c < 128) (hB : B = M * 33554432 + c * 262144) (n : Nat) (hn : n = B + x0.toNat * 2048 + x1.toNat * 16 + x2.toNat * 1) :
    majorOf (BitVec.ofNat 32 n) = M ∧ fld (BitVec.ofNat 32 n) 18 7 = c ∧ bf (BitVec.ofNat 32 n) 11 7 = x0 ∧ bf (BitVec.ofNat 32 n) 4 7 = x1 ∧ bf (BitVec.ofNat 32 n) 0 4 = x2 := by
  have := x0.isLt
  have := x1.isLt
  have := x2.isLt
  exact ⟨fld_is (by omega), fld_is (by omega), bf_ofNat _ _ _ (by omega), bf_ofNat _ _ _ (by omega), bf_ofNat _ _ _ (by omega)⟩

theorem lay21 (B M : Nat) (x0 : BitVec 7) (x1 : BitVec 6) (x2 : BitVec 4) (hM : M < 128) (hB : B = M * 33554432) (n : Nat) (hn : n = B + x0.toNat * 262144 + x1.toNat * 16 + x2.toNat * 1) :
    majorOf (BitVec.ofNat 32 n) = M ∧ bf (BitVec.ofNat 32 n) 18 7 = x0 ∧ bf (BitVec.ofNat 32 n) 4 6 = x1 ∧ bf (BitVec.ofNat 32 n) 0 4 = x2 ∧ fld (BitVec.ofNat 32 n) 10 8 = 0 := by
  have := x0.isLt
  have := x1.isLt
  have := x2.isLt
  exact ⟨fld_is (by omega), bf_ofNat _ _ _ (by omega), bf_ofNat _ _ _ (by omega), bf_ofNat _ _ _ (by omega), by rw [fld_is (k := 0) (by omega)]⟩

theorem lay22 (B M : Nat) (c : Nat) (x0 : BitVec 7) (x1 : BitVec 4) (hM : M < 128) (hc : c < 16) (hB : B = M * 33554432 + c * 1) (n : Nat) (hn : n = B + x0.toNat * 2048 + x1.toNat * 16) :
    majorOf (BitVec.ofNat 32 n) = M ∧ fld (BitVec.ofNat 32 n) 0 4 = c ∧ bf (BitVec.ofNat 32 n) 11 7 = x0 ∧ bf (BitVec.ofNat 32 n) 4 4 = x1 ∧ fld (BitVec.ofNat 32 n) 8 3 + fld (BitVec.ofNat 32 n) 18 7 = 0 := by
  have := x0.isLt
  have := x1.isLt
  exact ⟨fld_is (by omega), fld_is (by omega), bf_ofNat _ _ _ (by omega), bf_ofNat _ _ _ (by omega), by rw [fld_is (k := 0) (by omega), fld_is (k := 0) (by omega)]⟩

theorem lay23 (B M : Nat) (x0 : BitVec 7) (x1 : BitVec 3) (x2 : BitVec 4) (hM : M < 128) (hB : B = M * 33554432) (n : Nat) (hn : n = B + x0.toNat * 262144 + x1.toNat * 16 + x2.toNat * 1) :
    majorOf (BitVec.ofNat 32 n) = M ∧ bf (BitVec.ofNat 32 n) 18 7 = x0 ∧ bf (BitVec.ofNat 32 n) 4 3 = x1 ∧ bf (BitVec.ofNat 32 n) 0 4 = x2 ∧ fld (BitVec.ofNat 32 n) 7 11 = 0 := by
  have := x0.isLt
  have := x1.isLt
  have := x2.isLt
  exact ⟨fld_is (by omega), bf_ofNat _ _ _ (by omega), bf_ofNat _ _ _ (by omega), bf_ofNat _ _ _ (by omega), by rw [fld_is (k := 0) (by omega)]⟩

theorem lay24 (B M : Nat) (x0 : BitVec 7) (x1 : BitVec 7) (x2 : BitVec 3) (x3 : BitVec 4) (hM : M < 128) (hB : B = M * 33554432) (n : Nat) (hn : n = B + x0.toNat * 262144 + x1.toNat * 2048 + x2.toNat * 16 + x3.toNat * 1) :
    majorOf (BitVec.ofNat 32 n) = M ∧ bf (BitVec.ofNat 32 n) 18 7 = x0 ∧ bf (BitVec.ofNat 32 n) 11 7 = x1 ∧ bf (BitVec.ofNat 32 n) 4 3 = x2 ∧ bf (BitVec.ofNat 32 n) 0 4 = x3 ∧ fld (BitVec.ofNat 32 n) 7 4 = 0 := by
  have := x0.isLt
  have := x1.isLt
  have := x2.isLt
  have := x3.isLt
  exact ⟨fld_is (by omega), bf_ofNat _ _ _ (by omega), bf_ofNat _ _ _ (by omega), bf_ofNat _ _ _ (by omega), bf_ofNat _ _ _ (by omega), by rw [fld_is (k := 0) (by omega)]⟩

theorem at_01 (w : BitVec 32) (h : majorOf w = 0x01) : decode w = dec01 w := by
  rw [decode, h]; rfl

theorem at_02 (w : BitVec 32) (h : majorOf w = 0x02) : decode w = dec02 w := by
  rw [decode, h]; rfl

theorem at_03 (w : BitVec 32) (h : majorOf w = 0x03) : decode w = dec03 w := by
  rw [decode, h]; rfl

theorem at_04 (w : BitVec 32) (h : majorOf w = 0x04) : decode w = dec04 w := by
  rw [decode, h]; rfl

theorem at_05 (w : BitVec 32) (h : majorOf w = 0x05) : decode w = dec05 w := by
  rw [decode, h]; rfl

theorem at_06 (w : BitVec 32) (h : majorOf w = 0x06) : decode w = dec06 w := by
  rw [decode, h]; rfl

theorem at_07 (w : BitVec 32) (h : majorOf w = 0x07) : decode w = dec07 w := by
  rw [decode, h]; rfl

theorem at_08 (w : BitVec 32) (h : majorOf w = 0x08) : decode w = dec08 w := by
  rw [decode, h]; rfl

theorem at_09 (w : BitVec 32) (h : majorOf w = 0x09) : decode w = dec09 w := by
  rw [decode, h]; rfl

theorem at_0A (w : BitVec 32) (h : majorOf w = 0x0A) : decode w = dec0A w := by
  rw [decode, h]; rfl

theorem at_0B (w : BitVec 32) (h : majorOf w = 0x0B) : decode w = dec0B w := by
  rw [decode, h]; rfl

theorem at_0C (w : BitVec 32) (h : majorOf w = 0x0C) : decode w = dec0C w := by
  rw [decode, h]; rfl

theorem at_0D (w : BitVec 32) (h : majorOf w = 0x0D) : decode w = dec0D w := by
  rw [decode, h]; rfl

theorem at_10 (w : BitVec 32) (h : majorOf w = 0x10) : decode w = dec10 w := by
  rw [decode, h]; rfl

theorem at_11 (w : BitVec 32) (h : majorOf w = 0x11) : decode w = dec11 w := by
  rw [decode, h]; rfl

theorem at_12 (w : BitVec 32) (h : majorOf w = 0x12) : decode w = dec12 w := by
  rw [decode, h]; rfl

theorem at_13 (w : BitVec 32) (h : majorOf w = 0x13) : decode w = dec13 w := by
  rw [decode, h]; rfl

theorem at_14 (w : BitVec 32) (h : majorOf w = 0x14) : decode w = dec14 w := by
  rw [decode, h]; rfl

theorem at_15 (w : BitVec 32) (h : majorOf w = 0x15) : decode w = dec15 w := by
  rw [decode, h]; rfl

theorem at_16 (w : BitVec 32) (h : majorOf w = 0x16) : decode w = dec16 w := by
  rw [decode, h]; rfl

theorem at_17 (w : BitVec 32) (h : majorOf w = 0x17) : decode w = dec17 w := by
  rw [decode, h]; rfl

theorem at_18 (w : BitVec 32) (h : majorOf w = 0x18) : decode w = dec18 w := by
  rw [decode, h]; rfl

theorem at_19 (w : BitVec 32) (h : majorOf w = 0x19) : decode w = dec19 w := by
  rw [decode, h]; rfl

theorem at_1A (w : BitVec 32) (h : majorOf w = 0x1A) : decode w = dec1A w := by
  rw [decode, h]; rfl

theorem at_1B (w : BitVec 32) (h : majorOf w = 0x1B) : decode w = dec1B w := by
  rw [decode, h]; rfl

theorem at_1C (w : BitVec 32) (h : majorOf w = 0x1C) : decode w = dec1C w := by
  rw [decode, h]; rfl

theorem at_1D (w : BitVec 32) (h : majorOf w = 0x1D) : decode w = dec1D w := by
  rw [decode, h]; rfl

theorem at_1E (w : BitVec 32) (h : majorOf w = 0x1E) : decode w = dec1E w := by
  rw [decode, h]; rfl

theorem at_1F (w : BitVec 32) (h : majorOf w = 0x1F) : decode w = dec1F w := by
  rw [decode, h]; rfl

theorem at_20 (w : BitVec 32) (h : majorOf w = 0x20) : decode w = dec20 w := by
  rw [decode, h]; rfl

theorem at_21 (w : BitVec 32) (h : majorOf w = 0x21) : decode w = dec21 w := by
  rw [decode, h]; rfl

theorem at_22 (w : BitVec 32) (h : majorOf w = 0x22) : decode w = dec22 w := by
  rw [decode, h]; rfl

theorem at_23 (w : BitVec 32) (h : majorOf w = 0x23) : decode w = dec23 w := by
  rw [decode, h]; rfl

theorem at_24 (w : BitVec 32) (h : majorOf w = 0x24) : decode w = dec24 w := by
  rw [decode, h]; rfl

theorem at_25 (w : BitVec 32) (h : majorOf w = 0x25) : decode w = dec25 w := by
  rw [decode, h]; rfl

theorem at_30 (w : BitVec 32) (h : majorOf w = 0x30) : decode w = dec30 w := by
  rw [decode, h]; rfl

theorem at_31 (w : BitVec 32) (h : majorOf w = 0x31) : decode w = dec31 w := by
  rw [decode, h]; rfl

theorem at_32 (w : BitVec 32) (h : majorOf w = 0x32) : decode w = dec32 w := by
  rw [decode, h]; rfl

theorem at_33 (w : BitVec 32) (h : majorOf w = 0x33) : decode w = dec33 w := by
  rw [decode, h]; rfl

theorem at_34 (w : BitVec 32) (h : majorOf w = 0x34) : decode w = dec34 w := by
  rw [decode, h]; rfl

theorem at_35 (w : BitVec 32) (h : majorOf w = 0x35) : decode w = dec35 w := by
  rw [decode, h]; rfl

theorem at_36 (w : BitVec 32) (h : majorOf w = 0x36) : decode w = dec36 w := by
  rw [decode, h]; rfl

theorem at_37 (w : BitVec 32) (h : majorOf w = 0x37) : decode w = dec37 w := by
  rw [decode, h]; rfl

theorem at_38 (w : BitVec 32) (h : majorOf w = 0x38) : decode w = dec38 w := by
  rw [decode, h]; rfl

theorem at_39 (w : BitVec 32) (h : majorOf w = 0x39) : decode w = dec39 w := by
  rw [decode, h]; rfl

theorem at_40 (w : BitVec 32) (h : majorOf w = 0x40) : decode w = dec40 w := by
  rw [decode, h]; rfl

theorem at_41 (w : BitVec 32) (h : majorOf w = 0x41) : decode w = dec41 w := by
  rw [decode, h]; rfl

theorem at_42 (w : BitVec 32) (h : majorOf w = 0x42) : decode w = dec42 w := by
  rw [decode, h]; rfl

theorem at_43 (w : BitVec 32) (h : majorOf w = 0x43) : decode w = dec43 w := by
  rw [decode, h]; rfl

theorem at_44 (w : BitVec 32) (h : majorOf w = 0x44) : decode w = dec44 w := by
  rw [decode, h]; rfl

theorem at_45 (w : BitVec 32) (h : majorOf w = 0x45) : decode w = dec45 w := by
  rw [decode, h]; rfl

theorem at_46 (w : BitVec 32) (h : majorOf w = 0x46) : decode w = dec46 w := by
  rw [decode, h]; rfl

theorem at_47 (w : BitVec 32) (h : majorOf w = 0x47) : decode w = dec47 w := by
  rw [decode, h]; rfl

theorem at_48 (w : BitVec 32) (h : majorOf w = 0x48) : decode w = dec48 w := by
  rw [decode, h]; rfl

theorem at_49 (w : BitVec 32) (h : majorOf w = 0x49) : decode w = dec49 w := by
  rw [decode, h]; rfl

theorem at_4A (w : BitVec 32) (h : majorOf w = 0x4A) : decode w = dec4A w := by
  rw [decode, h]; rfl

theorem at_4B (w : BitVec 32) (h : majorOf w = 0x4B) : decode w = dec4B w := by
  rw [decode, h]; rfl

theorem at_4C (w : BitVec 32) (h : majorOf w = 0x4C) : decode w = dec4C w := by
  rw [decode, h]; rfl

theorem at_4D (w : BitVec 32) (h : majorOf w = 0x4D) : decode w = dec4D w := by
  rw [decode, h]; rfl

theorem at_4E (w : BitVec 32) (h : majorOf w = 0x4E) : decode w = dec4E w := by
  rw [decode, h]; rfl

theorem at_4F (w : BitVec 32) (h : majorOf w = 0x4F) : decode w = dec4F w := by
  rw [decode, h]; rfl

theorem at_50 (w : BitVec 32) (h : majorOf w = 0x50) : decode w = dec50 w := by
  rw [decode, h]; rfl

theorem at_51 (w : BitVec 32) (h : majorOf w = 0x51) : decode w = dec51 w := by
  rw [decode, h]; rfl

theorem at_52 (w : BitVec 32) (h : majorOf w = 0x52) : decode w = dec52 w := by
  rw [decode, h]; rfl

theorem at_53 (w : BitVec 32) (h : majorOf w = 0x53) : decode w = dec53 w := by
  rw [decode, h]; rfl

theorem at_54 (w : BitVec 32) (h : majorOf w = 0x54) : decode w = dec54 w := by
  rw [decode, h]; rfl

theorem at_55 (w : BitVec 32) (h : majorOf w = 0x55) : decode w = dec55 w := by
  rw [decode, h]; rfl

theorem at_56 (w : BitVec 32) (h : majorOf w = 0x56) : decode w = dec56 w := by
  rw [decode, h]; rfl

theorem at_57 (w : BitVec 32) (h : majorOf w = 0x57) : decode w = dec57 w := by
  rw [decode, h]; rfl

theorem at_58 (w : BitVec 32) (h : majorOf w = 0x58) : decode w = dec58 w := by
  rw [decode, h]; rfl

theorem at_59 (w : BitVec 32) (h : majorOf w = 0x59) : decode w = dec59 w := by
  rw [decode, h]; rfl

theorem at_5A (w : BitVec 32) (h : majorOf w = 0x5A) : decode w = dec5A w := by
  rw [decode, h]; rfl

theorem at_5B (w : BitVec 32) (h : majorOf w = 0x5B) : decode w = dec5B w := by
  rw [decode, h]; rfl

theorem at_5C (w : BitVec 32) (h : majorOf w = 0x5C) : decode w = dec5C w := by
  rw [decode, h]; rfl

theorem at_5D (w : BitVec 32) (h : majorOf w = 0x5D) : decode w = dec5D w := by
  rw [decode, h]; rfl

theorem at_5E (w : BitVec 32) (h : majorOf w = 0x5E) : decode w = dec5E w := by
  rw [decode, h]; rfl

theorem at_5F (w : BitVec 32) (h : majorOf w = 0x5F) : decode w = dec5F w := by
  rw [decode, h]; rfl

theorem at_60 (w : BitVec 32) (h : majorOf w = 0x60) : decode w = dec60 w := by
  rw [decode, h]; rfl

theorem at_61 (w : BitVec 32) (h : majorOf w = 0x61) : decode w = dec61 w := by
  rw [decode, h]; rfl

theorem at_62 (w : BitVec 32) (h : majorOf w = 0x62) : decode w = dec62 w := by
  rw [decode, h]; rfl

theorem at_63 (w : BitVec 32) (h : majorOf w = 0x63) : decode w = dec63 w := by
  rw [decode, h]; rfl

theorem at_64 (w : BitVec 32) (h : majorOf w = 0x64) : decode w = dec64 w := by
  rw [decode, h]; rfl

theorem at_65 (w : BitVec 32) (h : majorOf w = 0x65) : decode w = dec65 w := by
  rw [decode, h]; rfl

theorem at_66 (w : BitVec 32) (h : majorOf w = 0x66) : decode w = dec66 w := by
  rw [decode, h]; rfl

theorem at_67 (w : BitVec 32) (h : majorOf w = 0x67) : decode w = dec67 w := by
  rw [decode, h]; rfl

theorem at_68 (w : BitVec 32) (h : majorOf w = 0x68) : decode w = dec68 w := by
  rw [decode, h]; rfl

theorem at_69 (w : BitVec 32) (h : majorOf w = 0x69) : decode w = dec69 w := by
  rw [decode, h]; rfl

theorem at_6A (w : BitVec 32) (h : majorOf w = 0x6A) : decode w = dec6A w := by
  rw [decode, h]; rfl

theorem at_6B (w : BitVec 32) (h : majorOf w = 0x6B) : decode w = dec6B w := by
  rw [decode, h]; rfl

theorem at_6C (w : BitVec 32) (h : majorOf w = 0x6C) : decode w = dec6C w := by
  rw [decode, h]; rfl

theorem at_6D (w : BitVec 32) (h : majorOf w = 0x6D) : decode w = dec6D w := by
  rw [decode, h]; rfl

theorem at_6E (w : BitVec 32) (h : majorOf w = 0x6E) : decode w = dec6E w := by
  rw [decode, h]; rfl

theorem at_6F (w : BitVec 32) (h : majorOf w = 0x6F) : decode w = dec6F w := by
  rw [decode, h]; rfl

theorem at_70 (w : BitVec 32) (h : majorOf w = 0x70) : decode w = dec70 w := by
  rw [decode, h]; rfl

theorem at_71 (w : BitVec 32) (h : majorOf w = 0x71) : decode w = dec71 w := by
  rw [decode, h]; rfl

theorem at_78 (w : BitVec 32) (h : majorOf w = 0x78) : decode w = dec78 w := by
  rw [decode, h]; rfl

theorem at_79 (w : BitVec 32) (h : majorOf w = 0x79) : decode w = dec79 w := by
  rw [decode, h]; rfl

theorem at_7A (w : BitVec 32) (h : majorOf w = 0x7A) : decode w = dec7A w := by
  rw [decode, h]; rfl

theorem at_7B (w : BitVec 32) (h : majorOf w = 0x7B) : decode w = dec7B w := by
  rw [decode, h]; rfl

theorem at_7C (w : BitVec 32) (h : majorOf w = 0x7C) : decode w = dec7C w := by
  rw [decode, h]; rfl

theorem at_7D (w : BitVec 32) (h : majorOf w = 0x7D) : decode w = dec7D w := by
  rw [decode, h]; rfl

theorem at_7E (w : BitVec 32) (h : majorOf w = 0x7E) : decode w = dec7E w := by
  rw [decode, h]; rfl

theorem nop : Statement .nop :=
  word_ok rfl fun k hk => by
    obtain ⟨h0, h1, h2, h3⟩ := lay1 0x2000000 1 0 (by decide) (by decide) rfl k hk
    rw [at_01 _ h0, dec01, h1, h2]
    exact needZero_ok h3

theorem regionEntry : Statement .regionEntry :=
  word_ok rfl fun k hk => by
    obtain ⟨h0, h1, h2, h3⟩ := lay1 0x2000010 1 16 (by decide) (by decide) rfl k hk
    rw [at_01 _ h0, dec01, h1, h2]
    exact needZero_ok h3

theorem regionExit : Statement .regionExit :=
  word_ok rfl fun k hk => by
    obtain ⟨h0, h1, h2, h3⟩ := lay1 0x2000020 1 32 (by decide) (by decide) rfl k hk
    rw [at_01 _ h0, dec01, h1, h2]
    exact needZero_ok h3

theorem regionCloseReopen : Statement .regionCloseReopen :=
  word_ok rfl fun k hk => by
    obtain ⟨h0, h1, h2, h3⟩ := lay1 0x2000030 1 48 (by decide) (by decide) rfl k hk
    rw [at_01 _ h0, dec01, h1, h2]
    exact needZero_ok h3

theorem ifence : Statement .ifence :=
  word_ok rfl fun k hk => by
    obtain ⟨h0, h1, h2⟩ := lay2 0x2000001 1 1 (by decide) (by decide) rfl k hk
    rw [at_01 _ h0, dec01, h1]
    exact needZero_ok h2

theorem brk (c : BitVec 14) : Statement (.brk c) :=
  word_ok rfl fun k hk => by
    obtain ⟨h0, h1, h2, h3⟩ := lay3 0x2000002 1 2 c (by decide) (by decide) rfl k hk
    rw [at_01 _ h0, dec01, h1, h2]
    exact needZero_ok h3

theorem exit : Statement .exit :=
  word_ok rfl fun k hk => by
    obtain ⟨h0, h1, h2⟩ := lay2 0x2000003 1 3 (by decide) (by decide) rfl k hk
    rw [at_01 _ h0, dec01, h1]
    exact needZero_ok h2

theorem yield : Statement .yield :=
  word_ok rfl fun k hk => by
    obtain ⟨h0, h1, h2⟩ := lay2 0x2000004 1 4 (by decide) (by decide) rfl k hk
    rw [at_01 _ h0, dec01, h1]
    exact needZero_ok h2

theorem reconv : Statement .reconv :=
  word_ok rfl fun k hk => by
    obtain ⟨h0, h1, h2⟩ := lay2 0x2000005 1 5 (by decide) (by decide) rfl k hk
    rw [at_01 _ h0, dec01, h1]
    exact needZero_ok h2

theorem reconvS : Statement .reconvS :=
  word_ok rfl fun k hk => by
    obtain ⟨h0, h1, h2⟩ := lay2 0x2000006 1 6 (by decide) (by decide) rfl k hk
    rw [at_01 _ h0, dec01, h1]
    exact needZero_ok h2

theorem reform (d : BitVec 7) : Statement (.reform d) :=
  word_ok rfl fun k hk => by
    obtain ⟨h0, h1, h2, h3⟩ := lay4 0x2000007 1 7 d (by decide) (by decide) rfl k hk
    rw [at_01 _ h0, dec01, h1, h2]
    exact needZero_ok h3

theorem halt : Statement .halt :=
  word_ok rfl fun k hk => by
    obtain ⟨h0, h1, h2⟩ := lay2 0x2000008 1 8 (by decide) (by decide) rfl k hk
    rw [at_01 _ h0, dec01, h1]
    exact needZero_ok h2

theorem bra (h : BitVec 2) (m : BitVec 4) (o : BitVec 19) : Statement (.bra h m o) :=
  word_ok rfl fun k hk => by
    obtain ⟨h0, h1, h2, h3⟩ := lay5 0x4000000 2 h m o (by decide) rfl k hk
    rw [at_02 _ h0, dec02, h1, h2, h3]

theorem call (h : BitVec 2) (m : BitVec 4) (o : BitVec 19) : Statement (.call h m o) :=
  word_ok rfl fun k hk => by
    obtain ⟨h0, h1, h2, h3⟩ := lay5 0x6000000 3 h m o (by decide) rfl k hk
    rw [at_03 _ h0, dec03, h1, h2, h3]

theorem chkp (h : BitVec 2) (o : BitVec 19) : Statement (.chkp h o) :=
  word_ok rfl fun k hk => by
    obtain ⟨h0, h1, h2, h3⟩ := lay6 0x8000000 4 h o (by decide) rfl k hk
    rw [at_04 _ h0, dec04, h1, h2]
    exact needZero_ok h3

theorem jmp (a : BitVec 7) : Statement (.jmp a) :=
  word_ok rfl fun k hk => by
    obtain ⟨h0, h1, h2, h3⟩ := lay7 0xa000000 5 0 a (by decide) (by decide) rfl k hk
    rw [at_05 _ h0, dec05, h1, h2]
    exact needZero_ok h3

theorem calli (d : BitVec 7) (a : BitVec 7) : Statement (.calli d a) :=
  word_ok rfl fun k hk => by
    obtain ⟨h0, h1, h2, h3, h4⟩ := lay8 0xa000001 5 1 d a (by decide) (by decide) rfl k hk
    rw [at_05 _ h0, dec05, h1, h2, h3]
    exact needZero_ok h4

theorem ret (a : BitVec 7) : Statement (.ret a) :=
  word_ok rfl fun k hk => by
    obtain ⟨h0, h1, h2, h3⟩ := lay7 0xa000002 5 2 a (by decide) (by decide) rfl k hk
    rw [at_05 _ h0, dec05, h1, h2]
    exact needZero_ok h3

theorem trap (c : BitVec 14) : Statement (.trap c) :=
  word_ok rfl fun k hk => by
    obtain ⟨h0, h1, h2, h3⟩ := lay3 0xc000000 6 0 c (by decide) (by decide) rfl k hk
    rw [at_06 _ h0, dec06, h1, h2]
    exact needZero_ok h3

theorem tret (d : BitVec 7) : Statement (.tret d) :=
  word_ok rfl fun k hk => by
    obtain ⟨h0, h1, h2, h3⟩ := lay4 0xc000001 6 1 d (by decide) (by decide) rfl k hk
    rw [at_06 _ h0, dec06, h1, h2]
    exact needZero_ok h3

theorem winb (i : BitVec 14) : Statement (.winb i) :=
  word_ok rfl fun k hk => by
    obtain ⟨h0, h1, h2, h3⟩ := lay3 0xc000002 6 2 i (by decide) (by decide) rfl k hk
    rw [at_06 _ h0, dec06, h1, h2]
    exact needZero_ok h3

theorem rdsr (d : BitVec 7) (n : BitVec 14) : Statement (.rdsr d n) :=
  word_ok rfl fun k hk => by
    obtain ⟨h0, h1, h2, h3⟩ := lay9 0xe000000 7 0 d n (by decide) (by decide) rfl k hk
    rw [at_07 _ h0, dec07, h1, h2, h3]
    rfl

theorem wrsr (d : BitVec 7) (n : BitVec 14) : Statement (.wrsr d n) :=
  word_ok rfl fun k hk => by
    obtain ⟨h0, h1, h2, h3⟩ := lay9 0xe000001 7 1 d n (by decide) (by decide) rfl k hk
    rw [at_07 _ h0, dec07, h1, h2, h3]
    rfl

theorem mand (d : BitVec 7) (a : BitVec 7) (b : BitVec 7) : Statement (.mand d a b) :=
  word_ok rfl fun k hk => by
    obtain ⟨h0, h1, h2, h3, h4⟩ := lay10 0x10000000 8 0 d a b (by decide) (by decide) rfl k hk
    rw [at_08 _ h0, dec08, h1, h2, h3, h4]
    rfl

theorem mor (d : BitVec 7) (a : BitVec 7) (b : BitVec 7) : Statement (.mor d a b) :=
  word_ok rfl fun k hk => by
    obtain ⟨h0, h1, h2, h3, h4⟩ := lay10 0x10000001 8 1 d a b (by decide) (by decide) rfl k hk
    rw [at_08 _ h0, dec08, h1, h2, h3, h4]
    rfl

theorem mxor (d : BitVec 7) (a : BitVec 7) (b : BitVec 7) : Statement (.mxor d a b) :=
  word_ok rfl fun k hk => by
    obtain ⟨h0, h1, h2, h3, h4⟩ := lay10 0x10000002 8 2 d a b (by decide) (by decide) rfl k hk
    rw [at_08 _ h0, dec08, h1, h2, h3, h4]
    rfl

theorem mandn (d : BitVec 7) (a : BitVec 7) (b : BitVec 7) : Statement (.mandn d a b) :=
  word_ok rfl fun k hk => by
    obtain ⟨h0, h1, h2, h3, h4⟩ := lay10 0x10000003 8 3 d a b (by decide) (by decide) rfl k hk
    rw [at_08 _ h0, dec08, h1, h2, h3, h4]
    rfl

theorem mnot (d : BitVec 7) (a : BitVec 7) : Statement (.mnot d a) :=
  word_ok rfl fun k hk => by
    obtain ⟨h0, h1, h2, h3, h4⟩ := lay8 0x10000004 8 4 d a (by decide) (by decide) rfl k hk
    rw [at_08 _ h0, dec08, h1, h2, h3]
    exact needZero_ok h4

theorem mmov (d : BitVec 7) (a : BitVec 7) : Statement (.mmov d a) :=
  word_ok rfl fun k hk => by
    obtain ⟨h0, h1, h2, h3, h4⟩ := lay8 0x10000005 8 5 d a (by decide) (by decide) rfl k hk
    rw [at_08 _ h0, dec08, h1, h2, h3]
    exact needZero_ok h4

theorem mpop (d : BitVec 7) (a : BitVec 7) : Statement (.mpop d a) :=
  word_ok rfl fun k hk => by
    obtain ⟨h0, h1, h2, h3, h4⟩ := lay8 0x12000000 9 0 d a (by decide) (by decide) rfl k hk
    rw [at_09 _ h0, dec09, h1, h2, h3]
    exact needZero_ok h4

theorem mfirst (d : BitVec 7) (a : BitVec 7) : Statement (.mfirst d a) :=
  word_ok rfl fun k hk => by
    obtain ⟨h0, h1, h2, h3, h4⟩ := lay8 0x12000001 9 1 d a (by decide) (by decide) rfl k hk
    rw [at_09 _ h0, dec09, h1, h2, h3]
    exact needZero_ok h4

theorem mtov (d : BitVec 7) (a : BitVec 7) : Statement (.mtov d a) :=
  word_ok rfl fun k hk => by
    obtain ⟨h0, h1, h2, h3, h4⟩ := lay8 0x12000002 9 2 d a (by decide) (by decide) rfl k hk
    rw [at_09 _ h0, dec09, h1, h2, h3]
    exact needZero_ok h4

theorem vtom (d : BitVec 7) (a : BitVec 7) : Statement (.vtom d a) :=
  word_ok rfl fun k hk => by
    obtain ⟨h0, h1, h2, h3, h4⟩ := lay8 0x12000003 9 3 d a (by decide) (by decide) rfl k hk
    rw [at_09 _ h0, dec09, h1, h2, h3]
    exact needZero_ok h4

theorem mall (d : BitVec 7) : Statement (.mall d) :=
  word_ok rfl fun k hk => by
    obtain ⟨h0, h1, h2, h3⟩ := lay4 0x12000004 9 4 d (by decide) (by decide) rfl k hk
    rw [at_09 _ h0, dec09, h1, h2]
    exact needZero_ok h3

theorem shape (d : BitVec 7) (a : BitVec 7) : Statement (.shape d a) :=
  word_ok rfl fun k hk => by
    obtain ⟨h0, h1, h2, h3, h4⟩ := lay8 0x14000000 10 0 d a (by decide) (by decide) rfl k hk
    rw [at_0A _ h0, dec0A, h1, h2, h3]
    exact needZero_ok h4

theorem setg (d : BitVec 7) : Statement (.setg d) :=
  word_ok rfl fun k hk => by
    obtain ⟨h0, h1, h2, h3⟩ := lay4 0x14000001 10 1 d (by decide) (by decide) rfl k hk
    rw [at_0A _ h0, dec0A, h1, h2]
    exact needZero_ok h3

theorem squeeze (d : BitVec 7) : Statement (.squeeze d) :=
  word_ok rfl fun k hk => by
    obtain ⟨h0, h1, h2, h3⟩ := lay4 0x14000002 10 2 d (by decide) (by decide) rfl k hk
    rw [at_0A _ h0, dec0A, h1, h2]
    exact needZero_ok h3

theorem launch (d : BitVec 7) (b : BitVec 7) (o : BitVec 7) (l : BitVec 4) : Statement (.launch d b o l) :=
  word_ok rfl fun k hk => by
    obtain ⟨h0, h1, h2, h3, h4⟩ := lay11 0x16000000 11 d b o l (by decide) rfl k hk
    rw [at_0B _ h0, dec0B, h1, h2, h3, h4]

theorem bqh (a : BitVec 7) (b : BitVec 7) : Statement (.bqh a b) :=
  word_ok rfl fun k hk => by
    obtain ⟨h0, h1, h2, h3, h4⟩ := lay12 0x18000000 12 0 a b (by decide) (by decide) rfl k hk
    rw [at_0C _ h0, dec0C, h1, h2, h3]
    exact needZero_ok h4

theorem bqr (a : BitVec 7) : Statement (.bqr a) :=
  word_ok rfl fun k hk => by
    obtain ⟨h0, h1, h2, h3⟩ := lay7 0x1a000000 13 0 a (by decide) (by decide) rfl k hk
    rw [at_0D _ h0, dec0D, h1, h2]
    exact needZero_ok h3

theorem add (d : BitVec 7) (a : BitVec 7) (b : BitVec 7) : Statement (.add d a b) :=
  word_ok rfl fun k hk => by
    obtain ⟨h0, h1, h2, h3, h4⟩ := lay10 0x20000000 16 0 d a b (by decide) (by decide) rfl k hk
    rw [at_10 _ h0, dec10, h1, h2, h3, h4]
    rfl

theorem sub (d : BitVec 7) (a : BitVec 7) (b : BitVec 7) : Statement (.sub d a b) :=
  word_ok rfl fun k hk => by
    obtain ⟨h0, h1, h2, h3, h4⟩ := lay10 0x20000001 16 1 d a b (by decide) (by decide) rfl k hk
    rw [at_10 _ h0, dec10, h1, h2, h3, h4]
    rfl

theorem add64 (d : BitVec 7) (a : BitVec 7) (b : BitVec 7) : Statement (.add64 d a b) :=
  word_ok rfl fun k hk => by
    obtain ⟨h0, h1, h2, h3, h4⟩ := lay10 0x20000002 16 2 d a b (by decide) (by decide) rfl k hk
    rw [at_10 _ h0, dec10, h1, h2, h3, h4]
    rfl

theorem sub64 (d : BitVec 7) (a : BitVec 7) (b : BitVec 7) : Statement (.sub64 d a b) :=
  word_ok rfl fun k hk => by
    obtain ⟨h0, h1, h2, h3, h4⟩ := lay10 0x20000003 16 3 d a b (by decide) (by decide) rfl k hk
    rw [at_10 _ h0, dec10, h1, h2, h3, h4]
    rfl

theorem neg (d : BitVec 7) (a : BitVec 7) : Statement (.neg d a) :=
  word_ok rfl fun k hk => by
    obtain ⟨h0, h1, h2, h3, h4⟩ := lay8 0x20000004 16 4 d a (by decide) (by decide) rfl k hk
    rw [at_10 _ h0, dec10, h1, h2, h3]
    exact needZero_ok h4

theorem abs (d : BitVec 7) (a : BitVec 7) : Statement (.abs d a) :=
  word_ok rfl fun k hk => by
    obtain ⟨h0, h1, h2, h3, h4⟩ := lay8 0x20000005 16 5 d a (by decide) (by decide) rfl k hk
    rw [at_10 _ h0, dec10, h1, h2, h3]
    exact needZero_ok h4

theorem addi (d : BitVec 7) (a : BitVec 7) (i : BitVec 11) : Statement (.addi d a i) :=
  word_ok rfl fun k hk => by
    obtain ⟨h0, h1, h2, h3⟩ := lay13 0x22000000 17 d a i (by decide) rfl k hk
    rw [at_11 _ h0, dec11, h1, h2, h3]

theorem mulLo (d : BitVec 7) (a : BitVec 7) (b : BitVec 7) : Statement (.mulLo d a b) :=
  word_ok rfl fun k hk => by
    obtain ⟨h0, h1, h2, h3, h4⟩ := lay10 0x24000000 18 0 d a b (by decide) (by decide) rfl k hk
    rw [at_12 _ h0, dec12, h1, h2, h3, h4]
    rfl

theorem mulHiI (d : BitVec 7) (a : BitVec 7) (b : BitVec 7) : Statement (.mulHiI d a b) :=
  word_ok rfl fun k hk => by
    obtain ⟨h0, h1, h2, h3, h4⟩ := lay10 0x24000001 18 1 d a b (by decide) (by decide) rfl k hk
    rw [at_12 _ h0, dec12, h1, h2, h3, h4]
    rfl

theorem mulHiN (d : BitVec 7) (a : BitVec 7) (b : BitVec 7) : Statement (.mulHiN d a b) :=
  word_ok rfl fun k hk => by
    obtain ⟨h0, h1, h2, h3, h4⟩ := lay10 0x24000002 18 2 d a b (by decide) (by decide) rfl k hk
    rw [at_12 _ h0, dec12, h1, h2, h3, h4]
    rfl

theorem madLo (d : BitVec 7) (a : BitVec 7) (b : BitVec 7) : Statement (.madLo d a b) :=
  word_ok rfl fun k hk => by
    obtain ⟨h0, h1, h2, h3, h4⟩ := lay10 0x24000003 18 3 d a b (by decide) (by decide) rfl k hk
    rw [at_12 _ h0, dec12, h1, h2, h3, h4]
    rfl

theorem mulWideI (d : BitVec 7) (a : BitVec 7) (b : BitVec 7) : Statement (.mulWideI d a b) :=
  word_ok rfl fun k hk => by
    obtain ⟨h0, h1, h2, h3, h4⟩ := lay10 0x24000004 18 4 d a b (by decide) (by decide) rfl k hk
    rw [at_12 _ h0, dec12, h1, h2, h3, h4]
    rfl

theorem mulWideN (d : BitVec 7) (a : BitVec 7) (b : BitVec 7) : Statement (.mulWideN d a b) :=
  word_ok rfl fun k hk => by
    obtain ⟨h0, h1, h2, h3, h4⟩ := lay10 0x24000005 18 5 d a b (by decide) (by decide) rfl k hk
    rw [at_12 _ h0, dec12, h1, h2, h3, h4]
    rfl

theorem minI (d : BitVec 7) (a : BitVec 7) (b : BitVec 7) : Statement (.minI d a b) :=
  word_ok rfl fun k hk => by
    obtain ⟨h0, h1, h2, h3, h4⟩ := lay10 0x26000000 19 0 d a b (by decide) (by decide) rfl k hk
    rw [at_13 _ h0, dec13, h1, h2, h3, h4]
    rfl

theorem maxI (d : BitVec 7) (a : BitVec 7) (b : BitVec 7) : Statement (.maxI d a b) :=
  word_ok rfl fun k hk => by
    obtain ⟨h0, h1, h2, h3, h4⟩ := lay10 0x26000001 19 1 d a b (by decide) (by decide) rfl k hk
    rw [at_13 _ h0, dec13, h1, h2, h3, h4]
    rfl

theorem minN (d : BitVec 7) (a : BitVec 7) (b : BitVec 7) : Statement (.minN d a b) :=
  word_ok rfl fun k hk => by
    obtain ⟨h0, h1, h2, h3, h4⟩ := lay10 0x26000002 19 2 d a b (by decide) (by decide) rfl k hk
    rw [at_13 _ h0, dec13, h1, h2, h3, h4]
    rfl

theorem maxN (d : BitVec 7) (a : BitVec 7) (b : BitVec 7) : Statement (.maxN d a b) :=
  word_ok rfl fun k hk => by
    obtain ⟨h0, h1, h2, h3, h4⟩ := lay10 0x26000003 19 3 d a b (by decide) (by decide) rfl k hk
    rw [at_13 _ h0, dec13, h1, h2, h3, h4]
    rfl

theorem and (d : BitVec 7) (a : BitVec 7) (b : BitVec 7) : Statement (.and d a b) :=
  word_ok rfl fun k hk => by
    obtain ⟨h0, h1, h2, h3, h4⟩ := lay10 0x28000000 20 0 d a b (by decide) (by decide) rfl k hk
    rw [at_14 _ h0, dec14, h1, h2, h3, h4]
    rfl

theorem or (d : BitVec 7) (a : BitVec 7) (b : BitVec 7) : Statement (.or d a b) :=
  word_ok rfl fun k hk => by
    obtain ⟨h0, h1, h2, h3, h4⟩ := lay10 0x28000001 20 1 d a b (by decide) (by decide) rfl k hk
    rw [at_14 _ h0, dec14, h1, h2, h3, h4]
    rfl

theorem xor (d : BitVec 7) (a : BitVec 7) (b : BitVec 7) : Statement (.xor d a b) :=
  word_ok rfl fun k hk => by
    obtain ⟨h0, h1, h2, h3, h4⟩ := lay10 0x28000002 20 2 d a b (by decide) (by decide) rfl k hk
    rw [at_14 _ h0, dec14, h1, h2, h3, h4]
    rfl

theorem andn (d : BitVec 7) (a : BitVec 7) (b : BitVec 7) : Statement (.andn d a b) :=
  word_ok rfl fun k hk => by
    obtain ⟨h0, h1, h2, h3, h4⟩ := lay10 0x28000003 20 3 d a b (by decide) (by decide) rfl k hk
    rw [at_14 _ h0, dec14, h1, h2, h3, h4]
    rfl

theorem not (d : BitVec 7) (a : BitVec 7) : Statement (.not d a) :=
  word_ok rfl fun k hk => by
    obtain ⟨h0, h1, h2, h3, h4⟩ := lay8 0x28000004 20 4 d a (by decide) (by decide) rfl k hk
    rw [at_14 _ h0, dec14, h1, h2, h3]
    exact needZero_ok h4

theorem andi (d : BitVec 7) (a : BitVec 7) (i : BitVec 11) : Statement (.andi d a i) :=
  word_ok rfl fun k hk => by
    obtain ⟨h0, h1, h2, h3⟩ := lay13 0x2a000000 21 d a i (by decide) rfl k hk
    rw [at_15 _ h0, dec15, h1, h2, h3]

theorem ori (d : BitVec 7) (a : BitVec 7) (i : BitVec 11) : Statement (.ori d a i) :=
  word_ok rfl fun k hk => by
    obtain ⟨h0, h1, h2, h3⟩ := lay13 0x2c000000 22 d a i (by decide) rfl k hk
    rw [at_16 _ h0, dec16, h1, h2, h3]

theorem xori (d : BitVec 7) (a : BitVec 7) (i : BitVec 11) : Statement (.xori d a i) :=
  word_ok rfl fun k hk => by
    obtain ⟨h0, h1, h2, h3⟩ := lay13 0x2e000000 23 d a i (by decide) rfl k hk
    rw [at_17 _ h0, dec17, h1, h2, h3]

theorem shl (d : BitVec 7) (a : BitVec 7) (b : BitVec 7) : Statement (.shl d a b) :=
  word_ok rfl fun k hk => by
    obtain ⟨h0, h1, h2, h3, h4⟩ := lay10 0x30000000 24 0 d a b (by decide) (by decide) rfl k hk
    rw [at_18 _ h0, dec18, h1, h2, h3, h4]
    rfl

theorem shr (d : BitVec 7) (a : BitVec 7) (b : BitVec 7) : Statement (.shr d a b) :=
  word_ok rfl fun k hk => by
    obtain ⟨h0, h1, h2, h3, h4⟩ := lay10 0x30000001 24 1 d a b (by decide) (by decide) rfl k hk
    rw [at_18 _ h0, dec18, h1, h2, h3, h4]
    rfl

theorem sar (d : BitVec 7) (a : BitVec 7) (b : BitVec 7) : Statement (.sar d a b) :=
  word_ok rfl fun k hk => by
    obtain ⟨h0, h1, h2, h3, h4⟩ := lay10 0x30000002 24 2 d a b (by decide) (by decide) rfl k hk
    rw [at_18 _ h0, dec18, h1, h2, h3, h4]
    rfl

theorem rotl (d : BitVec 7) (a : BitVec 7) (b : BitVec 7) : Statement (.rotl d a b) :=
  word_ok rfl fun k hk => by
    obtain ⟨h0, h1, h2, h3, h4⟩ := lay10 0x30000003 24 3 d a b (by decide) (by decide) rfl k hk
    rw [at_18 _ h0, dec18, h1, h2, h3, h4]
    rfl

theorem shl64 (d : BitVec 7) (a : BitVec 7) (b : BitVec 7) : Statement (.shl64 d a b) :=
  word_ok rfl fun k hk => by
    obtain ⟨h0, h1, h2, h3, h4⟩ := lay10 0x30000004 24 4 d a b (by decide) (by decide) rfl k hk
    rw [at_18 _ h0, dec18, h1, h2, h3, h4]
    rfl

theorem shr64 (d : BitVec 7) (a : BitVec 7) (b : BitVec 7) : Statement (.shr64 d a b) :=
  word_ok rfl fun k hk => by
    obtain ⟨h0, h1, h2, h3, h4⟩ := lay10 0x30000005 24 5 d a b (by decide) (by decide) rfl k hk
    rw [at_18 _ h0, dec18, h1, h2, h3, h4]
    rfl

theorem sar64 (d : BitVec 7) (a : BitVec 7) (b : BitVec 7) : Statement (.sar64 d a b) :=
  word_ok rfl fun k hk => by
    obtain ⟨h0, h1, h2, h3, h4⟩ := lay10 0x30000006 24 6 d a b (by decide) (by decide) rfl k hk
    rw [at_18 _ h0, dec18, h1, h2, h3, h4]
    rfl

theorem shli (d : BitVec 7) (a : BitVec 7) (n : BitVec 5) : Statement (.shli d a n) :=
  word_ok rfl fun k hk => by
    obtain ⟨h0, h1, h2, h3, h4, h5⟩ := lay14 0x32000000 25 0 d a n (by decide) (by decide) rfl k hk
    rw [at_19 _ h0, dec19, h1, h2, h3, h4]
    exact needZero_ok h5

theorem shri (d : BitVec 7) (a : BitVec 7) (n : BitVec 5) : Statement (.shri d a n) :=
  word_ok rfl fun k hk => by
    obtain ⟨h0, h1, h2, h3, h4, h5⟩ := lay14 0x32000020 25 1 d a n (by decide) (by decide) rfl k hk
    rw [at_19 _ h0, dec19, h1, h2, h3, h4]
    exact needZero_ok h5

theorem sari (d : BitVec 7) (a : BitVec 7) (n : BitVec 5) : Statement (.sari d a n) :=
  word_ok rfl fun k hk => by
    obtain ⟨h0, h1, h2, h3, h4, h5⟩ := lay14 0x32000040 25 2 d a n (by decide) (by decide) rfl k hk
    rw [at_19 _ h0, dec19, h1, h2, h3, h4]
    exact needZero_ok h5

theorem rotli (d : BitVec 7) (a : BitVec 7) (n : BitVec 5) : Statement (.rotli d a n) :=
  word_ok rfl fun k hk => by
    obtain ⟨h0, h1, h2, h3, h4, h5⟩ := lay14 0x32000060 25 3 d a n (by decide) (by decide) rfl k hk
    rw [at_19 _ h0, dec19, h1, h2, h3, h4]
    exact needZero_ok h5

theorem popc (d : BitVec 7) (a : BitVec 7) : Statement (.popc d a) :=
  word_ok rfl fun k hk => by
    obtain ⟨h0, h1, h2, h3, h4⟩ := lay8 0x34000000 26 0 d a (by decide) (by decide) rfl k hk
    rw [at_1A _ h0, dec1A, h1, h2, h3]
    exact needZero_ok h4

theorem clz (d : BitVec 7) (a : BitVec 7) : Statement (.clz d a) :=
  word_ok rfl fun k hk => by
    obtain ⟨h0, h1, h2, h3, h4⟩ := lay8 0x34000001 26 1 d a (by decide) (by decide) rfl k hk
    rw [at_1A _ h0, dec1A, h1, h2, h3]
    exact needZero_ok h4

theorem brev (d : BitVec 7) (a : BitVec 7) : Statement (.brev d a) :=
  word_ok rfl fun k hk => by
    obtain ⟨h0, h1, h2, h3, h4⟩ := lay8 0x34000002 26 2 d a (by decide) (by decide) rfl k hk
    rw [at_1A _ h0, dec1A, h1, h2, h3]
    exact needZero_ok h4

theorem bfeI (d : BitVec 7) (a : BitVec 7) (b : BitVec 7) : Statement (.bfeI d a b) :=
  word_ok rfl fun k hk => by
    obtain ⟨h0, h1, h2, h3, h4⟩ := lay10 0x34000003 26 3 d a b (by decide) (by decide) rfl k hk
    rw [at_1A _ h0, dec1A, h1, h2, h3, h4]
    rfl

theorem bfeN (d : BitVec 7) (a : BitVec 7) (b : BitVec 7) : Statement (.bfeN d a b) :=
  word_ok rfl fun k hk => by
    obtain ⟨h0, h1, h2, h3, h4⟩ := lay10 0x34000004 26 4 d a b (by decide) (by decide) rfl k hk
    rw [at_1A _ h0, dec1A, h1, h2, h3, h4]
    rfl

theorem bfi (d : BitVec 7) (a : BitVec 7) (b : BitVec 7) : Statement (.bfi d a b) :=
  word_ok rfl fun k hk => by
    obtain ⟨h0, h1, h2, h3, h4⟩ := lay10 0x34000005 26 5 d a b (by decide) (by decide) rfl k hk
    rw [at_1A _ h0, dec1A, h1, h2, h3, h4]
    rfl

theorem cmp (d : BitVec 7) (a : BitVec 7) (b : BitVec 7) (c : BitVec 4) : Statement (.cmp d a b c) :=
  word_ok rfl fun k hk => by
    obtain ⟨h0, h1, h2, h3, h4⟩ := lay11 0x36000000 27 d a b c (by decide) rfl k hk
    rw [at_1B _ h0, dec1B, h1, h2, h3, h4]

theorem sel (d : BitVec 7) (a : BitVec 7) (b : BitVec 7) (m : BitVec 4) : Statement (.sel d a b m) :=
  word_ok rfl fun k hk => by
    obtain ⟨h0, h1, h2, h3, h4⟩ := lay11 0x38000000 28 d a b m (by decide) rfl k hk
    rw [at_1C _ h0, dec1C, h1, h2, h3, h4]

theorem movl (d : BitVec 7) (h : BitVec 2) (i : BitVec 16) : Statement (.movl d h i) :=
  word_ok rfl fun k hk => by
    obtain ⟨h0, h1, h2, h3⟩ := lay15 0x3a000000 29 d h i (by decide) rfl k hk
    rw [at_1D _ h0, dec1D, h1, h2, h3]

theorem movh (d : BitVec 7) (h : BitVec 2) (i : BitVec 16) : Statement (.movh d h i) :=
  word_ok rfl fun k hk => by
    obtain ⟨h0, h1, h2, h3⟩ := lay15 0x3c000000 30 d h i (by decide) rfl k hk
    rw [at_1E _ h0, dec1E, h1, h2, h3]

theorem mov (d : BitVec 7) (a : BitVec 7) : Statement (.mov d a) :=
  word_ok rfl fun k hk => by
    obtain ⟨h0, h1, h2, h3, h4⟩ := lay8 0x3e000000 31 0 d a (by decide) (by decide) rfl k hk
    rw [at_1F _ h0, dec1F, h1, h2, h3]
    exact needZero_ok h4

theorem lane (d : BitVec 7) : Statement (.lane d) :=
  word_ok rfl fun k hk => by
    obtain ⟨h0, h1, h2, h3⟩ := lay4 0x3e000001 31 1 d (by decide) (by decide) rfl k hk
    rw [at_1F _ h0, dec1F, h1, h2]
    exact needZero_ok h3

theorem shfl (d : BitVec 7) (a : BitVec 7) (b : BitVec 7) : Statement (.shfl d a b) :=
  word_ok rfl fun k hk => by
    obtain ⟨h0, h1, h2, h3, h4⟩ := lay10 0x40000000 32 0 d a b (by decide) (by decide) rfl k hk
    rw [at_20 _ h0, dec20, h1, h2, h3, h4]
    rfl

theorem shflUp (d : BitVec 7) (a : BitVec 7) (b : BitVec 7) : Statement (.shflUp d a b) :=
  word_ok rfl fun k hk => by
    obtain ⟨h0, h1, h2, h3, h4⟩ := lay10 0x40000001 32 1 d a b (by decide) (by decide) rfl k hk
    rw [at_20 _ h0, dec20, h1, h2, h3, h4]
    rfl

theorem shflDn (d : BitVec 7) (a : BitVec 7) (b : BitVec 7) : Statement (.shflDn d a b) :=
  word_ok rfl fun k hk => by
    obtain ⟨h0, h1, h2, h3, h4⟩ := lay10 0x40000002 32 2 d a b (by decide) (by decide) rfl k hk
    rw [at_20 _ h0, dec20, h1, h2, h3, h4]
    rfl

theorem shflX (d : BitVec 7) (a : BitVec 7) (b : BitVec 7) : Statement (.shflX d a b) :=
  word_ok rfl fun k hk => by
    obtain ⟨h0, h1, h2, h3, h4⟩ := lay10 0x40000003 32 3 d a b (by decide) (by decide) rfl k hk
    rw [at_20 _ h0, dec20, h1, h2, h3, h4]
    rfl

theorem bcast (d : BitVec 7) (a : BitVec 7) (b : BitVec 7) : Statement (.bcast d a b) :=
  word_ok rfl fun k hk => by
    obtain ⟨h0, h1, h2, h3, h4⟩ := lay10 0x42000000 33 0 d a b (by decide) (by decide) rfl k hk
    rw [at_21 _ h0, dec21, h1, h2, h3, h4]
    rfl

theorem red (d : BitVec 7) (a : BitVec 7) (o : BitVec 4) : Statement (.red d a o) :=
  word_ok rfl fun k hk => by
    obtain ⟨h0, h1, h2, h3, h4⟩ := lay16 0x44000000 34 d a o (by decide) rfl k hk
    rw [at_22 _ h0, dec22, h1, h2, h3]
    exact needZero_ok h4

theorem scanAddI (d : BitVec 7) (a : BitVec 7) : Statement (.scanAddI d a) :=
  word_ok rfl fun k hk => by
    obtain ⟨h0, h1, h2, h3, h4⟩ := lay8 0x46000000 35 0 d a (by decide) (by decide) rfl k hk
    rw [at_23 _ h0, dec23, h1, h2, h3]
    exact needZero_ok h4

theorem scanAddF32 (d : BitVec 7) (a : BitVec 7) : Statement (.scanAddF32 d a) :=
  word_ok rfl fun k hk => by
    obtain ⟨h0, h1, h2, h3, h4⟩ := lay8 0x46000001 35 1 d a (by decide) (by decide) rfl k hk
    rw [at_23 _ h0, dec23, h1, h2, h3]
    exact needZero_ok h4

theorem dp4I8 (d : BitVec 7) (a : BitVec 7) (b : BitVec 7) : Statement (.dp4I8 d a b) :=
  word_ok rfl fun k hk => by
    obtain ⟨h0, h1, h2, h3, h4⟩ := lay10 0x48000000 36 0 d a b (by decide) (by decide) rfl k hk
    rw [at_24 _ h0, dec24, h1, h2, h3, h4]
    rfl

theorem dp4N8 (d : BitVec 7) (a : BitVec 7) (b : BitVec 7) : Statement (.dp4N8 d a b) :=
  word_ok rfl fun k hk => by
    obtain ⟨h0, h1, h2, h3, h4⟩ := lay10 0x48000001 36 1 d a b (by decide) (by decide) rfl k hk
    rw [at_24 _ h0, dec24, h1, h2, h3, h4]
    rfl

theorem dp2I16 (d : BitVec 7) (a : BitVec 7) (b : BitVec 7) : Statement (.dp2I16 d a b) :=
  word_ok rfl fun k hk => by
    obtain ⟨h0, h1, h2, h3, h4⟩ := lay10 0x48000002 36 2 d a b (by decide) (by decide) rfl k hk
    rw [at_24 _ h0, dec24, h1, h2, h3, h4]
    rfl

theorem cmp64 (d : BitVec 7) (a : BitVec 7) (b : BitVec 7) (c : BitVec 4) : Statement (.cmp64 d a b c) :=
  word_ok rfl fun k hk => by
    obtain ⟨h0, h1, h2, h3, h4⟩ := lay11 0x4a000000 37 d a b c (by decide) rfl k hk
    rw [at_25 _ h0, dec25, h1, h2, h3, h4]

theorem fadd (d : BitVec 7) (a : BitVec 7) (b : BitVec 7) : Statement (.fadd d a b) :=
  word_ok rfl fun k hk => by
    obtain ⟨h0, h1, h2, h3, h4⟩ := lay10 0x60000000 48 0 d a b (by decide) (by decide) rfl k hk
    rw [at_30 _ h0, dec30, h1, h2, h3, h4]
    rfl

theorem fsub (d : BitVec 7) (a : BitVec 7) (b : BitVec 7) : Statement (.fsub d a b) :=
  word_ok rfl fun k hk => by
    obtain ⟨h0, h1, h2, h3, h4⟩ := lay10 0x60000001 48 1 d a b (by decide) (by decide) rfl k hk
    rw [at_30 _ h0, dec30, h1, h2, h3, h4]
    rfl

theorem fmul (d : BitVec 7) (a : BitVec 7) (b : BitVec 7) : Statement (.fmul d a b) :=
  word_ok rfl fun k hk => by
    obtain ⟨h0, h1, h2, h3, h4⟩ := lay10 0x60000002 48 2 d a b (by decide) (by decide) rfl k hk
    rw [at_30 _ h0, dec30, h1, h2, h3, h4]
    rfl

theorem fmin (d : BitVec 7) (a : BitVec 7) (b : BitVec 7) : Statement (.fmin d a b) :=
  word_ok rfl fun k hk => by
    obtain ⟨h0, h1, h2, h3, h4⟩ := lay10 0x60000003 48 3 d a b (by decide) (by decide) rfl k hk
    rw [at_30 _ h0, dec30, h1, h2, h3, h4]
    rfl

theorem fmax (d : BitVec 7) (a : BitVec 7) (b : BitVec 7) : Statement (.fmax d a b) :=
  word_ok rfl fun k hk => by
    obtain ⟨h0, h1, h2, h3, h4⟩ := lay10 0x60000004 48 4 d a b (by decide) (by decide) rfl k hk
    rw [at_30 _ h0, dec30, h1, h2, h3, h4]
    rfl

theorem fneg (d : BitVec 7) (a : BitVec 7) : Statement (.fneg d a) :=
  word_ok rfl fun k hk => by
    obtain ⟨h0, h1, h2, h3, h4⟩ := lay8 0x60000005 48 5 d a (by decide) (by decide) rfl k hk
    rw [at_30 _ h0, dec30, h1, h2, h3]
    exact needZero_ok h4

theorem fabs (d : BitVec 7) (a : BitVec 7) : Statement (.fabs d a) :=
  word_ok rfl fun k hk => by
    obtain ⟨h0, h1, h2, h3, h4⟩ := lay8 0x60000006 48 6 d a (by decide) (by decide) rfl k hk
    rw [at_30 _ h0, dec30, h1, h2, h3]
    exact needZero_ok h4

theorem ffma (d : BitVec 7) (a : BitVec 7) (b : BitVec 7) : Statement (.ffma d a b) :=
  word_ok rfl fun k hk => by
    obtain ⟨h0, h1, h2, h3, h4⟩ := lay10 0x62000000 49 0 d a b (by decide) (by decide) rfl k hk
    rw [at_31 _ h0, dec31, h1, h2, h3, h4]
    rfl

theorem ffms (d : BitVec 7) (a : BitVec 7) (b : BitVec 7) : Statement (.ffms d a b) :=
  word_ok rfl fun k hk => by
    obtain ⟨h0, h1, h2, h3, h4⟩ := lay10 0x62000001 49 1 d a b (by decide) (by decide) rfl k hk
    rw [at_31 _ h0, dec31, h1, h2, h3, h4]
    rfl

theorem fcmp (d : BitVec 7) (a : BitVec 7) (b : BitVec 7) (c : BitVec 4) : Statement (.fcmp d a b c) :=
  word_ok rfl fun k hk => by
    obtain ⟨h0, h1, h2, h3, h4⟩ := lay11 0x64000000 50 d a b c (by decide) rfl k hk
    rw [at_32 _ h0, dec32, h1, h2, h3, h4]

theorem frcp (d : BitVec 7) (a : BitVec 7) (l : BitVec 4) : Statement (.frcp d a l) :=
  word_ok rfl fun k hk => by
    obtain ⟨h0, h1, h2, h3, h4⟩ := lay17 0x66000000 51 0 d a l (by decide) (by decide) rfl k hk
    rw [at_33 _ h0, dec33, h1, h2, h3, h4]
    rfl

theorem frsq (d : BitVec 7) (a : BitVec 7) (l : BitVec 4) : Statement (.frsq d a l) :=
  word_ok rfl fun k hk => by
    obtain ⟨h0, h1, h2, h3, h4⟩ := lay17 0x66000010 51 1 d a l (by decide) (by decide) rfl k hk
    rw [at_33 _ h0, dec33, h1, h2, h3, h4]
    rfl

theorem fsqrt (d : BitVec 7) (a : BitVec 7) (l : BitVec 4) : Statement (.fsqrt d a l) :=
  word_ok rfl fun k hk => by
    obtain ⟨h0, h1, h2, h3, h4⟩ := lay17 0x66000020 51 2 d a l (by decide) (by decide) rfl k hk
    rw [at_33 _ h0, dec33, h1, h2, h3, h4]
    rfl

theorem fexp2 (d : BitVec 7) (a : BitVec 7) (l : BitVec 4) : Statement (.fexp2 d a l) :=
  word_ok rfl fun k hk => by
    obtain ⟨h0, h1, h2, h3, h4⟩ := lay17 0x66000030 51 3 d a l (by decide) (by decide) rfl k hk
    rw [at_33 _ h0, dec33, h1, h2, h3, h4]
    rfl

theorem flog2 (d : BitVec 7) (a : BitVec 7) (l : BitVec 4) : Statement (.flog2 d a l) :=
  word_ok rfl fun k hk => by
    obtain ⟨h0, h1, h2, h3, h4⟩ := lay17 0x66000040 51 4 d a l (by decide) (by decide) rfl k hk
    rw [at_33 _ h0, dec33, h1, h2, h3, h4]
    rfl

theorem fsin (d : BitVec 7) (a : BitVec 7) (l : BitVec 4) : Statement (.fsin d a l) :=
  word_ok rfl fun k hk => by
    obtain ⟨h0, h1, h2, h3, h4⟩ := lay17 0x66000050 51 5 d a l (by decide) (by decide) rfl k hk
    rw [at_33 _ h0, dec33, h1, h2, h3, h4]
    rfl

theorem fcos (d : BitVec 7) (a : BitVec 7) (l : BitVec 4) : Statement (.fcos d a l) :=
  word_ok rfl fun k hk => by
    obtain ⟨h0, h1, h2, h3, h4⟩ := lay17 0x66000060 51 6 d a l (by decide) (by decide) rfl k hk
    rw [at_33 _ h0, dec33, h1, h2, h3, h4]
    rfl

theorem ftanh (d : BitVec 7) (a : BitVec 7) (l : BitVec 4) : Statement (.ftanh d a l) :=
  word_ok rfl fun k hk => by
    obtain ⟨h0, h1, h2, h3, h4⟩ := lay17 0x66000070 51 7 d a l (by decide) (by decide) rfl k hk
    rw [at_33 _ h0, dec33, h1, h2, h3, h4]
    rfl

theorem dadd (d : BitVec 7) (a : BitVec 7) (b : BitVec 7) : Statement (.dadd d a b) :=
  word_ok rfl fun k hk => by
    obtain ⟨h0, h1, h2, h3, h4⟩ := lay10 0x68000000 52 0 d a b (by decide) (by decide) rfl k hk
    rw [at_34 _ h0, dec34, h1, h2, h3, h4]
    rfl

theorem dsub (d : BitVec 7) (a : BitVec 7) (b : BitVec 7) : Statement (.dsub d a b) :=
  word_ok rfl fun k hk => by
    obtain ⟨h0, h1, h2, h3, h4⟩ := lay10 0x68000001 52 1 d a b (by decide) (by decide) rfl k hk
    rw [at_34 _ h0, dec34, h1, h2, h3, h4]
    rfl

theorem dmul (d : BitVec 7) (a : BitVec 7) (b : BitVec 7) : Statement (.dmul d a b) :=
  word_ok rfl fun k hk => by
    obtain ⟨h0, h1, h2, h3, h4⟩ := lay10 0x68000002 52 2 d a b (by decide) (by decide) rfl k hk
    rw [at_34 _ h0, dec34, h1, h2, h3, h4]
    rfl

theorem dfma (d : BitVec 7) (a : BitVec 7) (b : BitVec 7) : Statement (.dfma d a b) :=
  word_ok rfl fun k hk => by
    obtain ⟨h0, h1, h2, h3, h4⟩ := lay10 0x68000003 52 3 d a b (by decide) (by decide) rfl k hk
    rw [at_34 _ h0, dec34, h1, h2, h3, h4]
    rfl

theorem dmin (d : BitVec 7) (a : BitVec 7) (b : BitVec 7) : Statement (.dmin d a b) :=
  word_ok rfl fun k hk => by
    obtain ⟨h0, h1, h2, h3, h4⟩ := lay10 0x68000004 52 4 d a b (by decide) (by decide) rfl k hk
    rw [at_34 _ h0, dec34, h1, h2, h3, h4]
    rfl

theorem dmax (d : BitVec 7) (a : BitVec 7) (b : BitVec 7) : Statement (.dmax d a b) :=
  word_ok rfl fun k hk => by
    obtain ⟨h0, h1, h2, h3, h4⟩ := lay10 0x68000005 52 5 d a b (by decide) (by decide) rfl k hk
    rw [at_34 _ h0, dec34, h1, h2, h3, h4]
    rfl

theorem dcmp (d : BitVec 7) (a : BitVec 7) (b : BitVec 7) (c : BitVec 4) : Statement (.dcmp d a b c) :=
  word_ok rfl fun k hk => by
    obtain ⟨h0, h1, h2, h3, h4⟩ := lay11 0x6a000000 53 d a b c (by decide) rfl k hk
    rw [at_35 _ h0, dec35, h1, h2, h3, h4]

theorem hadd2F16 (d : BitVec 7) (a : BitVec 7) (b : BitVec 7) : Statement (.hadd2F16 d a b) :=
  word_ok rfl fun k hk => by
    obtain ⟨h0, h1, h2, h3, h4⟩ := lay10 0x6c000000 54 0 d a b (by decide) (by decide) rfl k hk
    rw [at_36 _ h0, dec36, h1, h2, h3, h4]
    rfl

theorem hmul2F16 (d : BitVec 7) (a : BitVec 7) (b : BitVec 7) : Statement (.hmul2F16 d a b) :=
  word_ok rfl fun k hk => by
    obtain ⟨h0, h1, h2, h3, h4⟩ := lay10 0x6c000001 54 1 d a b (by decide) (by decide) rfl k hk
    rw [at_36 _ h0, dec36, h1, h2, h3, h4]
    rfl

theorem hfma2F16 (d : BitVec 7) (a : BitVec 7) (b : BitVec 7) : Statement (.hfma2F16 d a b) :=
  word_ok rfl fun k hk => by
    obtain ⟨h0, h1, h2, h3, h4⟩ := lay10 0x6c000002 54 2 d a b (by decide) (by decide) rfl k hk
    rw [at_36 _ h0, dec36, h1, h2, h3, h4]
    rfl

theorem hadd2Bf16 (d : BitVec 7) (a : BitVec 7) (b : BitVec 7) : Statement (.hadd2Bf16 d a b) :=
  word_ok rfl fun k hk => by
    obtain ⟨h0, h1, h2, h3, h4⟩ := lay10 0x6c000003 54 3 d a b (by decide) (by decide) rfl k hk
    rw [at_36 _ h0, dec36, h1, h2, h3, h4]
    rfl

theorem hmul2Bf16 (d : BitVec 7) (a : BitVec 7) (b : BitVec 7) : Statement (.hmul2Bf16 d a b) :=
  word_ok rfl fun k hk => by
    obtain ⟨h0, h1, h2, h3, h4⟩ := lay10 0x6c000004 54 4 d a b (by decide) (by decide) rfl k hk
    rw [at_36 _ h0, dec36, h1, h2, h3, h4]
    rfl

theorem hfma2Bf16 (d : BitVec 7) (a : BitVec 7) (b : BitVec 7) : Statement (.hfma2Bf16 d a b) :=
  word_ok rfl fun k hk => by
    obtain ⟨h0, h1, h2, h3, h4⟩ := lay10 0x6c000005 54 5 d a b (by decide) (by decide) rfl k hk
    rw [at_36 _ h0, dec36, h1, h2, h3, h4]
    rfl

theorem fclass (d : BitVec 7) (a : BitVec 7) : Statement (.fclass d a) :=
  word_ok rfl fun k hk => by
    obtain ⟨h0, h1, h2, h3, h4⟩ := lay8 0x6e000000 55 0 d a (by decide) (by decide) rfl k hk
    rw [at_37 _ h0, dec37, h1, h2, h3]
    exact needZero_ok h4

theorem fcopysign (d : BitVec 7) (a : BitVec 7) (b : BitVec 7) : Statement (.fcopysign d a b) :=
  word_ok rfl fun k hk => by
    obtain ⟨h0, h1, h2, h3, h4⟩ := lay10 0x6e000001 55 1 d a b (by decide) (by decide) rfl k hk
    rw [at_37 _ h0, dec37, h1, h2, h3, h4]
    rfl

theorem ffrac (d : BitVec 7) (a : BitVec 7) : Statement (.ffrac d a) :=
  word_ok rfl fun k hk => by
    obtain ⟨h0, h1, h2, h3, h4⟩ := lay8 0x6e000002 55 2 d a (by decide) (by decide) rfl k hk
    rw [at_37 _ h0, dec37, h1, h2, h3]
    exact needZero_ok h4

theorem fround (d : BitVec 7) (a : BitVec 7) : Statement (.fround d a) :=
  word_ok rfl fun k hk => by
    obtain ⟨h0, h1, h2, h3, h4⟩ := lay8 0x6e000003 55 3 d a (by decide) (by decide) rfl k hk
    rw [at_37 _ h0, dec37, h1, h2, h3]
    exact needZero_ok h4

theorem cvt (d : BitVec 7) (a : BitVec 7) (s : BitVec 1) (i : BitVec 6) (l : BitVec 4) : Statement (.cvt d a s i l) :=
  word_ok rfl fun k hk => by
    obtain ⟨h0, h1, h2, h3, h4, h5⟩ := lay18 0x70000000 56 d a s i l (by decide) rfl k hk
    rw [at_38 _ h0, dec38, h1, h2, h3, h4, h5]

theorem mxpack (d : BitVec 7) (a : BitVec 7) (l : BitVec 4) : Statement (.mxpack d a l) :=
  word_ok rfl fun k hk => by
    obtain ⟨h0, h1, h2, h3, h4, h5⟩ := lay19 0x72000000 57 0 d a l (by decide) (by decide) rfl k hk
    rw [at_39 _ h0, dec39, h1, h2, h3, h4]
    exact needZero_ok h5

theorem mxunpack (d : BitVec 7) (a : BitVec 7) (l : BitVec 4) : Statement (.mxunpack d a l) :=
  word_ok rfl fun k hk => by
    obtain ⟨h0, h1, h2, h3, h4, h5⟩ := lay19 0x72000001 57 1 d a l (by decide) (by decide) rfl k hk
    rw [at_39 _ h0, dec39, h1, h2, h3, h4]
    exact needZero_ok h5

theorem qpack4 (d : BitVec 7) (a : BitVec 7) (l : BitVec 4) : Statement (.qpack4 d a l) :=
  word_ok rfl fun k hk => by
    obtain ⟨h0, h1, h2, h3, h4, h5⟩ := lay19 0x72000002 57 2 d a l (by decide) (by decide) rfl k hk
    rw [at_39 _ h0, dec39, h1, h2, h3, h4]
    exact needZero_ok h5

theorem qunpack4 (d : BitVec 7) (a : BitVec 7) (l : BitVec 4) : Statement (.qunpack4 d a l) :=
  word_ok rfl fun k hk => by
    obtain ⟨h0, h1, h2, h3, h4, h5⟩ := lay19 0x72000003 57 3 d a l (by decide) (by decide) rfl k hk
    rw [at_39 _ h0, dec39, h1, h2, h3, h4]
    exact needZero_ok h5

theorem ldB8n (d : BitVec 7) (b : BitVec 7) (o : BitVec 7) (l : BitVec 4) : Statement (.ldB8n d b o l) :=
  word_ok rfl fun k hk => by
    obtain ⟨h0, h1, h2, h3, h4⟩ := lay11 0x80000000 64 d b o l (by decide) rfl k hk
    rw [at_40 _ h0, dec40, h1, h2, h3, h4]

theorem ldB8i (d : BitVec 7) (b : BitVec 7) (o : BitVec 7) (l : BitVec 4) : Statement (.ldB8i d b o l) :=
  word_ok rfl fun k hk => by
    obtain ⟨h0, h1, h2, h3, h4⟩ := lay11 0x82000000 65 d b o l (by decide) rfl k hk
    rw [at_41 _ h0, dec41, h1, h2, h3, h4]

theorem ldB16n (d : BitVec 7) (b : BitVec 7) (o : BitVec 7) (l : BitVec 4) : Statement (.ldB16n d b o l) :=
  word_ok rfl fun k hk => by
    obtain ⟨h0, h1, h2, h3, h4⟩ := lay11 0x84000000 66 d b o l (by decide) rfl k hk
    rw [at_42 _ h0, dec42, h1, h2, h3, h4]

theorem ldB16i (d : BitVec 7) (b : BitVec 7) (o : BitVec 7) (l : BitVec 4) : Statement (.ldB16i d b o l) :=
  word_ok rfl fun k hk => by
    obtain ⟨h0, h1, h2, h3, h4⟩ := lay11 0x86000000 67 d b o l (by decide) rfl k hk
    rw [at_43 _ h0, dec43, h1, h2, h3, h4]

theorem ldB32 (d : BitVec 7) (b : BitVec 7) (o : BitVec 7) (l : BitVec 4) : Statement (.ldB32 d b o l) :=
  word_ok rfl fun k hk => by
    obtain ⟨h0, h1, h2, h3, h4⟩ := lay11 0x88000000 68 d b o l (by decide) rfl k hk
    rw [at_44 _ h0, dec44, h1, h2, h3, h4]

theorem ldB64 (d : BitVec 7) (b : BitVec 7) (o : BitVec 7) (l : BitVec 4) : Statement (.ldB64 d b o l) :=
  word_ok rfl fun k hk => by
    obtain ⟨h0, h1, h2, h3, h4⟩ := lay11 0x8a000000 69 d b o l (by decide) rfl k hk
    rw [at_45 _ h0, dec45, h1, h2, h3, h4]

theorem ldB128 (d : BitVec 7) (b : BitVec 7) (o : BitVec 7) (l : BitVec 4) : Statement (.ldB128 d b o l) :=
  word_ok rfl fun k hk => by
    obtain ⟨h0, h1, h2, h3, h4⟩ := lay11 0x8c000000 70 d b o l (by decide) rfl k hk
    rw [at_46 _ h0, dec46, h1, h2, h3, h4]

theorem ldAcqB32 (d : BitVec 7) (b : BitVec 7) (o : BitVec 7) (l : BitVec 4) : Statement (.ldAcqB32 d b o l) :=
  word_ok rfl fun k hk => by
    obtain ⟨h0, h1, h2, h3, h4⟩ := lay11 0x8e000000 71 d b o l (by decide) rfl k hk
    rw [at_47 _ h0, dec47, h1, h2, h3, h4]

theorem ldAcqB64 (d : BitVec 7) (b : BitVec 7) (o : BitVec 7) (l : BitVec 4) : Statement (.ldAcqB64 d b o l) :=
  word_ok rfl fun k hk => by
    obtain ⟨h0, h1, h2, h3, h4⟩ := lay11 0x90000000 72 d b o l (by decide) rfl k hk
    rw [at_48 _ h0, dec48, h1, h2, h3, h4]

theorem ldpB32 (d : BitVec 7) (b : BitVec 7) (o : BitVec 7) (l : BitVec 4) : Statement (.ldpB32 d b o l) :=
  word_ok rfl fun k hk => by
    obtain ⟨h0, h1, h2, h3, h4⟩ := lay11 0x92000000 73 d b o l (by decide) rfl k hk
    rw [at_49 _ h0, dec49, h1, h2, h3, h4]

theorem ldpB64 (d : BitVec 7) (b : BitVec 7) (o : BitVec 7) (l : BitVec 4) : Statement (.ldpB64 d b o l) :=
  word_ok rfl fun k hk => by
    obtain ⟨h0, h1, h2, h3, h4⟩ := lay11 0x94000000 74 d b o l (by decide) rfl k hk
    rw [at_4A _ h0, dec4A, h1, h2, h3, h4]

theorem stB8 (d : BitVec 7) (b : BitVec 7) (o : BitVec 7) (l : BitVec 4) : Statement (.stB8 d b o l) :=
  word_ok rfl fun k hk => by
    obtain ⟨h0, h1, h2, h3, h4⟩ := lay11 0x96000000 75 d b o l (by decide) rfl k hk
    rw [at_4B _ h0, dec4B, h1, h2, h3, h4]

theorem stB16 (d : BitVec 7) (b : BitVec 7) (o : BitVec 7) (l : BitVec 4) : Statement (.stB16 d b o l) :=
  word_ok rfl fun k hk => by
    obtain ⟨h0, h1, h2, h3, h4⟩ := lay11 0x98000000 76 d b o l (by decide) rfl k hk
    rw [at_4C _ h0, dec4C, h1, h2, h3, h4]

theorem stB32 (d : BitVec 7) (b : BitVec 7) (o : BitVec 7) (l : BitVec 4) : Statement (.stB32 d b o l) :=
  word_ok rfl fun k hk => by
    obtain ⟨h0, h1, h2, h3, h4⟩ := lay11 0x9a000000 77 d b o l (by decide) rfl k hk
    rw [at_4D _ h0, dec4D, h1, h2, h3, h4]

theorem stB64 (d : BitVec 7) (b : BitVec 7) (o : BitVec 7) (l : BitVec 4) : Statement (.stB64 d b o l) :=
  word_ok rfl fun k hk => by
    obtain ⟨h0, h1, h2, h3, h4⟩ := lay11 0x9c000000 78 d b o l (by decide) rfl k hk
    rw [at_4E _ h0, dec4E, h1, h2, h3, h4]

theorem stB128 (d : BitVec 7) (b : BitVec 7) (o : BitVec 7) (l : BitVec 4) : Statement (.stB128 d b o l) :=
  word_ok rfl fun k hk => by
    obtain ⟨h0, h1, h2, h3, h4⟩ := lay11 0x9e000000 79 d b o l (by decide) rfl k hk
    rw [at_4F _ h0, dec4F, h1, h2, h3, h4]

theorem stRelB32 (d : BitVec 7) (b : BitVec 7) (o : BitVec 7) (l : BitVec 4) : Statement (.stRelB32 d b o l) :=
  word_ok rfl fun k hk => by
    obtain ⟨h0, h1, h2, h3, h4⟩ := lay11 0xa0000000 80 d b o l (by decide) rfl k hk
    rw [at_50 _ h0, dec50, h1, h2, h3, h4]

theorem stRelB64 (d : BitVec 7) (b : BitVec 7) (o : BitVec 7) (l : BitVec 4) : Statement (.stRelB64 d b o l) :=
  word_ok rfl fun k hk => by
    obtain ⟨h0, h1, h2, h3, h4⟩ := lay11 0xa2000000 81 d b o l (by decide) rfl k hk
    rw [at_51 _ h0, dec51, h1, h2, h3, h4]

theorem prefetch (b : BitVec 7) (o : BitVec 7) (l : BitVec 4) : Statement (.prefetch b o l) :=
  word_ok rfl fun k hk => by
    obtain ⟨h0, h1, h2, h3, h4⟩ := lay20 0xa4000000 82 0 b o l (by decide) (by decide) rfl k hk
    rw [at_52 _ h0, dec52, h1, h2, h3, h4]
    rfl

theorem cinvLine (b : BitVec 7) (o : BitVec 7) (l : BitVec 4) : Statement (.cinvLine b o l) :=
  word_ok rfl fun k hk => by
    obtain ⟨h0, h1, h2, h3, h4⟩ := lay20 0xa4040000 82 1 b o l (by decide) (by decide) rfl k hk
    rw [at_52 _ h0, dec52, h1, h2, h3, h4]
    rfl

theorem cflushLine (b : BitVec 7) (o : BitVec 7) (l : BitVec 4) : Statement (.cflushLine b o l) :=
  word_ok rfl fun k hk => by
    obtain ⟨h0, h1, h2, h3, h4⟩ := lay20 0xa4080000 82 2 b o l (by decide) (by decide) rfl k hk
    rw [at_52 _ h0, dec52, h1, h2, h3, h4]
    rfl

theorem cinvPage (b : BitVec 7) (o : BitVec 7) (l : BitVec 4) : Statement (.cinvPage b o l) :=
  word_ok rfl fun k hk => by
    obtain ⟨h0, h1, h2, h3, h4⟩ := lay20 0xa40c0000 82 3 b o l (by decide) (by decide) rfl k hk
    rw [at_52 _ h0, dec52, h1, h2, h3, h4]
    rfl

theorem atomAdd32 (d : BitVec 7) (b : BitVec 7) (o : BitVec 7) (l : BitVec 4) : Statement (.atomAdd32 d b o l) :=
  word_ok rfl fun k hk => by
    obtain ⟨h0, h1, h2, h3, h4⟩ := lay11 0xa6000000 83 d b o l (by decide) rfl k hk
    rw [at_53 _ h0, dec53, h1, h2, h3, h4]

theorem atomAdd64 (d : BitVec 7) (b : BitVec 7) (o : BitVec 7) (l : BitVec 4) : Statement (.atomAdd64 d b o l) :=
  word_ok rfl fun k hk => by
    obtain ⟨h0, h1, h2, h3, h4⟩ := lay11 0xa8000000 84 d b o l (by decide) rfl k hk
    rw [at_54 _ h0, dec54, h1, h2, h3, h4]

theorem atomMinI32 (d : BitVec 7) (b : BitVec 7) (o : BitVec 7) (l : BitVec 4) : Statement (.atomMinI32 d b o l) :=
  word_ok rfl fun k hk => by
    obtain ⟨h0, h1, h2, h3, h4⟩ := lay11 0xaa000000 85 d b o l (by decide) rfl k hk
    rw [at_55 _ h0, dec55, h1, h2, h3, h4]

theorem atomMaxI32 (d : BitVec 7) (b : BitVec 7) (o : BitVec 7) (l : BitVec 4) : Statement (.atomMaxI32 d b o l) :=
  word_ok rfl fun k hk => by
    obtain ⟨h0, h1, h2, h3, h4⟩ := lay11 0xac000000 86 d b o l (by decide) rfl k hk
    rw [at_56 _ h0, dec56, h1, h2, h3, h4]

theorem atomMinN32 (d : BitVec 7) (b : BitVec 7) (o : BitVec 7) (l : BitVec 4) : Statement (.atomMinN32 d b o l) :=
  word_ok rfl fun k hk => by
    obtain ⟨h0, h1, h2, h3, h4⟩ := lay11 0xae000000 87 d b o l (by decide) rfl k hk
    rw [at_57 _ h0, dec57, h1, h2, h3, h4]

theorem atomMaxN32 (d : BitVec 7) (b : BitVec 7) (o : BitVec 7) (l : BitVec 4) : Statement (.atomMaxN32 d b o l) :=
  word_ok rfl fun k hk => by
    obtain ⟨h0, h1, h2, h3, h4⟩ := lay11 0xb0000000 88 d b o l (by decide) rfl k hk
    rw [at_58 _ h0, dec58, h1, h2, h3, h4]

theorem atomAnd (d : BitVec 7) (b : BitVec 7) (o : BitVec 7) (l : BitVec 4) : Statement (.atomAnd d b o l) :=
  word_ok rfl fun k hk => by
    obtain ⟨h0, h1, h2, h3, h4⟩ := lay11 0xb2000000 89 d b o l (by decide) rfl k hk
    rw [at_59 _ h0, dec59, h1, h2, h3, h4]

theorem atomOr (d : BitVec 7) (b : BitVec 7) (o : BitVec 7) (l : BitVec 4) : Statement (.atomOr d b o l) :=
  word_ok rfl fun k hk => by
    obtain ⟨h0, h1, h2, h3, h4⟩ := lay11 0xb4000000 90 d b o l (by decide) rfl k hk
    rw [at_5A _ h0, dec5A, h1, h2, h3, h4]

theorem atomXor (d : BitVec 7) (b : BitVec 7) (o : BitVec 7) (l : BitVec 4) : Statement (.atomXor d b o l) :=
  word_ok rfl fun k hk => by
    obtain ⟨h0, h1, h2, h3, h4⟩ := lay11 0xb6000000 91 d b o l (by decide) rfl k hk
    rw [at_5B _ h0, dec5B, h1, h2, h3, h4]

theorem atomXchg32 (d : BitVec 7) (b : BitVec 7) (o : BitVec 7) (l : BitVec 4) : Statement (.atomXchg32 d b o l) :=
  word_ok rfl fun k hk => by
    obtain ⟨h0, h1, h2, h3, h4⟩ := lay11 0xb8000000 92 d b o l (by decide) rfl k hk
    rw [at_5C _ h0, dec5C, h1, h2, h3, h4]

theorem atomXchg64 (d : BitVec 7) (b : BitVec 7) (o : BitVec 7) (l : BitVec 4) : Statement (.atomXchg64 d b o l) :=
  word_ok rfl fun k hk => by
    obtain ⟨h0, h1, h2, h3, h4⟩ := lay11 0xba000000 93 d b o l (by decide) rfl k hk
    rw [at_5D _ h0, dec5D, h1, h2, h3, h4]

theorem atomCas32 (d : BitVec 7) (b : BitVec 7) (o : BitVec 7) (l : BitVec 4) : Statement (.atomCas32 d b o l) :=
  word_ok rfl fun k hk => by
    obtain ⟨h0, h1, h2, h3, h4⟩ := lay11 0xbc000000 94 d b o l (by decide) rfl k hk
    rw [at_5E _ h0, dec5E, h1, h2, h3, h4]

theorem atomCas64 (d : BitVec 7) (b : BitVec 7) (o : BitVec 7) (l : BitVec 4) : Statement (.atomCas64 d b o l) :=
  word_ok rfl fun k hk => by
    obtain ⟨h0, h1, h2, h3, h4⟩ := lay11 0xbe000000 95 d b o l (by decide) rfl k hk
    rw [at_5F _ h0, dec5F, h1, h2, h3, h4]

theorem atomFaddF32 (d : BitVec 7) (b : BitVec 7) (o : BitVec 7) (l : BitVec 4) : Statement (.atomFaddF32 d b o l) :=
  word_ok rfl fun k hk => by
    obtain ⟨h0, h1, h2, h3, h4⟩ := lay11 0xc0000000 96 d b o l (by decide) rfl k hk
    rw [at_60 _ h0, dec60, h1, h2, h3, h4]

theorem fence (i : BitVec 14) : Statement (.fence i) :=
  word_ok rfl fun k hk => by
    obtain ⟨h0, h1, h2, h3⟩ := lay3 0xc2000000 97 0 i (by decide) (by decide) rfl k hk
    rw [at_61 _ h0, dec61, h1, h2]
    exact needZero_ok h3

theorem mwait (d : BitVec 7) (b : BitVec 7) (o : BitVec 7) (c : BitVec 4) : Statement (.mwait d b o c) :=
  word_ok rfl fun k hk => by
    obtain ⟨h0, h1, h2, h3, h4⟩ := lay11 0xc4000000 98 d b o c (by decide) rfl k hk
    rw [at_62 _ h0, dec62, h1, h2, h3, h4]

theorem barTeam : Statement .barTeam :=
  word_ok rfl fun k hk => by
    obtain ⟨h0, h1, h2⟩ := lay2 0xc6000000 99 0 (by decide) (by decide) rfl k hk
    rw [at_63 _ h0, dec63, h1]
    exact needZero_ok h2

theorem barRole : Statement .barRole :=
  word_ok rfl fun k hk => by
    obtain ⟨h0, h1, h2⟩ := lay2 0xc6000001 99 1 (by decide) (by decide) rfl k hk
    rw [at_63 _ h0, dec63, h1]
    exact needZero_ok h2

theorem musArm (d : BitVec 7) (b : BitVec 7) (o : BitVec 7) (l : BitVec 4) : Statement (.musArm d b o l) :=
  word_ok rfl fun k hk => by
    obtain ⟨h0, h1, h2, h3, h4⟩ := lay11 0xc8000000 100 d b o l (by decide) rfl k hk
    rw [at_64 _ h0, dec64, h1, h2, h3, h4]

theorem musJoin (d : BitVec 7) (b : BitVec 7) (o : BitVec 7) (l : BitVec 4) : Statement (.musJoin d b o l) :=
  word_ok rfl fun k hk => by
    obtain ⟨h0, h1, h2, h3, h4⟩ := lay11 0xca000000 101 d b o l (by decide) rfl k hk
    rw [at_65 _ h0, dec65, h1, h2, h3, h4]

theorem musOwe (d : BitVec 7) (b : BitVec 7) (o : BitVec 7) (l : BitVec 4) : Statement (.musOwe d b o l) :=
  word_ok rfl fun k hk => by
    obtain ⟨h0, h1, h2, h3, h4⟩ := lay11 0xcc000000 102 d b o l (by decide) rfl k hk
    rw [at_66 _ h0, dec66, h1, h2, h3, h4]

theorem musHold (d : BitVec 7) (b : BitVec 7) (o : BitVec 7) (l : BitVec 4) : Statement (.musHold d b o l) :=
  word_ok rfl fun k hk => by
    obtain ⟨h0, h1, h2, h3, h4⟩ := lay11 0xce000000 103 d b o l (by decide) rfl k hk
    rw [at_67 _ h0, dec67, h1, h2, h3, h4]

theorem tdef (d : BitVec 7) (t : BitVec 6) (l : BitVec 4) : Statement (.tdef d t l) :=
  word_ok rfl fun k hk => by
    obtain ⟨h0, h1, h2, h3, h4⟩ := lay21 0xd0000000 104 d t l (by decide) rfl k hk
    rw [at_68 _ h0, dec68, h1, h2, h3]
    exact needZero_ok h4

theorem town (d : BitVec 7) (a : BitVec 7) (l : BitVec 4) : Statement (.town d a l) :=
  word_ok rfl fun k hk => by
    obtain ⟨h0, h1, h2, h3, h4, h5⟩ := lay19 0xd2000000 105 0 d a l (by decide) (by decide) rfl k hk
    rw [at_69 _ h0, dec69, h1, h2, h3, h4]
    exact needZero_ok h5

theorem twait (a : BitVec 7) (l : BitVec 4) : Statement (.twait a l) :=
  word_ok rfl fun k hk => by
    obtain ⟨h0, h1, h2, h3, h4⟩ := lay22 0xd2000001 105 1 a l (by decide) (by decide) rfl k hk
    rw [at_69 _ h0, dec69, h1, h2, h3]
    exact needZero_ok h4

theorem tgive (a : BitVec 7) (l : BitVec 4) : Statement (.tgive a l) :=
  word_ok rfl fun k hk => by
    obtain ⟨h0, h1, h2, h3, h4⟩ := lay22 0xd2000002 105 2 a l (by decide) (by decide) rfl k hk
    rw [at_69 _ h0, dec69, h1, h2, h3]
    exact needZero_ok h4

theorem cpy (d : BitVec 7) (c : BitVec 3) (l : BitVec 4) : Statement (.cpy d c l) :=
  word_ok rfl fun k hk => by
    obtain ⟨h0, h1, h2, h3, h4⟩ := lay23 0xd4000000 106 d c l (by decide) rfl k hk
    rw [at_6A _ h0, dec6A, h1, h2, h3]
    exact needZero_ok h4

theorem cpyg (d : BitVec 7) (i : BitVec 7) (c : BitVec 3) (l : BitVec 4) : Statement (.cpyg d i c l) :=
  word_ok rfl fun k hk => by
    obtain ⟨h0, h1, h2, h3, h4, h5⟩ := lay24 0xd6000000 107 d i c l (by decide) rfl k hk
    rw [at_6B _ h0, dec6B, h1, h2, h3, h4]
    exact needZero_ok h5

theorem cpyc (d : BitVec 7) (c : BitVec 3) (l : BitVec 4) : Statement (.cpyc d c l) :=
  word_ok rfl fun k hk => by
    obtain ⟨h0, h1, h2, h3, h4⟩ := lay23 0xd8000000 108 d c l (by decide) rfl k hk
    rw [at_6C _ h0, dec6C, h1, h2, h3]
    exact needZero_ok h4

theorem rdwp (d : BitVec 7) (a : BitVec 7) (l : BitVec 4) : Statement (.rdwp d a l) :=
  word_ok rfl fun k hk => by
    obtain ⟨h0, h1, h2, h3, h4, h5⟩ := lay19 0xda000000 109 0 d a l (by decide) (by decide) rfl k hk
    rw [at_6D _ h0, dec6D, h1, h2, h3, h4]
    exact needZero_ok h5

theorem rdcsum (d : BitVec 7) (a : BitVec 7) (l : BitVec 4) : Statement (.rdcsum d a l) :=
  word_ok rfl fun k hk => by
    obtain ⟨h0, h1, h2, h3, h4, h5⟩ := lay19 0xda000001 109 1 d a l (by decide) (by decide) rfl k hk
    rw [at_6D _ h0, dec6D, h1, h2, h3, h4]
    exact needZero_ok h5

theorem selk (d : BitVec 7) (c : BitVec 3) (l : BitVec 4) : Statement (.selk d c l) :=
  word_ok rfl fun k hk => by
    obtain ⟨h0, h1, h2, h3, h4⟩ := lay23 0xdc000000 110 d c l (by decide) rfl k hk
    rw [at_6E _ h0, dec6E, h1, h2, h3]
    exact needZero_ok h4

theorem qput (q : BitVec 7) (a : BitVec 7) (l : BitVec 4) : Statement (.qput q a l) :=
  word_ok rfl fun k hk => by
    obtain ⟨h0, h1, h2, h3, h4, h5⟩ := lay19 0xde000000 111 0 q a l (by decide) (by decide) rfl k hk
    rw [at_6F _ h0, dec6F, h1, h2, h3, h4]
    exact needZero_ok h5

theorem qget (d : BitVec 7) (q : BitVec 7) (l : BitVec 4) : Statement (.qget d q l) :=
  word_ok rfl fun k hk => by
    obtain ⟨h0, h1, h2, h3, h4, h5⟩ := lay19 0xde000001 111 1 d q l (by decide) (by decide) rfl k hk
    rw [at_6F _ h0, dec6F, h1, h2, h3, h4]
    exact needZero_ok h5

theorem qtry (d : BitVec 7) (q : BitVec 7) (m : BitVec 7) : Statement (.qtry d q m) :=
  word_ok rfl fun k hk => by
    obtain ⟨h0, h1, h2, h3, h4⟩ := lay10 0xde000002 111 2 d q m (by decide) (by decide) rfl k hk
    rw [at_6F _ h0, dec6F, h1, h2, h3, h4]
    rfl

theorem qlen (d : BitVec 7) (q : BitVec 7) (l : BitVec 4) : Statement (.qlen d q l) :=
  word_ok rfl fun k hk => by
    obtain ⟨h0, h1, h2, h3, h4, h5⟩ := lay19 0xde000003 111 3 d q l (by decide) (by decide) rfl k hk
    rw [at_6F _ h0, dec6F, h1, h2, h3, h4]
    exact needZero_ok h5

theorem fput (d : BitVec 7) (b : BitVec 7) (o : BitVec 7) (l : BitVec 4) : Statement (.fput d b o l) :=
  word_ok rfl fun k hk => by
    obtain ⟨h0, h1, h2, h3, h4⟩ := lay11 0xe0000000 112 d b o l (by decide) rfl k hk
    rw [at_70 _ h0, dec70, h1, h2, h3, h4]

theorem fsig (d : BitVec 7) (b : BitVec 7) (o : BitVec 7) (l : BitVec 4) : Statement (.fsig d b o l) :=
  word_ok rfl fun k hk => by
    obtain ⟨h0, h1, h2, h3, h4⟩ := lay11 0xe2000000 113 d b o l (by decide) rfl k hk
    rw [at_71 _ h0, dec71, h1, h2, h3, h4]

theorem mzero (a : BitVec 7) : Statement (.mzero a) :=
  word_ok rfl fun k hk => by
    obtain ⟨h0, h1, h2, h3⟩ := lay7 0xf0000000 120 0 a (by decide) (by decide) rfl k hk
    rw [at_78 _ h0, dec78, h1, h2]
    exact needZero_ok h3

theorem mlda (d : BitVec 7) (b : BitVec 7) (o : BitVec 7) (l : BitVec 4) : Statement (.mlda d b o l) :=
  word_ok rfl fun k hk => by
    obtain ⟨h0, h1, h2, h3, h4⟩ := lay11 0xf2000000 121 d b o l (by decide) rfl k hk
    rw [at_79 _ h0, dec79, h1, h2, h3, h4]

theorem mbq (d : BitVec 7) : Statement (.mbq d) :=
  word_ok rfl fun k hk => by
    obtain ⟨h0, h1, h2, h3⟩ := lay4 0xf4000000 122 0 d (by decide) (by decide) rfl k hk
    rw [at_7A _ h0, dec7A, h1, h2]
    exact needZero_ok h3

theorem mma (d : BitVec 7) (a : BitVec 7) (b : BitVec 7) (f : BitVec 4) : Statement (.mma d a b f) :=
  word_ok rfl fun k hk => by
    obtain ⟨h0, h1, h2, h3, h4⟩ := lay11 0xf6000000 123 d a b f (by decide) rfl k hk
    rw [at_7B _ h0, dec7B, h1, h2, h3, h4]

theorem mdrain (d : BitVec 7) (a : BitVec 7) (b : BitVec 7) (f : BitVec 4) : Statement (.mdrain d a b f) :=
  word_ok rfl fun k hk => by
    obtain ⟨h0, h1, h2, h3, h4⟩ := lay11 0xf8000000 124 d a b f (by decide) rfl k hk
    rw [at_7C _ h0, dec7C, h1, h2, h3, h4]

theorem mscale (d : BitVec 7) (a : BitVec 7) : Statement (.mscale d a) :=
  word_ok rfl fun k hk => by
    obtain ⟨h0, h1, h2, h3, h4⟩ := lay8 0xfa000000 125 0 d a (by decide) (by decide) rfl k hk
    rw [at_7D _ h0, dec7D, h1, h2, h3]
    exact needZero_ok h4

theorem mdone (d : BitVec 7) : Statement (.mdone d) :=
  word_ok rfl fun k hk => by
    obtain ⟨h0, h1, h2, h3⟩ := lay4 0xfc000000 126 0 d (by decide) (by decide) rfl k hk
    rw [at_7E _ h0, dec7E, h1, h2]
    exact needZero_ok h3

theorem nonInstructionWord (x0 : BitVec 32) : Statement (.nonInstructionWord x0) := no_word rfl

theorem trapDelivery (x0 : Nat) (x1 : Nat) : Statement (.trapDelivery x0 x1) := no_word rfl

theorem spillToBudget (x0 : Nat) (x1 : Nat) : Statement (.spillToBudget x0 x1) := no_word rfl

theorem parkAreaReturn (x0 : Nat) (x1 : Nat) : Statement (.parkAreaReturn x0 x1) := no_word rfl

theorem reconvRelease (x0 : Nat) (x1 : Nat) (x2 : Nat) : Statement (.reconvRelease x0 x1 x2) := no_word rfl

theorem reformDraw (x0 : Nat) (x1 : Nat) : Statement (.reformDraw x0 x1) := no_word rfl

theorem binAgeExpiry (x0 : Nat) (x1 : Nat) : Statement (.binAgeExpiry x0 x1) := no_word rfl

theorem mwaitSatisfy (x0 : Who) (x1 : Nat) : Statement (.mwaitSatisfy x0 x1) := no_word rfl

theorem copyExecute (x0 : Nat) (x1 : Nat) : Statement (.copyExecute x0 x1) := no_word rfl

theorem copyBytesLand (x0 : Nat) (x1 : Nat) (x2 : Nat) : Statement (.copyBytesLand x0 x1 x2) := no_word rfl

theorem copyComplete (x0 : Nat) (x1 : Nat) : Statement (.copyComplete x0 x1) := no_word rfl

theorem cpycRecordFetch (x0 : Nat) (x1 : Nat) : Statement (.cpycRecordFetch x0 x1) := no_word rfl

theorem selkExecute (x0 : Nat) (x1 : Nat) : Statement (.selkExecute x0 x1) := no_word rfl

theorem handBack (x0 : Nat) (x1 : Nat) : Statement (.handBack x0 x1) := no_word rfl

theorem statusEntryPost (x0 : Nat) (x1 : Nat) : Statement (.statusEntryPost x0 x1) := no_word rfl

theorem mzeroExecute (x0 : Nat) : Statement (.mzeroExecute x0) := no_word rfl

theorem mldaExecute (x0 : Nat) : Statement (.mldaExecute x0) := no_word rfl

theorem mmaExecute (x0 : Nat) : Statement (.mmaExecute x0) := no_word rfl

theorem mdrainExecute (x0 : Nat) : Statement (.mdrainExecute x0) := no_word rfl

theorem mscaleExecute (x0 : Nat) : Statement (.mscaleExecute x0) := no_word rfl

theorem masonAppend (x0 : Nat) : Statement (.masonAppend x0) := no_word rfl

theorem masonSeal (x0 : Nat) (x1 : Nat) : Statement (.masonSeal x0 x1) := no_word rfl

theorem quarryWakeTokenPost (x0 : BitVec 32) : Statement (.quarryWakeTokenPost x0) := no_word rfl

theorem storageProcessorRestart : Statement .storageProcessorRestart := no_word rfl

theorem fabricPacketSend (x0 : Nat) (x1 : Nat) (x2 : Nat) : Statement (.fabricPacketSend x0 x1 x2) := no_word rfl

theorem fabricPacketReceive (x0 : Packet) : Statement (.fabricPacketReceive x0) := no_word rfl

theorem pennantApply (x0 : Nat) : Statement (.pennantApply x0) := no_word rfl

theorem fabricAckReceive (x0 : Nat) : Statement (.fabricAckReceive x0) := no_word rfl

theorem fabricNackReceive (x0 : Nat) : Statement (.fabricNackReceive x0) := no_word rfl

theorem fabricRtoExpiry (x0 : Nat) (x1 : Nat) (x2 : Nat) : Statement (.fabricRtoExpiry x0 x1 x2) := no_word rfl

theorem portLinkDown (x0 : Nat) (x1 : Nat) (x2 : Nat) : Statement (.portLinkDown x0 x1 x2) := no_word rfl

theorem pathProbeTimer (x0 : BitVec 20) (x1 : Nat) (x2 : Nat) (x3 : Bool) : Statement (.pathProbeTimer x0 x1 x2 x3) := no_word rfl

theorem statusNoticeReceive (x0 : BitVec 20) (x1 : BitVec 8) (x2 : BitVec 2) : Statement (.statusNoticeReceive x0 x1 x2) := no_word rfl

theorem statusNoticeResend (x0 : List (BitVec 20)) : Statement (.statusNoticeResend x0) := no_word rfl

theorem selfstWrite (x0 : BitVec 32) : Statement (.selfstWrite x0) := no_word rfl

theorem create (x0 : Nat) (x1 : BitVec 32) : Statement (.create x0 x1) := no_word rfl

theorem destroy (x0 : Nat) (x1 : BitVec 32) : Statement (.destroy x0 x1) := no_word rfl

theorem kill (x0 : Nat) (x1 : BitVec 32) : Statement (.kill x0 x1) := no_word rfl

theorem killctx (x0 : Nat) (x1 : BitVec 32) : Statement (.killctx x0 x1) := no_word rfl

theorem importImage (x0 : Nat) (x1 : BitVec 32) : Statement (.importImage x0 x1) := no_word rfl

theorem exportImage (x0 : Nat) (x1 : BitVec 32) : Statement (.exportImage x0 x1) := no_word rfl

theorem free (x0 : Nat) (x1 : BitVec 32) : Statement (.free x0 x1) := no_word rfl

theorem launchDoorbell (x0 : Nat) (x1 : Nat) (x2 : BitVec 32) : Statement (.launchDoorbell x0 x1 x2) := no_word rfl

theorem eventDoorbell (x0 : Nat) : Statement (.eventDoorbell x0) := no_word rfl

theorem launchRecordTake (x0 : Nat) (x1 : Nat) : Statement (.launchRecordTake x0 x1) := no_word rfl

theorem teamPlace (x0 : Nat) : Statement (.teamPlace x0) := no_word rfl

theorem preemptDeadlineExpiry (x0 : Nat) : Statement (.preemptDeadlineExpiry x0) := no_word rfl

theorem scanImageComplete (x0 : Nat) : Statement (.scanImageComplete x0) := no_word rfl

theorem teamSave (x0 : Nat) : Statement (.teamSave x0) := no_word rfl

theorem imageRestore (x0 : Nat) (x1 : Nat) : Statement (.imageRestore x0 x1) := no_word rfl

theorem completionRecordWrite : Statement .completionRecordWrite := no_word rfl

theorem eventCoalesceTimer : Statement .eventCoalesceTimer := no_word rfl

theorem irqvWrite (x0 : Nat) (x1 : BitVec 128) : Statement (.irqvWrite x0 x1) := no_word rfl

theorem sbankctlWrite (x0 : Nat) (x1 : Nat) (x2 : BitVec 32) : Statement (.sbankctlWrite x0 x1 x2) := no_word rfl

theorem sbankDrainComplete (x0 : Nat) (x1 : Nat) : Statement (.sbankDrainComplete x0 x1) := no_word rfl

theorem inval : Statement .inval := no_word rfl

theorem replay : Statement .replay := no_word rfl

theorem swap : Statement .swap := no_word rfl

theorem swapLineExchange (x0 : Nat) (x1 : Nat) : Statement (.swapLineExchange x0 x1) := no_word rfl

theorem swapfree : Statement .swapfree := no_word rfl

theorem mapout : Statement .mapout := no_word rfl

theorem mapend : Statement .mapend := no_word rfl

theorem extrel : Statement .extrel := no_word rfl

theorem qtrim : Statement .qtrim := no_word rfl

theorem zeroEngineDone (x0 : Nat) : Statement (.zeroEngineDone x0) := no_word rfl

theorem faultRecordWrite : Statement .faultRecordWrite := no_word rfl

theorem notificationPost : Statement .notificationPost := no_word rfl

theorem extentAdd (x0 : Nat) (x1 : Nat) (x2 : BitVec 64) (x3 : BitVec 64) : Statement (.extentAdd x0 x1 x2 x3) := no_word rfl

theorem extentReleaseRequest (x0 : Nat) : Statement (.extentReleaseRequest x0) := no_word rfl

theorem extentSurpriseRemoval (x0 : Nat) (x1 : List Nat) : Statement (.extentSurpriseRemoval x0 x1) := no_word rfl

theorem peerMemoryRequest (x0 : BitVec 16) (x1 : Option (BitVec 20)) (x2 : BitVec 64) (x3 : Nat) (x4 : Option (List (BitVec 8))) : Statement (.peerMemoryRequest x0 x1 x2 x3 x4) := no_word rfl

theorem atsTranslationRequest (x0 : BitVec 16) (x1 : Option (BitVec 20)) (x2 : BitVec 64) : Statement (.atsTranslationRequest x0 x1 x2) := no_word rfl

theorem linkTraining (x0 : Nat) : Statement (.linkTraining x0) := no_word rfl

theorem haltOp (x0 : BitVec 32) : Statement (.haltOp x0) := no_word rfl

theorem resume (x0 : BitVec 32) : Statement (.resume x0) := no_word rfl

theorem freeze (x0 : BitVec 32) : Statement (.freeze x0) := no_word rfl

theorem thaw (x0 : BitVec 32) : Statement (.thaw x0) := no_word rfl

theorem halyardDoorbell (x0 : BitVec 64) : Statement (.halyardDoorbell x0) := no_word rfl

theorem sampleTimer (x0 : Nat) : Statement (.sampleTimer x0) := no_word rfl

theorem watchdogHangDeclare (x0 : Who) : Statement (.watchdogHangDeclare x0) := no_word rfl

theorem packageReset : Statement .packageReset := no_word rfl

theorem powerLoss (x0 : List Nat) : Statement (.powerLoss x0) := no_word rfl

theorem svnWrite (x0 : BitVec 32) : Statement (.svnWrite x0) := no_word rfl

theorem measurementExtend (x0 : Nat) : Statement (.measurementExtend x0) := no_word rfl

theorem attestationReport (x0 : BitVec 32) : Statement (.attestationReport x0) := no_word rfl

theorem getCertificate : Statement .getCertificate := no_word rfl

theorem challenge (x0 : BitVec 256) : Statement (.challenge x0) := no_word rfl

theorem getMeasurements : Statement .getMeasurements := no_word rfl

theorem pldmDiscovery : Statement .pldmDiscovery := no_word rfl

theorem pldmSensorRead (x0 : Nat) : Statement (.pldmSensorRead x0) := no_word rfl

theorem pldmFirmwareUpdate (x0 : Nat) (x1 : List (BitVec 8)) : Statement (.pldmFirmwareUpdate x0 x1) := no_word rfl

theorem offline (x0 : Nat) : Statement (.offline x0) := no_word rfl

theorem test (x0 : Nat) : Statement (.test x0) := no_word rfl

theorem online (x0 : Nat) : Statement (.online x0) := no_word rfl

theorem retire (x0 : Nat) : Statement (.retire x0) := no_word rfl

theorem clusterDrainComplete (x0 : Nat) : Statement (.clusterDrainComplete x0) := no_word rfl

theorem clusterTestComplete (x0 : Nat) (x1 : List TestFail) : Statement (.clusterTestComplete x0 x1) := no_word rfl

theorem save : Statement .save := no_word rfl

theorem checkpointSaveComplete : Statement .checkpointSaveComplete := no_word rfl

theorem load : Statement .load := no_word rfl

theorem abort : Statement .abort := no_word rfl

theorem clockThrottleStep (x0 : BitVec 16) (x1 : BitVec 16) : Statement (.clockThrottleStep x0 x1) := no_word rfl

theorem thermalTrip (x0 : BitVec 16) : Statement (.thermalTrip x0) := no_word rfl

theorem registerWrite (x0 : Nat) (x1 : BitVec 64) : Statement (.registerWrite x0 x1) := no_word rfl

theorem longLatencyComplete (x0 : Who) (x1 : Nat) : Statement (.longLatencyComplete x0 x1) := no_word rfl

theorem quadrantCycle : Statement .quadrantCycle := no_word rfl

theorem hostCoreAccess (x0 : Nat) (x1 : BitVec 64) (x2 : Nat) (x3 : Option (List (BitVec 8))) : Statement (.hostCoreAccess x0 x1 x2 x3) := no_word rfl

theorem atsInvalidationCompletion : Statement .atsInvalidationCompletion := no_word rfl

theorem portLinkUp (x0 : Nat) : Statement (.portLinkUp x0) := no_word rfl

theorem orderlyShutdown : Statement .orderlyShutdown := no_word rfl

theorem uncorrectedError (x0 : ErrSite) : Statement (.uncorrectedError x0) := no_word rfl

end Sys2Proof.Laws.Encoding
end

