-- ==== Sys2Proof/Laws/Results.lean ====
section
/-!
SUPPORT. What an instruction's effect sees after its operands were filled back is what it saw before (fillOps changes no value), and what the common
forms of results give lane by lane.
-/

namespace Sys2Proof.Machine

section view

variable (c : Ctx) (i : Instr)

@[simp] theorem view_act : (fillOps c i).act = c.act := fillOps_act c i
@[simp] theorem view_path : (fillOps c i).path = c.path := fillOps_path c i
@[simp] theorem view_pc : (fillOps c i).pc = c.pc := fillOps_pc c i
@[simp] theorem view_t : (fillOps c i).t = c.t := fillOps_t c i
@[simp] theorem view_key : (fillOps c i).g.key = c.g.key := (fillOps_same c i).key
@[simp] theorem view_who : (fillOps c i).g.who = c.g.who := (fillOps_same c i).who
@[simp] theorem view_team : (fillOps c i).g.team = c.g.team := (fillOps_same c i).team
@[simp] theorem view_masks : (fillOps c i).g.masks = c.g.masks := (fillOps_same c i).masks
@[simp] theorem view_lanes : (fillOps c i).g.lanes = c.g.lanes := (fillOps_same c i).lanes
@[simp] theorem view_winb : (fillOps c i).g.winb = c.g.winb := (fillOps_same c i).winb
@[simp] theorem view_fpcr : (fillOps c i).g.fpcr = c.g.fpcr := by rw [(fillOps_same c i).eq]
@[simp] theorem view_mask (m : Nat) : (fillOps c i).g.mask m = c.g.mask m := by unfold Group.mask; rw [view_masks]
@[simp] theorem view_live : (fillOps c i).g.live = c.g.live := live_of_lanes (view_lanes c i)
@[simp] theorem view_lane (l : Nat) : (fillOps c i).g.lane l = c.g.lane l := by unfold Group.lane; rw [view_lanes]
@[simp] theorem view_shape (r : Nat) : ((fillOps c i).g.reg r).shape = (c.g.reg r).shape := fillOps_shape c i r
@[simp] theorem view_r (f : Nat) : (fillOps c i).r f = c.r f := by unfold Ctx.r regOf; rw [view_key, view_winb]
@[simp] theorem view_rf (f : Nat) : regOf (fillOps c i).g f = regOf c.g f := by unfold regOf; rw [view_key, view_winb]
@[simp] theorem view_pairRes (d : BitVec 7) (u : Bool) (f : Nat → W64) : pairRes (fillOps c i) d u f = pairRes c d u f := by
  unfold pairRes; rw [view_r, view_r]
@[simp] theorem view_uRes (d : BitVec 7) (v : W32) : uRes (fillOps c i) d v = uRes c d v := by unfold uRes; rw [view_r]
@[simp] theorem view_sh (f : BitVec 7) : (fillOps c i).sh f = c.sh f := by unfold Ctx.sh; rw [view_r, view_shape]
@[simp] theorem view_lv (f : BitVec 7) (l : Nat) : (fillOps c i).lv f l = c.lv f l := by unfold Ctx.lv; rw [view_sh]
@[simp] theorem view_lvk (f : BitVec 7) (k l : Nat) : (fillOps c i).lvk f k l = c.lvk f k l := by unfold Ctx.lvk; rw [view_r, view_shape]
@[simp] theorem view_pv (f : BitVec 7) (l : Nat) : (fillOps c i).pv f l = c.pv f l := by unfold Ctx.pv; rw [view_lvk, view_lvk]
@[simp] theorem view_uv (f : BitVec 7) : (fillOps c i).uv f = c.uv f := view_lv c i f 0
@[simp] theorem view_pairU (f : BitVec 7) : (fillOps c i).pairU f = c.pairU f := by unfold Ctx.pairU; rw [view_sh, view_r, view_shape]
@[simp] theorem view_lanesOf : (fillOps c i).lanes = c.lanes := by unfold Ctx.lanes; rw [view_act]
@[simp] theorem view_first : (fillOps c i).first = c.first := by unfold Ctx.first; rw [view_act]
@[simp] theorem view_rm : (fillOps c i).rm = c.rm := by unfold Ctx.rm; rw [view_fpcr]
@[simp] theorem view_f32 (f : BitVec 7) (l : Nat) : (fillOps c i).f32 f l = c.f32 f l := by unfold Ctx.f32; rw [view_lv]
@[simp] theorem view_f64 (f : BitVec 7) (l : Nat) : (fillOps c i).f64 f l = c.f64 f l := by unfold Ctx.f64; rw [view_pv]
@[simp] theorem view_addr (b o : BitVec 7) (k l : Nat) : (fillOps c i).addr b o k l = c.addr b o k l := by
  unfold Ctx.addr Ctx.off; rw [view_pv, view_lv]
@[simp] theorem view_addrU (b o : BitVec 7) : (fillOps c i).addrU b o = c.addrU b o := by unfold Ctx.addrU; rw [view_pairU, view_sh]
@[simp] theorem view_msk (a : BitVec 7) : (fillOps c i).msk a = c.msk a := by unfold Ctx.msk; rw [view_mask]

end view

/-! ## Shapes by lane -/

theorem isU_at {sh : Shape} (h : sh.isU = true) (l k : Nat) : sh.at l = sh.at k := by
  cases sh with
  | u v => rfl
  | a b s => exact absurd h (by simp [Shape.isU])
  | g vs => exact absurd h (by simp [Shape.isU])

/-- The default shape holds the function's values, when the function is the same for every lane wherever the shape is U. -/
theorem at_default (uni : Bool) (f : Nat → W32) (l : Nat) (hl : l < 32) (h : uni = true → f l = f 0) : (defaultShape uni f).at l = f l := by
  unfold defaultShape
  cases uni
  · simp [at_ofFn f l hl]
  · simp [h rfl]

theorem at_shAdd (x y : Shape) (l : Nat) (hl : l < 32) : (shAdd x y).at l = x.at l + y.at l := by
  cases x <;> cases y <;> first | exact at_ofFn _ l hl | (simp only [shAdd, Shape.at]; try ring)

theorem at_shSub (x y : Shape) (l : Nat) (hl : l < 32) : (shSub x y).at l = x.at l - y.at l := by
  cases x <;> cases y <;> first | exact at_ofFn _ l hl | (simp only [shSub, Shape.at]; try ring)

theorem at_shMul (x y : Shape) (l : Nat) (hl : l < 32) : (shMul x y).at l = x.at l * y.at l := by
  cases x <;> cases y <;> first | exact at_ofFn _ l hl | (simp only [shMul, Shape.at]; try ring)

theorem at_shShl (x y : Shape) (l : Nat) (hl : l < 32) : (shShl x y).at l = x.at l <<< ((y.at l).toNat % 32) := by
  have h : ∀ (x : W32) (k : Nat), x <<< k = x * BitVec.ofNat 32 (2 ^ k) := fun x k => by
    rw [BitVec.shiftLeft_eq_mul_twoPow]; congr 1
    apply BitVec.eq_of_toNat_eq; simp [BitVec.toNat_twoPow]
  cases x <;> cases y <;> first | exact at_ofFn _ l hl | (simp only [shShl, Shape.at]; try (rw [h, h, h]; ring))

/-! ## The own group -/

/-- An effect that changes only its own group. -/
theorem touches_mod {s : State} {i : Instr} {c : Ctx} (h : Runs s i c) (f : Group → Group) (hf : ∀ g, (f g).who = g.who) (r : Res) (hw : r.wait = none)
    (hs : r.s = modGroup (fillOps c i).s c.g.who f) : Touches s s i c f r := by
  obtain ⟨hfd, hcs, -⟩ := issuer_find s c h.path
  refine ⟨hw, by rw [hs, ← hcs]; exact fillOps_vault c i, by rw [hs, ← hcs]; exact fillOps_saved c i, by rw [hs], fun k => ?_, ?_, fun G hG => ?_⟩
  · have : teamOf r.s k = teamOf s k := by
      rw [hs]; show teamOf (fillOps c i).s k = _
      unfold teamOf findTeam; rw [fillOps_teams, hcs]
    rw [this]; exact ⟨rfl, rfl⟩
  · rw [hs, ← hcs]; show (fillOps c i).s.cycle = _; unfold fillOps; dsimp only; split <;> rfl
  · have h2 := fillOps_set c i G hG
    rw [hcs] at h2
    have e : ∀ (x : State) (y : Group), setGroup (uncur x) y = uncur (setGroup x y) := fun _ _ => rfl
    rw [e, e, ← h2, hs]
    congr 1
    unfold setGroup modGroup
    simp only
    congr 1
    rw [hG]
    exact mapWhere_mapWhere _ _ _ (fun x hx => by simpa [hf] using hx) _

/-- A path runs an instruction that changes only its own group. -/
theorem run_own {s : State} {i : Instr} {c : Ctx} (h : Runs s i c) (body : Ctx → Res) (r : Res) (f : Group → Group) (n : Nat) (hk : Keeps f n)
   (ds : List (Nat × (Nat → W32))) (he : exec i s = issue i s body) (hb : body (fillOps c i) = r) (hs : r.s = modGroup (fillOps c i).s c.g.who f)
   (hw : r.wait = none) (hh : r.hits = []) (hgv : Gives (after c f r) r.regs ds) (hn : (ds.map (·.1)).Nodup) (hl : 32 * ds.length + n ≤ 256) :
   Completes s s i (after c f r) (r.masks.foldl (fun g (x : Nat × W32) => g.setMask x.1 x.2) (f c.g)).masks r.flags
      (nextPc r c.pc) ds :=
  completes h body r s f n hk ds he hb hh (touches_mod h f hk.who r hw hs) hgv hn hl

/-- Without causes, with every lane written and none set by the effect, claims name the group after the effect. -/
theorem after_plain (c : Ctx) (f : Group → Group) (r : Res) (h1 : r.hits = []) (h2 : r.only = BitVec.allOnes 32) (h3 : r.gone = 0) : after c f r = { c with g := f c.g } := by
  unfold after; rw [stopped_none h1, h2, h3, BitVec.and_allOnes, but_none, but_none, but_none]

/-- A function that leaves alone the name, place, sub-groups and registers of a group. -/
theorem keeps_simple (f : Group → Group) (h1 : ∀ g, (f g).who = g.who) (h2 : ∀ g, (f g).key = g.key) (h3 : ∀ g, (f g).core = g.core) (h4 : ∀ g, (f g).team = g.team)
  (h5 : ∀ g, (f g).idx = g.idx) (h6 : ∀ g, (f g).away = g.away) (h7 : ∀ g, (f g).subs = g.subs) (h8 : ∀ g, (f g).regs = g.regs)
  (h9 : ∀ g h, SameBut g h → SameBut (f g) (f h)) : Keeps f 0 :=
  ⟨h1, fun g => by rw [h2], h3, h4, h5, h6, h7, fun g => by rw [groupSlots_eq, groupSlots_eq, h8]; exact Nat.le_refl _,
    fun g h e hx => ⟨h9 g h e, fun x => by
      have := hx x
      unfold Group.reg at this ⊢
      rw [h8, h8]; exact this⟩⟩

/-- An effect that changes its own group and, outside it, memory only: its operands are in registers. -/
theorem touches_kept {s s' : State} {i : Instr} {c : Ctx} (h : Runs s i c) (hfill : fillOps c i = c) (f : Group → Group)
    (hf : ∀ g, (f g).who = g.who) (r : Res) (hw : r.wait = none) (hk : Kept s s') (hs : r.s = modGroup s' c.g.who f) : Touches s s' i c f r := by
  obtain ⟨-, hcs, -⟩ := issuer_find s c h.path
  refine ⟨hw, by rw [hs]; exact hk.vault, by rw [hs]; exact hk.saved, ?_, fun k => ?_, ?_, fun G hG => ?_⟩
  · rw [hfill, hcs, hs]; show mapWhere _ _ s'.groups = mapWhere _ _ s.groups; rw [hk.groups]
  · have : teamOf r.s k = teamOf s k := by
      unfold teamOf findTeam
      rw [hs]; show (firstWhere _ s'.teams).getD _ = _
      rw [hk.teams]
    rw [this]; exact ⟨rfl, rfl⟩
  · rw [hs]; exact hk.cycle
  · rw [hs]
    show setGroup (modGroup (uncur s') c.g.who f) G = setGroup (uncur s') G
    unfold setGroup modGroup
    simp only
    congr 1
    rw [hG]
    exact mapWhere_mapWhere _ _ _ (fun x hx => by simpa [hf] using hx) _

/-- Replacing a group by itself. -/
theorem modGroup_id (s : State) (w : Who) : modGroup s w (fun g => g) = s := by
  unfold modGroup
  have : mapWhere (fun g => decide (g.who = w)) (fun g : Group => g) s.groups = s.groups := by
    unfold mapWhere
    induction s.groups with
    | nil => rfl
    | cons x l ih => simp
  rw [this]

/-- A path runs an instruction that changes memory and its results: its operands are in registers. -/
theorem run_memory {s s' : State} {i : Instr} {c : Ctx} (h : Runs s i c) (hfill : fillOps c i = c) (body : Ctx → Res) (r : Res)
    (he : exec i s = issue i s body) (hb : body c = r) (hk : Kept s s') (hs : r.s = s') (hw : r.wait = none) (hh : r.hits = [])
    (hgone : r.gone = 0) (honly : r.only = BitVec.allOnes 32) (ds : List (Nat × (Nat → W32))) (hg : Gives c r.regs ds)
    (hn : (ds.map (·.1)).Nodup) (hl : ds.length ≤ 8) :
    Completes s s' i c (r.masks.foldl (fun g (x : Nat × W32) => g.setMask x.1 x.2) c.g).masks r.flags (nextPc r c.pc) ds := by
  have hc : after c (fun g => g) r = c := after_plain c _ r hh honly hgone
  have := completes h body r s' (fun g => g) 0 keeps_id ds he (by rw [hfill]; exact hb) hh
    (touches_kept h hfill _ (fun _ => rfl) r hw hk (by rw [modGroup_id]; exact hs)) (by rw [hc]; exact hg) hn (by omega)
  rwa [hc] at this

/-! ## One result, and a pair -/

/-- The registers of a pair are two. -/
theorem pair_regs (c : Ctx) (d : BitVec 7) : c.r d.toNat ≠ c.r (d.toNat + 1) := by
  unfold Ctx.r regOf
  split <;> omega

theorem gives_pair (c : Ctx) (d : BitVec 7) (uni : Bool) (f : Nat → W64) (h : uni = true → ∀ l, f l = f 0) :
    Gives c (pairRes c d uni f) (destPair c d f) := by
  unfold pairRes destPair pairShapes Gives
  refine .cons ⟨rfl, ?_⟩ (.cons ⟨rfl, ?_⟩ .nil)
  · intro l hl
    cases uni
    · simp [at_ofLanes _ l (hasLane_lt _ _ hl)]
    · simp [h rfl l]
  · intro l hl
    cases uni
    · simp [at_ofLanes _ l (hasLane_lt _ _ hl)]
    · simp [h rfl l]

/-- A path runs an instruction with one 32-bit result. -/
theorem run_one {s : State} {i : Instr} {c : Ctx} (h : Runs s i c) (body : Ctx → Res) (d : BitVec 7) (sh : Shape) (f : Nat → W32) (fl : W32)
    (he : exec i s = issue i s body) (hb : body (fillOps c i) = { s := (fillOps c i).s, regs := [(c.r d.toNat, sh)], flags := fl })
    (hv : ∀ l, l < 32 → hasLane c.act l = true → sh.at l = f l) :
    Completes s s i c c.g.masks fl (fun _ => c.pc + 4) (dest c d f) :=
  runs_regs h body _ (dest c d f) he hb rfl rfl rfl rfl rfl (.cons ⟨rfl, fun l hl => hv l (hasLane_lt _ _ hl) hl⟩ .nil) (by simp [dest])
    (by simp [dest])

/-- A path runs an instruction with a 64-bit result. -/
theorem run_pair {s : State} {i : Instr} {c : Ctx} (h : Runs s i c) (body : Ctx → Res) (d : BitVec 7) (uni : Bool) (f : Nat → W64) (fl : W32)
    (he : exec i s = issue i s body) (hb : body (fillOps c i) = { s := (fillOps c i).s, regs := pairRes c d uni f, flags := fl })
    (hv : uni = true → ∀ l, f l = f 0) :
    Completes s s i c c.g.masks fl (fun _ => c.pc + 4) (destPair c d f) :=
  runs_regs h body _ (destPair c d f) he hb rfl rfl rfl rfl rfl (gives_pair c d uni f hv)
    (by have := pair_regs c d; simp [destPair, this]) (by simp [destPair])

/-- A path runs an instruction with one 32-bit result and no flags. -/
theorem run_value {s : State} {i : Instr} {c : Ctx} (h : Runs s i c) (body : Ctx → Res) (d : BitVec 7) (sh : Shape) (f : Nat → W32)
    (he : exec i s = issue i s body) (hb : body (fillOps c i) = { s := (fillOps c i).s, regs := [(c.r d.toNat, sh)] })
    (hv : ∀ l, l < 32 → hasLane c.act l = true → sh.at l = f l) :
    Completes s s i c c.g.masks 0 (fun _ => c.pc + 4) (dest c d f) := run_one h body d sh f 0 he hb hv

/-- A path runs an instruction with a 64-bit result and no flags. -/
theorem run_wide {s : State} {i : Instr} {c : Ctx} (h : Runs s i c) (body : Ctx → Res) (d : BitVec 7) (uni : Bool) (f : Nat → W64)
    (he : exec i s = issue i s body) (hb : body (fillOps c i) = { s := (fillOps c i).s, regs := pairRes c d uni f }) (hv : uni = true → ∀ l, f l = f 0) :
    Completes s s i c c.g.masks 0 (fun _ => c.pc + 4) (destPair c d f) := run_pair h body d uni f 0 he hb hv

/-- A lane-wise result of one operand, whose values a claim writes as v. -/
theorem run_map1 {s : State} {i : Instr} {c : Ctx} (h : Runs s i c) (d a : BitVec 7) (f : W32 → W32) (v : Nat → W32) 
    (hv : ∀ l, f (c.lv a l) = v l) (he : exec i s = issue i s fun c => c.map1 d a f) :
    Completes s s i c c.g.masks 0 (fun _ => c.pc + 4) (dest c d v) :=
  run_value h _ d (defaultShape (c.sh a).isU fun l => f (c.lv a l)) _ he (by simp [Ctx.map1]) fun l hl _ => by
    rw [at_default _ _ _ hl fun hu => by unfold Ctx.lv; rw [isU_at hu l 0]]
    exact hv _

/-- A lane-wise result of two operands, whose values a claim writes as v. -/
theorem run_map2 {s : State} {i : Instr} {c : Ctx} (h : Runs s i c) (d a b : BitVec 7) (f : W32 → W32 → W32) (v : Nat → W32)
    (hv : ∀ l, f (c.lv a l) (c.lv b l) = v l) (he : exec i s = issue i s fun c => c.map2 d a b f) :
    Completes s s i c c.g.masks 0 (fun _ => c.pc + 4) (dest c d v) :=
  run_value h _ d (defaultShape ((c.sh a).isU && (c.sh b).isU) fun l => f (c.lv a l) (c.lv b l)) _ he (by simp [Ctx.map2]) fun l hl _ => by
    rw [at_default _ _ _ hl fun hu => by
      rw [Bool.and_eq_true] at hu
      unfold Ctx.lv; rw [isU_at hu.1 l 0, isU_at hu.2 l 0]]
    exact hv _

/-- A lane-wise result of the destination and two operands, whose values a claim writes as v. -/
theorem run_map3 {s : State} {i : Instr} {c : Ctx} (h : Runs s i c) (d a b : BitVec 7) (f : W32 → W32 → W32 → W32) (v : Nat → W32)
    (hv : ∀ l, f (c.lv d l) (c.lv a l) (c.lv b l) = v l) (he : exec i s = issue i s fun c => c.map3 d a b f) :
    Completes s s i c c.g.masks 0 (fun _ => c.pc + 4) (dest c d v) :=
  run_value h _ d (defaultShape ((c.sh d).isU && (c.sh a).isU && (c.sh b).isU) fun l => f (c.lv d l) (c.lv a l) (c.lv b l)) _ he (by simp [Ctx.map3])
    fun l hl _ => by
      rw [at_default _ _ _ hl fun hu => by
        rw [Bool.and_eq_true, Bool.and_eq_true] at hu
        unfold Ctx.lv; rw [isU_at hu.1.1 l 0, isU_at hu.1.2 l 0, isU_at hu.2 l 0]]
      exact hv _

/-- The value of a pair whose registers are U is the same in every lane. -/
theorem pv_uniform {c : Ctx} {a : BitVec 7} (h : c.pairU a = true) (l : Nat) : c.pv a l = c.pv a 0 := by
  unfold Ctx.pairU Ctx.sh at h
  rw [Bool.and_eq_true] at h
  unfold Ctx.pv Ctx.lvk
  rw [isU_at h.2 l 0, isU_at (sh := (c.g.reg (c.r (a.toNat + 0))).shape) h.1 l 0]

/-- The value of a U operand is the same in every lane. -/
theorem lv_uniform {c : Ctx} {a : BitVec 7} (h : (c.sh a).isU = true) (l : Nat) : c.lv a l = c.lv a 0 := isU_at h l 0

@[simp] theorem view_laneFlags (c : Ctx) (i : Instr) (f : Nat → W32) : laneFlags (fillOps c i) f = laneFlags c f := by
  unfold laneFlags; rw [view_lanesOf]

/-- A binary32 result with flags. -/
theorem run_float {s : State} {i : Instr} {c : Ctx} (h : Runs s i c) (body : Ctx → Res) (d : BitVec 7) (uni : Bool) (f : Nat → Nat × W32)
    (he : exec i s = issue i s body) (hb : body (fillOps c i) = floatRes (fillOps c i) d uni f) (hv : uni = true → ∀ l, f l = f 0) :
    Completes s s i c c.g.masks (laneFlags c fun l => (f l).2) (fun _ => c.pc + 4) (dest c d fun l => BitVec.ofNat 32 (f l).1) :=
  run_one h body d (defaultShape uni fun l => BitVec.ofNat 32 (f l).1) _ _ he (by rw [hb]; simp [floatRes]) fun l hl _ =>
    at_default _ _ _ hl fun hu => by rw [hv hu l]

/-- A binary64 result with flags. -/
theorem run_double {s : State} {i : Instr} {c : Ctx} (h : Runs s i c) (body : Ctx → Res) (d : BitVec 7) (uni : Bool) (f : Nat → Nat × W32)
    (he : exec i s = issue i s body) (hb : body (fillOps c i) = doubleRes (fillOps c i) d uni f) (hv : uni = true → ∀ l, f l = f 0) :
    Completes s s i c c.g.masks (laneFlags c fun l => (f l).2) (fun _ => c.pc + 4) (destPair c d fun l => BitVec.ofNat 64 (f l).1) :=
  run_pair h body d uni _ _ he (by rw [hb]; simp [doubleRes]) fun hu l => by rw [hv hu l]

/-- An instruction that writes one mask and no register. -/
theorem run_mask {s : State} {i : Instr} {c : Ctx} (h : Runs s i c) (body : Ctx → Res) (m : Nat) (v fl : W32) (he : exec i s = issue i s body)
    (hb : body (fillOps c i) = { s := (fillOps c i).s, masks := [(m, v)], flags := fl }) :
    Completes s s i c (c.g.setMask m v).masks fl (fun _ => c.pc + 4) [] :=
  runs_regs h body _ [] he hb rfl rfl rfl rfl rfl .nil List.nodup_nil (by simp)

/-- A mask of a group after one was written. -/
theorem mask_after (g : Group) (m k : Nat) (v : W32) (hk : k < 16) (hg : g.key = none) : nth 0 (g.setMask m v).masks k = if k = m then v else g.mask k := by
  have : g.setMask m v = g.putMask m v := by unfold Group.setMask; rw [hg]; rfl
  rw [this]; exact mask_putMask g m k v hk

end Sys2Proof.Machine
end

