-- ==== Sys2Proof/Laws/Schedule.lean ====
section
/-!
SUPPORT. What the device does of itself is the event of the same name; what a turn comes to; when a held store stays.
-/

namespace Sys2Proof.Machine

/-- An event of the device's own is an event of `Instr`, no word, and has its meaning. -/
theorem runDev_exec (e : DevEvent) : ∃ i, encode i = none ∧ ∀ s, runDev e s = exec i s := by
  cases e with
  | trapDelivery team g => exact ⟨.trapDelivery team g, rfl, fun _ => rfl⟩
  | spillToBudget team g => exact ⟨.spillToBudget team g, rfl, fun _ => rfl⟩
  | parkAreaReturn team g => exact ⟨.parkAreaReturn team g, rfl, fun _ => rfl⟩
  | reconvRelease team g lane => exact ⟨.reconvRelease team g lane, rfl, fun _ => rfl⟩
  | longLatencyComplete who i => exact ⟨.longLatencyComplete who i, rfl, fun _ => rfl⟩
  | mwaitSatisfy who lane => exact ⟨.mwaitSatisfy who lane, rfl, fun _ => rfl⟩
  | mzeroExecute team => exact ⟨.mzeroExecute team, rfl, fun _ => rfl⟩
  | mldaExecute team => exact ⟨.mldaExecute team, rfl, fun _ => rfl⟩
  | mmaExecute team => exact ⟨.mmaExecute team, rfl, fun _ => rfl⟩
  | mdrainExecute team => exact ⟨.mdrainExecute team, rfl, fun _ => rfl⟩
  | mscaleExecute team => exact ⟨.mscaleExecute team, rfl, fun _ => rfl⟩
  | copyExecute c ch => exact ⟨.copyExecute c ch, rfl, fun _ => rfl⟩
  | copyBytesLand c ch n => exact ⟨.copyBytesLand c ch n, rfl, fun _ => rfl⟩
  | copyComplete c ch => exact ⟨.copyComplete c ch, rfl, fun _ => rfl⟩
  | cpycRecordFetch c ch => exact ⟨.cpycRecordFetch c ch, rfl, fun _ => rfl⟩
  | selkExecute c ch => exact ⟨.selkExecute c ch, rfl, fun _ => rfl⟩
  | statusEntryPost c ch => exact ⟨.statusEntryPost c ch, rfl, fun _ => rfl⟩
  | sbankDrainComplete c b => exact ⟨.sbankDrainComplete c b, rfl, fun _ => rfl⟩
  | clusterDrainComplete c => exact ⟨.clusterDrainComplete c, rfl, fun _ => rfl⟩
  | reformDraw tile i => exact ⟨.reformDraw tile i, rfl, fun _ => rfl⟩
  | binAgeExpiry tile i => exact ⟨.binAgeExpiry tile i, rfl, fun _ => rfl⟩
  | handBack team tile => exact ⟨.handBack team tile, rfl, fun _ => rfl⟩
  | teamSave team => exact ⟨.teamSave team, rfl, fun _ => rfl⟩
  | masonAppend team => exact ⟨.masonAppend team, rfl, fun _ => rfl⟩
  | masonSeal team log => exact ⟨.masonSeal team log, rfl, fun _ => rfl⟩
  | fabricPacketSend op port en => exact ⟨.fabricPacketSend op port en, rfl, fun _ => rfl⟩
  | fabricRtoExpiry no port en => exact ⟨.fabricRtoExpiry no port en, rfl, fun _ => rfl⟩
  | pennantApply i => exact ⟨.pennantApply i, rfl, fun _ => rfl⟩
  | launchRecordTake c q => exact ⟨.launchRecordTake c q, rfl, fun _ => rfl⟩
  | teamPlace choice => exact ⟨.teamPlace choice, rfl, fun _ => rfl⟩
  | imageRestore slot tile => exact ⟨.imageRestore slot tile, rfl, fun _ => rfl⟩
  | scanImageComplete slot => exact ⟨.scanImageComplete slot, rfl, fun _ => rfl⟩
  | completionRecordWrite => exact ⟨.completionRecordWrite, rfl, fun _ => rfl⟩
  | swapLineExchange i j => exact ⟨.swapLineExchange i j, rfl, fun _ => rfl⟩
  | zeroEngineDone i => exact ⟨.zeroEngineDone i, rfl, fun _ => rfl⟩
  | faultRecordWrite => exact ⟨.faultRecordWrite, rfl, fun _ => rfl⟩
  | notificationPost => exact ⟨.notificationPost, rfl, fun _ => rfl⟩
  | checkpointSaveComplete => exact ⟨.checkpointSaveComplete, rfl, fun _ => rfl⟩
  | preemptDeadlineExpiry team => exact ⟨.preemptDeadlineExpiry team, rfl, fun _ => rfl⟩
  | eventCoalesceTimer => exact ⟨.eventCoalesceTimer, rfl, fun _ => rfl⟩
  | sampleTimer tile => exact ⟨.sampleTimer tile, rfl, fun _ => rfl⟩
  | watchdogHangDeclare who => exact ⟨.watchdogHangDeclare who, rfl, fun _ => rfl⟩
  | statusNoticeResend => exact ⟨.statusNoticeResend [], rfl, fun _ => rfl⟩
  | create c arg => exact ⟨.create c arg, rfl, fun _ => rfl⟩
  | destroy c arg => exact ⟨.destroy c arg, rfl, fun _ => rfl⟩
  | kill c arg => exact ⟨.kill c arg, rfl, fun _ => rfl⟩
  | killctx c arg => exact ⟨.killctx c arg, rfl, fun _ => rfl⟩
  | importImage c arg => exact ⟨.importImage c arg, rfl, fun _ => rfl⟩
  | exportImage c arg => exact ⟨.exportImage c arg, rfl, fun _ => rfl⟩
  | free c arg => exact ⟨.free c arg, rfl, fun _ => rfl⟩
  | quadrantCycle => exact ⟨.quadrantCycle, rfl, fun _ => rfl⟩

/-- A turn that comes to an instruction executes it. -/
theorem step_run {s s1 : State} {i : Instr} (h : nextTurn s = (s1, .run i)) : step s = exec i s1 := by
  rw [step, h]

/-- A turn that comes to an event of the device's own has the event's meaning. -/
theorem step_dev {s s1 : State} {e : DevEvent} (h : nextTurn s = (s1, .dev e)) : step s = runDev e s1 := by
  rw [step, h]

/-- A turn that is over changes nothing more. -/
theorem step_over {s s1 : State} (h : nextTurn s = (s1, .over)) : step s = .next s1 := by
  rw [step, h]

/-- No store leaves a core that is frozen (R101). -/
theorem leaveStore_frozen (s : State) (tile : Nat) (h : ((coreOf s tile).frozen.isSome || (coreOf s tile).dbgFrozen) = true) : leaveStore s tile = s := by
  simp only [leaveStore, h, if_true]
  split <;> rfl

/-- A core without held stores performs none. -/
theorem leaveStore_nil (s : State) (tile : Nat) (h : (coreOf s tile).stores = []) : leaveStore s tile = s := by
  simp [leaveStore, h]

end Sys2Proof.Machine
end

