-- ==== Sys2Proof/Tests/Slice0.lean ====
section
/-!
SUPPORT. Tests: words of the spec's worked encodings, an ill-formed term for each check of WellFormed, single steps with the results that the spec's worked
examples state, and a state that meets the hypotheses of each statement of Obligations.
-/

namespace Sys2Proof.Tests

set_option Elab.async false

open Sys2Proof Sys2Proof.Machine

/-! ## Words (R124, R133 to R139; the worked encodings of file 04 and the worked sequences of files 05 to 08) -/

theorem test_decode_worked_encodings :
    decode 0x200C0820#32 = .ok (.add 3 1 2) ∧ decode 0x36041046#32 = .ok (.cmp 1 2 4 6) ∧ decode 0x3A100010#32 = .ok (.movl 4 0 0x10) ∧
    decode 0x88202502#32 = .ok (.ldB32 8 4 0x50 2) ∧ decode 0x02000010#32 = .ok .regionEntry ∧ decode 0xC20001B0#32 = .ok (.fence 0x1B) ∧
    decode 0x05880003#32 = .ok (.bra 3 1 3) ∧ decode 0x0497FFFE#32 = .ok (.bra 1 2 0x7FFFE) := by decide +kernel

theorem test_decode_control_and_masks :
    decode 0x02000003#32 = .ok .exit ∧ decode 0x10080005#32 = .ok (.mmov 2 0) ∧ decode 0x100C0804#32 = .ok (.mnot 3 1) ∧
    decode 0x14203000#32 = .ok (.shape 8 6) ∧ decode 0x14180002#32 = .ok (.squeeze 6) ∧ decode 0x12240800#32 = .ok (.mpop 9 1) ∧
    decode 0x12281801#32 = .ok (.mfirst 10 3) := by decide +kernel

theorem test_decode_vector :
    decode 0x3E080001#32 = .ok (.lane 2) ∧ decode 0x40181052#32 = .ok (.shflDn 6 2 5) ∧ decode 0x441C3000#32 = .ok (.red 7 6 0) ∧
    decode 0x3A293F80#32 = .ok (.movl 10 1 0x3F80) ∧ decode 0x603050B0#32 = .ok (.fadd 12 10 11) ∧ decode 0x703868E0#32 = .ok (.cvt 14 13 0 14 0) ∧
    decode 0x604480A3#32 = .ok (.fmin 17 16 10) ∧ decode 0x204C9005#32 = .ok (.abs 19 18) := by decide +kernel

theorem test_decode_memory_and_matrix :
    decode 0xD0200050#32 = .ok (.tdef 8 5 0) ∧ decode 0xC868C430#32 = .ok (.musArm 26 24 0x43 0) ∧ decode 0xC6000000#32 = .ok .barTeam ∧
    decode 0xD200F002#32 = .ok (.tgive 30 0) ∧ decode 0xF0001000#32 = .ok (.mzero 2) ∧ decode 0xDE102001#32 = .ok (.qget 4 4 0) ∧
    decode 0xF4180000#32 = .ok (.mbq 6) ∧ decode 0xF62048A0#32 = .ok (.mma 8 9 10 0) ∧ decode 0xF82058C2#32 = .ok (.mdrain 8 11 12 2) ∧
    decode 0xFC380000#32 = .ok (.mdone 14) ∧ decode 0xDE207000#32 = .ok (.qput 8 14 0) := by decide +kernel

theorem test_decode_refused :
    decode 0#32 = .notInstruction ∧ decode 0xFFFFFFFF#32 = .notInstruction ∧ decode 0x200C0826#32 = .notInstruction ∧ decode 0x4C000000#32 = .notInstruction ∧
    decode 0x02000040#32 = .reserved .nop := by decide +kernel

theorem test_table_word : decodeTableWord 32 0x200C0820 = some (.add 3 1 2) := by decide +kernel

/-! ## Ill-formed terms, one for each check of WellFormed -/

/-- Terms whose selector selects nothing (R132, R137, R187, R199, R205, R206). -/
def illSelected : List Instr :=
  [.cmp 0 1 2 10, .cmp64 0 2 4 6, .fcmp 0 1 2 8, .dcmp 0 2 4 8, .red 1 2 11, .cvt 1 2 0 46 0, .cvt 1 2 1 0 0, .mma 0 1 2 15, .mdrain 0 1 2 0, .mdrain 0 1 2 6]

/-- Terms with a reserved field value (R126, R132, R133, R136). -/
def illReserved : List Instr :=
  [.winb 13, .fence 6, .fence 0, .fence 0x2A, .mwait 2 4 64 4, .mand 16 0 0, .mor 0 16 0, .mxor 0 0 16, .mandn 16 0 0, .mnot 0 16, .mmov 16 0, .mpop 1 16,
   .mfirst 1 16, .mtov 1 16, .vtom 16 1, .mall 16, .cmp 16 1 2 0, .cmp64 16 2 4 0, .fcmp 16 1 2 0, .dcmp 16 2 4 0, .qput 16 2 0, .qget 2 16 0, .qtry 2 16 0,
   .qtry 2 0 16, .qlen 2 16 0]

theorem test_ill_formed_refused : (illSelected.all fun i => !selectorOk i) = true ∧ (illReserved.all fun i => selectorOk i && !reservedOk i) = true ∧
    ((illSelected ++ illReserved).all fun i => !i.wellFormed) = true := by decide +kernel

theorem test_well_formed_accepted : ([Instr.cmp 15 1 2 9, .cmp64 15 2 4 5, .red 1 2 10, .cvt 1 2 1 14 0, .mma 0 1 2 14, .mdrain 0 1 2 5, .winb 12, .fence 0x1D,
    .mwait 2 4 64 3, .qtry 2 15 15].all Instr.wellFormed) = true := by decide +kernel

/-! ## Small states -/

/-- The placed machine of log 2, with nothing on the agenda. -/
def base : State := { placeWord State.reset 0 with agenda := [] }

/-- Registers of the tests: a pair with an address that the placed table maps, and small numbers. -/
def someRegs : SMap Reg :=
  [(4, { shape := .u 0x40000 }), (5, { shape := .u 0 }), (6, { shape := .u 1 }), (7, { shape := .u 0 }), (8, { shape := .u 2 }), (9, { shape := .u 1 })]

/-- The vector group about to execute an instruction on all of its lanes. -/
def vec (f : Group → Group) : State :=
  { base with groups := [f { placedGroup with regs := someRegs }, placedKey], cur := some { who := .group 1 0, lanes := 0xFFFFFFFF, pc := 0x10000 } }

/-- The keystone context about to execute an instruction. -/
def key (f : Group → Group) : State :=
  { base with groups := [placedGroup, f { placedKey with regs := someRegs }], cur := some { who := .key 1, lanes := 1, pc := 0x10000 } }

/-- Registers given by their shapes, in ascending order. -/
def withRegs (l : List (Nat × Shape)) (g : Group) : Group := { g with regs := l.map fun x => (x.1, { shape := x.2 }) }

/-- What the vector group is after an instruction. -/
def groupAfter (i : Instr) (s : State) : Option Group := match exec i s with
  | .next t => findGroup t (.group 1 0)
  | _ => none

/-! ## Single steps with the results of the spec's worked examples -/

theorem test_shuffle_down : ((groupAfter (.shflDn 6 2 5) (vec (withRegs [(2, .a 0 1), (5, .u 1)]))).map fun g => [g.val 6 0, g.val 6 30, g.val 6 31])
    = some [1, 31, 31] := by decide +kernel

theorem test_red_add : ((groupAfter (.red 7 2 0) (vec (withRegs [(2, .a 0 1)]))).map fun g => (g.reg 7).shape) = some (.u 496) := by decide +kernel

theorem test_fadd_tie : ((groupAfter (.fadd 12 10 11) (vec (withRegs [(10, .u 0x3F800000), (11, .u 0x33800000)]))).map fun g => ((g.reg 12).shape, g.fpflags))
    = some (.u 0x3F800000, 1) := by decide +kernel

theorem test_cvt_e2m1 : ((groupAfter (.cvt 14 13 0 14 0) (vec (withRegs [(13, .u 0x40A00000)]))).map fun g => ((g.reg 14).shape, g.fpflags, (completeOne g 0).fpflags))
    = some (.u 6, 0, 1) := by decide +kernel

theorem test_cvt_stochastic : ((groupAfter (.cvt 14 13 1 14 0) (vec fun g => { withRegs [(13, .u 0x3FA00000)] g with
    lanes := g.lanes.map fun x => { x with gen := 3 } })).map fun g => (g.val 14 0, (g.lane 0).gen, (completeOne g 0).fpflags)) = some (3, 0x80200002, 1) := by decide +kernel

theorem test_fmin_nan : ((groupAfter (.fmin 17 16 10) (vec (withRegs [(10, .u 0x3F800000), (16, .u 0x7FC00000)]))).map fun g => ((g.reg 17).shape, g.fpflags))
    = some (.u 0x3F800000, 0) := by decide +kernel

theorem test_abs_wraps : ((groupAfter (.abs 19 18) (vec (withRegs [(18, .u 0x80000000)]))).map fun g => (g.reg 19).shape) = some (.u 0x80000000) := by
  decide +kernel

theorem test_shl_affine : ((groupAfter (.shl 10 2 4) (vec (withRegs [(2, .a 0 1), (4, .u 16)]))).map fun g => (g.reg 10).shape) = some (.a 0 65536) := by
  decide +kernel

theorem test_cmp_below : ((groupAfter (.cmp 1 2 4 6) (vec (withRegs [(2, .a 0 1), (4, .u 16)]))).map fun g => g.mask 1) = some 0xFFFF := by decide +kernel

theorem test_partial_write : ((groupAfter (.movl 6 0 5) (vec fun g => { withRegs [] g with masks := setNth g.masks 0 7 })).map fun g =>
    ((g.reg 6).shape.isG, g.val 6 2, g.val 6 3)) = some (true, 5, 0) := by decide +kernel

theorem test_shape_of_g : ((groupAfter (.shape 8 6) (vec (withRegs [(6, .g (List.replicate 32 5))]))).map fun g => (g.reg 8).shape) = some (.u 2) := by
  decide +kernel

theorem test_squeeze_uniform : ((groupAfter (.squeeze 6) (vec (withRegs [(6, .g (List.replicate 32 5))]))).map fun g => (g.reg 6).shape) = some (.u 5) := by
  decide +kernel

theorem test_mpop_mfirst : ((groupAfter (.mpop 9 1) (vec fun g => { g with masks := setNth g.masks 1 7 })).map fun g => (g.reg 9).shape) = some (.u 3) ∧
    ((groupAfter (.mfirst 10 3) (vec fun g => { g with masks := setNth g.masks 3 0xFFFFFFF8 })).map fun g => (g.reg 10).shape) = some (.u 3) := by decide +kernel

/-- Elements 5.0, 0.75, -2.5, 7.0 and zeros pack to 6, 2, 0xC, 7 and scale 0x7F (file 03). -/
theorem test_mxpack_block : ((groupAfter (.mxpack 20 2 0) (vec (withRegs [(2, .g ([0x40A00000, 0x3F400000, 0xC0200000, 0x40E00000] ++ List.replicate 28 0)),
    (3, .u 4)]))).map fun g => ([g.val 20 0, g.val 20 1, g.val 20 2, g.val 20 3], g.val 21 0)) = some ([6, 2, 0xC, 7], 0x7F) := by decide +kernel

/-- A wrong major, a reserved field, an odd pair and a register beyond the declared count trap with the causes that R140's table gives. -/
theorem test_checks : (wordCauses ((issuer (vec fun g => { g with nregs := 64 })).get (by decide +kernel)) (.add 65 1 2),
    wordCauses ((issuer (vec id)).get (by decide +kernel)) (.cmp 0x11 2 4 6), wordCauses ((issuer (vec id)).get (by decide +kernel)) (.ldB64 1 4 0x50 2),
    wordCauses ((issuer (vec id)).get (by decide +kernel)) (.mzero 2)) = ([6], [2], [3], [7]) := by decide +kernel

/-! ## Witnesses: states that meet the hypotheses of the statements -/

/-- The path that the state is about to run an instruction on meets every field of `Runs`, its registers are all in their slots, and p holds of it. -/
def meets (s : State) (i : Instr) (p : Ctx → Bool) : Bool := match issuer s with
  | none => false
  | some c => (c.act != 0 || i.isPath) && (checkHits c i).isEmpty && !pinWait s c.g i && (scoreWait c.g i).isNone && (dueSub c.g).isNone && fileRoom s c.g i
      && ((opndsOf c.g i).flatMap (opndRegs c.g)).all (fun r => !(c.g.reg r).spilled) && p c

theorem meets_runs {s : State} {i : Instr} {p : Ctx → Bool} (h : meets s i p = true) : ∃ c, Runs s i c ∧ Filled c i ∧ p c = true := by
  unfold meets at h
  split at h
  · cases h
  · rename_i c hc
    simp only [Bool.and_eq_true, Bool.or_eq_true, bne_iff_ne, ne_eq, List.isEmpty_iff, Bool.not_eq_true', Option.isNone_iff_eq_none] at h
    obtain ⟨⟨⟨⟨⟨⟨⟨h1, h2⟩, h3⟩, h4⟩, h5⟩, h6⟩, h7⟩, h8⟩ := h
    refine ⟨c, ⟨hc, h1, h2, h3, h4, h5, h6⟩, ?_, h8⟩
    unfold Filled fillOps
    rw [if_neg]
    simp only [List.any_eq_true, not_exists, not_and, Bool.not_eq_true]
    intro r hr
    have := List.all_eq_true.mp h7 r
    simp only [Bool.not_eq_true'] at this
    apply this
    simp only [List.mem_flatMap, List.mem_filter] at hr ⊢
    obtain ⟨o, ⟨ho, _⟩, hr⟩ := hr
    exact ⟨o, ho, hr⟩

/-- Integer, logic, shift, bit-field, select, move and dot-product instructions. -/
def integers : List Instr :=
  [.add 10 6 8, .sub 10 6 8, .add64 10 6 8, .sub64 10 6 8, .neg 10 6, .abs 10 6, .addi 10 6 0x7FF, .mulLo 10 6 8, .mulHiI 10 6 8, .mulHiN 10 6 8, .madLo 10 6 8,
   .mulWideI 10 6 8, .mulWideN 10 6 8, .minI 10 6 8, .maxI 10 6 8, .minN 10 6 8, .maxN 10 6 8, .and 10 6 8, .or 10 6 8, .xor 10 6 8, .andn 10 6 8, .not 10 6,
   .andi 10 6 1, .ori 10 6 1, .xori 10 6 1, .shl 10 6 8, .shr 10 6 8, .sar 10 6 8, .rotl 10 6 8, .shl64 10 6 8, .shr64 10 6 8, .sar64 10 6 8, .shli 10 6 31,
   .shri 10 6 31, .sari 10 6 31, .rotli 10 6 31, .popc 10 6, .clz 10 6, .brev 10 6, .bfeI 10 6 8, .bfeN 10 6 8, .bfi 10 6 8]

/-- The rest of them. -/
def moves : List Instr :=
  [.sel 10 6 8 1, .movl 10 3 0xFFFF, .movh 10 3 0xFFFF, .mov 10 6, .lane 10, .dp4I8 10 6 8, .dp4N8 10 6 8, .dp2I16 10 6 8]

theorem witness_IntegerInstructionsWriteTheirResultByLane :
    ((integers ++ moves).all fun i => meets (vec id) i fun c => (integerResult c i).isSome) = true := by decide +kernel

theorem witness_ComparesWriteActiveLanesMaskBits : (([.cmp 15 6 8 9, .cmp64 0 6 8 5, .fcmp 1 6 8 7, .dcmp 1 6 8 0] : List Instr).all fun i =>
    meets (vec id) i fun c => (compareResult c i).isSome) = true := by decide +kernel

theorem witness_FloatInstructionsRoundByLane :
    (([.fadd 10 6 8, .fsub 10 6 8, .fmul 10 6 8, .fmin 10 6 8, .fmax 10 6 8, .fneg 10 6, .fabs 10 6, .ffma 10 6 8, .ffms 10 6 8, .frcp 10 6 0, .frsq 10 6 0,
      .fsqrt 10 6 0, .fexp2 10 6 0, .flog2 10 6 0, .fsin 10 6 0, .fcos 10 6 0, .ftanh 10 6 0, .fclass 10 6, .fcopysign 10 6 8, .ffrac 10 6, .fround 10 6] : List Instr).all
      fun i => meets (vec id) i fun c => (floatResult c i).isSome) = true ∧
    (([.hadd2F16 10 6 8, .hmul2F16 10 6 8, .hfma2F16 10 6 8, .hadd2Bf16 10 6 8, .hmul2Bf16 10 6 8, .hfma2Bf16 10 6 8] : List Instr).all
      fun i => meets (vec id) i fun c => (halfResult c i).isSome) = true ∧
    (([.dadd 10 6 8, .dsub 10 6 8, .dmul 10 6 8, .dfma 10 6 8, .dmin 10 6 8, .dmax 10 6 8] : List Instr).all
      fun i => meets (vec id) i fun c => (doubleResult c i).isSome) = true := by decide +kernel

theorem witness_ShufflesTakeTheSourceLane : (([.shfl 10 6 8, .shflUp 10 6 8, .shflDn 10 6 8, .shflX 10 6 8, .bcast 10 6 8] : List Instr).all fun i =>
    meets (vec id) i fun c => (shuffleResult c i).isSome) = true := by decide +kernel

theorem witness_MaskInstructionsWriteTheWholeMask :
    (([.mand 1 2 3, .mor 1 2 3, .mxor 0 1 2, .mandn 15 2 3, .mnot 1 2, .mmov 1 2, .vtom 1 6, .mall 1] : List Instr).all
      fun i => meets (vec id) i fun c => (maskResult c i).isSome) = true ∧
    (([.mpop 10 1, .mfirst 10 1, .mtov 10 1, .shape 10 6] : List Instr).all fun i => meets (vec id) i fun c => (maskReadResult c i).isSome) = true := by decide +kernel

theorem witness_ReductionsAndScansCombineInFixedOrder :
    ((upto 11).all fun o => meets (vec id) (.red 10 6 (BitVec.ofNat 4 o)) fun c =>
      (treeNode (redOp o c.g.fpcr) c.act (fun l => c.lv 6 l) 5 0).isSome) = true ∧
    meets (vec id) (.scanAddI 10 6) (fun _ => true) = true ∧ meets (vec id) (.scanAddF32 10 6) (fun _ => true) = true := by decide +kernel

theorem witness_RetaggingChangesNoValue : meets (vec id) (.setg 6) (fun _ => true) = true ∧ meets (vec id) (.squeeze 6) (fun _ => true) = true := by
  decide +kernel

theorem witness_BranchesSendLanesToTheirTargets : (([.nop, .bra 0 0 0x7FFFF, .chkp 0 1, .jmp 4] : List Instr).all fun i =>
    meets (vec id) i fun c => (branchNext c i).isSome && targetsOk c i) = true := by decide +kernel

theorem witness_CallsLinkAndDeepen : (([.call 0 0 5, .calli 10 4] : List Instr).all fun i => meets (vec id) i fun c => (callOf c i).isSome && targetsOk c i) = true ∧
    meets (vec fun g => { g with lanes := g.lanes.map fun x => { x with depth := 1 } }) (.ret 4) (fun c => targetsOk c (.ret 4)) = true := by decide +kernel

theorem witness_LanesWaitAtReconvergenceAndYield : meets (vec id) .reconv (fun _ => true) = true ∧ meets (vec id) .reconvS (fun _ => true) = true ∧
    meets (vec fun g => { g with preempt := true }) .yield (fun c => c.g.preempt && c.g.key.isNone) = true ∧
    meets (vec id) .yield (fun c => !c.g.preempt) = true := by decide +kernel

/-- A group in handler mode. -/
def handling (g : Group) : Group := { g with lanes := g.lanes.map fun x => { x with handler := true } }

theorem witness_GroupRegistersTakeTheirWrites : meets (vec id) (.winb 0) (fun _ => true) = true ∧ meets (vec handling) .halt (fun _ => true) = true ∧
    (([0x20, 0x21, 0x23] : List (BitVec 14)).all fun n => meets (vec id) (.wrsr 6 n) fun _ => true) = true := by decide +kernel

/-- Special registers whose value `specialValue` gives. -/
def plainSpecials (c : Ctx) : List (BitVec 14) := ((upto 96).map (BitVec.ofNat 14)).filter fun n =>
  (lanes32.all fun l => (specialValue c.s c (.rdsr 10 n) n.toNat l).isSome)

theorem witness_SpecialRegistersReadTheirValue :
    (match issuer (vec id) with | some c => 20 ≤ (plainSpecials c).length && (plainSpecials c).all fun n => meets (vec id) (.rdsr 10 n) fun _ => true | none => false) = true ∧
    (([0x23, 0x28, 0x29] : List (BitVec 14)).all fun n => meets (vec id) (.rdsr 10 n) fun c => !isPaired c.t) = true := by decide +kernel

/-- A group in an open region with an empty gate. -/
def regioned (g : Group) : Group := { g with region := some { entry := 0xFFF0, m0 := 0xFFFFFFFF, live := 0xFFFFFFFF } }

theorem witness_RegionWordsOpenAndClose : meets (vec id) .regionEntry (fun c => !isPaired (teamOf (vec id) c.g.team) && c.g.region.isNone) = true ∧
    (([.regionCloseReopen, .regionExit] : List Instr).all fun i => meets (vec regioned) i fun c =>
      !isPaired (teamOf (vec regioned) c.g.team) && match c.g.region with | some r => r.gate.isEmpty | none => false) = true := by decide +kernel

theorem witness_IfenceRefreshesTheCore : meets (vec id) .ifence (fun _ => true) = true := by decide +kernel

theorem witness_TrapWordsTakeTheException : (([.brk 0x3FFF, .trap 0, .nonInstructionWord 0] : List Instr).all fun i => meets (vec id) i fun _ => true) = true := by
  decide +kernel

/-- Lanes 0 and 31 alone are active. -/
def few (g : Group) : Group := { g with masks := setNth g.masks 0 0x80000001 }

/-- The loads. -/
def loads : List Instr :=
  [.ldB8n 10 4 64 0, .ldB8i 10 4 64 0, .ldB16n 10 4 64 0, .ldB16i 10 4 64 0, .ldB32 10 4 64 0, .ldB64 10 4 64 0, .ldB128 12 4 64 0, .ldAcqB32 10 4 64 0,
   .ldAcqB64 10 4 64 0]

theorem witness_LoadsGiveTheBytesRead : (loads.all fun i => meets (vec few) i fun c => match loadForm i with
    | some x => (x.reads c).hits.isEmpty && !isProbe i
    | none => false) = true := by decide +kernel

/-- Both a probe that finds its page, and one whose page is not present. -/
theorem witness_ProbeLoadsReportInMaskFifteen : (([.ldpB32 10 4 64 0, .ldpB64 10 4 64 0] : List Instr).all fun i =>
    (meets (vec few) i fun c => match loadForm i with
      | some x => (x.reads c).hits.isEmpty && isProbe i
      | none => false) &&
    meets (vec fun g => few (withRegs [(4, .u 0), (5, .u 2)] g)) i fun c => match loadForm i with
      | some x => !(x.reads c).hits.isEmpty && (x.reads c).hits.all (fun h => h.cause == 0x10) && isProbe i
      | none => false) = true := by decide +kernel

theorem witness_ReadsReturnTheBytesOfTheirPlaces : (match issuer (vec id) with
    | some c => match lookAt (vec id) (laneEnv (vec id) c.g 0) .read 0x40000 8 with
      | (_, .hit l) => l.all fun x => match x with | .mem _ _ t _ => leafKind t.leaf != 2 && !(leafBit t.leaf 15) | .pad _ _ _ => true
      | _ => false
    | none => false) = true := by decide +kernel

/-- The stores. -/
def stores : List Instr :=
  [.stB8 8 4 64 0, .stB16 8 4 64 0, .stB32 8 4 64 0, .stB64 8 4 64 0, .stB128 8 4 64 0, .stRelB32 8 4 64 0, .stRelB64 8 4 64 0]

theorem witness_StoresWriteTheLanesBytes : (stores.all fun i => meets (vec few) i fun c => match storeForm i with
    | some (_, b, o, n, rel) => (lookLanes c (if rel then .release else .write) (c.addr b o n) n rel).hits.isEmpty &&
        (lookLanes c (if rel then .release else .write) (c.addr b o n) n rel).zero.isNone && c.g.region.isNone && !isPaired (teamOf (vec few) c.g.team)
    | none => false) = true := by decide +kernel

theorem witness_StoresInARegionAreGated : ((stores.take 5).all fun i => meets (vec fun g => few (regioned g)) i fun c => match storeForm i, c.g.region with
    | some (d, b, o, n, false), some q => (lookLanes c .write (c.addr b o n) n false).hits.isEmpty && (lookLanes c .write (c.addr b o n) n false).zero.isNone &&
        (storeGate c (lookLanes c .write (c.addr b o n) n false).s q (storesOf c d b o n (lookLanes c .write (c.addr b o n) n false).spots)).2.isEmpty
    | _, _ => false) = true := by decide +kernel

/-- The atomics. -/
def atomics : List Instr :=
  [.atomAdd32 8 4 64 0, .atomAdd64 8 4 64 0, .atomMinI32 8 4 64 0, .atomMaxI32 8 4 64 0, .atomMinN32 8 4 64 0, .atomMaxN32 8 4 64 0, .atomAnd 8 4 64 0,
   .atomOr 8 4 64 0, .atomXor 8 4 64 0, .atomXchg32 8 4 64 0, .atomXchg64 8 4 64 0, .atomCas32 8 4 64 0, .atomCas64 8 4 64 0, .atomFaddF32 8 4 64 0]

theorem witness_AtomicsGiveTheOldValue : (atomics.all fun i => meets (vec few) i fun c => match atomicForm c i with
    | some (_, b, o, n, _) => (lookLanes c .atomic (c.addr b o n) n true).hits.isEmpty && (lookLanes c .atomic (c.addr b o n) n true).zero.isNone &&
        !isPaired (teamOf (vec few) c.g.team)
    | none => false) = true := by decide +kernel

theorem witness_ConversionsAndPacksGiveTheTablesValues :
    ((upto 46).all fun i => meets (vec id) (.cvt 10 6 0 (BitVec.ofNat 6 i) 0) fun _ => true) = true ∧ meets (vec id) (.cvt 10 6 1 14 0) (fun _ => true) = true ∧
    (([.mxpack 10 6 0, .mxunpack 10 6 0, .qpack4 10 6 0, .qunpack4 10 6 0] : List Instr).all fun i => meets (vec id) i fun c => (packForm c i).isSome) = true := by
  decide +kernel

theorem witness_ExitTakesLanesOut : meets (vec fun g => { g with masks := setNth g.masks 0 1 }) .exit (fun c => c.g.region.isNone && c.g.key.isNone && c.g.subs.isEmpty &&
      !hasLane c.act 1 && (c.g.lane 1).st == .running) = true ∧
    meets (vec id) .exit (fun c => c.g.region.isNone && c.g.live &&& ~~~c.act == 0) = true ∧
    meets (key id) .exit (fun c => c.g.region.isNone && (keyQueue c.g).isEmpty && c.g.live &&& ~~~c.act == 0) = true := by decide +kernel

/-- A group whose lanes 0 to 31 run the handler of a delivered sub-group. -/
def delivered (g : Group) : Group := { handling g with subs := [{ lanes := 0xFFFFFFFF, pcmask := 0, cause := 0x40, delivered := true }] }

theorem witness_ReturnRestoresFromTheRecord : meets (vec delivered) (.tret 4) (fun c => c.g.subs.length == 1 && (c.g.subs.all fun u => u.delivered && u.lanes &&& c.act != 0) &&
    match readAt (vec delivered) (devEnv (vec delivered) c.t.ctx false) .read (((c.pv 4 c.first).toNat + 0x18) % 2 ^ 64) 8 with
    | (s1, .ok rp) => pcOk (BitVec.ofNat 64 (ofBytes rp)) && match readAt s1 (devEnv (vec delivered) c.t.ctx false) .read (((c.pv 4 c.first).toNat + 0x40) % 2 ^ 64) 512 with
      | (_, .ok _) => true
      | _ => false
    | _ => false) = true := by decide +kernel

theorem witness_CacheOperationsChangeNoValue : meets (vec few) (.prefetch 4 64 0) (fun _ => true) = true ∧
    ((([(.cinvLine 4 64 0, true, false), (.cflushLine 4 64 0, false, false), (.cinvPage 4 64 0, true, true)] : List (Instr × Bool × Bool))).all fun x =>
      meets (vec few) x.1 fun c => (c.lanes.foldl (cacheLane c 4 64 x.2.1 x.2.2) { s := vec few }).hits.isEmpty) = true := by decide +kernel

/-- A fence of each kind; a fabric release with nothing owed, and one with an operation owed. -/
theorem witness_FencesRefreshTheirScope : (([0x08, 0x10, 0x1B, 0x15] : List (BitVec 14)).all fun i => meets (vec id) (.fence i) fun c => !fabricOwed c) = true ∧
    meets { vec id with fabOps := [(0, some { team := 1, dest := 0, va := 0, rpa := 0, pennant := some 0, tids := [0], at_ := 0 })] } (.fence 0x15) fabricOwed = true := by
  decide +kernel

theorem witness_MwaitCompletesWhenEveryLaneHasItsValue : meets (vec few) (.mwait 8 4 64 0) (fun c => !isPaired c.t &&
      (c.lanes.foldl (pollLane c 8 4 64 0) { s := vec few, got := c.g.got }).hits.isEmpty && (lanesOf c.act).all fun l =>
        (c.lanes.foldl (pollLane c 8 4 64 0) { s := vec few, got := c.g.got }).got.any fun x => x.pc == c.pc && x.lane == l) = true ∧
    (turnIssue (placeWord State.reset 0xC4202400) (.group 1 0) 0).2 = some (.mwait 8 4 64 0) ∧ (turnIssue (vec few) (.group 1 7) 0).2 = none := by decide +kernel

/-- The state with its team changed. -/
def teamed (f : Team → Team) (s : State) : State := { s with teams := s.teams.map f }

/-- The state whose launch binds every queue. -/
def bound (s : State) : State := { s with launches := [{ placedLaunch with lrec := { trec := 0x30000, qbind := 0xFFFFFFFF } }] }

/-- The state with bytes at an address. -/
def held (a : Nat) (bs : List Byte) (s : State) : State := { s with mem := memPut s.mem a bs }

/-- The vector group with a second group of its team. -/
def pairOf : State := { vec id with groups := [{ placedGroup with regs := someRegs }, { placedGroup with idx := 1 }, placedKey] }

theorem witness_BarriersHoldAndReleaseTheirLanes :
    (([(.barTeam, none, .barTeam), (.barRole, some 0, .barRole)] : List (Instr × Option Nat × WaitAt)).all fun x =>
      (meets (vec id) x.1 fun c => c.path != 0 && c.g.role == 0 && !barrierOpen (vec id) c x.2.1 x.2.2) &&
      meets pairOf x.1 fun c => c.path != 0 && c.g.role == 0 && barrierOpen pairOf c x.2.1 x.2.2) = true := by decide +kernel

/-- The first and the last muster slot. -/
theorem witness_MusterInstructionsWorkOnTheirSlot : (([(0x10, 1), (0x3F0, 63)] : List (W32 × Nat)).all fun x =>
    ([.musArm 8 4 64 0, .musJoin 8 4 64 0, .musOwe 8 4 64 0, .musHold 8 4 64 0, .musHold 10 4 64 0] : List Instr).all fun i =>
      meets (vec (withRegs [(4, .u x.1), (5, .u 0x7F00), (8, .u 2)])) i fun c => match musterIndex c.t (c.addr 4 64 16 c.first) with
        | .ok n => n == x.2 && (readMuster c.s c.t n).round == c.uv 10
        | .error _ => false) = true := by decide +kernel

/-- A round that ends (the most joins, the last slot), and one that does not. -/
theorem witness_MusterUpdatesEndTheRoundAtZero : (findTeam base 1 = some placedTeam ∧ placedTeam.key = 1 ∧ padSize placedTeam ≠ 0) ∧
    (readMuster (settleMusters (updateMuster base 1 63 65536 0 0 {}) 1) placedTeam 63).round = 1 ∧
    (readMuster (settleMusters (updateMuster (updateMuster base 1 0 0 1 0 {}) 1 0 0 0 1 {}) 1) placedTeam 0).round = 1 ∧
    (readMuster (settleMusters (updateMuster base 1 0 1 0 5 {}) 1) placedTeam 0).round = 0 := by decide +kernel

/-- A team with tile 1 at aperture offset 1024. -/
def tiled (x : Tile) (t : Team) : Team := { t with tiles := [(1, { x with start := 8, valid := true })] }

theorem witness_TileInstructionsWorkOnTheirEntry :
    (meets (vec (withRegs [(8, .u 8), (9, .u 1)])) (.tdef 8 63 0) fun c => (c.uvk 8 1).toNat / 64 == 0 && bits (c.uvk 8 1).toNat 5 1 == 0 && !tileInUse c.t 63 &&
      c.uvk 8 2 == 0 && tileOk c.t 63 (tdefTile (c.uv 8).toNat (c.uvk 8 1).toNat (c.uvk 8 2).toNat)) = true ∧
    (meets (vec (withRegs [(9, .u 0x20)])) (.tdef 8 0 0) fun c => (c.uvk 8 1).toNat / 64 == 0 && bits (c.uvk 8 1).toNat 5 1 == 1 && !tileInUse c.t 0) = true ∧
    (([.town 10 6 0, .twait 6 0, .tgive 6 0] : List Instr).all fun i => meets (teamed (tiled {}) (vec id)) i fun c =>
      (tileOf c.t ((c.uv 6).toNat % 64)).valid && !(tileOf c.t ((c.uv 6).toNat % 64)).own) = true := by decide +kernel

/-- Registers of a copy of one row of 64 bytes from 0x40000 to 0x50000, from v16 on; with a fault in w4 where `bad` is not 0. -/
def copyRegs (bad : W32) : Group → Group :=
  withRegs [(16, .u 0x40000), (18, .u 0x50000), (20, .u (1 + bad)), (21, .u 64), (22, .u 64), (23, .u 64)]

/-- The registers of cpyc's first record address. -/
def chainRegs : Group → Group := withRegs [(16, .u 0x40000)]

/-- The registers of selk: 32 keys in tile 1, one result in tile 2. -/
def selRegs : Group → Group := withRegs [(16, .u 0x400), (17, .u 0x7F00), (18, .u 0x800), (19, .u 0x7F00), (20, .u 32), (21, .u 1)]

/-- The tiles of selk, both with the engines. -/
def selTiles (t : Team) : Team :=
  { t with tiles := [(1, { start := 8, fmt := 1, own := true, valid := true }), (2, { start := 16, fmt := 0, own := true, valid := true })] }

/-- The command meets no cause, or meets one, or its channel is full, as p says. -/
def commandMeets (s : State) (i : Instr) (p : Nat → Nat → Bool) : Bool :=
  meets s i fun c => match copyCommand s c i with
    | some (ch, x, _) => p x (chanLoad (chanOf s c.t.cluster ch))
    | none => false

/-- A cluster whose channel 7 holds 16 commands. -/
def fullChannel (s : State) : State :=
  { s with clusters := s.clusters.map fun x => (x.1, { x.2 with chans := [(7, { cmds := List.replicate 16 { team := 1, g := 0, kind := .copy, regs := [] } })] }) }

theorem witness_CopyCommandsJoinTheirChannel :
    commandMeets (vec (copyRegs 0)) (.cpy 16 0 0) (fun x n => x == 0 && n < 16) = true ∧
    commandMeets (vec (copyRegs 0)) (.cpyg 16 10 7 0) (fun x n => x == 0 && n < 16) = true ∧
    commandMeets (vec chainRegs) (.cpyc 16 3 0) (fun x n => x == 0 && n < 16) = true ∧
    commandMeets (teamed selTiles (vec selRegs)) (.selk 16 3 0) (fun x n => x == 0 && n < 16) = true ∧
    commandMeets (vec (copyRegs 0x2000000)) (.cpy 16 0 0) (fun x _ => x == 0x22) = true ∧
    commandMeets (vec (copyRegs 0x1000000)) (.cpy 16 7 0) (fun x _ => x == 0x23) = true ∧
    commandMeets (vec selRegs) (.selk 16 3 0) (fun x _ => x == 0x20) = true ∧
    commandMeets (fullChannel (vec (copyRegs 0))) (.cpy 16 7 0) (fun x n => x == 0 && n == 16) = true := by decide +kernel

/-- The team's counts of channel 1 as k says. -/
def counted (k : ChanCount) (t : Team) : Team := { t with chans := [(1, k)] }

/-- No command with CSUM, one that is complete, and one that is not. -/
theorem witness_ChannelReadsGiveTheirCounts : (([.rdwp 10 6 0, .rdcsum 10 6 0] : List Instr).all fun i =>
    meets (vec id) i fun c => (countOf c.t ((c.uv 6).toNat % 8)).sums == 0) = true ∧
    meets (teamed (counted { sums := 2, crcs := [(2, 7), (1, 5)] }) (vec id)) (.rdcsum 10 6 0) (fun c => (countOf c.t ((c.uv 6).toNat % 8)).crcs.any fun x => x.1 == 2) = true ∧
    meets (teamed (counted { sums := 2, crcs := [(1, 5)] }) (vec id)) (.rdcsum 10 6 0) (fun c => !((countOf c.t ((c.uv 6).toNat % 8)).crcs.any fun x => x.1 == 2)) = true := by
  decide +kernel

/-- A team whose queue q holds n entries. -/
def queued (q n : Nat) (t : Team) : Team := { t with queues := [(q, List.replicate n 5)] }

/-- A queue instruction that its group may execute on queue q with n entries. -/
def queueMeets (i : Instr) (q n : Nat) : Bool := meets (teamed (queued q n) (bound (vec id))) i fun c =>
  queueBound c.s c.t q && (queueOf c.t q).length == n && (mayPut c.key c.g.role (qbindOf c) q || mayGet c.key c.g.role (qbindOf c) q)

/-- Each instruction with an empty, a filled and, for qput, a full queue; the first and the last queue that a vector group may use. -/
theorem witness_QueueInstructionsKeepTheirOrder :
    (queueMeets (.qput 4 4 0) 4 15 ∧ queueMeets (.qput 7 4 0) 7 16 ∧ queueMeets (.qget 10 0 0) 0 0 ∧ queueMeets (.qget 10 12 0) 12 1) ∧
    queueMeets (.qtry 10 0 1) 0 0 ∧ queueMeets (.qtry 10 12 1) 12 16 ∧ queueMeets (.qlen 10 0 0) 0 3 ∧
    meets (bound (key id)) (.qput 8 4 0) (fun c => mayPut c.key c.g.role (qbindOf c) 8) = true ∧
    meets (bound (key id)) (.qget 10 7 0) (fun c => mayGet c.key c.g.role (qbindOf c) 7) = true := by decide +kernel

theorem witness_AppendCommandsReachTheMason : meets (bound (vec id)) (.qput 12 4 0) (fun c => queueBound c.s c.t 12 && !c.key &&
    !isPaired (teamOf c.s c.g.team) && masonWaiting c.s c.g.team < 16) = true := by decide +kernel

/-- The second GiB is window 0 of the fabric, open to peer 5. -/
def windowed (s : State) : State := held 0x2008 (toBytes 8 0x400000000010DF) { s with ctl := { s.ctl with win := [(0, 0x300005)] } }

/-- Registers of a put of n bytes from 0x40000 to the window. -/
def putRegs (n : W32) : Group → Group := withRegs [(4, .u 0x40000000), (8, .u 0x40000), (10, .u n)]

theorem witness_FabricOperationsJoinTheirStream :
    (([1, 4096] : List W32).all fun n => meets (windowed (vec (putRegs n))) (.fput 8 4 64 0) fun c =>
      !isPaired (teamOf c.s c.g.team) && c.uvk 8 2 == n && !overlap (c.pv 8 0).toNat n.toNat Config.aperture Config.apertureBytes && canonicalRange (c.pv 8 0).toNat n.toNat &&
      match fabDest c.s (laneEnv c.s c.g c.first) (c.addr 4 64 8 c.first).toNat n.toNat with
      | (s1, .ok t) => (rangeCauses s1 (laneEnv c.s c.g c.first) .read (linesOf (c.pv 8 0).toNat n.toNat)).2.isEmpty && fabPeer s1 t.pa == 5 &&
          !(s1.down.contains 5 || c.t.broken.contains 5)
      | _ => false) = true ∧
    (meets (windowed (vec (putRegs 8))) (.fsig 8 4 64 0) fun c => (c.addr 4 64 8 c.first).toNat % 8 == 0 &&
      match fabDest c.s (laneEnv c.s c.g c.first) (c.addr 4 64 8 c.first).toNat 8 with
      | (s1, .ok t) => fabPeer s1 t.pa == 5 && !c.t.broken.contains 5
      | _ => false) = true := by decide +kernel

/-- A queue descriptor of 16 records at 0x50000 for queue 63 of context 0. -/
def queue63 (s : State) : State := held 0xFC0 (toBytes 8 0x50000 ++ [4, 15, 1]) s

theorem witness_LaunchSubmitsToItsContext : meets (queue63 (vec id)) (.launch 10 4 64 0) (fun c => !isPaired (teamOf c.s c.g.team) &&
    (c.addr 4 64 128 c.first).toNat % 128 == 0 && match readAt c.s (laneEnv c.s c.g c.first) .read (c.addr 4 64 128 c.first).toNat 128 with
      | (s1, .ok bs) => (submit s1 c.t.ctx bs (releaseAct c s1)).2 == some 2
      | _ => false) = true := by decide +kernel

/-- A team whose first n quarter slots hold a register of group 0 each. -/
def quartered (n : Nat) (t : Team) : Team := { t with quarters := (upto n).map fun k => (k, some { g := 0, first := 64 + 4 * k, len := 4 }) }

theorem witness_QuarterHoldsAreTakenAndFreed :
    (meets (vec id) (.bqh 32 6) fun c => (mget none c.t.quarters ((c.uv 6).toNat % 4)).isNone && bqhLen c.g 6 == 1) = true ∧
    (meets (vec (withRegs [(6, .u 0x3F03)])) (.bqh 64 6) fun c => (mget none c.t.quarters ((c.uv 6).toNat % 4)).isNone && bqhLen c.g 6 == 64) = true ∧
    (meets (teamed (quartered 4) (vec id)) (.bqh 32 6) fun c => (mget none c.t.quarters ((c.uv 6).toNat % 4)).isSome) = true ∧
    (meets (vec id) (.bqr 6) fun c => (mget none c.t.quarters ((c.uv 6).toNat % 4)).isNone) = true ∧
    (meets (teamed (quartered 4) (vec id)) (.bqr 6) fun c => match mget none c.t.quarters ((c.uv 6).toNat % 4) with | some h => h.g == c.g.idx | none => false) = true := by
  decide +kernel

/-- The keystone's team with a tile 1 of a format and a size that the engines own. -/
def engined (fmt size : Nat) (t : Team) : Team := tiled { fmt := fmt, sizem1 := size / 128 - 1, own := true } t

/-- A keystone context with a binding of four blocks of 64 registers. -/
def binding (g : Group) : Group :=
  { g with key := g.key.map fun k => { k with binding := some ((upto 4).map fun _ => { hold := { g := 0, first := 64, len := 64 }, vals := [] }) } }

/-- A keystone context with n operations in its queue. -/
def busy (n : Nat) (g : Group) : Group := { g with key := g.key.map fun k => { k with mq := List.replicate n { op := .zero 0, opId := 0 } } }

/-- A matrix instruction whose cause and queue are as p says. -/
def matrixMeets (s : State) (i : Instr) (p : Nat → Nat → Bool) : Bool :=
  meets s i fun c => match matrixEntry c i with
    | some (x, _) => p x c.mat.mq.length
    | none => false

/-- Each instruction without a cause, with a full queue, and with a cause. -/
theorem witness_MatrixInstructionsEnterTheQueue :
    (matrixMeets (key (busy 7)) (.mzero 6) (fun x n => x == 0 && n == 7) ∧ matrixMeets (key (busy 8)) (.mzero 6) (fun x n => x == 0 && n == 8)) ∧
    matrixMeets (teamed (engined 4 4096) (key binding)) (.mma 8 6 7 0) (fun x n => x == 0 && n < 8) ∧
    matrixMeets (key binding) (.mma 8 6 7 0) (fun x _ => x == 0x20) ∧ matrixMeets (teamed (engined 5 4096) (key binding)) (.mma 8 6 7 1) (fun x _ => x == 0x22) ∧
    matrixMeets (teamed (engined 1 131072) (key id)) (.mdrain 8 6 7 1) (fun x n => x == 0 && n < 8) ∧
    matrixMeets (teamed (engined 5 32768) (key id)) (.mdrain 8 6 7 5) (fun x n => x == 0 && n < 8) ∧
    matrixMeets (key id) (.mdrain 8 6 7 5) (fun x _ => x == 0x20) ∧ matrixMeets (teamed (engined 5 32640) (key id)) (.mdrain 8 6 7 5) (fun x _ => x == 0x22) ∧
    matrixMeets (teamed (engined 1 512) (key id)) (.mscale 8 6) (fun x n => x == 0 && n < 8) ∧
    matrixMeets (teamed (engined 1 384) (key id)) (.mscale 8 6) (fun x _ => x == 0x22) := by decide +kernel

theorem witness_KeystoneInstructionsLoadBindAndFinish :
    (meets (teamed (engined 1 131072) (key (withRegs [(4, .u 0x400), (5, .u 0x7F00)]))) (.mlda 8 4 64 0) fun c => c.mat.mq.length < 8 &&
      inAperture (c.addr 4 64 128 0).toNat 1 && imageTile c.t (c.addr 4 64 128 0).toNat == some 1) = true ∧
    (meets (key id) (.mlda 8 4 64 0) fun c => !inAperture (c.addr 4 64 128 0).toNat 1 && (c.addr 4 64 128 0).toNat % 128 == 0 &&
      canonicalRange (c.addr 4 64 128 0).toNat accBytes && !overlap (c.addr 4 64 128 0).toNat accBytes Config.aperture Config.apertureBytes &&
      (rangeCauses c.s (laneEnv c.s c.g 0) .read (linesOf (c.addr 4 64 128 0).toNat accBytes)).2.isEmpty) = true ∧
    (meets (teamed (quartered 4) (key id)) (.mbq 8) fun c => (heldQuarters c.s c.t).length == 4) = true ∧
    (meets (key id) (.mdone 8) fun c => c.mat.mq.isEmpty && !(c.t.ops.any fun o => o.cmu && o.hb)) = true := by decide +kernel

theorem witness_ReformFilesLanesInBins : (meets (vec few) (.reform 4) fun c => c.g.subs.isEmpty && ((lanesOf c.act).all fun l => pcOk (c.pv 4 l)) &&
    (fileLanes c 4 c.act).2 == c.act && c.g.live &&& ~~~c.act != 0) = true := by decide +kernel

/-- Bytes of a record given as fields: offset, width, value; zeros between them. -/
def recordOf (n : Nat) (l : List (Nat × Nat × Nat)) : List Byte := l.foldl (fun b x => b.take x.1 ++ toBytes x.2.1 x.2.2 ++ b.drop (x.1 + x.2.1)) (List.replicate n 0)

/-- A context table entry with the placed root, whose queue table is at 0x40000. -/
def entered : State := held 0 (recordOf 128 [(0, 8, 0x1000), (8, 8, 0x20000), (0x10, 8, 0x40000)]) base

theorem witness_CommandsRegisterAndEndContexts : ¬ entryOk (held (128 * 63 + 0x33) [1] base) 63 ∧ (entryOk base 63 ∧ entryHeld base 63 = false) ∧
    (entryOk entered 0 ∧ entryHeld entered 0 = true) ∧ (queuedRecords base 0).2 = false ∧ (base.launches.any fun l => l.ctx == 0 && l.id == 1) = true ∧
    (base.launches.any fun l => l.ctx == 63 && l.id == 1) = false ∧ 1 ∉ (contextOf base 63).ids63 ∧ base.cmd = none := by unfold entryOk; decide +kernel

/-- A launch record at 0x50000 of a kernel record at 0x60000: one role of one group of 32 lanes. -/
def launchable (deps : Nat) (s : State) : State :=
  held 0x60000 (recordOf 96 [(4, 2, 32), (6, 2, 1), (8, 2, 32), (0x0A, 2, 1), (0x0C, 2, 1), (0x44, 2, 1), (0x48, 4, 256), (0x50, 8, 0x10000)])
    (held 0x50000 (recordOf 128 [(0, 8, 0x60000), (0x10, 2, 1), (0x12, 2, 1), (0x14, 2, 1), (0x30, 8, 0x30000), (0x40, 8, deps)]) s)

/-- Queue q of context 0 has one record, at 0x50000. -/
def oneRecord (q : Nat) (s : State) : State := held (64 * q) (recordOf 64 [(0, 8, 0x50000), (8, 3, 0x10F04), (0x1C, 4, 1)]) s

/-- What the dispatcher finds at the head of queue q: it may take the record, its dependences hold, and the reasons against it. -/
def takes (s : State) (q : Nat) : Option (Bool × Bool × List Nat) := match readDesc s 0 q with
  | (s1, d) => match readAt s1 (devEnv s 0 false) .read (d.base + 128 * (d.head % 2 ^ d.logn)) 128 with
    | (s2, .ok b) => match depsHold s2 0 (launchRecOf b).deps with
      | (s3, ready) => if isDebug s3 { ctx := 0, queue := q, id := 0, lrec := launchRecOf b } then none
        else some (mayTake s1 0 q d, ready, (refusals (loadKernel (devWrite (recordId s3 0 q).1 0 (descAt s 0 q + 0x18) (toBytes 4 (d.head + 1))) 0 (launchRecOf b)).s 0 b
          (launchRecOf b) (loadKernel (devWrite (recordId s3 0 q).1 0 (descAt s 0 q + 0x18) (toBytes 4 (d.head + 1))) 0 (launchRecOf b))))
    | _ => none

/-- The placed machine with an event table for context 0. -/
def evented : State := { base with contexts := base.contexts.map fun x => (x.1, { x.2 with evt := 0x40000 }) }

/-- The event ring is set up, empty, with a completion record to be written. -/
def ringed : State := { base with ctl := { base.ctl with evrb := 0x70000, evrc := 7 }, completions := [plainCompletion base 0 0 0 1 0x0A []] }

/-- Nothing is placed yet of the launch, whose kernel is the one role of a small group. -/
def unplaced : State :=
  { base with groups := [], teams := [], launches := [{ placedLaunch with next := 0, krec := { roles := [{ groups := 1, place := 0, slots := 256, entry := 0x10000 }] } }] }

theorem witness_DispatcherTakesRecordsAndPlacesTeams : (contextOf base 63).state ≠ 1 ∧ (contextOf base 0).state = 1 ∧
    mayTake (readDesc base 0 0).1 0 0 (readDesc base 0 0).2 = false ∧
    takes (launchable 0 (oneRecord 0 base)) 0 = some (true, true, []) ∧ takes (launchable 0 (oneRecord 62 base)) 62 = some (true, true, []) ∧
    takes (oneRecord 0 base) 0 = some (true, true, [2, 3, 9]) ∧ takes (launchable (2 ^ 52 + 1) (oneRecord 0 evented)) 0 = some (true, false, []) ∧
    evRingRoom base = false ∧ evRingRoom ringed = true ∧ ringed.completions.length = 1 ∧
    (match consideredHead unplaced with
      | some h => !imageFirst unplaced h.eff && h.saved.isNone && match (plansFor unplaced h 0)[0]? with | some [p] => inService unplaced p.cluster | _ => false
      | none => false) = true := by decide +kernel

/-- The placed team without its keystone context, asked to yield at cycle 0; its group as f says. -/
def asked (f : Group → Group) : State :=
  { base with groups := [f placedGroup], teams := [{ placedTeam with preReq := some 0, pad := [], hw := none }]
              contexts := base.contexts.map fun x => (x.1, { x.2 with saveb := 0x100000, savesz := 64, saven := 1 }) }

/-- A group whose lanes have all yielded. -/
def yieldedGroup (g : Group) : Group := { g with lanes := g.lanes.map fun x => { x with st := .waiting, at_ := .yield } }

/-- Slot k of the vault holds the image. -/
def vaulted (k : Nat) (im : Image) (s : State) : State := { s with vault := [(k, some im)] }

/-- The image of tile 0 without a group. -/
def emptyImage : Image := { tile := 0, cause := 0x50, groups := [], core := {} }

/-- The header that R328 gives an image of tile kind n: its magic number, kind, stepping, map hash and length. -/
def imageHead (n : Nat) : List Byte := toBytes 4 0x4958584B ++ toBytes 4 (n + 0xA000) ++ toBytes 8 (Config.mapHash n).toNat ++ toBytes 8 72 ++ List.replicate 40 0

/-- Slot k holds that header, and the CRC over it. -/
def headed (k n : Nat) (s : State) : State :=
  held (slotAt k + 64) (toBytes 8 (crc64 0 (imageHead n)).toNat) (held (slotAt k) (imageHead n) s)

theorem mget_memPut (m : Mem) (a : Nat) (bs : List Byte) (j : Nat) :
    mget 0 (memPut m a bs) j = if a ≤ j then (bs[j - a]?).getD (mget 0 m j) else mget 0 m j := by
  induction bs generalizing m a with
  | nil => simp [memPut]
  | cons b bs ih =>
    rw [memPut, ih, mget_mput]
    by_cases h1 : a + 1 ≤ j
    · obtain ⟨e, rfl⟩ := Nat.exists_eq_add_of_le h1
      have h3 : a + 1 + e - a = e + 1 := by omega
      have h4 : a + 1 + e - (a + 1) = e := by omega
      have h5 : ¬ a + 1 + e = a := by omega
      have h6 : a ≤ a + 1 + e := by omega
      rw [if_pos h1, h4, if_neg h5, if_pos h6, h3, List.getElem?_cons_succ]
    · by_cases h2 : j = a
      · subst h2; simp
      · have h3 : ¬ a ≤ j := by omega
        simp only [h1, h2, h3, if_false]

theorem ofBytes_toBytes (n v : Nat) : ofBytes (toBytes n v) = v % 256 ^ n := by
  induction n generalizing v with
  | zero => simp [toBytes, ofBytes, Nat.mod_one]
  | succ n ih =>
    rw [toBytes, ofBytes, ih, BitVec.toNat_ofNat]
    have : 256 ^ (n + 1) = 256 * 256 ^ n := by rw [Nat.pow_succ, Nat.mul_comm]
    rw [this, Nat.mod_mul]

theorem length_toBytes (n v : Nat) : (toBytes n v).length = n := by
  induction n generalizing v with
  | zero => rfl
  | succ n ih => rw [toBytes, List.length_cons, ih]

theorem getElem?_span (a n i : Nat) : (span a n)[i]? = if i < n then some (a + i) else none := by
  induction n generalizing a i with
  | zero => simp [span]
  | succ n ih => cases i with
    | zero => simp [span]
    | succ i => simp [span, ih, Nat.add_assoc, Nat.add_comm 1]

theorem physRead_headed (k n o m : Nat) (s : State) (h : s.nearStacks = []) (ho : o + m ≤ 72) :
    physRead (headed k n s) (slotAt k + o) m = ((imageHead n ++ toBytes 8 (crc64 0 (imageHead n)).toNat).drop o).take m := by
  have hl : (imageHead n).length = 64 := by simp [imageHead, length_toBytes]
  have hr : routeAlias (headed k n s) (slotAt k + o) = slotAt k + o := by
    unfold routeAlias headed held
    simp [h, mget]
  unfold physRead
  rw [hr]
  apply List.ext_getElem?
  intro i
  rw [List.getElem?_map, getElem?_span, List.getElem?_take, List.getElem?_drop]
  by_cases hi : i < m
  · rw [if_pos hi, if_pos hi, Option.map_some, headed, held, held, mget_memPut, mget_memPut]
    by_cases h1 : o + i < 64
    · rw [if_neg (by omega), if_pos (by omega), List.getElem?_append_left (by omega)]
      have : slotAt k + o + i - slotAt k = o + i := by omega
      rw [this, List.getElem?_eq_getElem (by omega)]; rfl
    · rw [if_pos (by omega), List.getElem?_append_right (by omega), hl]
      have : slotAt k + o + i - (slotAt k + 64) = o + i - 64 := by omega
      rw [this, List.getElem?_eq_getElem (by rw [length_toBytes]; omega)]; rfl
  · rw [if_neg hi, if_neg hi]; rfl

/-- The slot so filled passes the checks of R329 for a tile of its kind. -/
theorem slotCheck_headed (k tile : Nat) (s : State) (h : s.nearStacks = []) : slotCheck (headed k (tileKind tile) s) k tile = 0 := by
  have hn : tileKind tile = 0 ∨ tileKind tile = 1 := by unfold tileKind; split <;> simp
  have hl : (imageHead (tileKind tile)).length = 64 := by simp [imageHead, length_toBytes]
  have hq : ∀ v : BitVec 64, v.toNat % 256 ^ 8 = v.toNat := fun v => Nat.mod_eq_of_lt v.isLt
  have h5 : physNum (headed k (tileKind tile) s) (slotAt k + 5) 1 = 0xA0 := by
    rw [physNum, physRead_headed k _ 5 1 s h (by decide)]; rcases hn with e | e <;> rw [e] <;> rfl
  have h8 : physNum (headed k (tileKind tile) s) (slotAt k + 8) 8 = (Config.mapHash (tileKind tile)).toNat := by
    have : ((imageHead (tileKind tile) ++ toBytes 8 (crc64 0 (imageHead (tileKind tile))).toNat).drop 8).take 8 = toBytes 8 (Config.mapHash (tileKind tile)).toNat := rfl
    rw [physNum, physRead_headed k _ 8 8 s h (by decide), this, ofBytes_toBytes, hq]
  have h16 : physNum (headed k (tileKind tile) s) (slotAt k + 0x10) 8 = 72 := by
    rw [physNum, physRead_headed k _ 0x10 8 s h (by decide)]; rfl
  have h64 : physNum (headed k (tileKind tile) s) (slotAt k + 64) 8 = (crc64 0 (imageHead (tileKind tile))).toNat := by
    have : ((imageHead (tileKind tile) ++ toBytes 8 (crc64 0 (imageHead (tileKind tile))).toNat).drop 64).take 8
        = toBytes 8 (crc64 0 (imageHead (tileKind tile))).toNat := by
      rw [List.drop_append_of_le_length (by omega), List.drop_of_length_le (by omega), List.nil_append, List.take_of_length_le (by rw [length_toBytes])]
    rw [physNum, physRead_headed k _ 64 8 s h (by decide), this, ofBytes_toBytes, hq]
  have h0 : physRead (headed k (tileKind tile) s) (slotAt k) 64 = imageHead (tileKind tile) := by
    have := physRead_headed k (tileKind tile) 0 64 s h (by decide)
    rw [Nat.add_zero, List.drop_zero, List.take_append_of_le_length (by omega), List.take_of_length_le (by omega)] at this
    exact this
  have ha : slotAt k + 72 - 8 = slotAt k + 64 := by omega
  unfold slotCheck
  simp only [h5, h8, h16, ha, h64, h0]
  simp
  decide

/-- The package with nothing placed and a complete image in slot 0. -/
def waitingImage : State := headed 0 0 (vaulted 0 { emptyImage with complete := true } { base with groups := [], teams := [], launches := [] })

/-- An image with the placed group, exported under the id that slot 2 holds. -/
def outImage : Image := { emptyImage with groups := [placedGroup], complete := true, exported := true, id := BitVec.ofNat 64 (crc64 0 (imageHead 0)).toNat }

/-- The placed group about to issue a store of lanes 0 and 31 to one address, and the state after it has issued with its stores still in the core. -/
def storePlaced : State :=
  { placeWord State.reset ((encode (.stB32 8 4 64 0)).getD 0) with agenda := [], groups := [few { placedGroup with regs := someRegs }, placedKey] }
def storeHeld : State := holdTurn storePlaced (.group 1 0) 0

theorem test_held_store_leaves_later : (coreOf storeHeld 0).stores.map (fun h => (h.lane, h.va, h.cells)) =
      [(0, 0x40000, [([], 2), ([], 0), ([], 0), ([], 0)]), (31, 0x40000, [([31, 0], 2), ([31, 0], 0), ([31, 0], 0), ([31, 0], 0)])] ∧
    physNum storeHeld 0x40000 4 = 0 ∧ readyPaths storeHeld = [(.key 1, 0)] ∧ physNum (leaveStore storeHeld 0) 0x40000 4 = 0 ∧
    physNum (leaveStore (leaveStore storeHeld 0) 0) 0x40000 4 = 2 := by decide +kernel

/-- The stores of a restored group, whose translation an INVAL marked stale; the table of their page is gone. -/
def storeStale : State :=
  modCore { storeHeld with agenda := [.leave 0], mem := mput 0 storeHeld.mem 0x2000 0, tlb := [], ptrs := [] } 0 fun k =>
    { k with stores := k.stores.map fun h => { h with stale := true } }

theorem witness_HeldStores : storeHeld.agenda = [] ∧ (coreOf storeHeld 0).stores.length = 2 ∧ (coreOf storeHeld 0).frozen = none ∧
    (coreOf storeHeld 0).dbgFrozen = false ∧ ((coreOf storeHeld 0).stores.all fun h => (findGroup storeHeld h.who).isSome && !h.stale) = true ∧
    (teamOf storeHeld 1).status = .resident ∧ storeStale.agenda = [.leave 0] ∧
    (match (coreOf storeStale 0).stores with
      | h :: _ => h.stale && match lookAt { storeStale with agenda := [] } (laneEnv storeStale ((findGroup storeStale h.who).getD placedKey) h.lane) .write h.va.toNat h.cells.length with
        | (_, .stop x _) => x == 0x10
        | _ => false
      | [] => false) = true := by decide +kernel

theorem witness_FreezesSavesAndImagesKeepGroups :
    (deadlineDue (asked id) (teamOf (asked id) 1) = true ∧ unyieldedTiles (asked id) 1 = [0] ∧ freeSlot (asked id) 0 = some 0) ∧
    (deadlineDue base (teamOf base 1) = false ∧ saveDue base (teamOf base 1) = false) ∧
    (saveDue (asked yieldedGroup) (teamOf (asked yieldedGroup) 1) = true ∧ freeSaves (asked yieldedGroup) 0 = [0]) ∧
    (mget none (vaulted 0 emptyImage base).vault 0 = some emptyImage ∧ emptyImage.complete = false ∧ mget none base.vault 0 = none) ∧
    (mayMove (vaulted 0 emptyImage base) emptyImage = true ∧ mayMove base { emptyImage with groups := [placedGroup] } = false) ∧
    (mayRestore waitingImage 0 5 { emptyImage with complete := true } = true ∧ physNum waitingImage (slotAt 0 + 7) 1 % 2 = 0) ∧
    (slotFree base 2 = true ∧ slotFree base 359 = true ∧ tileIdle base 0 = false ∧ tileIdle base 5 = true ∧ tileIdle base 179 = true ∧
      physNum (held (slotAt 359) (toBytes 4 0x4958584B ++ [1]) base) (slotAt 359) 4 = 0x4958584B ∧
      physNum (held (slotAt 359) (toBytes 4 0x4958584B ++ [1]) base) (slotAt 359 + 4) 1 = tileKind 179 ∧
      slotCheck (held (slotAt 359) (toBytes 4 0x4958584B ++ [1]) base) 359 179 = 3) := by
  refine ⟨by decide +kernel, by decide +kernel, by decide +kernel, by decide +kernel, by decide +kernel, ⟨?_, ?_⟩, by decide +kernel⟩
  · have h : slotCheck waitingImage 0 5 = 0 := slotCheck_headed 0 5 _ rfl
    unfold mayRestore
    rw [h]
    decide +kernel
  · rw [physNum, waitingImage, physRead_headed 0 0 7 1 _ rfl (by decide)]; rfl

theorem witness_ImportedImages :
    (slotCheck (headed 2 0 base) 2 5 = 0 ∧ physNum (headed 2 0 base) (slotAt 2) 4 = 0x4958584B ∧ physNum (headed 2 0 base) (slotAt 2 + 4) 1 = tileKind 5 ∧
      physNum (headed 2 0 base) (slotAt 2 + 7) 1 % 2 = 0 ∧ tileIdle (headed 2 0 base) 5 = true ∧ slotFree (headed 2 0 base) 2 = true) ∧
    namedImage (headed 2 0 { base with imagesOut := [outImage] }) 2 = outImage ∧ clusterSuits (headed 2 0 { base with imagesOut := [outImage] }) outImage 1 = false ∧
    clusterSuits (headed 2 0 base) emptyImage 1 = true := by
  refine ⟨⟨slotCheck_headed 2 5 _ rfl, ?_, ?_, ?_, by decide +kernel, by decide +kernel⟩, ?_, by decide +kernel, by decide +kernel⟩
  · have := physRead_headed 2 0 0 4 base rfl (by decide)
    rw [Nat.add_zero] at this
    rw [physNum, this]; rfl
  · rw [physNum, physRead_headed 2 0 4 1 base rfl (by decide)]; rfl
  · rw [physNum, physRead_headed 2 0 7 1 base rfl (by decide)]; rfl
  · have h : physNum (headed 2 0 { base with imagesOut := [outImage] }) (slotAt 2 + 64) 8 = (crc64 0 (imageHead 0)).toNat := by
      have : ((imageHead 0 ++ toBytes 8 (crc64 0 (imageHead 0)).toNat).drop 64).take 8 = toBytes 8 (crc64 0 (imageHead 0)).toNat := by
        have hl : (imageHead 0).length = 64 := by simp [imageHead, length_toBytes]
        rw [List.drop_append_of_le_length (by omega), List.drop_of_length_le (by omega), List.nil_append, List.take_of_length_le (by rw [length_toBytes])]
      rw [physNum, physRead_headed 2 0 64 8 _ rfl (by decide), this, ofBytes_toBytes]
      exact Nat.mod_eq_of_lt (crc64 0 (imageHead 0)).isLt
    unfold namedImage
    rw [h]
    simp [headed, held, firstWhere, outImage]

/-- The vector group with the lanes at f. -/
def lanesBe (f : Lane → Lane) (s : State) : State := { s with groups := s.groups.map fun g => { g with lanes := g.lanes.map f } }

/-- Lanes 0 to 30 wait at a reconvergence point that lane 31 has gone past, or is still to reach. -/
def waitingAtPoint (past : Bool) : State :=
  { base with groups := [{ placedGroup with lanes := lanes32.map fun l => if l = 31 then { placedLane l with pc := if past then 0x10100 else 0xFF00 }
                                                       else { placedLane l with st := .waiting, at_ := .hard } }] }

/-- Bin 0 of tile 0 holds n lanes of the placed team. -/
def binned (n : Nat) : State :=
  { base with groups := [], cores := [(0, { bins := [{ team := 1, role := 0, pc := 0x10000, lanes := (upto n).map fun l =>
      { lane := placedLane l, kept := [], fpcr := 0, fpflags := 0, winb := 0, nregs := 128, budget := 4096, at_ := 0 } }] })] }

/-- The placed group with all its lanes in a state. -/
def lanesAll (st : LaneState) : Group := { placedGroup with lanes := placedGroup.lanes.map fun x => { x with st := st } }

/-- The placed group with a load and a store that are still to complete. -/
def pendingGroup : Group := { placedGroup with pend := [{ regs := [3], masks := [], left := [1] }, { regs := [4], masks := [], left := [0] }] }

/-- Group 0 of the placed team. -/
def groupOf (s : State) : Group := (findGroup s (.group 1 0)).getD placedKey

theorem witness_GroupsChangeBetweenInstructions :
    ((findGroup base (.group 1 0)).isSome = true ∧ (groupOf base).away = false ∧ allStopped (groupOf base) = false) ∧
    (allStopped { lanesAll .parked with subs := [{ lanes := 0xFFFFFFFF, pcmask := 0, cause := 0x10 }] } = true ∧ allStopped (lanesAll .parked) = false) ∧
    (groupOf { base with groups := [{ placedGroup with away := true }] }).away = true ∧ pendingGroup.pend.length = 2 ∧
    (teamOf base placedGroup.team).status = .resident ∧ (teamOf { base with teams := [{ placedTeam with status := .saved }] } placedGroup.team).status ≠ .resident ∧
    (pointOpen (groupOf base) 0 = false ∧ pointOpen (groupOf (waitingAtPoint true)) 0 = true ∧ pointOpen (groupOf (waitingAtPoint true)) 31 = false) ∧
    (([32, 33, 1] : List Nat).all fun n => match binAt (binned n) 0 0 with
      | some b => drawFits (binned n) 0 b && (drawDue (binned n) 0 b)
      | none => false) = true ∧
    (match binAt (binned 1) 0 0 with | some b => !drawAged (binned 1) 0 b && drawAged { binned 1 with cycle := 100000 } 0 b | none => false) = true ∧
    (quarryBase < quarryEnd ∧ errRingOk base = false ∧ unitOk 0x0100000000000000 = true ∧ unitOk 0x0A00000000000000 = false) ∧
    (padSpot (teamOf base 1) 131071 1 = .pad 0 131071 1 ∧ 131071 < padSize (teamOf base 1)) ∧
    (mayIssue base (groupOf base) = true ∧ pathOf (groupOf base) (lowestLane 0x80000000) &&& (groupOf base).mask 0 ≠ 0 ∧ (groupOf base).region = none) := by
  decide +kernel

/-- The placed group with a sub-group of lane 31 to be delivered. -/
def dueGroup : Group := { placedGroup with subs := [{ lanes := 0x80000000, pcmask := 0, cause := 1 }] }

theorem witness_TakingAnExceptionEntersTheHandler : (([0, 1] : List Nat).all fun k => !pinned base dueGroup (winReg dueGroup dueGroup.winb k)) = true ∧
    (lanes32.all fun l => !(placedGroup.lane l).handler) = true ∧ findGroup base placedGroup.who = some placedGroup ∧ placedGroup.key = none ∧
    dueSub dueGroup = some 0 ∧ (contextOf base (teamOf base 1).ctx).trap ≠ 0 ∧ isDebug base (teamLaunch base (teamOf base 1)) = false ∧
    (match writeAt { base with groups := [dueGroup] } (devEnv base 0 false) (trapRecAddr base dueGroup) (trapRecord base dueGroup (nth { lanes := 0, pcmask := 0, cause := 0 } dueGroup.subs 0) false) with
      | (_, .done) => true
      | _ => false) = true := by decide +kernel

/-- The path about to execute an instruction with an encoding, and what p says of it. -/
def checked (s : State) (i : Instr) (p : Ctx → Bool) : Bool := match issuer s with
  | some c => (encode i).isSome && p c
  | none => false

theorem witness_ChecksTrapBeforeAnyEffect :
    checked (vec id) (.add 127 1 2) (fun c => c.act != 0 && wordCauses { c with g := { c.g with nregs := 64 } } (.add 127 1 2) != []) = true ∧
    checked (vec id) (.ldB64 1 4 0x50 2) (fun c => c.act != 0 && wordCauses c (.ldB64 1 4 0x50 2) != []) = true ∧
    checked (vec fun g => { g with masks := setNth g.masks 0 0 }) (.add 10 6 8) (fun c => c.act == 0 && !(Instr.add 10 6 8).isPath && (dueSub c.g).isNone &&
      fileRoom c.s c.g (.add 10 6 8)) = true ∧
    checked (vec id) (.mzero 2) (fun c => c.g.key.isNone && (Instr.mzero 2).isMatrix) = true ∧
    (([.tret 4, .halt] : List Instr).all fun i => checked (vec id) i fun c => c.g.key.isNone && !(c.g.lane (lowestLane c.path)).handler) = true := by decide +kernel

/-- Channel 7 of cluster 0 is as h says. -/
def channelled (h : Chan) (s : State) : State := { s with clusters := s.clusters.map fun x => (x.1, { x.2 with chans := [(7, h)] }) }

/-- A copy of one row of 64 bytes from 0x40000 to 0x50000. -/
def oneCopy : Cmd := { team := 1, g := 0, kind := .copy, regs := [0x40000, 0, 0x50000, 0, 1, 64, 64, 64] }

/-- A selection of the largest of 32 keys of tile 1 into tile 2. -/
def oneSelect : Cmd := { team := 1, g := 0, kind := .select, regs := [0x400, 0x7F00, 0x800, 0x7F00, 32, 1, 0, 0] }

/-- The copy with n bytes landed. -/
def landed (n : Nat) : State := channelled { run := some { cmd := oneCopy, landed := n } } base

/-- The next word of a copy may land. -/
def mayLand (n : Nat) : Bool := match (chanOf (landed n) 0 7).run with
  | some r => !r.ended && r.err == 0 && r.landed < runTotal r && wordBytes r (runTotal r) n == 4 &&
      match landBytes (landed n) (teamOf (landed n) 1) 0 7 r n 4 with
      | (.ok s1 bs, _) => bs.length == 4 && match engPut s1 (teamOf s1 1) (cmdWriter 0 7 r.cmd) false (destAt r n) (destCells r n bs) with | .ok _ [] => true | _ => false
      | _ => false
  | none => false

/-- A chain whose record at 0x40000 is not valid, or is a copy. -/
def chained (valid : Bool) : State :=
  channelled { chain := some { cmd := { oneCopy with kind := .chain }, p := 0x40000 } }
    (if valid then held 0x40000 (recordOf 64 [(0, 8, 0x60000), (8, 8, 0x70000), (16, 4, 1), (20, 4, 64), (24, 4, 64), (28, 4, 64), (0x28, 4, 1)]) base else base)

theorem witness_CopyEngineRunsItsChannels :
    (chanIdle (chanOf (channelled { cmds := [oneCopy] } base) 0 7) = true ∧ oneCopy.kind = .copy) ∧
    (selForm oneSelect.regs).n = 32 ∧ (match readKeys (teamed selTiles base) (teamOf (teamed selTiles base) 1) (cmdSource 0 7 oneSelect)
      ((upto 32).map fun i => (selForm oneSelect.regs).keys + 4 * i) with | (_, .ok l) => l.length == 32 | _ => false) = true ∧
    (mayLand 0 ∧ mayLand 60 ∧ !mayLand 64) ∧
    (runTotal { cmd := oneCopy, landed := 64 } = 64 ∧ oneCopy.seq = 0 ∧ teamAlive (landed 64) 1 = true ∧ (findTeam (landed 64) 1).isSome = true) ∧
    ((match engWrite base placedTeam (cmdWriter 0 7 { oneCopy with seq := 1 }) (stampAt { oneCopy with seq := 1 }) (toBytes 8 1) with | .ok _ [] => true | _ => false) = true) ∧
    (([false, true] : List Bool).all fun v => match readAt (chained v) (engEnv (chained v) (teamOf (chained v) 1)) .read 0x40000 64 with
      | (_, .ok b) => (match lookAt (chained v) (engEnv (chained v) (teamOf (chained v) 1)) .read 0x40000 64 with | (_, .hit _) => true | _ => false) &&
          fieldOf b 0x28 4 % 2 == v.toNat && !recordReserved b && (!v || copyCause (teamOf (chained v) 1) false none (copyForm (recordRegs b)) == 0) &&
          (copyForm (recordRegs b)).xf == 0 && (sideTile (teamOf (chained v) 1) (copyForm (recordRegs b)).src).isNone
      | _ => false) = true ∧
    (dueHandBack 1 (teamOf base 1).ops = none ∧ (dueHandBack 63 [{ id := 0, tiles := [63], hb := true, complete := true }]).isSome = true) ∧
    (findTeam base 1).isSome = true ∧ (queueOf (teamOf base 1) 3).length < 16 ∧ 16 ≤ (queueOf (teamOf (teamed (queued 3 16) base) 1) 3).length := by decide +kernel

/-- The placed keystone context with an operation at the head of its queue that has had n turns. -/
def served (op : MOp) (n : Nat) (t : Team → Team) : State :=
  teamed t { base with groups := (upto 4).map (fun k => { placedGroup with idx := k, core := k }) ++ [{ placedKey with key := some { mq := [{ op := op, opId := 0, turns := n }] } }] }

/-- Its head may run. -/
def mayRun (s : State) : Bool := match findGroup s (.key 1) with
  | some g => (readyHead s g).isSome && hasTurn s (teamOf s 1).cluster 0 && g.key.isSome
  | none => false

/-- Quarters held by groups of the four cores. -/
def quarters4 : List Quarter := (upto 4).map fun k => { hold := { g := k, first := 64, len := 64 }, vals := [] }

theorem witness_MatrixUnitServesItsQueues :
    (mayRun (served (.zero 0xF) 0 id) ∧ mayRun (served (.load 3 0x7F0000000400) 0 (engined 1 128)) ∧ mayRun (served (.mma 3 1 0 32 0 quarters4) 0 (engined 4 4096)) ∧
      mayRun (served (.mma 0 1 0 8192 7 quarters4) 0 (engined 2 4096)) ∧ mayRun (served (.drain 3 true 1 0 5 0 false) 0 (engined 5 32768)) ∧
      mayRun (served (.scale 3 1 0) 0 (engined 1 512))) ∧
    base.refused = [] ∧ inAperture 0x7F0000000400 1 = true ∧
    (mmaTurns 0 32 ≤ 0 + 1 ∧ 0 + 1 < mmaTurns 7 8192) ∧
    fourCores (served (.mma 3 1 0 32 0 quarters4) 0 (engined 4 4096)) 1 quarters4 = true ∧
    (match readA base (engined 4 4096 placedTeam) (tileOf (engined 4 4096 placedTeam) 1) 32 0 32 with | .ok _ => true | _ => false) = true ∧
    (padGet base placedTeam (Config.aperture + 1024) 512).isSome = true := by decide +kernel

/-- Log 0 of context 0 has its entry at 0x90000: 1 MiB of the Quarry tier, empty. An append of n bytes stands at 0x40000. -/
def logged (n : Nat) : State :=
  held 0x90000 (toBytes 8 (quarryBase + 1) ++ toBytes 8 0x100000) (held 0x40000 (recordOf 32 [(0, 8, 0x60000), (8, 4, n)])
    { base with ctl := { base.ctl with logtb := [(0, 0x90000)] }, masonQ := [(1, 0x40000)] })

/-- The append of log 0 meets nothing that stops it. -/
def mayAppend (n : Nat) : Bool := match findTeam (logged n) 1 with
  | some t0 => t0.status == .resident && t0.twin.isNone && teamAlive (logged n) 1 && (queueOf t0 12).length < 16 &&
      posOf (fun (x : Nat × W64) => x.1 == 1) (logged n).masonQ == some 0 &&
      match readAt (logged n) (masonEnv (logged n) t0) .read 0x40000 32 with
      | (s1, .ok b) => !(appendOf b).reserved && (appendOf b).len == n && match logOf s1 t0.ctx (appendOf b).log with
        | some l => l.cur + n ≤ l.size && match readLines s1 (masonEnv s1 t0) (linesOf (appendOf b).src n) with
          | (s2, .ok _) => (match writePos s2 t0 0x40000 l.cur with | (_, .done) => true | _ => false)
          | _ => false
        | none => false
      | _ => false
  | none => false

theorem witness_MasonAnswersInQueueTwelve : (mayAppend 1 ∧ mayAppend 200) ∧ base.refused = [] ∧ base.saved = [] ∧
    posOf (fun (c : Course) => c.team == 1 && c.log == 255 && c.sealed) [{ team := 1, ctx := 0, log := 255, sealed := true }] = some 0 := by decide +kernel

/-- Port 0 and port 15 are up, with an operation to endpoint 5 that is a put of n bytes, or a pennant. -/
def sending (put : Option Nat) (s : State) : State :=
  { s with ctl := { s.ctl with fport := [(0, 3), (15, 3)] }
           fabOps := [(0, some { team := 1, dest := 5, va := 0, rpa := fabricBase, src := 0x40000, len := put.getD 0, pennant := if put.isSome then none else some 7, tids := [0], at_ := 0 })] }

/-- A packet of that operation is on its way, sent again k times. -/
def sent (k : Nat) : State :=
  { sending none base with timeFs := 10 ^ 15, pkts := [{ no := 3, seq := 0, op := 0, team := 1, dest := 5, rpa := 0, data := [], bad := [], pennant := some 7, port := 0, entropy := 0, resends := k }] }

/-- Endpoint 5 may write the first GiB; its stream 0 has come to position 0, and holds a pennant at position n. -/
def receiving (n : Nat) : State :=
  { base with ctl := { base.ctl with inb := [(0, BitVec.ofNat 128 (5 + 2 ^ 20 + 2 ^ 64))] }
              inStreams := [{ src := 5, stream := 0, seen := [0], held := [{ src := 5, stream := 0, seq := n, pa := 0x40000, data := [], bad := [], pennant := some 7 }] }] }

theorem witness_FabricDeliversAndReports :
    (pathLive (sending none base) 5 0 0 = true ∧ pathLive (sending none base) 5 15 63 = true ∧ pathLive (sending none base) 5 1 0 = false ∧
      (fabOp (sending none base) 0).any (fun op => (sendPaths (sending none base) op).contains (15, 63) && streamRoom (sending none base) op) = true ∧
      (fabOp (sending (some 65536) base) 0).any (fun op => (sendPaths (sending (some 65536) base) op).contains (0, 0) && streamRoom (sending (some 65536) base) op) = true ∧
      oldestToSend (sending none base) 1 5 = some 0) ∧
    (oldestToSend (sending (some 65536) base) 1 5 = some 0 ∧ Nat.min 4096 (65536 - 0) = 4096 ∧
      (match readSource (sending (some 8) base) (devEnv (sending (some 8) base) 0 true .fabric) { agent := .device, at_ := 0, view := {} } (cutWords 8 0x40000 8) with | .ok _ _ => true | _ => false) = true) ∧
    ((outPkt (sent 0) 3).isSome = true ∧ (fabOp (sent 0) 0).isSome = true ∧ rtoFs (sent 0) ≤ (sent 0).timeFs ∧ 0 < retryLimit (sent 0) ∧ retryLimit (sent 255) ≤ 255 ∧
      (outPkt (sent 0) 3).any (fun p => (resendPaths (missPath (sent 0) 5 0 0) p).contains (15, 0)) = true ∧ livePaths (missPath base 5 0 0) 5 = [] ∧ (sending none base).timeFs < 0 + rtoFs (sending none base)) ∧
    (bits (mget 0 (sent 0).ctl.fport 15).toNat 1 1 = 1 ∧ bits (mget 0 (sent 0).ctl.fport 15).toNat 0 1 = 1 ∧ bits (mget 0 base.ctl.fport 15).toNat 1 1 = 0 ∧
      bits (mget 0 base.ctl.fport 15).toNat 0 1 = 0) ∧
    (pathRec { sent 0 with paths := [{ dest := 5, port := 0, entropy := 0, dead := true }] } 5 0 0).any (fun r => r.dead && portUp (sent 0) 0 &&
      r.diedAt + 1000000000000 ≤ (sent 0).timeFs) = true ∧
    (inboundOk (receiving 1) 5 0x40000 8 = true ∧ inboundOk (receiving 1) 5 0x3FFFFFF8 8 = true ∧ inboundOk (receiving 1) 5 0x40000000 1 = false ∧
      inboundOk base 5 0x40000 8 = false) ∧
    (([1, 2] : List Nat).all fun n => match (heldPennants (receiving n))[0]? with
      | some (x, p) => p.pennant == some 7 && ((upto p.seq).all x.seen.contains == (n == 1))
      | none => false) = true ∧
    (1 ≤ ((1 : BitVec 8) - BitVec.ofNat 8 0).toNat ∧ ((127 : BitVec 8) - BitVec.ofNat 8 0).toNat ≤ 127) := by decide +kernel

/-- The argument registers. -/
def margs (a b : W64) : State := { base with ctl := { base.ctl with marg0 := a, marg1 := b } }

/-- Extent 255 is at the first attached byte, in a state. -/
def extended (st : Nat) : State := { base with extents := [(255, { base := attachedBase, len := 0x10000000, state := st })] }

/-- Queue 5 is bound for requester 7, without a PASID. -/
def requested : State := held 0x90000 (toBytes 8 (7 + 2 ^ 37)) { base with ctl := { base.ctl with pxbb := 0x90000 } }

/-- The placed group with a sub-group parked for the page at 0, not yet delivered. -/
def parkedGroup : Group := { placedGroup with
  lanes := placedGroup.lanes.map fun x => { x with st := .parked }
  subs := [{ lanes := 0xFFFFFFFF, pcmask := 0, cause := 0x10, filed := true }] }

/-- A notification of a kind waits for the queue, which has room, while a MAPOUT of slot 14 of stack 0 is under way. -/
def noticed (k : Nat) : State :=
  { base with noticeQ := [{ kind := k }], mapout := some (0, 14), ctl := { base.ctl with nqb := 0x70000, nqc := 6 } }

theorem witness_MemoryEventsKeepTheirTables :
    (base.ctl.mcmdBusy = false ∧ peersHold base = false ∧ (sending none base).fabOps.length = 1 ∧ (sent 0).inval = none ∧
      ({ base with inval := some (rangeArgs base) } : State).inval.isSome = true) ∧
    (({ base with groups := [parkedGroup] } : State).groups.all fun g => groupTile base g < nTiles && !g.dbgHalt && findGroup { base with groups := [parkedGroup] } g.who == some g
      && g.subs.any fun u => u.late && !u.delivered && replayNames (margs 0 0x100000) 0 (u.cause == 0x13) u.token) = true ∧
    (let s := { extended 3 with groups := [], teams := [] }
     s.extents = [(255, { base := attachedBase, len := 0x10000000, state := 3 })] ∧ s.groups = [] ∧ s.teams = []) ∧
    (([1, 2, 3, 6] : List Nat).all fun k => (noticed k).noticeQ.length == 1 && nqFree (noticed k) && (noticed k).mapout == some (0, 14)) = true ∧
    (let w := Swap.mk 0x50000 farBase 1 false false []
     swapBytes w = 4096 ∧ (mget ({} : Swap) base.swaps 63).state = 0 ∧ w.x + swapBytes w ≤ nearEnd ∧ farBase ≤ w.y ∧ w.y + swapBytes w ≤ farEnd ∧
       inSwap base w.x 4096 = false ∧ inSwap base w.y 4096 = false ∧ (farBase + 63) / 128 * 128 = w.y ∧ (farBase + 63) % 64 = 63) ∧
    (let st := mget ({} : Stack) base.nearStacks 11
     st.alias_ = none ∧ base.ck.busy = false ∧ 14 < st.slots - 1 ∧ holdsVault 0 0 = false ∧ holdsVault 0 15 = false ∧ holdsVault 0 14 = false) ∧
    ((mget ({} : Extent) (extended 1).extents 255).state = 1 ∧ (mget ({} : Extent) (extended 2).extents 255).state = 2 ∧ (mget ({} : Extent) base.extents 255).state = 0) ∧
    (quarryBase % 4096 = 0 ∧ quarryBase ≤ quarryEnd - 4096 ∧ quarryEnd - 4096 + 4096 ≤ quarryEnd) ∧
    (let w := Swap.mk 0x50000 farBase 1 false false []
     31 < swapBytes w / 128 ∧ 31 ∉ w.prog ∧ overlap (routeAlias base (w.x + 128 * 31)) 128 (routeAlias base (w.y + 128 * 31)) 128 = false) ∧
    (attachedBase + 1 * 2 ^ 48 ≤ attachedBase + 2 ^ 48 + 2 ^ 48 - 4096) ∧
    (faultRoom { base with ctl := { base.ctl with fltb := 0x70000, fltc := 6 } } = true ∧ nqFree { base with ctl := { base.ctl with nqb := 0x70000, nqc := 6 } } = true) ∧
    (bits (mget 0 base.ctl.irqv 4).toNat 98 1 = 0) ∧
    (match readAt base (hostEnv base 0) .read 0x40000 64 with | (_, .ok _) => true | _ => false) = true ∧
    (match readAt base (hostEnv base 0) .read 0x40000000 64 with | (_, .error (x, _)) => x == 0x10 | _ => false) = true ∧
    (base.hostMode.amo.isNone && match writeAt base (hostEnv base 0) 0x40000 [1, 2] (hostWriter base false) with | (_, .done) => true | _ => false) = true ∧
    (({ base with hostMode := { base.hostMode with amo := some 0 } } : State).hostMode.amo.isSome &&
      match lookAt base (hostEnv base 0) .atomic 0x40000 8 with | (_, .hit _) => true | _ => false) = true ∧
    (boundContext base 7 none = none ∧ boundContext requested 7 none = some 0) ∧
    (match readAt requested (peerEnv requested 0) .read 0x40000 64 with | (_, .ok _) => true | _ => false) = true ∧
    (match writeAt requested (peerEnv requested 0) 0x40000 [1, 2] { agent := .peer } with | (_, .done) => true | _ => false) = true ∧
    (match writeAt requested (peerEnv requested 0) 0x40000000 [1, 2] { agent := .peer } with | (_, .stop _ _) => true | _ => false) = true ∧
    ((match Machine.translate requested (peerEnv requested 0) 0x40000 .read with | (_, .ok _) => true | _ => false) = true ∧
      (match Machine.translate requested (peerEnv requested 0) 0x40000000 .read with | (_, .error _) => true | _ => false) = true) := by
  decide +kernel

/-- The placed launch is a DEBUG launch of context 0, named by DBGL and DBGT; its group alone is resident. -/
def debugged (f : Group → Group) : State :=
  { base with groups := [f placedGroup], launches := [{ placedLaunch with lrec := { placedLaunch.lrec with lflags := 2 } }]
              ctl := { base.ctl with dbghb := [(0, 0x80000)], dbgl := 1 } }

/-- Tile 0 is frozen by the debugger, its image in slot 0. -/
def frozenByDebug : State :=
  { vaulted 0 { emptyImage with cause := 0x42, groups := [placedGroup], complete := true } (debugged id) with groups := [], cores := [(0, { dbgFrozen := true })] }

/-- A lane waits for its value, with a limit of one unit of time, which has passed. -/
def hanging : State :=
  { base with groups := [{ placedGroup with waits := [{ kind := .mwait, pc := 0x10000 }] }], timeFs := 1000000000000, ctl := { base.ctl with wdctl := 1 } }

/-- The debugged keystone context alone is resident. -/
def debuggedKey : State := { debugged id with groups := [placedKey] }

/-- The sample ring is set up, and an interval of 1024 cycles is over. -/
def sampling : State := { base with cycle := 1024, ctl := { base.ctl with smpb := 0x70000, smpc := 0x106 } }

/-- The hanging launch is to be killed. -/
def killing : State := { hanging with ctl := { hanging.ctl with wdctl := 2 ^ 32 + 1 } }

theorem witness_DebuggerActsOnItsTargets :
    (dbgBusy (debugged id) = false ∧ (imagedGroups (debugged id) ++ savedGroups (debugged id)) = [] ∧
      ((debugged id).groups.filter fun h => (targetOf (debugged id) 1).covers (debugged id) h && inDebug (debugged id) h) = [placedGroup] ∧
      placedGroup.key = none ∧ placedGroup.dbgHalt = false ∧ placedGroup.haltDue = false) ∧
    ((debugged fun g => { g with dbgHalt := true }).groups.all fun g => g.dbgHalt && (targetOf (debugged id) 1).covers (debugged id) g) = true ∧
    (let s := { debugged id with groups := [] }
     (s.groups ++ imagedGroups s ++ savedGroups s).any ((targetOf s 0x202).covers s) = false ∧ (targetOf s 0x202).scope = 2) ∧
    (freezeTiles (debugged id) (targetOf (debugged id) 3) = [0] ∧ (coreOf (debugged id) 0).dbgFrozen = false ∧ (coreOf (debugged id) 0).frozen = none ∧
      freeSlot (debugged id) 0 = some 0 ∧ freeSlot { debugged id with vault := [(0, some emptyImage), (1, some emptyImage)] } 0 = none) ∧
    (thawTiles (debugged id) (targetOf (debugged id) 4) = [] ∧ thawTiles frozenByDebug (targetOf frozenByDebug 4) = [0] ∧ (frozenSlot frozenByDebug 0).isSome = true ∧
      slotCheck frozenByDebug 0 0 ≠ 0) ∧
    (halyardGroup (debugged id) 0 0 = some placedGroup ∧ findGroup (debugged id) placedGroup.who = some placedGroup) ∧
    ((coreOf base 178).sampleAt = 0 ∧ 178 < nTiles ∧ 178 % 5 ≠ 4 ∧ sampleRoom base = false) ∧
    (sampleRoom sampling = true ∧ (coreGroups sampling 0).length = 1 ∧ (coreOf sampling 0).sampleAt + 1024 ≤ sampling.cycle) ∧
    ((debuggedKey.groups.filter fun h => (targetOf debuggedKey 0x101).covers debuggedKey h && inDebug debuggedKey h) = [placedKey] ∧ placedKey.key.isSome = true ∧
      (match halyardAddr debuggedKey (teamOf debuggedKey 1) placedKey with
        | some a => match writeAt (setGroup debuggedKey { placedKey with dbgHalt := true, haltAt := debuggedKey.timeFs }) (devEnv debuggedKey 0 false) a
            (keyStateBytes placedKey 0x42 0) with
          | (_, .done) => true
          | _ => false
        | none => false) = true) ∧
    (killing.ctl.wdctl.getLsbD 32 = true ∧ (findGroup killing (.group 1 0)).any (fun g => (g.waits.find? (hangDue killing g)).isSome) = true) ∧
    (findGroup hanging (.group 1 0)).any (fun g => (g.waits.find? (hangDue hanging g)).isSome) = true ∧
    (upto 16).find? (fun i => !hanging.ctl.hangst.getLsbD i) = some 0 := by decide +kernel

theorem witness_ThawedImage : slotCheck (headed 0 0 frozenByDebug) 0 0 = 0 := slotCheck_headed 0 0 _ rfl

/-- Cluster 35 in a state of its in-field test. -/
def fielded (n : Nat) : State := { base with clusters := [(35, { ftState := n })] }

/-- The area of the checkpoint holds the header of a whole one. -/
def checkpointed : State :=
  held quarryBase ((ckHeader base).take 0x48) { base with ctl := { base.ctl with ckb := BitVec.ofNat 64 quarryBase, cklen := 0x180000000000 } }

theorem witness_PackageEventsFollowTheirChapters :
    (headerFits checkpointed (physRead checkpointed quarryBase 0x1000) = true ∧ headerOk (physRead checkpointed quarryBase 0x1000) = true ∧ checkpointed.ck.busy = false ∧ checkpointed.ctl.ctxtb = 0 ∧ checkpointed.hasServed = false ∧
       Memory.wf checkpointed.mem = true) ∧
    (headerFits base (physRead base 0 0x1000) = false) ∧
    (35 < Config.nClusters ∧ Memory.wf base.mem = true ∧ 4 ∉ base.refused ∧ 2 ∉ base.refused) ∧
    (([0, 1, 2, 3, 4, 5] : List Nat).all fun n => (clusterOf (fielded n) 35).ftState == n) = true ∧
    (testRoom (fielded 2) 35 = true ∧ unitIn 35 0x0123000000000000 = true) ∧
    (let s := { base with ctl := { base.ctl with ckb := BitVec.ofNat 64 quarryBase, cklen := 0x180000000000 } }
     s.ck.busy = false ∧ s.ctl.ckb.toNat % 4096 = 0 ∧ s.ctl.ckb.toNat + s.ctl.cklen.toNat ≤ quarryEnd ∧ areaHolds s = true) ∧
    (deviceIdle { base with teams := [] } = true ∧ ({ base with ctl := { base.ctl with ctxtb := 1 } } : State).ctl.ctxtb ≠ 0) ∧
    (nextClock 3000 3001 0 1200 = 1200 ∧ nextClock 3000 3000 840 3600 = 3500 ∧ nextClock 3000 2850 799 3600 = 3600) := by decide +kernel

theorem witness_RegisterWritesActAsTheirRegister :
    35 < Config.nClusters ∧ Config.nClusters ≤ Config.nClusters ∧ writable 0x0010 = false ∧ base.cmd = none ∧
    (bankOf base 35 63).target = none ∧ (bankOf base 35 63).mode = 0 ∧ (bankOf base 0 0).mode = 1 ∧ bankHeld base 0 0 = true ∧ bankHeld base 0 1 = false ∧
    (bankOf { base with clusters := [(35, { banks := [(63, { target := some 2 })] })] } 35 63).target = some 2 := by decide +kernel

theorem witness_EncodeAndDecodeAgree : encode (.add 3 1 2) = some 0x200C0820 ∧ decode 0x200C0820 = .ok (.add 3 1 2) := by decide +kernel

/-- The placed machine with its turn. -/
theorem witness_StepRunsTheFetchedInstruction :
    (turnIssue { placeWord State.reset 0x200C0820 with agenda := [] } (.group 1 0) 0).2 = some (.add 3 1 2) ∧
    (match findGroup base (.group 1 0) with
      | some g => pathOf g 31 != 0 && mayIssue base g && !pathSpent g (pathOf g 31) && match fetchWord (placeWord base 0x200C0820) g 0 with
        | (_, .word x) => x == 0x200C0820
        | _ => false
      | none => false) = true ∧
    (turnIssue base (.group 1 7) 0).2 = none ∧ encode .quadrantCycle = none ∧
    (match nextTurn { base with held := true } with | (_, .dev _) => true | _ => false) = true := by decide +kernel

theorem witness_StepKeepsMemoryCanonical : (State.reset.withFetchWord 32 0x200C0820).memOk = true ∧
    (match step (State.reset.withFetchWord 32 0x200C0820) with | .next _ => true | _ => false) = true := by decide +kernel

/-! ## Witnesses of single clauses -/

/-- The placed team as a pair: team 1 is the primary, team 2 on cluster 1 its twin; group 0 of one of them is about to execute an instruction. -/
def pairedAs (lead : Bool) (f h : Group → Group) : State :=
  { vec id with
    teams := [{ placedTeam with twin := some 2 }, { placedTeam with key := 2, twin := some 1, primary := false, cluster := 1 }]
    groups := [f { placedGroup with regs := someRegs }, h { placedGroup with team := 2, regs := someRegs }]
    cur := some { who := .group (if lead then 1 else 2) 0, lanes := 0xFFFFFFFF, pc := 0x10000 } }

/-- The twin's group has asked, with a signature. -/
def asks (sig : W64) (g : Group) : Group := { g with ask := some (0x10000, 0xFFFFFFFF, sig) }

/-- Values have been forwarded to the group, for an instruction of the lanes m. -/
def told (m : W64) (vs : List W64) (g : Group) : Group := { g with fwd := [(0x10000, m :: vs)] }

/-- A group in an open region that has gated a byte of memory and two bytes of the aperture, with signature 5 and n mismatches. -/
def gated (n : Nat) (g : Group) : Group :=
  { g with region := some { entry := 0xFFF0, m0 := 0xFFFFFFFF, live := 0xFFFFFFFF, sig := 5, mism := n
                            gate := [{ line := 0x40000, cells := [(5, some 7), (6, none)], pa := 0x40000 },
                                     { line := BitVec.ofNat 64 (Config.aperture + 0x1FF80), cells := [(126, some 1), (127, some 2)], pad := true }] } }

/-- The lines of the open region may leave the gate, and the group's team is not its own twin. -/
def mayLeave (s : State) (c : Ctx) : Bool := (c.t.twin != some c.g.team) && match c.g.region with
  | some r => r.gate.all fun l => !l.stale && l.cells.all (fun x => decide (x.1 < 128)) &&
      (l.pad || (upto 128).all fun k => routeAlias s (gateAt s l + k) == routeAlias s (gateAt s l) + k)
  | none => false

/-- How the path meets its twin at an instruction with a signature: 0 alone, 1 it leads, 2 it follows, 3 it waits, 4 the signatures differ. -/
def meetsTwin (s : State) (c : Ctx) (lanes : W32) (sig : W64) : Nat := match pairMeet s c.g c.pc lanes sig with
  | .alone => 0
  | .lead => 1
  | .follow _ _ => 2
  | .wait _ => 3
  | .differ _ _ => 4

theorem witness_RegionWordsOpenAndClose_gates :
    ((([(vec (gated 0), 0), (pairedAs true (gated 0) (gated 0 ∘ asks 5), 1), (pairedAs false (gated 0) (told 0xFFFFFFFF [] ∘ gated 0), 2),
        (pairedAs true (gated 0) (gated 0), 3), (pairedAs false (gated 0) (gated 0), 3), (pairedAs true (gated 0) (gated 0 ∘ asks 6), 4)] :
        List (State × Nat))).all fun x => ([.regionEntry, .regionCloseReopen, .regionExit] : List Instr).all fun i =>
      meets x.1 i fun c => mayLeave x.1 c && meetsTwin x.1 c c.path 5 == x.2) = true ∧
    ((([0, 1, 2] : List Nat)).all fun n => match (pairedAs true (gated n) (gated 0)).groups with
      | g :: h :: _ => findGroup (pairedAs true (gated n) (gated 0)) g.who == some g && findGroup (pairedAs true (gated n) (gated 0)) h.who == some h &&
          h.who != g.who && g.region.any (fun r => decide (r.mism < 2) == decide (n < 2)) && h.region.isSome &&
          (teamOf (pairedAs true (gated n) (gated 0)) g.team).twin == some h.team
      | _ => false) = true := by decide +kernel

theorem test_close_writes_the_gated_bytes : (match exec .regionExit (vec (gated 0)) with
    | .next t => physNum t 0x40005 1 == 7 && mget 0 (clusterOf t 0).sram (nth 0 (teamOf t 1).pad 0 * Config.bankBytes + 0x1FFFF) == 2 &&
        t.groups.any fun g => g.key.isNone && g.region.isNone
    | _ => false) = true := by decide +kernel

/-- The signature of a store. -/
def storeSig (c : Ctx) (i : Instr) : W64 := match storeForm i with
  | some (d, b, o, n, rel) => ((storesOf c d b o n (lookLanes c (if rel then .release else .write) (c.addr b o n) n rel).spots).flatMap
      fun (_, a, bs, x) => piecesOf a.toNat bs x).foldl foldSig 0
  | none => 0

/-- Lanes 0 and 31 alone are active, and each place of an access of n bytes of them leaves no mark and lies in one slot. -/
def plainSpots (s : State) (c : Ctx) (acc : Acc) (b o : BitVec 7) (n : Nat) (strict : Bool) : Bool :=
  (lookLanes c acc (c.addr b o n) n strict).spots.all fun y => y.2.all fun x => match x with
    | .mem _ k t pa => !leafBit t.leaf 15 && (upto k).all (fun i => routeAlias s (pa + i) == routeAlias s pa + i) && marked t.leaf true == t.leaf
        && (s.ctl.cntb == 0 || !leafBit t.leaf 14)
    | .pad _ _ _ => true

theorem witness_StoresWriteTheLanesBytes_places : (stores.all fun i => meets (vec few) i fun c => match storeForm i with
    | some (_, b, o, n, rel) => plainSpots (vec few) c (if rel then .release else .write) b o n rel
    | none => false) = true ∧
    (stores.all fun i => meets (vec fun g => { few g with masks := setNth g.masks 0 1 }) i fun c => match storeForm i with
      | some (_, b, o, n, rel) => (lookLanes c (if rel then .release else .write) (c.addr b o n) n rel).spots.length == 1
      | none => false) = true := by decide +kernel

theorem witness_StoresWriteTheLanesBytes_pairs :
    meets (pairedAs true few (few ∘ asks 5)) (.stB32 8 4 64 0) (fun c => meetsTwin c.s c c.act (storeSig c (.stB32 8 4 64 0)) == 4) = true ∧
    (match issuer (pairedAs true few few) with
      | some c => meets (pairedAs true few (few ∘ asks (storeSig c (.stB32 8 4 64 0)))) (.stB32 8 4 64 0) fun c =>
          isPaired c.t && c.t.twin != some c.g.team && meetsTwin c.s c c.act (storeSig c (.stB32 8 4 64 0)) == 1
      | none => false) = true ∧
    meets (pairedAs false few (told 0x80000001 [] ∘ few)) (.stB32 8 4 64 0) (fun c => meetsTwin c.s c c.act 0 == 2 && c.g.region.isNone) = true ∧
    meets (pairedAs false few few) (.stB32 8 4 64 0) (fun c => meetsTwin c.s c c.act 0 == 3) = true := by decide +kernel

theorem witness_AtomicsGiveTheOldValue_clauses :
    (atomics.all fun i => meets (vec few) i fun c => match atomicForm c i with
      | some (_, b, o, n, _) => c.g.region.isNone && plainSpots (vec few) c .atomic b o n true
      | none => false) = true ∧
    meets (pairedAs false few (told 0x80000001 [1, 2] ∘ few)) (.atomAdd32 8 4 64 0) (fun c => meetsTwin c.s c c.act 0 == 2 &&
      (lookLanes c .atomic (c.addr 4 64 4) 4 true).spots.length == 2) = true ∧
    meets (pairedAs true few (few ∘ asks 5)) (.atomAdd32 8 4 64 0) (fun c => meetsTwin c.s c c.act 5 == 1) = true := by decide +kernel

theorem witness_LoadsGiveTheBytesRead_oneLane : (loads.all fun i => meets (vec fun g => { few g with masks := setNth g.masks 0 0x80000000 }) i fun c =>
    match loadForm i with
    | some x => c.lanes == [31] && c.g.region.isNone && (!x.aligned || (c.addr x.b x.o x.n 31).toNat % x.n == 0) && !isProbe i &&
        match readAt c.s (readEnv c.s c.g x.n (if x.aligned then .load else .no) [31]) .read (c.addr x.b x.o x.n 31).toNat x.n with
        | (_, .ok _) => true
        | _ => false
    | none => false) = true := by decide +kernel

/-- A keystone context asked to yield, with n operations in its queue. -/
def keyAsked (n : Nat) (g : Group) : Group := { g with preempt := true, key := some { mq := List.replicate n { op := .zero 0, opId := 0 } } }

theorem witness_LanesWaitAtReconvergenceAndYield_keystone :
    meets (key (keyAsked 0)) .yield (fun c => c.g.preempt && c.g.key.isSome && (keyQueue c.g).isEmpty && !(c.t.ops.any fun o => o.cmu && o.hb)) = true ∧
    meets (key (keyAsked 1)) .yield (fun c => c.g.preempt && c.g.key.isSome && !(keyQueue c.g).isEmpty) = true := by decide +kernel

theorem witness_SpecialRegistersReadTheirValue_pairs : (([0x28, 0x29] : List (BitVec 14)).all fun n =>
    meets (pairedAs true id id) (.rdsr 10 n) (fun c => isPaired c.t && c.t.primary && c.t.twin != some c.g.team && (twinOf c.s c.g).isSome) &&
    meets (pairedAs false id id) (.rdsr 10 n) (fun c => isPaired c.t && !c.t.primary && c.g.fwd.isEmpty && (twinOf c.s c.g).isSome) &&
    meets (pairedAs false id (told 0xFFFFFFFF [9])) (.rdsr 10 n) fun c => !c.t.primary && c.g.fwd == [(c.pc, [c.act.setWidth 64, 9])]) = true := by
  decide +kernel

/-- A sub-group of lanes 0 and 1, parked. -/
def withSub (g : Group) : Group := { g with subs := [{ lanes := 3, pcmask := 0, cause := 0x10, filed := true }] }

theorem witness_ExitTakesLanesOut_clauses :
    meets (vec fun g => withSub { g with masks := setNth g.masks 0 1 }) .exit (fun c => c.g.key.isNone && (dueSub (withoutLanes c.g c.act)).isNone &&
      (c.g.lane 1).st == .running) = true ∧
    (match vec (gated 0) with
      | s => meets { s with groups := s.groups ++ [{ placedGroup with idx := 1 }] } .exit fun c => c.g.region.isSome && c.g.key.isNone &&
          c.g.live &&& ~~~c.act == 0 && !isPaired c.t && mayLeave s c && c.t.status == .resident) = true := by decide +kernel

theorem witness_ReformFilesLanesInBins_parkedLanes : meets (vec fun g => withSub { g with masks := setNth g.masks 0 1 }) (.reform 4) (fun c =>
    (dueSub (withoutLanes c.g c.act)).isNone && pcOk (c.pv 4 0)) = true := by decide +kernel

theorem witness_MwaitCompletesWhenEveryLaneHasItsValue_pairs :
    meets (pairedAs true few few) (.mwait 8 4 64 0) (fun c => isPaired c.t && c.t.primary && c.t.twin != some c.g.team &&
      (lanesOf c.act).all fun l => (c.lanes.foldl (pollLane c 8 4 64 0) { s := c.s, got := c.g.got }).got.any fun x => x.pc == c.pc && x.lane == l) = true ∧
    meets (pairedAs false few (told 0x80000001 [4, 5] ∘ few)) (.mwait 8 4 64 0) (fun c => isPaired c.t && !c.t.primary && (takeGiven c 4 64).hits.isEmpty &&
      (lanesOf c.act).all fun l => (takeGiven c 4 64).got.any fun x => x.pc == c.pc && x.lane == l) = true := by decide +kernel

theorem witness_PairedTeamsMeet :
    (([.qput 12 8 0, .launch 10 4 64 0, .fput 8 4 64 0, .fsig 8 4 64 0] : List Instr).all fun i =>
      meets (pairedAs true id (asks 5)) i (fun c => isPaired c.t && c.t.twin != some c.g.team && meetsTwin c.s c c.act 5 == 1 && meetsTwin c.s c c.act 6 == 4) &&
      meets (pairedAs true id id) i (fun c => meetsTwin c.s c c.act 5 == 3) &&
      meets (pairedAs false id (told 0xFFFFFFFF [])) i fun c => meetsTwin c.s c c.act 5 == 2) = true ∧
    meets (bound (pairedAs true id (asks 5))) (.qput 12 8 0) (fun c => queueBound c.s c.t 12 && !c.key && decide (masonWaiting c.s c.g.team < 16)) = true := by
  decide +kernel

/-- A UNIT of the L1 of a core, and one of an extent. -/
def coreUnit : Nat := unitOf 1 0 0 (7 * 32 + 5) 0
def extentUnit : Nat := unitOf 8 0 0 0 0

theorem witness_GroupsChangeBetweenInstructions_errors :
    unitOk coreUnit = true ∧ restartUnit coreUnit = true ∧ unitOk extentUnit = true ∧ restartUnit extentUnit = false ∧
    ((([0, 1] : List Nat)).all fun n => match (vec fun g => { g with region := some { entry := 0xFFF0, m0 := 1, live := 0xFFFFFFFF, errs := n } }) with
      | s => match findGroup { s with cur := none } (.group 1 0) with
        | some g => mayIssue { s with cur := none } g && pathOf g (lowestLane 1) &&& g.mask 0 != 0 && g.region.any fun r => r.errs == n
        | none => false) = true := by decide +kernel

/-- A page of which a swap has exchanged line 1, with the leaf at 0x2000, M as given; nothing of the device's own waits. -/
def zeroingPage (m : Nat) : State :=
  { held 0x2000 (toBytes 8 (m * 2 ^ 13)) base with
    zeroing := [{ leaf := 0x2000, frame := 0x50000, bytes := 4096 }], swaps := [(0, { x := 0x50000, y := 0x60000, state := 1, prog := [1] })] }

theorem witness_MemoryEventsKeepTheirTables_clauses :
    ((([0, 1] : List Nat)).all fun m => bits (physNum (zeroingPage m) 0x2000 8) 13 1 == m && (zeroingPage m).blocks.isEmpty && (zeroingPage m).bumps.isEmpty) = true ∧
    (match { extended 1 with dirty := [attachedBase / 128 + 3] } with
      | s => !errRingOk s && (mget ({} : Extent) s.extents 255).state == 1 && s.dirty.contains ((mget ({} : Extent) s.extents 255).base / 128 + 3) &&
          decide (128 * 3 < (mget ({} : Extent) s.extents 255).len)) = true := by decide +kernel

theorem test_zeroed_page_clears_the_moved_line : (match exec (.zeroEngineDone 0) (held 0x60080 [9] (held 0x60000 [8] (held 0x50080 [7] (zeroingPage 1)))) with
    | .next t => (physNum t 0x60080 1, physNum t 0x60000 1, physNum t 0x50080 1)
    | _ => (0, 0, 0)) = (0, 8, 7) := by decide +kernel

end Sys2Proof.Tests
end

