-- ==== Sys2Proof/Proofs/MemoryCanonical.lean ====
section
/-!
No step takes memory or an SRAM out of its canonical form (R14). A state in that form is called `Canon`; each function of the model that gives a
state keeps it, which is the lemma `canon_` with the function's name. What writes bytes does so through `memPut` and `sramPut`, whose laws stand in
Laws/Access; all else composes. Where a result carries its state inside (an outcome, what a region's closing comes to), a predicate of its own says
that this state is canonical.
-/

namespace Sys2Proof.Machine

-- the lemmas one after the other: all at once they need more memory than the check allows
set_option Elab.async false

/-- Memory and every SRAM of a state are in their canonical form. -/
def Canon (s : State) : Prop := Memory.wf s.mem = true ∧ ∀ c ∈ s.clusters, Memory.wf c.2.sram = true

theorem memOk_iff_canon {s : State} : s.memOk = true ↔ Canon s := by simp [State.memOk, Canon]

/-- An outcome that goes on does so in a canonical state. -/
def CanonOut : Host.Outcome State Fault Refusal → Prop
  | .next t => Canon t
  | _ => True

theorem Kept.canon {s t : State} (k : Kept s t) (h : Canon s) : Canon t := memOk_iff_canon.mp (k.mem (memOk_iff_canon.mpr h))

theorem Canon.same {s t : State} (h : Canon s) (hm : t.mem = s.mem := by rfl) (hc : t.clusters = s.clusters := by rfl) : Canon t := by
  unfold Canon; rw [hm, hc]; exact h

theorem Canon.of_fst {α : Type} {r : State × α} {t : State} {x : α} (h : Canon r.1) (e : r = (t, x)) : Canon t := by
  rw [e] at h; exact h

theorem canon_ite {p : Prop} [Decidable p] {a b : State} (ha : Canon a) (hb : Canon b) : Canon (if p then a else b) := by split <;> assumption

theorem canon_ite_fst {α : Type} {p : Prop} [Decidable p] {a b : State × α} (ha : Canon a.1) (hb : Canon b.1) : Canon (if p then a else b).1 := by
  split <;> assumption

theorem canon_ite_res {p : Prop} [Decidable p] {a b : Res} (ha : Canon a.s) (hb : Canon b.s) : Canon (if p then a else b).s := by
  split <;> assumption

theorem canonOut_ite {p : Prop} [Decidable p] {a b : Host.Outcome State Fault Refusal} (ha : CanonOut a) (hb : CanonOut b) :
    CanonOut (if p then a else b) := by split <;> assumption

theorem canon_foldl {α : Type} {f : State → α → State} {l : List α} {s : State} (hf : ∀ s x, Canon s → Canon (f s x)) (h : Canon s) :
    Canon (l.foldl f s) := by
  induction l generalizing s with
  | nil => exact h
  | cons x l ih => exact ih (hf s x h)

theorem canon_foldl_fst {α β : Type} {f : State × β → α → State × β} {l : List α} {a : State × β} (hf : ∀ a x, Canon a.1 → Canon (f a x).1)
    (h : Canon a.1) : Canon (l.foldl f a).1 := by
  induction l generalizing a with
  | nil => exact h
  | cons x l ih => exact ih (hf a x h)

theorem canon_modCluster {s : State} {c : Nat} {f : Cluster → Cluster} (hf : ∀ k, Memory.wf k.sram = true → Memory.wf (f k).sram = true)
    (h : Canon s) :
    Canon (modCluster s c f) := (kept_modCluster s c f hf).canon h

theorem canon_completions {s : State} {l : List Completion} (h : Canon s) : Canon { s with completions := l } := h

theorem canon_noticeQ {s : State} {l : List Notice} (h : Canon s) : Canon { s with noticeQ := l } := h

theorem canon_ck {s : State} {c : Checkpoint} (h : Canon s) : Canon { s with ck := c } := h

theorem canon_cur {s : State} {c : Option Issue} (h : Canon s) : Canon { s with cur := c } := h

theorem canon_held {s : State} {b : Bool} (h : Canon s) : Canon { s with held := b } := h

theorem canon_evSince {s : State} {c : Ctl} {n o : Nat} (h : Canon s) : Canon { s with ctl := c, evSince := n, evOldest := o } := h

theorem canon_modGroup {s w f} (h : Canon s) : Canon (modGroup s w f) := h

theorem canon_modAway {s p f} (h : Canon s) : Canon (modAway s p f) := h

theorem canon_setGroup {s g} (h : Canon s) : Canon (setGroup s g) := canon_modGroup h

theorem canon_dropGroup {s w} (h : Canon s) : Canon (dropGroup s w) := h

theorem canon_uncur {s} (h : Canon s) : Canon (uncur s) := h

theorem canon_modTeam {s k f} (h : Canon s) : Canon (modTeam s k f) := h

theorem canon_modLaunch {s c id f} (h : Canon s) : Canon (modLaunch s c id f) := h

theorem canon_modContext {s c f} (h : Canon s) : Canon (modContext s c f) := h

theorem canon_modCore {s tile f} (h : Canon s) : Canon (modCore s tile f) := h

theorem canon_modBank {s c b f} (h : Canon s) : Canon (modBank s c b f) := canon_modCluster (fun _ k => k) h

theorem canon_modChan {s c ch f} (h : Canon s) : Canon (modChan s c ch f) := canon_modCluster (fun _ k => k) h

theorem canon_modTile {s team i f} (h : Canon s) : Canon (modTile s team i f) := canon_modTeam h

theorem canon_modCount {s team ch f} (h : Canon s) : Canon (modCount s team ch f) := canon_modTeam h

theorem canon_setQueue {s team q l} (h : Canon s) : Canon (setQueue s team q l) := canon_modTeam h

theorem canon_freeBytes {s n} (h : Canon s) : Canon (freeBytes s n).1 := h

theorem canon_acquireView {v s a} (h : Canon s) : Canon (acquireView v s a) := (kept_setOrder ..).canon h

theorem canon_acquireAll {s l v} (h : Canon s) : Canon (acquireAll s l v) := canon_foldl (fun _ _ k => canon_acquireView k) h

theorem canon_fenceAgent {mates k acq rel s me} (h : Canon s) : Canon (fenceAgent mates k acq rel s me) := canon_ite h ((kept_setOrder ..).canon h)

theorem canon_poisonWord {s pa} (h : Canon s) : Canon (poisonWord s pa) := canon_ite h h

theorem canon_predNotice {s kind idx unit old new thr} (h : Canon s) : Canon (predNotice s kind idx unit old new thr) :=
  canon_ite ((kept_logError ..).canon h) h

theorem canon_countUncorrected {s u} (h : Canon s) : Canon (countUncorrected s u) := by
  unfold countUncorrected
  dsimp only
  split
  · exact (kept_physPut ..).canon h
  · exact h

theorem canon_fileFault {s f} (h : Canon s) : Canon (fileFault s f) := h

theorem canon_dropLines {s tile c line} (h : Canon s) : Canon (dropLines s tile c line) := h

theorem canon_makeRoom {tile : Nat} {me : Who} : ∀ {n : Nat} {s : State}, Canon s → Canon (makeRoom tile me n s)
  | 0, _, h => h
  | n + 1, _, h => by
    unfold makeRoom
    refine canon_ite h ?_
    split
    · exact h
    · exact canon_makeRoom (canon_modGroup h)

theorem canon_landCourse {s c} (h : Canon s) : Canon (landCourse s c) := canon_foldl (fun _ _ k => (kept_physWriteBy ..).canon k) h

theorem canon_closeLaunches {s} (h : Canon s) : Canon (closeLaunches s) := h

/-- Clusters replaced one by one, their SRAM kept. -/
theorem canon_mapClusters {s t : State} {f : Nat × Cluster → Nat × Cluster} (h : Canon s) (hf : ∀ x, (f x).2.sram = x.2.sram)
    (hm : t.mem = s.mem) (hc : t.clusters = s.clusters.map f) : Canon t := by
  refine ⟨hm ▸ h.1, fun x hx => ?_⟩
  obtain ⟨y, hy, rfl⟩ := List.mem_map.mp (hc ▸ hx)
  rw [hf]; exact h.2 y hy

theorem canon_retireTeam {s k} (h : Canon s) : Canon (retireTeam s k) :=
  canon_closeLaunches (canon_mapClusters
    (canon_foldl (l := s.courses.filter fun c => c.team == k) (fun _ _ k => canon_landCourse k) h)
    (f := fun (i, c) => (i, { c with chans := c.chans.map fun (j, h) => (j, { h with post := h.post.filter fun p => p.team != k }) }))
    (fun _ => rfl) rfl rfl)

theorem canon_putBlock {s b} (h : Canon s) : Canon (putBlock s b) := by
  unfold putBlock
  split
  · exact (((kept_writeAt ..).canon h).of_fst ‹_›).same
  · exact ((kept_writeAt ..).canon h).of_fst ‹_›

theorem canon_retryBlocks {s} (h : Canon s) : Canon (retryBlocks s) := canon_closeLaunches (canon_foldl (fun _ _ k => canon_putBlock k) h)

theorem canon_writeBlock {s t} (h : Canon s) : Canon (writeBlock s t) := canon_ite h (canon_putBlock h)

theorem canon_settleTeam {s k} (h : Canon s) : Canon (settleTeam s k) := by
  unfold settleTeam
  split
  · exact h
  · refine canon_ite h ?_
    extract_lets s1
    have h1 : Canon s1 := canon_ite h (canon_modTeam (canon_writeBlock h))
    exact canon_ite h1 (canon_retireTeam h1)

theorem canon_releaseHolds {s g} (h : Canon s) : Canon (releaseHolds s g) := canon_ite h (canon_modAway (canon_modGroup (canon_modTeam h)))

theorem canon_releaseWaits {s tile p} (h : Canon s) : Canon (releaseWaits s tile p) := h

theorem canon_sweepWaits {s tile} (h : Canon s) : Canon (sweepWaits s tile) := canon_ite h (canon_releaseWaits h)

theorem canon_openBarrier {s k role at_} (h : Canon s) : Canon (openBarrier s k role at_) := canon_acquireAll h

theorem canon_settleBarriers {s k roles} (h : Canon s) : Canon (settleBarriers s k roles) :=
  canon_foldl (fun _ _ k => canon_ite (canon_openBarrier k) k) (canon_ite (canon_openBarrier h) h)

theorem canon_endGroup {s w} (h : Canon s) : Canon (endGroup s w) := by
  unfold endGroup
  dsimp only
  split
  · exact h
  · exact canon_settleTeam (canon_sweepWaits (canon_modCore (canon_dropGroup (canon_releaseHolds (canon_modTeam h)))))

theorem canon_noteFault {s t cause who} (h : Canon s) : Canon (noteFault s t cause who) := canon_modLaunch h

theorem canon_setPreempt {s k v} (h : Canon s) : Canon (setPreempt s k v) := h

theorem canon_withdraw {s k} (h : Canon s) : Canon (withdraw s k) := h

theorem canon_cancelRequests {s h} (hc : Canon s) : Canon (cancelRequests s h) :=
  canon_foldl (fun _ _ k => canon_ite (canon_modTeam k) (canon_ite (canon_withdraw k) (canon_modTeam k))) hc

theorem canon_settleBlocked {s} (h : Canon s) : Canon (settleBlocked s) := canon_foldl (fun _ _ k => canon_cancelRequests k) h

theorem canon_restartHead {s c q} (h : Canon s) : Canon (restartHead s c q) := canon_ite h h

theorem canon_clearTeam {s k} (h : Canon s) : Canon (clearTeam s k) :=
  canon_modTeam (canon_foldl (fun _ _ k => canon_sweepWaits k) ((canon_foldl (fun _ _ k => canon_modTeam k) h).same))

theorem canon_stopTeam {s k cause} (h : Canon s) : Canon (stopTeam s k cause) := by
  unfold stopTeam
  split
  · exact h
  · refine canon_ite h ?_
    extract_lets s1 s2 s3
    have h2 : Canon s2 := canon_modTeam (canon_writeBlock (canon_modTeam (canon_clearTeam h)))
    have h3 : Canon s3 := canon_ite (canon_restartHead h2) h2
    exact canon_ite h3 (canon_retireTeam h3)

theorem canon_endTeam {s k cause who} (h : Canon s) : Canon (endTeam s k cause who) := by
  unfold endTeam
  dsimp only
  split
  · exact h
  · split
    · exact canon_settleBlocked (canon_stopTeam (canon_stopTeam (canon_noteFault h)))
    · exact canon_stopTeam (canon_noteFault h)

theorem canon_killLaunch {s c id cause ft fw} (h : Canon s) : Canon (killLaunch s c id cause ft fw) :=
  canon_settleBlocked (canon_closeLaunches (canon_foldl (fun _ _ k => canon_stopTeam k) (canon_modLaunch h)))

theorem canon_failLaunch {s t cause who} (h : Canon s) : Canon (failLaunch s t cause who) := canon_killLaunch (canon_noteFault h)

theorem canon_fileWait {s g u h} (hc : Canon s) : Canon (fileWait s g u h).1 := canon_ite_fst hc (canon_fileFault (canon_ite (canon_modCore hc) hc))

theorem canon_writeSnapshot {s g} (h : Canon s) : Canon (writeSnapshot s g).1 := by
  unfold writeSnapshot
  dsimp only
  split
  · exact h
  · exact (kept_writeAt ..).canon h

theorem canon_postKey {s w cause code} (h : Canon s) : Canon (postKey s w cause code) := by
  unfold postKey
  dsimp only
  split
  · exact h
  · split
    · exact canon_modGroup h
    · split
      · exact canon_failLaunch (((kept_writeAt ..).canon h).of_fst ‹_›)
      · exact canon_modGroup (((kept_writeAt ..).canon h).of_fst ‹_›)
      · exact canon_modGroup (((kept_writeAt ..).canon h).of_fst ‹_›)

theorem canon_haltKey {s w cause code} (h : Canon s) : Canon (haltKey s w cause code) := canon_postKey (canon_modGroup h)

theorem canon_deliverSub {s g i u} (h : Canon s) : Canon (deliverSub s g i u) := by
  unfold deliverSub
  dsimp only
  split
  · exact canon_endTeam (((kept_writeAt ..).canon h).of_fst ‹_›)
  · exact ((kept_writeAt ..).canon h).of_fst ‹_›
  · have h1 := ((kept_writeAt ..).canon h).of_fst ‹_›
    split
    · exact canon_failLaunch ((canon_ite_fst (canon_writeSnapshot h1) h1).of_fst ‹_›)
    · exact (canon_ite_fst (canon_writeSnapshot h1) h1).of_fst ‹_›
    · exact canon_setGroup ((canon_ite_fst (canon_writeSnapshot h1) h1).of_fst ‹_›)

theorem canon_deliver {s w} (h : Canon s) : Canon (deliver s w) := by
  unfold deliver
  dsimp only
  split
  · exact h
  · split
    · exact h
    · exact canon_ite (canon_endTeam h) (canon_ite h (canon_deliverSub h))

theorem canon_logConsumed {s t addr array} (h : Canon s) : Canon (logConsumed s t addr array) := (kept_logError ..).canon h

theorem canon_parkOne {s w pcmask hs k} (h : Canon s) : Canon (parkOne s w pcmask hs k) := by
  unfold parkOne
  dsimp only
  split
  · exact h
  · have h1 := fun t a u => canon_ite (p := k.1 = 0x15) (canon_logConsumed (t := t) (addr := a) (array := u) h) h
    refine canon_ite (canon_setGroup (canon_fileWait (h1 _ _ _))) (canon_ite (canon_ite (canon_haltKey (h1 _ _ _)) (canon_endTeam (h1 _ _ _)))
      (canon_ite ?_ (canon_setGroup (h1 _ _ _))))
    split
    · exact canon_endTeam (((kept_writeAt ..).canon (h1 _ _ _)).of_fst ‹_›)
    · exact canon_endTeam (((kept_writeAt ..).canon (h1 _ _ _)).of_fst ‹_›)

theorem canon_restartOne {s g r} (h : Canon s) : Canon (restartOne s g r) := by
  unfold restartOne
  dsimp only
  split
  · exact canon_setGroup h
  · split
    · exact canon_setGroup h
    · split
      · exact canon_modGroup (canon_setGroup h)
      · exact canon_setGroup h

theorem canon_regionError {s g r unit} (h : Canon s) : Canon (regionError s g r unit) :=
    (kept_logError ..).canon (canon_sweepWaits (canon_restartOne h))

theorem canon_parkAll {s w pcmask hs} (h : Canon s) : Canon (parkAll s w pcmask hs) := canon_deliver (canon_foldl (fun _ _ k => canon_parkOne k) h)

theorem canon_raise {s w pcmask hs} (h : Canon s) : Canon (raise s w pcmask hs) := by
  unfold raise
  split
  · exact canon_ite (canon_regionError h) (canon_parkAll (canon_modGroup h))
  · exact canon_parkAll h

theorem canon_waitState {s w i kind m pc addr} (h : Canon s) : Canon (waitState s w i kind m pc addr) := canon_modGroup (canon_uncur h)

theorem canon_noteScript {c s} (hs : Canon s) : Canon (noteScript c s) := by
  unfold noteScript
  split
  · exact hs
  · split
    · split
      · exact canon_modGroup hs
      · exact hs
    · exact canon_modGroup hs

theorem canon_finish {c i r} (hc : Canon c.s) (hr : Canon r.s) : Canon (finish c i r) := by
  unfold finish
  extract_lets w stopped done
  split
  · exact canon_waitState (canon_ite hr hc)
  · split
    · exact canon_noteScript (canon_uncur hr)
    · extract_lets s1 tile s2
      have h1 : Canon s1 := canon_setGroup (canon_uncur hr)
      have h2 : Canon s2 := canon_ite h1 (canon_makeRoom h1)
      exact canon_ite (canon_waitState hc) (canon_raise (canon_noteScript h2))

theorem canon_fillOps {c i} (h : Canon c.s) : Canon (fillOps c i).s := by
  unfold fillOps
  dsimp only
  split
  · exact canon_setGroup h
  · exact h

theorem canon_issueOn {c i body} (h : Canon c.s) (hbody : ∀ y0, Canon y0.s → Canon (body y0).s) : Canon (issueOn c i body) := by
  unfold issueOn
  dsimp only
  split
  · exact canon_finish h h
  · split
    · split
      · exact canon_waitState h
      · exact canon_finish h (hbody _ (canon_fillOps h))
    · split
      · exact canon_raise (canon_noteScript (canon_uncur h))
      · split
        · exact canon_waitState h
        · exact canon_finish h (hbody _ (canon_fillOps h))

theorem canon_issuer {s : State} {c : Ctx} (h : Canon s) (e : issuer s = some c) : Canon c.s := by
  unfold issuer at e
  split at e
  · cases e
  · obtain ⟨g, -, rfl⟩ := Option.map_eq_some_iff.mp e
    exact h

/-- A word issues and goes on canonically, where its own effect does. -/
theorem canonOut_issue {i : Instr} {s : State} {body : Ctx → Res} (h : Canon s) (hb : ∀ c, Canon c.s → Canon (body c).s) :
    CanonOut (issue i s body) := by
  unfold issue
  split
  · trivial
  · exact canon_issueOn (canon_issuer h ‹_›) hb

/-- `canonOut_issue`, the effect's result under a name of its own: its evaluation is never asked for. -/
theorem canonOut_issue_of_eq {i : Instr} {s : State} {body : Ctx → Res} (h : Canon s) (hb : ∀ c r, Canon c.s → body c = r → Canon r.s) :
    CanonOut (issue i s body) := canonOut_issue h fun c k => hb c _ k rfl

theorem canon_takePosition {s g} (h : Canon s) : Canon (takePosition s g) := canon_ite h (canon_modCore h)

theorem canon_takeTurnOf {s g} (h : Canon s) : Canon (takeTurnOf s g) := by
  unfold takeTurnOf
  split
  · exact canon_modCore h
  · exact h

theorem canon_fetchSpot {s tile x2} (h : Canon s) : Canon (fetchSpot s tile x2).1 := by
  unfold fetchSpot
  dsimp only
  split
  · exact canon_ite_fst h ((kept_chooseFrom ..).canon h)
  · exact h

theorem canon_fetchWord {s g l} (h : Canon s) : Canon (fetchWord s g l).1 := by
  unfold fetchWord
  dsimp only
  split
  · exact canon_fetchSpot ((kept_touchSpots ..).canon (((kept_lookAt ..).canon h).of_fst ‹_›))
  · exact ((kept_lookAt ..).canon h).of_fst ‹_›
  · exact ((kept_lookAt ..).canon h).of_fst ‹_›
  · exact ((kept_lookAt ..).canon h).of_fst ‹_›

theorem canon_wordTrap {c cause} (h : Canon c.s) : Canon (wordTrap c cause) := canon_ite (canon_finish h h) (canon_raise (canon_uncur h))

theorem canon_reservedTrap {c i} (h : Canon c.s) : Canon (reservedTrap c i) := canon_ite (canon_finish h h) (canon_raise (canon_uncur h))

theorem canon_turnIssue {s who lane} (h : Canon s) : Canon (turnIssue s who lane).1 := by
  unfold turnIssue
  dsimp only
  split
  · exact h
  · refine canon_ite_fst h ?_
    split
    · exact canon_raise ((canon_fetchWord (canon_takeTurnOf (canon_takePosition h))).of_fst ‹_›)
    · have h1 := (canon_fetchWord (canon_takeTurnOf (canon_takePosition h))).of_fst ‹_›
      split
      · exact h1
      · have h2 := canon_issuer (canon_cur h1) ‹_›
        refine canon_ite_fst (canon_wordTrap h2) ?_
        split
        · exact h1
        · exact h1
        · exact canon_reservedTrap h2

theorem canon_releaseLine {s g l} (h : Canon s) : Canon (releaseLine s g l) := by
  unfold releaseLine
  extract_lets t base s1
  have h1 : Canon s1 := canon_foldl (fun _ _ k => canon_ite ((kept_writeSpots ..).canon k) (canon_ite ((kept_physWriteBy ..).canon k) k)) h
  refine canon_foldl (fun _ _ k => canon_ite (canon_foldl (fun _ _ k => ?_) k) (canon_ite ((kept_healRange ..).canon k) k)) h1
  split
  · exact (kept_healSram ..).canon k
  · exact k

theorem canon_seenGate {s g gate} (h : Canon s) : Canon (seenGate s g gate) := canon_ite h (canon_foldl (fun _ _ k => (kept_setOrder ..).canon k) h)

theorem canon_refreshGate {env : Env} : ∀ {ls : List GateLine} {s : State}, Canon s → Canon (refreshGate s env ls).1
  | [], _, h => h
  | l :: ls, s, h => by
    unfold refreshGate
    dsimp only
    split
    · split
      · exact canon_refreshGate ((kept_touchSpots ..).canon (((kept_lookAt ..).canon h).of_fst ‹_›))
      · exact ((kept_lookAt ..).canon h).of_fst ‹_›
      · exact ((kept_lookAt ..).canon h).of_fst ‹_›
      · exact (kept_startZero ..).canon (((kept_lookAt ..).canon h).of_fst ‹_›)
    · exact canon_refreshGate h

/-- What closing a region comes to holds a canonical state. -/
def ClosedCanon : Closed → Prop
  | .done s | .stop s _ _ _ | .wait s _ | .over s => Canon s

theorem ClosedCanon.of_eq {r x : Closed} (h : ClosedCanon r) (e : r = x) : ClosedCanon x := e ▸ h

theorem canon_releaseGate {s g lane r} (h : Canon s) : ClosedCanon (releaseGate s g lane r) := by
  unfold releaseGate
  split
  · exact (canon_refreshGate h).of_fst ‹_›
  · exact (canon_refreshGate h).of_fst ‹_›
  · exact canon_modGroup (canon_seenGate (canon_foldl (fun _ _ k => canon_releaseLine k) ((canon_refreshGate h).of_fst ‹_›)))

/-- What the meeting of twins leaves is canonical. -/
def MeetCanon : Meet → Prop
  | .follow s _ | .wait s => Canon s
  | _ => True

theorem MeetCanon.of_eq {r x : Meet} (h : MeetCanon r) (e : r = x) : MeetCanon x := e ▸ h

theorem canon_pairMeet {s g pc lanes sig} (h : Canon s) : MeetCanon (pairMeet s g pc lanes sig) := by
  unfold pairMeet
  dsimp only
  split
  · trivial
  · split
    · split
      · trivial
      · exact h
    · split
      · split
        · split
          · trivial
          · exact h
        · split
          · exact h
          · split <;> trivial
      · split
        · exact canon_modGroup h
        · exact canon_modGroup h

theorem canon_forward {s g pc lanes vals} (h : Canon s) : Canon (forward s g pc lanes vals) := by
  unfold forward
  dsimp only
  split
  · exact h
  · exact canon_modGroup h

theorem canon_forwardOnly {s g pc lanes vals} (h : Canon s) : Canon (forwardOnly s g pc lanes vals) := by
  unfold forwardOnly
  dsimp only
  split
  · exact h
  · exact canon_modGroup (canon_modGroup h)

theorem canon_takeFwd {s g i} (h : Canon s) : Canon (takeFwd s g i) := canon_modGroup h

theorem canon_pairDiffer {s g twin xor entry} (h : Canon s) : Canon (pairDiffer s g twin xor entry) :=
  canon_ite (canon_endTeam ((kept_logError ..).canon h)) (canon_modGroup (canon_modGroup ((kept_logError ..).canon h)))

theorem canon_lostTwin {c} (h : Canon c.s) : Canon (lostTwin c).s := canon_pairDiffer h

theorem canon_closeRegion {s g lane pc lanes} (h : Canon s) : ClosedCanon (closeRegion s g lane pc lanes) := by
  unfold closeRegion
  split
  · exact h
  · split
    · exact canon_releaseGate h
    · split
      · exact canon_forward ((canon_releaseGate h).of_eq (x := .done _) ‹_›)
      · exact canon_releaseGate h
    · have h1 : Canon _ := (canon_pairMeet h).of_eq (x := .follow _ _) ‹_›
      split
      · exact (canon_releaseGate h1).of_eq (x := .done _) ‹_›
      · exact canon_modGroup ((canon_releaseGate h1).of_eq (x := .stop _ _ _ _) ‹_›)
      · exact canon_modGroup ((canon_releaseGate h1).of_eq (x := .wait _ _) ‹_›)
      · exact (canon_releaseGate h1).of_eq (x := .over _) ‹_›
    · exact (canon_pairMeet h).of_eq (x := .wait _) ‹_›
    · exact canon_pairDiffer h

theorem canon_noRes {c} (h : Canon c.s) : Canon (noRes c).s := h

theorem canon_closeRes {c : Ctx} {after : State → State} (h : Canon c.s) (ha : ∀ s, Canon s → Canon (after s)) : Canon (closeRes c after).s := by
  unfold closeRes
  split
  · exact ha _ ((canon_closeRegion h).of_eq (x := .done _) ‹_›)
  · exact (canon_closeRegion h).of_eq (x := .stop _ _ _ _) ‹_›
  · exact (canon_closeRegion h).of_eq (x := .wait _ _) ‹_›
  · exact (canon_closeRegion h).of_eq (x := .over _) ‹_›

theorem canon_openRegion {c s} (hs : Canon s) : Canon (openRegion c s) := canon_modGroup hs

theorem canon_trapRes {c cause code} (h : Canon c.s) : Canon (trapRes c cause code).s := h

theorem canon_endIfEmpty {c s} (hs : Canon s) : Canon (endIfEmpty c s) := by
  unfold endIfEmpty
  split
  · exact hs
  · exact canon_ite (canon_endGroup (canon_setGroup hs)) hs

theorem canon_execExit {s} (h : Canon s) : CanonOut (execExit s) := by
  refine canonOut_issue h fun c k => ?_
  have leave : ∀ t, Canon t → Canon (settleBarriers (endIfEmpty c (modGroup t c.g.who fun g => exitLanes g c.act)) c.g.team [c.g.role]) :=
    fun _ k => canon_settleBarriers (canon_endIfEmpty (canon_modGroup k))
  exact canon_ite_res (canon_ite_res (leave _ k) (canon_modGroup k))
    (canon_ite_res (canon_ite_res (canon_closeRes k leave) (canon_closeRes k leave)) (leave _ k))

theorem canon_reconvRes {c at_} (h : Canon c.s) : Canon (reconvRes c at_).s := canon_modGroup h

theorem canon_linkLanes {c m r call} (h : Canon c.s) : Canon (linkLanes c m r call) := canon_ite h (canon_modGroup h)

theorem canon_jumpRes {c a effect} (heffect : ∀ y, Canon (effect y)) : Canon (jumpRes c a effect).s := heffect _

theorem canon_execTret {d s} (h : Canon s) : CanonOut (execTret d s) := by
  refine canonOut_issue h (fun _ k => ?_)
  dsimp only
  split
  · exact canon_endTeam (((kept_readAt ..).canon k).of_fst ‹_›)
  · split
    · exact canon_endTeam (((kept_readAt ..).canon (((kept_readAt ..).canon k).of_fst ‹_›)).of_fst ‹_›)
    · split
      · exact ((kept_readAt ..).canon (((kept_readAt ..).canon k).of_fst ‹_›)).of_fst ‹_›
      · split
        · exact ((kept_readAt ..).canon (((kept_readAt ..).canon k).of_fst ‹_›)).of_fst ‹_›
        · exact canon_modGroup (((kept_readAt ..).canon (((kept_readAt ..).canon k).of_fst ‹_›)).of_fst ‹_›)

theorem canon_execRdsr {d n s} (h : Canon s) : CanonOut (execRdsr d n s) := by
  refine canonOut_issue h (fun _ k => canon_ite_res k (canon_ite_res k (canon_ite_res (canon_ite_res k (canon_forwardOnly k)) ?_)))
  dsimp only
  split
  · exact canon_takeFwd k
  · exact canon_ite_res (canon_lostTwin k) k

theorem canon_execWrsr {d n s} (h : Canon s) : CanonOut (execWrsr d n s) := by
  refine canonOut_issue h (fun _ k => ?_)
  dsimp only
  split
  · exact canon_modGroup k
  · exact canon_modGroup k
  · exact canon_ite_res k (canon_modCore k)

theorem canon_loadRes {c d b o n signed aligned acq} (h : Canon c.s) : Canon (loadRes c d b o n signed aligned acq).s := (kept_readLanes ..).canon h

theorem canon_latePlaces {s env team n x} (h : Canon s) : Canon (latePlaces s env team n x).1 := by
  unfold latePlaces
  split
  · split
    · exact (kept_touchSpots ..).canon (((kept_lookAt ..).canon h).of_fst ‹_›)
    · exact ((kept_lookAt ..).canon h).of_fst ‹_›
    · exact ((kept_lookAt ..).canon h).of_fst ‹_›
  · exact h

theorem canon_redoLoad {s w ld} (h : Canon s) : Canon (redoLoad s w ld) := by
  unfold redoLoad
  dsimp only
  split
  · exact h
  · refine canon_ite (canon_failLaunch (canon_foldl_fst ?_ h)) (canon_modGroup (canon_foldl_fst ?_ h)) <;>
    · intro a x k
      split
      · exact (kept_readSpots ..).canon ((canon_latePlaces k).of_fst ‹_›)
      · exact (canon_latePlaces k).of_fst ‹_›

theorem canon_redoLoads {s w} (h : Canon s) : Canon (redoLoads s w) := by
  unfold redoLoads
  split
  · exact h
  · refine canon_ite h (canon_foldl (fun _ _ k => ?_) h)
    split
    · exact canon_ite k (canon_redoLoad k)
    · exact k

theorem canon_acquire {s g m} (h : Canon s) : Canon (acquire s g m) := canon_acquireAll h

theorem canon_loadAcq {c d b o n} (h : Canon c.s) : Canon (loadAcq c d b o n).s := canon_acquire (canon_loadRes h)

theorem canon_probeRes {c d b o n} (h : Canon c.s) : Canon (probeRes c d b o n).s :=
  canon_loadRes (d := d) (signed := false) h

theorem canon_storeHold {c s n st} (hs : Canon s) : Canon (storeHold c s n st) :=
  canon_modCore (canon_foldl (fun _ _ k => (kept_touchSpots ..).canon k) hs)

theorem canon_writeHeld {s g h spots} (hc : Canon s) : Canon (writeHeld s g h spots) := (kept_writeKept ..).canon hc

theorem canon_performHeld {s tile h hs} (hc : Canon s) : Canon (performHeld s tile h hs) := by
  unfold performHeld
  dsimp only
  split
  · exact canon_modCore hc
  · split
    · exact hc
    · split
      · split
        · exact canon_modCore (canon_writeHeld ((kept_touchSpots ..).canon (((kept_lookAt ..).canon hc).of_fst ‹_›)))
        · exact canon_failLaunch (canon_modCore (((kept_lookAt ..).canon hc).of_fst ‹_›))
        · exact (kept_startZero ..).canon (((kept_lookAt ..).canon hc).of_fst ‹_›)
      · exact canon_modCore (canon_writeHeld hc)

theorem canon_leaveStore {s tile} (h : Canon s) : Canon (leaveStore s tile) := by
  unfold leaveStore
  dsimp only
  split
  · exact canon_ite h (canon_performHeld h)
  · exact h

/-- A fold that carries a state last of four. -/
theorem canon_foldl_last {α β γ δ : Type} {f : α × β × γ × State → δ → α × β × γ × State} {l : List δ} {a : α × β × γ × State}
    (hf : ∀ a x, Canon a.2.2.2 → Canon (f a x).2.2.2) (h : Canon a.2.2.2) : Canon (l.foldl f a).2.2.2 := by
  induction l generalizing a with
  | nil => exact h
  | cons x l ih => exact ih (hf a x h)

theorem canon_storeGate {c s r st} (h : Canon s) : Canon (storeGate c s r st).1 := by
  refine canon_modGroup (canon_foldl_last (fun a x k => ?_) h)
  dsimp only
  split
  · exact k
  · exact (kept_touchSpots ..).canon k

theorem canon_pairRun {c : Ctx} {s : State} {sig : W64} {lead : State → Res × List W64} {follow : State → List W64 → Res} (h : Canon s)
    (hl : ∀ s, Canon s → Canon (lead s).1.s) (hf : ∀ s vs, Canon s → Canon (follow s vs).s) : Canon (pairRun c s sig lead follow).s := by
  unfold pairRun
  split
  · exact hl _ h
  · exact canon_ite_res (hl _ h) (canon_forward (hl _ h))
  · exact hf _ _ ((canon_pairMeet h).of_eq (x := .follow _ _) ‹_›)
  · exact (canon_pairMeet h).of_eq (x := .wait _) ‹_›
  · exact canon_pairDiffer h

theorem canon_storeRes {c d b o n rel hold} (h : Canon c.s) : Canon (storeRes c d b o n rel hold).s := by
  unfold storeRes
  dsimp only
  have h1 := fun acc addr n al => (kept_lookLanes c acc addr n al).canon h
  split
  · exact (kept_startZero ..).canon (h1 ..)
  · split
    · exact canon_storeGate (h1 ..)
    · exact canon_ite_res (h1 ..) (canon_ite_res (canon_storeHold (h1 ..)) (canon_pairRun (h1 ..) (fun _ k => (kept_storeOut ..).canon k)
        fun _ _ k => (kept_storeOut ..).canon k))

theorem canon_execPrefetch {b o la s} (h : Canon s) : CanonOut (execPrefetch b o la s) := by
  refine canonOut_issue h fun _ k => canon_foldl (fun _ _ k => ?_) k
  dsimp only
  split
  · exact (kept_touchSpots ..).canon (((kept_lookAt ..).canon k).of_fst ‹_›)
  · exact ((kept_lookAt ..).canon k).of_fst ‹_›

theorem canon_cacheLane {c b o inv page r l} (h : Canon r.s) : Canon (cacheLane c b o inv page r l).s := by
  unfold cacheLane
  dsimp only
  split
  · split <;> exact ((kept_lookAt ..).canon h).of_fst ‹_›
  · have h1 := fun env acc l => (kept_touchSpots env acc l _).canon (((kept_lookAt ..).canon h).of_fst ‹_›)
    exact canon_ite ((kept_setOrder ..).canon (canon_dropLines (h1 _ _ _))) (h1 _ _ _)
  · exact ((kept_lookAt ..).canon h).of_fst ‹_›

theorem canon_cacheRes {c b o inv page} (h : Canon c.s) : Canon (cacheRes c b o inv page).s := by
  have key : ∀ (l : List Nat) (r : Reads), Canon r.s → Canon (l.foldl (cacheLane c b o inv page) r).s := by
    intro l
    induction l with
    | nil => exact fun _ h => h
    | cons x l ih => exact fun r h => ih _ (canon_cacheLane h)
  exact key c.lanes _ h

theorem canon_atomicRes {c d b o n m op} (h : Canon c.s) : Canon (atomicRes c d b o n m op).s := by
  unfold atomicRes
  dsimp only
  have h1 := fun acc addr n al => (kept_lookLanes c acc addr n al).canon h
  split
  · exact (kept_startZero ..).canon (h1 ..)
  · exact canon_ite_res (h1 ..) (canon_pairRun (h1 ..) (fun _ k => (kept_rmwLanes ..).canon k) fun _ _ k => k)

theorem canon_pollLane {c d b o k r l} (h : Canon r.s) : Canon (pollLane c d b o k r l).s := by
  unfold pollLane
  dsimp only
  split
  · exact h
  · split
    · exact h
    · split
      · exact ((kept_lookAt ..).canon h).of_fst ‹_›
      · exact ((kept_lookAt ..).canon h).of_fst ‹_›
      · have h1 := fun env acc l => (kept_touchSpots env acc l _).canon (((kept_lookAt ..).canon h).of_fst ‹_›)
        split
        · exact (kept_readSpots ..).canon (h1 _ _ _)
        · split
          · exact (kept_readSpots ..).canon (h1 _ _ _)
          · exact h1 _ _ _

theorem canon_followTwin {s as} (h : Canon s) : Canon (followTwin s as) :=
  canon_foldl (fun _ _ k => canon_foldl (fun _ _ k1 => (kept_setOrder ..).canon k1) k) h

theorem canon_takeGiven {c b o} (h : Canon c.s) : Canon (takeGiven c b o).s := canon_modGroup (canon_followTwin h)

theorem canon_execMwait {d b o k s} (h : Canon s) : CanonOut (execMwait d b o k s) := by
  refine canonOut_issue h fun c hc => ?_
  have poll : ∀ (l : List Nat) (r : Polls), Canon r.s → Canon (l.foldl (pollLane c d b o k) r).s := by
    intro l
    induction l with
    | nil => exact fun _ h => h
    | cons x l ih => exact fun r h => ih _ (canon_pollLane h)
  have hr : ∀ {p : Prop} [Decidable p], Canon (if p then takeGiven c b o else c.lanes.foldl (pollLane c d b o k) { s := c.s, got := c.g.got }).s := by
    intro p _
    split
    · exact canon_takeGiven hc
    · exact poll _ _ hc
  exact canon_ite_res (canon_lostTwin hc) (canon_ite_res (canon_ite (canon_forwardOnly (canon_acquire (canon_modGroup hr)))
    (canon_acquire (canon_modGroup hr))) (canon_ite (canon_modGroup hr) (canon_raise (canon_modGroup hr))))

theorem canon_execMwaitSatisfy {w l s} (h : Canon s) : CanonOut (execMwaitSatisfy w l s) := by
  unfold execMwaitSatisfy
  split
  · exact canon_execMwait ((canon_turnIssue h).of_fst ‹_›)
  · exact h

theorem canon_barrierRes {c at_} (h : Canon c.s) : Canon (barrierRes c at_).s := canon_settleBarriers (canon_modGroup h)

theorem canon_onceTrap {c cause} (h : Canon c.s) : Canon (onceTrap c cause).s := h

theorem canon_acquireAct {c s v} (hs : Canon s) : Canon (acquireAct c s v) := canon_acquireAll hs

theorem canon_writeMuster {s t i m} (h : Canon s) : Canon (writeMuster s t i m) := (kept_sramWrite ..).canon h

theorem canon_updateMuster {s k i joins owed landed v} (h : Canon s) : Canon (updateMuster s k i joins owed landed v) := canon_ite h (canon_modTeam h)

theorem canon_settleMuster {k s x} (h : Canon s) : Canon (settleMuster k s x) := by
  unfold settleMuster
  dsimp only
  split
  · exact h
  · exact canon_ite (canon_writeMuster h) (canon_modTeam (canon_writeMuster h))

theorem canon_settleMusters {s k} (h : Canon s) : Canon (settleMusters s k) :=
  canon_ite h (canon_foldl (fun _ _ k => canon_settleMuster k) (canon_modTeam h))

theorem canon_musterRes {c b o f} (h : Canon c.s) (hf : ∀ y0 y1, Canon (f y0 y1).s) : Canon (musterRes c b o f).s := by
  unfold musterRes
  split
  · exact canon_onceTrap h
  · exact hf _ _

theorem canon_placeCmd {c ch cmd first hb csum} (h : Canon c.s) : Canon (placeCmd c ch cmd first hb csum).s :=
  canon_ite_res h (canon_modChan (canon_modTeam h))

theorem canon_copyIssue {c d ch idx} (h : Canon c.s) : Canon (copyIssue c d ch idx).s := canon_ite_res (canon_onceTrap h) (canon_placeCmd h)

theorem canon_execSelk {d ch la s} (h : Canon s) : CanonOut (execSelk d ch la s) := by
  refine canonOut_issue_of_eq h fun c r k e => ?_
  dsimp only at e
  subst e
  exact canon_ite_res (canon_onceTrap k) (canon_placeCmd k)

theorem canon_execRdcsum {d a la s} (h : Canon s) : CanonOut (execRdcsum d a la s) := by
  refine canonOut_issue h (fun _ k => ?_)
  dsimp only
  split
  · exact k
  · exact canon_ite_res k (canon_modGroup k)

theorem canon_readDesc {s c q} (h : Canon s) : Canon (readDesc s c q).1 := by
  unfold readDesc
  split <;> exact ((kept_readAt ..).canon h).of_fst ‹_›

theorem canon_devWrite {s c va bs} (h : Canon s) : Canon (devWrite s c va bs) := (kept_writeAt ..).canon h

theorem canon_takeId {s c} (h : Canon s) : Canon (takeId s c).1 := canon_modContext h

theorem canon_submit {s c rec_ view} (h : Canon s) : Canon (submit s c rec_ view).1 := by
  unfold submit
  dsimp only
  split
  · exact canon_readDesc h
  · split
    · exact ((kept_writeAt ..).canon (canon_readDesc h)).of_fst ‹_›
    · exact ((kept_writeAt ..).canon (canon_readDesc h)).of_fst ‹_›
    · split
      · exact ((kept_writeAt ..).canon (((kept_writeAt ..).canon (canon_readDesc h)).of_fst ‹_›)).of_fst ‹_›
      · exact canon_modContext (canon_takeId (((kept_writeAt ..).canon (((kept_writeAt ..).canon (canon_readDesc h)).of_fst ‹_›)).of_fst ‹_›))

theorem canon_execLaunch {d b o la s} (h : Canon s) : CanonOut (execLaunch d b o la s) := by
  refine canonOut_issue h (fun _ k => canon_ite_res k ?_)
  split
  · exact ((kept_readAt ..).canon k).of_fst ‹_›
  · refine canon_pairRun (((kept_readAt ..).canon k).of_fst ‹_›) (fun _ k1 => ?_) (fun _ _ k1 => k1)
    split <;> exact (canon_submit k1).of_fst ‹_›

theorem canon_cmdDone {s r} (h : Canon s) : Canon (cmdDone s r) := h

theorem canon_runCmd {s op c arg f} (h : Canon s) (hf : ∀ y0, Canon y0 → Canon (f y0)) : CanonOut (runCmd s op c arg f) := canon_ite h (hf _ h)

theorem canon_retest {s c} (h : Canon s) : Canon (retest s c) := h

theorem canon_createContext {s c} (h : Canon s) : Canon (createContext s c) :=
  canon_ite (canon_cmdDone h) (canon_ite (canon_cmdDone h) (canon_cmdDone (canon_retest (canon_modContext ((kept_physPut ..).canon h)))))

theorem canon_queuedRecords {s c} (h : Canon s) : Canon (queuedRecords s c).1 := canon_foldl_fst (fun _ _ k => canon_readDesc k) h

theorem canon_destroyContext {s c} (h : Canon s) : Canon (destroyContext s c) := by
  unfold destroyContext
  split
  have h1 := (canon_ite_fst (canon_queuedRecords h) h).of_fst ‹_›
  exact canon_ite (canon_cmdDone h1) (canon_cmdDone (canon_modContext ((kept_physPut ..).canon h1)))

theorem canon_recordId {s c q} (h : Canon s) : Canon (recordId s c q).1 := canon_ite_fst (canon_modContext h) (canon_takeId h)

theorem canon_ringRecord {s c d i} (h : Canon s) : Canon (ringRecord s c d i).1 := by
  unfold ringRecord
  split <;> exact ((kept_readAt ..).canon h).of_fst ‹_›

theorem canon_killSubmitted {s c id} (h : Canon s) : Canon (killSubmitted s c id) := by
  unfold killSubmitted
  dsimp only
  split
  · exact canon_cmdDone h
  · exact canon_cmdDone (canon_retest (canon_completions (canon_modContext (canon_ringRecord (canon_readDesc h)))))

theorem canon_killCmd {s c id} (h : Canon s) : Canon (killCmd s c id) :=
  canon_ite (canon_cmdDone (canon_killLaunch h)) (canon_ite (canon_cmdDone h) (canon_killSubmitted h))

theorem canon_killRing {c q : Nat} : ∀ {n : Nat} {s : State} {d : QDesc}, Canon s → Canon (killRing c q n s d)
  | 0, _, _, h => h
  | n + 1, s, d, h => by
    unfold killRing
    dsimp only
    exact canon_ite h (canon_killRing (canon_devWrite (canon_ite (canon_recordId (canon_ringRecord h))
      (canon_completions (canon_recordId (canon_ringRecord h))))))

theorem canon_dropImages {s p} (h : Canon s) : Canon (dropImages s p) := h

theorem canon_killContext {s c} (h : Canon s) : Canon (killContext s c) := by
  unfold killContext
  extract_lets s0 s1 s2
  have h1 : Canon s1 := canon_dropImages (canon_foldl (fun _ _ k => canon_killLaunch k) h)
  have h2 : Canon s2 := canon_ite (canon_foldl (fun _ _ k => canon_killRing (canon_readDesc k)) h1) h1
  exact canon_cmdDone (canon_retest (canon_modContext ((kept_physPut ..).canon h2)))

theorem canon_doorbell {s c q v} (h : Canon s) : Canon (doorbell s c q v) :=
  canon_ite ((canon_ite_fst (canon_readDesc h) h).same) (canon_modContext (canon_devWrite (canon_ite_fst (canon_readDesc h) h)))

theorem canon_ctxNum {s c va n} (h : Canon s) : Canon (ctxNum s c va n).1 := by
  unfold ctxNum
  split <;> exact ((kept_readAt ..).canon h).of_fst ‹_›

theorem canon_loadKernel {s c l} (h : Canon s) : Canon (loadKernel s c l).s := by
  have head : Canon (match readAt s (devEnv s c false) .read l.krec.toNat 64 with
      | (s1, .ok b) =>
        let n := Nat.min 4 (fieldOf b 6 2)
        if n = 0 then (s1, some b, some [])
        else match readAt s1 (devEnv s c false) .read (l.krec.toNat + 64) (32 * n) with
          | (s2, .ok r) => (s2, some b, some ((upto n).map fun i => (r.drop (32 * i)).take 32))
          | (s2, .error _) => (s2, some b, none)
      | (s1, .error _) => (s1, none, none) : State × Option (List Byte) × Option (List (List Byte))).1 := by
    dsimp only
    split
    · refine canon_ite_fst (((kept_readAt ..).canon h).of_fst ‹_›) ?_
      split <;> exact ((kept_readAt ..).canon (((kept_readAt ..).canon h).of_fst ‹_›)).of_fst ‹_›
    · exact ((kept_readAt ..).canon h).of_fst ‹_›
  unfold loadKernel
  dsimp only at head ⊢
  split
  · exact head
  · split <;> exact ((kept_readAt ..).canon head).of_fst ‹_›

theorem canon_depsHold {c : Nat} : ∀ {l : List (Nat × Nat)} {s : State}, Canon s → Canon (depsHold s c l).1
  | [], _, h => h
  | (i, n) :: l, s, h => by
    unfold depsHold
    refine canon_ite_fst (canon_depsHold h) ?_
    split
    · exact canon_ite_fst (canon_depsHold ((canon_ctxNum h).of_fst ‹_›)) ((canon_ctxNum h).of_fst ‹_›)
    · exact (canon_ctxNum h).of_fst ‹_›

theorem canon_takeRecord {s c q} (h : Canon s) : Canon (takeRecord s c q) := by
  unfold takeRecord
  have h1 : Canon (if (contextOf s c).state = 1 then readDesc s c q else (s, {})).1 := canon_ite_fst (canon_readDesc h) h
  generalize (if (contextOf s c).state = 1 then readDesc s c q else (s, {})) = r at h1 ⊢
  split
  refine canon_ite h1 (canon_ite (canon_devWrite (canon_recordId h1)) ?_)
  split
  · exact ((kept_readAt ..).canon h1).of_fst ‹_›
  · have h2 := ((kept_readAt ..).canon h1).of_fst ‹_›
    extract_lets l
    split
    have h3 := (canon_depsHold h2).of_fst ‹_›
    refine canon_ite h3 (canon_ite h3 ?_)
    split
    have h4 := (canon_recordId h3).of_fst ‹_›
    extract_lets s5 x
    have h5 : Canon x.s := canon_loadKernel (canon_devWrite h4)
    clear_value x
    split <;> exact h5

theorem canon_bumpEvent {s x} (h : Canon s) : Canon (bumpEvent s x) := by
  unfold bumpEvent
  dsimp only
  split
  · exact h
  · split
    · split
      · exact canon_retest (canon_modContext (((kept_writeAt ..).canon ((canon_ctxNum h).of_fst ‹_›)).of_fst ‹_›))
      · exact (((kept_writeAt ..).canon ((canon_ctxNum h).of_fst ‹_›)).of_fst ‹_›).same
      · exact ((kept_writeAt ..).canon ((canon_ctxNum h).of_fst ‹_›)).of_fst ‹_›
    · exact (canon_ctxNum h).of_fst ‹_›

theorem canon_retryWrites {s} (h : Canon s) : Canon (retryWrites s) := canon_foldl (fun _ _ k => canon_bumpEvent k) ((canon_retryBlocks h).same)

theorem canon_raiseEvent {s} (h : Canon s) : Canon (raiseEvent s) := (kept_raiseIrq ..).canon h

theorem canon_writeCompletion {s} (h : Canon s) : Canon (writeCompletion s) := by
  unfold writeCompletion
  dsimp only
  split
  · exact h
  · have h1 := fun (t : State) (ht : Canon t) p b c n o => canon_evSince (c := c) (n := n) (o := o) ((kept_physWrite t p b).canon ht)
    refine canon_ite h (canon_ite (canon_raiseEvent (canon_bumpEvent (h1 _ ?_ ..))) (canon_bumpEvent (h1 _ ?_ ..))) <;> exact h

theorem canon_extendMeas {s i d} (h : Canon s) : Canon (extendMeas s i d) := h

theorem canon_bootImage {s ty} (h : Canon s) : Canon (bootImage s ty) := canon_ite (canon_extendMeas h) h

theorem canon_bootRom {s} (h : Canon s) : Canon (bootRom s) :=
  canon_ite ((canon_bootImage (canon_extendMeas h)).same) (canon_foldl (fun _ _ k => canon_bootImage k) (canon_bootImage (canon_extendMeas h)))

theorem canon_resetState {s} (h : Canon s) : Canon (resetState s) := ⟨h.1, fun _ hx => absurd hx List.not_mem_nil⟩

theorem canon_reloadPred {s} (h : Canon s) : Canon (reloadPred s) := ⟨mwf_foldl_mput _ _ _ _ _ (mwf_filter _ _ _ h.1), h.2⟩

theorem canon_loseCourses {kept s} (h : Canon s) : Canon (loseCourses kept s) := canon_foldl (fun _ _ k => canon_ite (canon_landCourse k) k) h

theorem canon_freeCourses {s} (h : Canon s) : Canon (freeCourses s).1 := h

theorem canon_packageReset {s} (h : Canon s) : Canon (packageReset s) :=
  canon_bootRom (canon_reloadPred ((canon_resetState (canon_loseCourses (canon_freeCourses h))).same))

theorem canon_powerLoss {kept s} (h : Canon s) : Canon (powerLoss kept s) :=
  ⟨mwf_filter _ _ _ (canon_loseCourses h).1, fun _ hx => absurd hx List.not_mem_nil⟩

theorem canon_svnWrite {v s} (h : Canon s) : Canon (svnWrite v s) :=
  canon_ite h (canon_ite h (canon_ite (((kept_chooseBool ..).canon h).same) ((kept_chooseBool ..).canon h)))

theorem canon_measurementExtend {i s} (h : Canon s) : Canon (measurementExtend i s) := canon_ite (canon_extendMeas h) h

theorem canon_signMsg {s m} (h : Canon s) : Canon (signMsg s m).1 := h

theorem canon_attestationReport {v s} (h : Canon s) : Canon (attestationReport v s) :=
  canon_ite ((kept_physWrite ..).canon (canon_signMsg (m := reportBody s) h)) h

theorem canon_smiotSays {s kind bs} (h : Canon s) : Canon (smiotSays s kind bs) := canon_ite h h

theorem canon_execChallenge {nonce s} (h : Canon s) : CanonOut (execChallenge nonce s) :=
  canon_smiotSays (canon_signMsg (m := sha256 Config.certChain ++ bytesOf256 nonce ++ sha256 (measBytes s)) h)

theorem canon_maskRes {c d v} (h : Canon c.s) : Canon (maskRes c d v).s := h

theorem canon_execBqr {a s} (h : Canon s) : CanonOut (execBqr a s) := by
  refine canonOut_issue h fun _ k => ?_
  dsimp only
  split
  · exact canon_ite_res (canon_modTeam k) k
  · exact k

theorem canon_queueRes {c q ok f} (h : Canon c.s) (hf : ∀ y0, Canon (f y0).s) : Canon (queueRes c q ok f).s := canon_ite_res (hf _) (canon_onceTrap h)

theorem canon_pushQueue {s k q v view} (h : Canon s) : Canon (pushQueue s k q v view) := canon_modTeam (canon_setQueue h)

theorem canon_execQput {q a la s} (h : Canon s) : CanonOut (execQput q a la s) := by
  refine canonOut_issue h fun c k => canon_queueRes k fun l => ?_
  exact canon_ite_res (canon_ite_res k (canon_pairRun k (fun _ k => k) fun _ _ k => k)) (canon_ite_res k (canon_pushQueue k))

theorem canon_popRes {c d q v rest} (h : Canon c.s) : Canon (popRes c d q v rest).s := by
  unfold popRes
  extract_lets views view s1 s2
  have h2 : Canon s2 := canon_modTeam (canon_acquireAct (canon_setQueue h))
  exact canon_ite (canon_foldl (fun _ _ k => (kept_setOrder ..).canon k) h2) h2

theorem canon_execQget {d q la s} (h : Canon s) : CanonOut (execQget d q la s) := by
  refine canonOut_issue h (fun _ k => canon_queueRes k (fun _ => ?_))
  split
  · exact k
  · exact canon_popRes k

theorem canon_execQtry {d q m s} (h : Canon s) : CanonOut (execQtry d q m s) := by
  refine canonOut_issue h fun _ k => canon_queueRes k fun _ => ?_
  split
  · exact k
  · exact canon_popRes (d := d) (v := 0) k

theorem canon_rangeCauses {env : Env} {acc : Acc} : ∀ {l : List (Nat × Nat)} {s : State}, Canon s → Canon (rangeCauses s env acc l).1
  | [], _, h => h
  | (va, n) :: l, s, h => by
    unfold rangeCauses
    dsimp only
    refine canon_ite_fst (canon_rangeCauses h) ?_
    have h1 : Canon _ := canon_rangeCauses (env := env) (acc := acc) (l := l) ((kept_translate s env va acc).canon h)
    split
    · exact h1
    · exact canon_ite_fst h1 h1

theorem canon_fabDest {s env va n} (h : Canon s) : Canon (fabDest s env va n).1 := by
  unfold fabDest
  split
  · exact canon_rangeCauses h
  · split
    have h1 := ((kept_translate ..).canon h).of_fst ‹_›
    split
    · exact canon_rangeCauses h1
    · exact canon_ite_fst (canon_ite_fst ((kept_touchLeaf ..).canon h1) h1) (canon_rangeCauses h1)

theorem canon_leastTrap {c s cs addr n kind} (hs : Canon s) : Canon (leastTrap c s cs addr n kind).s := hs

theorem canon_addFab {s op} (h : Canon s) : Canon (addFab s op) := h

theorem canon_execFput {d b o la s} (h : Canon s) : CanonOut (execFput d b o la s) := by
  refine canonOut_issue h fun c k => ?_
  extract_lets src len dst lenOk bad env
  split
  have h1 := (canon_fabDest k).of_fst ‹_›
  split
  have h2 := (canon_rangeCauses h1).of_fst ‹_›
  split
  exact canon_ite_res (canon_leastTrap h2) (canon_pairRun h2 (fun _ k => canon_addFab k) fun _ _ k => k)

theorem canon_execFsig {d b o la s} (h : Canon s) : CanonOut (execFsig d b o la s) :=
  canonOut_issue h fun _ k => canon_ite_res (canon_leastTrap (canon_fabDest k))
    (canon_pairRun (canon_fabDest k) (fun _ k => canon_addFab k) fun _ _ k => k)

theorem canon_addGroup {s g} (h : Canon s) : Canon (addGroup s g) := h

theorem canon_drawBin {s tile i b} (h : Canon s) : Canon (drawBin s tile i b) := by
  unfold drawBin
  dsimp only
  split
  · exact h
  · exact canon_makeRoom h

theorem canon_execReformDraw {tile bin s} (h : Canon s) : CanonOut (execReformDraw tile bin s) := by
  unfold execReformDraw
  split
  · exact canon_ite (canon_drawBin h) h
  · exact h

theorem canon_execBinAgeExpiry {tile bin s} (h : Canon s) : CanonOut (execBinAgeExpiry tile bin s) := by
  unfold execBinAgeExpiry
  split
  · exact canon_ite (canon_drawBin h) h
  · exact h

theorem canon_takeBank {s c ctx b} (h : Canon s) : Canon (takeBank s c ctx b) := canon_modBank (canon_ite h ((kept_sramWrite ..).canon h))

theorem canon_freshCores {s c ks} (h : Canon s) : Canon (freshCores s c ks) := canon_foldl (fun _ _ k => canon_modCore k) h

theorem canon_startTeam {s l eff p key twin primary} (h : Canon s) : Canon (startTeam s l eff p key twin primary) := by
  refine canon_freshCores (canon_foldl (fun _ _ k => canon_addGroup k) ?_)
  split
  · exact (kept_sramWrite ..).canon (canon_foldl (fun _ _ k => canon_takeBank k) h)
  · exact canon_foldl (fun _ _ k => canon_takeBank k) h

theorem canon_placeNew {s h ps} (hc : Canon s) : Canon (placeNew s h ps) := by
  refine canon_modLaunch ?_
  split
  · exact canon_startTeam hc
  · exact canon_startTeam (canon_startTeam hc)
  · exact hc

theorem canon_takeHalt {s w} (h : Canon s) : Canon (takeHalt s w) := by
  unfold takeHalt
  dsimp only
  split
  · exact canon_ite (canon_ite (canon_haltKey (canon_modGroup h)) (canon_deliver (canon_modGroup (canon_modGroup h)))) h
  · exact h

theorem canon_refile {s w} (h : Canon s) : Canon (refile s w) := by
  unfold refile
  dsimp only
  split
  · exact h
  · exact canon_foldl (fun _ _ k => canon_ite (canon_modGroup (canon_fileWait k)) k) (canon_setGroup h)

theorem canon_restorePoisoned {s gs spared owner} (h : Canon s) : Canon (restorePoisoned s gs spared owner) := by
  unfold restorePoisoned
  extract_lets s1
  have h1 : Canon s1 := canon_foldl (fun _ _ k => canon_modGroup k) h
  split
  · exact canon_ite h1 (canon_foldl (fun _ _ k => canon_killLaunch k) h1)
  · exact h1

theorem canon_padBack {s c pads x} (h : Canon s) : Canon (padBack s c pads x) :=
  canon_modCluster (fun _ hk => mwf_foldl_mput _ _ _ _ _ hk) (canon_foldl (fun _ _ k => (kept_sramWrite ..).canon k) h)

theorem canon_placeSaved {s eff x p} (h : Canon s) : Canon (placeSaved s eff x p) := by
  unfold placeSaved
  extract_lets t l vs gs ks s1 s2 s3 s4 s5 s6 s7 s8
  have h2 : Canon s2 := canon_padBack (canon_foldl (fun _ _ k => canon_modBank k) h)
  have h3 : Canon s3 := canon_modTeam (Canon.same h2)
  have h4 : Canon s4 := canon_freshCores (canon_foldl (fun _ _ k => canon_addGroup k) h3)
  have h5 : Canon s5 := canon_foldl (fun _ _ k => canon_modCore k) h4
  have h6 : Canon s6 := canon_foldl (fun _ _ k => canon_takeHalt (canon_refile k)) h5
  have h7 : Canon s7 := by
    unfold s7
    split
    · exact canon_restorePoisoned h6
    · exact h6
  exact canon_restartHead (canon_settleBarriers (canon_foldl (fun _ _ k => canon_redoLoads k) h7))

theorem canon_placeHead {s h ps} (hc : Canon s) : Canon (placeHead s h ps) := by
  refine canon_ite (canon_cancelRequests ?_) ?_
  · dsimp only
    split
    · exact canon_foldl (fun _ _ k => canon_placeSaved k) hc
    · exact canon_placeNew hc
  · dsimp only
    split
    · exact canon_foldl (fun _ _ k => canon_placeSaved k) hc
    · exact canon_placeNew hc

theorem canon_requestTeam {s for_ k} (h : Canon s) : Canon (requestTeam s for_ k) := canon_ite (canon_modTeam h) (canon_setPreempt (canon_modTeam h))

theorem canon_teamPlaceStep {s choice} (h : Canon s) : Canon (teamPlaceStep s choice) := by
  unfold teamPlaceStep
  dsimp only
  split
  · exact h
  · split
    · exact h
    · split
      · exact h
      · split
        · exact canon_placeHead h
        · exact canon_ite (canon_ite h h) (canon_foldl (fun _ _ k => canon_requestTeam k) (canon_ite h h))

theorem canon_modLinks {s tile f} (h : Canon s) : Canon (modLinks s tile f) := h

theorem canon_closePorts {s tile} (h : Canon s) : Canon (closePorts s tile) := canon_modLinks h

theorem canon_emptyPorts {s tile} (h : Canon s) : Canon (emptyPorts s tile) := canon_modLinks h

theorem canon_reconcile {s tile fc} (h : Canon s) : Canon (reconcile s tile fc) := canon_modLinks h

theorem canon_moveFlit {s n} (h : Canon s) : Canon (moveFlit s n) := by
  unfold moveFlit
  dsimp only
  split
  · exact h
  · split
    · exact canon_ite h h
    · split <;> exact canon_ite h h

theorem canon_freezeInto {s tile slot cause fallback} (h : Canon s) : Canon (freezeInto s tile slot cause fallback) := canon_closePorts h

theorem canon_freezeTile {s tile cause fallback} (h : Canon s) : Canon (freezeTile s tile cause fallback) := by
  unfold freezeTile
  split
  · exact canon_freezeInto h
  · exact h

theorem canon_forceTeam {s t} (h : Canon s) : Canon (forceTeam s t) :=
  canon_ite (canon_modTeam (canon_foldl (fun _ _ k => canon_freezeTile k) h)) (canon_foldl (fun _ _ k => canon_freezeTile k) h)

theorem canon_execPreemptDeadlineExpiry {team s} (h : Canon s) : CanonOut (execPreemptDeadlineExpiry team s) := by
  unfold execPreemptDeadlineExpiry
  split
  · exact canon_ite (canon_forceTeam h) h
  · exact h

theorem canon_imageBytes {s i} (h : Canon s) : Canon (imageBytes s i).1 := canon_freeBytes h

theorem canon_completeImage {s slot i} (h : Canon s) : Canon (completeImage s slot i) := by
  unfold completeImage
  split
  extract_lets s2 s3 s4
  have h2 : Canon s2 := (kept_physWrite ..).canon ((canon_imageBytes h).of_fst ‹_›)
  have h3 : Canon s3 := h2
  have h4 : Canon s4 := canon_ite h3 (canon_emptyPorts h3)
  exact canon_ite (canon_modCore h4) h4

theorem canon_execScanImageComplete {slot s} (h : Canon s) : CanonOut (execScanImageComplete slot s) := by
  unfold execScanImageComplete
  split
  · exact canon_ite h (canon_completeImage h)
  · exact h

theorem canon_imageParts {s gs k} (h : Canon s) : Canon (imageParts s gs k).1 := canon_foldl_fst (fun _ _ k => k) h

theorem canon_saveParts {s t gs} (h : Canon s) : Canon (saveParts s t gs).1 := canon_imageParts (canon_freeBytes h)

/-- What writing the parts of a save comes to holds a canonical state. -/
def SaveCanon : SaveRun → Prop
  | .done s | .wait s | .stop s _ => Canon s

theorem SaveCanon.of_eq {r x : SaveRun} (h : SaveCanon r) (e : r = x) : SaveCanon x := e ▸ h

theorem canon_writeParts {ctx at_ : Nat} : ∀ {l : List (Nat × Part)} {s : State}, Canon s → SaveCanon (writeParts ctx at_ l s)
  | [], _, h => h
  | (o, b, g) :: l, s, h => by
    unfold writeParts
    split
    · exact canon_writeParts h
    · split
      · exact canon_writeParts (((kept_writeAt ..).canon h).of_fst ‹_›)
      · exact ((kept_writeAt ..).canon h).of_fst ‹_›
      · exact ((kept_writeAt ..).canon h).of_fst ‹_›

theorem canon_storeTeam {s t slot gs} (h : Canon s) : Canon (storeTeam s t slot gs) := canon_foldl (fun _ _ k => canon_sweepWaits k) (canon_modTeam h)

theorem canon_saveTeam {s t} (h : Canon s) : Canon (saveTeam s t) := by
  unfold saveTeam
  extract_lets gs c
  split
  · exact h
  · split
    refine canon_ite h ?_
    have h1 := (canon_saveParts h).of_fst ‹_›
    split
    · exact canon_storeTeam ((canon_writeParts h1).of_eq (x := .done _) ‹_›)
    · exact (canon_writeParts h1).of_eq (x := .wait _) ‹_›
    · exact canon_freezeTile ((canon_writeParts h1).of_eq (x := .stop _ _) ‹_›)
    · exact (canon_writeParts h1).of_eq (x := .stop _ _) ‹_›

theorem canon_execTeamSave {team s} (h : Canon s) : CanonOut (execTeamSave team s) := by
  unfold execTeamSave
  dsimp only
  split
  · exact canon_ite (canon_saveTeam (canon_settleMusters h)) h
  · exact h

theorem canon_giveKeys {s i c} (h : Canon s) : Canon (giveKeys s i c) := canon_foldl (fun _ _ k => canon_modTeam k) h

theorem canon_imagePoisoned {s gs bins} (h : Canon s) : Canon (imagePoisoned s gs bins) := canon_restorePoisoned ((kept_chooseFrom ..).canon h)

theorem canon_loadImage {s i tile} (h : Canon s) : Canon (loadImage s i tile) := by
  unfold loadImage
  extract_lets live c s1 s2 gs bins core s3 s4 s5 s6
  have h2 : Canon s2 := canon_foldl (fun _ _ k => canon_modTeam k) (canon_giveKeys h)
  have h3 : Canon s3 := h2
  have h4 : Canon s4 := canon_foldl (fun _ _ k => canon_takeHalt (canon_refile k)) (canon_freshCores h3)
  have h5 : Canon s5 := canon_ite (canon_imagePoisoned h4) h4
  exact canon_foldl (fun _ _ k => canon_settleBarriers k) (canon_foldl (fun _ _ k => canon_redoLoads k) h5)

theorem canon_restoreSlot {s slot tile i} (h : Canon s) : Canon (restoreSlot s slot tile i) := canon_loadImage (canon_reconcile h)

theorem canon_execImageRestore {slot tile s} (h : Canon s) : CanonOut (execImageRestore slot tile s) := by
  unfold execImageRestore
  split
  · exact canon_ite (canon_restoreSlot h) h
  · exact h

theorem canon_exportSlot {s slot} (h : Canon s) : Canon (exportSlot s slot) := by
  unfold exportSlot
  split
  · exact canon_ite (canon_cmdDone h) (canon_ite (canon_cmdDone h) (canon_cmdDone h))
  · exact canon_cmdDone h

theorem canon_freeImage {s slot} (h : Canon s) : Canon (freeImage s slot) := by
  unfold freeImage
  split
  · exact canon_ite (canon_cmdDone h) (canon_cmdDone h)
  · exact canon_cmdDone h

theorem canon_importSlot {s slot tile} (h : Canon s) : Canon (importSlot s slot tile) := by
  have refused : ∀ {n}, Canon (cmdDone s n) := canon_cmdDone h
  exact canon_ite refused (canon_ite refused (canon_ite refused (canon_ite refused (canon_ite refused (canon_ite refused
    (canon_cmdDone (canon_loadImage (canon_reconcile h))))))))

theorem canon_engineFault {s t who va cause tok kind} (h : Canon s) : Canon (engineFault s t who va cause tok kind) :=
  canon_fileFault (canon_ite (canon_logConsumed h) h)

theorem canon_lateAt {s x kind p cur} (h : Canon s) : Canon (lateAt s x kind p cur).1 := h

theorem canon_lateBytes {s x x2} (h : Canon s) : Canon (lateBytes s x x2).1 := by
  unfold lateBytes
  split
  · exact canon_lateAt h
  · exact canon_ite_fst h (canon_lateAt h)

theorem canon_lateSpots {x : Source} : ∀ {l : List Spot} {s : State}, Canon s → Canon (lateSpots s x l).1
  | [], _, h => h
  | _ :: _, s, h => by
    unfold lateSpots
    exact canon_lateSpots (canon_lateBytes h)

/-- The state an engine's read or write comes to. -/
def Eng.state : Eng → State
  | .ok s _ | .wait s | .stop s _ _ _ => s

theorem Eng.canon_ok {s : State} {bs : List Byte} (h : Canon s) : Canon (Eng.ok s bs).state := h

theorem Canon.of_eq {r x : Eng} (h : Canon r.state) (e : r = x) : Canon x.state := e ▸ h

theorem Canon.of_eng_fst {α : Type} {r : Eng × α} {x : Eng} {y : α} (h : Canon r.1.state) (e : r = (x, y)) : Canon x.state := by
  rw [e] at h; exact h

theorem canon_engRead {s env x va n} (h : Canon s) : Canon (engRead s env x va n).state := by
  unfold engRead
  dsimp only
  split
  · exact canon_lateSpots ((kept_touchSpots ..).canon (((kept_lookAt ..).canon h).of_fst ‹_›))
  · split
    · exact h
    · exact ((kept_lookAt ..).canon h).of_fst ‹_›
  · exact h

/-- Stated with the result's name, so that no read of a literal width is ever evaluated. -/
theorem canon_padReadLate {s t x va n r} (h : Canon s) (e : padReadLate s t x va n = r) : Canon r.state := by
  subst e
  unfold padReadLate
  extract_lets l
  clear_value l
  split
  · exact h
  · split
    exact (canon_lateSpots h).of_fst ‹_›

/-- The reader of the scratchpad under another name: a proof that opens it this way never evaluates a read. -/
theorem exists_eq_padReadLate : ∃ read, padReadLate = read ∧ ∀ {s t x va n}, Canon s → Canon (read s t x va n).state :=
  ⟨_, rfl, fun h => canon_padReadLate h rfl⟩

theorem canon_engWrite {s t w va bs} (h : Canon s) : Canon (engWrite s t w va bs).state := by
  unfold engWrite
  split
  · exact h
  · split <;> exact ((kept_writeAt ..).canon h).of_fst ‹_›

theorem canon_padPut {s t w va bs} (h : Canon s) : Canon (padPut s t w va bs) := (kept_writeSpots ..).canon h

theorem canon_takePieces {t : Team} {x : Source} {tile : Bool} : ∀ {ps : List (Nat × Nat × Nat)} {s : State} {words : WordsRead}, Canon s →
    Canon (takePieces s t x tile words ps).1.state
  | [], _, _, h => h
  | (r, va, n) :: ps, s, words, h => by
    unfold takePieces
    extract_lets at_ key got
    have hgot : Canon got.state := by
      unfold got
      split
      · exact h
      · split
        · exact canon_padReadLate h rfl
        · exact canon_engRead h
    clear_value got
    split
    · exact hgot
    · exact hgot
    · have h1 := fun words => canon_takePieces (t := t) (x := x) (tile := tile) (ps := ps) (words := words) (hgot : Canon (Eng.ok ..).state)
      extract_lets words1
      split
      · have h2 := (h1 _).of_eng_fst (x := .ok _ _) ‹_›
        exact h2
      · exact h1 _

theorem canon_headOfBlock {s t x y words i} (h : Canon s) : Canon (headOfBlock s t x y words i).1.state := by
  obtain ⟨read, e, hread⟩ := exists_eq_padReadLate
  unfold headOfBlock
  rw [e]
  dsimp only
  split
  · exact h
  · split
    · have h1 := (hread h).of_eq (x := .ok _ _) ‹_›
      split
      · exact h1
      · split
        · exact h1
        · split
          · have h2 := (hread h1).of_eq (x := .ok _ _) ‹_›
            exact h2
          · exact hread h1
    · exact hread h

theorem canon_takeImage {t : Team} {x : Source} {y : Tile} : ∀ {rs : List (Nat × Nat)} {s : State} {words : WordsRead}, Canon s →
    Canon (takeImage s t x y words rs).1.state
  | [], _, _, h => h
  | (i, n) :: rs, s, words, h => by
    unfold takeImage
    split
    · have h1 := (canon_headOfBlock h).of_eng_fst (x := .ok _ _) ‹_›
      split
      · exact h1
      · extract_lets r
        have hr : Canon r.1.state := by
          unfold r
          split
          · exact h1
          · exact canon_takePieces h1
        clear_value r
        split
        · rename_i s2 _ _
          have h2 := fun words => canon_takeImage (t := t) (x := x) (y := y) (rs := rs) (words := words) (s := s2) hr
          split
          · have h3 := (h2 _).of_eng_fst (x := .ok _ _) ‹_›
            exact h3
          · exact h2 _
        · exact hr
    · exact canon_headOfBlock h

theorem canon_execCopyExecute {c ch s} (h : Canon s) : CanonOut (execCopyExecute c ch s) := by
  unfold execCopyExecute
  dsimp only
  split
  · exact canonOut_ite (canon_modChan h) h
  · exact h

theorem canon_landBytes {s t c ch r j m} (h : Canon s) : Canon (landBytes s t c ch r j m).1.state := by
  unfold landBytes
  dsimp only
  split
  · exact h
  · split
    · exact h
    · split
      · exact canon_takeImage h
      · exact canon_takePieces h

theorem canon_nextBlock {s t c ch r} (h : Canon s) : Canon (nextBlock s t c ch r).1 := by
  unfold nextBlock
  refine canon_ite_fst h ?_
  split
  · exact (canon_takePieces h).of_eng_fst (x := .wait _) ‹_›
  · exact (canon_takePieces h).of_eng_fst (x := .ok _ _) ‹_›
  · exact canon_engineFault ((canon_takePieces h).of_eng_fst (x := .stop _ _ _ _) ‹_›)

theorem canon_raisePointer {s c ch k p} (h : Canon s) : Canon (raisePointer s c ch k p) := canon_ite h (canon_modCount h)

theorem canon_engPut {s t w tile va cells} (h : Canon s) : Canon (engPut s t w tile va cells).state := by
  unfold engPut
  split
  · exact Eng.canon_ok ((kept_writeSpots ..).canon h)
  · split
    · exact h
    · split
      · exact (kept_writeSpots ..).canon ((kept_touchSpots ..).canon (((kept_lookAt ..).canon h).of_fst ‹_›))
      · exact (kept_startZero ..).canon (((kept_lookAt ..).canon h).of_fst ‹_›)
      · exact ((kept_lookAt ..).canon h).of_fst ‹_›

theorem canon_endRun {s c ch cause} (h : Canon s) : Canon (endRun s c ch cause) := canon_modChan h

theorem canon_healWord {s t va} (h : Canon s) : Canon (healWord s t va) := by
  unfold healWord
  dsimp only
  split
  · refine canon_foldl (fun _ _ k => ?_) h
    split
    · exact canon_modCluster (fun _ k => k) k
    · exact k
  · split
    · exact h
    · split <;> exact h

theorem canon_stopRun {s t c ch cause va tok kind} (h : Canon s) : Canon (stopRun s t c ch cause va tok kind) :=
  canon_endRun (canon_ite h (canon_engineFault h))

/-- What landing a word comes to holds a canonical state. -/
def LandCanon : Land → Prop
  | .ok s _ | .over s => Canon s

theorem LandCanon.of_eq {r x : Land} (h : LandCanon r) (e : r = x) : LandCanon x := e ▸ h

theorem canon_landNext {s c ch r} (h : Canon s) : LandCanon (landNext s c ch r) := by
  unfold landNext
  extract_lets t w j total pack m ends last
  split
  · exact h
  · split
    · exact canon_stopRun h
    · split
      · exact canon_ite (canon_endRun h) (canon_ite (canon_endRun h) h)
      · split
        · exact (canon_landBytes h).of_eng_fst (x := .wait _) ‹_›
        · exact canon_stopRun ((canon_landBytes h).of_eng_fst (x := .stop _ _ _ _) ‹_›)
        · have h1 := (canon_landBytes h).of_eng_fst (x := .ok _ _) ‹_›
          extract_lets bs summed
          split
          · exact (canon_engPut h1).of_eq (x := .wait _) ‹_›
          · exact canon_stopRun ((canon_engPut h1).of_eq (x := .stop _ _ _ _) ‹_›)
          · have h2 := (canon_engPut h1).of_eq (x := .ok _ _) ‹_›
            extract_lets s3 s4
            have h3 : Canon s3 := canon_foldl (fun s x k => by
              split
              split
              · exact canon_ite (canon_healWord (canon_padPut k)) (canon_padPut k)
              · exact k) h2
            exact canon_modChan (canon_raisePointer (canon_ite (canon_healWord h3) h3))

theorem canon_landWord {s c ch r} (h : Canon s) : LandCanon (landWord s c ch r) := by
  unfold landWord
  split
  · exact (canon_nextBlock h).of_fst ‹_›
  · have h1 := (canon_nextBlock h).of_fst ‹_›
    exact canon_landNext (canon_ite h1 (canon_modChan h1))

theorem canon_landWords {c ch : Nat} : ∀ {f n : Nat} {s : State}, Canon s → Canon (landWords c ch f n s).1
  | 0, _, _, h => h
  | f + 1, n, s, h => by
    unfold landWords
    dsimp only
    refine canon_ite_fst h ?_
    split
    · exact h
    · split
      · exact (canon_landWord h).of_eq (x := .over _) ‹_›
      · exact canon_landWords ((canon_landWord h).of_eq (x := .ok _ _) ‹_›)

theorem canon_landBy {s c ch n} (h : Canon s) : Canon (landBy s c ch n) := by
  unfold landBy
  dsimp only
  split
  · exact h
  · exact canon_ite (canon_landWords h) (canon_updateMuster (canon_landWords h))

theorem canon_completeOp {s team op status wrote v} (h : Canon s) : Canon (completeOp s team op status wrote v) := canon_modTeam h

theorem canon_addPost {s c ch k err wrote} (h : Canon s) : Canon (addPost s c ch k err wrote) := canon_ite (canon_modChan h) h

theorem canon_endChain {s c ch err} (h : Canon s) : Canon (endChain s c ch err) := by
  unfold endChain
  dsimp only
  split
  · exact h
  · exact canon_settleTeam (canon_modChan (canon_addPost (canon_completeOp h)))

theorem canon_writeCtl {s t c ch k p err} (h : Canon s) : Canon (writeCtl s t c ch k p err).1 := by
  unfold writeCtl
  dsimp only
  split
  · exact (canon_engWrite h).of_eq (x := .ok _ _) ‹_›
  · exact (canon_engWrite h).of_eq (x := .wait _) ‹_›
  · exact canon_engineFault ((canon_engWrite h).of_eq (x := .stop _ _ _ _) ‹_›)

theorem canon_closeRun {s c ch r err} (h : Canon s) : Canon (closeRun s c ch r err) := by
  unfold closeRun
  extract_lets k sum s1 v s2 s3
  have h3 : Canon s3 := canon_modChan (canon_addPost (canon_completeOp (canon_ite (canon_modCount h) h)))
  split
  · exact canon_settleTeam h3
  · exact canon_ite (canon_endChain h3) (canon_ite (canon_endChain h3) (canon_modChan h3))

theorem canon_completeRun_finishCtl {c ch r s t err} (h : Canon s) : Canon (completeRun.finishCtl c ch r s t err) := by
  unfold completeRun.finishCtl
  split
  · exact canon_closeRun h
  · split
    · exact canon_closeRun ((canon_writeCtl h).of_fst ‹_›)
    · exact (canon_writeCtl h).of_fst ‹_›

theorem canon_completeRun {s c ch r} (h : Canon s) : Canon (completeRun s c ch r) := by
  unfold completeRun
  extract_lets k t w0 w stamp
  have h1 : Canon stamp.state := by
    unfold stamp
    split
    · exact h
    · exact canon_engWrite h
  clear_value stamp
  split
  · exact h1
  · exact canon_completeRun_finishCtl (canon_engineFault h1)
  · exact canon_completeRun_finishCtl h1

theorem canon_execCopyComplete {c ch s} (h : Canon s) : CanonOut (execCopyComplete c ch s) := by
  unfold execCopyComplete
  dsimp only
  split
  · exact canon_ite (canon_completeRun h) h
  · exact h

theorem canon_readRecord {me : Agent} : ∀ {l : List Spot} {v : View} {s : State}, Canon s → Canon (readRecord s me v l).1
  | [], _, _, h => h
  | x :: l, v, s, h => by
    unfold readRecord
    exact canon_readRecord (l := l) (s := { s with free := _ }) h

theorem canon_fetchRecord {s c ch x} (h : Canon s) : Canon (fetchRecord s c ch x) := by
  unfold fetchRecord
  extract_lets t env old
  split
  · exact canon_ite h (canon_endChain (canon_engineFault (((kept_lookAt ..).canon h).of_fst ‹_›)))
  · exact h
  · split
    have h0 := ((kept_lookAt ..).canon h).of_fst ‹_›
    have h1 := (canon_readRecord ((kept_touchSpots ..).canon h0)).of_fst ‹_›
    refine canon_ite (canon_endChain h1) ?_
    extract_lets regs f cs e
    refine canon_ite ?_ (canon_modChan (canon_ite (canon_modCount (canon_modTeam h1)) (canon_modTeam h1)))
    split
    · exact canon_endChain ((canon_writeCtl h1).of_fst ‹_›)
    · exact (canon_writeCtl h1).of_fst ‹_›

theorem canon_execCpycRecordFetch {c ch s} (h : Canon s) : CanonOut (execCpycRecordFetch c ch s) := by
  unfold execCpycRecordFetch
  dsimp only
  split
  · exact h
  · split
    · exact canon_fetchRecord h
    · exact canonOut_ite (canon_fetchRecord (canon_modChan h)) h
    · exact h

theorem canon_readKeys {s t x l}  (h : Canon s) : Canon (readKeys s t x l).1 := by
  obtain ⟨read, e, hread⟩ := exists_eq_padReadLate
  delta readKeys readKeys._f
  rw [e]
  induction l generalizing s with
  | nil => exact h
  | cons va l ih =>
    dsimp only
    split
    · have h1 := (hread h).of_eq (x := .ok _ _) ‹_›
      exact ih h1
    · exact Canon.of_eq (hread h) (x := .stop _ _ _ _) ‹_›
    · exact Canon.of_eq (hread h) (x := .wait _) ‹_›

theorem canon_execSelkExecute {c ch s} (h : Canon s) : CanonOut (execSelkExecute c ch s) := by
  unfold execSelkExecute
  dsimp only
  split
  · exact canonOut_ite (canon_modChan (canon_readKeys h)) h
  · exact h

theorem canon_handBack {s team tile} (h : Canon s) : Canon (handBack s team tile) := by
  unfold handBack
  dsimp only
  split
  · exact h
  · exact canon_modTile (canon_modTeam h)

theorem canon_execStatusEntryPost {c ch s} (h : Canon s) : CanonOut (execStatusEntryPost c ch s) := by
  unfold execStatusEntryPost
  dsimp only
  split
  · exact h
  · exact canonOut_ite h (canon_modChan (canon_pushQueue h))

theorem canon_modKey {s team f} (h : Canon s) : Canon (modKey s team f) := canon_modGroup h

theorem canon_enqueue {c s op tiles hb} (hc : Canon c.s) (hs : Canon s) : Canon (enqueue c s op tiles hb).s :=
  canon_ite_res hc (canon_modKey (canon_modTeam hs))

theorem canon_execMlda {d b o la s} (h : Canon s) : CanonOut (execMlda d b o la s) := by
  refine canonOut_issue h fun _ k => canon_ite_res k (canon_ite_res ?_ ?_)
  · split
    · exact canon_enqueue k k
    · exact k
  · split
    · exact canon_enqueue k ((canon_rangeCauses k).of_fst ‹_›)
    · exact canon_leastTrap ((canon_rangeCauses k).of_fst ‹_›)

theorem canon_served {s cl hw} (h : Canon s) : Canon (served s cl hw) := canon_modCluster (fun _ k => k) h

theorem canon_countTurn {s team n} (h : Canon s) : Canon (countTurn s team n) := canon_modKey h

theorem canon_doneHead {s team e status mstat} (h : Canon s) : Canon (doneHead s team e status mstat) := canon_completeOp (canon_modKey h)

theorem canon_cmuEnds {s t g cause addr} (h : Canon s) : Canon (cmuEnds s t g cause addr) := canon_endTeam (canon_ite (canon_logConsumed h) h)

theorem canon_cmuTurn {s : State} {k : Nat} {is : MOp → Bool} {f : State → Group → KeyCtx → MEntry → State} (h : Canon s)
    (hf : ∀ s g key e, Canon s → Canon (f s g key e)) : Canon (cmuTurn s k is f) := by
  unfold cmuTurn
  dsimp only
  split
  · exact h
  · split
    · exact canon_ite (hf _ _ _ _ (canon_served h)) h
    · exact h

theorem canon_execMzeroExecute {k s} (h : Canon s) : CanonOut (execMzeroExecute k s) := by
  refine canon_cmuTurn h (fun _ _ _ _ k => ?_)
  dsimp only
  split
  · exact canon_doneHead (canon_modKey k)
  · exact k

theorem canon_loadSpots {team : Nat} {e : MEntry} : ∀ {l : List Spot} {s : State}, Canon s → Canon (loadSpots s team e l).1
  | [], _, h => h
  | _ :: _, s, h => by
    unfold loadSpots
    exact canon_loadSpots (canon_lateBytes h)

theorem canon_parkLoad {s g tok a} (h : Canon s) : Canon (parkLoad s g tok a) := canon_modKey (canon_fileFault (canon_ite (canon_modCore h) h))

theorem canon_loadTurn {s g e acc a} (h : Canon s) : Canon (loadTurn s g e acc a) := by
  obtain ⟨read, e, hread⟩ := exists_eq_padReadLate
  unfold loadTurn
  rw [e]
  dsimp only
  split
  · split
    · exact canon_doneHead (canon_modKey ((hread h).of_eq (x := .ok _ _) ‹_›))
    · exact canon_cmuEnds ((hread h).of_eq (x := .stop _ _ _ _) ‹_›)
    · exact (hread h).of_eq (x := .wait _) ‹_›
  · split
    · exact canon_doneHead (canon_modKey (canon_loadSpots ((kept_touchSpots ..).canon (((kept_lookAt ..).canon h).of_fst ‹_›))))
    · have h1 := ((kept_lookAt ..).canon h).of_fst ‹_›
      exact canon_ite h (canon_ite (canon_parkLoad h1) (canon_cmuEnds h1))
    · exact h

theorem canon_execMldaExecute {k s} (h : Canon s) : CanonOut (execMldaExecute k s) := by
  refine canon_cmuTurn h (fun _ _ _ _ k => ?_)
  split
  · exact canon_loadTurn k
  · exact k

theorem canon_mmaEffect {s g key e acc tile k0 k fn qs} (h : Canon s) : Canon (mmaEffect s g key e acc tile k0 k fn qs) := by
  unfold mmaEffect
  dsimp only
  split
  · exact canon_ite (canon_doneHead h) (canon_cmuEnds h)
  · exact canon_doneHead (canon_modKey h)

theorem canon_execMmaExecute {k s} (h : Canon s) : CanonOut (execMmaExecute k s) := by
  refine canon_cmuTurn h fun _ _ _ _ k => ?_
  split
  · refine canon_ite (canon_countTurn k) (canon_ite (canon_mmaEffect k) ?_)
    split
    have h1 := ((kept_chooseBool ..).canon k).of_fst ‹_›
    exact canon_ite (canon_countTurn h1) (canon_mmaEffect h1)
  · exact k

theorem canon_drainWords {s t acc a base fn rm sat w m} (h : Canon s) : Canon (drainWords s t acc a base fn rm sat w m).1 :=
  canon_ite (canon_healWord (canon_padPut h)) (canon_padPut h)

theorem canon_execMdrainExecute {k s} (h : Canon s) : CanonOut (execMdrainExecute k s) := by
  refine canon_cmuTurn h fun _ _ _ _ k => ?_
  dsimp only
  split
  · exact canon_ite (canon_modKey (canon_countTurn (canon_drainWords k)))
      (canon_doneHead (canon_ite (canon_modKey (canon_drainWords k)) (canon_drainWords k)))
  · exact k

theorem canon_execMscaleExecute {k s} (h : Canon s) : CanonOut (execMscaleExecute k s) := by
  obtain ⟨get, e⟩ : ∃ get, padGet = get := ⟨_, rfl⟩
  refine canon_cmuTurn h (fun s g key _ k => ?_)
  rw [e]
  split
  · extract_lets t at_
    split
    · exact canon_cmuEnds k
    · extract_lets fs r
      clear_value r
      exact canon_doneHead (canon_modKey k)
  · exact k

theorem canon_setPath {s d port en r} (h : Canon s) : Canon (setPath s d port en r) := h

theorem canon_missPath {s d port en} (h : Canon s) : Canon (missPath s d port en) := canon_setPath h

theorem canon_setFabOp {s n op} (h : Canon s) : Canon (setFabOp s n op) := h

theorem canon_abandonOp {s n cause va tok kind} (h : Canon s) : Canon (abandonOp s n cause va tok kind) := by
  unfold abandonOp
  dsimp only
  split
  · exact h
  · exact canon_settleTeam (canon_modTeam h)

theorem canon_failOp {s n} (h : Canon s) : Canon (failOp s n) := by
  unfold failOp
  split
  · exact h
  · exact canon_abandonOp h

/-- What reading the source of a put comes to holds a canonical state. -/
def PutCanon : PutRead → Prop
  | .ok s _ | .stop s _ _ _ => Canon s
  | .wait => True

theorem PutCanon.of_eq {r x : PutRead} (h : PutCanon r) (e : r = x) : PutCanon x := e ▸ h

theorem canon_readSource {env : Env} {x : Source} : ∀ {l : List (Nat × Nat)} {s : State}, Canon s → PutCanon (readSource s env x l)
  | [], _, h => h
  | (va, n) :: l, s, h => by
    unfold readSource
    split
    · trivial
    · have h1 := canon_readSource (env := env) (x := x) (l := l) ((canon_engRead h).of_eq (x := .ok _ _) ‹_›)
      split
      · have h2 : Canon _ := h1.of_eq (x := .ok _ _) ‹_›
        exact h2
      · exact h1
    · have h1 : Canon _ := (canon_engRead h).of_eq (x := .stop _ _ _ _) ‹_›
      split
      · have h2 := canon_readSource (env := env) (x := x) (l := l) h1
        split
        · have h3 : Canon _ := h2.of_eq (x := .ok _ _) ‹_›
          exact h3
        · exact h2
      · exact h1

theorem canon_emitPacket {s p} (h : Canon s) : Canon (emitPacket s p) := h

theorem canon_openStream {s team d} (h : Canon s) : Canon (openStream s team d).1 := by
  unfold openStream
  dsimp only
  split <;> exact h

theorem canon_sendPacket {s n op path data bad k} (h : Canon s) : Canon (sendPacket s n op path data bad k) :=
  canon_setFabOp (canon_emitPacket ((canon_openStream h).same))

theorem canon_execFabricPacketSend {n port en s} (h : Canon s) : CanonOut (execFabricPacketSend n port en s) := by
  unfold execFabricPacketSend
  dsimp only
  split
  · exact h
  · refine canonOut_ite h (canonOut_ite (canon_sendPacket h) ?_)
    show Canon _
    split
    · exact h
    · exact canon_abandonOp ((canon_readSource h).of_eq (x := .stop _ _ _ _) ‹_›)
    · exact canon_sendPacket ((canon_readSource h).of_eq (x := .ok _ _) ‹_›)

theorem canon_execFabricAckReceive {n s} (h : Canon s) : CanonOut (execFabricAckReceive n s) := by
  unfold execFabricAckReceive
  split
  · exact h
  · extract_lets live s1 s2
    have h1 : Canon s1 := canon_ite (canon_setPath h) h
    have h2 : Canon s2 := h1
    split
    · exact h2
    · exact canon_ite (canon_settleTeam (canon_setFabOp h2)) (canon_setFabOp h2)

theorem canon_execFabricNackReceive {n s} (h : Canon s) : CanonOut (execFabricNackReceive n s) := by
  unfold execFabricNackReceive
  split
  · exact h
  · exact canon_failOp h

theorem canon_resend {s p path} (h : Canon s) : Canon (resend s p path) := canon_emitPacket h

theorem canon_resendOn {s p path} (h : Canon s) : Canon (resendOn s p path) := by
  unfold resendOn
  dsimp only
  split
  · exact canon_resend h
  · split
    · exact canon_resend ((kept_chooseFrom ..).canon h)
    · exact ((kept_chooseFrom ..).canon h).same

theorem canon_execFabricRtoExpiry {n port en s} (h : Canon s) : CanonOut (execFabricRtoExpiry n port en s) := by
  unfold execFabricRtoExpiry
  dsimp only
  split
  · exact h
  · exact canonOut_ite h (canon_ite (canon_failOp (canon_ite (canon_missPath h) h)) (canon_resendOn (canon_ite (canon_missPath h) h)))

theorem canon_execPathProbeTimer {d port en acked s} (h : Canon s) : CanonOut (execPathProbeTimer d port en acked s) := by
  unfold execPathProbeTimer
  dsimp only
  split
  · exact h
  · exact canonOut_ite h (canon_setPath h)

theorem canon_setStream {s x} (h : Canon s) : Canon (setStream s x) := h

theorem canon_laneCount {s port ln} (h : Canon s) : Canon (laneCount s port ln) := canon_predNotice h

theorem canon_portTraffic {s} (h : Canon s) : Canon (portTraffic s) := canon_foldl (fun _ _ k => canon_laneCount k) h

theorem canon_pxTraffic {s} (h : Canon s) : Canon (pxTraffic s) := canon_foldl (fun _ _ k => canon_laneCount k) h

theorem canon_writePut {s p} (h : Canon s) : Canon (writePut s p) := canon_foldl (fun _ _ k => canon_poisonWord k) ((kept_physWriteBy ..).canon h)

theorem canon_writePennant {s p v} (h : Canon s) : Canon (writePennant s p v) := (kept_physWriteBy ..).canon h

theorem canon_execFabricPacketReceive {p s} (h : Canon s) : CanonOut (execFabricPacketReceive p s) := by
  have h1 := canon_portTraffic h
  unfold execFabricPacketReceive
  dsimp only
  refine canonOut_ite ((kept_out ..).canon h1) (canonOut_ite h1 (canonOut_ite ((kept_out ..).canon h1) ?_))
  split
  · exact canon_setStream h1
  · exact (kept_out ..).canon (canon_setStream (canon_writePut h1))

theorem canon_execPennantApply {i s} (h : Canon s) : CanonOut (execPennantApply i s) := by
  unfold execPennantApply
  dsimp only
  split
  · exact h
  · split
    · exact h
    · exact canonOut_ite ((canon_writePennant h).same) h

theorem canon_putSelfst {s v} (h : Canon s) : Canon (putSelfst s v) := canon_ite h h

theorem canon_noticeAcked {s e} (h : Canon s) : Canon (noticeAcked s e) := ((kept_chooseFrom ..).canon h).same

theorem canon_dbgDone {s r} (h : Canon s) : Canon (dbgDone s r) := h

theorem canon_dbgOp {s op f} (h : Canon s) (hf : ∀ y0, Canon (f y0)) : Canon (dbgOp s op f) := canon_ite h (canon_ite (canon_dbgDone h) (hf _))

theorem canon_haltOne {s w} (h : Canon s) : Canon (haltOne s w) := by
  unfold haltOne
  split
  · exact canon_ite (canon_ite h (canon_haltKey h)) (canon_deliver (canon_modGroup h))
  · exact h

theorem canon_runHalt {s x} (h : Canon s) : Canon (runHalt s x) :=
  canon_ite (canon_dbgDone h) (canon_dbgDone (canon_foldl (fun _ _ k => canon_haltOne k) (canon_modAway h)))

theorem canon_reloaded {s now g} (h : Canon s) : Canon (reloaded s now g).1 := by
  unfold reloaded
  dsimp only
  split
  · exact h
  · split <;> exact ((kept_readAt ..).canon h).of_fst ‹_›

theorem canon_resumeKey {s w} (h : Canon s) : Canon (resumeKey s w) := by
  unfold resumeKey
  split
  · exact h
  · split
    · exact canon_setGroup ((canon_reloaded h).of_fst ‹_›)
    · exact canon_failLaunch ((canon_reloaded h).of_fst ‹_›)

theorem canon_resumeAway {s x} (h : Canon s) : Canon (resumeAway s x) := by
  unfold resumeAway
  dsimp only
  split
  · exact canon_modAway h
  · split
    · exact canon_modAway ((canon_reloaded h).of_fst ‹_›)
    · exact canon_failLaunch ((canon_reloaded h).of_fst ‹_›)

theorem canon_runResume {s x} (h : Canon s) : Canon (runResume s x) := by
  have h1 : ∀ {l}, Canon (List.foldl resumeAway s l) := canon_foldl (fun _ _ k => canon_resumeAway k) h
  exact canon_ite (canon_dbgDone h) (canon_ite (canon_dbgDone h)
    (canon_dbgDone (canon_foldl (fun _ _ k => canon_ite (canon_resumeKey k) (canon_modGroup k)) h1)))

theorem canon_runFreeze {s x} (h : Canon s) : Canon (runFreeze s x) := by
  unfold runFreeze
  extract_lets tiles clear s1 s2
  have h2 : Canon s2 := canon_foldl (fun _ _ k => canon_modCore k) (canon_foldl (fun _ _ k => canon_freezeTile k) h)
  exact canon_ite (canon_dbgDone h) (canon_ite (canon_dbgDone h) (canon_dbgDone (canon_ite (canon_putSelfst h2) h2)))

theorem canon_thawTile {s tile} (h : Canon s) : Canon (thawTile s tile).1 := by
  unfold thawTile
  split
  · exact canon_modCore h
  · exact canon_ite_fst (canon_restoreSlot h) h

theorem canon_runThaw {s x} (h : Canon s) : Canon (runThaw s x) := by
  unfold runThaw
  extract_lets tiles r
  have h1 : Canon r.1 := canon_foldl_fst (fun _ _ k => canon_thawTile k) h
  exact canon_ite (canon_dbgDone h) (canon_dbgDone (canon_ite (canon_putSelfst h1) h1))

theorem canon_execHalyardDoorbell {v s} (h : Canon s) : CanonOut (execHalyardDoorbell v s) := by
  unfold execHalyardDoorbell
  dsimp only
  split
  · exact canon_modGroup h
  · exact canon_ite h (canon_dbgDone h)

theorem canon_takeSample {s tile g} (h : Canon s) : Canon (takeSample s tile g) :=
  canon_ite ((kept_ctl ..).canon ((kept_physWrite ..).canon h)) h

theorem canon_execSampleTimer {tile s} (h : Canon s) : CanonOut (execSampleTimer tile s) := by
  refine canonOut_ite h ?_
  split
  · exact canon_takeSample (canon_modCore h)
  · exact canon_modCore h

theorem canon_putHang {s r} (h : Canon s) : Canon (putHang s r) := (kept_raiseIrq ..).canon h

theorem canon_execWatchdogHangDeclare {who s} (h : Canon s) : CanonOut (execWatchdogHangDeclare who s) := by
  unfold execWatchdogHangDeclare
  dsimp only
  split
  · exact h
  · split
    · exact h
    · exact canon_ite (canon_killLaunch (canon_putHang (canon_modGroup h))) (canon_putHang (canon_modGroup h))

theorem canon_mcmdDone {s r} (h : Canon s) : Canon (mcmdDone s r) := h

theorem canon_mcmdWait {s} (h : Canon s) : Canon (mcmdWait s) := h

theorem canon_mcmd {s f} (h : Canon s) (hf : ∀ y0, Canon y0 → Canon (f y0)) : CanonOut (mcmd s f) := canon_ite h (hf _ h)

theorem canon_staleAway {s r} (h : Canon s) : Canon (staleAway s r) := h

theorem canon_settleInval {s} (h : Canon s) : Canon (settleInval s) := by
  unfold settleInval
  dsimp only
  split
  · exact h
  · exact canon_ite (canon_staleAway h) (canon_mcmdDone h)

theorem canon_runInval {s} (h : Canon s) : Canon (runInval s) := canon_ite (canon_mcmdDone h) (canon_settleInval (canon_mcmdWait h))

theorem canon_runReplay {s} (h : Canon s) : Canon (runReplay s) :=
  canon_ite (canon_mcmdDone h) (canon_mcmdDone (canon_foldl (fun _ _ k => canon_releaseWaits k) h))

theorem canon_runSwap {s} (h : Canon s) : Canon (runSwap s) :=
  canon_ite (canon_mcmdDone h) (canon_ite (canon_mcmdDone h) (canon_ite (canon_mcmdDone h) (canon_mcmdDone h)))

theorem canon_exchange {s x0 y0} (h : Canon s) : Canon (exchange s x0 y0) := by
  unfold exchange
  extract_lets x y bx byt
  clear_value bx byt
  exact ⟨wf_memPut _ _ _ (wf_memPut _ _ _ h.1), h.2⟩

theorem canon_execSwapLineExchange {i j s} (h : Canon s) : CanonOut (execSwapLineExchange i j s) := by
  unfold execSwapLineExchange
  have h1 := fun w x y => canon_exchange (x0 := x) (y0 := y) (show Canon { s with swaps := w } from h)
  exact canonOut_ite h (canon_ite (canon_noticeQ (h1 ..)) (h1 ..))

theorem canon_runSwapfree {s} (h : Canon s) : Canon (runSwapfree s) := canon_ite (canon_mcmdDone h) (canon_ite (canon_mcmdDone h) (canon_mcmdDone h))

theorem canon_moveSlot {s f h} (hc : Canon s) : Canon (moveSlot s f h) := ⟨mwf_foldl_mput _ _ _ _ _ (mwf_filter _ _ _ hc.1), hc.2⟩

theorem canon_logMapout {s k f h st} (hc : Canon s) : Canon (logMapout s k f h st) := (kept_logError ..).canon hc

theorem canon_runMapout {s} (h : Canon s) : Canon (runMapout s) := by
  have refused : ∀ {n}, Canon (mcmdDone s n) := canon_mcmdDone h
  exact canon_ite refused (canon_ite refused (canon_ite refused
    (canon_ite refused (canon_ite (canon_mcmdDone (canon_logMapout h)) (canon_mcmdWait h)))))

theorem canon_mapOutDone {s} (h : Canon s) : Canon (mapOutDone s) := by
  unfold mapOutDone
  dsimp only
  split
  · exact h
  · exact canon_mcmdDone (canon_logMapout ((canon_moveSlot h).same))

theorem canon_runMapend {s} (h : Canon s) : Canon (runMapend s) := canon_ite (canon_mcmdDone h) (canon_mcmdDone h)

theorem canon_extentNotice {s i kind err} (h : Canon s) : Canon (extentNotice s i kind err) := h

theorem canon_runExtrel {s} (h : Canon s) : Canon (runExtrel s) := canon_ite (canon_mcmdDone h) (canon_ite (canon_mcmdDone h) (canon_mcmdWait h))

theorem canon_settleExtents {s} (h : Canon s) : Canon (settleExtents s) := canon_foldl (fun _ _ k => k) h

theorem canon_poisonLine {s pa} (h : Canon s) : Canon (poisonLine s pa) := canon_foldl (fun _ _ k => canon_poisonWord k) h

theorem canon_execExtentSurpriseRemoval {i dirty s} (h : Canon s) : CanonOut (execExtentSurpriseRemoval i dirty s) := by
  unfold execExtentSurpriseRemoval
  extract_lets x lines s1 s2 s3
  have h1 : Canon s1 := Canon.same (canon_foldl (fun _ _ k => canon_poisonLine k) h)
  have h3 : Canon s3 := (kept_logError ..).canon (canon_extentNotice h1)
  exact canonOut_ite h (canon_ite (canon_mcmdDone h3) h3)

theorem canon_clearRange {s pa n but} (h : Canon s) : Canon (clearRange s pa n but) := canon_dropLines ⟨mwf_filter _ _ _ h.1, h.2⟩

theorem canon_clearPage {s leaf pa n} (h : Canon s) : Canon (clearPage s leaf pa n) :=
  canon_foldl (fun _ _ k => canon_clearRange k) (canon_clearRange h)

theorem canon_runQtrim {s} (h : Canon s) : Canon (runQtrim s) := canon_ite (canon_mcmdDone h) (canon_mcmdDone (canon_clearRange h))

theorem canon_execZeroEngineDone {i s} (h : Canon s) : CanonOut (execZeroEngineDone i s) := by
  unfold execZeroEngineDone
  dsimp only
  split
  · exact h
  · exact canon_retryWrites ((kept_physPut ..).canon (canon_clearPage h))

theorem canon_execFaultRecordWrite {s} (h : Canon s) : CanonOut (execFaultRecordWrite s) := by
  unfold execFaultRecordWrite
  dsimp only
  split
  · exact h
  · have h1 := fun q p b c => (kept_ctl _ c).canon ((kept_physWrite _ p b).canon (show Canon { s with faultQ := q } from h))
    exact canonOut_ite (canon_ite ((kept_raiseIrq ..).canon (h1 ..)) (h1 ..)) h

theorem canon_noticePosted {s n} (h : Canon s) : Canon (noticePosted s n) := by
  unfold noticePosted
  dsimp only
  split
  · exact h
  · exact canon_mapOutDone h
  · exact canon_ite h (canon_mcmdDone h)
  · exact h

theorem canon_execNotificationPost {s} (h : Canon s) : CanonOut (execNotificationPost s) := by
  unfold execNotificationPost
  split
  · exact h
  · exact canonOut_ite (canon_noticePosted ((kept_nqPost ..).canon h)) h

theorem canon_putIrqv {s k v} (h : Canon s) : Canon (putIrqv s k v) := canon_ite h (canon_ite (canon_ite ((kept_raiseIrq ..).canon h) h) h)

theorem canon_hostAtomic {s env k va n bs} (h : Canon s) : Canon (hostAtomic s env k va n bs) := by
  unfold hostAtomic
  dsimp only
  split
  · exact canon_ite h ((((kept_lookAt ..).canon h).of_fst ‹_›).same)
  · exact (kept_startZero ..).canon (((kept_lookAt ..).canon h).of_fst ‹_›)
  · exact ((kept_writeSpots ..).canon ((kept_readSpots ..).canon ((kept_touchSpots ..).canon (((kept_lookAt ..).canon h).of_fst ‹_›)))).same

theorem canon_execHostCoreAccess {c va n data s} (h : Canon s) : CanonOut (execHostCoreAccess c va n data s) := by
  unfold execHostCoreAccess
  dsimp only
  split
  · split
    · exact (((kept_readAt ..).canon h).of_fst ‹_›).same
    · exact canon_ite h ((((kept_readAt ..).canon h).of_fst ‹_›).same)
  · split
    · exact canon_hostAtomic h
    · split
      · exact (((kept_writeAt ..).canon h).of_fst ‹_›).same
      · exact ((kept_writeAt ..).canon h).of_fst ‹_›
      · exact (((kept_writeAt ..).canon h).of_fst ‹_›).same

theorem canon_answerPeer {s ok bs} (h : Canon s) : Canon (answerPeer s ok bs) := h

theorem canon_execPeerMemoryRequest {rid pasid va n data s0} (h : Canon s0) : CanonOut (execPeerMemoryRequest rid pasid va n data s0) := by
  unfold execPeerMemoryRequest
  dsimp only
  split
  · exact canon_answerPeer (canon_pxTraffic h)
  · split
    · split
      · exact canon_answerPeer (((kept_readAt ..).canon (canon_pxTraffic h)).of_fst ‹_›)
      · exact canon_ite (canon_pxTraffic h) (canon_answerPeer (((kept_readAt ..).canon (canon_pxTraffic h)).of_fst ‹_›))
    · split
      · exact canon_answerPeer (((kept_writeAt ..).canon (canon_pxTraffic h)).of_fst ‹_›)
      · exact ((kept_writeAt ..).canon (canon_pxTraffic h)).of_fst ‹_›
      · exact (((kept_writeAt ..).canon (canon_pxTraffic h)).of_fst ‹_›).same

theorem canon_execAtsTranslationRequest {rid pasid va s0} (h : Canon s0) : CanonOut (execAtsTranslationRequest rid pasid va s0) := by
  unfold execAtsTranslationRequest
  dsimp only
  split
  · exact canon_answerPeer (canon_pxTraffic h)
  · split
    · exact canon_answerPeer ((kept_touchLeaf ..).canon (((kept_translate ..).canon (canon_pxTraffic h)).of_fst ‹_›))
    · exact canon_answerPeer (((kept_translate ..).canon (canon_pxTraffic h)).of_fst ‹_›)

theorem canon_ftDone {s c r} (h : Canon s) : Canon (ftDone s c r) := canon_modCluster (fun _ k => k) h

theorem canon_ftCmd {s c ok f} (h : Canon s) (hf : ∀ y0, Canon y0 → Canon (f y0)) : Canon (ftCmd s c ok f) :=
  canon_ite h (canon_ite (canon_ftDone h) (canon_ite (hf _ h) (canon_ftDone h)))

theorem canon_offline {s c} (h : Canon s) : Canon (offline s c) :=
  canon_ftCmd h (fun _ k => canon_foldl (fun _ _ k1 => canon_requestTeam k1) (canon_modCluster (fun _ k => k) k))

theorem canon_patternOk {s} (h : Canon s) : Canon (patternOk s).1 := canon_ite_fst h ((kept_chooseBool ..).canon h)

theorem canon_startTest {s c} (h : Canon s) : Canon (startTest s c) := by
  refine canon_ftCmd h fun _ k => canon_ite (canon_ftDone k) ?_
  split
  have h1 := (canon_patternOk k).of_fst ‹_›
  exact canon_ite (canon_modCluster (fun _ k => k) h1) (canon_ftDone h1)

theorem sram_backModes (k : Cluster) : (backModes k).sram = k.sram := by rw [backModes]

theorem canon_online {s c} (h : Canon s) : Canon (online s c) := by
  unfold online
  exact canon_ftCmd h fun _ k => canon_modCluster (fun x hx => by simpa [apply_ite Cluster.sram, sram_backModes] using hx) k

theorem canon_retireCluster {s c} (h : Canon s) : Canon (retireCluster s c) := canon_ftCmd h (fun _ k => canon_modCluster (fun _ k => k) k)

theorem canon_logTestFail {s f} (h : Canon s) : Canon (logTestFail s f) := by
  unfold logTestFail
  dsimp only
  split
  · exact (kept_logError ..).canon ((kept_logError ..).canon h)
  · exact (kept_logError ..).canon h

theorem canon_forgetPad {s c lo hi} (h : Canon s) : Canon (forgetPad s c lo hi) := h

theorem canon_zeroArrays {s c} (h : Canon s) : Canon (zeroArrays s c) := by
  unfold zeroArrays
  extract_lets inTlb s0 s1
  have h1 : Canon s1 := canon_modCluster (fun _ _ => rfl) h
  exact canon_foldl (fun _ _ k => canon_modCore k) h1

theorem canon_ckDone {s r} (h : Canon s) : Canon (ckDone s r) := canon_ite ((kept_logError ..).canon h) h

theorem canon_ckSave {s} (h : Canon s) : Canon (ckSave s) :=
  canon_ite h (canon_ite (canon_ckDone h) (canon_ite (canon_ckDone h) (canon_foldl (fun _ _ k => canon_requestTeam k) h)))

theorem canon_ckStep2 {s} (h : Canon s) : Canon (ckStep2 s) := canon_ite h h

theorem canon_ckImage {s} (h : Canon s) : Canon (ckImage s).1 := by
  refine canon_foldl_fst (fun _ _ k => ?_) h
  dsimp only
  split
  · exact canon_ite_fst k ((kept_chooseFrom ..).canon k)
  · exact k

theorem canon_putData {s img n} (h : Canon s) : Canon (putData s img n) := ⟨mwf_foldl_mput _ _ _ _ _ (mwf_filter _ _ _ h.1), h.2⟩

theorem canon_putSome {s} (h : Canon s) : Canon (putSome s) := canon_ite h (canon_putData ((canon_ckImage h).same))

theorem canon_ckWrite {s} (h : Canon s) : Canon (ckWrite s) :=
  canon_ckDone (canon_ck ((kept_physWrite ..).canon ((kept_physWrite ..).canon (canon_putData (canon_ckImage h)))))

theorem canon_ckComplete {s0} (h : Canon s0) : Canon (ckComplete s0) := by
  unfold ckComplete
  extract_lets s
  have hs : Canon s := canon_ckStep2 h
  refine canon_ite hs (canon_ite (canon_ckDone hs) ?_)
  split
  have h1 := ((kept_chooseBool ..).canon hs).of_fst ‹_›
  exact canon_ite (canon_ckDone (canon_putSome h1)) (canon_ckWrite h1)

theorem canon_ckAbort {s} (h : Canon s) : Canon (ckAbort s) := canon_ite (canon_ckDone (canon_putSome h)) (canon_ckDone h)

/-- Bytes put one by one, where they have a place, keep the form. -/
theorem mwf_foldl_place {β : Type} (f : Mem → β → Mem) (hf : ∀ m x, f m x = m ∨ ∃ k v, f m x = mput 0 m k v) :
    ∀ (l : List β) (m : Mem), Memory.wf m = true → Memory.wf (l.foldl f m) = true
  | [], _, h => h
  | x :: l, m, h => by
    refine mwf_foldl_place f hf l _ ?_
    rcases hf m x with e | ⟨k, v, e⟩ <;> rw [e]
    · exact h
    · exact mwf_mput _ _ _ _ h

theorem canon_takeData {s} (h : Canon s) : Canon (takeData s) := by
  refine ⟨mwf_foldl_place _ (fun m x => ?_) _ _ (mwf_filter _ _ _ h.1), h.2⟩
  dsimp only
  split
  · exact .inr ⟨_, _, rfl⟩
  · exact .inl rfl

theorem canon_poisonOffsets {s ls} (h : Canon s) : Canon (poisonOffsets s ls) := by
  refine canon_foldl (fun _ _ k => ?_) h
  split
  · exact canon_poisonLine k
  · exact k

theorem canon_ckLoad {s} (h : Canon s) : Canon (ckLoad s) := by
  unfold ckLoad
  extract_lets b ck s0
  have h0 : Canon s0 := h
  refine canon_ite h (canon_ite (canon_ckDone h0) (canon_ite (canon_ckDone h0) (canon_ite (canon_ckDone h0) ?_)))
  split
  exact canon_ckDone (canon_foldl (fun _ _ k => canon_poisonOffsets k) (canon_poisonOffsets (canon_takeData h0)))

theorem canon_logThermal {s sev} (h : Canon s) : Canon (logThermal s sev) := (kept_logError ..).canon h

theorem canon_correctedError {s unit addr syndrome} (h : Canon s) : Canon (correctedError s unit addr syndrome) := by
  refine canon_ite h ((kept_logError ..).canon ?_)
  dsimp only
  split
  · exact canon_predNotice ((kept_physPut ..).canon (canon_ite h h))
  · exact h

theorem canon_flashCounts {s block retries wear retired} (h : Canon s) : Canon (flashCounts s block retries wear retired) :=
  canon_ite h (canon_predNotice ((kept_physPut ..).canon (canon_ite h h)))

theorem canon_broughtBack {s x} (h : Canon s) : Canon (broughtBack s x) := canon_makeRoom (canon_modGroup h)

theorem canon_execParkAreaReturn {team g s} (h : Canon s) : CanonOut (execParkAreaReturn team g s) := by
  unfold execParkAreaReturn
  split
  · exact h
  · exact canon_ite (canon_broughtBack h) h

theorem canon_execReconvRelease {team g lane s} (h : Canon s) : CanonOut (execReconvRelease team g lane s) := by
  unfold execReconvRelease
  dsimp only
  split
  · exact h
  · exact canonOut_ite (canon_setGroup h) h

theorem canon_stallCode {s g} (h : Canon s) : Canon (stallCode s g).1 := canon_ite_fst h ((kept_chooseFrom ..).canon ((kept_chooseFrom ..).canon h))

theorem canon_groupCycle {s g} (h : Canon s) : Canon (groupCycle s g) :=
  canon_ite (canon_modGroup h) (canon_modGroup (canon_ite_fst ((kept_chooseBool ..).canon (canon_stallCode h)) (canon_stallCode h)))

theorem canon_endOfCycle {s} (h : Canon s) : Canon (endOfCycle s) := by
  refine canon_ckStep2 (canon_foldl (fun _ _ k => ?_) (canon_settleExtents (canon_settleInval (canon_foldl (fun _ _ k => canon_settleMusters k) h))))
  split
  · exact canon_postKey k
  · exact k

theorem canon_cycleFs {s} (h : Canon s) : Canon (cycleFs s).1 := (kept_chooseBool ..).canon h

theorem canon_logPoison {s unit addr} (h : Canon s) : Canon (logPoison s unit addr) := (kept_logError ..).canon (((kept_chooseBool ..).canon h).same)

theorem canon_markImage {s slot n off} (h : Canon s) : Canon (markImage s slot n off) :=
    (kept_physPut ..).canon ((kept_physPut ..).canon ((kept_physPut ..).canon h))

theorem canon_strikeVault {s pa} (h : Canon s) : Canon (strikeVault s pa) := by
  unfold strikeVault
  dsimp only
  split
  · exact canon_ite (canon_ite (canon_markImage h) h) h
  · exact h

theorem canon_strikeSaved {s pa} (h : Canon s) : Canon (strikeSaved s pa) := by
  refine canon_foldl (fun _ _ k => ?_) h
  dsimp only
  split
  · exact canon_ite k ((kept_writeAt ..).canon ((kept_writeAt ..).canon k))
  · exact k

theorem canon_strikeMemory {s pa unit} (h : Canon s) : Canon (strikeMemory s pa unit) :=
  canon_ite h (canon_logPoison (canon_countUncorrected (canon_poisonWord (canon_strikeSaved (canon_strikeVault h)))))

theorem canon_strikeScratch {s team off} (h : Canon s) : Canon (strikeScratch s team off) := by
  unfold strikeScratch
  extract_lets t
  split
  · exact canon_logPoison (canon_modCluster (fun k hk => by split <;> exact hk) h)
  · exact h

theorem canon_strikeGroup {s team n lanes unit} (h : Canon s) : Canon (strikeGroup s team n lanes unit) := by
  unfold strikeGroup
  dsimp only
  split
  · exact h
  · exact canon_ite h (canon_raise h)

theorem canon_execUncorrectedError {e s} (h : Canon s) : CanonOut (execUncorrectedError e s) := by
  unfold execUncorrectedError
  split
  · exact canon_strikeMemory h
  · exact canon_strikeScratch h
  · exact canon_strikeGroup h

theorem canon_bankMode {s c b m} (h : Canon s) : Canon (bankMode s c b m) :=
  canon_ite (canon_modBank h) (canon_ite h (canon_ite (canon_modBank h) (canon_modBank h)))

theorem canon_bankWrite {s c b v} (h : Canon s) : Canon (bankWrite s c b v) := canon_ite h (canon_bankMode (canon_ite (canon_modBank h) h))

theorem canon_giveUp : ∀ {n : Nat} {s : State} {l : List Nat}, Canon s → Canon (giveUp n s l).1
  | 0, _, _, h => h
  | _ + 1, _, _, h => by
    unfold giveUp
    exact canon_giveUp ((kept_chooseFrom ..).canon h)

theorem canon_trimCache {s c} (h : Canon s) : Canon (trimCache s c) := (canon_giveUp h).same

theorem canon_execSbankDrainComplete {c b s} (h : Canon s) : CanonOut (execSbankDrainComplete c b s) := by
  unfold execSbankDrainComplete
  dsimp only
  split
  · exact h
  · exact canon_trimCache (canon_modBank (canon_modCluster (fun _ hk => mwf_filter _ _ _ hk) (canon_forgetPad h)))

theorem canon_fcfgWrite {s v} (h : Canon s) : Canon (fcfgWrite s v) :=
  canon_ite (canon_ite (((kept_chooseBool ..).canon h).same) ((kept_chooseBool ..).canon h)) h

theorem canon_cmdWrite {s v} (h : Canon s) : Canon (cmdWrite s v) := canon_ite h (canon_ite (canon_cmdDone h) h)

theorem canon_mcmdWrite {s w} (h : Canon s) : Canon (mcmdWrite s w) := by
  unfold mcmdWrite
  split
  · exact h
  · split
    · exact canon_runInval h
    · exact canon_runReplay h
    · exact canon_runSwap h
    · exact canon_runSwapfree h
    · exact canon_runMapout h
    · exact canon_runMapend h
    · exact canon_runExtrel h
    · exact canon_runQtrim h
    · exact canon_mcmdDone h

theorem canon_dbgWrite {s w} (h : Canon s) : Canon (dbgWrite s w) := by
  refine canon_dbgOp h (fun _ => ?_)
  split
  · exact canon_runHalt h
  · exact canon_runResume h
  · exact canon_runFreeze h
  · exact canon_runThaw h
  · exact canon_dbgDone h

theorem canon_doorbellWrite {s v} (h : Canon s) : Canon (doorbellWrite s v) := by
  have h1 := canon_execHalyardDoorbell (v := v) h
  unfold doorbellWrite
  split
  · rename_i e; rw [e] at h1; exact h1
  · exact h

theorem canon_ftWrite {s w} (h : Canon s) : Canon (ftWrite s w) := by
  unfold ftWrite
  dsimp only
  split
  · exact canon_offline h
  · exact canon_startTest h
  · exact canon_online h
  · exact canon_retireCluster h
  · exact canon_ftCmd h fun _ k => k

theorem canon_ckWriteCmd {s w} (h : Canon s) : Canon (ckWriteCmd s w) := by
  unfold ckWriteCmd
  split
  · exact canon_ckSave h
  · exact canon_ckLoad h
  · exact canon_ckAbort h
  · exact canon_ite h (canon_ckDone h)

theorem canon_actWrite {s off v} (h : Canon s) : Canon (actWrite s off v) := by
  unfold actWrite
  dsimp only
  split
  · exact canon_cmdWrite h
  · exact canon_mcmdWrite h
  · exact canon_dbgWrite h
  · exact canon_doorbellWrite h
  · exact canon_fcfgWrite h
  · exact canon_putSelfst h
  · exact canon_attestationReport h
  · exact canon_svnWrite h
  · exact canon_measurementExtend h
  · exact canon_ftWrite h
  · exact canon_ckWriteCmd h
  · split
    · exact canon_putIrqv h
    · exact canon_doorbell h
    · exact canon_retest h
    · exact canon_ite (canon_bankWrite h) h
    · exact h

theorem canon_regWrite {s off v} (h : Canon s) : Canon (regWrite s off v) := by
  unfold regWrite
  split
  · exact h
  · split
    · exact h
    · exact canon_actWrite h

theorem canon_Ctx_map1 {c d a f} (h : Canon c.s) : Canon (Ctx.map1 c d a f).s := h

theorem canon_Ctx_map2 {c d a b f} (h : Canon c.s) : Canon (Ctx.map2 c d a b f).s := h

theorem canon_Ctx_map3 {c d a b f} (h : Canon c.s) : Canon (Ctx.map3 c d a b f).s := h

theorem canon_compareRes {c d p} (h : Canon c.s) : Canon (compareRes c d p).s := h

theorem canon_floatRes {c d uni f} (h : Canon c.s) : Canon (floatRes c d uni f).s := h

theorem canon_doubleRes {c d uni f} (h : Canon c.s) : Canon (doubleRes c d uni f).s := h

theorem canon_float2 {c d a b f} (h : Canon c.s) : Canon (float2 c d a b f).s := canon_floatRes h

theorem canon_float3 {c d a b f} (h : Canon c.s) : Canon (float3 c d a b f).s := canon_floatRes h

theorem canon_double2 {c d a b f} (h : Canon c.s) : Canon (double2 c d a b f).s := canon_doubleRes h

theorem canon_special {c d a f} (h : Canon c.s) : Canon (special c d a f).s := canon_floatRes h

theorem canon_halfRes {c d a b f op} (h : Canon c.s) : Canon (halfRes c d a b f op).s := canon_floatRes h

theorem canon_halfFma {c d a b f} (h : Canon c.s) : Canon (halfFma c d a b f).s := canon_floatRes h

theorem canon_stepGens {c n} (h : Canon c.s) : Canon (stepGens c n) := canon_modGroup h

theorem canon_shuffleRes {c d a b src} (h : Canon c.s) : Canon (shuffleRes c d a b src).s := h

theorem canon_execRed {d a o s} (h : Canon s) : CanonOut (execRed d a o s) := by
  refine canonOut_issue h (fun _ k => ?_)
  split <;> exact k

theorem canon_dotRes {c d a b part parts width} (h : Canon c.s) : Canon (dotRes c d a b part parts width).s := h

theorem canon_postResult {s k v} (h : Canon s) : Canon (postResult s k v) := canon_foldl (fun _ _ k => canon_ite k (canon_pushQueue k)) h

theorem canon_modCourse {s k n f} (h : Canon s) : Canon (modCourse s k n f) := h

theorem canon_joinCourse {s t a pa seq bs} (h : Canon s) : Canon (joinCourse s t a pa seq bs) :=
  canon_modCourse (canon_ite (canon_ite (canon_modCourse h) h) ((canon_ite (canon_modCourse h) h).same))

theorem canon_answer {s k rest v} (h : Canon s) : Canon (answer s k rest v) := canon_settleTeam (canon_postResult h)

theorem canon_refuseAppend {s k rest stat log} (h : Canon s) : Canon (refuseAppend s k rest stat log) := canon_answer h

theorem canon_acceptAppend {s t rest a l off bs} (h : Canon s) : Canon (acceptAppend s t rest a l off bs) :=
  canon_answer (canon_joinCourse ((kept_physPut ..).canon ((kept_physPut ..).canon h)))

theorem canon_readLines {env : Env} : ∀ {l : List (Nat × Nat)} {s : State}, Canon s → Canon (readLines s env l).1
  | [], _, h => h
  | (va, n) :: l, s, h => by
    unfold readLines
    split
    · exact ((kept_readAt ..).canon h).of_fst ‹_›
    · have h1 := canon_readLines (env := env) (l := l) (((kept_readAt ..).canon h).of_fst ‹_›)
      split
      · exact h1.of_fst ‹_›
      · exact h1

theorem canon_writePos {s t va off} (h : Canon s) : Canon (writePos s t va off).1 := (kept_writeAt ..).canon h

theorem canon_appendBlock {s t rest va} (h : Canon s) : Canon (appendBlock s t rest va) := by
  unfold appendBlock
  dsimp only
  refine canon_ite (canon_refuseAppend h) ?_
  split
  · exact canon_ite h (canon_refuseAppend (canon_engineFault (((kept_readAt ..).canon h).of_fst ‹_›)))
  · have h1 := ((kept_readAt ..).canon h).of_fst ‹_›
    refine canon_ite (canon_refuseAppend h1) ?_
    split
    · exact canon_refuseAppend h1
    · refine canon_ite (canon_refuseAppend h1) ?_
      split
      · exact canon_ite h (canon_refuseAppend (canon_engineFault ((canon_readLines h1).of_fst ‹_›)))
      · have h2 := (canon_readLines h1).of_fst ‹_›
        split
        · exact (canon_writePos h2).of_fst ‹_›
        · exact canon_refuseAppend (canon_engineFault ((canon_writePos h2).of_fst ‹_›))
        · exact canon_acceptAppend ((canon_writePos h2).of_fst ‹_›)

theorem canon_execMasonAppend {k s} (h : Canon s) : CanonOut (execMasonAppend k s) := by
  unfold execMasonAppend
  split
  · exact h
  · exact canonOut_ite (canon_appendBlock h) h

theorem canon_execMasonSeal {k n s} (h : Canon s) : CanonOut (execMasonSeal k n s) := by
  unfold execMasonSeal
  dsimp only
  split
  · exact h
  · exact canonOut_ite (canon_postResult (canon_landCourse h)) h

theorem canon_wakeQuarry {s p} (h : Canon s) : Canon (wakeQuarry s p) := canon_foldl (fun _ _ k => canon_releaseWaits k) h

theorem canonOut_exec {i s} (h : Canon s) : CanonOut (exec i s) := by
  cases i
  case nop => exact canonOut_issue h fun _ k => canon_noRes k
  case regionEntry | regionCloseReopen => exact canonOut_issue h fun _ k => canon_closeRes k (fun _ k1 => canon_openRegion k1)
  case regionExit => exact canonOut_issue h fun _ k => canon_closeRes k fun _ k => k
  case ifence => exact canonOut_issue h fun _ k => canon_modCore k
  case brk | trap => exact canonOut_issue h fun _ k => canon_trapRes k
  case exit => exact canon_execExit h
  case yield => exact canonOut_issue h fun _ k => canon_ite_res (canon_noRes k) (canon_ite_res k (canon_modGroup k))
  case reconv | reconvS => exact canonOut_issue h fun _ k => canon_reconvRes k
  case reform =>
    exact canonOut_issue h fun _ k => canon_ite_res (canon_endIfEmpty (canon_modGroup (canon_modCore k)))
      (canon_endIfEmpty (canon_modGroup (canon_modCore k)))
  case halt | winb | setg | squeeze => exact canonOut_issue h fun _ k => canon_modGroup k
  case bra | chkp | mpop | mfirst | mtov | shape | add | sub | add64 | sub64 | neg | addi | mulLo | madLo | mulWideI | mulWideN | shl | shl64 |
      shr64 | sar64 | shli | sel | mov | lane | bcast | scanAddI | scanAddF32 | fcmp | dcmp | town | nonInstructionWord =>
    exact canonOut_issue h fun _ k => k
  case call => exact canonOut_issue h fun _ k => canon_linkLanes k
  case jmp => exact canonOut_issue h fun _ k => canon_jumpRes (fun _ => k)
  case calli => exact canonOut_issue h fun _ k => canon_jumpRes (fun _ => canon_linkLanes k)
  case ret => exact canonOut_issue h fun _ k => canon_jumpRes (fun _ => canon_ite k (canon_modGroup k))
  case tret => exact canon_execTret h
  case rdsr => exact canon_execRdsr h
  case wrsr => exact canon_execWrsr h
  case mand | mor | mxor | mandn | mnot | mmov | vtom | mall => exact canonOut_issue h fun _ k => canon_maskRes k
  case launch => exact canon_execLaunch h
  case bqh => exact canonOut_issue h fun _ k => canon_ite_res k (canon_modTeam (canon_modGroup k))
  case bqr => exact canon_execBqr h
  case abs | not | andi | ori | xori | shri | sari | rotli | popc | clz | brev | fclass => exact canonOut_issue h fun _ k => canon_Ctx_map1 k
  case mulHiI | mulHiN | minI | maxI | minN | maxN | and | or | xor | andn | shr | sar | rotl | bfeI | bfeN =>
    exact canonOut_issue h fun _ k => canon_Ctx_map2 k
  case bfi => exact canonOut_issue h fun _ k => canon_Ctx_map3 k
  case cmp | cmp64 => exact canonOut_issue h fun _ k => canon_compareRes k
  case movl => exact canonOut_issue h fun _ k => canon_ite_res k k
  case movh => exact canonOut_issue h fun _ k => canon_ite_res (canon_Ctx_map1 k) k
  case shfl => exact canonOut_issue h fun _ k => canon_ite_res k (canon_shuffleRes k)
  case shflUp | shflDn | shflX => exact canonOut_issue h fun _ k => canon_shuffleRes k
  case red => exact canon_execRed h
  case dp4I8 | dp4N8 | dp2I16 => exact canonOut_issue h fun _ k => canon_dotRes k
  case fadd | fsub | fmul => exact canonOut_issue h fun _ k => canon_float2 k
  case fmin | fmax | fneg | fabs | fcopysign | mxunpack | qunpack4 => exact canonOut_issue h fun _ k => canon_floatRes k
  case ffma | ffms => exact canonOut_issue h fun _ k => canon_float3 k
  case frcp | frsq | fsqrt | fexp2 | flog2 | fsin | fcos | ftanh | ffrac | fround => exact canonOut_issue h fun _ k => canon_special k
  case dadd | dsub | dmul => exact canonOut_issue h fun _ k => canon_double2 k
  case dfma | dmin | dmax => exact canonOut_issue h fun _ k => canon_doubleRes k
  case hadd2F16 | hmul2F16 | hadd2Bf16 | hmul2Bf16 => exact canonOut_issue h fun _ k => canon_halfRes k
  case hfma2F16 | hfma2Bf16 => exact canonOut_issue h fun _ k => canon_halfFma k
  case cvt => exact canonOut_issue h fun _ k => canon_ite_res (canon_stepGens k) (canon_ite_res (canon_doubleRes k) (canon_floatRes k))
  case mxpack | qpack4 => exact canonOut_issue h fun _ k => canon_ite (canon_stepGens k) k
  case ldB8n | ldB8i | ldB16n | ldB16i | ldB32 | ldB64 | ldB128 => exact canonOut_issue h fun _ k => canon_loadRes k
  case ldAcqB32 | ldAcqB64 => exact canonOut_issue h fun _ k => canon_loadAcq k
  case ldpB32 | ldpB64 => exact canonOut_issue h fun _ k => canon_probeRes k
  case stB8 | stB16 | stB32 | stB64 | stB128 | stRelB32 | stRelB64 => exact canonOut_issue h fun _ k => canon_storeRes k
  case prefetch => exact canon_execPrefetch h
  case cinvLine | cflushLine | cinvPage => exact canonOut_issue h fun _ k => canon_cacheRes k
  case atomAdd32 | atomAdd64 | atomMinI32 | atomMaxI32 | atomMinN32 | atomMaxN32 | atomAnd | atomOr | atomXor | atomXchg32 | atomXchg64 | atomCas32 |
      atomCas64 | atomFaddF32 =>
    exact canonOut_issue h fun _ k => canon_atomicRes k
  case fence => exact canonOut_issue h fun _ k => canon_ite_res k (canon_foldl (fun _ _ k1 => canon_fenceAgent k1) k)
  case mwait => exact canon_execMwait h
  case barTeam | barRole => exact canonOut_issue h fun _ k => canon_barrierRes k
  case musArm => exact canonOut_issue h fun _ k => canon_musterRes k (fun _ _ => canon_writeMuster k)
  case musJoin | musOwe => exact canonOut_issue h fun _ k => canon_musterRes k (fun _ _ => canon_updateMuster k)
  case musHold => exact canonOut_issue h fun _ k => canon_musterRes k (fun _ _ => canon_ite_res k (canon_acquireAct k))
  case tdef => exact canonOut_issue h fun _ k => canon_ite_res (canon_onceTrap k) (canon_ite_res k (canon_modTile k))
  case twait => exact canonOut_issue h fun _ k => canon_ite_res (canon_onceTrap k) (canon_ite_res (canon_modGroup k) (canon_acquireAct k))
  case tgive => exact canonOut_issue h fun _ k => canon_ite_res (canon_modTile k) (canon_onceTrap k)
  case cpy | cpyg => exact canonOut_issue_of_eq h fun _ _ k e => e ▸ canon_copyIssue k
  case cpyc => exact canonOut_issue h fun _ k => canon_ite_res (canon_onceTrap k) (canon_ite_res (canon_placeCmd k) ((canon_placeCmd k).same))
  case rdwp => exact canonOut_issue h fun _ k => canon_acquireAct k
  case rdcsum => exact canon_execRdcsum h
  case selk => exact canon_execSelk h
  case qput => exact canon_execQput h
  case qget => exact canon_execQget h
  case qtry => exact canon_execQtry h
  case qlen => exact canonOut_issue h fun _ k => canon_queueRes k (fun _ => k)
  case fput => exact canon_execFput h
  case fsig => exact canon_execFsig h
  case mzero => exact canonOut_issue h fun _ k => canon_enqueue k k
  case mlda => exact canon_execMlda h
  case mbq => exact canonOut_issue h fun _ k => canon_ite_res (canon_modKey k) (canon_modKey k)
  case mma | mdrain | mscale => exact canonOut_issue h fun _ k => canon_ite_res (canon_onceTrap k) (canon_enqueue k k)
  case mdone => exact canonOut_issue h fun _ k => canon_ite_res k (canon_acquireAct (canon_modKey k))
  case trapDelivery => exact canon_deliver h
  case spillToBudget | longLatencyComplete => exact canon_modGroup h
  case parkAreaReturn => exact canon_execParkAreaReturn h
  case reconvRelease => exact canon_execReconvRelease h
  case reformDraw => exact canon_execReformDraw h
  case binAgeExpiry => exact canon_execBinAgeExpiry h
  case mwaitSatisfy => exact canon_execMwaitSatisfy h
  case copyExecute => exact canon_execCopyExecute h
  case copyBytesLand => exact canon_landBy h
  case copyComplete => exact canon_execCopyComplete h
  case cpycRecordFetch => exact canon_execCpycRecordFetch h
  case selkExecute => exact canon_execSelkExecute h
  case handBack => exact canon_handBack h
  case statusEntryPost => exact canon_execStatusEntryPost h
  case mzeroExecute => exact canon_execMzeroExecute h
  case mldaExecute => exact canon_execMldaExecute h
  case mmaExecute => exact canon_execMmaExecute h
  case mdrainExecute => exact canon_execMdrainExecute h
  case mscaleExecute => exact canon_execMscaleExecute h
  case masonAppend => exact canon_execMasonAppend h
  case masonSeal => exact canon_execMasonSeal h
  case quarryWakeTokenPost => exact canon_wakeQuarry h
  case storageProcessorRestart => exact canon_wakeQuarry ((kept_logError ..).canon h)
  case fabricPacketSend => exact canon_execFabricPacketSend h
  case fabricPacketReceive => exact canon_execFabricPacketReceive h
  case pennantApply => exact canon_execPennantApply h
  case fabricAckReceive => exact canon_execFabricAckReceive h
  case fabricNackReceive => exact canon_execFabricNackReceive h
  case fabricRtoExpiry => exact canon_execFabricRtoExpiry h
  case portLinkDown => exact canonOut_ite h (canon_foldl (fun _ _ k => canon_ite k (canon_resendOn k)) ((kept_logError ..).canon h))
  case pathProbeTimer => exact canon_execPathProbeTimer h
  case statusNoticeReceive => exact canonOut_ite h ((kept_physPut ..).canon h)
  case statusNoticeResend => exact (canon_foldl (fun _ _ k => canon_noticeAcked k) h).same
  case selfstWrite => exact canon_putSelfst h
  case create => exact canon_runCmd h (fun _ k => canon_createContext k)
  case destroy => exact canon_runCmd h (fun _ k => canon_destroyContext k)
  case kill => exact canon_runCmd h (fun _ k => canon_killCmd k)
  case killctx => exact canon_runCmd h (fun _ k => canon_killContext k)
  case importImage => exact canon_runCmd h (fun _ k => canon_importSlot k)
  case exportImage => exact canon_runCmd h (fun _ k => canon_exportSlot k)
  case free => exact canon_runCmd h (fun _ k => canon_freeImage k)
  case launchDoorbell => exact canon_doorbell h
  case eventDoorbell => exact canon_retest h
  case launchRecordTake => exact canon_takeRecord h
  case teamPlace => exact canon_teamPlaceStep h
  case preemptDeadlineExpiry => exact canon_execPreemptDeadlineExpiry h
  case scanImageComplete => exact canon_execScanImageComplete h
  case teamSave => exact canon_execTeamSave h
  case imageRestore => exact canon_execImageRestore h
  case completionRecordWrite => exact canon_writeCompletion h
  case eventCoalesceTimer => exact canon_ite (canon_raiseEvent h) h
  case irqvWrite => exact canon_putIrqv h
  case sbankctlWrite => exact canon_bankWrite h
  case sbankDrainComplete => exact canon_execSbankDrainComplete h
  case inval => exact canon_mcmd h (fun _ k => canon_runInval k)
  case replay => exact canon_mcmd h (fun _ k => canon_runReplay k)
  case swap => exact canon_mcmd h (fun _ k => canon_runSwap k)
  case swapLineExchange => exact canon_execSwapLineExchange h
  case swapfree => exact canon_mcmd h (fun _ k => canon_runSwapfree k)
  case mapout => exact canon_mcmd h (fun _ k => canon_runMapout k)
  case mapend => exact canon_mcmd h (fun _ k => canon_runMapend k)
  case extrel => exact canon_mcmd h (fun _ k => canon_runExtrel k)
  case qtrim => exact canon_mcmd h (fun _ k => canon_runQtrim k)
  case zeroEngineDone => exact canon_execZeroEngineDone h
  case faultRecordWrite => exact canon_execFaultRecordWrite h
  case notificationPost => exact canon_execNotificationPost h
  case extentAdd | extentReleaseRequest => exact canonOut_ite h (canon_extentNotice h)
  case extentSurpriseRemoval => exact canon_execExtentSurpriseRemoval h
  case peerMemoryRequest => exact canon_execPeerMemoryRequest h
  case atsTranslationRequest => exact canon_execAtsTranslationRequest h
  case linkTraining | portLinkUp => exact canonOut_ite h h
  case haltOp => exact canon_dbgOp h (fun _ => canon_runHalt h)
  case resume => exact canon_dbgOp h (fun _ => canon_runResume h)
  case freeze => exact canon_dbgOp h (fun _ => canon_runFreeze h)
  case thaw => exact canon_dbgOp h (fun _ => canon_runThaw h)
  case halyardDoorbell => exact canon_execHalyardDoorbell h
  case sampleTimer => exact canon_execSampleTimer h
  case watchdogHangDeclare => exact canon_execWatchdogHangDeclare h
  case packageReset => exact canon_packageReset h
  case powerLoss => exact canon_powerLoss h
  case svnWrite => exact canon_svnWrite h
  case measurementExtend => exact canon_measurementExtend h
  case attestationReport => exact canon_attestationReport h
  case getCertificate | getMeasurements | pldmDiscovery => exact canon_smiotSays h
  case challenge => exact canon_execChallenge h
  case pldmSensorRead => exact canon_ite (canon_smiotSays h) h
  case pldmFirmwareUpdate => exact canon_ite h h
  case offline => exact canon_offline h
  case test => exact canon_startTest h
  case online => exact canon_online h
  case retire => exact canon_retireCluster h
  case clusterDrainComplete => exact canon_ite (canon_modCluster (fun _ k => k) h) h
  case clusterTestComplete =>
    exact canonOut_ite h (canon_modCluster (fun _ k => k) (canon_zeroArrays (canon_foldl (fun _ _ k => canon_logTestFail k) h)))
  case save => exact canon_ckSave h
  case checkpointSaveComplete => exact canon_ckComplete h
  case load => exact canon_ckLoad h
  case abort => exact canon_ckAbort h
  case clockThrottleStep => exact canonOut_ite h (canon_ite (canon_logThermal h) h)
  case thermalTrip => exact canonOut_ite h (canon_held (canon_resetState (canon_logThermal h)))
  case registerWrite => exact canon_regWrite h
  case quadrantCycle => exact (canon_cycleFs (canon_endOfCycle (canon_foldl (fun _ _ k => canon_groupCycle k) h))).same
  case hostCoreAccess => exact canon_execHostCoreAccess h
  case atsInvalidationCompletion => exact canon_settleInval h
  case orderlyShutdown => exact h
  case uncorrectedError => exact canon_execUncorrectedError h

theorem canonOut_runDev {e s} (h : Canon s) : CanonOut (runDev e s) := by
  obtain ⟨i, -, hi⟩ := runDev_exec e
  rw [hi]
  exact canonOut_exec h

theorem canon_issueTurn {s w l} (h : Canon s) : Canon (issueTurn s w l).1 := by
  unfold issueTurn
  split <;> exact (canon_turnIssue h).of_fst ‹_›

theorem canon_heldIssue {i s t} (h : Canon s) (e : heldIssue i s = some (.next t)) : Canon t := by
  have key : ∀ d b o n, some (issue i s fun c => storeRes c d b o n false true) = some (.next t) → Canon t := fun d b o n e => by
    have hi := canonOut_issue (i := i) h fun _ k => canon_storeRes (d := d) (b := b) (o := o) (n := n) (rel := false) (hold := true) k
    rw [Option.some.inj e] at hi; exact hi
  unfold heldIssue at e
  dsimp only at e
  split at e
  iterate 5 exact key _ _ _ _ e
  cases e

theorem canon_holdTurn {s w l} (h : Canon s) : Canon (holdTurn s w l) := by
  unfold holdTurn
  dsimp only
  split
  · exact h
  · split
    · split
      · exact canon_modCore (canon_heldIssue ((canon_turnIssue (show Canon (clearStores s _) from h)).of_fst ‹_›) ‹_›)
      · exact h
    · exact h

theorem canon_takeTurn {s x1} (h : Canon s) : Canon (takeTurn s x1).1 := by
  unfold takeTurn
  split
  · exact canon_issueTurn h
  · exact canon_holdTurn h
  · exact canon_leaveStore h
  · split
    · exact h
    · split <;> exact h
  · exact canon_ite h h
  · exact (kept_physWriteBy ..).canon h
  · exact h
  · exact canon_correctedError h
  · exact canon_flashCounts h
  · exact h

theorem canon_takeMove {s x1} (h : Canon s) : Canon (takeMove s x1).1 := by
  unfold takeMove
  split
  · exact canon_issueTurn h
  · exact canon_holdTurn h
  · exact canon_leaveStore h
  · exact h
  · exact canon_moveFlit h

theorem canon_nextTurn {s} (h : Canon s) : Canon (nextTurn s).1 := by
  unfold nextTurn
  dsimp only
  split
  · exact canon_takeTurn h
  · exact canon_takeMove ((kept_chooseFrom ..).canon h)

theorem canonOut_step {s} (h : Canon s) : CanonOut (step s) := by
  unfold step
  split
  · exact canonOut_exec ((canon_nextTurn h).of_fst ‹_›)
  · exact canonOut_runDev ((canon_nextTurn h).of_fst ‹_›)
  · exact (canon_nextTurn h).of_fst ‹_›

/-- Settles O60: a turn keeps the form, and so does every instruction and event that it comes to. -/
theorem stepKeepsMemoryCanonical : Obligations.StepKeepsMemoryCanonical := by
  intro s t hs ht
  have h : CanonOut (step s) := canonOut_step (memOk_iff_canon.mp hs)
  rw [ht] at h
  exact memOk_iff_canon.mpr h

end Sys2Proof.Machine
end

