-- ==== Sys2Proof/Proofs/Words.lean ====
section
/-!
Words of the spec's encodings (R124, R132 to R139): a major opcode that the spec reserves is no branch of the decoder; each other clause is a closed word.
-/

namespace Sys2Proof

theorem majorOf_eq (w : BitVec 32) : majorOf w = w.toNat / 2 ^ 25 := by
  have := w.isLt
  simp only [majorOf, fld]
  omega

theorem decode_of_reservedMajor {w : BitVec 32} (h : Machine.reservedMajor (majorOf w) = true) : decode w = .notInstruction := by
  unfold decode
  split
  any_goals rfl
  all_goals
    rename_i hm
    rw [hm] at h
    exact absurd h (by decide)

/-- Settles O57. -/
theorem wordsOfTheSpecDecode : Obligations.WordsOfTheSpecDecode := by
  refine ⟨rfl, rfl, rfl, rfl, rfl, rfl, rfl, rfl, fun w h => ?_, fun n h9 h15 => ?_, rfl⟩
  · exact decode_of_reservedMajor (majorOf_eq w ▸ h)
  · interval_cases n <;> rfl

end Sys2Proof
end

