-- ==== Sys2Proof/Proofs/TrapWords.lean ====
section
/-!
Brk, trap and a word that is no instruction (R139, R161): their effect stops every active lane and does nothing else, so what is left of the path goes on.
-/

namespace Sys2Proof.Machine

/-- Two sets that agree on every lane are one. -/
theorem lanes_ext {a b : W32} (h : ∀ l, l < 32 → hasLane a l = hasLane b l) : a = b :=
  BitVec.eq_of_getLsbD_eq fun l hl => h l hl

/-- An effect whose causes fall on the lanes of a set, one each, stops the lanes of that set. -/
theorem stoppedOf_lanes {r : Res} {m : W32} {f : Nat → Hit} (h : r.hits = (lanesOf m).map f) (hf : ∀ l, (f l).lane = l) : stoppedOf r = m := by
  refine lanes_ext fun l hl => ?_
  unfold stoppedOf
  rw [hasLane_laneSet _ l hl, h, List.any_map, Bool.eq_iff_iff, List.any_eq_true]
  constructor
  · rintro ⟨k, hk, e⟩
    rw [Function.comp, hf, beq_iff_eq] at e
    exact e ▸ (mem_lanesOf m k).mp hk
  · exact fun hm => ⟨l, (mem_lanesOf m l).mpr hm, by rw [Function.comp, hf, beq_self_eq_true]⟩

/-- Each of the three words issues with the effect of `trapRes`. -/
theorem exec_trapWord {k code : BitVec 14} {w : BitVec 32} {i : Instr} {cause : Nat}
    (h : (i, cause, code) ∈ [(.brk k, 0x41, k), (.trap k, 0x40, k), (.nonInstructionWord w, 0x01, (0 : BitVec 14))]) (s : State) :
    exec i s = issue i s fun c => trapRes c cause code := by
  simp only [List.mem_cons, Prod.mk.injEq, List.not_mem_nil, or_false] at h
  rcases h with ⟨rfl, rfl, rfl⟩ | ⟨rfl, rfl, rfl⟩ | ⟨rfl, rfl, rfl⟩ <;> rfl

theorem wroteRegs_nil {c d : Ctx} {g : Group} (hg : c.g = d.g) (h : WroteRegs c g []) : WroteRegs d g [] :=
  ⟨fun _ hx => absurd hx List.not_mem_nil, fun _ hx => absurd hx List.not_mem_nil, by rw [← hg]; exact h.others⟩

/-- Settles O15. -/
theorem trapWordsTakeTheException : Obligations.TrapWordsTakeTheException := by
  intro s c k w i cause code hr hi
  generalize hres : trapRes (fillOps c i) cause code = r
  have hs : r.s = modGroup (fillOps c i).s c.g.who fun g => g := by subst hres; exact (modGroup_id _ _).symm
  have hhits : r.hits = c.lanes.map fun l => { lane := l, cause := cause, code := code } := by
    subst hres; unfold trapRes Ctx.lanes; rw [fillOps_act]
  have hstop : stoppedOf r = c.act := stoppedOf_lanes hhits fun _ => rfl
  have hgone : r.gone = 0 := by subst hres; rfl
  have hafter : after c (fun g => g) r = { c with act := c.act &&& ~~~c.act &&& r.only, path := c.path &&& ~~~c.act } := by
    unfold after; rw [hstop, hgone, but_none]
  have hflags : ∀ p : Bool, (if p then c.g.fpflags else c.g.fpflags ||| r.flags) = c.g.fpflags := by
    subst hres; intro p; cases p
    · exact BitVec.or_zero
    · rfl
  obtain ⟨g', he, hwent, -, hregs⟩ := completes_hits hr (fun c => trapRes c cause code) r s (fun g => g) 0 keeps_id [] (exec_trapWord hi s) hres
    (touches_mod hr (fun g => g) (fun _ => rfl) r (by subst hres; rfl) hs) (by subst hres; exact .nil) .nil (by decide)
  have hnone : c.act &&& ~~~c.act = 0 := BitVec.and_not_self _
  rw [hstop, hnone, hhits] at he
  rw [hafter, hflags] at hwent
  exact ⟨g', he, by subst hres; exact hwent, wroteRegs_nil (by rw [hafter]) hregs⟩

end Sys2Proof.Machine
end

