-- ==== Sys2Proof/Proofs/WordChecks.lean ====
section
/-!
What the checks of an instruction come to before its effect (R10, R140, R149): a cause of the whole word takes every lane that issues, and an instruction
without an active lane that is no path instruction is passed over.
-/

namespace Sys2Proof.Machine

/-- Every word issues: its meaning is the issue of an effect. -/
theorem exec_issue {i : Instr} {w : BitVec 32} (h : encode i = some w) (s : State) : ∃ body, exec i s = issue i s body := by
  cases i
  any_goals exact ⟨_, rfl⟩
  all_goals cases h -- an event has no word

/-- A path's active lanes are among its lanes. -/
theorem issuer_act {s : State} {c : Ctx} (h : issuer s = some c) : c.act = c.path &&& c.g.mask 0 := by
  unfold issuer at h
  split at h
  · cases h
  · obtain ⟨g, -, rfl⟩ := Option.map_eq_some_iff.mp h
    rfl

theorem lanesOf_eq_nil {m : W32} : lanesOf m = [] ↔ m = 0 := by
  rw [← lanes_zero, List.eq_nil_iff_forall_not_mem]
  constructor
  · exact fun h l _ => Bool.eq_false_iff.mpr fun hl => h l ((mem_lanesOf m l).mpr hl)
  · exact fun h l hl => absurd (h l (hasLane_lt m l ((mem_lanesOf m l).mp hl))) (by rw [(mem_lanesOf m l).mp hl]; decide)

theorem minNat_le {d x : Nat} {l : List Nat} (h : x ∈ l) : minNat d l ≤ x := by
  have key : ∀ (l : List Nat) (a : Nat), l.foldl Nat.min a ≤ a ∧ ∀ x ∈ l, l.foldl Nat.min a ≤ x := by
    intro l
    induction l with
    | nil => exact fun a => ⟨Nat.le_refl a, fun _ h => absurd h List.not_mem_nil⟩
    | cons y l ih =>
      intro a
      obtain ⟨ha, hl⟩ := ih (Nat.min a y)
      refine ⟨Nat.le_trans ha (Nat.min_le_left a y), fun x hx => ?_⟩
      rcases List.mem_cons.mp hx with rfl | hx
      · exact Nat.le_trans ha (Nat.min_le_right a x)
      · exact hl x hx
  cases l with
  | nil => exact absurd h List.not_mem_nil
  | cons y l =>
    rcases List.mem_cons.mp h with rfl | h
    · exact (key l x).1
    · exact (key l y).2 x h

/-- The lanes that the checks of an instruction look at (R149). -/
def checkedLanes (c : Ctx) (i : Instr) : W32 := if i.isPath then c.path else c.act

/-- What one lane meets among the checks of an instruction. -/
def laneCauses (c : Ctx) (i : Instr) (l : Nat) : List Nat :=
  wordCauses c i ++ (if hasLane c.act l && lookaheadCause c i then [0x04] else []) ++ (if hasLane c.act l && depthCause c i l then [0x01] else [])

theorem checkHits_eq (c : Ctx) (i : Instr) : checkHits c i = (lanesOf (checkedLanes c i)).filterMap fun l =>
    if (laneCauses c i l).isEmpty then none else some { lane := l, cause := minNat 0 (laneCauses c i l) } := rfl

/-- Without a checked lane no check fails. -/
theorem checkHits_of_none {c : Ctx} {i : Instr} (h : checkedLanes c i = 0) : checkHits c i = [] := by
  rw [checkHits_eq, lanesOf_eq_nil.mpr h]; rfl

/-- A cause of the whole word is met by every checked lane. -/
theorem checkHits_ne_nil {c : Ctx} {i : Instr} (hl : checkedLanes c i ≠ 0) (hw : wordCauses c i ≠ []) : checkHits c i ≠ [] := by
  obtain ⟨l, hmem⟩ := List.exists_mem_of_ne_nil _ (mt lanesOf_eq_nil.mp hl)
  have hne : (laneCauses c i l).isEmpty = false := by
    unfold laneCauses
    cases hc : wordCauses c i with
    | nil => exact absurd hc hw
    | cons x xs => rfl
  rw [checkHits_eq]
  exact List.ne_nil_of_mem (List.mem_filterMap.mpr ⟨l, hmem, by rw [hne]; rfl⟩)

/-- The cause that a lane takes is the least that it met. -/
theorem checkHits_least {c : Ctx} {i : Instr} {h : Hit} {x : Nat} (hh : h ∈ checkHits c i) (hx : x ∈ wordCauses c i) : h.cause ≤ x := by
  rw [checkHits_eq] at hh
  obtain ⟨l, -, hl⟩ := List.mem_filterMap.mp hh
  split at hl
  · cases hl
  · cases hl
    exact minNat_le (List.mem_append_left _ (List.mem_append_left _ hx))

/-- A cause of the whole word is taken where the word would issue: the effect is not reached. -/
theorem issue_wordCause {s : State} {i : Instr} {c : Ctx} (hc : issuer s = some c) (body : Ctx → Res) (ha : c.act ≠ 0 ∨ i.isPath = true)
    (hw : wordCauses c i ≠ []) (hh : checkHits c i ≠ []) :
    issue i s body = .next (raise (noteScript c (uncur s)) c.g.who 0 (checkHits c i)) := by
  obtain ⟨-, hcs, -⟩ := issuer_find s c hc
  have hne : ¬(decide (c.act = 0) && !i.isPath) = true := by
    rcases ha with h1 | h1
    · rw [decide_eq_false h1]; simp
    · rw [h1]; simp
  unfold issue
  rw [hc]
  simp only [issueOn]
  rw [if_neg hne]
  split
  · exact absurd ‹_› hh
  · rename_i h hs e
    rw [if_pos (by simp [hw]), hcs, e]

/-- Retiring an instruction without results keeps the name, the sub-groups and the place of its group, and adds slots for its pairs alone. -/
theorem retire_nothing (s : State) (c : Ctx) (i : Instr) :
    let G := retire s c i { s := s } c.g c.act 0
    G.who = c.g.who ∧ G.key = c.g.key ∧ G.subs = c.g.subs ∧ G.away = c.g.away ∧
      groupSlots G ≤ groupSlots c.g + 64 * (namedRegs c.g i).length + 256 := by
  intro G
  have hE : G = _ := retire_eq s c i { s := s } c.g c.act 0
  have hslots : groupSlots G = groupSlots (writeBack s c i [] (c.act &&& BitVec.allOnes 32) c.g) := by rw [hE]; rfl
  have hwb := writeBack_slots s c i [] (c.act &&& BitVec.allOnes 32) c.g
  refine ⟨by rw [hE]; rfl, by rw [hE], by rw [hE], by rw [hE], ?_⟩
  simp only [List.length_nil] at hwb
  omega

/-- A vector group that retires an instruction fits into the file that had room for it, so no other group makes room. -/
theorem fileUse_retired {s : State} {c : Ctx} {i : Instr} {G : Group} (hk : c.g.key = none) (hroom : fileRoom s c.g i = true)
    (hwho : G.who = c.g.who) (hkey : G.key = c.g.key) (haway : G.away = c.g.away)
    (hslots : groupSlots G ≤ groupSlots c.g + 64 * (namedRegs c.g i).length + 256) :
    G.away = false ∧ fileUse (setGroup s G) (groupTile s c.g) ≤ Config.fileSlots := by
  simp only [fileRoom, hk, Option.isSome_none, Bool.false_or, Bool.and_eq_true, Bool.not_eq_true', decide_eq_true_eq] at hroom
  obtain ⟨hna, huse⟩ := hroom
  refine ⟨haway.trans hna, Nat.le_trans (fileUse_set s G _ _ (hkey.trans hk) (haway.trans hna) hslots) ?_⟩
  rw [hwho]; exact huse

/-- An instruction that changes nothing but that its path goes on. -/
theorem finish_nothing {s : State} {i : Instr} {c : Ctx} (hc : issuer s = some c) (hd : dueSub c.g = none) (hroom : fileRoom s c.g i = true) :
    finish c i { s := c.s } = noteScript c (onlyGroup s (retire s c i { s := s } c.g c.act 0)) := by
  obtain ⟨hf, hcs, -⟩ := issuer_find s c hc
  obtain ⟨hwho, hkey, hsubs, haway, hslots⟩ := retire_nothing s c i
  have hstop : (laneSet fun l => ([] : List Hit).any fun h => h.lane == l) = 0 := stopped_none (r := { s := s }) rfl
  unfold finish
  simp only [hcs, hf, hstop, but_none]
  generalize retire s c i { s := s } c.g c.act 0 = G at *
  have hfound : findGroup (setGroup (uncur s) G) c.g.who = some G := by
    rw [← hwho]; exact findGroup_setGroup _ _ c.g (by rw [hwho]; exact hf)
  have hdue : dueSub G = none := by rw [dueSub_eq (by rw [hkey]) hsubs]; exact hd
  obtain ⟨x, hx⟩ := noteScript_find c _ _ _ hfound
  have hraise : raise (noteScript c (setGroup (uncur s) G)) c.g.who c.act [] = noteScript c (onlyGroup s G) := raise_nil _ _ _ _ hx hdue
  cases hk : c.g.key with
  | some k => simp [hraise]
  | none =>
    obtain ⟨hna, huse⟩ := fileUse_retired hk hroom hwho hkey haway hslots
    have htile : groupTile (setGroup (uncur s) G) c.g = groupTile s c.g := rfl
    have hpark := parkUse_set s G (groupTile s c.g) (hkey.trans hk) hna
    have hfits : fileUse (setGroup (uncur s) G) (groupTile s c.g) ≤ Config.fileSlots := huse
    have hok : roomOk s (groupTile s c.g) = true → roomOk (setGroup (uncur s) G) (groupTile s c.g) = true := by
      simp only [roomOk, Bool.and_eq_true, decide_eq_true_eq]
      exact fun h => ⟨huse, Nat.le_trans hpark h.2⟩
    simp only [Option.isSome_none, htile, makeRoom_fits _ _ _ hfits, Bool.false_eq_true, if_false]
    rw [if_neg, hraise]
    intro h
    simp only [Bool.and_eq_true, Bool.not_eq_true'] at h
    exact absurd (hok h.2) (by rw [h.1.2]; decide)

/-- A path that issues an instruction without doing it goes on to the next word. -/
theorem completes_nothing {s : State} {i : Instr} {c : Ctx} (hc : issuer s = some c) (hd : dueSub c.g = none) (hroom : fileRoom s c.g i = true)
    (hexec : exec i s = .next (finish c i { s := c.s })) : Completes s s i c c.g.masks 0 (fun _ => c.pc + 4) [] := by
  have hafter : after c (fun g => g) { s := s } = c := after_plain c (fun g => g) { s := s } rfl rfl rfl
  have hwin : windowed s i = opensWindow i c.act := by unfold windowed; rw [hc]; rfl
  have hnote : ∀ t, scripted s t = noteScript c t := fun t => by unfold scripted; rw [hc]
  obtain ⟨hwent, hpend, hregs⟩ := retire_went (s := s) (i := i) (c := c) { s := s } (fun g => g) c.g [] rfl (.refl _) (fun _ => rfl) .nil .nil
  rw [stopped_none rfl, but_none] at hwent hpend hregs
  rw [hafter] at hwent hregs
  refine ⟨retire s c i { s := s } c.g c.act 0, ?_, ?_, fun d hd => ?_, hregs⟩
  · rw [hexec, finish_nothing hc hd hroom, hnote]
  · unfold flagsAfter; rw [hwin]; exact hwent
  · rw [hc] at hd
    cases hd
    exact ⟨none, by rw [hpend, but_none]⟩

/-- Settles O47. -/
theorem checksTrapBeforeAnyEffect : Obligations.ChecksTrapBeforeAnyEffect := by
  intro s i c w hc hi
  obtain ⟨body, hexec⟩ := exec_issue hi s
  refine ⟨fun ha hw => ?_, fun hact hpath hd hroom => ?_, fun hk hm => ?_, fun hk hh hi => ?_⟩
  · have hl : checkedLanes c i ≠ 0 := by
      unfold checkedLanes
      rcases ha with h | ⟨hp, h⟩
      · split
        · exact fun h0 => h (by rw [issuer_act hc, h0]; exact BitVec.zero_and)
        · exact h
      · rw [if_pos hp]; exact h
    have hh := checkHits_ne_nil hl hw
    refine ⟨hh, ?_, fun h hm x hx => checkHits_least hm hx⟩
    rw [hexec]
    exact issue_wordCause hc body (ha.imp_right And.left) hw hh
  · have hgo : exec i s = .next (finish c i { s := c.s }) := by
      rw [hexec]
      unfold issue
      rw [hc]
      simp [issueOn, hact, hpath]
    exact completes_nothing hc hd hroom hgo
  · unfold wordCauses
    simp [hk, hm]
  · unfold wordCauses
    rcases hi with ⟨d, rfl⟩ | rfl <;> simp [hk, hh, Instr.isMatrix]

end Sys2Proof.Machine
end

