-- ==== Sys2Proof/Proofs/ReadsOfPlaces.lean ====
section
/-!
What a read returns (R92, R93, R95 to R97): byte by byte, what stands at the place or what stood there before a write the reader may miss; for the device,
for an atomic and on strongly ordered pages only the former.
-/

namespace Sys2Proof.Machine

/-! ## Addresses in order -/

theorem mem_span {x : Nat} : ∀ {a n : Nat}, x ∈ span a n ↔ a ≤ x ∧ x < a + n
  | a, 0 => by simp only [span, List.not_mem_nil, false_iff]; omega
  | a, n + 1 => by simp only [span, List.mem_cons, mem_span (n := n)]; omega

theorem map_span_eq {α : Type} {f : Nat → α} : ∀ {l : List α} {a : Nat}, (∀ k, (h : k < l.length) → f (a + k) = l[k]) → (span a l.length).map f = l
  | [], _, _ => rfl
  | b :: l, a, h => by
    simp only [List.length_cons, span, List.map_cons, List.cons.injEq]
    refine ⟨h 0 (by simp), map_span_eq fun k hk => ?_⟩
    rw [show a + 1 + k = a + (k + 1) by omega]
    exact h (k + 1) (by simpa using hk)

/-! ## One write of the past -/

/-- What a read finds for the byte at `a`, of which `cur` stands there: `cur`, or what a write of the past that covers `a` and that it may miss replaced. -/
def Sees (past : List Past) (may : Past → Nat → Bool) (a : Nat) (cur b : Byte) : Prop :=
  b = cur ∨ ∃ w ∈ past, w.covers a = true ∧ b = nth 0 w.old (a - w.pa) ∧ may w a = true

theorem nth_covered {w : Past} {a : Nat} (h : w.covers a = true) (d e : Byte) : nth d w.old (a - w.pa) = nth e w.old (a - w.pa) := by
  simp only [Past.covers, Bool.and_eq_true, decide_eq_true_eq] at h
  have hl : a - w.pa < w.old.length := by omega
  simp [nth_getElem?, hl]

theorem seeWrite_length (may : Past → Nat → Bool) (skip : Past → Bool) (pa : Nat) (f : Found) (p : Past) :
    (seeWrite may skip pa f p).bytes.length = f.bytes.length := by
  unfold seeWrite
  dsimp only
  split
  · rfl
  · simp [length_span]

/-- A byte after one write: as it was found, or, when the write covers it and may be missed there, what it replaced. -/
theorem seeWrite_byte {may : Past → Nat → Bool} {pa k : Nat} {f : Found} {p : Past} {x : Byte × Bool × Nat}
    (h : (seeWrite may (fun _ => false) pa f p).bytes[k]? = some x) :
    ∃ y, f.bytes[k]? = some y ∧ (x.1 = y.1 ∨ p.covers (pa + k) = true ∧ x.1 = nth 0 p.old (pa + k - p.pa) ∧ may p (pa + k) = true) := by
  unfold seeWrite at h
  dsimp only at h
  split at h
  · exact ⟨x, h, .inl rfl⟩
  · obtain ⟨a, y, ha, hy, rfl⟩ := List.getElem?_zipWith_eq_some.1 h
    have hk : k < f.bytes.length := (List.getElem?_eq_some_iff.1 hy).1
    rw [upto_get _ _ _ hk, Option.some.injEq] at ha
    subst ha
    refine ⟨y, hy, ?_⟩
    split
    · exact .inl rfl
    · rename_i hc
      have hcov : p.covers (pa + k) = true := by
        simp only [Bool.or_eq_true, Bool.not_eq_true', not_or, Bool.not_eq_false] at hc
        exact hc.2
      split
      · rename_i hm
        have hall := List.all_eq_true.1 (Bool.and_eq_true_iff.1 ((Bool.or_eq_true_iff.1 hm).resolve_left (by simp))).1 _
          (mem_span.2 ⟨Nat.le_add_right pa k, Nat.add_lt_add_left hk pa⟩)
        exact .inr ⟨hcov, nth_covered hcov _ _, by simpa [hcov] using hall⟩
      · exact .inl rfl

/-! ## The writes of the past, newest first -/

theorem lookBack_length (past : List Past) (may : Past → Nat → Bool) (skip : Past → Bool) (pa : Nat) (cur : List Byte) (free : Nat) :
    (lookBack past may skip pa cur free).bytes.length = cur.length := by
  have h : ∀ (l : List Past) (f : Found), (l.foldl (seeWrite may skip pa) f).bytes.length = f.bytes.length := fun l => by
    induction l with
    | nil => exact fun _ => rfl
    | cons p l ih => exact fun f => (ih _).trans (seeWrite_length may skip pa f p)
  exact (h past _).trans (List.length_map _)

theorem foldl_seeWrite_byte {may : Past → Nat → Bool} {pa k : Nat} {x : Byte × Bool × Nat} : ∀ {past : List Past} {f : Found},
    (past.foldl (seeWrite may (fun _ => false) pa) f).bytes[k]? = some x → ∃ y, f.bytes[k]? = some y ∧ Sees past may (pa + k) y.1 x.1
  | [], _, h => ⟨x, h, .inl rfl⟩
  | p :: past, f, h => by
    obtain ⟨z, hz, hs⟩ := foldl_seeWrite_byte (past := past) h
    obtain ⟨y, hy, hp⟩ := seeWrite_byte hz
    refine ⟨y, hy, ?_⟩
    rcases hs with hs | ⟨w, hw, hs⟩
    · rcases hp with hp | ⟨hc, ho, hm⟩
      · exact .inl (hs.trans hp)
      · exact .inr ⟨p, List.mem_cons_self, hc, hs.trans ho, hm⟩
    · exact .inr ⟨w, List.mem_cons_of_mem p hw, hs⟩

theorem lookBack_byte {past : List Past} {may : Past → Nat → Bool} {pa free k : Nat} {cur : List Byte} (hk : k < cur.length) :
    Sees past may (pa + k) (nth 0 cur k) (nth 0 ((lookBack past may (fun _ => false) pa cur free).bytes.map (·.1)) k) := by
  have hl := lookBack_length past may (fun _ => false) pa cur free
  obtain ⟨x, hx⟩ : ∃ x, (lookBack past may (fun _ => false) pa cur free).bytes[k]? = some x := ⟨_, List.getElem?_eq_getElem (hl ▸ hk)⟩
  obtain ⟨y, hy, hs⟩ := foldl_seeWrite_byte hx
  rw [List.getElem?_map, List.getElem?_eq_getElem hk, Option.map_some, Option.some.injEq] at hy
  subst hy
  simpa [nth_getElem?, hx, hk] using hs

/-! ## A read of an agent -/

/-- A state with other orders of its agents and another number of draws. -/
def reordered (s : State) (o : List (Agent × Order)) (f : Nat) : State := { s with orders := o, free := f }

/-- The agents' orders after a fold that sets orders. -/
theorem foldl_orders {α : Type} {g : State → α → State} (hg : ∀ s x, ∃ o, g s x = { s with orders := o }) : ∀ (l : List α) (s : State),
    ∃ o, l.foldl g s = { s with orders := o }
  | [], s => ⟨s.orders, rfl⟩
  | x :: l, s => by
    obtain ⟨o, h⟩ := hg s x
    obtain ⟨o', h'⟩ := foldl_orders hg l (g s x)
    exact ⟨o', h'.trans (by rw [h])⟩

/-- A piece of an aligned cut is not empty and does not reach beyond the rest. -/
theorem piece_size {size a n : Nat} (hs : 0 < size) (hn : n ≠ 0) : 0 < Nat.min n (size - a % size) ∧ Nat.min n (size - a % size) ≤ n :=
  ⟨Nat.lt_min.2 ⟨Nat.pos_of_ne_zero hn, Nat.sub_pos_of_lt (Nat.mod_lt _ hs)⟩, Nat.min_le_left _ _⟩

/-- A fold over an aligned cut whose step changes orders and draws only and appends what it finds for its piece. -/
theorem foldl_cutAtSize {size p : Nat} (hs : 0 < size) {cur : List Byte} {may : Past → Nat → Bool} {s₀ : State}
    {g : State × List Byte → Nat × Nat → State × List Byte}
    (hg : ∀ o f bs a n, ∃ o' f' free, g (reordered s₀ o f, bs) (a, n) = (reordered s₀ o' f',
      bs ++ (lookBack s₀.past may (fun _ => false) a ((cur.drop (a - p)).take n) free).bytes.map (·.1))) :
    ∀ (fuel a n : Nat) (o : _) (f : Nat) (bs : List Byte), n ≤ fuel → p ≤ a → a - p + n = cur.length →
      ∃ o' f' rest, (cutAtSize size fuel a n).foldl g (reordered s₀ o f, bs) = (reordered s₀ o' f', bs ++ rest) ∧
        rest.length = n ∧ ∀ k, k < n → Sees s₀.past may (a + k) (nth 0 cur (a - p + k)) (nth 0 rest k)
  | 0, a, n, o, f, bs, hn, _, _ => ⟨o, f, [], by simp [cutAtSize], by simp; omega, fun k hk => by omega⟩
  | fuel + 1, a, n, o, f, bs, hn, ha, hc => by
    unfold cutAtSize
    by_cases h0 : n = 0
    · subst h0
      exact ⟨o, f, [], by simp, rfl, fun k hk => by omega⟩
    rw [if_neg h0, List.foldl_cons]
    obtain ⟨hm, hmn⟩ := piece_size (a := a) hs h0
    generalize Nat.min n (size - a % size) = m at hm hmn ⊢
    obtain ⟨o1, f1, free, e1⟩ := hg o f bs a m
    obtain ⟨o2, f2, rest, e2, hl, hr⟩ := foldl_cutAtSize hs hg fuel (a + m) (n - m) o1 f1 _ (by omega) (by omega) (by omega)
    rw [e1, e2]
    have hcur : ((cur.drop (a - p)).take m).length = m := by simp; omega
    refine ⟨o2, f2, _, by rw [List.append_assoc], by simp [lookBack_length, hl]; omega, fun k hk => ?_⟩
    have hlen : ((lookBack s₀.past may (fun _ => false) a ((cur.drop (a - p)).take m) free).bytes.map (·.1)).length = m := by
      simp [lookBack_length]; omega
    by_cases hkm : k < m
    · have h := lookBack_byte (past := s₀.past) (may := may) (pa := a) (free := free) (hcur.symm ▸ hkm)
      rw [nth_getElem?, nth_getElem?] at h ⊢
      rw [List.getElem?_append_left (hlen.symm ▸ hkm)]
      rwa [List.getElem?_take_of_lt hkm, List.getElem?_drop] at h
    · have h := hr (k - m) (by omega)
      rw [nth_getElem? 0 (_ ++ _), List.getElem?_append_right (by omega), hlen, ← nth_getElem?]
      rwa [show a + m + (k - m) = a + k by omega, show a + m - p + (k - m) = a - p + k by omega] at h

/-- Whether a read of `me` may miss a write at a byte of a page of the kind. -/
def mayOf (env : Env) (me : Agent) (kind : Nat) (q : Past) (a : Nat) : Bool :=
  !env.now && kind != 1 && if kind = 2 then mayMissUn me env.order q a else mayMiss me env.order q a

/-- How one read of an agent takes in the piece of `n` bytes at `a`, of the bytes `cur` from `p`. -/
def readPiece (env : Env) (me : Agent) (kind scope p : Nat) (cur : List Byte) (x : State × List Byte) (y : Nat × Nat) : State × List Byte :=
  let f := lookBack x.1.past (mayOf env me kind) (laterOwn env me) y.1 ((cur.drop (y.1 - p)).take y.2) x.1.free
  let s1 := (me :: env.also).foldl (fun s z =>
    let o := orderOf s z
    let o1 := (o.afterLoad y.1 (kind != 2) f).acquireLoad env.mates z env.acq scope f.rels
    if o1 = o then s else setOrder s z o1) x.1
  ({ s1 with free := f.free }, x.2 ++ f.bytes.map (·.1))

theorem readOrdered_eq (s : State) (env : Env) (me : Agent) (kind scope p : Nat) (cur : List Byte) (ha : env.agent = some me) :
    readOrdered s env kind scope p cur = if !s.past.any (touches p cur.length) then (s, cur) else
      (cutAtSize env.size cur.length p cur.length).foldl (readPiece env me kind scope p cur) (s, []) := by
  unfold readOrdered
  rw [ha]
  rfl

theorem readPiece_reordered (env : Env) (me : Agent) (kind scope p : Nat) (cur : List Byte) (hi : env.issued = none) (s : State)
    (o : List (Agent × Order)) (f : Nat) (bs : List Byte) (a n : Nat) :
    ∃ o' f' free, readPiece env me kind scope p cur (reordered s o f, bs) (a, n) = (reordered s o' f',
      bs ++ (lookBack s.past (mayOf env me kind) (fun _ => false) a ((cur.drop (a - p)).take n) free).bytes.map (·.1)) := by
  have hown : laterOwn env me = fun _ => false := by funext q; simp [laterOwn, hi]
  unfold readPiece
  extract_lets found
  obtain ⟨o', h⟩ := foldl_orders (g := fun s z =>
    let o := orderOf s z
    let o1 := (o.afterLoad a (kind != 2) found).acquireLoad env.mates z env.acq scope found.rels
    if o1 = o then s else setOrder s z o1)
    (fun s z => by dsimp only; split; exacts [⟨s.orders, rfl⟩, ⟨_, rfl⟩]) (me :: env.also) (reordered s o f)
  refine ⟨o', found.free, f, ?_⟩
  rw [← hown]
  exact Prod.ext (congrArg (fun t : State => { t with free := found.free }) h) rfl

/-- What a read of an agent returns (R92, R95 to R97): nothing but the agents' orders and the draws changes, and every byte is the one that stands there or
one that a write the agent may miss replaced. -/
theorem readOrdered_sees (s : State) (env : Env) (me : Agent) (kind scope p : Nat) (cur : List Byte) (ha : env.agent = some me)
    (hi : env.issued = none) (hs : 0 < env.size) :
    ∃ o f bs, readOrdered s env kind scope p cur = (reordered s o f, bs) ∧ bs.length = cur.length ∧
      ∀ k, k < cur.length → Sees s.past (mayOf env me kind) (p + k) (nth 0 cur k) (nth 0 bs k) := by
  rw [readOrdered_eq s env me kind scope p cur ha]
  split
  · exact ⟨s.orders, s.free, cur, rfl, rfl, fun k _ => .inl rfl⟩
  · obtain ⟨o, f, rest, e, hl, hr⟩ := foldl_cutAtSize (p := p) hs (readPiece_reordered env me kind scope p cur hi s) cur.length p cur.length
      s.orders s.free [] (Nat.le_refl _) (Nat.le_refl _) (by omega)
    exact ⟨o, f, rest, e, hl, fun k hk => by simpa using hr k hk⟩

/-- A read that may miss nothing returns what stands there: one of the device, of an atomic, on a strongly ordered page (R93, R208). -/
theorem readOrdered_now (s : State) (env : Env) (kind scope p : Nat) (cur : List Byte) (hi : env.issued = none) (hs : 0 < env.size)
    (hn : env.now = true ∨ kind = 1) : ∃ o f, readOrdered s env kind scope p cur = (reordered s o f, cur) := by
  cases ha : env.agent with
  | none => exact ⟨s.orders, s.free, by unfold readOrdered; rw [ha]; rfl⟩
  | some me =>
    obtain ⟨o, f, bs, e, hl, hr⟩ := readOrdered_sees s env me kind scope p cur ha hi hs
    refine ⟨o, f, e.trans (congrArg _ (List.ext_getElem hl fun k hk hk' => ?_))⟩
    rcases hr k hk' with h | ⟨w, _, _, _, hm⟩
    · simpa [nth_getElem?, hk, hk'] using h
    · rcases hn with hn | hn <;> simp [mayOf, hn] at hm

/-! ## The places of a translation -/

/-- The bytes that stand at the places of a translation. -/
def standing (s : State) (l : List Spot) : List Byte :=
  l.flatMap fun x => match x with
    | .mem _ k _ pa => physRead s pa k
    | .pad c off k => sramRead s c off k

/-- No leaf of the translation is being zeroed (R335). -/
def noneZeroing (l : List Spot) : Bool := l.all fun x => match x with | .mem _ _ t _ => !(leafBit t.leaf 15) | .pad _ _ _ => true

/-- Whether every place is on a strongly ordered page. -/
def allStrong (l : List Spot) : Bool := l.all fun x => match x with | .mem _ _ t _ => leafKind t.leaf == 1 | .pad _ _ _ => false

theorem readSpots_device (s : State) (env : Env) (ha : env.agent = none) : ∀ l : List Spot, noneZeroing l = true → readSpots s env l = (s, standing s l)
  | [], _ => rfl
  | .mem va k t pa :: l, h => by
    simp only [noneZeroing, List.all_cons, Bool.and_eq_true, Bool.not_eq_true'] at h
    simp [readSpots, readSpot, readOrdered, ha, h.1, readSpots_device s env ha l h.2, standing]
  | .pad c off k :: l, h => by
    simp only [noneZeroing, List.all_cons, Bool.true_and] at h
    simp [readSpots, readSpot, readOrdered, ha, readSpots_device s env ha l h, standing]

theorem readSpots_now (env : Env) (hi : env.issued = none) (hs : 0 < env.size) : ∀ (l : List Spot) (s : State), noneZeroing l = true →
    (env.now || allStrong l) = true → ∃ o f, readSpots s env l = (reordered s o f, standing s l)
  | [], s, _, _ => ⟨s.orders, s.free, rfl⟩
  | .mem va k t pa :: l, s, h, hn => by
    simp only [noneZeroing, List.all_cons, Bool.and_eq_true, Bool.not_eq_true'] at h
    simp only [allStrong, List.all_cons, Bool.or_eq_true, Bool.and_eq_true, beq_iff_eq] at hn
    obtain ⟨o, f, e⟩ := readOrdered_now s env (leafKind t.leaf) (tierScope t.leaf) (routeAlias s pa) (physRead s pa k) hi hs (hn.imp_right And.left)
    obtain ⟨o', f', e'⟩ := readSpots_now env hi hs l (reordered s o f) h.2 (Bool.or_eq_true_iff.2 (hn.imp_right And.right))
    refine ⟨o', f', ?_⟩
    simp only [readSpots, readSpot, h.1, Bool.false_eq_true, if_false, e, e']
    rfl
  | .pad c off k :: l, s, h, hn => by
    simp only [noneZeroing, List.all_cons, Bool.true_and] at h
    simp only [allStrong, List.all_cons, Bool.false_and, Bool.or_false] at hn
    obtain ⟨o, f, e⟩ := readOrdered_now s env 0 padScope (padKey c off) (sramRead s c off k) hi hs (.inl hn)
    obtain ⟨o', f', e'⟩ := readSpots_now env hi hs l (reordered s o f) h (by simp [hn])
    refine ⟨o', f', ?_⟩
    simp only [readSpots, readSpot, e, e']
    rfl

/-! ## Bytes just written -/

theorem routeAlias_physWriteBy (s : State) (w : Writer) (pa : Nat) (bs : List Byte) (a : Nat) : routeAlias (physWriteBy s w pa bs) a = routeAlias s a := rfl

theorem mem_physWriteBy (s : State) (w : Writer) (pa : Nat) (bs : List Byte) : (physWriteBy s w pa bs).mem = memPut s.mem (routeAlias s pa) bs := rfl

theorem physRead_physWriteBy (s : State) (w : Writer) (pa : Nat) (bs : List Byte) : physRead (physWriteBy s w pa bs) pa bs.length = bs := by
  unfold physRead
  rw [routeAlias_physWriteBy, mem_physWriteBy]
  refine map_span_eq fun k hk => ?_
  rw [mget_memPut, if_pos ⟨Nat.le_add_right _ k, Nat.add_lt_add_left hk _⟩, Nat.add_sub_cancel_left, nth_getElem?, List.getElem?_eq_getElem hk]
  rfl

theorem physRead_physWriteBy_outside (s : State) (w : Writer) (pa : Nat) (bs : List Byte) (a : Nat)
    (h : routeAlias s a < routeAlias s pa ∨ routeAlias s pa + bs.length ≤ routeAlias s a) : physRead (physWriteBy s w pa bs) a 1 = physRead s a 1 := by
  unfold physRead
  rw [routeAlias_physWriteBy, mem_physWriteBy]
  simp only [span, List.map_cons, List.map_nil, mget_memPut]
  rw [if_neg (by omega)]

end Sys2Proof.Machine

namespace Sys2Proof
open Machine

/-- Settles O18: a read is one of an agent (`readOrdered_sees`) or may miss nothing (`readSpots_device`, `readSpots_now`); written bytes are read through
`mget_memPut`. -/
theorem readsReturnTheBytesOfTheirPlaces : Obligations.ReadsReturnTheBytesOfTheirPlaces := by
  unfold Obligations.ReadsReturnTheBytesOfTheirPlaces
  refine ⟨fun s s1 env a n l h hz => ⟨fun ha => ?_, fun hi hs hn => ?_⟩, fun s env me kind scope p cur ha hi hs => ?_, fun s w pa bs =>
    ⟨physRead_physWriteBy s w pa bs, physRead_physWriteBy_outside s w pa bs, wf_memPut bs s.mem _⟩⟩
  · unfold readAt
    rw [h]
    dsimp only
    rw [readSpots_device _ env ha l hz]
    rfl
  · obtain ⟨o, f, e⟩ := readSpots_now env hi hs l (touchSpots s1 env .read l) hz hn
    refine ⟨o, f, ?_⟩
    unfold readAt
    rw [h]
    dsimp only
    rw [e]
    rfl
  · obtain ⟨o, f, bs, e, hl, hr⟩ := readOrdered_sees s env me kind scope p cur ha hi hs
    refine ⟨o, f, bs, e, hl, fun k hk => (hr k hk).imp_right fun ⟨w, hw, hc, hb, hm⟩ => ?_⟩
    simp only [mayOf, Bool.and_eq_true, Bool.not_eq_true', bne_iff_ne] at hm
    exact ⟨hm.1.1, hm.1.2, w, hw, hc, hb, hm.2⟩

end Sys2Proof
end

