-- ==== Sys2Proof/Proofs/ControlRegisters.lean ====
section
/-!
How the control space reads (R15, R301): the registers that stand alone and the arrays of registers share no offset, so a change of one field of the control
registers changes what one offset reads.
-/

namespace Sys2Proof.Machine

/-! ## The registers that stand alone -/

/-- The offsets of the registers that stand alone. -/
def soloKeys : List Nat :=
  [0x0000, 0x0010, 0x0020, 0x0028, 0x0030, 0x0034, 0x0038, 0x0040, 0x0118, 0x0120, 0x0128, 0x012C, 0x0130, 0x0140, 0x0148, 0x0150, 0x0158, 0x0314, 0x0600,
   0x0604, 0x0608, 0x0610, 0x0618, 0x0620, 0x0A20, 0x0A30, 0x0C40, 0x0C80, 0x0C88, 0x0C8C, 0x0C90, 0x0D00, 0x0D08, 0x0D0C, 0x0D10, 0x0D14, 0x0D20, 0x0D28,
   0x0D40, 0x0D80, 0x0D88, 0x0D94, 0x0DC0, 0x0DC4, 0x0DC8, 0x0DCC]

theorem soloRead_none (s : State) {off : Nat} (h : off ∉ soloKeys) : soloRead s off = none := by
  simp only [soloKeys, List.mem_cons, not_or] at h
  simp [soloRead, h]

/-- A change that leaves every register that stands alone but the one at `off` leaves every other offset. -/
theorem soloRead_other {s t : State} {off o : Nat} (h : (soloKeys.erase off).map (soloRead t) = (soloKeys.erase off).map (soloRead s)) (ho : o ≠ off) :
    soloRead t o = soloRead s o := by
  by_cases hm : o ∈ soloKeys
  · exact List.map_inj_left.1 h o ((List.mem_erase_of_ne ho).2 hm)
  · rw [soloRead_none t hm, soloRead_none s hm]

/-- Offsets between two bounds are none of a list that leaves the room free. -/
theorem notMem_of_gap {l : List Nat} {lo hi off : Nat} (h : (l.all fun x => x < lo || hi ≤ x) = true) (h1 : lo ≤ off) (h2 : off < hi) : off ∉ l := fun hm => by
  have h' := List.all_eq_true.1 h off hm
  simp only [Bool.or_eq_true, decide_eq_true_eq] at h'
  omega

/-! ## The arrays of registers -/

theorem element_in {b st n k : Nat} (hst : 0 < st) (hk : k < n) : element (b + st * k) b st n = some k := by
  simp [element, Nat.mul_div_cancel_left _ hst, hk]

theorem element_eq_some {o b st n k : Nat} (h : element o b st n = some k) : o = b + st * k ∧ k < n := by
  unfold element at h
  split at h
  · rename_i hc
    simp only [Bool.and_eq_true, decide_eq_true_eq] at hc
    obtain ⟨⟨hb, hm⟩, hn⟩ := hc
    rw [Option.some.injEq] at h
    subst h
    have hd := Nat.div_add_mod (o - b) st
    exact ⟨by omega, hn⟩
  · cases h

theorem element_out {o b st n : Nat} (hst : 0 < st) (h : o < b ∨ b + st * n ≤ o) : element o b st n = none := by
  cases e : element o b st n with
  | none => rfl
  | some k =>
    obtain ⟨rfl, hk⟩ := element_eq_some e
    have := Nat.mul_lt_mul_of_pos_left hk hst
    omega

/-- An array whose elements but the one at `k` read as before reads as before everywhere else. -/
theorem element_map_other {o b st n k : Nat} {f f' : Nat → Nat} (h : ∀ j, j < n → j ≠ k → f' j = f j) (ho : o ≠ b + st * k) :
    (element o b st n).map f' = (element o b st n).map f := by
  cases e : element o b st n with
  | none => rfl
  | some j =>
    obtain ⟨rfl, hn⟩ := element_eq_some e
    exact congrArg some (h j hn fun hj => ho (by rw [hj]))

theorem findSome?_set {α β : Type} {g : α → Option β} {y x : α} : ∀ {l : List α} {i : Nat}, l[i]? = some x → g y = g x →
    (l.set i y).findSome? g = l.findSome? g
  | [], _, h, _ => by simp at h
  | z :: l, 0, h, hg => by
    simp only [List.getElem?_cons_zero, Option.some.injEq] at h
    simp [List.findSome?_cons, hg, h]
  | z :: l, i + 1, h, hg => by
    simp only [List.getElem?_cons_succ] at h
    simp [List.findSome?_cons, findSome?_set h hg]

/-- A change of one array of registers at one element leaves every other offset. -/
theorem regRead_other_of_array {s t : State} {o b st n k i : Nat} {f f' : Nat → Nat} (hs : ∀ o, soloRead t o = soloRead s o)
    (ha : readArrays t = (readArrays s).set i (b, st, n, f')) (hi : (readArrays s)[i]? = some (b, st, n, f)) (hf : ∀ j, j < n → j ≠ k → f' j = f j)
    (ho : o ≠ b + st * k) : regRead t o = regRead s o := by
  unfold regRead
  rw [hs, ha, findSome?_set hi (element_map_other hf ho)]

/-! ## What an element reads as -/

/-- The arrays of registers: first offset, stride, count. -/
def arrayRooms : List (Nat × Nat × Nat) :=
  [(0x0180, 4, 12), (0x0200, 8, 12), (0x0400, 8, 64), (0x0700, 8, 16), (0x0800, 8, 64), (0x0A00, 8, 4), (0x0A40, 8, 4), (0x0A80, 8, 10), (0x0B00, 8, 32),
   (0x0C00, 8, 2), (0x0E00, 4, 36), (0x0F00, 8, 9), (0x30000, 4, 180), (0x40000, 8, 1024), (0x50000, 8, 64), (0x60000, 8, 1024), (0x80000, 8, 8192),
   (0xA0000, 8, 512), (0x100000, 4, 589824), (0x400000, 8, 640)]

/-- One array of registers lies before another. -/
def RoomBefore (x y : Nat × Nat × Nat) : Prop := 0 < x.2.1 ∧ x.1 + x.2.1 * x.2.2 ≤ y.1

/-- The room of an array as it reads. -/
def roomOf (x : Nat × Nat × Nat × (Nat → Nat)) : Nat × Nat × Nat := (x.1, x.2.1, x.2.2.1)

theorem rooms_of_readArrays (s : State) : (readArrays s).map roomOf = arrayRooms := by
  simp [readArrays, roomOf, arrayRooms, Config.nClusters]

theorem rooms_ascend : arrayRooms.Pairwise RoomBefore := by
  simp [arrayRooms, RoomBefore]

theorem rooms_avoid_solo : (arrayRooms.all fun x => soloKeys.all fun o => o < x.1 || x.1 + x.2.1 * x.2.2 ≤ o) = true := by
  simp [arrayRooms, soloKeys]

theorem findSome?_element {x : Nat × Nat × Nat × (Nat → Nat)} {k : Nat} (hst : 0 < x.2.1) (hk : k < x.2.2.1) :
    ∀ {l : List (Nat × Nat × Nat × (Nat → Nat))}, (l.map roomOf).Pairwise RoomBefore → x ∈ l →
      (l.findSome? fun (b, st, n, f) => (element (x.1 + x.2.1 * k) b st n).map f) = some (x.2.2.2 k)
  | y :: l, hp, hm => by
    obtain ⟨hy, hp⟩ := List.pairwise_cons.1 hp
    rcases List.mem_cons.1 hm with rfl | hm
    · simp [element_in hst hk]
    · obtain ⟨h0, h1⟩ := hy _ (List.mem_map_of_mem hm)
      simp only [roomOf] at h0 h1
      rw [List.findSome?_cons]
      dsimp only
      rw [element_out h0 (.inr (Nat.le_add_right_of_le h1))]
      exact findSome?_element hst hk hp hm

theorem regRead_element (s : State) {b st n k : Nat} {f : Nat → Nat} (hm : (b, st, n, f) ∈ readArrays s) (hst : 0 < st) (hk : k < n) :
    regRead s (b + st * k) = BitVec.ofNat 64 (f k) := by
  have hgap := List.all_eq_true.1 rooms_avoid_solo (b, st, n) (rooms_of_readArrays s ▸ List.mem_map_of_mem (f := roomOf) hm)
  have hroom := Nat.mul_lt_mul_of_pos_left hk hst
  have hasc : ((readArrays s).map roomOf).Pairwise RoomBefore := rooms_of_readArrays s ▸ rooms_ascend
  unfold regRead
  rw [soloRead_none s (notMem_of_gap hgap (Nat.le_add_right b _) (by dsimp only; omega)), findSome?_element hst hk hasc hm]
  rfl

end Sys2Proof.Machine
end

