-- ==== Sys2Proof/Proofs/RegisterWrites.lean ====
section
/-!
What a write of a register does (R301, R303): a register that is stored changes one field of the control registers, so it alone reads otherwise afterwards;
every other write is the act of its register.
-/

namespace Sys2Proof.Machine

/-! ## Which register a write reaches -/

/-- The offsets of the registers outside arrays that are stored as written. -/
def plainKeys : List Nat :=
  [0x0000, 0x0020, 0x0028, 0x0030, 0x0038, 0x0100, 0x0108, 0x0120, 0x0128, 0x012C, 0x0140, 0x0148, 0x0150, 0x0158, 0x0300, 0x0308, 0x0600, 0x0610, 0x0618,
   0x0620, 0x0A20, 0x0C00, 0x0C08, 0x0C40, 0x0C80, 0x0C88, 0x0C8C, 0x0D00, 0x0D08, 0x0D0C, 0x0D14, 0x0D28, 0x0D40, 0x0D80, 0x0D88, 0x0DC0]

theorem plainWrite_none (c : Ctl) {off : Nat} (v : W64) (h : off ∉ plainKeys) : plainWrite c off v = none := by
  simp only [plainKeys, List.mem_cons, not_or] at h
  simp [plainWrite, h]

theorem exec_registerWrite (s : State) (off : Nat) (v : W64) : exec (.registerWrite off v) s = .next (regWrite s off v) := rfl

theorem exec_plainWrite {s : State} {off : Nat} {v : W64} {k : Ctl} (h : plainWrite s.ctl off v = some k) :
    exec (.registerWrite off v) s = .next { s with ctl := k } := by
  rw [exec_registerWrite, regWrite, h]

theorem exec_arrayWrite {s : State} {off : Nat} {v : W64} {k : Ctl} (h : off ∉ plainKeys) (ha : arrayWrite s.ctl off v = some k) :
    exec (.registerWrite off v) s = .next { s with ctl := k } := by
  rw [exec_registerWrite, regWrite, plainWrite_none _ _ h]
  dsimp only
  rw [ha]

theorem exec_actWrite {s : State} {off : Nat} {v : W64} (h : off ∉ plainKeys) (ha : arrayWrite s.ctl off v = none) :
    exec (.registerWrite off v) s = .next (actWrite s off v) := by
  rw [exec_registerWrite, regWrite, plainWrite_none _ _ h]
  dsimp only
  rw [ha]

/-! ## Registers that stand alone -/

/-- The arguments of the commands, which do not read, are the same (R338, R361). -/
def SameArgs (k c : Ctl) : Prop := k.marg0 = c.marg0 ∧ k.marg1 = c.marg1 ∧ k.dbgl = c.dbgl ∧ k.dbgt = c.dbgt

/-- Of the registers that read, none but the one at `off` reads otherwise, and no argument of a command is changed. -/
structure OnlyReg (s : State) (off : Nat) (k : Ctl) : Prop where
  solo : (soloKeys.erase off).map (soloRead { s with ctl := k }) = (soloKeys.erase off).map (soloRead s)
  arrays : readArrays { s with ctl := k } = readArrays s
  args : SameArgs k s.ctl

theorem wroteReg_of_exec {s : State} {off : Nat} {v r : W64} {k : Ctl} (he : exec (.registerWrite off v) s = .next { s with ctl := k })
    (ho : OnlyReg s off k) (hr : regRead { s with ctl := k } off = r) : WroteReg s off v r :=
  ⟨k, he, hr, fun o h => by unfold regRead; rw [soloRead_other ho.solo h, ho.arrays], ho.args⟩

theorem regRead_solo {s : State} {off n : Nat} (h : soloRead s off = some n) : regRead s off = BitVec.ofNat 64 n := by
  rw [regRead, h]

theorem wroteReg_wide {s : State} {off : Nat} {v : W64} {k : Ctl} (hw : plainWrite s.ctl off v = some k) (ho : OnlyReg s off k)
    (hr : soloRead { s with ctl := k } off = some v.toNat) : WroteReg s off v v :=
  wroteReg_of_exec (exec_plainWrite hw) ho (by rw [regRead_solo hr, BitVec.ofNat_toNat, BitVec.setWidth_eq])

theorem stored_wide (s : State) (v : W64) :
    ∀ x ∈ [0x0000, 0x0020, 0x0120, 0x0140, 0x0150, 0x0610, 0x0A20, 0x0C40, 0x0C80, 0x0D00, 0x0D28, 0x0D40, 0x0D80, 0x0D88], WroteReg s x v v := by
  simp only [List.forall_mem_cons]
  refine ⟨?_, ?_, ?_, ?_, ?_, ?_, ?_, ?_, ?_, ?_, ?_, ?_, ?_, ?_, fun _ h => absurd h List.not_mem_nil⟩
  all_goals exact wroteReg_wide rfl ⟨rfl, rfl, rfl, rfl, rfl, rfl⟩ rfl

/-- The low half of a value under a mask, as the register reads. -/
theorem setWidth_low_and (v : W64) (m : W32) : (v.setWidth 32 &&& m).setWidth 64 = v &&& m.setWidth 64 := by
  ext i hi
  simp only [BitVec.getElem_setWidth, BitVec.getLsbD_and, BitVec.getLsbD_setWidth, BitVec.getElem_and]
  by_cases h : i < 32
  · simp [h, BitVec.getLsbD_eq_getElem hi]
  · simp [h, BitVec.getLsbD_of_ge m i (by omega)]

theorem setWidth_low (v : W64) : (v.setWidth 32).setWidth 64 = v &&& 0xFFFFFFFF#64 := by
  have h := setWidth_low_and v (BitVec.allOnes 32)
  rwa [BitVec.and_allOnes] at h

theorem setWidth_and_not_low (c : W32) (v : W64) : (c &&& ~~~v.setWidth 32).setWidth 64 = c.setWidth 64 &&& ~~~v := by
  ext i hi
  simp only [BitVec.getElem_setWidth, BitVec.getLsbD_and, BitVec.getLsbD_not, BitVec.getLsbD_setWidth, BitVec.getElem_and, BitVec.getElem_not]
  by_cases h : i < 32
  · simp [h, BitVec.getLsbD_eq_getElem hi]
  · simp [BitVec.getLsbD_of_ge c i (by omega)]

theorem wroteReg_masked {s : State} {off : Nat} {v : W64} {m : W32} {k : Ctl} (hw : plainWrite s.ctl off v = some k) (ho : OnlyReg s off k)
    (hr : soloRead { s with ctl := k } off = some (v.setWidth 32 &&& m).toNat) : WroteReg s off v (v &&& m.setWidth 64) :=
  wroteReg_of_exec (exec_plainWrite hw) ho (by rw [regRead_solo hr, BitVec.ofNat_toNat, setWidth_low_and])

theorem wroteReg_narrow {s : State} {off : Nat} {v : W64} {k : Ctl} (hw : plainWrite s.ctl off v = some k) (ho : OnlyReg s off k)
    (hr : soloRead { s with ctl := k } off = some (v.setWidth 32).toNat) : WroteReg s off v (v &&& 0xFFFFFFFF#64) :=
  wroteReg_of_exec (exec_plainWrite hw) ho (by rw [regRead_solo hr, BitVec.ofNat_toNat, setWidth_low])

theorem stored_narrow (s : State) (v : W64) : ∀ x ∈ [0x0030, 0x012C, 0x0158, 0x0C8C, 0x0D0C], WroteReg s x v (v &&& 0xFFFFFFFF#64) := by
  simp only [List.forall_mem_cons]
  refine ⟨?_, ?_, ?_, ?_, ?_, fun _ h => absurd h List.not_mem_nil⟩
  all_goals exact wroteReg_narrow rfl ⟨rfl, rfl, rfl, rfl, rfl, rfl⟩ rfl

theorem wroteReg_evcoal (s : State) (v : W64) : WroteReg s 0x0038 v (v &&& 0xFFFF00FF#64) :=
  wroteReg_masked (m := 0xFFFF00FF) rfl ⟨rfl, rfl, rfl, rfl, rfl, rfl⟩ rfl

theorem wroteReg_fepid (s : State) (v : W64) : WroteReg s 0x0600 v (v &&& 0xFFFFF#64) :=
  wroteReg_masked (m := 0xFFFFF) rfl ⟨rfl, rfl, rfl, rfl, rfl, rfl⟩ rfl

theorem wroteReg_wdctl (s : State) (v : W64) : WroteReg s 0x0618 v (v &&& 0x1FFFFFFFF#64) :=
  wroteReg_of_exec (exec_plainWrite rfl) ⟨rfl, rfl, rfl, rfl, rfl, rfl⟩
    (by rw [regRead_solo (n := (v &&& 0x1FFFFFFFF#64).toNat) rfl, BitVec.ofNat_toNat, BitVec.setWidth_eq])

/-! ## Registers with a size field -/

theorem toNat_mod_of_setWidth {n a b : Nat} {x : BitVec a} {y : BitVec b} (h : x.setWidth n = y.setWidth n) : x.toNat % 2 ^ n = y.toNat % 2 ^ n := by
  simpa using congrArg BitVec.toNat h

/-- A mask that keeps the size field keeps the size. -/
theorem low_and_mod {n : Nat} (hn : n ≤ 32) (v : W64) {m : W32} (hm : m.setWidth n = BitVec.allOnes n) :
    (v.setWidth 32 &&& m).toNat % 2 ^ n = v.toNat % 2 ^ n :=
  toNat_mod_of_setWidth (by rw [BitVec.setWidth_and, hm, BitVec.and_allOnes, BitVec.setWidth_setWidth_of_le _ hn])

theorem sized_low_and {lo hi n : Nat} (hn : n ≤ 32) (v : W64) {m old : W32} (hm : m.setWidth n = BitVec.allOnes n) :
    sized lo hi n old (v.setWidth 32 &&& m) = if lo ≤ v.toNat % 2 ^ n ∧ v.toNat % 2 ^ n ≤ hi then v.setWidth 32 &&& m else old := by
  unfold sized
  rw [low_and_mod hn v hm]
  simp only [Bool.and_eq_true, decide_eq_true_eq]

theorem wroteReg_sized {s : State} {off lo hi n : Nat} {v : W64} {m old : W32} {k : Ctl} (hn : n ≤ 32) (hm : m.setWidth n = BitVec.allOnes n)
    (hw : plainWrite s.ctl off v = some k) (ho : OnlyReg s off k) (hs : soloRead s off = some old.toNat)
    (hr : soloRead { s with ctl := k } off = some (sized lo hi n old (v.setWidth 32 &&& m)).toNat) :
    WroteReg s off v (if lo ≤ v.toNat % 2 ^ n ∧ v.toNat % 2 ^ n ≤ hi then v &&& m.setWidth 64 else regRead s off) := by
  refine wroteReg_of_exec (exec_plainWrite hw) ho ?_
  rw [regRead_solo hr, regRead_solo hs, sized_low_and hn v hm]
  split
  · rw [BitVec.ofNat_toNat, setWidth_low_and]
  · rfl

theorem sized_stored (s : State) (v : W64) : ∀ x ∈ sizedRegs, WroteReg s x.1 v
    (if x.2.2.1 ≤ v.toNat % x.2.2.2.2 ∧ v.toNat % x.2.2.2.2 ≤ x.2.2.2.1 then v &&& BitVec.ofNat 64 x.2.1 else regRead s x.1) := by
  simp only [sizedRegs, List.forall_mem_cons]
  exact ⟨wroteReg_sized (n := 5) (m := 0x1F) (by decide) rfl rfl ⟨rfl, rfl, rfl, rfl, rfl, rfl⟩ rfl rfl,
    wroteReg_sized (n := 5) (m := 0x1F) (by decide) rfl rfl ⟨rfl, rfl, rfl, rfl, rfl, rfl⟩ rfl rfl,
    wroteReg_sized (n := 4) (m := 0xF) (by decide) rfl rfl ⟨rfl, rfl, rfl, rfl, rfl, rfl⟩ rfl rfl,
    wroteReg_sized (n := 5) (m := 0xFFFF1F) (by decide) rfl rfl ⟨rfl, rfl, rfl, rfl, rfl, rfl⟩ rfl rfl, fun _ h => absurd h List.not_mem_nil⟩

theorem bits_one (n lo : Nat) : bits n lo 1 = (n.testBit lo).toNat := (Nat.toNat_testBit n lo).symm

theorem regRead_errc (s : State) (k : Ctl) : regRead { s with ctl := k } 0x0D08 =
    BitVec.ofNat 64 (k.errc.toNat % 2 ^ 5 + 256 * (if s.held then 1 else bits k.errc.toNat 8 1)) := rfl

theorem wroteReg_errc (s : State) (v : W64) : WroteReg s 0x0D08 v (if 6 ≤ v.toNat % 32 ∧ v.toNat % 32 ≤ 16 then
    BitVec.ofNat 64 (v.toNat % 32 + 256 * (if s.held then 1 else bits v.toNat 8 1)) else regRead s 0x0D08) := by
  have hbit : bits (v.setWidth 32 &&& (0x11F : W32)).toNat 8 1 = bits v.toNat 8 1 := by
    rw [bits_one, bits_one, BitVec.testBit_toNat, BitVec.testBit_toNat]
    simp
  refine wroteReg_of_exec (exec_plainWrite rfl) ⟨rfl, rfl, rfl, rfl, rfl, rfl⟩ ?_
  rw [sized_low_and (n := 5) (by decide) v rfl, regRead_errc]
  dsimp only
  by_cases h : 6 ≤ v.toNat % 32 ∧ v.toNat % 32 ≤ 16
  · rw [if_pos (show 6 ≤ v.toNat % 2 ^ 5 ∧ v.toNat % 2 ^ 5 ≤ 16 from h), if_pos h, low_and_mod (n := 5) (by decide) v rfl, hbit]
    rfl
  · rw [if_neg (show ¬(6 ≤ v.toNat % 2 ^ 5 ∧ v.toNat % 2 ^ 5 ≤ 16) from h), if_neg h]
    rfl

theorem w1c_stored (s : State) (v : W64) : ∀ x ∈ [0x0620, 0x0D14], WroteReg s x v (regRead s x &&& ~~~v) := by
  simp only [List.forall_mem_cons]
  refine ⟨wroteReg_of_exec (exec_plainWrite rfl) ⟨rfl, rfl, rfl, rfl, rfl, rfl⟩ ?_, wroteReg_of_exec (exec_plainWrite rfl) ⟨rfl, rfl, rfl, rfl, rfl, rfl⟩ ?_,
    fun _ h => absurd h List.not_mem_nil⟩
  all_goals rw [regRead_solo rfl, regRead_solo rfl, BitVec.ofNat_toNat, BitVec.ofNat_toNat, setWidth_and_not_low]

theorem wroteReg_pwrcap (s : State) (v : W64) : WroteReg s 0x0DC0 v (if 1200 ≤ v.toNat % 65536 ∧ v.toNat % 65536 ≤ 3000 then
    BitVec.ofNat 64 (v.toNat % 65536) else regRead s 0x0DC0) := by
  have hv : (v.setWidth 32).toNat % 65536 = v.toNat % 65536 := by simp
  by_cases h : 1200 ≤ v.toNat % 65536 ∧ v.toNat % 65536 ≤ 3000
  · rw [if_pos h]
    refine wroteReg_of_exec (k := { s.ctl with pwrcap := v.setWidth 32 &&& 0xFFFF#32 }) (exec_plainWrite ?_) ⟨rfl, rfl, rfl, rfl, rfl, rfl⟩ ?_
    · simp [plainWrite, h]
    · rw [regRead_solo (n := (v.setWidth 32 &&& 0xFFFF#32).toNat) rfl, BitVec.toNat_and]
      exact congrArg (BitVec.ofNat 64) ((Nat.and_two_pow_sub_one_eq_mod _ 16).trans hv)
  · rw [if_neg h]
    refine wroteReg_of_exec (k := s.ctl) (exec_plainWrite ?_) ⟨rfl, rfl, rfl, rfl, rfl, rfl⟩ rfl
    simp [plainWrite, h]

/-! ## Parts of wide registers -/

theorem bits_toNat {n : Nat} (x : BitVec n) (lo len : Nat) : bits x.toNat lo len = (x.extractLsb' lo len).toNat := by
  rw [BitVec.extractLsb'_toNat, Nat.shiftRight_eq_div_pow, bits]

theorem halves (x : BitVec 128) : ∃ h l : W64, x = h ++ l := ⟨_, _, (BitVec.extractLsb'_append_extractLsb' (w := 64) (len := 64)).symm⟩

theorem zero_append (v : W64) : v.setWidth 128 = 0#64 ++ v := BitVec.setWidth_eq_append (by decide)

theorem append_zero (v : W64) : BitVec.ofNat 128 (v.toNat * 2 ^ 64) = v ++ 0#64 := by
  have hv := v.isLt
  apply BitVec.eq_of_toNat_eq
  rw [BitVec.toNat_ofNat, BitVec.toNat_append, BitVec.toNat_ofNat, Nat.zero_mod, Nat.or_zero, Nat.shiftLeft_eq, Nat.mod_eq_of_lt (by omega)]

theorem putHalf_append (h l v : W64) (i : Nat) : putHalf (h ++ l) i v = if i % 2 = 0 then h ++ v else v ++ l := by
  have hmask : BitVec.ofNat 128 (2 ^ 64 - 1) = 0#64 ++ BitVec.allOnes 64 := rfl
  unfold putHalf
  rw [hmask, zero_append, zero_append, append_zero, BitVec.not_append, BitVec.and_append, BitVec.or_append, BitVec.or_append, BitVec.setWidth_append_eq_right]
  simp only [BitVec.and_zero, BitVec.zero_or, BitVec.or_zero, BitVec.not_zero, BitVec.and_allOnes, BitVec.not_allOnes]

theorem bits_append (h l : W64) (j : Nat) : bits (h ++ l).toNat (64 * (j % 2)) 64 = if j % 2 = 0 then l.toNat else h.toNat := by
  rw [bits_toNat]
  rcases Nat.mod_two_eq_zero_or_one j with hj | hj <;> rw [hj]
  · exact congrArg BitVec.toNat BitVec.extractLsb'_append_eq_right
  · exact congrArg BitVec.toNat BitVec.extractLsb'_append_eq_left

/-- One 64-bit part of a 128-bit register after one part was replaced. -/
theorem bits_putHalf (old : BitVec 128) (v : W64) (i j : Nat) :
    bits (putHalf old i v).toNat (64 * (j % 2)) 64 = if j % 2 = i % 2 then v.toNat else bits old.toNat (64 * (j % 2)) 64 := by
  obtain ⟨h, l, rfl⟩ := halves old
  rw [putHalf_append, bits_append]
  rcases Nat.mod_two_eq_zero_or_one i with hi | hi
  · rw [if_pos hi, bits_append, hi]
    rcases Nat.mod_two_eq_zero_or_one j with hj | hj <;> simp [hj]
  · rw [if_neg (by omega), bits_append, hi]
    rcases Nat.mod_two_eq_zero_or_one j with hj | hj <;> simp [hj]

theorem digit_of_four {a b c d : Nat} (ha : a < 2 ^ 64) (hb : b < 2 ^ 64) (hc : c < 2 ^ 64) (hd : d < 2 ^ 64) :
    ∀ {j : Nat}, j < 4 → bits (a + b * 2 ^ 64 + c * 2 ^ 128 + d * 2 ^ 192) (64 * j) 64 = nth 0 [a, b, c, d] j
  | 0, _ => by simp only [bits, nth]; omega
  | 1, _ => by simp only [bits, nth]; omega
  | 2, _ => by simp only [bits, nth]; omega
  | 3, _ => by simp only [bits, nth]; omega

theorem bits_lt (n lo len : Nat) : bits n lo len < 2 ^ len := Nat.mod_lt _ (Nat.two_pow_pos len)

theorem sum_four (q : Nat → Nat) : sumNat ((upto 4).map q) = q 0 + q 1 + q 2 + q 3 := by
  simp [upto, span, sumNat]

theorem four_lt {a b c d : Nat} (ha : a < 2 ^ 64) (hb : b < 2 ^ 64) (hc : c < 2 ^ 64) (hd : d < 2 ^ 64) :
    a + b * 2 ^ 64 + c * 2 ^ 128 + d * 2 ^ 192 < 2 ^ 256 := by omega

/-- The parts of a 256-bit register after one was replaced. -/
def quarters (old : BitVec 256) (i : Nat) (v : W64) (k : Nat) : Nat := if k = i % 4 then v.toNat else bits old.toNat (64 * k) 64

theorem quarters_lt (old : BitVec 256) (i : Nat) (v : W64) (k : Nat) : quarters old i v k < 2 ^ 64 := by
  unfold quarters
  split
  · exact v.isLt
  · exact bits_lt _ _ _

theorem toNat_putQuarter (old : BitVec 256) (i : Nat) (v : W64) : (putQuarter old i v).toNat =
    quarters old i v 0 + quarters old i v 1 * 2 ^ 64 + quarters old i v 2 * 2 ^ 128 + quarters old i v 3 * 2 ^ 192 := by
  have hq := quarters_lt old i v
  have hsum := sum_four fun k => quarters old i v k * 2 ^ (64 * k)
  simp only [Nat.mul_zero, Nat.pow_zero, Nat.mul_one, Nat.reduceMul] at hsum
  have hput : (putQuarter old i v).toNat = sumNat ((upto 4).map fun k => quarters old i v k * 2 ^ (64 * k)) % 2 ^ 256 := BitVec.toNat_ofNat _ _
  rw [hput, hsum, Nat.mod_eq_of_lt (four_lt (hq 0) (hq 1) (hq 2) (hq 3))]

/-- One 64-bit part of a 256-bit register after one part was replaced. -/
theorem bits_putQuarter (old : BitVec 256) (v : W64) (i : Nat) {j : Nat} (hj : j < 4) :
    bits (putQuarter old i v).toNat (64 * j) 64 = if j = i % 4 then v.toNat else bits old.toNat (64 * j) 64 := by
  have hq := quarters_lt old i v
  have hj' : nth 0 [quarters old i v 0, quarters old i v 1, quarters old i v 2, quarters old i v 3] j = quarters old i v j := by
    match j, hj with
    | 0, _ | 1, _ | 2, _ | 3, _ => rfl
  rw [toNat_putQuarter, digit_of_four (hq 0) (hq 1) (hq 2) (hq 3) hj, hj', quarters]

/-! ## Arrays of registers -/

/-- A write that changes one element of one array of registers. -/
theorem wroteReg_element {s : State} {i b st n j : Nat} {f f' : Nat → Nat} {k : Ctl} {v r : W64}
    (he : exec (.registerWrite (b + st * j) v) s = .next { s with ctl := k }) (hs : ∀ o, soloRead { s with ctl := k } o = soloRead s o)
    (ha : readArrays { s with ctl := k } = (readArrays s).set i (b, st, n, f')) (hi : (readArrays s)[i]? = some (b, st, n, f)) (hst : 0 < st) (hj : j < n)
    (hf : ∀ m, m < n → m ≠ j → f' m = f m) (hargs : SameArgs k s.ctl) (hr : BitVec.ofNat 64 (f' j) = r) : WroteReg s (b + st * j) v r := by
  have hm : (b, st, n, f') ∈ readArrays { s with ctl := k } := by
    rw [ha]
    exact List.mem_set (List.getElem?_eq_some_iff.1 hi).1 _
  exact ⟨k, he, (regRead_element _ hm hst hj).trans hr, fun o ho => regRead_other_of_array hs ha hi hf ho, hargs⟩

theorem mget_mput_toNat_other {n : Nat} (m : SMap (BitVec n)) (k : Nat) (v : BitVec n) (j : Nat) (h : j ≠ k) :
    (mget 0 (mput 0 m k v) j).toNat = (mget 0 m j).toNat := by
  rw [mget_mput_other 0 m k j v h]

theorem ofNat_mget_mput_same (m : SMap W64) (k : Nat) (v : W64) : BitVec.ofNat 64 (mget 0 (mput 0 m k v) k).toNat = v := by
  rw [mget_mput_same, BitVec.ofNat_toNat, BitVec.setWidth_eq]

/-- The 64-bit parts of a map of 128-bit registers after one was replaced. -/
theorem part_putHalf (m : SMap (BitVec 128)) (k : Nat) (w : W64) (j : Nat) :
    bits (mget 0 (mput 0 m (k / 2) (putHalf (mget 0 m (k / 2)) k w)) (j / 2)).toNat (64 * (j % 2)) 64 =
      if j = k then w.toNat else bits (mget 0 m (j / 2)).toNat (64 * (j % 2)) 64 := by
  rw [mget_mput]
  by_cases h : j / 2 = k / 2
  · rw [if_pos h, bits_putHalf, h]
    exact if_congr (by omega) rfl rfl
  · rw [if_neg h, if_neg (by omega)]

/-- The 64-bit parts of a map of 256-bit registers after one was replaced. -/
theorem part_putQuarter (m : SMap (BitVec 256)) (k : Nat) (w : W64) (j : Nat) :
    bits (mget 0 (mput 0 m (k / 4) (putQuarter (mget 0 m (k / 4)) k w)) (j / 4)).toNat (64 * (j % 4)) 64 =
      if j = k then w.toNat else bits (mget 0 m (j / 4)).toNat (64 * (j % 4)) 64 := by
  rw [mget_mput]
  by_cases h : j / 4 = k / 4
  · rw [if_pos h, bits_putQuarter _ _ _ (Nat.mod_lt j (by decide)), h]
    exact if_congr (by omega) rfl rfl
  · rw [if_neg h, if_neg (by omega)]

section
variable (c : Ctl) (v : W64) {k : Nat}

theorem arrayWrite_dbghb (h : k < 64) : arrayWrite c (0x0400 + 8 * k) v = some { c with dbghb := mput 0 c.dbghb k v } := by
  simp (disch := omega) [arrayWrite, element_in]

theorem arrayWrite_fport (h : k < 16) :
    arrayWrite c (0x0700 + 8 * k) v = some { c with fport := mput 0 c.fport k ((mget 0 c.fport k &&& ~~~0xD) ||| (v &&& 0xD)) } := by
  simp (disch := omega) [arrayWrite, element_in, element_out]

theorem arrayWrite_attn (h : k < 4) : arrayWrite c (0x0A00 + 8 * k) v = some { c with attn := putQuarter c.attn k v } := by
  simp (disch := omega) [arrayWrite, element_in, element_out]

theorem arrayWrite_mextd (h : k < 4) : arrayWrite c (0x0A40 + 8 * k) v = some { c with mextd := putQuarter c.mextd k v } := by
  simp (disch := omega) [arrayWrite, element_in, element_out]

theorem arrayWrite_logtb (h : k < 64) : arrayWrite c (0x50000 + 8 * k) v = some { c with logtb := mput 0 c.logtb k v } := by
  simp (disch := omega) [arrayWrite, element_in, element_out]

theorem arrayWrite_win (h : k < 8192) : arrayWrite c (0x80000 + 8 * k) v =
    some { c with win := mput 0 c.win (k / 2) (putHalf (mget 0 c.win (k / 2)) k (if k % 2 = 0 then v &&& 0x3FFFFF else v)) } := by
  simp (disch := omega) [arrayWrite, element_in, element_out]

theorem arrayWrite_inb (h : k < 512) : arrayWrite c (0xA0000 + 8 * k) v =
    some { c with inb := mput 0 c.inb (k / 2) (putHalf (mget 0 c.inb (k / 2)) k (if k % 2 = 0 then v &&& 0x1FFFFF else v &&& 0xFFFFFC000007F)) } := by
  simp (disch := omega) [arrayWrite, element_in, element_out]

theorem arrayWrite_lnc (h : k < 640) : arrayWrite c (0x400000 + 8 * k) v = some (laneWrite c k v) := by
  simp (disch := omega) [arrayWrite, element_in, element_out]

end

theorem arrays_avoid_plain : ((arrayRooms.filter fun x => x.1 != 0x0C00).all fun x => plainKeys.all fun o => o < x.1 || x.1 + x.2.1 * x.2.2 ≤ o) = true := by
  simp [arrayRooms, plainKeys]

/-- No register outside arrays that is stored stands in an array, but for PXCFG. -/
theorem notMem_plainKeys {b n k : Nat} (h : ((b, 8, n) ∈ arrayRooms ∧ b ≠ 0x0C00)) (hk : k < n) : b + 8 * k ∉ plainKeys :=
  notMem_of_gap (List.all_eq_true.1 arrays_avoid_plain (b, 8, n) (List.mem_filter.2 ⟨h.1, by simpa using h.2⟩)) (Nat.le_add_right b _)
    (by dsimp only; omega)

section
variable (s : State) (v : W64) {k : Nat}

theorem wroteReg_dbghb (h : k < 64) : WroteReg s (0x0400 + 8 * k) v v :=
  wroteReg_element (i := 2) (exec_arrayWrite (notMem_plainKeys (by decide) h) (arrayWrite_dbghb s.ctl v h)) (fun _ => rfl) rfl rfl (by decide) h
    (fun m _ hm => mget_mput_toNat_other _ _ _ m hm) ⟨rfl, rfl, rfl, rfl⟩ (ofNat_mget_mput_same _ _ _)

theorem wroteReg_fport (h : k < 16) : WroteReg s (0x0700 + 8 * k) v (regRead s (0x0700 + 8 * k) &&& ~~~0xD ||| v &&& 0xD) := by
  have hr : regRead s (0x0700 + 8 * k) = mget 0 s.ctl.fport k := by
    rw [regRead_element s (List.mem_of_getElem? (i := 3) rfl) (by decide) h, BitVec.ofNat_toNat, BitVec.setWidth_eq]
  rw [hr]
  exact wroteReg_element (i := 3) (exec_arrayWrite (notMem_plainKeys (by decide) h) (arrayWrite_fport s.ctl v h)) (fun _ => rfl) rfl rfl (by decide) h
    (fun m _ hm => mget_mput_toNat_other _ _ _ m hm) ⟨rfl, rfl, rfl, rfl⟩ (ofNat_mget_mput_same _ _ _)

theorem wroteReg_logtb (h : k < 64) : WroteReg s (0x50000 + 8 * k) v v :=
  wroteReg_element (i := 14) (exec_arrayWrite (notMem_plainKeys (by decide) h) (arrayWrite_logtb s.ctl v h)) (fun _ => rfl) rfl rfl (by decide) h
    (fun m _ hm => mget_mput_toNat_other _ _ _ m hm) ⟨rfl, rfl, rfl, rfl⟩ (ofNat_mget_mput_same _ _ _)

theorem ofNat_of_part {P : Prop} [Decidable P] {w : W64} {n m : Nat} (hp : P) (h : n = if P then w.toNat else m) : BitVec.ofNat 64 n = w := by
  rw [h, if_pos hp, BitVec.ofNat_toNat, BitVec.setWidth_eq]

theorem quarters_other (x : BitVec 256) {m : Nat} (h : k < 4) (hm : m < 4) (hne : m ≠ k) :
    bits (putQuarter x k v).toNat (64 * m) 64 = bits x.toNat (64 * m) 64 := by
  rw [bits_putQuarter x v k hm, if_neg (by omega)]

theorem ofNat_quarters_same (x : BitVec 256) (h : k < 4) : BitVec.ofNat 64 (bits (putQuarter x k v).toNat (64 * k) 64) = v :=
  ofNat_of_part (Nat.mod_eq_of_lt h).symm (bits_putQuarter x v k h)

theorem wroteReg_attn (h : k < 4) : WroteReg s (0x0A00 + 8 * k) v v := by
  have he := exec_arrayWrite (s := s) (notMem_plainKeys (b := 0x0A00) (by decide) h) (arrayWrite_attn s.ctl v h)
  obtain ⟨x, hx⟩ : ∃ x, putQuarter s.ctl.attn k v = x := ⟨_, rfl⟩
  rw [hx] at he
  exact wroteReg_element (i := 5) he (fun _ => rfl) rfl rfl (by decide) h (fun m hm hne => hx ▸ quarters_other v _ h hm hne) ⟨rfl, rfl, rfl, rfl⟩
    (hx ▸ ofNat_quarters_same v _ h)

theorem wroteReg_mextd (h : k < 4) : WroteReg s (0x0A40 + 8 * k) v v := by
  have he := exec_arrayWrite (s := s) (notMem_plainKeys (b := 0x0A40) (by decide) h) (arrayWrite_mextd s.ctl v h)
  obtain ⟨x, hx⟩ : ∃ x, putQuarter s.ctl.mextd k v = x := ⟨_, rfl⟩
  rw [hx] at he
  exact wroteReg_element (i := 6) he (fun _ => rfl) rfl rfl (by decide) h (fun m hm hne => hx ▸ quarters_other v _ h hm hne) ⟨rfl, rfl, rfl, rfl⟩
    (hx ▸ ofNat_quarters_same v _ h)

theorem wroteReg_win (h : k < 8192) : WroteReg s (0x80000 + 8 * k) v (if k % 2 = 0 then v &&& 0x3FFFFF else v) :=
  wroteReg_element (i := 16) (exec_arrayWrite (notMem_plainKeys (by decide) h) (arrayWrite_win s.ctl v h)) (fun _ => rfl) rfl rfl (by decide) h
    (fun m _ hne => (part_putHalf _ k _ m).trans (if_neg hne)) ⟨rfl, rfl, rfl, rfl⟩ (ofNat_of_part rfl (part_putHalf _ k _ k))

theorem wroteReg_inb (h : k < 512) : WroteReg s (0xA0000 + 8 * k) v (if k % 2 = 0 then v &&& 0x1FFFFF else v &&& 0xFFFFFC000007F) :=
  wroteReg_element (i := 17) (exec_arrayWrite (notMem_plainKeys (by decide) h) (arrayWrite_inb s.ctl v h)) (fun _ => rfl) rfl rfl (by decide) h
    (fun m _ hne => (part_putHalf _ k _ m).trans (if_neg hne)) ⟨rfl, rfl, rfl, rfl⟩ (ofNat_of_part rfl (part_putHalf _ k _ k))

theorem wroteReg_lnc (h : k < 640) : WroteReg s (0x400000 + 8 * k) v (if v = BitVec.allOnes 64 then 0 else regRead s (0x400000 + 8 * k)) := by
  have he := exec_arrayWrite (s := s) (notMem_plainKeys (b := 0x400000) (by decide) h) (arrayWrite_lnc s.ctl v h)
  unfold laneWrite at he
  by_cases hv : v = BitVec.allOnes 64
  · rw [if_pos hv] at he ⊢
    exact wroteReg_element (i := 19) he (fun _ => rfl) rfl rfl (by decide) h
      (fun m _ hne => (part_putQuarter _ k _ m).trans (if_neg hne)) ⟨rfl, rfl, rfl, rfl⟩ (ofNat_of_part rfl (part_putQuarter _ k _ k))
  · rw [if_neg hv] at he ⊢
    exact ⟨s.ctl, he, rfl, fun _ _ => rfl, rfl, rfl, rfl, rfl⟩

theorem and_full (v : W64) (p : Prop) [Decidable p] : v &&& BitVec.ofNat 64 (if p then 0xFFFFFFFFFFFFFFFF else 0xFFFFFFFFFFFFFFFF) = v := by
  rw [ite_self]
  exact BitVec.and_allOnes

theorem arrays_stored : ∀ x ∈ storedArrays, ∀ k, k < x.2.1 →
    WroteReg s (x.1 + 8 * k) v (v &&& BitVec.ofNat 64 (if k % 2 = 0 then x.2.2.1 else x.2.2.2)) := by
  simp only [storedArrays, List.forall_mem_cons, and_full]
  refine ⟨fun k => wroteReg_dbghb s v, fun k => wroteReg_attn s v, fun k => wroteReg_mextd s v, fun k => wroteReg_logtb s v, fun k h => ?_, fun k h => ?_,
    fun _ h => absurd h List.not_mem_nil⟩
  · have hw := wroteReg_win s v h
    split
    · rwa [if_pos ‹_›] at hw
    · rw [if_neg ‹_›] at hw
      rwa [show v &&& BitVec.ofNat 64 0xFFFFFFFFFFFFFFFF = v from BitVec.and_allOnes]
  · have hw := wroteReg_inb s v h
    split
    · rwa [if_pos ‹_›] at hw
    · rwa [if_neg ‹_›] at hw

theorem wroteReg_pxcfg (h : k < 2) : WroteReg s (0x0C00 + 8 * k) v (v &&& 0xFF) := by
  have he : exec (.registerWrite (0x0C00 + 8 * k) v) s = .next { s with ctl := { s.ctl with pxcfg := mput 0 s.ctl.pxcfg k (v.setWidth 32 &&& 0xFF) } } := by
    match k, h with
    | 0, _ | 1, _ => exact exec_plainWrite rfl
  refine wroteReg_element (i := 9) he (fun _ => rfl) rfl rfl (by decide) h (fun m _ hm => mget_mput_toNat_other _ _ _ m hm) ⟨rfl, rfl, rfl, rfl⟩ ?_
  rw [mget_mput_same, BitVec.ofNat_toNat, setWidth_low_and]
  rfl

theorem regs_stored : ∀ x ∈ storedRegs, WroteReg s x.1 v (v &&& BitVec.ofNat 64 x.2) := by
  intro x hx
  rcases List.mem_append.1 hx with hx | hx
  · rcases List.mem_append.1 hx with hx | hx
    · obtain ⟨o, ho, rfl⟩ := List.mem_map.1 hx
      rw [show v &&& BitVec.ofNat 64 0xFFFFFFFFFFFFFFFF = v from BitVec.and_allOnes]
      exact stored_wide s v o ho
    · obtain ⟨o, ho, rfl⟩ := List.mem_map.1 hx
      exact stored_narrow s v o ho
  · have hall : ∀ x ∈ [((0x0038 : Nat), (0xFFFF00FF : Nat)), (0x0600, 0xFFFFF), (0x0618, 0x1FFFFFFFF), (0x0C00, 0xFF), (0x0C08, 0xFF)],
        WroteReg s x.1 v (v &&& BitVec.ofNat 64 x.2) := by
      simp only [List.forall_mem_cons]
      exact ⟨wroteReg_evcoal s v, wroteReg_fepid s v, wroteReg_wdctl s v, wroteReg_pxcfg s v (k := 0) (by decide), wroteReg_pxcfg s v (k := 1) (by decide),
        fun _ h => absurd h List.not_mem_nil⟩
    exact hall x hx

end

end Sys2Proof.Machine
end

