-- ==== Sys2Proof/Proofs/RegisterActs.lean ====
section
/-!
What a write of a command register, a doorbell or a bank register does (R70, R302, R307, R311, R338, R361, R366, R378, R385 to R387, R397, R401): the act of its
event; a write of an offset that no register has does nothing (log 41).
-/

namespace Sys2Proof.Machine

/-! ## Registers that act -/

/-- The offsets of the registers outside arrays that act. -/
def actKeys : List Nat := [0x0008, 0x0110, 0x0310, 0x0318, 0x0604, 0x0608, 0x0A28, 0x0A34, 0x0A60, 0x0D48, 0x0D90]

/-- The act of a write of an element of an array of registers that act. -/
def elementAct (s : State) (off : Nat) (v : W64) : State :=
  match element off 0x0A80 8 16, element off 0x10000 8 4096, element off 0x20000 8 64, element off 0x100000 4 (16384 * Config.nClusters) with
  | some k, _, _, _ => putIrqv s (k / 2) (putHalf (mget 0 s.ctl.irqv (k / 2)) k v)
  | _, some k, _, _ => doorbell s (k / 64) (k % 64) (v.setWidth 32)
  | _, _, some c, _ => retest s c
  | _, _, _, some k => if k % 16384 < 64 then bankWrite s (k / 16384) (k % 16384) (v.setWidth 32) else s
  | none, none, none, none => s

theorem actWrite_element (s : State) {off : Nat} (v : W64) (h : off ∉ actKeys) : actWrite s off v = elementAct s off v := by
  simp only [actKeys, List.mem_cons, not_or] at h
  simp [actWrite, elementAct, h] <;> rfl

/-- A register outside arrays that acts does its act. -/
theorem exec_act (s : State) (v : W64) : ∀ off ∈ actKeys, exec (.registerWrite off v) s = .next (actWrite s off v) := by
  simp only [actKeys, List.forall_mem_cons]
  refine ⟨?_, ?_, ?_, ?_, ?_, ?_, ?_, ?_, ?_, ?_, ?_, fun _ h => absurd h List.not_mem_nil⟩
  all_goals exact exec_actWrite (by decide) rfl

theorem exec_elementAct {s : State} {off : Nat} {v : W64} (hp : off ∉ plainKeys) (ha : arrayWrite s.ctl off v = none) (hk : off ∉ actKeys) :
    exec (.registerWrite off v) s = .next (elementAct s off v) := by
  rw [exec_actWrite hp ha, actWrite_element s v hk]

/-! ## Flow of the fabric -/

theorem exec_fcfg (s : State) (v : W64) : exec (.registerWrite 0x0604 v) s = .next (fcfgWrite s (v.setWidth 32)) := exec_act s v _ (by decide)

theorem low_mod (v : W64) : (v.setWidth 32).toNat % 65536 = v.toNat % 65536 := by simp

theorem low_top (v : W64) : (v.setWidth 32).toNat / 2 ^ 30 = bits v.toNat 30 2 := by
  rw [BitVec.toNat_setWidth, bits]
  omega

theorem onlyReg_fcfg (s : State) (w : W32) : OnlyReg s 0x0604 { s.ctl with fcfg := w } := ⟨rfl, rfl, rfl, rfl, rfl, rfl⟩

theorem regRead_fcfg (s : State) (f : Nat) (v : W64) : regRead { s with free := f, ctl := { s.ctl with fcfg := v.setWidth 32 } } 0x0604 = v &&& 0xFFFFFFFF := by
  rw [regRead_solo (n := (v.setWidth 32).toNat) rfl, BitVec.ofNat_toNat]
  exact setWidth_low v

theorem regRead_free (s : State) (f o : Nat) : regRead { s with free := f } o = regRead s o := rfl

theorem wroteReg_fcfg (s : State) (v : W64) (h1 : v.toNat % 65536 ≠ 0) (h2 : bits v.toNat 30 2 ≠ 0) : WroteReg s 0x0604 v (v &&& 0xFFFFFFFF) := by
  refine wroteReg_of_exec ?_ (onlyReg_fcfg s (v.setWidth 32)) (regRead_fcfg s s.free v)
  rw [exec_fcfg, fcfgWrite]
  simp only [low_mod, low_top, h1, h2, decide_false, Bool.or_self, Bool.false_eq_true, if_false]

/-- Whether a value outside the field's range is taken is open (log 1). -/
theorem goes_fcfg (s : State) (v : W64) (h : v.toNat % 65536 = 0 ∨ bits v.toNat 30 2 = 0) : Goes (.registerWrite 0x0604 v) s fun t =>
    (regRead t 0x0604 = v &&& 0xFFFFFFFF ∨ regRead t 0x0604 = regRead s 0x0604) ∧ t = { s with free := t.free, ctl := t.ctl } ∧
      ∀ o, o ≠ 0x0604 → regRead t o = regRead s o := by
  have hc : (decide (v.toNat % 65536 = 0) || decide (bits v.toNat 30 2 = 0)) = true := by simpa using h
  refine ⟨_, exec_fcfg s v, ?_⟩
  unfold fcfgWrite chooseBool
  simp only [low_mod, low_top, hc, if_true]
  split
  · refine ⟨.inl (regRead_fcfg s _ v), rfl, fun o ho => ?_⟩
    have hother := onlyReg_fcfg s (v.setWidth 32)
    exact (regRead_free _ _ o).trans (by unfold regRead; rw [soloRead_other hother.solo ho, hother.arrays])
  · exact ⟨.inr (regRead_free _ _ _), rfl, fun o _ => regRead_free _ _ o⟩

/-! ## Commands -/

theorem exec_cmd (s : State) (v : W64) : exec (.registerWrite 0x0008 v) s = .next (cmdWrite s v) := exec_act s v _ (by decide)

theorem exec_cmd_word (s : State) {n k : Nat} (a : BitVec 32) (h1 : 1 ≤ n) (h2 : n ≤ 7) (hk : k < 64) :
    exec (.registerWrite 0x0008 (BitVec.ofNat 64 (n * 2 ^ 56 + k * 2 ^ 32 + a.toNat))) s = .next (if s.cmd.isSome then s else { s with cmd := some (n, k, a) }) := by
  have ha := a.isLt
  have hv : (BitVec.ofNat 64 (n * 2 ^ 56 + k * 2 ^ 32 + a.toNat)).toNat = n * 2 ^ 56 + k * 2 ^ 32 + a.toNat := by
    rw [BitVec.toNat_ofNat, Nat.mod_eq_of_lt (by omega)]
  have hop : bits (n * 2 ^ 56 + k * 2 ^ 32 + a.toNat) 56 8 = n := by unfold bits; omega
  have hres : bits (n * 2 ^ 56 + k * 2 ^ 32 + a.toNat) 38 18 = 0 := by unfold bits; omega
  have hctx : bits (n * 2 ^ 56 + k * 2 ^ 32 + a.toNat) 32 6 = k := by unfold bits; omega
  have hlow : (BitVec.ofNat 64 (n * 2 ^ 56 + k * 2 ^ 32 + a.toNat)).setWidth 32 = a := by
    apply BitVec.eq_of_toNat_eq
    rw [BitVec.toNat_setWidth, hv]
    omega
  rw [exec_cmd, cmdWrite, hlow, hv, hop, hres, hctx]
  have hn : (n = 0) = False := by simp; omega
  have h7 : (7 < n) = False := by simp; omega
  simp [hn, h7]

theorem exec_cmd_refused (s : State) (v : W64) (h : bits v.toNat 38 18 ≠ 0 ∨ bits v.toNat 56 8 = 0 ∨ 7 < bits v.toNat 56 8) (hc : s.cmd = none) :
    exec (.registerWrite 0x0008 v) s = .next (cmdDone s 1) := by
  have hb : (bits v.toNat 38 18 != 0 || decide (bits v.toNat 56 8 = 0) || decide (7 < bits v.toNat 56 8)) = true := by simpa [or_assoc] using h
  rw [exec_cmd, cmdWrite, hc]
  simp [hb]

theorem exec_mcmd (s : State) : ∀ x ∈ [(1, Instr.inval), (2, .replay), (3, .swap), (4, .swapfree), (5, .mapout), (6, .mapend), (7, .extrel), (8, .qtrim)],
    exec (.registerWrite 0x0110 (BitVec.ofNat 64 x.1)) s = exec x.2 s := by
  simp only [List.forall_mem_cons]
  refine ⟨?_, ?_, ?_, ?_, ?_, ?_, ?_, ?_, fun _ h => absurd h List.not_mem_nil⟩
  all_goals exact exec_act s _ 0x0110 (by decide)

theorem exec_dbgop (s : State) (a : BitVec 32) : ∀ x ∈ [(1, Instr.haltOp a), (2, .resume a), (3, .freeze a), (4, .thaw a)], a.toNat % 256 = x.1 →
    exec (.registerWrite 0x0310 (a.setWidth 64)) s = exec x.2 s := by
  have he : exec (.registerWrite 0x0310 (a.setWidth 64)) s = .next (dbgWrite s a) := by
    have h := exec_act s (a.setWidth 64) 0x0310 (by decide)
    rwa [show actWrite s 0x0310 (a.setWidth 64) = dbgWrite s ((a.setWidth 64).setWidth 32) from rfl, BitVec.setWidth_setWidth_of_le a (by decide),
      BitVec.setWidth_eq] at h
  rw [he]
  simp only [List.forall_mem_cons]
  refine ⟨?_, ?_, ?_, ?_, fun _ h => absurd h List.not_mem_nil⟩
  all_goals
    intro h
    simp only [dbgWrite, h]
    rfl

theorem exec_ftcmd (s : State) {c : Nat} (hc : c < Config.nClusters) : ∀ x ∈ [(1, Instr.offline c), (2, .test c), (3, .online c), (4, .retire c)],
    exec (.registerWrite 0x0D48 (BitVec.ofNat 64 (x.1 + 256 * c))) s = exec x.2 s := by
  have hc' : c < 36 := hc
  have hft : ∀ n, n < 256 → exec (.registerWrite 0x0D48 (BitVec.ofNat 64 (n + 256 * c))) s = .next (ftWrite s (BitVec.ofNat 32 (n + 256 * c))) := fun n hn => by
    rw [exec_act s _ 0x0D48 (by decide), ← BitVec.setWidth_ofNat_of_le (by decide : 32 ≤ 64)]
    rfl
  have hop : ∀ n, n < 256 → (BitVec.ofNat 32 (n + 256 * c)).toNat % 256 = n := fun n hn => by
    rw [BitVec.toNat_ofNat]
    omega
  have hcl : ∀ n, n < 256 → bits (BitVec.ofNat 32 (n + 256 * c)).toNat 8 8 = c := fun n hn => by
    rw [BitVec.toNat_ofNat, bits]
    omega
  simp only [List.forall_mem_cons]
  refine ⟨?_, ?_, ?_, ?_, fun _ h => absurd h List.not_mem_nil⟩
  all_goals
    rw [hft _ (by decide), ftWrite, hop _ (by decide), hcl _ (by decide)]
    rfl

theorem exec_ckcmd (s : State) : ∀ x ∈ [(1, Instr.save), (2, .load), (3, .abort)], exec (.registerWrite 0x0D90 (BitVec.ofNat 64 x.1)) s = exec x.2 s := by
  simp only [List.forall_mem_cons]
  refine ⟨?_, ?_, ?_, fun _ h => absurd h List.not_mem_nil⟩
  all_goals exact exec_act s _ 0x0D90 (by decide)

theorem exec_bell (s : State) (v : W64) : exec (.registerWrite 0x0318 v) s = exec (.halyardDoorbell v) s := by
  have h : ∃ t, execHalyardDoorbell v s = .next t := by
    unfold execHalyardDoorbell
    dsimp only
    split
    · exact ⟨_, rfl⟩
    · exact ⟨_, rfl⟩
  obtain ⟨t, ht⟩ := h
  rw [exec_act s v 0x0318 (by decide), show actWrite s 0x0318 v = doorbellWrite s v from rfl, doorbellWrite, ht]
  exact ht.symm

theorem exec_bells (s : State) (v : W64) : ∀ x ∈ [(0x0318, Instr.halyardDoorbell v), (0x0608, .selfstWrite (v.setWidth 32)),
    (0x0A28, .attestationReport (v.setWidth 32)), (0x0A34, .svnWrite (v.setWidth 32)), (0x0A60, .measurementExtend (v.toNat % 2 ^ 32))],
    exec (.registerWrite x.1 v) s = exec x.2 s := by
  simp only [List.forall_mem_cons]
  refine ⟨exec_bell s v, exec_act s v 0x0608 (by decide), exec_act s v 0x0A28 (by decide), exec_act s v 0x0A34 (by decide), ?_,
    fun _ h => absurd h List.not_mem_nil⟩
  rw [← BitVec.toNat_setWidth]
  exact exec_act s v 0x0A60 (by decide)

/-! ## Arrays of registers that act -/

/-- The arrays whose elements are stored: first offset, count. -/
def storedRooms : List (Nat × Nat) :=
  [(0x0400, 64), (0x0700, 16), (0x0A00, 4), (0x0A40, 4), (0x50000, 64), (0x80000, 8192), (0xA0000, 512), (0x400000, 640)]

theorem arrayWrite_none (c : Ctl) {off : Nat} (v : W64) (h : ∀ x ∈ storedRooms, element off x.1 8 x.2 = none) : arrayWrite c off v = none := by
  simp only [storedRooms, List.forall_mem_cons] at h
  simp [arrayWrite, h]

/-- An offset outside the arrays that are stored is none of theirs. -/
theorem arrayWrite_none_of_gap (c : Ctl) {off lo hi : Nat} (v : W64) (h : (storedRooms.all fun x => x.1 + 8 * x.2 ≤ lo || hi ≤ x.1) = true) (h1 : lo ≤ off)
    (h2 : off < hi) : arrayWrite c off v = none :=
  arrayWrite_none c v fun x hx => element_out (by decide) (by
    have hx' := List.all_eq_true.1 h x hx
    simp only [Bool.or_eq_true, decide_eq_true_eq] at hx'
    omega)

/-- A write between two bounds that no register outside arrays and no stored array reaches is that of an array of registers that act. -/
theorem exec_elementAct_of_gap (s : State) (lo hi : Nat) {off : Nat} (v : W64)
    (h : (((plainKeys ++ actKeys).all fun x => x < lo || hi ≤ x) && storedRooms.all fun x => x.1 + 8 * x.2 ≤ lo || hi ≤ x.1) = true) (h1 : lo ≤ off)
    (h2 : off < hi) : exec (.registerWrite off v) s = .next (elementAct s off v) := by
  obtain ⟨hk, ha⟩ := Bool.and_eq_true_iff.1 h
  have hm := notMem_of_gap hk h1 h2
  rw [List.mem_append, not_or] at hm
  exact exec_elementAct hm.1 (arrayWrite_none_of_gap s.ctl v ha h1 h2) hm.2

section
variable (s : State) (v : W64)

theorem elementAct_irqv {k : Nat} (h : k < 16) : elementAct s (0x0A80 + 8 * k) v = putIrqv s (k / 2) (putHalf (mget 0 s.ctl.irqv (k / 2)) k v) := by
  simp (disch := omega) [elementAct, element_in]

theorem elementAct_doorbell {k : Nat} (h : k < 4096) : elementAct s (0x10000 + 8 * k) v = doorbell s (k / 64) (k % 64) (v.setWidth 32) := by
  simp (disch := omega) [elementAct, element_in, element_out]

theorem elementAct_retest {k : Nat} (h : k < 64) : elementAct s (0x20000 + 8 * k) v = retest s k := by
  simp (disch := omega) [elementAct, element_in, element_out]

theorem elementAct_bank {k : Nat} (h : k < 16384 * 36) :
    elementAct s (0x100000 + 4 * k) v = if k % 16384 < 64 then bankWrite s (k / 16384) (k % 16384) (v.setWidth 32) else s := by
  simp (disch := omega) [elementAct, element_in, element_out, Config.nClusters]

theorem exec_doorbells {k q : Nat} (hk : k < 64) (hq : q < 64) :
    exec (.registerWrite (0x10000 + 8 * (64 * k + q)) v) s = exec (.launchDoorbell k q (v.setWidth 32)) s ∧
      exec (.registerWrite (0x20000 + 8 * k) v) s = exec (.eventDoorbell k) s := by
  constructor
  · rw [exec_elementAct_of_gap s 0x10000 0x18000 v (by decide) (by omega) (by omega), elementAct_doorbell s v (by omega)]
    have h1 : (64 * k + q) / 64 = k % 64 := by omega
    have h2 : (64 * k + q) % 64 = q % 64 := by omega
    rw [h1, h2]
    rfl
  · rw [exec_elementAct_of_gap s 0x20000 0x20200 v (by decide) (by omega) (by omega), elementAct_retest s v hk]
    have h1 : k = k % 64 := by omega
    exact congrArg (fun k => Host.Outcome.next (retest s k)) h1

theorem putHalf_of_bits (old x : BitVec 128) (k : Nat) (h1 : bits x.toNat (64 * (k % 2)) 64 = v.toNat)
    (h2 : bits x.toNat (64 * (1 - k % 2)) 64 = bits old.toNat (64 * (1 - k % 2)) 64) : putHalf old k v = x := by
  obtain ⟨h, l, rfl⟩ := halves old
  obtain ⟨h', l', rfl⟩ := halves x
  rw [putHalf_append]
  rw [bits_append] at h1
  rw [show 1 - k % 2 = (k + 1) % 2 by omega, bits_append, bits_append] at h2
  rcases Nat.mod_two_eq_zero_or_one k with hk | hk
  · rw [if_pos hk] at h1 ⊢
    rw [if_neg (by omega), if_neg (by omega)] at h2
    rw [BitVec.eq_of_toNat_eq h1, BitVec.eq_of_toNat_eq h2]
  · rw [if_neg (by omega)] at h1 ⊢
    rw [if_pos (by omega), if_pos (by omega)] at h2
    rw [BitVec.eq_of_toNat_eq h1, BitVec.eq_of_toNat_eq h2]

theorem exec_irqv {k : Nat} (x : BitVec 128) (hk : k < 10) (h1 : bits x.toNat (64 * (k % 2)) 64 = v.toNat)
    (h2 : bits x.toNat (64 * (1 - k % 2)) 64 = bits (mget 0 s.ctl.irqv (k / 2)).toNat (64 * (1 - k % 2)) 64) :
    exec (.registerWrite (0x0A80 + 8 * k) v) s = exec (.irqvWrite (k / 2) x) s := by
  rw [exec_elementAct_of_gap s 0x0A80 0x0B00 v (by decide) (by omega) (by omega), elementAct_irqv s v (by omega), putHalf_of_bits v _ x k h1 h2]
  rfl

theorem exec_bank {c b : Nat} (hc : c < Config.nClusters) (hb : b < 64) :
    exec (.registerWrite (0x100000 + 0x10000 * c + 4 * b) v) s = exec (.sbankctlWrite c b (v.setWidth 32)) s := by
  have hc' : c < 36 := hc
  have h1 : (16384 * c + b) / 16384 = c := by omega
  have h2 : (16384 * c + b) % 16384 = b := by omega
  rw [show 0x100000 + 0x10000 * c + 4 * b = 0x100000 + 4 * (16384 * c + b) by omega,
    exec_elementAct_of_gap s 0x100000 0x400000 v (by decide) (by omega) (by omega), elementAct_bank s v (by omega), h1, h2, if_pos hb]
  rfl

/-! ## Offsets that no register has -/

theorem element_none_of_inArray {off b st n : Nat} (h : inArray off b st n = false) : element off b st n = none := by
  rw [element, if_neg]
  simpa [inArray] using h

/-- The offsets outside arrays that software writes. -/
def writableKeys : List Nat := storedRegs.map Prod.fst ++ sizedRegs.map Prod.fst ++
  [0x0008, 0x0100, 0x0108, 0x0110, 0x0300, 0x0308, 0x0310, 0x0318, 0x0604, 0x0608, 0x0620, 0x0A28, 0x0A34, 0x0A60, 0x0D08, 0x0D14, 0x0D48, 0x0D90, 0x0DC0]

theorem keys_writable : ∀ x ∈ plainKeys ++ actKeys, x ∈ writableKeys := by decide

theorem elementAct_unwritable {off : Nat} (h1 : inArray off 0x0A80 8 10 = false) (h2 : inArray off 0x10000 8 4096 = false) (h3 : inArray off 0x20000 8 64 = false)
    (h4 : inArray off 0x100000 4 (16384 * Config.nClusters) = false ∨ 64 ≤ (off - 0x100000) / 4 % 16384) : elementAct s off v = s := by
  cases e1 : element off 0x0A80 8 16 with
  | some k =>
    obtain ⟨rfl, hk⟩ := element_eq_some e1
    have h10 : 10 ≤ k := by
      simp [inArray] at h1
      omega
    rw [elementAct_irqv s v hk, putIrqv, if_pos (by omega)]
  | none =>
    cases e4 : element off 0x100000 4 (16384 * Config.nClusters) with
    | none => simp [elementAct, e1, e4, element_none_of_inArray h2, element_none_of_inArray h3]
    | some k =>
      obtain ⟨rfl, hk⟩ := element_eq_some e4
      have hk' : k < 16384 * 36 := hk
      have hin : inArray (0x100000 + 4 * k) 0x100000 4 (16384 * Config.nClusters) = true := by
        simp [inArray, Config.nClusters]
        omega
      have hge : 64 ≤ k % 16384 := by
        have := h4.resolve_left (by simp [hin])
        omega
      rw [elementAct_bank s v hk', if_neg (by omega)]

theorem exec_unwritable {off : Nat} (h : writable off = false) : exec (.registerWrite off v) s = .next s := by
  simp only [writable, Bool.or_eq_false_iff, Bool.and_eq_false_iff] at h
  obtain ⟨⟨⟨⟨⟨⟨⟨hkeys, harr⟩, hport⟩, hirqv⟩, hbell⟩, hev⟩, hlane⟩, hbank⟩ := h
  have hk : ∀ x ∈ plainKeys ++ actKeys, off ≠ x := fun x hx e =>
    Bool.eq_false_iff.1 (show writableKeys.contains off = false from hkeys) (List.contains_iff_mem.2 (e ▸ keys_writable x hx))
  have ha : arrayWrite s.ctl off v = none := arrayWrite_none s.ctl v (by
    simp only [storedArrays, List.any_cons, List.any_nil, Bool.or_eq_false_iff] at harr
    obtain ⟨h1, h2, h3, h4, h5, h6, -⟩ := harr
    simp only [storedRooms, List.forall_mem_cons]
    exact ⟨element_none_of_inArray h1, element_none_of_inArray hport, element_none_of_inArray h2, element_none_of_inArray h3, element_none_of_inArray h4,
      element_none_of_inArray h5, element_none_of_inArray h6, element_none_of_inArray hlane, fun _ h => absurd h List.not_mem_nil⟩)
  rw [exec_elementAct (fun hm => hk off (List.mem_append_left _ hm) rfl) ha (fun hm => hk off (List.mem_append_right _ hm) rfl),
    elementAct_unwritable s v hirqv hbell hev (hbank.imp_right fun hd => Nat.le_of_not_lt (of_decide_eq_false hd))]

end

end Sys2Proof.Machine
end

