-- ==== Sys2Proof/Proofs/BankModes.lean ====
section
/-!
The banks' modes (R69, R70): what a write of MODE leaves of the bank and what a completed drain leaves of the cluster.
-/

namespace Sys2Proof.Machine

/-! ## A change of one bank -/

theorem clusterOf_modCluster (s : State) (c : Nat) (f : Cluster → Cluster) (x : Nat) :
    clusterOf (modCluster s c f) x = if x = c then f (clusterOf s c) else clusterOf s x := mget_mput _ _ _ _ _

theorem bankOf_modBank_same (s : State) (c b : Nat) (f : Bank → Bank) : bankOf (modBank s c b f) c b = f (bankOf s c b) := by
  unfold bankOf modBank
  rw [clusterOf_modCluster, if_pos rfl]
  exact mget_mput_same _ _ _ _

/-- The bank is all that a state differs in. -/
structure OnlyBank (s : State) (c b : Nat) (t : State) : Prop where
  state : t = { s with clusters := t.clusters }
  cluster : ∀ x, clusterOf t x = { clusterOf s x with banks := (clusterOf t x).banks }
  bank : ∀ x y, (x, y) ≠ (c, b) → bankOf t x y = bankOf s x y

theorem OnlyBank.refl (s : State) (c b : Nat) : OnlyBank s c b s := ⟨rfl, fun _ => rfl, fun _ _ _ => rfl⟩

theorem OnlyBank.trans {s t u : State} {c b : Nat} (h : OnlyBank s c b t) (h' : OnlyBank t c b u) : OnlyBank s c b u where
  state := h'.state.trans (by rw [h.state])
  cluster x := (h'.cluster x).trans (by rw [h.cluster x])
  bank x y hne := (h'.bank x y hne).trans (h.bank x y hne)

theorem onlyBank_modBank (s : State) (c b : Nat) (f : Bank → Bank) : OnlyBank s c b (modBank s c b f) where
  state := rfl
  cluster x := by
    unfold modBank
    rw [clusterOf_modCluster]
    split
    · subst x; rfl
    · rfl
  bank x y hne := by
    unfold bankOf modBank
    rw [clusterOf_modCluster]
    split
    · subst x
      exact mget_mput_other _ _ _ _ _ fun hy => hne (by rw [hy])
    · rfl

/-! ## A write of MODE -/

/-- The bank after a write of MODE (R70). -/
theorem bankMode_bank (s : State) (c b m : Nat) : OnlyBank s c b (bankMode s c b m) ∧ bankOf (bankMode s c b m) c b =
    if (bankOf s c b).target.isSome ∨ m = 3 then { bankOf s c b with err := true }
    else if m = (bankOf s c b).mode then bankOf s c b
    else if (bankOf s c b).mode ≠ 0 ∧ bankHeld s c b = true then { bankOf s c b with err := true }
    else { bankOf s c b with target := some m } := by
  unfold bankMode
  simp only [Bool.or_eq_true, Bool.and_eq_true, decide_eq_true_eq, bne_iff_ne]
  split
  · exact ⟨onlyBank_modBank _ _ _ _, bankOf_modBank_same _ _ _ _⟩
  split
  · exact ⟨.refl _ _ _, rfl⟩
  split
  · exact ⟨onlyBank_modBank _ _ _ _, bankOf_modBank_same _ _ _ _⟩
  · exact ⟨onlyBank_modBank _ _ _ _, bankOf_modBank_same _ _ _ _⟩

theorem bankWrite_of_none (s : State) {x b : Nat} (w : BitVec 32) (h : Config.nClusters ≤ x ∨ 64 ≤ b) : bankWrite s x b w = s := by
  unfold bankWrite
  rw [if_pos (by simpa [Config.nBanks] using h)]

theorem bankWrite_bank (s : State) {c b : Nat} (w : BitVec 32) (hc : c < Config.nClusters) (hb : b < 64) (e : Bool)
    (he : e = if bits w.toNat 7 1 = 1 then false else (bankOf s c b).err) : OnlyBank s c b (bankWrite s c b w) ∧ bankOf (bankWrite s c b w) c b =
    if (bankOf s c b).target.isSome ∨ w.toNat % 4 = 3 then { bankOf s c b with err := true }
    else if w.toNat % 4 = (bankOf s c b).mode then { bankOf s c b with err := e }
    else if (bankOf s c b).mode ≠ 0 ∧ bankHeld s c b = true then { bankOf s c b with err := true }
    else { bankOf s c b with err := e, target := some (w.toNat % 4) } := by
  obtain ⟨s0, hs0⟩ : ∃ s0, (if w.getLsbD 7 then modBank s c b fun k => { k with err := false } else s) = s0 := ⟨_, rfl⟩
  have hbit : bits w.toNat 7 1 = 1 ↔ w.getLsbD 7 = true := by
    rw [bits_one, BitVec.testBit_toNat]
    cases w.getLsbD 7 <;> simp
  have h0 : OnlyBank s c b s0 ∧ bankOf s0 c b = { bankOf s c b with err := e } ∧ bankHeld s0 c b = bankHeld s c b := by
    subst hs0 he
    simp only [hbit]
    split
    · exact ⟨onlyBank_modBank _ _ _ _, bankOf_modBank_same _ _ _ _, rfl⟩
    · exact ⟨.refl _ _ _, rfl, rfl⟩
  obtain ⟨hs, hk, hheld⟩ := h0
  obtain ⟨hm, hbank⟩ := bankMode_bank s0 c b (w.toNat % 4)
  have hw : bankWrite s c b w = bankMode s0 c b (w.toNat % 4) := by
    unfold bankWrite
    rw [if_neg (by simp only [Config.nBanks, Bool.or_eq_true, decide_eq_true_eq]; omega), hs0]
  rw [hw]
  refine ⟨hs.trans hm, ?_⟩
  rw [hbank, hk, hheld]

/-! ## A completed drain -/

theorem chooseFrom_free {α : Type} (s : State) (l : List α) : ∃ f, (chooseFrom s l).1 = { s with free := f } := by
  unfold chooseFrom
  split
  · exact ⟨s.free, rfl⟩
  · exact ⟨s.free, rfl⟩
  · exact ⟨_, rfl⟩

theorem giveUp_free : ∀ (n : Nat) (s : State) (l : List Nat), ∃ f, (giveUp n s l).1 = { s with free := f }
  | 0, s, _ => ⟨s.free, rfl⟩
  | n + 1, s, l => by
    obtain ⟨f, hf⟩ := chooseFrom_free s l
    obtain ⟨f', hf'⟩ := giveUp_free n (chooseFrom s l).1 (l.filter fun y => some y != (chooseFrom s l).2)
    exact ⟨f', hf'.trans (by rw [hf])⟩

theorem trimCache_lines (s : State) (c : Nat) : ∃ f l, trimCache s c = { s with free := f, l2c := l } := by
  obtain ⟨f, hf⟩ := giveUp_free ((mget [] s.l2c c).length - l2Lines s c) s (mget [] s.l2c c)
  refine ⟨f, mput [] s.l2c c (giveUp ((mget [] s.l2c c).length - l2Lines s c) s (mget [] s.l2c c)).2, ?_⟩
  have e : trimCache s c = { (giveUp ((mget [] s.l2c c).length - l2Lines s c) s (mget [] s.l2c c)).1 with
    l2c := mput [] (giveUp ((mget [] s.l2c c).length - l2Lines s c) s (mget [] s.l2c c)).1.l2c c
      (giveUp ((mget [] s.l2c c).length - l2Lines s c) s (mget [] s.l2c c)).2 } := rfl
  rw [e, hf]

theorem mget_filter {α : Type} (d : α) (p : Nat → Bool) (k : Nat) : ∀ m : SMap α, mget d (m.filter fun (a, _) => p a) k = if p k then mget d m k else d
  | [] => by simp [mget]
  | (a, v) :: m => by
    have ih := mget_filter d p k m
    by_cases hk : k = a
    · subst hk
      cases hp : p k <;> simp [mget, hp, ih]
    · cases hp : p a <;> simp [mget, hp, hk, ih]

/-- A bank that is zeroed reads as zero, and no other byte of the SRAM changes. -/
theorem sram_zeroBank (k : Cluster) (b o : Nat) : mget 0 (zeroBank k b).sram o =
    if b * Config.bankBytes ≤ o ∧ o < (b + 1) * Config.bankBytes then 0 else mget 0 k.sram o := by
  have e : (zeroBank k b).sram = k.sram.filter fun (a, _) => !(decide (b * Config.bankBytes ≤ a) && decide (a < (b + 1) * Config.bankBytes)) := rfl
  rw [e, mget_filter 0 (fun a => !(decide (b * Config.bankBytes ≤ a) && decide (a < (b + 1) * Config.bankBytes)))]
  by_cases h : b * Config.bankBytes ≤ o ∧ o < (b + 1) * Config.bankBytes
  · rw [if_pos h, if_neg (by simp only [h.1, h.2]; decide)]
  · rw [if_neg h, if_pos (by simpa only [Bool.not_eq_true', Bool.and_eq_false_iff, decide_eq_false_iff_not, ← not_and_or] using h)]

theorem drain_of_none (s : State) {c b : Nat} (h : (bankOf s c b).target = none) : exec (.sbankDrainComplete c b) s = .next s := by
  show execSbankDrainComplete c b s = _
  unfold execSbankDrainComplete
  rw [h]

/-- A drained bank has its new mode and is zero (R70). -/
theorem goes_drain (s : State) {c b m : Nat} (h : (bankOf s c b).target = some m) : Goes (.sbankDrainComplete c b) s fun t => t.mem = s.mem ∧
    bankOf t c b = { bankOf s c b with mode := m, target := none } ∧ (∀ x y, (x, y) ≠ (c, b) → bankOf t x y = bankOf s x y) ∧
    ∀ x o, mget 0 (clusterOf t x).sram o =
      if x = c ∧ b * Config.bankBytes ≤ o ∧ o < (b + 1) * Config.bankBytes then 0 else mget 0 (clusterOf s x).sram o := by
  obtain ⟨s1, hs1⟩ : ∃ s1, modCluster (forgetPad s c (b * Config.bankBytes) ((b + 1) * Config.bankBytes)) c (fun k => zeroBank k b) = s1 := ⟨_, rfl⟩
  obtain ⟨s2, hs2⟩ : ∃ s2, modBank s1 c b (fun k => { k with mode := m, target := none }) = s2 := ⟨_, rfl⟩
  obtain ⟨f, l, ht⟩ := trimCache_lines s2 c
  have hexec : exec (.sbankDrainComplete c b) s = .next (trimCache s2 c) := by
    show execSbankDrainComplete c b s = _
    unfold execSbankDrainComplete
    rw [h, ← hs2, ← hs1]
  have hcl : ∀ x, clusterOf s1 x = if x = c then zeroBank (clusterOf s c) b else clusterOf s x := fun x => by
    rw [← hs1]
    exact clusterOf_modCluster _ _ _ x
  have hbanks : ∀ x y, bankOf s1 x y = bankOf s x y := fun x y => by
    unfold bankOf
    rw [hcl]
    split
    · subst x; rfl
    · rfl
  have hmem : s2.mem = s.mem := by
    rw [← hs2, ← hs1]
    rfl
  have hone := onlyBank_modBank s1 c b fun k => { k with mode := m, target := none }
  have hsame := bankOf_modBank_same s1 c b fun k => { k with mode := m, target := none }
  rw [hs2] at hone hsame
  refine ⟨_, hexec, ?_⟩
  rw [ht]
  refine ⟨hmem, ?_, fun x y hne => ?_, fun x o => ?_⟩
  · exact hsame.trans (by rw [hbanks])
  · exact (hone.bank x y hne).trans (hbanks x y)
  · have hsram : (clusterOf s2 x).sram = (clusterOf s1 x).sram := by rw [hone.cluster x]
    refine (congrArg (mget 0 · o) hsram).trans ?_
    rw [hcl]
    by_cases hx : x = c
    · subst hx
      rw [if_pos rfl, sram_zeroBank]
      simp only [true_and]
    · rw [if_neg hx, if_neg fun hh => hx hh.1]

end Sys2Proof.Machine

namespace Sys2Proof
open Machine

/-- Settles O55: registers that are stored (`regs_stored`, `arrays_stored`, `sized_stored` and the `wroteReg_` lemmas), those that act (the `exec_` lemmas), and
the banks (`bankWrite_bank`, `goes_drain`). -/
theorem registerWritesActAsTheirRegister : Obligations.RegisterWritesActAsTheirRegister := by
  intro s c v hc
  refine ⟨fun off => ⟨_, exec_registerWrite s off v⟩, regs_stored s v, arrays_stored s v, sized_stored s v, wroteReg_errc s v, w1c_stored s v, wroteReg_pwrcap s v,
    fun k => wroteReg_fport s v, fun k => wroteReg_lnc s v, wroteReg_fcfg s v, goes_fcfg s v, exec_plainWrite rfl, exec_plainWrite rfl, exec_plainWrite rfl,
    exec_plainWrite rfl, fun off => exec_unwritable s v, fun n k a => exec_cmd_word s a, exec_cmd_refused s v, exec_mcmd s, exec_dbgop s, exec_ftcmd s hc,
    exec_ckcmd s, exec_bells s v, fun k q => exec_doorbells s v, fun k x => exec_irqv s v x, fun b => exec_bank s v hc, fun x b w h => ?_,
    fun b m w k e hb hk hm he => ?_, fun b => drain_of_none s, fun b m k hk hm => ?_⟩
  · exact congrArg Host.Outcome.next (bankWrite_of_none s w h)
  · subst hk hm
    obtain ⟨ho, hbank⟩ := bankWrite_bank s w hc hb e he
    exact ⟨_, rfl, ho.state, ho.cluster, ho.bank, hbank⟩
  · subst hk
    exact goes_drain s hm

end Sys2Proof
end

