-- ==== Sys2Proof/Proofs/Turns.lean ====
section
/-!
Turns (R22, R23, R98): a turn of the agenda runs the word it fetches, or its event.
-/

namespace Sys2Proof.Machine

/-! ## The turns of the agenda -/

theorem step_issue_run {s s1 : State} {ts : List Turn} {w : Who} {l : Nat} {i : Instr} (ha : s.agenda = .issue w l :: ts)
    (ht : turnIssue { s with agenda := ts } w l = (s1, some i)) : step s = exec i s1 :=
  step_run (by unfold nextTurn; rw [ha]; show issueTurn _ w l = _; unfold issueTurn; rw [ht])

theorem step_issue_over {s s1 : State} {ts : List Turn} {w : Who} {l : Nat} (ha : s.agenda = .issue w l :: ts)
    (ht : turnIssue { s with agenda := ts } w l = (s1, none)) : step s = .next s1 :=
  step_over (by unfold nextTurn; rw [ha]; show issueTurn _ w l = _; unfold issueTurn; rw [ht])

theorem step_event {s : State} {ts : List Turn} {i : Instr} (ha : s.agenda = .event i :: ts) (he : encode i = none)
    (hw : ∀ w, i ≠ .nonInstructionWord w) : step s = exec i { s with agenda := ts } := by
  refine step_run ?_
  unfold nextTurn
  rw [ha]
  show takeTurn _ (.event i) = _
  simp only [takeTurn, he, Option.isSome_none, Bool.false_eq_true, if_false]

/-- A path that may issue, whose word its group may execute, comes to the instruction that the word decodes to. -/
theorem turnIssue_fetched {s s1 : State} {w : Who} {l : Nat} {g : Group} {x : BitVec 32} {c : Ctx} {i : Instr} (hg : findGroup s w = some g)
    (hp : pathOf g l ≠ 0) (hm : pathMayIssue s g l = true)
    (hf : fetchWord (takeTurnOf (takePosition s g) g) g (lowestLane (pathOf g l)) = (s1, .word x))
    (hc : issuer { s1 with cur := some { who := w, lanes := pathOf g l, pc := (g.lane l).pc } } = some c)
    (hk : matrixMajor x = true → g.key.isSome = true) (hd : decode x = .ok i) :
    turnIssue s w l = ({ s1 with cur := some { who := w, lanes := pathOf g l, pc := (g.lane l).pc } }, some i) := by
  have hmat : (matrixMajor x && g.key.isNone) = false := by
    cases h : matrixMajor x
    · rfl
    · rw [Option.isNone_eq_false_iff.mpr (hk h)]; rfl
  unfold turnIssue
  simp only [hg, hp, hm, decide_false, Bool.not_true, Bool.or_false, Bool.false_eq_true, if_false, hf, hc, hmat, hd]

/-! ## The fetch -/

/-- A place in memory none of whose writes may be missed is fetched as it stands. -/
theorem fetchSpot_standing (s : State) (tile : Nat) (o n : Nat) (t : Tr) (pa : Nat) (hz : leafBit t.leaf 15 = false) (hp : s.past = []) :
    fetchSpot s tile (.mem o n t pa) = (s, BitVec.ofNat 32 (ofBytes (physRead s pa n))) := by
  simp [fetchSpot, hz, hp, pastValues, chooseFrom]

theorem fetchWord_standing {s s1 : State} {g : Group} {l o : Nat} {t : Tr} {pa : Nat}
    (hl : lookAt s (laneEnv s g l) .fetch (g.lane l).pc.toNat 4 = (s1, .hit [.mem o 4 t pa])) (hz : leafBit t.leaf 15 = false)
    (hp : (touchSpots s1 (laneEnv s g l) .fetch [.mem o 4 t pa]).past = []) :
    fetchWord s g l = (touchSpots s1 (laneEnv s g l) .fetch [.mem o 4 t pa],
      .word (BitVec.ofNat 32 (ofBytes (physRead (touchSpots s1 (laneEnv s g l) .fetch [.mem o 4 t pa]) pa 4)))) := by
  unfold fetchWord
  simp only [hl, fetchSpot_standing _ _ _ _ _ _ hz hp]

/-- Settles O58. -/
theorem stepRunsTheFetchedInstruction : Obligations.StepRunsTheFetchedInstruction := fun _ _ =>
  ⟨fun _ _ _ _ ha ht => step_issue_run ha ht, fun _ _ _ ha ht => step_issue_over ha ht,
   fun _ _ _ _ _ _ _ hg hp hm hf hc hk hd => turnIssue_fetched hg hp hm hf hc hk hd,
   fun _ _ _ _ _ _ hl hz hp => fetchWord_standing hl hz hp, fun _ ha he hw => step_event ha he hw, fun _ _ h => step_dev h, runDev_exec⟩

end Sys2Proof.Machine
end

