-- ==== Sys2Proof/Proofs/EffectsOnGroups.lean ====
section
/-!
Effects on groups: an instruction whose effect leaves the other groups as they were completes, whatever it changes of its own group and outside
the groups.
-/

namespace Sys2Proof.Machine

/-! ## What an effect leaves of the other groups -/

/-- Two groups of one name and place that hold the same registers: they draw the same slots from the file of their core (R37). -/
structure SameHolds (x y : Group) : Prop where
  key : y.key = x.key
  team : y.team = x.team
  idx : y.idx = x.idx
  core : y.core = x.core
  away : y.away = x.away
  regs : y.regs = x.regs

theorem SameHolds.refl (x : Group) : SameHolds x x := ⟨rfl, rfl, rfl, rfl, rfl, rfl⟩

theorem SameHolds.trans {x y z : Group} (h : SameHolds x y) (k : SameHolds y z) : SameHolds x z :=
  ⟨k.key.trans h.key, k.team.trans h.team, k.idx.trans h.idx, k.core.trans h.core, k.away.trans h.away, k.regs.trans h.regs⟩

theorem SameHolds.who {x y : Group} (h : SameHolds x y) : y.who = x.who := who_eq (by rw [h.key]) h.team h.idx

/-- What `finish` looks at outside one group is as it was: the names of the groups, what the other groups hold, what is saved or frozen, where the teams
are and which quarters they hold. -/
structure OthersKept (w : Who) (s t : State) : Prop where
  groups : List.Forall₂ (fun x y : Group => y.who = x.who ∧ (x.who ≠ w → SameHolds x y)) s.groups t.groups
  vault : t.vault = s.vault
  saved : t.saved = s.saved
  teams : ∀ k, (teamOf t k).cluster = (teamOf s k).cluster ∧ (teamOf t k).quarters = (teamOf s k).quarters

theorem OthersKept.of_eq {w : Who} {s t : State} (hg : t.groups = s.groups) (hv : t.vault = s.vault) (hs : t.saved = s.saved) (ht : t.teams = s.teams) :
    OthersKept w s t where
  groups := by rw [hg]; exact List.forall₂_same.mpr fun x _ => ⟨rfl, fun _ => .refl x⟩
  vault := hv
  saved := hs
  teams := fun k => by unfold teamOf findTeam; rw [ht]; exact ⟨rfl, rfl⟩

theorem OthersKept.refl (w : Who) (s : State) : OthersKept w s s := .of_eq rfl rfl rfl rfl

theorem OthersKept.of_kept {w : Who} {s t : State} (h : Kept s t) : OthersKept w s t := .of_eq h.groups h.vault h.saved h.teams

theorem forall₂_trans {α : Type} {P : α → α → Prop} (hP : ∀ x y z, P x y → P y z → P x z) : ∀ {l m n : List α}, List.Forall₂ P l m → List.Forall₂ P m n →
    List.Forall₂ P l n
  | _, _, _, .nil, .nil => .nil
  | _, _, _, .cons h hs, .cons k ks => .cons (hP _ _ _ h k) (forall₂_trans hP hs ks)

theorem OthersKept.trans {w : Who} {a b c : State} (h : OthersKept w a b) (k : OthersKept w b c) : OthersKept w a c where
  groups := forall₂_trans (fun _ _ _ p q => ⟨q.1.trans p.1, fun hx => (p.2 hx).trans (q.2 (by rwa [p.1]))⟩) h.groups k.groups
  vault := k.vault.trans h.vault
  saved := k.saved.trans h.saved
  teams := fun n => ⟨(k.teams n).1.trans (h.teams n).1, (k.teams n).2.trans (h.teams n).2⟩

/-- A function applied to the groups of one name. -/
theorem othersKept_modGroup {w v : Who} (s : State) (f : Group → Group) (hf : ∀ g, (f g).who = g.who) (hv : v ≠ w → ∀ g, SameHolds g (f g)) :
    OthersKept w s (modGroup s v f) where
  groups := by
    show List.Forall₂ _ s.groups (s.groups.map _)
    rw [List.forall₂_map_right_iff]
    refine List.forall₂_same.mpr fun x _ => ?_
    by_cases hx : x.who = v
    · simp only [hx, decide_true, if_true]
      exact ⟨(hf x).trans hx, fun hw => hv hw x⟩
    · simp only [hx, decide_false, Bool.false_eq_true, if_false]
      exact ⟨trivial, fun _ => .refl x⟩
  vault := rfl
  saved := rfl
  teams := fun _ => ⟨rfl, rfl⟩

theorem othersKept_own (s : State) (w : Who) (f : Group → Group) (hf : ∀ g, (f g).who = g.who) : OthersKept w s (modGroup s w f) :=
  othersKept_modGroup s f hf fun h => absurd rfl h

theorem othersKept_fillOps (c : Ctx) (i : Instr) : OthersKept c.g.who c.s (fillOps c i).s := by
  unfold fillOps
  dsimp only
  split
  · have hs := same_fillRegs c.s (namedRegs c.g i) (((opndsOf c.g i).filter fun o => o.fill && (o.rd || c.g.live &&& ~~~c.act != 0)).flatMap (opndRegs c.g)) c.g
    have hw := hs.who
    refine ⟨?_, rfl, rfl, fun _ => ⟨rfl, rfl⟩⟩
    show List.Forall₂ _ c.s.groups (c.s.groups.map _)
    rw [List.forall₂_map_right_iff]
    refine List.forall₂_same.mpr fun x _ => ?_
    rw [hw]
    by_cases hx : x.who = c.g.who
    · simp only [hx, decide_true, if_true, ne_eq, not_true_eq_false, false_implies, and_true]
      exact hw
    · simp only [hx, decide_false, Bool.false_eq_true, if_false]
      exact ⟨trivial, fun _ => .refl x⟩
  · exact .refl _ _

/-! ## The register file, where the groups hold the same -/

section sameHolds

variable {s t : State} (hg : List.Forall₂ SameHolds s.groups t.groups) (hv : t.vault = s.vault) (hs : t.saved = s.saved)
  (ht : ∀ k, (teamOf t k).cluster = (teamOf s k).cluster ∧ (teamOf t k).quarters = (teamOf s k).quarters)

theorem firstKey_holds (team : Nat) (rest : List Group) : ∀ {l m : List Group}, List.Forall₂ SameHolds l m →
    (firstWhere (fun g : Group => g.key.isSome && g.team == team) (m ++ rest)).bind (·.key)
      = (firstWhere (fun g : Group => g.key.isSome && g.team == team) (l ++ rest)).bind (·.key)
  | _, _, .nil => rfl
  | x :: _, y :: _, .cons h hs => by
    simp only [List.cons_append, firstWhere, h.key, h.team]
    split
    · simp [h.key]
    · exact firstKey_holds team rest hs

include hg hv hs in
theorem keyOf_holds (team : Nat) : keyOf t team = keyOf s team := by
  have hi : imagedGroups t = imagedGroups s := by unfold imagedGroups; rw [hv]
  have hd : savedGroups t = savedGroups s := by unfold savedGroups; rw [hs]
  unfold keyOf
  rw [hi, hd]
  exact firstKey_holds team _ hg

include hg hv hs ht in
theorem pinned_holds {x y : Group} (h : SameHolds x y) (r : Nat) : pinned t y r = pinned s x r := by
  unfold pinned
  rw [h.key, h.team, h.idx, (ht x.team).2, keyOf_holds hg hv hs]

include ht in
theorem groupTile_holds {x y : Group} (h : SameHolds x y) : groupTile t y = groupTile s x := by
  unfold groupTile
  rw [h.team, h.core, (ht x.team).1]

theorem sumMap_holds {f k : Group → Nat} : ∀ {l m : List Group}, List.Forall₂ SameHolds l m → (∀ x y, SameHolds x y → k y = f x) →
    (m.map k).sum = (l.map f).sum
  | _, _, .nil, _ => rfl
  | _, _, .cons h hs, e => by simp only [List.map_cons, List.sum_cons, e _ _ h, sumMap_holds hs e]

theorem foldl_holds {α : Type} {f : α → Group → α} (e : ∀ a x y, SameHolds x y → f a y = f a x) : ∀ {l m : List Group} (a : α), List.Forall₂ SameHolds l m →
    m.foldl f a = l.foldl f a
  | _, _, _, .nil => rfl
  | _, _, a, .cons h hs => by simp only [List.foldl_cons, e a _ _ h]; exact foldl_holds e _ hs

include hg hv in
theorem keptBlocks_holds (tile : Nat) : keptBlocks t tile = keptBlocks s tile := by
  have hi : imagedGroups t = imagedGroups s := by unfold imagedGroups; rw [hv]
  unfold keptBlocks
  rw [hi, List.foldl_append, List.foldl_append]
  congr 1
  exact foldl_holds (fun a x y h => by rw [h.key, h.team]) _ hg

include hg hv hs ht in
theorem fileUse_holds (tile : Nat) : fileUse t tile = fileUse s tile := by
  rw [fileUse_eq, fileUse_eq]
  congr 1
  · refine sumMap_holds hg fun x y h => ?_
    simp only [drawn, groupSlots, h.key, h.away, h.regs, groupTile_holds ht h, pinned_holds hg hv hs ht h]
  · unfold keptSlots
    rw [keptBlocks_holds hg hv]

include hg hv hs ht in
theorem parkUse_holds (tile : Nat) : parkUse t tile = parkUse s tile := by
  unfold parkUse
  rw [sumNat_eq, sum_filter_map, sumNat_eq, sum_filter_map]
  refine sumMap_holds hg fun x y h => ?_
  simp only [h.key, h.away, h.regs, groupTile_holds ht h, pinned_holds hg hv hs ht h]

end sameHolds

theorem setGroup_holds {w : Who} {s t : State} (h : OthersKept w s t) {G : Group} (hG : G.who = w) :
    List.Forall₂ SameHolds (setGroup s G).groups (setGroup t G).groups := by
  show List.Forall₂ _ (s.groups.map _) (t.groups.map _)
  rw [List.forall₂_map_left_iff, List.forall₂_map_right_iff, hG]
  refine h.groups.imp fun x y hxy => ?_
  by_cases hx : x.who = w
  · simp only [hxy.1, hx, decide_true, if_true]; exact .refl G
  · simp only [hxy.1, hx, decide_false, Bool.false_eq_true, if_false]; exact hxy.2 hx

/-! ## An instruction whose effect leaves the other groups as they were -/

/-- The effect of an instruction leaves a group to retire it, of the same name and place, with slots for at most eight more registers, and all that
`finish` looks at outside this group. -/
structure Leaves (s : State) (i : Instr) (c : Ctx) (r : Res) (g : Group) : Prop where
  wait : r.wait = none
  others : OthersKept c.g.who s r.s
  found : findGroup r.s c.g.who = some g
  key : g.key.isSome = c.g.key.isSome
  team : g.team = c.g.team
  idx : g.idx = c.g.idx
  core : g.core = c.g.core
  away : g.away = c.g.away
  room : groupSlots g + 32 * r.regs.length ≤ groupSlots (fillOps c i).g + 256

/-- An instruction that runs has its own effect. -/
theorem issue_finish {s : State} {i : Instr} {c : Ctx} (h : Runs s i c) {body : Ctx → Res} {r : Res} (hb : body (fillOps c i) = r) :
    issue i s body = .next (finish c i r) := by
  obtain ⟨-, hcs, -⟩ := issuer_find s c h.path
  have hne : ¬(decide (c.act = 0) && !i.isPath) = true := by
    rcases h.active with h1 | h1
    · rw [decide_eq_false h1]; simp
    · rw [h1]; simp
  unfold issue
  rw [h.path]
  simp only [issueOn]
  rw [if_neg hne, h.clear]
  simp only
  rw [hcs, if_neg (by rw [h.free]; decide), h.ready]
  simp only [hb]

/-- The instruction retires: nothing waits for room, and the lanes that met causes take them. -/
theorem issue_leaves {s : State} {i : Instr} {c : Ctx} (h : Runs s i c) {body : Ctx → Res} {r : Res} {g : Group} (hb : body (fillOps c i) = r)
    (hl : Leaves s i c r g) :
    issue i s body = .next (raise (noteScript c (setGroup (uncur r.s) (retire r.s c i r g (c.act &&& ~~~stoppedOf r) (stoppedOf r))))
      c.g.who (c.act &&& ~~~stoppedOf r) r.hits) := by
  obtain ⟨-, hcs, -⟩ := issuer_find s c h.path
  rw [issue_finish h hb]
  congr 1
  have hstop : (laneSet fun l => r.hits.any fun h => h.lane == l) = stoppedOf r := rfl
  unfold finish
  simp only [hl.wait, hl.found, hstop]
  generalize hG : retire r.s c i r g (c.act &&& ~~~stoppedOf r) (stoppedOf r) = G
  have hE := retire_eq r.s c i r g (c.act &&& ~~~stoppedOf r) (stoppedOf r)
  rw [hG] at hE
  have hGk : G.key = g.key := by rw [hE]
  have hGw : G.who = c.g.who := who_eq (by rw [hGk]; exact hl.key) (by rw [hE]; exact hl.team) (by rw [hE]; exact hl.idx)
  have hGa : G.away = c.g.away := by rw [hE]; exact hl.away
  have htile : groupTile (setGroup (uncur r.s) G) g = groupTile s c.g := by
    have e : groupTile (setGroup (uncur r.s) G) g = groupTile r.s g := rfl
    rw [e]; unfold groupTile; rw [hl.team, hl.core, (hl.others.teams _).1]
  rw [htile, hcs]
  cases hk : c.g.key with
  | some k =>
    have hgk : g.key.isSome = true := by rw [hl.key, hk]; rfl
    have hgn : g.key.isNone = false := Option.isNone_eq_false_iff.mpr hgk
    simp only [hgk, hgn, if_true, Bool.false_and, Bool.false_eq_true, if_false]
  | none =>
    have hgk : g.key.isSome = false := by rw [hl.key, hk]; rfl
    have hGn : G.key = c.g.key := by
      rw [hGk, hk]; exact Option.not_isSome_iff_eq_none.mp (by simp [hgk])
    have hslots : groupSlots G ≤ groupSlots c.g + 64 * (namedRegs c.g i).length + 256 := by
      have e : groupSlots G = groupSlots (writeBack r.s c i r.regs (c.act &&& ~~~stoppedOf r &&& r.only) g) := by rw [hE]; rfl
      have h1 := writeBack_slots r.s c i r.regs (c.act &&& ~~~stoppedOf r &&& r.only) g
      have h2 := fillOps_slots c i
      have h3 := hl.room
      omega
    obtain ⟨hna, huse⟩ := fileUse_retired hk h.room hGw hGn hGa hslots
    have ho : OthersKept c.g.who s (uncur r.s) := ⟨hl.others.groups, hl.others.vault, hl.others.saved, hl.others.teams⟩
    have hh := setGroup_holds ho hGw
    have hfits : fileUse (setGroup (uncur r.s) G) (groupTile s c.g) ≤ Config.fileSlots := by
      rw [fileUse_holds (s := setGroup s G) hh ho.vault ho.saved ho.teams]; exact huse
    have hpark : parkUse (setGroup (uncur r.s) G) (groupTile s c.g) ≤ parkUse s (groupTile s c.g) := by
      rw [parkUse_holds (s := setGroup s G) hh ho.vault ho.saved ho.teams]
      exact parkUse_set s G _ (hGn.trans hk) hna
    have hok : roomOk s (groupTile s c.g) = true → roomOk (setGroup (uncur r.s) G) (groupTile s c.g) = true := by
      simp only [roomOk, Bool.and_eq_true, decide_eq_true_eq]
      exact fun h => ⟨hfits, Nat.le_trans hpark h.2⟩
    simp only [hgk, Bool.false_eq_true, if_false, makeRoom_fits _ _ _ hfits]
    rw [if_neg]
    intro hx
    simp only [Bool.and_eq_true, Bool.not_eq_true'] at hx
    exact absurd (hok hx.2) (by rw [hx.1.2]; decide)

/-- An instruction whose effect waits. -/
theorem issue_waits {s : State} {i : Instr} {c : Ctx} (h : Runs s i c) {body : Ctx → Res} {r : Res} (hb : body (fillOps c i) = r) {k : WaitKind} {a : W64}
    (hw : r.wait = some (k, a)) : issue i s body = .next (waitState (if r.keep then r.s else s) c.g.who i k c.path c.pc a) := by
  obtain ⟨-, hcs, -⟩ := issuer_find s c h.path
  rw [issue_finish h hb]
  simp only [finish, hw, hcs]

/-- An instruction with which its group ends. -/
theorem issue_ends {s : State} {i : Instr} {c : Ctx} (h : Runs s i c) {body : Ctx → Res} {r : Res} (hb : body (fillOps c i) = r) (hw : r.wait = none)
    (hg : findGroup r.s c.g.who = none) : issue i s body = .next (noteScript c (uncur r.s)) := by
  rw [issue_finish h hb]
  simp only [finish, hw, hg]

/-- An instruction whose effect leaves a group `g1` but for registers that were filled back, and the state `s'` outside it, completes. -/
theorem completes_leaves {s s' : State} {i : Instr} {c : Ctx} (h : Runs s i c) {body : Ctx → Res} {r : Res} {g g1 : Group}
    {ds : List (Nat × (Nat → W32))} (he : exec i s = issue i s body) (hb : body (fillOps c i) = r) (hh : r.hits = []) (hl : Leaves s i c r g)
    (hsame : SameBut g1 g) (hsh : ∀ x, (g.reg x).shape = (g1.reg x).shape) (hdue : dueSub g1 = none) (hcy : r.s.cycle = s.cycle)
    (hout : ∀ G : Group, G.who = c.g.who → setGroup (uncur r.s) G = setGroup (uncur s') G)
    (hgv : Gives (after c (fun _ => g1) r) r.regs ds) (hn : (ds.map (·.1)).Nodup) :
    Completes s s' i (after c (fun _ => g1) r) (r.masks.foldl (fun g (x : Nat × W32) => g.setMask x.1 x.2) g1).masks r.flags (nextPc r c.pc) ds := by
  obtain ⟨hwent, hpend, hregs⟩ := retire_went (i := i) r (fun _ => g1) g ds hcy hsame hsh hgv hn
  rw [stopped_none hh, but_none] at hwent hpend hregs
  rw [but_none] at hpend
  have hE := retire_eq r.s c i r g c.act 0
  have hkey : (retire r.s c i r g c.act 0).key = g.key := by rw [hE]
  have hGw : (retire r.s c i r g c.act 0).who = c.g.who :=
    who_eq (by rw [hkey]; exact hl.key) (by rw [hE]; exact hl.team) (by rw [hE]; exact hl.idx)
  have hfound : findGroup (setGroup (uncur r.s) (retire r.s c i r g c.act 0)) c.g.who = some (retire r.s c i r g c.act 0) := by
    rw [← hGw]; exact findGroup_setGroup _ _ g (by rw [hGw]; exact hl.found)
  have hcalm : dueSub (retire r.s c i r g c.act 0) = none := by
    rw [dueSub_eq (h := g1) (by rw [hkey, hsame.key]) (by rw [hE]; exact hsame.subs)]; exact hdue
  obtain ⟨x, hx⟩ := noteScript_find c _ _ _ hfound
  have hwin : windowed s i = opensWindow i c.act := by unfold windowed; rw [h.path]; rfl
  refine ⟨retire r.s c i r g c.act 0, ?_, by unfold flagsAfter; rw [hwin]; exact hwent, fun c0 h0 => ?_, hregs⟩
  · have hsc : ∀ x, scripted s x = noteScript c x := fun x => by unfold scripted; rw [h.path]
    rw [he, issue_leaves h hb hl, stopped_none hh, but_none, hh, raise_nil _ _ _ _ hx (by rw [← hcalm]; rfl), hsc]
    congr 2
    exact hout _ hGw
  · rw [h.path] at h0
    cases h0
    exact ⟨r.load, hpend⟩

/-! ## The state that an effect reaches -/

theorem findGroup_modGroup_same (s : State) (w : Who) (f : Group → Group) (hf : ∀ g, (f g).who = g.who) :
    findGroup (modGroup s w f) w = (findGroup s w).map f :=
  firstWhere_mapWhere_same _ _ (fun x hx => by simpa [hf] using hx) _

theorem findGroup_modGroup_other (s : State) {v w : Who} (h : v ≠ w) (f : Group → Group) (hf : ∀ g, (f g).who = g.who) :
    findGroup (modGroup s v f) w = findGroup s w := by
  unfold findGroup modGroup mapWhere
  induction s.groups with
  | nil => rfl
  | cons x l ih =>
    simp only [List.map_cons, firstWhere]
    simp only at ih
    by_cases hx : x.who = v
    · have hw : ¬x.who = w := fun e => h (hx.symm.trans e)
      have hw' : ¬v = w := h
      simp only [hx, decide_true, if_true, hf, hw', decide_false, Bool.false_eq_true, if_false, ih]
    · simp only [hx, decide_false, Bool.false_eq_true, if_false, ih]

theorem setGroup_modGroup_own (s : State) (f : Group → Group) (hf : ∀ g, (f g).who = g.who) (G : Group) :
    setGroup (modGroup s G.who f) G = setGroup s G := by
  unfold setGroup modGroup
  simp only
  congr 1
  exact mapWhere_mapWhere _ _ _ (fun x hx => by simpa [hf] using hx) _

theorem modGroup_comm (s : State) {v w : Who} (h : v ≠ w) (f k : Group → Group) (hf : ∀ g, g.who = w → (f g).who = w)
    (hk : ∀ g, g.who = v → (k g).who = v) : modGroup (modGroup s w f) v k = modGroup (modGroup s v k) w f := by
  unfold modGroup mapWhere
  simp only [List.map_map]
  congr 1
  refine List.map_congr_left fun x _ => ?_
  simp only [Function.comp]
  by_cases hw : x.who = w
  · have hv : ¬w = v := fun e => h e.symm
    simp [hw, hf x hw, hv]
  · by_cases hv : x.who = v
    · simp [hv, hk x hv, h]
    · simp [hw, hv]

/-- The state `t` that an effect has reached: the issuing group is as it issued, with its operands filled back, but for `f`; outside it the state is
`s'`. -/
structure Reached (s s' : State) (i : Instr) (c : Ctx) (f : Group → Group) (t : State) : Prop where
  others : OthersKept c.g.who s t
  found : findGroup t c.g.who = some (f (fillOps c i).g)
  cycle : t.cycle = s.cycle
  outside : ∀ G : Group, G.who = c.g.who → setGroup (uncur t) G = setGroup (uncur s') G

theorem uncur_setGroup (s : State) (G : Group) : setGroup (uncur s) G = uncur (setGroup s G) := rfl

theorem Reached.start {s : State} {i : Instr} {c : Ctx} (h : Runs s i c) : Reached s s i c id (fillOps c i).s := by
  obtain ⟨hf, hcs, -⟩ := issuer_find s c h.path
  refine ⟨by have := othersKept_fillOps c i; rwa [hcs] at this, fillOps_find c i (by rw [hcs]; exact hf), ?_, fun G hG => ?_⟩
  · rw [← hcs]; unfold fillOps; dsimp only; split <;> rfl
  · rw [uncur_setGroup, uncur_setGroup, fillOps_set c i G hG, hcs]

/-- An instruction whose operands are in registers starts where it issued. -/
theorem Reached.filled {s : State} {i : Instr} {c : Ctx} (h : Runs s i c) (hfill : Filled c i) : Reached s s i c id s := by
  have hs := Reached.start h
  obtain ⟨-, hcs, -⟩ := issuer_find s c h.path
  rwa [show fillOps c i = c from hfill, hcs] at hs

section reached

variable {s s' t : State} {i : Instr} {c : Ctx} {f : Group → Group}

/-- Outside the issuing group it does not matter what the group was. -/
theorem Reached.but_own (h : Reached s s' i c f t) {k : Group → Group} (hk : ∀ g, (k g).who = g.who) : Reached s (modGroup s' c.g.who k) i c f t :=
  ⟨h.others, h.found, h.cycle, fun G hG => by
    rw [h.outside G hG, ← hG, uncur_setGroup, uncur_setGroup, setGroup_modGroup_own _ _ hk]⟩

/-- The effect changes the issuing group. -/
theorem Reached.own (h : Reached s s' i c f t) {k : Group → Group} (hk : ∀ g, (k g).who = g.who) :
    Reached s s' i c (fun g => k (f g)) (modGroup t c.g.who k) := by
  refine ⟨h.others.trans (othersKept_own _ _ _ hk), by rw [findGroup_modGroup_same _ _ _ hk, h.found]; rfl, h.cycle, fun G hG => ?_⟩
  rw [← h.outside G hG, ← hG, uncur_setGroup, uncur_setGroup, setGroup_modGroup_own _ _ hk]

/-- Another group changes, but not what it holds. -/
theorem Reached.other (h : Reached s s' i c f t) {v : Who} (hv : v ≠ c.g.who) {k : Group → Group} (hk : ∀ g, SameHolds g (k g)) :
    Reached s (modGroup s' v k) i c f (modGroup t v k) := by
  have hw : ∀ g, (k g).who = g.who := fun g => (hk g).who
  refine ⟨h.others.trans (othersKept_modGroup _ _ hw fun _ => hk), by rw [findGroup_modGroup_other _ hv _ hw]; exact h.found, h.cycle, fun G hG => ?_⟩
  have hc : ∀ x : State, setGroup (modGroup x v k) G = modGroup (setGroup x G) v k := fun x => by
    rw [← hG] at hv
    exact (modGroup_comm x hv (fun _ => G) k (fun _ _ => rfl) fun g hg => (hw g).trans hg).symm
  have e := h.outside G hG
  rw [uncur_setGroup, uncur_setGroup] at e ⊢
  rw [hc, hc]
  exact congrArg (fun x => modGroup x v k) e

/-- The effect goes on outside the groups: claims name the state that it comes to. -/
theorem Reached.goes (h : Reached s s' i c f t) {t' : State} (ho : OthersKept c.g.who t t') (hg : findGroup t' c.g.who = findGroup t c.g.who)
    (hcy : t'.cycle = t.cycle) : Reached s t' i c f t' :=
  ⟨h.others.trans ho, hg.trans h.found, hcy.trans h.cycle, fun _ _ => rfl⟩

theorem Reached.kept (h : Reached s s' i c f t) {t' : State} (hk : Kept t t') : Reached s t' i c f t' :=
  h.goes (.of_kept hk) (by unfold findGroup; rw [hk.groups]) hk.cycle

end reached

/-- A function of a group that keeps its name and place, reads nothing of its registers but their values, and adds no more than n slots to them. -/
structure KeepsPlace (f : Group → Group) (n : Nat) : Prop where
  key : ∀ g, (f g).key.isSome = g.key.isSome
  team : ∀ g, (f g).team = g.team
  idx : ∀ g, (f g).idx = g.idx
  core : ∀ g, (f g).core = g.core
  away : ∀ g, (f g).away = g.away
  slots : ∀ g, groupSlots (f g) ≤ groupSlots g + n
  same : ∀ g h, SameBut g h → (∀ x, (h.reg x).shape = (g.reg x).shape) → SameBut (f g) (f h) ∧ ∀ x, ((f h).reg x).shape = ((f g).reg x).shape

theorem KeepsPlace.who {f : Group → Group} {n : Nat} (h : KeepsPlace f n) (g : Group) : (f g).who = g.who := who_eq (h.key g) (h.team g) (h.idx g)

theorem Keeps.place {f : Group → Group} {n : Nat} (h : Keeps f n) : KeepsPlace f n := ⟨h.key, h.team, h.idx, h.core, h.away, h.slots, h.same⟩

theorem keepsPlace_id : KeepsPlace id 0 := keeps_id.place

/-- A function that leaves alone the name, place and registers of a group. -/
theorem keepsPlace_simple (f : Group → Group) (hk : ∀ g, (f g).key = g.key) (ht : ∀ g, (f g).team = g.team) (hi : ∀ g, (f g).idx = g.idx)
    (hc : ∀ g, (f g).core = g.core) (ha : ∀ g, (f g).away = g.away) (hr : ∀ g, (f g).regs = g.regs) (hs : ∀ g h, SameBut g h → SameBut (f g) (f h)) :
    KeepsPlace f 0 where
  key := fun g => by rw [hk]
  team := ht
  idx := hi
  core := hc
  away := ha
  slots := fun g => by rw [groupSlots_eq, groupSlots_eq, hr]; exact Nat.le_refl _
  same := fun g h e hx => ⟨hs g h e, fun x => by have := hx x; unfold Group.reg at this ⊢; rw [hr, hr]; exact this⟩

/-- An instruction completes whose effect reaches a state that is `s'` outside its group, and changes its group by `f`. -/
theorem Reached.completes {s s' : State} {i : Instr} {c : Ctx} {f : Group → Group} {r : Res} (hr : Reached s s' i c f r.s) (h : Runs s i c)
    {body : Ctx → Res} {n : Nat} (hf : KeepsPlace f n) {ds : List (Nat × (Nat → W32))} (he : exec i s = issue i s body) (hb : body (fillOps c i) = r)
    (hw : r.wait = none) (hh : r.hits = []) (hdue : dueSub (f c.g) = none)
    (hgv : Gives (after c f r) r.regs ds) (hn : (ds.map (·.1)).Nodup) (hl : 32 * ds.length + n ≤ 256) :
    Completes s s' i (after c f r) (r.masks.foldl (fun g (x : Nat × W32) => g.setMask x.1 x.2) (f c.g)).masks r.flags (nextPc r c.pc) ds := by
  have hfill := fillOps_same c i
  have hlen := congrArg List.length (gives_fst hgv)
  simp only [List.length_map] at hlen
  obtain ⟨hsame, hshape⟩ := hf.same c.g _ hfill (fillOps_shape c i)
  have hslots := hf.slots (fillOps c i).g
  have hidx : (fillOps c i).g.idx = c.g.idx := by rw [hfill.eq]
  exact completes_leaves (g1 := f c.g) h he hb hh
    ⟨hw, hr.others, hr.found, (hf.key _).trans (by rw [hfill.key]), (hf.team _).trans hfill.team, (hf.idx _).trans hidx, (hf.core _).trans hfill.core,
      (hf.away _).trans hfill.away, by omega⟩ hsame hshape hdue hr.cycle hr.outside hgv hn

/-- A function of a group that leaves alone its name, place, registers, masks and sub-groups. -/
structure Steady (f : Group → Group) : Prop extends KeepsPlace f 0 where
  subs : ∀ g, (f g).subs = g.subs
  masks : ∀ g, (f g).masks = g.masks

theorem steady_simple (f : Group → Group) (hk : ∀ g, (f g).key = g.key) (ht : ∀ g, (f g).team = g.team) (hi : ∀ g, (f g).idx = g.idx)
    (hc : ∀ g, (f g).core = g.core) (ha : ∀ g, (f g).away = g.away) (hr : ∀ g, (f g).regs = g.regs) (hu : ∀ g, (f g).subs = g.subs)
    (hm : ∀ g, (f g).masks = g.masks) (hs : ∀ g h, SameBut g h → SameBut (f g) (f h)) : Steady f where
  toKeepsPlace := keepsPlace_simple f hk ht hi hc ha hr hs
  subs := hu
  masks := hm

theorem steady_id : Steady id := { keepsPlace_id with subs := fun _ => rfl, masks := fun _ => rfl }

theorem Steady.comp {f k : Group → Group} (hk : Steady k) (hf : Steady f) : Steady fun g => k (f g) where
  key := fun g => (hk.key _).trans (hf.key g)
  team := fun g => (hk.team _).trans (hf.team g)
  idx := fun g => (hk.idx _).trans (hf.idx g)
  core := fun g => (hk.core _).trans (hf.core g)
  away := fun g => (hk.away _).trans (hf.away g)
  slots := fun g => (hk.slots _).trans (hf.slots g)
  same := fun g h e hx => hk.same _ _ (hf.same g h e hx).1 (hf.same g h e hx).2
  subs := fun g => (hk.subs _).trans (hf.subs g)
  masks := fun g => (hk.masks _).trans (hf.masks g)

/-- An instruction that answers registers alone, and leaves alone the masks and the sub-groups of its group. -/
theorem Reached.run {s s' t : State} {i : Instr} {c : Ctx} {f : Group → Group} {regs : List (Nat × Shape)} (hr : Reached s s' i c f t) (h : Runs s i c)
    {body : Ctx → Res} (hf : Steady f) {ds : List (Nat × (Nat → W32))} (he : exec i s = issue i s body)
    (hb : body (fillOps c i) = { s := t, regs := regs }) (hgv : Gives c regs ds) (hn : (ds.map (·.1)).Nodup) (hl : ds.length ≤ 8) :
    Completes s s' i { c with g := f c.g } c.g.masks 0 (fun _ => c.pc + 4) ds := by
  have ha : after c f { s := t, regs := regs } = { c with g := f c.g } := after_plain c f _ rfl rfl rfl
  have hc := hr.completes h hf.toKeepsPlace he hb rfl rfl (by rw [dueSub_eq (hf.key _) (hf.subs _)]; exact h.calm) (ds := ds) (by rw [ha]; exact hgv) hn
    (by omega)
  rw [ha] at hc
  rw [← hf.masks]
  exact hc

end Sys2Proof.Machine
end

