-- ==== Sys2Proof/Proofs/Waiting.lean ====
section
/-!
Lanes that wait at reconvergence points and at yield (R26, R154, R156).
-/

namespace Sys2Proof.Machine

/-! ## Lanes that stay where they are -/

theorem who_modLanes (g : Group) (m : W32) (f : Nat → Lane → Lane) : (g.modLanes m f).who = g.who := rfl

theorem sameBut_lane {g h : Group} (e : SameBut g h) : h.lane = g.lane := by unfold Group.lane; rw [e.lanes]

theorem sameBut_modLanes {g h : Group} (e : SameBut g h) (m : W32) (f : Nat → Lane → Lane) : SameBut (g.modLanes m f) (h.modLanes m f) := by
  constructor
  unfold Group.modLanes
  rw [sameBut_lane e]
  rw [e.eq]

theorem sameBut_completePending {g h : Group} (e : SameBut g h) (m : W32) : SameBut (completePending g m) (completePending h m) := by
  constructor
  rw [e.eq]
  rfl

theorem keeps_modLanes (m : W32) (f : Nat → Lane → Lane) : Keeps (fun g => g.modLanes m f) 0 :=
  keeps_simple _ (fun _ => rfl) (fun _ => rfl) (fun _ => rfl) (fun _ => rfl) (fun _ => rfl) (fun _ => rfl) (fun _ => rfl) (fun _ => rfl)
    fun _ _ e => sameBut_modLanes e m f

theorem keeps_completePending (f : Group → Group) (m : W32) (hf : Keeps f 0) : Keeps (fun g => completePending (f g) m) 0 where
  who := hf.who
  key := hf.key
  core := hf.core
  team := hf.team
  idx := hf.idx
  away := hf.away
  subs := hf.subs
  slots := hf.slots
  same := fun g h e hx => ⟨sameBut_completePending (hf.same g h e hx).1 m, (hf.same g h e hx).2⟩

/-- A path that goes nowhere: it does not matter what its lanes' next program counters would be. -/
theorem completes_still {s s' : State} {i : Instr} {c : Ctx} {masks : List W32} {fl : W32} {next : Nat → W64} {ds : List (Nat × (Nat → W32))}
    (h : Completes s s' i c masks fl next ds) (hp : c.path = 0) (next' : Nat → W64) : Completes s s' i c masks fl next' ds := by
  obtain ⟨g', he, hw, hpd, hr⟩ := h
  refine ⟨g', he, ?_, hpd, hr⟩
  unfold WentOn at hw ⊢
  have hz : ∀ l, hasLane c.path l = false := fun l => by rw [hp]; simp [hasLane]
  simp only [hz, Bool.false_eq_true, if_false] at hw ⊢
  exact hw

theorem and_not_self (m : W32) : m &&& ~~~m = 0 := by simp

/-- An effect that changes its own group and has all lanes of its path stay where they are. -/
theorem run_still {s : State} {i : Instr} {c : Ctx} (h : Runs s i c) (body : Ctx → Res) (f : Group → Group) (hk : Keeps f 0) (he : exec i s = issue i s body)
    (hb : body (fillOps c i) = { s := modGroup (fillOps c i).s c.g.who f, gone := c.path }) (hm : (f c.g).masks = c.g.masks) :
    Completes s s i ({ c with g := f c.g } : Ctx).still c.g.masks 0 (fun _ => 0) [] := by
  have hr := run_own h body _ f 0 hk [] he hb rfl rfl rfl .nil List.nodup_nil (by simp)
  have ha : after c f { s := modGroup (fillOps c i).s c.g.who f, gone := c.path } = ({ c with g := f c.g } : Ctx).still := by
    unfold after Ctx.still
    rw [stopped_none rfl, but_none, but_none, and_not_self, BitVec.and_allOnes]
  rw [ha] at hr
  rw [← hm]
  exact completes_still hr rfl _

/-- A path instruction reaches a reconvergence point: every lane of the path waits there (R156). -/
theorem run_reconv {s : State} {i : Instr} {c : Ctx} (h : Runs s i c) (at_ : WaitAt) (he : exec i s = issue i s fun c => reconvRes c at_) :
    Completes s s i (onLanes c c.path fun x => { x with st := .waiting, at_ := at_ }).still c.g.masks 0 (fun _ => 0) [] :=
  run_still h _ _ (keeps_modLanes _ _) he (by simp [reconvRes]) rfl

/-! ## Yield -/

/-- What yield does (R154, R247). -/
def yieldRes (c : Ctx) : Res :=
  if !c.g.preempt then noRes c
  else if c.key && (!(keyQueue c.g).isEmpty || c.t.ops.any fun o => o.cmu && o.hb) then { s := c.s, wait := some (.matrixq, 0) }
  else { s := modGroup c.s c.g.who fun g => completePending (g.modLanes c.path fun _ x => { x with st := .waiting, at_ := .yield }) c.path, gone := c.path }

theorem exec_yield (s : State) : exec .yield s = issue .yield s yieldRes := rfl

theorem preempt_view (c : Ctx) (i : Instr) : (fillOps c i).g.preempt = c.g.preempt := by rw [(fillOps_same c i).eq]

theorem keyQueue_view (c : Ctx) (i : Instr) : keyQueue (fillOps c i).g = keyQueue c.g := by unfold keyQueue; rw [view_key]

section yield

variable {c : Ctx} (i : Instr)

theorem yieldRes_on (hp : c.g.preempt = false) : yieldRes (fillOps c i) = { s := (fillOps c i).s } := by simp [yieldRes, preempt_view, hp, noRes]

theorem yieldRes_waits (hp : c.g.preempt = true) (hk : c.g.key ≠ none) (hq : keyQueue c.g ≠ [] ∨ (c.t.ops.any fun o => o.cmu && o.hb) = true) :
    yieldRes (fillOps c i) = { s := (fillOps c i).s, wait := some (.matrixq, 0) } := by
  have hb : (c.g.key.isSome && (!(keyQueue c.g).isEmpty || c.t.ops.any fun o => o.cmu && o.hb)) = true := by
    rw [Option.isSome_iff_ne_none.mpr hk, Bool.true_and, Bool.or_eq_true]
    exact hq.imp (by simp) id
  unfold yieldRes
  rw [preempt_view, hp, if_neg (by simp), if_pos]
  simpa [Ctx.key, keyQueue_view] using hb

theorem yieldRes_stays (hp : c.g.preempt = true) (hq : c.g.key = none ∨ keyQueue c.g = [] ∧ (c.t.ops.any fun o => o.cmu && o.hb) = false) :
    yieldRes (fillOps c i) = {
      s := modGroup (fillOps c i).s c.g.who fun g => completePending (g.modLanes c.path fun _ x => { x with st := .waiting, at_ := .yield }) c.path
      gone := c.path } := by
  have hb : (c.g.key.isSome && (!(keyQueue c.g).isEmpty || c.t.ops.any fun o => o.cmu && o.hb)) = false := by
    rcases hq with hq | ⟨hq, ho⟩
    · simp [hq]
    · simp only [hq, ho, List.isEmpty_nil, Bool.not_true, Bool.or_false, Bool.and_false]
  unfold yieldRes
  rw [preempt_view, hp, if_neg (by simp), if_neg]
  · simp
  · simpa [Ctx.key, keyQueue_view] using hb

end yield

/-- Settles O10. -/
theorem lanesWaitAtReconvergenceAndYield : Obligations.LanesWaitAtReconvergenceAndYield := fun s _ =>
  ⟨fun h => run_reconv h .hard rfl, fun h => run_reconv h .soft rfl,
   fun h hp hq => run_still h yieldRes _ (keeps_completePending _ _ (keeps_modLanes _ _)) (exec_yield s) (yieldRes_stays _ hp hq) rfl,
   fun h hp hk hq => (exec_yield s).trans (issue_waits h (yieldRes_waits _ hp hk hq) rfl),
   fun h hp => runs_regs h yieldRes _ [] (exec_yield s) (yieldRes_on _ hp) rfl rfl rfl rfl rfl .nil List.nodup_nil (Nat.zero_le _)⟩

end Sys2Proof.Machine
end

