-- ==== Sys2Proof/Proofs/TwinMeetings.lean ====
section
/-!
The meeting of the twins of a paired run (R62): what forwarding, following and waiting change, and what an instruction that meets its twin
comes to.
-/

namespace Sys2Proof.Machine

/-! ## Operands filled back leave a pair's meeting as it is -/

section view

variable (c : Ctx) (i : Instr)

theorem teamOf_fillOps (k : Nat) : teamOf (fillOps c i).s k = teamOf c.s k := by unfold teamOf findTeam; rw [fillOps_teams]

theorem fillOps_s : ∃ gs, (fillOps c i).s = { c.s with groups := gs } := by
  unfold fillOps
  dsimp only
  split
  · exact ⟨_, rfl⟩
  · exact ⟨_, rfl⟩

theorem twinGone_congr {s t : State} {g h : Group} (hg : SameBut g h) (hs : ∃ gs, t = { s with groups := gs }) : twinGone t h = twinGone s g := by
  obtain ⟨gs, rfl⟩ := hs
  rw [hg.eq]
  rfl

theorem twinGone_view : twinGone (fillOps c i).s (fillOps c i).g = twinGone c.s c.g := twinGone_congr (fillOps_same c i) (fillOps_s c i)

end view

/-- The twin's group has another name. -/
theorem twinOf_who {s : State} {g h : Group} (ht : twinOf s g = some h) (hne : (teamOf s g.team).twin ≠ some g.team) : h.who ≠ g.who := by
  unfold twinOf at ht
  obtain ⟨k, hk, hf⟩ := Option.bind_eq_some_iff.mp ht
  have hkne : k ≠ g.team := fun e => hne (hk.trans (congrArg some e))
  rw [findGroup_who _ _ _ hf]
  unfold Group.who
  split <;> simp [hkne]

theorem twinOf_modGroup_own {s : State} {g : Group} {f : Group → Group} (hf : ∀ x, (f x).who = x.who) (hne : (teamOf s g.team).twin ≠ some g.team) :
    twinOf (modGroup s g.who f) g = twinOf s g := by
  unfold twinOf
  rw [show teamOf (modGroup s g.who f) g.team = teamOf s g.team from rfl]
  cases ht : (teamOf s g.team).twin with
  | none => rfl
  | some k =>
    have hk : k ≠ g.team := fun e => hne (by rw [ht, e])
    refine findGroup_modGroup_other _ (fun e => hk ?_) _ hf
    unfold Group.who at e
    split at e
    · exact (Who.key.inj e).symm
    · exact (Who.group.inj e).1.symm

/-- Filling operands back changes nothing of the twin's group. -/
theorem twinOf_view {s : State} {i : Instr} {c : Ctx} (h : Runs s i c) (hne : c.t.twin ≠ some c.g.team) :
    twinOf (fillOps c i).s (fillOps c i).g = twinOf s c.g := by
  obtain ⟨-, hcs, hct⟩ := issuer_find s c h.path
  have hidx : (fillOps c i).g.idx = c.g.idx := by rw [(fillOps_same c i).eq]
  unfold twinOf
  rw [view_team, view_key, hidx, teamOf_fillOps, hcs]
  cases ht : (teamOf s c.g.team).twin with
  | none => rfl
  | some k =>
    have hk : k ≠ c.g.team := fun e => hne (by rw [hct, ht, e])
    simp only [Option.bind_some]
    generalize hw : (if c.g.key.isSome then Who.key k else .group k c.g.idx) = w
    have hwn : w ≠ c.g.who := by
      rw [← hw]; unfold Group.who
      split <;> simp [hk]
    unfold fillOps
    dsimp only
    split
    · rw [hcs, findGroup_other]
      rw [(same_fillRegs _ _ _ _).who]
      exact hwn
    · rw [hcs]

theorem posOf_eq_none {α : Type} {p : α → Bool} : ∀ {l : List α}, posOf p l = none ↔ ∀ x ∈ l, p x = false
  | [] => by simp [posOf]
  | x :: l => by
    have ih := posOf_eq_none (p := p) (l := l)
    unfold posOf
    cases h : p x <;> simp [h, ih]

/-- The group counts a value that it forwards in its open region. -/
def sentOnce (g : Group) : Group := { g with region := g.region.map fun r => { r with sent := r.sent + 1 } }

/-- The group takes what was forwarded first, and notes it in its open region. -/
def tookFwd (i : Nat) (g : Group) : Group :=
  { g with fwd := dropNth g.fwd i, region := g.region.map fun r => { r with used := r.used ++ [nth (0, []) g.fwd i] } }

/-- The group gets a value forwarded. -/
def gotFwd (x : W64 × List W64) (g : Group) : Group := { g with fwd := g.fwd ++ [x] }

theorem steady_sentOnce : Steady sentOnce :=
  steady_simple _ (fun _ => rfl) (fun _ => rfl) (fun _ => rfl) (fun _ => rfl) (fun _ => rfl) (fun _ => rfl) (fun _ => rfl) (fun _ => rfl)
    fun g h e => ⟨by rw [e.eq]; rfl⟩

theorem steady_tookFwd (i : Nat) : Steady (tookFwd i) :=
  steady_simple _ (fun _ => rfl) (fun _ => rfl) (fun _ => rfl) (fun _ => rfl) (fun _ => rfl) (fun _ => rfl) (fun _ => rfl) (fun _ => rfl)
    fun g h e => ⟨by rw [e.eq]; rfl⟩

theorem holds_gotFwd (x : W64 × List W64) (g : Group) : SameHolds g (gotFwd x g) := ⟨rfl, rfl, rfl, rfl, rfl, rfl⟩

theorem forwardOnly_none {s : State} {g : Group} (h : twinOf s g = none) (pc : W64) (m : W32) (vs : List W64) : forwardOnly s g pc m vs = s := by
  unfold forwardOnly; rw [h]

theorem forwardOnly_some {s : State} {g h : Group} (ht : twinOf s g = some h) (pc : W64) (m : W32) (vs : List W64) :
    forwardOnly s g pc m vs = modGroup (modGroup s g.who sentOnce) h.who (gotFwd (pc, m.setWidth 64 :: vs)) := by
  unfold forwardOnly; rw [ht]; rfl

theorem takeFwd_eq (s : State) (g : Group) (i : Nat) : takeFwd s g i = modGroup s g.who (tookFwd i) := rfl

/-! ## The meeting of the twins -/

/-- The group no longer holds entry k of what was forwarded to it. -/
def dropFwd (k : Nat) (g : Group) : Group := { g with fwd := dropNth g.fwd k }

/-- The group asks its twin, unless it already does. -/
def asked (x : W64 × W32 × W64) (g : Group) : Group := { g with ask := some (g.ask.getD x) }

/-- The twin's question is answered with values. -/
def answered (pc : W64) (m : W32) (vs : List W64) (h : Group) : Group :=
  { h with ask := none, fwd := h.fwd ++ [match h.ask with | some (p, k, _) => (p, k.setWidth 64 :: vs) | none => (pc, m.setWidth 64 :: vs)] }

theorem steady_dropFwd (k : Nat) : Steady (dropFwd k) :=
  steady_simple _ (fun _ => rfl) (fun _ => rfl) (fun _ => rfl) (fun _ => rfl) (fun _ => rfl) (fun _ => rfl) (fun _ => rfl) (fun _ => rfl)
    fun g h e => ⟨by rw [e.eq]; rfl⟩

theorem holds_answered (pc : W64) (m : W32) (vs : List W64) (g : Group) : SameHolds g (answered pc m vs g) := ⟨rfl, rfl, rfl, rfl, rfl, rfl⟩

theorem forward_none {s : State} {g : Group} (h : twinOf s g = none) (pc : W64) (m : W32) (vs : List W64) : forward s g pc m vs = s := by
  unfold forward; rw [h]

theorem forward_some {s : State} {g h : Group} (ht : twinOf s g = some h) (pc : W64) (m : W32) (vs : List W64) :
    forward s g pc m vs = modGroup s h.who (answered pc m vs) := by
  unfold forward
  rw [ht]
  simp only
  congr 1
  funext x
  unfold answered
  cases x.ask <;> rfl

/-- Without a twin an instruction meets nobody. -/
theorem pairMeet_alone {s : State} {g : Group} {pc : W64} {m : W32} {sig : W64} (h : isPaired (teamOf s g.team) = false) :
    pairMeet s g pc m sig = .alone := by
  unfold pairMeet
  simp [h]

theorem pairMeet_paired {s : State} {g : Group} {pc : W64} {m : W32} {sig : W64} (h : isPaired (teamOf s g.team) = true) :
    pairMeet s g pc m sig ≠ .alone := by
  unfold pairMeet
  simp only [h, Bool.not_true, Bool.false_eq_true, if_false]
  split
  · split <;> simp
  · split
    · split
      · split <;> simp
      · split
        · simp
        · split <;> simp
    · split <;> simp

/-- A twin that follows takes an entry of what was forwarded to it. -/
theorem pairMeet_follow {s s1 : State} {g : Group} {pc : W64} {m : W32} {sig : W64} {vs : List W64} (h : pairMeet s g pc m sig = .follow s1 vs) :
    ∃ k, s1 = modGroup s g.who (dropFwd k) := by
  unfold pairMeet at h
  simp only at h
  split at h
  · cases h
  · split at h
    · split at h <;> cases h
    · split at h
      · split at h
        · split at h <;> cases h
        · split at h
          · cases h
          · split at h <;> cases h
      · split at h
        · cases h; exact ⟨_, rfl⟩
        · cases h

/-- The primary's answer goes to a group of another name. -/
theorem Reached.forward {s t : State} {i : Instr} {c : Ctx} (h : Reached s t i c id t) (hne : (teamOf t c.g.team).twin ≠ some c.g.team)
    (pc : W64) (m : W32) (vs : List W64) : Reached s (forward t c.g pc m vs) i c id (forward t c.g pc m vs) := by
  cases hx : twinOf t c.g with
  | none => rwa [forward_none hx]
  | some x => rw [forward_some hx]; exact h.other (twinOf_who hx hne) (holds_answered pc m vs)

theorem steady_sent {k : Group → Group} (h : k = id ∨ k = sentOnce) : Steady k := by
  rcases h with rfl | rfl
  · exact steady_id
  · exact steady_sentOnce

/-- A value that the primary forwards goes to a group of another name, and the primary counts it in its open region. -/
theorem Reached.forwardOnly {s s' t : State} {i : Instr} {c : Ctx} {f : Group → Group} (h : Reached s s' i c f t) {g : Group} (hw : g.who = c.g.who)
    (ht : twinOf t g = twinOf s' c.g) (hne : (teamOf s' c.g.team).twin ≠ some c.g.team) (pc : W64) (m : W32) (vs : List W64) :
    ∃ k, (k = id ∨ k = sentOnce) ∧ Reached s (forwardOnly s' c.g pc m vs) i c (fun g => k (f g)) (forwardOnly t g pc m vs) ∧
      findGroup (forwardOnly s' c.g pc m vs) c.g.who = (findGroup s' c.g.who).map k := by
  cases hx : twinOf s' c.g with
  | none =>
    rw [forwardOnly_none hx, forwardOnly_none (ht.trans hx)]
    exact ⟨id, .inl rfl, h, by simp⟩
  | some x =>
    have hv := twinOf_who hx hne
    have hown := steady_sentOnce.who
    have hgot := holds_gotFwd (pc, m.setWidth 64 :: vs)
    rw [forwardOnly_some hx, forwardOnly_some (ht.trans hx), hw]
    refine ⟨sentOnce, .inr rfl, ?_, ?_⟩
    · rw [modGroup_comm s' hv _ _ (fun y hy => (hown y).trans hy) fun y hy => (hgot y).who.trans hy]
      exact ((h.own hown).other hv hgot).but_own hown
    · rw [findGroup_modGroup_other _ hv _ fun y => (hgot y).who, findGroup_modGroup_same _ _ _ hown]

/-- What an instruction of a paired team comes to, by what its effect comes to for a primary that leads and for a twin that follows. -/
theorem paired_of_pairRun {s s0 : State} {i : Instr} {c : Ctx} {body : Ctx → Res} {sig : W64} {lead : State → Res × List W64}
    {follow : State → List W64 → Res} (h : Runs s i c) (hfill : Filled c i) (he : exec i s = issue i s body) (hb : body c = pairRun c s0 sig lead follow)
    (hr : Reached s s0 i c id s0) (ht : teamOf s0 c.g.team = c.t) {L : Prop} {F : State → Ctx → List W64 → Prop}
    (hlead : body c = (if (lead s0).1.wait.isSome then (lead s0).1
      else { (lead s0).1 with s := forward (lead s0).1.s c.g c.pc c.act (lead s0).2 }) → L)
    (hfollow : ∀ s1 vs f, Steady f → Reached s s1 i c f s1 → body c = follow s1 vs → F s1 { c with g := f c.g } vs) : Paired s s0 i c sig L F := by
  have hfg : (fillOps c i).g = c.g := by rw [show fillOps c i = c from hfill]
  intro hp _
  have hna := pairMeet_paired (pc := c.pc) (m := c.act) (sig := sig) (show isPaired (teamOf s0 c.g.team) = true by rw [ht]; exact hp)
  unfold pairRun at hb
  cases hm : pairMeet s0 c.g c.pc c.act sig with
  | alone => exact absurd hm hna
  | lead => rw [hm] at hb; exact hlead hb
  | follow s1 vs =>
    rw [hm] at hb
    obtain ⟨k, hk⟩ := pairMeet_follow hm
    have hs1 : Reached s s1 i c (dropFwd k) s1 := by
      have hown := hr.own (steady_dropFwd k).who
      rw [← hk] at hown
      exact ⟨hown.others, hown.found, hown.cycle, fun _ _ => rfl⟩
    have hfind := hs1.found
    rw [hfg] at hfind
    simp only [hfind]
    exact hfollow s1 vs (dropFwd k) (steady_dropFwd k) hs1 hb
  | wait s1 =>
    rw [hm] at hb
    exact he.trans (issue_waits h ((congrArg body hfill).trans hb) rfl)
  | differ w x =>
    rw [hm] at hb
    exact he.trans (issue_waits h ((congrArg body hfill).trans hb) rfl)

/-- An effect that a primary, or a team without a twin, performs and that answers registers alone. -/
theorem runs_pairRun {s s0 s' : State} {i : Instr} {c : Ctx} {body : Ctx → Res} {sig : W64} {lead : State → Res × List W64}
    {follow : State → List W64 → Res} (h : Runs s i c) (hfill : Filled c i) (he : exec i s = issue i s body) (hb : body c = pairRun c s0 sig lead follow)
    (hr : Reached s s0 i c id s0) (ht : teamOf s0 c.g.team = c.t) {regs : List (Nat × Shape)} {vs : List W64} {ds : List (Nat × (Nat → W32))}
    (hlead : lead s0 = ({ s := s', regs := regs }, vs)) (hr' : Reached s s' i c id s') (ht' : (teamOf s' c.g.team).twin = c.t.twin)
    (hgv : Gives c regs ds) (hn : (ds.map (·.1)).Nodup) (hl : ds.length ≤ 8) {F : State → Ctx → List W64 → Prop}
    (hfollow : ∀ s1 vs f, Steady f → Reached s s1 i c f s1 → body c = follow s1 vs → F s1 { c with g := f c.g } vs) :
    (isPaired c.t = false → Completes s s' i c c.g.masks 0 (fun _ => c.pc + 4) ds) ∧
    Paired s s0 i c sig (Completes s (forward s' c.g c.pc c.act vs) i c c.g.masks 0 (fun _ => c.pc + 4) ds) F := by
  have hc : fillOps c i = c := hfill
  refine ⟨fun hp => ?_, fun hp hne => ?_⟩
  · rw [pairRun, pairMeet_alone (by rw [ht]; exact hp), hlead] at hb
    exact hr'.run h steady_id he ((congrArg body hc).trans hb) hgv hn hl
  · refine paired_of_pairRun h hfill he hb hr ht (fun hb => ?_) hfollow hp hne
    rw [hlead] at hb
    exact (hr'.forward (by rw [ht']; exact hne) _ _ _).run h steady_id he ((congrArg body hc).trans hb) hgv hn hl

/-- A twin that follows, where the instruction answers registers alone. -/
theorem follows_plain {s s1 : State} {i : Instr} {c : Ctx} {body : Ctx → Res} {f : Group → Group} (h : Runs s i c) (hfill : Filled c i)
    (he : exec i s = issue i s body) (hf : Steady f) (hr : Reached s s1 i c f s1) (hb : body c = { s := s1 }) :
    Completes s s1 i { c with g := f c.g } c.g.masks 0 (fun _ => c.pc + 4) [] :=
  hr.run h hf he ((congrArg body hfill).trans hb) .nil List.nodup_nil (Nat.zero_le _)

/-- An instruction that is no path instruction has an active lane where it runs. -/
theorem Runs.lanes {s : State} {i : Instr} {c : Ctx} (h : Runs s i c) (hp : i.isPath = false) : c.lanes ≠ [] := fun e => by
  rcases h.active with h1 | h1
  · exact h1 (lanesOf_eq_nil.mp e)
  · rw [hp] at h1; cases h1

end Sys2Proof.Machine
end

