-- ==== Sys2Proof/Proofs/SpecialRegisters.lean ====
section
/-!
The special registers (R145), and how a paired run forwards its clocks (R62).
-/

namespace Sys2Proof.Machine

/-! ## The values of the special registers -/

theorem at_squeezed (vs : List W32) (l : Nat) (h : l < 32) : (squeezed vs).at l = nth 0 vs l := by
  have hl := (mem_lanes32 l).mpr h
  unfold squeezed
  simp only
  split
  case isTrue he =>
    have := List.all_eq_true.mp he l hl
    simp only [beq_iff_eq] at this
    exact this.symm
  case isFalse =>
    split
    case isTrue he =>
      have := List.all_eq_true.mp he l hl
      simp only [beq_iff_eq] at this
      exact this.symm
    case isFalse => rfl

theorem teamLaunch_fillOps (c : Ctx) (i : Instr) (t : Team) : teamLaunch (fillOps c i).s t = teamLaunch c.s t := by
  obtain ⟨gs, e⟩ := fillOps_s c i
  unfold teamLaunch launchOf
  rw [e]

theorem at_perLane (b : Bool) (f : Nat → W32) (l : Nat) (h : l < 32) :
    (if b then Shape.g (lanes32.map f) else squeezed (lanes32.map f)).at l = f l := by
  have hn : nth 0 (lanes32.map f) l = f l := by rw [nth_lanes32, if_pos h]
  cases b
  · exact (at_squeezed _ l h).trans hn
  · exact hn

theorem at_tid (b : Bool) (f : Nat → W32) (t : W32) (l : Nat) (h : l < 32) :
    (if b then Shape.g (lanes32.map f) else .a t 1).at l = if b then f l else t + BitVec.ofNat 32 l := by
  cases b
  · simp [Shape.at]
  · simp [Shape.at, nth_lanes32, h]

theorem groupTile_view (c : Ctx) (i : Instr) : groupTile (fillOps c i).s (fillOps c i).g = groupTile c.s c.g := by
  unfold groupTile
  rw [view_team, teamOf_fillOps, (fillOps_same c i).core]

theorem coreOf_view (c : Ctx) (i : Instr) (k : Nat) : coreOf (fillOps c i).s k = coreOf c.s k := by
  obtain ⟨gs, e⟩ := fillOps_s c i
  rw [e]; rfl

theorem binAge_view (c : Ctx) (i : Instr) :
    binAge (coreOf (fillOps c i).s (groupTile (fillOps c i).s (fillOps c i).g)) (fillOps c i).g.team (fillOps c i).g.role
      = binAge (coreOf c.s (groupTile c.s c.g)) c.g.team c.g.role := by
  have hrole : (fillOps c i).g.role = c.g.role := by rw [(fillOps_same c i).eq]
  rw [groupTile_view, coreOf_view, view_team, hrole]

/-- A special register of one word reads as the table says in every lane. -/
theorem srRead_at {s : State} {c : Ctx} {i : Instr} {n l : Nat} {v : W32} (hs : c.s = s) (hl : l < 32) (h : specialValue s c i n l = some v) :
    (srRead (fillOps c i) n).at l = v := by
  subst hs
  have hsame := fillOps_same c i
  have hdrawn : (fillOps c i).g.drawn = c.g.drawn := by rw [hsame.eq]
  have hrole : (fillOps c i).g.role = c.g.role := by rw [hsame.eq]
  have hflags : (fillOps c i).g.fpflags = c.g.fpflags := by rw [hsame.eq]
  have hpre : (fillOps c i).g.preempt = c.g.preempt := by rw [hsame.eq]
  unfold specialValue at h
  simp only at h
  split at h <;> cases h <;>
    simp only [srRead, view_t, view_lane, view_fpcr, view_winb, hdrawn, hrole, hflags, hpre, teamLaunch_fillOps, at_u, at_perLane _ _ l hl, at_tid _ _ _ l hl, coord, id]
  · simp [Shape.at]
  · split <;> rfl

/-- The special registers of one word. -/
theorem special_narrow {s : State} {c : Ctx} {i : Instr} {n l : Nat} {v : W32} (h : specialValue s c i n l = some v) : srWide n = false := by
  unfold specialValue at h
  simp only at h
  split at h
  any_goals rfl
  cases h

/-! ## Rdsr -/

/-- What rdsr does (R62, R145, R168). -/
def rdsrRes (d : BitVec 7) (n : BitVec 14) (c : Ctx) : Res :=
  if !srWide n.toNat then { s := c.s, regs := [(c.r d.toNat, srRead c n.toNat)] }
  else if !isPaired c.t then { s := c.s, regs := pairRes c d true fun _ => clockOf c.s n.toNat }
  else if c.t.primary then
    (if (twinOf c.s c.g).isNone && !twinGone c.s c.g then { s := c.s, wait := some (.other, 0) }
      else { s := forwardOnly c.s c.g c.pc c.act [clockOf c.s n.toNat], regs := pairRes c d true fun _ => clockOf c.s n.toNat })
  else match posOf (fun (p, vs) => p == c.pc && vs.headD 0 == c.act.setWidth 64) c.g.fwd with
    | some i => { s := takeFwd c.s c.g i, regs := pairRes c d true fun _ => nth 0 (nth (0, []) c.g.fwd i).2 1 }
    | none => if (twinOf c.s c.g).isNone && twinGone c.s c.g then lostTwin c else { s := c.s, wait := some (.other, 0) }

theorem exec_rdsr (d : BitVec 7) (n : BitVec 14) (s : State) : exec (.rdsr d n) s = issue (.rdsr d n) s (rdsrRes d n) := rfl

theorem clockOf_view (c : Ctx) (i : Instr) (n : Nat) : clockOf (fillOps c i).s n = clockOf c.s n := by
  obtain ⟨gs, e⟩ := fillOps_s c i
  rw [e]; rfl

theorem fwd_view (c : Ctx) (i : Instr) : (fillOps c i).g.fwd = c.g.fwd := by rw [(fillOps_same c i).eq]

theorem clockOf_cycle (s : State) : clockOf s 0x28 = BitVec.ofNat 64 s.cycle := rfl

theorem clockOf_time (s : State) : clockOf s 0x29 = BitVec.ofNat 64 (s.timeFs / 1000000) :=
  BitVec.eq_of_toNat_eq (by simp [clockOf, timeNs])

/-- The clock registers, with what they read as. -/
theorem clock_of_mem {s : State} {n : BitVec 14} {v : W64}
    (h : (n, v) ∈ [((0x28 : BitVec 14), BitVec.ofNat 64 s.cycle), (0x29, BitVec.ofNat 64 (s.timeFs / 1000000))]) :
    srWide n.toNat = true ∧ clockOf s n.toNat = v := by
  rcases List.mem_cons.mp h with h | h
  · cases h; exact ⟨rfl, clockOf_cycle s⟩
  · cases List.mem_singleton.mp h; exact ⟨rfl, clockOf_time s⟩

section clock

variable {s : State} {d : BitVec 7} {n : BitVec 14} {c : Ctx} (h : Runs s (.rdsr d n) c) (hw : srWide n.toNat = true)

include h in
theorem rdsr_narrow (hw : srWide n.toNat = false) (f : Nat → W32) (hf : ∀ l, l < 32 → (srRead (fillOps c (.rdsr d n)) n.toNat).at l = f l) :
    Completes s s (.rdsr d n) c c.g.masks 0 (fun _ => c.pc + 4) (dest c d f) :=
  run_value h (rdsrRes d n) d _ f (exec_rdsr d n s) (by simp [rdsrRes, hw]) fun l hl _ => hf l hl

include h hw in
theorem rdsr_alone (hp : isPaired c.t = false) : Completes s s (.rdsr d n) c c.g.masks 0 (fun _ => c.pc + 4) (destPair c d fun _ => clockOf s n.toNat) := by
  obtain ⟨-, hcs, -⟩ := issuer_find s c h.path
  refine run_wide h (rdsrRes d n) d true _ (exec_rdsr d n s) ?_ fun _ _ => rfl
  simp [rdsrRes, hw, hp, clockOf_view, hcs]

include h in
/-- An effect that gives a pair of registers one value in every lane and changes its group by `f`. -/
theorem completes_value {s' t : State} {f : Group → Group} (hr : Reached s s' (.rdsr d n) c f t) (hf : Steady f) {v : W64}
    (hb : rdsrRes d n (fillOps c (.rdsr d n)) = { s := t, regs := pairRes c d true fun _ => v }) :
    Completes s s' (.rdsr d n) { c with g := f c.g } c.g.masks 0 (fun _ => c.pc + 4) (destPair c d fun _ => v) :=
  hr.run h hf (exec_rdsr d n s) hb (gives_pair c d true _ fun _ _ => rfl) (by have := pair_regs c d; simp [destPair, this]) (by simp [destPair])

include h hw in
theorem rdsr_forwards (hp : isPaired c.t = true) (hne : c.t.twin ≠ some c.g.team) (hprim : c.t.primary = true)
    (htw : (twinOf s c.g).isSome ∨ twinGone s c.g = true) {s1 : State} (hs1 : s1 = forwardOnly s c.g c.pc c.act [clockOf s n.toNat]) :
    Completes s s1 (.rdsr d n) { c with g := (findGroup s1 c.g.who).getD c.g } c.g.masks 0 (fun _ => c.pc + 4)
      (destPair c d fun _ => clockOf s n.toNat) := by
  obtain ⟨hf, hcs, hct⟩ := issuer_find s c h.path
  have hgo : ((twinOf s c.g).isNone && !twinGone s c.g) = false := by
    rcases htw with ht | ht
    · rw [Option.isNone_eq_false_iff.mpr ht]; rfl
    · rw [ht]; simp
  have hb : rdsrRes d n (fillOps c (.rdsr d n)) =
      { s := forwardOnly (fillOps c (.rdsr d n)).s (fillOps c (.rdsr d n)).g c.pc c.act [clockOf s n.toNat], regs := pairRes c d true fun _ => clockOf s n.toNat } := by
    simp [rdsrRes, hw, hp, hprim, clockOf_view, hcs, twinOf_view h hne, twinGone_view, hgo]
  obtain ⟨k, hk, hr, hfind⟩ := (Reached.start h).forwardOnly (view_who c (.rdsr d n)) (twinOf_view h hne) (by rw [← hct]; exact hne) c.pc c.act [clockOf s n.toNat]
  rw [hs1, hfind, hf]
  exact completes_value h hr (steady_sent hk) hb

include h hw in
theorem rdsr_waits (hp : isPaired c.t = true) (hne : c.t.twin ≠ some c.g.team) (hprim : c.t.primary = false)
    (hfwd : ∀ e ∈ c.g.fwd, ¬ (e.1 = c.pc ∧ e.2.headD 0 = c.act.setWidth 64)) (htw : (twinOf s c.g).isSome ∨ twinGone s c.g = false) :
    exec (.rdsr d n) s = .next (waitState s c.g.who (.rdsr d n) .other c.path c.pc 0) := by
  obtain ⟨-, hcs, -⟩ := issuer_find s c h.path
  have hgo : ((twinOf s c.g).isNone && twinGone s c.g) = false := by
    rcases htw with ht | ht
    · rw [Option.isNone_eq_false_iff.mpr ht]; rfl
    · rw [ht]; simp
  refine (exec_rdsr d n s).trans (issue_waits (r := { s := (fillOps c (.rdsr d n)).s, wait := some (.other, 0) }) h ?_ rfl)
  have hpos : posOf (fun x => x.1 == c.pc && x.2.headD 0 == c.act.setWidth 64) c.g.fwd = none :=
    posOf_eq_none.mpr fun e he => by simpa only [Bool.and_eq_false_imp, beq_iff_eq, beq_eq_false_iff_ne] using fun e1 e2 => hfwd e he ⟨e1, e2⟩
  unfold rdsrRes
  simp only [hw, hp, hprim, hpos, hcs, hgo, view_t, view_act, view_pc, fwd_view, twinOf_view h hne, twinGone_view, Bool.not_true, Bool.false_eq_true, if_false]

include h hw in
theorem rdsr_takes (hp : isPaired c.t = true) (hprim : c.t.primary = false) {x : W64} {rest : List (W64 × List W64)} {s1 : State}
    (hfwd : c.g.fwd = (c.pc, [c.act.setWidth 64, x]) :: rest) (hs1 : s1 = takeFwd s c.g 0) :
    Completes s s1 (.rdsr d n) { c with g := (findGroup s1 c.g.who).getD c.g } c.g.masks 0 (fun _ => c.pc + 4) (destPair c d fun _ => x) := by
  obtain ⟨hf, -, -⟩ := issuer_find s c h.path
  have hb : rdsrRes d n (fillOps c (.rdsr d n)) =
      { s := modGroup (fillOps c (.rdsr d n)).s c.g.who (tookFwd 0), regs := pairRes c d true fun _ => x } := by
    simp [rdsrRes, hw, hp, hprim, fwd_view, hfwd, posOf, takeFwd_eq, nth]
  have hfind : findGroup (takeFwd s c.g 0) c.g.who = some (tookFwd 0 c.g) := by
    rw [takeFwd_eq, findGroup_modGroup_same _ _ _ (steady_tookFwd 0).who, hf]; rfl
  subst hs1
  rw [hfind]
  exact completes_value h (((Reached.start h).own (steady_tookFwd 0).who).but_own (steady_tookFwd 0).who) (steady_tookFwd 0) hb

end clock

/-- Settles O12. -/
theorem specialRegistersReadTheirValue : Obligations.SpecialRegistersReadTheirValue := by
  intro s c d n
  refine ⟨fun f h hf => ?_, fun h => ?_, fun h hp => ?_, fun h hp => ?_, fun v hv h hp hne => ?_⟩
  · obtain ⟨-, hcs, -⟩ := issuer_find s c h.path
    exact rdsr_narrow h (special_narrow (hf 0 (by decide))) f fun l hl => srRead_at hcs hl (hf l hl)
  · obtain ⟨-, hcs, -⟩ := issuer_find s c h.path
    refine rdsr_narrow h rfl _ fun l _ => ?_
    rw [← hcs]
    exact congrArg (BitVec.ofNat 32) (binAge_view c (.rdsr d 0x23))
  · exact rdsr_alone h rfl hp
  · rw [← clockOf_time]
    exact rdsr_alone h rfl hp
  · obtain ⟨hw, rfl⟩ := clock_of_mem hv
    exact ⟨fun hprim htw s1 => rdsr_forwards h hw hp hne hprim htw, fun hprim hfwd htw => rdsr_waits h hw hp hne hprim hfwd htw,
      fun x rest s1 hprim hfwd hs1 => rdsr_takes h hw hp hprim hfwd hs1⟩

end Sys2Proof.Machine
end

