-- ==== Sys2Proof/Proofs/AppendCommands.lean ====
section
/-!
Append commands (R235, R352).
-/

namespace Sys2Proof.Machine

/-! ## Append commands -/

/-- What a put into queue 12 does (R236, R352). -/
def appendRes (a : BitVec 7) (c : Ctx) : Res := queueRes c 12 mayPut fun _ =>
  if c.t.primary && 16 ≤ masonWaiting c.s c.g.team then { s := c.s, wait := some (.qput, 0) }
  else pairRun c c.s (crc64 2 (toBytes 8 (c.pv a 0).toNat)) (fun s => ({ s := { s with masonQ := s.masonQ ++ [(c.g.team, c.pv a 0)] } }, []))
    fun s _ => { s := s }

theorem exec_append (a : BitVec 7) (la : BitVec 4) (s : State) : exec (.qput 12 a la) s = issue (.qput 12 a la) s (appendRes a) := rfl

/-- Settles O35. -/
theorem appendCommandsReachTheMason : Obligations.AppendCommandsReachTheMason := by
  rintro s s' c a la i rfl h hfill hbound hkey hroom rfl
  obtain ⟨-, hcs, hct⟩ := issuer_find s c h.path
  have hr := Reached.filled h hfill
  have hb : appendRes a c = pairRun c s (crc64 2 (toBytes 8 (c.pv a 0).toNat))
      (fun s => ({ s := { s with masonQ := s.masonQ ++ [(c.g.team, c.pv a 0)] } }, [])) fun s _ => { s := s } := by
    unfold appendRes queueRes
    rw [hcs, hbound, hkey, if_pos (by simp [mayPut]), if_neg (by simp [Nat.not_le.mpr hroom])]
  exact runs_pairRun h hfill (exec_append a la s) hb hr hct.symm rfl (hr.goes (.of_eq rfl rfl rfl rfl) rfl rfl) (by rw [hct]; rfl) .nil List.nodup_nil
    (Nat.zero_le _) fun s1 vs f hf h1 hb => follows_plain h hfill (exec_append a la s) hf h1 hb

end Sys2Proof.Machine
end

