-- ==== Sys2Proof/Proofs/FabricOperations.lean ====
section
/-!
Remote puts and pennants (R237 to R239).
-/

namespace Sys2Proof.Machine

/-! ## What the checks of a fabric operation leave -/

theorem kept_rangeCauses (env : Env) (acc : Acc) : ∀ (ls : List (Nat × Nat)) (s : State), Kept s (rangeCauses s env acc ls).1
  | [], s => .refl s
  | (va, n) :: ls, s => by
    simp only [rangeCauses]
    split
    · exact kept_rangeCauses env acc ls s
    · have h := (kept_translate s env va acc).trans (kept_rangeCauses env acc ls _)
      split
      · exact h
      · split <;> exact h

theorem kept_fabDest (s : State) (env : Env) (va n : Nat) : Kept s (fabDest s env va n).1 := by
  unfold fabDest
  split
  · exact kept_rangeCauses _ _ _ s
  · have ht := kept_translate s env va .fab
    simp only
    split
    · exact ht.trans (kept_rangeCauses _ _ _ _)
    · split
      · split
        · exact ht.trans (kept_touchLeaf _ _ _ _ _)
        · exact ht
      · exact ht.trans (kept_rangeCauses _ _ _ _)

/-- Lines that meet no cause lie outside the aperture. -/
theorem rangeCauses_none (env : Env) (acc : Acc) : ∀ {ls : List (Nat × Nat)} {s s1 : State}, rangeCauses s env acc ls = (s1, []) →
    ∀ l ∈ ls, overlap l.1 l.2 Config.aperture Config.apertureBytes = false
  | [], _, _, _ => fun _ hl => absurd hl List.not_mem_nil
  | (va, n) :: ls, s, s1, h => by
    simp only [rangeCauses] at h
    split at h
    · cases h
    case isFalse hb =>
      have hrest : rangeCauses (translate s env va acc).1 env acc ls = ((rangeCauses (translate s env va acc).1 env acc ls).1, []) := by
        split at h
        · cases h
        · split at h
          · exact Prod.ext rfl (Prod.mk.inj h).2
          · cases h
      refine List.forall_mem_cons.mpr ⟨?_, rangeCauses_none env acc hrest⟩
      simp only [barred, Bool.or_eq_true, not_or, Bool.not_eq_true] at hb
      exact hb.2

theorem filter_rangeCauses {env : Env} {acc : Acc} {ls : List (Nat × Nat)} {s s1 : State} (h : rangeCauses s env acc ls = (s1, [])) :
    ls.filter (fun l => !overlap l.1 l.2 Config.aperture Config.apertureBytes) = ls :=
  List.filter_eq_self.mpr fun l hl => by rw [rangeCauses_none env acc h l hl]; rfl

theorem othersKept_addFab (w : Who) (s : State) (op : FabOp) : OthersKept w s (addFab s op) := .of_eq rfl rfl rfl rfl

/-! ## Remote puts and pennants -/

/-- What fput does (R237, R239). -/
def fputRes (d b o : BitVec 7) (c : Ctx) : Res :=
  let src := (c.pv d 0).toNat
  let len := (c.uvk d 2).toNat
  let dst := c.addr b o 8 c.first
  let bad := !(1 ≤ len && len ≤ 65536) || overlap src len Config.aperture Config.apertureBytes
  let dr := fabDest c.s (laneEnv c.s c.g c.first) dst.toNat (Nat.max len 1)
  let sr := rangeCauses dr.1 (laneEnv c.s c.g c.first) .read ((linesOf src len).filter fun l => !overlap l.1 l.2 Config.aperture Config.apertureBytes)
  let (dc, peer, pa) := match dr.2 with
    | .error cs => (cs, (0 : BitVec 20), 0)
    | .ok t => ([], fabPeer sr.1 t.pa, t.pa)
  let off := dc.isEmpty && (sr.1.down.contains peer || c.t.broken.contains peer)
  let cs := dc ++ sr.2 ++ (if off then [(0x16, 0)] else []) ++ (if bad then [(0x22, 0)] else [])
  if !cs.isEmpty then leastTrap c sr.1 cs dst 0 1
  else pairRun c sr.1 (crc64 3 (toBytes 8 dst.toNat ++ toBytes 8 src ++ toBytes 4 len))
    (fun s =>
      let op : FabOp := { team := c.g.team, dest := peer, va := dst, rpa := pa, src := BitVec.ofNat 64 src, len := len, tids := actTids c }
      ({ s := addFab s { op with at_ := s.writes, view := releaseAct c s } }, []))
    fun s _ => { s := s }

theorem exec_fput (d b o : BitVec 7) (la : BitVec 4) (s : State) : exec (.fput d b o la) s = issue (.fput d b o la) s (fputRes d b o) := rfl

/-- What fsig does (R238, R239). -/
def fsigRes (d b o : BitVec 7) (c : Ctx) : Res :=
  let dst := c.addr b o 8 c.first
  let dr := fabDest c.s (laneEnv c.s c.g c.first) dst.toNat 8
  let (dc, peer, pa) := match dr.2 with
    | .error cs => (cs, (0 : BitVec 20), 0)
    | .ok t => ([], fabPeer dr.1 t.pa, t.pa)
  let cs := (if dst.toNat % 8 != 0 then [(5, 0)] else []) ++ dc ++ (if dc.isEmpty && c.t.broken.contains peer then [(0x16, 0)] else [])
  if !cs.isEmpty then leastTrap c dr.1 cs dst 8 1
  else pairRun c dr.1 (crc64 4 (toBytes 8 dst.toNat ++ toBytes 8 (c.pv d 0).toNat))
    (fun s => ({ s := addFab s { team := c.g.team, dest := peer, va := dst, rpa := pa, pennant := some (c.pv d 0), tids := actTids c, at_ := s.writes, view := releaseAct c s } }, []))
    fun s _ => { s := s }

theorem exec_fsig (d b o : BitVec 7) (la : BitVec 4) (s : State) : exec (.fsig d b o la) s = issue (.fsig d b o la) s (fsigRes d b o) := rfl

/-- A fabric operation that meets no cause joins the streams; the primary alone of a pair sends it. -/
theorem runs_fabric {s s0 : State} {i : Instr} {c : Ctx} {body : Ctx → Res} {sig : W64} {op : State → FabOp} (h : Runs s i c) (hfill : Filled c i)
    (he : exec i s = issue i s body) (hk : Kept s s0)
    (hb : body c = pairRun c s0 sig (fun s => ({ s := addFab s (op s) }, [])) fun s _ => { s := s }) :
    (isPaired c.t = false → Completes s (addFab s0 (op s0)) i c c.g.masks 0 (fun _ => c.pc + 4) []) ∧
    Paired s s0 i c sig (Completes s (forward (addFab s0 (op s0)) c.g c.pc c.act []) i c c.g.masks 0 (fun _ => c.pc + 4) [])
      (fun s1 c1 _ => Completes s s1 i c1 c.g.masks 0 (fun _ => c.pc + 4) []) := by
  obtain ⟨-, -, hct⟩ := issuer_find s c h.path
  have hr := (Reached.filled h hfill).kept hk
  have ht : teamOf s0 c.g.team = c.t := by rw [hct]; unfold teamOf findTeam; rw [hk.teams]
  exact runs_pairRun h hfill he hb hr ht rfl (hr.goes (othersKept_addFab _ _ _) rfl rfl) (congrArg (·.twin) ht) .nil List.nodup_nil (Nat.zero_le _)
    fun s1 vs f hf h1 hb => follows_plain h hfill he hf h1 hb

/-- Settles O36. -/
theorem fabricOperationsJoinTheirStream : Obligations.FabricOperationsJoinTheirStream := by
  intro s s1 s2 c d b o la t n op
  refine ⟨fun h hfill hn h1 h2 hov hcan hd hs hup hop => ?_, fun h hfill hal hd hup hop => ?_⟩
  · obtain ⟨-, hcs, -⟩ := issuer_find s c h.path
    subst hn hop
    have hmax : Nat.max (c.uvk d 2).toNat 1 = (c.uvk d 2).toNat := Nat.max_eq_left h1
    refine runs_fabric (op := fun s => { team := c.g.team, dest := fabPeer s2 t.pa, va := c.addr b o 8 c.first, rpa := t.pa, src := c.pv d 0
                                         len := (c.uvk d 2).toNat, tids := actTids c, at_ := s.writes, view := releaseAct c s })
      h hfill (exec_fput d b o la s) ?_ ?_
    · have k1 := kept_fabDest s (laneEnv s c.g c.first) (c.addr b o 8 c.first).toNat (c.uvk d 2).toNat
      have k2 := kept_rangeCauses (laneEnv s c.g c.first) .read (linesOf (c.pv d 0).toNat (c.uvk d 2).toNat) s1
      rw [hd] at k1
      rw [hs] at k2
      exact k1.trans k2
    · unfold fputRes
      simp only [hcs, hmax, hd, filter_rangeCauses hs, hs, hup, hov, h1, h2, BitVec.ofNat_toNat, BitVec.setWidth_eq]
      simp
  · obtain ⟨-, hcs, -⟩ := issuer_find s c h.path
    subst hop
    refine runs_fabric (op := fun s => { team := c.g.team, dest := fabPeer s1 t.pa, va := c.addr b o 8 c.first, rpa := t.pa, pennant := some (c.pv d 0)
                                         tids := actTids c, at_ := s.writes, view := releaseAct c s })
      h hfill (exec_fsig d b o la s) ?_ ?_
    · have k1 := kept_fabDest s (laneEnv s c.g c.first) (c.addr b o 8 c.first).toNat 8
      rwa [hd] at k1
    · unfold fsigRes
      simp only [hcs, hd, hup, hal]
      simp

end Sys2Proof.Machine
end

