-- ==== Sys2Proof/Proofs/LaunchSubmission.lean ====
section
/-!
The launch instruction (R175, R307, R308).
-/

namespace Sys2Proof.Machine

/-! ## Launch -/

theorem othersKept_modContext (w : Who) (s : State) (k : Nat) (f : Context → Context) : OthersKept w s (modContext s k f) := .of_eq rfl rfl rfl rfl

theorem kept_readDesc (s : State) (c q : Nat) : Kept s (readDesc s c q).1 := by
  unfold readDesc
  have h := kept_readAt s (devEnv s c false) .read (descAt s c q) 64
  split
  case h_1 he => rwa [he] at h
  case h_2 he => rwa [he] at h

/-- A submission changes nothing but memory, what the walks leave, and its context. -/
theorem submit_eq (s : State) (c : Nat) (b : List Byte) (v : View) : ∃ t, Kept s t ∧ ∃ ks, (submit s c b v).1 = { t with contexts := ks } := by
  unfold submit
  have h1 := kept_readDesc s c 63
  generalize readDesc s c 63 = x at h1 ⊢
  obtain ⟨s1, d⟩ := x
  simp only at h1 ⊢
  split
  · exact ⟨s1, h1, s1.contexts, rfl⟩
  · have h2 := h1.trans (kept_writeAt s1 (devEnv s c false) (d.base + 128 * (d.tail % 2 ^ d.logn)) b {})
    split
    case h_1 he => rw [he] at h2; exact ⟨_, h2, _, rfl⟩
    case h_2 he => rw [he] at h2; exact ⟨_, h2, _, rfl⟩
    case h_3 s2 he =>
      rw [he] at h2
      have h3 := h2.trans (kept_writeAt s2 (devEnv s c false) (descAt s c 63 + 0x1C) (toBytes 4 (d.tail + 1)) {})
      split
      case h_1 he => rw [he] at h3; exact ⟨_, h3, _, rfl⟩
      case h_2 s3 _ _ he => rw [he] at h3; exact ⟨_, h3, _, rfl⟩

theorem Reached.submit {s t : State} {i : Instr} {c : Ctx} (h : Reached s t i c id t) (k : Nat) (b : List Byte) (v : View) :
    Reached s (submit t k b v).1 i c id (submit t k b v).1 ∧ (submit t k b v).1.teams = t.teams := by
  obtain ⟨u, hk, ks, e⟩ := submit_eq t k b v
  rw [e]
  exact ⟨(h.kept hk).goes (.of_eq rfl rfl rfl rfl) rfl rfl, hk.teams⟩

/-- What launch does (R175). -/
def launchRes (d b o : BitVec 7) (c : Ctx) : Res :=
  let a := c.addr b o 128 c.first
  if a.toNat % 128 != 0 then { s := c.s, hits := allHit c 5 0 a 128 0 }
  else
    match readAt c.s (laneEnv c.s c.g c.first) .read a.toNat 128 with
    | (s1, .error (x, tok)) => { s := s1, hits := allHit c x tok a 128 0 }
    | (s1, .ok bs) =>
      pairRun c s1 (crc64 0 bs)
        (fun s => match Machine.submit s c.t.ctx bs (releaseAct c s) with
          | (s2, some id) => ({ s := s2, regs := uRes c d id }, [id.setWidth 64])
          | (s2, none) => ({ s := s2, wait := some (.tlbmiss, 0), keep := true }, []))
        fun s vs => { s := s, regs := uRes c d ((vs.headD 0).setWidth 32) }

theorem exec_launch (d b o : BitVec 7) (la : BitVec 4) (s : State) : exec (.launch d b o la) s = issue (.launch d b o la) s (launchRes d b o) := by
  show execLaunch d b o la s = _
  unfold execLaunch launchRes
  rfl

theorem gives_uRes (c : Ctx) (d : BitVec 7) (v : W32) : Gives c (uRes c d v) (dest c d fun _ => v) := .cons ⟨rfl, fun _ _ => rfl⟩ .nil

/-- Settles O37. -/
theorem launchSubmitsToItsContext : Obligations.LaunchSubmitsToItsContext := by
  rintro s s1 s2 c d b o la bs id i rfl h hfill hal hread hsub
  obtain ⟨-, hcs, hct⟩ := issuer_find s c h.path
  have hk := kept_readAt s (laneEnv s c.g c.first) .read (c.addr b o 128 c.first).toNat 128
  rw [hread] at hk
  have hr := (Reached.filled h hfill).kept hk
  have ht : teamOf s1 c.g.team = c.t := by rw [hct]; unfold teamOf findTeam; rw [hk.teams]
  obtain ⟨hr2, ht2⟩ := hr.submit c.t.ctx bs (releaseAct c s1)
  rw [hsub] at hr2 ht2
  have he := exec_launch d b o la s
  refine runs_pairRun (lead := _) h hfill he (by unfold launchRes; simp [hal, hcs, hread]; rfl) hr ht (by simp only [hsub]; rfl) hr2 ?_ (gives_uRes c d id)
    (List.nodup_singleton _) (by simp [dest]) fun s3 vs f hf h1 hb =>
      h1.run h hf he ((congrArg (launchRes d b o) hfill).trans hb) (gives_uRes c d _) (List.nodup_singleton _) (by simp [dest])
  rw [← ht]; unfold teamOf findTeam; rw [ht2]

end Sys2Proof.Machine
end

