-- ==== Sys2Proof/Proofs/BytesAtPlaces.lean ====
section
/-!
Bytes at places: what writes of memory and of scratchpads leave at every place, and runs of bytes.
-/

namespace Sys2Proof.Machine

/-! ## The last of several writes to a place -/

theorem firstWhere_append {α : Type} (p : α → Bool) (l m : List α) : firstWhere p (l ++ m) = (firstWhere p l).or (firstWhere p m) := by
  induction l with
  | nil => rfl
  | cons x l ih =>
    simp only [List.cons_append, firstWhere]
    split
    · rfl
    · exact ih

theorem newest_append (p : Cell) (l m : List (Cell × Byte)) : newest p (l ++ m) = (newest p m).or (newest p l) := by
  unfold newest
  rw [List.reverse_append, firstWhere_append, Option.map_or]

theorem newest_cons (p : Cell) (x : Cell × Byte) (l : List (Cell × Byte)) : newest p (x :: l) = (newest p l).or (if x.1 = p then some x.2 else none) := by
  rw [← List.singleton_append, newest_append]
  congr 1
  simp only [newest, List.reverse_singleton, firstWhere, beq_iff_eq]
  split <;> rfl

theorem newest_nil (p : Cell) : newest p [] = none := rfl

theorem getD_or {α : Type} (a b : Option α) (d : α) : (a.or b).getD d = a.getD (b.getD d) := by cases a <;> rfl

/-! ## Writes of the places of two states -/

/-- The bytes of `t` are those of `s` after the writes; the places of addresses are the same, and so are the control registers. -/
structure Puts (s : State) (ws : List (Cell × Byte)) (t : State) : Prop where
  cells : ∀ p, cellAt t p = (newest p ws).getD (cellAt s p)
  near : t.nearStacks = s.nearStacks
  ctl : t.ctl = s.ctl

theorem Puts.refl (s : State) : Puts s [] s := ⟨fun _ => rfl, rfl, rfl⟩

theorem Puts.trans {a b c : State} {l m : List (Cell × Byte)} (h : Puts a l b) (k : Puts b m c) : Puts a (l ++ m) c :=
  ⟨fun p => by rw [k.cells, newest_append, getD_or, h.cells], k.near.trans h.near, k.ctl.trans h.ctl⟩

theorem cellAt_congr {s t : State} (hm : t.mem = s.mem) (hc : t.clusters = s.clusters) (p : Cell) : cellAt t p = cellAt s p := by
  obtain ⟨_ | k, o⟩ := p
  · simp only [cellAt, hm]
  · simp only [cellAt, clusterOf, hc]

theorem Puts.of_eq {s t : State} (hm : t.mem = s.mem) (hc : t.clusters = s.clusters) (hs : t.nearStacks = s.nearStacks) (hl : t.ctl = s.ctl) : Puts s [] t :=
  ⟨cellAt_congr hm hc, hs, hl⟩

theorem routeAlias_congr {s t : State} (h : t.nearStacks = s.nearStacks) (pa : Nat) : routeAlias t pa = routeAlias s pa := by unfold routeAlias; rw [h]

theorem cellsOf_congr {s t : State} (h : t.nearStacks = s.nearStacks) (l : List Spot) : cellsOf t l = cellsOf s l := by
  unfold cellsOf
  congr 1
  funext x
  cases x with
  | mem _ _ _ pa => simp only [routeAlias_congr h]
  | pad _ _ _ => rfl

theorem wholeSpot_congr {s t : State} (h : t.nearStacks = s.nearStacks) (x : Spot) : wholeSpot t x ↔ wholeSpot s x := by
  cases x with
  | mem _ _ _ _ => simp only [wholeSpot, routeAlias_congr h]
  | pad _ _ _ => rfl

theorem unmarked_congr {s t : State} (h : t.ctl = s.ctl) (x : Spot) : unmarked t x ↔ unmarked s x := by
  cases x with
  | mem _ _ _ _ => simp only [unmarked, h]
  | pad _ _ _ => rfl

/-- A fold of writes, of which each is what its element says. -/
theorem Puts.foldl {α : Type} {f : State → α → State} {ws : α → List (Cell × Byte)} {s : State} : ∀ {l : List α} {t : State} {vs : List (Cell × Byte)},
    (∀ t vs x, x ∈ l → Puts s vs t → Puts s (vs ++ ws x) (f t x)) → Puts s vs t → Puts s (vs ++ l.flatMap ws) (l.foldl f t)
  | [], _, _, _, h => by simpa using h
  | x :: l, t, vs, hf, h => by
    have := Puts.foldl (l := l) (fun t vs y hy => hf t vs y (List.mem_cons_of_mem _ hy)) (hf t vs x List.mem_cons_self h)
    simpa [List.flatMap_cons, List.append_assoc] using this

/-! ## Bytes at consecutive places -/

/-- Bytes at consecutive places from one. -/
def bytesAt (k : Option Nat) : Nat → List Byte → List (Cell × Byte)
  | _, [] => []
  | a, b :: bs => ((k, a), b) :: bytesAt k (a + 1) bs

theorem newest_bytesAt (k : Option Nat) (p : Cell) : ∀ (bs : List Byte) (a : Nat) (d : Byte),
    (newest p (bytesAt k a bs)).getD d = if p.1 = k ∧ a ≤ p.2 ∧ p.2 < a + bs.length then nth 0 bs (p.2 - a) else d
  | [], a, d => by simp [bytesAt, newest_nil]
  | b :: bs, a, d => by
    rw [bytesAt, newest_cons, getD_or, newest_bytesAt k p bs (a + 1)]
    obtain ⟨j, o⟩ := p
    simp only [List.length_cons, Prod.mk.injEq]
    by_cases hj : j = k
    · subst hj
      by_cases h1 : a + 1 ≤ o ∧ o < a + 1 + bs.length
      · obtain ⟨e, he⟩ : ∃ e, o - a = e + 1 := ⟨o - a - 1, by omega⟩
        rw [if_pos ⟨rfl, h1⟩, if_pos ⟨rfl, by omega⟩, he, show o - (a + 1) = e by omega]; rfl
      · rw [if_neg fun h => h1 h.2]
        by_cases h2 : a = o
        · subst h2; simp [nth]
        · rw [if_neg fun h => h2 h.2, if_neg fun h => by omega]; rfl
    · rw [if_neg fun h => hj h.1, if_neg fun h => hj h.1.symm, if_neg fun h => hj h.1]; rfl

theorem bytesAt_eq (k : Option Nat) : ∀ (bs : List Byte) (a : Nat), bytesAt k a bs = ((upto bs.length).map fun i => (k, a + i)).zip bs
  | [], _ => rfl
  | b :: bs, a => by
    have h : (span 1 bs.length).map (fun i => (k, a + i)) = (span 0 bs.length).map fun i => (k, a + 1 + i) := by
      refine List.ext_getElem? fun i => ?_
      simp only [List.getElem?_map]
      by_cases hi : i < bs.length
      · rw [upto_get _ _ i hi, upto_get _ _ i hi]; simp; omega
      · rw [List.getElem?_eq_none (by rw [length_span]; omega), List.getElem?_eq_none (by rw [length_span]; omega)]; rfl
    rw [bytesAt, bytesAt_eq k bs (a + 1)]
    simp only [upto, List.length_cons, span, List.map_cons, List.zip_cons_cons, h, Nat.add_zero]

/-! ## What the writes of memory and of SRAM put -/

theorem puts_physWriteBy (s : State) (w : Writer) (pa : Nat) (bs : List Byte) : Puts s (bytesAt none (routeAlias s pa) bs) (physWriteBy s w pa bs) where
  near := rfl
  ctl := rfl
  cells := fun p => by
    rw [newest_bytesAt]
    obtain ⟨_ | k, o⟩ := p
    · simp only [cellAt, mem_physWriteBy, true_and]
      exact mget_memPut o bs s.mem _
    · rw [if_neg (by simp)]; rfl

theorem puts_sramWriteBy (s : State) (w : Writer) (c off : Nat) (bs : List Byte) : Puts s (bytesAt (some c) off bs) (sramWriteBy s w c off bs) where
  near := rfl
  ctl := rfl
  cells := fun p => by
    rw [newest_bytesAt]
    obtain ⟨_ | k, o⟩ := p
    · rw [if_neg (by simp)]; rfl
    · simp only [cellAt, sramWriteBy, clusterOf_modCluster, Option.some.injEq]
      by_cases hk : k = c
      · subst hk
        simp only [if_true, true_and]
        exact mget_memPut o bs _ _
      · rw [if_neg hk, if_neg fun h => hk h.1]; rfl

theorem puts_healRange (s : State) (pa n : Nat) : Puts s [] (healRange s pa n) := .of_eq rfl rfl rfl rfl

theorem puts_healSram (s : State) (c off n : Nat) : Puts s [] (healSram s c off n) where
  near := rfl
  ctl := rfl
  cells := fun p => by
    rw [newest_nil]
    obtain ⟨_ | k, o⟩ := p
    · rfl
    · simp only [cellAt, healSram, clusterOf_modCluster]
      split
      case isTrue h => subst h; rfl
      · rfl

/-! ## Runs of bytes -/

/-- The runs of some bytes are these bytes, in order. -/
theorem flatMap_runsOf {α : Type} [DecidableEq α] (by_ : Nat → α) {β : Type} (g : Nat → Byte → β) (F : Nat → List Byte → List β)
    (hn : ∀ k, F k [] = []) (hc : ∀ k b bs, F k (b :: bs) = g k b :: F (k + 1) bs) : ∀ m : SMap (Option Byte),
    (runsOf by_ m).flatMap (fun r => F r.1 r.2.2) = m.filterMap fun x => x.2.map (g x.1)
  | [] => rfl
  | (k, none) :: m => by
    rw [runsOf, flatMap_runsOf by_ g F hn hc m]; rfl
  | (k, some b) :: m => by
    have ih := flatMap_runsOf by_ g F hn hc m
    rw [runsOf]
    split
    next k' w' bs rs hr =>
      rw [hr] at ih
      simp only [List.flatMap_cons] at ih
      split
      next he =>
        obtain ⟨rfl, -⟩ : k' = k + 1 ∧ _ := by simpa using he
        simp only [List.flatMap_cons, hc, List.cons_append, ih, List.filterMap_cons, Option.map_some]
      · simp only [List.flatMap_cons, hc, hn, List.cons_append, List.nil_append, ih, List.filterMap_cons, Option.map_some]
    next hr =>
      rw [hr] at ih
      simp only [List.flatMap_nil] at ih
      simp only [List.flatMap_cons, List.flatMap_nil, hc, hn, List.append_nil, ← ih, List.filterMap_cons, Option.map_some]

/-- Runs begin at bytes. -/
theorem runsOf_start {α : Type} [DecidableEq α] (by_ : Nat → α) : ∀ (m : SMap (Option Byte)) (r : Nat × α × List Byte), r ∈ runsOf by_ m → ∃ b, (r.1, some b) ∈ m
  | [], r, h => absurd h List.not_mem_nil
  | (k, none) :: m, r, h => by
    rw [runsOf] at h
    obtain ⟨b, hb⟩ := runsOf_start by_ m r h
    exact ⟨b, List.mem_cons_of_mem _ hb⟩
  | (k, some b) :: m, r, h => by
    have ih := runsOf_start by_ m
    rw [runsOf] at h
    split at h
    next k' w' bs rs hr =>
      rw [hr] at ih
      split at h
      · rcases List.mem_cons.mp h with rfl | h
        · exact ⟨b, List.mem_cons_self⟩
        · obtain ⟨y, hy⟩ := ih r (List.mem_cons_of_mem _ h)
          exact ⟨y, List.mem_cons_of_mem _ hy⟩
      · rcases List.mem_cons.mp h with rfl | h
        · exact ⟨b, List.mem_cons_self⟩
        · obtain ⟨y, hy⟩ := ih r h
          exact ⟨y, List.mem_cons_of_mem _ hy⟩
    next hr =>
      rw [List.mem_singleton.mp h]
      exact ⟨b, List.mem_cons_self⟩

end Sys2Proof.Machine
end

