-- ==== Sys2Proof/Proofs/StoredBytes.lean ====
section
/-!
The bytes that a store of several lanes leaves at its places (R214).
-/

namespace Sys2Proof.Machine

/-! ## Numbers in order -/

theorem upto_eq_range (n : Nat) : upto n = List.range n := by
  refine List.ext_getElem? fun i => ?_
  rw [upto]
  by_cases h : i < n
  · rw [upto_get _ _ i h, List.getElem?_range h, Nat.zero_add]
  · rw [List.getElem?_eq_none (by rw [length_span]; omega), List.getElem?_eq_none (by simp; omega)]

theorem length_upto (n : Nat) : (upto n).length = n := length_span 0 n

theorem upto_add (n m : Nat) : upto (n + m) = upto n ++ (upto m).map (n + ·) := by
  simp only [upto_eq_range, List.range_add]

theorem mem_upto {n i : Nat} : i ∈ upto n ↔ i < n := by rw [upto_eq_range, List.mem_range]

theorem nth_append_left {α : Type} (d : α) {l m : List α} {i : Nat} (h : i < l.length) : nth d (l ++ m) i = nth d l i := by
  rw [nth_getElem?, nth_getElem?, List.getElem?_append_left h]

theorem nth_append_right {α : Type} (d : α) (l m : List α) (i : Nat) : nth d (l ++ m) (l.length + i) = nth d m i := by
  rw [nth_getElem?, nth_getElem?, List.getElem?_append_right (Nat.le_add_right _ _), Nat.add_sub_cancel_left]

theorem nth_drop {α : Type} (d : α) (l : List α) (n i : Nat) : nth d (l.drop n) i = nth d l (n + i) := by
  rw [nth_getElem?, nth_getElem?, List.getElem?_drop]

theorem nth_map {α β : Type} (d : β) (f : α → β) (l : List α) (i : Nat) (e : α) (h : i < l.length) : nth d (l.map f) i = f (nth e l i) := by
  rw [nth_getElem?, nth_getElem?, List.getElem?_map, List.getElem?_eq_getElem h]; rfl

theorem nth_upto (d : Nat) {n i : Nat} (h : i < n) : nth d (upto n) i = i := by
  rw [nth_getElem?, upto_eq_range, List.getElem?_range h]; rfl

/-! ## The places of one part of a translation -/

/-- The memory that a part of a translation is in. -/
def spotKey : Spot → Option Nat
  | .mem _ _ _ _ => none
  | .pad c _ _ => some c

/-- Its first place. -/
def spotBase (s : State) : Spot → Nat
  | .mem _ _ _ pa => routeAlias s pa
  | .pad _ off _ => off

/-- Its bytes. -/
def spotSize : Spot → Nat
  | .mem _ n _ _ => n
  | .pad _ _ n => n

theorem cellsOf_cons (s : State) (x : Spot) (l : List Spot) :
    cellsOf s (x :: l) = ((upto (spotSize x)).map fun i => (spotKey x, spotBase s x + i)) ++ cellsOf s l := by
  cases x <;> rfl

theorem cellsOf_append (s : State) (l m : List Spot) : cellsOf s (l ++ m) = cellsOf s l ++ cellsOf s m := List.flatMap_append

/-! ## The bytes that a store leaves at its places -/

/-- The bytes of an access that are someone's store, with their places. -/
def keptBytes (s : State) (va : Nat) (who : Nat → List Agent) (l : List Spot) (bs : List Byte) : List (Cell × Byte) :=
  (upto (cellsOf s l).length).filterMap fun k => if (who (va + k)).isEmpty then none else some (nth (none, 0) (cellsOf s l) k, nth 0 bs k)

theorem keptBytes_cons (s : State) (va : Nat) (who : Nat → List Agent) (x : Spot) (l : List Spot) (bs : List Byte) :
    keptBytes s va who (x :: l) bs = ((upto (spotSize x)).filterMap fun k => if (who (va + k)).isEmpty then none else some ((spotKey x, spotBase s x + k), nth 0 bs k))
      ++ keptBytes s (va + spotSize x) who l (bs.drop (spotSize x)) := by
  unfold keptBytes
  have hl : ((upto (spotSize x)).map fun i => (spotKey x, spotBase s x + i)).length = spotSize x := by rw [List.length_map, length_upto]
  rw [cellsOf_cons, List.length_append, hl, upto_add, List.filterMap_append, List.filterMap_map]
  congr 1
  · refine List.filterMap_congr fun k hk => ?_
    have hk := mem_upto.mp hk
    rw [nth_append_left _ (by rw [hl]; exact hk), nth_map _ _ _ _ 0 (by rw [length_upto]; exact hk), nth_upto 0 hk]
  · refine List.filterMap_congr fun k _ => ?_
    have h2 := nth_append_right ((none, 0) : Cell) ((upto (spotSize x)).map fun i => (spotKey x, spotBase s x + i)) (cellsOf s l) k
    rw [hl] at h2
    simp only [Function.comp, h2, nth_drop, Nat.add_assoc]

/-- The writes of the runs of one part put the bytes that are someone's store. -/
theorem puts_runs {s t : State} {vs : List (Cell × Byte)} (by_ : List Agent → Writer) (va : Nat) (who : Nat → List Agent) (x : Spot) (bs : List Byte)
    (hx : wholeSpot s x) (h : Puts s vs t) :
    Puts s (vs ++ (upto (spotSize x)).filterMap fun k => if (who (va + k)).isEmpty then none else some ((spotKey x, spotBase s x + k), nth 0 bs k))
      ((runsOf (fun i => who (va + i)) ((upto (spotSize x)).map fun i => (i, if (who (va + i)).isEmpty then none else some (nth 0 bs i)))).foldl
        (fun t y => match x with
          | .pad k off _ => sramWriteBy t (by_ y.2.1) k (off + y.1) y.2.2
          | .mem _ _ _ pa => physWriteBy t (by_ y.2.1) (pa + y.1) y.2.2) t) := by
  have hflat := flatMap_runsOf (fun i => who (va + i)) (fun k b => ((spotKey x, spotBase s x + k), b)) (fun k r => bytesAt (spotKey x) (spotBase s x + k) r)
    (fun _ => rfl) (fun _ _ _ => rfl) ((upto (spotSize x)).map fun i => (i, if (who (va + i)).isEmpty then none else some (nth 0 bs i)))
  rw [List.filterMap_map] at hflat
  have hf : ((fun y : Nat × Option Byte => y.2.map fun b => ((spotKey x, spotBase s x + y.1), b)) ∘
      fun i => (i, if (who (va + i)).isEmpty = true then none else some (nth 0 bs i)))
      = fun k => if (who (va + k)).isEmpty then none else some ((spotKey x, spotBase s x + k), nth 0 bs k) := by
    funext k
    simp only [Function.comp]
    split <;> rfl
  rw [hf] at hflat
  rw [← hflat]
  refine Puts.foldl (fun u us y hy hu => ?_) h
  cases x with
  | pad k off n => exact hu.trans (puts_sramWriteBy u _ k (off + y.1) y.2.2)
  | mem v n t pa =>
    obtain ⟨b, hb⟩ := runsOf_start _ _ _ hy
    obtain ⟨i, hi, he⟩ := List.mem_map.mp hb
    have hi : y.1 < n := by rw [← congrArg Prod.fst he]; exact mem_upto.mp hi
    have hr : routeAlias u (pa + y.1) = spotBase s (.mem v n t pa) + y.1 := by
      rw [routeAlias_congr hu.near]; exact hx.2 y.1 hi
    have := puts_physWriteBy u (by_ y.2.1) (pa + y.1) y.2.2
    rw [hr] at this
    exact hu.trans this

/-- A store of several lanes puts the bytes that are someone's store. -/
theorem puts_writeKept {s : State} (by_ : Spot → List Agent → Writer) (who : Nat → List Agent) : ∀ (l : List Spot) (va : Nat) (bs : List Byte) (t : State)
    (vs : List (Cell × Byte)), (∀ x ∈ l, wholeSpot s x) → Puts s vs t → Puts s (vs ++ keptBytes s va who l bs) (writeKept t by_ true va who l bs)
  | [], va, bs, t, vs, _, h => by simpa [keptBytes, cellsOf, writeKept, upto, span] using h
  | x :: l, va, bs, t, vs, hx, h => by
    rw [keptBytes_cons, ← List.append_assoc]
    have h1 := puts_runs (by_ x) va who x bs (hx x List.mem_cons_self) h
    cases x with
    | pad k off n =>
      have h2 := h1.trans (puts_healSram _ k off n)
      rw [List.append_nil] at h2
      exact puts_writeKept by_ who l _ _ _ _ (fun y hy => hx y (List.mem_cons_of_mem _ hy)) h2
    | mem v n t pa =>
      have h2 := h1.trans (puts_healRange _ pa n)
      rw [List.append_nil] at h2
      exact puts_writeKept by_ who l _ _ _ _ (fun y hy => hx y (List.mem_cons_of_mem _ hy)) h2

end Sys2Proof.Machine
end

