-- ==== Sys2Proof/Proofs/Traffic.lean ====
section
/-!
What accesses leave as it was: a frame for reads, writes, translations and the marks they leave (R336, R346).
-/

namespace Sys2Proof.Machine

/-! ## What an access can change -/

/-- What accesses leave as it was: all but memory and the scratchpads, their record and poison, the orders of the agents, what caches and TLBs hold,
interrupts, and free values. -/
structure Traffic (s t : State) : Prop where
  state : t = { s with
    free := t.free, mem := t.mem, poison := t.poison, writes := t.writes, past := t.past, orders := t.orders, tlb := t.tlb, ptrs := t.ptrs
    l1d := t.l1d, l1i := t.l1i, l2c := t.l2c, dirty := t.dirty, out := t.out, ctl := t.ctl, clusters := t.clusters, zeroing := t.zeroing }
  ctl : t.ctl = { s.ctl with irqv := t.ctl.irqv }
  cluster : ∀ k, clusterOf t k = { clusterOf s k with sram := (clusterOf t k).sram, sramBad := (clusterOf t k).sramBad }

theorem Traffic.refl (s : State) : Traffic s s := ⟨rfl, rfl, fun _ => rfl⟩

theorem Traffic.trans {a b c : State} (h : Traffic a b) (k : Traffic b c) : Traffic a c where
  state := k.state.trans (by rw [h.state])
  ctl := k.ctl.trans (by rw [h.ctl])
  cluster := fun x => (k.cluster x).trans (by rw [h.cluster x])

theorem Traffic.of_ite {p : Prop} [Decidable p] {s a b : State} (h : Traffic s a) (k : Traffic s b) : Traffic s (if p then a else b) := by
  split <;> assumption

theorem Traffic.fold {α : Type} {f : State → α → State} (h : ∀ s x, Traffic s (f s x)) : ∀ (l : List α) (s : State), Traffic s (l.foldl f s)
  | [], s => .refl s
  | x :: l, s => (h s x).trans (Traffic.fold h l _)

theorem Traffic.fold_fst {α β : Type} {f : State × β → α → State × β} (h : ∀ a x, Traffic a.1 (f a x).1) : ∀ (l : List α) (a : State × β),
    Traffic a.1 (l.foldl f a).1
  | [], _ => .refl _
  | x :: l, a => (h a x).trans (Traffic.fold_fst h l _)

theorem Traffic.of_fst {α : Type} {s t : State} {r : State × α} {x : α} (h : Traffic s r.1) (e : r = (t, x)) : Traffic s t := by rw [e] at h; exact h

theorem Traffic.near {s t : State} (h : Traffic s t) : t.nearStacks = s.nearStacks := by rw [h.state]

theorem traffic_free {s : State} {f : Nat} : Traffic s { s with free := f } := ⟨rfl, rfl, fun _ => rfl⟩

theorem traffic_chooseFrom {α : Type} (s : State) (l : List α) : Traffic s (chooseFrom s l).1 := by
  obtain ⟨f, hf⟩ := chooseFrom_free s l
  rw [hf]
  exact traffic_free

theorem traffic_setOrder (s : State) (a : Agent) (o : Order) : Traffic s (setOrder s a o) := ⟨rfl, rfl, fun _ => rfl⟩

theorem traffic_physWriteBy (s : State) (w : Writer) (pa : Nat) (bs : List Byte) : Traffic s (physWriteBy s w pa bs) := ⟨rfl, rfl, fun _ => rfl⟩

theorem traffic_physWrite (s : State) (pa : Nat) (bs : List Byte) : Traffic s (physWrite s pa bs) := traffic_physWriteBy s {} pa bs

theorem traffic_physPut (s : State) (pa n v : Nat) : Traffic s (physPut s pa n v) := traffic_physWrite s pa _

theorem traffic_healRange (s : State) (pa n : Nat) : Traffic s (healRange s pa n) := ⟨rfl, rfl, fun _ => rfl⟩

theorem traffic_sram (s : State) (c : Nat) (f : Cluster → Cluster) (hf : ∀ k, f k = { k with sram := (f k).sram, sramBad := (f k).sramBad }) :
    Traffic s (modCluster s c f) where
  state := rfl
  ctl := rfl
  cluster := fun k => by
    rw [clusterOf_modCluster]
    split
    case isTrue h => rw [h]; exact hf _
    · rfl

theorem traffic_sramWriteBy (s : State) (w : Writer) (c off : Nat) (bs : List Byte) : Traffic s (sramWriteBy s w c off bs) :=
  Traffic.trans (b := record s w (padKey c off) (sramRead s c off bs.length)) ⟨rfl, rfl, fun _ => rfl⟩ (traffic_sram _ _ _ fun _ => rfl)

theorem traffic_healSram (s : State) (c off n : Nat) : Traffic s (healSram s c off n) := traffic_sram s c _ fun _ => rfl

theorem traffic_out (s : State) (l : List Message) : Traffic s { s with out := l } := ⟨rfl, rfl, fun _ => rfl⟩

theorem traffic_irqv (s : State) (m : SMap (BitVec 128)) : Traffic s { s with ctl := { s.ctl with irqv := m } } := ⟨rfl, rfl, fun _ => rfl⟩

theorem traffic_raiseIrq (s : State) (k : Nat) : Traffic s (raiseIrq s k) := by
  unfold raiseIrq
  dsimp only
  split
  · exact (traffic_out s _).trans (traffic_physPut _ _ _ _)
  · exact traffic_irqv s _

theorem traffic_nqPost (s : State) (n : Notice) : Traffic s (nqPost s n) := by
  unfold nqPost; dsimp only
  split
  · exact ((traffic_physWrite _ _ _).trans (traffic_physPut _ _ _ _)).trans (traffic_raiseIrq _ _)
  · exact (traffic_physWrite _ _ _).trans (traffic_physPut _ _ _ _)

theorem traffic_countAccess (s : State) (pa va : Nat) (asid : BitVec 16) : Traffic s (countAccess s pa va asid) := by
  unfold countAccess
  split
  · exact .refl s
  · split
    · exact .refl s
    · dsimp only
      split
      · exact traffic_physPut _ _ _ _
      · split
        · exact (traffic_physPut _ _ _ _).trans (traffic_physPut _ _ _ _)
        · split
          · exact ((traffic_physPut _ _ _ _).trans (traffic_nqPost _ _)).trans (traffic_physPut _ _ _ _)
          · split
            · exact ((traffic_physPut _ _ _ _).trans (traffic_physPut _ _ _ _)).trans (traffic_raiseIrq _ _)
            · exact traffic_physPut _ _ _ _

/-! ## Caches and TLBs -/

/-- What caches and TLBs come to hold is all that changes, with free values. -/
structure Cached (s t : State) : Prop where
  state : t = { s with free := t.free, tlb := t.tlb, ptrs := t.ptrs, l1d := t.l1d, l1i := t.l1i, l2c := t.l2c }

theorem Cached.refl (s : State) : Cached s s := ⟨rfl⟩

theorem Cached.trans {a b c : State} (h : Cached a b) (k : Cached b c) : Cached a c := ⟨k.state.trans (by rw [h.state])⟩

theorem Cached.fold {α : Type} {f : State → α → State} (h : ∀ s x, Cached s (f s x)) : ∀ (l : List α) (s : State), Cached s (l.foldl f s)
  | [], s => .refl s
  | x :: l, s => (h s x).trans (Cached.fold h l _)

theorem Cached.traffic {s t : State} (h : Cached s t) : Traffic s t := by rw [h.state]; exact ⟨rfl, rfl, fun _ => rfl⟩

theorem Cached.puts {s t : State} (h : Cached s t) : Puts s [] t := by rw [h.state]; exact .of_eq rfl rfl rfl rfl

theorem cached_ptrs (s : State) (l : List PtrEntry) : Cached s { s with ptrs := l } := ⟨rfl⟩

theorem cached_tlb (s : State) (l : List TlbEntry) : Cached s { s with tlb := l } := ⟨rfl⟩

theorem cached_l1d (s : State) (m : SMap (List Nat)) : Cached s { s with l1d := m } := ⟨rfl⟩

theorem cached_l1i (s : State) (m : SMap (List Nat)) : Cached s { s with l1i := m } := ⟨rfl⟩

theorem cached_l2c (s : State) (m : SMap (List Nat)) : Cached s { s with l2c := m } := ⟨rfl⟩

theorem cached_chooseFrom {α : Type} (s : State) (l : List α) : Cached s (chooseFrom s l).1 := by
  obtain ⟨f, hf⟩ := chooseFrom_free s l
  rw [hf]
  exact ⟨rfl⟩

theorem cached_cacheFill (s : State) (per cap : Nat) (l : List Nat) (x : Nat) : Cached s (cacheFill s per cap l x).1 := by
  unfold cacheFill
  split
  · exact .refl s
  · dsimp only
    split
    · exact .refl s
    · exact cached_chooseFrom s _

theorem cached_fillAll (per cap : Nat) : ∀ (ks : List Nat) (x : State × List Nat), Cached x.1 (fillAll per cap ks x).1
  | [], _ => .refl _
  | k :: ks, (s, l) => (cached_cacheFill s per cap l k).trans (cached_fillAll per cap ks _)

theorem cached_fillCaches (s : State) (tile : Nat) (fetch : Bool) (p n : Nat) : Cached s (fillCaches s tile fetch p n) := by
  unfold fillCaches
  have h1 := cached_fillAll 1 (l2Lines s (tile / 5)) (linesAt p n) (s, mget [] s.l2c (tile / 5))
  generalize fillAll 1 (l2Lines s (tile / 5)) (linesAt p n) (s, mget [] s.l2c (tile / 5)) = r at h1 ⊢
  obtain ⟨s1, l⟩ := r
  replace h1 := Cached.trans h1 (cached_l2c s1 (mput [] s1.l2c (tile / 5) l))
  dsimp only
  split
  · exact h1
  · split
    · exact h1.trans (Cached.trans (cached_fillAll 1 l1iLines (linesAt p n) (_, _)) (cached_l1i _ _))
    · exact h1.trans (Cached.trans (cached_fillAll 4 l1dLines (sectorsAt p n) (_, _)) (cached_l1d _ _))

theorem cached_holdPtrs (s : State) (env : Env) (va : Nat) : Cached s (holdPtrs s env va) := cached_ptrs s _

theorem cached_holdEntry (s : State) (e : TlbEntry) : Cached s (holdEntry s e) := by
  unfold holdEntry
  split
  · exact .refl s
  · extract_lets mine full
    split
    · exact (cached_chooseFrom s _).trans (cached_tlb _ _)
    · exact cached_tlb _ _

/-! ## Translations and the marks of an access -/

theorem translate_free (s : State) (env : Env) (va : Nat) (acc : Acc) : ∃ f, (translate s env va acc).1 = { s with free := f } := chooseFrom_free s _

theorem lookPart_free (s : State) (env : Env) (acc : Acc) (va n : Nat) : ∃ f, (lookPart s env acc va n).1 = { s with free := f } := by
  unfold lookPart
  split
  · exact ⟨s.free, rfl⟩
  · exact translate_free s env va acc

theorem lookLines_free (env : Env) (acc : Acc) : ∀ (l : List (Nat × Nat)) (s : State), ∃ f, (lookLines s env acc l).1 = { s with free := f }
  | [], s => ⟨s.free, rfl⟩
  | (va, n) :: l, s => by
    obtain ⟨f, hf⟩ := lookPart_free s env acc va n
    obtain ⟨f', hf'⟩ := lookLines_free env acc l (lookPart s env acc va n).1
    exact ⟨f', hf'.trans (by rw [hf])⟩

theorem general_free (s : State) (env : Env) (acc : Acc) (va n : Nat) : ∃ f, (lookAt.general s env acc va n).1 = { s with free := f } := by
  obtain ⟨f, hf⟩ := lookLines_free env acc (linesOf va n) s
  refine ⟨f, hf ▸ ?_⟩
  unfold lookAt.general
  dsimp only
  split
  · split <;> rfl
  · rfl

/-- The checks of an access use up free values, and change nothing else. -/
theorem lookAt_free (s : State) (env : Env) (acc : Acc) (va n : Nat) : ∃ f, (lookAt s env acc va n).1 = { s with free := f } := by
  unfold lookAt
  split
  · split
    · exact ⟨s.free, rfl⟩
    · exact general_free _ _ _ _ _
  · exact general_free _ _ _ _ _

theorem traffic_lookAt (s : State) (env : Env) (acc : Acc) (va n : Nat) : Traffic s (lookAt s env acc va n).1 := by
  obtain ⟨f, hf⟩ := lookAt_free s env acc va n
  rw [hf]
  exact traffic_free

theorem traffic_touchLeaf (s : State) (env : Env) (acc : Acc) (va : Nat) (t : Tr) : Traffic s (touchLeaf s env acc va t) := by
  unfold touchLeaf
  extract_lets e s0 s1
  have h0 : Traffic s s0 := .of_ite (.refl s) (traffic_physPut _ _ _ _)
  have h1 : Traffic s s1 := h0.trans (cached_holdPtrs _ env va).traffic
  exact .of_ite h1 (h1.trans (Cached.fold (fun s b => cached_holdEntry s _) _ _).traffic)

theorem traffic_countSpot (s : State) (env : Env) (acc : Acc) (va n : Nat) (t : Tr) (pa : Nat) : Traffic s (countSpot s env acc va n t pa) := by
  have hc : ∀ (b : Bool) (s1 : State) a v i, Traffic s1 (if b = true then countAccess s1 a v i else s1) := fun b s1 a v i =>
    .of_ite (traffic_countAccess _ _ _ _) (.refl _)
  unfold countSpot
  extract_lets counts
  split
  · split
    · exact hc _ _ _ _ _
    · dsimp only
      have h := (cached_fillCaches s ‹_› (acc == .fetch) (routeAlias s pa) n).traffic
      split
      · exact h
      · split
        · exact h.trans (Traffic.trans (b := (chooseBool _).1) traffic_free (hc _ _ _ _ _))
        · exact h.trans (traffic_countAccess _ _ _ _)
  · exact hc _ _ _ _ _

theorem traffic_touchSpots (env : Env) (acc : Acc) : ∀ (l : List Spot) (s : State), Traffic s (touchSpots s env acc l)
  | [], s => .refl s
  | .mem _ _ _ _ :: l, _ => ((traffic_touchLeaf _ _ _ _ _).trans (traffic_countSpot _ _ _ _ _ _ _)).trans (traffic_touchSpots env acc l _)
  | .pad _ _ _ :: l, s => traffic_touchSpots env acc l s

/-- A write to places whose leaves have A and D, and that nothing counts, leaves no mark. -/
theorem cached_touchSpots {c : Ctl} (env : Env) (acc : Acc) (ha : acc.writes = true) : ∀ (l : List Spot) (s : State), s.ctl = c →
    (∀ x ∈ l, unmarked s x) → Cached s (touchSpots s env acc l)
  | [], s, _, _ => .refl s
  | .pad _ _ _ :: l, s, hs, h => cached_touchSpots env acc ha l s hs fun x hx => h x (List.mem_cons_of_mem _ hx)
  | .mem va n t pa :: l, s, hs, h => by
    obtain ⟨hm, hcnt⟩ := h _ List.mem_cons_self
    have h1 : Cached s (touchLeaf s env acc va t) := by
      unfold touchLeaf
      rw [ha, hm]
      simp only
      split
      · exact cached_holdPtrs _ _ _
      · exact (cached_holdPtrs _ _ _).trans (Cached.fold (fun s b => cached_holdEntry s _) _ _)
    have hcl : (touchLeaf s env acc va t).ctl = c := by rw [h1.state]; exact hs
    have hno : (leafBit t.leaf 14 && c.cntb != 0) = false := by
      rcases hcnt with h0 | h0
      · rw [← hs, h0]; simp
      · rw [h0]; rfl
    have h2 : Cached s (countSpot (touchLeaf s env acc va t) env acc va n t pa) := by
      unfold countSpot
      rw [hcl, hno]
      simp only [Bool.false_eq_true, if_false, Bool.not_false, if_true]
      split
      · split
        · exact h1
        · exact h1.trans (cached_fillCaches _ _ _ _ _)
      · exact h1
    have hu : ∀ x ∈ l, unmarked (countSpot (touchLeaf s env acc va t) env acc va n t pa) x := fun x hx =>
      (unmarked_congr (by rw [h2.state]) x).mpr (h x (List.mem_cons_of_mem _ hx))
    exact h2.trans (cached_touchSpots (c := c) env acc ha l _ (by rw [h2.state]; exact hs) hu)

/-! ## Reads and writes of places -/

theorem traffic_readOrdered (s : State) (env : Env) (kind scope p : Nat) (cur : List Byte) : Traffic s (readOrdered s env kind scope p cur).1 := by
  unfold readOrdered
  split
  · exact .refl s
  · split
    · exact .refl s
    · refine Traffic.fold_fst (fun a x => ?_) _ (s, [])
      exact (Traffic.fold (fun s y => .of_ite (.refl s) (traffic_setOrder _ _ _)) _ _).trans traffic_free

theorem traffic_readSpot (s : State) (env : Env) (x : Spot) : Traffic s (readSpot s env x).1 := by
  unfold readSpot
  split
  · exact traffic_readOrdered _ _ _ _ _ _
  · split
    · exact .refl s
    · exact traffic_readOrdered _ _ _ _ _ _

theorem traffic_readSpots (env : Env) : ∀ (l : List Spot) (s : State), Traffic s (readSpots s env l).1
  | [], s => .refl s
  | x :: l, s => (traffic_readSpot s env x).trans (traffic_readSpots env l _)

theorem traffic_readAt (s : State) (env : Env) (acc : Acc) (va n : Nat) : Traffic s (readAt s env acc va n).1 := by
  have h := traffic_lookAt s env acc va n
  unfold readAt
  split
  case h_1 s1 l e => exact (h.of_fst e).trans ((traffic_touchSpots env acc l s1).trans (traffic_readSpots env l _))
  case h_2 e => exact h.of_fst e
  case h_3 e => exact h.of_fst e

theorem traffic_writeSpots (w : Writer) : ∀ (l : List Spot) (bs : List Byte) (s : State), Traffic s (writeSpots s w l bs)
  | [], _, s => .refl s
  | .pad _ _ _ :: l, _, _ => (traffic_sramWriteBy _ _ _ _ _).trans (traffic_writeSpots w l _ _)
  | .mem _ _ _ _ :: l, _, _ => (traffic_physWriteBy _ _ _ _).trans (traffic_writeSpots w l _ _)

theorem traffic_startZero (s : State) (a f n : Nat) : Traffic s (startZero s a f n) := by
  unfold startZero
  split
  · exact .refl s
  · exact ⟨rfl, rfl, fun _ => rfl⟩

theorem traffic_writeAt (s : State) (env : Env) (va : Nat) (bs : List Byte) (w : Writer) : Traffic s (writeAt s env va bs w).1 := by
  have h := traffic_lookAt s env .write va bs.length
  unfold writeAt
  split
  case h_1 s1 l e => exact (h.of_fst e).trans ((traffic_touchSpots env .write l s1).trans (traffic_writeSpots _ l bs _))
  case h_2 e => exact h.of_fst e
  case h_3 e => exact (h.of_fst e).trans (traffic_startZero _ _ _ _)

end Sys2Proof.Machine
end

