-- ==== Sys2Proof/Proofs/LaneStores.lean ====
section
/-!
The checks of the lanes' stores, the size of a translation, and what the lanes' stores leave at every place (R209, R214).
-/

namespace Sys2Proof.Machine

/-! ## The size of a translation -/

theorem length_cellsOf (s : State) (l : List Spot) : (cellsOf s l).length = (l.map spotSize).sum := by
  induction l with
  | nil => rfl
  | cons x l ih => rw [cellsOf_cons, List.length_append, List.length_map, length_upto, ih]; rfl

theorem cutLines_zero (f va : Nat) : cutLines f va 0 = [] := by cases f <;> rfl

/-- The lines of a range hold its bytes. -/
theorem cutLines_sum : ∀ (f va n : Nat), n ≤ 128 - va % 128 + 128 * f → ((cutLines (f + 1) va n).map (·.2)).sum = n
  | f, va, n, h => by
    rw [cutLines]
    split
    case isTrue h0 => rw [h0]; rfl
    rw [List.map_cons, List.sum_cons]
    by_cases hm : n ≤ 128 - va % 128
    · have e : Nat.min n (128 - va % 128) = n := Nat.min_eq_left hm
      rw [e, Nat.sub_self, cutLines_zero]
      rfl
    · have e : Nat.min n (128 - va % 128) = 128 - va % 128 := Nat.min_eq_right (by omega)
      rw [e]
      cases f with
      | zero => omega
      | succ f =>
        rw [cutLines_sum f _ _ (by omega)]
        dsimp only
        omega

theorem linesOf_sum (va n : Nat) : ((linesOf va n).map (·.2)).sum = n := cutLines_sum (n / 128 + 1) va n (by omega)

theorem lookLine_size {s : State} {env : Env} {acc : Acc} {va n : Nat} {x : Spot} (h : (lookLine s env acc va n).2 = .ok x) : spotSize x = n := by
  unfold lookLine at h
  generalize translate s env va acc = r at h
  obtain ⟨s1, c | t⟩ := r
  · cases h
  · dsimp only at h
    generalize hb : List.isEmpty _ = b at h
    cases b with
    | false => cases h
    | true => cases h; rfl

theorem lookPart_size {s : State} {env : Env} {acc : Acc} {va n : Nat} {x : Spot} (h : (lookPart s env acc va n).2 = .ok x) : spotSize x = n := by
  unfold lookPart at h
  split at h
  · cases h
  · exact lookLine_size h

/-- Lines that meet no cause are as long as they are. -/
theorem lookLines_size (env : Env) (acc : Acc) : ∀ (ls : List (Nat × Nat)) (s : State),
    ((lookLines s env acc ls).2.filterMap fun r => match r with | .error c => some c | .ok _ => none) = [] →
    ((lookLines s env acc ls).2.filterMap fun r => match r with | .ok x => some x | .error _ => none).map spotSize = ls.map (·.2)
  | [], _, _ => rfl
  | (va, n) :: ls, s, h => by
    simp only [lookLines] at h ⊢
    cases hp : (lookPart s env acc va n).2 with
    | error c => rw [hp] at h; cases h
    | ok x =>
      rw [hp] at h
      have ih := lookLines_size env acc ls (lookPart s env acc va n).1 h
      simp only [List.filterMap_cons, List.map_cons, lookPart_size hp]
      rw [ih]

theorem size_padSpots (t : Team) (off n : Nat) : ((padSpots t off n).map spotSize).sum = n := by
  unfold padSpots
  split
  · simp [padSpot, spotSize]
  · simp [padSpot, spotSize]; omega

/-- The places of an access are as many as its bytes. -/
theorem size_lookAt {s s1 : State} {env : Env} {acc : Acc} {va n : Nat} {l : List Spot} (h : lookAt s env acc va n = (s1, .hit l)) :
    (l.map spotSize).sum = n := by
  have hg : ∀ {s1 l}, lookAt.general s env acc va n = (s1, .hit l) → (l.map spotSize).sum = n := by
    intro s1 l h
    unfold lookAt.general at h
    dsimp only at h
    split at h
    case isTrue he =>
      split at h
      · cases h
      · cases h
        exact (congrArg List.sum (lookLines_size env acc _ s (List.isEmpty_iff.mp he))).trans (linesOf_sum va n)
    · cases h
  unfold lookAt at h
  split at h
  · split at h
    · have h2 := (Prod.mk.inj h).2
      unfold lookPad at h2
      simp only at h2
      split at h2
      · cases h2
      · split at h2
        · cases h2
        · split at h2
          · cases h2
          · cases h2; exact size_padSpots _ _ _
    · exact hg h
  · exact hg h

/-! ## The checks of the lanes -/

/-- The lanes' checks that met no cause found the places of every lane, and used up free values only. -/
structure LanesFound (c : Ctx) (n : Nat) (r : Looks) : Prop where
  state : ∃ f, r.s = { c.s with free := f }
  lanes : r.spots.map (·.1) = c.lanes
  size : ∀ y ∈ r.spots, (y.2.map spotSize).sum = n

theorem lookLane_found (c : Ctx) (acc : Acc) (addr : Nat → W64) (n : Nat) (aligned : Bool) (r : Looks) (l : Nat)
    (hh : (lookLane c acc addr n aligned r l).hits = []) (hz : (lookLane c acc addr n aligned r l).zero = none) :
    r.hits = [] ∧ r.zero = none ∧ ∃ f x, (x.map spotSize).sum = n ∧
      (lookLane c acc addr n aligned r l).s = { r.s with free := f } ∧ (lookLane c acc addr n aligned r l).spots = r.spots ++ [(l, x)] := by
  unfold lookLane at hh hz ⊢
  dsimp only at hh hz ⊢
  split at hh
  · simp at hh
  case isFalse hal =>
    rw [if_neg hal] at hz ⊢
    obtain ⟨f, hf⟩ := lookAt_free r.s (laneEnv r.s c.g l) acc (addr l).toNat n
    split at hh
    case h_1 s1 x e =>
      rw [e] at hf hz
      exact ⟨hh, hz, f, x, size_lookAt e, hf, rfl⟩
    · simp at hh
    case h_3 e => rw [e] at hz; cases hz

theorem lookLanes_fold (c : Ctx) (acc : Acc) (addr : Nat → W64) (n : Nat) (aligned : Bool) : ∀ (ls : List Nat) (r : Looks),
    (ls.foldl (lookLane c acc addr n aligned) r).hits = [] → (ls.foldl (lookLane c acc addr n aligned) r).zero = none →
    r.hits = [] ∧ r.zero = none ∧ ∃ f xs, (ls.foldl (lookLane c acc addr n aligned) r).s = { r.s with free := f } ∧
      (ls.foldl (lookLane c acc addr n aligned) r).spots = r.spots ++ xs ∧ xs.map (·.1) = ls ∧ ∀ y ∈ xs, (y.2.map spotSize).sum = n
  | [], r, hh, hz => ⟨hh, hz, r.s.free, [], rfl, by simp, rfl, fun _ h => absurd h List.not_mem_nil⟩
  | l :: ls, r, hh, hz => by
    rw [List.foldl_cons] at hh hz ⊢
    obtain ⟨h1, z1, f, xs, hs, hsp, hl, hn⟩ := lookLanes_fold c acc addr n aligned ls _ hh hz
    obtain ⟨h0, z0, f0, x, hx, hs0, hsp0⟩ := lookLane_found c acc addr n aligned r l h1 z1
    refine ⟨h0, z0, f, (l, x) :: xs, by rw [hs, hs0], by rw [hsp, hsp0]; simp, by simp [hl], fun y hy => ?_⟩
    rcases List.mem_cons.mp hy with rfl | hy
    · exact hx
    · exact hn y hy

theorem lookLanes_found {c : Ctx} {acc : Acc} {addr : Nat → W64} {n : Nat} {aligned : Bool} (hh : (lookLanes c acc addr n aligned).hits = [])
    (hz : (lookLanes c acc addr n aligned).zero = none) : LanesFound c n (lookLanes c acc addr n aligned) := by
  obtain ⟨-, -, f, xs, hs, hsp, hl, hn⟩ := lookLanes_fold c acc addr n aligned c.lanes { s := c.s } hh hz
  exact ⟨⟨f, hs⟩, by rw [lookLanes, hsp]; simpa using hl, fun y hy => hn y (by rw [lookLanes, hsp] at hy; simpa using hy)⟩

theorem LanesFound.puts {c : Ctx} {n : Nat} {r : Looks} (h : LanesFound c n r) : Puts c.s [] r.s := by
  obtain ⟨f, hf⟩ := h.state
  rw [hf]
  exact .of_eq rfl rfl rfl rfl

/-! ## The stores of the lanes -/

/-- The bytes that the lanes of a store write are theirs that no higher lane stores. -/
theorem storeCells_eq (c : Ctx) (s : State) (n : Nat) (st : List (Nat × W64 × List Byte × List Spot)) :
    storeCells s n st = st.flatMap fun y => keptBytes s y.2.1.toNat (fun x => (coStores n st y.1 x).map (agentOf c.g)) y.2.2.2 y.2.2.1 := by
  unfold storeCells
  congr 1
  funext ⟨l, a, bs, x⟩
  unfold keptBytes
  simp only
  rw [← List.filterMap_eq_map, List.filterMap_filter]
  refine List.filterMap_congr fun k _ => ?_
  have he : ((coStores n st l (a.toNat + k)).map (agentOf c.g)).isEmpty
      = st.any fun y => decide (l < y.1) && decide (y.2.1.toNat ≤ a.toNat + k) && decide (a.toNat + k < y.2.1.toNat + n) := by
    rw [List.isEmpty_map]
    have hany : (storers n st (a.toNat + k)).any (fun x => decide (l < x))
        = st.any fun y => decide (l < y.1) && decide (y.2.1.toNat ≤ a.toNat + k) && decide (a.toNat + k < y.2.1.toNat + n) := by
      unfold storers
      rw [List.any_map, List.any_filter]
      congr 1
      funext y
      simp only [Function.comp]
      cases decide (l < y.1) <;> simp
    rw [← hany]
    unfold coStores
    split
    case isTrue h => rw [h]; rfl
    case isFalse h => rw [Bool.not_eq_true] at h; rw [h]; rfl
  rw [he]
  cases st.any fun y => decide (l < y.1) && decide (y.2.1.toNat ≤ a.toNat + k) && decide (a.toNat + k < y.2.1.toNat + n) <;> rfl

theorem puts_storeOut {s t : State} {c : Ctx} {rel : Bool} {n : Nat} {st : List (Nat × W64 × List Byte × List Spot)}
    (hu : ∀ y ∈ st, ∀ x ∈ y.2.2.2, wholeSpot s x ∧ unmarked s x) (h : Puts s [] t) : Puts s (storeCells s n st) (storeOut c t true rel n st) := by
  rw [storeCells_eq c]
  refine Puts.foldl (vs := []) (fun u vs y hy hput => ?_) h
  obtain ⟨l, a, bs, spots⟩ := y
  have hun : ∀ x ∈ spots, unmarked u x := fun x hx => (unmarked_congr hput.ctl x).mpr (hu _ hy x hx).2
  have h1 := hput.trans (cached_touchSpots (laneEnv u c.g l) .write rfl spots u rfl hun).puts
  rw [List.append_nil] at h1
  exact puts_writeKept _ _ spots _ _ _ _ (fun x hx => (hu _ hy x hx).1) h1

end Sys2Proof.Machine
end

