-- ==== Sys2Proof/Proofs/StoreInstructions.lean ====
section
/-!
The store instructions (R214, R215).
-/

namespace Sys2Proof.Machine

/-! ## Stores -/

theorem exec_store {i : Instr} {d b o : BitVec 7} {n : Nat} {rel : Bool} (h : storeForm i = some (d, b, o, n, rel)) (s : State) :
    exec i s = issue i s fun c => storeRes c d b o n rel := by
  unfold storeForm at h
  split at h
  all_goals cases h
  all_goals rfl

theorem store_plain {i : Instr} {x : BitVec 7 × BitVec 7 × BitVec 7 × Nat × Bool} (h : storeForm i = some x) : i.isPath = false := by
  unfold storeForm at h
  split at h
  all_goals cases h
  all_goals rfl

theorem LanesFound.spots {c : Ctx} {n : Nat} {r : Looks} (h : LanesFound c n r) (hl : c.lanes ≠ []) : r.spots ≠ [] := fun e => hl (by rw [← h.lanes, e]; rfl)

theorem length_storeData (c : Ctx) (d : BitVec 7) (n l : Nat) : (storeData c d n l).length = n := by
  have h : ∀ k, (((upto k).flatMap fun j => toBytes 4 (c.lvk d j l).toNat)).length = 4 * k := by
    intro k
    rw [List.length_flatMap]
    refine (congrArg List.sum (List.map_congr_left (g := fun _ => 4) fun j _ => rfl)).trans ?_
    rw [List.map_const', List.sum_replicate, length_upto, smul_eq_mul, Nat.mul_comm]
  unfold storeData
  rw [List.length_take, h]
  omega

/-- The bytes of one lane's store, at its places. -/
theorem keptBytes_all (s : State) (va : Nat) (who : Nat → List Agent) (hw : ∀ x, (who x).isEmpty = false) (l : List Spot) (bs : List Byte)
    (hl : (l.map spotSize).sum = bs.length) : keptBytes s va who l bs = (cellsOf s l).zip bs := by
  rw [← length_cellsOf s] at hl
  unfold keptBytes
  simp only [hw, Bool.false_eq_true, if_false]
  rw [List.filterMap_eq_map']
  refine List.ext_getElem? fun i => ?_
  rw [List.getElem?_map, upto_eq_range]
  by_cases hi : i < (cellsOf s l).length
  · have hz : ((cellsOf s l).zip bs)[i]? = some (nth (none, 0) (cellsOf s l) i, nth 0 bs i) := by
      refine List.getElem?_zip_eq_some.mpr ⟨?_, ?_⟩
      · simp [nth_getElem?, hi]
      · simp [nth_getElem?, hl ▸ hi]
    rw [List.getElem?_range hi, hz]
    rfl
  · rw [List.getElem?_eq_none (by simpa using hi), List.getElem?_eq_none (by rw [List.length_zip]; omega)]
    rfl

/-- One lane's store puts its bytes at its places. -/
theorem puts_storeOut_one {s t : State} {c : Ctx} {rel : Bool} {n l : Nat} {a : W64} {bs : List Byte} {x : List Spot}
    (hw : ∀ y ∈ x, wholeSpot s y) (hn : bs.length = n) (hsize : (x.map spotSize).sum = n) (ht : t.nearStacks = s.nearStacks) :
    Puts (touchSpots t (laneEnv t c.g l) .write x) ((cellsOf s x).zip bs) (storeOut c t true rel n [(l, a, bs, x)]) := by
  have hnear : (touchSpots t (laneEnv t c.g l) .write x).nearStacks = s.nearStacks := ((traffic_touchSpots _ _ x t).near).trans ht
  have h := puts_writeKept (s := touchSpots t (laneEnv t c.g l) .write x)
    (relWriter (touchSpots t (laneEnv t c.g l) .write x) (grainOf a n) rel) (fun y => (coStores n [(l, a, bs, x)] l y).map (agentOf c.g)) x a.toNat bs
    (touchSpots t (laneEnv t c.g l) .write x) [] (fun y hy => (wholeSpot_congr hnear y).mpr (hw y hy)) (.refl _)
  rw [List.nil_append, keptBytes_all _ _ _ _ _ _ (hsize.trans hn.symm), cellsOf_congr hnear] at h
  · exact h
  · intro y
    have hno : (storers n [(l, a, bs, x)] y).any (fun z => decide (l < z)) = false := by
      unfold storers
      rw [List.any_map, List.any_filter]
      simp
    rw [coStores, hno]
    rfl

/-- Settles O19: the bytes by `puts_storeOut` and `puts_storeOut_one`, the meeting of the twins by `runs_pairRun`. -/
theorem storesWriteTheLanesBytes : Obligations.StoresWriteTheLanesBytes := by
  intro s i c d b o n rel r st h hfill hform hr hst hh hz hreg
  obtain ⟨-, hcs, hct⟩ := issuer_find s c h.path
  have hfound : LanesFound c n r := by subst hr; exact lookLanes_found hh hz
  have hputs := hfound.puts
  rw [hcs] at hputs
  have hk : Kept s r.s := by rw [hr, ← hcs]; exact kept_lookLanes _ _ _ _ _
  have hteams : ∀ {t : State}, Kept s t → teamOf t c.g.team = c.t := fun hk => by rw [hct]; unfold teamOf findTeam; rw [hk.teams]
  have he := exec_store hform s
  have hr0 := (Reached.filled h hfill).kept hk
  have hko := kept_storeOut c r.s true rel n st
  have hb : storeRes c d b o n rel = pairRun c r.s ((st.flatMap fun (_, a, bs, x) => piecesOf a.toNat bs x).foldl foldSig 0)
      (fun s => ({ s := storeOut c s true rel n st }, [])) fun s _ => { s := storeOut c s false rel n st } := by
    have hne : st.isEmpty = false := by
      rw [hst, storesOf, List.isEmpty_map, List.isEmpty_eq_false_iff]
      exact hfound.spots (h.lanes (store_plain hform))
    unfold storeRes
    simp only [← hr, hz, hreg, hh, Bool.false_and, Bool.false_eq_true, if_false]
    rw [show (r.spots.map fun (l, x) => (l, c.addr b o n l, storeData c d n l, x)) = st from hst.symm, hne]
    simp only [Bool.false_eq_true, if_false]
  obtain ⟨halone, hpaired⟩ := runs_pairRun h hfill he hb hr0 (hteams hk) (lead := fun s => ({ s := storeOut c s true rel n st }, [])) rfl
    (hr0.kept hko) (congrArg (·.twin) (hteams (hk.trans hko))) .nil List.nodup_nil (Nat.zero_le _)
    (F := fun s1 c1 _ => Completes s (storeOut c s1 false rel n st) i c1 c.g.masks 0 (fun _ => c.pc + 4) [])
    fun s1 vs f hf h1 hb => (h1.kept (kept_storeOut ..)).run h hf he ((congrArg (storeRes · d b o n rel) hfill).trans hb) .nil List.nodup_nil (Nat.zero_le _)
  refine ⟨halone, fun hw => (puts_storeOut hw hputs).cells, fun l spots hl hw p => ?_, hpaired⟩
  have hsize := hfound.size (l, spots) (by rw [hl]; exact List.mem_singleton_self _)
  have h1 := puts_storeOut_one (c := c) (rel := rel) (l := l) (a := c.addr b o n l) (t := r.s) hw (length_storeData c d n l) hsize hputs.near
  rw [hst, storesOf, hl]
  exact h1.cells p

end Sys2Proof.Machine
end

