-- ==== Sys2Proof/Proofs/Atomics.lean ====
section
/-!
The atomic instructions (R217, R218).
-/

namespace Sys2Proof.Machine

/-! ## The read-modify-writes of the lanes -/

theorem size_toBytes : ∀ (n v : Nat), (toBytes n v).length = n
  | 0, _ => rfl
  | n + 1, v => by rw [toBytes, List.length_cons, size_toBytes n]

theorem span_eq_map (a n : Nat) : span a n = (upto n).map (a + ·) := by
  refine List.ext_getElem? fun i => ?_
  rw [List.getElem?_map, upto_eq_range]
  by_cases h : i < n
  · rw [upto_get _ _ i h, List.getElem?_range h]; rfl
  · rw [List.getElem?_eq_none (by rw [length_span]; omega), List.getElem?_eq_none (by simp; omega)]; rfl

theorem standing_eq (s : State) : ∀ l : List Spot, standing s l = (cellsOf s l).map (cellAt s)
  | [] => rfl
  | x :: l => by
    rw [cellsOf_cons, List.map_append, ← standing_eq s l]
    have hone : standing s (x :: l) = standing s [x] ++ standing s l := List.flatMap_append (xs := [x])
    rw [hone]
    congr 1
    cases x with
    | mem _ n _ pa =>
      simp only [standing, List.flatMap_cons, List.flatMap_nil, List.append_nil, physRead, span_eq_map, List.map_map]
      rfl
    | pad c off n =>
      simp only [standing, List.flatMap_cons, List.flatMap_nil, List.append_nil, sramRead, span_eq_map, List.map_map]
      rfl

/-- One lane's read-modify-write (R218). -/
def rmwLane (c : Ctx) (n : Nat) (addr : Nat → W64) (op : Nat → Nat → Nat) (r : State × List (Nat × Nat)) (y : Nat × List Spot) : State × List (Nat × Nat) :=
  let s1 := touchSpots r.1 (laneEnv r.1 c.g y.1) .atomic y.2
  let b := readSpots s1 { laneEnv s1 c.g y.1 with now := true, size := n, also := twinAgent s1 (agentOf c.g y.1) } y.2
  (writeKept b.1 (fun _ as => { laneWriter b.1 as n with atomic := true }) true (addr y.1).toNat (fun _ => [agentOf c.g y.1]) y.2
    (toBytes n (op y.1 (ofBytes b.2))), r.2 ++ [(y.1, ofBytes b.2)])

theorem rmwLanes_eq (c : Ctx) (s : State) (n : Nat) (addr : Nat → W64) (op : Nat → Nat → Nat) (st : List (Nat × List Spot)) :
    rmwLanes c s n addr op st = st.foldl (rmwLane c n addr op) (s, []) := rfl

theorem rmwLane_lanes (c : Ctx) (n : Nat) (addr : Nat → W64) (op : Nat → Nat → Nat) : ∀ (st : List (Nat × List Spot)) (r : State × List (Nat × Nat)),
    (st.foldl (rmwLane c n addr op) r).2.map (·.1) = r.2.map (·.1) ++ st.map (·.1)
  | [], r => by simp
  | y :: st, r => by
    rw [List.foldl_cons, rmwLane_lanes c n addr op st]
    simp [rmwLane]

/-- The bytes that stand at the places of a state are those of `m`, and the places are those of `s`. -/
structure Stands (s : State) (m : Cell → Byte) (t : State) : Prop where
  cells : ∀ p, cellAt t p = m p
  near : t.nearStacks = s.nearStacks
  ctl : t.ctl = s.ctl

theorem Stands.put {s t u : State} {m : Cell → Byte} {ws : List (Cell × Byte)} (h : Stands s m t) (k : Puts t ws u) :
    Stands s (fun p => (newest p ws).getD (m p)) u :=
  ⟨fun p => by rw [k.cells, h.cells], k.near.trans h.near, k.ctl.trans h.ctl⟩

theorem noneZeroing_whole {s : State} {l : List Spot} (h : ∀ x ∈ l, wholeSpot s x) : noneZeroing l = true := by
  refine List.all_eq_true.mpr fun x hx => ?_
  have := h x hx
  cases x with
  | mem _ _ t _ => simp only [this.1]; rfl
  | pad _ _ _ => rfl

theorem rmwLane_stands {s : State} {c : Ctx} {n : Nat} {addr : Nat → W64} {op : Nat → Nat → Nat} {r : State × List (Nat × Nat)} {m : Cell → Byte}
    {l : Nat} {x : List Spot} (h : Stands s m r.1) (hn : 0 < n) (hsize : (x.map spotSize).sum = n) (hx : ∀ y ∈ x, wholeSpot s y ∧ unmarked s y) :
    (rmwLane c n addr op r (l, x)).2 = r.2 ++ [(l, ofBytes ((cellsOf s x).map m))] ∧
    Stands s (fun p => (newest p ((cellsOf s x).zip (toBytes n (op l (ofBytes ((cellsOf s x).map m)))))).getD (m p)) (rmwLane c n addr op r (l, x)).1 := by
  have hwhole : ∀ {t : State}, t.nearStacks = s.nearStacks → ∀ y ∈ x, wholeSpot t y := fun ht y hy => (wholeSpot_congr ht y).mpr (hx y hy).1
  have hmark : ∀ y ∈ x, unmarked r.1 y := fun y hy => (unmarked_congr h.ctl y).mpr (hx y hy).2
  have h1 := h.put (cached_touchSpots (laneEnv r.1 c.g l) .atomic rfl x r.1 rfl hmark).puts
  obtain ⟨o, f, hread⟩ := readSpots_now { laneEnv (touchSpots r.1 (laneEnv r.1 c.g l) .atomic x) c.g l with
      now := true, size := n, also := twinAgent (touchSpots r.1 (laneEnv r.1 c.g l) .atomic x) (agentOf c.g l) } rfl hn x
    (touchSpots r.1 (laneEnv r.1 c.g l) .atomic x) (noneZeroing_whole (hwhole h1.near)) rfl
  have hstand : standing (touchSpots r.1 (laneEnv r.1 c.g l) .atomic x) x = (cellsOf s x).map m := by
    rw [standing_eq, cellsOf_congr h1.near]
    exact List.map_congr_left fun p _ => h1.cells p
  have h2 := h1.put (u := reordered (touchSpots r.1 (laneEnv r.1 c.g l) .atomic x) o f) (.of_eq rfl rfl rfl rfl)
  unfold rmwLane
  simp only [hread, hstand]
  refine ⟨trivial, ?_⟩
  have h3 := puts_writeKept (s := reordered (touchSpots r.1 (laneEnv r.1 c.g l) .atomic x) o f)
    (fun _ as => { laneWriter (reordered (touchSpots r.1 (laneEnv r.1 c.g l) .atomic x) o f) as n with atomic := true }) (fun _ => [agentOf c.g l]) x
    (addr l).toNat (toBytes n (op l (ofBytes ((cellsOf s x).map m)))) _ [] (hwhole h2.near) (.refl _)
  rw [List.nil_append, keptBytes_all _ _ _ (fun _ => rfl) _ _ (hsize.trans (size_toBytes n _).symm), cellsOf_congr h2.near] at h3
  exact h2.put h3

/-- The lanes' read-modify-writes, one after the other, are those on the bytes at their places. -/
theorem rmwLanes_stands {s : State} {c : Ctx} {n : Nat} {addr : Nat → W64} {op : Nat → Nat → Nat} (hn : 0 < n) : ∀ (st : List (Nat × List Spot))
    (r : State × List (Nat × Nat)) (m : Cell → Byte), Stands s m r.1 → (∀ y ∈ st, (y.2.map spotSize).sum = n ∧ ∀ x ∈ y.2, wholeSpot s x ∧ unmarked s x) →
    (st.foldl (rmwLane c n addr op) r).2 = r.2 ++ (rmwCells n op (st.map fun y => (y.1, cellsOf s y.2)) m).2 ∧
    Stands s (rmwCells n op (st.map fun y => (y.1, cellsOf s y.2)) m).1 (st.foldl (rmwLane c n addr op) r).1
  | [], r, m, h, _ => ⟨by simp [rmwCells], h⟩
  | (l, x) :: st, r, m, h, hst => by
    obtain ⟨hsize, hx⟩ := hst _ List.mem_cons_self
    obtain ⟨ho, hs⟩ := rmwLane_stands (c := c) (addr := addr) (op := op) (l := l) h hn hsize hx
    obtain ⟨ih1, ih2⟩ := rmwLanes_stands (c := c) (addr := addr) (op := op) hn st _ _ hs fun y hy => hst y (List.mem_cons_of_mem _ hy)
    rw [List.foldl_cons]
    refine ⟨?_, ih2⟩
    rw [ih1, ho, List.append_assoc]
    rfl

/-! ## Atomics -/

/-- The operand registers of an atomic, from d (R217). -/
def atomicRegs (n : Nat) (i : Instr) : Nat := n / 4 * (match i with | .atomCas32 _ _ _ _ | .atomCas64 _ _ _ _ => 2 | _ => 1)

theorem exec_atomic {c : Ctx} {i : Instr} {d b o : BitVec 7} {n : Nat} {op : Nat → Nat → Nat} (h : atomicForm c i = some (d, b, o, n, op)) (s : State) :
    ∃ k : Ctx → Nat → Nat → Nat, k c = op ∧ exec i s = issue i s fun c => atomicRes c d b o n (atomicRegs n i) (k c) := by
  unfold atomicForm at h
  split at h
  all_goals cases h
  all_goals exact ⟨_, rfl, rfl⟩

theorem atomic_plain {c : Ctx} {i : Instr} {d b o : BitVec 7} {n : Nat} {op : Nat → Nat → Nat} (h : atomicForm c i = some (d, b, o, n, op)) :
    i.isPath = false ∧ 0 < n ∧ n / 4 ≤ 2 := by
  unfold atomicForm at h
  split at h
  all_goals cases h
  all_goals exact ⟨rfl, by decide, by decide⟩

/-- The register results of an atomic. -/
def oldRegs (c : Ctx) (d : BitVec 7) (n : Nat) (olds : List (Nat × Nat)) : List (Nat × Shape) :=
  if olds.isEmpty then [] else loadRegs c d (c.lanes.length == 1) (n / 4) (oldOf olds)

theorem oldOf_one {olds : List (Nat × Nat)} (h : olds.length = 1) (l k : Nat) : oldOf olds l = oldOf olds k := by
  obtain ⟨⟨j, v⟩, rfl⟩ := List.length_eq_one_iff.mp h
  have hv : ∀ l, oldOf [(j, v)] l = v := fun l => by
    unfold oldOf
    simp only [firstWhere]
    split <;> rfl
  rw [hv, hv]

theorem gives_oldRegs {c : Ctx} (d : BitVec 7) (n : Nat) {olds : List (Nat × Nat)} (hl : olds.map (·.1) = c.lanes) (hne : c.lanes ≠ []) :
    Gives c (oldRegs c d n olds) ((upto (n / 4)).map fun j => (c.r (d.toNat + j), fun l => BitVec.ofNat 32 (oldOf olds l / 2 ^ (32 * j)))) := by
  have ho : olds.isEmpty = false := by
    rw [List.isEmpty_eq_false_iff]
    intro e
    rw [e] at hl
    exact hne hl.symm
  have hlen : olds.length = c.lanes.length := by rw [← hl, List.length_map]
  unfold oldRegs loadRegs Gives
  rw [ho]
  simp only [Bool.false_eq_true, if_false]
  rw [List.forall₂_map_left_iff, List.forall₂_map_right_iff]
  refine List.forall₂_same.mpr fun j _ => ⟨rfl, fun l hact => at_default _ _ l (hasLane_lt _ _ hact) fun h1 => ?_⟩
  rw [beq_iff_eq] at h1
  rw [oldOf_one (hlen.trans h1) l 0]

theorem old_regs (c : Ctx) (d : BitVec 7) (f : Nat → Nat → W32) {k : Nat} (hk : k ≤ 2) :
    (((upto k).map fun j => (c.r (d.toNat + j), f j)).map (·.1)).Nodup ∧ ((upto k).map fun j => (c.r (d.toNat + j), f j)).length ≤ 8 := by
  refine ⟨?_, by rw [List.length_map, length_upto]; omega⟩
  have hp := pair_regs c d
  rcases Nat.le_succ_iff.mp hk with h1 | rfl
  · rcases Nat.le_one_iff_eq_zero_or_eq_one.mp h1 with rfl | rfl <;> simp [upto, span]
  · simp [upto, span, hp]

/-- Settles O21: the bytes by `rmwLanes_stands`, the meeting of the twins by `runs_pairRun`. -/
theorem atomicsGiveTheOldValue : Obligations.AtomicsGiveTheOldValue := by
  intro s i c d b o n op r s' olds ds h hfill hform hr hh hz hrmw hds
  subst hds
  obtain ⟨-, hcs, hct⟩ := issuer_find s c h.path
  obtain ⟨hplain, hn, hwords⟩ := atomic_plain hform
  have hfound : LanesFound c n r := by subst hr; exact lookLanes_found hh hz
  have hne := h.lanes hplain
  have hk : Kept s r.s := by rw [hr, ← hcs]; exact kept_lookLanes _ _ _ _ _
  have hks := kept_rmwLanes c n (c.addr b o n) op r.spots r.s
  have holds : olds.map (·.1) = c.lanes := by
    have := rmwLane_lanes c n (c.addr b o n) op r.spots (r.s, [])
    rw [← rmwLanes_eq, hrmw] at this
    rw [this, ← hfound.lanes]
    rfl
  rw [hrmw] at hks
  have hteams : ∀ {t : State}, Kept s t → teamOf t c.g.team = c.t := fun hk => by rw [hct]; unfold teamOf findTeam; rw [hk.teams]
  obtain ⟨k, hkc, he⟩ := exec_atomic hform s
  have hr0 := (Reached.filled h hfill).kept hk
  have hb : atomicRes c d b o n (atomicRegs n i) (k c) = pairRun c r.s (atomicSig c d (atomicRegs n i) (c.addr b o n) (r.spots.map (·.1)))
      (fun s => ({ s := (rmwLanes c s n (c.addr b o n) op r.spots).1, regs := oldRegs c d n (rmwLanes c s n (c.addr b o n) op r.spots).2 },
        (rmwLanes c s n (c.addr b o n) op r.spots).2.map fun x => BitVec.ofNat 64 x.2))
      fun s vs => { s := s, regs := oldRegs c d n ((r.spots.map (·.1)).zip (vs.map (·.toNat))) } := by
    unfold atomicRes
    rw [hkc]
    simp only [← hr, hz, hh]
    rw [if_neg (by simpa using hfound.spots hne)]
    rfl
  obtain ⟨hnd, hlen⟩ := old_regs c d (fun j l => BitVec.ofNat 32 (oldOf olds l / 2 ^ (32 * j))) hwords
  obtain ⟨halone, hpaired⟩ := runs_pairRun h hfill he hb hr0 (hteams hk) (s' := s') (vs := olds.map fun x => BitVec.ofNat 64 x.2)
    (lead := fun s => ({ s := (rmwLanes c s n (c.addr b o n) op r.spots).1, regs := oldRegs c d n (rmwLanes c s n (c.addr b o n) op r.spots).2 },
        (rmwLanes c s n (c.addr b o n) op r.spots).2.map fun x => BitVec.ofNat 64 x.2)) (by simp only [hrmw])
    (hr0.kept hks) (congrArg (·.twin) (hteams (hk.trans hks))) (gives_oldRegs d n holds hne) hnd hlen
    (F := fun s1 c1 vs => vs.length = r.spots.length → Completes s s1 i c1 c.g.masks 0 (fun _ => c.pc + 4)
      ((upto (n / 4)).map fun j => (c.r (d.toNat + j), fun l => BitVec.ofNat 32 (oldOf ((r.spots.map (·.1)).zip (vs.map (·.toNat))) l / 2 ^ (32 * j)))))
    fun s1 vs f hf h1 hb hvs => by
      have hl : ((r.spots.map (·.1)).zip (vs.map (·.toNat))).map (·.1) = c.lanes := by
        rw [List.map_fst_zip (by simp [hvs]), hfound.lanes]
      obtain ⟨hnd, hlen⟩ := old_regs c d (fun j l => BitVec.ofNat 32 (oldOf ((r.spots.map (·.1)).zip (vs.map (·.toNat))) l / 2 ^ (32 * j))) hwords
      exact h1.run h hf he ((congrArg (fun c => atomicRes c d b o n (atomicRegs n i) (k c)) hfill).trans hb) (gives_oldRegs d n hl hne) hnd hlen
  refine ⟨halone, fun _ hw m hm => ?_, hpaired⟩
  have hputs := hfound.puts
  rw [hcs] at hputs
  obtain ⟨ho, hst⟩ := rmwLanes_stands (s := s) (c := c) (addr := c.addr b o n) (op := op) hn r.spots (r.s, []) (cellAt s) ⟨hputs.cells, hputs.near, hputs.ctl⟩
    fun y hy => ⟨hfound.size y hy, hw y hy⟩
  rw [← rmwLanes_eq, hrmw] at ho hst
  subst hm
  exact ⟨hst.cells, ho⟩

end Sys2Proof.Machine
end

