-- ==== Sys2Proof/Proofs/GatedStores.lean ====
section
/-!
Stores in an open region (R58, R214).
-/

namespace Sys2Proof.Machine

/-! ## Stores into the store gate -/

/-- What the lanes' stores have made of the gate, of the signature, of the causes and of the state. -/
abbrev Gated := List GateLine × W64 × List Hit × State

/-- The gate with the pieces of one lane's store. -/
def gateWith (c : Ctx) (st : List (Nat × W64 × List Byte × List Spot)) (gate : List GateLine) (y : Nat × W64 × List Byte × List Spot) : List GateLine :=
  (piecesOf y.2.1.toNat y.2.2.1 y.2.2.2).foldl (gatePiece fun x =>
    ((lowerStores y.2.2.1.length st y.1 x).map fun k => (c.g.lane k).tid.toNat, grainOf y.2.1 y.2.2.1.length)) gate

/-- One lane's store into the gate (R58, R59). -/
def gateLane (c : Ctx) (st : List (Nat × W64 × List Byte × List Spot)) (x : Gated) (y : Nat × W64 × List Byte × List Spot) : Gated :=
  if 64 < (gateWith c st x.1 y).length then
    (x.1, x.2.1, x.2.2.1 ++ [{ lane := y.1, cause := 0x30, addr := y.2.1, bytes := y.2.2.1.length, kind := 1 }], x.2.2.2)
  else (gateWith c st x.1 y, (piecesOf y.2.1.toNat y.2.2.1 y.2.2.2).foldl foldSig x.2.1, x.2.2.1, touchSpots x.2.2.2 (laneEnv x.2.2.2 c.g y.1) .write y.2.2.2)

/-- The region of a group with another gate and signature. -/
def regated (r : Region) (gate : List GateLine) (sig : W64) (g : Group) : Group := { g with region := some { r with gate := gate, sig := sig } }

theorem steady_regated (r : Region) (gate : List GateLine) (sig : W64) : Steady (regated r gate sig) :=
  steady_simple _ (fun _ => rfl) (fun _ => rfl) (fun _ => rfl) (fun _ => rfl) (fun _ => rfl) (fun _ => rfl) (fun _ => rfl) (fun _ => rfl)
    fun g h e => ⟨by rw [e.eq]; rfl⟩

theorem storeGate_eq (c : Ctx) (s : State) (r : Region) (st : List (Nat × W64 × List Byte × List Spot)) :
    storeGate c s r st = (modGroup (st.foldl (gateLane c st) (r.gate, r.sig, [], s)).2.2.2 c.g.who
      (regated r (st.foldl (gateLane c st) (r.gate, r.sig, [], s)).1 (st.foldl (gateLane c st) (r.gate, r.sig, [], s)).2.1),
      (st.foldl (gateLane c st) (r.gate, r.sig, [], s)).2.2.1) := rfl

/-- Where no lane adds a line too many, every lane's pieces are in the gate, and the state has the marks of every lane's walks. -/
theorem gateLanes_fit (c : Ctx) (st : List (Nat × W64 × List Byte × List Spot)) : ∀ (l : List (Nat × W64 × List Byte × List Spot)) (x : Gated),
    (l.foldl (gateLane c st) x).2.2.1 = [] → x.2.2.1 = [] ∧ (l.foldl (gateLane c st) x).1 = l.foldl (gateWith c st) x.1 ∧
      (l.foldl (gateLane c st) x).2.2.2 = l.foldl (fun s y => touchSpots s (laneEnv s c.g y.1) .write y.2.2.2) x.2.2.2
  | [], x, h => ⟨h, rfl, rfl⟩
  | y :: l, x, h => by
    obtain ⟨h1, h2, h3⟩ := gateLanes_fit c st l _ h
    unfold gateLane at h1
    split at h1
    · simp at h1
    case isFalse hfit =>
      have hone : gateLane c st x y = (gateWith c st x.1 y, (piecesOf y.2.1.toNat y.2.2.1 y.2.2.2).foldl foldSig x.2.1, x.2.2.1,
          touchSpots x.2.2.2 (laneEnv x.2.2.2 c.g y.1) .write y.2.2.2) := if_neg hfit
      rw [hone] at h2 h3
      rw [List.foldl_cons, hone]
      exact ⟨h1, h2, h3⟩

/-- Settles O20. -/
theorem storesInARegionAreGated : Obligations.StoresInARegionAreGated := by
  intro s i c d b o n r q h hfill hform hr hh hz hreg hgate
  obtain ⟨-, hcs, -⟩ := issuer_find s c h.path
  have hk : Kept s r.s := by rw [hr, ← hcs]; exact kept_lookLanes _ _ _ _ _
  generalize hst : storesOf c d b o n r.spots = st at hgate ⊢
  rw [storeGate_eq] at hgate
  obtain ⟨-, hg, hs⟩ := gateLanes_fit c st st (q.gate, q.sig, [], r.s) hgate
  generalize hx : st.foldl (gateLane c st) (q.gate, q.sig, [], r.s) = x at hgate hg hs
  have hkt : Kept r.s x.2.2.2 := by rw [hs]; exact kept_fold _ (fun s y => kept_touchSpots _ _ _ _) _ _
  have hf := steady_regated q x.1 x.2.1
  have hreach := ((((Reached.filled h hfill).kept hk).kept hkt).own hf.who)
  have hb : storeRes c d b o n false = { s := modGroup x.2.2.2 c.g.who (regated q x.1 x.2.1) } := by
    unfold storeRes
    simp only [Bool.false_eq_true, if_false, ← hr, hz, hreg, hh, List.nil_append]
    rw [show (r.spots.map fun (l, x) => (l, c.addr b o n l, storeData c d n l, x)) = st from hst, storeGate_eq, hx, hgate]
  refine ⟨x.1, x.2.1, ?_, hg⟩
  rw [← hs]
  exact hreach.run h hf (exec_store hform s) ((congrArg (storeRes · d b o n false) hfill).trans hb) .nil List.nodup_nil (Nat.zero_le _)

end Sys2Proof.Machine
end

