-- ==== Sys2Proof/Proofs/Mwait.lean ====
section
/-!
The instruction that waits for memory (R98, R220).
-/

namespace Sys2Proof.Machine

/-! ## What polls and acquires leave -/

theorem kept_pollLane (c : Ctx) (d b o : BitVec 7) (k : BitVec 4) (r : Polls) (l : Nat) : Kept r.s (pollLane c d b o k r l).s := by
  unfold pollLane
  dsimp only
  split
  · exact .refl _
  · split
    · exact .refl _
    · have h := kept_lookAt r.s (laneEnv r.s c.g l) .read (c.addr b o 8 l).toNat 8
      split
      case h_1 e => rw [e] at h; exact h
      case h_2 e => rw [e] at h; exact h
      case h_3 s1 x e =>
        rw [e] at h
        have h2 := h.trans (kept_touchSpots (laneEnv r.s c.g l) .read x s1)
        split
        · exact h2.trans (kept_readSpots _ _ _)
        · split
          · exact h2.trans (kept_readSpots _ _ _)
          · exact h2.trans (kept_free _ _)

theorem kept_polls (c : Ctx) (d b o : BitVec 7) (k : BitVec 4) : ∀ (ls : List Nat) (r : Polls), Kept r.s (ls.foldl (pollLane c d b o k) r).s
  | [], _ => .refl _
  | l :: ls, r => (kept_pollLane c d b o k r l).trans (kept_polls c d b o k ls _)

theorem kept_acquireAll (v : View) : ∀ (l : List Agent) (s : State), Kept s (acquireAll s l v)
  | [], s => .refl s
  | a :: l, s => (kept_setOrder s a _).trans (kept_acquireAll v l _)

theorem kept_acquire (s : State) (g : Group) (m : W32) : Kept s (acquire s g m) := kept_acquireAll {} _ s

theorem acquireAll_modGroup (v : View) (w : Who) (f : Group → Group) : ∀ (l : List Agent) (s : State),
    acquireAll (modGroup s w f) l v = modGroup (acquireAll s l v) w f
  | [], _ => rfl
  | a :: l, s => acquireAll_modGroup v w f l (acquireView v s a)

theorem acquire_modGroup (s : State) (w : Who) (f : Group → Group) (g : Group) (m : W32) : acquire (modGroup s w f) g m = modGroup (acquire s g m) w f :=
  acquireAll_modGroup {} w f _ s

theorem kept_followTwin (s : State) (l : List Agent) : Kept s (followTwin s l) := by
  unfold followTwin
  exact kept_fold _ (fun s a => kept_fold _ (fun s b => kept_setOrder _ _ _) _ _) _ _

/-- The group keeps what its lanes have found. -/
def found (x : List Got) (g : Group) : Group := { g with got := x }

theorem steady_found (x : List Got) : Steady (found x) :=
  steady_simple _ (fun _ => rfl) (fun _ => rfl) (fun _ => rfl) (fun _ => rfl) (fun _ => rfl) (fun _ => rfl) (fun _ => rfl) (fun _ => rfl)
    fun g h e => ⟨by rw [e.eq]; rfl⟩

/-- What the lanes have found of an mwait that completes is no longer kept. -/
theorem Completes.of_found {s s' : State} {i : Instr} {c : Ctx} {x : List Got} {masks : List W32} {fl : W32} {next : Nat → W64} {ds : List (Nat × (Nat → W32))}
    (h : Completes s s' i { c with g := found x c.g } masks fl next ds) : Completes s s' i c masks fl next ds := by
  obtain ⟨g', he, hw, hp, hr⟩ := h
  exact ⟨g', he, hw, hp, hr.active, hr.idle, hr.others⟩

/-- The entries that the primary forwarded for an mwait at an address. -/
def givenTo (c : Ctx) (x : W64 × List W64) : Bool := x.1 == c.pc && ((x.2.headD 0).setWidth 32 &&& ~~~c.act == 0)

/-- The group has taken what it was given for an mwait. -/
def tookGiven (c : Ctx) (g : Group) : Group :=
  { g with fwd := g.fwd.filter fun x => !givenTo c x, region := g.region.map fun r => { r with used := r.used ++ g.fwd.filter (givenTo c) } }

theorem steady_tookGiven (c : Ctx) : Steady (tookGiven c) :=
  steady_simple _ (fun _ => rfl) (fun _ => rfl) (fun _ => rfl) (fun _ => rfl) (fun _ => rfl) (fun _ => rfl) (fun _ => rfl) (fun _ => rfl)
    fun g h e => ⟨by rw [e.eq]; rfl⟩

theorem takeGiven_state (c : Ctx) (b o : BitVec 7) : ∃ t, Kept c.s t ∧ (takeGiven c b o).s = modGroup t c.g.who (tookGiven c) :=
  ⟨_, kept_followTwin c.s _, rfl⟩

/-! ## Mwait -/

/-- The value of lane l of an mwait. -/
def gotVal (c : Ctx) (x : List Got) (l : Nat) : W64 := ((firstWhere (fun x => x.pc == c.pc && x.lane == l) x).map (·.val)).getD 0

/-- The register results of an mwait. -/
def gotRegs (c : Ctx) (d b o : BitVec 7) (x : List Got) : List (Nat × Shape) :=
  pairRes c d (c.addrU b o && c.lanes.all fun l => gotVal c x l == gotVal c x c.first) fun l => if hasLane c.act l then gotVal c x l else gotVal c x c.first

theorem gives_gotRegs (c : Ctx) (d b o : BitVec 7) (x : List Got) : Gives c (gotRegs c d b o x) (destPair c d (gotVal c x)) := by
  have h := gives_pair c d (c.addrU b o && c.lanes.all fun l => gotVal c x l == gotVal c x c.first)
    (fun l => if hasLane c.act l then gotVal c x l else gotVal c x c.first) fun hu l => by
      have hall : ∀ l, (if hasLane c.act l then gotVal c x l else gotVal c x c.first) = gotVal c x c.first := fun l => by
        split
        case isTrue hl =>
          have := List.all_eq_true.mp (Bool.and_eq_true_iff.mp hu).2 l ((mem_lanesOf c.act l).mpr hl)
          simpa using this
        · rfl
      rw [hall, hall]
  unfold Gives destPair at h ⊢
  refine List.Forall₂.cons ?_ (.cons ?_ .nil)
  · obtain ⟨hr, hv⟩ := (List.forall₂_cons.mp h).1
    exact ⟨hr, fun l hl => by rw [hv l hl]; simp only [hl, if_true]⟩
  · obtain ⟨hr, hv⟩ := (List.forall₂_cons.mp (List.forall₂_cons.mp h).2).1
    exact ⟨hr, fun l hl => by rw [hv l hl]; simp only [hl, if_true]⟩

/-- What an mwait does where every lane has its value (R220). -/
def gotRes (c : Ctx) (d b o : BitVec 7) (r : Polls) : Res :=
  let t := acquire (modGroup r.s c.g.who (found r.got)) c.g c.act
  { s := if isPaired c.t && c.t.primary then forwardOnly t c.g c.pc c.act (c.lanes.map (gotVal c r.got)) else t, regs := gotRegs c d b o r.got }

/-- The body of mwait. -/
def mwaitRes (d b o : BitVec 7) (k : BitVec 4) (c : Ctx) : Res :=
  let paired := isPaired c.t
  let r := if paired && !c.t.primary then takeGiven c b o else c.lanes.foldl (pollLane c d b o k) { s := c.s, got := c.g.got }
  let has (l : Nat) : Bool := r.got.any fun x => x.pc == c.pc && x.lane == l
  let stop := laneSet fun l => r.hits.any fun h => h.lane == l
  let rest := c.act &&& ~~~stop
  let val (l : Nat) : W64 := ((firstWhere (fun x => x.pc == c.pc && x.lane == l) r.got).map (·.val)).getD 0
  let s1 := modGroup r.s c.g.who fun g => { g with got := r.got }
  if paired && (twinOf c.s c.g).isNone && twinGone c.s c.g && !c.t.primary && !(lanesOf rest).all has then lostTwin c
  else if (lanesOf rest).all has then
    let s2 := acquire s1 c.g rest
    let v0 := val (lowestLane rest)
    { s := if paired && c.t.primary && rest != 0 then forwardOnly s2 c.g c.pc rest ((lanesOf rest).map val) else s2
      hits := r.hits
      regs := if rest = 0 then [] else pairRes c d (c.addrU b o && (lanesOf rest).all fun l => val l == v0) fun l => if hasLane rest l then val l else v0 }
  else
    let met := laneSet fun l => hasLane rest l && has l
    { s := if r.hits.isEmpty then s1 else raise s1 c.g.who met r.hits, wait := some (.mwait, c.addr b o 8 (lowestLane (rest &&& ~~~met))), keep := true }

theorem exec_mwait (d b o : BitVec 7) (k : BitVec 4) (s : State) : exec (.mwait d b o k) s = issue (.mwait d b o k) s (mwaitRes d b o k) := rfl

theorem laneSet_none : (laneSet fun _ => false) = 0 := by decide

/-- What the lanes of an mwait have found when it issues. -/
def polled (c : Ctx) (d b o : BitVec 7) (k : BitVec 4) : Polls :=
  if isPaired c.t && !c.t.primary then takeGiven c b o else c.lanes.foldl (pollLane c d b o k) { s := c.s, got := c.g.got }

theorem mwaitRes_got {c : Ctx} {d b o : BitVec 7} {k : BitVec 4} (hh : (polled c d b o k).hits = []) (hne : c.act ≠ 0)
    (hgot : ∀ l, hasLane c.act l = true → ((polled c d b o k).got.any fun x => x.pc == c.pc && x.lane == l) = true) :
    mwaitRes d b o k c = gotRes c d b o (polled c d b o k) := by
  have hall : (lanesOf c.act).all (fun l => (polled c d b o k).got.any fun x => x.pc == c.pc && x.lane == l) = true :=
    List.all_eq_true.mpr fun l hl => hgot l ((mem_lanesOf _ _).mp hl)
  have hstop : c.act &&& ~~~(laneSet fun l => (polled c d b o k).hits.any fun h => h.lane == l) = c.act := by
    rw [hh, show (laneSet fun l => ([] : List Hit).any fun h => h.lane == l) = 0 from laneSet_none]
    exact but_none _
  unfold mwaitRes
  dsimp only
  rw [show (if isPaired c.t && !c.t.primary then takeGiven c b o else c.lanes.foldl (pollLane c d b o k) { s := c.s, got := c.g.got }) = polled c d b o k from rfl,
    hstop, hall, hh, if_neg (by simp), if_pos rfl, if_neg hne]
  have hb : (c.act != 0) = true := by simpa using hne
  rw [hb, Bool.and_true]
  rfl

section mwait

variable {s : State} {c : Ctx} {d b o : BitVec 7} {k : BitVec 4} (h : Runs s (.mwait d b o k) c) (hfill : Filled c (.mwait d b o k))

include h hfill in
/-- The lanes' values reach their registers, whatever else the effect has changed of the group. -/
theorem mwait_completes {s' t : State} {f : Group → Group} {x : List Got} (hr : Reached s s' (.mwait d b o k) c f t) (hf : Steady f)
    (hb : mwaitRes d b o k c = { s := t, regs := gotRegs c d b o x }) :
    Completes s s' (.mwait d b o k) { c with g := f c.g } c.g.masks 0 (fun _ => c.pc + 4) (destPair c d (gotVal c x)) :=
  hr.run h hf (exec_mwait d b o k s) ((congrArg (mwaitRes d b o k) hfill).trans hb) (gives_gotRegs c d b o x)
    (by have := pair_regs c d; simp [destPair, this]) (by simp [destPair])

variable {r : Polls} (hr : r = polled c d b o k) (hb : mwaitRes d b o k c = gotRes c d b o r)

include h hr in
theorem polled_kept (hlead : (isPaired c.t && !c.t.primary) = false) : Kept s (acquire r.s c.g c.act) := by
  obtain ⟨-, hcs, -⟩ := issuer_find s c h.path
  have hk := kept_polls c d b o k c.lanes { s := c.s, got := c.g.got }
  rw [polled, hlead, if_neg (by simp)] at hr
  rw [← hr, hcs] at hk
  exact hk.trans (kept_acquire _ _ _)

include h hfill hr hb in
theorem mwait_alone (hp : isPaired c.t = false) :
    Completes s (acquire r.s c.g c.act) (.mwait d b o k) c c.g.masks 0 (fun _ => c.pc + 4) (destPair c d (gotVal c r.got)) := by
  have h1 := ((Reached.filled h hfill).kept (polled_kept h hr (by simp [hp]))).own (steady_found r.got).who
  rw [← acquire_modGroup] at h1
  exact (mwait_completes h hfill h1 ((steady_found r.got).comp steady_id) (by rw [hb, gotRes, hp]; rfl)).of_found

include h hfill hr hb in
theorem mwait_leads (hp : isPaired c.t = true) (hprim : c.t.primary = true) (hne : c.t.twin ≠ some c.g.team) {s1 : State}
    (hs1 : s1 = forwardOnly (acquire r.s c.g c.act) c.g c.pc c.act (c.lanes.map (gotVal c r.got))) :
    Completes s s1 (.mwait d b o k) { c with g := (findGroup s1 c.g.who).getD c.g } c.g.masks 0 (fun _ => c.pc + 4) (destPair c d (gotVal c r.got)) := by
  obtain ⟨hf, -, hct⟩ := issuer_find s c h.path
  have hk := polled_kept h hr (by simp [hprim])
  have h0 := (Reached.filled h hfill).kept hk
  have h1 := h0.own (steady_found r.got).who
  have hne' : (teamOf (acquire r.s c.g c.act) c.g.team).twin ≠ some c.g.team := by
    rw [show teamOf (acquire r.s c.g c.act) c.g.team = c.t by rw [hct]; unfold teamOf findTeam; rw [hk.teams]]
    exact hne
  obtain ⟨q, hq, h2, hfind⟩ := h1.forwardOnly rfl (twinOf_modGroup_own (steady_found r.got).who hne') hne' c.pc c.act (c.lanes.map (gotVal c r.got))
  rw [show findGroup (acquire r.s c.g c.act) c.g.who = some c.g by unfold findGroup at hf ⊢; rw [hk.groups]; exact hf] at hfind
  rw [← acquire_modGroup] at h2
  rw [hs1, hfind]
  have hc := mwait_completes h hfill h2 ((steady_sent hq).comp ((steady_found r.got).comp steady_id)) (x := r.got) (by rw [hb, gotRes, hp, hprim]; rfl)
  rcases hq with rfl | rfl
  · exact Completes.of_found hc
  · exact Completes.of_found (c := { c with g := sentOnce c.g }) hc

include h hfill hr hb in
theorem mwait_follows (hp : isPaired c.t = true) (hprim : c.t.primary = false) {s1 : State} (hs1 : s1 = acquire r.s c.g c.act) :
    Completes s s1 (.mwait d b o k) { c with g := (findGroup s1 c.g.who).getD c.g } c.g.masks 0 (fun _ => c.pc + 4) (destPair c d (gotVal c r.got)) := by
  obtain ⟨hf, hcs, -⟩ := issuer_find s c h.path
  have hr' : r = takeGiven c b o := by rw [hr, polled, hp, hprim]; rfl
  obtain ⟨t, hkt, hrs⟩ := takeGiven_state c b o
  rw [← hr'] at hrs
  rw [hcs] at hkt
  have htook := steady_tookGiven c
  have h1 := ((((Reached.filled h hfill).kept hkt).own htook.who).but_own htook.who).kept (kept_acquire (modGroup t c.g.who (tookGiven c)) c.g c.act)
  have h2 := h1.own (steady_found r.got).who
  rw [← acquire_modGroup, ← hrs] at h2
  have hfind : findGroup (acquire r.s c.g c.act) c.g.who = some (tookGiven c c.g) := by
    have hg := findGroup_modGroup_same t c.g.who (tookGiven c) htook.who
    have hft : findGroup t c.g.who = some c.g := by unfold findGroup at hf ⊢; rw [hkt.groups]; exact hf
    rw [hft, ← hrs] at hg
    unfold findGroup at hg ⊢
    rw [(kept_acquire r.s c.g c.act).groups]
    exact hg
  rw [hs1, hfind]
  have hc := mwait_completes h hfill h2 ((steady_found r.got).comp (htook.comp steady_id)) (x := r.got) (by rw [hb, gotRes, hp, hprim]; rfl)
  exact Completes.of_found (c := { c with g := tookGiven c c.g }) hc

end mwait

/-! ## The device's poll -/

theorem turnIssue_issuer {s0 s : State} {w : Who} {l : Nat} {i : Instr} (h : turnIssue s0 w l = (s, some i)) : ∃ c, issuer s = some c := by
  unfold turnIssue at h
  split at h
  · cases h
  · dsimp only at h
    split at h
    · cases h
    · split at h
      · cases h
      · split at h
        · cases h
        case h_2 c hc =>
          split at h
          · cases h
          · split at h <;> cases h
            · exact ⟨c, hc⟩
            · exact ⟨c, hc⟩

theorem exec_mwaitSatisfy (w : Who) (l : Nat) (s : State) : exec (.mwaitSatisfy w l) s = execMwaitSatisfy w l s := rfl

/-- Settles O27. -/
theorem mwaitCompletesWhenEveryLaneHasItsValue : Obligations.MwaitCompletesWhenEveryLaneHasItsValue := by
  intro s d b o k
  refine ⟨fun c r val h hfill hr hh hgot hval => ?_, fun s0 w l ht => ?_, fun s0 w l ht => ?_⟩
  · obtain ⟨-, hcs, -⟩ := issuer_find s c h.path
    have hr' : r = polled c d b o k := by
      rw [hr, polled, hcs]
      cases isPaired c.t <;> cases c.t.primary <;> rfl
    have hne : c.act ≠ 0 := fun e => h.lanes rfl (lanesOf_eq_nil.mpr e)
    have hb := mwaitRes_got (by rw [← hr']; exact hh) hne (by rw [← hr']; exact hgot)
    rw [← hr'] at hb
    have hv : val = gotVal c r.got := hval
    subst hv
    refine ⟨mwait_alone h hfill hr' hb, fun s1 hp hne hs1 => ?_⟩
    cases hprim : c.t.primary with
    | true => exact mwait_leads h hfill hr' hb hp hprim hne (by rw [hs1, hprim]; rfl)
    | false => exact mwait_follows h hfill hr' hb hp hprim (by rw [hs1, hprim]; rfl)
  · obtain ⟨c, hc⟩ := turnIssue_issuer ht
    have he : exec (.mwaitSatisfy w l) s0 = exec (.mwait d b o k) s := by rw [exec_mwaitSatisfy, execMwaitSatisfy, ht]; rfl
    refine ⟨issueOn c (.mwait d b o k) (mwaitRes d b o k), ?_, ?_⟩
    · rw [he, exec_mwait, issue, hc]
    · rw [exec_mwait, issue, hc]
  · rw [exec_mwaitSatisfy, execMwaitSatisfy]
    split
    case h_1 d b o k e => exact absurd (by rw [e]) (ht d b o k)
    · rfl

end Sys2Proof.Machine
end

