-- ==== Sys2Proof/Proofs/GateRelease.lean ====
section
/-!
The release of a store gate: its bytes at their places, and nothing but writes (R57, R58, R340).
-/

namespace Sys2Proof.Machine

/-! ## Writes and nothing else -/

/-- Writes, and what orders accesses, are all that two states differ in. -/
structure Written (s t : State) : Prop where
  state : t = { s with mem := t.mem, clusters := t.clusters, poison := t.poison, past := t.past, writes := t.writes, orders := t.orders, dirty := t.dirty }
  cluster : ∀ k, clusterOf t k = { clusterOf s k with sram := (clusterOf t k).sram, sramBad := (clusterOf t k).sramBad }

theorem Written.refl (s : State) : Written s s := ⟨rfl, fun _ => rfl⟩

theorem Written.trans {a b c : State} (h : Written a b) (k : Written b c) : Written a c :=
  ⟨k.state.trans (by rw [h.state]), fun x => (k.cluster x).trans (by rw [h.cluster x])⟩

theorem Written.fold {α : Type} {f : State → α → State} (h : ∀ s x, Written s (f s x)) : ∀ (l : List α) (s : State), Written s (l.foldl f s)
  | [], s => .refl s
  | x :: l, s => (h s x).trans (Written.fold h l _)

theorem Written.of_ite {p : Prop} [Decidable p] {s a b : State} (h : Written s a) (k : Written s b) : Written s (if p then a else b) := by
  split <;> assumption

theorem Written.traffic {s t : State} (h : Written s t) : Traffic s t := ⟨by rw [h.state], by rw [h.state], h.cluster⟩

theorem Written.teams {s t : State} (h : Written s t) : t.teams = s.teams := by rw [h.state]

theorem teamOf_congr {s t : State} {w : Nat} (h : t.teams = s.teams) : teamOf t w = teamOf s w := by unfold teamOf findTeam; rw [h]

theorem written_physWriteBy (s : State) (w : Writer) (pa : Nat) (bs : List Byte) : Written s (physWriteBy s w pa bs) := ⟨rfl, fun _ => rfl⟩

theorem written_record (s : State) (w : Writer) (pa : Nat) (old : List Byte) : Written s (record s w pa old) := ⟨rfl, fun _ => rfl⟩

theorem written_sram (s : State) (c : Nat) (f : Cluster → Cluster) (hf : ∀ k, f k = { k with sram := (f k).sram, sramBad := (f k).sramBad }) :
    Written s (modCluster s c f) := ⟨rfl, (traffic_sram s c f hf).cluster⟩

theorem written_sramWriteBy (s : State) (w : Writer) (c off : Nat) (bs : List Byte) : Written s (sramWriteBy s w c off bs) :=
  (written_record s w _ _).trans (written_sram _ _ _ fun _ => rfl)

theorem written_healRange (s : State) (pa n : Nat) : Written s (healRange s pa n) := ⟨rfl, fun _ => rfl⟩

theorem written_healSram (s : State) (c off n : Nat) : Written s (healSram s c off n) := written_sram s c _ fun _ => rfl

theorem written_setOrder (s : State) (a : Agent) (o : Order) : Written s (setOrder s a o) := ⟨rfl, fun _ => rfl⟩

theorem written_writeSpots (w : Writer) : ∀ (l : List Spot) (bs : List Byte) (s : State), Written s (writeSpots s w l bs)
  | [], _, s => .refl s
  | .pad _ _ _ :: l, _, _ => (written_sramWriteBy _ _ _ _ _).trans (written_writeSpots w l _ _)
  | .mem _ _ _ _ :: l, _, _ => (written_physWriteBy _ _ _ _).trans (written_writeSpots w l _ _)

theorem written_releaseLine (s : State) (g : Group) (l : GateLine) : Written s (releaseLine s g l) := by
  unfold releaseLine
  dsimp only
  refine (Written.fold (fun s r => ?_) _ s).trans (Written.fold (fun s r => ?_) _ _)
  · exact .of_ite (written_writeSpots _ _ _ _) (.of_ite (written_physWriteBy _ _ _ _) (.refl s))
  · refine .of_ite (Written.fold (fun s x => ?_) _ _) (.of_ite (written_healRange _ _ _) (.refl s))
    cases x with
    | pad c off n => exact written_healSram s c off n
    | mem _ _ _ _ => exact .refl s

theorem written_seenGate (s : State) (g : Group) (gate : List GateLine) : Written s (seenGate s g gate) := by
  unfold seenGate
  dsimp only
  exact .of_ite (.refl s) (Written.fold (fun s a => written_setOrder _ _ _) _ _)

theorem seenGate_orders (s : State) (g : Group) (gate : List GateLine) : ∃ o, seenGate s g gate = { s with orders := o } := by
  unfold seenGate
  dsimp only
  split
  · exact ⟨_, rfl⟩
  · exact foldl_orders (fun s a => ⟨_, rfl⟩) _ _

/-! ## Bytes written at the places of a translation -/

theorem puts_writeSpots {s : State} (w : Writer) : ∀ (l : List Spot) (bs : List Byte) (t : State) (vs : List (Cell × Byte)),
    (l.map spotSize).sum = bs.length → Puts s vs t → Puts s (vs ++ (cellsOf s l).zip bs) (writeSpots t w l bs)
  | [], bs, t, vs, _, h => by simpa [cellsOf, writeSpots] using h
  | x :: l, bs, t, vs, hl, h => by
    rw [List.map_cons, List.sum_cons] at hl
    have hlen : (bs.take (spotSize x)).length = spotSize x := by rw [List.length_take]; omega
    have hsplit : (cellsOf s (x :: l)).zip bs = bytesAt (spotKey x) (spotBase s x) (bs.take (spotSize x)) ++ (cellsOf s l).zip (bs.drop (spotSize x)) := by
      rw [cellsOf_cons, bytesAt_eq, hlen, ← List.zip_append (by rw [List.length_map, length_upto, hlen]), List.take_append_drop]
    rw [hsplit, ← List.append_assoc]
    have hrest : (l.map spotSize).sum = (bs.drop (spotSize x)).length := by rw [List.length_drop]; omega
    cases x with
    | pad c off n => exact puts_writeSpots w l _ _ _ hrest (h.trans (puts_sramWriteBy t w c off (bs.take n)))
    | mem v n tr pa =>
      have := puts_physWriteBy t w pa (bs.take n)
      rw [routeAlias_congr h.near] at this
      exact puts_writeSpots w l _ _ _ hrest (h.trans this)

/-! ## Bytes of a gated line -/

/-- The place of a scratchpad byte (R65). -/
def padCell (t : Team) (off : Nat) : Cell := (some t.cluster, nth 0 t.pad (off / Config.bankBytes) * Config.bankBytes + off % Config.bankBytes)

theorem cellsOf_padSpot (s : State) (t : Team) (off n : Nat) (h : off % Config.bankBytes + n ≤ Config.bankBytes) :
    cellsOf s [padSpot t off n] = (span off n).map (padCell t) := by
  rw [span_eq_map, List.map_map]
  simp only [cellsOf, padSpot, List.flatMap_cons, List.flatMap_nil, List.append_nil]
  refine List.map_congr_left fun i hi => ?_
  have hi := mem_upto.mp hi
  unfold Config.bankBytes at *
  simp only [Function.comp, padCell, Prod.mk.injEq, true_and]
  unfold Config.bankBytes
  rw [show (off + i) / 131072 = off / 131072 by omega, show (off + i) % 131072 = off % 131072 + i by omega, Nat.add_assoc]

theorem span_append (a n m : Nat) : span a (n + m) = span a n ++ span (a + n) m := by
  rw [span_eq_map, upto_add, List.map_append, List.map_map, span_eq_map a n, span_eq_map (a + n) m]
  congr 1
  refine List.map_congr_left fun i _ => ?_
  simp only [Function.comp]
  omega

theorem cellsOf_padSpots (s : State) (t : Team) (off n : Nat) (h : n ≤ Config.bankBytes) : cellsOf s (padSpots t off n) = (span off n).map (padCell t) := by
  unfold padSpots
  split
  case isTrue he => exact cellsOf_padSpot s t off n he
  case isFalse he =>
    have hlt : off % Config.bankBytes < Config.bankBytes := Nat.mod_lt _ (by decide)
    dsimp only
    generalize hk : Config.bankBytes - off % Config.bankBytes = k at *
    have hmod : (off + k) % Config.bankBytes = 0 := by unfold Config.bankBytes at *; omega
    rw [show [padSpot t off k, padSpot t (off + k) (n - k)] = [padSpot t off k] ++ [padSpot t (off + k) (n - k)] from rfl, cellsOf_append,
      cellsOf_padSpot s t off k (by omega), cellsOf_padSpot s t (off + k) (n - k) (by omega), ← List.map_append, ← span_append,
      show k + (n - k) = n by omega]

/-- The bytes of a run stand in what it was made of. -/
theorem runsOf_keys {α : Type} [DecidableEq α] (by_ : Nat → α) : ∀ (m : SMap (Option Byte)) (r : Nat × α × List Byte), r ∈ runsOf by_ m →
    ∀ j, j < r.2.2.length → ∃ b, (r.1 + j, some b) ∈ m
  | [], r, h => absurd h List.not_mem_nil
  | (k, none) :: m, r, h => fun j hj => by
    rw [runsOf] at h
    obtain ⟨b, hb⟩ := runsOf_keys by_ m r h j hj
    exact ⟨b, List.mem_cons_of_mem _ hb⟩
  | (k, some b) :: m, r, h => fun j hj => by
    have ih := runsOf_keys by_ m
    have later : ∀ {r : Nat × α × List Byte} {j : Nat}, r ∈ runsOf by_ m → j < r.2.2.length → ∃ y, (r.1 + j, some y) ∈ (k, some b) :: m := fun hr hj => by
      obtain ⟨y, hy⟩ := ih _ hr _ hj
      exact ⟨y, List.mem_cons_of_mem _ hy⟩
    rw [runsOf] at h
    split at h
    next k' w' bs rs hr =>
      rw [hr] at later
      split at h
      next he =>
        obtain ⟨rfl, -⟩ : k' = k + 1 ∧ _ := by simpa using he
        rcases List.mem_cons.mp h with rfl | h
        · cases j with
          | zero => exact ⟨b, List.mem_cons_self⟩
          | succ j =>
            obtain ⟨y, hy⟩ := later (r := (k + 1, w', bs)) (j := j) List.mem_cons_self (by simpa using hj)
            exact ⟨y, by rw [show k + (j + 1) = k + 1 + j by omega]; exact hy⟩
        · exact later (List.mem_cons_of_mem _ h) hj
      · rcases List.mem_cons.mp h with rfl | h
        · obtain rfl : j = 0 := by simpa using hj
          exact ⟨b, List.mem_cons_self⟩
        · exact later h hj
    next hr =>
      rw [List.mem_singleton.mp h] at hj ⊢
      obtain rfl : j = 0 := by simpa using hj
      exact ⟨b, List.mem_cons_self⟩

theorem zip_span_cons (f : Nat → Cell) (a k : Nat) (b : Byte) (bs : List Byte) :
    ((span (a + k) (b :: bs).length).map f).zip (b :: bs) = (f (a + k), b) :: ((span (a + (k + 1)) bs.length).map f).zip bs := rfl

/-- A run of a line's bytes lies in the line. -/
theorem runsOf_line {α : Type} [DecidableEq α] {by_ : Nat → α} {m : SMap (Option Byte)} (hm : ∀ x ∈ m, x.1 < 128) {r : Nat × α × List Byte}
    (hr : r ∈ runsOf by_ m) : r.1 < 128 ∧ r.2.2.length ≤ 128 := by
  have hlast : ∀ j, j < r.2.2.length → r.1 + j < 128 := fun j hj => by
    obtain ⟨b, hb⟩ := runsOf_keys by_ m r hr j hj
    exact hm _ hb
  obtain ⟨b, hb⟩ := runsOf_start by_ m r hr
  refine ⟨hm _ hb, ?_⟩
  rcases Nat.lt_or_ge 128 r.2.2.length with hlt | hge
  · have := hlast 128 hlt; omega
  · exact hge

/-! ## The release of a line -/

theorem flatMap_bytes {β : Type} (g : Nat → Byte → β) {f : Nat × Option Byte → List β} (hn : ∀ k, f (k, none) = []) (hs : ∀ k v, f (k, some v) = [g k v]) :
    ∀ m : SMap (Option Byte), m.flatMap f = m.filterMap fun x => x.2.map (g x.1)
  | [] => rfl
  | (k, none) :: m => by rw [List.flatMap_cons, hn, flatMap_bytes g hn hs m]; rfl
  | (k, some v) :: m => by rw [List.flatMap_cons, hs, flatMap_bytes g hn hs m]; rfl

/-- The bytes of a gated line of the scratchpad, with their places. -/
theorem gateCells_pad (s : State) (t : Team) {l : GateLine} (hp : l.pad = true) :
    gateCells s t l = l.cells.filterMap fun x => x.2.map fun b => (padCell t (l.line.toNat - Config.aperture + x.1), b) :=
  flatMap_bytes (fun k b => (padCell t (l.line.toNat - Config.aperture + k), b)) (fun _ => rfl) (fun k v => by
    simp only [hp, if_true]
    rw [cellsOf_padSpots _ _ _ 1 (by decide)]
    rfl) l.cells

/-- The bytes of a gated line of memory, with their places. -/
theorem gateCells_mem (s : State) {t : Team} {l : GateLine} (hp : l.pad = false) (ht : t.primary = true) :
    gateCells s t l = l.cells.filterMap fun x => x.2.map fun b => ((none, routeAlias s (gateAt s l) + x.1), b) :=
  flatMap_bytes (fun k b => ((none, routeAlias s (gateAt s l) + k), b)) (fun _ => rfl) (fun k v => by simp [hp, ht]) l.cells

theorem gateCells_twin (s : State) {t : Team} {l : GateLine} (hp : l.pad = false) (ht : t.primary = false) : gateCells s t l = [] := by
  unfold gateCells
  refine List.flatMap_eq_nil_iff.mpr fun x _ => ?_
  obtain ⟨k, _ | v⟩ := x
  · rfl
  · simp [hp, ht]

theorem gateAt_congr {s t : State} (h : t.swaps = s.swaps) (l : GateLine) : gateAt t l = gateAt s l := by unfold gateAt swapRoute; rw [h]

/-- A fold that writes nothing. -/
theorem Puts.fold_nil {α : Type} {f : State → α → State} (h : ∀ s x, Puts s [] (f s x)) : ∀ (l : List α) (s : State), Puts s [] (l.foldl f s)
  | [], s => .refl s
  | x :: l, s => (h s x).trans (Puts.fold_nil h l _)

/-- Both: bytes at places, and nothing but writes. -/
structure Sent (s : State) (ws : List (Cell × Byte)) (t : State) : Prop where
  puts : Puts s ws t
  written : Written s t

theorem Sent.foldl {α : Type} {f : State → α → State} {ws : α → List (Cell × Byte)} {s : State} : ∀ {l : List α} {t : State} {vs : List (Cell × Byte)},
    (∀ t vs x, x ∈ l → Sent s vs t → Sent s (vs ++ ws x) (f t x)) → Sent s vs t → Sent s (vs ++ l.flatMap ws) (l.foldl f t)
  | [], _, _, _, h => by simpa using h
  | x :: l, t, vs, hf, h => by
    have := Sent.foldl (l := l) (fun t vs y hy => hf t vs y (List.mem_cons_of_mem _ hy)) (hf t vs x List.mem_cons_self h)
    simpa [List.flatMap_cons, List.append_assoc] using this

section release

variable {s t : State} {g : Group} {T : Team} {l : GateLine} {vs : List (Cell × Byte)}

/-- The runs of a gated line as they leave. -/
def releaseRun (g : Group) (l : GateLine) (T : Team) (s : State) (r : Nat × (List Nat × Nat) × List Byte) : State :=
  let by_ := laneWriter s (r.2.1.1.map (Agent.lane g.team)) (Nat.max 1 r.2.1.2)
  if l.pad then writeSpots s by_ (padSpots T (l.line.toNat - Config.aperture + r.1) r.2.2.length) r.2.2
  else if T.primary then physWriteBy s by_ (gateAt s l + r.1) r.2.2
  else s

/-- Words that the line covers as a whole are no longer poisoned. -/
def releaseHeal (l : GateLine) (T : Team) (s : State) (r : Nat × List Byte) : State :=
  if l.pad then (padSpots T (l.line.toNat - Config.aperture + r.1) r.2.length).foldl (fun s x => match x with
    | .pad c off n => healSram s c off n
    | .mem _ _ _ _ => s) s
  else if T.primary then healRange s (gateAt s l + r.1) r.2.length
  else s

theorem releaseLine_eq (s : State) (g : Group) (l : GateLine) :
    releaseLine s g l = (wholeRuns l.cells).foldl (releaseHeal l (teamOf s g.team))
      ((runsOf (mget ([], 0) l.by_) l.cells).foldl (releaseRun g l (teamOf s g.team)) s) := rfl

theorem puts_releaseHeal (l : GateLine) (T : Team) (s : State) (r : Nat × List Byte) : Puts s [] (releaseHeal l T s r) := by
  unfold releaseHeal
  split
  · refine Puts.fold_nil (fun s x => ?_) _ _
    cases x with
    | pad c off n => exact puts_healSram s c off n
    | mem _ _ _ _ => exact .refl s
  · split
    · exact puts_healRange _ _ _
    · exact .refl s

theorem written_releaseRun (g : Group) (l : GateLine) (T : Team) (s : State) (r : Nat × (List Nat × Nat) × List Byte) : Written s (releaseRun g l T s r) :=
  .of_ite (written_writeSpots _ _ _ _) (.of_ite (written_physWriteBy _ _ _ _) (.refl s))

/-- A line that lies in one slot of its stack puts its bytes. -/
theorem sent_releaseRuns (hcells : ∀ x ∈ l.cells, x.1 < 128) (hroute : l.pad = false → ∀ k, k < 128 → routeAlias s (gateAt s l + k) = routeAlias s (gateAt s l) + k)
    (h : Sent s vs t) : Sent s (vs ++ gateCells s T l) ((runsOf (mget ([], 0) l.by_) l.cells).foldl (releaseRun g l T) t) := by
  cases hp : l.pad with
  | true =>
    have hrun : ∀ u r, releaseRun g l T u r = writeSpots u (laneWriter u (r.2.1.1.map (Agent.lane g.team)) (Nat.max 1 r.2.1.2))
        (padSpots T (l.line.toNat - Config.aperture + r.1) r.2.2.length) r.2.2 := fun u r => if_pos hp
    rw [gateCells_pad s T hp]
    generalize l.line.toNat - Config.aperture = off at hrun ⊢
    rw [← flatMap_runsOf (mget ([], 0) l.by_) _ (fun k r => ((span (off + k) r.length).map (padCell T)).zip r) (fun _ => rfl)
      fun k b bs => zip_span_cons _ _ k b bs]
    refine Sent.foldl (fun u us r hr hu => ⟨?_, hu.written.trans (written_releaseRun g l T u r)⟩) h
    obtain ⟨-, hlen⟩ := runsOf_line hcells hr
    have := puts_writeSpots (laneWriter u (r.2.1.1.map (Agent.lane g.team)) (Nat.max 1 r.2.1.2)) _ r.2.2 u us (size_padSpots T (off + r.1) r.2.2.length) hu.puts
    rw [cellsOf_padSpots s T _ _ (Nat.le_trans hlen (by decide))] at this
    rw [hrun]
    exact this
  | false =>
    cases ht : T.primary with
    | true =>
      rw [gateCells_mem s hp ht, ← flatMap_runsOf (mget ([], 0) l.by_) _ (fun k r => bytesAt none (routeAlias s (gateAt s l) + k) r) (fun _ => rfl) fun k b bs => rfl]
      refine Sent.foldl (fun u us r hr hu => ⟨?_, hu.written.trans (written_releaseRun g l T u r)⟩) h
      obtain ⟨hk, -⟩ := runsOf_line hcells hr
      have hat : gateAt u l = gateAt s l := gateAt_congr (by rw [hu.written.state]) l
      have := puts_physWriteBy u (laneWriter u (r.2.1.1.map (Agent.lane g.team)) (Nat.max 1 r.2.1.2)) (gateAt s l + r.1) r.2.2
      rw [routeAlias_congr hu.puts.near, hroute hp _ hk] at this
      unfold releaseRun
      rw [hp, ht, hat]
      exact hu.puts.trans this
    | false =>
      rw [gateCells_twin s hp ht]
      have hno : ∀ u r, releaseRun g l T u r = u := fun u r => by unfold releaseRun; simp [hp, ht]
      have hfold : ∀ (rs : List (Nat × (List Nat × Nat) × List Byte)), rs.foldl (releaseRun g l T) t = t := fun rs => by
        induction rs with
        | nil => rfl
        | cons r rs ih => rw [List.foldl_cons, hno, ih]
      rw [hfold, List.append_nil]
      exact h

theorem sent_releaseLine (hT : teamOf s g.team = T) (hcells : ∀ x ∈ l.cells, x.1 < 128)
    (hroute : l.pad = false → ∀ k, k < 128 → routeAlias s (gateAt s l + k) = routeAlias s (gateAt s l) + k) (h : Sent s vs t) :
    Sent s (vs ++ gateCells s T l) (releaseLine t g l) := by
  have hteam : teamOf t g.team = T := by rw [← hT, teamOf_congr h.written.teams]
  refine ⟨?_, h.written.trans (written_releaseLine t g l)⟩
  rw [releaseLine_eq, hteam]
  have h1 := (sent_releaseRuns (g := g) (T := T) hcells hroute h).puts
  have h2 := h1.trans (Puts.fold_nil (puts_releaseHeal l T) (wholeRuns l.cells) _)
  rwa [List.append_nil] at h2

end release

/-! ## The release of a gate -/

/-- Lines that are not stale leave as they are. -/
theorem refreshGate_ready (env : Env) : ∀ (gate : List GateLine) (s : State), (∀ l ∈ gate, l.stale = false) → refreshGate s env gate = (s, .ok gate, false)
  | [], _, _ => rfl
  | l :: gate, s, h => by
    have ih := refreshGate_ready env gate s fun x hx => h x (List.mem_cons_of_mem _ hx)
    rw [refreshGate, h l List.mem_cons_self, ih]
    rfl

/-- The region is no longer open. -/
def closedRegion (g : Group) : Group := { g with region := none }

theorem steady_closedRegion : Steady closedRegion :=
  steady_simple _ (fun _ => rfl) (fun _ => rfl) (fun _ => rfl) (fun _ => rfl) (fun _ => rfl) (fun _ => rfl) (fun _ => rfl) (fun _ => rfl)
    fun g h e => ⟨by rw [e.eq]; rfl⟩

/-- The gate's lines leave in program order, and the group's lanes have seen them. -/
def sentGate (s : State) (g : Group) (gate : List GateLine) : State := seenGate (gate.foldl (fun s l => releaseLine s g l) s) g gate

theorem releaseGate_ready {s : State} {g : Group} {lane : Nat} {r : Region} (h : gateReady s r.gate) :
    releaseGate s g lane r = .done (modGroup (sentGate s g r.gate) g.who closedRegion) := by
  unfold releaseGate
  rw [refreshGate_ready _ _ _ fun l hl => (h l hl).1]
  rfl

theorem sent_sentGate {s : State} {g : Group} {gate : List GateLine} (h : gateReady s gate) :
    Sent s (gate.flatMap (gateCells s (teamOf s g.team))) (sentGate s g gate) := by
  have h1 : Sent s ([] ++ gate.flatMap (gateCells s (teamOf s g.team))) (gate.foldl (fun s l => releaseLine s g l) s) :=
    Sent.foldl (fun t vs l hl hs => sent_releaseLine rfl (h l hl).2.1 (h l hl).2.2 hs) ⟨.refl s, .refl s⟩
  rw [List.nil_append] at h1
  unfold sentGate
  generalize gate.foldl (fun s l => releaseLine s g l) s = u at h1 ⊢
  refine ⟨?_, h1.written.trans (written_seenGate u g gate)⟩
  obtain ⟨o, ho⟩ := seenGate_orders u g gate
  have h2 := h1.puts.trans (m := []) (c := { u with orders := o }) (.of_eq rfl rfl rfl rfl)
  rwa [List.append_nil, ← ho] at h2

end Sys2Proof.Machine
end

