-- ==== Sys2Proof/Proofs/TeamsEnd.lean ====
section
/-!
What the end of a team leaves: no group is new, and the other teams are as they were (R62, R317).
-/

namespace Sys2Proof.Machine

/-! ## No group is new -/

/-- Every group of t has the name of a group of s. -/
def NoneNew (s t : State) : Prop := ∀ y ∈ t.groups, ∃ x ∈ s.groups, x.who = y.who

theorem NoneNew.refl (s : State) : NoneNew s s := fun y h => ⟨y, h, rfl⟩

theorem NoneNew.trans {a b c : State} (h : NoneNew a b) (k : NoneNew b c) : NoneNew a c := fun y hy => by
  obtain ⟨x, hx, e⟩ := k y hy
  obtain ⟨z, hz, e'⟩ := h x hx
  exact ⟨z, hz, e'.trans e⟩

theorem noneNew_of_groups {s t : State} (h : t.groups = s.groups) : NoneNew s t := fun y hy => ⟨y, h ▸ hy, rfl⟩

theorem noneNew_map {s t : State} {f : Group → Group} (h : t.groups = s.groups.map f) (hf : ∀ g, (f g).who = g.who) : NoneNew s t := fun y hy => by
  obtain ⟨x, hx, rfl⟩ := List.mem_map.mp (h ▸ hy)
  exact ⟨x, hx, (hf x).symm⟩

theorem noneNew_mapWhere {s t : State} {p : Group → Bool} {f : Group → Group} (h : t.groups = mapWhere p f s.groups) (hf : ∀ g, (f g).who = g.who) :
    NoneNew s t := noneNew_map (f := fun g => if p g then f g else g) h fun g => by split <;> [exact hf g; rfl]

theorem noneNew_filter {s t : State} {p : Group → Bool} (h : t.groups = s.groups.filter p) : NoneNew s t := fun y hy =>
  ⟨y, (List.mem_filter.mp (h ▸ hy)).1, rfl⟩

theorem noneNew_ite {p : Prop} [Decidable p] {s a b : State} (h : NoneNew s a) (k : NoneNew s b) : NoneNew s (if p then a else b) := by split <;> assumption

theorem noneNew_fold {α : Type} {f : State → α → State} (h : ∀ s x, NoneNew s (f s x)) : ∀ (l : List α) (s : State), NoneNew s (l.foldl f s)
  | [], s => .refl s
  | x :: l, s => (h s x).trans (noneNew_fold h l _)

theorem team_of_who {x y : Group} (h : x.who = y.who) : x.team = y.team := by
  have hx : ∀ g : Group, whoTeam g.who = g.team := fun g => by unfold Group.who; split <;> rfl
  rw [← hx x, ← hx y, h]

theorem findGroup_none {s : State} {w : Who} (h : ∀ y ∈ s.groups, y.who ≠ w) : findGroup s w = none :=
  firstWhere_none _ _ fun y hy => decide_eq_false (h y hy)

theorem who_of_findGroup_none {s : State} {w : Who} (h : findGroup s w = none) : ∀ y ∈ s.groups, y.who ≠ w := by
  unfold findGroup at h
  generalize s.groups = l at h
  induction l with
  | nil => exact fun y hy => absurd hy List.not_mem_nil
  | cons x l ih =>
    by_cases hx : x.who = w
    · simp [firstWhere, hx] at h
    · exact fun y hy => (List.mem_cons.mp hy).elim (fun e => e ▸ hx) (ih (by simpa [firstWhere, hx] using h) y)

/-- A name that no group has stays free. -/
theorem NoneNew.find {s t : State} (h : NoneNew s t) {w : Who} (hw : findGroup s w = none) : findGroup t w = none := by
  refine findGroup_none fun y hy hyw => ?_
  obtain ⟨x, hx, e⟩ := h y hy
  exact who_of_findGroup_none hw x hx (e.trans hyw)

/-- A team without groups stays without. -/
theorem NoneNew.team {s t : State} (h : NoneNew s t) {k : Nat} (hk : ∀ x ∈ s.groups, x.team ≠ k) : ∀ y ∈ t.groups, y.team ≠ k := fun y hy => by
  obtain ⟨x, hx, e⟩ := h y hy
  rw [← team_of_who e]
  exact hk x hx

/-! ## Another team is as it was -/

theorem firstWhere_filter {α : Type} {p q : α → Bool} (h : ∀ x, q x = true → p x = true) : ∀ l : List α, firstWhere q (l.filter p) = firstWhere q l
  | [] => rfl
  | x :: l => by
    have ih := firstWhere_filter h l
    cases hp : p x with
    | true => rw [List.filter_cons_of_pos hp, firstWhere, firstWhere, ih]
    | false =>
      have hq : q x = false := Bool.eq_false_iff.mpr fun e => by rw [h x e] at hp; cases hp
      rw [List.filter_cons_of_neg (by rw [hp]; decide), firstWhere, hq, ih]
      rfl

theorem firstWhere_mapWhere_other {α : Type} {p q : α → Bool} {f : α → α} (hq : ∀ x, p x = true → q (f x) = false ∧ q x = false) :
    ∀ l : List α, firstWhere q (mapWhere p f l) = firstWhere q l
  | [] => rfl
  | x :: l => by
    have ih := firstWhere_mapWhere_other hq l
    unfold mapWhere at ih ⊢
    rw [List.map_cons, firstWhere, firstWhere, ih]
    cases hp : p x with
    | true => simp [hq x hp]
    | false => simp

theorem findTeam_congr {s t : State} (h : t.teams = s.teams) (k : Nat) : findTeam t k = findTeam s k := by unfold findTeam; rw [h]

/-- A team whose key is not k changes, and keeps its key. -/
theorem findTeam_modTeam_other (s : State) {j k : Nat} (h : j ≠ k) (f : Team → Team) (hf : ∀ t, (f t).key = t.key) : findTeam (modTeam s j f) k = findTeam s k :=
  firstWhere_mapWhere_other (fun t ht => by
    have : t.key = j := by simpa using ht
    simp [hf, this, h]) _

/-- One team ends: no group is new, and every other team is as it was. -/
structure TeamEnds (k : Nat) (s t : State) : Prop where
  none_new : NoneNew s t
  others : ∀ j, k ≠ j → findTeam t j = findTeam s j

theorem TeamEnds.refl (k : Nat) (s : State) : TeamEnds k s s := ⟨.refl s, fun _ _ => rfl⟩

theorem TeamEnds.trans {k : Nat} {a b c : State} (h : TeamEnds k a b) (g : TeamEnds k b c) : TeamEnds k a c :=
  ⟨h.none_new.trans g.none_new, fun j hj => (g.others j hj).trans (h.others j hj)⟩

theorem TeamEnds.ite {p : Prop} [Decidable p] {k : Nat} {s a b : State} (h : TeamEnds k s a) (g : TeamEnds k s b) : TeamEnds k s (if p then a else b) := by
  split <;> assumption

theorem TeamEnds.fold {α : Type} {k : Nat} {f : State → α → State} (h : ∀ s x, TeamEnds k s (f s x)) : ∀ (l : List α) (s : State), TeamEnds k s (l.foldl f s)
  | [], s => .refl k s
  | x :: l, s => (h s x).trans (TeamEnds.fold h l _)

theorem TeamEnds.of_eq {k : Nat} {s t : State} (hg : t.groups = s.groups) (ht : t.teams = s.teams) : TeamEnds k s t :=
  ⟨noneNew_of_groups hg, fun j _ => findTeam_congr ht j⟩

theorem TeamEnds.of_kept {k : Nat} {s t : State} (h : Kept s t) : TeamEnds k s t := .of_eq h.groups h.teams

theorem teamEnds_modTeam (s : State) (k : Nat) (f : Team → Team) (hf : ∀ t, (f t).key = t.key) : TeamEnds k s (modTeam s k f) :=
  ⟨noneNew_of_groups rfl, fun _ hj => findTeam_modTeam_other s hj f hf⟩

theorem key_addStats (t : Team) (g : Group) : (addStats t g).key = t.key := by unfold addStats; split <;> rfl

theorem kept_landCourse (s : State) (c : Course) : Kept s (landCourse s c) := kept_fold _ (fun _ _ => kept_physWriteBy _ _ _ _) _ _

theorem who_wakeSub (g : Group) (i : Nat) : (g.wakeSub i).who = g.who := by unfold Group.wakeSub; dsimp only; split <;> rfl

theorem who_wakeSubs (p : Sub → Bool) : ∀ (f : Nat) (g : Group), (g.wakeSubs p f).who = g.who
  | 0, _ => rfl
  | f + 1, g => by
    unfold Group.wakeSubs
    split
    · rfl
    · rw [who_wakeSubs p f, who_wakeSub]

theorem wakeSubs_none {g : Group} (h : g.subs = []) (p : Sub → Bool) : ∀ f, g.wakeSubs p f = g
  | 0 => rfl
  | f + 1 => by
    unfold Group.wakeSubs
    rw [h]
    rfl

/-- The groups of the core wake their sub-groups; one that has none keeps all but what its keystone state says of parked matrix instructions. -/
theorem releaseWaits_groups (s : State) (tile : Nat) (p : WaitEntry → Bool) :
    ∃ f : Group → Group, (∀ g, (f g).who = g.who) ∧ (∀ g, g.subs = [] → f g = { g with key := (f g).key }) ∧
      (releaseWaits s tile p).groups = s.groups.map f := by
  unfold releaseWaits
  extract_lets tab freed wake s1
  refine ⟨fun g => if groupTile s g == tile then wake g else g, fun g => ?_, fun g hg => ?_, rfl⟩
  · beta_reduce
    split
    · have h := who_wakeSubs (fun u => u.late && (p (entryOf g (contextOf s (teamOf s g.team).ctx).asid (u.cause == 0x13) u.token) || (freed && !u.filed)))
        g.subs.length g
      unfold Group.who at h ⊢
      simp only [wake, Option.isSome_map]
      exact h
    · rfl
  · beta_reduce
    split
    · simp only [wake, wakeSubs_none hg]
    · rfl

theorem noneNew_releaseWaits (s : State) (tile : Nat) (p : WaitEntry → Bool) : NoneNew s (releaseWaits s tile p) := by
  obtain ⟨f, hf, -, hg⟩ := releaseWaits_groups s tile p
  exact noneNew_map hg hf

theorem teamEnds_sweepWaits (k : Nat) (s : State) (tile : Nat) : TeamEnds k s (sweepWaits s tile) :=
  .ite (.refl k s) ⟨noneNew_releaseWaits _ _ _, fun _ _ => rfl⟩

theorem teamEnds_retireTeam (s : State) (k : Nat) : TeamEnds k s (retireTeam s k) := by
  unfold retireTeam
  extract_lets s1 t s2
  have h1 : Kept s s1 := kept_fold _ (fun s c => kept_landCourse s c) _ _
  refine ⟨noneNew_of_groups h1.groups, fun j hj => ?_⟩
  rw [← findTeam_congr h1.teams]
  exact firstWhere_filter (fun t ht => by
    have : t.key = j := by simpa using ht
    simp only [bne_iff_ne, ne_eq, this]
    exact fun e => hj e.symm) _

theorem teamEnds_writeBlock (k : Nat) (s : State) (t : Team) : TeamEnds k s (writeBlock s t) := by
  unfold writeBlock
  refine .ite (.refl k s) ?_
  unfold putBlock
  have h := kept_writeAt s (devEnv s t.ctx false) (((teamLaunch s t).lrec.recbuf.toNat + 192 * t.l) % 2 ^ 64) (blockRecord s t) {}
  split
  next s1 he => rw [he] at h; exact .of_eq h.groups h.teams
  next s1 _ he => rw [he] at h; exact .of_kept h

theorem teamEnds_clearTeam (s : State) (k : Nat) : TeamEnds k s (clearTeam s k) := by
  unfold clearTeam
  extract_lets t frozen s1 s2 s3
  have h1 : TeamEnds k s s1 := .fold (fun s g => teamEnds_modTeam s k _ fun t => key_addStats t g) _ _
  have h2 : TeamEnds k s1 s2 := ⟨noneNew_filter rfl, fun _ _ => rfl⟩
  have h3 : TeamEnds k s2 s3 := .fold (fun s i => teamEnds_sweepWaits k s _) _ _
  exact ((h1.trans h2).trans h3).trans (teamEnds_modTeam _ _ _ fun _ => rfl)

/-- The groups of a team that is cleared are gone. -/
theorem clearTeam_groups (s : State) (k : Nat) : ∀ y ∈ (clearTeam s k).groups, y.team ≠ k := by
  unfold clearTeam
  extract_lets t frozen s1 s2 s3
  have h2 : ∀ y ∈ s2.groups, y.team ≠ k := fun y hy => by
    have h : y ∈ s1.groups.filter fun g => g.team != k := hy
    simpa using (List.mem_filter.mp h).2
  have h3 : NoneNew s2 s3 := noneNew_fold (fun s i => (teamEnds_sweepWaits k s _).none_new) _ _
  have hg := h3.team h2
  clear_value s3
  exact hg

/-- What follows once a team is cleared. -/
def stopCleared (s : State) (t : Team) (k : Nat) (cause : BitVec 8) : State :=
  let s1 := modTeam s k fun t => { t with cause := cause }
  let s2 := modTeam (writeBlock s1 (teamOf s1 k)) k fun t => { t with status := .ended }
  let s3 := if t.status = .saved then restartHead s2 t.ctx t.queue else s2
  if teamOpen s3 k then s3 else retireTeam s3 k

theorem teamEnds_stopCleared (s : State) (t : Team) (k : Nat) (cause : BitVec 8) : TeamEnds k s (stopCleared s t k cause) := by
  unfold stopCleared
  extract_lets s1 s2 s3
  have h1 : TeamEnds k s s1 := teamEnds_modTeam s k _ fun _ => rfl
  have h2 : TeamEnds k s1 s2 := (teamEnds_writeBlock k s1 _).trans (teamEnds_modTeam _ k _ fun _ => rfl)
  have h3 : TeamEnds k s2 s3 := .ite (.ite (.refl k s2) (.of_eq rfl rfl)) (.refl k s2)
  exact ((h1.trans h2).trans h3).trans (.ite (.refl k s3) (teamEnds_retireTeam s3 k))

theorem stopTeam_none {s : State} {k : Nat} (cause : BitVec 8) (h : findTeam s k = none) : stopTeam s k cause = s := by unfold stopTeam; rw [h]

theorem stopTeam_ended {s : State} {k : Nat} {t : Team} (cause : BitVec 8) (h : findTeam s k = some t) (he : t.status = .ended) : stopTeam s k cause = s := by
  unfold stopTeam; rw [h]; exact if_pos he

theorem stopTeam_live {s : State} {k : Nat} {t : Team} (cause : BitVec 8) (h : findTeam s k = some t) (he : t.status ≠ .ended) :
    stopTeam s k cause = stopCleared (clearTeam s k) t k cause := by unfold stopTeam; rw [h]; exact if_neg he

theorem teamEnds_stopTeam (s : State) (k : Nat) (cause : BitVec 8) : TeamEnds k s (stopTeam s k cause) := by
  cases h : findTeam s k with
  | none => rw [stopTeam_none cause h]; exact .refl k s
  | some t =>
    by_cases he : t.status = .ended
    · rw [stopTeam_ended cause h he]; exact .refl k s
    · rw [stopTeam_live cause h he]; exact (teamEnds_clearTeam s k).trans (teamEnds_stopCleared _ t k cause)

/-- No group is left of a team that had not ended before. -/
theorem stopTeam_groups {s : State} {k : Nat} (cause : BitVec 8) (hk : (findTeam s k).any (·.status != .ended) = true) :
    ∀ y ∈ (stopTeam s k cause).groups, y.team ≠ k := by
  obtain ⟨t, ht, hst⟩ := Option.any_eq_true _ _ |>.mp hk
  rw [stopTeam_live cause ht (by simpa using hst)]
  exact (teamEnds_stopCleared _ t k cause).none_new.team (clearTeam_groups s k)

theorem noneNew_withdraw (s : State) (k : Nat) : NoneNew s (withdraw s k) :=
  (noneNew_mapWhere (s := s) (t := setPreempt (modTeam s k fun t => { t with preReq := none, preFor := none }) k false)
    (f := fun g => { g with preempt := false }) rfl fun _ => rfl).trans (noneNew_mapWhere (f := pastYield) rfl fun _ => rfl)

theorem noneNew_cancelRequests (s : State) (h : HeadId) : NoneNew s (cancelRequests s h) := by
  have h0 : NoneNew s { s with blocked := s.blocked.filter (· != h) } := noneNew_of_groups rfl
  unfold cancelRequests
  extract_lets mine
  refine h0.trans (noneNew_fold (fun s t => ?_) mine _)
  exact noneNew_ite (noneNew_of_groups rfl) (noneNew_ite (noneNew_withdraw s _) (noneNew_of_groups rfl))

theorem noneNew_settleBlocked (s : State) : NoneNew s (settleBlocked s) := noneNew_fold (fun s h => noneNew_cancelRequests s h) _ _

/-- A paired team ends with its twin: no group of either is left. -/
theorem endTeam_paired {s : State} {k j : Nat} (cause : BitVec 8) (who : W32) (htw : (teamOf s k).twin = some j)
    (hk : (findTeam s k).any (·.status != .ended) = true) (hj : (findTeam s j).any (·.status != .ended) = true) :
    ∀ y ∈ (endTeam s k cause who).groups, y.team ≠ k ∧ y.team ≠ j := by
  obtain ⟨t, ht, -⟩ := Option.any_eq_true _ _ |>.mp hk
  have htwin : t.twin = some j := by rw [← htw]; unfold teamOf; rw [ht]; rfl
  unfold endTeam
  rw [ht]
  simp only [htwin]
  have hn : ∀ i, findTeam (noteFault s t cause who) i = findTeam s i := fun _ => rfl
  have h1 := teamEnds_stopTeam (noteFault s t cause who) k cause
  have hg1 := stopTeam_groups (s := noteFault s t cause who) cause (by rw [hn]; exact hk)
  generalize stopTeam (noteFault s t cause who) k cause = s1 at h1 hg1 ⊢
  have h2 := (teamEnds_stopTeam s1 j cause).none_new
  have hb := noneNew_settleBlocked (stopTeam s1 j cause)
  have hg2 : ∀ y ∈ (stopTeam s1 j cause).groups, y.team ≠ j := by
    by_cases hkj : k = j
    · exact hkj ▸ h2.team hg1
    · exact stopTeam_groups cause (by rw [h1.others j hkj, hn]; exact hj)
  exact fun y hy => ⟨(h2.trans hb).team hg1 y hy, hb.team hg2 y hy⟩

/-! ## Teams that go on -/

theorem teamAlive_of_group {s : State} {y : Group} {k : Nat} (hy : y ∈ s.groups) (hk : y.team = k) : teamAlive s k = true := by
  have : s.groups.any (fun g => g.team == k) = true := List.any_eq_true.mpr ⟨y, hy, by simp [hk]⟩
  unfold teamAlive
  simp [this]

/-- A team of which something is left goes on. -/
theorem settleTeam_alive {s : State} {k : Nat} (ha : teamAlive s k = true) (ht : ∀ u, findTeam s k = some u → u.status ≠ .ended) :
    settleTeam s k = s := by
  unfold settleTeam
  split
  · rfl
  next u hu => rw [if_pos (by simp [ha, ht u hu])]

end Sys2Proof.Machine
end

