-- ==== Sys2Proof/Proofs/RegionWords.lean ====
section
/-!
The region words, alone and where the twins meet (R57, R60, R62, R63, R151).
-/

namespace Sys2Proof.Machine

/-! ## A gate released through the meeting of the twins -/

theorem Written.groups {s t : State} (h : Written s t) : t.groups = s.groups := by rw [h.state]

theorem Written.othersKept {s t : State} (h : Written s t) (w : Who) : OthersKept w s t :=
  .of_eq h.groups (by rw [h.state]) (by rw [h.state]) h.teams

theorem findGroup_congr {s t : State} (h : t.groups = s.groups) (w : Who) : findGroup t w = findGroup s w := by unfold findGroup; rw [h]

theorem twinOf_congr {s t : State} (hg : t.groups = s.groups) (ht : t.teams = s.teams) (g : Group) : twinOf t g = twinOf s g := by
  unfold twinOf
  rw [teamOf_congr ht]
  exact congrArg _ (funext fun k => findGroup_congr hg _)

/-- A group changes before the writes or after them. -/
theorem Sent.modGroup {s t : State} {ws : List (Cell × Byte)} (h : Sent s ws t) (v : Who) (f : Group → Group) : Sent (modGroup s v f) ws (modGroup t v f) where
  puts := ⟨h.puts.cells, h.puts.near, h.puts.ctl⟩
  written := ⟨by
    show { t with groups := mapWhere _ f t.groups } = _
    rw [h.written.groups]
    exact congrArg (fun x : State => { x with groups := mapWhere (fun g => decide (g.who = v)) f s.groups }) h.written.state, h.written.cluster⟩

theorem Sent.forward {s t : State} {ws : List (Cell × Byte)} (h : Sent s ws t) (g : Group) (pc : W64) (m : W32) (vs : List W64) :
    Sent (forward s g pc m vs) ws (forward t g pc m vs) := by
  have ht := twinOf_congr h.written.groups h.written.teams g
  cases hx : twinOf s g with
  | none => rw [forward_none hx, forward_none (ht.trans hx)]; exact h
  | some x => rw [forward_some hx, forward_some (ht.trans hx)]; exact h.modGroup _ _

theorem gateOut_of_sent {s s1 s' : State} {T : Team} {gate : List GateLine} (h : Sent s1 (gate.flatMap (gateCells s T)) s')
    (hc : ∀ p, cellAt s1 p = cellAt s p) : GateOut s s1 s' T gate :=
  ⟨h.written.state, h.written.cluster, fun p => by rw [h.puts.cells, hc]⟩

theorem cellAt_forward (s : State) (g : Group) (pc : W64) (m : W32) (vs : List W64) (p : Cell) : cellAt (forward s g pc m vs) p = cellAt s p := by
  cases hx : twinOf s g with
  | none => rw [forward_none hx]
  | some x => rw [forward_some hx]; rfl

/-- The primary's answer, where the effect has changed its own group. -/
theorem Reached.answer {s s' t : State} {i : Instr} {c : Ctx} {f : Group → Group} (h : Reached s s' i c f t) (ht : twinOf t c.g = twinOf s' c.g)
    (hne : (teamOf s' c.g.team).twin ≠ some c.g.team) (pc : W64) (m : W32) (vs : List W64) :
    Reached s (Machine.forward s' c.g pc m vs) i c f (Machine.forward t c.g pc m vs) := by
  cases hx : twinOf s' c.g with
  | none => rwa [forward_none hx, forward_none (ht.trans hx)]
  | some x => rw [forward_some hx, forward_some (ht.trans hx)]; exact h.other (twinOf_who hx hne) (holds_answered pc m vs)

/-! ## What closing a region comes to -/

section close

variable {s : State} {g : Group} {lane : Nat} {pc : W64} {m : W32} {r : Region}

theorem closeRegion_none (h : g.region = none) : closeRegion s g lane pc m = .done s := by unfold closeRegion; rw [h]

theorem closeRegion_alone (h : g.region = some r) (hr : gateReady s r.gate) (hm : pairMeet s g pc m r.sig = .alone) :
    closeRegion s g lane pc m = .done (modGroup (sentGate s g r.gate) g.who closedRegion) := by
  unfold closeRegion
  rw [h]
  simp only [hm]
  exact releaseGate_ready hr

theorem closeRegion_lead (h : g.region = some r) (hr : gateReady s r.gate) (hm : pairMeet s g pc m r.sig = .lead) :
    closeRegion s g lane pc m = .done (forward (modGroup (sentGate s g r.gate) g.who closedRegion) g pc m []) := by
  unfold closeRegion
  rw [h]
  simp only [hm, releaseGate_ready hr]

theorem closeRegion_follow {s1 : State} {vs : List W64} (h : g.region = some r) (hr : gateReady s1 r.gate) (hm : pairMeet s g pc m r.sig = .follow s1 vs) :
    closeRegion s g lane pc m = .done (modGroup (sentGate s1 g r.gate) g.who closedRegion) := by
  unfold closeRegion
  rw [h]
  simp only [hm, releaseGate_ready hr]

theorem closeRegion_wait {s1 : State} (h : g.region = some r) (hm : pairMeet s g pc m r.sig = .wait s1) : closeRegion s g lane pc m = .wait s1 false := by
  unfold closeRegion
  rw [h]
  simp only [hm]

theorem closeRegion_differ {w : Who} {x : W64} (h : g.region = some r) (hm : pairMeet s g pc m r.sig = .differ w x) :
    closeRegion s g lane pc m = .over (pairDiffer s g w x r.entry) := by
  unfold closeRegion
  rw [h]
  simp only [hm]

end close

theorem closeRes_done {c : Ctx} {after : State → State} {t : State} (h : closeRegion c.s c.g (lowestLane c.path) c.pc c.path = .done t) :
    closeRes c after = { s := after t } := by unfold closeRes; rw [h]

theorem closeRes_over {c : Ctx} {after : State → State} {t : State} (h : closeRegion c.s c.g (lowestLane c.path) c.pc c.path = .over t) :
    closeRes c after = { s := t, wait := some (.other, 0), keep := true } := by unfold closeRes; rw [h]

theorem closeRes_wait {c : Ctx} {after : State → State} {t : State} (h : closeRegion c.s c.g (lowestLane c.path) c.pc c.path = .wait t false) :
    closeRes c after = { s := t, wait := some (.other, 0), keep := true } := by unfold closeRes; rw [h]; rfl

/-- A gate without lines sends nothing. -/
theorem sentGate_nil (s : State) (g : Group) : sentGate s g [] = s := rfl

theorem gateReady_nil (s : State) : gateReady s [] := fun _ h => absurd h List.not_mem_nil

/-! ## The region words -/

/-- What a region word leaves of the group's region after the close: a new one, or none. -/
def reopen (c : Ctx) (b : Bool) (g : Group) : Group :=
  if b then { g with region := some { entry := c.pc, m0 := g.mask 0, live := g.live, depth := (g.lane (lowestLane c.path)).depth } } else g

theorem steady_reopen (c : Ctx) (b : Bool) : Steady (reopen c b) := by
  cases b with
  | false => exact steady_id
  | true =>
    exact steady_simple _ (fun _ => rfl) (fun _ => rfl) (fun _ => rfl) (fun _ => rfl) (fun _ => rfl) (fun _ => rfl) (fun _ => rfl) (fun _ => rfl)
      fun g h e => ⟨by rw [e.eq]; rfl⟩

/-- A region word: what it is issued with, and the region that it leaves. -/
structure RegionWord (c : Ctx) (i : Instr) (q : Option Region) (b : Bool) (after : Ctx → State → State) : Prop where
  issues : ∀ s, exec i s = issue i s fun c => closeRes c (after c)
  fills : Filled c i
  opens : q = if b then some (opened c) else none
  reach : ∀ {s s' t : State} {f : Group → Group}, Reached s s' i c f t → Reached s s' i c (fun g => reopen c b (f g)) (after c t)

theorem regionWord {c : Ctx} {i : Instr} {q : Option Region}
    (h : (i, q) ∈ [(Instr.regionEntry, some (opened c)), (.regionCloseReopen, some (opened c)), (.regionExit, none)]) : ∃ b after, RegionWord c i q b after := by
  simp only [List.mem_cons, Prod.mk.injEq, List.not_mem_nil, or_false] at h
  rcases h with ⟨rfl, rfl⟩ | ⟨rfl, rfl⟩ | ⟨rfl, rfl⟩
  · exact ⟨true, openRegion, fun _ => rfl, rfl, rfl, fun h => h.own (steady_reopen c true).who⟩
  · exact ⟨true, openRegion, fun _ => rfl, rfl, rfl, fun h => h.own (steady_reopen c true).who⟩
  · exact ⟨false, fun _ => id, fun _ => rfl, rfl, rfl, fun h => h⟩

section words

variable {s : State} {c : Ctx} {i : Instr} {q : Option Region} {b : Bool} {after : Ctx → State → State} (hw : RegionWord c i q b after) (h : Runs s i c)

include hw h

/-- A close that is done: the word goes on. -/
theorem RegionWord.completes {s' t : State} {f : Group → Group} (hr : Reached s s' i c f t) (hf : Steady f)
    (hc : closeRegion s c.g (lowestLane c.path) c.pc c.path = .done t) {G : Group} (hG : reopen c b (f c.g) = G) :
    Completes s s' i { c with g := G } c.g.masks 0 (fun _ => c.pc + 4) [] := by
  obtain ⟨-, hcs, -⟩ := issuer_find s c h.path
  rw [← hG]
  refine (hw.reach hr).run h ((steady_reopen c b).comp hf) (hw.issues s) ?_ .nil List.nodup_nil (Nat.zero_le _)
  rw [show fillOps c i = c from hw.fills]
  exact closeRes_done (by rw [hcs]; exact hc)

/-- A close that is not done: the path waits. -/
theorem RegionWord.waits {t : State}
    (hc : closeRegion s c.g (lowestLane c.path) c.pc c.path = .wait t false ∨ closeRegion s c.g (lowestLane c.path) c.pc c.path = .over t) :
    exec i s = .next (waitState t c.g.who i .other c.path c.pc 0) := by
  obtain ⟨-, hcs, -⟩ := issuer_find s c h.path
  rw [hw.issues]
  refine (issue_waits h (r := { s := t, wait := some (.other, 0), keep := true }) ?_ rfl)
  rw [show fillOps c i = c from hw.fills]
  rcases hc with hc | hc
  · exact closeRes_wait (by rw [hcs]; exact hc)
  · exact closeRes_over (by rw [hcs]; exact hc)

theorem RegionWord.none_open (hn : c.g.region = none) : Completes s s i { c with g := { c.g with region := q } } c.g.masks 0 (fun _ => c.pc + 4) [] := by
  refine hw.completes h (.filled h hw.fills) steady_id (closeRegion_none hn) ?_
  rw [hw.opens]
  cases b with
  | true => rfl
  | false => show c.g = { c.g with region := none }; rw [← hn]

/-- The gate has left from a state that differs from the first in the issuing group alone. -/
theorem RegionWord.sent {r : Region} {s1 : State} {f : Group → Group} (hr : Reached s s1 i c f s1) (hf : Steady f) (hready : gateReady s1 r.gate)
    (hc : closeRegion s c.g (lowestLane c.path) c.pc c.path = .done (modGroup (sentGate s1 c.g r.gate) c.g.who closedRegion))
    (hv : ∀ b, reopen c b (closedRegion (f c.g)) = { f c.g with region := if b then some (opened c) else none }) :
    Completes s (sentGate s1 c.g r.gate) i { c with g := { f c.g with region := q } } c.g.masks 0 (fun _ => c.pc + 4) [] := by
  have hs := (sent_sentGate (g := c.g) hready).written
  rw [hw.opens, ← hv]
  exact hw.completes h ((hr.goes (hs.othersKept _) (findGroup_congr hs.groups _) (by rw [hs.state])).own steady_closedRegion.who)
    (steady_closedRegion.comp hf) hc rfl

theorem RegionWord.led {r : Region} (hready : gateReady s r.gate) (hne : (teamOf s c.g.team).twin ≠ some c.g.team)
    (hc : closeRegion s c.g (lowestLane c.path) c.pc c.path = .done (forward (modGroup (sentGate s c.g r.gate) c.g.who closedRegion) c.g c.pc c.path [])) :
    Completes s (forward (sentGate s c.g r.gate) c.g c.pc c.path []) i { c with g := { c.g with region := q } } c.g.masks 0 (fun _ => c.pc + 4) [] := by
  have hs := (sent_sentGate (g := c.g) hready).written
  have hne' : (teamOf (sentGate s c.g r.gate) c.g.team).twin ≠ some c.g.team := by rw [teamOf_congr hs.teams]; exact hne
  have hr := (((Reached.filled h hw.fills).goes (hs.othersKept _) (findGroup_congr hs.groups _) (by rw [hs.state])).own steady_closedRegion.who).answer
    (twinOf_modGroup_own steady_closedRegion.who hne') hne' c.pc c.path []
  refine hw.completes h hr (steady_closedRegion.comp steady_id) hc ?_
  rw [hw.opens]
  cases b <;> rfl

end words

theorem regionWordsOpen {s : State} {c : Ctx} {i : Instr} {q : Option Region} {T : Team} (hT : T = teamOf s c.g.team)
    (hi : (i, q) ∈ [(Instr.regionEntry, some (opened c)), (.regionCloseReopen, some (opened c)), (.regionExit, none)]) (h : Runs s i c) {r : Region}
    (hr : c.g.region = some r) (hready : gateReady s r.gate) (hne : T.twin ≠ some c.g.team) :
    match pairMeet s c.g c.pc c.path r.sig with
    | .alone => ∃ s', GateOut s s s' T r.gate ∧ Completes s s' i { c with g := { c.g with region := q } } c.g.masks 0 (fun _ => c.pc + 4) []
    | .lead => ∃ s', GateOut s (forward s c.g c.pc c.path []) s' T r.gate ∧
        Completes s s' i { c with g := { c.g with region := q } } c.g.masks 0 (fun _ => c.pc + 4) []
    | .follow s1 _ => ∃ s', GateOut s s1 s' T r.gate ∧
        Completes s s' i { c with g := { (findGroup s1 c.g.who).getD c.g with region := q } } c.g.masks 0 (fun _ => c.pc + 4) []
    | .wait s1 => exec i s = .next (waitState s1 c.g.who i .other c.path c.pc 0)
    | .differ w x => exec i s = .next (waitState (pairDiffer s c.g w x r.entry) c.g.who i .other c.path c.pc 0) := by
  subst hT
  obtain ⟨b, after, hw⟩ := regionWord hi
  have hsent := sent_sentGate (g := c.g) hready
  cases hm : pairMeet s c.g c.pc c.path r.sig with
  | alone =>
    exact ⟨_, gateOut_of_sent hsent fun _ => rfl,
      hw.sent h (.filled h hw.fills) steady_id hready (closeRegion_alone hr hready hm) fun b => by cases b <;> rfl⟩
  | lead =>
    exact ⟨_, gateOut_of_sent (hsent.forward c.g c.pc c.path []) (cellAt_forward s c.g c.pc c.path []), hw.led h hready hne (closeRegion_lead hr hready hm)⟩
  | follow s1 vs =>
    obtain ⟨k, rfl⟩ := pairMeet_follow hm
    have hr1 : Reached s (modGroup s c.g.who (dropFwd k)) i c (dropFwd k) (modGroup s c.g.who (dropFwd k)) := by
      have := (Reached.filled h hw.fills).own (steady_dropFwd k).who
      exact ⟨this.others, this.found, this.cycle, fun _ _ => rfl⟩
    have hfind : (findGroup (modGroup s c.g.who (dropFwd k)) c.g.who).getD c.g = dropFwd k c.g := by
      rw [findGroup_modGroup_same _ _ _ (steady_dropFwd k).who, (issuer_find s c h.path).1]; rfl
    simp only [hfind]
    exact ⟨_, gateOut_of_sent (sent_sentGate (g := c.g) (s := modGroup s c.g.who (dropFwd k)) hready) fun _ => rfl,
      hw.sent h hr1 (steady_dropFwd k) hready (closeRegion_follow hr hready hm) fun b => by cases b <;> rfl⟩
  | wait s1 => exact hw.waits h (.inl (closeRegion_wait hr hm))
  | differ w x => exact hw.waits h (.inr (closeRegion_differ hr hm))

/-- A gate without lines: nothing leaves the region but that it closes. -/
theorem regionWord_empty {s : State} {c : Ctx} {i : Instr} {q : Option Region} {T : Team} (hT : T = teamOf s c.g.team)
    (hi : (i, q) ∈ [(Instr.regionEntry, some (opened c)), (.regionCloseReopen, some (opened c)), (.regionExit, none)]) (h : Runs s i c)
    (hp : isPaired T = false) (he : ∀ r, c.g.region = some r → r.gate = []) :
    Completes s s i { c with g := { c.g with region := q } } c.g.masks 0 (fun _ => c.pc + 4) [] := by
  obtain ⟨b, after, hw⟩ := regionWord hi
  cases hr : c.g.region with
  | none => exact hw.none_open h hr
  | some r =>
    have hnil := he r hr
    have hready : gateReady s r.gate := by rw [hnil]; exact gateReady_nil s
    have := hw.sent h (.filled h hw.fills) steady_id hready (closeRegion_alone hr hready (pairMeet_alone (by rw [← hT]; exact hp)))
      fun b => by cases b <;> rfl
    rwa [hnil, sentGate_nil] at this

/-! ## The meeting of the twins at a region's close -/

theorem twinOf_paired {s : State} {g h : Group} (ht : twinOf s g = some h) : isPaired (teamOf s g.team) = true := by
  unfold twinOf at ht
  obtain ⟨k, hk, -⟩ := Option.bind_eq_some_iff.mp ht
  unfold isPaired
  rw [hk]
  rfl

section meet

variable {s : State} {g h : Group} {pc : W64} {lanes : W32} {sig : W64} (ht : twinOf s g = some h)

include ht

/-- The primary goes on where its twin waits with an equal signature. -/
theorem pairMeet_asked (hp : (teamOf s g.team).primary = true) {m : W32} {x : W64} (ha : h.ask = some (pc, m, x)) :
    pairMeet s g pc lanes sig = if x = sig then .lead else .differ h.who (x ^^^ sig) := by
  unfold pairMeet
  simp [twinOf_paired ht, ht, hp, ha]

/-- The twin waits until it is told to go on. -/
theorem pairMeet_asks (hp : (teamOf s g.team).primary = false) (hf : ∀ e ∈ g.fwd, ¬ (e.1 = pc ∧ e.2.headD 0 = lanes.setWidth 64)) :
    pairMeet s g pc lanes sig = .wait (modGroup s g.who fun x => { x with ask := some (x.ask.getD (pc, lanes, sig)) }) := by
  have hn : posOf (fun (x : W64 × List W64) => x.1 == pc && x.2.headD 0 == lanes.setWidth 64) g.fwd = none :=
    posOf_eq_none.mpr fun e he => by
      have := hf e he
      simpa [-List.headD_eq_head?_getD] using this
  unfold pairMeet
  simp only [twinOf_paired ht, ht, hp, Bool.not_true, Bool.false_eq_true, if_false]
  rw [hn]

theorem pairMeet_told (hp : (teamOf s g.team).primary = false) {vs : List W64} {rest : List (W64 × List W64)}
    (hf : g.fwd = (pc, lanes.setWidth 64 :: vs) :: rest) :
    pairMeet s g pc lanes sig = .follow (modGroup s g.who fun x => { x with fwd := x.fwd.drop 1 }) vs := by
  have hp0 : posOf (fun (x : W64 × List W64) => x.1 == pc && x.2.headD 0 == lanes.setWidth 64) g.fwd = some 0 := by
    rw [hf]; unfold posOf; simp
  have hdrop : ∀ l : List (W64 × List W64), dropNth l 0 = l.drop 1 := fun l => by cases l <;> rfl
  unfold pairMeet
  simp only [twinOf_paired ht, ht, hp, Bool.not_true, Bool.false_eq_true, if_false, hp0, hdrop]
  rw [hf]
  rfl

end meet

/-! ## A restart of a region (R60) -/

theorem lane_modLanes (g : Group) (m : W32) (f : Nat → Lane → Lane) {l : Nat} (hl : l < 32) :
    (g.modLanes m f).lane l = if hasLane m l then f l (g.lane l) else g.lane l := by
  unfold Group.modLanes
  rw [Group.lane, nth_lanes32, if_pos hl]

theorem restarted (g : Group) (r : Region) : Restarted g (restartRegion g r) { r with gate := [], sig := 0, used := [], sent := 0 } where
  region := rfl
  subs := rfl
  pend := rfl
  flags := rfl
  regs := rfl
  masks := fun k hk => mask_putMask g 0 k r.m0 hk
  lanes := fun _ hl => lane_modLanes g r.live
    (fun _ x => { x with st := .running, pc := r.entry + 4, depth := r.depth, handler := false, tag := g.nextTag, at_ := .none }) hl

theorem who_restartRegion (g : Group) (r : Region) : (restartRegion g r).who = g.who := rfl

/-- What a mismatch leaves of a group (R63). -/
def mismatched (k : Nat) (h : Group) : Group := match h.region with
  | some r => restartRegion h { r with mism := k }
  | none => { h with ask := none, mism := k, script := [] }

theorem who_mismatched (k : Nat) (h : Group) : (mismatched k h).who = h.who := by unfold mismatched; split <;> rfl

/-- Under the third mismatch both regions restart. -/
theorem pairDiffer_restarts {s : State} {g : Group} {r : Region} {twin : Who} {x e : W64} (hr : g.region = some r) (hm : r.mism < 2) :
    ∃ rec, pairDiffer s g twin x e = modGroup (modGroup (logError s rec) g.who (mismatched (1 + r.mism))) twin (mismatched (1 + r.mism)) := by
  unfold pairDiffer
  simp only [hr]
  rw [if_neg (by omega)]
  exact ⟨_, rfl⟩

theorem mismatched_restarts {k : Nat} {h : Group} {q : Region} (hq : h.region = some q) :
    Restarted h (mismatched (1 + k) h) { q with gate := [], mism := k + 1, sig := 0, used := [], sent := 0 } := by
  unfold mismatched
  rw [hq, Nat.add_comm]
  exact restarted h { q with mism := k + 1 }

/-- Both twins' groups, as a mismatch leaves them. -/
theorem pairDiffer_groups {s : State} {g h : Group} {r : Region} {x e : W64} (hg : findGroup s g.who = some g) (hh : findGroup s h.who = some h)
    (hne : h.who ≠ g.who) (hr : g.region = some r) (hm : r.mism < 2) : findGroup (pairDiffer s g h.who x e) g.who = some (mismatched (1 + r.mism) g) ∧
    findGroup (pairDiffer s g h.who x e) h.who = some (mismatched (1 + r.mism) h) := by
  obtain ⟨rec, hp⟩ := pairDiffer_restarts (s := s) (twin := h.who) (x := x) (e := e) hr hm
  have hw := who_mismatched (1 + r.mism)
  have hlog : ∀ w, findGroup (logError s rec) w = findGroup s w := findGroup_congr (kept_logError s rec).groups
  rw [hp]
  constructor
  · rw [findGroup_modGroup_other _ hne _ hw, findGroup_modGroup_same _ _ _ hw, hlog, hg]; rfl
  · rw [findGroup_modGroup_same _ _ _ hw, findGroup_modGroup_other _ (Ne.symm hne) _ hw, hlog, hh]; rfl

/-- The third mismatch ends both teams. -/
theorem pairDiffer_ends {s : State} {g : Group} {r : Region} {twin : Who} {x e : W64} (hr : g.region = some r) (hm : 2 ≤ r.mism) :
    ∃ rec : ErrRec, rec.cls = 5 ∧ rec.sev = 1 ∧ rec.cause = 0x32 ∧
      pairDiffer s g twin x e = endTeam (logError s rec) g.team 0x32 (fwhoOf (teamOf s g.team) g) := by
  unfold pairDiffer
  simp only [hr]
  rw [if_pos (by omega)]
  exact ⟨_, rfl, rfl, rfl, rfl⟩

/-- Settles O13: a region word closes the region through the release of its gate, where the meeting of the twins lets it; a mismatch restarts both groups'
regions or ends both teams. -/
theorem regionWordsOpenAndClose : Obligations.RegionWordsOpenAndClose := by
  unfold Obligations.RegionWordsOpenAndClose
  refine fun s c t ht => ⟨fun i q hi h => ⟨regionWord_empty ht hi h, fun hn => ?_, fun r hr hready hne => regionWordsOpen ht hi h hr hready hne⟩,
    fun g pc lanes sig hn => pairMeet_alone (by unfold isPaired; rw [hn]; rfl),
    fun g h pc lanes sig hh => ⟨fun hp m x => pairMeet_asked hh hp, pairMeet_asks hh, fun vs rest hp hf => pairMeet_told hh hp hf⟩,
    fun g h x e r q hg hh hne hr hq => ⟨fun hm => ?_, fun hm => ?_⟩⟩
  · obtain ⟨b, after, hw⟩ := regionWord hi
    exact hw.none_open h hn
  · obtain ⟨h1, h2⟩ := pairDiffer_groups (x := x) (e := e) hg hh hne hr hm
    exact ⟨_, _, h1, h2, mismatched_restarts hr, mismatched_restarts hq⟩
  · obtain ⟨rec, hcls, hsev, hcause, he⟩ := pairDiffer_ends (s := s) (twin := h.who) (x := x) (e := e) hr hm
    refine ⟨⟨rec, hcls, hsev, hcause, he⟩, fun htw hk hj => ?_⟩
    have hteams := (kept_logError s rec).teams
    rw [he]
    exact endTeam_paired _ _ (by rw [teamOf_congr hteams]; exact htw) (by rw [findTeam_congr hteams]; exact hk) (by rw [findTeam_congr hteams]; exact hj)

end Sys2Proof.Machine
end

