-- ==== Sys2Proof/Proofs/LanesLeave.lean ====
section
/-!
Lanes that leave their group, and the instruction that files them in bins (R50, R157).
-/

namespace Sys2Proof.Machine

/-! ## Lanes that leave their group -/

/-- The lanes of a path leave the group, whose pending instructions may have completed before. -/
theorem keepsPlace_exitLanes (m : W32) : KeepsPlace (fun g => exitLanes g m) 0 where
  key := fun _ => rfl
  team := fun _ => rfl
  idx := fun _ => rfl
  core := fun _ => rfl
  away := fun _ => rfl
  slots := fun g => by rw [groupSlots_eq, groupSlots_eq]; exact Nat.le_refl _
  same := fun g h e hx => ⟨by
    have hl := sameBut_modLanes e m fun _ x => { x with st := .exited, handler := false, at_ := .none }
    constructor
    unfold exitLanes dropFromSubs
    rw [hl.eq], hx⟩

theorem KeepsPlace.comp {f k : Group → Group} (hk : KeepsPlace k 0) (hf : KeepsPlace f 0) : KeepsPlace (fun g => k (f g)) 0 where
  key := fun g => (hk.key _).trans (hf.key g)
  team := fun g => (hk.team _).trans (hf.team g)
  idx := fun g => (hk.idx _).trans (hf.idx g)
  core := fun g => (hk.core _).trans (hf.core g)
  away := fun g => (hk.away _).trans (hf.away g)
  slots := fun g => (hk.slots _).trans (hf.slots g)
  same := fun g h e hx => hk.same _ _ (hf.same g h e hx).1 (hf.same g h e hx).2

theorem hasLane_live (g : Group) {l : Nat} (hl : l < 32) : hasLane g.live l = ((g.lane l).st != .exited) := hasLane_laneSet _ l hl

theorem exists_lane {m : W32} (h : m ≠ 0) : ∃ l, l < 32 ∧ hasLane m l = true := by
  obtain ⟨l, hl⟩ := List.exists_mem_of_ne_nil _ (mt lanesOf_eq_nil.mp h)
  have hm := (mem_lanesOf m l).mp hl
  exact ⟨l, hasLane_lt _ _ hm, hm⟩

theorem ne_zero_of_hasLane {m : W32} {l : Nat} (h : hasLane m l = true) : m ≠ 0 := fun e => by rw [e] at h; simp [hasLane] at h

theorem lane_exitLanes (g : Group) (m : W32) {l : Nat} (hl : l < 32) :
    (exitLanes g m).lane l = if hasLane m l then { g.lane l with st := .exited, handler := false, at_ := .none } else g.lane l :=
  lane_modLanes g m (fun _ x => { x with st := .exited, handler := false, at_ := .none }) hl

theorem hasLane_live_exitLanes (g : Group) (m : W32) {l : Nat} (hl : l < 32) : hasLane (exitLanes g m).live l = hasLane (g.live &&& ~~~m) l := by
  rw [hasLane_live _ hl, lane_exitLanes g m hl, hasLane_and, hasLane_not _ _ hl, hasLane_live _ hl]
  cases hasLane m l <;> simp

theorem live_exitLanes (g : Group) (m : W32) : (exitLanes g m).live = 0 ↔ g.live &&& ~~~m = 0 := by
  constructor
  · intro h
    by_contra hne
    obtain ⟨l, hl, ht⟩ := exists_lane hne
    exact ne_zero_of_hasLane ((hasLane_live_exitLanes g m hl).trans ht) h
  · intro h
    by_contra hne
    obtain ⟨l, hl, ht⟩ := exists_lane hne
    exact ne_zero_of_hasLane ((hasLane_live_exitLanes g m hl).symm.trans ht) h

/-- A group of which a lane is left does not end. -/
theorem endIfEmpty_left {c : Ctx} {t : State} {g : Group} (hf : findGroup t c.g.who = some g) (hl : g.live ≠ 0) : endIfEmpty c t = t := by
  unfold endIfEmpty; rw [hf]; exact if_neg hl

/-- An instruction that takes the active lanes out of their group completes. -/
theorem leaves_completes {s s' t : State} {i : Instr} {c : Ctx} {f : Group → Group} (h : Runs s i c) (hr : Reached s s' i c f t) (hf : KeepsPlace f 0)
    {body : Ctx → Res} (he : exec i s = issue i s body) (hb : body (fillOps c i) = { s := t, gone := c.act }) (hm : (f c.g).masks = c.g.masks)
    (hdue : dueSub (f c.g) = none) : Completes s s' i { c with g := f c.g, path := c.path &&& ~~~c.act } c.g.masks 0 (fun _ => c.pc + 4) [] := by
  have ha : after c f { s := t, gone := c.act } = { c with g := f c.g, path := c.path &&& ~~~c.act } := by
    unfold after
    rw [stopped_none rfl, but_none, but_none, BitVec.and_allOnes]
  have hc := hr.completes h hf he hb rfl rfl hdue (ds := []) .nil List.nodup_nil (Nat.zero_le _)
  rw [ha] at hc
  rw [← hm]
  exact hc

/-! ## Reform (R157) -/

/-- The lanes of a set leave the group, whose pending instructions have completed (R43). -/
def reformed (m : W32) (g : Group) : Group := exitLanes (completePending g m) m

theorem keepsPlace_completePending (m : W32) : KeepsPlace (fun g => completePending g m) 0 where
  key := fun _ => rfl
  team := fun _ => rfl
  idx := fun _ => rfl
  core := fun _ => rfl
  away := fun _ => rfl
  slots := fun g => by rw [groupSlots_eq, groupSlots_eq]; exact Nat.le_refl _
  same := fun _ _ e hx => ⟨sameBut_completePending e m, hx⟩

theorem live_completePending (g : Group) (m : W32) : (completePending g m).live = g.live := rfl

/-- What the instruction's effect comes to. -/
def reformRes (d : BitVec 7) (c : Ctx) : Res :=
  let bad := laneSet fun l => hasLane c.act l && !pcOk (c.pv d l)
  let go := c.act &&& ~~~bad
  let (bins, filed) := fileLanes { c with g := completePending c.g go } d go
  let s1 := modCore c.s (groupTile c.s c.g) fun k => { k with bins := bins }
  let s2 := endIfEmpty c (modGroup s1 c.g.who (reformed filed))
  if filed = go then { s := s2, gone := filed, hits := (lanesOf bad).map fun l => { lane := l, cause := 0x11 } }
  else { s := s2, wait := some (.binwait, 0), keep := true }

theorem exec_reform (d : BitVec 7) (s : State) : exec (.reform d) s = issue (.reform d) s (reformRes d) := rfl

/-- Every lane has a legal target and finds a bin. -/
theorem reformRes_filed {c : Ctx} {d : BitVec 7} {bins : List Bin} (hpc : ∀ l, hasLane c.act l = true → pcOk (c.pv d l) = true)
    (hbins : fileLanes { c with g := completePending c.g c.act } d c.act = (bins, c.act)) :
    reformRes d c =
      { s := endIfEmpty c (modGroup (modCore c.s (groupTile c.s c.g) fun k => { k with bins := bins }) c.g.who (reformed c.act)), gone := c.act } := by
  have hbad : (laneSet fun l => hasLane c.act l && !pcOk (c.pv d l)) = 0 := by
    have : (fun l => hasLane c.act l && !pcOk (c.pv d l)) = fun _ => false := funext fun l => by
      cases hl : hasLane c.act l with
      | false => rfl
      | true => rw [hpc l hl]; rfl
    rw [this]
    decide
  unfold reformRes
  simp only [hbad, but_none, hbins, if_true]
  rfl

/-- Settles O41: the lanes that are filed leave the group, which does not end while a lane of it is left. -/
theorem reformFilesLanesInBins : Obligations.ReformFilesLanesInBins := by
  unfold Obligations.ReformFilesLanesInBins
  intro s c d bins h hfill hdue hpc hbins hleft
  obtain ⟨-, hcs, -⟩ := issuer_find s c h.path
  subst hcs
  have hk := (keepsPlace_exitLanes c.act).comp (keepsPlace_completePending c.act)
  have hr := ((Reached.filled h hfill).goes (t' := modCore c.s (groupTile c.s c.g) fun k => { k with bins := bins }) (.of_eq rfl rfl rfl rfl) rfl rfl).own
    (k := reformed c.act) hk.who
  have hf := hr.found
  rw [show fillOps c (.reform d) = c from hfill] at hf
  have hlive : (reformed c.act c.g).live ≠ 0 := mt (live_exitLanes _ _).mp hleft
  refine leaves_completes (f := reformed c.act) h hr hk (exec_reform d c.s) ?_ rfl hdue
  rw [show fillOps c (.reform d) = c from hfill, reformRes_filed hpc hbins, endIfEmpty_left hf hlive]

end Sys2Proof.Machine
end

