-- ==== Sys2Proof/Proofs/Exit.lean ====
section
/-!
The exit instruction, and the end of a group (R29, R58, R153).
-/

namespace Sys2Proof.Machine

/-! ## The end of a group -/

/-- Group w ends: no group is new, the other groups stay, and every byte and every team's status is as it was. -/
structure GroupEnds (w : Who) (s t : State) : Prop where
  none_new : NoneNew s t
  others : ∀ v, v ≠ w → (∃ x ∈ s.groups, x.who = v) → ∃ y ∈ t.groups, y.who = v
  mem : t.mem = s.mem
  clusters : t.clusters = s.clusters
  status : ∀ k u, findTeam t k = some u → ∃ v, findTeam s k = some v ∧ v.status = u.status

section groupEnds

variable {w : Who} {s t : State}

theorem GroupEnds.refl (w : Who) (s : State) : GroupEnds w s s := ⟨.refl s, fun _ _ h => h, rfl, rfl, fun _ u h => ⟨u, h, rfl⟩⟩

theorem GroupEnds.trans {a b c : State} (h : GroupEnds w a b) (k : GroupEnds w b c) : GroupEnds w a c where
  none_new := h.none_new.trans k.none_new
  others := fun v hv hx => k.others v hv (h.others v hv hx)
  mem := k.mem.trans h.mem
  clusters := k.clusters.trans h.clusters
  status := fun j u hu => by
    obtain ⟨x, hx, ex⟩ := k.status j u hu
    obtain ⟨y, hy, ey⟩ := h.status j x hx
    exact ⟨y, hy, ey.trans ex⟩

theorem GroupEnds.ite {p : Prop} [Decidable p] {a b : State} (h : GroupEnds w s a) (k : GroupEnds w s b) : GroupEnds w s (if p then a else b) := by
  split <;> assumption

theorem GroupEnds.cell (h : GroupEnds w s t) (p : Cell) : cellAt t p = cellAt s p := by
  obtain ⟨_ | c, a⟩ := p
  · exact congrArg (mget 0 · a) h.mem
  · show mget 0 (clusterOf t c).sram a = mget 0 (clusterOf s c).sram a
    unfold clusterOf
    rw [h.clusters]

/-- The groups are other ones of the same names. -/
theorem groupEnds_map {f : Group → Group} (hg : t.groups = s.groups.map f) (hf : ∀ g, (f g).who = g.who) (hm : t.mem = s.mem) (hc : t.clusters = s.clusters)
    (ht : t.teams = s.teams) : GroupEnds w s t where
  none_new := noneNew_map hg hf
  others := fun _ _ ⟨x, hx, e⟩ => ⟨f x, hg ▸ List.mem_map_of_mem hx, (hf x).trans e⟩
  mem := hm
  clusters := hc
  status := fun k u hu => ⟨u, by rw [← findTeam_congr ht]; exact hu, rfl⟩

theorem groupEnds_same (hg : t.groups = s.groups) (hm : t.mem = s.mem) (hc : t.clusters = s.clusters) (ht : t.teams = s.teams) : GroupEnds w s t :=
  groupEnds_map (f := id) (by rw [hg, List.map_id]) (fun _ => rfl) hm hc ht

theorem groupEnds_modGroup (s : State) (v : Who) {f : Group → Group} (hf : ∀ g, (f g).who = g.who) : GroupEnds w s (modGroup s v f) :=
  groupEnds_map (f := fun g => if decide (g.who = v) then f g else g) rfl (fun g => by split <;> [exact hf g; rfl]) rfl rfl rfl

theorem firstWhere_mapWhere_status (p : Team → Bool) {f : Team → Team} (hk : ∀ t, (f t).key = t.key) (hs : ∀ t, (f t).status = t.status) (k : Nat) :
    ∀ (l : List Team) (u : Team), firstWhere (fun t => t.key == k) (mapWhere p f l) = some u →
      ∃ v, firstWhere (fun t => t.key == k) l = some v ∧ v.status = u.status
  | [], _, h => by cases h
  | x :: l, u, h => by
    have ih := firstWhere_mapWhere_status p hk hs k l u
    have hx : (if p x then f x else x).key = x.key ∧ (if p x then f x else x).status = x.status := by split <;> [exact ⟨hk x, hs x⟩; exact ⟨rfl, rfl⟩]
    unfold mapWhere at h ih
    rw [List.map_cons] at h
    by_cases hxk : x.key = k
    · simp only [firstWhere, hx.1, hxk, beq_self_eq_true, if_true, Option.some.injEq] at h ⊢
      exact ⟨x, rfl, by rw [← h, hx.2]⟩
    · simp only [firstWhere, hx.1, beq_eq_false_iff_ne.mpr hxk, Bool.false_eq_true, if_false] at h ⊢
      exact ih h

theorem groupEnds_modTeam (s : State) (k : Nat) {f : Team → Team} (hk : ∀ t, (f t).key = t.key) (hs : ∀ t, (f t).status = t.status) :
    GroupEnds w s (modTeam s k f) :=
  ⟨noneNew_of_groups rfl, fun _ _ h => h, rfl, rfl, fun j u hu => firstWhere_mapWhere_status _ hk hs j s.teams u hu⟩

theorem status_addStats (t : Team) (g : Group) : (addStats t g).status = t.status := by unfold addStats; split <;> rfl

/-- What a group's holds leave of a keystone context (R178, R256). -/
theorem groupEnds_releaseHolds (s : State) (g : Group) : GroupEnds w s (releaseHolds s g) := by
  unfold releaseHolds
  refine .ite (.refl w s) ?_
  extract_lets tile keep s1 end_
  have h1 : GroupEnds w s s1 := groupEnds_modTeam s _ (fun _ => rfl) fun _ => rfl
  have h2 : GroupEnds w s1 (modGroup s1 (.key g.team) end_) := groupEnds_modGroup s1 _ fun g => who_eq (Option.isSome_map) rfl rfl
  exact (h1.trans h2).trans (groupEnds_same rfl rfl rfl rfl)

theorem groupEnds_dropGroup (s : State) (w : Who) : GroupEnds w s (dropGroup s w) where
  none_new := noneNew_filter rfl
  others := fun v hv ⟨x, hx, e⟩ => ⟨x, List.mem_filter.mpr ⟨hx, by simp [e, hv]⟩, e⟩
  mem := rfl
  clusters := rfl
  status := fun _ u hu => ⟨u, hu, rfl⟩

theorem groupEnds_sweepWaits (s : State) (tile : Nat) : GroupEnds w s (sweepWaits s tile) := by
  unfold sweepWaits
  refine .ite (.refl w s) ?_
  obtain ⟨f, hf, -, hg⟩ := releaseWaits_groups s tile fun e => !entryUsed s tile e
  exact groupEnds_map hg hf rfl rfl rfl

theorem noneNew_settleTeam (s : State) (k : Nat) : NoneNew s (settleTeam s k) := by
  unfold settleTeam
  split
  · exact .refl s
  next t _ =>
    refine noneNew_ite (.refl s) ?_
    extract_lets s1
    have h1 : NoneNew s s1 := noneNew_ite (.refl s) ((teamEnds_writeBlock k s t).none_new.trans (noneNew_of_groups rfl))
    exact noneNew_ite h1 (h1.trans (teamEnds_retireTeam s1 k).none_new)

/-- The state in which a group's team is settled after the group has ended. -/
def groupGone (s : State) (g : Group) (w : Who) : State :=
  let s1 := releaseHolds (modTeam s g.team fun t => addStats t g) g
  let s2 := modCore (dropGroup s1 w) (groupTile s g) fun c => { c with current := c.current.filter (· != (g.team, g.idx, g.residentAt)) }
  sweepWaits s2 (groupTile s g)

theorem endGroup_found {s : State} {w : Who} {g : Group} (h : findGroup s w = some g) : endGroup s w = settleTeam (groupGone s g w) g.team := by
  unfold endGroup; rw [h]; rfl

theorem groupEnds_groupGone (s : State) (g : Group) (w : Who) : GroupEnds w s (groupGone s g w) := by
  unfold groupGone
  extract_lets s1 s2
  have h1 : GroupEnds w s s1 := (groupEnds_modTeam s _ (fun t => key_addStats t g) fun t => status_addStats t g).trans (groupEnds_releaseHolds _ g)
  have h2 : GroupEnds w s1 s2 := (groupEnds_dropGroup s1 w).trans (groupEnds_same rfl rfl rfl rfl)
  exact (h1.trans h2).trans (groupEnds_sweepWaits s2 _)

/-- The name of the group that has ended is free. -/
theorem groupGone_none (s : State) (g : Group) (w : Who) : findGroup (groupGone s g w) w = none := by
  unfold groupGone
  extract_lets s1 s2
  have h2 : findGroup s2 w = none := findGroup_none fun y hy => by
    have h : y ∈ s1.groups.filter fun g => !decide (g.who = w) := hy
    simpa using (List.mem_filter.mp h).2
  exact (groupEnds_sweepWaits (w := w) s2 _).none_new.find h2

end groupEnds

/-! ## Barriers (R221) -/

/-- The lanes of an opened barrier go on. -/
theorem openBarrier_eq (s : State) (k : Nat) (role : Option Nat) (at_ : WaitAt) :
    ∃ (f : Group → Group) (o : List (Agent × Order)), (∀ g, (f g).who = g.who) ∧ openBarrier s k role at_ = { s with groups := s.groups.map f, orders := o } := by
  unfold openBarrier
  extract_lets here held kind free who
  obtain ⟨o, ho⟩ := foldl_orders (g := acquireView (releasedBy s who)) (fun s a => ⟨_, rfl⟩) who { s with groups := mapWhere here free s.groups }
  exact ⟨fun g => if here g then free g else g, o, fun g => by beta_reduce; split <;> rfl, ho⟩

theorem groupEnds_openBarrier {w : Who} (s : State) (k : Nat) (role : Option Nat) (at_ : WaitAt) : GroupEnds w s (openBarrier s k role at_) := by
  obtain ⟨f, o, hf, h⟩ := openBarrier_eq s k role at_
  rw [h]
  exact groupEnds_map rfl hf rfl rfl rfl

theorem groupEnds_settleBarriers {w : Who} (s : State) (k : Nat) (role : Nat) : GroupEnds w s (settleBarriers s k [role]) := by
  unfold settleBarriers
  extract_lets ready s1
  have h1 : GroupEnds w s s1 := .ite (groupEnds_openBarrier _ _ _ _) (.refl w s)
  exact h1.trans (.ite (groupEnds_openBarrier _ _ _ _) (.refl w s1))

/-- A lane that runs keeps the barriers of its group's team closed. -/
theorem settleBarriers_held {s : State} {g : Group} (hg : g ∈ s.groups) (hk : g.key = none) {x : Lane} (hx : x ∈ g.lanes) (hr : x.st = .running) :
    settleBarriers s g.team [g.role] = s := by
  have hno : ∀ role at_, role = none ∨ role = some g.role → lanesAll s g.team role (fun x => x.st == .waiting && x.at_ == at_) = false := fun role at_ hrole => by
    refine List.all_eq_false.mpr ⟨g, List.mem_filter.mpr ⟨hg, by rcases hrole with rfl | rfl <;> simp [hk]⟩, ?_⟩
    simp only [Bool.not_eq_true, List.all_eq_false]
    exact ⟨x, hx, by simp [hr]⟩
  unfold settleBarriers
  simp [hno none _ (.inl rfl), hno (some g.role) _ (.inr rfl)]

/-! ## The instruction (R153) -/

/-- The lanes of a set leave the group, and the barriers of its team are settled. -/
def exited (c : Ctx) (s : State) : State := settleBarriers (endIfEmpty c (modGroup s c.g.who fun g => exitLanes g c.act)) c.g.team [c.g.role]

/-- What the instruction's effect comes to. -/
def exitRes (c : Ctx) : Res :=
  if c.key then
    if (keyQueue c.g).isEmpty then { s := exited c c.s, gone := c.act }
    else { s := modGroup c.s c.g.who fun g => { g with key := g.key.map fun k => { k with binding := none } }, wait := some (.matrixq, 0), keep := true }
  else if c.g.region.isSome && c.g.live &&& ~~~c.act = 0 then
    let r := closeRes c (exited c)
    if r.hits.isEmpty then { r with gone := c.path } else { r with hits := r.hits.filter fun h => hasLane c.act h.lane }
  else { s := exited c c.s, gone := c.act }

theorem exec_exit (s : State) : exec .exit s = issue .exit s exitRes := rfl

theorem filled_exit (c : Ctx) : Filled c .exit := rfl

theorem noneNew_noteScript (c : Ctx) (s : State) : NoneNew s (noteScript c s) := by
  unfold noteScript
  refine noneNew_ite (.refl s) (noneNew_ite ?_ (noneNew_mapWhere rfl fun _ => rfl))
  split
  · exact noneNew_mapWhere rfl fun _ => rfl
  · exact .refl s

theorem groupEnds_setGroup {w : Who} (s : State) (G : Group) : GroupEnds w s (setGroup s G) :=
  groupEnds_map (f := fun g => if decide (g.who = G.who) then G else g) rfl
    (fun g => by
      by_cases h : g.who = G.who
      · simp [h]
      · simp [h]) rfl rfl rfl

/-- The group has issued one instruction more. -/
def counted (g : Group) : Group := { g with issued := g.issued + 1 }

theorem endIfEmpty_last {c : Ctx} {t : State} {g : Group} (hf : findGroup t c.g.who = some g) (hl : g.live = 0) :
    endIfEmpty c t = endGroup (setGroup t (counted g)) g.who := by
  unfold endIfEmpty; rw [hf]; exact if_pos hl

/-- The last lanes of a group leave it: the group ends, and its team is settled. -/
theorem exited_last {c : Ctx} {s : State} {g : Group} (hf : findGroup s c.g.who = some g) (hlast : g.live &&& ~~~c.act = 0) :
    ∃ u, GroupEnds c.g.who s u ∧ findGroup u c.g.who = none ∧ exited c s = settleBarriers (settleTeam u c.g.team) c.g.team [c.g.role] := by
  have hw := findGroup_who _ _ _ hf
  have hk := (keepsPlace_exitLanes c.act).who
  have h1 := groupEnds_modGroup (w := c.g.who) s c.g.who hk
  have hf1 : findGroup (modGroup s c.g.who fun g => exitLanes g c.act) c.g.who = some (exitLanes g c.act) := by
    rw [findGroup_modGroup_same _ _ _ hk, hf]; rfl
  unfold exited
  generalize modGroup s c.g.who (fun g => exitLanes g c.act) = s1 at h1 hf1 ⊢
  have hGw : (counted (exitLanes g c.act)).who = c.g.who := hw
  have hf2 := findGroup_setGroup s1 (counted (exitLanes g c.act)) _ (hGw.symm ▸ hf1)
  rw [hGw] at hf2
  rw [endIfEmpty_last hf1 ((live_exitLanes g c.act).mpr hlast), show (exitLanes g c.act).who = c.g.who from hw, endGroup_found hf2,
    show (counted (exitLanes g c.act)).team = c.g.team from team_of_who hw]
  exact ⟨_, (h1.trans (groupEnds_setGroup s1 _)).trans (groupEnds_groupGone _ _ _), groupGone_none _ _ _, rfl⟩

theorem exited_gone {c : Ctx} {s : State} {g : Group} (hf : findGroup s c.g.who = some g) (hlast : g.live &&& ~~~c.act = 0) :
    findGroup (exited c s) c.g.who = none := by
  obtain ⟨u, -, hu, he⟩ := exited_last hf hlast
  rw [he]
  exact (groupEnds_settleBarriers (w := c.g.who) _ _ _).none_new.find ((noneNew_settleTeam u _).find hu)

/-- While another group of the team is left, the end of a group changes no byte. -/
theorem exited_cell {c : Ctx} {s : State} {g : Group} (hf : findGroup s c.g.who = some g) (hlast : g.live &&& ~~~c.act = 0)
    (ht : ∀ u, findTeam s c.g.team = some u → u.status ≠ .ended) (hother : ∃ h ∈ s.groups, h.team = c.g.team ∧ h.who ≠ c.g.who) (p : Cell) :
    cellAt (exited c s) p = cellAt s p := by
  obtain ⟨u, hu, -, he⟩ := exited_last hf hlast
  obtain ⟨h, hh, hteam, hne⟩ := hother
  obtain ⟨y, hy, hyw⟩ := hu.others h.who hne ⟨h, hh, rfl⟩
  rw [he, settleTeam_alive (teamAlive_of_group hy ((team_of_who hyw).trans hteam)) fun v hv => by
    obtain ⟨x, hx, ex⟩ := hu.status _ v hv
    exact ex ▸ ht x hx]
  exact (hu.trans (groupEnds_settleBarriers _ _ _)).cell p

/-- An exit of the last lanes runs on whatever the close of the region left. -/
theorem exit_next {s t : State} {c : Ctx} (h : Runs s .exit c) {m : W32} (hb : exitRes c = { s := t, gone := m }) (hg : findGroup t c.g.who = none) :
    exec .exit s = .next (noteScript c (uncur t)) ∧ findGroup (noteScript c (uncur t)) c.g.who = none := by
  refine ⟨?_, (noneNew_noteScript c (uncur t)).find hg⟩
  rw [exec_exit]
  exact issue_ends h (r := { s := t, gone := m }) hb rfl hg

theorem region_last {c : Ctx} (h : c.g.region = none ∨ c.g.live &&& ~~~c.act ≠ 0) : (c.g.region.isSome && decide (c.g.live &&& ~~~c.act = 0)) = false := by
  rcases h with h | h
  · rw [h]; rfl
  · rw [decide_eq_false h, Bool.and_false]

theorem exitRes_plain {c : Ctx} (hq : c.g.key.isSome → keyQueue c.g = []) (h : c.g.region = none ∨ c.g.live &&& ~~~c.act ≠ 0) :
    exitRes c = { s := exited c c.s, gone := c.act } := by
  unfold exitRes Ctx.key
  cases hk : c.g.key.isSome with
  | true => rw [hq hk]; rfl
  | false => rw [region_last h]; rfl

/-- A lane that runs and is not among the active ones keeps the group and the barriers of its team. -/
theorem exited_left {c : Ctx} {s : State} (hf : findGroup s c.g.who = some c.g) (hk : c.g.key = none) {l : Nat} (hl : l < 32)
    (hact : hasLane c.act l = false) (hrun : (c.g.lane l).st = .running) :
    exited c s = modGroup s c.g.who fun g => exitLanes g c.act := by
  have hlane : (exitLanes c.g c.act).lane l = c.g.lane l := by rw [lane_exitLanes _ _ hl, hact]; rfl
  have hf1 : findGroup (modGroup s c.g.who fun g => exitLanes g c.act) c.g.who = some (exitLanes c.g c.act) := by
    rw [findGroup_modGroup_same _ _ _ (keepsPlace_exitLanes c.act).who, hf]; rfl
  have hlive : (exitLanes c.g c.act).live ≠ 0 := ne_zero_of_hasLane (l := l) (by rw [hasLane_live _ hl, hlane, hrun]; rfl)
  have hmem : (exitLanes c.g c.act).lane l ∈ (exitLanes c.g c.act).lanes := by
    rw [hlane]
    exact List.mem_map.mpr ⟨l, (mem_lanes32 l).mpr hl, by rw [hact]; rfl⟩
  unfold exited
  rw [endIfEmpty_left hf1 hlive]
  exact settleBarriers_held (g := exitLanes c.g c.act) (firstWhere_mem _ _ _ hf1).1 hk hmem (by rw [hlane]; exact hrun)

/-- Settles O23: the lanes leave, and with its last lane the group ends; an open region's gate is released first. -/
theorem exitTakesLanesOut : Obligations.ExitTakesLanesOut := by
  unfold Obligations.ExitTakesLanesOut
  intro s c h hq
  obtain ⟨hf, hcs, hct⟩ := issuer_find s c h.path
  subst hcs
  have hr := Reached.filled h (filled_exit c)
  refine ⟨fun hk hdue ⟨l, hl, hact, hrun⟩ => ?_, fun hreg hlast => ?_, fun r hreg hk hlast hp hready => ?_⟩
  · have hleft : c.g.live &&& ~~~c.act ≠ 0 := ne_zero_of_hasLane (l := l) (by
      rw [hasLane_and, hasLane_not _ _ hl, hact, hasLane_live _ hl, hrun]; rfl)
    refine leaves_completes (f := fun g => exitLanes g c.act) h (hr.own (keepsPlace_exitLanes c.act).who) (keepsPlace_exitLanes c.act) (exec_exit c.s) ?_ rfl hdue
    rw [show fillOps c .exit = c from filled_exit c, exitRes_plain hq (.inr hleft), exited_left hf hk hl hact hrun]
  · obtain ⟨he, hn⟩ := exit_next h (exitRes_plain hq (.inl hreg)) (exited_gone hf hlast)
    exact ⟨_, he, hn⟩
  · have hsent := sent_sentGate (g := c.g) hready
    have hcr := closeRes_done (after := exited c) (closeRegion_alone (lane := lowestLane c.path) hreg hready
      (pairMeet_alone (pc := c.pc) (m := c.path) (sig := r.sig) (by rw [← hct]; exact hp)))
    have hb : exitRes c = { s := exited c (modGroup (sentGate c.s c.g r.gate) c.g.who closedRegion), gone := c.path } := by
      unfold exitRes Ctx.key
      rw [hcr, hk, hreg, hlast]
      rfl
    have hf1 : findGroup (modGroup (sentGate c.s c.g r.gate) c.g.who closedRegion) c.g.who = some (closedRegion c.g) := by
      rw [findGroup_modGroup_same _ _ _ steady_closedRegion.who, findGroup_congr hsent.written.groups, hf]; rfl
    obtain ⟨he, hn⟩ := exit_next h hb (exited_gone hf1 hlast)
    refine ⟨_, he, hn, fun hst ⟨x, hx, hteam, hne⟩ p => ?_⟩
    have hu : noteScript c (uncur (exited c (modGroup (sentGate c.s c.g r.gate) c.g.who closedRegion))) =
        uncur (exited c (modGroup (sentGate c.s c.g r.gate) c.g.who closedRegion)) := by unfold noteScript; rw [hp]; rfl
    have hst' : ∀ u, findTeam (modGroup (sentGate c.s c.g r.gate) c.g.who closedRegion) c.g.team = some u → u.status ≠ .ended := fun u hfu => by
      rw [findTeam_congr (s := c.s) (t := modGroup (sentGate c.s c.g r.gate) c.g.who closedRegion) hsent.written.teams] at hfu
      rw [hct, teamOf, hfu] at hst
      exact hst
    obtain ⟨y, hy, hyw⟩ := (groupEnds_modGroup (w := c.g.who) (sentGate c.s c.g r.gate) c.g.who steady_closedRegion.who).others x.who hne
      ⟨x, hsent.written.groups.symm ▸ hx, rfl⟩
    rw [hu, hct]
    exact (exited_cell hf1 hlast hst' ⟨y, hy, (team_of_who hyw).trans hteam, hyw ▸ hne⟩ p).trans (hsent.puts.cells p)

end Sys2Proof.Machine
end

