-- ==== Sys2Proof/Proofs/Reports.lean ====
section
/-!
What error records leave as it was (R391, R392).
-/

namespace Sys2Proof.Machine

/-! ## What a report of an error can change -/

/-- What accesses and error records leave as it was: also the counts of the error ring change. -/
structure Reports (s t : State) : Prop where
  state : t = { s with
    free := t.free, mem := t.mem, poison := t.poison, writes := t.writes, past := t.past, orders := t.orders, tlb := t.tlb, ptrs := t.ptrs
    l1d := t.l1d, l1i := t.l1i, l2c := t.l2c, dirty := t.dirty, out := t.out, ctl := t.ctl, clusters := t.clusters, zeroing := t.zeroing }
  ctl : t.ctl = { s.ctl with irqv := t.ctl.irqv, errdrop := t.ctl.errdrop, errt := t.ctl.errt, errSeq := t.ctl.errSeq }
  cluster : ∀ k, clusterOf t k = { clusterOf s k with sram := (clusterOf t k).sram, sramBad := (clusterOf t k).sramBad }

theorem Traffic.reports {s t : State} (h : Traffic s t) : Reports s t := ⟨h.state, by rw [h.ctl], h.cluster⟩

theorem Reports.refl (s : State) : Reports s s := (Traffic.refl s).reports

theorem Reports.trans {a b c : State} (h : Reports a b) (k : Reports b c) : Reports a c where
  state := k.state.trans (by rw [h.state])
  ctl := k.ctl.trans (by rw [h.ctl])
  cluster := fun x => (k.cluster x).trans (by rw [h.cluster x])

theorem Reports.of_ite {p : Prop} [Decidable p] {s a b : State} (h : Reports s a) (k : Reports s b) : Reports s (if p then a else b) := by
  split <;> assumption

theorem reports_ring (s : State) (d : W32) (n : W32) (q : Nat) : Reports s { s with ctl := { s.ctl with errdrop := d, errt := n, errSeq := q } } :=
  ⟨rfl, rfl, fun _ => rfl⟩

/-- An error record is written, merged, dropped, or sent to the owner. -/
theorem reports_logError (s : State) (e : ErrRec) : Reports s (logError s e) := by
  unfold logError
  extract_lets n used last c1 b s1 c2 s2
  have h2 : Reports s s2 := (traffic_physWrite s _ _).reports.trans (reports_ring s1 s1.ctl.errdrop (s1.ctl.errt + 1) (s1.ctl.errSeq + 1))
  refine .of_ite (reports_ring s _ s.ctl.errt s.ctl.errSeq) (.of_ite (traffic_physPut _ _ _ _).reports
    (.of_ite (reports_ring s _ s.ctl.errt s.ctl.errSeq) (.of_ite (h2.trans (traffic_raiseIrq s2 4).reports) (h2.trans (traffic_out s2 _).reports))))

end Sys2Proof.Machine
end

