-- ==== Sys2Proof/Proofs/MasonAnswers.lean ====
section
/-!
The Mason's answers in queue 12 (R352 to R355).
-/

namespace Sys2Proof.Machine

/-! ## A team whose results have room -/

theorem findTeam_modTeam_same (s : State) (k : Nat) {f : Team → Team} (hf : ∀ t, (f t).key = t.key) : findTeam (modTeam s k f) k = (findTeam s k).map f :=
  firstWhere_mapWhere_same _ _ (fun t ht => by rw [hf]; exact ht) _

/-- A resident team without a twin, of which something is left, and whose queue 12 has room. -/
structure Answerable (s : State) (k : Nat) (t : Team) : Prop where
  found : findTeam s k = some t
  resident : t.status = .resident
  single : t.twin = none
  alive : teamAlive s k = true
  unsaved : (s.saved.any fun x => x.key == k) = false
  room : (queueOf t 12).length < 16

section answerable

variable {s : State} {k : Nat} {t0 : Team}

theorem Answerable.team (h : Answerable s k t0) : teamOf s k = t0 := by unfold teamOf; rw [h.found]; rfl

theorem Answerable.key (h : Answerable s k t0) : t0.key = k := by simpa using (firstWhere_mem _ _ _ h.found).2

theorem Answerable.of_eq (h : Answerable s k t0) {t : State} (ht : t.teams = s.teams) (hs : t.saved = s.saved) (hg : t.groups = s.groups)
    (hc : t.cores = s.cores) (hv : t.vault = s.vault) : Answerable t k t0 where
  found := (findTeam_congr ht k).trans h.found
  resident := h.resident
  single := h.single
  alive := by
    rw [← h.alive]
    unfold teamAlive
    rw [hg, hc, hs, hv]
  unsaved := by rw [hs]; exact h.unsaved
  room := h.room

theorem Answerable.traffic (h : Answerable s k t0) {t : State} (ht : Traffic s t) : Answerable t k t0 :=
  h.of_eq (by rw [ht.state]) (by rw [ht.state]) (by rw [ht.state]) (by rw [ht.state]) (by rw [ht.state])

theorem Answerable.twins (h : Answerable s k t0) : Machine.twins s k = [k] := by
  have hany : (s.teams.any fun t => t.key == k && t.status != .ended) = true :=
    List.any_eq_true.mpr ⟨t0, (firstWhere_mem _ _ _ h.found).1, by simp [h.key, h.resident]⟩
  unfold Machine.twins
  rw [h.team]
  simp [h.single, hany]

/-- The team may be answered. -/
theorem Answerable.resultRoom (h : Answerable s k t0) : (Machine.twins s k).all (Machine.resultRoom s) = true := by
  have hnone : firstWhere (fun (x : Saved) => x.key == k) s.saved = none :=
    firstWhere_none _ _ fun x hx => Bool.eq_false_iff.mpr fun e => Bool.eq_false_iff.mp h.unsaved (List.any_eq_true.mpr ⟨x, hx, e⟩)
  rw [h.twins]
  simp [Machine.resultRoom, h.team, hnone, h.room]

/-- A result goes to queue 12 of the team. -/
theorem Answerable.postResult (h : Answerable s k t0) (v : W64) :
    Machine.postResult s k v = pushQueue s k 12 v (({} : View).plus (.mason k) s.writes) := by
  unfold Machine.postResult
  rw [h.twins]
  simp only [List.foldl_cons, List.foldl_nil, h.unsaved, Bool.false_eq_true, if_false]

/-- The team after a result was pushed into its queue 12. -/
theorem findTeam_pushQueue (hf : findTeam s k = some t0) (q : Nat) (v : W64) (w : View) :
    ∃ m, findTeam (pushQueue s k q v w) k = some { t0 with queues := mput [] t0.queues q (queueOf t0 q ++ [v]), queueViews := m } := by
  have ht : teamOf s k = t0 := by unfold teamOf; rw [hf]; rfl
  unfold pushQueue setQueue
  rw [findTeam_modTeam_same, findTeam_modTeam_same, hf, ht]
  · exact ⟨_, rfl⟩
  · exact fun _ => rfl
  · exact fun _ => rfl

theorem queueOf_pushQueue (hf : findTeam s k = some t0) (q : Nat) (v : W64) (w : View) :
    queueOf (teamOf (pushQueue s k q v w) k) q = queueOf t0 q ++ [v] := by
  obtain ⟨m, hm⟩ := findTeam_pushQueue hf q v w
  unfold teamOf queueOf
  rw [hm]
  exact mget_mput_same _ _ _ _

/-- The answer of a command is its result in queue 12. -/
theorem Answerable.answer (h : Answerable s k t0) (rest : List (Nat × W64)) (v : W64) :
    Machine.answer s k rest v = pushQueue { s with masonQ := rest } k 12 v (({} : View).plus (.mason k) s.writes) := by
  have h' : Answerable { s with masonQ := rest } k t0 := h.of_eq rfl rfl rfl rfl rfl
  unfold Machine.answer
  rw [h'.postResult]
  refine settleTeam_alive h'.alive fun u hu => ?_
  obtain ⟨m, hm⟩ := findTeam_pushQueue h'.found 12 v (({} : View).plus (.mason k) s.writes)
  rw [hm] at hu
  obtain rfl := Option.some.inj hu
  rw [show _ = t0.status from rfl, h.resident]
  decide

end answerable

/-! ## Appends (R352 to R354) -/

section append

variable {s : State} {k i : Nat} {t0 : Team} (h : Answerable s k t0)

theorem mem_mapWhere_of_any {α : Type} {p : α → Bool} {f : α → α} {l : List α} (h : l.any p = true) : ∃ c ∈ l, p c = true ∧ f c ∈ mapWhere p f l := by
  obtain ⟨c, hc, hp⟩ := List.any_eq_true.mp h
  exact ⟨c, hc, hp, List.mem_map.mpr ⟨c, hc, if_pos hp⟩⟩

theorem firstWhere_any {α : Type} {p : α → Bool} {l : List α} (h : (firstWhere p l).isSome = true) : l.any p = true := by
  obtain ⟨x, hx⟩ := Option.isSome_iff_exists.mp h
  exact List.any_eq_true.mpr ⟨x, firstWhere_mem _ _ _ hx⟩

/-- The append stands at the end of a course of the team on the log, which it seals or leaves open. -/
theorem joinCourse_holds (s : State) (t : Team) (a : Append) (pa seq : Nat) (bs : List Byte) :
    ∃ x ∈ (joinCourse s t a pa seq bs).courses, x.team = t.key ∧ x.log = a.log ∧ x.seq = seq ∧ x.sealed = a.sealAfter ∧ x.parts.getLast? = some (pa, bs) := by
  unfold joinCourse
  extract_lets tooLong s1 s2
  have hopen : (s2.courses.any fun c => c.team == t.key && c.log == a.log && !c.sealed) = true := by
    simp only [s2]
    split
    · exact firstWhere_any ‹_›
    · simp
  obtain ⟨c, hc, hp, hmem⟩ := mem_mapWhere_of_any (f := fun c => { c with parts := c.parts ++ [(pa, bs)], len := c.len + a.len, seq := seq, sealed := a.sealAfter }) hopen
  simp only [Bool.and_eq_true, beq_iff_eq] at hp
  exact ⟨_, hmem, hp.1.1, hp.1.2, rfl, rfl, by simp⟩

theorem joinCourse_courses (s : State) (t : Team) (a : Append) (pa seq : Nat) (bs : List Byte) :
    ∃ cs, joinCourse s t a pa seq bs = { s with courses := cs } := by
  unfold joinCourse
  extract_lets tooLong s1 s2
  have h1 : ∃ cs, s1 = { s with courses := cs } := by
    simp only [s1]
    split <;> exact ⟨_, rfl⟩
  obtain ⟨cs, h1⟩ := h1
  have h2 : ∃ cs, s2 = { s with courses := cs } := by
    simp only [s2]
    split
    · exact ⟨cs, h1⟩
    · exact ⟨_, by rw [h1]⟩
  obtain ⟨cs, h2⟩ := h2
  exact ⟨_, by rw [h2]; rfl⟩

theorem exec_masonAppend (hi : posOf (fun (x : Nat × W64) => x.1 == k) s.masonQ = some i) (hrun : 2 ∉ s.refused) (h : Answerable s k t0) :
    exec (.masonAppend k) s = .next (appendBlock s t0 (dropNth s.masonQ i) (nth (0, 0) s.masonQ i).2) := by
  have hr : masonRuns s = true := by simpa [masonRuns] using hrun
  show execMasonAppend k s = _
  unfold execMasonAppend
  rw [hi]
  simp only [hr, h.resultRoom, h.team, Bool.and_self, if_true]

theorem appendBlock_skewed (s : State) (t : Team) (rest : List (Nat × W64)) {va : W64} (hv : va.toNat % 32 ≠ 0) :
    appendBlock s t rest va = refuseAppend s t.key rest 4 0 := by
  unfold appendBlock
  simp only
  rw [if_pos (by simpa using hv)]

theorem traffic_readLines (env : Env) : ∀ (l : List (Nat × Nat)) (s : State), Traffic s (readLines s env l).1
  | [], s => .refl s
  | (va, n) :: l, s => by
    unfold readLines
    have h := traffic_readAt s env .read va n
    generalize readAt s env .read va n = r at h
    obtain ⟨s1, e | bs⟩ := r
    · exact h
    · have ih := traffic_readLines env l s1
      simp only
      generalize readLines s1 env l = r at ih
      obtain ⟨s2, e | bs'⟩ := r <;> exact h.trans ih

/-- A block that can be read, whose append the log has room for and whose source can be read, is accepted. -/
theorem appendBlock_accepted {t : Team} {rest : List (Nat × W64)} {va : W64} {s1 s2 s3 : State} {b bs : List Byte} {l : Log} {off : Nat}
    (hv : va.toNat % 32 = 0) (hb : readAt s (masonEnv s t) .read va.toNat 32 = (s1, .ok b)) (hres : (appendOf b).reserved = false)
    (hlo : 1 ≤ (appendOf b).len) (hhi : (appendOf b).len ≤ 1048576) (hl : logOf s1 t.ctx (appendOf b).log = some l)
    (hoff : off = if (appendOf b).align then roundUp l.cur 4096 else l.cur) (hfit : off + (appendOf b).len ≤ l.size)
    (hsrc : readLines s1 (masonEnv s1 t) (linesOf (appendOf b).src (appendOf b).len) = (s2, .ok bs)) (hpos : writePos s2 t va.toNat off = (s3, .done)) :
    appendBlock s t rest va = acceptAppend s3 t rest (appendOf b) l off bs := by
  unfold appendBlock
  simp only
  rw [if_neg (by simp [hv]), hb]
  simp only
  rw [if_neg (by simp [hres]; omega), hl]
  simp only
  rw [← hoff, if_neg (by omega), hsrc]
  simp only
  rw [hpos]

/-- The state in which an accepted append is answered: CUR and NSEQ have moved on, and the append has joined its course. -/
def appended (s : State) (t : Team) (a : Append) (l : Log) (off : Nat) (bs : List Byte) : State :=
  let tab := (mget 0 s.ctl.logtb t.ctx).toNat + 32 * a.log
  joinCourse (physPut (physPut s (tab + 0x10) 8 (off + a.len)) (tab + 0x18) 8 ((l.seq + 1) % 2 ^ 48)) t a (l.base + l.cur) l.seq (zeros (off - l.cur) ++ bs)

theorem Answerable.appended {s : State} (h : Answerable s k t0) (a : Append) (l : Log) (off : Nat) (bs : List Byte) :
    Answerable (appended s t0 a l off bs) k t0 := by
  unfold Machine.appended
  extract_lets tab
  have hp := h.traffic ((traffic_physPut s (tab + 0x10) 8 (off + a.len)).trans (traffic_physPut _ (tab + 0x18) 8 ((l.seq + 1) % 2 ^ 48)))
  obtain ⟨cs, hj⟩ := joinCourse_courses (physPut (physPut s (tab + 0x10) 8 (off + a.len)) (tab + 0x18) 8 ((l.seq + 1) % 2 ^ 48)) t0 a (l.base + l.cur) l.seq
    (zeros (off - l.cur) ++ bs)
  rw [hj]
  exact hp.of_eq rfl rfl rfl rfl rfl

/-- A misaligned block is refused. -/
theorem append_skewed (h : Answerable s k t0) (hrun : 2 ∉ s.refused) (hi : posOf (fun (x : Nat × W64) => x.1 == k) s.masonQ = some i)
    (hv : (nth (0, 0) s.masonQ i).2.toNat % 32 ≠ 0) : Goes (.masonAppend k) s fun t => t.masonQ = dropNth s.masonQ i ∧
      ∃ seq, queueOf (teamOf t k) 12 = queueOf t0 12 ++ [masonResult false 4 0 seq] := by
  have hf : Answerable { s with free := s.free + 1 } k t0 := h.of_eq rfl rfl rfl rfl rfl
  have hf' : findTeam { ({ s with free := s.free + 1 } : State) with masonQ := dropNth s.masonQ i } k = some t0 := h.found
  refine ⟨_, exec_masonAppend hi hrun h, ?_⟩
  rw [appendBlock_skewed s t0 _ hv, h.key, refuseAppend, hf.answer]
  exact ⟨rfl, _, queueOf_pushQueue hf' 12 _ _⟩

/-- An accepted append is answered in queue 12. -/
theorem append_accepted (h : Answerable s k t0) (hrun : 2 ∉ s.refused) (hi : posOf (fun (x : Nat × W64) => x.1 == k) s.masonQ = some i) {s3 : State}
    (h3 : Answerable s3 k t0) {a : Append} {l : Log} {off : Nat} {bs : List Byte}
    (hacc : appendBlock s t0 (dropNth s.masonQ i) (nth (0, 0) s.masonQ i).2 = acceptAppend s3 t0 (dropNth s.masonQ i) a l off bs) :
    Goes (.masonAppend k) s fun t => t.masonQ = dropNth s.masonQ i ∧ queueOf (teamOf t k) 12 = queueOf t0 12 ++ [masonResult false 0 a.log l.seq] ∧
      (∃ x ∈ t.courses, x.team = k ∧ x.log = a.log ∧ x.seq = l.seq ∧ x.sealed = a.sealAfter ∧
        x.parts.getLast? = some (l.base + l.cur, zeros (off - l.cur) ++ bs)) ∧ t.mem = (appended s3 t0 a l off bs).mem := by
  have hf := h3.appended a l off bs
  have hf' : findTeam { appended s3 t0 a l off bs with masonQ := dropNth s.masonQ i } k = some t0 := hf.found
  refine ⟨_, exec_masonAppend hi hrun h, ?_⟩
  rw [hacc, show acceptAppend s3 t0 (dropNth s.masonQ i) a l off bs =
    answer (appended s3 t0 a l off bs) t0.key (dropNth s.masonQ i) (masonResult false 0 a.log l.seq) from rfl, h.key, hf.answer]
  have hc := joinCourse_holds (physPut (physPut s3 ((mget 0 s3.ctl.logtb t0.ctx).toNat + 32 * a.log + 0x10) 8 (off + a.len))
    ((mget 0 s3.ctl.logtb t0.ctx).toNat + 32 * a.log + 0x18) 8 ((l.seq + 1) % 2 ^ 48)) t0 a (l.base + l.cur) l.seq (zeros (off - l.cur) ++ bs)
  rw [h.key] at hc
  exact ⟨rfl, queueOf_pushQueue hf' 12 _ _, hc, rfl⟩

theorem appended_mem (s : State) (t : Team) (a : Append) (l : Log) (off : Nat) (bs : List Byte) {tab : Nat}
    (ht : tab = (mget 0 s.ctl.logtb t.ctx).toNat + 32 * a.log) :
    (appended s t a l off bs).mem = (physPut (physPut s (tab + 0x10) 8 (off + a.len)) (tab + 0x18) 8 ((l.seq + 1) % 2 ^ 48)).mem := by
  unfold appended
  rw [← ht]
  obtain ⟨cs, hj⟩ := joinCourse_courses (physPut (physPut s (tab + 0x10) 8 (off + a.len)) (tab + 0x18) 8 ((l.seq + 1) % 2 ^ 48)) t a (l.base + l.cur) l.seq
    (zeros (off - l.cur) ++ bs)
  simp only [hj]

/-! ## Seals (R89, R354) -/

theorem exec_masonSeal {n : Nat} (hi : posOf (fun (c : Course) => c.team == k && c.log == n && c.sealed) s.courses = some i) (hrun : 2 ∉ s.refused)
    (h : Answerable s k t0) {c : Course} (hc : s.courses[i]? = some c) :
    exec (.masonSeal k n) s = .next (postResult (landCourse { s with courses := dropNth s.courses i } c) k (masonResult true 0 n c.seq)) := by
  have hr : masonRuns s = true := by simpa [masonRuns] using hrun
  show execMasonSeal k n s = _
  unfold execMasonSeal
  rw [hi]
  simp only [hr, h.resultRoom, Bool.and_self, if_true]
  rw [nth_getElem?, hc]
  rfl

theorem traffic_landCourse (s : State) (c : Course) : Traffic s (landCourse s c) := .fold (fun _ _ => traffic_physWriteBy _ _ _ _) _ _

/-- The bytes of a course do not depend on the courses that are left. -/
theorem landCourse_courses (l : List Course) (c : Course) (s : State) : landCourse { s with courses := l } c = { landCourse s c with courses := l } := by
  unfold landCourse
  generalize c.parts = ps
  induction ps generalizing s with
  | nil => rfl
  | cons x ps ih => exact ih (physWriteBy s { agent := .mason c.team } x.1 x.2)

/-! ## Wake tokens (R355) -/

/-- Waking changes nothing of the stalls. -/
theorem wakeQuarry_stalls (s : State) (p : W64 → Bool) : (wakeQuarry s p).stalls = s.stalls ∧ (wakeQuarry s p).spRestarts = s.spRestarts := by
  unfold wakeQuarry
  generalize upto (5 * Config.nClusters) = l
  induction l generalizing s with
  | nil => exact ⟨rfl, rfl⟩
  | cons x l ih => exact ih (releaseWaits s x _)

end append

/-- Settles O50: a resident team's command is answered in its queue 12, since the team goes on and no access changes what the answer looks at. -/
theorem masonAnswersInQueueTwelve : Obligations.MasonAnswersInQueueTwelve := by
  unfold Obligations.MasonAnswersInQueueTwelve
  refine fun s => ⟨fun k i t0 hf hres htw halive hsaved hroom hrun => ?_, fun tok => ⟨_, rfl, (wakeQuarry_stalls _ _).1⟩, ?_⟩
  · have h : Answerable s k t0 := ⟨hf, hres, htw, halive, hsaved, hroom⟩
    refine ⟨fun va hi hva => ⟨fun hv => append_skewed h hrun hi (hva ▸ hv), ?_⟩, fun n c hi hc => ?_⟩
    · intro s1 b a l off s2 bs s3 tab hv hb ha hreserved hlo hhi hl hoff hfit hsrc hpos htab
      subst ha hva
      have h1 := (traffic_readAt s (masonEnv s t0) .read (nth (0, 0) s.masonQ i).2.toNat 32).of_fst hb
      have h2 := (traffic_readLines (masonEnv s1 t0) (linesOf (appendOf b).src (appendOf b).len) s1).of_fst hsrc
      have h3 := (traffic_writeAt s2 (masonEnv s2 t0) (((nth (0, 0) s.masonQ i).2.toNat + 0x10) % 2 ^ 64) (toBytes 8 off) { agent := .mason t0.key }).of_fst hpos
      rw [← appended_mem s3 t0 (appendOf b) l off bs htab]
      exact append_accepted h hrun hi (h.traffic ((h1.trans h2).trans h3)) (appendBlock_accepted hv hb hreserved hlo hhi hl hoff hfit hsrc hpos)
    · have hland : Answerable (landCourse { s with courses := dropNth s.courses i } c) k t0 :=
        (h.of_eq (t := { s with courses := dropNth s.courses i }) rfl rfl rfl rfl rfl).traffic (traffic_landCourse _ c)
      refine ⟨_, exec_masonSeal hi hrun h hc, ?_⟩
      rw [hland.postResult]
      refine ⟨?_, ?_, queueOf_pushQueue hland.found 12 _ _⟩
      · show (landCourse { s with courses := dropNth s.courses i } c).courses = _
        rw [landCourse_courses]
      · show (landCourse { s with courses := dropNth s.courses i } c).mem = _
        rw [landCourse_courses]
  · obtain ⟨hstalls, hrestarts⟩ := wakeQuarry_stalls (logError { s with stalls := [], spRestarts := s.spRestarts + 1 }
      { cls := 0x0E, sev := 1, unit := unitOf 9 1 0 0 0, detail := (s.spRestarts + 1) % 2 ^ 64 }) fun _ => true
    have hlog := (reports_logError { s with stalls := [], spRestarts := s.spRestarts + 1 }
      { cls := 0x0E, sev := 1, unit := unitOf 9 1 0 0 0, detail := (s.spRestarts + 1) % 2 ^ 64 }).state
    exact ⟨_, rfl, hstalls.trans (by rw [hlog]), hrestarts.trans (by rw [hlog])⟩

end Sys2Proof.Machine
end

