-- ==== Sys2Proof/Proofs/PageCauses.lean ====
section
/-!
Page causes, and the size of the access that parks a sub-group (R46).
-/

namespace Sys2Proof.Machine

/-! ## Taking a page cause (R46) -/

/-- A group of one running lane. -/
def loneGroup : Group := { team := 0, idx := 0, core := 0, quad := 0, role := 0, nregs := 8, budget := 64, lanes := [{}] }

/-- A machine with that group alone. -/
def loneState : State := { groups := [loneGroup] }

/-- Lane 0 reads four bytes of a page that is not there. -/
def missedRead : List Hit := (lanesOf 1).map fun l => { lane := l, cause := 0x10, token := 0, addr := 0, bytes := 4, kind := 0 }

/-- The sizes of the accesses that parked the sub-groups, group by group. -/
def parkedSizes (s : State) : List (List Nat) := s.groups.map fun g => g.subs.map (·.bytes)

/-- The machine keeps the size of the access that parked a sub-group. -/
theorem parkedSizes_missedRead : parkedSizes (raise loneState loneGroup.who 0 missedRead) = [[4]] := by decide +kernel

/-- The state that the claim names for that read. -/
def claimedState : State :=
  deliver (setGroup
    { (modCore loneState (groupTile loneState loneGroup) fun k => { k with waitTab := k.waitTab ++ [{ asid := 0, quarry := false, token := 0 }] }) with
      faultQ := loneState.faultQ ++ [{ cause := 0x10, asid := 0, launch := 0, team := 0, lanes := 1, pcmask := 0, token := 0, va := 0, group := 0
                                       who := BitVec.ofNat 32 (groupTile loneState loneGroup), access := BitVec.ofNat 32 (4 + 0 * 2 ^ 8 + 2 ^ 11) }] }
    { loneGroup.modLanes 1 (fun _ x => { x with st := .parked }) with
      subs := loneGroup.subs ++ [{ parkedSub loneGroup 1 0 0x10 0 with token := 0, tval := 0, filed := true }] }) loneGroup.who

/-- The claim has the sub-group without the size of its access. -/
theorem parkedSizes_claimedState : parkedSizes claimedState = [[0]] := by decide +kernel

/-- Refutes O46: the claim about page causes leaves out that the parked sub-group keeps the size and kind of the access that parked it. Where lane 0 of a
group of one lane reads four bytes of a page that is not there, the machine keeps the 4, and the claim has 0. -/
theorem not_takingAnExceptionEntersTheHandler : ¬ Obligations.TakingAnExceptionEntersTheHandler := by
  unfold Obligations.TakingAnExceptionEntersTheHandler
  intro h
  obtain ⟨-, hpage, -⟩ := h loneState loneState loneGroup _ _ rfl rfl rfl rfl
  have hraise : raise loneState loneGroup.who 0 missedRead = claimedState :=
    hpage 0 1 0x10 4 0 0 0 false true false _ _ _ (by decide) rfl
      (fun l hl => by
        have h0 : l = 0 := by simpa [hasLane] using hl
        rw [h0]; rfl) rfl rfl rfl rfl rfl
  have hsizes := congrArg parkedSizes hraise
  rw [parkedSizes_missedRead, parkedSizes_claimedState] at hsizes
  exact absurd hsizes (by decide)

end Sys2Proof.Machine
end

