-- ==== Sys2Proof/Proofs/Clock.lean ====
section
/-!
What leaves the cycle, the time and the compute clock as they were (R15, R145).
-/

namespace Sys2Proof.Machine

/-! ## What sets the clock -/

/-- The cycle, the time, and the frequency of the compute clock. -/
def ticksOf (s : State) : Nat × Nat × W32 := (s.cycle, s.timeFs, s.ctl.fclk)

theorem clock_ite {p : Prop} [Decidable p] {s a b : State} (h : ticksOf a = ticksOf s) (k : ticksOf b = ticksOf s) : ticksOf (if p then a else b) = ticksOf s := by
  split <;> assumption

theorem clock_fold {α : Type} {f : State → α → State} (h : ∀ s x, ticksOf (f s x) = ticksOf s) : ∀ (l : List α) (s : State), ticksOf (l.foldl f s) = ticksOf s
  | [], _ => rfl
  | x :: l, s => (clock_fold h l (f s x)).trans (h s x)

theorem Reports.clock {s t : State} (h : Reports s t) : ticksOf t = ticksOf s := by
  have hc : t.ctl.fclk = s.ctl.fclk := by rw [h.ctl]
  have hs : t.cycle = s.cycle ∧ t.timeFs = s.timeFs := by rw [h.state]; exact ⟨rfl, rfl⟩
  unfold ticksOf
  rw [hc, hs.1, hs.2]

theorem clock_sweepWaits (s : State) (tile : Nat) : ticksOf (sweepWaits s tile) = ticksOf s := clock_ite rfl rfl

theorem clock_landCourse (s : State) (c : Course) : ticksOf (landCourse s c) = ticksOf s := clock_fold (fun _ _ => (traffic_physWriteBy _ _ _ _).reports.clock) _ _

theorem clock_retireTeam (s : State) (k : Nat) : ticksOf (retireTeam s k) = ticksOf s :=
  (rfl : ticksOf (retireTeam s k) = ticksOf ((s.courses.filter fun c => c.team == k).foldl landCourse s)).trans (clock_fold clock_landCourse _ _)

theorem clock_putBlock (s : State) (b : Block) : ticksOf (putBlock s b) = ticksOf s := by
  unfold putBlock
  have h := (traffic_writeAt s (devEnv s b.ctx false) b.va b.bytes {}).reports.clock
  split
  next s1 he => rw [he] at h; exact h
  next s1 _ he => rw [he] at h; exact h

theorem clock_writeBlock (s : State) (t : Team) : ticksOf (writeBlock s t) = ticksOf s := clock_ite rfl (clock_putBlock _ _)

theorem clock_clearTeam (s : State) (k : Nat) : ticksOf (clearTeam s k) = ticksOf s := by
  unfold clearTeam
  extract_lets t frozen s1 s2 s3
  have h1 : ticksOf s1 = ticksOf s := clock_fold (f := fun s g => modTeam s k fun t => addStats t g) (fun _ _ => rfl) _ _
  clear_value s1
  have h2 : ticksOf s2 = ticksOf s1 := rfl
  have h3 : ticksOf s3 = ticksOf s2 := clock_fold (fun s i => clock_sweepWaits s _) _ _
  clear_value s2 s3
  exact (rfl : ticksOf (modTeam s3 k fun t => { t with quarters := [] }) = ticksOf s3).trans (h3.trans (h2.trans h1))

theorem clock_stopCleared (s : State) (t : Team) (k : Nat) (cause : BitVec 8) : ticksOf (stopCleared s t k cause) = ticksOf s := by
  unfold stopCleared
  extract_lets s1 s2 s3
  have h2 : ticksOf s2 = ticksOf s := clock_writeBlock s1 _
  have h3 : ticksOf s3 = ticksOf s := (clock_ite (clock_ite rfl rfl) rfl : ticksOf s3 = ticksOf s2).trans h2
  exact clock_ite h3 ((clock_retireTeam s3 k).trans h3)

theorem clock_stopTeam (s : State) (k : Nat) (cause : BitVec 8) : ticksOf (stopTeam s k cause) = ticksOf s := by
  cases h : findTeam s k with
  | none => rw [stopTeam_none cause h]
  | some t =>
    by_cases he : t.status = .ended
    · rw [stopTeam_ended cause h he]
    · rw [stopTeam_live cause h he, clock_stopCleared, clock_clearTeam]

theorem clock_cancelRequests (s : State) (h : HeadId) : ticksOf (cancelRequests s h) = ticksOf s := by
  unfold cancelRequests
  extract_lets mine
  refine (clock_fold (fun s t => ?_) mine _).trans rfl
  exact clock_ite rfl (clock_ite rfl rfl)

theorem clock_settleBlocked (s : State) : ticksOf (settleBlocked s) = ticksOf s := clock_fold (fun s h => clock_cancelRequests s h) _ _

theorem clock_killLaunch (s : State) (c : Nat) (id : W32) (cause : BitVec 8) (ft fw : W32) : ticksOf (killLaunch s c id cause ft fw) = ticksOf s := by
  unfold killLaunch
  extract_lets s1
  rw [clock_settleBlocked]
  have h1 : ticksOf s1 = ticksOf s := rfl
  clear_value s1
  exact (clock_fold (α := Team) (f := fun s t => stopTeam s t.key 0) (fun s t => clock_stopTeam s t.key 0) _ s1).trans h1

theorem clock_postKey (s : State) (w : Who) (cause code : Nat) : ticksOf (postKey s w cause code) = ticksOf s := by
  unfold postKey
  split
  · rfl
  next g _ =>
    simp only
    split
    · rfl
    next a _ =>
      have h := (traffic_writeAt s (devEnv s (teamOf s g.team).ctx false) a (keyStateBytes g cause code) {}).reports.clock
      split
      next s2 _ _ he => rw [he] at h; exact (clock_killLaunch _ _ _ _ _ _).trans h
      next s2 he => rw [he] at h; exact h
      next s2 he => rw [he] at h; exact h

/-! ## The end of a cycle (R15, R87, R400) -/

theorem clock_settleMuster (k : Nat) (s : State) (x : Nat × Option (Nat × W32 × W32)) : ticksOf (settleMuster k s x) = ticksOf s := by
  unfold settleMuster
  split
  · rfl
  · exact clock_ite rfl rfl

theorem clock_settleMusters (s : State) (k : Nat) : ticksOf (settleMusters s k) = ticksOf s := clock_ite rfl (clock_fold (clock_settleMuster k) _ _)

theorem clock_settleInval (s : State) : ticksOf (settleInval s) = ticksOf s := by
  unfold settleInval
  split
  · rfl
  · exact clock_ite rfl rfl

theorem clock_settleExtents (s : State) : ticksOf (settleExtents s) = ticksOf s := by
  unfold settleExtents
  refine clock_fold (fun _ _ => ?_) _ _
  rfl

theorem clock_endOfCycle (s : State) : ticksOf (endOfCycle s) = ticksOf s := by
  unfold endOfCycle
  extract_lets s1 s2 s3
  have h1 : ticksOf s1 = ticksOf s := by
    refine clock_fold (fun s t => ?_) _ _
    exact clock_settleMusters s _
  have h2 : ticksOf s2 = ticksOf s1 := (clock_settleExtents _).trans (clock_settleInval _)
  have h3 : ticksOf s3 = ticksOf s2 := by
    refine clock_fold (fun s g => ?_) _ _
    split
    · exact clock_postKey _ _ _ _
    · rfl
  clear_value s3
  exact (clock_ite rfl rfl : ticksOf (ckStep2 s3) = ticksOf s3).trans (h3.trans (h2.trans h1))

theorem clock_chooseFrom {α : Type} (s : State) (l : List α) : ticksOf (chooseFrom s l).1 = ticksOf s := (traffic_chooseFrom s l).reports.clock

theorem clock_stallCode (s : State) (g : Group) : ticksOf (stallCode s g).1 = ticksOf s := by
  unfold stallCode
  extract_lets heads
  split
  · rfl
  · exact (clock_chooseFrom _ _).trans (clock_chooseFrom _ _)

theorem clock_groupCycle (s : State) (g : Group) : ticksOf (groupCycle s g) = ticksOf s := by
  unfold groupCycle
  extract_lets c ready
  refine clock_ite rfl ?_
  show ticksOf (modGroup (if g.shaping then chooseBool (stallCode s g).1 else ((stallCode s g).1, false)).1 g.who _) = _
  refine Eq.trans ?_ (clock_stallCode s g)
  split <;> rfl

end Sys2Proof.Machine
end

