-- ==== Sys2Proof/Proofs/BetweenInstructions.lean ====
section
/-!
What happens to groups between their instructions (R26, R35, R37, R41, R51, R60, R331, R409).
-/

namespace Sys2Proof.Machine

/-! ## Groups of other names stay put while a core makes room (R37) -/

theorem foldl_pick_mem {l : List Group} (c : Group → Group → Prop) [∀ x y, Decidable (c x y)] : ∀ (b : Option Group) (x : Group),
    l.foldl (fun b g => match b with | some x => if c g x then some g else b | none => some g) b = some x → b = some x ∨ x ∈ l := by
  induction l with
  | nil => exact fun b x h => .inl h
  | cons y l ih =>
    intro b x h
    rw [List.foldl_cons] at h
    rcases ih _ _ h with h1 | h1
    · cases b with
      | none => exact .inr (by simp at h1; simp [h1])
      | some z =>
        simp only at h1
        split at h1
        · exact .inr (by simp at h1; simp [h1])
        · exact .inl h1
    · exact .inr (List.mem_cons_of_mem _ h1)

theorem parkVictim_ne {s : State} {tile : Nat} {me w : Who} (h : parkVictim s tile me = some w) : w ≠ me := by
  unfold parkVictim at h
  extract_lets c pick at h
  have hc : ∀ x ∈ c, x.who ≠ me := fun x hx => by
    simp only [c, List.mem_filter, Bool.and_eq_true, Bool.not_eq_true', decide_eq_false_iff_not] at hx
    exact hx.2.1.2
  have hpick : ∀ l : List Group, (∀ x ∈ l, x.who ≠ me) → ∀ v, pick l = some v → v ≠ me := fun l hl v hv => by
    simp only [pick] at hv
    obtain ⟨x, hx, rfl⟩ := Option.map_eq_some_iff.mp hv
    rcases foldl_pick_mem (fun g x => g.lastIssue < x.lastIssue) none x hx with h0 | h0
    · cases h0
    · exact hl x h0
  split at h
  next v hv => exact Option.some.inj h ▸ hpick _ (fun x hx => hc x (List.mem_filter.mp hx).1) v hv
  next hv => exact hpick _ hc w h

/-- The group for which a core makes room stays as it is. -/
theorem findGroup_makeRoom (tile : Nat) (me : Who) : ∀ (n : Nat) (s : State), findGroup (makeRoom tile me n s) me = findGroup s me
  | 0, _ => rfl
  | n + 1, s => by
    unfold makeRoom
    split
    · rfl
    · split
      · rfl
      next w hw => exact (findGroup_makeRoom tile me n _).trans (findGroup_modGroup_other _ (parkVictim_ne hw) _ fun _ => rfl)

theorem makeRoom_groups (tile : Nat) (me : Who) : ∀ (n : Nat) (s : State), ∃ gs, gs.length = s.groups.length ∧ makeRoom tile me n s = { s with groups := gs }
  | 0, s => ⟨s.groups, rfl, rfl⟩
  | n + 1, s => by
    unfold makeRoom
    split
    · exact ⟨s.groups, rfl, rfl⟩
    · split
      · exact ⟨s.groups, rfl, rfl⟩
      next w _ =>
        obtain ⟨gs, hl, he⟩ := makeRoom_groups tile me n (modGroup s w fun g => { g with away := true })
        exact ⟨gs, hl.trans (List.length_map _), he⟩

theorem findGroup_modGroup_of {s : State} {w : Who} {g : Group} (hx : findGroup s w = some g) {f : Group → Group} (hf : ∀ g, (f g).who = g.who) :
    findGroup (modGroup s w f) w = some (f g) := by rw [findGroup_modGroup_same _ _ _ hf, hx]; rfl

theorem findGroup_modGroup_keeps {s : State} {v w : Who} {g : Group} (hx : findGroup s w = some g) (hv : v ≠ w) {f : Group → Group}
    (hf : ∀ g, (f g).who = g.who) : findGroup (modGroup s v f) w = some g := (findGroup_modGroup_other _ hv _ hf).trans hx

/-! ## Spills, and the return from the park area (R35, R37) -/

section spills

variable {s : State} {team n l : Nat} {x : Group} (hx : findGroup s (.group team n) = some x)

include hx

theorem spillToBudget_values :
    Goes (.spillToBudget team n) s fun t => ∃ x', findGroup t (.group team n) = some x' ∧ ∀ r k, k < 32 → x'.val r k = x.val r k :=
  ⟨_, rfl, fitBudget s [] x, findGroup_modGroup_of hx fun g => (same_fitBudget s [] g).who,
    fun r k _ => by unfold Group.val; rw [shape_fitBudget]⟩

theorem exec_parkAreaReturn : exec (.parkAreaReturn team n) s = .next (if mayReturn s x then broughtBack s x else s) := by
  show execParkAreaReturn team n s = _
  unfold execParkAreaReturn
  rw [hx]

theorem broughtBack_found : ∃ x', findGroup (broughtBack s x) (.group team n) = some x' ∧ x'.away = false := by
  have hw := findGroup_who _ _ _ hx
  unfold broughtBack
  rw [hw, findGroup_makeRoom]
  exact ⟨{ x with away := false }, findGroup_modGroup_of hx fun _ => rfl, rfl⟩

end spills

/-! ## Reconvergence (R26 to R28) -/

/-- The lanes that wait at the point of lane l have left it as one path. -/
def leftPoint (x : Group) (l : Nat) : Group :=
  x.modLanes (waitingAt x (x.lane l).handler (x.lane l).pc) fun _ z => { z with st := .running, at_ := .none, pc := z.pc + 4, tag := 0 }

theorem exec_reconvRelease {s : State} {team n l : Nat} {x : Group} (hx : findGroup s (.group team n) = some x) :
    exec (.reconvRelease team n l) s = .next (if pointOpen x l then setGroup s (leftPoint x l) else s) := by
  show execReconvRelease team n l s = _
  unfold execReconvRelease
  rw [hx]
  simp only
  split <;> rfl

theorem hasLane_waitingAt (x : Group) (h : Bool) (p : W64) {k : Nat} (hk : k < 32) :
    hasLane (waitingAt x h p) k = true ↔
      (x.lane k).st = .waiting ∧ ((x.lane k).at_ = .hard ∨ (x.lane k).at_ = .soft) ∧ (x.lane k).handler = h ∧ (x.lane k).pc = p := by
  unfold waitingAt Group.lanesWhere
  rw [hasLane_laneSet _ k hk]
  simp [atPoint, and_assoc]

theorem reconvRelease_lanes {s : State} {team n l : Nat} {x : Group} (hx : findGroup s (.group team n) = some x) (ho : pointOpen x l = true) :
    Goes (.reconvRelease team n l) s fun t => ∃ x', findGroup t (.group team n) = some x' ∧ ∀ k, k < 32 → x'.lane k =
      if (x.lane k).st = .waiting ∧ ((x.lane k).at_ = .hard ∨ (x.lane k).at_ = .soft) ∧ (x.lane k).handler = (x.lane l).handler ∧ (x.lane k).pc = (x.lane l).pc
      then { x.lane k with st := .running, at_ := .none, pc := (x.lane k).pc + 4, tag := 0 } else x.lane k := by
  have hx' := findGroup_who _ _ _ hx
  have hw : (leftPoint x l).who = .group team n := hx'
  refine ⟨_, (exec_reconvRelease hx).trans (by rw [ho, if_pos rfl]), leftPoint x l, ?_, fun k hk => ?_⟩
  · rw [← hw]
    exact findGroup_setGroup s (leftPoint x l) x (by rw [hw]; exact hx)
  · unfold leftPoint
    rw [lane_modLanes _ _ _ hk]
    simp only [hasLane_waitingAt x _ _ hk]

/-! ## Pending instructions (R41, R181) -/

theorem longLatencyComplete_found {s : State} {w : Who} {x : Group} (l : Nat) (hx : findGroup s w = some x) :
    Goes (.longLatencyComplete w l) s fun t => findGroup t w = some (if (teamOf s x.team).status == .resident then completeOne x l else x) := by
  have hwho : ∀ g : Group, (if (teamOf s g.team).status == .resident then completeOne g l else g).who = g.who := fun g => by
    split
    · unfold completeOne; split <;> rfl
    · rfl
  exact ⟨_, rfl, findGroup_modGroup_of hx hwho⟩

theorem mem_setNth_same {α : Type} (y : α) : ∀ (l : List α) (i : Nat), i < l.length → y ∈ setNth l i y
  | [], _, h => absurd h (Nat.not_lt_zero _)
  | _ :: _, 0, _ => List.mem_cons_self
  | _ :: l, i + 1, h => List.mem_cons_of_mem _ (mem_setNth_same y l i (by simpa using h))

theorem mem_setNth_other {α : Type} {y z : α} : ∀ {l : List α} {i j : Nat}, j ≠ i → l[j]? = some z → z ∈ setNth l i y
  | [], _, _, _, h => by simp at h
  | _ :: _, 0, 0, hn, _ => absurd rfl hn
  | _ :: _, 0, _ + 1, _, h => List.mem_cons_of_mem _ (List.mem_of_getElem? (by simpa using h))
  | x :: l, i + 1, 0, _, h => by simp at h; subst h; exact List.mem_cons_self
  | _ :: _, _ + 1, _ + 1, hn, h => List.mem_cons_of_mem _ (mem_setNth_other (fun e => hn (congrArg (· + 1) e)) (by simpa using h))

/-- What completes of a group: one instruction's flags, and its window where that is over. -/
theorem completeOne_pending {x : Group} {l : Nat} {p : Pending} (hp : x.pend[l]? = some p) :
    completeOne x l = { x with fpflags := x.fpflags ||| p.flags, pend := (completeOne x l).pend } ∧
    (∀ q ∈ (completeOne x l).pend, q.complete = true → ∃ k ∈ q.left, k ≠ 0) ∧
    ((∃ k ∈ p.left, k ≠ 0) → { p with complete := true, flags := 0, load := none } ∈ (completeOne x l).pend) ∧
    ∀ j q, j ≠ l → x.pend[j]? = some q → q.complete = false → q ∈ (completeOne x l).pend := by
  have hlen : l < x.pend.length := (List.getElem?_eq_some_iff.mp hp).1
  have hpend : (completeOne x l).pend =
      (setNth x.pend l { p with complete := true, flags := 0, load := none }).filter fun p => !p.complete || p.left.any (· != 0) := by
    unfold completeOne; rw [hp]
  refine ⟨by unfold completeOne; rw [hp], fun q hq hc => ?_, fun ⟨k, hk, hk0⟩ => ?_, fun j q hj hq hc => ?_⟩
  · rw [hpend] at hq
    simpa [hc] using (List.mem_filter.mp hq).2
  · rw [hpend]
    exact List.mem_filter.mpr ⟨mem_setNth_same _ _ _ hlen, by simpa using ⟨k, hk, hk0⟩⟩
  · rw [hpend]
    exact List.mem_filter.mpr ⟨mem_setNth_other hj hq, by simp [hc]⟩

/-! ## Groups drawn from bins (R51, R52) -/

theorem exec_reformDraw {s : State} {tile n : Nat} {b : Bin} (h : binAt s tile n = some b) :
    exec (.reformDraw tile n) s = .next (if drawFits s tile b && drawDue s tile b then drawBin s tile n b else s) := by
  show execReformDraw tile n s = _
  unfold execReformDraw
  rw [h]

theorem exec_binAgeExpiry {s : State} {tile n : Nat} {b : Bin} (h : binAt s tile n = some b) :
    exec (.binAgeExpiry tile n) s = .next (if drawFits s tile b && drawAged s tile b then drawBin s tile n b else s) := by
  show execBinAgeExpiry tile n s = _
  unfold execBinAgeExpiry
  rw [h]

/-- The bins of a core from one of which up to 32 lanes are drawn. -/
def drawnBins (l : List Bin) (n : Nat) (b : Bin) : List Bin :=
  if (b.lanes.drop 32).isEmpty then dropNth l n else setNth l n { b with lanes := b.lanes.drop 32 }

/-- A draw takes lanes from a bin and adds a group, for which the core makes room. -/
theorem drawBin_some {s : State} {tile n : Nat} {b : Bin} {idx : Nat} (hi : freeIdx s b.team b.role = some idx) :
    ∃ (u : State) (w : Who) (g : Group) (f : Nat), drawBin s tile n b = makeRoom tile w u.groups.length u ∧
      u = { addGroup (modCore s tile fun c => { c with bins := drawnBins c.bins n b }) g with free := f } := by
  unfold drawBin
  rw [hi]
  exact ⟨_, _, _, _, rfl, rfl⟩

/-- A draw that fits makes one group, and takes up to 32 lanes from its bin. -/
theorem drawBin_draws {s : State} {tile n : Nat} {b : Bin} (h : drawFits s tile b = true) :
    (drawBin s tile n b).groups.length = s.groups.length + 1 ∧ (coreOf (drawBin s tile n b) tile).bins = drawnBins (coreOf s tile).bins n b := by
  unfold drawFits at h
  simp only [Bool.and_eq_true] at h
  obtain ⟨idx, hi⟩ := Option.isSome_iff_exists.mp h.2
  obtain ⟨u, w, g, f, he, hu⟩ := drawBin_some (tile := tile) (n := n) hi
  obtain ⟨gs, hlen, hm⟩ := makeRoom_groups tile w u.groups.length u
  rw [he, hm, hu]
  refine ⟨hlen.trans (by rw [hu]; simp [addGroup, modCore]), ?_⟩
  show (mget ({} : Core) (mput {} s.cores tile _) tile).bins = _
  rw [mget_mput_same]

/-! ## Cycles (R15, R145) -/

theorem quadrantCycle_ticks (s : State) : Goes .quadrantCycle s fun t => t.cycle = s.cycle + 1 ∧
    ∃ d, d ≤ 1 ∧ t.timeFs = s.timeFs + 1000000000 / Nat.max 1 s.ctl.fclk.toNat + d := by
  have h : ticksOf (endOfCycle (s.groups.foldl groupCycle s)) = ticksOf s := (clock_endOfCycle _).trans (clock_fold clock_groupCycle _ _)
  generalize hu : endOfCycle (s.groups.foldl groupCycle s) = u at h
  have hc : u.cycle = s.cycle := congrArg (·.1) h
  have hf : u.timeFs = s.timeFs := congrArg (·.2.1) h
  have hk : u.ctl.fclk = s.ctl.fclk := congrArg (·.2.2) h
  refine ⟨{ (cycleFs u).1 with cycle := (cycleFs u).1.cycle + 1, timeFs := (cycleFs u).1.timeFs + (cycleFs u).2 }, ?_, ?_, if (chooseBool u).2 then 1 else 0, ?_, ?_⟩
  · show execQuadrantCycle s = _
    unfold execQuadrantCycle
    rw [hu]
  · show u.cycle + 1 = _
    rw [hc]
  · split <;> omega
  · show u.timeFs + (1000000000 / Nat.max 1 u.ctl.fclk.toNat + if (chooseBool u).2 then 1 else 0) = _
    rw [hf, hk, Nat.add_assoc]

/-! ## Errors that strike memory and scratchpads (R331, R409) -/

theorem Traffic.ring {s t : State} (h : Traffic s t) : errRingOk t = errRingOk s := by
  unfold errRingOk
  rw [h.ctl]

theorem ring_strikeVault (s : State) (pa : Nat) : errRingOk (strikeVault s pa) = errRingOk s := by
  unfold strikeVault
  extract_lets slot
  split
  next i _ =>
    extract_lets off
    split
    · split
      · unfold markImage
        exact (((traffic_physPut _ _ _ _).trans (traffic_physPut _ _ _ _)).trans (traffic_physPut _ _ _ _)).ring
      · rfl
    · rfl
  · rfl

theorem ring_strikeSaved (s : State) (pa : Nat) : errRingOk (strikeSaved s pa) = errRingOk s := by
  unfold strikeSaved
  generalize s.saved = l
  induction l generalizing s with
  | nil => rfl
  | cons x l ih =>
    rw [List.foldl_cons, ih]
    split
    · extract_lets c s1 env at_
      split
      · rfl
      · exact ((traffic_writeAt s1 env _ _ _).trans (traffic_writeAt _ env _ _ _)).ring
    · rfl

theorem routeAlias_far (s : State) {pa : Nat} (h : nearEnd ≤ pa) : routeAlias s pa = pa := by
  unfold routeAlias
  rw [if_neg (Nat.not_lt.mpr h)]

theorem poisonWord_mem (s : State) {pa : Nat} (h : nearEnd ≤ pa) : pa / 8 ∈ (poisonWord s pa).poison := by
  unfold poisonWord
  rw [routeAlias_far s h]
  extract_lets w
  split
  next hc => simpa using hc
  · exact List.mem_cons_self

/-- A number of four bytes covers no word: a poisoned word stays poisoned. -/
theorem poison_physPut {s : State} {w : Nat} (h : w ∈ s.poison) (pa v : Nat) : w ∈ (physPut s pa 4 v).poison := by
  show w ∈ s.poison.filter fun w => !coversWord (routeAlias s pa) (toBytes 4 v).length w
  refine List.mem_filter.mpr ⟨h, ?_⟩
  simp only [coversWord, size_toBytes, Bool.not_eq_true', Bool.and_eq_false_iff, decide_eq_false_iff_not]
  omega

theorem poison_countUncorrected {s : State} {w : Nat} (h : w ∈ s.poison) (u : Nat) : w ∈ (countUncorrected s u).poison := by
  unfold countUncorrected
  split
  · exact poison_physPut h _ _
  · exact h

theorem ring_countUncorrected (s : State) (u : Nat) : errRingOk (countUncorrected s u) = errRingOk s := by
  unfold countUncorrected
  split
  · exact (traffic_physPut _ _ _ _).ring
  · rfl

/-- Without an error ring the record is dropped. -/
theorem logError_dropped {s : State} (h : errRingOk s = false) (e : ErrRec) : ∃ c, logError s e = { s with ctl := c } := by
  unfold logError
  extract_lets n used last c1 b s1 c2 s2
  rw [if_pos (by rw [h]; rfl)]
  exact ⟨_, rfl⟩

theorem poison_logPoison {s : State} (h : errRingOk s = false) (u pa : Nat) : (logPoison s u pa).poison = s.poison := by
  unfold logPoison
  obtain ⟨c, hc⟩ := logError_dropped (s := { (chooseBool s).1 with free := (chooseBool s).1.free + 1 }) h
    { cls := 2, sev := if (chooseBool s).2 then 2 else 1, unit := u, detail := pa + (Config.freeWord (chooseBool s).1.free).toNat * 2 ^ 64 }
  exact (congrArg State.poison hc).trans rfl

theorem strikeMemory_poisons {s : State} {pa : Nat} (u : W64) (hlo : quarryBase ≤ pa) (hhi : pa < quarryEnd) (hring : errRingOk s = false) :
    pa / 8 ∈ (strikeMemory s pa u).poison := by
  unfold strikeMemory
  extract_lets un s1
  rw [if_neg (by simp [hlo, hhi])]
  have hr : errRingOk s1 = false := (ring_strikeSaved _ pa).trans ((ring_strikeVault s pa).trans hring)
  have hp : errRingOk (poisonWord s1 pa) = false := by
    rw [← hr]
    unfold poisonWord
    extract_lets w
    split <;> rfl
  rw [poison_logPoison ((ring_countUncorrected _ _).trans hp)]
  exact poison_countUncorrected (poisonWord_mem s1 (Nat.le_trans (by decide) hlo)) _

theorem raiseIrq_clusters (s : State) (k : Nat) : (raiseIrq s k).clusters = s.clusters := by
  unfold raiseIrq
  extract_lets v
  split <;> rfl

theorem physWrite_clusters (s : State) (pa : Nat) (bs : List Byte) : (physWrite s pa bs).clusters = s.clusters := rfl

theorem logError_clusters (s : State) (e : ErrRec) : (logError s e).clusters = s.clusters := by
  unfold logError
  extract_lets n used last c1 b s1 c2 s2
  have h1 : s1.clusters = s.clusters := physWrite_clusters s _ _
  clear_value s1
  have h2 : s2.clusters = s1.clusters := rfl
  clear_value s2
  split
  · rfl
  · split
    · rfl
    · split
      · rfl
      · split
        · exact (raiseIrq_clusters s2 4).trans (h2.trans h1)
        · exact h2.trans h1

theorem strikeScratch_poisons {s : State} {team l c o m : Nat} (hl : l < padSize (teamOf s team)) (hp : padSpot (teamOf s team) l 1 = .pad c o m) :
    o / 8 ∈ (clusterOf (strikeScratch s team l) c).sramBad := by
  unfold strikeScratch
  extract_lets t
  rw [if_pos hl, hp]
  show o / 8 ∈ (clusterOf (logPoison (modCluster s c fun k => if k.sramBad.contains (o / 8) then k else { k with sramBad := o / 8 :: k.sramBad })
    (sramUnit c o) 0) c).sramBad
  generalize hs1 : (modCluster s c fun k => if k.sramBad.contains (o / 8) then k else { k with sramBad := o / 8 :: k.sramBad }) = s1
  have hlog : (logPoison s1 (sramUnit c o) 0).clusters = s1.clusters := by
    unfold logPoison
    exact logError_clusters _ _
  have hc : clusterOf (logPoison s1 (sramUnit c o) 0) c = clusterOf s1 c := by unfold clusterOf; rw [hlog]
  rw [hc, ← hs1, clusterOf_modCluster, if_pos rfl]
  split
  next hcon => simpa using hcon
  · exact List.mem_cons_self

/-! ## Errors that strike groups (R60) -/

/-- The active lanes of a path consume an error of an array. -/
def struck (u : W64) (m : W32) : List Hit := (lanesOf m).map fun l => { lane := l, cause := 0x15, unit := some u.toNat }

section strike

variable {s : State} {g : Group} {u : W64} {m : W32}

theorem raise_spared (hr : restartUnit u.toNat = false ∨ g.region = none) (hf : findGroup s g.who = some g) :
    raise s g.who 0 (struck u m) = parkAll s g.who 0 (struck u m) := by
  unfold raise
  rcases hr with hr | hr
  · have hnone : firstWhere (fun (h : Hit) => h.cause == 0x15 && h.unit.any restartUnit) (struck u m) = none := firstWhere_none _ _ fun h hh => by
      obtain ⟨l, -, rfl⟩ := List.mem_map.mp hh
      simp [hr]
    rw [hnone]
  · have hnone : ((findGroup s g.who).bind fun g => g.region.map fun r => (g, r)) = none := by rw [hf]; simp [hr]
    rw [hnone]
    split
    next h1 h2 => cases h2
    · rfl

theorem struck_first (hm : m ≠ 0) (hu : restartUnit u.toNat = true) :
    ∃ h : Hit, h.unit = some u.toNat ∧ firstWhere (fun (h : Hit) => h.cause == 0x15 && h.unit.any restartUnit) (struck u m) = some h := by
  obtain ⟨l, ls, hl⟩ := List.exists_cons_of_ne_nil (mt lanesOf_eq_nil.mp hm)
  refine ⟨{ lane := l, cause := 0x15, unit := some u.toNat }, rfl, ?_⟩
  unfold struck
  rw [hl]
  simp [firstWhere, hu]

/-- In an open region the first error restarts it, and a later one is taken. -/
theorem raise_struck (hm : m ≠ 0) (hu : restartUnit u.toNat = true) (hf : findGroup s g.who = some g) {r : Region} (hr : g.region = some r) :
    raise s g.who 0 (struck u m) = if r.errs = 0 then regionError s g r u.toNat
      else parkAll (modGroup s g.who fun g => { g with region := some { r with errs := r.errs + 1 } }) g.who 0 (struck u m) := by
  obtain ⟨h, hh, hfirst⟩ := struck_first hm hu
  have hsome : ((findGroup s g.who).bind fun g => g.region.map fun r => (g, r)) = some (g, r) := by rw [hf]; simp [hr]
  unfold raise
  rw [hfirst, hsome]
  simp only [hh]
  rfl

/-- A restarted group stays one when its keystone state, or what a twin's meeting looks at, changes. -/
theorem Restarted.other {h : Group} {r : Region} (hr : Restarted g h r) (k : Option KeyCtx) (f : List (W64 × List W64)) (x : List (W32 × W64)) :
    Restarted g { h with key := k, fwd := f, script := x } r := ⟨hr.region, hr.subs, hr.pend, hr.flags, hr.regs, hr.masks, hr.lanes⟩

theorem findGroup_map {t : State} {f : Group → Group} (hg : t.groups = s.groups.map f) (hf : ∀ g, (f g).who = g.who) (w : Who) :
    findGroup t w = (findGroup s w).map f := by
  unfold findGroup
  rw [hg]
  generalize s.groups = l
  induction l with
  | nil => rfl
  | cons x l ih =>
    by_cases hx : x.who = w
    · simp [firstWhere, hx, hf]
    · simpa [firstWhere, hx, hf] using ih

/-- The sweep of a wait table leaves a restarted group one. -/
theorem sweepWaits_restarted {h : Group} {r : Region} {w : Who} (hf : findGroup s w = some h) (hr : Restarted g h r) (tile : Nat) :
    ∃ h', findGroup (sweepWaits s tile) w = some h' ∧ Restarted g h' r := by
  unfold sweepWaits
  split
  · exact ⟨h, hf, hr⟩
  · obtain ⟨f, hw, hkey, hgs⟩ := releaseWaits_groups s tile fun e => !entryUsed s tile e
    refine ⟨f h, by rw [findGroup_map hgs hw, hf]; rfl, ?_⟩
    rw [hkey h hr.subs]
    exact hr.other _ h.fwd h.script

/-- A restart after an error leaves the group restarted, whatever is given back to a twin. -/
theorem restartOne_restarted (hf : findGroup s g.who = some g) (r : Region) :
    ∃ h, findGroup (restartOne s g r) g.who = some h ∧ Restarted g h { r with gate := [], sig := 0, used := [], sent := 0 } := by
  have hr := restarted g { r with used := [], sent := 0 }
  have hset : ∀ h : Group, h.who = g.who → findGroup (setGroup s h) g.who = some h := fun h hw => hw ▸ findGroup_setGroup s h g (hw.symm ▸ hf)
  unfold restartOne
  extract_lets t h
  split
  · exact ⟨h, hset h rfl, hr⟩
  · split
    · exact ⟨{ h with fwd := r.used ++ g.fwd }, hset _ rfl, hr.other h.key _ h.script⟩
    · split
      next x _ =>
        by_cases hx : x.who = g.who
        · rw [hx]
          exact ⟨_, findGroup_modGroup_of (hset h rfl) fun _ => rfl, hr.other h.key _ _⟩
        · exact ⟨h, findGroup_modGroup_keeps (hset h rfl) hx fun _ => rfl, hr⟩
      · exact ⟨h, hset h rfl, hr⟩

theorem regionError_restarted (hf : findGroup s g.who = some g) (r : Region) (n : Nat) :
    ∃ h, findGroup (regionError s g r n) g.who = some h ∧ Restarted g h { r with gate := [], errs := 1, sig := 0, used := [], sent := 0 } := by
  obtain ⟨h, hh, hr⟩ := restartOne_restarted hf { r with errs := 1 }
  obtain ⟨h', hh', hr'⟩ := sweepWaits_restarted hh hr (groupTile s g)
  unfold regionError
  extract_lets t s1
  exact ⟨h', (findGroup_congr (kept_logError _ _).groups _).trans hh', hr'⟩

theorem strikeGroup_eq {team n : Nat} {m : W32} (hf : findGroup s (if n = 256 then .key team else .group team n) = some g) (hi : mayIssue s g = true)
    (hm : pathOf g (lowestLane m) &&& g.mask 0 ≠ 0) : strikeGroup s team n m u =
      if unitOk u.toNat then raise s g.who 0 (struck u (pathOf g (lowestLane m) &&& g.mask 0)) else s := by
  unfold strikeGroup
  rw [hf]
  simp only [hi, decide_eq_false hm, Bool.not_true, Bool.or_false, Bool.false_or]
  cases unitOk u.toNat <;> rfl

end strike

/-- Settles O45: each event's effect on the groups, from what the operations that it is made of leave as it was. -/
theorem groupsChangeBetweenInstructions : Obligations.GroupsChangeBetweenInstructions := by
  unfold Obligations.GroupsChangeBetweenInstructions
  refine fun s team n l => ⟨fun x hx => ⟨spillToBudget_values hx, fun ha => ?_, fun s1 haway hst hs1 => ?_, fun ho => ?_, fun ho => reconvRelease_lanes hx ho⟩,
    fun w x hx hp => ?_, fun w x hx hst => ?_, fun w x p hx hp hst => ?_, fun b hb i hi => ?_, quadrantCycle_ticks s,
    fun pa u hlo hhi hring => ⟨_, rfl, strikeMemory_poisons u hlo hhi hring⟩, fun c o m hl hp => ⟨_, rfl, strikeScratch_poisons hl hp⟩,
    fun m u g hs hf hi hm hhs => ?_⟩
  · have hno : mayReturn s x = false := by
      unfold mayReturn
      rcases ha with ha | ha <;> simp [ha]
    rw [exec_parkAreaReturn hx, hno]
    rfl
  · have hs1' : s1 = broughtBack s x := hs1
    rw [hs1', exec_parkAreaReturn hx]
    refine ⟨?_, broughtBack_found hx⟩
    unfold mayReturn
    simp [haway, hst]
  · rw [exec_reconvRelease hx, ho]
    rfl
  · obtain ⟨t, he, ht⟩ := longLatencyComplete_found l hx
    refine ⟨t, he, ht.trans ?_⟩
    unfold completeOne
    rw [hp]
    simp
  · obtain ⟨t, he, ht⟩ := longLatencyComplete_found l hx
    exact ⟨t, he, ht.trans (by simp [hst])⟩
  · obtain ⟨t, he, ht⟩ := longLatencyComplete_found l hx
    exact ⟨t, he, completeOne x l, ht.trans (by simp [hst]), completeOne_pending hp⟩
  · simp only [List.mem_cons, List.not_mem_nil, or_false] at hi
    rcases hi with rfl | rfl
    · dsimp only
      split
      next h => exact ⟨_, (exec_reformDraw hb).trans (by rw [if_pos h]), drawBin_draws (Bool.and_eq_true _ _ ▸ h).1⟩
      next h => rw [exec_reformDraw hb, if_neg h]
    · dsimp only
      split
      next h => exact ⟨_, (exec_binAgeExpiry hb).trans (by rw [if_pos h]), drawBin_draws (Bool.and_eq_true _ _ ▸ h).1⟩
      next h => rw [exec_binAgeExpiry hb, if_neg h]
  · have hw := findGroup_who _ _ _ hf
    have hg : findGroup s g.who = some g := by rw [hw]; exact hf
    have he : exec (.uncorrectedError (.group team n m u)) s = .next (strikeGroup s team n m u) := rfl
    rw [strikeGroup_eq hf hi hm] at he
    subst hhs
    refine ⟨fun hu => ?_, fun hu hr => ?_, fun r hu hru hr => ?_⟩
    · rw [he, hu]; rfl
    · rw [he, hu]
      exact congrArg _ (raise_spared hr hg)
    · rw [hu, if_pos rfl, raise_struck hm hru hg hr] at he
      split
      next h0 => rw [he, if_neg h0]; rfl
      next h0 =>
        rw [if_pos (not_not.mp h0)] at he
        exact ⟨_, he, regionError_restarted hg r _⟩

end Sys2Proof.Machine
end

