-- ==== Sys2Proof/Proofs/FaultRing.lean ====
section
/-!
A record that enters an empty fault ring, and the interrupt that it raises (R319, R341).
-/

namespace Sys2Proof.Machine

/-! ## The interrupt of a fault record (R319, R341) -/

/-- Interrupt source 1 writes the number 1 at address 256: EN is 1 and MASK is 0. -/
def faultMessage : BitVec 128 := 2 ^ 96 + 2 ^ 64 + 256

/-- A machine with an empty fault ring of 64 entries at 4096, a fault record to be written, and that interrupt. -/
def faultState : State := { faultQ := [{ cause := 0x10 }], ctl := { fltb := 4096, fltc := 6, irqv := [(1, faultMessage)] } }

/-- The first record of the ring raises the interrupt, whose message stands in memory. -/
theorem faultRecordWrite_message :
    ∃ t, exec .faultRecordWrite faultState = .next t ∧ mget 0 t.mem 256 = 1 := ⟨_, rfl, by decide +kernel⟩

/-- The record's own bytes, whatever they are, lie from 4096 up. -/
theorem mem_faultRecord (bs : List Byte) :
    mget 0 (physWrite faultState (faultState.ctl.fltb.toNat + 64 * (faultState.ctl.fltt.toNat % 2 ^ (faultState.ctl.fltc.toNat % 32))) bs).mem 256 = 0 :=
  (mget_memPut 256 bs [] 4096).trans (if_neg (by omega))

/-- Refutes O52: the claim about the fault ring has memory change by the record's 64 bytes alone. A record that enters an empty ring also raises interrupt
source 1, and an enabled source writes its message: here the byte at 256 becomes 1. -/
theorem not_memoryEventsKeepTheirTables : ¬ Obligations.MemoryEventsKeepTheirTables := by
  unfold Obligations.MemoryEventsKeepTheirTables
  intro h
  obtain ⟨-, -, -, -, -, -, -, -, hfault, -⟩ := h faultState _ _ rfl rfl
  obtain ⟨t, ht, -, -, bs, hmem, -⟩ := hfault { cause := 0x10 } [] rfl (by decide)
  obtain ⟨u, hu, hbyte⟩ := faultRecordWrite_message
  obtain rfl : t = u := Host.Outcome.next.inj (ht.symm.trans hu)
  rw [hmem, mem_faultRecord] at hbyte
  exact absurd hbyte (by decide)

end Sys2Proof.Machine
end

