-- ==== Sys2Proof/Proofs/RestoredLoads.lean ====
section
/-!
A restored image whose pending load meets a cause, and the launch that ends with it (R101, R328, R340).
-/

namespace Sys2Proof.Machine

/-! ## Numbers as bytes -/

/-- A number below the bound of its bytes is read back from them. -/
theorem ofBytes_toBytes_of_lt : ∀ {n v : Nat}, v < 256 ^ n → ofBytes (toBytes n v) = v
  | 0, v, h => by simp at h; simp [h, toBytes, ofBytes]
  | n + 1, v, h => by
    have hrest : v / 256 < 256 ^ n := Nat.div_lt_of_lt_mul (by rwa [Nat.pow_succ, Nat.mul_comm] at h)
    rw [toBytes, ofBytes, ofBytes_toBytes_of_lt hrest, BitVec.toNat_ofNat]
    omega

/-! ## An image whose pending load cannot be performed (R101, R328, R340) -/

/-- The bytes of an image that R328 accepts for a vector core, before their CRC. -/
def soundHead : List Byte := toBytes 4 0x4958584B ++ toBytes 4 0xA000 ++ toBytes 8 (Config.mapHash 0).toNat ++ toBytes 8 72 ++ zeros 40

/-- A load of four bytes that a freeze found pending, whose translation an INVAL has marked stale. -/
def staleLoad : LateLoad :=
  { reads := [{ lanes := [0], addr := 0x4000, spots := [.mem 0x4000 4 { pa := 0x5000, leaf := 0xDF, leafAt := 0x2000, level := 0 } 0x5000], above := [],
                stale := true }]
    d := 8, words := 1, uni := true, bytes := 4, signed := false, acq := false, at_ := 0 }

/-- A group of one running lane with that load. -/
def loadingGroup : Group :=
  { team := 1, idx := 0, core := 0, quad := 0, role := 0, nregs := 16, budget := 64, lanes := [{}]
    pend := [{ regs := [8], masks := [], left := [], mem := true, load := some staleLoad }] }

/-- The complete image of a tile with that group. -/
def loadingImage : Image := { tile := 0, cause := 0x50, groups := [loadingGroup], core := {}, complete := true, ctxs := [(1, 0)] }

/-- A package with that image in slot 0, whose page table is empty. -/
def loadingState : State :=
  { vault := [(0, some loadingImage)]
    teams := [{ key := 1, ctx := 0, launch := 1 }]
    launches := [{ ctx := 0, queue := 0, id := 1, next := 1, total := 1 }]
    contexts := [(0, { state := 1, root := 0x1000 })]
    mem := (span (slotAt 0) 72).zip (soundHead ++ toBytes 8 (crc64 0 soundHead).toNat) }

/-- The last eight bytes of the image are the CRC over the others. -/
theorem physNum_crc : physNum loadingState (slotAt 0 + 64) 8 = (crc64 0 soundHead).toNat :=
  (congrArg ofBytes (show physRead loadingState (slotAt 0 + 64) 8 = toBytes 8 (crc64 0 soundHead).toNat from rfl)).trans
    (ofBytes_toBytes_of_lt (crc64 0 soundHead).isLt)

/-- The scan map is the one that a vector core has. -/
theorem physNum_map : physNum loadingState (slotAt 0 + 8) 8 = (Config.mapHash 0).toNat :=
  (congrArg ofBytes (show physRead loadingState (slotAt 0 + 8) 8 = toBytes 8 (Config.mapHash 0).toNat from rfl)).trans
    (ofBytes_toBytes_of_lt (Config.mapHash 0).isLt)

/-- Slot 0 passes the checks of R328. -/
theorem slotCheck_loadingState : slotCheck loadingState 0 0 = 0 := by
  have hstep : physNum loadingState (slotAt 0 + 5) 1 = 0xA0 := rfl
  have hlen : physNum loadingState (slotAt 0 + 0x10) 8 = 72 := rfl
  have hhead : physRead loadingState (slotAt 0) (72 - 8) = soundHead := rfl
  have hkind : tileKind 0 = 0 := rfl
  have hfits : ¬ Config.vaultSlot < 72 := by decide
  unfold slotCheck
  simp [hstep, hlen, hhead, hkind, physNum_map, physNum_crc, hfits]

/-- The dispatcher may restore the image onto tile 0. -/
theorem mayRestore_loadingState : mayRestore loadingState 0 0 loadingImage = true := by
  unfold mayRestore
  rw [slotCheck_loadingState]
  decide +kernel

/-- The pending load meets cause 0x10, the launch ends, and the group that came back with it. -/
theorem imageRestore_loadingState :
    ∃ t, exec (.imageRestore 0 0) loadingState = .next t ∧ t.groups.map Group.who = [] := by
  refine ⟨restoreSlot loadingState 0 0 loadingImage, ?_, by decide +kernel⟩
  exact congrArg Host.Outcome.next (if_pos mayRestore_loadingState)

/-- Refutes O44: the claim has every group of a restored image stand on its tile afterwards. A load that the freeze found pending is performed again, and
where its translation is stale and its page is gone, its cause ends the launch, and the group with it. -/
theorem not_freezesSavesAndImagesKeepGroups : ¬ Obligations.FreezesSavesAndImagesKeepGroups := by
  unfold Obligations.FreezesSavesAndImagesKeepGroups
  intro h
  obtain ⟨-, -, -, hrestore, -⟩ := h loadingState 0 0
  obtain ⟨t, ht, -, hgroups⟩ := hrestore 0 0 loadingImage rfl mayRestore_loadingState rfl rfl (by decide)
  obtain ⟨u, hu, hnone⟩ := imageRestore_loadingState
  obtain rfl : t = u := Host.Outcome.next.inj (ht.symm.trans hu)
  rw [hnone] at hgroups
  exact absurd hgroups (by decide)

end Sys2Proof.Machine
end

