-- ==== Sys2Proof/Proofs/Views.lean ====
section
/-!
What views hold, and what orders the accesses of an agent after it acquires or fences (R91, R94, R96, R97).
-/

namespace Sys2Proof.Machine

/-! ## Marks and views -/

/-- A list of marks with one raised covers what it covered, and the new mark. -/
theorem any_putMark {α : Type} [DecidableEq α] (l : List (α × Nat)) (x : α × Nat) (a : α) (no : Nat) :
    ((putMark l x).any fun y => y.1 == a && decide (no < y.2)) = ((l.any fun y => y.1 == a && decide (no < y.2)) || (x.1 == a && decide (no < x.2))) := by
  rw [Bool.eq_iff_iff]
  simp only [List.any_eq_true, Bool.or_eq_true, Bool.and_eq_true, beq_iff_eq, decide_eq_true_eq]
  unfold putMark
  split
  case isFalse => simp [exists_or, or_and_right]
  case isTrue hany =>
    obtain ⟨z, hz, hzx⟩ := List.any_eq_true.mp hany
    rw [beq_iff_eq] at hzx
    simp only [mapWhere, List.mem_map]
    constructor
    · rintro ⟨_, ⟨y, hy, rfl⟩, hya, hno⟩
      by_cases h : y.1 = x.1
      · simp only [h, beq_self_eq_true, if_true] at hya hno
        rcases lt_max_iff.mp hno with hlt | hlt
        · exact .inl ⟨y, hy, h.trans hya, hlt⟩
        · exact .inr ⟨hya, hlt⟩
      · rw [if_neg (by simpa using h)] at hya hno
        exact .inl ⟨y, hy, hya, hno⟩
    · rintro (⟨y, hy, hya, hno⟩ | ⟨hxa, hno⟩)
      · refine ⟨_, ⟨y, hy, rfl⟩, ?_⟩
        split
        · exact ⟨hya, lt_max_iff.mpr (.inl hno)⟩
        · exact ⟨hya, hno⟩
      · refine ⟨_, ⟨z, hz, rfl⟩, ?_⟩
        rw [if_pos (by simpa using hzx)]
        exact ⟨hzx.trans hxa, lt_max_iff.mpr (.inr hno)⟩

theorem any_foldl_putMark {α : Type} [DecidableEq α] (a : α) (no : Nat) : ∀ m l : List (α × Nat),
    ((m.foldl putMark l).any fun y => y.1 == a && decide (no < y.2))
      = ((l.any fun y => y.1 == a && decide (no < y.2)) || m.any fun y => y.1 == a && decide (no < y.2))
  | [], l => by simp
  | x :: m, l => by rw [List.foldl_cons, any_foldl_putMark a no m, any_putMark, List.any_cons, Bool.or_assoc]

/-- A view joined with another has the writes of either. -/
theorem View.has_join (v w : View) (a : Agent) (no : Nat) : (v.join w).has a no = (v.has a no || w.has a no) := by
  have hb : decide (no < Nat.max v.base w.base) = (decide (no < v.base) || decide (no < w.base)) := by
    rw [← Bool.decide_or]; exact decide_eq_decide.mpr lt_max_iff
  unfold View.has View.join
  simp only [any_foldl_putMark, hb]
  cases a.team <;> simp only [Bool.or_false] <;> ac_rfl

/-- A view raised for one agent. -/
theorem View.has_plus (v : View) (b : Agent) (n : Nat) (a : Agent) (no : Nat) : (v.plus b n).has a no = (v.has a no || (b == a && decide (no < n))) := by
  unfold View.has View.plus
  simp only [any_putMark]
  cases a.team <;> simp only [Bool.or_false] <;> ac_rfl

/-- Views joined one by one. -/
theorem View.has_foldl_join {α : Type} (f : α → View) (a : Agent) (no : Nat) : ∀ (l : List α) (v : View),
    (l.foldl (fun v x => v.join (f x)) v).has a no = (v.has a no || l.any fun x => (f x).has a no)
  | [], v => by simp
  | x :: l, v => by rw [List.foldl_cons, View.has_foldl_join f a no l, View.has_join, List.any_cons, Bool.or_assoc]

/-- A view restricted to a scope of the device or wider keeps the writes of the writers within it (R97). -/
theorem View.has_within (v : View) (mates : List Agent) (me : Agent) {k : Nat} {a : Agent} {no : Nat} (hk : 3 ≤ k) (ha : inScope mates me k a = true) :
    (v.within mates me k).has a no = v.has a no := by
  have hby : ((v.by_.filter fun x => inScope mates me k x.1).any fun x => x.1 == a && decide (no < x.2)) = v.by_.any fun x => x.1 == a && decide (no < x.2) := by
    rw [List.any_filter]
    congr 1
    funext x
    by_cases hx : x.1 = a
    · rw [hx, ha, Bool.true_and]
    · simp [hx]
  unfold View.has View.within
  simp only [if_pos hk, hby]

/-! ## The orders of agents -/

@[simp] theorem orderOf_setOrder_same (s : State) (a : Agent) (o : Order) : orderOf (setOrder s a o) a = o := by
  simp [orderOf, setOrder, firstWhere]

@[simp] theorem orderOf_setOrder_other (s : State) {a b : Agent} (h : b ≠ a) (o : Order) : orderOf (setOrder s a o) b = orderOf s b := by
  have hf : firstWhere (fun x : Agent × Order => x.1 == b) (s.orders.filter fun x => x.1 != a) = firstWhere (fun x : Agent × Order => x.1 == b) s.orders :=
    firstWhere_filter (fun x hx => by rw [beq_iff_eq] at hx; simpa [hx] using h) s.orders
  unfold orderOf setOrder
  simp only [firstWhere, beq_eq_false_iff_ne.mpr (Ne.symm h), Bool.false_eq_true, if_false, hf]
  rfl

end Sys2Proof.Machine
end

