-- ==== Sys2Proof/Proofs/Fences.lean ====
section
/-!
Ifence and fence (R91, R94, R96 to R98, R152, R219).
-/

namespace Sys2Proof.Machine

/-! ## Ifence -/

/-- What ifence does (R98, R152). -/
def ifenceRes (c : Ctx) : Res :=
  let tile := groupTile c.s c.g
  { s := modCore { c.s with l1i := mput [] c.s.l1i tile [] } tile fun k =>
      { k with iview := c.lanes.foldl (fun v l => v.join (orderOf c.s (agentOf c.g l)).view) k.iview } }

theorem exec_ifence (s : State) : exec .ifence s = issue .ifence s ifenceRes := rfl

theorem filled_ifence (c : Ctx) : Filled c .ifence := rfl

theorem modCore_congr (s : State) (tile : Nat) {f f' : Core → Core} (h : f (coreOf s tile) = f' (coreOf s tile)) : modCore s tile f = modCore s tile f' := by
  unfold modCore
  rw [h]

/-- The core fetches the words whose writes a view has, and its instruction cache is empty. -/
def refetched (s : State) (c : Ctx) (v : View) : State :=
  modCore { s with l1i := mput [] s.l1i (groupTile s c.g) [] } (groupTile s c.g) fun k => { k with iview := v }

/-- What the core may fetch after an ifence: what it might, and what the active lanes have acquired. -/
def fetchView (s : State) (c : Ctx) : View :=
  c.lanes.foldl (fun v l => v.join (orderOf s (agentOf c.g l)).view) (coreOf s (groupTile s c.g)).iview

theorem ifenceRes_eq (c : Ctx) : ifenceRes c = { s := refetched c.s c (fetchView c.s c) } :=
  congrArg (fun t => ({ s := t } : Res)) (modCore_congr _ _ rfl)

/-- Settles O14. -/
theorem ifenceRefreshesTheCore : Obligations.IfenceRefreshesTheCore := by
  intro s c h
  obtain ⟨-, hcs, -⟩ := issuer_find s c h.path
  have hr := Reached.filled h (filled_ifence c)
  have hb : ifenceRes (fillOps c .ifence) = { s := refetched s c (fetchView s c) } := by rw [filled_ifence c, ifenceRes_eq, hcs]
  refine ⟨fetchView s c, fun a no => ?_,
    (hr.goes (t' := refetched s c (fetchView s c)) (.of_eq rfl rfl rfl rfl) rfl rfl).run h steady_id (exec_ifence s) hb .nil List.nodup_nil (Nat.zero_le _)⟩
  simp only [fetchView, View.has_foldl_join, Bool.or_eq_true, List.any_eq_true, Ctx.lanes, mem_lanesOf]

/-! ## Fences -/

/-- What fence does (R219). -/
def fenceRes (i : BitVec 14) (c : Ctx) : Res :=
  if i.toNat / 16 % 2 == 1 && i.toNat % 8 = 5 && fabricOwed c then { s := c.s, wait := some (.memwait, 0) }
  else { s := (agentsOf c.g c.act).foldl (fenceAgent (matesOf c.g) (i.toNat % 8) (i.toNat / 8 % 2 == 1) (i.toNat / 16 % 2 == 1)) c.s }

theorem exec_fence (i : BitVec 14) (s : State) : exec (.fence i) s = issue (.fence i) s (fenceRes i) := rfl

theorem filled_fence (i : BitVec 14) (c : Ctx) : Filled c (.fence i) := rfl

section fenceAgent

variable (mates : List Agent) (k : Nat) (acq rel : Bool) (s : State) (me : Agent)

/-- What full fences of the same scope, with the same mates, have ordered before this one (R96). -/
def fencedBefore : View := if acq && rel then (s.fences.filter (sameInstance mates me k)).foldl (fun v r => v.join r.view) {} else {}

/-- An agent's order after the acquire of its fence. -/
def fenceAcquired : Order :=
  if acq then { orderOf s me with view := ((orderOf s me).view.join (fencedBefore mates k acq rel s me)).plus me s.writes }.acquireFence mates me k
  else orderOf s me

/-- An agent's order after its fence. -/
def fencedOrder : Order :=
  if rel then (fenceAcquired mates k acq rel s me).releaseFence me k s.writes else fenceAcquired mates k acq rel s me

theorem fenceAgent_fences : ∃ l, fenceAgent mates k acq rel s me = { setOrder s me (fencedOrder mates k acq rel s me) with fences := l } := by
  unfold fenceAgent
  extract_lets o before o1 o2 s1
  split
  · exact ⟨_, rfl⟩
  · exact ⟨s.fences, rfl⟩

theorem fenceAgent_order : orderOf (fenceAgent mates k acq rel s me) me = fencedOrder mates k acq rel s me := by
  obtain ⟨l, hl⟩ := fenceAgent_fences mates k acq rel s me
  rw [hl]
  exact orderOf_setOrder_same s me _

theorem fenceAgent_other {a : Agent} (h : a ≠ me) : orderOf (fenceAgent mates k acq rel s me) a = orderOf s a := by
  obtain ⟨l, hl⟩ := fenceAgent_fences mates k acq rel s me
  rw [hl]
  exact orderOf_setOrder_other s h _

/-- A fence keeps the groups, the teams, and what is saved. -/
theorem kept_fenceAgent : Kept s (fenceAgent mates k acq rel s me) := by
  obtain ⟨l, hl⟩ := fenceAgent_fences mates k acq rel s me
  rw [hl]
  exact ⟨rfl, rfl, rfl, rfl, rfl, rfl, rfl, rfl, rfl, id⟩

/-- An acquire fence keeps what the agent has acquired. -/
theorem has_acquireFence (o : Order) {a : Agent} {no : Nat} (h : o.view.has a no = true) : (o.acquireFence mates me k).view.has a no = true := by
  unfold Order.acquireFence
  simp only [View.has_foldl_join, h, Bool.true_or]

/-- After an acquire fence of the device's scope or a wider one, UN loads see what the writers within it wrote before (R97). -/
theorem un_acquireFence (o : Order) {a : Agent} {no : Nat} (hk : 3 ≤ k) (ha : inScope mates me k a = true) (h : o.view.has a no = true) :
    (o.acquireFence mates me k).un.has a no = true := by
  have hv := has_acquireFence mates k me o h
  unfold Order.acquireFence at hv ⊢
  simp only [View.has_join, View.has_within _ _ _ hk ha, Bool.or_eq_true]
  exact .inr hv

theorem fenceAcquired_view {a : Agent} {no : Nat} (h : (orderOf s me).view.has a no = true) : (fenceAcquired mates k acq rel s me).view.has a no = true := by
  unfold fenceAcquired
  split
  · refine has_acquireFence mates k me _ ?_
    simp only [View.has_plus, View.has_join, h, Bool.true_or]
  · exact h

theorem fenceAcquired_un {a : Agent} {no : Nat} (hacq : acq = true) (hk : 3 ≤ k) (ha : inScope mates me k a = true)
    (h : (orderOf s me).view.has a no = true) : (fenceAcquired mates k acq rel s me).un.has a no = true := by
  unfold fenceAcquired
  rw [if_pos hacq]
  refine un_acquireFence mates k me _ hk ha ?_
  simp only [View.has_plus, View.has_join, h, Bool.true_or]

theorem fencedOrder_view : (fencedOrder mates k acq rel s me).view = (fenceAcquired mates k acq rel s me).view := by
  unfold fencedOrder
  split <;> rfl

theorem fencedOrder_un : (fencedOrder mates k acq rel s me).un = (fenceAcquired mates k acq rel s me).un := by
  unfold fencedOrder
  split <;> rfl

/-- A release fence stands for the agent's own writes and all it has seen (R94). -/
theorem fencedOrder_rel (hrel : rel = true) : ∃ r ∈ (fencedOrder mates k acq rel s me).rel, r.scope = k ∧ r.agent = me ∧
    ∀ a no, (orderOf s me).view.has a no = true ∨ a = me ∧ no < s.writes → r.view.has a no = true := by
  unfold fencedOrder
  rw [if_pos hrel]
  refine ⟨_, List.mem_cons_self, rfl, rfl, fun a no h => ?_⟩
  simp only [View.has_plus, Bool.or_eq_true, Bool.and_eq_true, beq_iff_eq, decide_eq_true_eq]
  exact h.imp (fenceAcquired_view mates k acq rel s me) fun h => ⟨h.1.symm, h.2⟩

end fenceAgent

/-- Settles O26. -/
theorem fencesRefreshTheirScope : Obligations.FencesRefreshTheirScope := by
  intro s c i h
  obtain ⟨-, hcs, -⟩ := issuer_find s c h.path
  have hr := Reached.filled h (filled_fence i c)
  refine ⟨?_, fun k acq rel me a no => ⟨fun hacq hk ha hv => ?_, fun hv => ?_, fun hrel => ?_, fun hne => ?_⟩⟩
  · have hguard : (i.toNat / 16 % 2 == 1 && decide (i.toNat % 8 = 5) && fabricOwed c) = true ↔ i.toNat / 16 % 2 = 1 ∧ i.toNat % 8 = 5 ∧ fabricOwed c = true := by
      simp [and_assoc]
    split
    · rename_i howed
      rw [exec_fence]
      refine issue_waits h (r := { s := c.s, wait := some (.memwait, 0) }) ?_ rfl
      rw [filled_fence i c]
      exact if_pos (hguard.mpr howed)
    · rename_i howed
      refine (hr.kept (kept_fold _ (fun s a => kept_fenceAgent _ _ _ _ s a) _ s)).run h steady_id (exec_fence i s) (regs := []) ?_ .nil List.nodup_nil
        (Nat.zero_le _)
      rw [filled_fence i c, ← hcs]
      exact if_neg fun e => howed (hguard.mp e)
  · rw [fenceAgent_order, fencedOrder_un]
    exact fenceAcquired_un _ _ _ _ _ _ hacq hk ha hv
  · rw [fenceAgent_order, fencedOrder_view]
    exact fenceAcquired_view _ _ _ _ _ _ hv
  · obtain ⟨r, hr, hs, ha, hv⟩ := fencedOrder_rel (matesOf c.g) k acq rel s me hrel
    exact ⟨r, by rw [fenceAgent_order]; exact hr, hs, ha, hv a no⟩
  · exact fenceAgent_other _ _ _ _ _ _ hne

end Sys2Proof.Machine
end

