-- ==== Sys2Proof/Proofs/MusterSlots.lean ====
section
/-!
Muster slots: their bytes in the scratchpad, the updates of a cycle, and the end of a round (R86, R87, R222).
-/

namespace Sys2Proof.Machine

/-! ## A slot's bytes (R86) -/

theorem ofBytes_append : ∀ l m : List Byte, ofBytes (l ++ m) = ofBytes l + 256 ^ l.length * ofBytes m
  | [], m => by simp [ofBytes]
  | b :: l, m => by rw [List.cons_append, ofBytes, ofBytes_append l m, ofBytes, List.length_cons, Nat.pow_succ]; ring

/-- What a write of SRAM leaves is read back from it. -/
theorem sramRead_sramWrite (s : State) (c off : Nat) (bs : List Byte) : sramRead (sramWrite s c off bs) c off bs.length = bs := by
  have hc : clusterOf (sramWrite s c off bs) c = { clusterOf s c with
      sram := memPut (clusterOf s c).sram off bs, sramBad := (clusterOf s c).sramBad.filter fun w => !coversWord off bs.length w } :=
    (clusterOf_modCluster _ c _ c).trans (if_pos rfl)
  unfold sramRead
  rw [hc]
  refine map_span_eq fun k hk => ?_
  rw [mget_memPut, if_pos ⟨Nat.le_add_right _ k, Nat.add_lt_add_left hk _⟩, Nat.add_sub_cancel_left, nth_getElem?, List.getElem?_eq_getElem hk]
  rfl

/-- The bytes of a slot. -/
def Muster.bytes (m : Muster) : List Byte :=
  toBytes 2 m.owed ++ toBytes 2 m.quorum ++ toBytes 4 m.load.toNat ++ toBytes 4 m.round.toNat ++ toBytes 4 m.standing.toNat

theorem Muster.length_bytes (m : Muster) : m.bytes.length = 16 := by simp [Muster.bytes, size_toBytes]

theorem Muster.ofBytes_bytes (m : Muster) (ho : m.owed < 65536) (hq : m.quorum < 65536) : ofBytes m.bytes =
    m.owed + 2 ^ 16 * (m.quorum + 2 ^ 16 * (m.load.toNat + 2 ^ 32 * (m.round.toNat + 2 ^ 32 * m.standing.toNat))) := by
  have h2 : ∀ v, v < 65536 → ofBytes (toBytes 2 v) = v := fun v h => ofBytes_toBytes_of_lt (by omega)
  have h4 : ∀ v : W32, ofBytes (toBytes 4 v.toNat) = v.toNat := fun v => ofBytes_toBytes_of_lt v.isLt
  unfold Muster.bytes
  simp only [ofBytes_append, h2 _ ho, h2 _ hq, h4, List.length_append, size_toBytes]
  ring

/-- A slot just written reads as what was written. -/
theorem readMuster_writeMuster (s : State) (t : Team) (i : Nat) (m : Muster) (ho : m.owed < 65536) (hq : m.quorum < 65536) :
    readMuster (writeMuster s t i m) t i = m := by
  have hr : sramRead (writeMuster s t i m) t.cluster (musterOff t i) 16 = m.bytes := by
    rw [← m.length_bytes]; exact sramRead_sramWrite s t.cluster (musterOff t i) m.bytes
  have hl := m.load.isLt
  have hn := m.round.isLt
  have hs := m.standing.isLt
  obtain ⟨o, q, l, r, st⟩ := m
  unfold readMuster
  rw [hr, Muster.ofBytes_bytes _ ho hq]
  simp only [bits, Muster.mk.injEq]
  simp only at ho hq hl hn hs
  refine ⟨by omega, by omega, ?_, ?_, ?_⟩ <;> apply BitVec.eq_of_toNat_eq <;> rw [BitVec.toNat_ofNat] <;> omega

theorem readMuster_quorum (s : State) (t : Team) (i : Nat) : (readMuster s t i).quorum < 65536 := bits_lt _ _ _

/-! ## A round (R87) -/

theorem round_moves (r : W32) : r + 1 ≠ r := by
  simp

/-- Both counts are zero after the updates: the round ends. -/
theorem musterUpdate_ends {m : Muster} {joins : Nat} {owed landed : W32} (ho : (m.owed + 65536 - joins) % 65536 = 0) (hl : m.load - landed + owed = 0) :
    musterUpdate m joins owed landed = { m with round := m.round + 1, owed := m.quorum, load := m.standing } := by
  simp [musterUpdate, ho, hl]

/-- Some count is not zero: the round goes on. -/
theorem musterUpdate_goes {m : Muster} {joins : Nat} {owed landed : W32} (h : ¬((m.owed + 65536 - joins) % 65536 = 0 ∧ m.load - landed + owed = 0)) :
    musterUpdate m joins owed landed = { m with owed := (m.owed + 65536 - joins) % 65536, load := m.load - landed + owed } := by
  unfold musterUpdate
  dsimp only
  rw [if_neg (by simpa using h)]

/-- The team once slot n has started its next round: what the round gathered is released. -/
def advanced (n : Nat) (t : Team) : Team :=
  { t with musters := mput ({}, {}) t.musters n ({}, (mget ({}, {}) t.musters n).2.join (mget ({}, {}) t.musters n).1) }

section settle

variable {s : State} {k n : Nat} {t : Team} (hf : findTeam s k = some t) (joins : Nat) (owed landed : W32)

include hf

theorem teamOf_found : teamOf s k = t := by unfold teamOf; rw [hf]; rfl

theorem settleMuster_eq : settleMuster k s (n, some (joins, owed, landed)) =
    if (musterUpdate (readMuster s t n) joins owed landed).round = (readMuster s t n).round
    then writeMuster s t n (musterUpdate (readMuster s t n) joins owed landed)
    else modTeam (writeMuster s t n (musterUpdate (readMuster s t n) joins owed landed)) k (advanced n) := by
  unfold settleMuster
  rw [teamOf_found hf]
  rfl

/-- Where both counts come to zero, the slot starts its next round, and what the round gathered is released. -/
theorem settleMuster_ends (ho : ((readMuster s t n).owed + 65536 - joins) % 65536 = 0)
    (hl : (readMuster s t n).load - landed + owed = 0) :
    readMuster (settleMuster k s (n, some (joins, owed, landed))) t n = { readMuster s t n with
      round := (readMuster s t n).round + 1, owed := (readMuster s t n).quorum, load := (readMuster s t n).standing } ∧
    mget ({}, {}) (teamOf (settleMuster k s (n, some (joins, owed, landed))) k).musters n
      = ({}, (mget ({}, {}) t.musters n).2.join (mget ({}, {}) t.musters n).1) := by
  rw [settleMuster_eq hf, musterUpdate_ends ho hl, if_neg (round_moves _)]
  refine ⟨readMuster_writeMuster s t n _ (readMuster_quorum s t n) (readMuster_quorum s t n), ?_⟩
  unfold teamOf
  rw [findTeam_modTeam_same]
  · rw [show findTeam (writeMuster s t n _) k = some t from hf]
    exact mget_mput_same _ _ _ _
  · exact fun _ => rfl

/-- Elsewhere the slot keeps its round, and what the round gathered. -/
theorem settleMuster_goes (h : ¬(((readMuster s t n).owed + 65536 - joins) % 65536 = 0 ∧ (readMuster s t n).load - landed + owed = 0)) :
    readMuster (settleMuster k s (n, some (joins, owed, landed))) t n = { readMuster s t n with
      owed := ((readMuster s t n).owed + 65536 - joins) % 65536, load := (readMuster s t n).load - landed + owed } ∧
    teamOf (settleMuster k s (n, some (joins, owed, landed))) k = t := by
  rw [settleMuster_eq hf, musterUpdate_goes h, if_pos rfl]
  exact ⟨readMuster_writeMuster s t n _ (Nat.mod_lt _ (by decide)) (readMuster_quorum s t n), teamOf_found hf⟩

end settle

/-! ## The updates of a cycle (R87) -/

/-- What a change of a team leaves as it was, it leaves so in every team. -/
theorem teamOf_modTeam_field {α : Type} {f : Team → Team} {p : Team → α} {s : State} {k : Nat} (hf : ∀ t, t.key = k → (f t).key = k)
    (hp : ∀ t, findTeam s k = some t → p (f t) = p t) (j : Nat) : p (teamOf (modTeam s k f) j) = p (teamOf s j) := by
  unfold teamOf
  by_cases h : j = k
  · have hs : findTeam (modTeam s k f) k = (findTeam s k).map f := firstWhere_mapWhere_same _ _ (fun t ht => by simpa using hf t (by simpa using ht)) _
    rw [h, hs]
    cases hfound : findTeam s k with
    | none => rfl
    | some t => exact hp t hfound
  · have ho : findTeam (modTeam s k f) j = findTeam s j := firstWhere_mapWhere_other (fun t ht => by
      have hk : t.key = k := by simpa using ht
      simp [hf t hk, hk, Ne.symm h]) _
    rw [ho]

theorem settleMuster_due (k : Nat) (s : State) (x : Nat × Option (Nat × W32 × W32)) : (teamOf (settleMuster k s x) k).musDue = (teamOf s k).musDue := by
  unfold settleMuster
  split
  · rfl
  · extract_lets t m n s1
    split
    · rfl
    · exact teamOf_modTeam_field (f := advanced _) (p := Team.musDue) (fun _ h => h) (fun _ _ => rfl) k

theorem settleMusters_due {s : State} {k : Nat} : (teamOf (settleMusters s k) k).musDue = [] := by
  have hfold : ∀ (l : List (Nat × Option (Nat × W32 × W32))) (s : State), (teamOf (l.foldl (settleMuster k) s) k).musDue = (teamOf s k).musDue := fun l => by
    induction l with
    | nil => exact fun _ => rfl
    | cons x l ih => exact fun s => (ih _).trans (settleMuster_due k s x)
  unfold settleMusters
  dsimp only
  split
  · exact List.isEmpty_iff.mp ‹_›
  · rw [hfold]
    unfold teamOf
    rw [findTeam_modTeam_same _ _ (f := fun t => { t with musDue := [] }) fun _ => rfl]
    cases findTeam s k <;> rfl

/-- An update adds to those of its cycle, and the slot gathers what it releases. -/
theorem findTeam_updateMuster {s : State} {k : Nat} {t : Team} (hf : findTeam s k = some t) (hpad : padSize t ≠ 0) (n joins : Nat) (owed landed : W32) (v : View) :
    findTeam (updateMuster s k n joins owed landed v) k = some { t with
      musDue := mput none t.musDue n (some (((mget none t.musDue n).getD (0, 0, 0)).1 + joins, ((mget none t.musDue n).getD (0, 0, 0)).2.1 + owed,
        ((mget none t.musDue n).getD (0, 0, 0)).2.2 + landed))
      musters := mput ({}, {}) t.musters n ((mget ({}, {}) t.musters n).1.join v, (mget ({}, {}) t.musters n).2) } := by
  unfold updateMuster
  rw [teamOf_found hf, if_neg hpad, findTeam_modTeam_same, hf]
  · rfl
  · exact fun _ => rfl

/-- Settles O30. -/
theorem musterUpdatesEndTheRoundAtZero : Obligations.MusterUpdatesEndTheRoundAtZero := by
  intro s k n t hf _ _
  refine ⟨fun joins owed landed v hpad => ⟨_, findTeam_updateMuster hf hpad n joins owed landed v, ?_⟩, fun joins owed landed _ => ?_, settleMusters_due⟩
  · exact ⟨mget_mput_same _ _ _ _, fun i hi => mget_mput_other _ _ _ _ _ hi, congrArg Prod.fst (mget_mput_same _ _ _ _)⟩
  · dsimp only
    split
    case isTrue h =>
      obtain ⟨hr, hm⟩ := settleMuster_ends hf joins owed landed h.1 h.2
      rw [hr, hm]
      exact ⟨rfl, rfl, rfl, rfl, rfl, rfl⟩
    case isFalse h =>
      obtain ⟨hr, ht⟩ := settleMuster_goes hf joins owed landed h
      rw [hr, ht]
      exact ⟨rfl, rfl, rfl, rfl, rfl, rfl⟩

end Sys2Proof.Machine
end

