-- ==== Sys2Proof/Proofs/ShadowedTeam.lean ====
section
/-!
A muster instruction where two teams have one key (R222): the machine adds its update to both, the claim only to the one with a scratchpad.
-/

namespace Sys2Proof.Machine

/-- The machine about to execute a muster instruction on slot 1, with a second team of the same key that has no scratchpad. -/
def shadowed : State :=
  { Tests.vec (Tests.withRegs [(4, .u 0x10), (5, .u 0x7F00), (8, .u 2)]) with teams := [placedTeam, { key := 1, ctx := 0, launch := 1 }] }

/-- No team without a scratchpad has an update of a muster slot. -/
def dueInPads (s : State) : Bool := s.teams.all fun t => padSize t != 0 || t.musDue.isEmpty

/-- The claim's update leaves a team without a scratchpad as it was. -/
theorem dueInPads_musterAdded {s : State} (h : dueInPads s = true) (k n joins : Nat) (owed : W32) (v : View) :
    dueInPads (modTeam s k fun t => musterAdded t n joins owed v) = true := by
  have hkeep : ∀ t : Team, (padSize t != 0 || t.musDue.isEmpty) = true →
      (padSize (musterAdded t n joins owed v) != 0 || (musterAdded t n joins owed v).musDue.isEmpty) = true := fun t ht => by
    unfold musterAdded
    split
    · exact ht
    · rename_i hp
      exact Bool.or_eq_true_iff.mpr (.inl (bne_iff_ne.mpr hp))
  unfold dueInPads modTeam mapWhere at *
  rw [List.all_eq_true] at h ⊢
  intro t ht
  obtain ⟨u, hu, rfl⟩ := List.mem_map.mp ht
  dsimp only
  split
  · exact hkeep u (h u hu)
  · exact h u hu

/-- The machine's update reaches the team without a scratchpad too. -/
theorem owed_shadowed : (match exec (.musOwe 8 4 64 0) shadowed with | .next t => dueInPads t | _ => true) = false := by decide +kernel

/-- Slot 1 is named, in a team that runs alone. -/
def owesSlotOne (c : Ctx) : Bool := !isPaired c.t && match musterIndex c.t (c.addr 4 64 16 c.first) with
  | .ok n => n == 1
  | .error _ => false

theorem owesSlotOne_index {c : Ctx} (h : owesSlotOne c = true) : isPaired c.t = false ∧ musterIndex c.t (c.addr 4 64 16 c.first) = .ok 1 := by
  unfold owesSlotOne at h
  rw [Bool.and_eq_true, Bool.not_eq_true'] at h
  obtain ⟨hp, hi⟩ := h
  split at hi
  · rename_i n hn
    rw [beq_iff_eq.mp hi] at hn
    exact ⟨hp, hn⟩
  · cases hi

/-- Refutes O29: nothing in the claim keeps two teams from having one key. mus.owe of a team with a scratchpad then adds its update to the slots of both teams,
where the claim leaves the one without a scratchpad as it was. -/
theorem not_musterInstructionsWorkOnTheirSlot : ¬ Obligations.MusterInstructionsWorkOnTheirSlot := by
  intro h
  obtain ⟨c, hr, hf, hp⟩ := Tests.meets_runs (s := shadowed) (i := .musOwe 8 4 64 0) (p := owesSlotOne) (by decide +kernel)
  obtain ⟨hpair, hidx⟩ := owesSlotOne_index hp
  obtain ⟨-, -, howe, -⟩ := h shadowed c 8 4 64 0 1 _ hidx rfl
  obtain ⟨g', he, -⟩ := howe hr hf
  have hnote : ∀ x, scripted shadowed x = x := fun x => by unfold scripted noteScript; rw [hr.path]; simp [hpair]
  have hdue := owed_shadowed
  rw [he, hnote] at hdue
  have hclaim := dueInPads_musterAdded (s := shadowed) (by decide +kernel) c.g.team 1 0 (c.uv 8) {}
  exact absurd (hclaim.symm.trans hdue) (by decide)

end Sys2Proof.Machine
end

