-- ==== Sys2Proof/Proofs/EffectsOutside.lean ====
section
/-!
Effects that do not look at the groups: acquires and changes of a team, of an instruction whose operands may have been filled back (R35, R94).
-/

namespace Sys2Proof.Machine

/-! ## Effects that the groups do not matter to -/

section along

variable {s s' t : State} {i : Instr} {c : Ctx} {f : Group → Group}

/-- An effect outside the groups that does not look at them is the same effect on the state that claims name. -/
theorem Reached.along (h : Reached s s' i c f t) {u : State → State} (hu : ∀ x G, setGroup (uncur (u x)) G = u (setGroup (uncur x) G))
    (ho : OthersKept c.g.who t (u t)) (hg : findGroup (u t) c.g.who = findGroup t c.g.who) (hcy : (u t).cycle = t.cycle) : Reached s (u s') i c f (u t) :=
  ⟨h.others.trans ho, hg.trans h.found, hcy.trans h.cycle, fun G hG => by rw [hu, hu, h.outside G hG]⟩

theorem acquireAll_uncur (v : View) : ∀ (l : List Agent) (s : State), acquireAll (uncur s) l v = uncur (acquireAll s l v)
  | [], _ => rfl
  | a :: l, s => acquireAll_uncur v l (acquireView v s a)

/-- The lanes of an instruction acquire. -/
theorem Reached.acquires (h : Reached s s' i c f t) (v : View) : Reached s (acquireAct c s' v) i c f (acquireAct c t v) := by
  have hk := kept_acquireAll v (agentsOf c.g c.act) t
  refine h.along (u := fun x => acquireAct c x v) (fun x G => ?_) (.of_kept hk) (by unfold findGroup; rw [show (acquireAct c t v).groups = t.groups from hk.groups]) hk.cycle
  unfold acquireAct
  rw [setGroup, setGroup, acquireAll_modGroup, acquireAll_uncur]

/-- A team changes, but not where it is nor which quarters it holds. -/
theorem othersKept_modTeam {w : Who} {s : State} {k : Nat} {F : Team → Team} (hk : ∀ t, t.key = k → (F t).key = k)
    (hp : ∀ t, findTeam s k = some t → (F t).cluster = t.cluster ∧ (F t).quarters = t.quarters) : OthersKept w s (modTeam s k F) where
  groups := List.forall₂_same.mpr fun x _ => ⟨rfl, fun _ => .refl x⟩
  vault := rfl
  saved := rfl
  teams := fun j => ⟨teamOf_modTeam_field hk (fun t ht => (hp t ht).1) j, teamOf_modTeam_field hk (fun t ht => (hp t ht).2) j⟩

theorem Reached.modTeam (h : Reached s s' i c f t) {k : Nat} {F : Team → Team} (hk : ∀ t, t.key = k → (F t).key = k)
    (hp : ∀ u, findTeam t k = some u → (F u).cluster = u.cluster ∧ (F u).quarters = u.quarters) :
    Reached s (Machine.modTeam s' k F) i c f (Machine.modTeam t k F) :=
  h.along (u := fun x => Machine.modTeam x k F) (fun _ _ => rfl) (othersKept_modTeam hk hp) rfl rfl

theorem Reached.modTile (h : Reached s s' i c f t) (k j : Nat) (F : Tile → Tile) : Reached s (Machine.modTile s' k j F) i c f (Machine.modTile t k j F) :=
  h.modTeam (F := fun t => { t with tiles := mput {} t.tiles j (F (tileOf t j)) }) (fun _ hk => hk) fun _ _ => ⟨rfl, rfl⟩

end along

@[simp] theorem view_agentsOf (c : Ctx) (i : Instr) (m : W32) : agentsOf (fillOps c i).g m = agentsOf c.g m := by
  unfold agentsOf
  simp only [view_key, view_team, view_lane]

@[simp] theorem view_acquireAct (c : Ctx) (i : Instr) (s : State) (v : View) : acquireAct (fillOps c i) s v = acquireAct c s v := by
  unfold acquireAct
  rw [view_agentsOf, view_act]

end Sys2Proof.Machine
end

