-- ==== Sys2Proof/Proofs/TileInstructions.lean ====
section
/-!
The tile instructions on their entry (R75, R76, R81, R82, R223, R224).
-/

namespace Sys2Proof.Machine

/-! ## What the tile instructions do -/

/-- What tdef does (R75, R76, R223). -/
def tdefRes (d : BitVec 7) (n : BitVec 6) (c : Ctx) : Res :=
  let w1 := (c.uvk d 1).toNat
  let w2 := (c.uvk d 2).toNat
  let clr := bits w1 5 1 == 1
  let x := tdefTile (c.uv d).toNat w1 w2
  if w1 / 64 != 0 || (!clr && ((!x.cmp && w2 != 0) || !tileOk c.t n.toNat x)) then onceTrap c 0x20
  else if tileInUse c.t n.toNat || twaitHolds c.s c.g.team n.toNat then { s := c.s, wait := some (.tdef, 0) }
  else { s := modTile c.s c.g.team n.toNat fun old => if clr then { old with valid := false, own := false, status := 0, pend := false } else x }

/-- What town reads (R224). -/
def townWord (x : Tile) : W32 :=
  let b (v : Bool) (i : Nat) : Nat := if v then 2 ^ i else 0
  BitVec.ofNat 32 (b x.own 0 + b x.pend 1 + b x.valid 2 + b x.cmp 3 + x.fmt * 16 + x.status.toNat * 256)

/-- What twait does where it does not wait (R82, R224). -/
def twaitRes (a : BitVec 7) (c : Ctx) : Res :=
  let x := tileOf c.t (tileArg c a)
  if !x.valid then onceTrap c 0x20
  else if x.own then
    let mine (x : Got) : Bool := x.pc == c.pc && x.lane == lowestLane c.path
    { s := modGroup c.s c.g.who fun g => { g with
        got := { pc := c.pc, lane := lowestLane c.path, val := BitVec.ofNat 64 (tileArg c a) } :: g.got.filter fun x => !mine x }
      wait := some (.twait, 0), keep := true }
  else { s := acquireAct c c.s x.view }

/-- What tgive does (R81, R224). -/
def tgiveRes (a : BitVec 7) (c : Ctx) : Res :=
  let v := releaseAct c c.s
  if (tileOf c.t (tileArg c a)).valid then
    { s := modTile c.s c.g.team (tileArg c a) fun x => if x.own then x else { x with own := true, given := v } }
  else onceTrap c 0x20

theorem exec_tdef (d : BitVec 7) (n : BitVec 6) (la : BitVec 4) (s : State) : exec (.tdef d n la) s = issue (.tdef d n la) s (tdefRes d n) := rfl

theorem exec_town (d a : BitVec 7) (la : BitVec 4) (s : State) : exec (.town d a la) s =
    issue (.town d a la) s fun c => { s := c.s, regs := uRes c d (townWord (tileOf c.t (tileArg c a))) } := rfl

theorem exec_twait (a : BitVec 7) (la : BitVec 4) (s : State) : exec (.twait a la) s = issue (.twait a la) s (twaitRes a) := rfl

theorem exec_tgive (a : BitVec 7) (la : BitVec 4) (s : State) : exec (.tgive a la) s = issue (.tgive a la) s (tgiveRes a) := rfl

theorem tdefRes_defines {d : BitVec 7} {n : BitVec 6} {c : Ctx} (hw : (c.uvk d 1).toNat / 64 = 0) (huse : tileInUse c.t n.toNat = false)
    (hwait : twaitHolds c.s c.g.team n.toNat = false) (hclr : ¬bits (c.uvk d 1).toNat 5 1 = 1)
    (hx : (tdefTile (c.uv d).toNat (c.uvk d 1).toNat (c.uvk d 2).toNat).cmp = true ∨ c.uvk d 2 = 0)
    (hok : tileOk c.t n.toNat (tdefTile (c.uv d).toNat (c.uvk d 1).toNat (c.uvk d 2).toNat) = true) :
    tdefRes d n c = { s := modTile c.s c.g.team n.toNat fun _ => tdefTile (c.uv d).toNat (c.uvk d 1).toNat (c.uvk d 2).toNat } := by
  have hz : (!(tdefTile (c.uv d).toNat (c.uvk d 1).toNat (c.uvk d 2).toNat).cmp && (c.uvk d 2).toNat != 0) = false := by
    rcases hx with h | h <;> simp [h]
  simp [tdefRes, hw, hok, hz, huse, hwait, hclr]

theorem tdefRes_clears {d : BitVec 7} {n : BitVec 6} {c : Ctx} (hw : (c.uvk d 1).toNat / 64 = 0) (huse : tileInUse c.t n.toNat = false)
    (hwait : twaitHolds c.s c.g.team n.toNat = false) (hclr : bits (c.uvk d 1).toNat 5 1 = 1) :
    tdefRes d n c = { s := modTile c.s c.g.team n.toNat fun old => { old with valid := false, own := false, status := 0, pend := false } } := by
  simp [tdefRes, hw, huse, hwait, hclr]

theorem townWord_eq (x : Tile) : townWord x =
    BitVec.ofNat 32 (x.own.toNat + 2 * x.pend.toNat + 4 * x.valid.toNat + 8 * x.cmp.toNat + 16 * x.fmt + 256 * x.status.toNat) := by
  have hb : ∀ (v : Bool) (i : Nat), (if v = true then 2 ^ i else 0) = 2 ^ i * v.toNat := fun v i => by cases v <;> simp
  unfold townWord
  simp only [hb]
  congr 1
  ring

/-- An instruction that changes a tile of its team, and nothing else. -/
theorem completes_modTile {s : State} {i : Instr} {c : Ctx} {body : Ctx → Res} {j : Nat} {F : Tile → Tile} (h : Runs s i c) (hfill : Filled c i)
    (he : exec i s = issue i s body) (hb : body c = { s := modTile s c.g.team j F }) :
    Completes s (modTile s c.g.team j F) i c c.g.masks 0 (fun _ => c.pc + 4) [] := by
  have hr := (Reached.filled h hfill).modTile c.g.team j F
  rw [← show fillOps c i = c from hfill] at hb
  exact hr.run h steady_id he (by rw [hb, hfill]) .nil List.nodup_nil (Nat.zero_le _)

/-- Settles O31. -/
theorem tileInstructionsWorkOnTheirEntry : Obligations.TileInstructionsWorkOnTheirEntry := by
  intro s c d a n la
  refine ⟨fun x hx h hfill hw huse hwait => ?_, fun x hx => ⟨fun h => ?_, fun h hvalid hown => ?_, fun h hfill hvalid => ?_⟩⟩
  · obtain ⟨-, hcs, -⟩ := issuer_find s c h.path
    rw [← hcs] at hwait
    subst hx
    split
    case isTrue hclr => exact completes_modTile h hfill (exec_tdef d n la s) (by rw [tdefRes_clears hw huse hwait hclr, hcs])
    case isFalse hclr =>
      exact fun hx hok => completes_modTile h hfill (exec_tdef d n la s) (by rw [tdefRes_defines hw huse hwait hclr hx hok, hcs])
  · have hb := run_value h _ d (.u (townWord x)) (fun _ => townWord x) (exec_town d a la s) (by simp [uRes, tileArg, hx]) fun _ _ _ => rfl
    rwa [townWord_eq] at hb
  · have hb : twaitRes a (fillOps c (.twait a la)) = { s := acquireAct c (fillOps c (.twait a la)).s x.view } := by
      simp [twaitRes, tileArg, ← hx, hvalid, hown]
    exact ((Reached.start h).acquires x.view).run h steady_id (exec_twait a la s) hb .nil List.nodup_nil (Nat.zero_le _)
  · obtain ⟨-, hcs, -⟩ := issuer_find s c h.path
    refine completes_modTile h hfill (exec_tgive a la s) ?_
    simp [tgiveRes, tileArg, ← hx, hvalid, hcs]

end Sys2Proof.Machine
end

