-- ==== Sys2Proof/Proofs/ChannelReads.lean ====
section
/-!
Rdwp and rdcsum (R84, R99, R230, R233).
-/

namespace Sys2Proof.Machine

theorem firstWhere_eq_find? {α : Type} (p : α → Bool) : ∀ l : List α, firstWhere p l = l.find? p
  | [] => rfl
  | x :: l => by
    rw [firstWhere, List.find?_cons, firstWhere_eq_find? p l]
    cases p x <;> rfl

/-- What rdwp does (R84, R99). -/
def rdwpRes (d a : BitVec 7) (c : Ctx) : Res :=
  let k := countOf c.t ((c.uv a).toNat % 8)
  { s := acquireAct c c.s k.view, regs := pairRes c d true fun _ => k.wptr }

theorem exec_rdwp (d a : BitVec 7) (la : BitVec 4) (s : State) : exec (.rdwp d a la) s = issue (.rdwp d a la) s (rdwpRes d a) := rfl

theorem rdwp_reads {s : State} {c : Ctx} {d a : BitVec 7} {la : BitVec 4} (h : Runs s (.rdwp d a la) c) {k : ChanCount} (hk : k = countOf c.t ((c.uv a).toNat % 8)) :
    Completes s (acquireAct c s k.view) (.rdwp d a la) c c.g.masks 0 (fun _ => c.pc + 4) (destPair c d fun _ => k.wptr) := by
  have hb : rdwpRes d a (fillOps c (.rdwp d a la)) = { s := acquireAct c (fillOps c (.rdwp d a la)).s k.view, regs := pairRes c d true fun _ => k.wptr } := by
    simp only [rdwpRes, view_acquireAct, view_t, view_uv, view_pairRes, ← hk]
  exact ((Reached.start h).acquires k.view).run h steady_id (exec_rdwp d a la s) hb (gives_pair c d true _ fun _ _ => rfl)
    (by have := pair_regs c d; simp [destPair, this]) (by simp [destPair])

/-- The entry that a waiting rdcsum keeps (R233). -/
def asks (c : Ctx) (n : Nat) (g : Group) : Group :=
  { g with got := { pc := c.pc, lane := lowestLane c.path, val := BitVec.ofNat 64 n } :: g.got.filter fun x => !(x.pc == c.pc && x.lane == lowestLane c.path) }

/-- What rdcsum does (R230, R233). -/
def rdcsumRes (d a : BitVec 7) (c : Ctx) : Res :=
  let k := countOf c.t ((c.uv a).toNat % 8)
  match firstWhere (fun x => x.1 == sumAsked c k) k.crcs with
  | some x => { s := c.s, regs := uRes c d x.2 }
  | none =>
    if sumAsked c k = 0 then { s := c.s, regs := uRes c d 0 }
    else { s := modGroup c.s c.g.who (asks c (sumAsked c k)), wait := some (.rdcsum, 0), keep := true }

theorem exec_rdcsum (d a : BitVec 7) (la : BitVec 4) (s : State) : exec (.rdcsum d a la) s = issue (.rdcsum d a la) s (rdcsumRes d a) := rfl

theorem sumAsked_eq (c : Ctx) (k : ChanCount) : sumAsked c k =
    match c.g.got.find? fun x => x.pc == c.pc && x.lane == lowestLane c.path with | some x => x.val.toNat | none => k.sums := by
  unfold sumAsked
  rw [firstWhere_eq_find?]
  cases c.g.got.find? fun x => x.pc == c.pc && x.lane == lowestLane c.path <;> rfl

/-- Settles O33. -/
theorem channelReadsGiveTheirCounts : Obligations.ChannelReadsGiveTheirCounts := by
  intro s c d a la k n hk hn
  refine ⟨fun h => rdwp_reads h hk, fun h hfill => ?_⟩
  obtain ⟨-, hcs, -⟩ := issuer_find s c h.path
  have hn : n = sumAsked c k := hn.trans (sumAsked_eq c k).symm
  have gives : ∀ v, rdcsumRes d a (fillOps c (.rdcsum d a la)) = { s := (fillOps c (.rdcsum d a la)).s, regs := uRes c d v } →
      Completes s s (.rdcsum d a la) c c.g.masks 0 (fun _ => c.pc + 4) (dest c d fun _ => v) := fun v hb =>
    run_value h _ d (.u v) (fun _ => v) (exec_rdcsum d a la s) hb fun _ _ _ => rfl
  rw [show fillOps c (.rdcsum d a la) = c from hfill] at gives
  have hb : rdcsumRes d a c = match k.crcs.find? fun x => x.1 == n with
      | some x => { s := c.s, regs := uRes c d x.2 }
      | none => if n = 0 then { s := c.s, regs := uRes c d 0 }
        else { s := modGroup c.s c.g.who (asks c n), wait := some (.rdcsum, 0), keep := true } := by
    unfold rdcsumRes
    rw [← hk]
    dsimp only
    rw [← hn, firstWhere_eq_find?]
  cases hfind : k.crcs.find? fun x => x.1 == n with
  | some x =>
    rw [hfind] at hb
    exact gives x.2 hb
  | none =>
    rw [hfind] at hb
    dsimp only at hb ⊢
    split
    case isTrue h0 => exact gives 0 (hb.trans (if_pos h0))
    case isFalse h0 =>
      rw [if_neg h0, hcs] at hb
      rw [exec_rdcsum]
      exact issue_waits h (body := rdcsumRes d a) (by rw [show fillOps c _ = c from hfill, hb]) rfl

end Sys2Proof.Machine
end

