-- ==== Sys2Proof/Proofs/CopyCommands.lean ====
section
/-!
The copy-engine commands as they issue (R225 to R234).
-/

namespace Sys2Proof.Machine

/-! ## A cause at issue (R209) -/

/-- An instruction that meets one cause on all of its active lanes has no other effect. -/
theorem traps_once {s : State} {i : Instr} {c : Ctx} {body : Ctx → Res} {cause : Nat} (h : Runs s i c) (hfill : Filled c i) (he : exec i s = issue i s body)
    (hb : body c = onceTrap c cause) :
    ∃ g', exec i s = .next (raise (scripted s (onlyGroup s g')) c.g.who 0 (c.lanes.map fun l => { lane := l, cause := cause })) ∧
      WentOn s { c with path := c.path &&& ~~~c.act } g' c.g.masks c.g.fpflags (fun _ => c.pc + 4) ∧ WroteRegs c g' [] := by
  have hfill' : fillOps c i = c := hfill
  have hstop : stoppedOf (onceTrap c cause) = c.act := stoppedOf_lanes (f := fun l => { lane := l, cause := cause }) rfl fun _ => rfl
  have hafter : after c (fun g => g) (onceTrap c cause) = { c with act := c.act &&& ~~~c.act &&& BitVec.allOnes 32, path := c.path &&& ~~~c.act } := by
    unfold after; rw [hstop, show (onceTrap c cause).gone = 0 from rfl, but_none]; rfl
  obtain ⟨g', hx, hwent, -, hregs⟩ := completes_hits h body (onceTrap c cause) s (fun g => g) 0 keeps_id [] he (by rw [hfill']; exact hb)
    (touches_mod h (fun g => g) (fun _ => rfl) _ rfl (by rw [hfill', modGroup_id]; rfl)) .nil .nil (by decide)
  rw [hstop, BitVec.and_not_self] at hx
  rw [hafter] at hwent
  have hflags : ∀ p : Bool, (if p then c.g.fpflags else c.g.fpflags ||| (onceTrap c cause).flags) = c.g.fpflags := fun p => by
    cases p
    · exact BitVec.or_zero
    · rfl
  rw [hflags] at hwent
  exact ⟨g', hx, hwent, wroteRegs_nil (by rw [hafter]) hregs⟩

/-! ## The causes (R227, R229, R232, R234) -/

theorem mem_causes {own form : Bool} {p : Prop} [Decidable p] :
    (if own = true then 0x20 else if (!form) = true then 0x22 else if p then 0x23 else 0 : Nat) ∈ [0, 0x20, 0x22, 0x23] := by
  by_cases hp : p <;> cases own <;> cases form <;> simp [hp]

theorem copyCause_mem (t : Team) (bound : Bool) (idx : Option (List W32)) (f : CopyForm) : copyCause t bound idx f ∈ [0, 0x20, 0x22, 0x23] := mem_causes

theorem selCause_mem (t : Team) (bound : Bool) (f : SelForm) : selCause t bound f ∈ [0, 0x20, 0x22, 0x23] := mem_causes

theorem chainCause_mem (bound : Bool) (r : List W32) : chainCause bound r ∈ [0, 0x20, 0x22, 0x23] := by
  unfold chainCause
  extract_lets
  split_ifs <;> decide

/-! ## A command as it issues -/

/-- What a command does that its form names: it traps, waits, or joins its channel (R225). -/
def commandRes (c : Ctx) (ch x : Nat) (cmd : Cmd) (first : W64) (hb csum : Bool) : Res :=
  if x ≠ 0 then onceTrap c x
  else if 16 ≤ chanLoad (chanOf c.s c.t.cluster ch) then { s := c.s, wait := some (.copyq, 0) }
  else { s := placedCmd c.s c ch cmd first hb csum }

theorem placeCmd_eq (c : Ctx) (ch : Nat) (cmd : Cmd) (first : W64) (hb csum : Bool) (hk : cmd.kind ≠ .chain) :
    placeCmd c ch cmd first hb csum = if 16 ≤ chanLoad (chanOf c.s c.t.cluster ch) then { s := c.s, wait := some (.copyq, 0) }
      else { s := placedCmd c.s c ch cmd first hb csum } := by
  unfold placeCmd placedCmd
  rw [if_neg hk]

theorem commandRes_eq {c : Ctx} {ch x : Nat} {cmd : Cmd} {first : W64} {hb csum : Bool} (hk : cmd.kind ≠ .chain) :
    (if x != 0 then onceTrap c x else placeCmd c ch cmd first hb csum) = commandRes c ch x cmd first hb csum := by
  unfold commandRes
  rw [placeCmd_eq c ch cmd first hb csum hk]
  simp only [bne_iff_ne]

/-- A copy or a gather issues with the effect of its form (R225, R231). -/
theorem copyIssue_eq {c : Ctx} {d : BitVec 7} {ch : BitVec 3} {idx : Option (List W32)} {n x : Nat} {cmd : Cmd} {first : W64} {hb csum : Bool}
    (h : copyCommand.ofForm c.s c (cmdRegs c d) idx ch.toNat = (n, x, cmd, first, hb, csum)) :
    copyIssue c d ch idx = commandRes c n x cmd first hb csum ∧ x ∈ [0, 0x20, 0x22, 0x23] := by
  unfold copyCommand.ofForm at h
  simp only [Prod.mk.injEq] at h
  obtain ⟨rfl, rfl, rfl, rfl, rfl, rfl⟩ := h
  exact ⟨commandRes_eq (by cases idx <;> simp), copyCause_mem _ _ _ _⟩

/-- What cpyc does (R225, R232). -/
def cpycRes (d : BitVec 7) (ch : BitVec 3) (c : Ctx) : Res :=
  let r := cmdRegs c d
  let x := chainCause (queueBound c.s c.t (ch.toNat / 2)) r
  if x != 0 then onceTrap c x
  else
    let p := placeCmd c ch.toNat { team := c.g.team, g := c.g.idx, kind := .chain, regs := r } (Config.freeWord c.s.free) false false
    if p.wait.isSome then p else { p with s := { p.s with free := p.s.free + 1 } }

/-- What selk does (R225, R234). -/
def selkRes (d : BitVec 7) (ch : BitVec 3) (c : Ctx) : Res :=
  let r := cmdRegs c d
  let f := selForm r
  let x := selCause c.t (queueBound c.s c.t (ch.toNat / 2)) f
  if x != 0 then onceTrap c x
  else placeCmd c ch.toNat { team := c.g.team, g := c.g.idx, kind := .select, regs := r, srcTile := sideTile c.t f.keys, dstTile := sideTile c.t f.out }
    (BitVec.ofNat 64 f.out) (f.comp % 2 == 1) false

theorem cpycRes_eq (d : BitVec 7) (ch : BitVec 3) (c : Ctx) :
    cpycRes d ch c = commandRes c ch.toNat (chainCause (queueBound c.s c.t (ch.toNat / 2)) (cmdRegs c d))
      { team := c.g.team, g := c.g.idx, kind := .chain, regs := cmdRegs c d } (Config.freeWord c.s.free) false false := by
  unfold cpycRes commandRes placeCmd placedCmd
  simp only [bne_iff_ne]
  split
  · rfl
  · split <;> rfl

/-- Each copy-engine command issues with the effect of its form, and its cause is one of three. -/
theorem exec_command {s : State} {c : Ctx} {i : Instr} {ch x : Nat} {cmd : Cmd} {first : W64} {hb csum : Bool} (hcs : c.s = s)
    (hi : copyCommand s c i = some (ch, x, cmd, first, hb, csum)) :
    ∃ body, exec i s = issue i s body ∧ body c = commandRes c ch x cmd first hb csum ∧ x ∈ [0, 0x20, 0x22, 0x23] := by
  subst hcs
  unfold copyCommand at hi
  split at hi
  case h_1 d ch _ => exact ⟨fun c => copyIssue c d ch none, rfl, copyIssue_eq (Option.some.inj hi)⟩
  case h_2 d i ch _ => exact ⟨fun c => copyIssue c d ch (some (lanes32.map (c.lv i))), rfl, copyIssue_eq (Option.some.inj hi)⟩
  case h_3 d ch _ =>
    simp only [Option.some.injEq, Prod.mk.injEq] at hi
    obtain ⟨rfl, rfl, rfl, rfl, rfl, rfl⟩ := hi
    exact ⟨cpycRes d ch, rfl, cpycRes_eq d ch c, chainCause_mem _ _⟩
  case h_4 d ch _ =>
    simp only [Option.some.injEq, Prod.mk.injEq] at hi
    obtain ⟨rfl, rfl, rfl, rfl, rfl, rfl⟩ := hi
    exact ⟨selkRes d ch, rfl, commandRes_eq (by simp), selCause_mem _ _ _⟩
  case h_5 => cases hi

/-! ## A command that joins its channel (R225) -/

/-- A team's key, its place, and the quarters that it holds. -/
def Team.site (t : Team) : Nat × Nat × SMap (Option Hold) := (t.key, t.cluster, t.quarters)

theorem site_addOp (t : Team) (tiles : List Nat) (hb cmu : Bool) : (addOp t tiles hb cmu).site = t.site := by
  have hfold : ∀ (l : List Nat) (u : Team), (l.foldl (fun t i => { t with tiles := mput {} t.tiles i { tileOf t i with pend := true } }) u).site = u.site :=
    fun l => by
      induction l with
      | nil => exact fun _ => rfl
      | cons x l ih => exact fun u => ih _
  unfold addOp
  extract_lets t1
  split
  · exact hfold tiles t1
  · rfl

/-- What a command fixes at issue leaves its team where it is. -/
theorem site_prepareCmd (t : Team) (ch : Nat) (cmd : Cmd) (first : W64) (hb csum : Bool) : (prepareCmd t ch cmd first hb csum).1.site = t.site :=
  site_addOp t _ _ _

theorem teamOf_key (s : State) (k : Nat) : (teamOf s k).key = k := by
  unfold teamOf
  cases h : findTeam s k with
  | none => rfl
  | some t => simpa using (firstWhere_mem _ _ _ h).2

theorem othersKept_placedCmd {w : Who} {s : State} {c : Ctx} (hct : c.t = teamOf s c.g.team) (ch : Nat) (cmd : Cmd) (first : W64) (hb csum : Bool) :
    OthersKept w s (placedCmd s c ch cmd first hb csum) := by
  unfold placedCmd
  extract_lets p s1
  obtain ⟨hkey, hplace⟩ := Prod.mk.inj (show p.1.site = c.t.site from site_prepareCmd _ _ _ _ _ _)
  have hteam : OthersKept w s (modTeam s c.g.team fun _ => p.1) := othersKept_modTeam (fun _ _ => by rw [hkey, hct]; exact teamOf_key s _) fun u hu => by
    rw [hct, teamOf_found hu] at hplace; exact Prod.mk.inj hplace
  have h1 : OthersKept w s s1 := hteam.trans (.of_eq rfl rfl rfl rfl)
  split
  · exact h1.trans (.of_eq rfl rfl rfl rfl)
  · exact h1

/-- Settles O32. -/
theorem copyCommandsJoinTheirChannel : Obligations.CopyCommandsJoinTheirChannel := by
  intro s c i ch x cmd first hb csum h hfill hi
  obtain ⟨-, hcs, hct⟩ := issuer_find s c h.path
  obtain ⟨body, he, hbody, hx⟩ := exec_command hcs hi
  have hbody : body (fillOps c i) = _ := (congrArg body hfill).trans hbody
  unfold commandRes at hbody
  split
  case isTrue hne =>
    rw [if_pos hne] at hbody
    refine ⟨by simpa [hne] using hx, traps_once h hfill he ?_⟩
    rwa [show fillOps c i = c from hfill] at hbody
  case isFalse h0 =>
    rw [if_neg h0, hcs] at hbody
    split
    case isTrue hfull =>
      rw [if_pos hfull] at hbody
      rw [he]
      exact issue_waits h hbody rfl
    case isFalse hroom =>
      rw [if_neg hroom] at hbody
      refine ((Reached.filled h hfill).goes (t' := placedCmd s c ch cmd first hb csum) ?_ ?_ ?_).run h steady_id he hbody .nil List.nodup_nil (Nat.zero_le _)
      · exact othersKept_placedCmd hct ch cmd first hb csum
      · unfold placedCmd; dsimp only; split <;> rfl
      · unfold placedCmd; dsimp only; split <;> rfl

end Sys2Proof.Machine
end

