-- ==== Sys2Proof/Proofs/ResetValues.lean ====
section
/-!
What reset leaves (R69, R145, R301 to R406).
-/

namespace Sys2Proof.Machine

/-- An element of an array of registers reads as its value, wherever the array stands among the arrays. -/
theorem regRead_array (s : State) {j b st n : Nat} {f : Nat → Nat} (hj : (readArrays s)[j]? = some (b, st, n, f)) (hst : 0 < st) {k : Nat} (hk : k < n)
    {v : W64} (hv : BitVec.ofNat 64 (f k) = v) : regRead s (b + st * k) = v :=
  (regRead_element s (List.mem_of_getElem? hj) hst hk).trans hv

/-- The registers with another reset value than 0 hold it. -/
theorem reset_values : ∀ x ∈ resetValues, regRead State.reset x.1 = BitVec.ofNat 64 x.2 := by decide +kernel

/-- The other registers that stand alone hold 0. -/
theorem reset_zeros : ∀ x ∈ resetZeros, regRead State.reset x = 0 := by decide +kernel

/-- Settles O59. -/
theorem resetHoldsTheSpecsValues : Obligations.ResetHoldsTheSpecsValues := by
  refine ⟨by decide, rfl, rfl, rfl, rfl, by decide, fun _ => rfl, reset_values, reset_zeros, fun t ht => ?_, fun k hk => ?_, fun k hk => ⟨?_, ?_, ?_⟩,
    fun k hk => ?_, fun _ _ _ _ => rfl, fun k _ => ?_⟩
  · exact regRead_array (j := 12) _ rfl (by decide) ht rfl
  · exact regRead_array (j := 11) _ rfl (by decide) hk rfl
  · exact regRead_array (j := 2) _ rfl (by decide) hk rfl
  · exact regRead_array (j := 14) _ rfl (by decide) hk rfl
  · exact regRead_array (j := 4) _ rfl (by decide) hk (by simp [bits, State.reset, mget])
  · exact regRead_array (j := 10) _ rfl (by decide) hk (by simp [ftstRead, clusterOf, State.reset, mget])
  · simp [bits, State.reset, mget]

end Sys2Proof.Machine
end

