-- ==== Sys2Proof/Proofs/MapsFromLists.lean ====
section
/-!
Maps filled from lists of entries: what a key reads as, where the entries that fall on it agree (R14).
-/

namespace Sys2Proof.Machine

/-- The keys of a canonical map are above its lower bound. -/
theorem mwfFrom_key {d : Byte} : ∀ {m : SMap Byte} {lo : Nat} {x : Nat × Byte}, mwfFrom d lo m = true → x ∈ m → lo ≤ x.1
  | (k, v) :: m, lo, x, h, hx => by
    simp only [mwfFrom, Bool.and_eq_true, decide_eq_true_eq] at h
    rcases List.mem_cons.mp hx with rfl | hx
    · exact h.1.1
    · have := mwfFrom_key h.2 hx
      omega

/-- A canonical map reads each of its entries. -/
theorem mget_of_mem {d : Byte} : ∀ {m : SMap Byte} {lo : Nat} {x : Nat × Byte}, mwfFrom d lo m = true → x ∈ m → mget d m x.1 = x.2
  | (k, v) :: m, lo, x, h, hx => by
    simp only [mwfFrom, Bool.and_eq_true, decide_eq_true_eq] at h
    rcases List.mem_cons.mp hx with rfl | hx
    · simp [mget]
    · have := mwfFrom_key h.2 hx
      rw [mget, if_neg (by omega), mget_of_mem h.2 hx]

/-- What a map reads is its default or listed at the key. -/
theorem mget_entry {d : Byte} (k : Nat) : ∀ m : SMap Byte, mget d m k = d ∨ (k, mget d m k) ∈ m
  | [] => .inl rfl
  | (k', v) :: m => by
    unfold mget
    split
    case isTrue h => exact .inr (by rw [h]; exact List.mem_cons_self)
    case isFalse => exact (mget_entry k m).imp id (List.mem_cons_of_mem _)

/-- The map with the entries of a list written at the keys that `g` gives them. -/
def putAt (g : Nat → Option Nat) (l : List (Nat × Byte)) (m : Mem) : Mem :=
  l.foldl (fun m (k, b) => match g k with
    | some d => mput 0 m d b
    | none => m) m

/-- A key reads as what the entries that fall on it hold, if there are any, and as before otherwise. -/
theorem mget_putAt {g : Nat → Option Nat} {k : Nat} {v : Byte} : ∀ {l : List (Nat × Byte)} {m : Mem}, (∀ x ∈ l, g x.1 = some k → x.2 = v) →
    (mget 0 m k = v ∨ ∃ x ∈ l, g x.1 = some k) → mget 0 (putAt g l m) k = v
  | [], m, _, hv => hv.elim id fun ⟨_, hx, _⟩ => absurd hx List.not_mem_nil
  | (a, b) :: l, m, hl, hv => by
    have hhere := hl (a, b) List.mem_cons_self
    unfold putAt
    rw [List.foldl_cons]
    refine mget_putAt (fun y hy => hl y (List.mem_cons_of_mem _ hy)) ?_
    dsimp only at hhere ⊢
    have later (hno : g a ≠ some k) : mget 0 m k = v ∨ ∃ x ∈ l, g x.1 = some k := hv.imp id fun ⟨y, hy, hyk⟩ => by
      rcases List.mem_cons.mp hy with rfl | hy
      · exact absurd hyk hno
      · exact ⟨y, hy, hyk⟩
    cases hg : g a with
    | none => exact later (by rw [hg]; exact nofun)
    | some d =>
      dsimp only
      rw [mget_mput]
      by_cases hd : k = d
      · rw [if_pos hd]
        exact .inl (hhere (by rw [hg, hd]))
      · rw [if_neg hd]
        exact later fun e => hd (Option.some.inj (hg.symm.trans e)).symm

/-- A part of a canonical memory, moved: where just the entry of key `a` falls on key `k`, it reads as the memory did at `a`. -/
theorem mget_putAt_filter {g : Nat → Option Nat} {p : Nat → Bool} {s m : Mem} {k a : Nat} (hw : Memory.wf s = true) (hm : mget 0 m k = 0)
    (hp : p a = true) (ha : g a = some k) (hu : ∀ b, p b = true → g b = some k → b = a) :
    mget 0 (putAt g (s.filter fun x => p x.1) m) k = mget 0 s a := by
  refine mget_putAt (fun x hx hxk => ?_) ?_
  · obtain ⟨hxs, hxp⟩ := List.mem_filter.mp hx
    rw [← hu x.1 hxp hxk]
    exact (mget_of_mem hw hxs).symm
  · exact (mget_entry a s).imp (fun h0 => hm.trans h0.symm) fun hx => ⟨_, List.mem_filter.mpr ⟨hx, hp⟩, ha⟩

end Sys2Proof.Machine
end

