-- ==== Sys2Proof/Proofs/PackageReset.lean ====
section
/-!
Reset, the end of power, shutdown, fuses and measurement (R89, R383 to R386, R394).
-/

namespace Sys2Proof.Machine

/-! ## The boot ROM (R385, R386) -/

/-- What the boot ROM leaves as it was: all but the measurements, the boot error, what was refused, and whether the package is held. -/
structure Boots (s t : State) : Prop where
  state : t = { s with ctl := { s.ctl with meas := t.ctl.meas, booterr := t.ctl.booterr }, refused := t.refused, held := t.held }

theorem Boots.trans {a b c : State} (h : Boots a b) (k : Boots b c) : Boots a c := ⟨k.state.trans (by rw [h.state])⟩

theorem boots_extendMeas (s : State) (i : Nat) (d : List Byte) : Boots s (extendMeas s i d) := ⟨rfl⟩

theorem boots_bootImage (s : State) (ty : Nat) : Boots s (bootImage s ty) := by
  unfold bootImage
  extract_lets img r
  split
  · exact boots_extendMeas _ _ _
  · exact ⟨rfl⟩

theorem boots_fold : ∀ (l : List Nat) (s : State), Boots s (l.foldl bootImage s)
  | [], _ => ⟨rfl⟩
  | x :: l, s => (boots_bootImage s x).trans (boots_fold l _)

theorem boots_bootRom (s : State) : Boots s (bootRom s) := by
  have h1 := (boots_extendMeas s 0 (bytesOf256 Config.romDigest)).trans (boots_bootImage _ 1)
  unfold bootRom
  extract_lets s1
  split
  · exact Boots.trans h1 ⟨rfl⟩
  · exact h1.trans (boots_fold _ _)

/-! ## Reset and the end of power (R89, R394) -/

theorem traffic_loseCourses (kept : List Nat) (s : State) : Traffic s (loseCourses kept s) :=
  .fold (fun s (x : Nat × Course) => .of_ite (traffic_landCourse s x.2) (.refl s)) _ _

/-- The package as the boot ROM finds it: images staged by PLDM stand in boot flash, and the predictive table is reloaded (R394, R405). -/
def readied (s : State) : State := reloadPred { s with flash := s.staged.foldl (fun m (k, v) => mput [] m k v) s.flash, staged := [] }

theorem packageReset_eq (s : State) : packageReset s = bootRom (readied (resetState (loseCourses (freeCourses s).2 (freeCourses s).1))) := rfl

theorem packageReset_clears (s : State) : (packageReset s).groups = [] ∧ (packageReset s).teams = [] ∧ (packageReset s).launches = [] ∧
    (packageReset s).contexts = [] ∧ (packageReset s).ctl.svn = s.ctl.svn ∧ (packageReset s).ctl.rooth = s.ctl.rooth ∧ (packageReset s).cycle = 0 := by
  have hlose := (traffic_loseCourses (freeCourses s).2 (freeCourses s).1).ctl
  have hsvn : (loseCourses (freeCourses s).2 (freeCourses s).1).ctl.svn = s.ctl.svn := by rw [hlose]; rfl
  have hroot : (loseCourses (freeCourses s).2 (freeCourses s).1).ctl.rooth = s.ctl.rooth := by rw [hlose]; rfl
  rw [packageReset_eq, (boots_bootRom (readied (resetState (loseCourses (freeCourses s).2 (freeCourses s).1)))).state]
  exact ⟨rfl, rfl, rfl, rfl, hsvn, hroot, rfl⟩

theorem powerLoss_mem (l : List Nat) (s : State) {a : Nat} (h : survives a = false) : mget 0 (powerLoss l s).mem a = 0 :=
  (mget_filter 0 survives a (loseCourses l s).mem).trans (if_neg (by rw [h]; decide))

/-- The DRAM parts of the predictive table, as boot flash keeps them after a shutdown (R394). -/
theorem orderlyShutdown_keeps {s t : State} (hw : Memory.wf s.mem = true) (h : exec .orderlyShutdown s = .next t) :
    t.mem = s.mem ∧ ∀ o, o < predDram → mget 0 t.predKept o = mget 0 s.mem (Config.predBase + o) := by
  obtain rfl := Host.Outcome.next.inj h
  refine ⟨rfl, fun o ho => ?_⟩
  have hput := mget_putAt_filter (g := fun a => some (a - Config.predBase)) (p := fun a => Config.predBase ≤ a && a < Config.predBase + predDram) (k := o)
    (a := Config.predBase + o) (m := []) hw rfl (by simp [ho]) (by simp) fun b hb hbo => by
      simp only [Bool.and_eq_true, decide_eq_true_eq, Option.some.injEq] at hb hbo
      omega
  exact hput

/-! ## Fuses and measurement (R385, R386) -/

/-- A fused version is only raised. -/
theorem svnWrite_raises (s : State) {v : W32} (h1 : 1 ≤ v.toNat % 16) (h4 : v.toNat % 16 ≤ 4) (hn : v.toNat / 16 ≤ 32) :
    (mget 0 (svnWrite v s).ctl.svn (v.toNat % 16)).toNat = Nat.max (mget 0 s.ctl.svn (v.toNat % 16)).toNat (v.toNat / 16) := by
  have hlt : Nat.max (mget 0 s.ctl.svn (v.toNat % 16)).toNat (v.toNat / 16) < 2 ^ 32 :=
    Nat.max_lt.mpr ⟨(mget 0 s.ctl.svn (v.toNat % 16)).isLt, by omega⟩
  have htype : ¬(decide (v.toNat % 16 = 0) || decide (4 < v.toNat % 16)) = true := by simp; omega
  unfold svnWrite
  extract_lets ty n old put
  rw [if_neg htype, if_pos hn]
  simp only [put, ty, mget_mput_same, BitVec.toNat_ofNat]
  exact Nat.mod_eq_of_lt hlt

theorem measurementExtend_meas (s : State) {i : Nat} (h5 : 5 ≤ i) (h7 : i ≤ 7) (j : Nat) : mget 0 (measurementExtend i s).ctl.meas j =
    if j = i then regOf256 (sha256 (bytesOf256 (mget 0 s.ctl.meas i) ++ bytesOf256 s.ctl.mextd)) else mget 0 s.ctl.meas j := by
  unfold measurementExtend
  rw [if_pos (by simp [h5, h7])]
  exact mget_mput _ _ _ _ _

end Sys2Proof.Machine
end

