-- ==== Sys2Proof/Proofs/Attestation.lean ====
section
/-!
Attestation reports and the answers of Smiot (R387, R388, R405).
-/

namespace Sys2Proof.Machine

/-! ## Fields of a list of bytes -/

theorem fieldOf_append_right {l m : List Byte} {off n : Nat} : fieldOf (l ++ m) (l.length + off) n = fieldOf m off n := by
  unfold fieldOf
  rw [List.drop_append, List.drop_eq_nil_of_le (Nat.le_add_right _ _), Nat.add_sub_cancel_left, List.nil_append]

theorem fieldOf_append_left {l m : List Byte} : fieldOf (l ++ m) 0 l.length = ofBytes l := by
  unfold fieldOf
  rw [List.drop_zero, List.take_left]

/-- A number of n bytes at an offset of a list of bytes. -/
theorem fieldOf_number {l m : List Byte} {off n v : Nat} (hl : l.length = off) (hv : v < 256 ^ n) : fieldOf (l ++ (toBytes n v ++ m)) off n = v := by
  have h := fieldOf_append_left (l := toBytes n v) (m := m)
  rw [size_toBytes, ofBytes_toBytes_of_lt hv] at h
  have hr := fieldOf_append_right (l := l) (m := toBytes n v ++ m) (off := 0) (n := n)
  rw [Nat.add_zero, hl] at hr
  exact hr.trans h

theorem fieldOf_take {l : List Byte} {off n k : Nat} (h : off + n ≤ k) : fieldOf (l.take k) off n = fieldOf l off n := by
  unfold fieldOf
  rw [List.drop_take, List.take_take, Nat.min_eq_left (by omega)]

/-- The parts of a list of numbered parts, up to one of them. -/
theorem flatMap_upto_split {α : Type} (f : Nat → List α) {i m : Nat} (h : i < m) : ∃ r, (upto m).flatMap f = (upto i).flatMap f ++ (f i ++ r) := by
  obtain ⟨k, rfl⟩ : ∃ k, m = i + (k + 1) := ⟨m - i - 1, by omega⟩
  have hk : upto (k + 1) = 0 :: span 1 k := rfl
  rw [upto_add, hk, List.flatMap_append, List.map_cons, List.flatMap_cons]
  exact ⟨_, rfl⟩

theorem length_flatMap_upto {α : Type} {f : Nat → List α} {n : Nat} (h : ∀ j, (f j).length = n) (i : Nat) : ((upto i).flatMap f).length = i * n := by
  rw [List.length_flatMap, List.map_congr_left fun j _ => h j, List.map_const', List.sum_replicate, length_upto, smul_eq_mul]

/-! ## Reports (R387) -/

/-- The signed part of a report, before it is padded. -/
def reportParts (s : State) : List Byte :=
  toBytes 4 0x5441584B ++ toBytes 1 1 ++ toBytes 1 0xA0 ++ zeros 2 ++ ((upto 4).flatMap fun i => toBytes 4 (mget 0 s.ctl.svn (i + 1)).toNat)
    ++ zeros 8 ++ toBytes 16 Config.devId.toNat ++ bytesOf256 s.ctl.attn ++ zeros 0x30 ++ measBytes s ++ toBytes 8 (timeNs s)

theorem length_versions (s : State) : ((upto 4).flatMap fun i => toBytes 4 (mget 0 s.ctl.svn (i + 1)).toNat).length = 16 :=
  length_flatMap_upto (fun _ => size_toBytes _ _) 4

theorem length_measBytes (s : State) : (measBytes s).length = 256 := length_flatMap_upto (fun _ => size_toBytes _ _) 8

theorem length_zeros (n : Nat) : (zeros n).length = n := List.length_replicate

/-- A number that stands at an offset of the parts is that field of the report. -/
theorem reportBody_field {s : State} {l m : List Byte} {off n v : Nat} (h : reportParts s = l ++ (toBytes n v ++ m)) (hl : l.length = off) (hv : v < 256 ^ n)
    (hk : off + n ≤ 0x280) : fieldOf (reportBody s) off n = v := by
  refine (fieldOf_take (l := reportParts s ++ zeros (0x280 - (reportParts s).length)) hk).trans ?_
  rw [h, List.append_assoc, List.append_assoc]
  exact fieldOf_number hl hv

theorem reportBody_magic (s : State) : fieldOf (reportBody s) 0 4 = 0x5441584B :=
  reportBody_field (l := []) (by simp only [reportParts, List.append_assoc]; rfl) rfl (by decide) (by decide)

/-- The parts of a report before the device's identity. -/
def reportVersions (s : State) : List Byte :=
  toBytes 4 0x5441584B ++ toBytes 1 1 ++ toBytes 1 0xA0 ++ zeros 2 ++ ((upto 4).flatMap fun i => toBytes 4 (mget 0 s.ctl.svn (i + 1)).toNat) ++ zeros 8

/-- The parts of a report before its measurements. -/
def reportHead (s : State) : List Byte := reportVersions s ++ toBytes 16 Config.devId.toNat ++ bytesOf256 s.ctl.attn ++ zeros 0x30

theorem length_reportVersions (s : State) : (reportVersions s).length = 0x20 := by
  simp only [reportVersions, List.length_append, size_toBytes, length_zeros, length_versions]

theorem length_reportHead (s : State) : (reportHead s).length = 0x80 := by
  simp only [reportHead, bytesOf256, List.length_append, size_toBytes, length_zeros, length_reportVersions]

theorem reportParts_eq (s : State) : reportParts s = reportHead s ++ (measBytes s ++ toBytes 8 (timeNs s)) :=
  List.append_assoc _ _ _

theorem reportBody_device (s : State) : fieldOf (reportBody s) 0x20 16 = Config.devId.toNat :=
  reportBody_field (m := bytesOf256 s.ctl.attn ++ zeros 0x30 ++ (measBytes s ++ toBytes 8 (timeNs s)))
    (by simp only [reportParts_eq, reportHead, List.append_assoc]) (length_reportVersions s) (by have := Config.devId.isLt; omega) (by decide)

theorem reportBody_nonce (s : State) : fieldOf (reportBody s) 0x30 32 = s.ctl.attn.toNat :=
  reportBody_field (l := reportVersions s ++ toBytes 16 Config.devId.toNat) (m := zeros 0x30 ++ (measBytes s ++ toBytes 8 (timeNs s)))
    (by simp only [reportParts_eq, reportHead, bytesOf256, List.append_assoc])
    (by rw [List.length_append, length_reportVersions, size_toBytes]) (by have := s.ctl.attn.isLt; omega) (by decide)

theorem reportBody_measurement (s : State) {i : Nat} (hi : i < 8) : fieldOf (reportBody s) (0x80 + 32 * i) 32 = (mget 0 s.ctl.meas i).toNat := by
  obtain ⟨r, hr⟩ := flatMap_upto_split (fun i => bytesOf256 (mget 0 s.ctl.meas i)) hi
  refine reportBody_field (l := reportHead s ++ (upto i).flatMap fun i => bytesOf256 (mget 0 s.ctl.meas i)) (m := r ++ toBytes 8 (timeNs s)) ?_ ?_ ?_ (by omega)
  · rw [reportParts_eq, measBytes, hr]
    simp only [bytesOf256, List.append_assoc]
  · rw [List.length_append, length_reportHead, length_flatMap_upto (f := fun i => bytesOf256 (mget 0 s.ctl.meas i)) (n := 32) fun _ => size_toBytes _ _]
    omega
  · have := (mget 0 s.ctl.meas i).isLt
    omega

theorem reportBody_time (s : State) : fieldOf (reportBody s) 0x180 8 = timeNs s % 2 ^ 64 := by
  have htime : timeNs s < 2 ^ 64 := Nat.mod_lt _ (by decide)
  rw [Nat.mod_eq_of_lt htime]
  exact reportBody_field (l := reportHead s ++ measBytes s) (m := []) (by rw [List.append_nil, reportParts_eq, List.append_assoc])
    (by rw [List.length_append, length_reportHead, length_measBytes]) (by omega) (by decide)

/-- The beginning of a read. -/
theorem physRead_take (s : State) (pa : Nat) {k n : Nat} (h : k ≤ n) : (physRead s pa n).take k = physRead s pa k := by
  unfold physRead
  rw [span_eq_map, span_eq_map, upto_eq_range, upto_eq_range, ← List.map_take, ← List.map_take, List.take_range, Nat.min_eq_left h]

theorem length_reportBody (s : State) : (reportBody s).length = 0x280 := by
  show ((reportParts s ++ zeros (0x280 - (reportParts s).length)).take 0x280).length = 0x280
  rw [List.length_take, List.length_append, length_zeros]
  omega

theorem attestationReport_eq (s : State) :
    attestationReport 1 s = physWrite (signMsg s (reportBody s)).1 s.ctl.attb.toNat (reportBody s ++ (signMsg s (reportBody s)).2) := by
  unfold attestationReport
  rw [if_pos rfl]

/-- A report asked for stands at its address. -/
theorem attestationReport_writes (s : State) : (attestationReport 1 s).attDone = s.attDone + 1 ∧
    physRead (attestationReport 1 s) s.ctl.attb.toNat 0x280 = (reportBody s).take 0x280 := by
  have hread := physRead_physWriteBy (signMsg s (reportBody s)).1 {} s.ctl.attb.toNat (reportBody s ++ (signMsg s (reportBody s)).2)
  have hlen : 0x280 ≤ (reportBody s ++ (signMsg s (reportBody s)).2).length := by rw [List.length_append, length_reportBody]; omega
  rw [attestationReport_eq, physWrite, ← physRead_take _ _ hlen, hread]
  exact ⟨rfl, List.take_append_of_le_length (by rw [length_reportBody])⟩

end Sys2Proof.Machine
end

