-- ==== Sys2Proof/Proofs/InFieldTest.lean ====
section
/-!
The in-field test of a cluster (R396 to R398).
-/

namespace Sys2Proof.Machine

/-! ## What a request to preempt leaves as it was (R315) -/

/-- All but the teams and the groups is as it was. -/
structure Asked (s t : State) : Prop where
  state : t = { s with teams := t.teams, groups := t.groups }

theorem asked_requestTeam (s : State) (h : Option HeadId) (k : Nat) : Asked s (requestTeam s h k) := by
  unfold requestTeam
  split <;> exact ⟨rfl⟩

theorem Asked.trans {a b c : State} (h : Asked a b) (k : Asked b c) : Asked a c := ⟨k.state.trans (by rw [h.state])⟩

theorem asked_fold (f : Team → Nat) : ∀ (l : List Team) (s : State), Asked s (l.foldl (fun s t => requestTeam s none (f t)) s)
  | [], _ => ⟨rfl⟩
  | t :: l, s => (asked_requestTeam s none (f t)).trans (asked_fold f l _)

/-! ## The operations of FTCMD (R396, R397) -/

section operation

variable {s : State} {c : Nat} (hc : c < Config.nClusters)

theorem clusterOf_modCluster_same (s : State) (c : Nat) (f : Cluster → Cluster) : clusterOf (modCluster s c f) c = f (clusterOf s c) :=
  (clusterOf_modCluster s c f c).trans (if_pos rfl)

include hc in
/-- While another command executes, an operation takes RESULT 2. -/
theorem ftCmd_busy (h : (clusterOf s c).ftState = 1 ∨ (clusterOf s c).ftState = 3) (ok : Nat → Bool) (f : State → State) : ftCmd s c ok f = ftDone s c 2 := by
  unfold ftCmd
  rw [if_neg (by omega)]
  exact if_pos (by simpa using h)

include hc in
/-- In a state that has the operation, it is done. -/
theorem ftCmd_does {ok : Nat → Bool} (h1 : (clusterOf s c).ftState ≠ 1) (h3 : (clusterOf s c).ftState ≠ 3) (hok : ok (clusterOf s c).ftState = true)
    (f : State → State) : ftCmd s c ok f = f s := by
  unfold ftCmd
  rw [if_neg (by omega)]
  dsimp only
  rw [if_neg (by simp [h1, h3]), if_pos hok]

include hc in
theorem offline_starts (h : (clusterOf s c).ftState = 0) : (clusterOf (offline s c) c).ftState = 1 ∧ (clusterOf (offline s c) c).ftResult = 0 := by
  unfold offline
  rw [ftCmd_does hc (by omega) (by omega) (by rw [h]; rfl)]
  extract_lets keep s1
  have hask := (asked_fold Team.key (s1.teams.filter (partOn s1 c)) s1).state
  have hcl : clusterOf (List.foldl (fun s t => requestTeam s none t.key) s1 (s1.teams.filter (partOn s1 c))) c = clusterOf s1 c := by
    unfold clusterOf
    rw [hask]
  rw [hcl, clusterOf_modCluster_same]
  exact ⟨rfl, rfl⟩

/-- The cluster has drained once nothing is left on it. -/
theorem clusterDrainComplete_state {t : State} (h : (clusterOf s c).ftState = 1) (ht : exec (.clusterDrainComplete c) s = .next t) :
    (clusterOf t c).ftState = if clusterEmpty s c then 2 else 1 := by
  obtain rfl := Host.Outcome.next.inj ht
  cases he : clusterEmpty s c with
  | true =>
    rw [if_pos (by rw [h]; rfl), clusterOf_modCluster_same]
    rfl
  | false =>
    rw [if_neg (by rw [h]; decide)]
    exact h

theorem patternOk_free (s : State) : ∃ f, (patternOk s).1 = { s with free := f } := by
  unfold patternOk
  split
  · exact ⟨_, rfl⟩
  · exact ⟨_, rfl⟩

include hc in
theorem test_starts {s1 : State} {b : Bool} (h : (clusterOf s c).ftState = 2 ∨ (clusterOf s c).ftState = 5) (hroom : testRoom s c = true)
    (hp : patternOk s = (s1, b)) : if b = true then (clusterOf (startTest s c) c).ftState = 3 ∧ (clusterOf (startTest s c) c).ftResult = 0
      else (clusterOf (startTest s c) c).ftState = (clusterOf s c).ftState ∧ (clusterOf (startTest s c) c).ftResult = 3 := by
  obtain ⟨f, hf⟩ := patternOk_free s
  rw [hp] at hf
  have hcl : clusterOf s1 c = clusterOf s c := by rw [show s1 = _ from hf]; rfl
  have ht : startTest s c = if b = true then modCluster s1 c fun k => { k with ftState := 3, ftResult := 0 } else ftDone s1 c 3 := by
    unfold startTest
    rw [ftCmd_does hc (by omega) (by omega) (by simpa using h)]
    simp only [hroom, hp, Bool.not_true, Bool.false_eq_true, if_false]
  rw [ht, ← hcl]
  cases b
  · simp only [Bool.false_eq_true, if_false, ftDone, clusterOf_modCluster_same, and_self]
  · simp only [if_true, clusterOf_modCluster_same, and_self]

include hc in
theorem online_returns (h : (clusterOf s c).ftState = 2 ∨ (clusterOf s c).ftState = 4) :
    (clusterOf (online s c) c).ftState = 0 ∧ (clusterOf (online s c) c).ftResult = 0 := by
  unfold online
  rw [ftCmd_does hc (by omega) (by omega) (by simpa using h), clusterOf_modCluster_same]
  exact ⟨rfl, rfl⟩

include hc in
theorem retire_retires (h : (clusterOf s c).ftState = 5) :
    (clusterOf (retireCluster s c) c).ftState = 6 ∧ (clusterOf (retireCluster s c) c).ftResult = 0 := by
  unfold retireCluster
  rw [ftCmd_does hc (by omega) (by omega) (by rw [h]; rfl), clusterOf_modCluster_same]
  exact ⟨rfl, rfl⟩

/-! ## The end of the test (R398) -/

theorem modCores_clusters (f : Nat → Nat) (g : Core → Core) : ∀ (l : List Nat) (s : State), (l.foldl (fun s i => modCore s (f i) g) s).clusters = s.clusters
  | [], _ => rfl
  | _ :: l, _ => modCores_clusters f g l _

/-- Every array of the cluster is zero. -/
theorem clusterOf_zeroArrays (s : State) (c : Nat) : clusterOf (zeroArrays s c) c = { clusterOf s c with sram := [], sramBad := [] } := by
  unfold zeroArrays
  extract_lets inTlb s0 s1
  have hcl : ∀ g, ((upto 5).foldl (fun s i => modCore s (5 * c + i) g) s1).clusters = s1.clusters := fun g => modCores_clusters (fun i => 5 * c + i) g _ _
  exact Eq.trans (b := clusterOf s1 c) (congrArg (fun m => mget ({} : Cluster) m c) (hcl _)) (clusterOf_modCluster_same _ _ _)

theorem clusterTestComplete_cluster {l : List TestFail} (h : (clusterOf s c).ftState = 3)
    (hl : (l.all fun f => unitIn c f.unit && (f.step == 1 || f.step == 2)) = true) : Goes (.clusterTestComplete c l) s fun t =>
      (clusterOf t c).sram = [] ∧ (clusterOf t c).ftState = if l.all fun f => f.spare.isSome then 4 else 5 := by
  have hl : l.all (failIn c) = true := hl
  refine ⟨_, if_neg (by simp [h, hl]), ?_⟩
  dsimp only
  rw [clusterOf_modCluster_same, clusterOf_zeroArrays]
  exact ⟨rfl, rfl⟩

end operation

end Sys2Proof.Machine
end

