-- ==== Sys2Proof/Proofs/Checkpoints.lean ====
section
/-!
The checkpoint: SAVE, LOAD, ABORT, and the ranges of DRAM that it holds (R401 to R404).
-/

namespace Sys2Proof.Machine

/-! ## The end of a checkpoint (R402) -/

/-- A checkpoint that is over has its RESULT, and the dispatcher has resumed. -/
theorem ckDone_ck (s : State) (r : Nat) : (ckDone s r).ck.busy = false ∧ (ckDone s r).ck.result = r ∧ (ckDone s r).paused = false := by
  unfold ckDone
  extract_lets ck1 s1
  split
  · have h := (reports_logError s1 { cls := 0x0D, sev := 1, unit := unitOf 9 1 0 0 0, detail := r }).state
    rw [h]
    exact ⟨rfl, rfl, rfl⟩
  · exact ⟨rfl, rfl, rfl⟩

/-- A RESULT that is no failure is not in the error log. -/
theorem ckDone_quiet {s : State} {r : Nat} (h : [2, 4, 5, 7].contains r = false) :
    ckDone s r = { s with paused := false, ck := { s.ck with busy := false, result := r } } := by
  unfold ckDone
  extract_lets ck1 s1
  rw [if_neg (by rw [h]; decide)]

/-! ## SAVE and ABORT (R402) -/

theorem ckSave_busy {s : State} (h : s.ck.busy = true) : ckSave s = s := by
  unfold ckSave
  extract_lets a s0
  rw [if_pos h]

theorem ckLoad_busy {s : State} (h : s.ck.busy = true) : ckLoad s = s := by
  unfold ckLoad
  extract_lets b s0
  rw [if_pos h]

theorem ckAbort_busy {s : State} (h : s.ck.busy = true) : (ckAbort s).ck.busy = false ∧ (ckAbort s).ck.result = 6 ∧ (ckAbort s).paused = false := by
  unfold ckAbort
  rw [if_pos h]
  exact ckDone_ck (putSome s) 6

/-- SAVE begins: the dispatcher is paused, and nothing has been streamed. -/
theorem ckSave_begins {s : State} (hb : s.ck.busy = false) (ha : s.ctl.ckb.toNat % 4096 = 0) (hlo : quarryBase ≤ s.ctl.ckb.toNat)
    (hhi : s.ctl.ckb.toNat + s.ctl.cklen.toNat ≤ quarryEnd) (hroom : areaHolds s = true) :
    (ckSave s).ck.busy = true ∧ (ckSave s).paused = true ∧ (ckSave s).ck.start = none ∧ (ckSave s).ck.streamed = 0 := by
  unfold ckSave
  extract_lets a ck0 s0
  have hplace : ¬(a % 4096 != 0 || decide (a < quarryBase) || decide (quarryEnd < a + s.ctl.cklen.toNat)) = true := by
    simp only [a, ha, Bool.or_eq_true, bne_self_eq_false, decide_eq_true_eq, Bool.false_eq_true, false_or]
    omega
  rw [if_neg (by rw [hb]; decide), if_neg hplace, if_neg (by rw [hroom]; decide)]
  rw [(asked_fold Team.key (s.teams.filter fun t => t.status == .resident) { s0 with paused := true, ck := { s0.ck with busy := true } }).state]
  exact ⟨rfl, rfl, rfl, rfl⟩

/-! ## The end of SAVE (R402) -/

/-- Step 2 has begun: it was under way, or the device is idle. -/
theorem ckStep2_starts {s : State} (hb : s.ck.busy = true) (h : s.ck.start.isSome = true ∨ deviceIdle s = true) :
    ∃ k, ckStep2 s = { s with ck := k } ∧ k.busy = true ∧ k.start.isSome = true := by
  unfold ckStep2
  split
  · exact ⟨_, rfl, hb, rfl⟩
  · rename_i hno
    cases hs : s.ck.start with
    | some x => exact ⟨s.ck, rfl, hb, by rw [hs]; rfl⟩
    | none =>
      rw [hs] at h
      exact absurd (h.resolve_left (by decide)) fun hi => hno (by simp [hs, hb, hi])

/-- A walk each step of which uses up free values alone. -/
theorem free_foldl {α β : Type} {g : State × β → α → State × β} (hg : ∀ x a, ∃ f, (g x a).1 = { x.1 with free := f }) :
    ∀ (l : List α) (x : State × β), ∃ f, (l.foldl g x).1 = { x.1 with free := f }
  | [], x => ⟨x.1.free, rfl⟩
  | a :: l, x => by
    obtain ⟨f, hf⟩ := hg x a
    obtain ⟨f', hf'⟩ := free_foldl hg l (g x a)
    exact ⟨f', hf'.trans (by rw [hf])⟩

/-- An image of the DRAM uses up free values, and changes nothing else. -/
theorem ckImage_free (s : State) : ∃ f, (ckImage s).1 = { s with free := f } := by
  unfold ckImage
  extract_lets rs bad base lines
  refine free_foldl (fun x a => ?_) lines (s, base)
  obtain ⟨t, m⟩ := x
  dsimp only
  split
  · split
    · exact ⟨t.free, rfl⟩
    · exact chooseFrom_free _ _
  · exact ⟨t.free, rfl⟩

/-- A checkpoint that is written whole has streamed all of its data. -/
theorem ckWrite_ck (s : State) : (ckWrite s).ck.busy = false ∧ (ckWrite s).paused = false ∧ (ckWrite s).ck.result = 0 ∧ (ckWrite s).ck.streamed = ckBytes s / 2 ^ 30 := by
  obtain ⟨f, hf⟩ := ckImage_free s
  unfold ckWrite
  split
  rename_i s1 img h
  rw [h] at hf
  extract_lets bad sums s2 s3 s4
  rw [ckDone_quiet rfl]
  refine ⟨rfl, rfl, rfl, ?_⟩
  show ckBytes s1 / 2 ^ 30 = ckBytes s / 2 ^ 30
  rw [show s1 = _ from hf]
  rfl

/-- SAVE that waits for the device to be idle. -/
theorem ckComplete_waits {s : State} (hstart : s.ck.start = none) (hidle : deviceIdle s = false) : ckComplete s = s := by
  have h2 : ckStep2 s = s := if_neg (by rw [hidle]; simp)
  unfold ckComplete
  rw [h2]
  exact if_pos (by rw [hstart]; rfl)

/-- SAVE that goes on once step 2 has begun: it finds no room, fails, or writes the checkpoint whole. -/
theorem ckComplete_cases {s : State} (hb : s.ck.busy = true) (h : s.ck.start.isSome = true ∨ deviceIdle s = true) (hrun : 2 ∉ s.refused) :
    (areaHolds s = false ∧ ∃ u, ckComplete s = ckDone u 2) ∨
    (areaHolds s = true ∧ ∃ u, ckBytes u = ckBytes s ∧ (ckComplete s = ckDone (putSome u) 7 ∨ ckComplete s = ckWrite u)) := by
  obtain ⟨k, hk, hkb, hks⟩ := ckStep2_starts hb h
  have hgo : ¬(k.start.isNone || !k.busy || s.refused.contains 2) = true := by
    rw [hkb, Option.isNone_eq_false_iff.mpr hks]
    simpa using hrun
  unfold ckComplete
  rw [hk]
  dsimp only
  rw [if_neg hgo, show areaHolds { s with ck := k } = areaHolds s from rfl]
  cases ha : areaHolds s with
  | false => exact .inl ⟨rfl, _, if_pos (by decide)⟩
  | true =>
    refine .inr ⟨rfl, { ({ s with ck := k } : State) with free := s.free + 1 }, rfl, ?_⟩
    rw [if_neg (by decide)]
    by_cases hfails : (Config.freeNat s.free % 2 == 1) = true
    · exact .inl (if_pos hfails)
    · exact .inr (if_neg hfails)

/-- SAVE that ends: its RESULT, and how much of the checkpoint is there. -/
theorem ckComplete_ends {s : State} (hb : s.ck.busy = true) (h : s.ck.start.isSome = true ∨ deviceIdle s = true) (hrun : 2 ∉ s.refused) :
    (ckComplete s).ck.busy = false ∧ (ckComplete s).paused = false ∧ (ckComplete s).ck.result ∈ [0, 2, 7] ∧
      (areaHolds s = false → (ckComplete s).ck.result = 2) ∧ ((ckComplete s).ck.result = 0 → (ckComplete s).ck.streamed = ckBytes s / 2 ^ 30) := by
  rcases ckComplete_cases hb h hrun with ⟨ha, u, hu⟩ | ⟨ha, u, hbytes, hu | hu⟩
  · obtain ⟨hb, hr, hp⟩ := ckDone_ck u 2
    rw [hu, hr]
    exact ⟨hb, hp, by decide, fun _ => rfl, fun h0 => absurd h0 (by decide)⟩
  · obtain ⟨hb, hr, hp⟩ := ckDone_ck (putSome u) 7
    rw [hu, hr, ha]
    exact ⟨hb, hp, by decide, fun h0 => absurd h0 (by decide), fun h0 => absurd h0 (by decide)⟩
  · obtain ⟨hb, hp, hr, hs⟩ := ckWrite_ck u
    rw [hu, hr, hs, hbytes, ha]
    exact ⟨hb, hp, by decide, fun h0 => absurd h0 (by decide), fun _ => rfl⟩

/-! ## The ranges of DRAM (R402) -/

theorem offsetIn_address : ∀ {l : List (Nat × Nat)} {b a o : Nat}, offsetIn b l a = some o →
    b ≤ o ∧ o < b + sumNat (l.map (·.2)) ∧ addressAt l (o - b) = some a
  | (x, n) :: l, b, a, o, h => by
    unfold offsetIn at h
    rw [List.map_cons, sumNat_eq, List.sum_cons, ← sumNat_eq]
    unfold addressAt
    split at h
    case isTrue hin =>
      simp only [Bool.and_eq_true, decide_eq_true_eq] at hin
      obtain rfl := Option.some.inj h
      exact ⟨by omega, by omega, by rw [if_pos (by omega)]; congr 1; omega⟩
    case isFalse =>
      obtain ⟨h1, h2, h3⟩ := offsetIn_address h
      refine ⟨by omega, by omega, ?_⟩
      rw [if_neg (by omega), Nat.sub_sub]
      exact h3

/-- One range lies before another. -/
def Below (x y : Nat × Nat) : Prop := x.1 + x.2 ≤ y.1

/-- In ranges of which each lies before the next, an address has one offset. -/
theorem address_offsetIn : ∀ {l : List (Nat × Nat)} {b a o : Nat}, l.Pairwise Below → addressAt l o = some a → offsetIn b l a = some (b + o) ∧ ∃ x ∈ l, x.1 ≤ a
  | (x, n) :: l, b, a, o, hp, h => by
    obtain ⟨hx, hp⟩ := List.pairwise_cons.mp hp
    unfold addressAt at h
    unfold offsetIn
    split at h
    case isTrue hin =>
      obtain rfl := Option.some.inj h
      refine ⟨?_, _, List.mem_cons_self, Nat.le_add_right _ _⟩
      rw [if_pos (by simp; omega)]
      congr 1
      omega
    case isFalse hout =>
      obtain ⟨h1, y, hy, hya⟩ := address_offsetIn (b := b + n) hp h
      have hbelow := hx y hy
      unfold Below at hbelow
      refine ⟨?_, y, List.mem_cons_of_mem _ hy, hya⟩
      rw [if_neg (by simp; omega), h1]
      congr 1
      omega

/-- The near ranges of one stack. -/
def stackRanges (s : State) (k : Nat) : List (Nat × Nat) := (upto (mget ({} : Stack) s.nearStacks k).slots).map fun j => (slotBase k j, 2 ^ 32)

theorem pairwise_upto (n : Nat) : (upto n).Pairwise (· < ·) := by rw [upto_eq_range]; exact List.pairwise_lt_range

/-- The ranges of a checkpoint ascend. -/
theorem ckRanges_ascend {s : State} (h : ∀ k, k < 12 → (mget ({} : Stack) s.nearStacks k).slots ≤ 16) : (ckRanges s).Pairwise Below := by
  have hmem : ∀ k, k < 12 → ∀ x ∈ stackRanges s k, k * 2 ^ 36 ≤ x.1 ∧ x.1 + x.2 ≤ (k + 1) * 2 ^ 36 := fun k hk x hx => by
    obtain ⟨j, hj, rfl⟩ := List.mem_map.mp hx
    have := mem_upto.mp hj
    have := h k hk
    simp only [slotBase]
    omega
  refine List.pairwise_append.mpr ⟨List.pairwise_flatMap.mpr ⟨fun k _ => ?_, ?_⟩, List.pairwise_singleton _ _, fun x hx y hy => ?_⟩
  · refine List.pairwise_map.mpr ((pairwise_upto _).imp fun {i j} hij => ?_)
    simp only [Below, slotBase]
    omega
  · refine (pairwise_upto 12).imp_of_mem fun {i j} hi hj hij x hx y hy => ?_
    have := hmem i (mem_upto.mp hi) x hx
    have := hmem j (mem_upto.mp hj) y hy
    unfold Below
    omega
  · obtain ⟨k, hk, hx⟩ := List.mem_flatMap.mp hx
    have hk := mem_upto.mp hk
    have := hmem k hk x hx
    obtain rfl := List.mem_singleton.mp hy
    simp only [Below, farBase]
    omega

/-! ## LOAD (R404) -/

/-- The data of an area goes to the addresses of the ranges. -/
theorem takeData_mem {s : State} (hw : Memory.wf s.mem = true) (h : ∀ k, k < 12 → (mget ({} : Stack) s.nearStacks k).slots ≤ 16) {a o : Nat}
    (ho : offsetIn 0 (ckRanges s) a = some o) : mget 0 (takeData s).mem a = mget 0 s.mem (s.ctl.ckb.toNat + 0x1000 + o) := by
  obtain ⟨-, hlt, hadd⟩ := offsetIn_address ho
  have hlt : o < ckBytes s := by rwa [Nat.zero_add] at hlt
  refine mget_putAt_filter (g := fun k => addressAt (ckRanges s) (k - (s.ctl.ckb.toNat + 0x1000)))
    (p := fun k => s.ctl.ckb.toNat + 0x1000 ≤ k && k < s.ctl.ckb.toNat + 0x1000 + ckBytes s)
    (m := s.mem.filter fun (k, _) => !(offsetIn 0 (ckRanges s) k).isSome) hw ?_ ?_ ?_ fun b hb hba => ?_
  · exact (mget_filter 0 (fun k => !(offsetIn 0 (ckRanges s) k).isSome) a s.mem).trans (if_neg (by rw [ho]; simp))
  · simp only [Bool.and_eq_true, decide_eq_true_eq]
    omega
  · rw [Nat.add_sub_cancel_left]
    exact hadd
  · simp only [Bool.and_eq_true, decide_eq_true_eq] at hb
    have hoff := (address_offsetIn (b := 0) (ckRanges_ascend h) hba).1
    rw [ho, Option.some.injEq] at hoff
    omega

/-- LOAD of a package that has served is refused. -/
theorem ckLoad_served {s : State} (hb : s.ck.busy = false) (h : s.ctl.ctxtb ≠ 0 ∨ s.hasServed = true) :
    (ckLoad s).ck.result = 1 ∧ (ckLoad s).mem = s.mem := by
  unfold ckLoad
  extract_lets b ck0 s0
  rw [if_neg (by rw [hb]; decide), if_pos (by simpa using h), ckDone_quiet rfl]
  exact ⟨rfl, rfl⟩

section load

variable {s : State} (hb : s.ck.busy = false) (hc : s.ctl.ctxtb = 0) (hs : s.hasServed = false)

include hb hc hs

/-- LOAD of another package's checkpoint. -/
theorem ckLoad_misfits (h : headerFits s (physRead s s.ctl.ckb.toNat 0x1000) = false) : (ckLoad s).ck.result = 5 := by
  unfold ckLoad
  extract_lets b ck0 s0
  rw [if_neg (by rw [hb]; decide), if_neg (by simp [hc, hs]), if_pos (by rw [h]; rfl)]
  exact (ckDone_ck s0 5).2.1

/-- LOAD of a checkpoint whose header is not whole. -/
theorem ckLoad_broken (h : headerFits s (physRead s s.ctl.ckb.toNat 0x1000) = true) (hk : headerOk (physRead s s.ctl.ckb.toNat 0x1000) = false) :
    (ckLoad s).ck.result = 1 ∧ (ckLoad s).mem = s.mem := by
  unfold ckLoad
  extract_lets b ck0 s0
  rw [if_neg (by rw [hb]; decide), if_neg (by simp [hc, hs]), if_neg (by rw [h]; decide), if_pos (by rw [hk]; rfl), ckDone_quiet rfl]
  exact ⟨rfl, rfl⟩

/-- LOAD of a whole checkpoint of this package. -/
theorem ckLoad_loads {sums : List W32} {bad : List Nat} (h : headerFits s (physRead s s.ctl.ckb.toNat 0x1000) = true)
    (hk : headerOk (physRead s s.ctl.ckb.toNat 0x1000) = true) (hi : readIndex s (fieldOf (physRead s s.ctl.ckb.toNat 0x1000) 0x38 8) = (sums, bad)) :
    ckLoad s = ckDone (((upto (courseCount s)).filter (courseBad s sums)).foldl (fun s i => poisonOffsets s (span (8192 * i) 8192))
        (poisonOffsets (takeData { s with ck := { s.ck with streamed := 0 } }) bad))
      (if ((upto (courseCount s)).filter (courseBad s sums)).isEmpty then 0 else 4) := by
  unfold ckLoad
  extract_lets b ck0 s0
  rw [if_neg (by rw [hb]; decide), if_neg (by simp [hc, hs]), if_neg (by rw [h]; decide), if_neg (by rw [hk]; decide)]
  have hi : readIndex s0 (fieldOf b 0x38 8) = (sums, bad) := hi
  rw [hi]
  rfl

end load

end Sys2Proof.Machine
end

