-- ==== Sys2Proof/Proofs/PackageEvents.lean ====
section
/-!
The clock, the thermal trip, and the events of the package (R383 to R407).
-/

namespace Sys2Proof.Machine

/-! ## The clock and the temperature (R407) -/

/-- A thermal event leaves what the sensors read. -/
theorem logThermal_ctl (s : State) (sev : Nat) : (logThermal s sev).ctl.fclk = s.ctl.fclk ∧ (logThermal s sev).ctl.pwrnow = s.ctl.pwrnow ∧
    (logThermal s sev).ctl.tempmax = s.ctl.tempmax ∧ (logThermal s sev).ctl.clkAt = s.ctl.clkAt := by
  unfold logThermal
  extract_lets n
  rw [(reports_logError { s with free := s.free + 1 } _).ctl]
  exact ⟨rfl, rfl, rfl, rfl⟩

/-- The state with a new clock, and what the sensors read. -/
def sensed (power temp : BitVec 16) (f : Nat) (s : State) : State :=
  { s with ctl := { s.ctl with pwrnow := power.setWidth 32, tempmax := temp.setWidth 32, fclk := BitVec.ofNat 32 f, clkAt := s.timeFs } }

theorem clockThrottleStep_steps {s : State} {power temp : BitVec 16} {f : Nat} (hf : f = nextClock (s.ctl.pwrcap.toNat % 65536) power.toNat temp.toNat s.ctl.fclk.toNat)
    (h : s.ctl.clkAt + throttleFs ≤ s.timeFs) : Goes (.clockThrottleStep power temp) s fun t => t.ctl.fclk = BitVec.ofNat 32 f ∧
      t.ctl.pwrnow = power.setWidth 32 ∧ t.ctl.tempmax = temp.setWidth 32 ∧ t.ctl.clkAt = s.timeFs := by
  have he : exec (.clockThrottleStep power temp) s = .next (if f < s.ctl.fclk.toNat then logThermal (sensed power temp f s) 0 else sensed power temp f s) := by
    subst hf
    exact if_neg (Nat.not_lt.mpr h)
  refine ⟨_, he, ?_⟩
  split
  · exact logThermal_ctl (sensed power temp f s) 0
  · exact ⟨rfl, rfl, rfl, rfl⟩

theorem clockThrottleStep_early {s : State} (power temp : BitVec 16) (h : s.timeFs < s.ctl.clkAt + throttleFs) :
    exec (.clockThrottleStep power temp) s = .next s := if_pos h

theorem thermalTrip_cool {s : State} {temp : BitVec 16} (h : temp.toNat < 920) : exec (.thermalTrip temp) s = .next s := if_pos h

theorem thermalTrip_trips {s : State} {temp : BitVec 16} (h : 920 ≤ temp.toNat) : Goes (.thermalTrip temp) s fun t => t.held = true ∧ t.groups = [] :=
  ⟨_, if_neg (Nat.not_lt.mpr h), rfl, rfl⟩

/-! ## The events -/

/-- Smiot answers while its firmware runs. -/
theorem smiotSays_runs {s : State} (h : 4 ∉ s.refused) (k : Nat) (bs : List Byte) : smiotSays s k bs = { s with out := .smiot k bs :: s.out } :=
  if_neg (by simpa using h)

theorem pldmFirmwareUpdate_stages {s : State} (h : 4 ∉ s.refused) {ty : Nat} (h1 : 1 ≤ ty) (h4 : ty ≤ 4) (im : List Byte) :
    exec (.pldmFirmwareUpdate ty im) s = .next { s with staged := mput [] s.staged ty im } :=
  congrArg Host.Outcome.next (if_pos (by simpa [h1, h4] using h))

/-- What the answers of Smiot are. -/
theorem smiot_answers {s : State} (h : 4 ∉ s.refused) :
    exec .getCertificate s = .next { s with out := .smiot 10 Config.certChain :: s.out } ∧
      (∀ nonce, Goes (.challenge nonce) s fun t => t.attDone = s.attDone + 1 ∧ ∃ bs, t.out = .smiot 11 bs :: s.out) ∧
      exec .getMeasurements s = .next { s with out := .smiot 12 ((upto 8).flatMap fun i => BitVec.ofNat 8 (i + 1) :: bytesOf256 (mget 0 s.ctl.meas i)) :: s.out } ∧
      (Goes .pldmDiscovery s fun t => ∃ bs, t.out = .smiot 0 ([0, 2, 5] ++ bs) :: s.out) ∧
      (∀ k, k < 12 → exec (.pldmSensorRead k) s = .next { s with out := .smiot 3 (toBytes 8 (sensorValue s k)) :: s.out }) ∧
      (∀ ty im, 1 ≤ ty → ty ≤ 4 → exec (.pldmFirmwareUpdate ty im) s = .next { s with staged := mput [] s.staged ty im }) := by
  refine ⟨congrArg Host.Outcome.next (smiotSays_runs h _ _), fun nonce => ?_, congrArg Host.Outcome.next (smiotSays_runs h _ _), ?_, fun k hk => ?_,
    fun ty im h1 h4 => pldmFirmwareUpdate_stages h h1 h4 im⟩
  · exact ⟨_, congrArg Host.Outcome.next (smiotSays_runs (s := { s with attDone := s.attDone + 1 }) h 11 _), rfl, _, rfl⟩
  · exact ⟨_, congrArg Host.Outcome.next (smiotSays_runs h 0 _), _, rfl⟩
  · exact congrArg Host.Outcome.next ((if_pos hk).trans (smiotSays_runs h _ _))

/-- The operations of FTCMD, and what ends them. -/
theorem inFieldTest_states {s : State} {c : Nat} (hc : c < Config.nClusters) {st : Nat} (hst : st = (clusterOf s c).ftState) :
    (st = 0 → Goes (.offline c) s fun t => (clusterOf t c).ftState = 1 ∧ (clusterOf t c).ftResult = 0) ∧
      (st = 1 ∨ st = 3 → ∀ i ∈ [Instr.offline c, .test c, .online c, .retire c], exec i s = .next (ftDone s c 2)) ∧
      (st = 1 → Goes (.clusterDrainComplete c) s fun t => (clusterOf t c).ftState = if clusterEmpty s c then 2 else 1) ∧
      (∀ s1 b, st = 2 ∨ st = 5 → testRoom s c = true → patternOk s = (s1, b) → Goes (.test c) s fun t =>
        if b = true then (clusterOf t c).ftState = 3 ∧ (clusterOf t c).ftResult = 0 else (clusterOf t c).ftState = st ∧ (clusterOf t c).ftResult = 3) ∧
      (∀ l, st = 3 → (l.all fun f => unitIn c f.unit && (f.step == 1 || f.step == 2)) = true → Goes (.clusterTestComplete c l) s fun t => (clusterOf t c).sram = [] ∧
        (clusterOf t c).ftState = if l.all fun f => f.spare.isSome then 4 else 5) ∧
      (st = 2 ∨ st = 4 → Goes (.online c) s fun t => (clusterOf t c).ftState = 0 ∧ (clusterOf t c).ftResult = 0) ∧
      (st = 5 → Goes (.retire c) s fun t => (clusterOf t c).ftState = 6 ∧ (clusterOf t c).ftResult = 0) := by
  subst hst
  refine ⟨fun h => ⟨_, rfl, offline_starts hc h⟩, fun h i hi => ?_, fun h => ⟨_, rfl, clusterDrainComplete_state h rfl⟩,
    fun s1 b h hroom hp => ⟨_, rfl, test_starts hc h hroom hp⟩, fun l h hl => clusterTestComplete_cluster h hl, fun h => ⟨_, rfl, online_returns hc h⟩,
    fun h => ⟨_, rfl, retire_retires hc h⟩⟩
  simp only [List.mem_cons, List.not_mem_nil, or_false] at hi
  rcases hi with rfl | rfl | rfl | rfl <;> exact congrArg Host.Outcome.next (ftCmd_busy hc h _ _)

/-- LOAD by its header: another package's, broken, or whole. -/
theorem load_results {s : State} {b : List Byte} {sums : List W32} {bad : List Nat} (hh : b = physRead s s.ctl.ckb.toNat 0x1000) (hb : s.ck.busy = false)
    (hc : s.ctl.ctxtb = 0) (hs : s.hasServed = false) (hi : readIndex s (fieldOf b 0x38 8) = (sums, bad)) :
    (headerFits s b = false → Goes .load s fun t => t.ck.result = 5) ∧
      (headerFits s b = true → headerOk b = false → Goes .load s fun t => t.ck.result = 1 ∧ t.mem = s.mem) ∧
      (headerFits s b = true → headerOk b = true → Goes .load s fun t => t.ck.busy = false ∧
        t.ck.result = (if (upto (courseCount s)).any (courseBad s sums) then 4 else 0) ∧
        (t.ck.result = 0 → bad = [] → Memory.wf s.mem = true → (∀ k, k < 12 → (mget ({} : Stack) s.nearStacks k).slots ≤ 16) →
          ∀ a o, offsetIn 0 (ckRanges s) a = some o → mget 0 t.mem a = mget 0 s.mem (s.ctl.ckb.toNat + 0x1000 + o))) := by
  subst hh
  refine ⟨fun h => ⟨_, rfl, ckLoad_misfits hb hc hs h⟩, fun h hk => ⟨_, rfl, ckLoad_broken hb hc hs h hk⟩, fun h hk => ⟨_, rfl, ?_⟩⟩
  rw [ckLoad_loads hb hc hs h hk hi]
  have hempty : ((upto (courseCount s)).filter (courseBad s sums)).isEmpty = !(upto (courseCount s)).any (courseBad s sums) := by
    rw [Bool.eq_iff_iff]
    simp [List.filter_eq_nil_iff]
  rw [hempty]
  cases hany : (upto (courseCount s)).any (courseBad s sums) with
  | true =>
    refine ⟨(ckDone_ck _ _).1, (ckDone_ck _ _).2.1, fun h0 => ?_⟩
    rw [(ckDone_ck _ _).2.1] at h0
    exact absurd h0 (by decide)
  | false =>
    refine ⟨(ckDone_ck _ _).1, (ckDone_ck _ _).2.1, fun _ hbad hw hslots a o ho => ?_⟩
    rw [hany] at hempty
    rw [List.isEmpty_iff.mp hempty, hbad, show (if (!false) = true then 0 else 4 : Nat) = 0 from rfl, ckDone_quiet rfl]
    exact takeData_mem (s := { s with ck := { s.ck with streamed := 0 } }) hw hslots ho

/-- Settles O54. -/
theorem packageEventsFollowTheirChapters : Obligations.PackageEventsFollowTheirChapters := by
  intro s c hc
  refine ⟨⟨_, rfl, packageReset_clears s⟩, fun l => ⟨_, rfl, rfl, rfl, fun a => powerLoss_mem l s⟩, fun hw => ⟨_, rfl, orderlyShutdown_keeps hw rfl⟩,
    fun v h1 h4 hn => ⟨_, rfl, svnWrite_raises s h1 h4 hn⟩, fun i h5 h7 => ⟨_, rfl, measurementExtend_meas s h5 h7⟩, fun v hv => ?_,
    ⟨_, rfl, attestationReport_writes s⟩,
    ⟨reportBody_magic s, reportBody_device s, reportBody_nonce s, fun i => reportBody_measurement s, reportBody_time s⟩, smiot_answers,
    fun st => inFieldTest_states hc, fun hb => ⟨?_, ?_, _, rfl, ckAbort_busy hb⟩, fun hb ha hlo hhi hroom => ⟨_, rfl, ckSave_begins hb ha hlo hhi hroom⟩,
    fun _ hstart hidle => ?_, fun hb h hrun => ⟨_, rfl, ckComplete_ends hb h hrun⟩, fun hb h => ⟨_, rfl, ckLoad_served hb h⟩,
    fun b sums bad hh hb hctx hs hi => load_results hh hb hctx hs hi,
    fun p tm f hf => ⟨clockThrottleStep_early p tm, clockThrottleStep_steps hf, thermalTrip_cool, thermalTrip_trips⟩⟩
  · exact congrArg Host.Outcome.next (if_neg hv)
  · exact congrArg Host.Outcome.next (ckSave_busy hb)
  · exact congrArg Host.Outcome.next (ckLoad_busy hb)
  · exact congrArg Host.Outcome.next (ckComplete_waits hstart hidle)

end Sys2Proof.Machine
end

