-- ==== Sys2Proof/Proofs/FabricPaths.lean ====
section
/-!
Paths of the fabric endpoint, and packets that are sent again on them (R378, R379, R380).
-/

namespace Sys2Proof.Machine

/-! ## Paths -/

theorem mem_livePaths {s : State} {d : BitVec 20} {x : Nat × Nat} (h : x ∈ livePaths s d) : pathLive s d x.1 x.2 = true := by
  obtain ⟨_, _, hk⟩ := List.mem_flatMap.mp h
  exact (List.mem_filter.mp hk).2

/-- Which paths are live depends on the endpoint's registers and the records of paths only. -/
theorem pathLive_congr {s t : State} (hf : t.ctl.fport = s.ctl.fport) (hg : t.ctl.fcfg = s.ctl.fcfg) (hp : t.paths = s.paths) (d : BitVec 20) (port en : Nat) :
    pathLive t d port en = pathLive s d port en := by
  unfold pathLive portUp pathCount pathRec
  rw [hf, hg, hp]

theorem livePaths_congr {s t : State} (hf : t.ctl.fport = s.ctl.fport) (hg : t.ctl.fcfg = s.ctl.fcfg) (hp : t.paths = s.paths) (d : BitVec 20) :
    livePaths t d = livePaths s d := by
  have hl := pathLive_congr hf hg hp d
  unfold livePaths pathCount
  rw [hg]
  simp only [hl]

/-- The search for the first path ends with what it began with, or with a path of its list. -/
theorem firstPath_step (l : List (Nat × Nat)) : ∀ (b : Option (Nat × Nat)) (x : Nat × Nat), l.foldl (fun b p => match b with
    | some q => if pathPlace p < pathPlace q then some p else some q
    | none => some p) b = some x → b = some x ∨ x ∈ l := by
  induction l with
  | nil => exact fun b x h => .inl h
  | cons p l ih =>
    intro b x h
    rcases ih _ x h with hb | hl
    · cases b with
      | none => exact .inr (by rw [Option.some.inj hb]; exact List.mem_cons_self)
      | some q =>
        dsimp only at hb
        split at hb
        · exact .inr (by rw [Option.some.inj hb]; exact List.mem_cons_self)
        · exact .inl hb
    · exact .inr (List.mem_cons_of_mem _ hl)

theorem firstPath_mem {l : List (Nat × Nat)} {x : Nat × Nat} (h : firstPath l = some x) : x ∈ l :=
  (firstPath_step l none x h).resolve_left nofun

theorem pathAfter_mem {s : State} {d : BitVec 20} {last x : Nat × Nat} (h : pathAfter s d last = some x) : x ∈ livePaths s d := by
  unfold pathAfter at h
  dsimp only at h
  split at h
  next p hp => exact Option.some.inj h ▸ (List.mem_filter.mp (firstPath_mem hp)).1
  · exact firstPath_mem h

theorem sendPaths_live {s : State} {op : FabOp} {x : Nat × Nat} (h : x ∈ sendPaths s op) : pathLive s op.dest x.1 x.2 = true := by
  unfold sendPaths at h
  split at h
  · exact mem_livePaths h
  · exact mem_livePaths (pathAfter_mem (Option.mem_toList.mp h))

theorem resendPaths_sub {s : State} {p : OutPkt} {x : Nat × Nat} (h : x ∈ resendPaths s p) : x ∈ livePaths s p.dest := by
  unfold resendPaths at h
  dsimp only at h
  split at h
  · exact h
  · exact (List.mem_filter.mp h).1

theorem resendPaths_eq_nil {s : State} {p : OutPkt} : resendPaths s p = [] ↔ livePaths s p.dest = [] := by
  unfold resendPaths
  dsimp only
  split
  · rfl
  next h => exact ⟨fun h' => absurd (List.isEmpty_iff.mpr h') h, fun h' => by rw [h']; rfl⟩

/-! ## The record of a path -/

/-- A path has the record that it was given, and none once it was forgotten. -/
theorem pathRec_setPath (s : State) (d : BitVec 20) (port en : Nat) (r : Option PathRec) (hr : ∀ x, r = some x → x.dest = d ∧ x.port = port ∧ x.entropy = en) :
    pathRec (setPath s d port en r) d port en = r := by
  unfold pathRec setPath
  rw [firstWhere_append]
  cases r with
  | some x =>
    obtain ⟨h1, h2, h3⟩ := hr x rfl
    simp [firstWhere, h1, h2, h3]
  | none => exact firstWhere_none _ _ fun x hx => (Bool.not_eq_true' _).mp (List.mem_filter.mp hx).2

theorem pathRec_fields {s : State} {d : BitVec 20} {port en : Nat} {r : PathRec} (h : pathRec s d port en = some r) : r.dest = d ∧ r.port = port ∧ r.entropy = en := by
  simpa [and_assoc] using (firstWhere_mem _ _ _ h).2

/-! ## Packets that are sent again -/

/-- The packet as it is sent again on a path. -/
def resent (s : State) (p : OutPkt) (path : Nat × Nat) : OutPkt :=
  { p with port := path.1, entropy := path.2, resends := p.resends + 1, sentAt := s.timeFs }

theorem resend_eq (s : State) (p : OutPkt) (path : Nat × Nat) :
    resend s p path = { s with pkts := mapWhere (fun x => x.no == p.no) (fun _ => resent s p path) s.pkts
                               out := .packet p.stream p.seq p.dest p.rpa p.data p.bad p.pennant p.puts :: s.out } := rfl

theorem resent_mem {s t : State} {p : OutPkt} {path : Nat × Nat} (hp : p ∈ s.pkts) (ht : t.pkts = (resend s p path).pkts) : resent s p path ∈ t.pkts := by
  rw [ht, resend_eq]
  exact List.mem_map.mpr ⟨p, hp, if_pos (beq_self_eq_true p.no)⟩

theorem nth_mem_cons {α : Type} (x : α) : ∀ (l : List α) (i : Nat), nth x l i = x ∨ nth x l i ∈ l
  | [], _ => .inl rfl
  | _ :: _, 0 => .inr List.mem_cons_self
  | y :: l, i + 1 => (nth_mem_cons x l i).imp id (List.mem_cons_of_mem y)

/-- A free choice among some elements is one of them. -/
theorem chooseFrom_some {α : Type} (s : State) {l : List α} (h : l ≠ []) : ∃ x ∈ l, ∃ f, chooseFrom s l = ({ s with free := f }, some x) :=
  match l with
  | [] => absurd rfl h
  | [x] => ⟨x, List.mem_cons_self, s.free, rfl⟩
  | x :: _ :: _ => ⟨_, (nth_mem_cons x _ _).elim (fun e => by rw [e]; exact List.mem_cons_self) id, s.free + 1, rfl⟩

theorem resendOn_named {s : State} {p : OutPkt} {path : Nat × Nat} (h : path ∈ resendPaths s p) : resendOn s p path = resend s p path :=
  if_pos (List.contains_iff_mem.mpr h)

/-- With a live path the packet leaves on one of those allowed. -/
theorem resendOn_live {s : State} {p : OutPkt} (path : Nat × Nat) (h : livePaths s p.dest ≠ []) :
    ∃ x ∈ resendPaths s p, ∃ f, resendOn s p path = resend { s with free := f } p x := by
  by_cases hc : path ∈ resendPaths s p
  · exact ⟨path, hc, s.free, resendOn_named hc⟩
  · have hne : resendPaths s p ≠ [] := fun h' => h (resendPaths_eq_nil.mp h')
    obtain ⟨x, hx, f, hch⟩ := chooseFrom_some s hne
    refine ⟨x, hx, f, ?_⟩
    unfold resendOn
    rw [if_neg (by rwa [List.contains_iff_mem]), hch]

/-- With no live path its timer starts again. -/
theorem resendOn_none {s : State} {p : OutPkt} (path : Nat × Nat) (h : livePaths s p.dest = []) :
    resendOn s p path = { s with pkts := mapWhere (fun x => x.no == p.no) (fun x => { x with sentAt := s.timeFs }) s.pkts } := by
  unfold resendOn
  rw [resendPaths_eq_nil.mpr h]
  rfl

/-- A packet that misses its acknowledgement changes the records of paths only. -/
theorem missed_eq (s : State) (p : OutPkt) : ∃ l, (if portUp s p.port then missPath s p.dest p.port p.entropy else s) = { s with paths := l } := by
  split
  · exact ⟨_, rfl⟩
  · exact ⟨s.paths, rfl⟩

theorem outPkt_mem {s : State} {n : Nat} {p : OutPkt} (h : outPkt s n = some p) : p ∈ s.pkts ∧ p.no = n := by
  obtain ⟨hm, hn⟩ := firstWhere_mem _ _ _ h
  exact ⟨hm, by simpa using hn⟩

end Sys2Proof.Machine
end

