-- ==== Sys2Proof/Proofs/FabricSends.lean ====
section
/-!
Packets that leave, are acknowledged, sent again or abandoned (R239, R377, R379, R380, R392).
-/

namespace Sys2Proof.Machine

/-! ## What settling a team leaves of the endpoint -/

/-- The endpoint's operations, its packets and the fault records stand as they were. -/
structure EndpointKept (s t : State) : Prop where
  ops : t.fabOps = s.fabOps
  pkts : t.pkts = s.pkts
  faults : t.faultQ = s.faultQ

theorem EndpointKept.refl (s : State) : EndpointKept s s := ⟨rfl, rfl, rfl⟩

theorem EndpointKept.trans {a b c : State} (h : EndpointKept a b) (k : EndpointKept b c) : EndpointKept a c :=
  ⟨k.ops.trans h.ops, k.pkts.trans h.pkts, k.faults.trans h.faults⟩

theorem Reports.endpoint {s t : State} (h : Reports s t) : EndpointKept s t := by rw [h.state]; exact ⟨rfl, rfl, rfl⟩

/-- A block record is one write, or one more that waits. -/
theorem writeBlock_traffic (s : State) (t : Team) : ∃ m l, Traffic s m ∧ writeBlock s t = { m with blocks := l } := by
  unfold writeBlock putBlock
  extract_lets l
  split
  · exact ⟨s, s.blocks, .refl s, rfl⟩
  · split
    next s1 h => exact ⟨s1, _, (traffic_writeAt s _ _ _ _).of_fst h, rfl⟩
    next s1 _ _ h => exact ⟨s1, s1.blocks, (traffic_writeAt s _ _ _ _).of_fst h, rfl⟩

theorem endpointKept_retireTeam (s : State) (k : Nat) : EndpointKept s (retireTeam s k) := by
  unfold retireTeam
  extract_lets s1
  have h1 : EndpointKept s s1 := (Traffic.fold traffic_landCourse _ s).reports.endpoint
  exact h1.trans ⟨rfl, rfl, rfl⟩

theorem endpointKept_writeBlock (s : State) (t : Team) : EndpointKept s (writeBlock s t) := by
  obtain ⟨m, l, hm, he⟩ := writeBlock_traffic s t
  rw [he]
  exact hm.reports.endpoint.trans ⟨rfl, rfl, rfl⟩

theorem endpointKept_settleTeam (s : State) (k : Nat) : EndpointKept s (settleTeam s k) := by
  unfold settleTeam
  split
  · exact .refl s
  next t _ =>
    split
    · exact .refl s
    · extract_lets s1
      have h1 : EndpointKept s s1 := by
        show EndpointKept s (if _ then _ else _)
        split
        · exact .refl s
        · exact (endpointKept_writeBlock s t).trans ⟨rfl, rfl, rfl⟩
      split
      · exact h1
      · exact h1.trans (endpointKept_retireTeam s1 k)

/-! ## Operations that are acknowledged or abandoned -/

theorem fabOp_setFabOp (s : State) (n : Nat) (op : Option FabOp) : fabOp (setFabOp s n op) n = op := mget_mput_same ..

theorem fabOp_mem {s : State} {n : Nat} {op : FabOp} (h : fabOp s n = some op) : (n, some op) ∈ s.fabOps := by
  unfold fabOp at h
  generalize s.fabOps = m at h ⊢
  induction m with
  | nil => exact nomatch h
  | cons x m ih =>
    unfold mget at h
    split at h
    next hk => exact List.mem_cons.mpr (.inl (by rw [← h, hk]))
    · exact List.mem_cons_of_mem _ (ih h)

/-- The acknowledgement takes the packet away, and ends an operation whose bytes have all arrived. -/
theorem execFabricAckReceive_effect {s : State} {n : Nat} {p : OutPkt} {op : FabOp} (hp : outPkt s n = some p) (ho : fabOp s p.op = some op) {k : Nat}
    (hk : k = op.acked + if p.pennant.isSome then 1 else p.data.length) :
    Goes (.fabricAckReceive n) s fun t => t.pkts = (s.pkts.filter fun x => x.no != n) ∧
      fabOp t p.op = if (if op.pennant.isSome then 1 else op.len) ≤ k then none else some { op with acked := k } := by
  subst hk
  unfold Goes
  show ∃ t, execFabricAckReceive n s = .next t ∧ _
  unfold execFabricAckReceive
  rw [hp]
  dsimp -zeta only
  extract_lets live s1 s2
  obtain ⟨l, hl⟩ : ∃ l, s1 = { s with paths := l } := by
    cases hv : live
    · exact ⟨s.paths, if_neg (by rw [hv]; exact nofun)⟩
    · exact ⟨_, if_pos hv⟩
  have ho2 : fabOp s2 p.op = some op := (congrArg (fun t => fabOp t p.op) hl).trans ho
  have hp2 : s2.pkts = s.pkts.filter fun x => x.no != n := congrArg (fun t => t.pkts.filter fun x => x.no != n) hl
  rw [ho2]
  by_cases hw : (if op.pennant.isSome then 1 else op.len) ≤ op.acked + if p.pennant.isSome then 1 else p.data.length
  · refine ⟨_, congrArg _ (if_pos hw), ?_⟩
    rw [if_pos hw]
    have hs := endpointKept_settleTeam (setFabOp s2 p.op none) op.team
    exact ⟨hs.pkts.trans hp2, (congrArg (fun m => mget none m p.op) hs.ops).trans (fabOp_setFabOp s2 p.op none)⟩
  · refine ⟨_, congrArg _ (if_neg hw), ?_⟩
    rw [if_neg hw]
    exact ⟨hp2, fabOp_setFabOp ..⟩

/-- The operation is gone and its fault is filed. -/
theorem abandonOp_effect {s : State} {n : Nat} {op : FabOp} (h : fabOp s n = some op) (cause : Nat) (va tok : W64) (kind : Nat) :
    fabOp (abandonOp s n cause va tok kind) n = none ∧
    ∃ f, (abandonOp s n cause va tok kind).faultQ = s.faultQ ++ [f] ∧ f.cause = BitVec.ofNat 8 cause ∧ f.va = va ∧ f.token = tok := by
  unfold abandonOp
  rw [h]
  dsimp -zeta only
  extract_lets t s1 gone dropped s2
  have hs := endpointKept_settleTeam (modTeam s2 op.team fun t => { t with broken := if t.broken.contains op.dest then t.broken else op.dest :: t.broken }) op.team
  have hd : dropped.contains n = true :=
    List.contains_iff_mem.mpr (List.mem_filterMap.mpr ⟨(n, some op), fabOp_mem h, if_pos (by simp [gone])⟩)
  refine ⟨?_, ⟨_, hs.faults, rfl, rfl, rfl⟩⟩
  unfold fabOp
  rw [hs.ops]
  show mget none (s1.fabOps.filter fun (k, _) => !dropped.contains k) n = none
  rw [mget_filter none (fun k => !dropped.contains k), hd]
  rfl

theorem failOp_effect {s t : State} {n : Nat} {op : FabOp} (h : fabOp s n = some op) {l : List PathRec} (ht : t = { s with paths := l }) :
    fabOp (failOp t n) n = none ∧
    ∃ f, (failOp t n).faultQ = s.faultQ ++ [f] ∧ f.cause = 0x16 ∧ f.va = op.va ∧ f.token = op.dest.setWidth 64 := by
  subst ht
  have h' : fabOp { s with paths := l } n = some op := h
  unfold failOp
  rw [h']
  exact abandonOp_effect h' 0x16 op.va (op.dest.setWidth 64) 1

/-! ## The timer of a packet -/

section timer

variable {s s1 : State} {n port en : Nat} {p : OutPkt} (hp : outPkt s n = some p) (hs : s1 = if portUp s p.port then missPath s p.dest p.port p.entropy else s)

include hp hs

theorem execFabricRtoExpiry_due (hd : p.sentAt + rtoFs s ≤ s.timeFs) :
    exec (.fabricRtoExpiry n port en) s = .next (if retryLimit s ≤ p.resends then failOp s1 p.op else resendOn s1 p (port, en)) := by
  show execFabricRtoExpiry n port en s = _
  unfold execFabricRtoExpiry
  rw [hp, hs]
  exact if_neg (Nat.not_lt.mpr hd)

theorem execFabricRtoExpiry_resends (hd : p.sentAt + rtoFs s ≤ s.timeFs) (hr : p.resends < retryLimit s) :
    exec (.fabricRtoExpiry n port en) s = .next (resendOn s1 p (port, en)) := by
  rw [execFabricRtoExpiry_due hp hs hd, if_neg (Nat.not_le.mpr hr)]

/-- The packet leaves again on a live path where there is one; without one its timer starts again. -/
theorem execFabricRtoExpiry_effect (hd : p.sentAt + rtoFs s ≤ s.timeFs) (hr : p.resends < retryLimit s) :
    ((port, en) ∈ resendPaths s1 p → ∀ q, q = { p with port := port, entropy := en, resends := p.resends + 1, sentAt := s.timeFs } →
      Goes (.fabricRtoExpiry n port en) s fun t => t.paths = s1.paths ∧ t.pkts = mapWhere (fun x => x.no == p.no) (fun _ => q) s.pkts ∧
        t.out = .packet p.stream p.seq p.dest p.rpa p.data p.bad p.pennant p.puts :: s.out) ∧
    (livePaths s1 p.dest ≠ [] → Goes (.fabricRtoExpiry n port en) s fun t => ∃ q ∈ t.pkts, q.no = p.no ∧ q.resends = p.resends + 1 ∧
      pathLive s1 p.dest q.port q.entropy = true) ∧
    (livePaths s1 p.dest = [] → Goes (.fabricRtoExpiry n port en) s fun t => t.out = s.out ∧
      t.pkts = mapWhere (fun x => x.no == p.no) (fun x => { x with sentAt := s.timeFs }) s.pkts) := by
  have hx := execFabricRtoExpiry_resends (port := port) (en := en) hp hs hd hr
  obtain ⟨l, hl⟩ := missed_eq s p
  rw [← hs] at hl
  have hmem : p ∈ s1.pkts := by rw [hl]; exact (outPkt_mem hp).1
  refine ⟨fun hin q hq => ⟨_, hx, ?_⟩, fun hlive => ⟨_, hx, ?_⟩, fun hnone => ⟨_, hx, ?_⟩⟩
  · rw [resendOn_named hin, resend_eq, hq, hl]
    exact ⟨rfl, rfl, rfl⟩
  · obtain ⟨x, hin, f, hf⟩ := resendOn_live (port, en) hlive
    exact ⟨resent s1 p x, resent_mem hmem (by rw [hf]; rfl), rfl, rfl, mem_livePaths (resendPaths_sub hin)⟩
  · rw [resendOn_none _ hnone, hl]
    exact ⟨rfl, rfl⟩

end timer

/-! ## The next packet of an operation -/

theorem streamTo_eq (s : State) (team : Nat) (d : BitVec 20) : streamTo s team d = s.streams.find? fun x => x.team == team && x.dest == d :=
  firstWhere_eq_find? _ _

theorem streamOf_eq (s : State) (team : Nat) (d : BitVec 20) : streamOf s team d = (streamTo s team d).getD { team := team, dest := d, id := s.nextStream } := by
  rw [streamTo_eq]; rfl

/-- The stream that a packet leaves on is the one found, which then stands in the table; nothing else that the packet's place rests on changes. -/
theorem openStream_effect (s : State) (team : Nat) (d : BitVec 20) :
    (openStream s team d).2 = streamOf s team d ∧ streamTo (openStream s team d).1 team d = some (streamOf s team d) ∧
    ∃ l k, (openStream s team d).1 = { s with streams := l, nextStream := k } := by
  rw [streamOf_eq]
  unfold openStream
  split
  next x h => exact ⟨by rw [h]; rfl, by rw [h]; rfl, s.streams, s.nextStream, rfl⟩
  next h =>
    rw [h]
    extract_lets x old
    refine ⟨rfl, ?_, _, _, rfl⟩
    have hno : firstWhere (fun y => y.team == team && y.dest == d) old = none := by
      refine firstWhere_none _ _ fun y hy => ?_
      rw [streamTo_eq, List.find?_eq_none] at h
      exact Bool.eq_false_iff.mpr (h y (List.mem_filter.mp hy).1)
    show firstWhere _ (old ++ [x]) = some x
    rw [firstWhere_append, hno]
    simp [firstWhere, x]

/-- What a packet that leaves changes: its operation, its stream, the packets on their way, and what has left. -/
theorem sendPacket_effect (s : State) (n : Nat) (op : FabOp) (path : Nat × Nat) (data : List Byte) (bad : List Nat) (k : Nat) {p : OutPkt}
    (hp : p = packetOf s op n path data bad) {t : State} (ht : t = sendPacket s n op path data bad k) :
    fabOp t n = some { op with sent := op.sent + k, last := some path } ∧
    (streamOf t op.team op.dest).puts = p.puts + (if op.pennant.isSome then 0 else 1) ∧ t.pkts = s.pkts ++ [p] ∧
    (streamOf t op.team op.dest).id = p.stream ∧ (streamOf t op.team op.dest).next = p.seq + 1 ∧
    t.out = .packet p.stream p.seq p.dest p.rpa p.data p.bad p.pennant p.puts :: s.out := by
  obtain ⟨hx, hto, l, m, hs⟩ := openStream_effect s op.team op.dest
  unfold sendPacket at ht
  generalize openStream s op.team op.dest = r at hx hto hs ht
  obtain ⟨s1, x⟩ := r
  subst hx hs
  dsimp -zeta only at hto ht
  extract_lets q one s2 at ht
  have hq : q = p := hp ▸ rfl
  have hto2 : streamTo t op.team op.dest = some { streamOf s op.team op.dest with
      next := (streamOf s op.team op.dest).next + 1, puts := (streamOf s op.team op.dest).puts + one } := by
    rw [ht]
    show firstWhere _ (mapWhere _ _ l) = _
    exact (firstWhere_mapWhere_same (fun y : OutStream => y.team == op.team && y.dest == op.dest)
      (fun y => { y with next := y.next + 1, puts := y.puts + one }) (fun _ hy => hy) l).trans (congrArg (Option.map _) hto)
  rw [streamOf_eq, hto2, ← hq, ht]
  exact ⟨fabOp_setFabOp .., rfl, rfl, rfl, rfl, rfl⟩

/-! ## FABRIC_PACKET_SEND -/

/-- None of what keeps a packet back holds. -/
theorem sendable {s : State} {n port en : Nat} {op : FabOp} (hin : (port, en) ∈ sendPaths s op) (hold : oldestToSend s op.team op.dest = some n)
    (hroom : streamRoom s op = true) :
    ¬ (!(sendPaths s op).contains (port, en) || oldestToSend s op.team op.dest != some n || !streamRoom s op) = true := by
  simp [hold, hroom, hin]

section send

variable {s : State} {n port en : Nat} {op : FabOp} (ho : fabOp s n = some op)

include ho

/-- Off its paths, out of turn, or with no room in its stream, no packet of the operation leaves. -/
theorem execFabricPacketSend_refused (h : (port, en) ∉ sendPaths s op ∨ oldestToSend s op.team op.dest ≠ some n ∨ streamRoom s op = false) :
    exec (.fabricPacketSend n port en) s = .next s := by
  show execFabricPacketSend n port en s = _
  unfold execFabricPacketSend
  rw [ho]
  refine if_pos ?_
  rw [Bool.or_eq_true, Bool.or_eq_true, Bool.not_eq_true', Bool.not_eq_true', bne_iff_ne, ← Bool.not_eq_true, List.contains_iff_mem]
  exact or_assoc.mpr h

variable (hin : (port, en) ∈ sendPaths s op) (hold : oldestToSend s op.team op.dest = some n) (hroom : streamRoom s op = true)

include hin hold hroom

theorem execFabricPacketSend_pennant {v : W64} (hv : op.pennant = some v) :
    exec (.fabricPacketSend n port en) s = .next (sendPacket s n op (port, en) [] [] 1) := by
  show execFabricPacketSend n port en s = _
  unfold execFabricPacketSend
  rw [ho]
  dsimp only
  rw [if_neg (sendable hin hold hroom), if_pos (by rw [hv]; rfl)]

theorem execFabricPacketSend_put (hv : op.pennant = none) {k a e : Nat}
    (hk : k = if op.len - op.sent ≤ 4096 then op.len - op.sent else 4096 - (op.va.toNat + op.sent) % 8) (ha : a = op.src.toNat + op.sent + op.ahead.length)
    (he : e = Nat.min (op.src.toNat + op.len) (roundUp (op.src.toNat + op.sent + k) 4)) {s1 : State} {b bs : List (Byte × Bool)}
    (hr : readSource s (devEnv s (teamOf s op.team).ctx true .fabric) { agent := .device, at_ := op.at_, view := op.view } (cutWords (e - a) a (e - a)) = .ok s1 b)
    (hb : bs = op.ahead ++ b) :
    exec (.fabricPacketSend n port en) s = .next (sendPacket s1 n { op with ahead := bs.drop k } (port, en) ((bs.take k).map (·.1))
      (badWords (remotePa s (op.rpa + op.sent)) (bs.take k)) k) := by
  show execFabricPacketSend n port en s = _
  unfold execFabricPacketSend
  rw [ho]
  dsimp only
  rw [if_neg (sendable hin hold hroom), if_neg (by rw [hv]; exact nofun)]
  have hlen : packetLen op = k := hk.symm
  have hreads : packetReads op k = (a, e - a) := by rw [ha, he]; rfl
  have hsub : ∀ x : Source, x = { agent := .device, at_ := op.at_, view := op.view } → readSource s (devEnv s (teamOf s op.team).ctx true .fabric) x
      (cutWords (packetReads op (packetLen op)).2 (packetReads op (packetLen op)).1 (packetReads op (packetLen op)).2) = .ok s1 b := by
    rintro x rfl
    rw [hlen, hreads]
    exact hr
  rw [hsub _ rfl, hlen, hb]

end send

end Sys2Proof.Machine
end

