-- ==== Sys2Proof/Proofs/FabricReceives.lean ====
section
/-!
Ports and paths that go and come back, what the endpoint receives, and status notices (R102, R358, R372, R373, R378 to R380).
-/

namespace Sys2Proof.Machine

/-! ## Ports and paths -/

/-- What a packet sent again leaves of the endpoint's paths and registers. -/
theorem resendOn_paths (s : State) (p : OutPkt) (path : Nat × Nat) : (resendOn s p path).paths = s.paths ∧ (resendOn s p path).ctl = s.ctl := by
  by_cases h : livePaths s p.dest = []
  · rw [resendOn_none path h]
    exact ⟨rfl, rfl⟩
  · obtain ⟨x, _, f, hf⟩ := resendOn_live path h
    rw [hf]
    exact ⟨rfl, rfl⟩

/-- The link-down count of a port that goes down, and its register. -/
def downCount (v : Nat) : Nat := Nat.min 0xFFFFFFFF (v / 2 ^ 32 + 1)

/-- The state in which the packets of a port that went down are sent again. -/
def portDown (s : State) (k v : Nat) : State :=
  logError { s with ctl := { s.ctl with fport := mput 0 s.ctl.fport k (BitVec.ofNat 64 (downCount v * 2 ^ 32 + v % 2 ^ 32 - 2)) }
                    paths := s.paths.filter fun p => p.port != k } { cls := 9, unit := portUnit k, detail := downCount v }

/-- One packet of a port that went down: it waits where no path is live. -/
def moveOn (path : Nat × Nat) (s : State) (p : OutPkt) : State := if (resendPaths s p).isEmpty then s else resendOn s p path

theorem moveOn_paths (path : Nat × Nat) (s : State) (p : OutPkt) : (moveOn path s p).paths = s.paths ∧ (moveOn path s p).ctl = s.ctl := by
  unfold moveOn
  split
  · exact ⟨rfl, rfl⟩
  · exact resendOn_paths s p path

theorem moveAll_paths (path : Nat × Nat) : ∀ (l : List OutPkt) (s : State),
    (l.foldl (moveOn path) s).paths = s.paths ∧ (l.foldl (moveOn path) s).ctl = s.ctl
  | [], _ => ⟨rfl, rfl⟩
  | p :: l, s => by
    obtain ⟨h1, h2⟩ := moveAll_paths path l (moveOn path s p)
    obtain ⟨h3, h4⟩ := moveOn_paths path s p
    exact ⟨h1.trans h3, h2.trans h4⟩

section port

variable {s : State} {n en m v : Nat} (hn : n < 16) (hv : v = (mget 0 s.ctl.fport n).toNat)

include hv

theorem execPortLinkDown_idle (h : bits v 1 1 = 0) : exec (.portLinkDown n m en) s = .next s :=
  if_pos (by rw [← hv, h]; simp)

theorem execPortLinkUp_disabled (h : bits v 0 1 = 0) : exec (.portLinkUp n) s = .next s :=
  if_pos (by rw [← hv, h]; simp)

include hn

theorem execPortLinkUp_enabled (h : bits v 0 1 = 1) :
    Goes (.portLinkUp n) s fun t => mget 0 t.ctl.fport n = mget 0 s.ctl.fport n ||| 2 :=
  ⟨_, if_neg (by rw [← hv, h]; simpa using hn), mget_mput_same ..⟩

theorem execPortLinkDown_up (h : bits v 1 1 = 1) :
    exec (.portLinkDown n m en) s = .next (((portDown s n v).pkts.filter fun p => p.port == n).foldl (moveOn (m, en)) (portDown s n v)) := by
  show execPortLinkDown n m en s = _
  unfold execPortLinkDown
  rw [← hv]
  exact if_neg (by rw [h]; simpa using hn)

theorem execPortLinkDown_effect (h : bits v 1 1 = 1) : Goes (.portLinkDown n m en) s fun t => t.paths = (s.paths.filter fun p => p.port != n) ∧
    (∀ p, (s.pkts.filter fun p => p.port == n) = [p] → livePaths t p.dest ≠ [] → ∃ q ∈ t.pkts, pathLive t p.dest q.port q.entropy = true ∧
      q = { p with port := q.port, entropy := q.entropy, resends := p.resends + 1, sentAt := s.timeFs }) ∧
    mget 0 t.ctl.fport n = BitVec.ofNat 64 (Nat.min 0xFFFFFFFF (v / 2 ^ 32 + 1) * 2 ^ 32 + v % 2 ^ 32 - 2) := by
  refine ⟨_, execPortLinkDown_up hn hv h, ?_⟩
  have hr : Reports _ (portDown s n v) := reports_logError _ _
  have hpk : (portDown s n v).pkts = s.pkts := by rw [hr.state]
  have htime : (portDown s n v).timeFs = s.timeFs := by rw [hr.state]
  obtain ⟨hpaths, hctl⟩ := moveAll_paths (m, en) ((portDown s n v).pkts.filter fun p => p.port == n) (portDown s n v)
  dsimp only
  refine ⟨hpaths.trans (by rw [hr.state]), fun p hp hlive => ?_, ?_⟩
  · rw [livePaths_congr (s := portDown s n v) (by rw [hctl]) (by rw [hctl]) hpaths] at hlive
    simp only [pathLive_congr (s := portDown s n v) (by rw [hctl]) (by rw [hctl]) hpaths]
    have hmem : p ∈ (portDown s n v).pkts := by
      rw [hpk]
      exact (List.mem_filter.mp (hp ▸ List.mem_cons_self : p ∈ s.pkts.filter fun p => p.port == n)).1
    obtain ⟨x, hx, f, hf⟩ := resendOn_live (m, en) hlive
    have hmove : moveOn (m, en) (portDown s n v) p = resend { portDown s n v with free := f } p x :=
      (if_neg fun h => hlive (resendPaths_eq_nil.mp (List.isEmpty_iff.mp h))).trans hf
    rw [hpk, hp]
    have hpkts : (moveOn (m, en) (portDown s n v) p).pkts = (resend (portDown s n v) p x).pkts := by rw [hmove]; rfl
    refine ⟨resent (portDown s n v) p x, resent_mem hmem hpkts, mem_livePaths (resendPaths_sub hx), ?_⟩
    rw [← htime]
    rfl
  · rw [hctl, hr.ctl]
    exact mget_mput_same ..

end port

theorem execPathProbeTimer_effect {s : State} {d : BitVec 20} {port en : Nat} {r : PathRec} (acked : Bool) (hr : pathRec s d port en = some r)
    (hd : r.dead = true) (hu : portUp s port = true) (ht : r.diedAt + 1000000000000 ≤ s.timeFs) :
    Goes (.pathProbeTimer d port en acked) s fun t => t.out = .probe d port en :: s.out ∧
      pathRec t d port en = if acked then none else some { r with diedAt := s.timeFs } := by
  unfold Goes
  show ∃ t, execPathProbeTimer d port en acked s = .next t ∧ _
  unfold execPathProbeTimer
  rw [hr]
  refine ⟨_, if_neg (by simp [hd, hu, Nat.not_lt.mpr ht]), rfl, pathRec_setPath _ _ _ _ _ fun x hx => ?_⟩
  cases acked with
  | true => exact nomatch hx
  | false =>
    obtain rfl := Option.some.inj hx
    exact pathRec_fields (r := r) hr

/-! ## Packets that come in -/

/-- The lanes' counters take no part in which writes the inbound ranges take. -/
theorem laneCount_inb (s : State) (port ln : Nat) : (laneCount s port ln).ctl.inb = s.ctl.inb := by
  unfold laneCount predNotice
  extract_lets i v d fields w ctl s1
  split
  · rw [(reports_logError _ _).ctl]
  · rfl

theorem portTraffic_inb (s : State) : (portTraffic s).ctl.inb = s.ctl.inb := by
  unfold portTraffic
  extract_lets p
  have hall : ∀ (l : List Nat) (t : State), (l.foldl (fun s ln => laneCount s p ln) t).ctl.inb = t.ctl.inb := by
    intro l
    induction l with
    | nil => exact fun t => rfl
    | cons x l ih => exact fun t => (ih _).trans (laneCount_inb t p x)
  exact hall _ _

theorem inboundOk_portTraffic (s : State) (src : BitVec 20) (pa n : Nat) : inboundOk (portTraffic s) src pa n = inboundOk s src pa n := by
  unfold inboundOk
  rw [portTraffic_inb]

theorem inStream_key (s : State) (src : BitVec 20) (n : Nat) : (inStream s src n).src = src ∧ (inStream s src n).stream = n := by
  unfold inStream
  cases h : firstWhere (fun x => x.src == src && x.stream == n) s.inStreams with
  | none => exact ⟨rfl, rfl⟩
  | some x => simpa using (firstWhere_mem _ _ _ h).2

theorem inStream_setStream (s : State) {x : InStream} {src : BitVec 20} {n : Nat} (h : x.src = src ∧ x.stream = n) : inStream (setStream s x) src n = x := by
  simp [inStream, setStream, firstWhere, h.1, h.2]

theorem physRead_poisonWords (pa n : Nat) (f : Nat → Nat) : ∀ (l : List Nat) (s : State),
    physRead (l.foldl (fun s w => poisonWord s (f w)) s) pa n = physRead s pa n
  | [], _ => rfl
  | w :: l, s => by
    refine (physRead_poisonWords pa n f l _).trans ?_
    show physRead (poisonWord s (f w)) pa n = physRead s pa n
    unfold poisonWord
    extract_lets x
    split <;> rfl

/-- A put's bytes stand where it names, with or without poison. -/
theorem physRead_writePut (s : State) (p : Packet) : physRead (writePut s p) p.pa p.data.length = p.data :=
  (physRead_poisonWords _ _ _ _ _).trans (physRead_physWriteBy _ _ _ _)

section receive

variable {s : State} {p : Packet} {st : InStream} (hst : st = inStream (portTraffic s) p.src p.stream)

theorem execFabricPacketReceive_outside (h : inboundOk s p.src p.pa (if p.pennant.isSome then 8 else p.data.length) = false) :
    exec (.fabricPacketReceive p) s = .next { portTraffic s with out := .nack p.src p.stream p.seq :: (portTraffic s).out } :=
  if_pos (by rw [inboundOk_portTraffic, h]; rfl)

include hst

theorem execFabricPacketReceive_again (hh : (st.held.any fun q => q.seq == p.seq) = false) (hs : p.seq ∈ st.seen)
    (h : inboundOk s p.src p.pa (if p.pennant.isSome then 8 else p.data.length) = true) :
    exec (.fabricPacketReceive p) s = .next { portTraffic s with out := .ack p.src p.stream p.seq :: (portTraffic s).out } := by
  subst hst
  exact (if_neg (by rw [inboundOk_portTraffic, h]; exact nofun)).trans
    ((if_neg (by rw [hh]; exact nofun)).trans (if_pos (List.contains_iff_mem.mpr hs)))

theorem execFabricPacketReceive_put (hh : (st.held.any fun q => q.seq == p.seq) = false) (hs : p.seq ∉ st.seen) (hp : p.pennant = none)
    (h : inboundOk s p.src p.pa p.data.length = true) : Goes (.fabricPacketReceive p) s fun t =>
      physRead t p.pa p.data.length = p.data ∧ p.seq ∈ (inStream t p.src p.stream).seen ∧ p.seq ∈ (inStream t p.src p.stream).written := by
  subst hst
  unfold Goes
  show ∃ t, execFabricPacketReceive p s = .next t ∧ _
  unfold execFabricPacketReceive
  simp only [hp]
  refine ⟨_, (if_neg (by rw [inboundOk_portTraffic]; simp [h])).trans ((if_neg (by rw [hh]; exact nofun)).trans
    (if_neg (by rwa [List.contains_iff_mem]))), physRead_writePut _ p, ?_⟩
  have hk := inStream_key (portTraffic s) p.src p.stream
  have hnew := inStream_setStream (writePut (portTraffic s) p) (x := { inStream (portTraffic s) p.src p.stream with
    seen := p.seq :: (inStream (portTraffic s) p.src p.stream).seen, written := p.seq :: (inStream (portTraffic s) p.src p.stream).written }) hk
  constructor
  · exact (congrArg InStream.seen hnew) ▸ List.mem_cons_self
  · exact (congrArg InStream.written hnew) ▸ List.mem_cons_self

end receive

/-- A number just written reads back. -/
theorem physNum_physWriteBy (s : State) (w : Writer) (pa : Nat) {n v : Nat} (hv : v < 256 ^ n) : physNum (physWriteBy s w pa (toBytes n v)) pa n = v := by
  have h := physRead_physWriteBy s w pa (toBytes n v)
  rw [size_toBytes] at h
  unfold physNum
  rw [h, ofBytes_toBytes_of_lt hv]

theorem ofBytes_lt : ∀ l : List Byte, ofBytes l < 256 ^ l.length
  | [] => by simp [ofBytes]
  | b :: l => by
    have hl := ofBytes_lt l
    have hb := b.isLt
    rw [ofBytes, List.length_cons, Nat.pow_succ]
    omega

theorem physNum_lt (s : State) (pa n : Nat) : physNum s pa n < 256 ^ n := by
  have h := ofBytes_lt (physRead s pa n)
  rwa [show (physRead s pa n).length = n by simp [physRead, length_span]] at h

theorem physNum_writePennant (s : State) (p : Packet) (v : W64) : physNum (writePennant s p v) p.pa 8 = Nat.max (physNum s p.pa 8) v.toNat :=
  physNum_physWriteBy s _ p.pa (Nat.max_lt.mpr ⟨physNum_lt s p.pa 8, by have := v.isLt; omega⟩)

theorem execPennantApply_effect {s : State} {n : Nat} {x : InStream} {p : Packet} {v : W64} (hh : (heldPennants s)[n]? = some (x, p)) (hv : p.pennant = some v) :
    if p.puts ≤ (x.written.filter fun q => decide (q < p.seq)).length then Goes (.pennantApply n) s fun t => physNum t p.pa 8 = Nat.max (physNum s p.pa 8) v.toNat
    else exec (.pennantApply n) s = .next s := by
  have hx : exec (.pennantApply n) s = execPennantApply n s := rfl
  unfold Goes
  rw [hx]
  unfold execPennantApply
  simp only [hh, hv]
  split
  · exact ⟨_, rfl, physNum_writePennant s p v⟩
  · rfl

/-! ## Status notices -/

theorem execSelfstWrite_effect (s : State) (v : W32) : Goes (.selfstWrite v) s fun t => t.ctl.selfst = v &&& 3 ∧ t.mem = s.mem ∧
    (v &&& 3 ≠ s.ctl.selfst &&& 3 → t.noticeSeq = s.noticeSeq + 1 ∧
      t.noticesOut = s.noticesOut ++ (namedPeers s).map (fun e => (e, s.noticeSeq + 1, v.setWidth 2, s.timeFs)) ∧
      t.out = (namedPeers s).map (fun e => .notice e (s.noticeSeq + 1) (v.setWidth 2)) ++ s.out) := by
  refine ⟨putSelfst s v, rfl, ?_⟩
  unfold putSelfst
  extract_lets ctl s1 es
  split
  next h => exact ⟨rfl, rfl, fun hne => absurd h hne⟩
  · exact ⟨rfl, rfl, fun _ => ⟨rfl, rfl, rfl⟩⟩

theorem execStatusNoticeResend_each {s : State} {due : BitVec 20 × BitVec 8 × BitVec 2 × Nat → Bool} (hd : due = fun x => decide (x.2.2.2 + rtoFs s ≤ s.timeFs)) :
    Goes (.statusNoticeResend []) s fun t =>
      t.noticesOut = s.noticesOut.map (fun x => if due x then (x.1, x.2.1, x.2.2.1, s.timeFs) else x) ∧
      t.out = (s.noticesOut.filter due).map (fun x => .notice x.1 x.2.1 x.2.2.1) ++ s.out :=
  ⟨_, rfl, by rw [hd]; rfl, by rw [hd]; rfl⟩

/-- A notice that its receiver has acknowledged is the only one that goes. -/
theorem noticeAcked_single {s : State} {e : BitVec 20} {x : BitVec 20 × BitVec 8 × BitVec 2 × Nat} (h : (s.noticesOut.filter fun y => y.1 == e) = [x]) :
    noticeAcked s e = { s with noticesOut := s.noticesOut.filter fun y => some y != some x } := by
  unfold noticeAcked
  rw [h]
  rfl

theorem execStatusNoticeResend_acked {s : State} {e : BitVec 20} {x : BitVec 20 × BitVec 8 × BitVec 2 × Nat}
    (h : (s.noticesOut.filter fun y => y.1 == e) = [x]) : Goes (.statusNoticeResend [e]) s fun t => (∀ y ∈ t.noticesOut, y.1 ≠ e) ∧
      ∀ y ∈ s.noticesOut, y.1 ≠ e → ∃ z ∈ t.noticesOut, z.1 = y.1 ∧ z.2.1 = y.2.1 ∧ z.2.2.1 = y.2.2.1 := by
  unfold Goes
  show ∃ t, execStatusNoticeResend [e] s = .next t ∧ _
  unfold execStatusNoticeResend
  rw [List.foldl_cons, List.foldl_nil, noticeAcked_single h]
  extract_lets s1 due
  refine ⟨_, rfl, fun y hy => ?_, fun y hy hne => ?_⟩
  · obtain ⟨z, hz, rfl⟩ := List.mem_map.mp hy
    obtain ⟨hz, hzx⟩ := List.mem_filter.mp hz
    have hez : z.1 ≠ e := fun he => by
      have hmem : z ∈ s.noticesOut.filter fun y => y.1 == e := List.mem_filter.mpr ⟨hz, by simpa using he⟩
      rw [h, List.mem_singleton] at hmem
      simp [hmem] at hzx
    split <;> exact hez
  · have hyx : y ≠ x := fun hyx => by
      have hx : x ∈ s.noticesOut.filter fun y => y.1 == e := h ▸ List.mem_cons_self
      exact hne (by simpa [hyx] using (List.mem_filter.mp hx).2)
    refine ⟨_, List.mem_map.mpr ⟨y, List.mem_filter.mpr ⟨hy, by simpa using hyx⟩, rfl⟩, ?_⟩
    split <;> exact ⟨rfl, rfl, rfl⟩

/-- The fields of an entry of the peer status block, put together and taken apart. -/
theorem statusEntry_fields {old st seq left : Nat} (hs : st < 4) (hq : seq < 2 ^ 8) : old % 2 ^ 8 / 4 * 4 + st + seq * 2 ^ 8 < 2 ^ 16 ∧
    (old % 2 ^ 8 / 4 * 4 + st + seq * 2 ^ 8 + left * 2 ^ 16) % 4 = st ∧
    (old % 2 ^ 8 / 4 * 4 + st + seq * 2 ^ 8 + left * 2 ^ 16) / 2 ^ 8 % 2 ^ 8 = seq ∧
    (old % 2 ^ 8 / 4 * 4 + st + seq * 2 ^ 8 + left * 2 ^ 16) / 2 ^ 16 = left := by omega

theorem execStatusNoticeReceive_effect {s : State} (e : BitVec 20) (sq : BitVec 8) (st : BitVec 2) {at_ old d : Nat} (ha : at_ = s.ctl.pstb.toNat + 8 * e.toNat)
    (ho : old = physNum s at_ 8) (hd : d = (sq - BitVec.ofNat 8 (old / 2 ^ 8)).toNat) :
    Goes (.statusNoticeReceive e sq st) s fun t => t.out = .noticeAck e sq :: s.out ∧
      if s.ctl.pstb ≠ 0 ∧ 1 ≤ d ∧ d ≤ 127 then physNum t at_ 8 % 4 = st.toNat ∧ physNum t at_ 8 / 2 ^ 8 % 2 ^ 8 = sq.toNat ∧
        physNum t at_ 8 / 2 ^ 16 = if (old % 4 = 1 ∨ old % 4 = 2) ∧ old % 4 ≠ st.toNat then timeNs s / 1000 % 2 ^ 48 else old / 2 ^ 16
      else t.mem = s.mem := by
  unfold Goes
  show ∃ t, execStatusNoticeReceive e sq st s = .next t ∧ _
  unfold execStatusNoticeReceive
  rw [← ha]
  have hold : old < 2 ^ 64 := ho ▸ physNum_lt s at_ 8
  extract_lets place old' d' s1 leaves low left
  have hold' : old = old' := ho
  have hd' : d = d' := hd.trans (congrArg (fun x => (sq - BitVec.ofNat 8 (x / 2 ^ 8)).toNat) hold')
  clear_value old' d'
  subst hold' hd'
  by_cases hc : s.ctl.pstb ≠ 0 ∧ 1 ≤ d ∧ d ≤ 127
  · obtain ⟨hp, hd1, hd2⟩ := hc
    have hleft : left = if (old % 4 = 1 ∨ old % 4 = 2) ∧ old % 4 ≠ st.toNat then timeNs s / 1000 % 2 ^ 48 else old / 2 ^ 16 :=
      if_congr (by simp [leaves]) rfl rfl
    have hlt : left < 2 ^ 48 := by
      rw [hleft]
      split
      · exact Nat.mod_lt _ (by decide)
      · omega
    obtain ⟨hlow, h1, h2, h3⟩ := statusEntry_fields (old := old) (left := left) st.isLt sq.isLt
    refine ⟨_, if_neg ?_, rfl, ?_⟩
    · simp only [Bool.or_eq_true, decide_eq_true_eq, not_or]
      exact ⟨⟨hp, by omega⟩, by omega⟩
    · have hnum : physNum (physPut s1 at_ 8 (low + left * 2 ^ 16)) at_ 8 = low + left * 2 ^ 16 := physNum_physWriteBy _ _ _ (by
        have : low < 2 ^ 16 := hlow
        omega)
      rw [if_pos ⟨hp, hd1, hd2⟩, hnum, ← hleft]
      exact ⟨h1, h2, h3⟩
  · refine ⟨_, if_pos ?_, rfl, ?_⟩
    · simp only [s1, Bool.or_eq_true, decide_eq_true_eq]
      by_contra hno
      simp only [not_or] at hno
      exact hc ⟨hno.1.1, by omega, by omega⟩
    · rw [if_neg hc]

end Sys2Proof.Machine
end

