-- ==== Sys2Proof/Proofs/FabricReports.lean ====
section
/-!
The fabric endpoint (R102, R237 to R239, R358, R372, R373, R378 to R380).
-/

namespace Sys2Proof
open Machine

/-- Settles O51: a clause per event, each by the lemma that says what the event does. -/
theorem fabricDeliversAndReports : Obligations.FabricDeliversAndReports := by
  unfold Obligations.FabricDeliversAndReports
  refine fun s n port en => ⟨fun op ho => ⟨sendPaths_live, execFabricPacketSend_refused ho, fun hin hold hroom s1 k data bad rest hsrc p hp => ?_⟩,
    fun p op hp ho => ⟨execFabricAckReceive_effect hp ho rfl, fun i hi => ?_, fun s1 hs hd hr => execFabricRtoExpiry_effect hp hs hd hr, fun hd => ?_⟩,
    fun m v hn hv => ⟨execPortLinkDown_idle hv, execPortLinkDown_effect hn hv, execPortLinkUp_enabled hn hv, execPortLinkUp_disabled hv⟩,
    fun d r acked hr hd hu ht => execPathProbeTimer_effect acked hr hd hu ht,
    fun p st hst => ⟨fun m hm h => execFabricPacketReceive_outside (hm ▸ h), execFabricPacketReceive_again hst, execFabricPacketReceive_put hst⟩,
    fun x p v hh hv => execPennantApply_effect hh hv, execSelfstWrite_effect s, fun due hd => execStatusNoticeResend_each hd,
    fun e x h => execStatusNoticeResend_acked h, fun e sq st at_ old d ha ho hd => execStatusNoticeReceive_effect e sq st ha ho hd⟩
  · rcases hsrc with ⟨v, hv, rfl, rfl, rfl, rfl, rfl⟩ | ⟨a, e, b, bs, hv, hk, ha, he, hread, hb, rfl, rfl, rfl⟩
    · exact ⟨_, execFabricPacketSend_pennant ho hin hold hroom hv, sendPacket_effect _ _ _ _ _ _ _ hp rfl⟩
    · exact ⟨_, execFabricPacketSend_put ho hin hold hroom hv hk ha he hread hb, sendPacket_effect s1 n { op with ahead := bs.drop k } _ _ _ _ hp rfl⟩
  · rcases hi with rfl | ⟨rfl, hd, hr⟩
    · refine ⟨failOp s p.op, ?_, failOp_effect ho (l := s.paths) rfl⟩
      show execFabricNackReceive n s = _
      unfold execFabricNackReceive
      rw [hp]
    · obtain ⟨l, hl⟩ := missed_eq s p
      exact ⟨_, (execFabricRtoExpiry_due hp rfl hd).trans (by rw [if_pos hr]), failOp_effect ho hl⟩
  · show execFabricRtoExpiry n port en s = _
    unfold execFabricRtoExpiry
    rw [hp]
    exact if_pos hd

end Sys2Proof
end

