-- ==== Sys2Proof/Proofs/EngineTraffic.lean ====
section
/-!
What the copy engine's reads and writes leave as it was (R83, R99, R225, R409).
-/

namespace Sys2Proof.Machine

/-! ## Channels under accesses -/

theorem Traffic.chan {s t : State} (h : Traffic s t) (c ch : Nat) : chanOf t c ch = chanOf s c ch := by
  unfold chanOf
  rw [h.cluster c]

theorem Traffic.team {s t : State} (h : Traffic s t) (k : Nat) : findTeam t k = findTeam s k := findTeam_congr (by rw [h.state]) k

theorem chanOf_modChan (s : State) (c ch : Nat) (f : Chan → Chan) : chanOf (modChan s c ch f) c ch = f (chanOf s c ch) := by
  unfold chanOf modChan
  rw [clusterOf_modCluster_same]
  exact mget_mput_same ..

theorem teamOf_modChan (s : State) (c ch : Nat) (f : Chan → Chan) (k : Nat) : teamOf (modChan s c ch f) k = teamOf s k := rfl

/-- A channel's change leaves the SRAM as it stands. -/
theorem sram_modChan (s : State) (c ch : Nat) (f : Chan → Chan) (k : Nat) :
    (clusterOf (modChan s c ch f) k).sram = (clusterOf s k).sram ∧ (clusterOf (modChan s c ch f) k).sramBad = (clusterOf s k).sramBad := by
  unfold modChan
  rw [clusterOf_modCluster]
  split
  next h => exact ⟨by rw [h], by rw [h]⟩
  · exact ⟨rfl, rfl⟩

/-! ## Reads -/

theorem Traffic.ok {s t : State} (h : Traffic s t) {bs : List Byte} : Traffic s (Eng.ok t bs).state := h

theorem Traffic.of_eng {s : State} {r x : Eng} (h : Traffic s r.state) (e : r = x) : Traffic s x.state := e ▸ h

theorem Traffic.of_eng_fst {α : Type} {s : State} {r : Eng × α} {x : Eng} {y : α} (h : Traffic s r.1.state) (e : r = (x, y)) : Traffic s x.state := by
  rw [e] at h; exact h

/-- What an engine reads takes free values, and changes nothing else. -/
theorem lateBytes_free (s : State) (x : Source) (y : Spot) : ∃ f, (lateBytes s x y).1 = { s with free := f } := by
  unfold lateBytes
  split
  · exact ⟨_, rfl⟩
  · split
    · exact ⟨s.free, rfl⟩
    · exact ⟨_, rfl⟩

theorem lateSpots_free (x : Source) : ∀ (l : List Spot) (s : State), ∃ f, (lateSpots s x l).1 = { s with free := f }
  | [], s => ⟨s.free, rfl⟩
  | y :: ys, s => by
    obtain ⟨f, hf⟩ := lateBytes_free s x y
    obtain ⟨f', hf'⟩ := lateSpots_free x ys (lateBytes s x y).1
    exact ⟨f', hf'.trans (by rw [hf])⟩

theorem traffic_lateSpots (s : State) (x : Source) (l : List Spot) : Traffic s (lateSpots s x l).1 := by
  obtain ⟨f, hf⟩ := lateSpots_free x l s
  rw [hf]
  exact traffic_free

theorem traffic_engRead (s : State) (env : Env) (x : Source) (va n : Nat) : Traffic s (engRead s env x va n).state := by
  have h := traffic_lookAt s env .read va n
  unfold engRead
  split
  next s1 l e => exact (h.of_fst e).trans ((traffic_touchSpots env .read l s1).trans (traffic_lateSpots _ x l))
  next s1 k tok e =>
    split
    · exact .refl s
    · exact h.of_fst e
  · exact .refl s

theorem traffic_padReadLate (s : State) (t : Team) (x : Source) (va n : Nat) : Traffic s (padReadLate s t x va n).state := by
  unfold padReadLate
  extract_lets l
  clear_value l
  split
  · exact .refl s
  · split
    next e => exact (traffic_lateSpots s x l).of_fst e

/-- The reader of the scratchpad under another name, so that no read of a literal width is evaluated. -/
theorem exists_padReader : ∃ read, padReadLate = read ∧ ∀ s t x va n, Traffic s (read s t x va n).state := ⟨_, rfl, traffic_padReadLate⟩

theorem traffic_takePieces (t : Team) (x : Source) (tile : Bool) : ∀ (ps : List (Nat × Nat × Nat)) (s : State) (words : WordsRead),
    Traffic s (takePieces s t x tile words ps).1.state
  | [], s, _ => .refl s
  | (r, va, n) :: ps, s, words => by
    unfold takePieces
    extract_lets at_ key got
    have hgot : Traffic s got.state := by
      unfold got
      split
      · exact .refl s
      · split
        · exact traffic_padReadLate ..
        · exact traffic_engRead ..
    clear_value got
    split
    · exact hgot
    · exact hgot
    next s1 w =>
      extract_lets words1
      have h1 := hgot.trans (traffic_takePieces t x tile ps s1 words1)
      split
      next e =>
        have h2 := h1.of_eng_fst (x := .ok _ _) e
        exact h2
      · exact h1

theorem traffic_headOfBlock (s : State) (t : Team) (x : Source) (y : Tile) (words : WordsRead) (i : Nat) : Traffic s (headOfBlock s t x y words i).1.state := by
  obtain ⟨read, e, hread⟩ := exists_padReader
  unfold headOfBlock
  rw [e]
  dsimp only
  split
  · exact .refl s
  · split
    next h =>
      have h1 := (hread _ _ _ _ _).of_eng (x := .ok _ _) h
      split
      · exact h1
      · split
        · exact h1
        · split
          next h =>
            have h2 := (hread _ _ _ _ _).of_eng (x := .ok _ _) h
            exact Traffic.trans h1 h2
          · exact h1.trans (hread _ _ _ _ _)
    · exact hread _ _ _ _ _

theorem traffic_takeImage (t : Team) (x : Source) (y : Tile) : ∀ (rs : List (Nat × Nat)) (s : State) (words : WordsRead),
    Traffic s (takeImage s t x y words rs).1.state
  | [], s, _ => .refl s
  | (i, n) :: rs, s, words => by
    unfold takeImage
    split
    next s1 h w1 e =>
      have h1 : Traffic s s1 := (traffic_headOfBlock s t x y words (i / 1024)).of_eng_fst (x := .ok _ _) e
      split
      · exact h1
      · extract_lets here
        have hr : Traffic s here.1.state := by
          unfold here
          split
          · exact h1
          · exact h1.trans (traffic_takePieces ..)
        clear_value here
        split
        next s2 a w2 =>
          have h2 := Traffic.trans hr (traffic_takeImage t x y rs s2 w2)
          split
          next e =>
            have h3 := h2.of_eng_fst (x := .ok _ _) e
            exact h3
          · exact h2
        · exact hr
    · exact traffic_headOfBlock ..

/-! ## Writes -/

theorem traffic_padPut (s : State) (t : Team) (w : Writer) (va : Nat) (bs : List Byte) : Traffic s (padPut s t w va bs) := traffic_writeSpots w _ bs s

theorem traffic_engWrite (s : State) (t : Team) (w : Writer) (va : Nat) (bs : List Byte) : Traffic s (engWrite s t w va bs).state := by
  have h := traffic_writeAt s (engEnv s t) va bs w
  unfold engWrite
  split
  · exact .refl s
  · split
    next e => exact h.of_fst e
    next e => exact h.of_fst e
    next e => exact h.of_fst e

theorem traffic_engPut (s : State) (t : Team) (w : Writer) (tile : Bool) (va : Nat) (cells : List (Option Byte)) :
    Traffic s (engPut s t w tile va cells).state := by
  have h := traffic_lookAt s (engEnv s t) .write va cells.length
  unfold engPut
  split
  · exact Traffic.ok (traffic_writeSpots ..)
  · split
    · exact .refl s
    · split
      next s1 l e => exact Traffic.ok ((h.of_fst e).trans ((traffic_touchSpots _ .write l s1).trans (traffic_writeSpots ..)))
      next e => exact (h.of_fst e).trans (traffic_startZero ..)
      next e => exact h.of_fst e

/-- The poison of a place of the scratchpad is cleared. -/
theorem traffic_healSpot (s : State) (x : Spot) : Traffic s (match x with
    | .pad c o _ => modCluster s c fun k => { k with sramBad := k.sramBad.filter fun w => w != o / 8 }
    | .mem _ _ _ _ => s) := by
  cases x with
  | pad c o n => exact traffic_sram s c _ fun _ => rfl
  | mem _ _ _ _ => exact .refl s

theorem traffic_healWord (s : State) (t : Team) (va : Nat) : Traffic s (healWord s t va) := by
  unfold healWord
  generalize padSpots t (va - Config.aperture) 8 = l
  split
  · exact Traffic.fold traffic_healSpot l s
  · split
    · exact .refl s
    · split
      · exact ⟨rfl, rfl, fun _ => rfl⟩
      · exact .refl s

/-! ## Memory and SRAM under writes of the scratchpad and cleared poison -/

theorem healWord_mem (s : State) (t : Team) (va : Nat) : (healWord s t va).mem = s.mem := by
  have hfold : ∀ (l : List Spot) (s : State), (l.foldl (fun s x => match x with
      | .pad c o _ => modCluster s c fun k => { k with sramBad := k.sramBad.filter fun w => w != o / 8 }
      | .mem _ _ _ _ => s) s).mem = s.mem := by
    intro l
    induction l with
    | nil => exact fun s => rfl
    | cons x l ih => exact fun s => (ih _).trans (by cases x <;> rfl)
  unfold healWord
  generalize padSpots t (va - Config.aperture) 8 = l
  split
  · exact hfold l s
  · split
    · rfl
    · split <;> rfl

theorem healWord_sram (s : State) (t : Team) (va k : Nat) : (clusterOf (healWord s t va) k).sram = (clusterOf s k).sram := by
  have hfold : ∀ (l : List Spot) (s : State), (clusterOf (l.foldl (fun s x => match x with
      | .pad c o _ => modCluster s c fun k => { k with sramBad := k.sramBad.filter fun w => w != o / 8 }
      | .mem _ _ _ _ => s) s) k).sram = (clusterOf s k).sram := by
    intro l
    induction l with
    | nil => exact fun s => rfl
    | cons x l ih =>
      refine fun s => (ih _).trans ?_
      cases x with
      | pad c o n =>
        dsimp only
        rw [clusterOf_modCluster]
        split
        next h => rw [h]
        · rfl
      | mem _ _ _ _ => rfl
  unfold healWord
  generalize padSpots t (va - Config.aperture) 8 = l
  split
  · exact hfold l s
  · split
    · rfl
    · split <;> rfl

/-- The places of the scratchpad are all in SRAM. -/
def allPads (l : List Spot) : Prop := ∀ x ∈ l, ∃ c o n, x = Spot.pad c o n

theorem allPads_padSpots (t : Team) (off n : Nat) : allPads (padSpots t off n) := by
  intro x hx
  unfold padSpots at hx
  split at hx
  · exact ⟨_, _, _, List.mem_singleton.mp hx⟩
  · rcases List.mem_cons.mp hx with rfl | hx
    · exact ⟨_, _, _, rfl⟩
    · exact ⟨_, _, _, List.mem_singleton.mp hx⟩

theorem writeSpots_mem (w : Writer) : ∀ (l : List Spot) (bs : List Byte) (s : State), allPads l → (writeSpots s w l bs).mem = s.mem
  | [], _, _, _ => rfl
  | x :: l, bs, s, h => by
    obtain ⟨c, o, n, rfl⟩ := h _ List.mem_cons_self
    exact (writeSpots_mem w l (bs.drop n) _ fun y hy => h y (List.mem_cons_of_mem _ hy)).trans rfl

theorem padPut_mem (s : State) (t : Team) (w : Writer) (va : Nat) (bs : List Byte) : (padPut s t w va bs).mem = s.mem :=
  writeSpots_mem w _ bs s (allPads_padSpots t _ _)

end Sys2Proof.Machine
end

