-- ==== Sys2Proof/Proofs/CopyLanding.lean ====
section
/-!
COPY_BYTES_LAND: the next aligned word of a copy channel's command (R77, R83, R84, R86, R100, R228, R230, R233).
-/

namespace Sys2Proof.Machine

/-! ## The word -/

/-- How far a test holds from the start of a range. -/
theorem takeWhile_span (p : Nat → Bool) : ∀ n a, ((span a n).takeWhile p).length ≤ n ∧ (∀ i, i < ((span a n).takeWhile p).length → p (a + i) = true) ∧
    (((span a n).takeWhile p).length = n ∨ p (a + ((span a n).takeWhile p).length) = false)
  | 0, _ => ⟨Nat.le_refl 0, fun _ h => absurd h (Nat.not_lt_zero _), .inl rfl⟩
  | n + 1, a => by
    obtain ⟨hle, hall, hend⟩ := takeWhile_span p n (a + 1)
    rw [span, List.takeWhile_cons]
    cases hp : p a with
    | false => exact ⟨Nat.zero_le _, fun _ h => absurd h (Nat.not_lt_zero _), .inr hp⟩
    | true =>
      rw [if_pos rfl, List.length_cons]
      refine ⟨Nat.succ_le_succ hle, fun i hi => ?_, hend.imp (congrArg (· + 1)) fun h => by rwa [Nat.add_assoc, Nat.add_comm 1] at h⟩
      cases i with
      | zero => exact hp
      | succ i => rw [← Nat.add_assoc, Nat.add_right_comm]; exact hall i (Nat.lt_of_succ_lt_succ hi)

/-- The bytes that land together lie in one aligned word, which they fill as far as the destination goes. -/
theorem wordBytes_spec {r : Run} {total j m : Nat} (hj : j < total) (hm : m = wordBytes r total j) :
    1 ≤ m ∧ m ≤ 4 ∧ (∀ i, i < m → destAt r (j + i) / 4 = destAt r j / 4) ∧ (m = 4 ∨ j + m = total ∨ destAt r (j + m) / 4 ≠ destAt r j / 4) := by
  subst hm
  obtain ⟨p, hp⟩ : ∃ p : Nat → Bool, p = fun i => decide (j + i < total) && destAt r (j + i) / 4 == destAt r j / 4 := ⟨_, rfl⟩
  have hiff (i : Nat) : p i = true ↔ j + i < total ∧ destAt r (j + i) / 4 = destAt r j / 4 := by simp [hp]
  have hspec := takeWhile_span p 4 0
  rw [show ((span 0 4).takeWhile p).length = wordBytes r total j by rw [hp]; rfl] at hspec
  simp only [Nat.zero_add] at hspec
  obtain ⟨hle, hall, hend⟩ := hspec
  have hone : 1 ≤ wordBytes r total j := by
    refine Nat.one_le_iff_ne_zero.mpr fun h0 => ?_
    rw [h0] at hend
    rcases hend with h | h
    · exact absurd h (by decide)
    · exact Bool.eq_false_iff.mp h ((hiff 0).mpr ⟨hj, rfl⟩)
  refine ⟨hone, hle, fun i hi => ((hiff i).mp (hall i hi)).2, hend.imp_right fun h => ?_⟩
  have hlast := ((hiff _).mp (hall (wordBytes r total j - 1) (by omega))).1
  by_cases htot : j + wordBytes r total j < total
  · exact .inr fun heq => Bool.eq_false_iff.mp h ((hiff _).mpr ⟨htot, heq⟩)
  · exact .inl (by omega)

/-! ## One word lands -/

/-- A compressing copy. -/
def Run.packs (r : Run) : Bool := r.cmd.kind != .select && (copyForm r.cmd.regs).xf == 2

/-- The bytes of the word as they are written. -/
def Run.wordOf (r : Run) (raw : List Byte) : List Byte := if r.packs || r.cmd.kind = .select then raw else padded r.cmd r.landed raw

/-- The blocks whose last byte is among the m that land. -/
def Run.ending (r : Run) (m : Nat) : List (Nat × Packed) := if r.packs then blocksEnding r r.landed m else []

/-- The bytes that the checksum and the muster count. -/
def Run.summed (r : Run) (m : Nat) (raw : List Byte) : List Byte :=
  if r.packs then (r.ending m).flatMap fun x => ((r.img.getD []).drop (1024 * x.1)).take 1024 else r.wordOf raw

/-- The address behind the last of the m bytes. -/
def Run.last (r : Run) (m : Nat) : Nat := destAt r (r.landed + m - 1) + 1

/-- The entry of a block is written at its address; that of an odd block completes an 8-byte word. -/
def entryAt (t : Team) (w : Writer) (s : State) (i at_ : Nat) (bs : List Byte) : State :=
  if i % 2 = 1 then healWord (padPut s t w at_ bs) t (at_ - 4) else padPut s t w at_ bs

/-- A table entry of a compressed tile is written behind its block (R77). -/
def putEntry (t : Team) (w : Writer) (tile : Option (Nat × Tile)) (s : State) (x : Nat × Packed) : State :=
  match tile with
  | some (_, y) => entryAt t w s x.1 (Config.aperture + y.offt * 128 + 4 * x.1) (toBytes 4 x.2.entry)
  | none => s

/-- The entries of the blocks that have ended are written. -/
def putEntries (t : Team) (c ch : Nat) (r : Run) (m : Nat) (s : State) : State := (r.ending m).foldl (putEntry t (cmdWriter c ch r.cmd) r.cmd.dstTile) s

/-- The poison of an aligned 8-byte word that has been written whole is cleared (R409). -/
def healEnd (t : Team) (r : Run) (m : Nat) (s : State) : State := if endsWhole r (r.landed + m) then healWord s t (r.last m - 8) else s

/-- The write pointer rises, and the run has landed m bytes more. -/
def landed (c ch : Nat) (r : Run) (m : Nat) (raw : List Byte) (words : WordsRead) (s : State) : State :=
  modChan (raisePointer s c ch r.cmd (r.last m)) c ch fun h =>
    { h with run := h.run.map fun x => { x with landed := r.landed + m, crc := crc32c x.crc (r.summed m raw), words := words } }

/-- A run's next word lands: its bytes are read and written, and it is not over. -/
structure Lands (s : State) (t : Team) (c ch : Nat) (r : Run) (m : Nat) (s1 : State) (raw : List Byte) (words : WordsRead) (s2 : State) : Prop where
  team : t = teamOf s r.cmd.team
  unended : r.ended = false
  sound : r.err = 0
  more : r.landed < runTotal r
  size : m = wordBytes r (runTotal r) r.landed
  reads : landBytes s t c ch r r.landed m = (.ok s1 raw, words)
  puts : engPut s1 t (cmdWriter c ch r.cmd) r.cmd.dstTile.isSome (destAt r r.landed) (destCells r r.landed (r.wordOf raw)) = .ok s2 []

theorem entryAt_mem (t : Team) (w : Writer) (s : State) (i at_ : Nat) (bs : List Byte) : (entryAt t w s i at_ bs).mem = s.mem := by
  unfold entryAt
  split
  · exact (healWord_mem _ t _).trans (padPut_mem s t w at_ bs)
  · exact padPut_mem s t w at_ bs

theorem traffic_entryAt (t : Team) (w : Writer) (s : State) (i at_ : Nat) (bs : List Byte) : Traffic s (entryAt t w s i at_ bs) :=
  .of_ite ((traffic_padPut ..).trans (traffic_healWord ..)) (traffic_padPut ..)

theorem putEntry_mem (t : Team) (w : Writer) (tile : Option (Nat × Tile)) (s : State) (x : Nat × Packed) : (putEntry t w tile s x).mem = s.mem := by
  cases tile with
  | none => rfl
  | some y => exact entryAt_mem ..

theorem traffic_putEntry (t : Team) (w : Writer) (tile : Option (Nat × Tile)) (s : State) (x : Nat × Packed) : Traffic s (putEntry t w tile s x) := by
  cases tile with
  | none => exact .refl s
  | some y => exact traffic_entryAt ..

theorem putEntries_mem (t : Team) (c ch : Nat) (r : Run) (m : Nat) (s : State) : (putEntries t c ch r m s).mem = s.mem := by
  unfold putEntries
  generalize r.ending m = l
  induction l generalizing s with
  | nil => rfl
  | cons x l ih => exact (ih _).trans (putEntry_mem ..)

theorem traffic_putEntries (t : Team) (c ch : Nat) (r : Run) (m : Nat) (s : State) : Traffic s (putEntries t c ch r m s) := .fold (traffic_putEntry _ _ _) _ _

theorem healEnd_mem (t : Team) (r : Run) (m : Nat) (s : State) : (healEnd t r m s).mem = s.mem := by
  unfold healEnd
  split
  · exact healWord_mem ..
  · rfl

theorem healEnd_sram (t : Team) (r : Run) (m : Nat) (s : State) (k : Nat) : (clusterOf (healEnd t r m s) k).sram = (clusterOf s k).sram := by
  unfold healEnd
  split
  · exact healWord_sram ..
  · rfl

theorem traffic_healEnd (t : Team) (r : Run) (m : Nat) (s : State) : Traffic s (healEnd t r m s) := .of_ite (traffic_healWord ..) (.refl s)

theorem traffic_landBytes (s : State) (t : Team) (c ch : Nat) (r : Run) (j m : Nat) : Traffic s (landBytes s t c ch r j m).1.state := by
  unfold landBytes
  dsimp only
  split
  · exact .refl s
  · split
    · exact .refl s
    · split
      · exact traffic_takeImage ..
      · exact traffic_takePieces ..

/-- The pointer and the run leave memory and the poison as they stand. -/
theorem raisePointer_frame (s : State) (c ch : Nat) (k : Cmd) (p : Nat) : ∃ l, raisePointer s c ch k p = { s with teams := l } := by
  unfold raisePointer
  split
  · exact ⟨s.teams, rfl⟩
  · exact ⟨_, rfl⟩

section word

variable {s s1 s2 : State} {t : Team} {c ch m : Nat} {r : Run} {h : Chan} {raw : List Byte} {words : WordsRead}

theorem Lands.ready (hl : Lands s t c ch r m s1 raw words s2) : nextBlock s t c ch r = (s, some r) := by
  unfold nextBlock
  exact if_pos (by simp [hl.more])

theorem Lands.landNext (hl : Lands s t c ch r m s1 raw words s2) :
    Machine.landNext s c ch r = .ok (landed c ch r m raw words (healEnd t r m (putEntries t c ch r m s2))) (r.summed m raw).length := by
  unfold Machine.landNext
  extract_lets t' w j total pack m' ends last
  rw [if_neg (by rw [hl.unended]; exact nofun), if_neg (by rw [hl.sound]; simp), if_neg (Nat.not_le.mpr hl.more)]
  have hm : m' = m := hl.size.symm
  have ht : t' = t := hl.team.symm
  clear_value m' t'
  subst hm ht
  rw [show landBytes s t' c ch r j m' = _ from hl.reads]
  dsimp -zeta only
  extract_lets bs
  rw [show engPut s1 t' w r.cmd.dstTile.isSome (destAt r j) (destCells r j bs) = _ from hl.puts]
  rfl

/-- The state in which the word has been written, with the entries of its blocks. -/
theorem Lands.traffic (hl : Lands s t c ch r m s1 raw words s2) : Traffic s (healEnd t r m (putEntries t c ch r m s2)) := by
  have h1 : Traffic s s1 := (traffic_landBytes s t c ch r r.landed m).of_eng_fst (x := .ok s1 raw) hl.reads
  have h2 : Traffic s1 s2 := (traffic_engPut _ _ _ _ _ _).of_eng (x := .ok s2 []) hl.puts
  exact h1.trans (h2.trans ((traffic_putEntries ..).trans (traffic_healEnd ..)))

theorem landed_run (hr : (chanOf s c ch).run = some r) :
    (chanOf (landed c ch r m raw words s) c ch).run = some { r with landed := r.landed + m, crc := crc32c r.crc (r.summed m raw), words := words } := by
  unfold landed
  obtain ⟨l, hl⟩ := raisePointer_frame s c ch r.cmd (r.last m)
  rw [hl, chanOf_modChan]
  show Option.map _ (chanOf s c ch).run = _
  rw [hr]
  rfl

theorem landed_frame : (landed c ch r m raw words s).mem = s.mem ∧ (landed c ch r m raw words s).poison = s.poison ∧
    ∀ k, (clusterOf (landed c ch r m raw words s) k).sram = (clusterOf s k).sram ∧ (clusterOf (landed c ch r m raw words s) k).sramBad = (clusterOf s k).sramBad := by
  unfold landed
  obtain ⟨l, hl⟩ := raisePointer_frame s c ch r.cmd (r.last m)
  rw [hl]
  exact ⟨rfl, rfl, fun k => sram_modChan { s with teams := l } c ch _ k⟩

theorem findTeam_modCount {s : State} {k : Nat} {t : Team} (h : findTeam s k = some t) (ch : Nat) (f : ChanCount → ChanCount) :
    findTeam (modCount s k ch f) k = some { t with chans := mput {} t.chans ch (f (countOf t ch)) } :=
  (findTeam_modTeam_same s k (f := fun t => { t with chans := mput {} t.chans ch (f (countOf t ch)) }) fun _ => rfl).trans (congrArg _ h)

theorem countOf_modCount {s : State} {k : Nat} {t : Team} (h : findTeam s k = some t) (ch : Nat) (f : ChanCount → ChanCount) :
    countOf (teamOf (modCount s k ch f) k) ch = f (countOf t ch) := by
  rw [teamOf_found (findTeam_modCount h ch f)]
  exact mget_mput_same ..

/-- The team's write pointer is the last address behind which its latest command has written. -/
theorem landed_pointer (ht : (findTeam s r.cmd.team).isSome) (hc : ((chanOf s c ch).cmds.any fun k => k.team == r.cmd.team) = false) :
    (countOf (teamOf (landed c ch r m raw words s) r.cmd.team) ch).wptr = BitVec.ofNat 64 (r.last m) := by
  obtain ⟨t, ht⟩ := Option.isSome_iff_exists.mp ht
  have hraise : raisePointer s c ch r.cmd (r.last m) =
      modCount s r.cmd.team ch fun n => { n with wptr := BitVec.ofNat 64 (r.last m), view := cmdWrites s c ch r.cmd } := if_neg (by rw [hc]; exact nofun)
  unfold landed
  rw [hraise, teamOf_modChan, countOf_modCount ht]

theorem Lands.landWord (hl : Lands s t c ch r m s1 raw words s2) :
    Machine.landWord s c ch r = .ok (landed c ch r m raw words (healEnd t r m (putEntries t c ch r m s2))) (r.summed m raw).length := by
  unfold Machine.landWord
  rw [← hl.team, hl.ready]
  dsimp only
  rw [if_pos rfl]
  exact hl.landNext

/-- All m bytes land with the one word. -/
theorem Lands.landWords (hl : Lands s t c ch r m s1 raw words s2) (hr : (chanOf s c ch).run = some r) :
    Machine.landWords c ch m m s = (landed c ch r m raw words (healEnd t r m (putEntries t c ch r m s2)), (r.summed m raw).length) := by
  obtain ⟨hone, -⟩ := wordBytes_spec hl.more hl.size
  obtain ⟨f, rfl⟩ := Nat.exists_eq_succ_of_ne_zero (Nat.one_le_iff_ne_zero.mp hone)
  have hrun := landed_run (m := f + 1) (raw := raw) (words := words) ((congrArg Chan.run (hl.traffic.chan c ch)).trans hr)
  have hdone (g : Nat) (u : State) : Machine.landWords c ch g 0 u = (u, 0) := by cases g <;> rfl
  show Machine.landWords c ch (f + 1) (f + 1) s = _
  unfold Machine.landWords
  rw [if_neg (Nat.succ_ne_zero f), hr]
  dsimp only
  rw [hl.landWord]
  dsimp only
  rw [hrun]
  simp only [Option.map_some, Option.getD_some, Nat.add_sub_cancel_left, Nat.sub_self, hdone, Nat.add_zero]

theorem Lands.landBy (hl : Lands s t c ch r m s1 raw words s2) (hr : (chanOf s c ch).run = some r) {u : State}
    (hu : u = landed c ch r m raw words (healEnd t r m (putEntries t c ch r m s2))) :
    exec (.copyBytesLand c ch m) s = .next (if r.summed m raw = [] ∨ musOf r.cmd = 0 then u
      else updateMuster u r.cmd.team (musOf r.cmd) 0 0 (BitVec.ofNat 32 (r.summed m raw).length) (cmdWrites u c ch r.cmd)) := by
  show Host.Outcome.next (Machine.landBy s c ch m) = _
  unfold Machine.landBy
  rw [hr]
  dsimp only
  rw [hl.landWords hr, ← hu]
  exact congrArg _ (if_congr (by simp) rfl rfl)

/-- What a word's landing changes of memory, the scratchpad, the run and the team's write pointer. -/
theorem Lands.effect (hl : Lands s t c ch r m s1 raw words s2) (hh : h = chanOf s c ch) (hr : h.run = some r) :
    ∃ u, exec (.copyBytesLand c ch m) s = .next (if r.summed m raw = [] ∨ musOf r.cmd = 0 then u
        else updateMuster u r.cmd.team (musOf r.cmd) 0 0 (BitVec.ofNat 32 (r.summed m raw).length) (cmdWrites u c ch r.cmd)) ∧
      u.mem = s2.mem ∧ u.poison = (healEnd t r m (putEntries t c ch r m s2)).poison ∧
      (∀ k, (clusterOf u k).sram = (clusterOf (putEntries t c ch r m s2) k).sram ∧
        (clusterOf u k).sramBad = (clusterOf (healEnd t r m (putEntries t c ch r m s2)) k).sramBad) ∧
      (chanOf u c ch).run = some { r with landed := r.landed + m, crc := crc32c r.crc (r.summed m raw), words := words } ∧
      ((findTeam s r.cmd.team).isSome → (h.cmds.any fun k => k.team == r.cmd.team) = false →
        (countOf (teamOf u r.cmd.team) ch).wptr = BitVec.ofNat 64 (r.last m)) := by
  subst hh
  have hchan := hl.traffic.chan c ch
  obtain ⟨hmem, hpoison, hsram⟩ := landed_frame (s := healEnd t r m (putEntries t c ch r m s2)) (c := c) (ch := ch) (m := m) (r := r) (raw := raw) (words := words)
  exact ⟨_, hl.landBy hr rfl, hmem.trans ((healEnd_mem ..).trans (putEntries_mem ..)), hpoison,
    fun k => ⟨(hsram k).1.trans (healEnd_sram t r m _ k), (hsram k).2⟩, landed_run ((congrArg Chan.run hchan).trans hr),
    fun hf hc => landed_pointer ((congrArg Option.isSome (hl.traffic.team _)).trans hf) (by rw [hchan]; exact hc)⟩

end word

end Sys2Proof.Machine
end

