-- ==== Sys2Proof/Proofs/CopyCompletion.lean ====
section
/-!
COPY_COMPLETE: the stamp, the operation, the checksum and the status entry of a command that is over (R82, R84, R85, R104, R229, R230).
-/

namespace Sys2Proof.Machine

/-! ## What the end of a command changes -/

theorem teamAlive_congr {s t : State} (hg : t.groups = s.groups) (hc : t.cores = s.cores) (hs : t.saved = s.saved) (hv : t.vault = s.vault) (k : Nat) :
    teamAlive t k = teamAlive s k := by
  unfold teamAlive
  rw [hg, hc, hs, hv]

/-- A team whose engine operation is complete (R82). -/
def opDone (op : Nat) (status : BitVec 8) (wrote : List Nat) (v : View) (t : Team) : Team :=
  { t with
    ops := (t.ops.map fun o => if o.id = op then { o with complete := true, status := status } else o).filter fun o =>
      !(o.id == op && (!o.hb || o.tiles.isEmpty))
    tiles := wrote.foldl (fun l i => mput {} l i { mget {} l i with view := (mget {} l i).view.join v }) t.tiles }

theorem completeOp_eq (s : State) (team op : Nat) (status : BitVec 8) (wrote : List Nat) (v : View) :
    completeOp s team op status wrote v = modTeam s team (opDone op status wrote v) := rfl

theorem findTeam_completeOp {s : State} {k : Nat} {t : Team} (h : findTeam s k = some t) (op : Nat) (status : BitVec 8) (wrote : List Nat) (v : View) :
    findTeam (completeOp s k op status wrote v) k = some (opDone op status wrote v t) := by
  rw [completeOp_eq, findTeam_modTeam_same s k (f := opDone op status wrote v) fun _ => rfl, h, Option.map_some]

/-- An operation that names no tile is gone once it is complete. -/
theorem opDone_gone {op : Nat} {t : Team} (h : ∀ o ∈ t.ops, o.id = op → o.tiles = []) (status : BitVec 8) (wrote : List Nat) (v : View) :
    ((opDone op status wrote v t).ops.any fun o => o.id == op) = false := by
  refine List.any_eq_false.mpr fun o ho hid => ?_
  obtain ⟨hmap, hkeep⟩ := List.mem_filter.mp ho
  obtain ⟨o', ho', rfl⟩ := List.mem_map.mp hmap
  by_cases hop : o'.id = op
  · simp [hop, h o' ho' hop] at hkeep
  · rw [if_neg hop] at hid
    exact hop (by simpa using hid)

/-- The entry that a command with COMP's status bit has its channel post (R229). -/
def postsOf (s : State) (c ch : Nat) (k : Cmd) (err : BitVec 8) : List Post :=
  if wantsStatus k then [{ team := k.team, op := k.opId, queue := ch / 2, entry := statusEntry ch k.cnum err, view := cmdWrites s c ch k }] else []

theorem chanOf_addPost (s : State) (c ch : Nat) (k : Cmd) (err : BitVec 8) :
    chanOf (addPost s c ch k err (cmdWrites s c ch k)) c ch = { chanOf s c ch with post := (chanOf s c ch).post ++ postsOf s c ch k err } := by
  unfold addPost postsOf
  split
  · exact chanOf_modChan ..
  · rw [List.append_nil]

theorem addPost_frame (s : State) (c ch : Nat) (k : Cmd) (err : BitVec 8) (v : View) : ∃ m, addPost s c ch k err v = { s with clusters := m } := by
  unfold addPost
  split
  · exact ⟨_, rfl⟩
  · exact ⟨s.clusters, rfl⟩

/-- The checksum of a copy with CSUM joins the team's counts (R230). -/
def countSum (s : State) (ch : Nat) (r : Run) : State :=
  if r.cmd.kind != .select && (copyForm r.cmd.regs).csum then modCount s r.cmd.team ch fun n => { n with crcs := (r.cmd.sum, ~~~r.crc) :: n.crcs } else s

theorem countSum_frame (s : State) (ch : Nat) (r : Run) : ∃ l, countSum s ch r = { s with teams := l } := by
  unfold countSum
  split
  · exact ⟨_, rfl⟩
  · exact ⟨s.teams, rfl⟩

/-- The team after its checksum was counted. -/
theorem findTeam_countSum {s : State} {ch : Nat} {r : Run} {t : Team} (h : findTeam s r.cmd.team = some t) :
    ∃ m, findTeam (countSum s ch r) r.cmd.team = some { t with chans := m } ∧
      (r.cmd.kind ≠ .select → (copyForm r.cmd.regs).csum = true → (mget {} m ch).crcs.head? = some (r.cmd.sum, ~~~r.crc)) := by
  unfold countSum
  split
  · refine ⟨_, findTeam_modCount h ch _, fun _ _ => ?_⟩
    rw [mget_mput_same]
    rfl
  next hno => exact ⟨t.chans, h, fun hk hc => absurd (by simp [hk, hc]) hno⟩

/-! ## A command that is no record of a chain -/

/-- The state with the command's checksum counted and its operation complete. -/
def opClosed (s : State) (c ch : Nat) (r : Run) (err : BitVec 8) : State :=
  completeOp (countSum s ch r) r.cmd.team r.cmd.opId err (tileNo r.cmd.dstTile) (cmdWrites (countSum s ch r) c ch r.cmd)

/-- The state in which the team of a command that is over is settled. -/
def closedRun (s : State) (c ch : Nat) (r : Run) (err : BitVec 8) : State :=
  modChan (addPost (opClosed s c ch r err) c ch r.cmd err (cmdWrites (opClosed s c ch r err) c ch r.cmd)) c ch
    fun h => { h with run := none, chain := h.chain.map fun x => { x with wrote := x.wrote.join (cmdWrites (opClosed s c ch r err) c ch r.cmd) } }

section close

variable {s : State} {c ch : Nat} {r : Run} {err : BitVec 8}

theorem opClosed_frame : ∃ l, opClosed s c ch r err = { s with teams := l } := by
  obtain ⟨l, hl⟩ := countSum_frame s ch r
  unfold opClosed
  rw [hl]
  exact ⟨_, rfl⟩

theorem chanOf_opClosed : chanOf (opClosed s c ch r err) c ch = chanOf s c ch := by
  obtain ⟨l, hl⟩ := opClosed_frame (s := s) (c := c) (ch := ch) (r := r) (err := err)
  rw [hl]
  rfl

theorem postsOf_opClosed : postsOf (opClosed s c ch r err) c ch r.cmd err = postsOf s c ch r.cmd err := by
  obtain ⟨l, hl⟩ := opClosed_frame (s := s) (c := c) (ch := ch) (r := r) (err := err)
  rw [hl]
  rfl

theorem chanOf_closedRun (hc : (chanOf s c ch).chain = none) : chanOf (closedRun s c ch r err) c ch =
    { chanOf s c ch with run := none, chain := none, post := (chanOf s c ch).post ++ postsOf s c ch r.cmd err } := by
  unfold closedRun
  rw [chanOf_modChan, chanOf_addPost, chanOf_opClosed, postsOf_opClosed]
  simp only [hc, Option.map_none]

theorem closeRun_alone (hc : (chanOf s c ch).chain = none) : closeRun s c ch r err = settleTeam (closedRun s c ch r err) r.cmd.team := by
  have hch : (chanOf (closedRun s c ch r err) c ch).chain = none := by rw [chanOf_closedRun hc]
  have hx : closeRun s c ch r err = match (chanOf (closedRun s c ch r err) c ch).chain with
    | none => settleTeam (closedRun s c ch r err) r.cmd.team
    | some x =>
      if err != 0 || x.next = 0 then endChain (closedRun s c ch r err) c ch err
      else if x.next.toNat % 64 != 0 then endChain (closedRun s c ch r err) c ch 0x22
      else modChan (closedRun s c ch r err) c ch fun h => { h with chain := some { x with p := x.next } } := rfl
  rw [hx, hch]

theorem closedRun_frame : (closedRun s c ch r err).mem = s.mem ∧ ∀ k, teamAlive (closedRun s c ch r err) k = teamAlive s k := by
  obtain ⟨l, hl⟩ := opClosed_frame (s := s) (c := c) (ch := ch) (r := r) (err := err)
  unfold closedRun
  obtain ⟨m, hm⟩ := addPost_frame (opClosed s c ch r err) c ch r.cmd err (cmdWrites (opClosed s c ch r err) c ch r.cmd)
  rw [hm, hl]
  exact ⟨rfl, teamAlive_congr rfl rfl rfl rfl⟩

theorem findTeam_closedRun {t : Team} (h : findTeam s r.cmd.team = some t) :
    ∃ m v, findTeam (closedRun s c ch r err) r.cmd.team = some (opDone r.cmd.opId err (tileNo r.cmd.dstTile) v { t with chans := m }) ∧
      (r.cmd.kind ≠ .select → (copyForm r.cmd.regs).csum = true → (mget {} m ch).crcs.head? = some (r.cmd.sum, ~~~r.crc)) := by
  obtain ⟨m, hm, hcrc⟩ := findTeam_countSum (ch := ch) h
  refine ⟨m, cmdWrites (countSum s ch r) c ch r.cmd, ?_, hcrc⟩
  obtain ⟨l, hl⟩ := addPost_frame (opClosed s c ch r err) c ch r.cmd err (cmdWrites (opClosed s c ch r err) c ch r.cmd)
  unfold closedRun
  rw [hl]
  exact findTeam_completeOp hm _ _ _ _

/-- With no chain, a command of a team that goes on is over. -/
theorem closeRun_eq {t : Team} (hc : (chanOf s c ch).chain = none) (h : findTeam s r.cmd.team = some t) (hs : t.status ≠ .ended)
    (ha : teamAlive s r.cmd.team = true) : closeRun s c ch r err = closedRun s c ch r err := by
  obtain ⟨m, v, hm, -⟩ := findTeam_closedRun (c := c) (ch := ch) (err := err) h
  rw [closeRun_alone hc]
  refine settleTeam_alive ((closedRun_frame.2 _).trans ha) fun u hu => ?_
  rw [hm] at hu
  exact Option.some.inj hu ▸ hs

end close

/-! ## COPY_COMPLETE -/

/-- The stamp of a command, or nothing where it has none (R85). -/
def stampWrite (s : State) (t : Team) (c ch : Nat) (r : Run) : Eng :=
  if r.cmd.seq = 0 then .ok s []
  else engWrite s t { cmdWriter c ch r.cmd with grain := 8, rel := [stampRel s t c ch r.cmd] } (stampAt r.cmd)
    (toBytes 8 (r.cmd.seq % 2 ^ 56 + r.err.toNat * 2 ^ 56))

theorem traffic_stampWrite (s : State) (t : Team) (c ch : Nat) (r : Run) : Traffic s (stampWrite s t c ch r).state := by
  unfold stampWrite
  split
  · exact .refl s
  · exact traffic_engWrite ..

theorem completeRun_stamped {s s1 : State} {c ch : Nat} {r : Run} (h : stampWrite s (teamOf s r.cmd.team) c ch r = .ok s1 []) (hc : (chanOf s1 c ch).chain = none) :
    completeRun s c ch r = closeRun s1 c ch r r.err := by
  unfold completeRun
  extract_lets k t w w' stamp
  rw [show stamp = .ok s1 [] from h]
  show completeRun.finishCtl c ch r s1 t r.err = _
  unfold completeRun.finishCtl
  rw [hc]

/-- A command is over where it has ended, or all of its bytes have landed and nothing of its image is left to read. -/
theorem execCopyComplete_over {s : State} {c ch : Nat} {r : Run} (hr : (chanOf s c ch).run = some r)
    (hw : r.ended = true ∨ (runTotal r ≤ r.landed ∧ r.err = 0 ∧ (r.cmd.kind = .select ∨ (copyForm r.cmd.regs).xf ≠ 2 ∨
      imageSize r.cmd ≤ (r.img.getD []).length ∧ (r.img.getD []).length ≤ (runBlocks r).length * 1024))) :
    exec (.copyComplete c ch) s = .next (completeRun s c ch r) := by
  show execCopyComplete c ch s = _
  unfold execCopyComplete
  rw [hr]
  dsimp only
  refine congrArg _ (if_pos ?_)
  rcases hw with he | ⟨hl, he, hi⟩
  · rw [he]; rfl
  · have himg : (!(r.cmd.kind != .select && decide ((copyForm r.cmd.regs).xf = 2)) || r.ended ||
        decide (imageSize r.cmd ≤ (r.img.getD []).length) && decide ((r.img.getD []).length ≤ (runBlocks r).length * 1024)) = true := by
      rcases hi with h | h | ⟨h1, h2⟩
      · simp [h]
      · simp [h]
      · simp [h1, h2]
    simp only [hl, he, decide_true, Bool.true_or, Bool.and_true, himg, Bool.or_true]

theorem execCopyComplete_effect {s s1 : State} {c ch : Nat} {h : Chan} {r : Run} {k : Cmd} {t0 : Team} (hh : h = chanOf s c ch) (hr : h.run = some r)
    (hc : h.chain = none) (hk : k = r.cmd) (hf : findTeam s k.team = some t0) (hs : t0.status ≠ .ended) (ha : teamAlive s k.team = true)
    (hw : r.ended = true ∨ (runTotal r ≤ r.landed ∧ r.err = 0 ∧ (k.kind = .select ∨ (copyForm k.regs).xf ≠ 2 ∨
      imageSize k ≤ (r.img.getD []).length ∧ (r.img.getD []).length ≤ (runBlocks r).length * 1024)))
    (hst : stampWrite s t0 c ch r = .ok s1 []) :
    Goes (.copyComplete c ch) s fun t => (chanOf t c ch).run = none ∧ (chanOf t c ch).cmds = h.cmds ∧ t.mem = s1.mem ∧
      (chanOf t c ch).post = h.post ++ postsOf s1 c ch k r.err ∧
      ((∀ o ∈ t0.ops, o.id = k.opId → o.tiles = []) → ((teamOf t k.team).ops.any fun o => o.id == k.opId) = false) ∧
      (k.kind ≠ .select → (copyForm k.regs).csum = true → (countOf (teamOf t k.team) ch).crcs.head? = some (k.sum, ~~~r.crc)) := by
  subst hk hh
  have ht : Traffic s s1 := (traffic_stampWrite s t0 c ch r).of_eng (x := .ok s1 []) hst
  have hchan := ht.chan c ch
  have hc1 : (chanOf s1 c ch).chain = none := hchan ▸ hc
  have hf1 : findTeam s1 r.cmd.team = some t0 := (ht.team _).trans hf
  have ha1 : teamAlive s1 r.cmd.team = true :=
    (teamAlive_congr (by rw [ht.state]) (by rw [ht.state]) (by rw [ht.state]) (by rw [ht.state]) _).trans ha
  obtain ⟨m, v, hm, hcrc⟩ := findTeam_closedRun (c := c) (ch := ch) (err := r.err) hf1
  refine ⟨closedRun s1 c ch r r.err, ?_, ?_⟩
  · rw [execCopyComplete_over hr hw, completeRun_stamped (by rwa [teamOf_found hf]) hc1, closeRun_eq hc1 hf1 hs ha1]
  · dsimp only
    rw [chanOf_closedRun hc1, teamOf_found hm, hchan]
    exact ⟨rfl, rfl, closedRun_frame.1, rfl, fun ho => opDone_gone (t := { t0 with chans := m }) ho _ _ v, hcrc⟩

end Sys2Proof.Machine
end

