-- ==== Sys2Proof/Proofs/ChainRecords.lean ====
section
/-!
CPYC_RECORD_FETCH: a chain ends, or runs its next record (R229, R232, R233).
-/

namespace Sys2Proof.Machine

/-! ## What settling a team leaves of the channels -/

/-- Every channel's command and chain are what they were. -/
def RunsKept (s t : State) : Prop := ∀ c ch, (chanOf t c ch).run = (chanOf s c ch).run ∧ (chanOf t c ch).chain = (chanOf s c ch).chain

theorem RunsKept.refl (s : State) : RunsKept s s := fun _ _ => ⟨rfl, rfl⟩

theorem RunsKept.trans {a b d : State} (h : RunsKept a b) (k : RunsKept b d) : RunsKept a d := fun c ch =>
  ⟨(k c ch).1.trans (h c ch).1, (k c ch).2.trans (h c ch).2⟩

theorem Traffic.runs {s t : State} (h : Traffic s t) : RunsKept s t := fun c ch => by rw [h.chan]; exact ⟨rfl, rfl⟩

theorem runsKept_of_clusters {s t : State} (h : t.clusters = s.clusters) : RunsKept s t := fun c ch => by
  unfold chanOf clusterOf
  rw [h]
  exact ⟨rfl, rfl⟩

theorem mget_map {α : Type} (d : α) (f : α → α) (hf : f d = d) (k : Nat) : ∀ m : SMap α, mget d (m.map fun (i, v) => (i, f v)) k = f (mget d m k)
  | [] => hf.symm
  | (i, v) :: m => by
    have ih := mget_map d f hf k m
    by_cases h : k = i
    · simp [mget, h]
    · simpa [mget, h] using ih

/-- The status entries of a team that leaves are dropped. -/
def dropPosts (k : Nat) (c : Cluster) : Cluster :=
  { c with chans := c.chans.map fun (j, h) => (j, { h with post := h.post.filter fun p => p.team != k }) }

theorem chan_dropPosts (k : Nat) (c : Cluster) (ch : Nat) :
    mget {} (dropPosts k c).chans ch = { mget ({} : Chan) c.chans ch with post := (mget ({} : Chan) c.chans ch).post.filter fun p => p.team != k } :=
  mget_map {} (fun h : Chan => { h with post := h.post.filter fun p => p.team != k }) rfl ch c.chans

theorem clusterOf_map {f : Cluster → Cluster} (hf : f {} = {}) {s t : State} (ht : t.clusters = s.clusters.map fun (i, c) => (i, f c)) (c : Nat) :
    clusterOf t c = f (clusterOf s c) := by
  unfold clusterOf
  rw [ht]
  exact mget_map {} f hf c s.clusters

theorem runsKept_retireTeam (s : State) (k : Nat) : RunsKept s (retireTeam s k) := by
  unfold retireTeam
  extract_lets s1
  have h1 : Traffic s s1 := .fold traffic_landCourse _ s
  refine h1.runs.trans fun c ch => ?_
  have hc := fun (t : State) (ht : t.clusters = s1.clusters.map fun (i, c) => (i, dropPosts k c)) => clusterOf_map (f := dropPosts k) rfl ht c
  unfold chanOf
  rw [hc _ rfl, chan_dropPosts]
  exact ⟨rfl, rfl⟩

theorem runsKept_settleTeam (s : State) (k : Nat) : RunsKept s (settleTeam s k) := by
  have hblock (t : Team) : RunsKept s (writeBlock s t) := by
    obtain ⟨m, l, hm, he⟩ := writeBlock_traffic s t
    rw [he]
    exact hm.runs.trans (runsKept_of_clusters rfl)
  unfold settleTeam
  split
  · exact .refl s
  next t _ =>
    split
    · exact .refl s
    · extract_lets s1
      have h1 : RunsKept s s1 := by
        show RunsKept s (if _ then _ else _)
        split
        · exact .refl s
        · exact (hblock t).trans (runsKept_of_clusters rfl)
      split
      · exact h1
      · exact h1.trans (runsKept_retireTeam s1 k)

/-! ## Chains -/

theorem addPost_run (s : State) (c ch : Nat) (k : Cmd) (err : BitVec 8) (v : View) : (chanOf (addPost s c ch k err v) c ch).run = (chanOf s c ch).run := by
  unfold addPost
  split
  · rw [chanOf_modChan]
  · rfl

/-- Where a chain ends, the channel has none. -/
theorem endChain_gone {s : State} {c ch : Nat} {x : Chain} (err : BitVec 8) (hx : (chanOf s c ch).chain = some x) :
    (chanOf (endChain s c ch err) c ch).chain = none ∧ (chanOf (endChain s c ch err) c ch).run = (chanOf s c ch).run := by
  unfold endChain
  rw [hx]
  dsimp only
  obtain ⟨hrun, hchain⟩ := runsKept_settleTeam (modChan (addPost (completeOp s x.cmd.team x.cmd.opId err [] {}) c ch x.cmd err x.wrote) c ch
    fun h => { h with chain := none }) x.cmd.team c ch
  rw [hrun, hchain, chanOf_modChan]
  exact ⟨rfl, addPost_run ..⟩

theorem readRecord_free (me : Agent) : ∀ (l : List Spot) (s : State) (v : View), ∃ f, (readRecord s me v l).1 = { s with free := f }
  | [], s, _ => ⟨s.free, rfl⟩
  | x :: l, s, v => by
    unfold readRecord
    split
    next kind p cur _ =>
      extract_lets f v1
      obtain ⟨f', hf'⟩ := readRecord_free me l { s with free := f.free } v1
      exact ⟨f', hf'⟩

/-- The record's command, before its issue is counted. -/
def recordCmd (s : State) (t : Team) (x : Chain) (b : List Byte) (v : View) : Cmd :=
  { team := x.cmd.team, g := x.cmd.g, kind := .copy, regs := recordRegs b, srcTile := sideTile t (copyForm (recordRegs b)).src
    dstTile := sideTile t (copyForm (recordRegs b)).dst, at_ := s.writes, view := v }

section record

variable {s s0 s1 : State} {c ch : Nat} {x : Chain} {t0 : Team} {l : List Spot} {b : List Byte} {v : View}
  (ht : t0 = teamOf s x.cmd.team) (hlook : lookAt s (engEnv s t0) .read x.p.toNat 64 = (s0, .hit l))
  (hread : readRecord (touchSpots s0 (engEnv s t0) .read l) (cmdAgent c ch x.cmd) x.cmd.view l = (s1, b, v))

include hlook hread in
/-- The record's read leaves the channels as they are. -/
theorem record_traffic : Traffic s s1 := by
  have h0 : Traffic s s0 := (traffic_lookAt ..).of_fst hlook
  obtain ⟨f, hf⟩ := readRecord_free (cmdAgent c ch x.cmd) l (touchSpots s0 (engEnv s t0) .read l) x.cmd.view
  rw [hread] at hf
  exact h0.trans ((traffic_touchSpots _ .read l s0).trans (hf ▸ traffic_free))

theorem execCpycRecordFetch_chain (hr : (chanOf s c ch).run = none) (hp : (chanOf s c ch).post = []) (hx : (chanOf s c ch).chain = some x) :
    exec (.cpycRecordFetch c ch) s = .next (fetchRecord s c ch x) := by
  show execCpycRecordFetch c ch s = _
  unfold execCpycRecordFetch
  dsimp only
  rw [if_neg (by rw [hr, hp]; exact nofun), hx]

include ht hlook hread

/-- A record that the device does not own ends the chain. -/
theorem fetchRecord_unowned (ho : fieldOf b 0x28 4 % 2 = 0) : fetchRecord s c ch x = endChain s1 c ch 0 := by
  subst ht
  unfold fetchRecord
  extract_lets t env
  rw [show lookAt s env .read x.p.toNat 64 = _ from hlook]
  dsimp only
  rw [show readRecord (touchSpots s0 env .read l) (cmdAgent c ch x.cmd) x.cmd.view l = _ from hread]
  exact if_pos ho

/-- A record without a cause runs as one copy. -/
theorem fetchRecord_runs (ho : fieldOf b 0x28 4 % 2 = 1) (hres : recordReserved b = false)
    (hc : copyCause t0 (queueBound s1 t0 (ch / 2)) none (copyForm (recordRegs b)) = 0) :
    ∃ o n q u, (chanOf (fetchRecord s c ch x) c ch).run = some (startCopy { recordCmd s1 t0 x b v with opId := o, cnum := n, seq := q, sum := u }) ∧
      (chanOf (fetchRecord s c ch x) c ch).chain = some { x with next := BitVec.ofNat 64 (fieldOf b 0x20 8), cmd := { x.cmd with view := v } } := by
  subst ht
  unfold fetchRecord
  extract_lets t env
  rw [show lookAt s env .read x.p.toNat 64 = _ from hlook]
  dsimp -zeta only
  rw [show readRecord (touchSpots s0 env .read l) (cmdAgent c ch x.cmd) x.cmd.view l = _ from hread]
  dsimp -zeta only
  rw [if_neg (by rw [ho]; decide)]
  extract_lets regs f cs
  have hcs : cs = [] := by
    show [if recordReserved b = true then 0x22 else 0, copyCause t (queueBound s1 t (ch / 2)) none (copyForm (recordRegs b))].filter (· != 0) = []
    rw [hres, hc]
    rfl
  rw [if_neg (by rw [hcs]; exact nofun)]
  rw [chanOf_modChan]
  exact ⟨_, _, _, _, rfl, rfl⟩

end record

end Sys2Proof.Machine
end

