-- ==== Sys2Proof/Proofs/CopyEngine.lean ====
section
/-!
The cluster copy engine at work (R77, R82 to R86, R228 to R234).
-/

namespace Sys2Proof.Machine

/-! ## selk's keys -/

/-- The bytes that stand at some places of the scratchpad. -/
def bytesStanding (s : State) (l : List Spot) : List Byte := l.flatMap fun x => match x with
  | .pad c o m => sramRead s c o m
  | .mem _ _ _ _ => []

/-- With no write to miss, an engine reads the bytes that stand at a place. -/
theorem lateAt_now (s : State) (x : Source) (kind p : Nat) (cur : List Byte) (h : s.past = []) : (lateAt s x kind p cur).2 = cur := by
  unfold lateAt
  rw [h]
  exact (List.map_map).trans (List.map_id _)

theorem lateSpots_now (x : Source) : ∀ (l : List Spot) (s : State), allPads l → s.past = [] → (lateSpots s x l).2 = bytesStanding s l
  | [], _, _, _ => rfl
  | y :: l, s, hl, hp => by
    obtain ⟨c, o, n, rfl⟩ := hl _ List.mem_cons_self
    obtain ⟨f, hf⟩ := lateBytes_free s x (.pad c o n)
    have htail := lateSpots_now x l { s with free := f } (fun z hz => hl z (List.mem_cons_of_mem _ hz)) hp
    have hhead : (lateBytes s x (.pad c o n)).2 = sramRead s c o n := lateAt_now s x 0 _ _ hp
    show (lateBytes s x (.pad c o n)).2 ++ (lateSpots (lateBytes s x (.pad c o n)).1 x l).2 = sramRead s c o n ++ bytesStanding s l
    rw [hhead, hf, htail]
    rfl

/-- A read of the scratchpad meets poison, or gives what stands there where no write can be missed. -/
theorem padReadLate_cases (s : State) (t : Team) (x : Source) (va n : Nat) :
    (padGet s t va n = none ∧ padReadLate s t x va n = .stop s 0x15 va 0) ∨
    ∃ f b b', padReadLate s t x va n = .ok { s with free := f } b ∧ padGet s t va n = some b' ∧ (s.past = [] → b = b') := by
  have hpads := allPads_padSpots t (va - Config.aperture) n
  unfold padGet padReadLate
  extract_lets l
  have hl : allPads l := hpads
  clear_value l
  cases hbad : (l.any fun y => match y with | .pad c o m => padPoison s c o m | .mem _ _ _ _ => false) with
  | true => exact .inl ⟨if_pos rfl, if_pos rfl⟩
  | false =>
    obtain ⟨f, hf⟩ := lateSpots_free x l s
    have hnow := lateSpots_now x l s hl
    generalize lateSpots s x l = r at hf hnow
    obtain ⟨s1, bs⟩ := r
    obtain rfl : s1 = _ := hf
    exact .inr ⟨f, bs, bytesStanding s l, if_neg Bool.false_ne_true, if_neg Bool.false_ne_true, hnow⟩

/-- The same of readers under other names, so that no read of a literal width is evaluated. -/
theorem exists_readers : ∃ read get, padReadLate = read ∧ padGet = get ∧ (∀ s f t va n, get { s with free := f } t va n = get s t va n) ∧
    ∀ s t x va n, (get s t va n = none ∧ read s t x va n = .stop s 0x15 va 0) ∨
      ∃ f b b', read s t x va n = .ok { s with free := f } b ∧ get s t va n = some b' ∧ (s.past = [] → b = b') :=
  ⟨_, _, rfl, rfl, fun _ _ _ _ _ => rfl, padReadLate_cases⟩

/-- What is read of the keys, or the first that is poisoned, by what stands there. -/
def KeysRead (now : Prop) (get : Nat → Option (List Byte)) (vs : List Nat) : Except Nat (List Nat) → Prop
  | .ok l => l.length = vs.length ∧ (now → ∀ (i va : Nat) (b : List Byte), vs[i]? = some va → get va = some b → l[i]? = some (ofBytes b))
  | .error a => ∃ i, vs[i]? = some a ∧ get a = none ∧ ∀ (j va : Nat), j < i → vs[j]? = some va → (get va).isSome

theorem KeysRead.poisoned {now : Prop} {get : Nat → Option (List Byte)} {va : Nat} (h : get va = none) (vs : List Nat) : KeysRead now get (va :: vs) (.error va) :=
  ⟨0, rfl, h, fun j _ hj => absurd hj (Nat.not_lt_zero j)⟩

theorem KeysRead.cons {now : Prop} {get : Nat → Option (List Byte)} {va : Nat} {vs : List Nat} {b b' : List Byte} {r : Except Nat (List Nat)}
    (hget : get va = some b') (hnow : now → b = b') (h : KeysRead now get vs r) : KeysRead now get (va :: vs) (r.map (ofBytes b :: ·)) := by
  cases r with
  | ok l =>
    obtain ⟨hlen, hvals⟩ := h
    refine ⟨congrArg (· + 1) hlen, fun hp i a c hi hc => ?_⟩
    cases i with
    | zero =>
      obtain rfl : va = a := Option.some.inj hi
      rw [hget] at hc
      rw [hnow hp, Option.some.inj hc]
      rfl
    | succ i => exact hvals hp i a c hi hc
  | error a =>
    obtain ⟨i, hi, hbad, hbefore⟩ := h
    refine ⟨i + 1, hi, hbad, fun j c hj hc => ?_⟩
    cases j with
    | zero =>
      obtain rfl : va = c := Option.some.inj hc
      rw [hget]
      rfl
    | succ j => exact hbefore j c (Nat.lt_of_succ_lt_succ hj) hc

theorem readKeys_spec (t : Team) (x : Source) (vs : List Nat) (s : State) : KeysRead (s.past = []) (fun va => padGet s t va 4) vs (readKeys s t x vs).2 := by
  obtain ⟨read, get, eread, eget, hfree, hcases⟩ := exists_readers
  delta readKeys readKeys._f
  rw [eread, eget]
  induction vs generalizing s with
  | nil => exact ⟨rfl, fun _ _ _ _ h => nomatch h⟩
  | cons va vs ih =>
    rcases hcases s t x va 4 with ⟨hbad, hstop⟩ | ⟨f, b, b', hok, hget, hnow⟩
    · dsimp only
      rw [hstop]
      exact KeysRead.poisoned (get := fun va => get s t va 4) hbad vs
    · have hrest := ih { s with free := f }
      simp only [hfree] at hrest
      dsimp only
      rw [hok]
      exact KeysRead.cons (get := fun va => get s t va 4) hget hnow hrest

theorem keys_getElem? {n i : Nat} (f : Nat → Nat) (h : i < n) : ((upto n).map f)[i]? = some (f i) := by
  rw [List.getElem?_map, upto_eq_range, List.getElem?_range h]
  rfl

theorem keys_index {n i a : Nat} {f : Nat → Nat} (h : ((upto n).map f)[i]? = some a) : i < n ∧ a = f i := by
  obtain ⟨hi, -⟩ := List.getElem?_eq_some_iff.mp h
  rw [List.length_map, length_upto] at hi
  exact ⟨hi, Option.some.inj (h.symm.trans (keys_getElem? f hi))⟩

/-! ## A channel takes its oldest command -/

/-- What selk's read of its keys makes of its channel's run. -/
def SelkRun (s : State) (t : Team) (f : SelForm) (k : Cmd) (run : Option Run) : Except Nat (List Nat) → Prop
  | .ok l => run = some { cmd := k, img := some (selResults f l) } ∧ l.length = f.n ∧
      (s.past = [] → ∀ i b, i < f.n → padGet s t (f.keys + 4 * i) 4 = some b → nth 0 l i = ofBytes b)
  | .error a => run = some { cmd := k, img := some [], err := 0x15, errAt := a } ∧
      ∃ i, i < f.n ∧ a = f.keys + 4 * i ∧ padGet s t a 4 = none ∧ ∀ j, j < i → (padGet s t (f.keys + 4 * j) 4).isSome

section takes

variable {s : State} {c ch : Nat} {h : Chan} {k : Cmd} {ks : List Cmd} (hh : h = chanOf s c ch) (hk : h.cmds = k :: ks) (hi : chanIdle h = true)

include hh hk hi

theorem execCopyExecute_takes (hkind : k.kind = .copy ∨ k.kind = .gather) : Goes (.copyExecute c ch) s fun t => (chanOf t c ch).cmds = ks ∧
    (chanOf t c ch).run = some { cmd := k, img := if (copyForm k.regs).xf = 2 then some [] else none } := by
  subst hh
  unfold Goes
  show ∃ t, execCopyExecute c ch s = .next t ∧ _
  unfold execCopyExecute
  dsimp only
  rw [hk]
  refine ⟨_, if_pos (by rw [hi]; rcases hkind with h | h <;> simp [h]), ?_⟩
  rw [chanOf_modChan]
  exact ⟨rfl, rfl⟩

theorem execSelkExecute_takes (hkind : k.kind = .select) {s1 : State} {x : Except Nat (List Nat)}
    (hr : readKeys s (teamOf s k.team) (cmdSource c ch k) ((upto (selForm k.regs).n).map fun i => (selForm k.regs).keys + 4 * i) = (s1, x)) :
    Goes (.selkExecute c ch) s fun t => (chanOf t c ch).cmds = ks ∧ SelkRun s (teamOf s k.team) (selForm k.regs) k (chanOf t c ch).run x := by
  have hspec := readKeys_spec (teamOf s k.team) (cmdSource c ch k) ((upto (selForm k.regs).n).map fun i => (selForm k.regs).keys + 4 * i) s
  subst hh
  unfold Goes
  show ∃ t, execSelkExecute c ch s = .next t ∧ _
  unfold execSelkExecute
  dsimp only
  rw [hk]
  dsimp only
  rw [if_pos (by rw [hi, hkind]; rfl)]
  rw [hr] at hspec ⊢
  refine ⟨_, rfl, ?_⟩
  rw [chanOf_modChan]
  cases x with
  | ok l =>
    obtain ⟨hlen, hvals⟩ := hspec
    refine ⟨rfl, rfl, by rw [hlen, List.length_map, length_upto], fun hp i b hi hb => ?_⟩
    rw [nth_getElem?, hvals hp i _ b (keys_getElem? _ hi) hb]
    rfl
  | error a =>
    obtain ⟨i, hia, hbad, hbefore⟩ := hspec
    obtain ⟨hin, rfl⟩ := keys_index hia
    exact ⟨rfl, rfl, i, hin, rfl, hbad, fun j hj => hbefore j _ hj (keys_getElem? _ (Nat.lt_trans hj hin))⟩

end takes

/-! ## Hand-backs and status entries -/

/-- The operation no longer names the tile, and is gone once it names none. -/
def handed (o : EngOp) (i : Nat) (t : Team) : Team :=
  { t with ops := (t.ops.map fun x => if x.id = o.id then { x with tiles := x.tiles.filter (· != i) } else x).filter fun x =>
      !(x.id == o.id && x.tiles.isEmpty) }

theorem handBack_due {s : State} {team i : Nat} {o : EngOp} (h : dueHandBack i (teamOf s team).ops = some o) :
    handBack s team i = modTile (modTeam s team (handed o i)) team i fun x => { x with own := false, status := o.status, pend := false } := by
  unfold handBack
  rw [h]
  rfl

theorem tileOf_modTile {s : State} {k : Nat} {t : Team} (h : findTeam s k = some t) (i : Nat) (f : Tile → Tile) :
    tileOf (teamOf (modTile s k i f) k) i = f (tileOf t i) := by
  unfold modTile
  rw [teamOf_found ((findTeam_modTeam_same s k (f := fun t => { t with tiles := mput {} t.tiles i (f (tileOf t i)) }) fun _ => rfl).trans (congrArg _ h))]
  exact mget_mput_same ..

theorem execHandBack_effect (s : State) (team i : Nat) : match dueHandBack i (teamOf s team).ops with
    | none => exec (.handBack team i) s = .next s
    | some o => Goes (.handBack team i) s fun t =>
        tileOf (teamOf t team) i = { tileOf (teamOf s team) i with own := false, status := o.status, pend := false } := by
  cases hd : dueHandBack i (teamOf s team).ops with
  | none =>
    show Host.Outcome.next (handBack s team i) = _
    unfold handBack
    rw [hd]
  | some o =>
    refine ⟨_, congrArg Host.Outcome.next (handBack_due hd), ?_⟩
    cases hf : findTeam s team with
    | none =>
      unfold teamOf at hd
      rw [hf] at hd
      exact nomatch hd
    | some t =>
      rw [teamOf_found hf]
      exact tileOf_modTile (t := handed o i t) ((findTeam_modTeam_same s team (f := handed o i) fun _ => rfl).trans (congrArg _ hf)) i _

theorem execStatusEntryPost_effect {s : State} {c ch : Nat} {p : Post} {ps : List Post} (hp : (chanOf s c ch).post = p :: ps) (hf : (findTeam s p.team).isSome) :
    if (teamOf s p.team).ops.any (fun o => o.id == p.op) || 16 ≤ (queueOf (teamOf s p.team) p.queue).length then exec (.statusEntryPost c ch) s = .next s
    else Goes (.statusEntryPost c ch) s fun t => (chanOf t c ch).post = ps ∧
      queueOf (teamOf t p.team) p.queue = queueOf (teamOf s p.team) p.queue ++ [p.entry] := by
  obtain ⟨t, hf⟩ := Option.isSome_iff_exists.mp hf
  have hx : exec (.statusEntryPost c ch) s = execStatusEntryPost c ch s := rfl
  unfold Goes
  rw [hx]
  unfold execStatusEntryPost
  rw [hp]
  dsimp only
  split
  · rfl
  · refine ⟨_, rfl, ?_⟩
    rw [chanOf_modChan, teamOf_modChan, queueOf_pushQueue hf, teamOf_found hf]
    exact ⟨rfl, rfl⟩

end Sys2Proof.Machine

namespace Sys2Proof
open Machine

/-- Settles O48: a word's landing by `Lands.landBy`, the end of a command by `execCopyComplete_effect`, a chain's record by `fetchRecord_runs`. -/
theorem copyEngineRunsItsChannels : Obligations.CopyEngineRunsItsChannels := by
  unfold Obligations.CopyEngineRunsItsChannels
  refine fun s c ch h hh => ⟨fun k ks hk hi => ⟨execCopyExecute_takes hh hk hi, fun hsel f t0 at_ s1 x hf ht ha hr =>
    ?_⟩, fun hr => ⟨?_, ?_⟩, ?_, ?_, ?_, execHandBack_effect s, fun p ps hp hf =>
    execStatusEntryPost_effect (hh ▸ hp) hf⟩
  · subst hf ht ha
    obtain ⟨t, hx, hcmds, hrun⟩ := execSelkExecute_takes hh hk hi hsel hr
    exact ⟨t, hx, hcmds, by cases x <;> exact hrun⟩
  · subst hh
    show Host.Outcome.next (landBy s c ch 4) = _
    unfold landBy
    rw [hr]
  · subst hh
    show execCopyComplete c ch s = _
    unfold execCopyComplete
    rw [hr]
  · intro r m last t0 w pack s1 raw words bs s2 s3 s4 ends summed hr ht hw hpack hended herr hmore hm hreads _ hbs hputs hends hs3 hlast hs4 hsummed
    subst hw hpack hbs hends hlast
    have hl : Lands s t0 c ch r m s1 raw words s2 := ⟨ht, hended, herr, hmore, hm, hreads, by
      rw [← hputs]
      exact congrArg (fun b => engPut s1 t0 (cmdWriter c ch r.cmd) r.cmd.dstTile.isSome (destAt r r.landed) (destCells r r.landed b)) (if_congr (by simp [Run.packs]) rfl rfl)⟩
    have hsum : summed = r.summed m raw := hsummed.trans (if_congr Iff.rfl rfl (if_congr (by simp [Run.packs]) rfl rfl))
    have hent : s3 = putEntries t0 c ch r m s2 := hs3
    have hheal : s4 = healEnd t0 r m s3 := hs4
    rw [hheal, hent, hsum]
    obtain ⟨u, hx, hmem, hpoison, hsram, hrun, hptr⟩ := hl.effect hh hr
    exact ⟨u, hx, hmem, hpoison, hsram, hrun, hptr, wordBytes_spec hmore hm⟩
  · intro r k t0 s1 hr hc hk hf hs ha hw hst
    subst hk
    exact execCopyComplete_effect hh hr hc rfl hf hs ha hw hst
  · intro x s0 l s1 b v t0 hr hp hx ht hlook hread
    subst hh
    have htr := record_traffic hlook hread
    have hx1 : (chanOf s1 c ch).chain = some x := (congrArg Chan.chain (htr.chan c ch)).trans hx
    have hr1 : (chanOf s1 c ch).run = none := (congrArg Chan.run (htr.chan c ch)).trans hr
    refine ⟨fun ho => ⟨_, execCpycRecordFetch_chain hr hp hx, ?_⟩, fun f hf ho hres hc => ⟨_, execCpycRecordFetch_chain hr hp hx, ?_⟩⟩
    · rw [fetchRecord_unowned ht hlook hread ho]
      obtain ⟨h1, h2⟩ := endChain_gone 0 hx1
      exact ⟨h1, h2.trans hr1⟩
    · subst hf
      obtain ⟨o, n, q, u, hrun, hchain⟩ := fetchRecord_runs ht hlook hread ho hres hc
      exact ⟨⟨_, hrun, rfl, rfl, rfl, rfl, rfl⟩, hchain⟩

end Sys2Proof
end
